-- ==== Sys2Proof/Word.lean ====
section
/-! DEFINITION. The word types of the block: 32-bit registers (R35), bytes, and sparse tables. -/
namespace Sys2Proof

/-- A register's word: "registers are 32 bits wide" (R35). -/
abbrev Word := BitVec 32

/-- A byte of memory. -/
abbrev Byte := BitVec 8

/-- A sparse table: key and value pairs, keys strictly rising, no value equal to its key's default.  The operations
over it are in Machine/Tables.lean; State.wf says the form holds. -/
abbrev Tab (α : Type) := List (Nat × α)

end Sys2Proof
end

