-- ==== Sys2Proof/Syntax.lean ====
section
/-! DEFINITION. The commands the block takes: one constructor per row of spec/opcode_table.json, and the operand types
they carry. -/
namespace Sys2Proof

/-- The eight roles, in the bit order of every ACL mask (R49). -/
inductive Role where
  | fireguard | vendor | oem | owner | service | operator | line | debug
  deriving DecidableEq, Repr

/-- What a bus access carries beside its address and value: its role tag (R49) and its master number (R41, R51). -/
structure Bus where
  role : Role
  master : BitVec 8
  deriving DecidableEq, Repr

/-- Every register page of the part (R45).  `ch n k` is child `k` of channel `n`: 0 header, 1 sequencer, 2 job queue,
3 port, 4 binding, 5 link, 6 content ring, 7 consumable; `hioCh` are the five host I/O pages. -/
inductive Page where
  | root | sys | pwr | clk | thm | flt | fgd | sec | tim | net | ddr | srm | dma | qmg | lin | dmk | blt
  | spareSeq
  | stn (s : Fin 8)
  | loop | mot | adc | hio | bkg
  | ch (n : Fin 16) (k : Fin 8)
  | ldp (d : Fin 4)
  | stp (p : Fin 16)
  | bldc (k : Fin 4)
  | mb (u : Fin 2)
  | cv (c : Fin 6)
  | hioCh (h : Fin 5)
  deriving DecidableEq, Repr

/-- Where a REGISTER_WRITE goes: a physical address of the 40-bit map (R35), or a sequencer's timing port at an offset
of its port block (R108). -/
inductive RegTarget where
  | addr (a : BitVec 40)
  | port (n : Fin 17) (off : BitVec 8)
  deriving DecidableEq, Repr

/-- An input of the line interface whose filter has accepted a new level (R58): physical encoder `e` with the levels of
A, B and Z after the change, or physical product-detect input `i` with its level. -/
inductive LineInput where
  | enc (e : Fin 8) (a b z : Bool)
  | pd (i : Fin 16) (level : Bool)
  deriving DecidableEq, Repr

/-- A line-interface register whose EN bit a write clears (R57, R65, R66, R78). -/
inductive LinCfg where
  | enc (e : Fin 8)
  | venc (v : Fin 8)
  | pd (i : Fin 16)
  | rej (j : Fin 16)
  deriving DecidableEq, Repr

/-- A pin map of the line interface (R84): encoders, product detects 0-7 and 8-15, reject outputs 0-7 and 8-15. -/
inductive LinMap where
  | enc | pd0 | pd1 | rej0 | rej1
  deriving DecidableEq, Repr

/-- A unit with a job queue: a channel or a station (R10, R116). -/
inductive MarkUnit where
  | ch (n : Fin 16)
  | stn (s : Fin 8)
  deriving DecidableEq, Repr

/-- What an ECC check of a read found (R305, R315). -/
inductive Ecc where
  | clean | corrected | uncorrectable
  deriving DecidableEq, Repr

/-- A consumable tag's answer to the authentication of R188: its record and the signature over record and nonce. -/
structure TagReply where
  record : List Byte
  sig : List Byte
  deriving DecidableEq, Repr

/-- The profile registers whose write is one row (R253). -/
inductive ProfileParam where
  | accel | decel | jerk
  deriving DecidableEq, Repr

/-- A DRAM transaction at a port (R300): its address and length, and the bytes written, empty for a read. -/
structure DramReq where
  port : Fin 8
  addr : BitVec 40
  len : Nat
  data : List Byte
  deriving DecidableEq, Repr

/-- What the inline ECC of a DRAM read found (R305, R306): the syndrome of an error. -/
inductive DramEcc where
  | clean
  | corrected (syndrome : BitVec 8)
  | uncorrectable (syndrome : BitVec 8)
  deriving DecidableEq, Repr

/-- What the ECC of an SRAM word found (R315): the bit position of a corrected error. -/
inductive SramEcc where
  | clean
  | corrected (pos : BitVec 7)
  | uncorrectable
  deriving DecidableEq, Repr

/-- How a transfer ended on the fabric (R328, R333): complete, or an error response at a byte offset of its source or
destination. -/
inductive XferResult where
  | ok
  | readErr (ofs : Nat)
  | writeErr (ofs : Nat)
  deriving DecidableEq, Repr

/-- Who makes an enclave request (R378, R404): a write of SEC_REQk_CMD, or the debug port with its inputs. -/
inductive ReqCaller where
  | bus (b : Bus)
  | debugPort (inputs : List Byte)
  deriving DecidableEq, Repr

/-- How reading the boot flash went (R395, R397): answered, no valid SFDP header, or a read error. -/
inductive FlashRead where
  | ok | noSfdp | readError
  deriving DecidableEq, Repr

/-- A TAP instruction (R402): the ones that drive pins, and every other. -/
inductive TapInstr where
  | extest | intest | other
  deriving DecidableEq, Repr

/-- A safety output sensed at its balls (R413): enable `k`'s pair, or SAFE_OUT. -/
inductive LenSense where
  | len (k : Fin 2) (p n : Bool)
  | safeOut (level : Bool)
  deriving DecidableEq, Repr

/-- A pin Fireguard senses (R414): a channel's gate, a channel's strobes, a reject output; with the level sensed. -/
inductive FgPin where
  | gate (n : Fin 16) (on : Bool)
  | strobe (n : Fin 16) (on : Bool)
  | reject (j : Fin 16) (level : Bool)
  deriving DecidableEq, Repr

/-- How a Fireguard self-test or periodic test ended (R417): pass, or the item that failed and the fault source of the
failed path. -/
inductive TestResult where
  | pass
  | fail (item : BitVec 8) (src : BitVec 8)
  deriving DecidableEq, Repr

/-- The commands: one constructor for each row of spec/opcode_table.json, in its order.  A bus row carries the
access (`b`) and the value written (`v`); an event row carries what the block observes from outside. -/
inductive Instr where
  /-- REGISTER_WRITE (R50): A bus write to a register that has no row of its own, checked against the page ACL and role rules and then applied. -/
  | registerWrite (b : Bus) (t : RegTarget) (size : Nat) (v : Word)
  /-- ACL_WRITE (R50): A write of PG_ACL by a role in OWNER_MASK changes the read and write masks for every access served after it. -/
  | aclWrite (b : Bus) (p : Page) (v : Word)
  /-- SOFT_RESET (R40): PG_CTRL.SOFT_RESET resets the unit's state machines, counters and queues, held while a job is MARKING. -/
  | softReset (b : Bus) (p : Page) (v : Word)
  /-- UNIT_ENABLE (R40): A write of PG_CTRL.ENABLE starts or stops a unit; a write of 0 is held while a job is MARKING. -/
  | unitEnable (b : Bus) (p : Page) (v : Word)
  /-- HELD_CONTROL_APPLY (R40): A held SOFT_RESET or ENABLE = 0 takes effect when the job leaves MARKING. -/
  | heldControlApply (n : Fin 16)
  /-- ERRCNT_CLEAR (R37): A write of PG_ERRCNT.CLEAR sets the page's error count to 0. -/
  | errcntClear (b : Bus) (p : Page)
  /-- PAGE_LOCK (R54): A write of PG_LOCK.LOCK freezes the page's RWL fields, PG_SOOT_MASK and PG_ACL until the domain's next reset. -/
  | pageLock (b : Bus) (p : Page) (v : Word)
  /-- SOOT_CLEAR (R56): A W1C write to PG_SOOT clears soot bits and drops the error pin; a bit whose condition persists sets again. -/
  | sootClear (b : Bus) (p : Page) (v : Word) (persist : Word)
  /-- SWI_SET (R41): A write of ROOT_SWI_SET sets software interrupt inputs 240 + bit. -/
  | swiSet (b : Bus) (v : Word)
  /-- SWI_CLR (R41): A write of ROOT_SWI_CLR clears software interrupt inputs 240 + bit. -/
  | swiClr (b : Bus) (v : Word)
  /-- ACV_LOG_CLEAR (R41): Writing 1 to ROOT_ACV_COUNT.VALID clears VALID, the refused-access count and the log. -/
  | acvLogClear (b : Bus)
  /-- STATION_CONFIG_WRITE (R17): A station membership or configuration write is applied or refused under the station rules, with refusals in the station soot. -/
  | stationConfigWrite (b : Bus) (s : Fin 8) (off : BitVec 12) (v : Word)
  /-- TSC_COPY_CHECK (R12): Once per reference cycle the time base compares every island TSC copy with the master and reloads a differing copy, raising its source. -/
  | tscCopyCheck (island : Fin 16) (copy : BitVec 64)
  /-- SCHEDULED_EDGE_RELEASE (R111): A queued output edge is released when the port's TSC copy reaches its tick and changes its target pin or engine trigger. -/
  | scheduledEdgeRelease (n : Fin 16) (pinBad : Bool)
  /-- INPUT_FILTER_ACCEPT (R58): An encoder or product-detect input holds a new level for the filter width and the level is accepted and stamped. -/
  | inputFilterAccept (i : LineInput) (held : Nat)
  /-- ENCODER_ENABLE (R57): Setting LIN_ENCe_CFG.EN takes the present A/B levels as the starting state and restarts the velocity window. -/
  | encoderEnable (b : Bus) (e : Fin 8) (v : Word) (a lvlB z : Bool)
  /-- LIN_CFG_DISABLE (R86): A write to an enabled LIN CFG register clears EN only, keeping its other fields, and sets soot 84 if it would have changed them. -/
  | linCfgDisable (b : Bus) (r : LinCfg) (v : Word)
  /-- ENCODER_STOP_TIMEOUT (R61): No count for STOP_T sets velocity and acceleration to 0, clears MOVING and freezes the fraction. -/
  | encoderStopTimeout (e : Fin 8)
  /-- PRODUCT_QUALIFY (R66): A product-detect input stays active for PD_MIN_LEN counts and the product qualifies, taking a tracking entry and admitting its jobs. -/
  | productQualify (i : Fin 16)
  /-- PD_STUCK (R67): An input active for more than PD_MAX_LEN counts sets STUCK and raises source 82. -/
  | pdStuck (i : Fin 16)
  /-- PD_ENABLE (R68): A write of PD_CFG.EN = 1 is accepted or refused with soot 84 under the binding rules. -/
  | pdEnable (b : Bus) (i : Fin 16) (v : Word)
  /-- REJECT_HOLD_START (R73): The encoder's warp reaches a reject-on-detect hold's START and the hold asserts its output. -/
  | rejectHoldStart (j : Fin 16) (e : Fin 16)
  /-- REJECT_HOLD_END (R73): The encoder's warp reaches a hold's END and the hold returns to idle. -/
  | rejectHoldEnd (j : Fin 16) (e : Fin 16)
  /-- REJECT_DECISION (R76): The warp reaches an entry's REJECT_POS and the part decides reject or pass and opens a reject window. -/
  | rejectDecision (t : BitVec 12)
  /-- REJECT_WINDOW_END (R77): A reject window or compare pulse ends once the warp passes its end and REJ_MIN_TIME has elapsed. -/
  | rejectWindowEnd (j : Fin 16)
  /-- TRACKING_ENTRY_FREE (R71): The warp reaches REJECT_POS + REJ_LEN with the minimum time elapsed and the entry returns to the free list. -/
  | trackingEntryFree (t : BitVec 12)
  /-- REJECT_MISMATCH (R79): A reject pin differs from its command for 1 µs, setting MISMATCH and raising source 81. -/
  | rejectMismatch (j : Fin 16) (pin : Bool)
  /-- FORCE_PID (R81): A write of LIN_FORCE_PID sets FORCE in the named product's entry and reports the result. -/
  | forcePid (b : Bus) (v : Word)
  /-- COMPARE_PULSE (R81): In COMPARE mode the warp crosses REJ_CMP_POS forward and the output is asserted. -/
  | comparePulse (j : Fin 16)
  /-- REJECT_OUTPUT_CONFIG (R82): A write of LIN_REJj_CFG enables, disables or sets the mode of a reject output, HOLD asserting it continuously. -/
  | rejectOutputConfig (b : Bus) (j : Fin 16) (v : Word)
  /-- LSR_CTRL_WRITE (R83): A write of LIN_LSR_CTRL sets the line-stop conditions, and the first write starts driving the pin. -/
  | lsrCtrlWrite (b : Bus) (v : Word)
  /-- LINE_STOP_HOLD_END (R83): HOLD × 10 ms after an event expires and LINE_STOP_REQ is de-asserted. -/
  | lineStopHoldEnd
  /-- PID_NEXT_WRITE (R69): A write of LIN_PID_NEXT, allowed only while no entry is used, sets the next product ID, with 0 taken as 1. -/
  | pidNextWrite (b : Bus) (v : Word)
  /-- POLICY_WRITE (R75): An OWNER write of LIN_POLICY sets the verdicts that are rejected; bit 0 stays 1. -/
  | policyWrite (b : Bus) (v : Word)
  /-- TRK_SEL_CAPTURE (R70): A write of LIN_TRK_SEL copies the named tracking entry into LIN_TRK_D0–D7 in one tick. -/
  | trkSelCapture (b : Bus) (v : Word)
  /-- TRK_PEAK_CLEAR (R87): Writing 1 to LIN_TRK_PEAK[31] clears the peak of used entries. -/
  | trkPeakClear (b : Bus) (v : Word)
  /-- MAP_WRITE (R84): A write of a LIN map routes logical units to physical pins, refused for a shared reject output or an enabled unit. -/
  | mapWrite (b : Bus) (m : LinMap) (v : Word)
  /-- ENC_POS_CAPTURE (R88): A read of LIN_ENCe_POS_FRAC captures the warp, velocity, acceleration and TSC of the encoder. -/
  | encPosCapture (b : Bus) (e : Fin 8)
  /-- VENC_POS_CAPTURE (R89): A read of LIN_VENCv_POS_FRAC captures the virtual encoder's warp integer. -/
  | vencPosCapture (b : Bus) (v : Fin 8)
  /-- JOB_ADMISSION (R97): The job queue unit takes an admission request and either admits the job with a render request or refuses it at once. -/
  | jobAdmission (n : Fin 16)
  /-- STATION_ADMISSION (R117): Admission to a station creates a station job and admits one member job to each member in the same tick. -/
  | stationAdmission (s : Fin 8)
  /-- ARM_CHECK (R101): The warp reaches a job's arm position; the unit reserves a record slot and checks speed, content and pauses, arming or ending the job. -/
  | armCheck (n : Fin 16) (j : BitVec 8)
  /-- MARKING_START (R103): The warp reaches an ARMED job's TRIG_POS; the job enters MARKING and its START_STAMP is set. -/
  | markingStart (n : Fin 16) (j : BitVec 8)
  /-- TP_JOB_END (R109): A mark-program write ends a MARKING job as DONE, adding a condition first. -/
  | tpJobEnd (n : Fin 16) (v : Word)
  /-- JOB_END_DEFERRED_APPLY (R178): A held TP_JOB_END takes effect once the last readback check or the laser END has completed. -/
  | jobEndDeferredApply (n : Fin 16)
  /-- TP_COND (R109): A mark-program write adds a condition to a job's COND by precedence. -/
  | tpCond (n : Fin 16) (v : Word)
  /-- MARK_STALL (R104): No line or block fires for CH_STALL_T during MARKING; STALLED sets and a STALL event is queued. -/
  | markStall (n : Fin 16)
  /-- CHANNEL_START (R121): A write of CH_CTRL.RUN = 1 starts the channel, returns the part from READY and starts tag authentication. -/
  | channelStart (b : Bus) (u : MarkUnit)
  /-- CHANNEL_STOP (R105): A write of CH_CTRL.RUN = 0 refuses every non-MARKING job and inhibits later admissions. -/
  | channelStop (b : Bus) (u : MarkUnit)
  /-- JOB_CANCEL (R123): A write of CHJ_CANCEL ends a non-MARKING job REFUSED with INHIBITED and reports the result. -/
  | jobCancel (b : Bus) (u : MarkUnit) (v : Word)
  /-- MANUAL_ADMIT (R123): A write of CHJ_MADMIT admits a manual job with no product record at CHJ_MADMIT_POS. -/
  | manualAdmit (b : Bus) (u : MarkUnit) (v : Word)
  /-- JOB_ENTRY_CAPTURE (R123): A write of CHJ_SEL copies a job entry into CHJ_D0–D15 in one tick. -/
  | jobEntryCapture (b : Bus) (u : MarkUnit) (v : Word)
  /-- CHJ_PEAK_CLEAR (R123): Writing 1 to CHJ_PEAK[31] clears the job-table peak. -/
  | chjPeakClear (b : Bus) (u : MarkUnit) (v : Word)
  /-- TP_TSC_CAPTURE (R108): A read of TP_TSC_LO returns TSC [31:0] and captures TP_TSC_HI. -/
  | tpTscCapture (n : Fin 16)
  /-- TP_POS_CAPTURE (R108): A read of TP_POS_INT returns the warp integer and captures fraction and velocity. -/
  | tpPosCapture (n : Fin 16)
  /-- TP_WAIT_POS (R108): A write of TP_WAIT_POS stalls the sequencer until the warp reaches the value written. -/
  | tpWaitPos (n : Fin 16) (v : Word)
  /-- TP_WAIT_TICK (R108): A write of TP_WAIT_TICK stalls the sequencer until the TSC reaches the value written. -/
  | tpWaitTick (n : Fin 16) (v : Word)
  /-- WAIT_WAKE (R108): A sequencer wait ends on its position or tick, an abort order, a reversal or a completion pulse, recording the cause. -/
  | waitWake (n : Fin 16)
  /-- TP_PRED_POS (R110): A write of TP_PRED_POS starts a prediction of the tick at which the warp reaches a position. -/
  | tpPredPos (n : Fin 16) (v : Word)
  /-- PREDICTION_DONE (R110): The prediction port sets DONE with the predicted tick and status within 40 ticks. -/
  | predictionDone (n : Fin 16)
  /-- TP_EDGE_CMD (R111): A write of TP_EDGE_CMD queues an edge at TP_EDGE_TICK, stalling if no slot is free. -/
  | tpEdgeCmd (n : Fin 16) (v : Word)
  /-- EDGE_QUEUE_RESUME (R111): A slot frees in a full edge queue and the stalled edge write completes. -/
  | edgeQueueResume (n : Fin 16)
  /-- TP_EDGE_STAT_READ (R108): A read of TP_EDGE_STAT returns free slots and LATE and clears LATE. -/
  | tpEdgeStatRead (n : Fin 16)
  /-- TP_JOB_POP (R108): A read of TP_JOB_POP pops the ARMED, unpopped job with the lowest TRIG_POS. -/
  | tpJobPop (n : Fin 16)
  /-- TP_EVENT_POP (R108): A read of TP_EVENT pops one event for the mark program. -/
  | tpEventPop (n : Fin 16)
  /-- TP_KICK (R113): A write of TP_KICK restarts the sequencer watchdog. -/
  | tpKick (n : Fin 16)
  /-- SEQ_WATCHDOG_EXPIRY (R113): No kick arrives for SEQ_WDT and the sequencer watchdog expires. -/
  | seqWatchdogExpiry (n : Fin 17)
  /-- SEQ_ACCESS_FAULT (R107): A sequencer access outside its regions or a write to a read-only region takes an access fault, which fails the sequencer. -/
  | seqAccessFault (n : Fin 17)
  /-- SEQ_SELFTEST_START (R119): Banking starts a sequencer self-test in an idle gap with no job ARMED or MARKING. -/
  | seqSelftestStart (n : Fin 17)
  /-- SEQ_SELFTEST_DONE (R119): A sequencer self-test completes, a failure halting the sequencer as a sequencer failure. -/
  | seqSelftestDone (n : Fin 17) (pass : Bool)
  /-- PROGRAM_LOAD (R115): SEQ_CTRL.LOAD starts an enclave load of a signed mark program, refused unless the channel is disabled and empty. -/
  | programLoad (b : Bus) (n : Fin 17) (v : Word)
  /-- PROGRAM_LOAD_DONE (R115): The load ends OK with code and data copied and the hash stored, or fails with the SRAMs cleared and LOAD_FAIL set. -/
  | programLoadDone (n : Fin 17)
  /-- SEQ_RUN (R115): SEQ_CTRL.RUN starts a loaded sequencer at ENTRY. -/
  | seqRun (b : Bus) (n : Fin 17) (v : Word)
  /-- SEQ_HALT (R122): SEQ_CTRL.HALT halts the sequencer. -/
  | seqHalt (b : Bus) (n : Fin 17) (v : Word)
  /-- SWAP_START (R120): After 50 µs with no job MARKING, the spare swap begins by loading the spare from SEQ_LOAD_ADDR. -/
  | swapStart (n : Fin 16)
  /-- SWAP_COMPLETE (R120): The spare passes its self-test, the crossbar is rerouted, SPARE_IN_USE sets and the spare starts. -/
  | swapComplete (n : Fin 16) (pass : Bool)
  /-- RENDER_QUEUE_ENTER (R125): A waiting render request enters the render queue when a place frees, in ADMIT_STAMP order. -/
  | renderQueueEnter
  /-- RENDER_DISPATCH (R126): The dispatcher issues a pending render to a free engine, taking staging space, date, serials, counters and lot data. -/
  | renderDispatch
  /-- RENDER_COMMIT (R128): A finished render that passes every commit check writes its check values, makes the job COMPOSED and pushes weft descriptors. -/
  | renderCommit (e : Fin 2) (verify : Bool)
  /-- RENDER_STALL_TIMEOUT (R130): A render makes no progress for 100 µs and its engine is faulted and held in reset. -/
  | renderStallTimeout (e : Fin 2)
  /-- ENGINE_ECC_FAULT (R130): An uncorrectable ECC error in an engine's local SRAM faults the engine and re-enters its render once. -/
  | engineEccFault (e : Fin 2)
  /-- ENGINE_SELFTEST_DONE (R130): A faulted engine's self-test completes, returning it to service or leaving it out until PD6 resets. -/
  | engineSelftestDone (e : Fin 2) (pass : Bool)
  /-- RENDER_PAUSE_END (R460): A Damper RENDER_PAUSE after a commit expires and the engine may take another render. -/
  | renderPauseEnd (e : Fin 2)
  /-- TEMPLATE_LOAD (R131): DMK_TPL_CMD.LOAD starts the checked load of a signed template into an empty slot. -/
  | templateLoad (b : Bus) (v : Word)
  /-- TEMPLATE_LOAD_DONE (R131): The template load ends OK with the slot valid, or fails with nothing kept and TEMPLATE_REFUSED set. -/
  | templateLoadDone
  /-- TEMPLATE_UNLOAD (R132): DMK_TPL_CMD.UNLOAD empties a slot, refused while it is selected or carried by a job. -/
  | templateUnload (b : Bus) (v : Word)
  /-- TEMPLATE_SELECT (R133): A write of DMK_SELu selects a template for a unit from the next tick, refused if the template does not suit it. -/
  | templateSelect (b : Bus) (u : Fin 24) (v : Word)
  /-- TPL_INFO_CAPTURE (R159): A write of DMK_TPL_SEL captures a slot's template information. -/
  | tplInfoCapture (b : Bus) (v : Word)
  /-- OPERATOR_ENTRY_COMMIT (R144): DMK_OPE_CMD.COMMIT installs an operator lot entry or refuses it for permission, length or character. -/
  | operatorEntryCommit (b : Bus) (v : Word)
  /-- LOT_COMMIT (R144): DMK_LOT_CMD.COMMIT makes the selected lot shadow take effect from the next tick. -/
  | lotCommit (b : Bus) (v : Word)
  /-- SERIAL_SET_NEXT (R147): DMK_SER_CMD.SET_NEXT writes value + 1,024 to flash and sets NEXT and RESV once confirmed, refusing a backward value. -/
  | serialSetNext (b : Bus) (v : Word)
  /-- SERIAL_SET_LIMIT (R147): DMK_SER_CMD.SET_LIMIT sets a serial counter's LIMIT. -/
  | serialSetLimit (b : Bus) (v : Word)
  /-- SERIAL_CAPTURE (R159): A write of DMK_SER_SEL captures a counter's NEXT, RESV and LIMIT. -/
  | serialCapture (b : Bus) (v : Word)
  /-- DMK_PEAK_CLEAR (R159): Writing 1 to DMK_PEAK[31] clears the pending-render peak. -/
  | dmkPeakClear (b : Bus) (v : Word)
  /-- RENDER_MAX_CLEAR (R159): Writing 1 to DMK_RENDER_MAX[31] clears the longest render time. -/
  | renderMaxClear (b : Bus) (v : Word)
  /-- LINE_DEFERRED_FIRE (R167): A deferred line fires at the first tick its conditions hold, adding OVERSPEED. -/
  | lineDeferredFire (n : Fin 16) (pinBad : Bool)
  /-- EMBER_COMPUTE_DONE (R171): Ember finishes computing the next line's sub-pulse participation from the checked weft. -/
  | emberComputeDone (n : Fin 16) (table ring : Ecc)
  /-- DUMMY_SHIFT_START (R178): At the last line's line_end the port starts a dummy shift of zeros with no latch. -/
  | dummyShiftStart (n : Fin 16)
  /-- READBACK_CHECK (R177): A shift completes and the port checks the previous line's received dots against its weft. -/
  | readbackCheck (n : Fin 16) (rx : List Bool)
  /-- EMBER_SWAP (R173): EMB_CMD.SWAP requests copying the shadow set into the active set between lines. -/
  | emberSwap (b : Bus) (n : Fin 16) (v : Word)
  /-- EMBER_SWAP_APPLY (R173): The shadow Ember set is copied into the active set between two lines. -/
  | emberSwapApply (n : Fin 16)
  /-- EMBER_COPY_BACK (R173): EMB_CMD.COPY_BACK copies the active Ember set into the shadow set. -/
  | emberCopyBack (b : Bus) (n : Fin 16) (v : Word)
  /-- STROBE_TIMER_EXPIRY (R180): A strobe stays on for HP_STB_MAX; all strobes are forced off and STB_TRIP sets. -/
  | strobeTimerExpiry (n : Fin 16) (g : Fin 4) (held : Nat)
  /-- HEAD_TEMP_SAMPLE (R181): Every 1 ms the port converts the head thermistor and evaluates faults and thresholds. -/
  | headTempSample (n : Fin 16) (code : BitVec 12)
  /-- HEAD_SHUTDOWN_SOOT (R182): A held HEAD_SHUTDOWN or thermistor soot bit sets at the current line's line_end. -/
  | headShutdownSoot (n : Fin 16)
  /-- AUDIT_PULSE (R183): Banking runs one dot-audit pulse sequence in an idle gap. -/
  | auditPulse (n : Fin 16) (codes : Vector (BitVec 12) 4)
  /-- AUDIT_RESTART (R190): HP_AUDIT_CFG.RESTART starts a new dot-audit pass. -/
  | auditRestart (b : Bus) (n : Fin 16) (v : Word)
  /-- TAG_AUTH (R188): CNS_CMD.AUTH starts authentication of the cassette tag. -/
  | tagAuth (b : Bus) (n : Fin 16) (v : Word)
  /-- TAG_PRESENCE_POLL (R188): Every 500 ms the unit reads the tag UID and starts authentication on a new UID. -/
  | tagPresencePoll (n : Fin 16) (uid : Option (BitVec 64))
  /-- TAG_AUTH_DONE (R394): Tag challenge–response authentication completes, ending or continuing the refusing state. -/
  | tagAuthDone (n : Fin 16) (reply : Option TagReply)
  /-- TAG_WRITEBACK (R189): CNS_CMD.WRITEBACK writes the tag record back with LEFT_MM, WCOUNT + 1 and a new MAC. -/
  | tagWriteback (b : Bus) (n : Fin 16) (v : Word)
  /-- TAG_WRITEBACK_DONE (R189): A tag write-back completes or fails, setting WRITEBACK_FAIL. -/
  | tagWritebackDone (n : Fin 16) (ok : Bool)
  /-- TAG_WRITEBACK_RETRY (R189): 100 ms after a failed write-back the unit retries it. -/
  | tagWritebackRetry (n : Fin 16)
  /-- VECTOR_BLOCK_START (R203): Before a block's first record the executor checks its CRC-16 and runs a failing block blanked. -/
  | vectorBlockStart (n : Fin 16) (ecc pre : Ecc)
  /-- JUMP (R200): A JUMP record moves the target with the gate low, then applies the jump delay and settling. -/
  | jump (n : Fin 16)
  /-- MARK (R200): A MARK record draws a straight stroke with the gate on and its delays. -/
  | mark (n : Fin 16)
  /-- DOT (R200): A DOT record jumps to a point and holds the gate on for DWELL. -/
  | dot (n : Fin 16)
  /-- POWER (R197): A POWER record sets the laser power setpoint. -/
  | power (n : Fin 16)
  /-- FREQ (R197): A FREQ record sets the modulation period and width from the next pulse boundary. -/
  | freq (n : Fin 16)
  /-- DELAYS (R197): A DELAYS record sets the on, off, jump and polygon delays. -/
  | delays (n : Fin 16)
  /-- WAIT_POS (R208): A WAIT_POS record holds the point with the gate low until the warp reaches p_start + OFFSET. -/
  | waitPos (n : Fin 16)
  /-- SYNC_TRACK (R208): A SYNC_TRACK record turns tracking on or off and may rebase p_start. -/
  | syncTrack (n : Fin 16)
  /-- END (R202): An END record ends the executor's work once OFF_DLY has elapsed and parks if enabled. -/
  | endRecord (n : Fin 16)
  /-- VECTOR_RECORD_COMPLETE (R200): A record's motion and delays have elapsed and the next record's motion begins. -/
  | vectorRecordComplete (n : Fin 16)
  /-- WAIT_POS_RELEASE (R208): The warp reaches the WAIT_POS position and the hold is released. -/
  | waitPosRelease (n : Fin 16)
  /-- SETTLE_DONE (R201): Both axes stay within SETTLE_WIN for 2 frames and the jump's settling wait ends. -/
  | settleDone (n : Fin 16)
  /-- SETTLE_TIMEOUT (R201): SETTLE_MAX elapses first; strokes to the next JUMP run gate-low with CONTENT_ERROR. -/
  | settleTimeout (n : Fin 16)
  /-- GRID_SWAP (R206): LP_CMD.GRID_SWAP requests copying the shadow grid into the active grid. -/
  | gridSwap (b : Bus) (n : Fin 16) (v : Word)
  /-- GRID_SWAP_APPLY (R206): At the first tick with no job MARKING the shadow grid is copied into the active set. -/
  | gridSwapApply (n : Fin 16)
  /-- GRID_COPY_BACK (R206): LP_CMD.GRID_COPY_BACK copies the active grid into the shadow set. -/
  | gridCopyBack (b : Bus) (n : Fin 16) (v : Word)
  /-- LASER_PARK (R217): LP_CMD.PARK jumps the beam to the park point while no job is MARKING. -/
  | laserPark (b : Bus) (n : Fin 16) (v : Word)
  /-- GRID_DATA_WRITE (R217): A write of LP_GRID_DATA stores a shadow node and advances LP_GRID_SEL. -/
  | gridDataWrite (b : Bus) (n : Fin 16) (v : Word)
  /-- LASER_READY_TIMEOUT (R214): Laser ready stays inactive for LP_READY_T while RUN is 1 and NOT_READY sets. -/
  | laserReadyTimeout (n : Fin 16)
  /-- LASER_ALARM (R214): The laser alarm input becomes active; the gate is held low and LASER_ALARM sets. -/
  | laserAlarm (n : Fin 16)
  /-- DWELL_CUT (R215): The dwell timer passes its limit and Fireguard cuts the gate through its second path. -/
  | dwellCut (n : Fin 16)
  /-- DUR_MAX_CLEAR (R217): Writing 1 to LP_DUR_MAX[31] clears the longest mark time. -/
  | durMaxClear (b : Bus) (n : Fin 16) (v : Word)
  /-- BIND_FE_PEAK_CLEAR (R218): Writing 1 to LP_BIND_FE_PEAK[31] clears the largest following error. -/
  | bindFePeakClear (b : Bus) (n : Fin 16) (v : Word)
  /-- DATAPATH_FRAME_BOUNDARY (R222): At a frame boundary the commands of the previous frame leave in the downlinks and the frame's schedule starts. -/
  | datapathFrameBoundary (d : Fin 4) (ecc : Vector Ecc 16)
  /-- LOOP_EVALUATION (R224): At its slot a loop computes its output by the loop law, relay or open output and applies pending commands. -/
  | loopEvaluation (m : Fin 48) (ecc : Ecc)
  /-- LOOP_OPEN (R229): LOOPm_CMD OPEN puts the loop OPEN at its next evaluation, held while a bound job is MARKING. -/
  | loopOpen (b : Bus) (m : Fin 48)
  /-- LOOP_CLOSE (R230): LOOPm_CMD CLOSE closes the loop with preloaded states, or is refused. -/
  | loopClose (b : Bus) (m : Fin 48)
  /-- LOOP_TUNE (R236): LOOPm_CMD TUNE starts a relay auto-tune from OPEN, or is refused. -/
  | loopTune (b : Bus) (m : Fin 48)
  /-- LOOP_SWAP (R231): LOOPm_CMD SWAP exchanges active and shadow banks between evaluations. -/
  | loopSwap (b : Bus) (m : Fin 48)
  /-- ABORT_TUNE (R238): LOOPm_CMD ABORT_TUNE ends a tune with result ABORTED. -/
  | abortTune (b : Bus) (m : Fin 48)
  /-- HELD_LOOP_COMMAND_APPLY (R233): A held OPEN or SWAP is applied at the first evaluation after the bound job leaves MARKING. -/
  | heldLoopCommandApply (m : Fin 48)
  /-- TUNE_TIMEOUT (R238): CYCLES + 2 cycles are not complete within TUNE_TMAX and the tune ends NO_OSC. -/
  | tuneTimeout (m : Fin 48)
  /-- COEF_WRITE (R232): A coefficient write addresses the shadow bank, or in OPENLOOP mode the active bank only while OPEN. -/
  | coefWrite (b : Bus) (m : Fin 48) (k : Fin 18) (v : Word)
  /-- COEF_MODE_WRITE (R232): A write of COEF_MODE is accepted only while the loop is OPEN. -/
  | coefModeWrite (b : Bus) (m : Fin 48) (v : Word)
  /-- LOOP_FE_PEAK_CLEAR (R242): Writing 1 to LOOPm_FE_PEAK[31] clears the loop's largest error. -/
  | loopFePeakClear (b : Bus) (m : Fin 48) (v : Word)
  /-- PROFILE_TICK (R252): Each 1 µs the profile generator updates the stepper's velocity and position toward its target. -/
  | profileTick (p : Fin 16)
  /-- CHOPPER_TRIP (R248): A coil's sensed current reaches its threshold and the bridge enters its off-time, the lag measuring the load angle. -/
  | chopperTrip (p : Fin 16) (coil : Fin 2)
  /-- CHOPPER_OFF_END (R248): A coil's off-time elapses and the bridge drives again. -/
  | chopperOffEnd (p : Fin 16) (coil : Fin 2)
  /-- HOLD_CURRENT_TIMEOUT (R250): The velocity has been 0 for HOLD_T and the current drops to I_HOLD. -/
  | holdCurrentTimeout (p : Fin 16)
  /-- STEPPER_TARGET_WRITE (R252): A write of STP_TARGET is taken at the next tick in IDLE or MOVING, or stored. -/
  | stepperTargetWrite (b : Bus) (p : Fin 16) (v : Word)
  /-- PROFILE_PARAM_WRITE (R254): A write of ACCEL, DECEL or JERK applies from the next profile tick. -/
  | profileParamWrite (b : Bus) (p : Fin 16) (k : ProfileParam) (v : Word)
  /-- STEPPER_STOP (R259): STP_CMD STOP decelerates the axis to rest or sets DC duty to 0. -/
  | stepperStop (b : Bus) (p : Fin 16)
  /-- STEPPER_HOME (R258): STP_CMD HOME moves the axis to the hard stop and sets its reference. -/
  | stepperHome (b : Bus) (p : Fin 16)
  /-- STEPPER_SET_POS (R258): STP_CMD SET_POS sets the position, clears LOST and STALLED and enters IDLE. -/
  | stepperSetPos (b : Bus) (p : Fin 16)
  /-- STEPPER_GEAR (R255): STP_CMD GEAR gears the axis to an encoder velocity. -/
  | stepperGear (b : Bus) (p : Fin 16)
  /-- STEPPER_UNGEAR (R255): STP_CMD UNGEAR decelerates a geared axis to rest and enters IDLE. -/
  | stepperUngear (b : Bus) (p : Fin 16)
  /-- STEPPER_RESUME (R259): STP_CMD RESUME takes a STALLED or HALTED port to IDLE at its position. -/
  | stepperResume (b : Bus) (p : Fin 16)
  /-- HELD_STEPPER_COMMAND_APPLY (R260): A command held while the bound job is MARKING is applied when it leaves MARKING. -/
  | heldStepperCommandApply (p : Fin 16)
  /-- DC_DUTY_WRITE (R259): A write of STP_DC_DUTY sets the DC duty and ends a STOP's hold. -/
  | dcDutyWrite (b : Bus) (p : Fin 16) (v : Word)
  /-- BLDC_ON (R264): BL_CMD ON starts the BLDC port at SENSE. -/
  | bldcOn (b : Bus) (k : Fin 4)
  /-- BLDC_OFF (R264): BL_CMD OFF turns every gate off and the motor coasts. -/
  | bldcOff (b : Bus) (k : Fin 4)
  /-- BLDC_STOP (R264): BL_CMD STOP brakes below CATCH_MIN and then turns the gates off. -/
  | bldcStop (b : Bus) (k : Fin 4)
  /-- BLDC_SENSE_END (R264): After 10 ms of SENSE the port enters RUN, BRAKE or ALIGN by the measured spin. -/
  | bldcSenseEnd (k : Fin 4)
  /-- BLDC_ZERO_CROSSING (R262): A back-EMF zero crossing is accepted and schedules the next commutation. -/
  | bldcZeroCrossing (k : Fin 4) (fwd : Bool)
  /-- BLDC_COMMUTATION (R262): The commutation time is reached and the drive steps to the next sector. -/
  | bldcCommutation (k : Fin 4)
  /-- BLDC_ALIGN_END (R264): ALIGN_T elapses and the port enters RAMP. -/
  | bldcAlignEnd (k : Fin 4)
  /-- BLDC_START_FAIL (R264): RAMP ends without handover within 100 ms; START_FAIL sets and the port waits to restart. -/
  | bldcStartFail (k : Fin 4)
  /-- BLDC_BEMF_LOST (R264): No crossing in RUN within twice the sector time; BEMF_LOST sets and the port waits to restart. -/
  | bldcBemfLost (k : Fin 4)
  /-- BLDC_RESTART (R264): 1 s in WAIT_RESTART elapses and the port starts again at SENSE. -/
  | bldcRestart (k : Fin 4)
  /-- BLDC_LEARN_UPDATE (R263): Every 100 ms in RUN the part updates BL_LEARN. -/
  | bldcLearnUpdate (k : Fin 4)
  /-- BUS_LEVEL_CROSSING (R266): A motor-bus comparator crosses a brake or OV level and its hardware reaction acts within 2 µs. -/
  | busLevelCrossing (u : Fin 2) (mv : BitVec 16)
  /-- BRAKE_CURRENT_CHECK (R267): 5 µs after a brake edge the current is checked and a failure sets CHOPPER_FAULT. -/
  | brakeCurrentCheck (u : Fin 2) (code : BitVec 10)
  /-- CLEAR_CF (R267): MB_CMD.CLEAR_CF clears a bus's CHOPPER_FAULT hold. -/
  | clearCf (b : Bus) (u : Fin 2) (v : Word)
  /-- SHORT_HOLD_END (R270): The bus stays below OV1 − OV_HYST for SHORT_HOLD and its SHORTED ports leave active short. -/
  | shortHoldEnd (u : Fin 2)
  /-- MB_VPEAK_CLEAR (R277): Writing 1 to MB_VPEAK[31] clears the bus peak voltage. -/
  | mbVpeakClear (b : Bus) (u : Fin 2) (v : Word)
  /-- UPLINK_FRAME (R284): An uplink frame arrives and is judged good or bad, with its positions given to the loops and Fireguard. -/
  | uplinkFrame (n : Fin 16) (bits : BitVec 160) (rtt : Nat)
  /-- UPLINK_MISSING (R284): No uplink frame arrives by 600 ticks after the boundary and the frame counts as missing. -/
  | uplinkMissing (n : Fin 16)
  /-- UCLK_LOSS (R290): No UCLK edge for 100 ns while UP is a link fault. -/
  | uclkLoss (n : Fin 16)
  /-- TRAINING_WAIT_END (R288): The 100 µs wait after DCLK starts ends and the tap search begins. -/
  | trainingWaitEnd (n : Fin 16)
  /-- TRAINING_COMPLETE (R288): The tap search ends; the link enters UP with the eye centre or fails to DOWN. -/
  | trainingComplete (n : Fin 16)
  /-- TRAINING_RETRY (R289): 100 ms after a failed attempt began, a new training attempt starts. -/
  | trainingRetry (n : Fin 16)
  /-- LINK_RETRAIN (R288): LK_CMD.RETRAIN starts training, held while a job is MARKING. -/
  | linkRetrain (b : Bus) (n : Fin 16) (v : Word)
  /-- HELD_RETRAIN_APPLY (R288): A held RETRAIN starts training when the job leaves MARKING. -/
  | heldRetrainApply (n : Fin 16)
  /-- LINK_CLEAR (R293): LK_CMD.CLEAR zeroes LK_CNT_BAD and the LK_RTT peak. -/
  | linkClear (b : Bus) (n : Fin 16) (v : Word)
  /-- DRAM_TRANSACTION (R301): A port transaction is arbitrated and issued to the DRAM with its ECC line. -/
  | dramTransaction (ready : List DramReq) (ecc : DramEcc)
  /-- CORRECTED_WRITEBACK (R305): The scheduled write-back of a corrected line is issued on port 7, dropped if the line was written since. -/
  | correctedWriteback
  /-- DRAM_REFRESH (R307): Each tREFIpb a per-bank refresh is issued. -/
  | dramRefresh (c : Fin 2)
  /-- MR4_POLL (R307): Every MR4_POLL ms the controller reads MR4 and sets the refresh multiplier and derating. -/
  | mr4Poll (rates : Vector (BitVec 3) 2)
  /-- DDR_TRAINING_DONE (R308): Initial training completes or finds no working setting and sets TRAIN_FAIL. -/
  | ddrTrainingDone (ok : Bool)
  /-- DDR_TRAINING_RETRY (R308): 5 s after a failed initial training Kindling retries it. -/
  | ddrTrainingRetry
  /-- RETRAIN_INTERVAL_EXPIRY (R309): INTERVAL seconds since the last training trigger a periodic retraining. -/
  | retrainIntervalExpiry
  /-- DQS_DRIFT_POLL (R309): Every DRIFT_PERIOD the DQS oscillator is read and excess drift triggers retraining. -/
  | dqsDriftPoll (taps : Vector (BitVec 8) 2)
  /-- DDR_RETRAIN (R309): DDR_CMD.RETRAIN triggers a retraining. -/
  | ddrRetrain (b : Bus) (v : Word)
  /-- RETRAIN_SLICE (R309): One 1 µs retraining slice runs on a channel, the last ending the retraining. -/
  | retrainSlice (c : Fin 2) (found : Bool)
  /-- DDR_ROW_REMAP (R311): DDR_CMD.REMAP remaps the target row to a free spare. -/
  | ddrRowRemap (b : Bus) (v : Word)
  /-- REMAP_COPY_DONE (R311): A remap copy completes and the row is redirected to its spare. -/
  | remapCopyDone
  /-- DDR_PPR (R312): DDR_CMD.PPR starts post-package repair of a remapped row, or is refused. -/
  | ddrPpr (b : Bus) (v : Word)
  /-- PPR_DONE (R312): Post-package repair completes, copies the spare back and frees the entry, or reports FAILED. -/
  | pprDone (ok : Bool)
  /-- ELOG_CLEAR (R319): DDR_CMD.ELOG_CLEAR clears the DRAM error log. -/
  | elogClear (b : Bus) (v : Word)
  /-- ELOG_CAPTURE (R319): A write of DDR_ELOG_SEL captures a log entry. -/
  | elogCapture (b : Bus) (v : Word)
  /-- REMAP_ENTRY_CAPTURE (R319): A write of DDR_REMAP_SEL captures a remap entry. -/
  | remapEntryCapture (b : Bus) (v : Word)
  /-- DDR_CE_CNT_CLEAR (R319): Writing 1 to DDR_CE_CNT[31] clears the correctable error count. -/
  | ddrCeCntClear (b : Bus) (v : Word)
  /-- DRAM_SCRUB_READ (R313): Banking reads the next line of DRAM on port 7 in an idle gap. -/
  | dramScrubRead (ecc : DramEcc)
  /-- SRAM_SCRUB_READ (R317): SRAM scrub reads the next word of a macro when no other access uses it. -/
  | sramScrubRead (m : BitVec 8) (row : BitVec 10) (ecc : SramEcc)
  /-- SRM_REPAIR_LOAD (R316): A write of SRM_REPAIR_LOAD applies a remembered repair while SRM is unlocked. -/
  | srmRepairLoad (b : Bus) (v : Word)
  /-- SRM_REPAIR_CAPTURE (R321): A write of SRM_REPAIR_SEL captures a repair-list entry. -/
  | srmRepairCapture (b : Bus) (v : Word)
  /-- SRM_CE_CNT_CLEAR (R321): Writing 1 to SRM_CE_CNT[31] clears the SRAM correctable count. -/
  | srmCeCntClear (b : Bus) (v : Word)
  /-- WEFT_DESCRIPTOR_TAKE (R325): A weft channel takes the next descriptor from its queue and checks it. -/
  | weftDescriptorTake (n : Fin 16)
  /-- WEFT_TRANSFER_START (R326): The content ring has LEN bytes free and the weft transfer starts. -/
  | weftTransferStart (n : Fin 16)
  /-- WEFT_TRANSFER_COMPLETE (R326): All write responses return; the ring checks the block, staging space is released and the sequencer pulsed. -/
  | weftTransferComplete (n : Fin 16) (r : XferResult)
  /-- GEN_DESCRIPTOR_TAKE (R330): A general channel takes the next queue entry or chained descriptor, checks it and starts its transfer. -/
  | genDescriptorTake (k : Fin 16) (chainOk : Bool)
  /-- GEN_DESCRIPTOR_COMPLETE (R332): All write responses return and the descriptor completes, raising end of count at NEXT = 0. -/
  | genDescriptorComplete (k : Fin 16) (r : XferResult)
  /-- DMA_ENABLE (R333): DMA_CHk_CTRL.EN = 1 enables a channel or, in ERROR, drops the failed chain and resumes. -/
  | dmaEnable (b : Bus) (k : Fin 32)
  /-- DMA_DISABLE (R333): DMA_CHk_CTRL.EN = 0 stops a transfer at the next 64-byte boundary. -/
  | dmaDisable (b : Bus) (k : Fin 32)
  /-- DMA_ABORT_DONE (R333): Outstanding responses return and the stopped transfer ends ABORTED. -/
  | dmaAbortDone (k : Fin 16)
  /-- BOLT_LANE_ACQUIRE (R346): A free lane of the needed kind is taken by a waiting DMA channel or Damask. -/
  | boltLaneAcquire (l : Fin 4)
  /-- BOLT_DONE (R344): A lane finishes a bolt, releasing checked output or reporting its result. -/
  | boltDone (l : Fin 4) (ecc : Ecc)
  /-- BOLT_LANE_SELFTEST_DONE (R346): A lane self-test completes, a failure leaving the lane out of service. -/
  | boltLaneSelftestDone (l : Fin 4) (pass : Bool)
  /-- QUEUE_PRODUCE (R337): A produce doorbell write advances TAIL by N or is refused. -/
  | queueProduce (b : Bus) (q : Fin 128) (v : Word)
  /-- QUEUE_CONSUME (R337): A consume doorbell write advances HEAD by N or is refused. -/
  | queueConsume (b : Bus) (q : Fin 128) (v : Word)
  /-- QUEUE_CONFIG_WRITE (R340): A write of QMG_Q_CFG configures or enables the selected queue, or is refused. -/
  | queueConfigWrite (b : Bus) (v : Word)
  /-- QUEUE_SELECT_CAPTURE (R349): A write of QMG_SEL captures the queue's registers. -/
  | queueSelectCapture (b : Bus) (v : Word)
  /-- QUEUE_MOVE (R341): A queue on a retired row is copied to a spare queue once USED ≤ 16 and it is idle. -/
  | queueMove (q : Fin 128)
  /-- TIM_RATE_WRITE (R352): A write of TIM_RATE sets the TSC rate adjustment. -/
  | timRateWrite (b : Bus) (v : Word)
  /-- TIM_RATE_APPLY (R352): A written TIM_RATE takes effect at the next reference edge. -/
  | timRateApply
  /-- STEP_PTP (R354): TIM_CMD.STEP_PTP adds the step offset to the network timer in one tick. -/
  | stepPtp (b : Bus) (v : Word)
  /-- LOCK_KICK (R355): TIM_CMD.LOCK_KICK declares the servo locked and sets LOCKED. -/
  | lockKick (b : Bus) (v : Word)
  /-- UNLOCK (R355): TIM_CMD.UNLOCK clears LOCKED, starts holdover and sets PTP_LOST. -/
  | unlock (b : Bus) (v : Word)
  /-- ACCEPT_STEP (R370): TIM_CMD.ACCEPT_STEP by OWNER takes a pending date step, setting or holding the date clock. -/
  | acceptStep (b : Bus) (v : Word)
  /-- SET_INITIAL (R371): TIM_CMD.SET_INITIAL by OWNER sets the invalid date clock from TIM_DC_SET. -/
  | setInitial (b : Bus) (v : Word)
  /-- PTP_LOCK_TIMEOUT (R355): PTP_TMO passes without a kick; LOCKED clears and holdover starts. -/
  | ptpLockTimeout
  /-- HOLDOVER_RATE_UPDATE (R356): Once per second the holdover rate is recomputed. -/
  | holdoverRateUpdate
  /-- DATE_CLOCK_UPDATE (R368): Each millisecond the date clock's error is evaluated and it slews, holds over or resumes. -/
  | dateClockUpdate
  /-- FLOOR_UPDATE (R371): Every second TIM_FLOOR takes the largest date-clock value issued. -/
  | floorUpdate
  /-- UTC_OFFSET_WRITE (R366): A write of TIM_UTC_OFS changes the target by at most 1 s, slewed. -/
  | utcOffsetWrite (b : Bus) (v : Word)
  /-- TZ_WRITE (R367): A write of TIM_TZk is accepted or refused under the time-zone rules. -/
  | tzWrite (b : Bus) (k : Fin 8) (ofs : Bool) (v : Word)
  /-- TZ_STD_WRITE (R367): A write of TIM_TZ_STD is stored, applied or refused under the time-zone rules. -/
  | tzStdWrite (b : Bus) (v : Word)
  /-- TSC_CAPTURE (R373): A read of TIM_TSC_LO captures the TSC and PTP time together. -/
  | tscCapture (b : Bus)
  /-- DATE_CLOCK_CAPTURE (R373): A read of TIM_DC_LO captures TIM_DC_HI. -/
  | dateClockCapture (b : Bus)
  /-- ETH_FRAME_RECEIVE (R359): A frame arrives at a switch port, is stamped, checked and forwarded or dropped. -/
  | ethFrameReceive (p : Fin 2) (frame : List Byte) (fcsOk : Bool) (stamp : Option Nat)
  /-- NET_TX_DESCRIPTOR (R361): The switch takes a transmit descriptor from the internal port's queue. -/
  | netTxDescriptor (q : Fin 4)
  /-- ETH_FRAME_TRANSMIT (R364): A frame is sent on a port, PTP event messages corrected, and its descriptor status written. -/
  | ethFrameTransmit (p : Fin 2) (ecc : Ecc)
  /-- MAC_ENTRY_AGE (R359): A learned address sees no traffic for NET_AGE and ages out. -/
  | macEntryAge (mac : BitVec 48)
  /-- MDIO_GO (R374): NET_MDIO_CTRL.GO starts an MDIO management frame. -/
  | mdioGo (b : Bus) (v : Word)
  /-- MDIO_DONE (R374): The MDIO transaction completes and GO clears. -/
  | mdioDone (data : BitVec 16)
  /-- GET_CHALLENGE (R380): The enclave returns a 32-byte nonce for the slot. -/
  | getChallenge (c : ReqCaller) (k : Fin 4)
  /-- SET_ROLE (R381): The enclave verifies a signed token and sets a context's role. -/
  | setRole (c : ReqCaller) (k : Fin 4)
  /-- DROP_ROLE (R379): The enclave sets a context to a lesser role without a signature. -/
  | dropRole (c : ReqCaller) (k : Fin 4)
  /-- CRED_SET (R379): The enclave installs a credential key for SERVICE, OPERATOR or LINE. -/
  | credSet (c : ReqCaller) (k : Fin 4)
  /-- CRED_CLEAR (R379): The enclave removes a credential key. -/
  | credClear (c : ReqCaller) (k : Fin 4)
  /-- TAKE_OWNERSHIP (R387): OEM installs the first owner key on an UNOWNED part. -/
  | takeOwnership (c : ReqCaller) (k : Fin 4)
  /-- TRANSFER_OWNERSHIP (R387): A signed request replaces the owner and clears owner keys and credentials, starting new chains. -/
  | transferOwnership (c : ReqCaller) (k : Fin 4)
  /-- OWNER_RESET (R387): An OEM-signed request erases owner data and sets the part UNOWNED. -/
  | ownerReset (c : ReqCaller) (k : Fin 4)
  /-- TPL_KEY_SET (R388): OWNER installs an owner template key. -/
  | tplKeySet (c : ReqCaller) (k : Fin 4)
  /-- REC_KEY_GEN (R393): The enclave generates a new record MAC key, returns it wrapped for the owner and starts new chains. -/
  | recKeyGen (c : ReqCaller) (k : Fin 4)
  /-- PROG_KEY_SET (R379): OEM installs the OEM program key matching its OTP hash. -/
  | progKeySet (c : ReqCaller) (k : Fin 4)
  /-- PROVISION (R385): OEM writes one blank OTP field in OEM_OPEN. -/
  | provision (c : ReqCaller) (k : Fin 4)
  /-- SECURE (R385): OEM moves the part to SECURED once the required fields are written. -/
  | secure (c : ReqCaller) (k : Fin 4)
  /-- REVOKE_BOOT_KEY (R379): A signed request sets a boot slot's revocation bit. -/
  | revokeBootKey (c : ReqCaller) (k : Fin 4)
  /-- ROLLBACK_COMMIT (R401): The ROLLBACK thermometer is raised to the running image's VERSION. -/
  | rollbackCommit (c : ReqCaller) (k : Fin 4)
  /-- SET_BOOT_SLOT (R398): OEM names the slot Kindling tries first at the next boot. -/
  | setBootSlot (c : ReqCaller) (k : Fin 4)
  /-- DEBUG_UNLOCK (R402): A signed request opens the OEM debug level until the next PD3 reset. -/
  | debugUnlock (c : ReqCaller) (k : Fin 4)
  /-- RMA_UNLOCK (R402): A VENDOR-signed request opens RMA debug, overwrites secrets and moves the lifecycle to RMA. -/
  | rmaUnlock (c : ReqCaller) (k : Fin 4)
  /-- RANDOM (R379): The enclave returns 1–256 random bytes. -/
  | random (c : ReqCaller) (k : Fin 4)
  /-- NONCE_EXPIRY (R380): A slot's nonce expires 60 s after issue. -/
  | nonceExpiry (k : Fin 4)
  /-- ENTROPY_FAILURE (R377): An entropy health test fails, setting ENTROPY and failing requests that need randomness. -/
  | entropyFailure
  /-- REGION_WRITE (R382): A write of SEC_RGNr_BASE_LO sets or empties a memory region entry under the setter rule. -/
  | regionWrite (b : Bus) (r : Fin 16) (v : Word)
  /-- RECORD_SIGN (R392): The record engine signs a pending record and pushes it to the channel's record queue. -/
  | recordSign
  /-- CHAIN_CAPTURE (R406): A write of SEC_CHAIN_SEL captures a channel's chain head. -/
  | chainCapture (b : Bus) (v : Word)
  /-- STORE_WRITE_CONFIRM (R386): A flash store entry is read back and verified, confirming serial reservations, epochs and keys. -/
  | storeWriteConfirm (ok : Bool)
  /-- STORE_WRITE_RETRY (R386): 10 ms after a failed store write it is retried and STORE_FAIL set. -/
  | storeWriteRetry
  /-- BOOT_ATTEMPT (R397): Kindling attempts to boot a slot through its checks in order. -/
  | bootAttempt (slot : Fin 2) (r : FlashRead)
  /-- BOOT_RETRY_WAIT_END (R398): The backoff wait after both slots failed ends and both slots are tried again. -/
  | bootRetryWaitEnd
  /-- RECOVERY_HELLO (R399): A recovery HELLO frame is answered with UID, lifecycle and boot status. -/
  | recoveryHello (frame : List Byte)
  /-- RECOVERY_HEADER (R399): A recovery HEADER frame is checked as a boot header. -/
  | recoveryHeader (frame : List Byte)
  /-- RECOVERY_DATA (R399): A recovery DATA frame writes bytes of the SRAM image. -/
  | recoveryData (frame : List Byte)
  /-- RECOVERY_RUN (R399): A recovery RUN frame checks SRAM_HASH and runs the SRAM image. -/
  | recoveryRun (frame : List Byte)
  /-- TAP_INSTRUCTION_LOAD (R404): Loading EXTEST or INTEST places the part in DEVICE_SAFE while it stays loaded. -/
  | tapInstructionLoad (i : TapInstr)
  /-- INTERLOCK_OPEN (R410): An enabled interlock opens; every laser gate goes low within 100 ns and source 2 + x is raised. -/
  | interlockOpen (x : Fin 4) (l1 l2 : Bool)
  /-- INTERLOCK_CLOSE (R410): An interlock closes and Fireguard clears its soot bit. -/
  | interlockClose (x : Fin 4) (l1 l2 : Bool)
  /-- INTERLOCK_DISCREPANCY (R411): An interlock's channels disagree for DISC_T and DISC holds it open. -/
  | interlockDiscrepancy (x : Fin 4)
  /-- KEY_SWITCH_CHANGE (R412): KEYSW changes; while low the gates are held low and the enables fall. -/
  | keySwitchChange (high : Bool)
  /-- ENABLE_ASSERT (R413): All enable conditions hold and the laser enable is asserted. -/
  | enableAssert (k : Fin 2)
  /-- ENABLE_OFF_DELAY_END (R413): LEN_OFF_DLY after a condition fails the enable falls. -/
  | enableOffDelayEnd (k : Fin 2)
  /-- ENABLE_READBACK_MISMATCH (R413): An enable or SAFE_OUT differs from command for 1 µs, raising source 7. -/
  | enableReadbackMismatch (o : LenSense)
  /-- READBACK_MISMATCH (R414): A gate, strobe or reject pin differs from its command for 1 µs and Fireguard reacts. -/
  | readbackMismatch (p : FgPin)
  /-- DUTY_WINDOW_CHECK (R414): Each 1 ms the sensed modulation duty is compared with the OEM limit. -/
  | dutyWindowCheck (n : Fin 16) (duty : BitVec 16)
  /-- CLOCK_MONITOR_WINDOW (R415): Each 1 µs window of reference and fabric edges is counted and a loss forces gates and strobes off. -/
  | clockMonitorWindow (refEdges fabEdges : Nat)
  /-- FG_OSC_DEVIATION (R415): Fireguard's oscillator deviates beyond ±5 % for 100 µs, raising source 8. -/
  | fgOscDeviation (freq : BitVec 16)
  /-- LOCKSTEP_MISMATCH (R416): The Fireguard cores disagree, raising source 0 and resetting them. -/
  | lockstepMismatch
  /-- FG_WATCHDOG_EXPIRY (R416): Fireguard's watchdog expires, raising source 1 and resetting the cores. -/
  | fgWatchdogExpiry
  /-- SUPPLY_WINDOW_FAULT (R416): A Fireguard supply leaves its window for 2 µs, raising source 11. -/
  | supplyWindowFault
  /-- FG_SELFTEST_START (R417): Fireguard starts its self-test at start-up step 4 or after a core reset. -/
  | fgSelftestStart
  /-- FG_SELFTEST_DONE (R417): The self-test completes; a failure keeps DEVICE_SAFE and records the item. -/
  | fgSelftestDone (r : TestResult)
  /-- FG_SELFTEST_RETRY (R417): 1 s after a failed self-test it is retried. -/
  | fgSelftestRetry
  /-- FG_PERIODIC_TEST (R417): Fireguard repeats its comparator, checker and watchdog tests at least once per second. -/
  | fgPeriodicTest (r : TestResult)
  /-- FG_CONFIG_LOAD (R421): Fireguard checks, applies, reads back and CRC-checks the signed configuration. -/
  | fgConfigLoad
  /-- FG_DOMAIN_REAPPLY (R421): After a domain powers up Fireguard re-applies and checks its configuration writes. -/
  | fgDomainReapply (d : Fin 13)
  /-- CONFIG_CRC_PASS (R421): Every 5 ms a CRC pass over powered pages compares the configuration and raises source 12 on mismatch. -/
  | configCrcPass
  /-- GRACE_EXPIRY (R430): A grace timer expires and the source takes its next step on the Flue. -/
  | graceExpiry (src : BitVec 8)
  /-- WARM_RESET_RELEASE (R425): The warm reset ends and Kindling runs the full start-up. -/
  | warmResetRelease
  /-- FLT_ACK (R430): A write of FLT_ACK cancels a running grace timer. -/
  | fltAck (b : Bus) (v : Word)
  /-- FLT_RELEASE (R436): An OPERATOR write of FLT_RELEASE releases RELEASABLE sources. -/
  | fltRelease (b : Bus) (v : Word)
  /-- RELEASE_PULSE (R436): A RELEASE pulse of valid length ends and releases every RELEASABLE source. -/
  | releasePulse (held : Nat)
  /-- QUIET_EXPIRY (R435): A source's quiet time elapses and it recovers or becomes RELEASABLE. -/
  | quietExpiry (src : BitVec 8)
  /-- INTEGRITY_MISMATCH (R434): A collector word and its inverted copy differ; DEVICE_SAFE, source 10 and the state is rebuilt. -/
  | integrityMismatch
  /-- FLT_SELECT_CAPTURE (R441): A write of FLT_SEL captures a source's state and configuration. -/
  | fltSelectCapture (b : Bus) (v : Word)
  /-- FLT_LOG_CAPTURE (R441): A write of FLT_LOG_SEL captures a collector log entry. -/
  | fltLogCapture (b : Bus) (v : Word)
  /-- SYN_RUN (R446): A write of CLK_SYNs_CFG.RUN starts a synthesiser acquiring lock. -/
  | synRun (b : Bus) (y : Fin 4) (v : Word)
  /-- SYN_LOCK (R446): The phase error stays within LOCK_WIN for LOCK_N cycles; lock is declared and outputs switch back. -/
  | synLock (y : Fin 4) (err : BitVec 16)
  /-- SYN_LOSS_OF_LOCK (R448): The phase error stays outside LOCK_WIN for LOSS_N cycles; the source is raised and outputs go to bypass. -/
  | synLossOfLock (y : Fin 4) (err : BitVec 16)
  /-- RELOCK_ATTEMPT (R450): After its backoff a synthesiser in bypass starts a relock attempt. -/
  | relockAttempt (y : Fin 4)
  /-- RELOCK_ATTEMPT_TIMEOUT (R450): A relock attempt does not lock within 100 µs and the backoff doubles. -/
  | relockAttemptTimeout (y : Fin 4)
  /-- BAND_RECENTRE (R445): The fine code stays near an edge for 1 s and Banking moves the band entry toward centre. -/
  | bandRecentre (y : Fin 4) (fine : BitVec 8)
  /-- REF_LOSS (R453): No reference edge for 200 ns; outputs switch to the backup oscillator and source 20 is raised. -/
  | refLoss
  /-- REF_GOOD (R454): 1,024 good reference periods return the bypass to the reference and start relock attempts. -/
  | refGood
  /-- BACKUP_MEASURE (R453): Every 1 s the reference is measured against the backup and CLK_BKP_RATIO kept. -/
  | backupMeasure (kHz : BitVec 16) (ratio : Word)
  /-- CLOCK_OUTPUT_WRITE (R443): A write of CLK_SYNs_OUTo sets an output's divider, delay or enable glitch-free. -/
  | clockOutputWrite (b : Bus) (y : Fin 4) (o : Fin 4) (v : Word)
  /-- PHERR_CLEAR (R465): Writing 1 to CLK_SYNs_PHERR[31] clears the largest phase error. -/
  | pherrClear (b : Bus) (y : Fin 4) (v : Word)
  /-- DIE_SENSOR_ROUND (R456): Every 1 ms all 12 die sensors are converted and judged, and thresholds evaluated. -/
  | dieSensorRound (temps : Vector (BitVec 16) 12) (ext : Vector (BitVec 12) 2)
  /-- SHUTDOWN_POWER_OFF (R461): 10 ms after shutdown PD3 and PD5–PD12 are turned off. -/
  | shutdownPowerOff
  /-- DAMPER_STEP (R459): Each STEP_T the Damper's automatic level rises or falls by one. -/
  | damperStep
  /-- MARK_PAUSE_END (R460): A between-mark pause expires and DAMPER_PAUSE clears. -/
  | markPauseEnd (n : Fin 16)
  /-- THM_PEAK_CLEAR (R466): Writing 1 to THM_PEAK[31] clears the highest die temperature. -/
  | thmPeakClear (b : Bus) (v : Word)
  /-- ALWAYS_ON_POWER_UP (R479): The always-on supply crosses its threshold and the start-up order begins. -/
  | alwaysOnPowerUp (testMode : Bool)
  /-- RAIL_GROUP_ENABLE (R469): The next group of slots is enabled once the present group is GOOD or timed out. -/
  | railGroupEnable
  /-- PG_EDGE (R469): A filtered power-good edge starts or restarts a slot's qualify timer or marks a rail lost. -/
  | pgEdge (k : Fin 12) (level : Bool)
  /-- RAIL_QUALIFIED (R469): PG stays high for QUAL and the slot becomes GOOD, unblocking its functions. -/
  | railQualified (k : Fin 12)
  /-- RAIL_TIMEOUT (R470): A slot is not GOOD within TIMEOUT and becomes NOT_GOOD, or a power-down step moves on. -/
  | railTimeout (k : Fin 12)
  /-- POWER_DOWN_GROUP (R474): A group of slots is powered down and the sequencer waits for its PGs to fall. -/
  | powerDownGroup
  /-- VIN_WARNING (R475): The VIN early-warning comparator trips and the emergency power-down runs. -/
  | vinWarning
  /-- VIN_RESTORE (R477): VIN_SENSE stays above threshold for 10 ms and the part restarts from step 2. -/
  | vinRestore
  /-- DOMAIN_CONTROL_WRITE (R478): A write of PWR_DOM_CTRL switches domains on or off under the domain rules. -/
  | domainControlWrite (b : Bus) (v : Word)
  /-- DOMAIN_SWITCH_ON (R478): A domain switch reports ON and its pages take their reset values. -/
  | domainSwitchOn (d : Fin 13)
  /-- DOMAIN_SWITCH_FAIL (R478): A switch does not report ON within 50 µs or drops, raising source 28. -/
  | domainSwitchFail (d : Fin 13)
  /-- HELD_DOMAIN_OFF (R478): A held switch-off of PD7 or PD8 takes effect once no job in it is MARKING. -/
  | heldDomainOff (d : Fin 13)
  /-- POWER_STATE_REQUEST (R481): A write of PWR_STATE_REQ names a target, enters WAITING_FOR_IDLE, is held or is refused. -/
  | powerStateRequest (b : Bus) (v : Word)
  /-- POWER_ENTRY_START (R481): All idle conditions hold and entry begins, raising the PROCEED interrupt or gating for READY. -/
  | powerEntryStart
  /-- POWER_PROCEED (R482): PWR_CMD.PROCEED lets the entry switch domains off, seal retention and drop rails. -/
  | powerProceed (b : Bus)
  /-- FW_TIMEOUT (R482): FW_T elapses without PROCEED and the entry proceeds. -/
  | fwTimeout
  /-- POWER_CANCEL (R481): PWR_CMD.CANCEL drops a waiting request. -/
  | powerCancel (b : Bus)
  /-- TWO_WIRE_WAKE (R487): An address match on the host two-wire port wakes the part. -/
  | twoWireWake (addr : BitVec 7) (arg : Option Byte)
  /-- WATCH_SAMPLE (R488): Each watch period the sequencer samples the watch slots and wakes on a met condition. -/
  | watchSample (codes : Vector (Vector (BitVec 16) 4) 8)
  /-- WCH_WAKE (R486): An enabled edge on a watch input wakes the part. -/
  | wchWake (j : Fin 8) (falling : Bool)
  /-- RTC_ALARM_WAKE (R486): The RTC count reaches PWR_ALARM and wakes the part. -/
  | rtcAlarmWake
  /-- RESET_PIN (R486): RESET held low for 1 µs wakes the part or warm-resets it at release. -/
  | resetPin (held : Nat)
  /-- WAKE_COMPLETE (R489): The wake sequence finishes, core 0 starts in RUN and any held request is taken. -/
  | wakeComplete
  /-- GALVO_DRIFT_CHECK (R498): Banking holds a laser channel's axes at park to measure drift. -/
  | galvoDriftCheck (n : Fin 16)
  /-- GALVO_DRIFT_DONE (R498): After 256 frames the mean error per axis is stored. -/
  | galvoDriftDone (n : Fin 16)
  /-- TELEMETRY_SNAPSHOT (R499): At each TSC second boundary Banking writes a 64-byte telemetry snapshot. -/
  | telemetrySnapshot (writeOk : Bool)
  /-- WEAR_SAVE (R500): Hourly and at power-state entry Banking saves the wear counters to the log store. -/
  | wearSave
  /-- WEAR_SAVE_NOW (R511): BKG_WEAR_CMD.SAVE saves the wear counters now. -/
  | wearSaveNow (b : Bus) (v : Word)
  /-- WEAR_CAPTURE (R511): A write of BKG_WEAR_SEL captures a wear counter. -/
  | wearCapture (b : Bus) (v : Word)
  /-- LOG_STORE_WRITE (R501): Banking writes an entry to the log store circle, rewriting in-force entries before erasing a sector. -/
  | logStoreWrite
  /-- LOG_WRITE_RETRY (R501): 10 ms after a failed log write it is retried and LOG_FAIL set. -/
  | logWriteRetry
  /-- ADC_CONVERSION (R503): A converter's 200 ns slot converts the highest-priority request or the next scan input. -/
  | adcConversion (c : Fin 6) (req : Option (Fin 16)) (raw : BitVec 12)
  /-- ADC_CALIBRATION_START (R506): At its second a converter starts calibrating while the spare serves its bank. -/
  | adcCalibrationStart (c : Fin 6)
  /-- ADC_CALIBRATION_END (R507): Calibration ends, updating offset and gain or counting a failure, and the bank is handed back. -/
  | adcCalibrationEnd (c : Fin 6) (ofs gain : BitVec 16)
  /-- SEQ_ECC_UNCORRECTABLE (R119): An uncorrectable ECC error in a sequencer's instruction or data SRAM, met by the sequencer's own fetch or access, fails the sequencer. -/
  | seqEccUncorrectable (n : Fin 17)
  /-- ENCLAVE_FAULT (R407): An enclave core or SRAM fault sets ENCLAVE_FAULT, stops record reservations and restarts the enclave. -/
  | enclaveFault
  /-- ENTROPY_RECOVERY (R377): The entropy source's continuous health tests pass again and requests needing fresh randomness are served once more. -/
  | entropyRecovery
  /-- RTC_EDGE_LATCH (R353): At every 32.768 kHz RTC edge the always-on domain latches the TSC and the RTC count together. -/
  | rtcEdgeLatch
  /-- LASER_READY_EDGE (R214): The filtered laser ready input IO14 changes, voiding a gate-on segment in progress with CONTENT_ERROR when it goes inactive. -/
  | laserReadyEdge (n : Fin 16) (level : Bool)
  /-- LASER_ALARM_CLEAR (R214): The laser alarm input IO15 becomes inactive and the gate is no longer held low by it. -/
  | laserAlarmClear (n : Fin 16)
  /-- MODULATION_PULSE_BOUNDARY (R211): A PWM, pulse-train or tickle period ends on IO11, starting the next pulse and taking a pending FREQ setting. -/
  | modulationPulseBoundary (n : Fin 16) (pinBad : Bool)
  /-- LOG_WRITE_VERIFY (R501): A log-store program or erase completes and is verified, confirming the entry or retiring the sector and scheduling a retry. -/
  | logWriteVerify (ok : Bool)
  deriving DecidableEq, Repr

end Sys2Proof
end

