-- ==== Sys2Proof/Decode.lean ====
section
/-! DEFINITION. Decoding: spec/opcode_table.json gives no row any bits (its commands reach the block as accesses and
events, not as words), so no word spells a command. -/
namespace Sys2Proof

/-- The command a table word spells: none, for no row of the table has bits. -/
def decodeTableWord (_nbits _w : Nat) : Option Instr := none

end Sys2Proof
end

