-- ==== Sys2Proof/Config.lean ====
section
/-! DEFINITION. The free values: constants with no body, one for every value the spec leaves open, so that nothing in Lean
knows what they are.  Each is applied to the counter State.free, which a step reads and advances, or to the operands. -/
namespace Sys2Proof.Config

/-- An open 32-bit value. -/
opaque freeWord : Nat → Word

/-- An open byte: random bytes of the enclave (R377), bytes of an entry whose layout the spec does not give. -/
opaque freeByte : Nat → Byte

/-- An open number. -/
opaque freeNat : Nat → Nat

/-- An open choice. -/
opaque freeBool : Nat → Bool

/-- The bits a compression lane writes for its input (R345): any DEFLATE stream that inflates to it. -/
opaque deflate : List Byte → List Byte

/-- The whole number the part takes for a · b ÷ c where c does not divide a · b and no rule rounds it (R137, R139, R151). -/
opaque scaled : Int → Int → Int → Int

/-- The dots a raster LINE of a width sets between two points (R137): the spec gives its ends and width only. -/
opaque lineDots : Int → Int → Int → Int → Nat → List (Int × Int)

/-- Where the i-th of `h` fill strokes lies across a module of `m` field units (R137, R151). -/
opaque hatchAt : Nat → Nat → Nat → Int

/-- Plyneth's public keys in the boot ROM, 64 bytes each (R384, R388): 0 verifies mark programs, 1 test images. -/
opaque plynethKey : Nat → List Byte

end Sys2Proof.Config
end

