-- ==== Sys2Proof/Machine/Bits.lean ====
section
/-! DEFINITION. Bit fields of words, signed readings, saturating counts, byte order: the numbers every unit computes with. -/
namespace Sys2Proof.Machine

/-- Field [hi:lo] of a word, unsigned (R3). -/
def fld (w : Word) (hi lo : Nat) : Nat := (w.toNat / 2 ^ lo) % 2 ^ (hi + 1 - lo)

/-- Bit `i` of a word. -/
def bit (w : Word) (i : Nat) : Bool := w.toNat.testBit i

/-- A Bool as a number. -/
def b2n (b : Bool) : Nat := if b then 1 else 0

/-- The word with field [hi:lo] set to `v` modulo the field's size. -/
def setFld (w : Word) (hi lo v : Nat) : Word :=
  let n := w.toNat
  let size := 2 ^ (hi + 1 - lo)
  BitVec.ofNat 32 (n - (n / 2 ^ lo % size) * 2 ^ lo + (v % size) * 2 ^ lo)

/-- The word with bit `i` set to `b`. -/
def setBit (w : Word) (i : Nat) (b : Bool) : Word := setFld w i i (b2n b)

/-- The signed reading of the low `n` bits of a number. -/
def signed (n : Nat) (x : Nat) : Int :=
  let y := x % 2 ^ n
  if y < 2 ^ (n - 1) then (y : Int) else (y : Int) - (2 ^ n : Nat)

/-- Field [hi:lo] of a word, signed. -/
def sfld (w : Word) (hi lo : Nat) : Int := signed (hi + 1 - lo) (fld w hi lo)

/-- An integer reduced modulo 2^n. -/
def wrapN (n : Nat) (x : Int) : Nat := (x % ((2 ^ n : Nat) : Int)).toNat

/-- The word holding an integer modulo 2^32. -/
def wordOf (x : Int) : Word := BitVec.ofNat 32 (wrapN 32 x)

/-- A word read as a signed number. -/
def sword (w : Word) : Int := signed 32 w.toNat

/-- Signed distance a - b of two 32-bit positions or ticks, modulo 2^32. -/
def sdiff (a b : Word) : Int := sword (a - b)

/-- `x` limited to the range from `lo` to `hi`. -/
def clampI (lo hi x : Int) : Int := if x < lo then lo else if hi < x then hi else x

/-- `x` limited to at most `hi`. -/
def satN (hi x : Nat) : Nat := if hi < x then hi else x

/-- Signed division rounding toward minus infinity by a positive number. -/
def fdivI (a : Int) (b : Nat) : Int := a / (b : Int)

/-- Signed division rounding toward zero. -/
def tdivI (a b : Int) : Int := Int.tdiv a b

/-- The low and high words of a 64-bit number. -/
def loW (n : Nat) : Word := BitVec.ofNat 32 n
def hiW (n : Nat) : Word := BitVec.ofNat 32 (n / 2 ^ 32)

/-- A number as `n` bytes, little-endian (R4). -/
def leBytes : Nat → Nat → List Byte
  | 0, _ => []
  | n + 1, v => BitVec.ofNat 8 v :: leBytes n (v / 256)

/-- The number little-endian bytes spell (R4). -/
def ofLe : List Byte → Nat
  | [] => 0
  | b :: t => b.toNat + 256 * ofLe t

/-- The number big-endian bytes spell. -/
def ofBe (l : List Byte) : Nat := l.foldl (fun n b => 256 * n + b.toNat) 0

/-- A number as `n` bytes, big-endian. -/
def beBytes (n v : Nat) : List Byte := (leBytes n v).reverse

/-- Bytes of a slice, 0 where the list ends. -/
def byteAt (l : List Byte) (i : Nat) : Byte := l.getD i 0

/-- `n` bytes from offset `o`, short where the list ends. -/
def slice (l : List Byte) (o n : Nat) : List Byte := (l.drop o).take n

/-- The little-endian number in `n` bytes at offset `o`. -/
def leAt (l : List Byte) (o n : Nat) : Nat := ofLe (slice l o n)

/-- Whether all bits of a number's field [hi:lo] are 0. -/
def zeroAt (n hi lo : Nat) : Bool := n / 2 ^ lo % 2 ^ (hi + 1 - lo) == 0

/-- The integer square root by Newton's method from above, with fuel. -/
def isqrtGo : Nat → Nat → Nat → Nat
  | 0, _, x => x
  | f + 1, n, x => let y := (x + n / x) / 2; if y < x then isqrtGo f n y else x

/-- The greatest number whose square is at most `n`. -/
def isqrt (n : Nat) : Nat := if n = 0 then 0 else isqrtGo 200 n (2 ^ (n.log2 / 2 + 1))

end Sys2Proof.Machine
end

