-- ==== Sys2Proof/Machine/State.lean ====
section
/-! DEFINITION. The state of the block as plain data: its registers, memories, the state of every unit beside its
registers, and the queue of waiting commands; and the state after reset. -/
namespace Sys2Proof.Machine

/-! ### The line interface (spec/03, R57 to R91) -/

/-- One physical encoder's decoder and warp (R57, R60, R61, R63, R64).  What its registers show is in
`State.regs`; this is the rest. -/
structure EncState where
  /-- accepted levels of A, B and Z (R57, R58) -/
  a : Bool
  b : Bool
  z : Bool
  /-- the warp's integer part, 48 bits (R60) -/
  warp : BitVec 48
  /-- stamp of the last accepted count (R60) -/
  tEdge : Nat
  /-- the fraction held while the velocity is 0 after a stop (R61: "the fraction freezes") -/
  frozen : BitVec 16
  /-- present velocity, signed, 2^-32 counts per tick (R61) -/
  vel : BitVec 32
  /-- present acceleration, signed, 2^-56 counts per tick squared (R61) -/
  acc : BitVec 32
  /-- stamps of the counts since the last start or change of direction, newest first, at most 33 (R61) -/
  stamps : List Nat
  /-- direction of the last valid count, true when down (R59) -/
  down : Bool
  /-- a count has been accepted since the encoder's start (R61) -/
  started : Bool
  /-- a Z latch has been taken, so the next period can be checked (R64) -/
  zSeen : Bool
  deriving DecidableEq, Repr

/-- One virtual encoder (R65): its warp as 48.32 fixed point at tick `t0`, and the leading-edge stamps of
its input's last qualified products, newest first, at most 5. -/
structure VencState where
  pos : BitVec 80
  t0 : Nat
  stamps : List Nat
  deriving DecidableEq, Repr

/-- A leading edge of a product-detect input that waits to qualify (R66). -/
structure PdEdge where
  pos : BitVec 48
  stamp : Nat
  deriving DecidableEq, Repr

/-- One product-detect input (R66, R67). -/
structure PdState where
  /-- accepted level is the active one -/
  active : Bool
  /-- the edge waiting to qualify -/
  edge : Option PdEdge
  /-- position at which the input became active (for STUCK) -/
  activePos : BitVec 48
  /-- position of the last qualified leading edge (for PD_BLANK) -/
  lastQual : Option (BitVec 48)
  deriving DecidableEq, Repr

/-- A tracking-table entry (R70). -/
structure TrkEntry where
  productId : Word
  enc : BitVec 4
  detect : BitVec 4
  valid : Bool
  force : Bool
  decided : Bool
  rejected : Bool
  rejOut : BitVec 4
  bind : BitVec 16
  birthStamp : BitVec 64
  verdict : BitVec 64
  birthPos : Word
  rejectPos : Word
  /-- PD_CFG.REJ_USE of its input when it was created (R68, R71) -/
  rejUse : Bool
  deriving DecidableEq, Repr

/-- An open reject window or compare pulse of one output (R77, R81): the encoder whose warp closes it, the
position it closes at, and the tick before which it may not close. -/
structure RejWindow where
  enc : BitVec 4
  endPos : Word
  notBefore : Nat
  /-- a pulse of COMPARE mode (R81), which alone drives the pin in that mode -/
  cmp : Bool
  deriving DecidableEq, Repr

/-- The phases of a reject-on-detect hold (R73). -/
inductive HoldPhase where
  | idle | waiting | asserting
  deriving DecidableEq, Repr

/-- A reject-on-detect hold (R73). -/
structure RejHold where
  start : Word
  stop : Word
  phase : HoldPhase
  deriving DecidableEq, Repr

/-- One reject output (R73, R77, R78, R81). -/
structure RejState where
  windows : List RejWindow
  holds : Tab RejHold
  /-- the assertion taken for the safe state, kept until its release (R78) -/
  safeHeld : Bool
  /-- warp of CMP_ENC last compared with REJ_CMP_POS lay short of it, so a forward crossing can come (R81) -/
  cmpArmed : Bool
  deriving DecidableEq, Repr

/-- The line interface beside its registers. -/
structure LinState where
  encs : Tab EncState
  vencs : Tab VencState
  pds : Tab PdState
  /-- the 4,096 tracking entries (R69, R70) -/
  trk : Tab TrkEntry
  /-- the free list (R69, R71) is the entries never used, from `fresh` up, then `freed` in order -/
  fresh : Nat
  freed : List Nat
  rejs : Tab RejState
  /-- LIN_LSR_CTRL has been written since PD4's power-up, so the LINE_STOP_REQ pin is driven (R83) -/
  lsrDriven : Bool
  /-- tick at which the event hold of LINE_STOP_REQ ends (R83) -/
  lsrUntil : Option Nat
  deriving DecidableEq, Repr

def EncState.reset : EncState :=
  ⟨false, false, false, 0, 0, 0, 0, 0, [], false, false, false⟩
def VencState.reset : VencState := ⟨0, 0, []⟩
def PdState.reset : PdState := ⟨false, none, 0, none⟩
def TrkEntry.reset : TrkEntry := ⟨0, 0, 0, false, false, false, false, 0, 0, 0, 0, 0, 0, false⟩
def RejHold.reset : RejHold := ⟨0, 0, .idle⟩
def RejState.reset : RejState := ⟨[], [], false, false⟩
def LinState.reset : LinState := ⟨[], [], [], [], 0, [], [], false, none⟩

/-! ### Mark jobs, sequencers and stations (spec/04, R92 to R124) -/

/-- Job states (R92); the free entries of a table are the ones in state `free`. -/
inductive JobSt where
  | free | admitted | composed | armed | marking | done | aborted | refused | missed
  deriving DecidableEq, Repr

/-- A job entry (R95); `stnJob` links a member job to its station's job (R117). -/
structure JobEntry where
  productId : Word
  trkIdx : BitVec 12
  enc : BitVec 4
  st : JobSt
  cond : BitVec 4
  verdict : BitVec 4
  noTrk : Bool
  inRing : Bool
  damped : Bool
  popped : Bool
  jobSeq : Word
  templateId : BitVec 16
  partIdx : BitVec 8
  stn : BitVec 8
  trigPos : Word
  armPos : Word
  winEnd : Word
  foot : BitVec 24
  admitStamp : BitVec 64
  startStamp : BitVec 64
  ringOfs : BitVec 16
  ringLen : BitVec 16
  contentCrc : Word
  renderTag : Word
  units : BitVec 16
  renderUs : BitVec 16
  /-- the channel's settings the job keeps from its admission (R121): SELV_PRE, ARM_DIST, ARM_TMIN, LINE_PITCH,
  MIN_LINE_T, SPEED_TOL -/
  selvPre : Word
  armDist : Word
  armTmin : Word
  linePitch : Word
  minLineT : Word
  speedTol : Word
  /-- DATE and SERIAL of its content block, once there is one (R152, R389) -/
  block : Option (BitVec 64 × BitVec 64)
  /-- slot of the template it was admitted with (R99, R132) -/
  tplSlot : Option Nat
  /-- dot ranges across the head that its SYMBOL objects can cover (R185) -/
  symDots : List (Nat × Nat)
  /-- station and index of the station job this member job belongs to (R117) -/
  stnJob : Option (Nat × Nat)
  /-- the rest of the job fires at floor energy (R170, R182) -/
  floor : Bool
  deriving DecidableEq, Repr

/-- An admission request (R21, R97): the product, its tracking entry, its encoder and birth position, and
for a request split by a station the slot's values (R117). -/
structure AdmitReq where
  productId : Word
  trkIdx : BitVec 12
  enc : BitVec 4
  birthPos : Word
  noTrk : Bool
  deriving DecidableEq, Repr

/-- A scheduled output edge (R111). -/
structure SchedEdge where
  tick : Word
  target : BitVec 5
  level : Bool
  deriving DecidableEq, Repr

/-- What a sequencer waits for (R108, R111). -/
inductive SeqWait where
  | none
  | pos (target : Word) (enc : BitVec 4)
  | tick (target : Word)
  deriving DecidableEq, Repr

/-- An event held for the mark program (R108, R106). -/
structure SeqEvent where
  kind : BitVec 8
  job : BitVec 8
  deriving DecidableEq, Repr

/-- One channel sequencer with its timing ports (R107, R108, R113, R115); number 16 is the spare. -/
structure SeqState where
  wait : SeqWait
  /-- a reversal or a completion pulse came while waiting (R108) -/
  wakeReversal : Bool
  wakePulse : Bool
  /-- TP_TSC_HI, TP_ENC_SEL, TP_POS_FRAC, TP_VEL, TP_WAIT_RES, TP_PRED_FRAC, TP_EDGE_TICK, TP_WIN (R108) -/
  tscHi : Word
  encSel : BitVec 4
  posFrac : BitVec 16
  velCap : Word
  waitRes : BitVec 2
  predFrac : BitVec 16
  edgeTick : Word
  win : BitVec 2
  /-- the position under prediction and the tick its prediction began (R110) -/
  predPos : Option (Word × Nat)
  predTick : BitVec 64
  predStat : BitVec 3
  /-- the edge queue, in write order (R111), and the edge write stalled for a slot -/
  edges : List SchedEdge
  stalledEdge : Option SchedEdge
  late : Bool
  /-- events waiting for TP_EVENT -/
  events : List SeqEvent
  /-- instruction and data SRAM contents (R107, R115) -/
  code : List Byte
  data : List Byte
  entry : Word
  loaded : Bool
  /-- a load is in progress (R115), or a self-test (R119) -/
  loading : Bool
  testing : Bool
  /-- tick at which the watchdog expires (R113) -/
  wdtAt : Nat
  /-- tick of the failure that awaits a swap (R120) -/
  failedAt : Option Nat
  deriving DecidableEq, Repr

/-- One channel's job queue unit beside its registers (R92 to R106, R123). -/
structure ChanState where
  jobs : Tab JobEntry
  reqs : List AdmitReq
  /-- a job has been admitted, so CH_LAST_WIN holds a window end (R98) -/
  lastWinValid : Bool
  /-- held PG_CTRL writes of the channel's pages, by child number (R40) -/
  heldDisable : List Nat
  heldReset : List Nat
  /-- a TP_JOB_END held for its last check: job index and condition (R178, R202) -/
  heldEnd : Option (Nat × BitVec 4)
  /-- tick of the last line or block fired by the MARKING job (R104) -/
  lastFire : Nat
  /-- tick at which a job last left MARKING (R120: 50 µs with no job MARKING) -/
  lastMarkEnd : Nat
  /-- pin levels the channel's scheduled edges have set, CHn_IO[15:0] (R111) -/
  pins : BitVec 16
  deriving DecidableEq, Repr

/-- A station job (R117): its entry, how many member jobs have not left, and the highest-ranking member verdict. -/
structure StnJob where
  entry : JobEntry
  left : Nat
  worst : BitVec 4
  deriving DecidableEq, Repr

/-- One station's job table and admission requests (R117). -/
structure StnState where
  jobs : Tab StnJob
  reqs : List AdmitReq
  deriving DecidableEq, Repr

structure JobsState where
  chans : Tab ChanState
  seqs : Tab SeqState
  stns : Tab StnState
  /-- the channel the spare sequencer serves (R120) -/
  spareServes : Option Nat
  deriving DecidableEq, Repr

def JobEntry.reset : JobEntry :=
  { productId := 0, trkIdx := 0, enc := 0, st := .free, cond := 0, verdict := 0, noTrk := false,
    inRing := false, damped := false, popped := false, jobSeq := 0, templateId := 0, partIdx := 0,
    stn := 0, trigPos := 0, armPos := 0, winEnd := 0, foot := 0, admitStamp := 0, startStamp := 0,
    ringOfs := 0, ringLen := 0, contentCrc := 0, renderTag := 0, units := 0, renderUs := 0, selvPre := 0, armDist := 0,
    armTmin := 0, linePitch := 0, minLineT := 0, speedTol := 0, block := none, tplSlot := none, symDots := [], stnJob := none,
    floor := false }
def SeqState.reset : SeqState :=
  { wait := .none, wakeReversal := false, wakePulse := false, tscHi := 0, encSel := 0, posFrac := 0,
    velCap := 0, waitRes := 0, predFrac := 0, edgeTick := 0, win := 0, predPos := none, predTick := 0,
    predStat := 0, edges := [], stalledEdge := none, late := false, events := [], code := [], data := [],
    entry := 0, loaded := false, loading := false, testing := false, wdtAt := 0, failedAt := none }
def ChanState.reset : ChanState := ⟨[], [], false, [], [], none, 0, 0, 0⟩
def StnJob.reset : StnJob := ⟨JobEntry.reset, 0, 0⟩
def StnState.reset : StnState := ⟨[], []⟩
def JobsState.reset : JobsState := ⟨[], [], [], none⟩

/-! ### Damask (spec/05, R125 to R160) -/

/-- A template's field (R136). -/
structure TplField where
  kind : Nat
  charset : Nat
  operatorEntry : Bool
  maxLen : Nat
  source : Nat
  fmt : List Byte
  param0 : Word
  param1 : Word
  deriving DecidableEq, Repr

/-- A template's layout object (R137). -/
structure TplObj where
  kind : Nat
  part : Nat
  field : Nat
  res : Nat
  rot : Nat
  mirror : Bool
  x : Int
  y : Int
  size : Nat
  x2 : Int
  y2 : Int
  spacing : Nat
  hatch : Nat
  dots : Bool
  dwell : Nat
  deriving DecidableEq, Repr

/-- A template's resource, decompressed (R138, R139). -/
structure TplRes where
  kind : Nat
  bytes : List Byte
  deriving DecidableEq, Repr

/-- A template in a slot (R131, R135): what the load copied into the template store and the glyph cache. -/
structure Template where
  mode : Nat
  form : Nat
  tplId : Nat
  revision : Nat
  partCount : Nat
  markX : Nat
  markY : Nat
  pitch : Nat
  maxLen : Nat
  months : List (List Byte)
  fields : List TplField
  objs : List TplObj
  res : List TplRes
  storeBytes : Nat
  cacheBytes : Nat
  deriving DecidableEq, Repr

/-- A value that takes effect from the tick after it was written (R133, R144): the old value serves tick `at`. -/
structure Delayed (α : Type) where
  cur : α
  prev : α
  since : Nat
  deriving DecidableEq, Repr

/-- The values a render takes at dispatch (R127). -/
structure RenderVals where
  /-- date-clock value, 64 bits (R152) -/
  date : BitVec 64
  /-- local date in days since 2000-01-01, minute of day, second -/
  days : Int
  minute : Nat
  second : Nat
  dateValid : Bool
  /-- production-day rollover of the date clock's rule, minutes (R142) -/
  rollover : Nat
  serials : List (Nat × Option Nat)
  counters : List (Nat × Nat)
  lots : List (List Byte)
  entries : List (Nat × List Byte)
  shift : Option (List Byte)
  deriving DecidableEq, Repr

/-- Where a render request stands (R125, R126). -/
inductive RenderPhase where
  | waiting | pending | engine (e : Nat)
  deriving DecidableEq, Repr

/-- Space held in one destination's staging area: unit, offset and length in 16-byte units, the block's JOB_SEQ, and the ticket
of the render while it runs (R126). -/
structure StgHold where
  unit : Nat
  ofs : Nat
  len : Nat
  tag : Word
  ticket : Option Word
  deriving DecidableEq, Repr

/-- A render request (R97, R125): the unit (0-15 channels, 16-23 stations), the job's index and stamp. -/
structure RenderReq where
  unit : Nat
  job : Nat
  stamp : BitVec 64
  tplSlot : Option Nat
  phase : RenderPhase
  reentered : Bool
  tag : Word
  startTick : Nat
  /-- the engine's pause after its commit, in ticks: the Damper level's at dispatch (R460) -/
  pause : Nat
  vals : Option RenderVals
  deriving DecidableEq, Repr

/-- One render engine (R126, R130, R460). -/
structure EngineState where
  /-- ticks before which the engine takes no render after a commit (Damper RENDER_PAUSE) -/
  pausedUntil : Option Nat
  deriving DecidableEq, Repr

/-- One serial counter (R145 to R147): `setTo` is a SET_NEXT waiting for its store write. -/
structure SerialState where
  next : BitVec 64
  resv : BitVec 64
  limit : BitVec 64
  setTo : Option (BitVec 64)
  reserving : Bool
  deriving DecidableEq, Repr

/-- A general counter's previous dispatch: the shift and the production day it saw (R148). -/
structure CounterSeen where
  seen : Bool
  shift : Option Nat
  day : Int
  deriving DecidableEq, Repr

structure DmkState where
  slots : Tab (Option Template)
  /-- unit selections (R133), as DMK_SELu values -/
  sel : Tab (Delayed Word)
  reqs : List RenderReq
  holds : List StgHold
  engines : Tab EngineState
  nextTag : Word
  /-- slot, address and length of a template load in progress (R131) -/
  loading : Option (Nat × Nat × Nat)
  /-- bolts of that image a lane has opened, and whether a lane failed one with LANE_FAULT (R131, R346) -/
  boltsDone : Nat
  boltFault : Bool
  /-- lot data sets in force and their shadows (R144) -/
  lots : Tab (Delayed (List Byte))
  lotShadow : Tab (List Byte)
  /-- operator entries, keyed by slot × 32 + field (R144) -/
  entries : Tab (Delayed (Option (List Byte)))
  serials : Tab SerialState
  counters : Tab CounterSeen
  deriving DecidableEq, Repr

def EngineState.reset : EngineState := ⟨none⟩
def SerialState.reset : SerialState := ⟨0, 0, 0xFFFFFFFFFFFFFFFF, none, false⟩
def CounterSeen.reset : CounterSeen := ⟨false, none, 0⟩
def DmkState.reset : DmkState := ⟨[], [], [], [], [], 0, none, 0, false, [], [], [], [], []⟩

/-! ### Thermal heads, Ember and the ribbon tag (spec/06, R161 to R193) -/

/-- A line as Ember computed it (R169 to R172): its weft's values, the dark dots at their head positions
(after the dead-dot shift), each dot's sub-pulse mask and the scaled widths. -/
structure ThermLine where
  /-- the job it belongs to, by its JOB_SEQ (R95) -/
  jobSeq : Word
  line : Nat
  blank : Bool
  first : Nat
  dots : Nat
  crc : BitVec 16
  hdr : List Byte
  pattern : List Bool
  masks : List (BitVec 4)
  widths : List Nat
  last : Bool
  deriving DecidableEq, Repr

/-- One thermal channel's head port and Ember engine beside their registers. -/
structure ThermState where
  /-- number of the next line to fire (R164) -/
  nextLine : Nat
  /-- first latch of the last line fired and its line_end (R165, R167) -/
  firedAt : Nat
  lineEnd : Nat
  /-- a line of the present job has been fired -/
  fired : Bool
  /-- the line computed and waiting; its sub-pulse 0 is shifted from tick `shiftedAt` (R165, R171) -/
  computed : Option ThermLine
  shiftedAt : Nat
  /-- the last line fired, not yet read back (R177) -/
  unread : Option ThermLine
  /-- ticks of LINE edges waiting to fire (R167) -/
  waiting : List Nat
  /-- the last lines of the present mark as fired, newest first, at most 4 (R168) -/
  history : List (List Bool)
  /-- the MARKING job's last weft has fired (R164); its encoder reversed and its last check is open (R179) -/
  lastFired : Bool
  ending : Bool
  /-- dead-dot shift chosen for the armed job (R186) -/
  shift : Int
  /-- the dummy shift runs (R178) -/
  dummy : Bool
  /-- consecutive samples at or above, and below, each threshold: throttle, limit, shutdown (R181) -/
  above : List Nat
  below : List Nat
  /-- consecutive open and short codes (R181) -/
  openCnt : Nat
  shortCnt : Nat
  /-- soot bits held to the line's end (R182) -/
  heldSoot : List Nat
  /-- readings of the present audit pass, dot and code, newest first; the offset in force; pulses since it (R183) -/
  readings : List (Nat × Int)
  auditOfs : Int
  auditPulses : Nat
  /-- Ember's active set, keyed by the shadow registers' addresses (R173) -/
  active : Tab Word
  deriving DecidableEq, Repr

/-- One channel's ribbon tag unit (R187 to R189, R394). -/
structure TagState where
  /-- the tag record last read (R187) -/
  record : List Byte
  /-- nonce of the authentication in progress (R394) -/
  nonce : Option (List Byte)
  /-- consumable key that authenticated the tag (R394) -/
  key : Nat
  /-- millimetres used since the last write-back; the record a write-back in progress writes (R189) -/
  sinceWb : Nat
  writing : Option (List Byte)
  wbWanted : Bool
  /-- tick of the next retry of a failed write-back (R189) -/
  retryAt : Option Nat
  /-- the tag was authenticated and not replaced since -/
  trusted : Bool
  /-- travel toward the next nanometre, in 1/256 nm (R189) -/
  frac : Nat
  deriving DecidableEq, Repr

structure ThermalState where
  ports : Tab ThermState
  tags : Tab TagState
  deriving DecidableEq, Repr

def ThermState.reset : ThermState :=
  { nextLine := 0, firedAt := 0, lineEnd := 0, fired := false, computed := none, shiftedAt := 0,
    unread := none, waiting := [], history := [], lastFired := false, ending := false, shift := 0, dummy := false,
    above := [0, 0, 0], below := [0, 0, 0], openCnt := 0, shortCnt := 0, heldSoot := [], readings := [],
    auditOfs := 0, auditPulses := 0, active := [] }
def TagState.reset : TagState := ⟨[], none, 0, 0, none, false, none, false, 0⟩
def ThermalState.reset : ThermalState := ⟨[], []⟩

/-! ### Laser channels (spec/07, R194 to R219) -/

/-- What the executor is doing with the record in hand (R200, R201, R202, R208). -/
inductive BeamPhase where
  /-- nothing: the next record can be taken -/
  | ready
  /-- a JUMP's, MARK's or DOT's motion and delays run until `recEnd` -/
  | moving
  /-- a JUMP's or DOT's settling wait (R201) -/
  | settling
  /-- a WAIT_POS holds (R208) -/
  | waiting
  /-- END met: the executor's work on the job is done (R202) -/
  | ended
  deriving DecidableEq, Repr

/-- One laser channel's executor, gate and modulation beside its registers. -/
structure LaserState where
  phase : BeamPhase
  /-- the job in execution and the block and record in hand (R199, R203) -/
  job : Nat
  block : Nat
  record : Nat
  blockLoaded : Bool
  /-- present commanded point, in the field's frame when `field` (idle or parking), else the product's, and the stroke it
  leaves from and goes to (R200) -/
  field : Bool
  x : Int
  y : Int
  fromX : Int
  fromY : Int
  toX : Int
  toY : Int
  /-- ticks of the motion's start and end, and of the record's end with its delays -/
  motStart : Nat
  motEnd : Nat
  recEnd : Nat
  /-- opcode of the record in hand -/
  op : Nat
  /-- p_start, 32.16 counts (R199, R208) -/
  pStart : BitVec 48
  tracking : Bool
  power : BitVec 16
  period : Nat
  width : Nat
  /-- FREQ setting waiting for the pulse boundary: period and width (R211) -/
  freqNext : Option (Nat × Nat)
  onDly : Int
  offDly : Nat
  jumpDly : Nat
  polyDly : Nat
  markSpeed : Nat
  jumpSpeed : Nat
  /-- ticks at which the gate is to rise and fall (R200) -/
  gateRise : Option Nat
  gateFall : Option Nat
  /-- the gate as the executor commands it, and as its pin is -/
  gateCmd : Bool
  gate : Bool
  /-- the rest of the block runs blanked (R198, R203); the rest of the job (R206); strokes to the next JUMP (R201) -/
  blankBlock : Bool
  blankJob : Bool
  blankToJump : Bool
  /-- the active grid, or the preamble, has an uncorrectable error not yet mended (R206) -/
  gridBad : Bool
  preBad : Bool
  heldVstart : Bool
  waitPos : Word
  settleStart : Nat
  settledFrames : Nat
  jobStart : Nat
  /-- a FIELD_EXIT has been added to this job (R209) -/
  exited : Bool
  /-- the DOT in hand holds its point, and its DWELL while it is declared to Fireguard (R200, R215) -/
  dwelling : Bool
  dotDwell : Option Nat
  /-- tick at which the slow dwell began (R215) -/
  dwellSince : Option Nat
  /-- last boundary of IO11's pulse train (R211), and of its tickle with whether a tickle pulse began there (R212) -/
  pulseAt : Nat
  tickleAt : Nat
  tickling : Bool
  readyActive : Bool
  alarmActive : Bool
  readyLostAt : Option Nat
  /-- gate-on ticks not yet counted in LP_ON_TIME -/
  onTicks : Nat
  gateSince : Nat
  overtempFrames : Nat
  /-- galvo target sent in the last frame (R204) -/
  outX : Int
  outY : Int
  /-- its target in the field before calibration, and the uplink positions of that frame -/
  tgtX : Int
  tgtY : Int
  fbX : Int
  fbY : Int
  /-- active and shadow correction grids, node index to dx and dy (R205, R206) -/
  grid : Tab Word
  gridShadow : Tab Word
  deriving DecidableEq, Repr

def LaserState.reset : LaserState :=
  { phase := .ready, job := 256, block := 0, record := 0, blockLoaded := false, field := true, x := 0, y := 0,
    fromX := 0, fromY := 0, toX := 0, toY := 0, motStart := 0, motEnd := 0, recEnd := 0, op := 0,
    pStart := 0, tracking := false, power := 0, period := 0, width := 0, freqNext := none, onDly := 0,
    offDly := 0, jumpDly := 0, polyDly := 0, markSpeed := 0, jumpSpeed := 0, gateRise := none,
    gateFall := none, gateCmd := false, gate := false, blankBlock := false, blankJob := false, blankToJump := false,
    gridBad := false, preBad := false, heldVstart := false, waitPos := 0, settleStart := 0,
    settledFrames := 0, jobStart := 0, exited := false, dwelling := false, dotDwell := none, dwellSince := none,
    pulseAt := 0, tickleAt := 0, tickling := false, readyActive := false, alarmActive := false, readyLostAt := some 0, onTicks := 0,
    gateSince := 0, overtempFrames := 0, outX := 0, outY := 0, tgtX := 0, tgtY := 0, fbX := 0, fbY := 0, grid := [], gridShadow := [] }

/-! ### Servo and tension loops (spec/08, R220 to R243) -/

/-- A biquad's previous inputs and outputs (R225). -/
structure Biquad where
  x1 : Int
  x2 : Int
  w1 : Int
  w2 : Int
  deriving DecidableEq, Repr

/-- A relay tune in progress (R236). -/
structure TuneState where
  high : Bool
  startTick : Nat
  /-- tick of the last change of u to b + d -/
  cycleAt : Nat
  cycles : Nat
  sumPeriod : Nat
  sumPp : Nat
  yMax : Int
  yMin : Int
  deriving DecidableEq, Repr

/-- One loop beside its registers; its two banks hold 18 words each (R231), word k at offset 0x40 + 4k. -/
structure LoopState where
  /-- command waiting for the next evaluation, and a SWAP waiting (R230, R231) -/
  cmd : Nat
  swap : Bool
  bank0 : Tab Word
  bank1 : Tab Word
  /-- the integrator, with 16 fraction bits -/
  integ : Int
  ePrev : Int
  /-- none at the first evaluation after a CLOSE (R229) -/
  yPrev : Option Int
  bq1 : Biquad
  bq2 : Biquad
  /-- output computed and not yet applied, and the output in force (R223) -/
  out : Int
  applied : Int
  /-- position of this frame's uplink; none when missing or bad (R235) -/
  meas : Option Int
  /-- galvo reference and feed-forward of the present frame (R204, R226) -/
  ref : Int
  vff : Int
  aff : Int
  /-- the last two references of an auxiliary loop (R226) -/
  refPrev : Int
  refPrev2 : Int
  /-- consecutive offending frames (R234, R235) -/
  feCount : Nat
  /-- the frame, by its opening tick plus 1, in which the loop was last evaluated -/
  evalAt : Nat
  tune : Option TuneState
  deriving DecidableEq, Repr

structure LoopsState where
  loops : Tab LoopState
  /-- opening tick plus 1 of the present frame of each datapath, 0 before its first (R222) -/
  frames : Tab Nat
  deriving DecidableEq, Repr

def Biquad.reset : Biquad := ⟨0, 0, 0, 0⟩
def LoopState.reset : LoopState :=
  { cmd := 0, swap := false, bank0 := [], bank1 := [], integ := 0, ePrev := 0, yPrev := none,
    bq1 := Biquad.reset, bq2 := Biquad.reset, out := 0, applied := 0, meas := none, ref := 0, vff := 0,
    aff := 0, refPrev := 0, refPrev2 := 0, feCount := 0, evalAt := 0, tune := none }
def LoopsState.reset : LoopsState := ⟨[], []⟩

/-! ### Drives (spec/09, R244 to R277) -/

/-- One coil's chopper (R248, R249). -/
structure ChopState where
  /-- the bridge drives (R248 step 1); when it does not, the off-time ran from `offAt` and ends at `until_` -/
  driving : Bool
  offAt : Nat
  until_ : Nat
  /-- the coil's present commanded sign -/
  positive : Bool
  /-- tick of the last commanded zero crossing not yet measured (R249) -/
  zeroAt : Option Nat
  /-- tick of the last turn-on, for blanking -/
  onAt : Nat
  deriving DecidableEq, Repr

/-- Homing's phases (R258). -/
inductive HomePhase where
  | none | approach | retract | failing
  deriving DecidableEq, Repr

/-- One stepper port beside its registers.  The generator works in whole multiples of small units: velocity in
2^-16 x 10^-6 microsteps per ms, acceleration in 2^-16 x 10^-3 microsteps per ms squared, position in 2^-17 x 10^-9
microsteps, so that a tick of 1 microsecond adds exactly (log entry 36). -/
structure StepperState where
  pos : Int
  target : Int
  /-- a target written and not yet taken (R252) -/
  stored : Option Int
  vel : Int
  acc : Int
  /-- microsecond plus 1 of the last profile tick -/
  tickAt : Nat
  /-- a deceleration toward the target is under way (R254) -/
  braking : Bool
  /-- the port decelerates to rest and enters IDLE there, at DECEL or, in CHANNEL_SAFE, at DECEL_MAX (R255, R259, R271) -/
  stopping : Bool
  hard : Bool
  home : HomePhase
  /-- where homing began, the first of the stalled full steps, and what HOMED and LOST were (R258, R259) -/
  homeStart : Int
  stallPos : Int
  homedBefore : Bool
  lostBefore : Bool
  stallRun : Nat
  /-- position at which the reversing target arrived (R253) -/
  turnFrom : Option Int
  /-- the target is passed at DECEL_MAX (R253) -/
  passing : Bool
  /-- tick at which the velocity became 0, until the hold current is set (R250) -/
  restAt : Option Nat
  /-- commands held for the end of a mark, oldest first (R260) -/
  held : List Nat
  chopA : ChopState
  chopB : ChopState
  /-- a STOP in DC mode holds the duty at 0 (R259) -/
  dcHold : Bool
  /-- microsteps counted toward the next full step of STP_TRAVEL -/
  travel : Nat
  deriving DecidableEq, Repr

/-- One BLDC port beside its registers. -/
structure BldcState where
  /-- the port is commanded on; it brakes to stop (R264) -/
  on : Bool
  stopping : Bool
  sector : Nat
  /-- last sector times, newest first, at most 6 (R262), and the last crossing accepted -/
  times : List Nat
  lastCross : Option Nat
  /-- the next commutation -/
  commAt : Option Nat
  fwd : Bool
  /-- crossings accepted in a row, and commutations forced, in RAMP (R264) -/
  accepted : Nat
  forced : Nat
  sectorAt : Nat
  /-- the PI controller's integrator, per mille of duty with 16 fraction bits (R263) -/
  integ : Int
  /-- the high side is off up to this tick (R263) -/
  limitedTo : Nat
  /-- tick at which the present state was entered -/
  since : Nat
  /-- duty-to-speed ratios of the present 100 ms: their sum, their number, and when they began (R263) -/
  learnSum : Nat
  learnN : Nat
  learnAt : Nat
  deriving DecidableEq, Repr

/-- One motor bus beside its registers. -/
structure BusState where
  /-- since when the bus lies below OV1 - OV_HYST (R270) -/
  lowSince : Option Nat
  /-- tick of the last brake gate edge, until its current check (R267) -/
  edgeAt : Option Nat
  /-- since when the brake gate is on, and ticks of on-time not yet counted in MB_BRK_MS -/
  onSince : Option Nat
  onTicks : Nat
  deriving DecidableEq, Repr

structure DrivesState where
  steppers : Tab StepperState
  bldcs : Tab BldcState
  buses : Tab BusState
  deriving DecidableEq, Repr

def ChopState.reset : ChopState := ⟨false, 0, 0, true, none, 0⟩
def StepperState.reset : StepperState :=
  { pos := 0, target := 0, stored := none, vel := 0, acc := 0, tickAt := 0, braking := false, stopping := false,
    hard := false, home := .none, homeStart := 0, stallPos := 0, homedBefore := false, lostBefore := false, stallRun := 0,
    turnFrom := none, passing := false, restAt := none, held := [], chopA := ChopState.reset, chopB := ChopState.reset,
    dcHold := false, travel := 0 }
def BldcState.reset : BldcState :=
  { on := false, stopping := false, sector := 0, times := [], lastCross := none, commAt := none, fwd := true, accepted := 0,
    forced := 0, sectorAt := 0, integ := 0, limitedTo := 0, since := 0, learnSum := 0, learnN := 0, learnAt := 0 }
def BusState.reset : BusState := ⟨none, none, none, 0⟩
def DrivesState.reset : DrivesState := ⟨[], [], []⟩

/-! ### Agjor Link (spec/10, R278 to R294) -/

/-- One channel's link beside its registers. -/
structure LinkState where
  /-- the attempt in progress or failed began at this tick (R289) -/
  attemptAt : Nat
  /-- taps that passed in the search in progress, bit t for tap t, and the tap and frames counted (R288) -/
  tapMap : BitVec 64
  tap : Nat
  frames : Nat
  tapGood : Bool
  /-- the 100 microsecond wait after DCLK started has not ended (R288) -/
  waitTo : Option Nat
  searching : Bool
  /-- next downlink SEQ (R282) -/
  seq : BitVec 8
  /-- the last uplink frame was bad or missing (R290) -/
  lastBad : Bool
  /-- the gate was on in the previous frame, and in this one (R292) -/
  gatePrev : Bool
  gateNow : Bool
  /-- an uplink has been judged for the present frame -/
  judged : Bool
  /-- the downlink carries TRAIN = 1 (R288) -/
  train : Bool
  /-- training starts at the next frame boundary: SYN3 has relocked (R288) -/
  startDue : Bool
  /-- bits of the last downlink frame sent, first bit most significant (R282) -/
  downlink : BitVec 128
  deriving DecidableEq, Repr

def LinkState.reset : LinkState :=
  { attemptAt := 0, tapMap := 0, tap := 0, frames := 0, tapGood := true, waitTo := none, searching := false,
    seq := 0, lastBad := false, gatePrev := false, gateNow := false, judged := false, train := false,
    startDue := false, downlink := 0 }

/-! ### DRAM controller and SRAM (spec/11, R295 to R322) -/

/-- A DRAM row (R297): channel, rank, bank, row in the rank. -/
structure DramRow where
  chan : Nat
  rank : Nat
  bank : Nat
  row : Nat
  deriving DecidableEq, Repr

/-- A DRAM error log entry (R306). -/
structure ElogEntry where
  addr : BitVec 40
  port : BitVec 3
  part : Bool
  syndrome : BitVec 8
  stamp : BitVec 64
  deriving DecidableEq, Repr

/-- A corrected line waiting for its write-back (R305): its address, whether it was written since. -/
structure Writeback where
  line : Nat
  written : Bool
  deriving DecidableEq, Repr

structure DdrState where
  elog : List ElogEntry
  /-- remap table: entry k to the row it serves (R311) -/
  remap : Tab (Option DramRow)
  /-- correctable errors per row since reset -/
  rowCe : List (DramRow × Nat)
  writebacks : List Writeback
  /-- the remap copy in progress: entry, row, and whether DDR_CMD asked for it (R311); those that wait (R304) -/
  copying : Option (Nat × DramRow × Bool)
  copyWanted : List (DramRow × Bool)
  /-- post-package repair in progress: remap entry (R312) -/
  ppr : Option Nat
  /-- retraining: slices left of 256, tick of the last, when it began, what each channel found (R309, R310) -/
  slices : Nat
  sliceAt : Nat
  retrainFrom : Nat
  retrainOk : List Bool
  /-- tick of the last training; when the initial one began, and when it failed (R308, R309) -/
  trainedAt : Nat
  trainFrom : Nat
  failAt : Option Nat
  /-- no port is served until the retraining after self-refresh ends (R451, R489) -/
  hold : Bool
  /-- mean of die sensors 10 and 11 at the last training, 0.1 C (R309) -/
  trainTemp : Int
  /-- refresh multiplier in quarters, and derated timings (R307) -/
  mult : Nat
  derated : Bool
  /-- tick plus 1 of the last refresh, and the bank next to refresh, per channel (R307) -/
  refAt : Tab Nat
  refBank : Tab Nat
  /-- ticks of the last MR4 and oscillator reads -/
  mr4At : Nat
  driftAt : Nat
  /-- channels panicking (R303) -/
  panic : BitVec 16
  /-- the port served last, and the transactions it has had in its turn (R301) -/
  lastPort : Nat
  served : Nat
  /-- when the present scrub pass began, none between passes (R313) -/
  scrubAt : Option Nat
  deriving DecidableEq, Repr

/-- An entry of the SRAM repair list (R316, R321). -/
structure RepairEntry where
  macroNo : Nat
  pos : Nat
  column : Bool
  retired : Bool
  deriving DecidableEq, Repr

/-- The domain of the SRAM macros and their repairs (R314 to R317). -/
structure SrmState where
  repairs : List RepairEntry
  /-- correctable errors per macro and row; rows with an error at each bit position (R316) -/
  rowCe : List ((Nat × Nat) × Nat)
  colRows : List ((Nat × Nat) × List Nat)
  scrubPos : Nat
  deriving DecidableEq, Repr

def DdrState.reset : DdrState :=
  { elog := [], remap := [], rowCe := [], writebacks := [], copying := none, copyWanted := [], ppr := none,
    slices := 0, sliceAt := 0, retrainFrom := 0, retrainOk := [true, true], trainedAt := 0, trainFrom := 0, failAt := none,
    hold := false, trainTemp := 0, mult := 4, derated := false, refAt := [], refBank := [], mr4At := 0, driftAt := 0,
    panic := 0, lastPort := 0, served := 0, scrubAt := none }
def SrmState.reset : SrmState := ⟨[], [], [], 0⟩

/-! ### DMA, queues and bolts (spec/12, R323 to R351) -/

/-- A descriptor (R323), its fields as read. -/
structure Desc where
  src : Nat
  dst : Nat
  len : Nat
  op : Nat
  srcFix : Bool
  dstFix : Bool
  width : Nat
  wrap : Nat
  next : Nat
  tag : Word
  /-- every reserved bit is 0 (R324) -/
  clean : Bool
  deriving DecidableEq, Repr

/-- A DMA channel beside its registers (R325, R330). -/
structure DmaChan where
  desc : Option Desc
  /-- the transfer of `desc` has started -/
  started : Bool
  /-- role of the write that enabled the channel, and of the entry in hand (R329, R330) -/
  role : Role
  entryRole : Role
  /-- EN = 0 was written during the transfer (R333) -/
  aborting : Bool
  /-- lane held: 0-1 compression, 2-3 decompression -/
  lane : Option Nat
  /-- address of the chain's next descriptor, 0 at the end of count (R330) -/
  next : Nat
  /-- what the lane made of the descriptor's bolt: the bytes to write, none of them for NO_GAIN (R334) -/
  boltOut : Option (List Byte)
  deriving DecidableEq, Repr

/-- A queue (R335 to R341). -/
structure QueueState where
  en : Bool
  log2 : Nat
  esize : Nat
  base : Nat
  hi : Nat
  lo : Nat
  head : BitVec 16
  tail : BitVec 16
  resv : Nat
  drop : BitVec 16
  movePending : Bool
  spare : Option Nat
  /-- roles of the doorbell writes behind the entries, oldest first (R330) -/
  roles : List Role
  deriving DecidableEq, Repr

/-- A block in a content ring, in delivery order (R326, R327). -/
structure RingBlock where
  tag : Word
  ofs : Nat
  len : Nat
  released : Bool
  deriving DecidableEq, Repr

/-- A channel's content ring: its write pointer and blocks; its bytes lie in memory (R325). -/
structure RingState where
  wptr : Nat
  blocks : List RingBlock
  deriving DecidableEq, Repr

/-- Who uses a bolt lane (R346). -/
inductive LaneUse where
  | idle | damask | dma (k : Nat) | testing | out
  deriving DecidableEq, Repr

structure DmaState where
  chans : Tab DmaChan
  queues : Tab QueueState
  rings : Tab RingState
  lanes : Tab LaneUse
  deriving DecidableEq, Repr

def DmaChan.reset : DmaChan := ⟨none, false, .oem, .oem, false, none, 0, none⟩
def RingState.reset : RingState := ⟨0, []⟩
def DmaState.reset : DmaState := ⟨[], [], [], []⟩

/-! ### Time, dates and the network (spec/13, R352 to R375) -/

structure TimState where
  /-- the master TSC with its 32 fraction bits: count × 2^32 (R352) -/
  tscAcc : Nat
  /-- TIM_RATE in force and a written value that waits for the next reference edge (R352) -/
  rate : Int
  ratePending : Option Int
  /-- offset of the network timer from 2.5 ns per count, in 2^-16 ns (R354) -/
  ptpOfs : Int
  /-- tick of the last kick, and of the setting of LOCKED (R355) -/
  kickAt : Nat
  /-- advance rates sampled each second while LOCKED, newest first, at most 1,024 (R356), and the rate in holdover -/
  rates : List Int
  holdRate : Int
  /-- date clock in 2^-16 ns since 2000-01-01 UTC, as it stood at `dcAcc` of the TSC accumulator (R365, R368) -/
  dcVal : Int
  dcAcc : Nat
  /-- error of which a fifth is made good each second, at most ±1 ms, 2^-16 ns: the slew in force is this over 5 s (R368) -/
  slew : Int
  /-- an accepted step waits for the tick after its write (R370) -/
  acceptPending : Bool
  /-- a leap second written to TIM_UTC_OFS is being slewed whatever JUMP_MAX holds (R366) -/
  leap : Bool
  /-- local offset in force, minutes (R367) -/
  offset : Int
  /-- RTC count and the pair latched at the last RTC edge (R353) -/
  rtc : BitVec 64
  latchTsc : Nat
  latchRtc : BitVec 64
  /-- the TSC accumulator as PD4 last went off; none until PD4 has been on since the always-on power-up (R353) -/
  offTsc : Option Nat
  /-- the date clock was VALID when PD4 last went off (R371) -/
  dcKept : Bool
  deriving DecidableEq, Repr

/-- A learned address (R359). -/
structure MacEntry where
  mac : BitVec 48
  port : Nat
  seenAt : Nat
  deriving DecidableEq, Repr

/-- A frame in an egress queue (R359, R360, R364). -/
structure NetFrame where
  bytes : List Byte
  ingress : Nat
  rxRaw : Nat
  /-- offset of the correctionField and of a UDP checksum to clear, when the frame is an event message (R363, R364) -/
  corrAt : Option Nat
  udpAt : Option Nat
  /-- the transmit descriptor behind a frame of the internal port: queue and entry counter (R361) -/
  desc : Option (Nat × Nat)
  deriving DecidableEq, Repr

structure NetState where
  macs : List MacEntry
  /-- egress queues, keyed by port × 4 + queue, oldest frame first (R360) -/
  egress : Tab (List NetFrame)
  /-- the last frame sent on each external port, without its FCS -/
  sent : Tab (List Byte)
  /-- an MDIO frame is in progress -/
  mdioBusy : Bool
  deriving DecidableEq, Repr

def TimState.reset : TimState :=
  { tscAcc := 0, rate := 0, ratePending := none, ptpOfs := 0, kickAt := 0, rates := [], holdRate := 0,
    dcVal := 0, dcAcc := 0, slew := 0, acceptPending := false, leap := false, offset := 0, rtc := 0,
    latchTsc := 0, latchRtc := 0, offTsc := none, dcKept := false }
def NetState.reset : NetState := ⟨[], [], [], false⟩

/-! ### The enclave, records and boot (spec/14, R376 to R407) -/

/-- What a flash-store entry holds (R386). -/
inductive StoreKind where
  | serial (c : Nat)
  | cred (slot : Nat)
  | tplKey (i : Nat)
  | recKey
  | progKey
  | epoch
  | owned
  deriving DecidableEq, Repr

/-- An entry of the flash store in force, or a write of one (R386): type, sequence number, payload. -/
structure StoreEntry where
  kind : StoreKind
  seq : Nat
  payload : List Byte
  deriving DecidableEq, Repr

/-- A write on its way to the store: what it writes, the request slot that waits for it, the tick of its retry. -/
structure StoreWrite where
  kind : StoreKind
  payload : List Byte
  slot : Option Nat
  retryAt : Option Nat
  deriving DecidableEq, Repr

/-- A record waiting for its signature (R389, R392). -/
structure PendRec where
  chan : Nat
  productId : Word
  jobSeq : Word
  verdict : BitVec 4
  exit : BitVec 4
  noTrk : Bool
  late : Bool
  templateId : BitVec 16
  stn : BitVec 8
  partIdx : BitVec 8
  contentCrc : Word
  stamp : BitVec 64
  date : BitVec 64
  serial : BitVec 64
  /-- unrecorded refusals it carries (R29) -/
  unrec : BitVec 16
  deriving DecidableEq, Repr

/-- A channel's chain head (R390, R391). -/
structure ChainHead where
  mac : List Byte
  recs : Word
  needNew : Bool
  deriving DecidableEq, Repr

/-- A nonce issued to a request slot (R380). -/
structure Nonce where
  value : List Byte
  at_ : Nat
  deriving DecidableEq, Repr

/-- Where a boot or recovery stands (R397 to R400). -/
structure BootState where
  /-- slot named by SET_BOOT_SLOT, slot that booted last -/
  named : Option Nat
  last : Option Nat
  /-- failed attempts since the last wait, waits so far, tick at which the present wait ends -/
  failed : Nat
  waits : Nat
  waitTo : Option Nat
  /-- the recovery header accepted -/
  recHeader : List Byte
  /-- the last answer sent to the recovery host -/
  answer : List Byte
  core0 : Option (BitVec 40)
  /-- the last attempt ended with cause 7: every switched domain is reset before the next (R421) -/
  resetFirst : Bool
  deriving DecidableEq, Repr

structure SecState where
  /-- the OTP's 1,024 bytes (R383) -/
  otp : Tab Byte
  /-- credential keys, keyed by role index × 4 + key index (R381) -/
  creds : Tab (Option (List Byte))
  tplKeys : Tab (Option (List Byte))
  recKey : Option (List Byte)
  /-- a new record key that waits for the pending records (R393), with its request slot -/
  newRecKey : Option (List Byte)
  /-- records pending at that request and not yet signed, and the slot that made it -/
  newRecLeft : Nat
  newRecSlot : Nat
  progKey : Option (List Byte)
  nonces : Tab (Option Nonce)
  /-- flash store in force and writes not yet confirmed (R386) -/
  store : List StoreEntry
  writes : List StoreWrite
  epoch : Word
  epochOk : Bool
  chains : Tab ChainHead
  pending : List PendRec
  enclaveOk : Bool
  entropyOk : Bool
  /-- LEFT_MM this part last wrote for a tag UID (R394) -/
  tagLeft : Tab Word
  boot : BootState
  /-- role a request slot was started with -/
  reqRole : Tab Role
  /-- outputs of the debug port's last request (R404) -/
  portAnswer : List Byte
  deriving DecidableEq, Repr

def ChainHead.reset : ChainHead := ⟨[], 0, true⟩
def BootState.reset : BootState := ⟨none, none, 0, 0, none, [], [], none, false⟩
def SecState.reset : SecState :=
  { otp := [(0x188, 1)], creds := [], tplKeys := [], recKey := none, newRecKey := none, newRecLeft := 0, newRecSlot := 0, progKey := none, nonces := [],
    store := [], writes := [], epoch := 0, epochOk := false, chains := [], pending := [], enclaveOk := true,
    entropyOk := true, tagLeft := [], boot := BootState.reset, reqRole := [], portAnswer := [] }

/-! ### Fireguard and the fault collector (spec/15, R408 to R441) -/

/-- One interlock as sensed at its two balls (R410, R411). -/
structure IlkState where
  l1 : Bool
  l2 : Bool
  /-- tick at which the two channels began to disagree (R411) -/
  disagreeAt : Option Nat
  /-- since DISC was set both channels have shown the open state together (R411) -/
  openShown : Bool
  deriving DecidableEq, Repr

/-- One entry of a source table: words 0 to 2 (R420). -/
structure SrcCfg where
  w0 : Word
  w1 : Word
  w2 : Word
  deriving DecidableEq, Repr

/-- Fireguard beside its registers. -/
structure FgdState where
  ilks : Tab IlkState
  /-- KEYSW as last sensed (R412) -/
  keyHigh : Bool
  /-- tick at which a falling enable's off-delay ends (R413) -/
  offAt : Tab (Option Nat)
  /-- causes of a second-path force that persist on each channel, as FGD_CUT_CAUSE codes (R414) -/
  forces : Tab (List Nat)
  /-- tick of the next retry of a failed self-test (R417) -/
  retryAt : Option Nat
  /-- Fireguard's copy of the configuration: its writes and its source table (R421) -/
  cfgWrites : List (Nat × Word)
  cfgSources : List SrcCfg
  /-- domains whose writes wait to be applied from the copy (R421) -/
  applyPending : List Nat
  deriving DecidableEq, Repr

/-- One fault source (R427 to R437); `step` counts up the Flue from 0 NONE to 3 WARM_RESET. -/
structure SrcState where
  latched : Bool
  cfg : Option SrcCfg
  promoted : Bool
  releasable : Bool
  acked : Bool
  pin : Bool
  step : Nat
  /-- the source has taken its first step (R431) -/
  taken : Bool
  graceAt : Option Nat
  quietAt : Option Nat
  /-- ticks of the events in the window, newest first (R429) -/
  window : List Nat
  events : BitVec 16
  recov : BitVec 16
  stamp : BitVec 64
  deriving DecidableEq, Repr

/-- One entry of the collector's log (R441). -/
structure FltLog where
  src : Nat
  kind : Nat
  stamp : BitVec 64
  deriving DecidableEq, Repr

/-- What holds DEVICE_SAFE beside the sources (R402, R417, R434, R461, R431). -/
inductive DevHold where
  | tap | selftest | shutdown
  deriving DecidableEq, Repr

structure FltState where
  srcs : Tab SrcState
  /-- oldest first, at most 32 -/
  log : List FltLog
  holds : List DevHold
  /-- the second-path forces of a clock loss and of SYN0's bypass (R415) -/
  clockForce : Bool
  bypassForce : Bool
  /-- a WARM_RESET step's reset is in force (R425) -/
  inReset : Bool
  deriving DecidableEq, Repr

def IlkState.reset : IlkState := ⟨false, false, none, false⟩
def FgdState.reset : FgdState := ⟨[], false, [], [], none, [], [], []⟩
def SrcState.reset : SrcState :=
  ⟨false, none, false, false, false, false, 0, false, none, none, [], 0, 0, 0⟩
def FltState.reset : FltState := ⟨[], [], [], false, false, false⟩

/-! ### Synthesisers, die temperature and the Damper (spec/16, R442 to R467) -/

/-- One synthesiser beside its registers. -/
structure SynState where
  /-- tick of the next relock attempt, the present wait, and the tick the running attempt began (R450) -/
  waitAt : Option Nat
  backoff : Nat
  attemptAt : Option Nat
  deriving DecidableEq, Repr

/-- One die sensor (R457): rounds without a fault while not good, whether it was ever judged. -/
structure DieState where
  clear : Nat
  judged : Bool
  deriving DecidableEq, Repr

structure ClkState where
  syns : Tab SynState
  /-- cycles of SYN0 since the last reference cycle, 16 to each (R442, R447) -/
  refPhase : Nat
  deriving DecidableEq, Repr

structure ThmState where
  dies : Tab DieState
  /-- consecutive rounds at or above, and below, each threshold: WARN, THROTTLE, SHUTDOWN (R458) -/
  above : Tab Nat
  below : Tab Nat
  /-- SHUTDOWN's threshold stands reached -/
  shutReached : Bool
  /-- consecutive rounds of each external point at or above its limit (R463) -/
  ext : Tab Nat
  /-- consecutive rounds with no good sensor (R462) -/
  noGood : Nat
  /-- tick of the Damper's next step (R459) -/
  stepAt : Option Nat
  /-- tick at which each channel's between-mark pause ends (R460) -/
  pauseAt : Tab (Option Nat)
  /-- tick at which SHUTDOWN turns the domains off (R461) -/
  shutAt : Option Nat
  deriving DecidableEq, Repr

def SynState.reset : SynState := ⟨none, 4000, none⟩
def DieState.reset : DieState := ⟨0, false⟩
def ClkState.reset : ClkState := ⟨[], 0⟩
def ThmState.reset : ThmState := ⟨[], [], [], false, [], 0, none, [], none⟩

/-! ### Rails, start-up and power states (spec/17, R468 to R495) -/

/-- One rail slot's timers (R469, R470). -/
structure SlotState where
  qualAt : Option Nat
  timeoutAt : Option Nat
  /-- the slot is GOOD, timed out, or (going down) fallen or timed out: the sequence need not wait for it -/
  resolved : Bool
  deriving DecidableEq, Repr

/-- What the rail sequencer is doing: nothing, or the group of the ORDER named is in progress (R469, R474). -/
inductive RailPhase where
  | idle
  | up (order : Nat)
  | down (order : Nat)
  deriving DecidableEq, Repr

structure PwrState where
  /-- the always-on supply is good (R479 step 1) -/
  aon : Bool
  slots : Tab SlotState
  phase : RailPhase
  /-- start-up step of R479 reached, 1 to 8 -/
  bootStep : Nat
  /-- switch-on requests waiting for their switch, in order: domain and the tick by which it reports ON (R478) -/
  switching : List (Nat × Nat)
  /-- held switch-offs of PD7 and PD8 (R478) -/
  heldOff : List Nat
  /-- writes of PSQ_SLOTk_CFG and _DEP held until the sequence or change ends (R493): address and value -/
  heldCfg : List (Nat × Word)
  /-- tick at which FW_T ends (R482) -/
  fwAt : Option Nat
  /-- tick of the last count on an enabled physical encoder (R481) -/
  lineAt : Nat
  /-- wake recorded while ENTERING: its PWR_WAKE_CAUSE bits (R485) -/
  wake : Option Word
  /-- an emergency power-down has run and VIN has not yet held for 10 ms (R477) -/
  emergency : Bool
  /-- consecutive samples that met each watch slot's condition (R488) -/
  watchRuns : Tab Nat
  /-- DRAM is held in self-refresh, its trained settings saved (R308, R480, R482) -/
  phyKept : Bool
  /-- soot bits of the PWR page raised while PD4 or PD1 was off, to be set once both are on (R475, R492) -/
  lateSoot : List Nat
  deriving DecidableEq, Repr

def SlotState.reset : SlotState := ⟨none, none, false⟩
def PwrState.reset : PwrState :=
  { aon := false, slots := [], phase := .idle, bootStep := 1, switching := [], heldOff := [], heldCfg := [],
    fwAt := none, lineAt := 0, wake := none, emergency := false, watchRuns := [], phyKept := false, lateSoot := [] }

/-! ### Banking, wear and converters (spec/18, R496 to R512) -/

/-- An entry of the log store (R501). -/
structure LogEntry where
  kind : Nat
  seq : Nat
  payload : List Byte
  sector : Nat
  deriving DecidableEq, Repr

/-- A log-store write not yet verified: its payload, whether it is programming, the tick of its retry (R501). -/
structure LogWrite where
  kind : Nat
  payload : List Byte
  busy : Bool
  retryAt : Option Nat
  deriving DecidableEq, Repr

/-- A galvo drift check in progress on a channel (R498). -/
structure GalvoCheck where
  startAt : Nat
  frames : Nat
  sumX : Int
  sumY : Int
  deriving DecidableEq, Repr

/-- A converter beside its registers (R503 to R507). -/
structure ConvState where
  /-- next input of the scan -/
  scan : Nat
  calibrating : Bool
  fails : Nat
  deriving DecidableEq, Repr

structure BkgState where
  /-- the wear counters by item (R500), and ticks not yet counted in their unit -/
  wear : Tab Nat
  wearPart : Tab Nat
  log : List LogEntry
  logSeq : Nat
  /-- sector and fill of the circle's write position -/
  sector : Nat
  used : Nat
  retired : List Nat
  writes : List LogWrite
  galvo : Tab (Option GalvoCheck)
  convs : Tab ConvState
  /-- bank the spare converter serves for a calibration (R506) -/
  standIn : Option Nat
  /-- the last temperature terms of R505, while sensor 9 is not good -/
  terms : Int
  /-- errors and verdicts of the present second (R499) -/
  ddrCe : Nat
  srmCe : Nat
  notOk : Tab Nat
  /-- when each scheduled activity last ran (R497): a channel's drift check, the second of the last snapshot, the hourly wear
  save, one more than the second of a converter's last calibration -/
  galvoAt : Tab Nat
  teleSec : Nat
  wearAt : Nat
  calSec : Tab Nat
  deriving DecidableEq, Repr

def ConvState.reset : ConvState := ⟨0, false, 0⟩
def BkgState.reset : BkgState :=
  { wear := [], wearPart := [], log := [], logSeq := 0, sector := 0, used := 0, retired := [], writes := [],
    galvo := [], convs := [], standIn := none, terms := 0, ddrCe := 0, srmCe := 0, notOk := [],
    galvoAt := [], teleSec := 0, wearAt := 0, calSec := [] }

/-! ### The block -/

/-- Output pins the block drives (R409, R414, R83): gates, laser modulation and strobes on, reject pin levels, enables asserted, SAFE_OUT
and LINE_STOP_REQ levels, brake gates and drivers of the motor buses, module laser enables. -/
structure PinState where
  gate : BitVec 16
  laserMod : BitVec 16
  strobe : BitVec 16
  rej : BitVec 16
  len : BitVec 2
  safeOut : Bool
  lsr : Bool
  brk : BitVec 2
  drvEn : BitVec 2
  deriving DecidableEq, Repr

/-- The last bus response (R51): an error response or a normal one, and the data of a read.  The model's own field. -/
structure BusResp where
  err : Bool
  data : Word
  deriving DecidableEq, Repr

/-- The whole block: every register, store and unit the spec gives it, and the queue of waiting commands. -/
structure State where
  /-- every register of every page, by physical address (a laser port's and binding's by address + 2^40); an unlisted
  register holds its reset value -/
  regs : Tab Word
  /-- DRAM, SRAM, retention SRAM and content-ring bytes -/
  mem : List Host.Cell
  /-- boot-flash bytes of the boot images (R396) -/
  flash : List Host.Cell
  lin : LinState
  jobs : JobsState
  dmk : DmkState
  thermal : ThermalState
  laser : Tab LaserState
  loops : LoopsState
  drives : DrivesState
  link : Tab LinkState
  ddr : DdrState
  srm : SrmState
  dma : DmaState
  tim : TimState
  net : NetState
  sec : SecState
  fgd : FgdState
  flt : FltState
  clk : ClkState
  thm : ThmState
  pwr : PwrState
  bkg : BkgState
  pins : PinState
  /-- registers of the application interrupt controller, by offset (R48) -/
  plic : Tab Word
  /-- TEST_MODE as latched at always-on power-up (R402) -/
  testMode : Bool
  resp : BusResp
  /-- how many free values have been drawn (the model's own field) -/
  free : Nat
  /-- the commands waiting, first in, first out -/
  pending : List Instr
  deriving DecidableEq, Repr

/-- Why the machine stops: no command of this block does, so there is no reason to name. -/
inductive Fault where
  deriving DecidableEq, Repr

/-- Why a command has no meaning here. -/
inductive Refusal where
  /-- A command that has no meaning yet, by its mnemonic; raised by Machine/Dispatch.lean alone.  Safe: the machine
  stops where the hardware goes on. -/
  | notModelled (mnemonic : String)
  /-- An access to a block register (offset 0x040 up) of the SYS page or of a host I/O page, whose registers the spec does
  not give (R45 names the pages, no register map follows); raised by REGISTER_WRITE, and by GEN_DESCRIPTOR_COMPLETE for a
  descriptor that reads or writes one.  Safe: the machine stops where the hardware goes on. -/
  | noRegisterMap (page : Page) (offset : Nat)
  deriving DecidableEq, Repr

def PinState.reset : PinState := ⟨0, 0, 0, 0, 0, false, false, 0, 0⟩

/-- The block right after the reset of its always-on domain: every register at its reset value, nothing in memory, every
switched domain off (PWR_DOM_STAT, R494), start-up step 1 of R479 ahead, the queue empty. -/
def State.reset : State :=
  { regs := [], mem := [], flash := [], lin := LinState.reset, jobs := JobsState.reset, dmk := DmkState.reset,
    thermal := ThermalState.reset, laser := [], loops := LoopsState.reset, drives := DrivesState.reset, link := [],
    ddr := DdrState.reset, srm := SrmState.reset, dma := DmaState.reset, tim := TimState.reset, net := NetState.reset,
    sec := SecState.reset, fgd := FgdState.reset, flt := FltState.reset, clk := ClkState.reset, thm := ThmState.reset,
    pwr := PwrState.reset, bkg := BkgState.reset, pins := PinState.reset, plic := [], testMode := false,
    resp := ⟨false, 0⟩, free := 0, pending := [] }

end Sys2Proof.Machine
end

