-- ==== Sys2Proof/Machine/Pages.lean ====
section
/-! DEFINITION. Register pages: bases, indices, domains, types, access defaults (R38, R45, R46, R52) and the map of soot
bits to fault sources and default classes of every chapter (R55, R437). -/
namespace Sys2Proof.Machine

/-- Base address of a channel's pages (R45). -/
def chBase (n : Nat) : Nat := 0x40200000 + 0x10000 * n

/-- Base of the header page of unit `u`: channels 0-15, then stations as units 16-23 (R45). -/
def unitBase (u : Nat) : Nat := if u < 16 then chBase u else 0x40380000 + 0x1000 * (u - 16)

/-- Where unit `u`'s job-queue registers stand, less their offsets in R123: the job-queue page of a channel, 0x400 into
a station's page (R124). -/
def chjBase (u : Nat) : Nat := if u < 16 then chBase u + 0x2000 else 0x40380400 + 0x1000 * (u - 16)

/-- Base of sequencer `n`'s page; 16 is the spare (R45). -/
def seqBase (n : Nat) : Nat := if n = 16 then 0x40300000 else chBase n + 0x1000

/-- What is added to an address of a channel's port or binding page to key its laser-mode registers: the thermal and
the laser port share one page address (R38) and hold their registers apart. -/
def laserKey : Nat := 0x10000000000

/-- Page frame number of a page (R42, R45). -/
def pagePfn : Page → Nat
  | .root => 0x40000 | .sys => 0x40010 | .pwr => 0x40020 | .clk => 0x40030 | .thm => 0x40040 | .flt => 0x40050
  | .fgd => 0x40060 | .sec => 0x40070 | .tim => 0x40080 | .net => 0x40090 | .ddr => 0x400A0 | .srm => 0x400B0
  | .dma => 0x400C0 | .qmg => 0x400D0 | .lin => 0x400E0 | .dmk => 0x400F0 | .blt => 0x40100
  | .spareSeq => 0x40300
  | .stn s => 0x40380 + s.val
  | .loop => 0x40400 | .mot => 0x40500 | .adc => 0x40600 | .hio => 0x40700 | .bkg => 0x40780
  | .ch n k => 0x40200 + 16 * n.val + k.val
  | .ldp d => 0x40401 + d.val
  | .stp p => 0x40501 + p.val
  | .bldc k => 0x40511 + k.val
  | .mb u => 0x40515 + u.val
  | .cv c => 0x40601 + c.val
  | .hioCh h => 0x40701 + h.val

/-- Base address of a page. -/
def pageBase (p : Page) : Nat := pagePfn p * 4096

/-- The pages outside the indexed groups, with `pagePfn` as their key. -/
def plainPages : List Page :=
  [.root, .sys, .pwr, .clk, .thm, .flt, .fgd, .sec, .tim, .net, .ddr, .srm, .dma, .qmg, .lin, .dmk, .blt, .spareSeq,
   .loop, .mot, .adc, .hio, .bkg]

/-- The page at a page frame number, if there is one (R45). -/
def pageAt (f : Nat) : Option Page :=
  if 0x40200 ≤ f ∧ f < 0x40300 then
    if h : f % 16 < 8 then some (.ch ⟨(f - 0x40200) / 16 % 16, by omega⟩ ⟨f % 16, h⟩) else none
  else if h : 0x40380 ≤ f ∧ f < 0x40388 then some (.stn ⟨f - 0x40380, by omega⟩)
  else if h : 0x40401 ≤ f ∧ f < 0x40405 then some (.ldp ⟨f - 0x40401, by omega⟩)
  else if h : 0x40501 ≤ f ∧ f < 0x40511 then some (.stp ⟨f - 0x40501, by omega⟩)
  else if h : 0x40511 ≤ f ∧ f < 0x40515 then some (.bldc ⟨f - 0x40511, by omega⟩)
  else if h : 0x40515 ≤ f ∧ f < 0x40517 then some (.mb ⟨f - 0x40515, by omega⟩)
  else if h : 0x40601 ≤ f ∧ f < 0x40607 then some (.cv ⟨f - 0x40601, by omega⟩)
  else if h : 0x40701 ≤ f ∧ f < 0x40706 then some (.hioCh ⟨f - 0x40701, by omega⟩)
  else plainPages.find? (fun p => pagePfn p == f)

/-- Directory index and interrupt input of a page (R45). -/
def pageIdx : Page → Nat
  | .root => 0 | .sys => 1 | .pwr => 2 | .clk => 3 | .thm => 4 | .flt => 5 | .fgd => 6 | .sec => 7 | .tim => 8
  | .net => 9 | .ddr => 10 | .srm => 11 | .dma => 12 | .qmg => 13 | .lin => 14 | .dmk => 15 | .blt => 16
  | .spareSeq => 17
  | .stn s => 18 + s.val
  | .loop => 26 | .mot => 27 | .adc => 28 | .hio => 29 | .bkg => 30
  | .ch n k => 32 + 8 * n.val + k.val
  | .ldp d => 160 + d.val
  | .stp p => 164 + p.val
  | .bldc k => 180 + k.val
  | .mb u => 184 + u.val
  | .cv c => 186 + c.val
  | .hioCh h => 192 + h.val

/-- Power domain of a page (R46). -/
def pageDomain : Page → Nat
  | .fgd | .flt => 1
  | .sec => 2
  | .root | .sys | .pwr | .clk | .thm | .tim | .srm | .dma | .qmg | .lin | .hio | .hioCh _ | .bkg | .stn _ => 4
  | .ddr => 5
  | .dmk | .blt => 6
  | .spareSeq => 7
  | .ch n k => if k.val = 5 then 9 else if n.val < 8 then 7 else 8
  | .loop | .ldp _ => 9
  | .mot | .stp _ | .bldc _ | .mb _ => 10
  | .adc | .cv _ => 11
  | .net => 12

/-- Block type code of a page; a port's and a binding's follows the channel's mode (R38). -/
def pageType (laser : Bool) : Page → Nat
  | .root => 0x01 | .sys => 0x02 | .pwr => 0x03 | .clk => 0x04 | .thm => 0x05 | .flt => 0x06 | .fgd => 0x07
  | .sec => 0x08 | .tim => 0x09 | .net => 0x0A | .ddr => 0x0B | .srm => 0x0C | .dma => 0x0D | .qmg => 0x0E
  | .lin => 0x0F | .dmk => 0x10 | .blt => 0x11
  | .spareSeq => 0x21
  | .stn _ => 0x30
  | .loop => 0x40 | .mot => 0x50 | .adc => 0x60 | .hio => 0x70 | .bkg => 0x78
  | .ch _ k => match k.val with
    | 0 => 0x20 | 1 => 0x21 | 2 => 0x22
    | 3 => if laser then 0x24 else 0x23
    | 4 => if laser then 0x26 else 0x25
    | 5 => 0x27 | 6 => 0x28 | _ => 0x29
  | .ldp _ => 0x41
  | .stp _ => 0x51 | .bldc _ => 0x52 | .mb _ => 0x53 | .cv _ => 0x61
  | .hioCh h => match h.val with
    | 0 => 0x71 | 1 => 0x71 | 2 => 0x72 | 3 => 0x73 | _ => 0x74

/-- Instance number of a page; a channel's pages carry the channel number, the spare sequencer 16 (R37). -/
def pageInstance : Page → Nat
  | .spareSeq => 16
  | .stn s => s.val | .ch n _ => n.val | .ldp d => d.val | .stp p => p.val | .bldc k => k.val | .mb u => u.val
  | .cv c => c.val
  | .hioCh h => if h.val = 1 then 1 else 0
  | _ => 0

/-- Base fault source of a page, PG_SRCNUM (R45, R273). -/
def pageSrc : Page → Nat
  | .root => 254 | .sys => 248 | .pwr => 24 | .clk => 16 | .thm => 32 | .flt => 10 | .fgd => 0 | .sec => 56
  | .tim => 64 | .net => 68 | .ddr => 40 | .srm => 48 | .dma => 249 | .qmg => 250 | .lin => 72 | .dmk => 88
  | .blt => 92 | .spareSeq => 224 | .stn _ => 255 | .loop => 251 | .mot => 232 | .adc => 252 | .hio => 253
  | .bkg => 253
  | .ch n k => 96 + 8 * n.val + (match k.val with | 3 => 2 | 4 => 4 | 5 => 5 | 6 => 1 | 7 => 7 | _ => 0)
  | .ldp _ => 251
  | .stp p => 233 + p.val / 2
  | .bldc k => 241 + k.val
  | .mb u => 245 + u.val
  | .cv _ => 252
  | .hioCh _ => 253

/-- Parent page (R43): the channel header of a channel's pages, the engine's page of its children. -/
def pageParent : Page → Option Page
  | .ch n k => if k.val = 0 then none else some (.ch n 0)
  | .ldp _ => some .loop
  | .stp _ | .bldc _ | .mb _ => some .mot
  | .cv _ => some .adc
  | .hioCh _ => some .hio
  | _ => none

/-- Number of child pages (R37, R43). -/
def pageChildren : Page → Nat
  | .root => 46
  | .ch _ k => if k.val = 0 then 7 else 0
  | .loop => 4 | .mot => 22 | .adc => 6 | .hio => 5
  | _ => 0

/-- Default access rights of a page: read mask, write mask, owner mask (R52). -/
def pageAcl : Page → Nat × Nat × Nat
  | .root => (0xFF, 0x0E, 0)
  | .sys => (0xFF, 0x07, 4)
  | .pwr => (0xFF, 0x0D, 4)
  | .clk => (0xFF, 0x05, 4)
  | .thm | .srm | .loop | .ldp _ | .mot | .stp _ | .bldc _ | .mb _ | .adc | .cv _ | .bkg => (0xFF, 0x15, 4)
  | .ddr => (0xFF, 0x1D, 4)
  | .flt => (0xFF, 0x25, 1)
  | .fgd => (0xFF, 0x01, 1)
  | .sec => (0x1F, 0x0E, 0)
  | .tim => (0xFF, 0x0D, 8)
  | .net | .hio | .hioCh _ => (0xFF, 0x0C, 4)
  | .dma | .qmg | .blt => (0xFF, 0x4C, 4)
  | .lin => (0xFF, 0x2D, 4)
  | .dmk => (0xFF, 0x6C, 8)
  | .stn _ => (0xFF, 0x2D, 4)
  | .spareSeq => (0xFF, 0x15, 4)
  | .ch _ k => match k.val with
    | 0 => (0xFF, 0x2D, 4)
    | 2 => (0xFF, 0x2C, 4)
    | 6 => (0xFF, 0x04, 4)
    | 7 => (0xFF, 0x05, 4)
    | _ => (0xFF, 0x15, 4)

/-- Whether a spare can replace the unit (R508): channel sequencers and converters 0-4. -/
def pageSpare : Page → Bool
  | .ch _ k => k.val == 1
  | .cv c => c.val < 5
  | _ => false

/-- The soot bits of a page with the fault source each maps to and its default class (0 INFO, 1 MINOR, 2 SEVERE,
3 CRITICAL): R85, R122, R123, R160, R193, R219, R243, R273-R277, R294, R320, R322, R347-R351, R375, R407, R440, R441,
R467, R495, R511, R512, R539.  DESIGN CHOICE (log entry 7): a station page's bit, to which no chapter gives a class, is INFO. -/
def sootMap (laser : Bool) : Page → List (Nat × Nat × Nat)
  | .root | .sys | .loop | .hio | .hioCh _ => []
  | .pwr => [(0, 24, 2), (1, 25, 0), (2, 26, 2), (3, 27, 1), (4, 28, 2), (5, 29, 0)]
  | .clk => [(0, 16, 2), (1, 17, 1), (2, 18, 2), (3, 19, 2), (4, 20, 2), (5, 21, 1), (6, 22, 0)]
  | .thm => [(0, 32, 0), (1, 33, 0), (2, 34, 3), (3, 35, 1), (4, 36, 2), (5, 37, 1), (6, 38, 0)]
  | .flt => [(0, 10, 3)]
  | .fgd => [(0, 0, 3), (1, 1, 3), (2, 2, 3), (3, 3, 3), (4, 4, 3), (5, 5, 3), (6, 6, 3), (7, 7, 3), (8, 8, 3),
      (9, 9, 2), (11, 11, 3), (12, 12, 3)]
  | .sec => [(0, 56, 2), (1, 57, 2), (2, 58, 2), (3, 59, 1), (4, 60, 1), (5, 61, 2), (6, 62, 1), (7, 63, 0)]
  | .tim => [(0, 64, 1), (1, 65, 0), (2, 66, 0), (3, 67, 0)]
  | .net => [(0, 68, 0), (1, 69, 1), (2, 70, 2), (3, 71, 0)]
  | .ddr => [(0, 40, 2), (1, 41, 1), (2, 42, 3), (3, 43, 2), (4, 44, 2), (5, 45, 1), (6, 46, 0)]
  | .srm => [(0, 48, 2), (1, 49, 1), (2, 50, 0), (3, 51, 2), (4, 52, 2)]
  | .dma => [(0, 249, 1), (1, 249, 0), (2, 249, 0)]
  | .qmg => [(0, 250, 2), (1, 250, 0), (2, 250, 0)]
  | .lin => [(0, 72, 1), (1, 73, 1), (2, 74, 1), (3, 75, 1), (4, 76, 1), (5, 77, 1), (6, 78, 1), (7, 79, 1),
      (8, 80, 2), (9, 81, 2), (10, 82, 2), (11, 83, 1), (12, 84, 0), (13, 85, 1)]
  | .dmk => [(0, 88, 1), (1, 89, 0), (2, 90, 2), (3, 91, 1), (4, 89, 0)]
  | .blt => [(0, 92, 1), (1, 92, 2)]
  | .spareSeq => (List.range 7).map (fun b => (b, 224, 1))
  | .stn _ => [(0, 255, 0)]
  | .ch n k =>
    let src := 96 + 8 * n.val
    match k.val with
    | 1 => (List.range 7).map (fun b => (b, src, 1))
    | 2 => [(0, src, 0)]
    | 3 =>
      if laser then
        [(0, src + 2, 1), (1, src + 2, 1), (2, src + 2, 2), (3, src + 2, 1), (4, src + 2, 1), (5, src + 2, 1),
          (6, src + 3, 1), (7, src + 3, 3), (8, src + 6, 3)]
      else
        [(0, src + 2, 1), (1, src + 2, 1), (2, src + 2, 1), (3, src + 3, 3), (4, src + 6, 3), (5, src + 6, 3),
          (6, src + 6, 3)]
    | 4 => if laser then [(0, src + 4, 3), (1, src + 4, 1)] else [(0, src + 4, 1)]
    | 5 => [(0, src + 5, 3), (1, src + 5, 2), (2, src + 5, 0), (3, src + 5, 2), (4, src + 5, 0)]
    | 6 => [(0, src + 1, 1), (1, src + 1, 1), (2, src + 1, 1)]
    | 7 => [(0, src + 7, 1), (1, src + 7, 1), (2, src + 7, 1), (3, src + 7, 1)]
    | _ => []
  | .ldp _ => [(0, 251, 2), (1, 251, 1), (2, 251, 0), (3, 251, 0)]
  | .mot => [(0, 232, 0)]
  | .stp p => (List.range 4).map (fun b => (b, 233 + p.val / 2, 1))
  | .bldc k => (List.range 4).map (fun b => (b, 241 + k.val, 1))
  | .mb u => (List.range 3).map (fun b => (b, 245 + u.val, 2))
  | .adc => [(0, 252, 2), (1, 252, 0)]
  | .cv _ => [(0, 252, 1)]
  | .bkg => [(0, 253, 1), (1, 253, 1), (2, 253, 2), (3, 253, 0)]

/-- Source and class of one soot bit. -/
def sootOf (laser : Bool) (p : Page) (b : Nat) : Option (Nat × Nat) :=
  (sootMap laser p).find? (fun e => e.1 == b) |>.map (fun e => e.2)

/-- All the pages whose soot can drive a source (R45, R55). -/
def pagesOfSrc (src : Nat) : List Page :=
  if h : 96 ≤ src ∧ src < 224 then
    (List.finRange 8).map (fun k => Page.ch ⟨(src - 96) / 8, by omega⟩ k)
  else if h : 233 ≤ src ∧ src < 241 then
    [.stp ⟨2 * (src - 233), by omega⟩, .stp ⟨2 * (src - 233) + 1, by omega⟩]
  else if h : 241 ≤ src ∧ src < 245 then [.bldc ⟨src - 241, by omega⟩]
  else if h : 245 ≤ src ∧ src < 247 then [.mb ⟨src - 245, by omega⟩]
  else if src = 251 then (List.finRange 4).map Page.ldp
  else if src = 252 then .adc :: (List.finRange 6).map Page.cv
  else if src = 255 then (List.finRange 8).map Page.stn
  else if src = 224 then [.spareSeq]
  else [.pwr, .clk, .thm, .flt, .fgd, .sec, .tim, .net, .ddr, .srm, .dma, .qmg, .lin, .dmk, .blt, .mot, .bkg].filter
    (fun p => (sootMap false p).any (fun e => e.2.1 == src))

/-- All pages of a domain that carry soot or registers of units, in directory order. -/
def allPages : List Page :=
  [.root, .sys, .pwr, .clk, .thm, .flt, .fgd, .sec, .tim, .net, .ddr, .srm, .dma, .qmg, .lin, .dmk, .blt, .spareSeq]
    ++ (List.finRange 8).map Page.stn ++ [.loop, .mot, .adc, .hio, .bkg]
    ++ (List.finRange 16).flatMap (fun n => (List.finRange 8).map (fun k => Page.ch n k))
    ++ (List.finRange 4).map Page.ldp ++ (List.finRange 16).map Page.stp ++ (List.finRange 4).map Page.bldc
    ++ (List.finRange 2).map Page.mb ++ (List.finRange 6).map Page.cv ++ (List.finRange 5).map Page.hioCh

/-- The pages of a power domain. -/
def pagesOfDomain (d : Nat) : List Page := allPages.filter (fun p => pageDomain p == d)

/-- Bit of a role in every ACL mask (R49). -/
def roleBit : Role → Nat
  | .fireguard => 0 | .vendor => 1 | .oem => 2 | .owner => 3 | .service => 4 | .operator => 5 | .line => 6 | .debug => 7

/-- Whether a role is in a mask. -/
def inMask (m : Nat) (r : Role) : Bool := m.testBit (roleBit r)

/-- The role of a bit number. -/
def roleOf : Nat → Role
  | 0 => .fireguard | 1 => .vendor | 2 => .oem | 3 => .owner | 4 => .service | 5 => .operator | 6 => .line | _ => .debug

end Sys2Proof.Machine
end

