-- ==== Sys2Proof/Machine/Regs.lean ====
section
/-! DEFINITION. Every register of the part: its address, its reset value and the bits a plain write sets or clears, from
the register maps of spec/ (R36, R41, R87-R91, R121-R124, R159, R190-R192, R217, R218, R240-R242, R274-R277, R293, R319,
R321, R348-R350, R373, R374, R406, R440, R441, R465, R466, R494, R511, R512). -/
namespace Sys2Proof.Machine

/-- A row of a register map: offset in its page, step and number of its copies, reset value, bits a write sets, whether
the register is RWL, bits that a written 1 clears. -/
structure RegRow where
  off : Nat
  stride : Nat
  count : Nat
  reset : Nat
  wr : Nat
  rwl : Bool
  w1c : Nat
  deriving DecidableEq, Repr

namespace Reg

/-- ROOT_DEVID (R41). -/
def rootDevid : Nat := 0x40000000 + 0x40
/-- ROOT_DIR_SIZE (R41). -/
def rootDirSize : Nat := 0x40000000 + 0x44
/-- ROOT_ACV_ADDR_LO (R41). -/
def rootAcvAddrLo : Nat := 0x40000000 + 0x48
/-- ROOT_ACV_INFO (R41). -/
def rootAcvInfo : Nat := 0x40000000 + 0x4C
/-- ROOT_ACV_STAMP_LO (R41). -/
def rootAcvStampLo : Nat := 0x40000000 + 0x50
/-- ROOT_ACV_STAMP_HI (R41). -/
def rootAcvStampHi : Nat := 0x40000000 + 0x54
/-- ROOT_ACV_COUNT (R41). -/
def rootAcvCount : Nat := 0x40000000 + 0x58
/-- ROOT_SWI_SET (R41). -/
def rootSwiSet : Nat := 0x40000000 + 0x60
/-- ROOT_SWI_CLR (R41). -/
def rootSwiClr : Nat := 0x40000000 + 0x64
/-- ROOT_SWI_STAT (R41). -/
def rootSwiStat : Nat := 0x40000000 + 0x68
/-- LIN_STAT (R87). -/
def linStat : Nat := 0x400E0000 + 0x40
/-- LIN_TRK_PEAK (R87). -/
def linTrkPeak : Nat := 0x400E0000 + 0x44
/-- LIN_PID_NEXT (R87). -/
def linPidNext : Nat := 0x400E0000 + 0x48
/-- LIN_POLICY (R87). -/
def linPolicy : Nat := 0x400E0000 + 0x4C
/-- LIN_LSR_CTRL (R87). -/
def linLsrCtrl : Nat := 0x400E0000 + 0x50
/-- LIN_FORCE_PID (R87). -/
def linForcePid : Nat := 0x400E0000 + 0x54
/-- LIN_FORCE_RES (R87). -/
def linForceRes : Nat := 0x400E0000 + 0x58
/-- LIN_CNT_UNREC (R87). -/
def linCntUnrec : Nat := 0x400E0000 + 0x5C
/-- LIN_CNT_LATE (R87). -/
def linCntLate : Nat := 0x400E0000 + 0x60
/-- LIN_TRK_SEL (R87). -/
def linTrkSel : Nat := 0x400E0000 + 0x64
/-- LIN_TRK_D (R87). -/
def linTrkD (k : Nat) : Nat := 0x400E0000 + 0x68 + 0x4 * k
/-- LIN_MAP_ENC (R87). -/
def linMapEnc : Nat := 0x400E0000 + 0x88
/-- LIN_MAP_PD0 (R87). -/
def linMapPd0 : Nat := 0x400E0000 + 0x8C
/-- LIN_MAP_PD1 (R87). -/
def linMapPd1 : Nat := 0x400E0000 + 0x90
/-- LIN_MAP_REJ0 (R87). -/
def linMapRej0 : Nat := 0x400E0000 + 0x94
/-- LIN_MAP_REJ1 (R87). -/
def linMapRej1 : Nat := 0x400E0000 + 0x98
/-- LIN_ENC_CFG (R88). -/
def linEncCfg (e : Nat) : Nat := 0x400E0100 + 0x40 * e
/-- LIN_ENC_POS_FRAC (R88). -/
def linEncPosFrac (e : Nat) : Nat := 0x400E0100 + 0x40 * e + 0x4
/-- LIN_ENC_POS_LO (R88). -/
def linEncPosLo (e : Nat) : Nat := 0x400E0100 + 0x40 * e + 0x8
/-- LIN_ENC_POS_HI (R88). -/
def linEncPosHi (e : Nat) : Nat := 0x400E0100 + 0x40 * e + 0xC
/-- LIN_ENC_VEL (R88). -/
def linEncVel (e : Nat) : Nat := 0x400E0100 + 0x40 * e + 0x10
/-- LIN_ENC_ACC (R88). -/
def linEncAcc (e : Nat) : Nat := 0x400E0100 + 0x40 * e + 0x14
/-- LIN_ENC_SNAP_LO (R88). -/
def linEncSnapLo (e : Nat) : Nat := 0x400E0100 + 0x40 * e + 0x18
/-- LIN_ENC_SNAP_HI (R88). -/
def linEncSnapHi (e : Nat) : Nat := 0x400E0100 + 0x40 * e + 0x1C
/-- LIN_ENC_ZPOS_LO (R88). -/
def linEncZposLo (e : Nat) : Nat := 0x400E0100 + 0x40 * e + 0x20
/-- LIN_ENC_ZPOS_HI (R88). -/
def linEncZposHi (e : Nat) : Nat := 0x400E0100 + 0x40 * e + 0x24
/-- LIN_ENC_ZPER (R88). -/
def linEncZper (e : Nat) : Nat := 0x400E0100 + 0x40 * e + 0x28
/-- LIN_ENC_STAT (R88). -/
def linEncStat (e : Nat) : Nat := 0x400E0100 + 0x40 * e + 0x2C
/-- LIN_ENC_PHERR_CNT (R88). -/
def linEncPherrCnt (e : Nat) : Nat := 0x400E0100 + 0x40 * e + 0x30
/-- LIN_ENC_HIGH_LO (R88). -/
def linEncHighLo (e : Nat) : Nat := 0x400E0100 + 0x40 * e + 0x34
/-- LIN_ENC_HIGH_HI (R88). -/
def linEncHighHi (e : Nat) : Nat := 0x400E0100 + 0x40 * e + 0x38
/-- LIN_VENC_CFG (R89). -/
def linVencCfg (v : Nat) : Nat := 0x400E0300 + 0x20 * v
/-- LIN_VENC_RATE (R89). -/
def linVencRate (v : Nat) : Nat := 0x400E0300 + 0x20 * v + 0x4
/-- LIN_VENC_POS_FRAC (R89). -/
def linVencPosFrac (v : Nat) : Nat := 0x400E0300 + 0x20 * v + 0x8
/-- LIN_VENC_POS_LO (R89). -/
def linVencPosLo (v : Nat) : Nat := 0x400E0300 + 0x20 * v + 0xC
/-- LIN_VENC_POS_HI (R89). -/
def linVencPosHi (v : Nat) : Nat := 0x400E0300 + 0x20 * v + 0x10
/-- LIN_VENC_RATE_NOW (R89). -/
def linVencRateNow (v : Nat) : Nat := 0x400E0300 + 0x20 * v + 0x14
/-- LIN_PD_CFG (R90). -/
def linPdCfg (i : Nat) : Nat := 0x400E0400 + 0x20 * i
/-- LIN_PD_MIN_LEN (R90). -/
def linPdMinLen (i : Nat) : Nat := 0x400E0400 + 0x20 * i + 0x4
/-- LIN_PD_BLANK (R90). -/
def linPdBlank (i : Nat) : Nat := 0x400E0400 + 0x20 * i + 0x8
/-- LIN_PD_REJ_DIST (R90). -/
def linPdRejDist (i : Nat) : Nat := 0x400E0400 + 0x20 * i + 0xC
/-- LIN_PD_BIND (R90). -/
def linPdBind (i : Nat) : Nat := 0x400E0400 + 0x20 * i + 0x10
/-- LIN_PD_CNT (R90). -/
def linPdCnt (i : Nat) : Nat := 0x400E0400 + 0x20 * i + 0x14
/-- LIN_PD_CNT_REJ_EDGE (R90). -/
def linPdCntRejEdge (i : Nat) : Nat := 0x400E0400 + 0x20 * i + 0x18
/-- LIN_PD_MAX_LEN (R90). -/
def linPdMaxLen (i : Nat) : Nat := 0x400E0400 + 0x20 * i + 0x1C
/-- LIN_REJ_CFG (R91). -/
def linRejCfg (j : Nat) : Nat := 0x400E0600 + 0x20 * j
/-- LIN_REJ_LEN (R91). -/
def linRejLen (j : Nat) : Nat := 0x400E0600 + 0x20 * j + 0x4
/-- LIN_REJ_MIN_TIME (R91). -/
def linRejMinTime (j : Nat) : Nat := 0x400E0600 + 0x20 * j + 0x8
/-- LIN_REJ_HOLD_START (R91). -/
def linRejHoldStart (j : Nat) : Nat := 0x400E0600 + 0x20 * j + 0xC
/-- LIN_REJ_HOLD_END (R91). -/
def linRejHoldEnd (j : Nat) : Nat := 0x400E0600 + 0x20 * j + 0x10
/-- LIN_REJ_STAT (R91). -/
def linRejStat (j : Nat) : Nat := 0x400E0600 + 0x20 * j + 0x14
/-- LIN_REJ_CMP_POS (R91). -/
def linRejCmpPos (j : Nat) : Nat := 0x400E0600 + 0x20 * j + 0x18
/-- LIN_REJ_CNT (R91). -/
def linRejCnt (j : Nat) : Nat := 0x400E0600 + 0x20 * j + 0x1C
/-- CH_CFG (R121). -/
def chCfg (u : Nat) : Nat := unitBase u + 0x40
/-- CH_CTRL (R121). -/
def chCtrl (u : Nat) : Nat := unitBase u + 0x44
/-- CH_STAT (R121). -/
def chStat (u : Nat) : Nat := unitBase u + 0x48
/-- CH_TRIG_OFS (R121). -/
def chTrigOfs (u : Nat) : Nat := unitBase u + 0x4C
/-- CH_ARM_DIST (R121). -/
def chArmDist (u : Nat) : Nat := unitBase u + 0x50
/-- CH_ARM_TMIN (R121). -/
def chArmTmin (u : Nat) : Nat := unitBase u + 0x54
/-- CH_SELV (R121). -/
def chSelv (u : Nat) : Nat := unitBase u + 0x58
/-- CH_MARK_LEN (R121). -/
def chMarkLen (u : Nat) : Nat := unitBase u + 0x5C
/-- CH_MARK_DUR (R121). -/
def chMarkDur (u : Nat) : Nat := unitBase u + 0x60
/-- CH_LINE_PITCH (R121). -/
def chLinePitch (u : Nat) : Nat := unitBase u + 0x64
/-- CH_MIN_LINE_T (R121). -/
def chMinLineT (u : Nat) : Nat := unitBase u + 0x68
/-- CH_SPEED_TOL (R121). -/
def chSpeedTol (u : Nat) : Nat := unitBase u + 0x6C
/-- CH_STALL_T (R121). -/
def chStallT (u : Nat) : Nat := unitBase u + 0x70
/-- CH_QUEUES (R121). -/
def chQueues (u : Nat) : Nat := unitBase u + 0x74
/-- CH_CNT_ADMIT (R121). -/
def chCntAdmit (u : Nat) : Nat := unitBase u + 0x78
/-- CH_CNT_OK (R121). -/
def chCntOk (u : Nat) : Nat := unitBase u + 0x7C
/-- CH_CNT_NOT_OK (R121). -/
def chCntNotOk (u : Nat) : Nat := unitBase u + 0x80
/-- CH_LAST_WIN (R121). -/
def chLastWin (u : Nat) : Nat := unitBase u + 0x84
/-- SEQ_CTRL (R122). -/
def seqCtrl (n : Nat) : Nat := seqBase n + 0x40
/-- SEQ_STAT (R122). -/
def seqStat (n : Nat) : Nat := seqBase n + 0x44
/-- SEQ_LOAD_ADDR_LO (R122). -/
def seqLoadAddrLo (n : Nat) : Nat := seqBase n + 0x48
/-- SEQ_LOAD_ADDR_HI (R122). -/
def seqLoadAddrHi (n : Nat) : Nat := seqBase n + 0x4C
/-- SEQ_LOAD_LEN (R122). -/
def seqLoadLen (n : Nat) : Nat := seqBase n + 0x50
/-- SEQ_PROG_HASH (R122). -/
def seqProgHash (n k : Nat) : Nat := seqBase n + 0x54 + 0x4 * k
/-- SEQ_WDT (R122). -/
def seqWdt (n : Nat) : Nat := seqBase n + 0x74
/-- SEQ_PC (R122). -/
def seqPc (n : Nat) : Nat := seqBase n + 0x78
/-- SEQ_PROG_VER (R122). -/
def seqProgVer (n : Nat) : Nat := seqBase n + 0x7C
/-- SEQ_ECC_CNT (R122). -/
def seqEccCnt (n : Nat) : Nat := seqBase n + 0x80
/-- SEQ_LATE_CNT (R122). -/
def seqLateCnt (n : Nat) : Nat := seqBase n + 0x84
/-- SEQ_BADPOST (R122). -/
def seqBadpost (n : Nat) : Nat := seqBase n + 0x88
/-- SEQ_SWAP_STAT (R122). -/
def seqSwapStat (n : Nat) : Nat := seqBase n + 0x8C
/-- CHJ_STAT (R123). -/
def chjStat (u : Nat) : Nat := chjBase u + 0x40
/-- CHJ_PEAK (R123). -/
def chjPeak (u : Nat) : Nat := chjBase u + 0x44
/-- CHJ_MADMIT_POS (R123). -/
def chjMadmitPos (u : Nat) : Nat := chjBase u + 0x48
/-- CHJ_MADMIT (R123). -/
def chjMadmit (u : Nat) : Nat := chjBase u + 0x4C
/-- CHJ_MADMIT_RES (R123). -/
def chjMadmitRes (u : Nat) : Nat := chjBase u + 0x50
/-- CHJ_CANCEL (R123). -/
def chjCancel (u : Nat) : Nat := chjBase u + 0x54
/-- CHJ_CANCEL_RES (R123). -/
def chjCancelRes (u : Nat) : Nat := chjBase u + 0x58
/-- CHJ_SEL (R123). -/
def chjSel (u : Nat) : Nat := chjBase u + 0x5C
/-- CHJ_SEQ_NEXT (R123). -/
def chjSeqNext (u : Nat) : Nat := chjBase u + 0x60
/-- CHJ_CNT_REFUSED (R123). -/
def chjCntRefused (u : Nat) : Nat := chjBase u + 0x64
/-- CHJ_CNT_MISSED (R123). -/
def chjCntMissed (u : Nat) : Nat := chjBase u + 0x68
/-- CHJ_CNT_ABORTED (R123). -/
def chjCntAborted (u : Nat) : Nat := chjBase u + 0x6C
/-- CHJ_UNREC (R123). -/
def chjUnrec (u : Nat) : Nat := chjBase u + 0x70
/-- CHJ_VQ_DROP (R123). -/
def chjVqDrop (u : Nat) : Nat := chjBase u + 0x74
/-- CHJ_D (R123). -/
def chjD (u k : Nat) : Nat := chjBase u + 0x80 + 0x4 * k
/-- STN_CFG (R124). -/
def stnCfg (s : Nat) : Nat := 0x40380000 + 0x1000 * s + 0x800
/-- STN_MEMBERS (R124). -/
def stnMembers (s : Nat) : Nat := 0x40380000 + 0x1000 * s + 0x804
/-- STN_VERDICT_LAST (R124). -/
def stnVerdictLast (s : Nat) : Nat := 0x40380000 + 0x1000 * s + 0x808
/-- STN_SLOT_MEMBER (R124). -/
def stnSlotMember (s k : Nat) : Nat := 0x40380000 + 0x1000 * s + 0x810 + 0x8 * k
/-- STN_SLOT_OFS (R124). -/
def stnSlotOfs (s k : Nat) : Nat := 0x40380000 + 0x1000 * s + 0x814 + 0x8 * k
/-- DMK_STAT (R159). -/
def dmkStat : Nat := 0x400F0000 + 0x40
/-- DMK_PEAK (R159). -/
def dmkPeak : Nat := 0x400F0000 + 0x44
/-- DMK_CFG (R159). -/
def dmkCfg : Nat := 0x400F0000 + 0x48
/-- DMK_STG_BASE_LO (R159). -/
def dmkStgBaseLo : Nat := 0x400F0000 + 0x4C
/-- DMK_STG_BASE_HI (R159). -/
def dmkStgBaseHi : Nat := 0x400F0000 + 0x50
/-- DMK_STG_SIZE (R159). -/
def dmkStgSize : Nat := 0x400F0000 + 0x54
/-- DMK_TPL_ADDR_LO (R159). -/
def dmkTplAddrLo : Nat := 0x400F0000 + 0x58
/-- DMK_TPL_ADDR_HI (R159). -/
def dmkTplAddrHi : Nat := 0x400F0000 + 0x5C
/-- DMK_TPL_LEN (R159). -/
def dmkTplLen : Nat := 0x400F0000 + 0x60
/-- DMK_TPL_CMD (R159). -/
def dmkTplCmd : Nat := 0x400F0000 + 0x64
/-- DMK_TPL_RES (R159). -/
def dmkTplRes : Nat := 0x400F0000 + 0x68
/-- DMK_TPL_SEL (R159). -/
def dmkTplSel : Nat := 0x400F0000 + 0x6C
/-- DMK_TPL_INFO0 (R159). -/
def dmkTplInfo0 : Nat := 0x400F0000 + 0x70
/-- DMK_TPL_INFO1 (R159). -/
def dmkTplInfo1 : Nat := 0x400F0000 + 0x74
/-- DMK_CACHE_STAT (R159). -/
def dmkCacheStat : Nat := 0x400F0000 + 0x78
/-- DMK_RENDER_CNT (R159). -/
def dmkRenderCnt : Nat := 0x400F0000 + 0x7C
/-- DMK_FAIL_CNT (R159). -/
def dmkFailCnt : Nat := 0x400F0000 + 0x80
/-- DMK_FAIL_INFO (R159). -/
def dmkFailInfo : Nat := 0x400F0000 + 0x84
/-- DMK_FAIL_SEQ (R159). -/
def dmkFailSeq : Nat := 0x400F0000 + 0x88
/-- DMK_RENDER_MAX (R159). -/
def dmkRenderMax : Nat := 0x400F0000 + 0x8C
/-- DMK_ENG_STAT (R159). -/
def dmkEngStat : Nat := 0x400F0000 + 0x90
/-- DMK_SEL (R159). -/
def dmkSel (u : Nat) : Nat := 0x400F0000 + 0xC0 + 0x4 * u
/-- DMK_LOT_SEL (R159). -/
def dmkLotSel : Nat := 0x400F0000 + 0x140
/-- DMK_LOT_LEN (R159). -/
def dmkLotLen : Nat := 0x400F0000 + 0x144
/-- DMK_LOT_CMD (R159). -/
def dmkLotCmd : Nat := 0x400F0000 + 0x148
/-- DMK_LOT_RES (R159). -/
def dmkLotRes : Nat := 0x400F0000 + 0x14C
/-- DMK_LOT_DATA (R159). -/
def dmkLotData (k : Nat) : Nat := 0x400F0000 + 0x150 + 0x4 * k
/-- DMK_OPE_TARGET (R159). -/
def dmkOpeTarget : Nat := 0x400F0000 + 0x170
/-- DMK_OPE_LEN (R159). -/
def dmkOpeLen : Nat := 0x400F0000 + 0x174
/-- DMK_OPE_CMD (R159). -/
def dmkOpeCmd : Nat := 0x400F0000 + 0x178
/-- DMK_OPE_RES (R159). -/
def dmkOpeRes : Nat := 0x400F0000 + 0x17C
/-- DMK_OPE_DATA (R159). -/
def dmkOpeData (k : Nat) : Nat := 0x400F0000 + 0x180 + 0x4 * k
/-- DMK_SER_SEL (R159). -/
def dmkSerSel : Nat := 0x400F0000 + 0x1C0
/-- DMK_SER_NEXT_LO (R159). -/
def dmkSerNextLo : Nat := 0x400F0000 + 0x1C4
/-- DMK_SER_NEXT_HI (R159). -/
def dmkSerNextHi : Nat := 0x400F0000 + 0x1C8
/-- DMK_SER_RESV_LO (R159). -/
def dmkSerResvLo : Nat := 0x400F0000 + 0x1CC
/-- DMK_SER_RESV_HI (R159). -/
def dmkSerResvHi : Nat := 0x400F0000 + 0x1D0
/-- DMK_SER_LIMIT_LO (R159). -/
def dmkSerLimitLo : Nat := 0x400F0000 + 0x1D4
/-- DMK_SER_LIMIT_HI (R159). -/
def dmkSerLimitHi : Nat := 0x400F0000 + 0x1D8
/-- DMK_SER_SET_LO (R159). -/
def dmkSerSetLo : Nat := 0x400F0000 + 0x1DC
/-- DMK_SER_SET_HI (R159). -/
def dmkSerSetHi : Nat := 0x400F0000 + 0x1E0
/-- DMK_SER_CMD (R159). -/
def dmkSerCmd : Nat := 0x400F0000 + 0x1E4
/-- DMK_SER_RES (R159). -/
def dmkSerRes : Nat := 0x400F0000 + 0x1E8
/-- DMK_SHIFT_START (R159). -/
def dmkShiftStart (k : Nat) : Nat := 0x400F0000 + 0x200 + 0x8 * k
/-- DMK_SHIFT_CODE (R159). -/
def dmkShiftCode (k : Nat) : Nat := 0x400F0000 + 0x204 + 0x8 * k
/-- DMK_CNT_VAL (R159). -/
def dmkCntVal (c : Nat) : Nat := 0x400F0000 + 0x240 + 0x8 * c
/-- DMK_CNT_CFG (R159). -/
def dmkCntCfg (c : Nat) : Nat := 0x400F0000 + 0x244 + 0x8 * c
/-- HP_CFG (R190). -/
def hpCfg (n : Nat) : Nat := 0x40203000 + 0x10000 * n + 0x40
/-- HP_PITCH (R190). -/
def hpPitch (n : Nat) : Nat := 0x40203000 + 0x10000 * n + 0x44
/-- HP_SHIFT (R190). -/
def hpShift (n : Nat) : Nat := 0x40203000 + 0x10000 * n + 0x48
/-- HP_LATCH (R190). -/
def hpLatch (n : Nat) : Nat := 0x40203000 + 0x10000 * n + 0x4C
/-- HP_STB (R190). -/
def hpStb (n : Nat) : Nat := 0x40203000 + 0x10000 * n + 0x50
/-- HP_SPW_CAP (R190). -/
def hpSpwCap (n : Nat) : Nat := 0x40203000 + 0x10000 * n + 0x54
/-- HP_STB_MAX (R190). -/
def hpStbMax (n : Nat) : Nat := 0x40203000 + 0x10000 * n + 0x58
/-- HP_LINE_T (R190). -/
def hpLineT (n : Nat) : Nat := 0x40203000 + 0x10000 * n + 0x5C
/-- HP_STAT (R190). -/
def hpStat (n : Nat) : Nat := 0x40203000 + 0x10000 * n + 0x60
/-- HP_TEMP (R190). -/
def hpTemp (n : Nat) : Nat := 0x40203000 + 0x10000 * n + 0x64
/-- HP_TH_CFG (R190). -/
def hpThCfg (n : Nat) : Nat := 0x40203000 + 0x10000 * n + 0x68
/-- HP_T_THROTTLE (R190). -/
def hpTThrottle (n : Nat) : Nat := 0x40203000 + 0x10000 * n + 0x6C
/-- HP_T_LIMIT (R190). -/
def hpTLimit (n : Nat) : Nat := 0x40203000 + 0x10000 * n + 0x70
/-- HP_T_SHUTDOWN (R190). -/
def hpTShutdown (n : Nat) : Nat := 0x40203000 + 0x10000 * n + 0x74
/-- HP_T_HYST (R190). -/
def hpTHyst (n : Nat) : Nat := 0x40203000 + 0x10000 * n + 0x78
/-- HP_TH_CURVE (R190). -/
def hpThCurve (n k : Nat) : Nat := 0x40203000 + 0x10000 * n + 0x80 + 0x4 * k
/-- HP_CNT_LINES (R190). -/
def hpCntLines (n : Nat) : Nat := 0x40203000 + 0x10000 * n + 0xD0
/-- HP_CNT_OVS (R190). -/
def hpCntOvs (n : Nat) : Nat := 0x40203000 + 0x10000 * n + 0xD4
/-- HP_CNT_RB (R190). -/
def hpCntRb (n : Nat) : Nat := 0x40203000 + 0x10000 * n + 0xD8
/-- HP_CNT_BLANK (R190). -/
def hpCntBlank (n : Nat) : Nat := 0x40203000 + 0x10000 * n + 0xDC
/-- HP_DDA (R190). -/
def hpDda (n : Nat) : Nat := 0x40203000 + 0x10000 * n + 0xE0
/-- HP_CNT_SHIFTED (R190). -/
def hpCntShifted (n : Nat) : Nat := 0x40203000 + 0x10000 * n + 0xE4
/-- HP_AUDIT_CFG (R190). -/
def hpAuditCfg (n : Nat) : Nat := 0x40203000 + 0x10000 * n + 0x100
/-- HP_AUDIT_TIME (R190). -/
def hpAuditTime (n : Nat) : Nat := 0x40203000 + 0x10000 * n + 0x104
/-- HP_AUDIT_STAT (R190). -/
def hpAuditStat (n : Nat) : Nat := 0x40203000 + 0x10000 * n + 0x108
/-- HP_AUDIT_IMEAN (R190). -/
def hpAuditImean (n : Nat) : Nat := 0x40203000 + 0x10000 * n + 0x10C
/-- HP_DEAD (R190). -/
def hpDead (n k : Nat) : Nat := 0x40203000 + 0x10000 * n + 0x200 + 0x4 * k
/-- EMB_CFG (R191). -/
def embCfg (n : Nat) : Nat := 0x40204000 + 0x10000 * n + 0x40
/-- EMB_CMD (R191). -/
def embCmd (n : Nat) : Nat := 0x40204000 + 0x10000 * n + 0x44
/-- EMB_STAT (R191). -/
def embStat (n : Nat) : Nat := 0x40204000 + 0x10000 * n + 0x48
/-- EMB_SPW (R191). -/
def embSpw (n k : Nat) : Nat := 0x40204000 + 0x10000 * n + 0x50 + 0x4 * k
/-- EMB_HT (R191). -/
def embHt (n k : Nat) : Nat := 0x40204000 + 0x10000 * n + 0x100 + 0x4 * k
/-- EMB_ETBL (R191). -/
def embEtbl (n k : Nat) : Nat := 0x40204000 + 0x10000 * n + 0x200 + 0x4 * k
/-- EMB_TTBL (R191). -/
def embTtbl (n k : Nat) : Nat := 0x40204000 + 0x10000 * n + 0x280 + 0x4 * k
/-- EMB_TRIM (R191). -/
def embTrim (n k : Nat) : Nat := 0x40204000 + 0x10000 * n + 0x400 + 0x4 * k
/-- CNS_CFG (R192). -/
def cnsCfg (n : Nat) : Nat := 0x40207000 + 0x10000 * n + 0x40
/-- CNS_NM_PER_FS (R192). -/
def cnsNmPerFs (n : Nat) : Nat := 0x40207000 + 0x10000 * n + 0x44
/-- CNS_LOW_MM (R192). -/
def cnsLowMm (n : Nat) : Nat := 0x40207000 + 0x10000 * n + 0x48
/-- CNS_CMD (R192). -/
def cnsCmd (n : Nat) : Nat := 0x40207000 + 0x10000 * n + 0x4C
/-- CNS_STAT (R192). -/
def cnsStat (n : Nat) : Nat := 0x40207000 + 0x10000 * n + 0x50
/-- CNS_UID_LO (R192). -/
def cnsUidLo (n : Nat) : Nat := 0x40207000 + 0x10000 * n + 0x54
/-- CNS_UID_HI (R192). -/
def cnsUidHi (n : Nat) : Nat := 0x40207000 + 0x10000 * n + 0x58
/-- CNS_TOTAL_MM (R192). -/
def cnsTotalMm (n : Nat) : Nat := 0x40207000 + 0x10000 * n + 0x5C
/-- CNS_LEFT_MM (R192). -/
def cnsLeftMm (n : Nat) : Nat := 0x40207000 + 0x10000 * n + 0x60
/-- CNS_TAG_LEFT_MM (R192). -/
def cnsTagLeftMm (n : Nat) : Nat := 0x40207000 + 0x10000 * n + 0x64
/-- CNS_USED_NM (R192). -/
def cnsUsedNm (n : Nat) : Nat := 0x40207000 + 0x10000 * n + 0x68
/-- CNS_WB_CNT (R192). -/
def cnsWbCnt (n : Nat) : Nat := 0x40207000 + 0x10000 * n + 0x6C
/-- CNS_AUTH_CNT (R192). -/
def cnsAuthCnt (n : Nat) : Nat := 0x40207000 + 0x10000 * n + 0x70
/-- LP_CFG (R217). -/
def lpCfg (n : Nat) : Nat := laserKey + 0x40203000 + 0x10000 * n + 0x40
/-- LP_MOD_PERIOD (R217). -/
def lpModPeriod (n : Nat) : Nat := laserKey + 0x40203000 + 0x10000 * n + 0x44
/-- LP_MOD_WIDTH (R217). -/
def lpModWidth (n : Nat) : Nat := laserKey + 0x40203000 + 0x10000 * n + 0x48
/-- LP_POWER (R217). -/
def lpPower (n : Nat) : Nat := laserKey + 0x40203000 + 0x10000 * n + 0x4C
/-- LP_DELAYS_A (R217). -/
def lpDelaysA (n : Nat) : Nat := laserKey + 0x40203000 + 0x10000 * n + 0x50
/-- LP_DELAYS_B (R217). -/
def lpDelaysB (n : Nat) : Nat := laserKey + 0x40203000 + 0x10000 * n + 0x54
/-- LP_SPEED (R217). -/
def lpSpeed (n : Nat) : Nat := laserKey + 0x40203000 + 0x10000 * n + 0x58
/-- LP_TICKLE (R217). -/
def lpTickle (n : Nat) : Nat := laserKey + 0x40203000 + 0x10000 * n + 0x5C
/-- LP_ORIGIN_X (R217). -/
def lpOriginX (n : Nat) : Nat := laserKey + 0x40203000 + 0x10000 * n + 0x60
/-- LP_ORIGIN_Y (R217). -/
def lpOriginY (n : Nat) : Nat := laserKey + 0x40203000 + 0x10000 * n + 0x64
/-- LP_K_X (R217). -/
def lpKX (n : Nat) : Nat := laserKey + 0x40203000 + 0x10000 * n + 0x68
/-- LP_K_Y (R217). -/
def lpKY (n : Nat) : Nat := laserKey + 0x40203000 + 0x10000 * n + 0x6C
/-- LP_WIN_XMIN (R217). -/
def lpWinXmin (n : Nat) : Nat := laserKey + 0x40203000 + 0x10000 * n + 0x70
/-- LP_WIN_XMAX (R217). -/
def lpWinXmax (n : Nat) : Nat := laserKey + 0x40203000 + 0x10000 * n + 0x74
/-- LP_WIN_YMIN (R217). -/
def lpWinYmin (n : Nat) : Nat := laserKey + 0x40203000 + 0x10000 * n + 0x78
/-- LP_WIN_YMAX (R217). -/
def lpWinYmax (n : Nat) : Nat := laserKey + 0x40203000 + 0x10000 * n + 0x7C
/-- LP_XFORM_A (R217). -/
def lpXformA (n : Nat) : Nat := laserKey + 0x40203000 + 0x10000 * n + 0x80
/-- LP_XFORM_B (R217). -/
def lpXformB (n : Nat) : Nat := laserKey + 0x40203000 + 0x10000 * n + 0x84
/-- LP_XFORM_C (R217). -/
def lpXformC (n : Nat) : Nat := laserKey + 0x40203000 + 0x10000 * n + 0x88
/-- LP_XFORM_D (R217). -/
def lpXformD (n : Nat) : Nat := laserKey + 0x40203000 + 0x10000 * n + 0x8C
/-- LP_GRID_CFG (R217). -/
def lpGridCfg (n : Nat) : Nat := laserKey + 0x40203000 + 0x10000 * n + 0x90
/-- LP_GRID_SEL (R217). -/
def lpGridSel (n : Nat) : Nat := laserKey + 0x40203000 + 0x10000 * n + 0x94
/-- LP_GRID_DATA (R217). -/
def lpGridData (n : Nat) : Nat := laserKey + 0x40203000 + 0x10000 * n + 0x98
/-- LP_CMD (R217). -/
def lpCmd (n : Nat) : Nat := laserKey + 0x40203000 + 0x10000 * n + 0x9C
/-- LP_PARK_X (R217). -/
def lpParkX (n : Nat) : Nat := laserKey + 0x40203000 + 0x10000 * n + 0xA0
/-- LP_PARK_Y (R217). -/
def lpParkY (n : Nat) : Nat := laserKey + 0x40203000 + 0x10000 * n + 0xA4
/-- LP_SETTLE (R217). -/
def lpSettle (n : Nat) : Nat := laserKey + 0x40203000 + 0x10000 * n + 0xA8
/-- LP_TRK_LEAD (R217). -/
def lpTrkLead (n : Nat) : Nat := laserKey + 0x40203000 + 0x10000 * n + 0xAC
/-- LP_READY_T (R217). -/
def lpReadyT (n : Nat) : Nat := laserKey + 0x40203000 + 0x10000 * n + 0xB0
/-- LP_PRE_COUNT (R217). -/
def lpPreCount (n : Nat) : Nat := laserKey + 0x40203000 + 0x10000 * n + 0xB4
/-- LP_FIELD_LEN (R217). -/
def lpFieldLen (n : Nat) : Nat := laserKey + 0x40203000 + 0x10000 * n + 0xB8
/-- LP_DWELL_SPEED (R217). -/
def lpDwellSpeed (n : Nat) : Nat := laserKey + 0x40203000 + 0x10000 * n + 0xC0
/-- LP_DWELL_TIME (R217). -/
def lpDwellTime (n : Nat) : Nat := laserKey + 0x40203000 + 0x10000 * n + 0xC4
/-- LP_DWELL_MAX (R217). -/
def lpDwellMax (n : Nat) : Nat := laserKey + 0x40203000 + 0x10000 * n + 0xC8
/-- LP_TICKLE_MAX (R217). -/
def lpTickleMax (n : Nat) : Nat := laserKey + 0x40203000 + 0x10000 * n + 0xCC
/-- LP_STAT (R217). -/
def lpStat (n : Nat) : Nat := laserKey + 0x40203000 + 0x10000 * n + 0xE0
/-- LP_CNT_BLOCKS (R217). -/
def lpCntBlocks (n : Nat) : Nat := laserKey + 0x40203000 + 0x10000 * n + 0xE4
/-- LP_CNT_BLANK (R217). -/
def lpCntBlank (n : Nat) : Nat := laserKey + 0x40203000 + 0x10000 * n + 0xE8
/-- LP_CNT_CLAMP (R217). -/
def lpCntClamp (n : Nat) : Nat := laserKey + 0x40203000 + 0x10000 * n + 0xEC
/-- LP_SETTLE_STAT (R217). -/
def lpSettleStat (n : Nat) : Nat := laserKey + 0x40203000 + 0x10000 * n + 0xF0
/-- LP_DUR_LAST (R217). -/
def lpDurLast (n : Nat) : Nat := laserKey + 0x40203000 + 0x10000 * n + 0xF4
/-- LP_DUR_MAX (R217). -/
def lpDurMax (n : Nat) : Nat := laserKey + 0x40203000 + 0x10000 * n + 0xF8
/-- LP_CNT_IGNORED (R217). -/
def lpCntIgnored (n : Nat) : Nat := laserKey + 0x40203000 + 0x10000 * n + 0xFC
/-- LP_LIM_PER (R217). -/
def lpLimPer (n k : Nat) : Nat := laserKey + 0x40203000 + 0x10000 * n + 0x100 + 0x8 * k
/-- LP_LIM_MAX (R217). -/
def lpLimMax (n k : Nat) : Nat := laserKey + 0x40203000 + 0x10000 * n + 0x104 + 0x8 * k
/-- LP_ON_TIME (R217). -/
def lpOnTime (n : Nat) : Nat := laserKey + 0x40203000 + 0x10000 * n + 0x140
/-- LP_PRE (R217). -/
def lpPre (n k : Nat) : Nat := laserKey + 0x40203000 + 0x10000 * n + 0x400 + 0x4 * k
/-- LP_BIND_CFG (R218). -/
def lpBindCfg (n : Nat) : Nat := laserKey + 0x40204000 + 0x10000 * n + 0x40
/-- LP_BIND_STAT (R218). -/
def lpBindStat (n : Nat) : Nat := laserKey + 0x40204000 + 0x10000 * n + 0x44
/-- LP_BIND_FE_PEAK (R218). -/
def lpBindFePeak (n : Nat) : Nat := laserKey + 0x40204000 + 0x10000 * n + 0x48
/-- LOOP_STAT (R240). -/
def loopsStat : Nat := 0x40400000 + 0x40
/-- LOOP_CLOSED_G (R240). -/
def loopClosedG : Nat := 0x40400000 + 0x44
/-- LOOP_CLOSED_A (R240). -/
def loopClosedA : Nat := 0x40400000 + 0x48
/-- LOOP_TUNING (R240). -/
def loopTuning : Nat := 0x40400000 + 0x4C
/-- LOOP_GTUNING (R240). -/
def loopGtuning : Nat := 0x40400000 + 0x50
/-- LDP_CFG (R241). -/
def ldpCfg (d : Nat) : Nat := 0x40401000 + 0x1000 * d + 0x40
/-- LDP_STAT (R241). -/
def ldpStat (d : Nat) : Nat := 0x40401000 + 0x1000 * d + 0x44
/-- LDP_FRAME_LO (R241). -/
def ldpFrameLo (d : Nat) : Nat := 0x40401000 + 0x1000 * d + 0x48
/-- LDP_HOLD_FRAMES (R241). -/
def ldpHoldFrames (d : Nat) : Nat := 0x40401000 + 0x1000 * d + 0x4C
/-- LOOP_CFG (R242). -/
def loopCfg (m : Nat) : Nat := 0x40401100 + 0x1000 * (m / 12) + 0x100 * (m % 12)
/-- LOOP_CMD (R242). -/
def loopCmd (m : Nat) : Nat := 0x40401100 + 0x1000 * (m / 12) + 0x100 * (m % 12) + 0x4
/-- LOOP_STAT (R242). -/
def loopStat (m : Nat) : Nat := 0x40401100 + 0x1000 * (m / 12) + 0x100 * (m % 12) + 0x8
/-- LOOP_REF (R242). -/
def loopRef (m : Nat) : Nat := 0x40401100 + 0x1000 * (m / 12) + 0x100 * (m % 12) + 0xC
/-- LOOP_OPEN_OUT (R242). -/
def loopOpenOut (m : Nat) : Nat := 0x40401100 + 0x1000 * (m / 12) + 0x100 * (m % 12) + 0x10
/-- LOOP_REGIN (R242). -/
def loopRegin (m : Nat) : Nat := 0x40401100 + 0x1000 * (m / 12) + 0x100 * (m % 12) + 0x14
/-- LOOP_IO (R242). -/
def loopIo (m : Nat) : Nat := 0x40401100 + 0x1000 * (m / 12) + 0x100 * (m % 12) + 0x18
/-- LOOP_VBUS (R242). -/
def loopVbus (m : Nat) : Nat := 0x40401100 + 0x1000 * (m / 12) + 0x100 * (m % 12) + 0x1C
/-- LOOP_MEAS (R242). -/
def loopMeas (m : Nat) : Nat := 0x40401100 + 0x1000 * (m / 12) + 0x100 * (m % 12) + 0x20
/-- LOOP_ERR (R242). -/
def loopErr (m : Nat) : Nat := 0x40401100 + 0x1000 * (m / 12) + 0x100 * (m % 12) + 0x24
/-- LOOP_OUT (R242). -/
def loopOut (m : Nat) : Nat := 0x40401100 + 0x1000 * (m / 12) + 0x100 * (m % 12) + 0x28
/-- LOOP_FE_WIN (R242). -/
def loopFeWin (m : Nat) : Nat := 0x40401100 + 0x1000 * (m / 12) + 0x100 * (m % 12) + 0x2C
/-- LOOP_FE_CFG (R242). -/
def loopFeCfg (m : Nat) : Nat := 0x40401100 + 0x1000 * (m / 12) + 0x100 * (m % 12) + 0x30
/-- LOOP_FE_PEAK (R242). -/
def loopFePeak (m : Nat) : Nat := 0x40401100 + 0x1000 * (m / 12) + 0x100 * (m % 12) + 0x34
/-- LOOP_SAT_CNT (R242). -/
def loopSatCnt (m : Nat) : Nat := 0x40401100 + 0x1000 * (m / 12) + 0x100 * (m % 12) + 0x38
/-- LOOP_HOLD_CNT (R242). -/
def loopHoldCnt (m : Nat) : Nat := 0x40401100 + 0x1000 * (m / 12) + 0x100 * (m % 12) + 0x3C
/-- LOOP_KP (R242). -/
def loopKp (m : Nat) : Nat := 0x40401100 + 0x1000 * (m / 12) + 0x100 * (m % 12) + 0x40
/-- LOOP_KI (R242). -/
def loopKi (m : Nat) : Nat := 0x40401100 + 0x1000 * (m / 12) + 0x100 * (m % 12) + 0x44
/-- LOOP_KD (R242). -/
def loopKd (m : Nat) : Nat := 0x40401100 + 0x1000 * (m / 12) + 0x100 * (m % 12) + 0x48
/-- LOOP_KV (R242). -/
def loopKv (m : Nat) : Nat := 0x40401100 + 0x1000 * (m / 12) + 0x100 * (m % 12) + 0x4C
/-- LOOP_KA (R242). -/
def loopKa (m : Nat) : Nat := 0x40401100 + 0x1000 * (m / 12) + 0x100 * (m % 12) + 0x50
/-- LOOP_ILIM (R242). -/
def loopIlim (m : Nat) : Nat := 0x40401100 + 0x1000 * (m / 12) + 0x100 * (m % 12) + 0x54
/-- LOOP_OUT_MIN (R242). -/
def loopOutMin (m : Nat) : Nat := 0x40401100 + 0x1000 * (m / 12) + 0x100 * (m % 12) + 0x58
/-- LOOP_OUT_MAX (R242). -/
def loopOutMax (m : Nat) : Nat := 0x40401100 + 0x1000 * (m / 12) + 0x100 * (m % 12) + 0x5C
/-- LOOP_BQ1_B0 (R242). -/
def loopBq1B0 (m : Nat) : Nat := 0x40401100 + 0x1000 * (m / 12) + 0x100 * (m % 12) + 0x60
/-- LOOP_BQ1_B1 (R242). -/
def loopBq1B1 (m : Nat) : Nat := 0x40401100 + 0x1000 * (m / 12) + 0x100 * (m % 12) + 0x64
/-- LOOP_BQ1_B2 (R242). -/
def loopBq1B2 (m : Nat) : Nat := 0x40401100 + 0x1000 * (m / 12) + 0x100 * (m % 12) + 0x68
/-- LOOP_BQ1_A1 (R242). -/
def loopBq1A1 (m : Nat) : Nat := 0x40401100 + 0x1000 * (m / 12) + 0x100 * (m % 12) + 0x6C
/-- LOOP_BQ1_A2 (R242). -/
def loopBq1A2 (m : Nat) : Nat := 0x40401100 + 0x1000 * (m / 12) + 0x100 * (m % 12) + 0x70
/-- LOOP_BQ2_B0 (R242). -/
def loopBq2B0 (m : Nat) : Nat := 0x40401100 + 0x1000 * (m / 12) + 0x100 * (m % 12) + 0x74
/-- LOOP_BQ2_B1 (R242). -/
def loopBq2B1 (m : Nat) : Nat := 0x40401100 + 0x1000 * (m / 12) + 0x100 * (m % 12) + 0x78
/-- LOOP_BQ2_B2 (R242). -/
def loopBq2B2 (m : Nat) : Nat := 0x40401100 + 0x1000 * (m / 12) + 0x100 * (m % 12) + 0x7C
/-- LOOP_BQ2_A1 (R242). -/
def loopBq2A1 (m : Nat) : Nat := 0x40401100 + 0x1000 * (m / 12) + 0x100 * (m % 12) + 0x80
/-- LOOP_BQ2_A2 (R242). -/
def loopBq2A2 (m : Nat) : Nat := 0x40401100 + 0x1000 * (m / 12) + 0x100 * (m % 12) + 0x84
/-- LOOP_TUNE_AMP (R242). -/
def loopTuneAmp (m : Nat) : Nat := 0x40401100 + 0x1000 * (m / 12) + 0x100 * (m % 12) + 0x90
/-- LOOP_TUNE_HYST (R242). -/
def loopTuneHyst (m : Nat) : Nat := 0x40401100 + 0x1000 * (m / 12) + 0x100 * (m % 12) + 0x94
/-- LOOP_TUNE_CFG (R242). -/
def loopTuneCfg (m : Nat) : Nat := 0x40401100 + 0x1000 * (m / 12) + 0x100 * (m % 12) + 0x98
/-- LOOP_TUNE_ABORT (R242). -/
def loopTuneAbort (m : Nat) : Nat := 0x40401100 + 0x1000 * (m / 12) + 0x100 * (m % 12) + 0x9C
/-- LOOP_TUNE_STAT (R242). -/
def loopTuneStat (m : Nat) : Nat := 0x40401100 + 0x1000 * (m / 12) + 0x100 * (m % 12) + 0xA0
/-- LOOP_TUNE_KU (R242). -/
def loopTuneKu (m : Nat) : Nat := 0x40401100 + 0x1000 * (m / 12) + 0x100 * (m % 12) + 0xA4
/-- LOOP_TUNE_TU (R242). -/
def loopTuneTu (m : Nat) : Nat := 0x40401100 + 0x1000 * (m / 12) + 0x100 * (m % 12) + 0xA8
/-- LOOP_TUNE_A (R242). -/
def loopTuneA (m : Nat) : Nat := 0x40401100 + 0x1000 * (m / 12) + 0x100 * (m % 12) + 0xAC
/-- LOOP_TUNE_KP (R242). -/
def loopTuneKp (m : Nat) : Nat := 0x40401100 + 0x1000 * (m / 12) + 0x100 * (m % 12) + 0xB0
/-- LOOP_TUNE_KI (R242). -/
def loopTuneKi (m : Nat) : Nat := 0x40401100 + 0x1000 * (m / 12) + 0x100 * (m % 12) + 0xB4
/-- LOOP_TUNE_KD (R242). -/
def loopTuneKd (m : Nat) : Nat := 0x40401100 + 0x1000 * (m / 12) + 0x100 * (m % 12) + 0xB8
/-- MOT_STAT (R274). -/
def motStat : Nat := 0x40500000 + 0x40
/-- MOT_STALLED (R274). -/
def motStalled : Nat := 0x40500000 + 0x44
/-- MOT_LOST (R274). -/
def motLost : Nat := 0x40500000 + 0x48
/-- MOT_SHORTED (R274). -/
def motShorted : Nat := 0x40500000 + 0x4C
/-- STP_CFG (R275). -/
def stpCfg (p : Nat) : Nat := 0x40501000 + 0x1000 * p + 0x40
/-- STP_CHOP (R275). -/
def stpChop (p : Nat) : Nat := 0x40501000 + 0x1000 * p + 0x44
/-- STP_CURRENT (R275). -/
def stpCurrent (p : Nat) : Nat := 0x40501000 + 0x1000 * p + 0x48
/-- STP_ADAPT (R275). -/
def stpAdapt (p : Nat) : Nat := 0x40501000 + 0x1000 * p + 0x4C
/-- STP_LOAD_CFG (R275). -/
def stpLoadCfg (p : Nat) : Nat := 0x40501000 + 0x1000 * p + 0x50
/-- STP_MS_HYST (R275). -/
def stpMsHyst (p : Nat) : Nat := 0x40501000 + 0x1000 * p + 0x54
/-- STP_ISCALE (R275). -/
def stpIscale (p : Nat) : Nat := 0x40501000 + 0x1000 * p + 0x58
/-- STP_MS (R275). -/
def stpMs (p k : Nat) : Nat := 0x40501000 + 0x1000 * p + 0x60 + 0x4 * k
/-- STP_TARGET_FRAC (R275). -/
def stpTargetFrac (p : Nat) : Nat := 0x40501000 + 0x1000 * p + 0x80
/-- STP_TARGET (R275). -/
def stpTarget (p : Nat) : Nat := 0x40501000 + 0x1000 * p + 0x84
/-- STP_VMAX (R275). -/
def stpVmax (p : Nat) : Nat := 0x40501000 + 0x1000 * p + 0x88
/-- STP_ACCEL (R275). -/
def stpAccel (p : Nat) : Nat := 0x40501000 + 0x1000 * p + 0x8C
/-- STP_DECEL (R275). -/
def stpDecel (p : Nat) : Nat := 0x40501000 + 0x1000 * p + 0x90
/-- STP_DECEL_MAX (R275). -/
def stpDecelMax (p : Nat) : Nat := 0x40501000 + 0x1000 * p + 0x94
/-- STP_JERK (R275). -/
def stpJerk (p : Nat) : Nat := 0x40501000 + 0x1000 * p + 0x98
/-- STP_CMD (R275). -/
def stpCmd (p : Nat) : Nat := 0x40501000 + 0x1000 * p + 0x9C
/-- STP_POS_FRAC (R275). -/
def stpPosFrac (p : Nat) : Nat := 0x40501000 + 0x1000 * p + 0xA0
/-- STP_POS (R275). -/
def stpPos (p : Nat) : Nat := 0x40501000 + 0x1000 * p + 0xA4
/-- STP_VEL (R275). -/
def stpVel (p : Nat) : Nat := 0x40501000 + 0x1000 * p + 0xA8
/-- STP_STAT (R275). -/
def stpStat (p : Nat) : Nat := 0x40501000 + 0x1000 * p + 0xAC
/-- STP_OVERSHOOT (R275). -/
def stpOvershoot (p : Nat) : Nat := 0x40501000 + 0x1000 * p + 0xB0
/-- STP_SETPOS (R275). -/
def stpSetpos (p : Nat) : Nat := 0x40501000 + 0x1000 * p + 0xB4
/-- STP_HOME_CFG (R275). -/
def stpHomeCfg (p : Nat) : Nat := 0x40501000 + 0x1000 * p + 0xB8
/-- STP_HOME_VEL (R275). -/
def stpHomeVel (p : Nat) : Nat := 0x40501000 + 0x1000 * p + 0xBC
/-- STP_HOME_OFFSET (R275). -/
def stpHomeOffset (p : Nat) : Nat := 0x40501000 + 0x1000 * p + 0xC0
/-- STP_HOME_RETRACT (R275). -/
def stpHomeRetract (p : Nat) : Nat := 0x40501000 + 0x1000 * p + 0xC4
/-- STP_HOME_MAXTRAV (R275). -/
def stpHomeMaxtrav (p : Nat) : Nat := 0x40501000 + 0x1000 * p + 0xC8
/-- STP_GEAR (R275). -/
def stpGear (p : Nat) : Nat := 0x40501000 + 0x1000 * p + 0xCC
/-- STP_GEAR_RATIO (R275). -/
def stpGearRatio (p : Nat) : Nat := 0x40501000 + 0x1000 * p + 0xD0
/-- STP_DC_DUTY (R275). -/
def stpDcDuty (p : Nat) : Nat := 0x40501000 + 0x1000 * p + 0xD4
/-- STP_TRAVEL (R275). -/
def stpTravel (p : Nat) : Nat := 0x40501000 + 0x1000 * p + 0xD8
/-- STP_STALL_CNT (R275). -/
def stpStallCnt (p : Nat) : Nat := 0x40501000 + 0x1000 * p + 0xDC
/-- BL_CFG (R276). -/
def blCfg (b : Nat) : Nat := 0x40511000 + 0x1000 * b + 0x40
/-- BL_PWM (R276). -/
def blPwm (b : Nat) : Nat := 0x40511000 + 0x1000 * b + 0x44
/-- BL_START (R276). -/
def blStart (b : Nat) : Nat := 0x40511000 + 0x1000 * b + 0x48
/-- BL_SPEEDS (R276). -/
def blSpeeds (b : Nat) : Nat := 0x40511000 + 0x1000 * b + 0x4C
/-- BL_ILIM (R276). -/
def blIlim (b : Nat) : Nat := 0x40511000 + 0x1000 * b + 0x50
/-- BL_ISENSE (R276). -/
def blIsense (b : Nat) : Nat := 0x40511000 + 0x1000 * b + 0x54
/-- BL_KP (R276). -/
def blKp (b : Nat) : Nat := 0x40511000 + 0x1000 * b + 0x58
/-- BL_KI (R276). -/
def blKi (b : Nat) : Nat := 0x40511000 + 0x1000 * b + 0x5C
/-- BL_CMD (R276). -/
def blCmd (b : Nat) : Nat := 0x40511000 + 0x1000 * b + 0x60
/-- BL_SPEED_REG (R276). -/
def blSpeedReg (b : Nat) : Nat := 0x40511000 + 0x1000 * b + 0x64
/-- BL_IN_REG (R276). -/
def blInReg (b : Nat) : Nat := 0x40511000 + 0x1000 * b + 0x68
/-- BL_XONOFF (R276). -/
def blXonoff (b : Nat) : Nat := 0x40511000 + 0x1000 * b + 0x6C
/-- BL_LEARN (R276). -/
def blLearn (b : Nat) : Nat := 0x40511000 + 0x1000 * b + 0x70
/-- BL_STAT (R276). -/
def blStat (b : Nat) : Nat := 0x40511000 + 0x1000 * b + 0x74
/-- BL_DRIVE (R276). -/
def blDrive (b : Nat) : Nat := 0x40511000 + 0x1000 * b + 0x78
/-- BL_CNT (R276). -/
def blCnt (b : Nat) : Nat := 0x40511000 + 0x1000 * b + 0x7C
/-- BL_CURVE (R276). -/
def blCurve (b k : Nat) : Nat := 0x40511000 + 0x1000 * b + 0x80 + 0x4 * k
/-- MB_CFG (R277). -/
def mbCfg (u : Nat) : Nat := 0x40515000 + 0x1000 * u + 0x40
/-- MB_OV1 (R277). -/
def mbOv1 (u : Nat) : Nat := 0x40515000 + 0x1000 * u + 0x44
/-- MB_OV2 (R277). -/
def mbOv2 (u : Nat) : Nat := 0x40515000 + 0x1000 * u + 0x48
/-- MB_OV3 (R277). -/
def mbOv3 (u : Nat) : Nat := 0x40515000 + 0x1000 * u + 0x4C
/-- MB_BRK (R277). -/
def mbBrk (u : Nat) : Nat := 0x40515000 + 0x1000 * u + 0x50
/-- MB_BRK_IMIN (R277). -/
def mbBrkImin (u : Nat) : Nat := 0x40515000 + 0x1000 * u + 0x54
/-- MB_HOLD (R277). -/
def mbHold (u : Nat) : Nat := 0x40515000 + 0x1000 * u + 0x58
/-- MB_CMD (R277). -/
def mbCmd (u : Nat) : Nat := 0x40515000 + 0x1000 * u + 0x5C
/-- MB_STAT (R277). -/
def mbStat (u : Nat) : Nat := 0x40515000 + 0x1000 * u + 0x60
/-- MB_VPEAK (R277). -/
def mbVpeak (u : Nat) : Nat := 0x40515000 + 0x1000 * u + 0x64
/-- MB_BRK_MS (R277). -/
def mbBrkMs (u : Nat) : Nat := 0x40515000 + 0x1000 * u + 0x68
/-- MB_PORTS (R277). -/
def mbPorts (u : Nat) : Nat := 0x40515000 + 0x1000 * u + 0x6C
/-- MB_CNT (R277). -/
def mbCnt (u : Nat) : Nat := 0x40515000 + 0x1000 * u + 0x70
/-- LK_CFG (R293). -/
def lkCfg (n : Nat) : Nat := 0x40205000 + 0x10000 * n + 0x40
/-- LK_CMD (R293). -/
def lkCmd (n : Nat) : Nat := 0x40205000 + 0x10000 * n + 0x44
/-- LK_STAT (R293). -/
def lkStat (n : Nat) : Nat := 0x40205000 + 0x10000 * n + 0x48
/-- LK_SEQ (R293). -/
def lkSeq (n : Nat) : Nat := 0x40205000 + 0x10000 * n + 0x4C
/-- LK_CNT_BAD (R293). -/
def lkCntBad (n : Nat) : Nat := 0x40205000 + 0x10000 * n + 0x50
/-- LK_CNT_FAULT (R293). -/
def lkCntFault (n : Nat) : Nat := 0x40205000 + 0x10000 * n + 0x54
/-- LK_TRAIN_CNT (R293). -/
def lkTrainCnt (n : Nat) : Nat := 0x40205000 + 0x10000 * n + 0x58
/-- LK_MOD_STATUS (R293). -/
def lkModStatus (n : Nat) : Nat := 0x40205000 + 0x10000 * n + 0x5C
/-- LK_MOD_TEMP (R293). -/
def lkModTemp (n : Nat) : Nat := 0x40205000 + 0x10000 * n + 0x60
/-- LK_MOD_CUR (R293). -/
def lkModCur (n : Nat) : Nat := 0x40205000 + 0x10000 * n + 0x64
/-- LK_EYE_MAP_LO (R293). -/
def lkEyeMapLo (n : Nat) : Nat := 0x40205000 + 0x10000 * n + 0x68
/-- LK_EYE_MAP_HI (R293). -/
def lkEyeMapHi (n : Nat) : Nat := 0x40205000 + 0x10000 * n + 0x6C
/-- LK_RTT (R293). -/
def lkRtt (n : Nat) : Nat := 0x40205000 + 0x10000 * n + 0x70
/-- DDR_CFG (R319). -/
def ddrCfg : Nat := 0x400A0000 + 0x40
/-- DDR_STAT (R319). -/
def ddrStat : Nat := 0x400A0000 + 0x44
/-- DDR_SIZE_LO (R319). -/
def ddrSizeLo : Nat := 0x400A0000 + 0x48
/-- DDR_SIZE_HI (R319). -/
def ddrSizeHi : Nat := 0x400A0000 + 0x4C
/-- DDR_PORT_PRIO (R319). -/
def ddrPortPrio : Nat := 0x400A0000 + 0x50
/-- DDR_PANIC_LVL (R319). -/
def ddrPanicLvl (k : Nat) : Nat := 0x400A0000 + 0x54 + 0x4 * k
/-- DDR_OUTSTD0 (R319). -/
def ddrOutstd0 : Nat := 0x400A0000 + 0x64
/-- DDR_OUTSTD1 (R319). -/
def ddrOutstd1 : Nat := 0x400A0000 + 0x68
/-- DDR_PANIC_CNT (R319). -/
def ddrPanicCnt : Nat := 0x400A0000 + 0x6C
/-- DDR_CE_CNT (R319). -/
def ddrCeCnt : Nat := 0x400A0000 + 0x70
/-- DDR_UE_CNT (R319). -/
def ddrUeCnt : Nat := 0x400A0000 + 0x74
/-- DDR_ELOG_SEL (R319). -/
def ddrElogSel : Nat := 0x400A0000 + 0x78
/-- DDR_ELOG_STAT (R319). -/
def ddrElogStat : Nat := 0x400A0000 + 0x7C
/-- DDR_ELOG_D0 (R319). -/
def ddrElogD0 : Nat := 0x400A0000 + 0x80
/-- DDR_ELOG_D1 (R319). -/
def ddrElogD1 : Nat := 0x400A0000 + 0x84
/-- DDR_ELOG_D2 (R319). -/
def ddrElogD2 : Nat := 0x400A0000 + 0x88
/-- DDR_ELOG_D3 (R319). -/
def ddrElogD3 : Nat := 0x400A0000 + 0x8C
/-- DDR_CMD (R319). -/
def ddrCmd : Nat := 0x400A0000 + 0x90
/-- DDR_CMD_RES (R319). -/
def ddrCmdRes : Nat := 0x400A0000 + 0x94
/-- DDR_TGT_ADDR_LO (R319). -/
def ddrTgtAddrLo : Nat := 0x400A0000 + 0x98
/-- DDR_TGT_ADDR_HI (R319). -/
def ddrTgtAddrHi : Nat := 0x400A0000 + 0x9C
/-- DDR_RETRAIN_CFG (R319). -/
def ddrRetrainCfg : Nat := 0x400A0000 + 0xA0
/-- DDR_DRIFT_CFG (R319). -/
def ddrDriftCfg : Nat := 0x400A0000 + 0xA4
/-- DDR_TRAIN_CNT (R319). -/
def ddrTrainCnt : Nat := 0x400A0000 + 0xA8
/-- DDR_TRAIN_TIME (R319). -/
def ddrTrainTime : Nat := 0x400A0000 + 0xAC
/-- DDR_REF_CFG (R319). -/
def ddrRefCfg : Nat := 0x400A0000 + 0xB0
/-- DDR_SCRUB_CFG (R319). -/
def ddrScrubCfg : Nat := 0x400A0000 + 0xB4
/-- DDR_SCRUB_POS (R319). -/
def ddrScrubPos : Nat := 0x400A0000 + 0xB8
/-- DDR_SCRUB_PASSES (R319). -/
def ddrScrubPasses : Nat := 0x400A0000 + 0xBC
/-- DDR_REMAP_STAT (R319). -/
def ddrRemapStat : Nat := 0x400A0000 + 0xC0
/-- DDR_REMAP_CFG (R319). -/
def ddrRemapCfg : Nat := 0x400A0000 + 0xC4
/-- DDR_REMAP_SEL (R319). -/
def ddrRemapSel : Nat := 0x400A0000 + 0xC8
/-- DDR_REMAP_D (R319). -/
def ddrRemapD : Nat := 0x400A0000 + 0xCC
/-- DDR_PPR_AVAIL (R319). -/
def ddrPprAvail : Nat := 0x400A0000 + 0xD0
/-- SRM_STAT (R321). -/
def srmStat : Nat := 0x400B0000 + 0x40
/-- SRM_CE_CNT (R321). -/
def srmCeCnt : Nat := 0x400B0000 + 0x44
/-- SRM_UE_CNT (R321). -/
def srmUeCnt : Nat := 0x400B0000 + 0x48
/-- SRM_REPAIR_CFG (R321). -/
def srmRepairCfg : Nat := 0x400B0000 + 0x4C
/-- SRM_REPAIR_SEL (R321). -/
def srmRepairSel : Nat := 0x400B0000 + 0x50
/-- SRM_REPAIR_D (R321). -/
def srmRepairD : Nat := 0x400B0000 + 0x54
/-- SRM_REPAIR_CNT (R321). -/
def srmRepairCnt : Nat := 0x400B0000 + 0x58
/-- SRM_REPAIR_LOAD (R321). -/
def srmRepairLoad : Nat := 0x400B0000 + 0x5C
/-- SRM_UE_ADDR (R321). -/
def srmUeAddr : Nat := 0x400B0000 + 0x60
/-- SRM_UE_INFO (R321). -/
def srmUeInfo : Nat := 0x400B0000 + 0x64
/-- SRM_UE_STAMP_LO (R321). -/
def srmUeStampLo : Nat := 0x400B0000 + 0x68
/-- SRM_UE_STAMP_HI (R321). -/
def srmUeStampHi : Nat := 0x400B0000 + 0x6C
/-- SRM_SCRUB_CFG (R321). -/
def srmScrubCfg : Nat := 0x400B0000 + 0x70
/-- SRM_SCRUB_PASSES (R321). -/
def srmScrubPasses : Nat := 0x400B0000 + 0x74
/-- SRM_RET_MAP (R321). -/
def srmRetMap : Nat := 0x400B0000 + 0x78
/-- SRM_RET_STAT (R321). -/
def srmRetStat : Nat := 0x400B0000 + 0x7C
/-- DMA_STAT (R348). -/
def dmaStat : Nat := 0x400C0000 + 0x40
/-- DMA_WEFT_ERR (R348). -/
def dmaWeftErr : Nat := 0x400C0000 + 0x44
/-- DMA_WEFT_ERR_CNT (R348). -/
def dmaWeftErrCnt : Nat := 0x400C0000 + 0x48
/-- DMA_CH_CTRL (R348). -/
def dmaChCtrl (k : Nat) : Nat := 0x400C0000 + 0x100 + 0x20 * k
/-- DMA_CH_STAT (R348). -/
def dmaChStat (k : Nat) : Nat := 0x400C0000 + 0x104 + 0x20 * k
/-- DMA_CH_REM (R348). -/
def dmaChRem (k : Nat) : Nat := 0x400C0000 + 0x108 + 0x20 * k
/-- DMA_CH_DONE (R348). -/
def dmaChDone (k : Nat) : Nat := 0x400C0000 + 0x10C + 0x20 * k
/-- DMA_CH_ERR_ADDR_LO (R348). -/
def dmaChErrAddrLo (k : Nat) : Nat := 0x400C0000 + 0x110 + 0x20 * k
/-- DMA_CH_ERR_ADDR_HI (R348). -/
def dmaChErrAddrHi (k : Nat) : Nat := 0x400C0000 + 0x114 + 0x20 * k
/-- DMA_CH_BOLT (R348). -/
def dmaChBolt (k : Nat) : Nat := 0x400C0000 + 0x118 + 0x20 * k
/-- DMA_CH_TAG (R348). -/
def dmaChTag (k : Nat) : Nat := 0x400C0000 + 0x11C + 0x20 * k
/-- QMG_STAT (R349). -/
def qmgStat : Nat := 0x400D0000 + 0x40
/-- QMG_SEL (R349). -/
def qmgSel : Nat := 0x400D0000 + 0x44
/-- QMG_Q_CFG (R349). -/
def qmgQCfg : Nat := 0x400D0000 + 0x48
/-- QMG_Q_BASE (R349). -/
def qmgQBase : Nat := 0x400D0000 + 0x4C
/-- QMG_Q_WM (R349). -/
def qmgQWm : Nat := 0x400D0000 + 0x50
/-- QMG_Q_BIND (R349). -/
def qmgQBind : Nat := 0x400D0000 + 0x54
/-- QMG_Q_STAT (R349). -/
def qmgQStat : Nat := 0x400D0000 + 0x58
/-- QMG_Q_SPARE (R349). -/
def qmgQSpare : Nat := 0x400D0000 + 0x5C
/-- QMG_Q_DROP (R349). -/
def qmgQDrop : Nat := 0x400D0000 + 0x60
/-- QMG_DB_RES (R349). -/
def qmgDbRes : Nat := 0x400D0000 + 0x68
/-- QMG_DB_REFUSED (R349). -/
def qmgDbRefused : Nat := 0x400D0000 + 0x6C
/-- QMG_WM_HI (R349). -/
def qmgWmHi (k : Nat) : Nat := 0x400D0000 + 0x80 + 0x4 * k
/-- QMG_WM_LO (R349). -/
def qmgWmLo (k : Nat) : Nat := 0x400D0000 + 0x90 + 0x4 * k
/-- QMG_DB (R349). -/
def qmgDb (q : Nat) : Nat := 0x400D0000 + 0x400 + 0x4 * q
/-- BLT_CFG (R350). -/
def bltCfg : Nat := 0x40100000 + 0x40
/-- BLT_STAT (R350). -/
def bltStat : Nat := 0x40100000 + 0x44
/-- BLT_CNT_INFLATE (R350). -/
def bltCntInflate : Nat := 0x40100000 + 0x48
/-- BLT_CNT_DEFLATE (R350). -/
def bltCntDeflate : Nat := 0x40100000 + 0x4C
/-- BLT_CNT_NOGAIN (R350). -/
def bltCntNogain : Nat := 0x40100000 + 0x50
/-- BLT_ERR_CNT (R350). -/
def bltErrCnt : Nat := 0x40100000 + 0x54
/-- BLT_LAST_ERR (R350). -/
def bltLastErr : Nat := 0x40100000 + 0x58
/-- BLT_LAST_ERR_ADDR_LO (R350). -/
def bltLastErrAddrLo : Nat := 0x40100000 + 0x5C
/-- BLT_LAST_ERR_ADDR_HI (R350). -/
def bltLastErrAddrHi : Nat := 0x40100000 + 0x60
/-- TIM_TSC_LO (R373). -/
def timTscLo : Nat := 0x40080000 + 0x40
/-- TIM_TSC_HI (R373). -/
def timTscHi : Nat := 0x40080000 + 0x44
/-- TIM_SNAP_NS (R373). -/
def timSnapNs : Nat := 0x40080000 + 0x48
/-- TIM_SNAP_SEC_LO (R373). -/
def timSnapSecLo : Nat := 0x40080000 + 0x4C
/-- TIM_SNAP_SEC_HI (R373). -/
def timSnapSecHi : Nat := 0x40080000 + 0x50
/-- TIM_RATE (R373). -/
def timRate : Nat := 0x40080000 + 0x54
/-- TIM_RATE_AVG (R373). -/
def timRateAvg : Nat := 0x40080000 + 0x58
/-- TIM_STEP_NS (R373). -/
def timStepNs : Nat := 0x40080000 + 0x5C
/-- TIM_STEP_SEC (R373). -/
def timStepSec : Nat := 0x40080000 + 0x60
/-- TIM_CMD (R373). -/
def timCmd : Nat := 0x40080000 + 0x64
/-- TIM_PTP_CFG (R373). -/
def timPtpCfg : Nat := 0x40080000 + 0x68
/-- TIM_UTC_OFS (R373). -/
def timUtcOfs : Nat := 0x40080000 + 0x6C
/-- TIM_JUMP_MAX (R373). -/
def timJumpMax : Nat := 0x40080000 + 0x70
/-- TIM_DC_STAT (R373). -/
def timDcStat : Nat := 0x40080000 + 0x74
/-- TIM_DC_ERR (R373). -/
def timDcErr : Nat := 0x40080000 + 0x78
/-- TIM_DC_LO (R373). -/
def timDcLo : Nat := 0x40080000 + 0x7C
/-- TIM_DC_HI (R373). -/
def timDcHi : Nat := 0x40080000 + 0x80
/-- TIM_DC_SET_LO (R373). -/
def timDcSetLo : Nat := 0x40080000 + 0x84
/-- TIM_DC_SET_HI (R373). -/
def timDcSetHi : Nat := 0x40080000 + 0x88
/-- TIM_ROLLOVER (R373). -/
def timRollover : Nat := 0x40080000 + 0x8C
/-- TIM_TZ_STD (R373). -/
def timTzStd : Nat := 0x40080000 + 0x90
/-- TIM_HO_TCOMP (R373). -/
def timHoTcomp : Nat := 0x40080000 + 0x94
/-- TIM_HO_CFG (R373). -/
def timHoCfg : Nat := 0x40080000 + 0x98
/-- TIM_RTC_TRIM (R373). -/
def timRtcTrim : Nat := 0x40080000 + 0x9C
/-- TIM_RTC_LO (R373). -/
def timRtcLo : Nat := 0x40080000 + 0xA0
/-- TIM_RTC_HI (R373). -/
def timRtcHi : Nat := 0x40080000 + 0xA4
/-- TIM_WAKE_STAT (R373). -/
def timWakeStat : Nat := 0x40080000 + 0xA8
/-- TIM_FLOOR_LO (R373). -/
def timFloorLo : Nat := 0x40080000 + 0xAC
/-- TIM_FLOOR_HI (R373). -/
def timFloorHi : Nat := 0x40080000 + 0xB0
/-- TIM_TZ_AT (R373). -/
def timTzAt (k : Nat) : Nat := 0x40080000 + 0x100 + 0x8 * k
/-- TIM_TZ_OFS (R373). -/
def timTzOfs (k : Nat) : Nat := 0x40080000 + 0x104 + 0x8 * k
/-- NET_CFG (R374). -/
def netCfg : Nat := 0x40090000 + 0x40
/-- NET_PCP_MAP (R374). -/
def netPcpMap : Nat := 0x40090000 + 0x44
/-- NET_AGE (R374). -/
def netAge : Nat := 0x40090000 + 0x48
/-- NET_QLIM (R374). -/
def netQlim : Nat := 0x40090000 + 0x4C
/-- NET_MDIO_CTRL (R374). -/
def netMdioCtrl : Nat := 0x40090000 + 0x50
/-- NET_MDIO_DATA (R374). -/
def netMdioData : Nat := 0x40090000 + 0x54
/-- NET_CNT_TC (R374). -/
def netCntTc : Nat := 0x40090000 + 0x58
/-- NET_CNT_TC_SKIP (R374). -/
def netCntTcSkip : Nat := 0x40090000 + 0x5C
/-- NET_CNT_RXQ_DROP (R374). -/
def netCntRxqDrop : Nat := 0x40090000 + 0x60
/-- NET_RXBASE_LO (R374). -/
def netRxbaseLo (i : Nat) : Nat := 0x40090000 + 0x80 + 0x8 * i
/-- NET_RXBASE_HI (R374). -/
def netRxbaseHi (i : Nat) : Nat := 0x40090000 + 0x84 + 0x8 * i
/-- NET_P_CFG (R374). -/
def netPCfg (p : Nat) : Nat := 0x40090000 + 0x100 + 0x40 * p
/-- NET_P_LAT (R374). -/
def netPLat (p : Nat) : Nat := 0x40090000 + 0x100 + 0x40 * p + 0x4
/-- NET_P_RX (R374). -/
def netPRx (p : Nat) : Nat := 0x40090000 + 0x100 + 0x40 * p + 0x8
/-- NET_P_TX (R374). -/
def netPTx (p : Nat) : Nat := 0x40090000 + 0x100 + 0x40 * p + 0xC
/-- NET_P_ERR (R374). -/
def netPErr (p : Nat) : Nat := 0x40090000 + 0x100 + 0x40 * p + 0x10
/-- NET_P_DROP (R374). -/
def netPDrop (p : Nat) : Nat := 0x40090000 + 0x100 + 0x40 * p + 0x14
/-- SEC_STAT (R406). -/
def secStat : Nat := 0x40070000 + 0x40
/-- SEC_UID (R406). -/
def secUid (k : Nat) : Nat := 0x40070000 + 0x44 + 0x4 * k
/-- SEC_MFG (R406). -/
def secMfg (k : Nat) : Nat := 0x40070000 + 0x54 + 0x4 * k
/-- SEC_OTP_CFG (R406). -/
def secOtpCfg : Nat := 0x40070000 + 0x64
/-- SEC_ROLLBACK (R406). -/
def secRollback : Nat := 0x40070000 + 0x68
/-- SEC_CTX_ROLE (R406). -/
def secCtxRole : Nat := 0x40070000 + 0x6C
/-- SEC_KEYS (R406). -/
def secKeys : Nat := 0x40070000 + 0x70
/-- SEC_EPOCH (R406). -/
def secEpoch : Nat := 0x40070000 + 0x74
/-- SEC_REC_CNT (R406). -/
def secRecCnt : Nat := 0x40070000 + 0x78
/-- SEC_REC_PEND (R406). -/
def secRecPend : Nat := 0x40070000 + 0x7C
/-- SEC_BOOT_STAT (R406). -/
def secBootStat : Nat := 0x40070000 + 0x80
/-- SEC_BOOT_ATTEMPTS (R406). -/
def secBootAttempts : Nat := 0x40070000 + 0x84
/-- SEC_BOOT_VER (R406). -/
def secBootVer : Nat := 0x40070000 + 0x88
/-- SEC_CHAIN_SEL (R406). -/
def secChainSel : Nat := 0x40070000 + 0x90
/-- SEC_CHAIN_MAC (R406). -/
def secChainMac (k : Nat) : Nat := 0x40070000 + 0x94 + 0x4 * k
/-- SEC_CHAIN_RECS (R406). -/
def secChainRecs : Nat := 0x40070000 + 0xA4
/-- SEC_AUTH_FAIL_CNT (R406). -/
def secAuthFailCnt : Nat := 0x40070000 + 0xA8
/-- SEC_REQ_ADDR_LO (R406). -/
def secReqAddrLo (k : Nat) : Nat := 0x40070000 + 0x100 + 0x10 * k
/-- SEC_REQ_ADDR_HI (R406). -/
def secReqAddrHi (k : Nat) : Nat := 0x40070000 + 0x104 + 0x10 * k
/-- SEC_REQ_CMD (R406). -/
def secReqCmd (k : Nat) : Nat := 0x40070000 + 0x108 + 0x10 * k
/-- SEC_REQ_STAT (R406). -/
def secReqStat (k : Nat) : Nat := 0x40070000 + 0x10C + 0x10 * k
/-- SEC_RGN_BASE_LO (R406). -/
def secRgnBaseLo (r : Nat) : Nat := 0x40070000 + 0x200 + 0x10 * r
/-- SEC_RGN_BASE_HI (R406). -/
def secRgnBaseHi (r : Nat) : Nat := 0x40070000 + 0x204 + 0x10 * r
/-- SEC_RGN_ACL (R406). -/
def secRgnAcl (r : Nat) : Nat := 0x40070000 + 0x208 + 0x10 * r
/-- FGD_STAT (R440). -/
def fgdStat : Nat := 0x40060000 + 0x40
/-- FGD_ILK_CFG (R440). -/
def fgdIlkCfg : Nat := 0x40060000 + 0x44
/-- FGD_LEN_CFG (R440). -/
def fgdLenCfg : Nat := 0x40060000 + 0x48
/-- FGD_LEN_STAT (R440). -/
def fgdLenStat : Nat := 0x40060000 + 0x4C
/-- FGD_GATE_SENSE (R440). -/
def fgdGateSense : Nat := 0x40060000 + 0x50
/-- FGD_GATE_MM (R440). -/
def fgdGateMm : Nat := 0x40060000 + 0x54
/-- FGD_REJ_MM (R440). -/
def fgdRejMm : Nat := 0x40060000 + 0x58
/-- FGD_CUT (R440). -/
def fgdCut : Nat := 0x40060000 + 0x5C
/-- FGD_CUT_CAUSE0 (R440). -/
def fgdCutCause0 : Nat := 0x40060000 + 0x60
/-- FGD_CUT_CAUSE1 (R440). -/
def fgdCutCause1 : Nat := 0x40060000 + 0x64
/-- FGD_CFG_CRC (R440). -/
def fgdCfgCrc : Nat := 0x40060000 + 0x68
/-- FGD_CFG_VER (R440). -/
def fgdCfgVer : Nat := 0x40060000 + 0x6C
/-- FGD_CFG_INFO (R440). -/
def fgdCfgInfo : Nat := 0x40060000 + 0x70
/-- FGD_SELFTEST (R440). -/
def fgdSelftest : Nat := 0x40060000 + 0x74
/-- FGD_WDT_CNT (R440). -/
def fgdWdtCnt : Nat := 0x40060000 + 0x78
/-- FGD_OSC (R440). -/
def fgdOsc : Nat := 0x40060000 + 0x7C
/-- FGD_RELEASE_CFG (R440). -/
def fgdReleaseCfg : Nat := 0x40060000 + 0x80
/-- FLT_STAT (R441). -/
def fltStat : Nat := 0x40050000 + 0x40
/-- FLT_CH_SAFE (R441). -/
def fltChSafe : Nat := 0x40050000 + 0x44
/-- FLT_SEL (R441). -/
def fltSel : Nat := 0x40050000 + 0x48
/-- FLT_SRC_STAT (R441). -/
def fltSrcStat : Nat := 0x40050000 + 0x4C
/-- FLT_SRC_CNT (R441). -/
def fltSrcCnt : Nat := 0x40050000 + 0x50
/-- FLT_SRC_STAMP_LO (R441). -/
def fltSrcStampLo : Nat := 0x40050000 + 0x54
/-- FLT_SRC_STAMP_HI (R441). -/
def fltSrcStampHi : Nat := 0x40050000 + 0x58
/-- FLT_SRC_CFG (R441). -/
def fltSrcCfg (k : Nat) : Nat := 0x40050000 + 0x5C + 0x4 * k
/-- FLT_SRC_TIMER (R441). -/
def fltSrcTimer : Nat := 0x40050000 + 0x68
/-- FLT_ACK (R441). -/
def fltAck : Nat := 0x40050000 + 0x70
/-- FLT_ACK_RES (R441). -/
def fltAckRes : Nat := 0x40050000 + 0x74
/-- FLT_RELEASE (R441). -/
def fltRelease : Nat := 0x40050000 + 0x78
/-- FLT_RELEASE_RES (R441). -/
def fltReleaseRes : Nat := 0x40050000 + 0x7C
/-- FLT_SOOT (R441). -/
def fltSoot (k : Nat) : Nat := 0x40050000 + 0x80 + 0x4 * k
/-- FLT_PIN (R441). -/
def fltPin (k : Nat) : Nat := 0x40050000 + 0xA0 + 0x4 * k
/-- FLT_LOG_SEL (R441). -/
def fltLogSel : Nat := 0x40050000 + 0xC0
/-- FLT_LOG_STAT (R441). -/
def fltLogStat : Nat := 0x40050000 + 0xC4
/-- FLT_LOG_D0 (R441). -/
def fltLogD0 : Nat := 0x40050000 + 0xC8
/-- FLT_LOG_D1 (R441). -/
def fltLogD1 : Nat := 0x40050000 + 0xCC
/-- FLT_LOG_D2 (R441). -/
def fltLogD2 : Nat := 0x40050000 + 0xD0
/-- FLT_WARM (R441). -/
def fltWarm : Nat := 0x40050000 + 0xD4
/-- FLT_STEP_CNT (R441). -/
def fltStepCnt : Nat := 0x40050000 + 0xD8
/-- CLK_STAT (R465). -/
def clkStat : Nat := 0x40030000 + 0x40
/-- CLK_LOCK_CFG (R465). -/
def clkLockCfg : Nat := 0x40030000 + 0x44
/-- CLK_BKP_RATIO (R465). -/
def clkBkpRatio : Nat := 0x40030000 + 0x48
/-- CLK_REFCNT (R465). -/
def clkRefcnt : Nat := 0x40030000 + 0x4C
/-- CLK_BKP_MEAS (R465). -/
def clkBkpMeas : Nat := 0x40030000 + 0x50
/-- CLK_SYN_CFG (R465). -/
def clkSynCfg (y : Nat) : Nat := 0x40030000 + 0x100 + 0x80 * y
/-- CLK_SYN_STAT (R465). -/
def clkSynStat (y : Nat) : Nat := 0x40030000 + 0x100 + 0x80 * y + 0x4
/-- CLK_SYN_PHERR (R465). -/
def clkSynPherr (y : Nat) : Nat := 0x40030000 + 0x100 + 0x80 * y + 0x8
/-- CLK_SYN_RELOCK (R465). -/
def clkSynRelock (y : Nat) : Nat := 0x40030000 + 0x100 + 0x80 * y + 0xC
/-- CLK_SYN_OUT (R465). -/
def clkSynOut (y o : Nat) : Nat := 0x40030000 + 0x100 + 0x80 * y + 0x10 + 0x4 * o
/-- CLK_SYN_BAND (R465). -/
def clkSynBand (y k : Nat) : Nat := 0x40030000 + 0x100 + 0x80 * y + 0x40 + 0x4 * k
/-- THM_STAT (R466). -/
def thmStat : Nat := 0x40040000 + 0x40
/-- THM_HOT (R466). -/
def thmHot : Nat := 0x40040000 + 0x44
/-- THM_T_WARN (R466). -/
def thmTWarn : Nat := 0x40040000 + 0x48
/-- THM_T_THROT (R466). -/
def thmTThrot : Nat := 0x40040000 + 0x4C
/-- THM_T_SHUT (R466). -/
def thmTShut : Nat := 0x40040000 + 0x50
/-- THM_DMP_CFG (R466). -/
def thmDmpCfg : Nat := 0x40040000 + 0x54
/-- THM_DMP_STAT (R466). -/
def thmDmpStat : Nat := 0x40040000 + 0x58
/-- THM_DIE (R466). -/
def thmDie (k : Nat) : Nat := 0x40040000 + 0x60 + 0x4 * k
/-- THM_PEAK (R466). -/
def thmPeak : Nat := 0x40040000 + 0x90
/-- THM_DMP_L (R466). -/
def thmDmpL (l : Nat) : Nat := 0x40040000 + 0xA0 + 0x4 * l
/-- THM_EXT_CFG (R466). -/
def thmExtCfg (x : Nat) : Nat := 0x40040000 + 0xC0 + 0x10 * x
/-- THM_EXT_CAL (R466). -/
def thmExtCal (x : Nat) : Nat := 0x40040000 + 0xC4 + 0x10 * x
/-- THM_EXT (R466). -/
def thmExt (x : Nat) : Nat := 0x40040000 + 0xC8 + 0x10 * x
/-- PWR_STATE_REQ (R494). -/
def pwrStateReq : Nat := 0x40020000 + 0x40
/-- PWR_STAT (R494). -/
def pwrStat : Nat := 0x40020000 + 0x44
/-- PWR_CMD (R494). -/
def pwrCmd : Nat := 0x40020000 + 0x48
/-- PWR_CFG (R494). -/
def pwrCfg : Nat := 0x40020000 + 0x4C
/-- PWR_WAKE_CAUSE (R494). -/
def pwrWakeCause : Nat := 0x40020000 + 0x50
/-- PWR_WAKE_EN (R494). -/
def pwrWakeEn : Nat := 0x40020000 + 0x54
/-- PWR_WAKE_ADDR (R494). -/
def pwrWakeAddr : Nat := 0x40020000 + 0x58
/-- PWR_ALARM_LO (R494). -/
def pwrAlarmLo : Nat := 0x40020000 + 0x5C
/-- PWR_ALARM_HI (R494). -/
def pwrAlarmHi : Nat := 0x40020000 + 0x60
/-- PWR_WATCH_CFG (R494). -/
def pwrWatchCfg : Nat := 0x40020000 + 0x64
/-- PWR_WATCH_STAT (R494). -/
def pwrWatchStat : Nat := 0x40020000 + 0x68
/-- PWR_WCH_CFG (R494). -/
def pwrWchCfg : Nat := 0x40020000 + 0x6C
/-- PWR_VIN (R494). -/
def pwrVin : Nat := 0x40020000 + 0x70
/-- PWR_CNT (R494). -/
def pwrCnt : Nat := 0x40020000 + 0x74
/-- PWR_WATCH_CFG (R494). -/
def pwrWatchSlotCfg (s : Nat) : Nat := 0x40020000 + 0x80 + 0x8 * s
/-- PWR_WATCH_LAST (R494). -/
def pwrWatchLast (s : Nat) : Nat := 0x40020000 + 0x84 + 0x8 * s
/-- PWR_DOM_CTRL (R494). -/
def pwrDomCtrl : Nat := 0x40020000 + 0xD0
/-- PWR_DOM_STAT (R494). -/
def pwrDomStat : Nat := 0x40020000 + 0xD4
/-- PWR_RET_LOST (R494). -/
def pwrRetLost : Nat := 0x40020000 + 0xD8
/-- PWR_RET_FAILS (R494). -/
def pwrRetFails : Nat := 0x40020000 + 0xDC
/-- PWR_RET_CRC (R494). -/
def pwrRetCrc (b : Nat) : Nat := 0x40020000 + 0xE0 + 0x4 * b
/-- PSQ_SLOT_CFG (R494). -/
def psqSlotCfg (k : Nat) : Nat := 0x40020000 + 0x100 + 0x10 * k
/-- PSQ_SLOT_DEP (R494). -/
def psqSlotDep (k : Nat) : Nat := 0x40020000 + 0x100 + 0x10 * k + 0x4
/-- PSQ_SLOT_STAT (R494). -/
def psqSlotStat (k : Nat) : Nat := 0x40020000 + 0x100 + 0x10 * k + 0x8
/-- BKG_EN (R511). -/
def bkgEn : Nat := 0x40780000 + 0x40
/-- BKG_STAT (R511). -/
def bkgStat : Nat := 0x40780000 + 0x44
/-- BKG_LATE (R511). -/
def bkgLate : Nat := 0x40780000 + 0x48
/-- BKG_GALVO_T (R511). -/
def bkgGalvoT : Nat := 0x40780000 + 0x4C
/-- BKG_TELE_BASE_LO (R511). -/
def bkgTeleBaseLo : Nat := 0x40780000 + 0x50
/-- BKG_TELE_BASE_HI (R511). -/
def bkgTeleBaseHi : Nat := 0x40780000 + 0x54
/-- BKG_TELE_CFG (R511). -/
def bkgTeleCfg : Nat := 0x40780000 + 0x58
/-- BKG_TELE_IDX (R511). -/
def bkgTeleIdx : Nat := 0x40780000 + 0x5C
/-- BKG_WEAR_SEL (R511). -/
def bkgWearSel : Nat := 0x40780000 + 0x60
/-- BKG_WEAR_LO (R511). -/
def bkgWearLo : Nat := 0x40780000 + 0x64
/-- BKG_WEAR_HI (R511). -/
def bkgWearHi : Nat := 0x40780000 + 0x68
/-- BKG_WEAR_CMD (R511). -/
def bkgWearCmd : Nat := 0x40780000 + 0x6C
/-- BKG_LOG_STAT (R511). -/
def bkgLogStat : Nat := 0x40780000 + 0x70
/-- BKG_GALVO_DRIFT (R511). -/
def bkgGalvoDrift (n : Nat) : Nat := 0x40780000 + 0x80 + 0x8 * n
/-- BKG_GALVO_DRIFT_Y (R511). -/
def bkgGalvoDriftY (n : Nat) : Nat := 0x40780000 + 0x84 + 0x8 * n
/-- ADC_STAT (R512). -/
def adcStat : Nat := 0x40600000 + 0x40
/-- ADC_TCOMP (R512). -/
def adcTcomp : Nat := 0x40600000 + 0x44
/-- ADC_CAL_LIM (R512). -/
def adcCalLim : Nat := 0x40600000 + 0x48
/-- ADC_CV_SCAN_EN (R512). -/
def adcCvScanEn (c : Nat) : Nat := 0x40601000 + 0x1000 * c + 0x40
/-- ADC_CV_CAL (R512). -/
def adcCvCal (c : Nat) : Nat := 0x40601000 + 0x1000 * c + 0x44
/-- ADC_CV_CAL_CNT (R512). -/
def adcCvCalCnt (c : Nat) : Nat := 0x40601000 + 0x1000 * c + 0x48
/-- ADC_CV_RES (R512). -/
def adcCvRes (c i : Nat) : Nat := 0x40601000 + 0x1000 * c + 0x80 + 0x4 * i

/-- The page headers (R36), by page base. -/
def pgId (p : Page) : Nat := pageBase p + 0x0
def pgCap (p : Page) : Nat := pageBase p + 0x4
def pgChild (p : Page) : Nat := pageBase p + 0x8
def pgAcl (p : Page) : Nat := pageBase p + 0xC
def pgCtrl (p : Page) : Nat := pageBase p + 0x10
def pgStat (p : Page) : Nat := pageBase p + 0x14
def pgSoot (p : Page) : Nat := pageBase p + 0x18
def pgSootMask (p : Page) : Nat := pageBase p + 0x1C
def pgIrqStat (p : Page) : Nat := pageBase p + 0x20
def pgIrqEn (p : Page) : Nat := pageBase p + 0x24
def pgErrcnt (p : Page) : Nat := pageBase p + 0x28
def pgSrcnum (p : Page) : Nat := pageBase p + 0x2C
def pgLock (p : Page) : Nat := pageBase p + 0x30
def pgStampLo (p : Page) : Nat := pageBase p + 0x34
def pgStampHi (p : Page) : Nat := pageBase p + 0x38
def pgParent (p : Page) : Nat := pageBase p + 0x3C

end Reg

def rootRows : List RegRow :=
  [⟨0x40, 0, 1, 0x481615C3, 0x0, false, 0x0⟩,
   ⟨0x44, 0, 1, 0x100, 0x0, false, 0x0⟩,
   ⟨0x48, 0, 1, 0x0, 0x0, false, 0x0⟩,
   ⟨0x4C, 0, 1, 0x0, 0x0, false, 0x0⟩,
   ⟨0x50, 0, 1, 0x0, 0x0, false, 0x0⟩,
   ⟨0x54, 0, 1, 0x0, 0x0, false, 0x0⟩,
   ⟨0x58, 0, 1, 0x0, 0x0, false, 0x0⟩,
   ⟨0x60, 0, 1, 0x0, 0x0, false, 0x0⟩,
   ⟨0x64, 0, 1, 0x0, 0x0, false, 0x0⟩,
   ⟨0x68, 0, 1, 0x0, 0x0, false, 0x0⟩]

def linRowsA : List RegRow :=
  [⟨0x40, 0, 1, 0x0, 0x0, false, 0x0⟩,
   ⟨0x44, 0, 1, 0x0, 0x0, false, 0x0⟩,
   ⟨0x48, 0, 1, 0x1, 0xFFFFFFFF, true, 0x0⟩,
   ⟨0x4C, 0, 1, 0xFFFFFFFD, 0xFFFFFFFF, false, 0x0⟩,
   ⟨0x50, 0, 1, 0x0, 0xFF01011F, false, 0x0⟩,
   ⟨0x54, 0, 1, 0x0, 0x0, false, 0x0⟩,
   ⟨0x58, 0, 1, 0x0, 0x0, false, 0x0⟩,
   ⟨0x5C, 0, 1, 0x0, 0x0, false, 0x0⟩,
   ⟨0x60, 0, 1, 0x0, 0x0, false, 0x0⟩,
   ⟨0x64, 0, 1, 0x0, 0xFFF, false, 0x0⟩,
   ⟨0x68, 4, 8, 0x0, 0x0, false, 0x0⟩,
   ⟨0x88, 0, 1, 0x76543210, 0x77777777, true, 0x0⟩,
   ⟨0x8C, 0, 1, 0x76543210, 0xFFFFFFFF, true, 0x0⟩,
   ⟨0x90, 0, 1, 0xFEDCBA98, 0xFFFFFFFF, true, 0x0⟩,
   ⟨0x94, 0, 1, 0x76543210, 0xFFFFFFFF, true, 0x0⟩,
   ⟨0x98, 0, 1, 0xFEDCBA98, 0xFFFFFFFF, true, 0x0⟩,
   ⟨0x100, 64, 8, 0x6404010, 0xFFFFFFFF, true, 0x0⟩,
   ⟨0x104, 64, 8, 0x0, 0x0, false, 0x0⟩,
   ⟨0x108, 64, 8, 0x0, 0x0, false, 0x0⟩,
   ⟨0x10C, 64, 8, 0x0, 0x0, false, 0x0⟩,
   ⟨0x110, 64, 8, 0x0, 0x0, false, 0x0⟩,
   ⟨0x114, 64, 8, 0x0, 0x0, false, 0x0⟩,
   ⟨0x118, 64, 8, 0x0, 0x0, false, 0x0⟩,
   ⟨0x11C, 64, 8, 0x0, 0x0, false, 0x0⟩,
   ⟨0x120, 64, 8, 0x0, 0x0, false, 0x0⟩,
   ⟨0x124, 64, 8, 0x0, 0x0, false, 0x0⟩,
   ⟨0x128, 64, 8, 0x0, 0xFFFFFFFF, true, 0x0⟩,
   ⟨0x12C, 64, 8, 0x0, 0x0, false, 0x1C⟩,
   ⟨0x130, 64, 8, 0x0, 0x0, false, 0x0⟩,
   ⟨0x134, 64, 8, 0x0, 0x0, false, 0x0⟩,
   ⟨0x138, 64, 8, 0x0, 0x0, false, 0x0⟩,
   ⟨0x300, 32, 8, 0x0, 0xFFFFFF3F, true, 0x0⟩,
   ⟨0x304, 32, 8, 0x0, 0xFFFFFFFF, false, 0x0⟩,
   ⟨0x308, 32, 8, 0x0, 0x0, false, 0x0⟩,
   ⟨0x30C, 32, 8, 0x0, 0x0, false, 0x0⟩,
   ⟨0x310, 32, 8, 0x0, 0x0, false, 0x0⟩,
   ⟨0x314, 32, 8, 0x0, 0x0, false, 0x0⟩,
   ⟨0x400, 32, 16, 0x4, 0x7FFFF, true, 0x0⟩,
   ⟨0x404, 32, 16, 0x0, 0xFFFFFF, true, 0x0⟩,
   ⟨0x408, 32, 16, 0x0, 0xFFFFFF, true, 0x0⟩]
def linRowsB : List RegRow :=
  [⟨0x40C, 32, 16, 0x0, 0x3FFFFFFF, true, 0x0⟩,
   ⟨0x410, 32, 16, 0x0, 0xFFFFFF, true, 0x0⟩,
   ⟨0x414, 32, 16, 0x0, 0x0, false, 0x0⟩,
   ⟨0x418, 32, 16, 0x0, 0x0, false, 0x0⟩,
   ⟨0x41C, 32, 16, 0x0, 0xFFFFFF, true, 0x0⟩,
   ⟨0x600, 32, 16, 0x0, 0xF0F, true, 0x0⟩,
   ⟨0x604, 32, 16, 0x1, 0xFFFFFF, true, 0x0⟩,
   ⟨0x608, 32, 16, 0x0, 0xFFFF, true, 0x0⟩,
   ⟨0x60C, 32, 16, 0x0, 0x0, false, 0x0⟩,
   ⟨0x610, 32, 16, 0x0, 0x0, false, 0x0⟩,
   ⟨0x614, 32, 16, 0x0, 0x0, false, 0x4⟩,
   ⟨0x618, 32, 16, 0x0, 0xFFFFFFFF, false, 0x0⟩,
   ⟨0x61C, 32, 16, 0x0, 0x0, false, 0x0⟩]
def linRows : List RegRow := linRowsA ++ linRowsB

def chHdrRows : List RegRow :=
  [⟨0x40, 0, 1, 0x0, 0x1, true, 0x0⟩,
   ⟨0x44, 0, 1, 0x0, 0x1, false, 0x0⟩,
   ⟨0x48, 0, 1, 0x0, 0x0, false, 0x0⟩,
   ⟨0x4C, 0, 1, 0x0, 0x3FFFFFFF, true, 0x0⟩,
   ⟨0x50, 0, 1, 0x0, 0xFFFFFF, true, 0x0⟩,
   ⟨0x54, 0, 1, 0xC8, 0xFFFF, true, 0x0⟩,
   ⟨0x58, 0, 1, 0x0, 0xFFFFFFFF, true, 0x0⟩,
   ⟨0x5C, 0, 1, 0x0, 0xFFFFFF, true, 0x0⟩,
   ⟨0x60, 0, 1, 0x0, 0xFFFFFF, true, 0x0⟩,
   ⟨0x64, 0, 1, 0x0, 0xFFFFFFFF, true, 0x0⟩,
   ⟨0x68, 0, 1, 0x4E20, 0xFFFFF, true, 0x0⟩,
   ⟨0x6C, 0, 1, 0x32, 0x3FF, true, 0x0⟩,
   ⟨0x70, 0, 1, 0x64, 0xFFFF, false, 0x0⟩,
   ⟨0x74, 0, 1, 0x0, 0x0, false, 0x0⟩,
   ⟨0x78, 0, 1, 0x0, 0x0, false, 0x0⟩,
   ⟨0x7C, 0, 1, 0x0, 0x0, false, 0x0⟩,
   ⟨0x80, 0, 1, 0x0, 0x0, false, 0x0⟩,
   ⟨0x84, 0, 1, 0x0, 0x0, false, 0x0⟩]

def seqRows : List RegRow :=
  [⟨0x40, 0, 1, 0x0, 0x7, false, 0x0⟩,
   ⟨0x44, 0, 1, 0x0, 0x0, false, 0x0⟩,
   ⟨0x48, 0, 1, 0x0, 0xFFFFFFFF, false, 0x0⟩,
   ⟨0x4C, 0, 1, 0x0, 0xFF, false, 0x0⟩,
   ⟨0x50, 0, 1, 0x0, 0xFFFFFFFF, false, 0x0⟩,
   ⟨0x54, 4, 8, 0x0, 0x0, false, 0x0⟩,
   ⟨0x74, 0, 1, 0x3E8, 0xFFFF, true, 0x0⟩,
   ⟨0x78, 0, 1, 0x0, 0x0, false, 0x0⟩,
   ⟨0x7C, 0, 1, 0x0, 0x0, false, 0x0⟩,
   ⟨0x80, 0, 1, 0x0, 0x0, false, 0x0⟩,
   ⟨0x84, 0, 1, 0x0, 0x0, false, 0x0⟩,
   ⟨0x88, 0, 1, 0x0, 0x0, false, 0x0⟩,
   ⟨0x8C, 0, 1, 0x0, 0x0, false, 0x0⟩]

def chjRows : List RegRow :=
  [⟨0x40, 0, 1, 0x0, 0x0, false, 0x0⟩,
   ⟨0x44, 0, 1, 0x0, 0x0, false, 0x0⟩,
   ⟨0x48, 0, 1, 0x0, 0xFFFFFFFF, false, 0x0⟩,
   ⟨0x4C, 0, 1, 0x0, 0x0, false, 0x0⟩,
   ⟨0x50, 0, 1, 0x0, 0x0, false, 0x0⟩,
   ⟨0x54, 0, 1, 0x0, 0x0, false, 0x0⟩,
   ⟨0x58, 0, 1, 0x0, 0x0, false, 0x0⟩,
   ⟨0x5C, 0, 1, 0x0, 0xFF, false, 0x0⟩,
   ⟨0x60, 0, 1, 0x0, 0x0, false, 0x0⟩,
   ⟨0x64, 0, 1, 0x0, 0x0, false, 0x0⟩,
   ⟨0x68, 0, 1, 0x0, 0x0, false, 0x0⟩,
   ⟨0x6C, 0, 1, 0x0, 0x0, false, 0x0⟩,
   ⟨0x70, 0, 1, 0x0, 0x0, false, 0x0⟩,
   ⟨0x74, 0, 1, 0x0, 0x0, false, 0x0⟩,
   ⟨0x80, 4, 16, 0x0, 0x0, false, 0x0⟩]

def stnRows : List RegRow :=
  [⟨0x800, 0, 1, 0x0, 0x3, true, 0x0⟩,
   ⟨0x804, 0, 1, 0x0, 0x0, false, 0x0⟩,
   ⟨0x808, 0, 1, 0x0, 0x0, false, 0x0⟩,
   ⟨0x810, 8, 8, 0x0, 0xFFFFFF9F, true, 0x0⟩,
   ⟨0x814, 8, 8, 0x0, 0xFFFFFF, true, 0x0⟩]

def dmkRowsA : List RegRow :=
  [⟨0x40, 0, 1, 0x0, 0x0, false, 0x0⟩,
   ⟨0x44, 0, 1, 0x0, 0x0, false, 0x0⟩,
   ⟨0x48, 0, 1, 0x3, 0x3, true, 0x0⟩,
   ⟨0x4C, 0, 1, 0x0, 0xFFFFFFFF, true, 0x0⟩,
   ⟨0x50, 0, 1, 0x0, 0xFF, true, 0x0⟩,
   ⟨0x54, 0, 1, 0x10, 0x1F, true, 0x0⟩,
   ⟨0x58, 0, 1, 0x0, 0xFFFFFFFF, false, 0x0⟩,
   ⟨0x5C, 0, 1, 0x0, 0xFF, false, 0x0⟩,
   ⟨0x60, 0, 1, 0x0, 0xFFFFFFFF, false, 0x0⟩,
   ⟨0x64, 0, 1, 0x0, 0x0, false, 0x0⟩,
   ⟨0x68, 0, 1, 0x0, 0x0, false, 0x0⟩,
   ⟨0x6C, 0, 1, 0x0, 0x1F, false, 0x0⟩,
   ⟨0x70, 0, 1, 0x0, 0x0, false, 0x0⟩,
   ⟨0x74, 0, 1, 0x0, 0x0, false, 0x0⟩,
   ⟨0x78, 0, 1, 0x0, 0x0, false, 0x0⟩,
   ⟨0x7C, 0, 1, 0x0, 0x0, false, 0x0⟩,
   ⟨0x80, 0, 1, 0x0, 0x0, false, 0x0⟩,
   ⟨0x84, 0, 1, 0x0, 0x0, false, 0x0⟩,
   ⟨0x88, 0, 1, 0x0, 0x0, false, 0x0⟩,
   ⟨0x8C, 0, 1, 0x0, 0x0, false, 0x0⟩,
   ⟨0x90, 0, 1, 0x0, 0x0, false, 0x0⟩,
   ⟨0xC0, 4, 24, 0x0, 0x11F, false, 0x0⟩,
   ⟨0x140, 0, 1, 0x0, 0xF, false, 0x0⟩,
   ⟨0x144, 0, 1, 0x0, 0x3F, false, 0x0⟩,
   ⟨0x148, 0, 1, 0x0, 0x0, false, 0x0⟩,
   ⟨0x14C, 0, 1, 0x0, 0x0, false, 0x0⟩,
   ⟨0x150, 4, 8, 0x0, 0xFFFFFFFF, false, 0x0⟩,
   ⟨0x170, 0, 1, 0x0, 0x1F1F, false, 0x0⟩,
   ⟨0x174, 0, 1, 0x0, 0x3F, false, 0x0⟩,
   ⟨0x178, 0, 1, 0x0, 0x0, false, 0x0⟩,
   ⟨0x17C, 0, 1, 0x0, 0x0, false, 0x0⟩,
   ⟨0x180, 4, 8, 0x0, 0xFFFFFFFF, false, 0x0⟩,
   ⟨0x1C0, 0, 1, 0x0, 0x1F, false, 0x0⟩,
   ⟨0x1C4, 0, 1, 0x0, 0x0, false, 0x0⟩,
   ⟨0x1C8, 0, 1, 0x0, 0x0, false, 0x0⟩,
   ⟨0x1CC, 0, 1, 0x0, 0x0, false, 0x0⟩,
   ⟨0x1D0, 0, 1, 0x0, 0x0, false, 0x0⟩,
   ⟨0x1D4, 0, 1, 0xFFFFFFFF, 0x0, false, 0x0⟩,
   ⟨0x1D8, 0, 1, 0xFFFFFFFF, 0x0, false, 0x0⟩,
   ⟨0x1DC, 0, 1, 0x0, 0xFFFFFFFF, false, 0x0⟩]
def dmkRowsB : List RegRow :=
  [⟨0x1E0, 0, 1, 0x0, 0xFFFFFFFF, false, 0x0⟩,
   ⟨0x1E4, 0, 1, 0x0, 0x0, false, 0x0⟩,
   ⟨0x1E8, 0, 1, 0x0, 0x0, false, 0x0⟩,
   ⟨0x200, 8, 8, 0x0, 0x800007FF, false, 0x0⟩,
   ⟨0x204, 8, 8, 0x0, 0xFFFFFFFF, false, 0x0⟩,
   ⟨0x240, 8, 16, 0x0, 0xFFFFFFFF, false, 0x0⟩,
   ⟨0x244, 8, 16, 0xFFFFFF, 0x3FFFFFF, false, 0x0⟩]
def dmkRows : List RegRow := dmkRowsA ++ dmkRowsB

def hpRows : List RegRow :=
  [⟨0x40, 0, 1, 0x0, 0x3FFFFFF, true, 0x0⟩,
   ⟨0x44, 0, 1, 0x0, 0xFFFFF, true, 0x0⟩,
   ⟨0x48, 0, 1, 0x304, 0xFF7F, true, 0x0⟩,
   ⟨0x4C, 0, 1, 0x281428, 0xFFFFFF, true, 0x0⟩,
   ⟨0x50, 0, 1, 0x50, 0xFFFFFF, true, 0x0⟩,
   ⟨0x54, 0, 1, 0x960, 0xFFFFF, true, 0x0⟩,
   ⟨0x58, 0, 1, 0x64, 0x1FFF, true, 0x0⟩,
   ⟨0x5C, 0, 1, 0x0, 0x0, false, 0x0⟩,
   ⟨0x60, 0, 1, 0x0, 0x0, false, 0x0⟩,
   ⟨0x64, 0, 1, 0x0, 0x0, false, 0x0⟩,
   ⟨0x68, 0, 1, 0x10FF000, 0xFFFFFF7F, true, 0x0⟩,
   ⟨0x6C, 0, 1, 0x258, 0xFFFF, false, 0x0⟩,
   ⟨0x70, 0, 1, 0x28A, 0xFFFF, false, 0x0⟩,
   ⟨0x74, 0, 1, 0x2BC, 0xFFFF, true, 0x0⟩,
   ⟨0x78, 0, 1, 0x1E, 0xFF, false, 0x0⟩,
   ⟨0x80, 4, 17, 0x0, 0xFFFF, true, 0x0⟩,
   ⟨0xD0, 0, 1, 0x0, 0x0, false, 0x0⟩,
   ⟨0xD4, 0, 1, 0x0, 0x0, false, 0x0⟩,
   ⟨0xD8, 0, 1, 0x0, 0x0, false, 0x0⟩,
   ⟨0xDC, 0, 1, 0x0, 0x0, false, 0x0⟩,
   ⟨0xE0, 0, 1, 0x0, 0x1F, true, 0x0⟩,
   ⟨0xE4, 0, 1, 0x0, 0x0, false, 0x0⟩,
   ⟨0x100, 0, 1, 0x0, 0x3F7F7F7, false, 0x0⟩,
   ⟨0x104, 0, 1, 0x140064, 0xFFFFFFFF, false, 0x0⟩,
   ⟨0x108, 0, 1, 0x0, 0x0, false, 0x0⟩,
   ⟨0x10C, 0, 1, 0x0, 0x0, false, 0x0⟩,
   ⟨0x200, 4, 64, 0x0, 0x80000FFF, false, 0x0⟩]

def embRows : List RegRow :=
  [⟨0x40, 0, 1, 0x820, 0xFF3F3F, false, 0x0⟩,
   ⟨0x44, 0, 1, 0x0, 0x0, false, 0x0⟩,
   ⟨0x48, 0, 1, 0x0, 0x0, false, 0x0⟩,
   ⟨0x50, 4, 4, 0x0, 0xFFFFF, false, 0x0⟩,
   ⟨0x100, 4, 64, 0x0, 0xFFFFFFFF, false, 0x0⟩,
   ⟨0x200, 0, 1, 0x11111111, 0xFFFFFFFF, false, 0x0⟩,
   ⟨0x204, 0, 1, 0x11111111, 0xFFFFFFFF, false, 0x0⟩,
   ⟨0x208, 0, 1, 0x33333333, 0xFFFFFFFF, false, 0x0⟩,
   ⟨0x20C, 0, 1, 0x33333333, 0xFFFFFFFF, false, 0x0⟩,
   ⟨0x210, 0, 1, 0x77777777, 0xFFFFFFFF, false, 0x0⟩,
   ⟨0x214, 0, 1, 0x77777777, 0xFFFFFFFF, false, 0x0⟩,
   ⟨0x218, 0, 1, 0xFFFFFFFF, 0xFFFFFFFF, false, 0x0⟩,
   ⟨0x21C, 0, 1, 0xFFFFFFFF, 0xFFFFFFFF, false, 0x0⟩,
   ⟨0x280, 4, 32, 0x100, 0x3FF, false, 0x0⟩,
   ⟨0x400, 4, 384, 0x0, 0xFFFFFFFF, false, 0x0⟩]

def cnsRows : List RegRow :=
  [⟨0x40, 0, 1, 0x280, 0xFF3FFF, true, 0x0⟩,
   ⟨0x44, 0, 1, 0x0, 0xFFFFFF, true, 0x0⟩,
   ⟨0x48, 0, 1, 0x0, 0xFFFFFF, false, 0x0⟩,
   ⟨0x4C, 0, 1, 0x0, 0x0, false, 0x0⟩,
   ⟨0x50, 0, 1, 0x0, 0x0, false, 0x0⟩,
   ⟨0x54, 0, 1, 0x0, 0x0, false, 0x0⟩,
   ⟨0x58, 0, 1, 0x0, 0x0, false, 0x0⟩,
   ⟨0x5C, 0, 1, 0x0, 0x0, false, 0x0⟩,
   ⟨0x60, 0, 1, 0x0, 0x0, false, 0x0⟩,
   ⟨0x64, 0, 1, 0x0, 0x0, false, 0x0⟩,
   ⟨0x68, 0, 1, 0x0, 0x0, false, 0x0⟩,
   ⟨0x6C, 0, 1, 0x0, 0x0, false, 0x0⟩,
   ⟨0x70, 0, 1, 0x0, 0x0, false, 0x0⟩]

def lpRowsA : List RegRow :=
  [⟨0x40, 0, 1, 0xC81, 0xFFF, true, 0x0⟩,
   ⟨0x44, 0, 1, 0x4E20, 0xFFFFF, true, 0x0⟩,
   ⟨0x48, 0, 1, 0x0, 0xFFFFF, true, 0x0⟩,
   ⟨0x4C, 0, 1, 0x0, 0xFFFF, true, 0x0⟩,
   ⟨0x50, 0, 1, 0x0, 0xFFFFFFFF, true, 0x0⟩,
   ⟨0x54, 0, 1, 0x0, 0xFFFFFFFF, true, 0x0⟩,
   ⟨0x58, 0, 1, 0xFA001F4, 0xFFFFFFFF, true, 0x0⟩,
   ⟨0x5C, 0, 1, 0x0, 0xFFFFFFFF, true, 0x0⟩,
   ⟨0x60, 0, 1, 0x0, 0xFFFFFF, true, 0x0⟩,
   ⟨0x64, 0, 1, 0x0, 0xFFFFFF, true, 0x0⟩,
   ⟨0x68, 0, 1, 0x0, 0xFFFFFFFF, true, 0x0⟩,
   ⟨0x6C, 0, 1, 0x0, 0xFFFFFFFF, true, 0x0⟩,
   ⟨0x70, 0, 1, 0x800001, 0xFFFFFF, true, 0x0⟩,
   ⟨0x74, 0, 1, 0x7FFFFF, 0xFFFFFF, true, 0x0⟩,
   ⟨0x78, 0, 1, 0x800001, 0xFFFFFF, true, 0x0⟩,
   ⟨0x7C, 0, 1, 0x7FFFFF, 0xFFFFFF, true, 0x0⟩,
   ⟨0x80, 0, 1, 0x10000, 0xFFFFF, true, 0x0⟩,
   ⟨0x84, 0, 1, 0x0, 0xFFFFF, true, 0x0⟩,
   ⟨0x88, 0, 1, 0x0, 0xFFFFF, true, 0x0⟩,
   ⟨0x8C, 0, 1, 0x10000, 0xFFFFF, true, 0x0⟩,
   ⟨0x90, 0, 1, 0x0, 0x107, true, 0x0⟩,
   ⟨0x94, 0, 1, 0x0, 0x1FFF, false, 0x0⟩,
   ⟨0x98, 0, 1, 0x0, 0xFFFFFFFF, false, 0x0⟩,
   ⟨0x9C, 0, 1, 0x0, 0x0, false, 0x0⟩,
   ⟨0xA0, 0, 1, 0x0, 0xFFFFFF, true, 0x0⟩,
   ⟨0xA4, 0, 1, 0x0, 0xFFFFFF, true, 0x0⟩,
   ⟨0xA8, 0, 1, 0x6403E8, 0xFFFFFFFF, true, 0x0⟩,
   ⟨0xAC, 0, 1, 0x0, 0xFFFF, false, 0x0⟩,
   ⟨0xB0, 0, 1, 0x64, 0xFFFF, true, 0x0⟩,
   ⟨0xB4, 0, 1, 0x0, 0x7F, true, 0x0⟩,
   ⟨0xB8, 0, 1, 0x0, 0xFFFFFF, true, 0x0⟩,
   ⟨0xC0, 0, 1, 0xFFFF, 0xFFFF, true, 0x0⟩,
   ⟨0xC4, 0, 1, 0x1, 0xFFF, true, 0x0⟩,
   ⟨0xC8, 0, 1, 0x0, 0xFFFF0FFF, true, 0x0⟩,
   ⟨0xCC, 0, 1, 0x0, 0xFFF, true, 0x0⟩,
   ⟨0xE0, 0, 1, 0x0, 0x0, false, 0x0⟩,
   ⟨0xE4, 0, 1, 0x0, 0x0, false, 0x0⟩,
   ⟨0xE8, 0, 1, 0x0, 0x0, false, 0x0⟩,
   ⟨0xEC, 0, 1, 0x0, 0x0, false, 0x0⟩,
   ⟨0xF0, 0, 1, 0x0, 0x0, false, 0x0⟩]
def lpRowsB : List RegRow :=
  [⟨0xF4, 0, 1, 0x0, 0x0, false, 0x0⟩,
   ⟨0xF8, 0, 1, 0x0, 0x0, false, 0x0⟩,
   ⟨0xFC, 0, 1, 0x0, 0x0, false, 0x0⟩,
   ⟨0x100, 8, 8, 0x0, 0x800FFFFF, true, 0x0⟩,
   ⟨0x104, 8, 8, 0x0, 0xFFFFFFFF, true, 0x0⟩,
   ⟨0x140, 0, 1, 0x0, 0x0, false, 0x0⟩,
   ⟨0x400, 4, 256, 0x0, 0xFFFFFFFF, true, 0x0⟩]
def lpRows : List RegRow := lpRowsA ++ lpRowsB

def lpbRows : List RegRow :=
  [⟨0x40, 0, 1, 0x0, 0x31F1F, true, 0x0⟩,
   ⟨0x44, 0, 1, 0x0, 0x0, false, 0x0⟩,
   ⟨0x48, 0, 1, 0x0, 0x0, false, 0x0⟩]

def loopRows : List RegRow :=
  [⟨0x40, 0, 1, 0x0, 0x0, false, 0x0⟩,
   ⟨0x44, 0, 1, 0x0, 0x0, false, 0x0⟩,
   ⟨0x48, 0, 1, 0x0, 0x0, false, 0x0⟩,
   ⟨0x4C, 0, 1, 0x0, 0x0, false, 0x0⟩,
   ⟨0x50, 0, 1, 0x0, 0x0, false, 0x0⟩]

def ldpRowsA : List RegRow :=
  [⟨0x40, 0, 1, 0x2, 0x3, true, 0x0⟩,
   ⟨0x44, 0, 1, 0x0, 0x0, false, 0x0⟩,
   ⟨0x48, 0, 1, 0x0, 0x0, false, 0x0⟩,
   ⟨0x4C, 0, 1, 0x0, 0x0, false, 0x0⟩,
   ⟨0x100, 256, 12, 0x0, 0x1F, false, 0x0⟩,
   ⟨0x104, 256, 12, 0x0, 0x0, false, 0x0⟩,
   ⟨0x108, 256, 12, 0x0, 0x0, false, 0x0⟩,
   ⟨0x10C, 256, 12, 0x0, 0xFFFFFF, false, 0x0⟩,
   ⟨0x110, 256, 12, 0x0, 0xFFFFFF, false, 0x0⟩,
   ⟨0x114, 256, 12, 0x0, 0xFFFFFF, false, 0x0⟩,
   ⟨0x118, 256, 12, 0x8000000, 0x3F1F77F7, false, 0x0⟩,
   ⟨0x11C, 256, 12, 0x17705DC0, 0xFFFFFFFF, false, 0x0⟩,
   ⟨0x120, 256, 12, 0x0, 0x0, false, 0x0⟩,
   ⟨0x124, 256, 12, 0x0, 0x0, false, 0x0⟩,
   ⟨0x128, 256, 12, 0x0, 0x0, false, 0x0⟩,
   ⟨0x12C, 256, 12, 0x0, 0xFFFFFF, true, 0x0⟩,
   ⟨0x130, 256, 12, 0x1, 0x7, true, 0x0⟩,
   ⟨0x134, 256, 12, 0x0, 0x0, false, 0x0⟩,
   ⟨0x138, 256, 12, 0x0, 0x0, false, 0x0⟩,
   ⟨0x13C, 256, 12, 0x0, 0x0, false, 0x0⟩,
   ⟨0x140, 256, 12, 0x0, 0xFFFFFFFF, false, 0x0⟩,
   ⟨0x144, 256, 12, 0x0, 0xFFFFFFFF, false, 0x0⟩,
   ⟨0x148, 256, 12, 0x0, 0xFFFFFFFF, false, 0x0⟩,
   ⟨0x14C, 256, 12, 0x0, 0xFFFFFFFF, false, 0x0⟩,
   ⟨0x150, 256, 12, 0x0, 0xFFFFFFFF, false, 0x0⟩,
   ⟨0x154, 256, 12, 0x0, 0xFFFFFF, false, 0x0⟩,
   ⟨0x158, 256, 12, 0x0, 0xFFFFFF, false, 0x0⟩,
   ⟨0x15C, 256, 12, 0x0, 0xFFFFFF, false, 0x0⟩,
   ⟨0x160, 256, 12, 0x0, 0xFFFFFFFF, false, 0x0⟩,
   ⟨0x164, 256, 12, 0x0, 0xFFFFFFFF, false, 0x0⟩,
   ⟨0x168, 256, 12, 0x0, 0xFFFFFFFF, false, 0x0⟩,
   ⟨0x16C, 256, 12, 0x0, 0xFFFFFFFF, false, 0x0⟩,
   ⟨0x170, 256, 12, 0x0, 0xFFFFFFFF, false, 0x0⟩,
   ⟨0x174, 256, 12, 0x0, 0xFFFFFFFF, false, 0x0⟩,
   ⟨0x178, 256, 12, 0x0, 0xFFFFFFFF, false, 0x0⟩,
   ⟨0x17C, 256, 12, 0x0, 0xFFFFFFFF, false, 0x0⟩,
   ⟨0x180, 256, 12, 0x0, 0xFFFFFFFF, false, 0x0⟩,
   ⟨0x184, 256, 12, 0x0, 0xFFFFFFFF, false, 0x0⟩,
   ⟨0x190, 256, 12, 0x0, 0xFFFFFF, false, 0x0⟩,
   ⟨0x194, 256, 12, 0x0, 0xFFFFFF, false, 0x0⟩]
def ldpRowsB : List RegRow :=
  [⟨0x198, 256, 12, 0x3E80008, 0xFFFF003F, false, 0x0⟩,
   ⟨0x19C, 256, 12, 0x7FFFFF, 0xFFFFFF, false, 0x0⟩,
   ⟨0x1A0, 256, 12, 0x0, 0x0, false, 0x0⟩,
   ⟨0x1A4, 256, 12, 0x0, 0x0, false, 0x0⟩,
   ⟨0x1A8, 256, 12, 0x0, 0x0, false, 0x0⟩,
   ⟨0x1AC, 256, 12, 0x0, 0x0, false, 0x0⟩,
   ⟨0x1B0, 256, 12, 0x0, 0x0, false, 0x0⟩,
   ⟨0x1B4, 256, 12, 0x0, 0x0, false, 0x0⟩,
   ⟨0x1B8, 256, 12, 0x0, 0x0, false, 0x0⟩]
def ldpRows : List RegRow := ldpRowsA ++ ldpRowsB

def motRows : List RegRow :=
  [⟨0x40, 0, 1, 0x0, 0x0, false, 0x0⟩,
   ⟨0x44, 0, 1, 0x0, 0x0, false, 0x0⟩,
   ⟨0x48, 0, 1, 0x0, 0x0, false, 0x0⟩,
   ⟨0x4C, 0, 1, 0x0, 0x0, false, 0x0⟩]

def stpRows : List RegRow :=
  [⟨0x40, 0, 1, 0xA000, 0x3F7FF, true, 0x0⟩,
   ⟨0x44, 0, 1, 0x4190C8, 0x7FFFFF, true, 0x0⟩,
   ⟨0x48, 0, 1, 0x0, 0xFFFFFFFF, false, 0x0⟩,
   ⟨0x4C, 0, 1, 0xA080108, 0xFFFFFFFF, false, 0x0⟩,
   ⟨0x50, 0, 1, 0x8E0C040, 0xFFFFFFFF, false, 0x0⟩,
   ⟨0x54, 0, 1, 0xA, 0xFF, true, 0x0⟩,
   ⟨0x58, 0, 1, 0x0, 0xFFFF, true, 0x0⟩,
   ⟨0x60, 4, 8, 0x0, 0xFFFFFF, true, 0x0⟩,
   ⟨0x80, 0, 1, 0x0, 0xFFFF, false, 0x0⟩,
   ⟨0x84, 0, 1, 0x0, 0xFFFFFFFF, false, 0x0⟩,
   ⟨0x88, 0, 1, 0x0, 0xFFFFFF, false, 0x0⟩,
   ⟨0x8C, 0, 1, 0x0, 0xFFFFFFFF, false, 0x0⟩,
   ⟨0x90, 0, 1, 0x0, 0xFFFFFFFF, false, 0x0⟩,
   ⟨0x94, 0, 1, 0x0, 0xFFFFFFFF, true, 0x0⟩,
   ⟨0x98, 0, 1, 0x0, 0xFFFFFFFF, false, 0x0⟩,
   ⟨0x9C, 0, 1, 0x0, 0x0, false, 0x0⟩,
   ⟨0xA0, 0, 1, 0x0, 0x0, false, 0x0⟩,
   ⟨0xA4, 0, 1, 0x0, 0x0, false, 0x0⟩,
   ⟨0xA8, 0, 1, 0x0, 0x0, false, 0x0⟩,
   ⟨0xAC, 0, 1, 0x0, 0x0, false, 0x0⟩,
   ⟨0xB0, 0, 1, 0x0, 0x0, false, 0x0⟩,
   ⟨0xB4, 0, 1, 0x0, 0xFFFFFFFF, false, 0x0⟩,
   ⟨0xB8, 0, 1, 0x0, 0x1, false, 0x0⟩,
   ⟨0xBC, 0, 1, 0x0, 0xFFFFFF, false, 0x0⟩,
   ⟨0xC0, 0, 1, 0x0, 0xFFFFFFFF, false, 0x0⟩,
   ⟨0xC4, 0, 1, 0x0, 0xFFFFFF, false, 0x0⟩,
   ⟨0xC8, 0, 1, 0x40000, 0xFFFFFFFF, false, 0x0⟩,
   ⟨0xCC, 0, 1, 0x0, 0x1F, false, 0x0⟩,
   ⟨0xD0, 0, 1, 0x0, 0xFFFFFFFF, false, 0x0⟩,
   ⟨0xD4, 0, 1, 0x0, 0xFFFFFF, false, 0x0⟩,
   ⟨0xD8, 0, 1, 0x0, 0x0, false, 0x0⟩,
   ⟨0xDC, 0, 1, 0x0, 0x0, false, 0x0⟩]

def blRows : List RegRow :=
  [⟨0x40, 0, 1, 0xA0000, 0x3F0FFF, true, 0x0⟩,
   ⟨0x44, 0, 1, 0x3B64E20, 0x3FFFFFF, true, 0x0⟩,
   ⟨0x48, 0, 1, 0xC32641A, 0xFFFFFFFF, true, 0x0⟩,
   ⟨0x4C, 0, 1, 0xBB80258, 0xFFFFFFFF, true, 0x0⟩,
   ⟨0x50, 0, 1, 0x0, 0xFFF0FFF, true, 0x0⟩,
   ⟨0x54, 0, 1, 0x8000000, 0xFFF7F7F, true, 0x0⟩,
   ⟨0x58, 0, 1, 0x0, 0xFFFFFFFF, false, 0x0⟩,
   ⟨0x5C, 0, 1, 0x0, 0xFFFFFFFF, false, 0x0⟩,
   ⟨0x60, 0, 1, 0x0, 0x0, false, 0x0⟩,
   ⟨0x64, 0, 1, 0x0, 0xFFFF, false, 0x0⟩,
   ⟨0x68, 0, 1, 0x0, 0xFFFF, false, 0x0⟩,
   ⟨0x6C, 0, 1, 0x0, 0xFFFFFFFF, false, 0x0⟩,
   ⟨0x70, 0, 1, 0xA00, 0xFFFF, false, 0x0⟩,
   ⟨0x74, 0, 1, 0x0, 0x0, false, 0x0⟩,
   ⟨0x78, 0, 1, 0x0, 0x0, false, 0x0⟩,
   ⟨0x7C, 0, 1, 0x0, 0x0, false, 0x0⟩,
   ⟨0x80, 4, 16, 0x0, 0xFFFFFFFF, false, 0x0⟩]

def mbRows : List RegRow :=
  [⟨0x40, 0, 1, 0xEA60, 0x1FFFF, true, 0x0⟩,
   ⟨0x44, 0, 1, 0x0, 0xFFFF, true, 0x0⟩,
   ⟨0x48, 0, 1, 0x0, 0xFFFF, true, 0x0⟩,
   ⟨0x4C, 0, 1, 0x0, 0xFFFF, true, 0x0⟩,
   ⟨0x50, 0, 1, 0x0, 0xFFFFFFFF, true, 0x0⟩,
   ⟨0x54, 0, 1, 0x0, 0x3FF, true, 0x0⟩,
   ⟨0x58, 0, 1, 0x1F4000A, 0xFFFFFFFF, false, 0x0⟩,
   ⟨0x5C, 0, 1, 0x0, 0x0, false, 0x0⟩,
   ⟨0x60, 0, 1, 0x0, 0x0, false, 0x0⟩,
   ⟨0x64, 0, 1, 0x0, 0x0, false, 0x0⟩,
   ⟨0x68, 0, 1, 0x0, 0x0, false, 0x0⟩,
   ⟨0x6C, 0, 1, 0x0, 0x0, false, 0x0⟩,
   ⟨0x70, 0, 1, 0x0, 0x0, false, 0x0⟩]

def lkRows : List RegRow :=
  [⟨0x40, 0, 1, 0x408, 0xF3F, true, 0x0⟩,
   ⟨0x44, 0, 1, 0x0, 0x0, false, 0x0⟩,
   ⟨0x48, 0, 1, 0x0, 0x0, false, 0x0⟩,
   ⟨0x4C, 0, 1, 0x0, 0x0, false, 0x0⟩,
   ⟨0x50, 0, 1, 0x0, 0x0, false, 0x0⟩,
   ⟨0x54, 0, 1, 0x0, 0x0, false, 0x0⟩,
   ⟨0x58, 0, 1, 0x0, 0x0, false, 0x0⟩,
   ⟨0x5C, 0, 1, 0x0, 0x0, false, 0x0⟩,
   ⟨0x60, 0, 1, 0x0, 0x0, false, 0x0⟩,
   ⟨0x64, 0, 1, 0x0, 0x0, false, 0x0⟩,
   ⟨0x68, 0, 1, 0x0, 0x0, false, 0x0⟩,
   ⟨0x6C, 0, 1, 0x0, 0x0, false, 0x0⟩,
   ⟨0x70, 0, 1, 0x0, 0x0, false, 0x0⟩]

def ddrRows : List RegRow :=
  [⟨0x40, 0, 1, 0x9, 0x3F, true, 0x0⟩,
   ⟨0x44, 0, 1, 0x0, 0x0, false, 0x0⟩,
   ⟨0x48, 0, 1, 0x0, 0x0, false, 0x0⟩,
   ⟨0x4C, 0, 1, 0x0, 0x0, false, 0x0⟩,
   ⟨0x50, 0, 1, 0x1213321, 0xF, false, 0x0⟩,
   ⟨0x54, 4, 4, 0x10101010, 0xFFFFFFFF, true, 0x0⟩,
   ⟨0x64, 0, 1, 0x0, 0x0, false, 0x0⟩,
   ⟨0x68, 0, 1, 0x0, 0x0, false, 0x0⟩,
   ⟨0x6C, 0, 1, 0x0, 0x0, false, 0x0⟩,
   ⟨0x70, 0, 1, 0x0, 0x0, false, 0x0⟩,
   ⟨0x74, 0, 1, 0x0, 0x0, false, 0x0⟩,
   ⟨0x78, 0, 1, 0x0, 0xF, false, 0x0⟩,
   ⟨0x7C, 0, 1, 0x0, 0x0, false, 0x0⟩,
   ⟨0x80, 0, 1, 0x0, 0x0, false, 0x0⟩,
   ⟨0x84, 0, 1, 0x0, 0x0, false, 0x0⟩,
   ⟨0x88, 0, 1, 0x0, 0x0, false, 0x0⟩,
   ⟨0x8C, 0, 1, 0x0, 0x0, false, 0x0⟩,
   ⟨0x90, 0, 1, 0x0, 0x0, false, 0x0⟩,
   ⟨0x94, 0, 1, 0x0, 0x0, false, 0x0⟩,
   ⟨0x98, 0, 1, 0x0, 0xFFFFFFFF, false, 0x0⟩,
   ⟨0x9C, 0, 1, 0x0, 0xFF, false, 0x0⟩,
   ⟨0xA0, 0, 1, 0x40A0258, 0xFFFFFFFF, false, 0x0⟩,
   ⟨0xA4, 0, 1, 0x64, 0xFFFF, false, 0x0⟩,
   ⟨0xA8, 0, 1, 0x0, 0x0, false, 0x0⟩,
   ⟨0xAC, 0, 1, 0x0, 0x0, false, 0x0⟩,
   ⟨0xB0, 0, 1, 0x1001E8, 0xFFFFFF, true, 0x0⟩,
   ⟨0xB4, 0, 1, 0x118, 0x1FF, false, 0x0⟩,
   ⟨0xB8, 0, 1, 0x0, 0x0, false, 0x0⟩,
   ⟨0xBC, 0, 1, 0x0, 0x0, false, 0x0⟩,
   ⟨0xC0, 0, 1, 0x0, 0x0, false, 0x0⟩,
   ⟨0xC4, 0, 1, 0x401, 0xFF01, false, 0x0⟩,
   ⟨0xC8, 0, 1, 0x0, 0x3F, false, 0x0⟩,
   ⟨0xCC, 0, 1, 0x0, 0x0, false, 0x0⟩,
   ⟨0xD0, 0, 1, 0x0, 0x0, false, 0x0⟩]

def srmRows : List RegRow :=
  [⟨0x40, 0, 1, 0x0, 0x0, false, 0x0⟩,
   ⟨0x44, 0, 1, 0x0, 0x0, false, 0x0⟩,
   ⟨0x48, 0, 1, 0x0, 0x0, false, 0x0⟩,
   ⟨0x4C, 0, 1, 0x102, 0x1FF, false, 0x0⟩,
   ⟨0x50, 0, 1, 0x0, 0x1FF, false, 0x0⟩,
   ⟨0x54, 0, 1, 0x0, 0x0, false, 0x0⟩,
   ⟨0x58, 0, 1, 0x0, 0x0, false, 0x0⟩,
   ⟨0x5C, 0, 1, 0x0, 0x0, false, 0x0⟩,
   ⟨0x60, 0, 1, 0x0, 0x0, false, 0x0⟩,
   ⟨0x64, 0, 1, 0x0, 0x0, false, 0x0⟩,
   ⟨0x68, 0, 1, 0x0, 0x0, false, 0x0⟩,
   ⟨0x6C, 0, 1, 0x0, 0x0, false, 0x0⟩,
   ⟨0x70, 0, 1, 0x103E8, 0x1FFFF, false, 0x0⟩,
   ⟨0x74, 0, 1, 0x0, 0x0, false, 0x0⟩,
   ⟨0x78, 0, 1, 0x76543210, 0x0, false, 0x0⟩,
   ⟨0x7C, 0, 1, 0x0, 0x0, false, 0x0⟩]

def dmaRows : List RegRow :=
  [⟨0x40, 0, 1, 0x0, 0x0, false, 0x0⟩,
   ⟨0x44, 0, 1, 0x0, 0x0, false, 0xFFFF⟩,
   ⟨0x48, 0, 1, 0x0, 0x0, false, 0x0⟩,
   ⟨0x100, 32, 32, 0x0, 0x1, false, 0x0⟩,
   ⟨0x104, 32, 32, 0x0, 0x0, false, 0x0⟩,
   ⟨0x108, 32, 32, 0x0, 0x0, false, 0x0⟩,
   ⟨0x10C, 32, 32, 0x0, 0x0, false, 0x0⟩,
   ⟨0x110, 32, 32, 0x0, 0x0, false, 0x0⟩,
   ⟨0x114, 32, 32, 0x0, 0x0, false, 0x0⟩,
   ⟨0x118, 32, 32, 0x0, 0x0, false, 0x0⟩,
   ⟨0x11C, 32, 32, 0x0, 0x0, false, 0x0⟩]

def qmgRows : List RegRow :=
  [⟨0x40, 0, 1, 0x0, 0x0, false, 0x0⟩,
   ⟨0x44, 0, 1, 0x0, 0x7F, false, 0x0⟩,
   ⟨0x48, 0, 1, 0x0, 0x7F, false, 0x0⟩,
   ⟨0x4C, 0, 1, 0x0, 0x3FFFC0, false, 0x0⟩,
   ⟨0x50, 0, 1, 0x0, 0x1FFF1FFF, false, 0x0⟩,
   ⟨0x54, 0, 1, 0x0, 0x0, false, 0x0⟩,
   ⟨0x58, 0, 1, 0x0, 0x0, false, 0x0⟩,
   ⟨0x5C, 0, 1, 0x0, 0x0, false, 0x0⟩,
   ⟨0x60, 0, 1, 0x0, 0x0, false, 0x0⟩,
   ⟨0x68, 0, 1, 0x0, 0x0, false, 0x0⟩,
   ⟨0x6C, 0, 1, 0x0, 0x0, false, 0x0⟩,
   ⟨0x80, 4, 4, 0x0, 0x0, false, 0xFFFFFFFF⟩,
   ⟨0x90, 4, 4, 0x0, 0x0, false, 0xFFFFFFFF⟩,
   ⟨0x400, 4, 128, 0x0, 0x0, false, 0x0⟩]

def bltRows : List RegRow :=
  [⟨0x40, 0, 1, 0xF, 0xF, true, 0x0⟩,
   ⟨0x44, 0, 1, 0x0, 0x0, false, 0x0⟩,
   ⟨0x48, 0, 1, 0x0, 0x0, false, 0x0⟩,
   ⟨0x4C, 0, 1, 0x0, 0x0, false, 0x0⟩,
   ⟨0x50, 0, 1, 0x0, 0x0, false, 0x0⟩,
   ⟨0x54, 0, 1, 0x0, 0x0, false, 0x0⟩,
   ⟨0x58, 0, 1, 0x0, 0x0, false, 0x0⟩,
   ⟨0x5C, 0, 1, 0x0, 0x0, false, 0x0⟩,
   ⟨0x60, 0, 1, 0x0, 0x0, false, 0x0⟩]

def timRows : List RegRow :=
  [⟨0x40, 0, 1, 0x0, 0x0, false, 0x0⟩,
   ⟨0x44, 0, 1, 0x0, 0x0, false, 0x0⟩,
   ⟨0x48, 0, 1, 0x0, 0x0, false, 0x0⟩,
   ⟨0x4C, 0, 1, 0x0, 0x0, false, 0x0⟩,
   ⟨0x50, 0, 1, 0x0, 0x0, false, 0x0⟩,
   ⟨0x54, 0, 1, 0x0, 0xFFFFFFFF, false, 0x0⟩,
   ⟨0x58, 0, 1, 0x0, 0x0, false, 0x0⟩,
   ⟨0x5C, 0, 1, 0x0, 0xFFFFFFFF, false, 0x0⟩,
   ⟨0x60, 0, 1, 0x0, 0xFFFFFFFF, false, 0x0⟩,
   ⟨0x64, 0, 1, 0x0, 0x0, false, 0x0⟩,
   ⟨0x68, 0, 1, 0xFA0, 0xFFFF, false, 0x0⟩,
   ⟨0x6C, 0, 1, 0x25, 0xFFFF, false, 0x0⟩,
   ⟨0x70, 0, 1, 0x3E8, 0x7FFFFFF, false, 0x0⟩,
   ⟨0x74, 0, 1, 0x0, 0x0, false, 0x0⟩,
   ⟨0x78, 0, 1, 0x0, 0x0, false, 0x0⟩,
   ⟨0x7C, 0, 1, 0x0, 0x0, false, 0x0⟩,
   ⟨0x80, 0, 1, 0x0, 0x0, false, 0x0⟩,
   ⟨0x84, 0, 1, 0x0, 0xFFFFFFFF, false, 0x0⟩,
   ⟨0x88, 0, 1, 0x0, 0xFFFFFFFF, false, 0x0⟩,
   ⟨0x8C, 0, 1, 0x0, 0x7FF, false, 0x0⟩,
   ⟨0x90, 0, 1, 0x0, 0x7FF, false, 0x0⟩,
   ⟨0x94, 0, 1, 0x0, 0xFFFFFFFF, false, 0x0⟩,
   ⟨0x98, 0, 1, 0x19, 0x7F03FF, false, 0x0⟩,
   ⟨0x9C, 0, 1, 0x0, 0xFFFF, false, 0x0⟩,
   ⟨0xA0, 0, 1, 0x0, 0x0, false, 0x0⟩,
   ⟨0xA4, 0, 1, 0x0, 0x0, false, 0x0⟩,
   ⟨0xA8, 0, 1, 0x0, 0x0, false, 0x0⟩,
   ⟨0xAC, 0, 1, 0x0, 0x0, false, 0x0⟩,
   ⟨0xB0, 0, 1, 0x0, 0x0, false, 0x0⟩,
   ⟨0x100, 8, 8, 0x0, 0xFFFFFFFF, false, 0x0⟩,
   ⟨0x104, 8, 8, 0x0, 0x800007FF, false, 0x0⟩]

def netRows : List RegRow :=
  [⟨0x40, 0, 1, 0x18, 0x71F, true, 0x0⟩,
   ⟨0x44, 0, 1, 0xFA50, 0xFFFF, false, 0x0⟩,
   ⟨0x48, 0, 1, 0x12C, 0xFFFF, false, 0x0⟩,
   ⟨0x4C, 0, 1, 0x20, 0x7F, false, 0x0⟩,
   ⟨0x50, 0, 1, 0x0, 0x80001FFF, false, 0x0⟩,
   ⟨0x54, 0, 1, 0x0, 0xFFFF, false, 0x0⟩,
   ⟨0x58, 0, 1, 0x0, 0x0, false, 0x0⟩,
   ⟨0x5C, 0, 1, 0x0, 0x0, false, 0x0⟩,
   ⟨0x60, 0, 1, 0x0, 0x0, false, 0x0⟩,
   ⟨0x80, 8, 4, 0x0, 0xFFFFFFFF, true, 0x0⟩,
   ⟨0x84, 8, 4, 0x0, 0xFF, true, 0x0⟩,
   ⟨0x100, 64, 2, 0x2, 0xF, true, 0x0⟩,
   ⟨0x104, 64, 2, 0x0, 0xFFFFFFFF, false, 0x0⟩,
   ⟨0x108, 64, 2, 0x0, 0x0, false, 0x0⟩,
   ⟨0x10C, 64, 2, 0x0, 0x0, false, 0x0⟩,
   ⟨0x110, 64, 2, 0x0, 0x0, false, 0x0⟩,
   ⟨0x114, 64, 2, 0x0, 0x0, false, 0x0⟩]

def secRows : List RegRow :=
  [⟨0x40, 0, 1, 0x0, 0x0, false, 0x0⟩,
   ⟨0x44, 4, 4, 0x0, 0x0, false, 0x0⟩,
   ⟨0x54, 4, 4, 0x0, 0x0, false, 0x0⟩,
   ⟨0x64, 0, 1, 0x0, 0x0, false, 0x0⟩,
   ⟨0x68, 0, 1, 0x0, 0x0, false, 0x0⟩,
   ⟨0x6C, 0, 1, 0x2222, 0x0, false, 0x0⟩,
   ⟨0x70, 0, 1, 0x0, 0x0, false, 0x0⟩,
   ⟨0x74, 0, 1, 0x0, 0x0, false, 0x0⟩,
   ⟨0x78, 0, 1, 0x0, 0x0, false, 0x0⟩,
   ⟨0x7C, 0, 1, 0x0, 0x0, false, 0x0⟩,
   ⟨0x80, 0, 1, 0x0, 0x0, false, 0x0⟩,
   ⟨0x84, 0, 1, 0x0, 0x0, false, 0x0⟩,
   ⟨0x88, 0, 1, 0x0, 0x0, false, 0x0⟩,
   ⟨0x90, 0, 1, 0x0, 0xF, false, 0x0⟩,
   ⟨0x94, 4, 4, 0x0, 0x0, false, 0x0⟩,
   ⟨0xA4, 0, 1, 0x0, 0x0, false, 0x0⟩,
   ⟨0xA8, 0, 1, 0x0, 0x0, false, 0x0⟩,
   ⟨0x100, 16, 4, 0x0, 0xFFFFFFFF, false, 0x0⟩,
   ⟨0x104, 16, 4, 0x0, 0xFF, false, 0x0⟩,
   ⟨0x108, 16, 4, 0x0, 0x0, false, 0x0⟩,
   ⟨0x10C, 16, 4, 0x0, 0x0, false, 0x0⟩,
   ⟨0x200, 16, 16, 0x0, 0xFFFFF07F, false, 0x0⟩,
   ⟨0x204, 16, 16, 0x0, 0xFF, false, 0x0⟩,
   ⟨0x208, 16, 16, 0x0, 0xFFFF, false, 0x0⟩]

def fgdRows : List RegRow :=
  [⟨0x40, 0, 1, 0x0, 0x0, false, 0x0⟩,
   ⟨0x44, 0, 1, 0x15151515, 0x3F3F3F3F, true, 0x0⟩,
   ⟨0x48, 0, 1, 0x0, 0xFF3FFFF, true, 0x0⟩,
   ⟨0x4C, 0, 1, 0x44, 0x0, false, 0x0⟩,
   ⟨0x50, 0, 1, 0x0, 0x0, false, 0x0⟩,
   ⟨0x54, 0, 1, 0x0, 0x0, false, 0xFFFFFFFF⟩,
   ⟨0x58, 0, 1, 0x0, 0x0, false, 0xFFFF⟩,
   ⟨0x5C, 0, 1, 0x0, 0x0, false, 0x0⟩,
   ⟨0x60, 0, 1, 0x0, 0x0, false, 0x0⟩,
   ⟨0x64, 0, 1, 0x0, 0x0, false, 0x0⟩,
   ⟨0x68, 0, 1, 0x0, 0x0, false, 0x0⟩,
   ⟨0x6C, 0, 1, 0x0, 0x0, false, 0x0⟩,
   ⟨0x70, 0, 1, 0x0, 0x0, false, 0x0⟩,
   ⟨0x74, 0, 1, 0x0, 0x0, false, 0x0⟩,
   ⟨0x78, 0, 1, 0x0, 0x0, false, 0x0⟩,
   ⟨0x7C, 0, 1, 0x0, 0x0, false, 0x0⟩,
   ⟨0x80, 0, 1, 0xC805, 0xFFFF, true, 0x0⟩]

def fltRows : List RegRow :=
  [⟨0x40, 0, 1, 0x0, 0x0, false, 0x0⟩,
   ⟨0x44, 0, 1, 0x0, 0x0, false, 0x0⟩,
   ⟨0x48, 0, 1, 0x0, 0xFF, false, 0x0⟩,
   ⟨0x4C, 0, 1, 0x0, 0x0, false, 0x0⟩,
   ⟨0x50, 0, 1, 0x0, 0x0, false, 0x0⟩,
   ⟨0x54, 0, 1, 0x0, 0x0, false, 0x0⟩,
   ⟨0x58, 0, 1, 0x0, 0x0, false, 0x0⟩,
   ⟨0x5C, 0, 1, 0xA0853, 0xFFFFFFFF, true, 0x0⟩,
   ⟨0x60, 0, 1, 0x644001, 0xFFFFFFFF, true, 0x0⟩,
   ⟨0x64, 0, 1, 0x0, 0xFFFFFFFF, true, 0x0⟩,
   ⟨0x68, 0, 1, 0x0, 0x0, false, 0x0⟩,
   ⟨0x70, 0, 1, 0x0, 0x0, false, 0x0⟩,
   ⟨0x74, 0, 1, 0x0, 0x0, false, 0x0⟩,
   ⟨0x78, 0, 1, 0x0, 0x0, false, 0x0⟩,
   ⟨0x7C, 0, 1, 0x0, 0x0, false, 0x0⟩,
   ⟨0x80, 4, 8, 0x0, 0x0, false, 0x0⟩,
   ⟨0xA0, 4, 8, 0x0, 0x0, false, 0x0⟩,
   ⟨0xC0, 0, 1, 0x0, 0x1F, false, 0x0⟩,
   ⟨0xC4, 0, 1, 0x0, 0x0, false, 0x0⟩,
   ⟨0xC8, 0, 1, 0x0, 0x0, false, 0x0⟩,
   ⟨0xCC, 0, 1, 0x0, 0x0, false, 0x0⟩,
   ⟨0xD0, 0, 1, 0x0, 0x0, false, 0x0⟩,
   ⟨0xD4, 0, 1, 0x0, 0x0, false, 0x0⟩,
   ⟨0xD8, 0, 1, 0x0, 0x0, false, 0x0⟩]

def clkRows : List RegRow :=
  [⟨0x40, 0, 1, 0x500, 0x0, false, 0x0⟩,
   ⟨0x44, 0, 1, 0x4010005, 0xF07FF1F, true, 0x0⟩,
   ⟨0x48, 0, 1, 0x1000000, 0x0, false, 0x0⟩,
   ⟨0x4C, 0, 1, 0x0, 0x0, false, 0x0⟩,
   ⟨0x50, 0, 1, 0x0, 0x0, false, 0x0⟩,
   ⟨0x100, 0, 1, 0x10, 0x11F, false, 0x0⟩,
   ⟨0x180, 0, 1, 0x11, 0x11F, false, 0x0⟩,
   ⟨0x200, 0, 1, 0x1A, 0x11F, false, 0x0⟩,
   ⟨0x280, 0, 1, 0x17, 0x11F, false, 0x0⟩,
   ⟨0x104, 128, 4, 0x3, 0x0, false, 0x1000000⟩,
   ⟨0x108, 128, 4, 0x0, 0x0, false, 0x0⟩,
   ⟨0x10C, 128, 4, 0x0, 0x0, false, 0x0⟩,
   ⟨0x110, 0, 1, 0x10000, 0x13FFF, false, 0x0⟩,
   ⟨0x114, 0, 1, 0x10001, 0x13FFF, false, 0x0⟩,
   ⟨0x118, 0, 1, 0x10003, 0x13FFF, false, 0x0⟩,
   ⟨0x11C, 0, 1, 0x10003, 0x13FFF, false, 0x0⟩,
   ⟨0x190, 0, 1, 0x10000, 0x13FFF, false, 0x0⟩,
   ⟨0x194, 0, 1, 0x10001, 0x13FFF, false, 0x0⟩,
   ⟨0x198, 0, 1, 0x0, 0x13FFF, false, 0x0⟩,
   ⟨0x19C, 0, 1, 0x0, 0x13FFF, false, 0x0⟩,
   ⟨0x210, 0, 1, 0x10000, 0x13FFF, false, 0x0⟩,
   ⟨0x214, 0, 1, 0x0, 0x13FFF, false, 0x0⟩,
   ⟨0x218, 0, 1, 0x0, 0x13FFF, false, 0x0⟩,
   ⟨0x21C, 0, 1, 0x0, 0x13FFF, false, 0x0⟩,
   ⟨0x290, 0, 1, 0x10000, 0x13FFF, false, 0x0⟩,
   ⟨0x294, 0, 1, 0x10001, 0x13FFF, false, 0x0⟩,
   ⟨0x298, 0, 1, 0x10001, 0x13FFF, false, 0x0⟩,
   ⟨0x29C, 0, 1, 0x10001, 0x13FFF, false, 0x0⟩,
   ⟨0x140, 4, 16, 0x80, 0xFF, false, 0x0⟩,
   ⟨0x1C0, 4, 16, 0x80, 0xFF, false, 0x0⟩,
   ⟨0x240, 4, 16, 0x80, 0xFF, false, 0x0⟩,
   ⟨0x2C0, 4, 16, 0x80, 0xFF, false, 0x0⟩]

def thmRows : List RegRow :=
  [⟨0x40, 0, 1, 0x0, 0x0, false, 0x0⟩,
   ⟨0x44, 0, 1, 0x0, 0x0, false, 0x0⟩,
   ⟨0x48, 0, 1, 0x3203B6, 0xFFFFFF, false, 0x0⟩,
   ⟨0x4C, 0, 1, 0x3203E8, 0xFFFFFF, false, 0x0⟩,
   ⟨0x50, 0, 1, 0x320460, 0xFFFFFF, false, 0x0⟩,
   ⟨0x54, 0, 1, 0xFFFF0A20, 0xFFFFFF3F, false, 0x0⟩,
   ⟨0x58, 0, 1, 0x0, 0x0, false, 0x0⟩,
   ⟨0x60, 4, 12, 0x0, 0x0, false, 0x0⟩,
   ⟨0x90, 0, 1, 0x0, 0x0, false, 0x0⟩,
   ⟨0xA4, 0, 1, 0xF019, 0xFFF1FFFF, false, 0x0⟩,
   ⟨0xA8, 0, 1, 0xE032, 0xFFF1FFFF, false, 0x0⟩,
   ⟨0xAC, 0, 1, 0x320C064, 0xFFF1FFFF, false, 0x0⟩,
   ⟨0xB0, 0, 1, 0x640A0C8, 0xFFF1FFFF, false, 0x0⟩,
   ⟨0xB4, 0, 1, 0xC808190, 0xFFF1FFFF, false, 0x0⟩,
   ⟨0xB8, 0, 1, 0x1F406320, 0xFFF1FFFF, false, 0x0⟩,
   ⟨0xBC, 0, 1, 0x3E804640, 0xFFF1FFFF, false, 0x0⟩,
   ⟨0xC0, 16, 2, 0x0, 0xFFFF00FF, true, 0x0⟩,
   ⟨0xC4, 16, 2, 0x0, 0xFFFFFFFF, true, 0x0⟩,
   ⟨0xC8, 16, 2, 0x0, 0x0, false, 0x0⟩]

def pwrRows : List RegRow :=
  [⟨0x40, 0, 1, 0x0, 0x7, false, 0x0⟩,
   ⟨0x44, 0, 1, 0x0, 0x0, false, 0x0⟩,
   ⟨0x48, 0, 1, 0x0, 0x0, false, 0x0⟩,
   ⟨0x4C, 0, 1, 0xA03E8, 0xFFFFFF, false, 0x0⟩,
   ⟨0x50, 0, 1, 0x1, 0x0, false, 0x0⟩,
   ⟨0x54, 0, 1, 0x1, 0xFF7, false, 0x0⟩,
   ⟨0x58, 0, 1, 0x3A, 0x7F, false, 0x0⟩,
   ⟨0x5C, 0, 1, 0xFFFFFFFF, 0xFFFFFFFF, false, 0x0⟩,
   ⟨0x60, 0, 1, 0xFFFFFFFF, 0xFFFFFFFF, false, 0x0⟩,
   ⟨0x64, 0, 1, 0x64, 0xFF3FFF, false, 0x0⟩,
   ⟨0x68, 0, 1, 0x0, 0x0, false, 0x0⟩,
   ⟨0x6C, 0, 1, 0x0, 0xFFFF, false, 0x0⟩,
   ⟨0x70, 0, 1, 0x0, 0x0, false, 0x0⟩,
   ⟨0x74, 0, 1, 0x0, 0x0, false, 0x0⟩,
   ⟨0x80, 8, 8, 0x20, 0xFFFF00FF, false, 0x0⟩,
   ⟨0x84, 8, 8, 0x0, 0x0, false, 0x0⟩,
   ⟨0xD0, 0, 1, 0x16, 0x1FFE, false, 0x0⟩,
   ⟨0xD4, 0, 1, 0x0, 0x0, false, 0x0⟩,
   ⟨0xD8, 0, 1, 0xFF, 0x0, false, 0xFF⟩,
   ⟨0xDC, 0, 1, 0x0, 0x0, false, 0x0⟩,
   ⟨0xE0, 4, 8, 0x0, 0x0, false, 0x0⟩,
   ⟨0x100, 0, 1, 0x3203210, 0xFFFFFFFF, true, 0x0⟩,
   ⟨0x110, 0, 1, 0x3203211, 0xFFFFFFFF, true, 0x0⟩,
   ⟨0x120, 0, 1, 0x3203212, 0xFFFFFFFF, true, 0x0⟩,
   ⟨0x130, 0, 1, 0x3203213, 0xFFFFFFFF, true, 0x0⟩,
   ⟨0x140, 0, 1, 0x3203214, 0xFFFFFFFF, true, 0x0⟩,
   ⟨0x150, 0, 1, 0x3203215, 0xFFFFFFFF, true, 0x0⟩,
   ⟨0x160, 0, 1, 0x3203216, 0xFFFFFFFF, true, 0x0⟩,
   ⟨0x170, 0, 1, 0x3203217, 0xFFFFFFFF, true, 0x0⟩,
   ⟨0x180, 0, 1, 0x3203218, 0xFFFFFFFF, true, 0x0⟩,
   ⟨0x190, 0, 1, 0x3203219, 0xFFFFFFFF, true, 0x0⟩,
   ⟨0x1A0, 0, 1, 0x320321A, 0xFFFFFFFF, true, 0x0⟩,
   ⟨0x1B0, 0, 1, 0x320321B, 0xFFFFFFFF, true, 0x0⟩,
   ⟨0x104, 16, 12, 0x0, 0x3F1FFE, true, 0x0⟩,
   ⟨0x108, 16, 12, 0x0, 0x0, false, 0x0⟩]

def bkgRows : List RegRow :=
  [⟨0x40, 0, 1, 0x3FF, 0x3FF, false, 0x0⟩,
   ⟨0x44, 0, 1, 0x0, 0x0, false, 0x0⟩,
   ⟨0x48, 0, 1, 0x0, 0x0, false, 0x0⟩,
   ⟨0x4C, 0, 1, 0x3C, 0xFFFF, false, 0x0⟩,
   ⟨0x50, 0, 1, 0x0, 0xFFFFFFC0, true, 0x0⟩,
   ⟨0x54, 0, 1, 0x0, 0xFF, true, 0x0⟩,
   ⟨0x58, 0, 1, 0x4, 0x1F, true, 0x0⟩,
   ⟨0x5C, 0, 1, 0x0, 0x0, false, 0x0⟩,
   ⟨0x60, 0, 1, 0x0, 0x7F, false, 0x0⟩,
   ⟨0x64, 0, 1, 0x0, 0x0, false, 0x0⟩,
   ⟨0x68, 0, 1, 0x0, 0x0, false, 0x0⟩,
   ⟨0x6C, 0, 1, 0x0, 0x0, false, 0x0⟩,
   ⟨0x70, 0, 1, 0x0, 0x0, false, 0x0⟩,
   ⟨0x80, 8, 16, 0x0, 0x0, false, 0x0⟩,
   ⟨0x84, 8, 16, 0x0, 0x0, false, 0x0⟩]

def adcRows : List RegRow :=
  [⟨0x40, 0, 1, 0x7, 0x0, false, 0x0⟩,
   ⟨0x44, 0, 1, 0x0, 0xFFFFFFFF, false, 0x0⟩,
   ⟨0x48, 0, 1, 0x640010, 0xFFFFFFFF, false, 0x0⟩]

def cvRows : List RegRow :=
  [⟨0x40, 0, 1, 0xFFFF, 0xFFFF, false, 0x0⟩,
   ⟨0x44, 0, 1, 0x80000000, 0x0, false, 0x0⟩,
   ⟨0x48, 0, 1, 0x0, 0x0, false, 0x0⟩,
   ⟨0x80, 4, 16, 0x0, 0x0, false, 0x0⟩]

/-- The register map of the page at frame `f`; `laser` selects the laser map of a port or binding page. -/
def rowsAt (laser : Bool) (f : Nat) : List RegRow :=
  if 0x40200 ≤ f ∧ f < 0x40300 then
    match f % 16 with
    | 0 => chHdrRows | 1 => seqRows | 2 => chjRows
    | 3 => if laser then lpRows else hpRows
    | 4 => if laser then lpbRows else embRows
    | 5 => lkRows | 7 => cnsRows | _ => []
  else if 0x40380 ≤ f ∧ f < 0x40388 then
    chHdrRows ++ chjRows.map (fun r => { r with off := r.off + 0x400 }) ++ stnRows
  else if 0x40401 ≤ f ∧ f < 0x40405 then ldpRows
  else if 0x40501 ≤ f ∧ f < 0x40511 then stpRows
  else if 0x40511 ≤ f ∧ f < 0x40515 then blRows
  else if 0x40515 ≤ f ∧ f < 0x40517 then mbRows
  else if 0x40601 ≤ f ∧ f < 0x40607 then cvRows
  else match f with
    | 0x40000 => rootRows | 0x40020 => pwrRows | 0x40030 => clkRows | 0x40040 => thmRows | 0x40050 => fltRows
    | 0x40060 => fgdRows | 0x40070 => secRows | 0x40080 => timRows | 0x40090 => netRows | 0x400A0 => ddrRows
    | 0x400B0 => srmRows | 0x400C0 => dmaRows | 0x400D0 => qmgRows | 0x400E0 => linRows | 0x400F0 => dmkRows
    | 0x40100 => bltRows | 0x40300 => seqRows | 0x40400 => loopRows | 0x40500 => motRows | 0x40600 => adcRows
    | 0x40780 => bkgRows
    | _ => []

/-- The row of a register map that holds an offset. -/
def rowFind (rows : List RegRow) (off : Nat) : Option RegRow :=
  rows.find? (fun r => if r.count = 1 then r.off == off
    else decide (r.off ≤ off) && decide (off < r.off + r.stride * r.count) && ((off - r.off) % r.stride == 0))

/-- The row of the register at an address (a laser port's by its key). -/
def rowOf (a : Nat) : Option RegRow := rowFind (rowsAt (decide (laserKey ≤ a)) (a % laserKey / 4096)) (a % 4096)

/-- Reset value of a page header's register (R36, R37, R52): everything the directory says of the page, else 0. -/
def headerReset (p : Page) (off : Nat) : Nat :=
  let acl := pageAcl p
  match off with
  | 0x00 => pageType false p * 0x10000 + pageInstance p * 0x100 + 1
  | 0x04 => (if p = .root then 0 else 1) + b2n (! (sootMap false p).isEmpty) * 2
      + (if pageChildren p = 0 then 0 else 4) + b2n (pageSpare p) * 8
  | 0x08 => pageChildren p * 0x10000
  | 0x0C => acl.2.2 * 0x10000 + acl.1 * 0x100 + acl.2.1
  | 0x1C => 0xFFFFFFFF
  | 0x2C => pageSrc p
  | 0x3C => match pageParent p with | some q => pageBase q | none => 0
  | _ => 0

/-- Reset value of the register at an address.  Two registers differ from channel to channel: CH_QUEUES names queues
4n to 4n + 3 (R93, R336), LP_BIND_CFG loops 2n and 2n + 1 (R218). -/
def resetOf (a : Nat) : Word :=
  let off := a % 4096
  let f := a % laserKey / 4096
  if off < 0x40 then
    match pageAt f with
    | some p => BitVec.ofNat 32 (headerReset p off)
    | none => 0
  else match rowOf a with
    | none => 0
    | some r =>
      let n := (f - 0x40200) / 16
      if 0x40200 ≤ f ∧ f < 0x40300 ∧ f % 16 = 0 ∧ off = 0x74 then
        BitVec.ofNat 32 (4 * n + (4 * n + 1) * 0x100 + (4 * n + 2) * 0x10000 + (4 * n + 3) * 0x1000000)
      else if laserKey ≤ a ∧ f % 16 = 4 ∧ off = 0x40 then
        BitVec.ofNat 32 (2 * n + (2 * n + 1) * 0x100 + 0x30000)
      else BitVec.ofNat 32 r.reset

end Sys2Proof.Machine
end

