-- ==== Sys2Proof/Machine/Tables.lean ====
section
/-! DEFINITION. Sparse tables: look-up, update and the canonical form; and small list operations shared by the units. -/
namespace Sys2Proof.Machine

/-- The value of key `k`: the first entry that lists it, else the default. -/
def tabGet {α : Type} (d : α) : Tab α → Nat → α
  | [], _ => d
  | (k', v) :: t, k => if k' = k then v else tabGet d t k

/-- The table without key `k`. -/
def tabErase {α : Type} (t : Tab α) (k : Nat) : Tab α := t.filter (fun e => e.1 != k)

/-- The table with `(k, v)` before the first greater key. -/
def tabIns {α : Type} : Tab α → Nat → α → Tab α
  | [], k, v => [(k, v)]
  | (k', v') :: t, k, v => if k' < k then (k', v') :: tabIns t k v else (k, v) :: (k', v') :: t

/-- The table with key `k` at value `v`; a value equal to the default is not listed. -/
def tabPut {α : Type} [DecidableEq α] (d : α) (t : Tab α) (k : Nat) (v : α) : Tab α :=
  if v = d then tabErase t k else tabIns (tabErase t k) k v

/-- Keys strictly rising. -/
def tabSorted {α : Type} : Tab α → Bool
  | [] => true
  | [_] => true
  | (k, _) :: (k', v') :: t => decide (k < k') && tabSorted ((k', v') :: t)

/-- The canonical form of a table whose key `k` has default `d k`: keys strictly rising, no entry at its default. -/
def tabWf {α : Type} [DecidableEq α] (d : Nat → α) (t : Tab α) : Bool :=
  tabSorted t && t.all (fun e => decide (e.2 ≠ d e.1))

/-- The list with element `k` replaced, unchanged when it has no such element. -/
def listSet {α : Type} : List α → Nat → α → List α
  | [], _, _ => []
  | _ :: t, 0, v => v :: t
  | a :: t, k + 1, v => a :: listSet t k v

/-- `f` applied for each number of `0 … n - 1` in ascending order. -/
def forN {σ : Type} : Nat → (Nat → σ → σ) → σ → σ
  | 0, _, s => s
  | n + 1, f, s => f n (forN n f s)

/-- `f` applied for each element of a list in order. -/
def forL {α σ : Type} : List α → (α → σ → σ) → σ → σ
  | [], _, s => s
  | a :: t, f, s => forL t f (f a s)

/-- The numbers below `n` that satisfy `p`, ascending. -/
def numsWhere (n : Nat) (p : Nat → Bool) : List Nat := (List.range n).filter p

/-- The least number below `n` that satisfies `p`. -/
def leastWhere (n : Nat) (p : Nat → Bool) : Option Nat := (List.range n).find? p

/-- Insertion by a key, before the first element with a greater key: equal keys keep their order of arrival. -/
def insertBy {α : Type} (key : α → Nat) (a : α) : List α → List α
  | [] => [a]
  | b :: t => if key a < key b then a :: b :: t else b :: insertBy key a t

/-- Sorting by a key, stable. -/
def sortBy {α : Type} (key : α → Nat) : List α → List α
  | [] => []
  | a :: t => insertBy key a (sortBy key t)

end Sys2Proof.Machine
end

