-- ==== Sys2Proof/Machine/Ops.lean ====
section
/-! DEFINITION. The named operations over registers, memory, time and the units' state. -/
namespace Sys2Proof.Machine

/-- The three outcomes of a step of this block. -/
abbrev Out := Host.Outcome State Fault Refusal

/-- Ticks of 2.5 ns in a microsecond, a millisecond and a second (R5). -/
def usT : Nat := 400
def msT : Nat := 400000
def secT : Nat := 400000000

/-- The TSC: whole counts of the accumulator (R12, R352). -/
def State.now (s : State) : Nat := s.tim.tscAcc / 2 ^ 32

/-- The present tick as a 64-bit stamp. -/
def State.stamp (s : State) : BitVec 64 := BitVec.ofNat 64 s.now

/-- A deadline that has come. -/
def State.due (s : State) : Option Nat → Bool
  | some t => decide (t ≤ s.now)
  | none => false

/-! ### Registers -/

/-- The register at an address. -/
def State.rd (s : State) (a : Nat) : Word := tabGet (resetOf a) s.regs a

/-- The register at an address set to `v`: the one operation that writes a register. -/
def State.wr (s : State) (a : Nat) (v : Word) : State := { s with regs := tabPut (resetOf a) s.regs a v }

/-- Field [hi:lo] of a register, unsigned; signed; a bit; the whole as a number. -/
def State.rdf (s : State) (a hi lo : Nat) : Nat := fld (s.rd a) hi lo
def State.rds (s : State) (a hi lo : Nat) : Int := sfld (s.rd a) hi lo
def State.rdb (s : State) (a i : Nat) : Bool := bit (s.rd a) i
def State.rdn (s : State) (a : Nat) : Nat := (s.rd a).toNat

/-- Field [hi:lo], or bit `i`, of a register set. -/
def State.wrf (s : State) (a hi lo v : Nat) : State := s.wr a (setFld (s.rd a) hi lo v)
def State.wrb (s : State) (a i : Nat) (b : Bool) : State := s.wr a (setBit (s.rd a) i b)

/-- A signed value written to field [hi:lo]. -/
def State.wrs (s : State) (a hi lo : Nat) (v : Int) : State := s.wrf a hi lo (wrapN (hi + 1 - lo) v)

/-- A 64-bit number in a pair of registers. -/
def State.rd64 (s : State) (lo hi : Nat) : Nat := s.rdn lo + s.rdn hi * 2 ^ 32
def State.wr64 (s : State) (lo hi n : Nat) : State := (s.wr lo (loW n)).wr hi (hiW n)

/-- Whether FREEZE_STATS holds the statistics of the page of a register (R37). -/
def State.frozen (s : State) (a : Nat) : Bool := s.rdb (a % laserKey / 4096 * 4096 + 0x10) 2

/-- `n` added to a statistic in field [hi:lo], saturating (R37). -/
def State.cntN (s : State) (a hi lo n : Nat) : State :=
  if s.frozen a then s else s.wrf a hi lo (satN (2 ^ (hi + 1 - lo) - 1) (s.rdf a hi lo + n))

/-- One added to a statistic, saturating. -/
def State.cnt (s : State) (a hi lo : Nat) : State := s.cntN a hi lo 1

/-- One added to a 32-bit statistic that wraps. -/
def State.cntW (s : State) (a : Nat) : State := if s.frozen a then s else s.wr a (s.rd a + 1)

/-- The larger of a field and `n` kept (a high-water mark). -/
def State.peak (s : State) (a hi lo n : Nat) : State :=
  if s.rdf a hi lo < n then s.wrf a hi lo (satN (2 ^ (hi + 1 - lo) - 1) n) else s

/-- Every register whose address satisfies `p` at its reset value. -/
def State.resetRegs (s : State) (p : Nat → Bool) : State := { s with regs := s.regs.filter (fun e => ! p e.1) }

/-! ### Memory and flash -/

/-- What a byte of memory that nothing has written reads as (DESIGN CHOICE, log entry 4). -/
def memBlank : Byte := 0

/-- What a byte of boot flash that nothing has written reads as (PRESUMED, log entry 4). -/
def flashBlank : Byte := 0xFF

/-- One byte of memory; `n` bytes from an address. -/
def State.rdByte (s : State) (a : Nat) : Byte := tabGet memBlank s.mem a
def State.rdMem (s : State) (a n : Nat) : List Byte := (List.range n).map (fun i => s.rdByte (a + i))

/-- One byte of memory written; bytes written from an address up. -/
def State.wrByte (s : State) (a : Nat) (b : Byte) : State := { s with mem := tabPut memBlank s.mem a b }
def State.wrMem (s : State) (a : Nat) : List Byte → State
  | [] => s
  | b :: t => (s.wrByte a b).wrMem (a + 1) t

/-- The little-endian number in `n` bytes of memory (R4). -/
def State.rdLe (s : State) (a n : Nat) : Nat := ofLe (s.rdMem a n)

/-- Memory with the range from `a` of `n` bytes blank. -/
def State.eraseMem (s : State) (a n : Nat) : State :=
  { s with mem := s.mem.filter (fun e => ! (decide (a ≤ e.1) && decide (e.1 < a + n))) }

/-- Boot-flash bytes. -/
def State.flashRd (s : State) (a n : Nat) : List Byte := (List.range n).map (fun i => tabGet flashBlank s.flash (a + i))

/-- The canonical form of a byte memory whose unlisted addresses read `d`. -/
def Memory.wf (d : Byte) (m : List Host.Cell) : Bool := tabWf (fun _ => d) m

/-! ### Free values -/

/-- The next free word, byte, number or choice, and the state with the counter advanced. -/
def State.drawWord (s : State) : Word × State := (Config.freeWord s.free, { s with free := s.free + 1 })
def State.drawNat (s : State) : Nat × State := (Config.freeNat s.free, { s with free := s.free + 1 })
def State.drawBool (s : State) : Bool × State := (Config.freeBool s.free, { s with free := s.free + 1 })
def State.drawBytes (s : State) (n : Nat) : List Byte × State :=
  ((List.range n).map (fun i => Config.freeByte (s.free + i)), { s with free := s.free + n })

/-! ### The units' tables -/

/-- Physical encoder `k`. -/
def State.enc (s : State) (k : Nat) : EncState := tabGet EncState.reset s.lin.encs k
def State.setEnc (s : State) (k : Nat) (v : EncState) : State :=
  { s with lin := { s.lin with encs := tabPut EncState.reset s.lin.encs k v } }
def State.updEnc (s : State) (k : Nat) (f : EncState → EncState) : State := s.setEnc k (f (s.enc k))

/-- Virtual encoder `k`. -/
def State.venc (s : State) (k : Nat) : VencState := tabGet VencState.reset s.lin.vencs k
def State.setVenc (s : State) (k : Nat) (v : VencState) : State :=
  { s with lin := { s.lin with vencs := tabPut VencState.reset s.lin.vencs k v } }
def State.updVenc (s : State) (k : Nat) (f : VencState → VencState) : State := s.setVenc k (f (s.venc k))

/-- Product-detect input `k`. -/
def State.pd (s : State) (k : Nat) : PdState := tabGet PdState.reset s.lin.pds k
def State.setPd (s : State) (k : Nat) (v : PdState) : State :=
  { s with lin := { s.lin with pds := tabPut PdState.reset s.lin.pds k v } }
def State.updPd (s : State) (k : Nat) (f : PdState → PdState) : State := s.setPd k (f (s.pd k))

/-- Tracking entry `k`. -/
def State.trk (s : State) (k : Nat) : TrkEntry := tabGet TrkEntry.reset s.lin.trk k
def State.setTrk (s : State) (k : Nat) (v : TrkEntry) : State :=
  { s with lin := { s.lin with trk := tabPut TrkEntry.reset s.lin.trk k v } }
def State.updTrk (s : State) (k : Nat) (f : TrkEntry → TrkEntry) : State := s.setTrk k (f (s.trk k))

/-- Reject output `k`. -/
def State.rej (s : State) (k : Nat) : RejState := tabGet RejState.reset s.lin.rejs k
def State.setRej (s : State) (k : Nat) (v : RejState) : State :=
  { s with lin := { s.lin with rejs := tabPut RejState.reset s.lin.rejs k v } }
def State.updRej (s : State) (k : Nat) (f : RejState → RejState) : State := s.setRej k (f (s.rej k))

/-- Channel `k`. -/
def State.chan (s : State) (k : Nat) : ChanState := tabGet ChanState.reset s.jobs.chans k
def State.setChan (s : State) (k : Nat) (v : ChanState) : State :=
  { s with jobs := { s.jobs with chans := tabPut ChanState.reset s.jobs.chans k v } }
def State.updChan (s : State) (k : Nat) (f : ChanState → ChanState) : State := s.setChan k (f (s.chan k))

/-- Sequencer `k`. -/
def State.seq (s : State) (k : Nat) : SeqState := tabGet SeqState.reset s.jobs.seqs k
def State.setSeq (s : State) (k : Nat) (v : SeqState) : State :=
  { s with jobs := { s.jobs with seqs := tabPut SeqState.reset s.jobs.seqs k v } }
def State.updSeq (s : State) (k : Nat) (f : SeqState → SeqState) : State := s.setSeq k (f (s.seq k))

/-- Station `k`. -/
def State.stn (s : State) (k : Nat) : StnState := tabGet StnState.reset s.jobs.stns k
def State.setStn (s : State) (k : Nat) (v : StnState) : State :=
  { s with jobs := { s.jobs with stns := tabPut StnState.reset s.jobs.stns k v } }
def State.updStn (s : State) (k : Nat) (f : StnState → StnState) : State := s.setStn k (f (s.stn k))

/-- Render engine `k`. -/
def State.engine (s : State) (k : Nat) : EngineState := tabGet EngineState.reset s.dmk.engines k
def State.setEngine (s : State) (k : Nat) (v : EngineState) : State :=
  { s with dmk := { s.dmk with engines := tabPut EngineState.reset s.dmk.engines k v } }
def State.updEngine (s : State) (k : Nat) (f : EngineState → EngineState) : State := s.setEngine k (f (s.engine k))

/-- Template slot `k`. -/
def State.tplSlot (s : State) (k : Nat) : Option Template := tabGet none s.dmk.slots k
def State.setTplSlot (s : State) (k : Nat) (v : Option Template) : State :=
  { s with dmk := { s.dmk with slots := tabPut none s.dmk.slots k v } }

/-- Serial counter `k`. -/
def State.serial (s : State) (k : Nat) : SerialState := tabGet SerialState.reset s.dmk.serials k
def State.setSerial (s : State) (k : Nat) (v : SerialState) : State :=
  { s with dmk := { s.dmk with serials := tabPut SerialState.reset s.dmk.serials k v } }
def State.updSerial (s : State) (k : Nat) (f : SerialState → SerialState) : State := s.setSerial k (f (s.serial k))

/-- General counter `k`. -/
def State.counter (s : State) (k : Nat) : CounterSeen := tabGet CounterSeen.reset s.dmk.counters k
def State.setCounter (s : State) (k : Nat) (v : CounterSeen) : State :=
  { s with dmk := { s.dmk with counters := tabPut CounterSeen.reset s.dmk.counters k v } }
def State.updCounter (s : State) (k : Nat) (f : CounterSeen → CounterSeen) : State := s.setCounter k (f (s.counter k))

/-- Thermal port of channel `k`. -/
def State.therm (s : State) (k : Nat) : ThermState := tabGet ThermState.reset s.thermal.ports k
def State.setTherm (s : State) (k : Nat) (v : ThermState) : State :=
  { s with thermal := { s.thermal with ports := tabPut ThermState.reset s.thermal.ports k v } }
def State.updTherm (s : State) (k : Nat) (f : ThermState → ThermState) : State := s.setTherm k (f (s.therm k))

/-- Tag unit of channel `k`. -/
def State.tag (s : State) (k : Nat) : TagState := tabGet TagState.reset s.thermal.tags k
def State.setTag (s : State) (k : Nat) (v : TagState) : State :=
  { s with thermal := { s.thermal with tags := tabPut TagState.reset s.thermal.tags k v } }
def State.updTag (s : State) (k : Nat) (f : TagState → TagState) : State := s.setTag k (f (s.tag k))

/-- Laser port of channel `k`. -/
def State.las (s : State) (k : Nat) : LaserState := tabGet LaserState.reset s.laser k
def State.setLas (s : State) (k : Nat) (v : LaserState) : State :=
  { s with laser := tabPut LaserState.reset s.laser k v }
def State.updLas (s : State) (k : Nat) (f : LaserState → LaserState) : State := s.setLas k (f (s.las k))

/-- Loop `k`. -/
def State.loop (s : State) (k : Nat) : LoopState := tabGet LoopState.reset s.loops.loops k
def State.setLoop (s : State) (k : Nat) (v : LoopState) : State :=
  { s with loops := { s.loops with loops := tabPut LoopState.reset s.loops.loops k v } }
def State.updLoop (s : State) (k : Nat) (f : LoopState → LoopState) : State := s.setLoop k (f (s.loop k))

/-- Stepper port `k`. -/
def State.step_ (s : State) (k : Nat) : StepperState := tabGet StepperState.reset s.drives.steppers k
def State.setStep_ (s : State) (k : Nat) (v : StepperState) : State :=
  { s with drives := { s.drives with steppers := tabPut StepperState.reset s.drives.steppers k v } }
def State.updStep_ (s : State) (k : Nat) (f : StepperState → StepperState) : State := s.setStep_ k (f (s.step_ k))

/-- BLDC port `k`. -/
def State.bldc (s : State) (k : Nat) : BldcState := tabGet BldcState.reset s.drives.bldcs k
def State.setBldc (s : State) (k : Nat) (v : BldcState) : State :=
  { s with drives := { s.drives with bldcs := tabPut BldcState.reset s.drives.bldcs k v } }
def State.updBldc (s : State) (k : Nat) (f : BldcState → BldcState) : State := s.setBldc k (f (s.bldc k))

/-- Motor bus `k`. -/
def State.mbus (s : State) (k : Nat) : BusState := tabGet BusState.reset s.drives.buses k
def State.setMbus (s : State) (k : Nat) (v : BusState) : State :=
  { s with drives := { s.drives with buses := tabPut BusState.reset s.drives.buses k v } }
def State.updMbus (s : State) (k : Nat) (f : BusState → BusState) : State := s.setMbus k (f (s.mbus k))

/-- Link of channel `k`. -/
def State.lnk (s : State) (k : Nat) : LinkState := tabGet LinkState.reset s.link k
def State.setLnk (s : State) (k : Nat) (v : LinkState) : State :=
  { s with link := tabPut LinkState.reset s.link k v }
def State.updLnk (s : State) (k : Nat) (f : LinkState → LinkState) : State := s.setLnk k (f (s.lnk k))

/-- DMA channel `k`. -/
def State.dch (s : State) (k : Nat) : DmaChan := tabGet DmaChan.reset s.dma.chans k
def State.setDch (s : State) (k : Nat) (v : DmaChan) : State :=
  { s with dma := { s.dma with chans := tabPut DmaChan.reset s.dma.chans k v } }
def State.updDch (s : State) (k : Nat) (f : DmaChan → DmaChan) : State := s.setDch k (f (s.dch k))

/-- Content ring of channel `k`. -/
def State.ring (s : State) (k : Nat) : RingState := tabGet RingState.reset s.dma.rings k
def State.setRing (s : State) (k : Nat) (v : RingState) : State :=
  { s with dma := { s.dma with rings := tabPut RingState.reset s.dma.rings k v } }
def State.updRing (s : State) (k : Nat) (f : RingState → RingState) : State := s.setRing k (f (s.ring k))

/-- Bolt lane `k`. -/
def State.lane (s : State) (k : Nat) : LaneUse := tabGet LaneUse.idle s.dma.lanes k
def State.setLane (s : State) (k : Nat) (v : LaneUse) : State :=
  { s with dma := { s.dma with lanes := tabPut LaneUse.idle s.dma.lanes k v } }
def State.updLane (s : State) (k : Nat) (f : LaneUse → LaneUse) : State := s.setLane k (f (s.lane k))

/-- Record chain of channel `k`. -/
def State.chain (s : State) (k : Nat) : ChainHead := tabGet ChainHead.reset s.sec.chains k
def State.setChain (s : State) (k : Nat) (v : ChainHead) : State :=
  { s with sec := { s.sec with chains := tabPut ChainHead.reset s.sec.chains k v } }
def State.updChain (s : State) (k : Nat) (f : ChainHead → ChainHead) : State := s.setChain k (f (s.chain k))

/-- Interlock `k`. -/
def State.ilk (s : State) (k : Nat) : IlkState := tabGet IlkState.reset s.fgd.ilks k
def State.setIlk (s : State) (k : Nat) (v : IlkState) : State :=
  { s with fgd := { s.fgd with ilks := tabPut IlkState.reset s.fgd.ilks k v } }
def State.updIlk (s : State) (k : Nat) (f : IlkState → IlkState) : State := s.setIlk k (f (s.ilk k))

/-- Fault source `k`. -/
def State.src (s : State) (k : Nat) : SrcState := tabGet SrcState.reset s.flt.srcs k
def State.setSrc (s : State) (k : Nat) (v : SrcState) : State :=
  { s with flt := { s.flt with srcs := tabPut SrcState.reset s.flt.srcs k v } }
def State.updSrc (s : State) (k : Nat) (f : SrcState → SrcState) : State := s.setSrc k (f (s.src k))

/-- Synthesiser `k`. -/
def State.syn (s : State) (k : Nat) : SynState := tabGet SynState.reset s.clk.syns k
def State.setSyn (s : State) (k : Nat) (v : SynState) : State :=
  { s with clk := { s.clk with syns := tabPut SynState.reset s.clk.syns k v } }
def State.updSyn (s : State) (k : Nat) (f : SynState → SynState) : State := s.setSyn k (f (s.syn k))

/-- Die sensor `k`. -/
def State.die (s : State) (k : Nat) : DieState := tabGet DieState.reset s.thm.dies k
def State.setDie (s : State) (k : Nat) (v : DieState) : State :=
  { s with thm := { s.thm with dies := tabPut DieState.reset s.thm.dies k v } }
def State.updDie (s : State) (k : Nat) (f : DieState → DieState) : State := s.setDie k (f (s.die k))

/-- Rail slot `k`. -/
def State.slot (s : State) (k : Nat) : SlotState := tabGet SlotState.reset s.pwr.slots k
def State.setSlot (s : State) (k : Nat) (v : SlotState) : State :=
  { s with pwr := { s.pwr with slots := tabPut SlotState.reset s.pwr.slots k v } }
def State.updSlot (s : State) (k : Nat) (f : SlotState → SlotState) : State := s.setSlot k (f (s.slot k))

/-- Converter `k`. -/
def State.conv (s : State) (k : Nat) : ConvState := tabGet ConvState.reset s.bkg.convs k
def State.setConv (s : State) (k : Nat) (v : ConvState) : State :=
  { s with bkg := { s.bkg with convs := tabPut ConvState.reset s.bkg.convs k v } }
def State.updConv (s : State) (k : Nat) (f : ConvState → ConvState) : State := s.setConv k (f (s.conv k))

/-- Queue `q`'s state at the reset of PD4: the fixed sizes of R336 and a watermark of 0, disabled. -/
def queueReset (q : Nat) : QueueState :=
  { en := false, log2 := 4, esize := if q < 64 then (if q % 4 = 2 then 64 else 16) else if q < 96 then 32 else if q < 112 then 16
      else if q < 120 then 32 else 16, base := 0, hi := 0,
    lo := 0, head := 0, tail := 0, resv := 0, drop := 0, movePending := false, spare := none, roles := [] }

/-- Queue `q`. -/
def State.queue (s : State) (q : Nat) : QueueState := tabGet (queueReset q) s.dma.queues q
def State.setQueue (s : State) (q : Nat) (v : QueueState) : State :=
  { s with dma := { s.dma with queues := tabPut (queueReset q) s.dma.queues q v } }
def State.updQueue (s : State) (q : Nat) (f : QueueState → QueueState) : State := s.setQueue q (f (s.queue q))

/-- Job entry `j` of channel `n` (R95). -/
def State.job (s : State) (n j : Nat) : JobEntry := tabGet JobEntry.reset (s.chan n).jobs j
def State.setJob (s : State) (n j : Nat) (v : JobEntry) : State :=
  s.updChan n (fun c => { c with jobs := tabPut JobEntry.reset c.jobs j v })
def State.updJob (s : State) (n j : Nat) (f : JobEntry → JobEntry) : State := s.setJob n j (f (s.job n j))

/-- Station job `j` of station `k` (R117). -/
def State.stnJob (s : State) (k j : Nat) : StnJob := tabGet StnJob.reset (s.stn k).jobs j
def State.setStnJob (s : State) (k j : Nat) (v : StnJob) : State :=
  s.updStn k (fun c => { c with jobs := tabPut StnJob.reset c.jobs j v })

/-! ### Power and modes -/

/-- Whether a power domain is on (R44, R478); 0 is the always-on domain. -/
def State.domOn (s : State) (d : Nat) : Bool := d == 0 || s.rdb Reg.pwrDomStat d

/-- Whether a page's domain is on. -/
def State.powered (s : State) (p : Page) : Bool := s.domOn (pageDomain p)

/-- Channel `n` is in laser mode (R10, CH_CFG.MODE). -/
def State.isLaser (s : State) (n : Nat) : Bool := s.rdb (Reg.chCfg n) 0

/-- A page's PG_CTRL.ENABLE (R37). -/
def State.enabled (s : State) (p : Page) : Bool := s.rdb (Reg.pgCtrl p) 0

/-- PG_STAT.STATE and the other status bits of a page (R37, R39). -/
def State.setStat (s : State) (p : Page) (v : Nat) : State := s.wrf (Reg.pgStat p) 7 4 v
def State.pgState (s : State) (p : Page) : Nat := s.rdf (Reg.pgStat p) 7 4

/-- A page of channel `n`. -/
def chPage (n k : Nat) : Page := .ch (Fin.ofNat 16 n) (Fin.ofNat 8 k)
def seqPage (n : Nat) : Page := if n = 16 then .spareSeq else chPage n 1

/-- The state with an empty bus response. -/
def State.respond (s : State) (err : Bool) (d : Word) : State := { s with resp := ⟨err, d⟩ }

/-- The canonical form of the whole state: every table and memory in it. -/
def State.wf (s : State) : Bool :=
  tabWf resetOf s.regs && Memory.wf memBlank s.mem && Memory.wf flashBlank s.flash

end Sys2Proof.Machine
end

