-- ==== Sys2Proof/Machine/Flags.lean ====
section
/-! DEFINITION. Status flags: interrupt status (R37, R48), soot bits (R55), and how the fault collector takes an event of a
source (R427 to R430, R437). -/
namespace Sys2Proof.Machine

/-- Block interrupt bit `b` of a page set in PG_IRQ_STAT (R37); a page whose domain is off keeps its reset value (R44). -/
def State.irq (s : State) (p : Page) (b : Nat) : State := if s.powered p then s.wrb (Reg.pgIrqStat p) b true else s

/-- A page's interrupt output: PG_IRQ_STAT AND PG_IRQ_EN, while its domain is on (R44, R48). -/
def State.irqLine (s : State) (p : Page) : Bool :=
  s.powered p && (s.rd (Reg.pgIrqStat p) &&& s.rd (Reg.pgIrqEn p)) != 0

/-! ### Sources -/

/-- Class codes (R420). -/
def clsInfo : Nat := 0
def clsMinor : Nat := 1
def clsSevere : Nat := 2
def clsCritical : Nat := 3

/-- The default class of a source: the highest class of the soot bits mapped to it, by the channel's mode for a channel
source; 254 is MINOR (R51); the fixed ones of R437. -/
def State.defaultClass (s : State) (src : Nat) : Nat :=
  if src ≤ 8 ∨ src = 10 ∨ src = 11 ∨ src = 12 then clsCritical
  else if src = 9 then clsSevere
  else if src = 254 then clsMinor
  else
    let laser := s.isLaser ((src - 96) / 8)
    (pagesOfSrc src).foldl
      (fun m p => (sootMap (laser && decide (96 ≤ src ∧ src < 224)) p).foldl
        (fun m e => if e.2.1 = src then Nat.max m e.2.2 else m) m) 0

/-- The entry of a source until CFG_OK is set: its default class, GRACE 10 ms, N 8, W 1 s, QUIET 1 s, CH_MASK 0, and the
steps of R437. -/
def State.defaultCfg (s : State) (src : Nat) : SrcCfg :=
  let cls := s.defaultClass src
  let manual := decide (2 ≤ src ∧ src ≤ 5) || src == 10
  let step := if src ≤ 7 ∨ src = 10 ∨ src = 11 ∨ src = 12 then 2
    else if 96 ≤ src ∧ src < 224 ∧ 2 ≤ cls then 1 else 0
  ⟨BitVec.ofNat 32 (cls + b2n manual * 4 + step * 8 + step * 32 + 8 * 0x100 + 10 * 0x10000),
    BitVec.ofNat 32 (1 + 0x4000 + 100 * 0x10000), 0⟩

/-- FGD_STAT.CFG_OK (R421, R440). -/
def State.cfgOk (s : State) : Bool := s.rdb Reg.fgdStat 0

/-- The entry in force of a source (R437). -/
def State.srcCfg (s : State) (src : Nat) : SrcCfg :=
  match s.cfgOk, (s.src src).cfg with
  | true, some c => c
  | _, _ => s.defaultCfg src

/-- Fields of a source's entry (R420); times in ticks. -/
def SrcCfg.cls (c : SrcCfg) : Nat := fld c.w0 1 0
def SrcCfg.manual (c : SrcCfg) : Bool := bit c.w0 2
def SrcCfg.first (c : SrcCfg) : Nat := fld c.w0 4 3
def SrcCfg.last (c : SrcCfg) : Nat := fld c.w0 6 5
def SrcCfg.promoteN (c : SrcCfg) : Nat := fld c.w0 15 8
def SrcCfg.grace (c : SrcCfg) : Nat := fld c.w0 23 16 * msT
def SrcCfg.window (c : SrcCfg) : Nat := fld c.w1 13 0 * (if fld c.w1 15 14 = 1 then secT else msT)
def SrcCfg.quiet (c : SrcCfg) : Nat := fld c.w1 31 16 * 10 * msT
def SrcCfg.chMask (c : SrcCfg) : Nat := fld c.w2 15 0

/-- Whether some soot bit mapped to a source is 1 and unmasked on a page whose domain is on: the error pin (R55). -/
def State.srcPin (s : State) (src : Nat) : Bool :=
  (pagesOfSrc src).any (fun p =>
    s.powered p &&
    (sootMap (match p with | .ch n _ => s.isLaser n.val | _ => false) p).any (fun e =>
      e.2.1 == src && bit (s.rd (Reg.pgSoot p) &&& s.rd (Reg.pgSootMask p)) e.1))

/-- PG_STAT.FAULTED of the pages of a source: the collector holds a source of theirs LATCHED (R37). -/
def State.setFaulted (s : State) (src : Nat) : State :=
  forL (pagesOfSrc src) (fun p s =>
    let laser := match p with | .ch n _ => s.isLaser n.val | _ => false
    s.wrb (Reg.pgStat p) 2 ((sootMap laser p).any (fun e => (s.src e.2.1).latched))) s

/-- An action noted in the collector's log of 32, the newest replacing the oldest (R441). -/
def State.fltLog (s : State) (src kind : Nat) : State :=
  let e : FltLog := ⟨src, kind, s.stamp⟩
  let full := decide (32 ≤ s.flt.log.length)
  let log := (if full then s.flt.log.drop 1 else s.flt.log) ++ [e]
  let s := { s with flt := { s.flt with log := log } }
  let s := if full then s.cnt Reg.fltLogStat 31 16 else s
  let s := s.wrf Reg.fltLogStat 10 5 log.length
  s.wrf Reg.fltLogStat 4 0 (if full then (s.rdf Reg.fltLogStat 4 0 + 1) % 32 else log.length - 1)

/-- FLT_SOOT, FLT_PIN and the LATCHED count as a source's state says (R427). -/
def State.showSrc (s : State) (src : Nat) : State :=
  let x := s.src src
  let was := s.rdb (Reg.fltSoot (src / 32)) (src % 32)
  let s := s.wrb (Reg.fltSoot (src / 32)) (src % 32) x.latched
  let s := s.wrb (Reg.fltPin (src / 32)) (src % 32) x.pin
  let s := s.wrf Reg.fltStat 24 16 (s.rdf Reg.fltStat 24 16 + b2n x.latched - b2n was)
  s.setFaulted src

/-- Whether a source reacts: SEVERE, CRITICAL or PROMOTED (R428, R429). -/
def State.reacting (s : State) (src : Nat) : Bool :=
  decide (clsSevere ≤ (s.srcCfg src).cls) || (s.src src).promoted

/-- Whether a source has a step left to take (R430, R431). -/
def SrcState.belowLast (x : SrcState) (c : SrcCfg) : Bool :=
  if x.taken then decide (x.step < c.last) else c.last != 0

/-- An event of a source reaches the collector (R427 to R430): it latches and counts; a MINOR source counts it in its
window and may become PROMOTED; a reacting source below LAST starts its grace timer unless one runs.  While PD1 is off
no event is taken. -/
def State.srcEvent (s : State) (src : Nat) : State :=
  if ! s.domOn 1 then s else
  let c := s.srcCfg src
  let x := s.src src
  let pin := s.srcPin src
  let window := if c.cls = clsMinor then s.now :: x.window.filter (fun t => decide (s.now - t < c.window)) else x.window
  let promotes := c.cls == clsMinor && ! x.promoted && decide (c.promoteN ≤ window.length)
  let x1 : SrcState := { x with
    latched := true, releasable := false, pin := pin, window := window, promoted := x.promoted || promotes,
    events := if x.events = 0xFFFF then x.events else x.events + 1, stamp := s.stamp,
    quietAt := if pin then none else some (s.now + c.quiet) }
  let reacts := decide (clsSevere ≤ c.cls) || x1.promoted
  let starts := reacts && x1.belowLast c && x1.graceAt.isNone
  let x2 : SrcState := if starts then
      { x1 with acked := false, graceAt := some (s.now + (if c.cls = clsCritical then 0 else c.grace)) }
    else x1
  let s := (s.setSrc src x2).fltLog src 1
  let s := s.irq .flt 0
  let s := if promotes then (s.fltLog src 9).irq .flt 6 else s
  let s := if starts then (s.fltLog src 2).irq .flt 1 else s
  s.showSrc src

/-- The pin of a source re-read after soot or masks changed: a fall starts the quiet timer, a rise stops it (R435). -/
def State.pinUpdate (s : State) (src : Nat) : State :=
  let x := s.src src
  let pin := s.srcPin src
  if pin = x.pin then s else
  let x' : SrcState := { x with
    pin := pin,
    quietAt := if pin then none else if x.latched && ! x.releasable then some (s.now + (s.srcCfg src).quiet) else none }
  (s.setSrc src x').showSrc src

/-- The pins of every source a page drives re-read. -/
def State.pinsOf (s : State) (p : Page) : State :=
  let laser := match p with | .ch n _ => s.isLaser n.val | _ => false
  forL ((sootMap laser p).map (fun e => e.2.1)).eraseDups (fun src s => s.pinUpdate src) s

/-- What a soot bit leaves in its page's header (R55): PG_SOOT, the stamp, SOOT_IRQ, PG_ERRCNT unless FREEZE_STATS. -/
def State.sootMark (s : State) (p : Page) (b : Nat) : State :=
  (((s.wrb (Reg.pgSoot p) b true).wr64 (Reg.pgStampLo p) (Reg.pgStampHi p) s.now).wrb (Reg.pgIrqStat p) 31 true).cnt
    (Reg.pgErrcnt p) 15 0

/-- Soot bit `b` of a page sets (R55): its marks in the header, and, unless the bit is masked, the event of its source
(R56, R427). -/
def State.soot (s : State) (p : Page) (b : Nat) : State :=
  if ! s.powered p then s else
  let s := s.sootMark p b
  match sootOf (match p with | .ch n _ => s.isLaser n.val | _ => false) p b with
  | none => s
  | some (src, _) => if s.rdb (Reg.pgSootMask p) b then s.srcEvent src else s

/-- A soot bit cleared by the block itself, with its pin re-read (R410, R435). -/
def State.sootOff (s : State) (p : Page) (b : Nat) : State := (s.wrb (Reg.pgSoot p) b false).pinsOf p

/-! ### The safe states as the collector holds them -/

/-- A source holds CHANNEL_SAFE for channel `n` (R431). -/
def State.srcHoldsChannel (s : State) (n : Nat) : Bool :=
  s.flt.srcs.any (fun e =>
    e.2.step == 1 &&
    (if 96 ≤ e.1 ∧ e.1 < 224 then decide ((e.1 - 96) / 8 = n) else (s.srcCfg e.1).chMask.testBit n))

/-- The part is in DEVICE_SAFE (R432): a source holds it, or one of the hardware holds does (R402, R417, R434, R461). -/
def State.deviceSafe (s : State) : Bool := s.rdb Reg.fltStat 0

/-- What would keep the part in DEVICE_SAFE. -/
def State.deviceHeld (s : State) : Bool := ! s.flt.holds.isEmpty || s.flt.srcs.any (fun e => e.2.step == 2)

/-- FLT_STAT.CLOCK_HOLD: the clock-loss or the bypass force is in place (R415). -/
def State.clockHold (s : State) : Bool := s.flt.clockForce || s.flt.bypassForce

/-- Channel `n` is in CHANNEL_SAFE (FLT_CH_SAFE), or the whole part is in DEVICE_SAFE: admissions are INHIBITED (R105). -/
def State.chanSafe (s : State) (n : Nat) : Bool := s.rdb Reg.fltChSafe n
def State.inSafe (s : State) (n : Nat) : Bool := s.chanSafe n || s.deviceSafe

end Sys2Proof.Machine
end

