-- ==== Sys2Proof/Machine/Operands.lean ====
section
/-! DEFINITION. The operand of a bus row, a write access: which roles may make it (R49 to R53 and the role rules of the
chapters), how a refusal is answered and logged (R51), powered-off pages (R44), locks (R54). -/
namespace Sys2Proof.Machine

/-- Masks of roles. -/
def mFg : Nat := 0x01
def mOem : Nat := 0x04
def mOwner : Nat := 0x08
def mOemOwner : Nat := 0x0C
def mOemService : Nat := 0x14
def mOperator : Nat := 0x20
def mStart : Nat := 0x2C
def mDoorbell : Nat := 0x4C
def mAny : Nat := 0xFF

/-- Role rules of the loop block inside a datapath page (R239). -/
def roleLoopBlock (o : Nat) (v : Word) : Nat :=
  if o = 0x2C ∨ o = 0x30 then mFg
  else if o = 0x04 ∧ fld v 2 0 = 3 then mOemService
  else if 0x90 ≤ o ∧ o ≤ 0x9C then mOemService
  else mAny

/-- Role rules of TIM_CMD: every bit set must be one the role may set (R372). -/
def roleTimCmd (v : Word) : Nat :=
  (if fld v 4 3 = 0 then mAny else mOwner) &&& (if fld v 2 0 = 0 then mAny else mOemOwner)

/-- Role rules of DDR_CMD: PPR from OWNER, the other bits from OEM and SERVICE (R318). -/
def roleDdrCmd (v : Word) : Nat :=
  (if bit v 3 then mOwner else mAny) &&& (if fld v 2 0 = 0 then mAny else mOemService)

/-- The roles a role rule lets write a register, whatever the page ACL holds (R53, R86, R121, R123, R158, R190, R217,
R239, R272, R318, R347, R372, R441, R464, R493, R510); `laser` selects the laser registers of a port page. -/
def roleRule (laser : Bool) (p : Page) (off : Nat) (v : Word) : Nat :=
  match p with
  | .lin =>
    if off = 0x4C then mOwner
    else if off = 0x50 then mOemOwner
    else if off = 0x54 then mStart
    else 0x05
  | .stn _ => if off = 0x44 ∨ 0x448 ≤ off ∧ off ≤ 0x458 then mStart else mAny
  | .ch _ k =>
    match k.val with
    | 0 => if off = 0x44 then mStart else mAny
    | 2 => if 0x48 ≤ off ∧ off ≤ 0x58 then mStart else mAny
    | 3 =>
      if laser then
        if 0x100 ≤ off ∧ off < 0x140 ∨ 0xC0 ≤ off ∧ off ≤ 0xCC then mFg
        else if 0x90 ≤ off ∧ off ≤ 0x9C ∨ off = 0xAC then mOemService
        else mAny
      else
        if off = 0x58 ∨ off = 0x68 ∨ off = 0x74 ∨ 0x80 ≤ off ∧ off ≤ 0xC0 then mFg
        else if off = 0x100 ∨ off = 0x104 ∨ 0x200 ≤ off ∧ off < 0x300 then mOemService
        else mAny
    | _ => mAny
  | .dmk =>
    if 0x48 ≤ off ∧ off ≤ 0x54 then mOem
    else if 0x58 ≤ off ∧ off ≤ 0x64 then 0x48
    else if off = 0x6C ∨ off = 0x1C0 ∨ off = 0x44 ∨ off = 0x8C then 0x6C
    else if 0xC0 ≤ off ∧ off < 0x120 then 0x28
    else if 0x140 ≤ off ∧ off < 0x170 ∨ 0x1DC ≤ off ∧ off ≤ 0x1E4 ∨ 0x200 ≤ off ∧ off < 0x2C0 then mOwner
    else if 0x170 ≤ off ∧ off < 0x1A0 then mOperator
    else mAny
  | .tim =>
    if off = 0x64 then roleTimCmd v
    else if off = 0x90 ∨ 0x100 ≤ off ∧ off < 0x140 ∨ off = 0x8C ∨ off = 0x70 ∨ off = 0x84 ∨ off = 0x88 then mOwner
    else if off = 0x54 ∨ off = 0x5C ∨ off = 0x60 ∨ off = 0x6C ∨ off = 0x68 then mOemOwner
    else if off = 0x94 ∨ off = 0x98 ∨ off = 0x9C then mOem
    else mAny
  | .ldp _ => if 0x100 ≤ off then roleLoopBlock ((off - 0x100) % 0x100) v else mAny
  | .mb _ => if 0x44 ≤ off ∧ off ≤ 0x54 then mFg else mAny
  | .stp _ => if off = 0x94 then mFg else mAny
  | .dma => if 0x100 ≤ off ∧ off % 0x20 = 0 then (if off < 0x300 then mOem else mDoorbell) else mAny
  | .qmg => if 0x48 ≤ off ∧ off ≤ 0x50 then mOem else if 0x400 ≤ off ∧ off < 0x600 then mDoorbell else mAny
  | .blt => if off = 0x40 then mOem else mAny
  | .clk => if 0x100 ≤ off ∧ (off % 0x80 = 0 ∨ 0x40 ≤ off % 0x80) then mOem else mAny
  | .thm => if 0x48 ≤ off ∧ off ≤ 0x54 ∨ 0xA4 ≤ off ∧ off < 0xC0 then mOemService else mAny
  | .pwr => if off = 0x40 ∨ off = 0x48 then mOemOwner else if 0x40 ≤ off then mOem else mAny
  | .flt =>
    if 0x5C ≤ off ∧ off ≤ 0x64 then mFg else if off = 0x70 then 0x05 else if off = 0x78 then mOperator else mAny
  | .ddr => if off = 0x90 then roleDdrCmd v else mAny
  | .adc => if off = 0x44 ∨ off = 0x48 then mOemService else mAny
  | _ => mAny

/-- The soot bit a role refusal sets on a register whose chapter narrows its roles and says that writes refused under its
rules set CONFIG (R190, R217, R239, R272, R318, R347, R464, R493, R510; log entry 45). -/
def refusedSoot (laser : Bool) (p : Page) : Option Nat :=
  match p with
  | .ch _ k => if k.val = 3 then some (if laser then 0 else 2) else none
  | .ldp _ | .stp _ => some 3
  | .mb _ | .dma | .qmg => some 2
  | .ddr | .clk | .thm => some 6
  | .pwr => some 5
  | .adc => some 1
  | _ => none

/-- Whether a role may make a write (R50, R53: DEBUG writes nowhere): ROOT_SWI_SET and ROOT_SWI_CLR from every role but DEBUG; PG_ACL from a role in
OWNER_MASK; else the page's WRITE_MASK and the register's role rule. -/
def State.mayWrite (s : State) (r : Role) (p : Page) (off : Nat) (v : Word) : Bool :=
  let laser := match p with | .ch n _ => s.isLaser n.val | _ => false
  if p = .root ∧ (off = 0x60 ∨ off = 0x64) then r ≠ .debug
  else if r = .debug then false
  else if off = 0x0C then inMask (s.rdf (Reg.pgAcl p) 23 16) r
  else inMask (s.rdf (Reg.pgAcl p) 7 0) r && inMask (roleRule laser p off v) r

/-- ROOT's log of a refused access filled: address, who asked and how, stamp, VALID (R51). -/
def State.acvFill (s : State) (b : Bus) (a : Nat) (write : Bool) : State :=
  (((s.wr Reg.rootAcvAddrLo (loW a)).wr Reg.rootAcvInfo
      (BitVec.ofNat 32 (a / 2 ^ 32 % 256 + roleBit b.role * 0x100 + b2n write * 0x800 + b.master.toNat * 0x1000))).wr64
    Reg.rootAcvStampLo Reg.rootAcvStampHi s.now).wrb Reg.rootAcvCount 31 true

/-- The record of a refused access in ROOT: the log filled unless it holds one, the count one up (R51). -/
def State.acvRecord (s : State) (b : Bus) (a : Nat) (write : Bool) : State :=
  let s := if s.rdb Reg.rootAcvCount 31 then s else s.acvFill b a write
  s.wrf Reg.rootAcvCount 15 0 (satN 0xFFFF (s.rdf Reg.rootAcvCount 15 0 + 1))

/-- An access refused for its role (R51): an error response, the ROOT log's first entry, its count, source 254. -/
def State.refuse (s : State) (b : Bus) (a : Nat) (write : Bool) : State :=
  ((s.respond true 0).acvRecord b a write).srcEvent 254

/-- What a write refused for its role leaves beside R51's record: the soot bit of the page's chapter, and REFUSED as the
result of the loop it meant (R239). -/
def State.refuseWrite (s : State) (b : Bus) (p : Page) (off : Nat) (v : Word) : State :=
  let laser := match p with | .ch n _ => s.isLaser n.val | _ => false
  let s := s.refuse b (pageBase p + off) true
  if off < 0x40 || roleRule laser p off v == mAny then s else
  let s := match refusedSoot laser p with
    | some k => s.soot p k
    | none => s
  match p with
  | .ldp _ => s.wrf (pageBase p + off / 0x100 * 0x100 + 8) 10 8 3
  | _ => s

/-- A bus write that reaches a page: an error response while its domain is off (R44); the refusal of R51; else a normal
response and the write's effect. -/
def busWrite (b : Bus) (p : Page) (off : Nat) (v : Word) (eff : State → State) (s : State) : State :=
  if ! s.powered p then s.respond true 0
  else if ! s.mayWrite b.role p off v then s.refuseWrite b p off v
  else eff (s.respond false 0)

/-- A bus read of a register that has an effect: an error response while the page's domain is off, the refusal of R51 for
a role outside READ_MASK, else a normal response with the data the effect's state holds at the register. -/
def busRead (b : Bus) (p : Page) (off : Nat) (eff : State → State) (s : State) : State :=
  if ! s.powered p then s.respond true 0
  else if ! inMask (s.rdf (Reg.pgAcl p) 15 8) b.role then s.refuse b (pageBase p + off) false
  else
    let s := eff s
    s.respond false (s.rd (pageBase p + off))

/-- A write of an RWL field: with the page locked it changes nothing but WRITE_AFTER_LOCK (R54). -/
def rwl (p : Page) (eff : State → State) (s : State) : State :=
  if s.rdb (Reg.pgLock p) 0 then s.wrb (Reg.pgLock p) 8 true else eff s

/-- The plain write of a register by its map's row: RW and RWL bits take the value, W1C bits clear where it has a 1,
every other bit keeps (R6, R7). -/
def State.plainWrite (s : State) (a : Nat) (v : Word) : State :=
  match rowOf a with
  | none => s
  | some r =>
    let old := s.rd a
    let w := BitVec.ofNat 32 r.wr
    let c := BitVec.ofNat 32 r.w1c
    s.wr a ((old &&& ~~~(w ||| c)) ||| (v &&& w) ||| (old &&& c &&& ~~~v))

/-- Whether the row of a register's map is RWL. -/
def isRwl (a : Nat) : Bool := match rowOf a with | some r => r.rwl | none => false

end Sys2Proof.Machine
end

