-- ==== Sys2Proof/Machine/Domains.lean ====
section
/-! DEFINITION. Power domains going on and off, and the steps of the start-up order that other units' events take
(R44, R46, R425, R478, R479). -/
namespace Sys2Proof.Machine

/-- Soot bit `b` of the PWR page, whose sources are latched in the always-on domain until PD4 and PD1 are on (R475). -/
def State.pwrSoot (s : State) (b : Nat) : State :=
  if s.domOn 4 && s.domOn 1 then s.soot .pwr b
  else if s.pwr.lateSoot.contains b then s
  else { s with pwr := { s.pwr with lateSoot := s.pwr.lateSoot ++ [b] } }

/-- Fields of a slot's configuration (R494): ORDER, EN, whether the slot is kept in a state (2 STANDBY, 3 WATCH, 4 OFF),
QUAL and TIMEOUT in ticks. -/
def State.slotOrder (s : State) (k : Nat) : Nat := s.rdf (Reg.psqSlotCfg k) 3 0
def State.slotUsed (s : State) (k : Nat) : Bool := s.rdb (Reg.psqSlotCfg k) 4
def State.slotKept (s : State) (k target : Nat) : Bool :=
  let c := Reg.psqSlotCfg k
  match target with
  | 2 => s.rdb c 5 || s.rdb c 6 || s.rdb c 7
  | 3 => s.rdb c 6 || s.rdb c 7
  | 4 => s.rdb c 7
  | _ => false
def State.slotQual (s : State) (k : Nat) : Nat := s.rdf (Reg.psqSlotCfg k) 18 8 * 10 * usT
def State.slotTimeout (s : State) (k : Nat) : Nat := s.rdf (Reg.psqSlotCfg k) 31 19 * 100 * usT

/-- A slot's state code, its PG and driven EN (R494). -/
def State.slotSt (s : State) (k : Nat) : Nat := s.rdf (Reg.psqSlotStat k) 1 0
def State.slotPg (s : State) (k : Nat) : Bool := s.rdb (Reg.psqSlotStat k) 2
def State.slotDriven (s : State) (k : Nat) : Bool := s.rdb (Reg.psqSlotStat k) 3

/-- A driven rail whose dependency mask names function `f` is not GOOD, so the function is blocked (R470, R471). -/
def State.railBlocks (s : State) (f : Nat) : Bool :=
  (List.range 12).any (fun k => s.slotDriven k && s.rdb (Reg.psqSlotDep k) f && s.slotSt k != 2)

/-- PWR_DOM_STAT's BLOCKED bits (R494). -/
def State.blockedUpdate (s : State) : State :=
  forN 12 (fun i s => s.wrb Reg.pwrDomStat (17 + i) (s.railBlocks (i + 1))) s

/-- Domain `d` asked for: its switch reports ON 50 µs after the one before it (R478). -/
def State.requestDomOn (s : State) (d : Nat) : State :=
  if s.domOn d || s.railBlocks d || s.testMode || s.pwr.switching.any (fun e => e.1 == d) then s else
  let last := s.pwr.switching.foldl (fun m e => Nat.max m e.2) s.now
  { s with pwr := { s.pwr with switching := s.pwr.switching ++ [(d, last + 50 * usT)] } }

/-- Domains asked for in an order. -/
def State.requestDoms (s : State) (l : List Nat) : State := forL l (fun d s => s.requestDomOn d) s

/-- Registers whose value the always-on domain holds (R46), and those that a change of power state needs across it: the
state code (R487) and the retention map (R502). -/
def aonReg (a : Nat) : Bool :=
  (decide (Reg.pwrWakeCause ≤ a) && decide (a < pageBase .pwr + 0x1000)) || a == Reg.pwrStat ||
    [Reg.timFloorLo, Reg.timFloorHi, Reg.timRtcLo, Reg.timRtcHi, Reg.timWakeStat, Reg.secBootAttempts, Reg.secBootStat,
      Reg.fltLogSel, Reg.fltLogStat, Reg.fltLogD0, Reg.fltLogD1, Reg.fltLogD2, Reg.fltWarm, Reg.srmRetMap, Reg.srmRetStat].contains a

/-- Power domain of a register, by its key. -/
def regDomain (a : Nat) : Option Nat := (pageAt (a % laserKey / 4096)).map pageDomain

/-- Channels 8h to 8h + 7 lose their domain: their units' state, their outputs, and the slots their jobs had reserved.
Their jobs leave no verdict (R472). -/
def State.channelsOff (s : State) (h : Nat) : State :=
  forN 8 (fun i s =>
    let n := 8 * h + i
    let m := ~~~(BitVec.ofNat 16 (2 ^ n))
    let s := ((s.setChan n ChanState.reset).setSeq n SeqState.reset).setTherm n ThermState.reset
    let s := ((s.setTag n TagState.reset).setLas n LaserState.reset).setRing n RingState.reset
    let s := forN 4 (fun j s => s.updQueue (4 * n + j) (fun q => { q with resv := 0 })) s
    { s with pins := { s.pins with gate := s.pins.gate &&& m, strobe := s.pins.strobe &&& m } }) s

/-! ### The date clock's value, as power-off keeps it (R354, R366, R368, R370) -/

/-- A second and a millisecond in the unit of PTP time kept here, 2^-16 ns. -/
def ptpSec : Int := 65536000000000
def ptpMs : Int := 65536000000

/-- PTP time: 2.5 ns for each TSC count, fraction included, plus its offset (R354). -/
def State.ptpNow (s : State) : Int := (s.tim.tscAcc * 163840 / 2 ^ 32 : Nat) + s.tim.ptpOfs

/-- The date clock's target (R366), from 2000-01-01T00:00:00 UTC, which is 946,684,800 s after the epoch of PTP. -/
def State.dcTarget (s : State) : Int := s.ptpNow - ((s.rdf Reg.timUtcOfs 15 0 : Nat) + 946684800) * ptpSec

/-- TIM_DC_STAT's bits (R373). -/
def State.dcValid (s : State) : Bool := s.rdb Reg.timDcStat 0
def State.dcHoldover (s : State) : Bool := s.rdb Reg.timDcStat 1
def State.dcPending (s : State) : Bool := s.rdb Reg.timDcStat 2
def State.dcHeld (s : State) : Bool := s.rdb Reg.timDcStat 3
def State.locked (s : State) : Bool := s.rdb Reg.timDcStat 5

/-- The date clock (R368 to R371): invalid, it keeps its value; HELD, it holds until the target reaches it and then
follows the target; else it advances at the rate of PTP time with the slew in force. -/
def State.dcNow (s : State) : Int :=
  if ! s.dcValid then s.tim.dcVal
  else if s.dcHeld then max s.tim.dcVal s.dcTarget
  else s.tim.dcVal + ((s.tim.tscAcc - s.tim.dcAcc) * 163840 / 2 ^ 32 : Nat) * (5 * ptpSec + s.tim.slew) / (5 * ptpSec)

/-- The date clock's value brought up to the present, so that its rate can change. -/
def State.dcSync (s : State) : State :=
  { s with tim := { s.tim with dcVal := s.dcNow, dcAcc := s.tim.tscAcc } }

/-- DRAM without its rails or its self-refresh: its rows, and the trained settings, are lost (R308, R489). -/
def State.dramLost (s : State) : State :=
  { s.eraseMem 0x800000000 0x200000000 with ddr := DdrState.reset, pwr := { s.pwr with phyKept := false } }

/-- What the units of a domain lose beside their registers. -/
def State.domainUnits (s : State) (d : Nat) : State :=
  match d with
  | 1 =>
    let keep := s.flt.holds.filter (fun h => h ≠ .selftest)
    { s with
      fgd := { FgdState.reset with ilks := s.fgd.ilks, keyHigh := s.fgd.keyHigh },
      flt := { FltState.reset with log := s.flt.log, holds := keep, inReset := s.flt.inReset },
      pins := { s.pins with len := 0, safeOut := false } }
  | 2 =>
    let s := forN 32 (fun c s => s.updSerial c (fun x => { x with setTo := none, reserving := false })) s
    { s with sec := { s.sec with
      newRecKey := none, newRecLeft := 0, nonces := [], writes := [], enclaveOk := true, entropyOk := true, reqRole := [],
      boot := { s.sec.boot with recHeader := [], answer := [], waitTo := none, core0 := none } } }
  | 3 => if s.domOn 2 then s.wrf Reg.secStat 5 4 0 else s
  | 4 =>
    let t := { TimState.reset with
      tscAcc := s.tim.tscAcc, dcVal := s.dcNow, dcAcc := s.tim.tscAcc, rtc := s.tim.rtc, latchTsc := s.tim.latchTsc,
      latchRtc := s.tim.latchRtc, offTsc := some s.tim.tscAcc, dcKept := s.rdb Reg.timDcStat 0 }
    let s := s.eraseMem 0x10000000 0x400000
    { s with
      lin := LinState.reset, jobs := { s.jobs with stns := [] }, srm := SrmState.reset,
      dma := { s.dma with chans := [], queues := [] }, tim := t, clk := ClkState.reset,
      thm := { ThmState.reset with shutAt := s.thm.shutAt, shutReached := s.thm.shutReached },
      bkg := { s.bkg with wear := if s.flt.inReset then s.bkg.wear else [], wearPart := [], writes := [], galvo := [], ddrCe := 0, srmCe := 0, notOk := [] },
      plic := [], pins := { s.pins with rej := 0, lsr := false } }
  | 5 => if s.pwr.phyKept then s else s.dramLost
  | 6 =>
    let s := { s with dmk := { DmkState.reset with serials := s.dmk.serials }, dma := { s.dma with lanes := [] } }
    forN 32 (fun c s => s.updSerial c (fun x => { x with setTo := none, reserving := false, limit := SerialState.reset.limit })) s
  | 7 => (s.channelsOff 0).setSeq 16 SeqState.reset
  | 8 => s.channelsOff 1
  | 9 => { s with link := [], loops := LoopsState.reset }
  | 10 => { s with drives := DrivesState.reset, pins := { s.pins with brk := 0, drvEn := 0 } }
  | 11 => { s with bkg := { s.bkg with convs := [], standIn := none } }
  | 12 => { s with net := NetState.reset }
  | _ => s

/-- The domain of an SRAM macro (R46, R314): 0 the always-on one. -/
def macroDomain (m : Nat) : Nat :=
  if m < 64 then 4 else if m < 132 then (if 96 ≤ m ∧ m < 128 then 8 else 7) else if m < 141 then 0 else 6

/-- Domain `d` goes off (R44, R478): its registers take their reset values but for those the always-on domain holds, its
units lose their state, its error pins fall. -/
def State.domainOff (s : State) (d : Nat) : State :=
  if ! s.domOn d || d = 0 then s else
  let shut := s.rdb Reg.thmStat 14
  let s := s.domainUnits d
  let s := { s with srm := { s.srm with repairs := s.srm.repairs.filter (fun e => macroDomain e.macroNo != d) } }
  let s := s.resetRegs (fun a => regDomain a == some d && ! aonReg a)
  let s := if d = 4 && shut then s.wrb Reg.thmStat 14 true else s
  let s := s.wrb Reg.pwrDomStat d false
  let s := { s with pwr := { s.pwr with heldOff := s.pwr.heldOff.filter (fun x => x != d) } }
  if s.domOn 1 then forL (pagesOfDomain d) (fun p s => s.pinsOf p) s else s

/-- Several domains go off in order. -/
def State.domainsOff (s : State) (l : List Nat) : State := forL l (fun d s => s.domainOff d) s

/-- Every switched domain. -/
def allDomains : List Nat := [12, 11, 10, 9, 8, 7, 6, 5, 3, 2, 1, 4]

/-- Every slot with EN = 1 is driven: the sequencer has been through all its groups (R469). -/
def State.railsUp (s : State) : Bool := (List.range 12).all (fun k => ! s.slotUsed k || s.slotDriven k)

/-- Domains that a rail now blocks are switched off at once (R471, R472). -/
def State.blockedOff (s : State) : State := s.domainsOff (allDomains.filter (fun d => s.railBlocks d))

/-- Writes of slot registers held during a sequence or a change of state are made (R493). -/
def State.heldCfgApply (s : State) : State :=
  if s.pwr.heldCfg.isEmpty then s else
  let l := s.pwr.heldCfg
  (forL l (fun e (s : State) => s.plainWrite e.1 e.2) { s with pwr := { s.pwr with heldCfg := [] } }).blockedOff.blockedUpdate

/-- Start-up step 3 (R473, R479): PD4, PD1 and PD2 are switched on once none of them is blocked. -/
def State.startStep3 (s : State) : State :=
  if s.railBlocks 1 || s.railBlocks 2 || s.railBlocks 4 then s else
  let s := { s with pwr := { s.pwr with bootStep := 3 } }
  s.requestDoms [4, 1, 2]

/-- The step of R479 the start-up has reached. -/
def State.bootAt (s : State) (k : Nat) : Bool := s.pwr.bootStep == k
def State.setBootStep (s : State) (k : Nat) : State := { s with pwr := { s.pwr with bootStep := k } }

/-- Step 6: PD5 on, unless the shutdown latch keeps every domain beyond PD1, PD2 and PD4 off (R461). -/
def State.startStep6 (s : State) : State :=
  let s := s.setBootStep 6
  if s.rdb Reg.thmStat 14 then s else s.requestDomOn 5

/-- Step 7: PD3 and PD6 to PD12 on, in ascending order. -/
def State.startStep7 (s : State) : State :=
  let s := s.setBootStep 7
  if s.rdb Reg.thmStat 14 then s else s.requestDoms [3, 6, 7, 8, 9, 10, 11, 12]

/-- A wear counter one up (R500). -/
def State.wearAdd (s : State) (item n : Nat) : State :=
  { s with bkg := { s.bkg with wear := tabPut 0 s.bkg.wear item ((tabGet 0 s.bkg.wear item + n) % 2 ^ 64) } }

/-- WARM_RESET taken by a source (R425, R430): every switched domain is reset, the always-on domain kept. -/
def State.warmReset (s : State) (src : Nat) : State :=
  let s := (s.wrf Reg.fltWarm 7 0 src).cnt Reg.fltWarm 31 16
  let s := { s with flt := { s.flt with inReset := true } }
  let s := { s with pwr := { s.pwr with switching := [], heldOff := [], phyKept := false } }
  (s.domainsOff allDomains).setBootStep 3

/-- PD1 to PD12 reset together, the always-on domain kept, and the start-up taken from step 3 (R421, R479). -/
def State.restart (s : State) : State :=
  let s := { s with flt := { s.flt with inReset := true }, pwr := { s.pwr with switching := [], heldOff := [], phyKept := false } }
  let s := s.domainsOff allDomains
  let s := { s with flt := { s.flt with inReset := false } }
  (s.setBootStep 2).startStep3

/-! ### The log store as other units use it (R500, R501, R502) -/

/-- A log-store write asked for. -/
def State.logPush (s : State) (kind : Nat) (payload : List Byte) : State :=
  { s with bkg := { s.bkg with writes := s.bkg.writes ++ [⟨kind, payload, false, none⟩] } }

/-- The entry of a type in force: the one with the highest sequence number. -/
def State.logInForce (s : State) (kind : Nat) : Option LogEntry :=
  (s.bkg.log.filter (fun e => e.kind == kind)).foldl (fun m e => match m with
    | some x => if x.seq < e.seq then some e else some x
    | none => some e) none

/-- The wear counters written to the log store (R500). -/
def State.saveWear (s : State) : State :=
  s.logPush 4 ((List.range 71).flatMap (fun i => leBytes 8 (tabGet 0 s.bkg.wear i)))

/-- At PD4's power-up each wear counter takes the larger of its live and its saved value (R500). -/
def State.wearRestore (s : State) : State :=
  match s.logInForce 4 with
  | none => s
  | some e => forN 71 (fun i s =>
      { s with bkg := { s.bkg with wear := tabPut 0 s.bkg.wear i (Nat.max (tabGet 0 s.bkg.wear i) (leAt e.payload (8 * i) 8)) } }) s

/-- Banking runs activity `a` of R497: its enable and the unit's. -/
def State.banking (s : State) (a : Nat) : Bool := s.domOn 4 && s.enabled .bkg && s.rdb Reg.bkgEn a

/-! ### Die readings as other units use them (R456, R457) -/

/-- The median of readings, the mean of the two middle ones rounded down (R457). -/
def medianOf (l : List Int) : Option Int :=
  let t := sortBy (fun x => (x + 40000).toNat) l
  let n := t.length
  if n = 0 then none
  else if n % 2 = 1 then t[n / 2]?
  else match t[n / 2 - 1]?, t[n / 2]? with
    | some a, some b => some (fdivI (a + b) 2)
    | _, _ => none

/-- Sensor `k` is good; its last reading, 0.1 °C. -/
def State.dieGood (s : State) (k : Nat) : Bool := s.rdb (Reg.thmDie k) 16
def State.dieTemp (s : State) (k : Nat) : Int := s.rds (Reg.thmDie k) 15 0

/-- The good sensors; the hottest of them with its reading; their median. -/
def State.goodDies (s : State) : List Nat := numsWhere 12 s.dieGood
def State.hottest (s : State) : Option (Nat × Int) :=
  s.goodDies.foldl (fun m k => match m with
    | some (_, t) => if t < s.dieTemp k then some (k, s.dieTemp k) else m
    | none => some (k, s.dieTemp k)) none
def State.dieMedian (s : State) : Option Int := medianOf (s.goodDies.map s.dieTemp)

/-- The mean of the good sensors, 0.1 °C. -/
def State.dieMean (s : State) : Option Int :=
  let l := s.goodDies
  if l.isEmpty then none else some (fdivI (l.foldl (fun a k => a + s.dieTemp k) 0) l.length)

end Sys2Proof.Machine
end

