-- ==== Sys2Proof/Machine/Queues.lean ====
section
/-! DEFINITION. The fabric's regions (R382) and the 128 hardware queues (spec/12, R335 to R341, R347, R349). -/
namespace Sys2Proof.Machine

/-! ### Memory regions -/

/-- Region entry `r` covers an address (R382). -/
def State.regionHit (s : State) (a r : Nat) : Bool :=
  let lo := s.rd (Reg.secRgnBaseLo r)
  let base := s.rdf (Reg.secRgnBaseHi r) 7 0 * 2 ^ 32 + fld lo 31 12 * 4096
  bit lo 6 && decide (base ≤ a) && decide (a < base + 2 ^ fld lo 5 0)

/-- One address may be accessed by a role (R325, R382): never through the content-ring windows or retention banks 6 and
7; else as the lowest matching region says; free where none matches. -/
def State.addrOk (s : State) (r : Role) (write : Bool) (a : Nat) : Bool :=
  if 0x30000000 ≤ a ∧ a < 0x30100000 then false
  else if 0x20030000 ≤ a ∧ a < 0x20040000 then false
  else match leastWhere 16 (s.regionHit a) with
    | some k => inMask (if write then s.rdf (Reg.secRgnAcl k) 7 0 else s.rdf (Reg.secRgnAcl k) 15 8) r
    | none => true

/-- A whole range may be accessed: every 4 KiB piece of it, the least a region can part. -/
def State.regionOk (s : State) (r : Role) (write : Bool) (a n : Nat) : Bool :=
  n == 0 || (List.range ((a + n - 1) / 4096 - a / 4096 + 1)).all (fun i => s.addrOk r write (Nat.max a ((a / 4096 + i) * 4096)))

/-! ### Queues -/

/-- Entries used (R335); capacity. -/
def QueueState.used (q : QueueState) : Nat := (q.tail - q.head).toNat
def QueueState.size (q : QueueState) : Nat := 2 ^ q.log2

/-- A hardware push without reservation, or a reservation, succeeds (R338); a disabled queue has no free entries. -/
def QueueState.canPush (q : QueueState) : Bool := q.en && decide (q.used + q.resv < q.size)

/-- Address of entry `c` of queue `k`: in its own storage, or in that of the spare that serves it (R335, R341). -/
def State.qAddr (s : State) (k c : Nat) : Nat :=
  let q := s.queue k
  let base := match q.spare with
    | some p => (s.queue p).base
    | none => q.base
  0x10000000 + base + c % q.size * q.esize

/-- QMG_STAT (R349): queues enabled, spares in use, whether a move is pending. -/
def State.qmgStat (s : State) : State :=
  let all := (List.range 128).map s.queue
  let s := s.wrf Reg.qmgStat 7 0 (all.filter (fun q => q.en)).length
  let s := s.wrf Reg.qmgStat 11 8 (all.filter (fun q => q.spare.isSome)).length
  s.wrb Reg.qmgStat 16 (all.any (fun q => q.movePending))

/-- WATERMARK_EVENT (R339): USED has risen to HI, or fallen to LO. -/
def State.qWatch (s : State) (k was : Nat) : State :=
  let q := s.queue k
  let s := if q.hi != 0 && decide (was < q.hi) && decide (q.hi ≤ q.used) then
      (s.wrb (Reg.qmgWmHi (k / 32)) (k % 32) true).irq .qmg 0 else s
  if q.lo != 0 && decide (q.lo < was) && decide (q.used ≤ q.lo) then
    (s.wrb (Reg.qmgWmLo (k / 32)) (k % 32) true).irq .qmg 1 else s

/-- An entry's bytes at the tail, and the tail advanced. -/
def State.qAppend (s : State) (k : Nat) (bytes : List Byte) : State :=
  let q := s.queue k
  let s := s.wrMem (s.qAddr k q.tail.toNat) ((bytes ++ List.replicate q.esize 0).take q.esize)
  (s.updQueue k (fun q => { q with tail := q.tail + 1 })).qWatch k q.used

/-- A hardware push without a reservation (R338): a refused one is dropped and counted. -/
def State.qPush (s : State) (k : Nat) (bytes : List Byte) : State :=
  if (s.queue k).canPush then s.qAppend k bytes
  else s.updQueue k (fun q => { q with drop := if q.drop = 0xFFFF then q.drop else q.drop + 1 })

/-- A push against a reservation, which never fails (R338). -/
def State.qPushReserved (s : State) (k : Nat) (bytes : List Byte) : State :=
  (s.updQueue k (fun q => { q with resv := q.resv - 1 })).qAppend k bytes

/-- A reservation made (R338). -/
def State.qReserve (s : State) (k : Nat) : State := s.updQueue k (fun q => { q with resv := q.resv + 1 })

/-- The oldest entry's bytes, if there is one. -/
def State.qFront (s : State) (k : Nat) : Option (List Byte) :=
  let q := s.queue k
  if q.used = 0 then none else some (s.rdMem (s.qAddr k q.head.toNat) q.esize)

/-- The oldest entry consumed by hardware. -/
def State.qDrop (s : State) (k : Nat) : State :=
  let q := s.queue k
  if q.used = 0 then s else
  (s.updQueue k (fun q => { q with head := q.head + 1, roles := q.roles.drop 1 })).qWatch k q.used

/-- Queues whose producer, or consumer, is software (R336). -/
def qSoftProducer (k : Nat) : Bool := decide (80 ≤ k ∧ k < 96) || decide (104 ≤ k ∧ k < 116)
def qSoftConsumer (k : Nat) : Bool :=
  decide (k < 64) && k % 4 != 0 || decide (96 ≤ k ∧ k < 112) || decide (116 ≤ k ∧ k < 120)

/-- QMG_DB_RES (R349). -/
def State.dbRes (s : State) (k res : Nat) : State := (s.wrf Reg.qmgDbRes 1 0 res).wrf Reg.qmgDbRes 14 8 k

/-- A doorbell refused (R337). -/
def State.dbRefused (s : State) (k : Nat) : State := (s.dbRes k 2).cnt Reg.qmgDbRefused 15 0

/-- A doorbell write (R337): bits [31:30] say produce or consume, [12:0] N. -/
def State.doorbell (s : State) (k : Nat) (r : Role) (v : Word) : State :=
  let q := s.queue k
  let n := fld v 12 0
  if n = 0 then s.dbRefused k
  else match fld v 31 30 with
    | 1 =>
      if q.en && qSoftProducer k && decide (q.used + q.resv + n ≤ q.size) then
        ((s.updQueue k (fun q => { q with tail := q.tail + BitVec.ofNat 16 n, roles := q.roles ++ List.replicate n r })).qWatch k
          q.used).dbRes k 1
      else s.dbRefused k
    | 2 =>
      if qSoftConsumer k && decide (n ≤ q.used) then
        ((s.updQueue k (fun q => { q with head := q.head + BitVec.ofNat 16 n, roles := q.roles.drop n })).qWatch k
          q.used).dbRes k 1
      else s.dbRefused k
    | _ => s.dbRefused k

/-- QUEUE_PRODUCE (R337): a doorbell write. -/
def execQueueProduce (b : Bus) (q : Fin 128) (v : Word) (s : State) : Out :=
  .next (busWrite b .qmg (0x400 + 4 * q.val) v (fun s => s.doorbell q.val b.role v) s)

/-- QUEUE_CONSUME (R337): a doorbell write. -/
def execQueueConsume (b : Bus) (q : Fin 128) (v : Word) (s : State) : Out :=
  .next (busWrite b .qmg (0x400 + 4 * q.val) v (fun s => s.doorbell q.val b.role v) s)

/-- Entry sizes by code, and the code of a size (R349). -/
def qSizeOf : Nat → Nat
  | 0 => 16 | 1 => 32 | _ => 64
def qSizeCode (n : Nat) : Nat := if n = 16 then 0 else if n = 32 then 1 else 2

/-- Queues whose entry size firmware sets (R336). -/
def qSizeFree (k : Nat) : Bool := decide (104 ≤ k ∧ k < 112) || decide (120 ≤ k)

/-- QMG_Q_BIND of a queue (R336, R349): producer, consumer, unit number. -/
def qBind (k : Nat) : Nat :=
  let w (p c u : Nat) := p + c * 16 + u * 256
  if k < 64 then
    match k % 4 with
    | 0 => w 1 2 (k / 4) | 1 => w 2 0 (k / 4) | 2 => w 3 0 (k / 4) | _ => w 4 0 (k / 4)
  else if k < 80 then w 5 6 (k - 64)
  else if k < 96 then w 0 6 (k - 64)
  else if k < 104 then w 8 0 (k - 96)
  else if k < 112 then w 0 0 (k - 104)
  else if k < 116 then w 0 7 (k - 112)
  else if k < 120 then w 7 0 (k - 116)
  else w 9 9 (k - 120)

/-- The registers 0x048 to 0x064 of the selected queue captured (R349). -/
def State.qCapture (s : State) : State :=
  let k := s.rdf Reg.qmgSel 6 0
  let q := s.queue k
  let s := s.wr Reg.qmgQCfg (BitVec.ofNat 32 (b2n q.en + q.log2 * 2 + qSizeCode q.esize * 32))
  let s := s.wr Reg.qmgQBase (BitVec.ofNat 32 q.base)
  let s := s.wr Reg.qmgQWm (BitVec.ofNat 32 (q.hi + q.lo * 65536))
  let s := s.wr Reg.qmgQBind (BitVec.ofNat 32 (qBind k))
  let s := s.wr Reg.qmgQStat (BitVec.ofNat 32 (q.used + q.resv * 65536 + b2n q.movePending * 2 ^ 29 + b2n q.spare.isSome * 2 ^ 30))
  let s := s.wr Reg.qmgQSpare (BitVec.ofNat 32 (match q.spare with | some p => p + 128 | none => 0))
  s.wr Reg.qmgQDrop (BitVec.ofNat 32 q.drop.toNat)

/-- QUEUE_SELECT_CAPTURE (R349). -/
def execQueueSelectCapture (b : Bus) (v : Word) (s : State) : Out :=
  .next (busWrite b .qmg 0x44 v (fun s => (s.plainWrite Reg.qmgSel v).qCapture) s)

/-- Storage of a queue with a size and entry size fits the SRAM, is aligned and overlaps no other enabled queue (R340). -/
def State.qFits (s : State) (k log2 esize : Nat) : Bool :=
  let n := 2 ^ log2 * esize
  let base := (s.queue k).base
  decide (base + n ≤ 0x400000) && base % n == 0 &&
    (List.range 128).all (fun j =>
      let q := s.queue j
      j == k || ! q.en || decide (base + n ≤ q.base) || decide (q.base + q.size * q.esize ≤ base))

/-- QUEUE_CONFIG_WRITE (R340): a write of QMG_Q_CFG for the selected queue. -/
def State.qCfgWrite (s : State) (v : Word) : State :=
  let k := s.rdf Reg.qmgSel 6 0
  let q := s.queue k
  let log2 := fld v 4 1
  let esize := if qSizeFree k then qSizeOf (fld v 6 5) else q.esize
  let en := bit v 0
  let bad := decide (log2 < 4) || decide (12 < log2) || fld v 6 5 == 3 ||
    (q.en && (log2 != q.log2 || esize != q.esize)) ||
    (en && ! q.en && (! s.qFits k log2 esize || (decide (64 ≤ k ∧ k < 80) && decide (log2 < 8)))) ||
    (! en && q.en && (q.used != 0 || q.resv != 0))
  if bad then s.soot .qmg 2
  else (s.updQueue k (fun q => { q with en := en, log2 := log2, esize := esize })).qmgStat.qCapture

/-- Writes of QMG_Q_BASE, only while the queue is disabled, and QMG_Q_WM (R340). -/
def State.qBaseWrite (s : State) (v : Word) : State :=
  let k := s.rdf Reg.qmgSel 6 0
  if (s.queue k).en then s.soot .qmg 2
  else (s.updQueue k (fun q => { q with base := fld v 21 6 * 64 })).qCapture
def State.qWmWrite (s : State) (v : Word) : State :=
  (s.updQueue (s.rdf Reg.qmgSel 6 0) (fun q => { q with hi := fld v 12 0, lo := fld v 28 16 })).qCapture

/-- QUEUE_CONFIG_WRITE (R340). -/
def execQueueConfigWrite (b : Bus) (v : Word) (s : State) : Out :=
  .next (busWrite b .qmg 0x48 v (fun s => s.qCfgWrite v) s)

/-- A system SRAM row, offsets `lo` up to `hi` of the SRAM, is retired (R316, R341): every enabled queue whose storage, its
own or the spare's that serves it, lies in it becomes MOVE_PENDING.  A spare in use moves with the queue it serves. -/
def State.qRetire (s : State) (lo hi : Nat) : State :=
  (forN 128 (fun k s =>
    let q := s.queue k
    let base := match q.spare with
      | some p => (s.queue p).base
      | none => q.base
    let serves := (List.range 128).any (fun j => (s.queue j).spare == some k)
    if q.en && ! serves && decide (base < hi) && decide (lo < base + q.size * q.esize) then
      s.updQueue k (fun q => { q with movePending := true }) else s) s).qmgStat

/-- The lowest-numbered enabled, idle spare that can take queue `k` (R341). -/
def State.qSpareFor (s : State) (k : Nat) : Option Nat :=
  let q := s.queue k
  ((List.range 8).map (· + 120)).find? (fun p =>
    let x := s.queue p
    x.en && p != k && x.used == 0 && x.resv == 0 && x.esize == q.esize && decide (q.log2 ≤ x.log2) && ! x.movePending &&
      (List.range 128).all (fun j => (s.queue j).spare != some p))

/-- QUEUE_MOVE (R341): once USED is at most 16 the used entries are copied to a spare. -/
def execQueueMove (k : Fin 128) (s : State) : Out :=
  let q := s.queue k.val
  if ! (s.powered .qmg && q.movePending && decide (q.used ≤ 16)) then .next s else
  match s.qSpareFor k.val with
  | none => .next ((s.updQueue k.val (fun q => { q with movePending := false })).qmgStat.soot .qmg 0)
  | some p =>
    let s' := forN q.used (fun i s' =>
      let c := q.head.toNat + i
      s'.wrMem (0x10000000 + (s.queue p).base + c % q.size * q.esize) (s.rdMem (s.qAddr k.val c) q.esize)) s
    let s' := s'.updQueue k.val (fun q => { q with movePending := false, spare := some p })
    .next ((s'.qmgStat.soot .qmg 1).irq .qmg 2)

end Sys2Proof.Machine
end

