-- ==== Sys2Proof/Machine/Records.lean ====
section
/-! DEFINITION. Record slots and the hand-over of a job's record to the record path (R29, R389, R392). -/
namespace Sys2Proof.Machine

/-- REC_READY (R392): the enclave in service, a record key, a confirmed epoch, and no debug level open. -/
def State.recReady (s : State) : Bool :=
  s.domOn 2 && s.sec.enclaveOk && s.sec.recKey.isSome && s.sec.epochOk && s.rdf Reg.secStat 5 4 == 0

/-- Reservations outstanding over the part's record queues; a pending record holds its own until it is pushed. -/
def State.recResv (s : State) : Nat := (List.range 16).foldl (fun a n => a + (s.queue (4 * n + 2)).resv) 0

/-- Reservations outstanding beside the pending records' own (R392, R406). -/
def State.recOut (s : State) : Nat := s.recResv - s.sec.pending.length

/-- A record slot of channel `n` is free (R392). -/
def State.recFree (s : State) (n : Nat) : Bool :=
  s.recReady && (s.queue (4 * n + 2)).canPush && decide (s.sec.pending.length + s.recOut < 512)

/-- Unrecorded refusals (R29): one more. -/
def State.unrecorded (s : State) (n : Nat) : State := s.cnt (chjBase n + 0x70) 15 0

/-- A job's record handed to the record path with its reservation; it carries and clears the unrecorded refusals. -/
def State.recHand (s : State) (n : Nat) (e : JobEntry) (late : Bool) (date : BitVec 64) : State :=
  let blk := e.block.getD (date, 0)
  let r : PendRec := {
    chan := n, productId := e.productId, jobSeq := e.jobSeq, verdict := e.verdict,
    exit := match e.st with | .done => 5 | .aborted => 6 | .refused => 7 | _ => 8,
    noTrk := e.noTrk, late := late, templateId := e.templateId, stn := e.stn, partIdx := e.partIdx,
    contentCrc := e.contentCrc, stamp := s.stamp, date := blk.1, serial := blk.2,
    unrec := BitVec.ofNat 16 (s.rdf (chjBase n + 0x70) 15 0) }
  { s.wrf (chjBase n + 0x70) 15 0 0 with sec := { s.sec with pending := s.sec.pending ++ [r] } }

end Sys2Proof.Machine
end

