-- ==== Sys2Proof/Machine/Time.lean ====
section
/-! DEFINITION. The TSC's rate, PTP time and the date clock (spec/13, R352 to R356, R365 to R373). -/
namespace Sys2Proof.Machine

/-- Seconds and milliseconds of the date clock. -/
def State.dcSecs (s : State) : Int := s.dcNow / ptpSec
def State.dcMs (s : State) : Nat := (s.dcNow / ptpMs % 1000).toNat

/-- The offset the time-zone table gives at second `at_`: the valid entry with the largest AT not later, else TIM_TZ_STD
(R367); entry `skip` left out.  Minutes. -/
def State.tzAt (s : State) (at_ : Int) (skip : Nat) : Int :=
  let best := (List.range 8).foldl (fun (m : Option (Nat × Nat)) k =>
    let a := s.rdn (Reg.timTzAt k)
    if k = skip ∨ s.rdb (Reg.timTzOfs k) 31 = false ∨ at_ < (a : Int) then m
    else match m with
      | some (_, a') => if a' < a then some (k, a) else m
      | none => some (k, a)) none
  match best with
  | some (k, _) => s.rds (Reg.timTzOfs k) 10 0
  | none => s.rds Reg.timTzStd 10 0

/-- TZ_TRANSITION (R367): the offset in force as the table gives it at the date clock. -/
def State.offsetUpdate (s : State) : State := { s with tim := { s.tim with offset := s.tzAt s.dcSecs 8 } }

/-- Local seconds since 2000-01-01 (R365). -/
def State.localSecs (s : State) : Int := s.dcSecs + 60 * s.tim.offset

/-- A date-clock value (R365). -/
def dateWord (secs : Int) (ms : Nat) (ofs : Int) (flags : Nat) : BitVec 64 :=
  BitVec.ofNat 64 (wrapN 32 secs + 2 ^ 32 * (ms % 1024 + wrapN 11 ofs * 2 ^ 10 + flags % 8 * 2 ^ 21))

/-- The date clock's value as R365 lays it out: the two words of TIM_DC, of a content block's DATE. -/
def State.dateValue (s : State) : BitVec 64 :=
  dateWord s.dcSecs s.dcMs s.tim.offset (s.rdf Reg.timDcStat 2 0)

/-- HOLDOVER (R369): VALID with a step pending or LOCKED 0; entering it ends the slew and raises interrupt 3. -/
def State.holdUpdate (s : State) : State :=
  let was := s.dcHoldover
  let now_ := s.dcValid && (s.dcPending || ! s.locked)
  let s := s.wrb Reg.timDcStat 1 now_
  if now_ && ! was then
    let s := s.dcSync
    ({ s with tim := { s.tim with slew := 0 } }.wrs Reg.timDcStat 31 16 0).irq .tim 3
  else s

/-- The floor (R371): its value is valid once written, which its VALID bit says. -/
def State.floorValid (s : State) : Bool := s.rdb Reg.timFloorHi 21
def State.floorVal (s : State) : Int := (s.rdn Reg.timFloorLo : Nat) * ptpSec + (s.rdf Reg.timFloorHi 9 0 : Nat) * ptpMs

/-- STEP_REFUSED (R369): STEP_PENDING, source 66, interrupt 1. -/
def State.stepRefused (s : State) : State := ((s.wrb Reg.timDcStat 2 true).soot .tim 2).irq .tim 1

/-- The date clock made valid with a value; one below TIM_FLOOR is a refused step and the clock starts at the floor
(R371). -/
def State.setDate (s : State) (v : Int) : State :=
  let s := s.wrb Reg.timDcStat 6 s.floorValid
  let low := s.floorValid && decide (v < s.floorVal)
  let s := { s with tim := { s.tim with dcVal := if low then s.floorVal else v, dcAcc := s.tim.tscAcc, slew := 0 } }
  let s := s.wrb Reg.timDcStat 0 true
  let s := if s.domOn 6 then s.wrb Reg.dmkStat 11 true else s
  let s := if low then s.stepRefused else s
  s.offsetUpdate.holdUpdate

/-- STEP_PTP (R354): the offset added to the network timer. -/
def State.stepPtp (s : State) : State :=
  let s := s.dcSync
  let d := (s.rds Reg.timStepSec 31 0 * 1000000000 + s.rds Reg.timStepNs 31 0) * 65536
  { s with tim := { s.tim with ptpOfs := s.tim.ptpOfs + d } }

/-- LOCK_KICK (R355): the first kick sets LOCKED, and a date clock not yet valid takes the target (R371). -/
def State.lockKick (s : State) : State :=
  let s := { s with tim := { s.tim with kickAt := s.now } }
  if s.locked then s else
  let s := { s with tim := { s.tim with rates := [] } }
  let s := (s.wrb Reg.timDcStat 5 true).irq .tim 0
  if s.dcValid then s.holdUpdate else s.setDate s.dcTarget

/-- LOCKED cleared (R355): PTP_LOST and holdover. -/
def State.unlockPtp (s : State) : State :=
  if ! s.locked then s else
  (((s.wrb Reg.timDcStat 5 false).irq .tim 0).soot .tim 1).holdUpdate

/-- ACCEPT_STEP (R370, R372): taken only while a step is pending; its effect comes in the next tick. -/
def State.acceptCmd (s : State) : State :=
  if s.dcPending then { s with tim := { s.tim with acceptPending := true } } else s.soot .tim 3

/-- SET_INITIAL (R371, R372): the initial value of TIM_DC_SET, only while VALID is 0. -/
def State.initialCmd (s : State) : State :=
  if s.dcValid then s.soot .tim 3
  else s.setDate ((s.rdn Reg.timDcSetLo : Nat) * ptpSec + (s.rdf Reg.timDcSetHi 9 0 : Nat) * ptpMs)

/-- A write of TIM_CMD: each bit set acts, STEP_PTP first (R372, "Step first; the kick counts"). -/
def State.timCmd (s : State) (v : Word) : State :=
  let s := if bit v 0 then s.stepPtp else s
  let s := if bit v 1 then s.lockKick else s
  let s := if bit v 2 then s.unlockPtp else s
  let s := if bit v 3 then s.acceptCmd else s
  if bit v 4 then s.initialCmd else s

/-- An accepted step takes effect (R370): forward, the clock is set to the target; backward, it is HELD. -/
def State.applyAccept (s : State) : State :=
  if ! s.tim.acceptPending then s else
  let s := { s with tim := { s.tim with acceptPending := false } }
  if ! s.dcPending then s else
  let s := s.dcSync
  let t := s.dcTarget
  let s := if s.tim.dcVal ≤ t then { s with tim := { s.tim with dcVal := t } } else s.wrb Reg.timDcStat 3 true
  ((s.wrb Reg.timDcStat 2 false).irq .tim 2).offsetUpdate.holdUpdate

/-- TIM_JUMP_MAX in the clock's unit, and a leap second more while one is being slewed (R366). -/
def State.jumpMax (s : State) : Int := (s.rdf Reg.timJumpMax 26 0 : Nat) * ptpMs + (if s.tim.leap then ptpSec else 0)

/-- Whether the date clock refuses or releases a step (R369): in holdover for want of LOCKED no new step is refused. -/
def State.stepJudge (s : State) (e : Int) : State :=
  let far := decide (s.jumpMax ≤ e.natAbs)
  if far && ! s.dcPending && s.locked then s.stepRefused.holdUpdate
  else if ! far && s.dcPending then ((s.wrb Reg.timDcStat 2 false).irq .tim 2).holdUpdate
  else s

/-- DATE_CLOCK_UPDATE (R368, R369): the error, the refusal of a step, the slew and the offset, each millisecond. -/
def execDateClockUpdate (s : State) : Out :=
  if ! (s.powered .tim && s.dcValid) then .next s else
  let s := s.dcSync
  let s := if s.dcHeld && decide (s.tim.dcVal ≤ s.dcTarget) then s.wrb Reg.timDcStat 3 false else s
  let e := s.dcTarget - s.tim.dcVal
  let s := s.wr Reg.timDcErr (wordOf (clampI (-2147483648) 2147483647 (e / ptpMs)))
  let s := if s.dcHeld then s else s.stepJudge e
  let s := if decide ((e.natAbs : Int) < (s.rdf Reg.timJumpMax 26 0 : Nat) * ptpMs) then
      { s with tim := { s.tim with leap := false } } else s
  let free := ! s.dcHoldover && ! s.dcHeld
  let slew := if free then clampI (-ptpMs) ptpMs e else 0
  let s := { s with tim := { s.tim with slew := slew } }
  let s := s.wrs Reg.timDcStat 31 16 (slew / 32768000)
  let s := s.wrb Reg.timDcStat 4 (free && decide (ptpMs < e.natAbs))
  .next s.offsetUpdate

/-- TSC_COPY_CHECK (R12): a copy that differs from the master is reloaded and source 64 raised. -/
def execTscCopyCheck (_island : Fin 16) (copy : BitVec 64) (s : State) : Out :=
  .next (if s.powered .tim && copy != s.stamp then s.soot .tim 0 else s)

/-- RTC_EDGE_LATCH (R353): the RTC counts, and the always-on domain latches the pair. -/
def execRtcEdgeLatch (s : State) : Out :=
  if ! s.pwr.aon then .next s else
  let n := s.tim.rtc + 1
  let s := s.wr64 Reg.timRtcLo Reg.timRtcHi n.toNat
  .next { s with tim := { s.tim with
    rtc := n,
    latchTsc := if s.domOn 4 then s.now else s.tim.latchTsc,
    latchRtc := if s.domOn 4 then n else s.tim.latchRtc } }

/-- The always-on domain's waits, which run on while PD4 is off, keep their length when the TSC starts again at another
count (log entry 50). -/
def State.waitsMove (s : State) (d : Int) : State :=
  let mv := fun (t : Nat) => ((t : Int) + d).toNat
  { s with
    pwr := { s.pwr with
      slots := s.pwr.slots.map (fun e => (e.1, { e.2 with qualAt := e.2.qualAt.map mv, timeoutAt := e.2.timeoutAt.map mv })),
      switching := s.pwr.switching.map (fun e => (e.1, mv e.2)), fwAt := s.pwr.fwAt.map mv, lineAt := mv s.pwr.lineAt },
    thm := { s.thm with shutAt := s.thm.shutAt.map mv } }

/-- PD4 powers up (R353, R371): with its time kept the TSC starts from the latched pair, never less than a value issued
before, else from 0, and a date clock that was valid resumes. -/
def State.tscResume (s : State) : State :=
  let s := s.wrb Reg.timWakeStat 0 s.tim.offTsc.isSome
  let d := (s.tim.rtc - s.tim.latchRtc).toNat
  let t : Int := s.tim.latchTsc + (d * 390625 : Nat) * (10000000 + s.rds Reg.timRtcTrim 15 0) / 320000000
  let acc := match s.tim.offTsc with
    | some o => Nat.max o (t.toNat * 2 ^ 32)
    | none => 0
  let s := s.waitsMove ((acc / 2 ^ 32 : Nat) - (s.now : Int))
  let s := { s with tim := { s.tim with tscAcc := acc, latchTsc := acc / 2 ^ 32, latchRtc := s.tim.rtc } }
  let s := s.wrb Reg.timWakeStat 1 s.tim.dcKept
  if ! s.tim.dcKept then s.wrb Reg.timDcStat 6 s.floorValid else
  s.setDate (s.tim.dcVal + ((s.tim.tscAcc - s.tim.dcAcc) * 163840 / 2 ^ 32 : Nat))

/-- TIM_RATE_WRITE (R352): the value waits for the next reference edge; one outside ±2,147,484 is refused. -/
def execTimRateWrite (b : Bus) (v : Word) (s : State) : Out :=
  .next (busWrite b .tim 0x54 v (fun s =>
    if 2147484 < (sword v).natAbs then s.soot .tim 3
    else { s.wr Reg.timRate v with tim := { s.tim with ratePending := some (sword v) } }) s)

/-- TIM_RATE_APPLY (R352): the reference edge after a write. -/
def execTimRateApply (s : State) : Out :=
  match s.tim.ratePending with
  | some r => .next { s with tim := { s.tim with rate := r, ratePending := none } }
  | none => .next s

/-- STEP_PTP (R354): a write of TIM_CMD with bit 0 set. -/
def execStepPtp (b : Bus) (v : Word) (s : State) : Out :=
  .next (busWrite b .tim 0x64 (setBit v 0 true) (fun s => s.timCmd (setBit v 0 true)) s)

/-- LOCK_KICK (R355): a write of TIM_CMD with bit 1 set. -/
def execLockKick (b : Bus) (v : Word) (s : State) : Out :=
  .next (busWrite b .tim 0x64 (setBit v 1 true) (fun s => s.timCmd (setBit v 1 true)) s)

/-- UNLOCK (R355): a write of TIM_CMD with bit 2 set. -/
def execUnlock (b : Bus) (v : Word) (s : State) : Out :=
  .next (busWrite b .tim 0x64 (setBit v 2 true) (fun s => s.timCmd (setBit v 2 true)) s)

/-- ACCEPT_STEP (R370): a write of TIM_CMD with bit 3 set. -/
def execAcceptStep (b : Bus) (v : Word) (s : State) : Out :=
  .next (busWrite b .tim 0x64 (setBit v 3 true) (fun s => s.timCmd (setBit v 3 true)) s)

/-- SET_INITIAL (R371): a write of TIM_CMD with bit 4 set. -/
def execSetInitial (b : Bus) (v : Word) (s : State) : Out :=
  .next (busWrite b .tim 0x64 (setBit v 4 true) (fun s => s.timCmd (setBit v 4 true)) s)

/-- PTP_LOCK_TIMEOUT (R355): PTP_TMO since the last kick. -/
def execPtpLockTimeout (s : State) : Out :=
  .next (if s.powered .tim && s.locked && decide (s.rdf Reg.timPtpCfg 15 0 * msT ≤ s.now - s.tim.kickAt) then s.unlockPtp else s)

/-- The temperature of R356, in 0.1 °C: none, the mean of the good die sensors, or the analog input, whose scale the
spec does not give (a free value), as it does not give the mean of no sensor. -/
def State.holdTemp (s : State) : Option Int × State :=
  match s.rdf Reg.timHoCfg 9 8 with
  | 1 => match s.dieMean with
    | some t => (some t, s)
    | none => let (n, s) := s.drawNat; (some n, s)
  | 2 => let (n, s) := s.drawNat; (some n, s)
  | _ => (none, s)

/-- The rate of TSC advance in force (R352): the holdover rate while the date clock is in holdover. -/
def State.tscRate (s : State) : Int := if s.dcHoldover then s.tim.holdRate else s.tim.rate

/-- HOLDOVER_RATE_UPDATE (R356): once a second, the mean kept while LOCKED and the holdover rate. -/
def execHoldoverRateUpdate (s : State) : Out :=
  if ! s.powered .tim then .next s else
  let rates := if s.locked then (s.tscRate :: s.tim.rates).take 1024 else s.tim.rates
  let s := { s with tim := { s.tim with rates := rates } }
  let s := if s.locked then s.wr Reg.timRateAvg (wordOf (fdivI (rates.foldl (· + ·) 0) rates.length)) else s
  let avg := sword (s.rd Reg.timRateAvg)
  let (t, s) := s.holdTemp
  let term : Int := match t with
    | none => 0
    | some t =>
      let d := t - 10 * s.rds Reg.timHoCfg 7 0
      (1000 * s.rds Reg.timHoTcomp 15 0 * d + s.rds Reg.timHoTcomp 31 16 * d * d) * 2 ^ 32 / 10000000000000
  .next { s with tim := { s.tim with holdRate := avg + term } }

/-- FLOOR_UPDATE (R371): TIM_FLOOR takes the largest value issued. -/
def execFloorUpdate (s : State) : Out :=
  if ! (s.powered .tim && s.dcValid) then .next s else
  .next (if ! s.floorValid || decide (s.floorVal < s.dcNow) then
    (s.wr64 Reg.timFloorLo Reg.timFloorHi s.dateValue.toNat).wrb Reg.timDcStat 6 true else s)

/-- UTC_OFFSET_WRITE (R366): a change of more than 1 s is refused; one of 1 s is a leap second. -/
def execUtcOffsetWrite (b : Bus) (v : Word) (s : State) : Out :=
  .next (busWrite b .tim 0x6C v (fun s =>
    let d := ((fld v 15 0 : Nat) - (s.rdf Reg.timUtcOfs 15 0 : Nat) : Int)
    if 1 < d.natAbs then s.soot .tim 3
    else
      let s := s.dcSync
      let s := s.plainWrite Reg.timUtcOfs v
      if d = 0 then s else { s with tim := { s.tim with leap := true } }) s)

/-- Whether local time at UTC second `at_` going from offset `o` to `n` runs back across a midnight, or across the
rollover (R367); `seen` when the second `at_` itself has been shown at offset `o`. -/
def State.tzBackward (s : State) (at_ o n : Int) (seen : Bool) : Bool :=
  let lo := at_ + 60 * n
  let hi := at_ + 60 * o - (if seen then 0 else 1)
  let r := 60 * (s.rdf Reg.timRollover 10 0 : Nat)
  decide (n < o) && (decide (fdivI lo 86400 < fdivI hi 86400) || decide (fdivI (lo - r) 86400 < fdivI (hi - r) 86400))

/-- TZ_WRITE (R367): a write of TZk_AT or TZk_OFS, refused when the entry it leaves lies less than 1 s ahead of the date
clock, or moves local time back across a midnight or the rollover. -/
def execTzWrite (b : Bus) (k : Fin 8) (ofs : Bool) (v : Word) (s : State) : Out :=
  let off := 0x100 + 8 * k.val + (if ofs then 4 else 0)
  .next (busWrite b .tim off v (fun s =>
    let s' := s.plainWrite (pageBase .tim + off) v
    let at_ : Int := (s'.rdn (Reg.timTzAt k.val) : Nat)
    let near := s.dcValid && decide (at_ * ptpSec < s.dcNow + ptpSec)
    let back := s'.rdb (Reg.timTzOfs k.val) 31 &&
      s'.tzBackward at_ (s'.tzAt (at_ - 1) k.val) (s'.rds (Reg.timTzOfs k.val) 10 0) false
    if near || back then s.soot .tim 3 else s'.offsetUpdate) s)

/-- TZ_STD_WRITE (R367): refused when no entry is in force and local time would move back across a midnight or the
rollover. -/
def execTzStdWrite (b : Bus) (v : Word) (s : State) : Out :=
  .next (busWrite b .tim 0x90 v (fun s =>
    let at_ := s.dcSecs
    let inForce := (List.range 8).any (fun k => s.rdb (Reg.timTzOfs k) 31 && decide ((s.rdn (Reg.timTzAt k) : Int) ≤ at_))
    if s.dcValid && ! inForce && s.tzBackward at_ (s.rds Reg.timTzStd 10 0) (sfld v 10 0) true then s.soot .tim 3
    else (s.plainWrite Reg.timTzStd v).offsetUpdate) s)

/-- TIM writes with no row of their own: the ranges of R372. -/
def timWriteOk (off : Nat) (v : Word) : Bool :=
  if off = 0x70 then decide (1 ≤ fld v 26 0) && decide (fld v 26 0 ≤ 86400000)
  else if off = 0x8C then decide (fld v 10 0 ≤ 1439)
  else if off = 0x5C then decide ((sword v).natAbs ≤ 999999999)
  else true

/-- TSC_CAPTURE (R373): a read of TIM_TSC_LO captures the TSC and PTP time together. -/
def execTscCapture (b : Bus) (s : State) : Out :=
  .next (busRead b .tim 0x40 (fun s =>
    let p := s.ptpNow
    let sec := wrapN 48 (p / ptpSec)
    let s := s.wr64 Reg.timTscLo Reg.timTscHi s.now
    let s := s.wr Reg.timSnapNs (BitVec.ofNat 32 (p / 65536 % 1000000000).toNat)
    let s := s.wr Reg.timSnapSecLo (loW sec)
    s.wr Reg.timSnapSecHi (BitVec.ofNat 32 (sec / 2 ^ 32 + (p % 65536).toNat * 65536))) s)

/-- DATE_CLOCK_CAPTURE (R373): a read of TIM_DC_LO captures TIM_DC_HI. -/
def execDateClockCapture (b : Bus) (s : State) : Out :=
  .next (busRead b .tim 0x7C (fun s => s.wr64 Reg.timDcLo Reg.timDcHi s.dateValue.toNat) s)

end Sys2Proof.Machine
end

