-- ==== Sys2Proof/Machine/Warp.lean ====
section
/-! DEFINITION. Encoders as positions: the warp, velocity and acceleration of physical and virtual encoders
(spec/03, R57 to R65, R88, R89). -/
namespace Sys2Proof.Machine

/-- Signed difference of two 48-bit positions (R62). -/
def sdiff48 (a b : BitVec 48) : Int := signed 48 (a - b).toNat

/-- Logical encoder `e` decodes: its EN is 1 (R57). -/
def State.encOn (s : State) (e : Nat) : Bool := s.rdb (Reg.linEncCfg e) 0

/-- Magnitude of a signed 32-bit velocity. -/
def velMag (v : BitVec 32) : Nat := (sword v).natAbs

/-- The fraction between edges (R60): time since the last count times velocity, clamped short of the next edge; held after
a stop (R61); 0 while disabled (R57). -/
def State.encFrac (s : State) (e : Nat) : Nat :=
  let x := s.enc e
  if ! s.encOn e then 0
  else if x.vel = 0 then x.frozen.toNat
  else satN 0xFFFF ((s.now - x.tEdge) * velMag x.vel / 65536)

/-- Physical encoder `e`'s warp in 2^-16 counts, the fraction in the direction of motion, modulo 2^64 (R60, R62). -/
def State.encPos (s : State) (e : Nat) : Nat :=
  let x := s.enc e
  let f : Int := (s.encFrac e : Nat)
  wrapN 64 ((x.warp.toNat * 65536 : Nat) + (if x.down then -f else f))

/-- Virtual encoder `v`'s warp in 2^-32 counts, modulo 2^80 (R65): it advances only while enabled. -/
def State.vencPos (s : State) (v : Nat) : Nat :=
  let x := s.venc v
  if s.rdb (Reg.linVencCfg v) 0 then (x.pos.toNat + (s.now - x.t0) * s.rdn (Reg.linVencRateNow v)) % 2 ^ 80 else x.pos.toNat

/-- The virtual encoder's warp brought up to the present, so that its rate can change without a step (R65). -/
def State.vencSync (s : State) (v : Nat) : State := s.updVenc v (fun x => { x with pos := BitVec.ofNat 80 (s.vencPos v), t0 := s.now })

/-- Encoder ID `id` (R65): the accumulated count, 48 bits, on which positions are compared. -/
def State.warpInt (s : State) (id : Nat) : BitVec 48 :=
  if id < 8 then (s.enc id).warp else BitVec.ofNat 48 (s.vencPos (id - 8) / 2 ^ 32)

/-- Its low 32 bits (R62). -/
def State.warpLow (s : State) (id : Nat) : Word := (s.warpInt id).truncate 32

/-- The whole position in 2^-16 counts, modulo 2^64. -/
def State.warpFix (s : State) (id : Nat) : Nat :=
  if id < 8 then s.encPos id else s.vencPos (id - 8) / 65536

/-- Velocity in 2^-32 counts per tick, acceleration in 2^-56 counts per tick squared (R61, R65). -/
def State.warpVel (s : State) (id : Nat) : BitVec 32 :=
  if id < 8 then (s.enc id).vel
  else if s.rdb (Reg.linVencCfg (id - 8)) 0 then s.rd (Reg.linVencRateNow (id - 8)) else 0
def State.warpAcc (s : State) (id : Nat) : BitVec 32 := if id < 8 then (s.enc id).acc else 0

/-- Speed of an encoder: a virtual encoder's rate is unsigned (R65, R98). -/
def State.warpSpeed (s : State) (id : Nat) : Nat := if id < 8 then velMag (s.warpVel id) else (s.warpVel id).toNat

/-- The velocity as a signed number. -/
def State.warpVelI (s : State) (id : Nat) : Int := if id < 8 then sword (s.warpVel id) else ((s.warpVel id).toNat : Nat)

/-- Whether the warp has reached a 32-bit position going forward (R62). -/
def State.warpAt (s : State) (id : Nat) (pos : Word) : Bool := decide (0 ≤ sdiff (s.warpLow id) pos)

/-- The encoder is REVERSING (R63, LIN_STAT); a virtual one never is (R65). -/
def State.reversing (s : State) (id : Nat) : Bool := decide (id < 8) && s.rdb Reg.linStat (16 + id)

/-! ### Counts -/

/-- A number divided, to the nearest. -/
def divNear (a b : Nat) : Nat := if b = 0 then a else (2 * a + b) / (2 * b)

/-- Velocity from stamps, newest first (R61): 16 counts, or as many as there are, by the time between their stamps. -/
def velOf (stamps : List Nat) (down : Bool) : Int :=
  let k := Nat.min 16 (stamps.length - 1)
  if k = 0 then 0 else
  let v : Int := divNear (k * 2 ^ 32) (Nat.max 1 (stamps.getD 0 0 - stamps.getD k 0))
  if down then -v else v

/-- Acceleration (R61): present velocity less the velocity 16 counts earlier, by the time between their windows' middles;
0 until 32 counts have followed the first. -/
def accOf (stamps : List Nat) (down : Bool) : Int :=
  if stamps.length < 33 then 0 else
  let dv := velOf stamps down - velOf (stamps.drop 16) down
  let dt := Nat.max 1 (stamps.getD 0 0 - stamps.getD 32 0)
  let q : Int := divNear (dv.natAbs * 2 ^ 25) dt
  if dv < 0 then -q else q

/-- The high-water and REVERSING after a move (R63); whether a reversal begins. -/
def State.highWater (s : State) (e : Nat) : State × Bool :=
  let w := (s.enc e).warp
  let high := BitVec.ofNat 48 (s.rd64 (Reg.linEncHighLo e) (Reg.linEncHighHi e))
  if 0 ≤ sdiff48 w high then
    (((s.wr64 (Reg.linEncHighLo e) (Reg.linEncHighHi e) w.toNat).wrb Reg.linStat (16 + e) false), false)
  else if s.reversing e || decide (sdiff48 high w ≤ (s.rdf (Reg.linEncCfg e) 19 12 : Nat)) then (s, false)
  else
    (((s.wrb Reg.linStat (16 + e) true).wrb (Reg.linEncStat e) 2 true).irq .lin e, true)

/-- ENTRY_ABORT (R482): a count or a qualifying product in entry steps 1 and 2 returns the request to waiting. -/
def State.entryAbort (s : State) : State :=
  if s.rdf Reg.pwrStat 5 3 = 2 ∧ s.pwr.fwAt.isSome then
    let s := ((s.wrf Reg.pwrStat 5 3 1).cnt Reg.pwrCnt 31 16).irq .pwr 2
    { s with pwr := { s.pwr with fwAt := none } }
  else s

/-- An accepted count, or the two of a phase error, moves encoder `e` (R57, R59 to R61): a start or a change of direction
discards the stamps before it; a phase error's counts are no part of the velocity window.  Whether a reversal begins. -/
def State.encMove (s : State) (e : Nat) (down phase : Bool) (at_ : Nat) : State × Bool :=
  let x := s.enc e
  let fresh := ! x.started || x.vel == 0 && ! s.rdb (Reg.linEncStat e) 0 || down != x.down
  let stamps := if phase then x.stamps else (at_ :: (if fresh then [] else x.stamps)).take 33
  let n : Nat := if phase then 2 else 1
  let s := s.setEnc e { x with
    warp := if down then x.warp - BitVec.ofNat 48 n else x.warp + BitVec.ofNat 48 n, tEdge := at_, frozen := 0,
    stamps := stamps, vel := wordOf (velOf stamps down), acc := wordOf (accOf stamps down), down := down, started := true }
  let s := (s.wrb (Reg.linEncStat e) 0 true).wrb (Reg.linEncStat e) 1 down
  let s := { s with pwr := { s.pwr with lineAt := s.now } }.entryAbort
  s.highWater e

/-- The direction of a single transition (R57): up when A leads B, inverted by INVERT_DIR. -/
def encDown (a b a' b' inv : Bool) : Bool :=
  let up := if a != a' then a' != b else b' == a
  (! up) != inv

/-- New levels of A and B accepted on enabled encoder `e` (R57, R59). -/
def State.encAB (s : State) (e : Nat) (a b : Bool) (at_ : Nat) : State × Bool :=
  let x := s.enc e
  let s := s.updEnc e (fun x => { x with a := a, b := b })
  if a = x.a ∧ b = x.b then (s, false)
  else if a ≠ x.a ∧ b ≠ x.b then
    let s := (s.wrb (Reg.linEncStat e) 3 true).cnt (Reg.linEncPherrCnt e) 15 0
    (s.soot .lin e).encMove e x.down true at_
  else s.encMove e (encDown x.a x.b a b (s.rdb (Reg.linEncCfg e) 1)) false at_

/-- Z_INDEX_LATCH (R64): a rising Z latches warp and stamp and, when checked, must lie ZPER from the latch before. -/
def State.encZ (s : State) (e : Nat) (z : Bool) : State :=
  let x := s.enc e
  let s := s.updEnc e (fun x => { x with z := z })
  if ! z || x.z || ! s.rdb (Reg.linEncCfg e) 2 then s else
  let old := BitVec.ofNat 48 (s.rd64 (Reg.linEncZposLo e) (Reg.linEncZposHi e))
  let s := s.wr64 (Reg.linEncZposLo e) (Reg.linEncZposHi e) x.warp.toNat
  let d := (sdiff48 x.warp old).natAbs
  let per := s.rdf (Reg.linEncZper e) 23 0
  let tol := s.rdf (Reg.linEncZper e) 31 24
  let bad := s.rdb (Reg.linEncCfg e) 3 && x.zSeen && ! (decide (per ≤ d + tol) && decide (d ≤ per + tol))
  let s := s.updEnc e (fun x => { x with zSeen := true })
  if bad then (s.wrb (Reg.linEncStat e) 4 true).soot .lin 11 else s

/-- No count for STOP_T (R61): velocity and acceleration 0, MOVING clear, the fraction frozen. -/
def State.encStop (s : State) (e : Nat) : State :=
  let f := s.encFrac e
  (s.updEnc e (fun x => { x with vel := 0, acc := 0, frozen := BitVec.ofNat 16 f, stamps := [] })).wrb (Reg.linEncStat e) 0 false

/-- The encoder's EN has been cleared (R57): the warp holds, its fraction, velocity and acceleration are 0. -/
def State.encOff (s : State) (e : Nat) : State :=
  (s.updEnc e (fun x => { x with vel := 0, acc := 0, frozen := 0, stamps := [], started := false })).wrb (Reg.linEncStat e) 0 false

/-- A 64-bit position in 2^-16 counts shown in three registers: fraction, low and high integer. -/
def State.showPos (s : State) (frac lo hi p : Nat) : State :=
  ((s.wr frac (BitVec.ofNat 32 (p % 65536))).wr lo (loW (p / 65536))).wr hi (BitVec.ofNat 32 (p / 2 ^ 48 % 65536))

/-- ENC_POS_CAPTURE (R88): a read of LIN_ENCe_POS_FRAC captures position, velocity, acceleration and TSC together. -/
def execEncPosCapture (b : Bus) (e : Fin 8) (s : State) : Out :=
  .next (busRead b .lin (0x104 + 0x40 * e.val) (fun s =>
    let s := s.showPos (Reg.linEncPosFrac e.val) (Reg.linEncPosLo e.val) (Reg.linEncPosHi e.val) (s.encPos e.val)
    let s := (s.wr (Reg.linEncVel e.val) (s.enc e.val).vel).wr (Reg.linEncAcc e.val) (s.enc e.val).acc
    s.wr64 (Reg.linEncSnapLo e.val) (Reg.linEncSnapHi e.val) s.now) s)

/-- VENC_POS_CAPTURE (R89). -/
def execVencPosCapture (b : Bus) (v : Fin 8) (s : State) : Out :=
  .next (busRead b .lin (0x308 + 0x20 * v.val) (fun s =>
    s.showPos (Reg.linVencPosFrac v.val) (Reg.linVencPosLo v.val) (Reg.linVencPosHi v.val) (s.warpFix (8 + v.val))) s)

end Sys2Proof.Machine
end

