-- ==== Sys2Proof/Machine/JobCore.lean ====
section
/-! DEFINITION. Mark jobs as every unit sees them: conditions, events, leaving the table, abort orders (spec/04, R92 to
R106, R112, R117, R118; spec/01, R18 to R30). -/
namespace Sys2Proof.Machine

/-! ### Conditions -/

/-- Rank of a condition or verdict (R20); 0 is none. -/
def condRank (c : Nat) : Nat :=
  match c with
  | 0x9 => 1 | 0x8 => 2 | 0xA => 3 | 0x7 => 4 | 0xC => 5 | 0xB => 6 | 0x6 => 7 | 0xE => 8 | 0xF => 9 | 0x2 => 10
  | 0x3 => 11 | 0x4 => 12 | 0x5 => 13 | 0xD => 14 | 0x1 => 15 | _ => 16

/-- The higher-ranking of two conditions (R19, R20). -/
def condMax (a b : BitVec 4) : BitVec 4 := if condRank b.toNat < condRank a.toNat then b else a

/-- A condition added to a job. -/
def State.addCond (s : State) (n j : Nat) (c : BitVec 4) : State := s.updJob n j (fun e => { e with cond := condMax e.cond c })

/-- Jobs of channel `n` in a state; the MARKING job. -/
def State.jobsIn (s : State) (n : Nat) (st : JobSt) : List Nat :=
  ((s.chan n).jobs.filter (fun e => e.2.st == st)).map (fun e => e.1)
def State.markJob (s : State) (n : Nat) : Option Nat := (s.jobsIn n .marking).head?
def State.marking (s : State) (n : Nat) : Bool := (s.markJob n).isSome

/-- A condition added to every MARKING job of a channel. -/
def State.condMarking (s : State) (n : Nat) (c : BitVec 4) : State := forL (s.jobsIn n .marking) (fun j s => s.addCond n j c) s

/-! ### Status of a unit -/

/-- Job-table occupancy shown (R123): USED, FULL, the peak, and the full interrupt of a channel's page. -/
def State.usedShow (s : State) (u used : Nat) : State :=
  let full := decide (256 ≤ used)
  let was := s.rdb (Reg.chjStat u) 9
  let s := ((s.wrf (Reg.chjStat u) 8 0 used).wrb (Reg.chjStat u) 9 full).peak (Reg.chjPeak u) 8 0 used
  if full && ! was && decide (u < 16) then s.irq (chPage u 2) 1 else s

/-- A write of PG_CTRL of child `k` of channel `n` is held (R40). -/
def State.ctrlPending (s : State) (n k : Nat) : Bool := (s.chan n).heldDisable.contains k || (s.chan n).heldReset.contains k

/-- STATE and BUSY of a port page (R37, R39). -/
def State.portShow (s : State) (n : Nat) : State :=
  let p := chPage n 3
  let m := s.marking n
  let st := if ! s.enabled p then 0 else if s.inSafe n then 5 else if s.ctrlPending n 3 then 4 else if m then 3 else 2
  (s.setStat p st).wrb (Reg.pgStat p) 1 m

/-- CH_STAT's RUNNING, MARKING and HALT_PENDING and the STATE of header and port brought up to date (R39, R121). -/
def State.chanShow (s : State) (n : Nat) : State :=
  let on := s.enabled (chPage n 0)
  let used := (s.chan n).jobs.length
  let s := s.wrb (Reg.chStat n) 0 (on && s.rdb (Reg.chCtrl n) 0)
  let s := s.wrb (Reg.chStat n) 1 (s.marking n)
  let s := s.wrb (Reg.chStat n) 2 ((s.chan n).heldDisable.contains 0)
  let st := if ! on then 0 else if s.inSafe n then 5 else if s.ctrlPending n 0 then 4 else if used = 0 then 2 else 3
  let s := (s.setStat (chPage n 0) st).usedShow n used
  (s.wrb (Reg.pgStat (chPage n 0)) 1 (used != 0)).portShow n

/-- The state a channel's pages show when it leaves SAFE (R39, R423). -/
def State.chanIdleState (s : State) (n : Nat) : State := s.chanShow n

/-- CH_STAT.DAMPER_PAUSE (R460). -/
def State.setDamperPause (s : State) (n : Nat) (on : Bool) : State := s.wrb (Reg.chStat n) 4 on

/-! ### Events -/

/-- An event of channel `n` (R106): an entry of queue 4n + 3 and one for TP_EVENT. -/
def State.chanEvent (s : State) (n kind j : Nat) (seq : Word) : State :=
  let bytes := leBytes 4 (kind + 256 * j) ++ leBytes 4 seq.toNat ++ leBytes 8 s.now
  (s.qPush (4 * n + 3) bytes).updSeq n (fun q => { q with events := q.events ++ [⟨BitVec.ofNat 8 kind, BitVec.ofNat 8 j⟩] })

/-- An event about a job. -/
def State.jobEvent (s : State) (n kind j : Nat) : State := s.chanEvent n kind j (s.job n j).jobSeq

/-! ### Gate, strobes and engines -/

/-- The gate of laser channel `n` (R200, R217): its pin, LP_STAT.GATE, and gate-on time when it falls. -/
def State.gateSet (s : State) (n : Nat) (on : Bool) : State :=
  let l := s.las n
  if l.gate = on then s else
  let mask := BitVec.ofNat 16 (2 ^ n)
  let pins := { s.pins with gate := if on then s.pins.gate ||| mask else s.pins.gate &&& ~~~mask }
  let s := { s with pins := pins }.wrb (Reg.lpStat n) 1 on
  if on then s.setLas n { l with gate := true, gateSince := s.now } else
  let t := l.onTicks + (s.now - l.gateSince)
  let ms := t / msT
  let s := s.setLas n { l with gate := false, onTicks := t % msT }
  (s.cntN (Reg.lpOnTime n) 31 0 ms).wearAdd (48 + n) ms

/-- The laser executor of channel `n` stops: gate low, nothing in execution, the target held (R112, R203). -/
def State.laserIdle (s : State) (n : Nat) : State :=
  let s := s.gateSet n false
  let stop (l : LaserState) : LaserState := if l.job = 256 ∨ l.phase = BeamPhase.ended then l else { l with
    field := true, x := l.tgtX, y := l.tgtY, fromX := l.tgtX, fromY := l.tgtY, toX := l.tgtX, toY := l.tgtY,
    motStart := s.now, motEnd := s.now }
  let s := s.updLas n stop
  let s := s.updLas n (fun l => { l with
    phase := .ready, job := 256, blockLoaded := false, gateRise := none, gateFall := none, gateCmd := false,
    heldVstart := l.heldVstart && l.job != 256, dwelling := false, dotDwell := none, dwellSince := none, tracking := false, blankBlock := false, blankJob := false,
    blankToJump := false })
  if s.isLaser n then forL [0, 4, 6, 7, 9] (fun b s => s.wrb (Reg.lpStat n) b false) s else s

/-- Ticks of a motion of (dx, dy) at a speed in units per µs, to the nearest (R200); open at speed 0. -/
def motionTicks (dx dy : Int) (speed : Nat) : Nat :=
  let n := dx.natAbs * dx.natAbs + dy.natAbs * dy.natAbs
  if n = 0 then 0
  else if speed = 0 then (Config.scaled dx dy 0).toNat
  else (isqrt (4 * n * 160000 / (speed * speed)) + 1) / 2

/-- The jump to LP_PARK_X, LP_PARK_Y of a channel with nothing in execution, a field point (R202, R217). -/
def State.laserPark (s : State) (n : Nat) : State :=
  let l := s.las n
  let px := s.rds (Reg.lpParkX n) 23 0
  let py := s.rds (Reg.lpParkY n) 23 0
  s.setLas n { l with
    field := true, x := px, y := py, fromX := l.tgtX, fromY := l.tgtY, toX := px, toY := py, motStart := s.now,
    motEnd := s.now + motionTicks (px - l.tgtX) (py - l.tgtY) (s.rdf (Reg.lpSpeed n) 31 16) }

/-- The line in progress on channel `n` is over (R165): strobes off, LINE_ACTIVE clear. -/
def State.lineOff (s : State) (n : Nat) : State :=
  let mask := BitVec.ofNat 16 (2 ^ n)
  ({ s with pins := { s.pins with strobe := s.pins.strobe &&& ~~~mask } }).wrb (Reg.hpStat n) 0 false

/-- Lines whose line_end has come are over (R165); it happens as time passes. -/
def State.linesOver (s : State) : State :=
  forL s.thermal.ports (fun e s =>
    if s.pins.strobe.toNat.testBit e.1 && decide (e.2.lineEnd ≤ s.now) then s.lineOff e.1 else s) s

/-- The thermal port of channel `n` fires no further line: strobes off (R112, R164). -/
def State.thermIdle (s : State) (n : Nat) : State :=
  let s := if s.isLaser n then s else ((s.lineOff n).wrb (Reg.hpStat n) 7 false)
  s.updTherm n (fun t => { t with
    computed := none, waiting := [], fired := false, nextLine := 0, dummy := false, unread := none,
    history := [], lastFired := false, ending := false, shift := 0 })

/-- The engine of a channel's mode stops. -/
def State.engineIdle (s : State) (n : Nat) : State := if s.isLaser n then s.laserIdle n else s.thermIdle n

/-- A line or block has fired: STALLED clears (R104). -/
def State.fired (s : State) (n : Nat) : State :=
  (s.updChan n (fun c => { c with lastFire := s.now })).wrb (Reg.chStat n) 3 false

/-- A check of Banking on a laser channel ends (R498). -/
def State.galvoStop (s : State) (n : Nat) : State :=
  let s := { s with bkg := { s.bkg with galvo := tabPut none s.bkg.galvo n none } }
  if s.bkg.galvo.isEmpty then s.wrb Reg.bkgStat 4 false else s

/-! ### Content ring -/

/-- Blocks at the front of the ring that are all released leave it (R327). -/
def ringTrim : List RingBlock → List RingBlock
  | [] => []
  | b :: t => if b.released then ringTrim t else b :: t

/-- Bytes of the ring delivered and not yet returned (R303, R327). -/
def RingState.used (r : RingState) : Nat := r.blocks.foldl (fun a b => a + b.len) 0

/-- Ring space of a job released in delivery order (R327). -/
def State.ringRelease (s : State) (n : Nat) (tag : Word) : State :=
  s.updRing n (fun r => { r with
    blocks := ringTrim (r.blocks.map (fun b => if b.tag = tag then { b with released := true } else b)) })

/-- PANIC_CHANGE (R303, R304): the channels that panic, the ports' states and the count of starts. -/
def State.panicUpdate (s : State) : State :=
  if ! s.domOn 5 then s else
  let one (n : Nat) : Bool :=
    let level := s.rdf (Reg.ddrPanicLvl (n / 4)) (8 * (n % 4) + 7) (8 * (n % 4))
    (s.dch n).desc.isSome && level != 0 && decide ((s.ring n).used < 1024 * level)
  let now_ := BitVec.ofNat 16 ((List.range 16).foldl (fun a n => if one n then a + 2 ^ n else a) 0)
  let was := s.ddr.panic
  let s := { s with ddr := { s.ddr with panic := now_ } }
  let side (s : State) (m : BitVec 16) (b : Nat) : State :=
    let p := now_ &&& m != 0
    let s := s.wrb Reg.ddrStat b p
    if p && was &&& m == 0 then s.cnt Reg.ddrPanicCnt 15 0 else s
  side (side s 0x00FF 8) 0xFF00 9

/-! ### Render requests (R125, R126, R159) -/

/-- The template slot of a unit's job. -/
def State.reqTpl (s : State) (r : RenderReq) : Option Template := match r.tplSlot with
  | some k => s.tplSlot k
  | none => none

/-- The member jobs of a render request that stand in their tables: the channel's own job, or the station's members (R126). -/
def State.reqJobs (s : State) (r : RenderReq) : List (Nat × Nat) :=
  if r.unit < 16 then (if (s.job r.unit r.job).st = .free then [] else [(r.unit, r.job)])
  else (List.range 16).flatMap (fun n =>
    ((s.chan n).jobs.filter (fun e => e.2.stnJob == some (r.unit - 16, r.job))).map (fun e => (n, e.1)))

/-- Staging area of a unit, in 16-byte units, and what is free of it (R126). -/
def State.stgSize (s : State) : Nat := 2 ^ (s.rdf Reg.dmkStgSize 4 0 - 4)
def State.stgFree (s : State) (u : Nat) : Nat :=
  s.stgSize - (s.dmk.holds.foldl (fun a h => if h.unit = u then a + h.len else a) 0)

/-- A block of `len` units fits between the holds of area `u` at `ofs`, round the area's end. -/
def State.stgFits (s : State) (u len ofs : Nat) : Bool :=
  s.dmk.holds.all (fun h => h.unit != u ||
    (decide (len ≤ (h.ofs + s.stgSize - ofs) % s.stgSize) && decide (h.len ≤ (ofs + s.stgSize - h.ofs) % s.stgSize)))

/-- The place a render takes in area `u`: the area's start or the end of a hold, the first that fits (log entry 20). -/
def State.stgPlace (s : State) (u len : Nat) : Option Nat :=
  ((0 :: s.dmk.holds.filterMap (fun h => if h.unit = u then some ((h.ofs + h.len) % s.stgSize) else none))).find?
    (fun o => s.stgFits u len o)

/-- MAX_LEN of a request's template, 0 without one; whether some destination area has no room for it (R126). -/
def State.reqLen (s : State) (r : RenderReq) : Nat := match s.reqTpl r with
  | some t => t.maxLen
  | none => 0
def State.reqNoSpace (s : State) (r : RenderReq) : Bool :=
  s.reqLen r != 0 && (s.reqJobs r).any (fun d => (s.stgPlace d.1 (s.reqLen r)).isNone || decide (s.stgFree d.1 < s.reqLen r))

/-- Renders pending (R125); DMK_STAT as the render queue stands (R159), its peak, and the full interrupt. -/
def State.pendingRenders (s : State) : Nat := (s.dmk.reqs.filter (fun r => r.phase != RenderPhase.waiting)).length
def State.dmkShow (s : State) : State :=
  if ! s.domOn 6 then s else
  let n := s.pendingRenders
  let full := decide (64 ≤ n)
  let was := s.rdb Reg.dmkStat 7
  let s := ((s.wrf Reg.dmkStat 6 0 n).wrb Reg.dmkStat 7 full).peak Reg.dmkPeak 6 0 n
  let s := s.wrf Reg.dmkStat 9 8 ((List.range 2).foldl (fun a e => if s.dmk.reqs.any (fun r => r.phase == RenderPhase.engine e) then a + 2 ^ e else a) 0)
  let s := s.wrb Reg.dmkStat 10 (s.dmk.reqs.any (fun r => r.phase == RenderPhase.pending && s.reqNoSpace r))
  let s := s.wrb Reg.dmkStat 11 s.dcValid
  let s := s.wrf Reg.dmkStat 21 16 (numsWhere 32 (fun k => (s.tplSlot k).isSome)).length
  if full && ! was then s.irq .dmk 2 else s

/-- Job `j` of unit `u` has left: its request goes with it; one on an engine runs on for a job that is no more (log entry 21). -/
def State.renderLeft (s : State) (u j : Nat) : State :=
  if s.dmk.reqs.any (fun r => r.unit == u && r.job == j) then
    let keep := s.dmk.reqs.filterMap (fun r =>
      if r.unit = u ∧ r.job = j then (match r.phase with | .engine _ => some { r with job := 256 } | _ => none) else some r)
    { s with dmk := { s.dmk with reqs := keep } }.dmkShow
  else s

/-! ### Leaving -/

/-- A verdict posted to the tracking table (R69, R71): applied when the entry is valid and its ID matches, else late. -/
def State.postVerdict (s : State) (n : Nat) (e : JobEntry) : State × Bool :=
  if e.noTrk || ! s.domOn 4 then (s, false) else
  let t := s.trk e.trkIdx.toNat
  if t.valid && t.productId == e.productId then
    let m := ~~~(BitVec.ofNat 64 (0xF * 2 ^ (4 * n)))
    (s.setTrk e.trkIdx.toNat { t with verdict := (t.verdict &&& m) ||| BitVec.ofNat 64 (e.verdict.toNat * 2 ^ (4 * n)) }, false)
  else ((s.cnt Reg.linCntLate 15 0).irq .lin 10, true)

/-- A verdict-queue entry (R106). -/
def verdictBytes (e : JobEntry) (late : Bool) (now_ : Nat) : List Byte :=
  let exit := match e.st with | .done => 5 | .aborted => 6 | .refused => 7 | _ => 8
  leBytes 4 e.productId.toNat ++ leBytes 4 e.jobSeq.toNat ++
    leBytes 4 (e.verdict.toNat + exit * 16 + e.trkIdx.toNat * 256 + b2n e.noTrk * 2 ^ 20 + b2n late * 2 ^ 21) ++ leBytes 4 now_

/-- A between-mark pause starts on a channel whose job leaves MARKING (R460). -/
def State.markPauseStart (s : State) (n : Nat) : State :=
  let l := s.rdf Reg.thmDmpStat 2 0
  let t := s.rdf (Reg.thmDmpL l) 31 20 * 10 * usT
  if l = 0 || ! s.rdb Reg.thmDmpCfg (16 + n) || t = 0 || ! s.domOn 4 then s else
  { s with thm := { s.thm with pauseAt := tabPut none s.thm.pauseAt n (some (s.now + t)) } }.setDamperPause n true

/-- The effects of a job's exit outside the table (R106): verdict, tracking table, verdict queue, record, counters, ring.
`reserved` says that it holds a record slot; a job that leaves without one takes a free slot, or is counted unrecorded. -/
def State.leaveOut (s : State) (n : Nat) (e : JobEntry) (reserved : Bool) : State × JobEntry :=
  let free := reserved || s.recFree n
  let cond := if free then e.cond else condMax e.cond 0xE
  let e := { e with verdict := if e.st = .done ∧ cond = 0 then 1 else cond, cond := cond }
  let (s, late) := s.postVerdict n e
  let full := ! (s.queue (4 * n + 1)).canPush
  let s := s.qPush (4 * n + 1) (verdictBytes e late s.now)
  let s := if full then (s.cnt (Reg.chjVqDrop n) 15 0).irq (chPage n 2) 3 else s
  let s := if free then (if reserved then s else s.qReserve (4 * n + 2)).recHand n e late s.dateValue else s.unrecorded n
  let s := match e.st with
    | .refused => s.cntW (Reg.chjCntRefused n)
    | .missed => s.cntW (Reg.chjCntMissed n)
    | .aborted => s.cntW (Reg.chjCntAborted n)
    | _ => s
  let s := if e.verdict = 1 then s.cntW (Reg.chCntOk n) else
    let s := (s.cntW (Reg.chCntNotOk n)).irq (chPage n 2) 0
    { s with bkg := { s.bkg with notOk := tabPut 0 s.bkg.notOk n (tabGet 0 s.bkg.notOk n + 1) } }
  ((s.ringRelease n e.jobSeq).panicUpdate, e)

/-- Job `j` of channel `n` leaves by an exit (R106): its effects, then the entry is free.  A render request of it
goes with it (R125).  The entry as it left. -/
def State.leaveJob (s : State) (n j : Nat) (st : JobSt) : State × JobEntry :=
  let e := s.job n j
  let reserved := e.st == .armed || e.st == .marking
  let wasMark := e.st == .marking
  let (s, e) := s.leaveOut n { e with st := st } reserved
  let s := s.setJob n j JobEntry.reset
  let s := s.renderLeft n j
  let s := if wasMark then
      let s := (s.updChan n (fun c => { c with lastMarkEnd := s.now, heldEnd := none })).engineIdle n
      (s.wrb (Reg.chStat n) 3 false).markPauseStart n
    else if e.st == .armed && (s.jobsIn n .armed).isEmpty then s.updLas n (fun l => { l with heldVstart := false })
    else s
  (s.chanShow n, e)

/-! ### Stations -/

/-- A member job of station job (k, sj) has left with a verdict and an exit (R18, R117). -/
def State.stnCount (s : State) (k sj : Nat) (v : BitVec 4) (exit : JobSt) : State :=
  let x := s.stnJob k sj
  let higher := decide (condRank v.toNat < condRank x.worst.toNat)
  s.setStnJob k sj { x with
    left := x.left - 1, worst := if higher then v else x.worst,
    entry := if higher then { x.entry with st := exit } else x.entry }

/-- STATION_JOB_LEAVE (R117): every member job has left; the verdict goes to queue 96 + k and the entry is free. -/
def State.stnClose (s : State) (k sj : Nat) : State :=
  let x := s.stnJob k sj
  let e := { x.entry with verdict := x.worst }
  let s := s.qPush (96 + k) (verdictBytes e false s.now)
  let s := s.wrf (Reg.stnVerdictLast k) 3 0 x.worst.toNat
  let s := if x.worst = 1 then s.cntW (Reg.chCntOk (16 + k)) else s.cntW (Reg.chCntNotOk (16 + k))
  let s := match e.st with
    | .refused => s.cntW (Reg.chjCntRefused (16 + k))
    | .missed => s.cntW (Reg.chjCntMissed (16 + k))
    | .aborted => s.cntW (Reg.chjCntAborted (16 + k))
    | _ => s
  let s := s.setStnJob k sj StnJob.reset
  let s := s.renderLeft (16 + k) sj
  s.usedShow (16 + k) (s.stn k).jobs.length

/-- ATOMIC_INHIBIT (R118): every member job of station job (k, sj) that is not MARKING leaves REFUSED with INHIBITED;
`fuel` bounds the nesting of stations, which is 3 (R17). -/
def State.stnInhibit : Nat → Nat → Nat → State → State
  | 0, _, _, s => s
  | fuel + 1, k, sj, s =>
    let s := forN 16 (fun n s =>
      forL (s.chan n).jobs (fun e s =>
        if e.2.stnJob = some (k, sj) ∧ e.2.st ≠ .marking then
          let s := s.addCond n e.1 0xF
          let (s, e) := s.leaveJob n e.1 .refused
          s.stnCount k sj e.verdict e.st
        else s) s) s
    forN 8 (fun k' s =>
      forL (s.stn k').jobs (fun e s =>
        if e.2.entry.stnJob = some (k, sj) then
          let s := s.stnInhibit fuel k' e.1
          let x := s.stnJob k' e.1
          if x.left = 0 then (s.stnClose k' e.1).stnCount k sj x.worst x.entry.st else s
        else s) s) s

/-- What a member's exit does to its station job, and to the stations above (R117, R118). -/
def State.stnLeft : Nat → Nat → Nat → BitVec 4 → JobSt → State → State
  | 0, _, _, _, _, s => s
  | fuel + 1, k, sj, v, exit, s =>
    let s := s.stnCount k sj v exit
    let s := if s.rdb (Reg.stnCfg k) 1 && (exit == .refused || exit == .missed) then s.stnInhibit 4 k sj else s
    let x := s.stnJob k sj
    if x.left ≠ 0 then s else
    let s := s.stnClose k sj
    match x.entry.stnJob with
    | some (k', sj') => s.stnLeft fuel k' sj' x.worst x.entry.st
    | none => s

/-- A job leaves the table, with all that follows in its station (R106, R117, R118). -/
def State.jobLeave (s : State) (n j : Nat) (st : JobSt) : State :=
  let (s, e) := s.leaveJob n j st
  match e.stnJob with
  | some (k, sj) => s.stnLeft 4 k sj e.verdict e.st
  | none => s

/-- A job that still stands in its state leaves with a condition added. -/
def State.jobLeaveWith (s : State) (n j : Nat) (c : BitVec 4) (st : JobSt) : State := (s.addCond n j c).jobLeave n j st

/-! ### Abort orders -/

/-- Every job in the part takes a condition (R94: abort orders come first, safe state first). -/
def State.condAll (s : State) (c : BitVec 4) : State :=
  forN 16 (fun n s => forL (s.chan n).jobs (fun e s => s.addCond n e.1 c) s) s

/-- An abort order on channel `n` (R105, R112): the edge queue is flushed, a wait wakes with cause 1, MARKING jobs end
ABORTED and all others REFUSED; `dev` is the safe state's order. -/
def State.abortChannelJobs (s : State) (n : Nat) (dev : Bool) : State :=
  let c : BitVec 4 := if dev then 9 else 8
  let s := if dev then s.condAll c else s
  let jobs := (s.chan n).jobs
  let s := if jobs.isEmpty then s else s.chanEvent n 4 ((s.markJob n).getD 0) (match s.markJob n with
    | some j => (s.job n j).jobSeq
    | none => 0)
  let s := s.updSeq n (fun q => { q with
    edges := [], stalledEdge := none, wait := .none,
    waitRes := if q.wait = .none then q.waitRes else 1, wakeReversal := false, wakePulse := false })
  let s := forL jobs (fun e s => s.addCond n e.1 c) s
  let s := forL jobs (fun e s =>
    let x := s.job n e.1
    match x.st with
    | .free => s
    | .marking => s.jobLeave n e.1 .aborted
    | _ => s.jobLeave n e.1 .refused) s
  ((s.engineIdle n).galvoStop n).chanShow n

/-- CH_CTRL.RUN written 0, or ENABLE (R105): every job that is not MARKING ends REFUSED with INHIBITED. -/
def State.inhibitJobs (s : State) (n : Nat) : State :=
  forL (s.chan n).jobs (fun e s =>
    let x := s.job n e.1
    if x.st = .free ∨ x.st = .marking then s else s.jobLeaveWith n e.1 0xF .refused) s

/-- A MARKING job's encoder has reversed (R25, R179): it ends ABORTED with REVERSED, on a thermal channel once the line in
progress is complete and read back; a laser parks if enabled (R216). -/
def State.reverseJob (s : State) (n j : Nat) : State :=
  if ! s.isLaser n && (s.therm n).unread.isSome then
    (s.addCond n j 0xA).updTherm n (fun t => { t with ending := true, computed := none, waiting := [] })
  else
    let s := s.jobLeaveWith n j 0xA .aborted
    if s.isLaser n && s.rdb (Reg.lpCfg n) 9 then s.laserPark n else s

/-- Reversal of encoder `e` (R25, R63): MARKING jobs that use it end REVERSED, and waits on its positions are told. -/
def State.reverseJobs (s : State) (e : Nat) : State :=
  forN 16 (fun n s =>
    let s := if (s.seq n).wait ≠ .none ∧ (s.seq n).encSel.toNat = e then
        s.updSeq n (fun q => { q with wakeReversal := true }) else s
    forL (s.jobsIn n .marking) (fun j s =>
      if (s.job n j).enc.toNat = e then s.reverseJob n j else s) s) s

/-! ### Arm positions -/

/-- ARM_POSITION_UPDATE (R100): TRIG_POS less the larger of ARM_DIST and the way gone in ARM_TMIN. -/
def State.armPosOf (s : State) (e : JobEntry) : Word :=
  let d := Nat.max (fld e.armDist 23 0) (s.warpSpeed e.enc.toNat * (fld e.armTmin 15 0 * usT) / 2 ^ 32)
  e.trigPos - BitVec.ofNat 32 d

/-- The arm positions of every ADMITTED or COMPOSED job on an encoder recomputed. -/
def State.armUpdate (s : State) (id : Nat) : State :=
  forN 16 (fun n s =>
    if (s.chan n).jobs.isEmpty then s else
    forL (s.chan n).jobs (fun e s =>
      if (e.2.st = .admitted ∨ e.2.st = .composed) ∧ e.2.enc.toNat = id then
        s.setJob n e.1 { e.2 with armPos := s.armPosOf e.2 }
      else s) s) s

/-- The predicted speed of a job's encoder over its mark (R102), in 2^-32 counts per tick. -/
def State.predSpeed (s : State) (e : JobEntry) : Nat :=
  let id := e.enc.toNat
  let v := s.warpVelI id
  if v = 0 then 0 else
  let d := sdiff (e.trigPos + e.foot.zeroExtend 32) (s.warpLow id)
  Nat.max v.natAbs (v + sword (s.warpAcc id) * d * 256 / (v.natAbs : Int)).natAbs

end Sys2Proof.Machine
end

