-- ==== Sys2Proof/Machine/Cuts.lean ====
section
/-! DEFINITION. Fireguard's second path over each channel's gate or strobes (spec/15, R414). -/
namespace Sys2Proof.Machine

/-! ### The second path (R414) -/

/-- Causes of a second-path force that persist on channel `n`. -/
def State.forcesOf (s : State) (n : Nat) : List Nat := tabGet [] s.fgd.forces n
def State.setForces (s : State) (n : Nat) (l : List Nat) : State :=
  { s with fgd := { s.fgd with forces := tabPut [] s.fgd.forces n l } }

/-- Where FGD_CUT_CAUSE0 or 1 holds channel `n`'s cause (R440). -/
def cutCauseReg (n : Nat) : Nat := if n < 8 then Reg.fgdCutCause0 else Reg.fgdCutCause1
def State.cutCause (s : State) (n : Nat) : Nat := s.rdf (cutCauseReg n) (4 * (n % 8) + 3) (4 * (n % 8))

/-- The second path forces channel `n`'s gate or strobes off and latches, with its cause (R414): codes 1 interlock, 2 gate
readback, 3 dwell or duty, 4 following error, 5 link, 6 clock, 7 safe state, 8 key switch, 9 strobe. -/
def State.cut (s : State) (n cause : Nat) : State :=
  let s := if s.isLaser n then s.gateSet n false else s.lineOff n
  if s.rdb Reg.fgdCut n then s else
  let s := s.wrb Reg.fgdCut n true
  let s := s.wrf (cutCauseReg n) (4 * (n % 8) + 3) (4 * (n % 8)) cause
  s.irq .fgd 1

/-- The latch of channel `n` clears (R414). -/
def State.uncut (s : State) (n : Nat) : State :=
  (s.wrb Reg.fgdCut n false).wrf (cutCauseReg n) (4 * (n % 8) + 3) (4 * (n % 8)) 0

/-- A force with a cause that persists. -/
def State.force (s : State) (n cause : Nat) : State :=
  let l := s.forcesOf n
  (if l.contains cause then s else s.setForces n (cause :: l)).cut n cause

/-- A cause ends: the latch falls with the last cause unless the channel is in SAFE or was cut for another (R414). -/
def State.unforce (s : State) (n cause : Nat) : State :=
  let s := s.setForces n ((s.forcesOf n).filter (fun c => c != cause))
  if (s.forcesOf n).isEmpty && ! s.inSafe n && s.cutCause n == cause then s.uncut n else s

end Sys2Proof.Machine
end

