-- ==== Sys2Proof/Machine/Line.lean ====
section
/-! DEFINITION. The line interface: encoder and product-detect inputs, the tracking table, the reject gate and
LINE_STOP_REQ (spec/03, R57 to R91). -/
namespace Sys2Proof.Machine

/-! ### LINE_STOP_REQ (R83) -/

/-- The request as LIN_LSR_CTRL configures it, and the pin once it is driven. -/
def State.lsrUpdate (s : State) : State :=
  if ! s.domOn 4 then s else
  let c := s.rd Reg.linLsrCtrl
  let stuck := (List.range 16).any (fun i => s.rdb (Reg.linPdMaxLen i) 31)
  let req := bit c 8 || (bit c 0 && s.deviceSafe) || (bit c 3 && stuck) || s.lin.lsrUntil.isSome
  { s with pins := { s.pins with lsr := s.lin.lsrDriven && (req == bit c 16) } }

/-- An event that LIN_LSR_CTRL bit `b` configures: the request holds for HOLD x 10 ms. -/
def State.lsrEvent (s : State) (b : Nat) : State :=
  if ! s.rdb Reg.linLsrCtrl b then s else
  { s with lin := { s.lin with lsrUntil := some (s.now + s.rdf Reg.linLsrCtrl 31 24 * 10 * msT) } }.lsrUpdate

/-- LSR_CTRL_WRITE (R83): the first write starts driving the pin. -/
def execLsrCtrlWrite (b : Bus) (v : Word) (s : State) : Out :=
  .next (busWrite b .lin 0x50 v (fun s =>
    { s.plainWrite Reg.linLsrCtrl v with lin := { s.lin with lsrDriven := true } }.lsrUpdate) s)

/-- LINE_STOP_HOLD_END (R83). -/
def execLineStopHoldEnd (s : State) : Out :=
  if s.due s.lin.lsrUntil then .next { s with lin := { s.lin with lsrUntil := none } }.lsrUpdate else .next s

/-! ### Reject outputs (R77 to R82) -/

/-- Nibble `i` of a map of LIN_MAP (R84). -/
def State.mapRej (s : State) (j : Nat) : Nat :=
  if j < 8 then s.rdf Reg.linMapRej0 (4 * j + 3) (4 * j) else s.rdf Reg.linMapRej1 (4 * (j - 8) + 3) (4 * (j - 8))
def State.mapPd (s : State) (i : Nat) : Nat :=
  if i < 8 then s.rdf Reg.linMapPd0 (4 * i + 3) (4 * i) else s.rdf Reg.linMapPd1 (4 * (i - 8) + 3) (4 * (i - 8))
def State.mapEnc (s : State) (e : Nat) : Nat := s.rdf Reg.linMapEnc (4 * e + 2) (4 * e)

def State.rejOn (s : State) (j : Nat) : Bool := s.rdb (Reg.linRejCfg j) 0
def State.rejMode (s : State) (j : Nat) : Nat := s.rdf (Reg.linRejCfg j) 3 2
def State.rejLen (s : State) (j : Nat) : Word := BitVec.ofNat 32 (s.rdf (Reg.linRejLen j) 23 0)
def State.rejMin (s : State) (j : Nat) : Nat := s.rdf (Reg.linRejMinTime j) 15 0 * usT

/-- A window of the table, or a hold, is open on an output (R77). -/
def RejState.open_ (x : RejState) : Bool :=
  x.windows.any (fun w => ! w.cmp) || x.holds.any (fun h => h.2.phase == HoldPhase.asserting)

/-- Whether output `j` asserts "reject" (R77, R78, R81, R82): in the safe state whatever its mode. -/
def State.rejAsserted (s : State) (j : Nat) : Bool :=
  let x := s.rej j
  s.rejOn j && (x.safeHeld ||
    (match s.rejMode j with
     | 0 => x.open_
     | 1 => x.windows.any (fun w => w.cmp)
     | _ => true))

/-- The electrical level commanded: low while disabled, else "reject" at the level of POL (R78). -/
def State.rejLevel (s : State) (j : Nat) : Bool := s.rejOn j && (s.rejAsserted j == s.rdb (Reg.linRejCfg j) 1)

/-- Output `j` brought up to date: a safe-state assertion is released once no window or hold is open (R78); then CMD, PIN,
the holds shown and the pins. -/
def State.rejUpdate (s : State) (j : Nat) : State :=
  let x := s.rej j
  let s := if x.safeHeld && ! s.deviceSafe && ! x.open_ then s.setRej j { x with safeHeld := false } else s
  let lvl := s.rejLevel j
  let act := (s.rej j).holds.filter (fun h => h.2.phase != HoldPhase.idle)
  let a := Reg.linRejStat j
  let s := ((s.wrb a 0 lvl).wrb a 1 lvl).wrb a 3 (! act.isEmpty)
  let s := s.wrf a 31 16 (act.foldl (fun m h => m + 2 ^ h.1) 0)
  let pins := (List.range 16).foldl (fun m k => if s.rejLevel k then m ||| BitVec.ofNat 16 (2 ^ s.mapRej k) else m) 0
  { s with pins := { s.pins with rej := pins } }

/-- The safe state asserts every enabled output (R78); its end releases those with nothing open. -/
def State.rejectsSafe (s : State) : State :=
  if ! s.domOn 4 then s else
  forN 16 (fun j s => if s.rejOn j then (s.updRej j (fun x => { x with safeHeld := true })).rejUpdate j else s) s
def State.rejectsSafeEnd (s : State) : State := if ! s.domOn 4 then s else forN 16 (fun j s => s.rejUpdate j) s

/-- A window opened (R77). -/
def State.rejOpen (s : State) (j : Nat) (w : RejWindow) : State :=
  (s.updRej j (fun x => { x with windows := x.windows ++ [w] })).rejUpdate j

/-- A COMPARE output is armed while the warp lies short of its position, so that a forward crossing can come (R81). -/
def State.cmpWatch (s : State) (id : Nat) : State :=
  forN 16 (fun j s =>
    if s.rejOn j && s.rejMode j == 1 && s.rdf (Reg.linRejCfg j) 11 8 == id && ! s.warpAt id (s.rd (Reg.linRejCmpPos j)) then
      s.updRej j (fun x => { x with cmpArmed := true }) else s) s

/-- REJECT_HOLD_START (R73). -/
def execRejectHoldStart (j e : Fin 16) (s : State) : Out :=
  let h := tabGet RejHold.reset (s.rej j.val).holds e.val
  if h.phase == .waiting && s.warpAt e.val h.start then
    .next ((s.updRej j.val (fun x => { x with holds := tabPut RejHold.reset x.holds e.val { h with phase := .asserting } })).rejUpdate j.val)
  else .next s

/-- REJECT_HOLD_END (R73). -/
def execRejectHoldEnd (j e : Fin 16) (s : State) : Out :=
  let h := tabGet RejHold.reset (s.rej j.val).holds e.val
  if h.phase != .idle && s.warpAt e.val h.stop then
    .next ((s.updRej j.val (fun x => { x with holds := tabPut RejHold.reset x.holds e.val RejHold.reset })).rejUpdate j.val)
  else .next s

/-- REJECT_WINDOW_END (R77, R80): windows whose end the warp has passed, with the minimum time elapsed, close; those of a
REVERSING encoder stay. -/
def execRejectWindowEnd (j : Fin 16) (s : State) : Out :=
  let ended (w : RejWindow) : Bool := s.warpAt w.enc.toNat w.endPos && decide (w.notBefore ≤ s.now) && ! s.reversing w.enc.toNat
  if (s.rej j.val).windows.any ended then
    .next ((s.updRej j.val (fun x => { x with windows := x.windows.filter (fun w => ! ended w) })).rejUpdate j.val)
  else .next s

/-- COMPARE_PULSE (R81). -/
def execComparePulse (j : Fin 16) (s : State) : Out :=
  let id := s.rdf (Reg.linRejCfg j.val) 11 8
  let p := s.rd (Reg.linRejCmpPos j.val)
  if s.rejOn j.val && s.rejMode j.val == 1 && (s.rej j.val).cmpArmed && s.warpAt id p then
    let s := s.updRej j.val (fun x => { x with cmpArmed := false })
    .next (s.rejOpen j.val ⟨BitVec.ofNat 4 id, p + s.rejLen j.val, s.now + s.rejMin j.val, true⟩)
  else .next s

/-- REJECT_MISMATCH (R79): the sensed level differs from the command for 1 µs. -/
def execRejectMismatch (j : Fin 16) (pin : Bool) (s : State) : Out :=
  if ! s.powered .lin || s.rejLevel j.val == pin then .next s else
  let s := (s.wrb (Reg.linRejStat j.val) 2 true).wrb (Reg.linRejStat j.val) 1 pin
  .next (((s.soot .lin 9).irq .lin 11).lsrEvent 2)

/-- A write of a CFG register while its EN is 1 (R86): it may only clear EN; other fields keep, and soot 84 tells of
those it would have changed.  `after` is what the clearing does. -/
def State.cfgWhileOn (s : State) (a : Nat) (v : Word) (after : State → State) : State :=
  if bit v 0 then s.soot .lin 12 else
  let old := s.rd a
  let new := (s.plainWrite a v).rd a
  let s := after (s.wrb a 0 false)
  if setBit old 0 false = setBit new 0 false then s else s.soot .lin 12

/-- A write of LIN_REJj_CFG (R82, R86). -/
def State.rejCfgWrite (s : State) (j : Nat) (v : Word) : State :=
  let a := Reg.linRejCfg j
  if s.rejOn j then s.cfgWhileOn a v (fun s => (s.updRej j (fun x => { x with safeHeld := false })).rejUpdate j)
  else if fld v 3 2 = 3 then s.soot .lin 12
  else
    let s := s.plainWrite a v
    let short := ! s.warpAt (fld v 11 8) (s.rd (Reg.linRejCmpPos j))
    (s.updRej j (fun x => { x with safeHeld := s.deviceSafe && bit v 0, cmpArmed := short })).rejUpdate j

/-- REJECT_OUTPUT_CONFIG (R82). -/
def execRejectOutputConfig (b : Bus) (j : Fin 16) (v : Word) (s : State) : Out :=
  .next (busWrite b .lin (0x600 + 0x20 * j.val) v (rwl .lin (fun s => s.rejCfgWrite j.val v)) s)

/-! ### The tracking table (R69 to R73, R76) -/

/-- USED, FULL and the peak of the tracking table (R87). -/
def State.trkShow (s : State) : State :=
  let used := s.lin.fresh - s.lin.freed.length
  let full := decide (4096 ≤ used)
  let was := s.rdb Reg.linStat 13
  let s := ((s.wrf Reg.linStat 12 0 used).wrb Reg.linStat 13 full).peak Reg.linTrkPeak 12 0 used
  if full && ! was then s.irq .lin 8 else s

/-- The entry at the head of the free list (R69): those never used first, then the freed in order. -/
def State.trkTake (s : State) : Option (Nat × State) :=
  if s.lin.fresh < 4096 then some (s.lin.fresh, { s with lin := { s.lin with fresh := s.lin.fresh + 1 } })
  else match s.lin.freed with
    | t :: rest => some (t, { s with lin := { s.lin with freed := rest } })
    | [] => none

/-- An entry returns to the tail of the free list, its contents kept (R71). -/
def State.trkFree (s : State) (t : Nat) : State :=
  let s := s.updTrk t (fun x => { x with valid := false })
  { s with lin := { s.lin with freed := s.lin.freed ++ [t] } }.trkShow

/-- What the decision of R76 says of an entry: reject, and how many bound verdicts are PENDING among the rejecting. -/
def State.trkDecide (s : State) (x : TrkEntry) : Bool × Nat :=
  (List.range 16).foldl (fun r c =>
    let v := (x.verdict.toNat / 2 ^ (4 * c)) % 16
    if x.bind.toNat.testBit c && s.rdb Reg.linPolicy v then (true, r.2 + (if v = 0 then 1 else 0)) else r) (x.force, 0)

/-- A valid entry would be, or has been, rejected by its decision (R481). -/
def State.wouldReject (s : State) (t : Nat) : Bool :=
  let x := s.trk t
  x.valid && (if x.decided then x.rejected else (s.trkDecide x).1)

/-- REJECT_DECISION (R76, R68, R80); an output in HOLD counts every product as a reject (R82). -/
def execRejectDecision (t : BitVec 12) (s : State) : Out :=
  let x := s.trk t.toNat
  let id := x.enc.toNat
  if ! x.valid || x.decided || ! s.warpAt id x.rejectPos || s.reversing id then .next s else
  let (reject, pend) := s.trkDecide x
  let j := x.rejOut.toNat
  let s := s.setTrk t.toNat { x with decided := true, rejected := reject }
  let s := forN pend (fun _ s => s.soot .lin 13) s
  let s := if pend = 0 then s else s.lsrEvent 4
  if ! x.rejUse then .next (s.trkFree t.toNat) else
  let s := if reject || (s.rejOn j && s.rejMode j == 2) then s.cnt (Reg.linRejCnt j) 15 0 else s.cnt (Reg.linRejCnt j) 31 16
  .next (if reject then s.rejOpen j ⟨x.enc, x.rejectPos + s.rejLen j, s.now + s.rejMin j, false⟩ else s)

/-- A valid entry's window has closed, or would have (R71, R77): the warp is past its end and the minimum time is over. -/
def State.windowPast (s : State) (x : TrkEntry) : Bool :=
  let stop := x.rejectPos + s.rejLen x.rejOut.toNat
  s.warpAt x.enc.toNat stop && ! s.reversing x.enc.toNat &&
    ! (s.rej x.rejOut.toNat).windows.any (fun w => w.enc == x.enc && w.endPos == stop && decide (s.now < w.notBefore))

/-- TRACKING_ENTRY_FREE (R71): past the end of its reject window with the minimum time elapsed. -/
def execTrackingEntryFree (t : BitVec 12) (s : State) : Out :=
  let x := s.trk t.toNat
  if x.valid && x.decided && x.rejUse && s.windowPast x then .next (s.trkFree t.toNat) else .next s

/-- FORCE_PID (R81): the result, and the output asserted at once for an entry decided to pass whose window is open. -/
def State.forceProduct (s : State) (pid : Word) : State :=
  match s.lin.trk.find? (fun e => e.2.valid && e.2.productId == pid) with
  | none => s.wrf Reg.linForceRes 1 0 2
  | some (t, x) =>
    let j := x.rejOut.toNat
    if x.decided && s.windowPast x then s.wrf Reg.linForceRes 1 0 3
    else
      let s := (s.setTrk t { x with force := true }).wrf Reg.linForceRes 1 0 1
      if x.decided && ! x.rejected && x.rejUse then
        s.rejOpen j ⟨x.enc, x.rejectPos + s.rejLen j, s.now + s.rejMin j, false⟩
      else s

/-- FORCE_PID (R81). -/
def execForcePid (b : Bus) (v : Word) (s : State) : Out := .next (busWrite b .lin 0x54 v (fun s => s.forceProduct v) s)

/-- Slot `k` of station `st` (R124): its member, 0-15 a channel, 16-23 a station, when VALID. -/
def State.stnSlot (s : State) (st k : Nat) : Option Nat :=
  let w := s.rd (Reg.stnSlotMember st k)
  if bit w 7 then some (fld w 4 0) else none

/-- Channels a station expands to (R68); `fuel` bounds the nesting (R17). -/
def State.stnChans : Nat → Nat → State → List Nat
  | 0, _, _ => []
  | fuel + 1, st, s => (List.range 8).flatMap (fun k =>
      match s.stnSlot st k with
      | some m => if m < 16 then [m] else if m < 24 then State.stnChans fuel (m - 16) s else []
      | none => [])

/-- Channels and stations an input binds (R68, R90); the mask with stations expanded. -/
def bindChans (w : Word) : List Nat := numsWhere 16 (fun n => bit w n)
def bindStns (w : Word) : List Nat := numsWhere 8 (fun k => bit w (16 + k))
def State.bindMask (s : State) (w : Word) : BitVec 16 :=
  (bindChans w ++ (bindStns w).flatMap (fun k => s.stnChans 4 k)).foldl (fun m n => m ||| BitVec.ofNat 16 (2 ^ n)) 0

/-- An admission request of the line interface (R21): an entry of the channel's job queue, whose layout the spec does not
give (its bytes are free), with the request behind it; a station takes it itself. -/
def State.admitPush (s : State) (n : Nat) (r : AdmitReq) : State :=
  let ok := (s.queue (4 * n)).canPush
  let (bytes, s) := s.drawBytes 16
  let s := s.qPush (4 * n) bytes
  if ok then s.updChan n (fun c => { c with reqs := c.reqs ++ [r] }) else s
def State.admitStn (s : State) (k : Nat) (r : AdmitReq) : State := s.updStn k (fun x => { x with reqs := x.reqs ++ [r] })

/-- REJECT_ON_DETECT (R73): hold `e` of output `j` started, or its end moved on. -/
def State.holdEngage (s : State) (j e : Nat) (start : Word) : State :=
  let h := tabGet RejHold.reset (s.rej j).holds e
  let stop := start + s.rejLen j
  let h' : RejHold := if h.phase = .idle then ⟨start, stop, .waiting⟩
    else { h with stop := if 0 < sdiff stop h.stop then stop else h.stop }
  let s := s.updRej j (fun x => { x with holds := tabPut RejHold.reset x.holds e h' })
  let s := (s.wr (Reg.linRejHoldStart j) h'.start).wr (Reg.linRejHoldEnd j) h'.stop
  (s.wrf (Reg.linRejStat j) 7 4 e).rejUpdate j

/-- VIRTUAL_RATE_UPDATE (R65): in PITCH mode, PITCH by the mean of the last 4 intervals of the input's products. -/
def State.vencProduct (s : State) (i stamp : Nat) : State :=
  forN 8 (fun v s =>
    let c := s.rd (Reg.linVencCfg v)
    if ! bit c 0 || ! bit c 1 || fld c 5 2 != i then s else
    let st := (stamp :: (s.venc v).stamps).take 5
    let s := (s.updVenc v (fun x => { x with stamps := st })).vencSync v
    if st.length < 5 then s else
    let dt := Nat.max 1 (st.getD 0 0 - st.getD 4 0)
    s.wr (Reg.linVencRateNow v) (BitVec.ofNat 32 (satN 0xFFFFFFFF (divNear (fld c 31 8 * 4 * 2 ^ 32) dt)))) s

/-- The next product ID after `p` (R69). -/
def pidAfter (p : Word) : Word := if p = 0xFFFFFFFF then 1 else p + 1

/-- A product qualifies (R66, R69, R73): its entry and jobs, or the unrecorded product. -/
def State.qualify (s : State) (i : Nat) (edge : PdEdge) : State :=
  let cfg := s.rd (Reg.linPdCfg i)
  let enc := fld cfg 13 10
  let out := fld cfg 17 14
  let use := bit cfg 18
  let s := s.updPd i (fun x => { x with edge := none, lastQual := some edge.pos })
  let s := (s.cntW (Reg.linPdCnt i)).entryAbort
  let s := s.vencProduct i edge.stamp
  let birth : Word := edge.pos.truncate 32
  let rej := birth + BitVec.ofNat 32 (s.rdf (Reg.linPdRejDist i) 29 0)
  match s.trkTake with
  | none =>
    let s := ((s.cnt Reg.linCntUnrec 31 0).soot .lin 8).irq .lin 9
    (if use then s.holdEngage out enc rej else s).lsrEvent 1
  | some (t, s) =>
    let pid := s.rd Reg.linPidNext
    let bind := s.rd (Reg.linPdBind i)
    let s := s.wr Reg.linPidNext (pidAfter pid)
    let s := s.setTrk t { productId := pid, enc := BitVec.ofNat 4 enc, detect := BitVec.ofNat 4 i, valid := true, force := false,
                          decided := false, rejected := false, rejOut := BitVec.ofNat 4 out, bind := s.bindMask bind,
                          birthStamp := BitVec.ofNat 64 edge.stamp, verdict := 0, birthPos := birth, rejectPos := rej, rejUse := use }
    let s := s.trkShow
    let r : AdmitReq := ⟨pid, BitVec.ofNat 12 t, BitVec.ofNat 4 enc, birth, false⟩
    let s := forL (bindChans bind) (fun n s => s.admitPush n r) s
    forL (bindStns bind) (fun k s => s.admitStn k r) s

/-- Distance gone since an edge. -/
def State.sinceEdge (s : State) (i : Nat) (p : BitVec 48) : Int :=
  sdiff48 (s.warpInt (s.rdf (Reg.linPdCfg i) 13 10)) p

/-- PRODUCT_QUALIFY (R66): the input has stayed active for PD_MIN_LEN counts. -/
def execProductQualify (i : Fin 16) (s : State) : Out :=
  let x := s.pd i.val
  match x.edge with
  | some e =>
    if s.powered .lin && s.rdb (Reg.linPdCfg i.val) 0 && x.active && ! s.rdb (Reg.linPdMaxLen i.val) 31 &&
        decide ((s.rdf (Reg.linPdMinLen i.val) 23 0 : Int) ≤ s.sinceEdge i.val e.pos) then .next (s.qualify i.val e)
    else .next s
  | none => .next s

/-- PD_STUCK (R67): active for more than PD_MAX_LEN counts. -/
def execPdStuck (i : Fin 16) (s : State) : Out :=
  let x := s.pd i.val
  let max := s.rdf (Reg.linPdMaxLen i.val) 23 0
  if s.powered .lin && s.rdb (Reg.linPdCfg i.val) 0 && x.active && max != 0 && ! s.rdb (Reg.linPdMaxLen i.val) 31 &&
      decide ((max : Int) < s.sinceEdge i.val x.activePos) then
    let s := (s.wrb (Reg.linPdMaxLen i.val) 31 true).updPd i.val (fun x => { x with edge := none })
    .next (((s.soot .lin 10).irq .lin 12).lsrUpdate)
  else .next s

/-! ### Inputs (R58, R66, R67) -/

/-- The warp integer at an earlier stamp: the counts since then taken back. -/
def State.warpIntAt (s : State) (id at_ : Nat) : BitVec 48 :=
  if id < 8 then
    let x := s.enc id
    let n := BitVec.ofNat 48 (x.stamps.filter (fun t => decide (at_ < t))).length
    if x.down then x.warp + n else x.warp - n
  else
    let v := id - 8
    let back := if s.rdb (Reg.linVencCfg v) 0 then (s.now - at_) * s.rdn (Reg.linVencRateNow v) else 0
    BitVec.ofNat 48 (wrapN 80 ((s.vencPos v : Int) - (back : Nat)) / 2 ^ 32)

/-- PD_LEADING_EDGE and PD_BLANKED (R66, R67): an edge of an enabled input, blanked during reversal or short of PD_BLANK. -/
def State.pdLead (s : State) (i at_ : Nat) : State :=
  let enc := s.rdf (Reg.linPdCfg i) 13 10
  let pos := s.warpIntAt enc at_
  let x := s.pd i
  let near := match x.lastQual with
    | some p => decide (sdiff48 pos p < (s.rdf (Reg.linPdBlank i) 23 0 : Nat))
    | none => false
  let s := s.setPd i { x with active := true, activePos := pos }
  if s.reversing enc || near then s.cnt (Reg.linPdCntRejEdge i) 15 0
  else s.updPd i (fun x => { x with edge := some ⟨pos, at_⟩ })

/-- A trailing edge (R66, R67): an edge that has not gone PD_MIN_LEN is short; STUCK ends. -/
def State.pdTrail (s : State) (i : Nat) : State :=
  let x := s.pd i
  let s := match x.edge with
    | some e =>
      if decide ((s.rdf (Reg.linPdMinLen i) 23 0 : Int) ≤ s.sinceEdge i e.pos) then s.qualify i e
      else s.cnt (Reg.linPdCntRejEdge i) 31 16
    | none => s
  let s := s.updPd i (fun x => { x with active := false, edge := none })
  if s.rdb (Reg.linPdMaxLen i) 31 then (s.wrb (Reg.linPdMaxLen i) 31 false).lsrUpdate else s

/-- A level accepted on logical input `i`; a disabled input follows its level and gives no edge (R66). -/
def State.pdAccept (s : State) (i : Nat) (level : Bool) (at_ : Nat) : State :=
  let active := level != s.rdb (Reg.linPdCfg i) 1
  if (s.pd i).active = active then s
  else if ! s.rdb (Reg.linPdCfg i) 0 then s.updPd i (fun x => { x with active := active, edge := none })
  else if active then s.pdLead i at_ else s.pdTrail i

/-- Levels accepted on logical encoder `e` (R57 to R64), with the reversal, arm positions and compare outputs that follow. -/
def State.encAccept (s : State) (e : Nat) (a b z : Bool) (at_ : Nat) : State :=
  if ! s.encOn e then s else
  let w := (s.enc e).warp
  let (s, rev) := s.encAB e a b at_
  let s := if rev then s.reverseJobs e else s
  let s := if (s.enc e).warp = w then s else (s.armUpdate e).cmpWatch e
  s.encZ e z

/-- INPUT_FILTER_ACCEPT (R58): the logical units routed to a physical input take a level it has held for their filter
width; the stamp is the tick at which it was first sampled. -/
def execInputFilterAccept (i : LineInput) (held : Nat) (s : State) : Out :=
  if ! s.powered .lin then .next s else
  let at_ := s.now - held
  match i with
  | .enc p a b z => .next (forN 8 (fun e s =>
      if s.mapEnc e = p.val ∧ s.rdf (Reg.linEncCfg e) 11 4 + 1 ≤ held then s.encAccept e a b z at_ else s) s)
  | .pd p level => .next (forN 16 (fun k s =>
      if s.mapPd k = p.val ∧ s.rdf (Reg.linPdCfg k) 9 2 + 1 ≤ held then s.pdAccept k level at_ else s) s)

/-- ENCODER_STOP_TIMEOUT (R61). -/
def execEncoderStopTimeout (e : Fin 8) (s : State) : Out :=
  if s.powered .lin && s.encOn e.val && s.rdb (Reg.linEncStat e.val) 0 &&
      decide (s.rdf (Reg.linEncCfg e.val) 31 20 * 100 * usT ≤ s.now - (s.enc e.val).tEdge) then .next (s.encStop e.val)
  else .next s

/-- A filter width of 0 is taken as 1 (R58). -/
def filtFix (v : Word) (hi lo : Nat) : Word := if fld v hi lo = 0 then setFld v hi lo 1 else v

/-- A write of LIN_ENCe_CFG (R57, R86) with the levels present. -/
def State.encCfgWrite (s : State) (e : Nat) (v : Word) (a b z : Bool) : State :=
  let r := Reg.linEncCfg e
  if s.encOn e then s.cfgWhileOn r (filtFix v 11 4) (fun s => s.encOff e) else
  let s := s.plainWrite r (filtFix v 11 4)
  if bit v 0 then s.updEnc e (fun x => { x with a := a, b := b, z := z, stamps := [], vel := 0, acc := 0, frozen := 0, started := false })
  else s

/-- ENCODER_ENABLE (R57). -/
def execEncoderEnable (b : Bus) (e : Fin 8) (v : Word) (a lvlB z : Bool) (s : State) : Out :=
  .next (busWrite b .lin (0x100 + 0x40 * e.val) v (rwl .lin (fun s => s.encCfgWrite e.val v a lvlB z)) s)

/-- A write of LIN_VENCv_CFG (R65, R86): the warp stays continuous; in RATE mode, and until 4 intervals exist, the rate is
VENC_RATE. -/
def State.vencCfgWrite (s : State) (n : Nat) (v : Word) : State :=
  let r := Reg.linVencCfg n
  let s := s.vencSync n
  if s.rdb r 0 then s.cfgWhileOn r v (fun s => s.updVenc n (fun x => { x with stamps := [] })) else
  let s := s.plainWrite r v
  (s.updVenc n (fun x => { x with stamps := [], t0 := s.now })).wr (Reg.linVencRateNow n) (s.rd (Reg.linVencRate n))

/-- A write of LIN_VENCv_RATE (R65). -/
def State.vencRateWrite (s : State) (n : Nat) (v : Word) : State :=
  let s := (s.vencSync n).wr (Reg.linVencRate n) v
  if s.rdb (Reg.linVencCfg n) 1 && decide (5 ≤ (s.venc n).stamps.length) then s else s.wr (Reg.linVencRateNow n) v

/-- Encoder `id` is disabled (R68). -/
def State.encIdOff (s : State) (id : Nat) : Bool := if id < 8 then ! s.encOn id else ! s.rdb (Reg.linVencCfg (id - 8)) 0

/-- A write of LIN_PDi_CFG (R66, R68, R86): the level last accepted is read under the new POL; an input active then counts
its length from here (DEDUCED, log entry 49). -/
def State.pdCfgWrite (s : State) (i : Nat) (v : Word) : State :=
  let r := Reg.linPdCfg i
  if s.rdb r 0 then s.cfgWhileOn r (filtFix v 9 2) (fun s => s.updPd i (fun x => { x with edge := none })) else
  let bind := s.rd (Reg.linPdBind i)
  let direct := bindChans bind
  let twice := (bindStns bind).any (fun k => (s.stnChans 4 k).any (fun n => direct.contains n))
  let bad := bit v 0 && ((fld bind 23 0 != 0 && ! bit v 18) || twice || s.encIdOff (fld v 13 10))
  if bad then s.soot .lin 12
  else
    let turned := bit v 1 != s.rdb r 1
    let pos := s.warpInt (fld v 13 10)
    (s.plainWrite r (filtFix v 9 2)).updPd i (fun x => { x with edge := none, active := x.active != turned, activePos := pos })

/-- PD_ENABLE (R68). -/
def execPdEnable (b : Bus) (i : Fin 16) (v : Word) (s : State) : Out :=
  .next (busWrite b .lin (0x400 + 0x20 * i.val) v (rwl .lin (fun s => s.pdCfgWrite i.val v)) s)

/-- LIN_CFG_DISABLE (R86): a write of a CFG register, of one enabled unit or another; the levels an encoder starts from
are those it last saw. -/
def execLinCfgDisable (b : Bus) (r : LinCfg) (v : Word) (s : State) : Out :=
  match r with
  | .enc e => .next (busWrite b .lin (0x100 + 0x40 * e.val) v (rwl .lin (fun s =>
      s.encCfgWrite e.val v (s.enc e.val).a (s.enc e.val).b (s.enc e.val).z)) s)
  | .venc k => .next (busWrite b .lin (0x300 + 0x20 * k.val) v (rwl .lin (fun s => s.vencCfgWrite k.val v)) s)
  | .pd i => .next (busWrite b .lin (0x400 + 0x20 * i.val) v (rwl .lin (fun s => s.pdCfgWrite i.val v)) s)
  | .rej j => .next (busWrite b .lin (0x600 + 0x20 * j.val) v (rwl .lin (fun s => s.rejCfgWrite j.val v)) s)

/-! ### Global registers (R69, R70, R75, R84, R87) -/

/-- PID_NEXT_WRITE (R69, R86): only while no entry is used; 0 is taken as 1. -/
def execPidNextWrite (b : Bus) (v : Word) (s : State) : Out :=
  .next (busWrite b .lin 0x48 v (rwl .lin (fun s =>
    if s.rdf Reg.linStat 12 0 ≠ 0 then s.soot .lin 12 else s.wr Reg.linPidNext (if v = 0 then 1 else v))) s)

/-- POLICY_WRITE (R75): bit 0 and bits [31:16] read 1. -/
def execPolicyWrite (b : Bus) (v : Word) (s : State) : Out :=
  .next (busWrite b .lin 0x4C v (fun s => s.wr Reg.linPolicy (v ||| 0xFFFF0001)) s)

/-- The 8 words of a tracking entry (R70). -/
def trkWords (x : TrkEntry) : List Nat :=
  [x.productId.toNat,
   x.enc.toNat + x.detect.toNat * 16 + b2n x.valid * 0x100 + b2n x.force * 0x200 + b2n x.decided * 0x400 + b2n x.rejected * 0x800 +
     x.rejOut.toNat * 0x1000 + x.bind.toNat * 0x10000,
   x.birthStamp.toNat % 2 ^ 32, x.birthStamp.toNat / 2 ^ 32, x.verdict.toNat % 2 ^ 32, x.verdict.toNat / 2 ^ 32,
   x.birthPos.toNat, x.rejectPos.toNat]

/-- Words written to consecutive registers of a bank. -/
def State.wrWords (s : State) (reg : Nat → Nat) : Nat → List Nat → State
  | _, [] => s
  | k, w :: t => (s.wr (reg k) (BitVec.ofNat 32 w)).wrWords reg (k + 1) t

/-- TRK_SEL_CAPTURE (R70). -/
def execTrkSelCapture (b : Bus) (v : Word) (s : State) : Out :=
  .next (busWrite b .lin 0x64 v (fun s => (s.plainWrite Reg.linTrkSel v).wrWords Reg.linTrkD 0 (trkWords (s.trk (fld v 11 0)))) s)

/-- TRK_PEAK_CLEAR (R87). -/
def execTrkPeakClear (b : Bus) (v : Word) (s : State) : Out :=
  .next (busWrite b .lin 0x44 v (fun s => if bit v 31 then s.wrf Reg.linTrkPeak 12 0 0 else s) s)

/-- The map registers and the CFG register of each logical unit of a map (R84). -/
def mapReg : LinMap → Nat
  | .enc => Reg.linMapEnc | .pd0 => Reg.linMapPd0 | .pd1 => Reg.linMapPd1 | .rej0 => Reg.linMapRej0 | .rej1 => Reg.linMapRej1
def mapUnit (m : LinMap) (k : Nat) : Nat :=
  match m with
  | .enc => Reg.linEncCfg k | .pd0 => Reg.linPdCfg k | .pd1 => Reg.linPdCfg (8 + k)
  | .rej0 => Reg.linRejCfg k | .rej1 => Reg.linRejCfg (8 + k)

/-- MAP_WRITE (R84): refused for two logical reject outputs on one physical output, or a route of an enabled unit. -/
def execMapWrite (b : Bus) (m : LinMap) (v : Word) (s : State) : Out :=
  let a := mapReg m
  .next (busWrite b .lin (a % 4096) v (rwl .lin (fun s =>
    let s' := s.plainWrite a v
    let moved := (List.range 8).any (fun k => s.rdb (mapUnit m k) 0 && fld (s.rd a) (4 * k + 3) (4 * k) != fld (s'.rd a) (4 * k + 3) (4 * k))
    let outs := (List.range 16).map s'.mapRej
    let shared := outs.eraseDups.length != 16
    if moved || shared then s.soot .lin 12 else s')) s)

/-- LIN writes with no row of their own: REJ_LEN is at least 1 (R91). -/
def linWriteOk (off : Nat) (v : Word) : Bool :=
  if 0x600 ≤ off ∧ off < 0x800 ∧ off % 0x20 = 4 then fld v 23 0 != 0 else true

/-- A write of LIN_REJj_CMP_POS (R81). -/
def State.cmpPosWrite (s : State) (j : Nat) (v : Word) : State :=
  let s := s.wr (Reg.linRejCmpPos j) v
  s.updRej j (fun x => { x with cmpArmed := ! s.warpAt (s.rdf (Reg.linRejCfg j) 11 8) v })

end Sys2Proof.Machine
end

