-- ==== Sys2Proof/Machine/Crypto.lean ====
section
/-! DEFINITION. Check values, hashes and keys: CRC-16 and CRC-32C (R154), SHA-256 and HMAC, AES with CMAC and key wrap,
ECDSA and ECDH over P-256 (R376, R380, R388 to R394).  The standards' own constants. -/
namespace Sys2Proof.Machine

/-! ### CRC (R154) -/

/-- One bit of a CRC-16 step: polynomial 0x1021, not reflected. -/
def crc16Bit (c : BitVec 16) : BitVec 16 := if c.msb then (c <<< 1) ^^^ 0x1021 else c <<< 1

/-- A function applied `n` times. -/
def iter {α : Type} (n : Nat) (f : α → α) (x : α) : α :=
  match n with
  | 0 => x
  | n + 1 => iter n f (f x)

/-- CRC-16 of bytes (R154): initial value 0xFFFF, no final XOR. -/
def crc16 (l : List Byte) : BitVec 16 :=
  l.foldl (fun c b => iter 8 crc16Bit (c ^^^ ((BitVec.setWidth 16 b : BitVec 16) <<< (8 : Nat)))) 0xFFFF

/-- One bit of a CRC-32C step: polynomial 0x1EDC6F41 reflected. -/
def crc32cBit (c : Word) : Word := if c.getLsbD 0 then (c >>> 1) ^^^ 0x82F63B78 else c >>> 1

/-- CRC-32C of bytes (R154): reflected, initial value and final XOR 0xFFFFFFFF. -/
def crc32c (l : List Byte) : Word :=
  (l.foldl (fun c b => iter 8 crc32cBit (c ^^^ b.setWidth 32)) 0xFFFFFFFF) ^^^ 0xFFFFFFFF

/-! ### SHA-256 and HMAC -/

def sha256K : List Word :=
  [0x428a2f98, 0x71374491, 0xb5c0fbcf, 0xe9b5dba5, 0x3956c25b, 0x59f111f1, 0x923f82a4, 0xab1c5ed5,
   0xd807aa98, 0x12835b01, 0x243185be, 0x550c7dc3, 0x72be5d74, 0x80deb1fe, 0x9bdc06a7, 0xc19bf174,
   0xe49b69c1, 0xefbe4786, 0x0fc19dc6, 0x240ca1cc, 0x2de92c6f, 0x4a7484aa, 0x5cb0a9dc, 0x76f988da] ++
  [0x983e5152, 0xa831c66d, 0xb00327c8, 0xbf597fc7, 0xc6e00bf3, 0xd5a79147, 0x06ca6351, 0x14292967,
   0x27b70a85, 0x2e1b2138, 0x4d2c6dfc, 0x53380d13, 0x650a7354, 0x766a0abb, 0x81c2c92e, 0x92722c85,
   0xa2bfe8a1, 0xa81a664b, 0xc24b8b70, 0xc76c51a3, 0xd192e819, 0xd6990624, 0xf40e3585, 0x106aa070] ++
  [0x19a4c116, 0x1e376c08, 0x2748774c, 0x34b0bcb5, 0x391c0cb3, 0x4ed8aa4a, 0x5b9cca4f, 0x682e6ff3,
   0x748f82ee, 0x78a5636f, 0x84c87814, 0x8cc70208, 0x90befffa, 0xa4506ceb, 0xbef9a3f7, 0xc67178f2]

/-- The eight working words of a SHA-256 compression. -/
structure ShaW where
  a : Word
  b : Word
  c : Word
  d : Word
  e : Word
  f : Word
  g : Word
  h : Word
  deriving DecidableEq, Repr

def shaInit : ShaW :=
  ⟨0x6a09e667, 0xbb67ae85, 0x3c6ef372, 0xa54ff53a, 0x510e527f, 0x9b05688c, 0x1f83d9ab, 0x5be0cd19⟩

/-- One round with a schedule word and a constant. -/
def shaRound (x : ShaW) (w k : Word) : ShaW :=
  let s1 := x.e.rotateRight 6 ^^^ x.e.rotateRight 11 ^^^ x.e.rotateRight 25
  let ch := (x.e &&& x.f) ^^^ (~~~x.e &&& x.g)
  let t1 := x.h + s1 + ch + k + w
  let s0 := x.a.rotateRight 2 ^^^ x.a.rotateRight 13 ^^^ x.a.rotateRight 22
  let maj := (x.a &&& x.b) ^^^ (x.a &&& x.c) ^^^ (x.b &&& x.c)
  ⟨t1 + (s0 + maj), x.a, x.b, x.c, x.d + t1, x.e, x.f, x.g⟩

/-- Rounds over the constants; `w` is the window of the next 16 schedule words. -/
def shaRounds : List Word → List Word → ShaW → ShaW
  | [], _, x => x
  | _, [], x => x
  | k :: ks, w0 :: w, x =>
    let w1 := w.getD 0 0
    let w14 := w.getD 13 0
    let s0 := w1.rotateRight 7 ^^^ w1.rotateRight 18 ^^^ (w1 >>> 3)
    let s1 := w14.rotateRight 17 ^^^ w14.rotateRight 19 ^^^ (w14 >>> 10)
    shaRounds ks (w ++ [w0 + s0 + w.getD 8 0 + s1]) (shaRound x w0 k)

/-- One 64-byte block. -/
def shaBlock (x : ShaW) (blk : List Byte) : ShaW :=
  let y := shaRounds sha256K ((List.range 16).map (fun i => BitVec.ofNat 32 (ofBe (slice blk (4 * i) 4)))) x
  ⟨x.a + y.a, x.b + y.b, x.c + y.c, x.d + y.d, x.e + y.e, x.f + y.f, x.g + y.g, x.h + y.h⟩

/-- `n` blocks of 64 bytes. -/
def shaBlocks (n : Nat) (l : List Byte) (x : ShaW) : ShaW :=
  (List.range n).foldl (fun x i => shaBlock x (slice l (64 * i) 64)) x

/-- SHA-256 of bytes. -/
def sha256 (l : List Byte) : List Byte :=
  let n := l.length
  let blocks := (n + 9 + 63) / 64
  let padded := l ++ [0x80] ++ List.replicate (blocks * 64 - n - 9) 0 ++ beBytes 8 (8 * n)
  let x := shaBlocks blocks padded shaInit
  [x.a, x.b, x.c, x.d, x.e, x.f, x.g, x.h].flatMap (fun w => beBytes 4 w.toNat)

/-- HMAC-SHA-256. -/
def hmacSha256 (key msg : List Byte) : List Byte :=
  let k := if 64 < key.length then sha256 key else key
  let k := k ++ List.replicate (64 - k.length) 0
  sha256 (k.map (· ^^^ 0x5C) ++ sha256 (k.map (· ^^^ 0x36) ++ msg))

/-! ### AES -/

/-- Doubling in GF(2^8) by a modulus (0x1B for AES). -/
def gfDouble (m a : Byte) : Byte := if a.msb then (a <<< 1) ^^^ m else a <<< 1

/-- Multiplication in GF(2^8), `f` bits of `b` from the top. -/
def gfMulGo (m a b : Byte) : Nat → Byte → Byte
  | 0, acc => acc
  | i + 1, acc =>
    let acc := gfDouble m acc
    gfMulGo m a b i (if b.getLsbD i then acc ^^^ a else acc)
def gfMul (m a b : Byte) : Byte := gfMulGo m a b 8 0

/-- FIPS 197's substitution table, a row of 16 bytes each, as big-endian numbers. -/
def aesRows : List Nat :=
  [0x637c777bf26b6fc53001672bfed7ab76,
   0xca82c97dfa5947f0add4a2af9ca472c0,
   0xb7fd9326363ff7cc34a5e5f171d83115,
   0x04c723c31896059a071280e2eb27b275,
   0x09832c1a1b6e5aa0523bd6b329e32f84,
   0x53d100ed20fcb15b6acbbe394a4c58cf,
   0xd0efaafb434d338545f9027f503c9fa8,
   0x51a3408f929d38f5bcb6da2110fff3d2] ++
  [0xcd0c13ec5f974417c4a77e3d645d1973,
   0x60814fdc222a908846eeb814de5e0bdb,
   0xe0323a0a4906245cc2d3ac629195e479,
   0xe7c8376d8dd54ea96c56f4ea657aae08,
   0xba78252e1ca6b4c6e8dd741f4bbd8b8a,
   0x703eb5664803f60e613557b986c11d9e,
   0xe1f8981169d98e949b1e87e9ce5528df,
   0x8ca1890dbfe6426841992d0fb054bb16]

/-- AES's substitution: the row is the upper half of the byte, the column the lower. -/
def aesSub (x : Byte) : Byte := BitVec.ofNat 8 (aesRows.getD (x.toNat / 16) 0 / 256 ^ (15 - x.toNat % 16))

def xorBytes (a b : List Byte) : List Byte := List.zipWith (· ^^^ ·) a b

/-- Key expansion: the words so far are kept newest first; `i` is the index of the next of `n` left. -/
def aesExpand (nk : Nat) : Nat → Nat → Byte → List (List Byte) → List (List Byte)
  | 0, _, _, ws => ws
  | n + 1, i, rc, ws =>
    let t := ws.getD 0 []
    let t' := if i % nk = 0 then
        let r := (t.drop 1 ++ t.take 1).map aesSub
        xorBytes r [rc, 0, 0, 0]
      else if 6 < nk ∧ i % nk = 4 then t.map aesSub else t
    aesExpand nk n (i + 1) (if i % nk = 0 then gfDouble 0x1B rc else rc) (xorBytes (ws.getD (nk - 1) []) t' :: ws)

/-- Round keys of 16 bytes, first to last. -/
def aesKeys (key : List Byte) : List (List Byte) :=
  let nk := key.length / 4
  let first := ((List.range nk).map (fun i => slice key (4 * i) 4)).reverse
  let ws := (aesExpand nk (4 * (nk + 7) - nk) nk 1 first).reverse
  (List.range (nk + 7)).map (fun r => ((ws.drop (4 * r)).take 4).flatten)

def aesShift (st : List Byte) : List Byte := (List.range 16).map (fun i => byteAt st ((i + 4 * (i % 4)) % 16))
def aesMix (st : List Byte) : List Byte :=
  (List.range 16).map (fun i =>
    let c := i / 4 * 4
    let g (k : Nat) := byteAt st (c + (i + k) % 4)
    gfDouble 0x1B (g 0) ^^^ (gfDouble 0x1B (g 1) ^^^ g 1) ^^^ g 2 ^^^ g 3)

def aesRounds : List (List Byte) → List Byte → List Byte
  | [], st => st
  | [k], st => xorBytes (aesShift (st.map aesSub)) k
  | k :: ks, st => aesRounds ks (xorBytes (aesMix (aesShift (st.map aesSub))) k)

/-- AES encryption of one 16-byte block under a 16- or 32-byte key. -/
def aesEnc (key blk : List Byte) : List Byte :=
  match aesKeys key with
  | [] => blk
  | k :: ks => aesRounds ks (xorBytes blk k)

/-- Doubling of a 128-bit block for CMAC's subkeys. -/
def cmacDouble (b : List Byte) : List Byte :=
  let n := ofBe b
  let d := (2 * n) % 2 ^ 128
  beBytes 16 (if n.testBit 127 then d ^^^ 0x87 else d)

def cmacGo (key : List Byte) : Nat → List Byte → List Byte → List Byte
  | 0, _, x => x
  | f + 1, l, x => cmacGo key f (l.drop 16) (aesEnc key (xorBytes x (l.take 16)))

/-- AES-CMAC. -/
def aesCmac (key msg : List Byte) : List Byte :=
  let k1 := cmacDouble (aesEnc key (List.replicate 16 0))
  let n := if msg.isEmpty then 1 else (msg.length + 15) / 16
  let head := msg.take (16 * (n - 1))
  let last := msg.drop (16 * (n - 1))
  let last := if last.length = 16 then xorBytes last k1
    else xorBytes (last ++ [0x80] ++ List.replicate (15 - last.length) 0) (cmacDouble k1)
  cmacGo key n (head ++ last) (List.replicate 16 0)

/-- One pass of RFC 3394 over the blocks. -/
def wrapPass (key : List Byte) (n j : Nat) : Nat → List (List Byte) → List Byte → List Byte × List (List Byte)
  | _, [], a => (a, [])
  | i, r :: rs, a =>
    let b := aesEnc key (a ++ r)
    let a' := xorBytes (b.take 8) (beBytes 8 (n * j + i))
    let (a'', rs') := wrapPass key n j (i + 1) rs a'
    (a'', b.drop 8 :: rs')
def wrapGo (key : List Byte) (n : Nat) : Nat → Nat → List Byte → List (List Byte) → List Byte
  | 0, _, a, rs => a ++ rs.flatten
  | f + 1, j, a, rs => let (a', rs') := wrapPass key n j 1 rs a; wrapGo key n f (j + 1) a' rs'

/-- AES key wrap (RFC 3394) of a multiple of 8 bytes. -/
def aesWrap (key msg : List Byte) : List Byte :=
  let n := msg.length / 8
  wrapGo key n 6 0 (List.replicate 8 0xA6) ((List.range n).map (fun i => slice msg (8 * i) 8))

/-! ### P-256 -/

def p256p : Nat := 0xffffffff00000001000000000000000000000000ffffffffffffffffffffffff
def p256n : Nat := 0xffffffff00000000ffffffffffffffffbce6faada7179e84f3b9cac2fc632551
def p256b : Nat := 0x5ac635d8aa3a93e7b3ebbd55769886bc651d06b0cc53b0f63bce3c3e27d2604b
def p256g : Nat × Nat :=
  (0x6b17d1f2e12c4247f8bce6e563a440f277037d812deb33a0f4a13945d898c296,
   0x4fe342e2fe1a7f9b8ee7eb4a7c0f9e162bce33576b315ececbb6406837bf51f5)

/-- b^e mod m over the `f` lowest bits of e, top first. -/
def powModGo (m b e : Nat) : Nat → Nat → Nat
  | 0, acc => acc
  | i + 1, acc =>
    let acc := acc * acc % m
    powModGo m b e i (if e.testBit i then acc * b % m else acc)
def powMod (m b e : Nat) : Nat := powModGo m b e 256 1

/-- Inverse modulo a prime; subtraction modulo it. -/
def invMod (m a : Nat) : Nat := powMod m a (m - 2)
def subMod (m a b : Nat) : Nat := (a + m - b % m) % m

/-- Addition of points, `none` the point at infinity. -/
def ecAdd (x y : Option (Nat × Nat)) : Option (Nat × Nat) :=
  match x, y with
  | none, q => q
  | p, none => p
  | some (x1, y1), some (x2, y2) =>
    let m := p256p
    if x1 = x2 ∧ (y1 + y2) % m = 0 then none else
    let l := if x1 = x2 then subMod m (3 * x1 * x1) 3 * invMod m (2 * y1) % m
      else subMod m y2 y1 * invMod m (subMod m x2 x1) % m
    let x3 := subMod m (l * l) (x1 + x2)
    some (x3, subMod m (l * subMod m x1 x3) y1)

/-- A scalar times a point, `i` bits of the scalar from the top. -/
def ecMulGo (k : Nat) (p : Option (Nat × Nat)) : Nat → Option (Nat × Nat) → Option (Nat × Nat)
  | 0, acc => acc
  | i + 1, acc =>
    let acc := ecAdd acc acc
    ecMulGo k p i (if k.testBit i then ecAdd acc p else acc)
def ecMul (k : Nat) (p : Option (Nat × Nat)) : Option (Nat × Nat) := ecMulGo k p 256 none

/-- The point a 64-byte public key spells, x then y, big-endian, when it lies on the curve. -/
def ecPoint (key : List Byte) : Option (Nat × Nat) :=
  let x := ofBe (key.take 32)
  let y := ofBe (slice key 32 32)
  if key.length = 64 ∧ x < p256p ∧ y < p256p ∧ y * y % p256p = (x * x * x + (p256p - 3) * x + p256b) % p256p then some (x, y)
  else none

def ecBytes (p : Option (Nat × Nat)) : List Byte :=
  match p with
  | some (x, y) => beBytes 32 x ++ beBytes 32 y
  | none => []

/-- ECDSA verification of a 64-byte signature, r then s, over a hash by a public key (R380). -/
def ecdsaOk (key hash sig : List Byte) : Bool :=
  let r := ofBe (sig.take 32)
  let t := ofBe (slice sig 32 32)
  if sig.length ≠ 64 ∨ r = 0 ∨ p256n ≤ r ∨ t = 0 ∨ p256n ≤ t then false else
  match ecPoint key with
  | none => false
  | some q =>
    let w := invMod p256n t
    match ecAdd (ecMul (ofBe hash * w % p256n) (some p256g)) (ecMul (r * w % p256n) (some q)) with
    | none => false
    | some (x, _) => x % p256n == r

end Sys2Proof.Machine
end

