-- ==== Sys2Proof/Machine/Bolts.lean ====
section
/-! DEFINITION. Bolts: their layout, the DEFLATE decoder and the results of a lane (R342 to R346). -/
namespace Sys2Proof.Machine

/-! ### The bit stream (R343) -/

/-- Bits of bytes, least significant first. -/
def bitsOf (l : List Byte) : List Bool := l.flatMap (fun b => (List.range 8).map (fun i => b.getLsbD i))

/-- `n` bits as a number, first bit least significant; none where the stream ends. -/
def takeBits : Nat → List Bool → Option (Nat × List Bool)
  | 0, l => some (0, l)
  | _ + 1, [] => none
  | n + 1, b :: l => (takeBits n l).map (fun r => (b2n b + 2 * r.1, r.2))

/-! ### Huffman codes -/

/-- Number of codes of a length. -/
def lenCount (ls : List Nat) (n : Nat) : Nat := (ls.filter (· == n)).length

/-- The first code of each length 1 to 15, as RFC 1951 assigns them. -/
def firstCodes (ls : List Nat) : Nat → Nat → Nat → List Nat
  | 0, _, _ => []
  | f + 1, n, code =>
    let c := (code + (if n = 1 then 0 else lenCount ls (n - 1))) * 2
    c :: firstCodes ls f (n + 1) c

/-- A set of code lengths as (length, code, symbol). -/
def codeTable (ls : List Nat) : List (Nat × Nat × Nat) :=
  let first := firstCodes ls 15 1 0
  (List.range ls.length).filterMap (fun i =>
    let n := ls.getD i 0
    if n = 0 then none else some (n, first.getD (n - 1) 0 + lenCount (ls.take i) n, i))

/-- Whether a set of code lengths has no more codes than its lengths leave room for. -/
def codeFits (ls : List Nat) : Bool :=
  decide ((ls.foldl (fun a n => if n = 0 then a else a + 2 ^ (15 - n)) 0) ≤ 2 ^ 15)

/-- The next symbol of a stream, at most `f` bits long. -/
def huffSym (t : List (Nat × Nat × Nat)) : Nat → Nat → Nat → List Bool → Option (Nat × List Bool)
  | 0, _, _, _ => none
  | _ + 1, _, _, [] => none
  | f + 1, n, c, b :: l =>
    let c := 2 * c + b2n b
    match t.find? (fun e => e.1 == n + 1 && e.2.1 == c) with
    | some e => some (e.2.2, l)
    | none => huffSym t f (n + 1) c l

/-! ### Blocks (R343) -/

/-- Length codes 257-285 and distance codes 0-29: base and extra bits. -/
def lenBase (s : Nat) : Nat × Nat :=
  let k := s - 257
  if k < 8 then (k + 3, 0) else if k = 28 then (258, 0)
  else let e := k / 4 - 1; ((4 + k % 4) * 2 ^ e + 3, e)
def distBase (k : Nat) : Nat × Nat :=
  if k < 4 then (k + 1, 0) else let e := k / 2 - 1; ((2 + k % 2) * 2 ^ e + 1, e)

/-- `n` bytes copied from `d` back; the output is kept newest first. -/
def backCopy : Nat → Nat → List Byte → List Byte
  | 0, _, out => out
  | n + 1, d, out => backCopy n d (out.getD (d - 1) 0 :: out)

/-- Symbols of a compressed block up to its end; `lim` is the buffer's size in bytes (R344). -/
def inflateSyms (lit dist : List (Nat × Nat × Nat)) : Nat → List Bool → List Byte → Option (List Bool × List Byte)
  | 0, _, _ => none
  | f + 1, bs, out =>
    match huffSym lit 15 0 0 bs with
    | none => none
    | some (s, bs) =>
      if s < 256 then inflateSyms lit dist f bs (BitVec.ofNat 8 s :: out)
      else if s = 256 then some (bs, out)
      else if 285 < s then none
      else
        let (b, e) := lenBase s
        match takeBits e bs with
        | none => none
        | some (x, bs) =>
          match huffSym dist 15 0 0 bs with
          | none => none
          | some (k, bs) =>
            if 29 < k then none else
            let (db, de) := distBase k
            match takeBits de bs with
            | none => none
            | some (y, bs) =>
              if out.length < db + y then none
              else inflateSyms lit dist f bs (backCopy (b + x) (db + y) out)

/-- The order of code-length codes in a dynamic block. -/
def clOrder : List Nat := [16, 17, 18, 0, 8, 7, 9, 6, 10, 5, 11, 4, 12, 3, 13, 2, 14, 1, 15]

/-- `n` code-length code lengths. -/
def readCl : Nat → List Bool → Option (List Nat × List Bool)
  | 0, bs => some ([], bs)
  | n + 1, bs => match takeBits 3 bs with
    | none => none
    | some (x, bs) => (readCl n bs).map (fun r => (x :: r.1, r.2))

/-- Code lengths of the two alphabets, newest first until `n` are read. -/
def readLens (t : List (Nat × Nat × Nat)) (n : Nat) : Nat → List Bool → List Nat → Option (List Nat × List Bool)
  | 0, _, _ => none
  | f + 1, bs, ls =>
    if n < ls.length then none
    else if ls.length = n then some (ls.reverse, bs)
    else match huffSym t 7 0 0 bs with
      | none => none
      | some (s, bs) =>
        if s < 16 then readLens t n f bs (s :: ls)
        else
          let (b, e) := if s = 16 then (3, 2) else if s = 17 then (3, 3) else (11, 7)
          match takeBits e bs with
          | none => none
          | some (x, bs) =>
            if s = 16 ∧ ls.isEmpty then none
            else readLens t n f bs (List.replicate (b + x) (if s = 16 then ls.getD 0 0 else 0) ++ ls)

/-- The fixed code lengths of RFC 1951. -/
def fixedLit : List Nat := List.replicate 144 8 ++ List.replicate 112 9 ++ List.replicate 24 7 ++ List.replicate 8 8
def fixedDist : List Nat := List.replicate 30 5

/-- A dynamic block's two codes. -/
def dynCodes (bs : List Bool) : Option (List Nat × List Nat × List Bool) :=
  match takeBits 5 bs with
  | none => none
  | some (hl, bs) => match takeBits 5 bs with
    | none => none
    | some (hd, bs) => match takeBits 4 bs with
      | none => none
      | some (hc, bs) => match readCl (hc + 4) bs with
        | none => none
        | some (cl, bs) =>
          let ls := (List.range 19).map (fun i => match clOrder.findIdx? (· == i) with
            | some p => cl.getD p 0
            | none => 0)
          if ! codeFits ls ∨ 29 < hl then none else
          match readLens (codeTable ls) (hl + 257 + hd + 1) 400 bs [] with
          | none => none
          | some (all, bs) =>
            let lit := all.take (hl + 257)
            let dist := all.drop (hl + 257)
            if codeFits lit && codeFits dist then some (lit, dist, bs) else none

/-- Blocks up to the one with BFINAL; `pos` is the stream's whole length in bits, so that a stored block finds its byte
boundary. -/
def inflateBlocks : Nat → List Bool → List Byte → Option (List Bool × List Byte)
  | 0, _, _ => none
  | f + 1, bs, out =>
    match takeBits 3 bs with
    | none => none
    | some (h, bs) =>
      let r : Option (List Bool × List Byte) :=
        match h / 2 with
        | 0 =>
          let bs := bs.drop (bs.length % 8)
          match takeBits 16 bs with
          | none => none
          | some (n, bs) => match takeBits 16 bs with
            | none => none
            | some (m, bs) =>
              if n + m ≠ 0xFFFF ∨ bs.length < 8 * n then none
              else some (bs.drop (8 * n), ((List.range n).map (fun i => BitVec.ofNat 8 ((takeBits 8 (bs.drop (8 * i))).getD (0, [])).1)).reverse ++ out)
        | 1 => inflateSyms (codeTable fixedLit) (codeTable fixedDist) (bs.length + 1) bs out
        | 2 => match dynCodes bs with
          | none => none
          | some (lit, dist, bs) => inflateSyms (codeTable lit) (codeTable dist) (bs.length + 1) bs out
        | _ => none
      match r with
      | none => none
      | some (bs, out) => if h % 2 = 1 then some (bs, out) else inflateBlocks f bs out

/-- A DEFLATE stream decoded (R343): it must end within its last byte. -/
def inflate (l : List Byte) : Option (List Byte) :=
  match inflateBlocks (8 * l.length + 1) (bitsOf l) [] with
  | some (bs, out) => if bs.length < 8 then some out.reverse else none
  | none => none

/-! ### Bolts (R342, R344) -/

/-- A bolt unpacked: its original bytes, or the lane's result code. -/
def boltOpen (l : List Byte) : Except Nat (List Byte) :=
  let orig := leAt l 4 4
  let comp := leAt l 8 4
  let w0 := leAt l 0 4
  let stored := w0.testBit 24
  let header := l.length ≥ 20 ∧ w0 % 2 ^ 16 = 0x4C42 ∧ w0 / 2 ^ 16 % 256 = 1 ∧ w0 / 2 ^ 25 = 0 ∧ 1 ≤ orig ∧ orig ≤ 65536 ∧
    leAt l 12 4 = 0 ∧ l.length = 20 + comp ∧ (stored → comp = orig)
  if ¬ header then .error 2 else
  let payload := slice l 16 comp
  match (if stored then some payload else inflate payload) with
  | none => .error 3
  | some out =>
    if out.length ≠ orig then .error 4
    else if (crc32c out).toNat ≠ leAt l (16 + comp) 4 then .error 5
    else .ok out

/-- What a compression lane makes of its input (R345): the bolt, or none for NO_GAIN. -/
def boltMake (l : List Byte) : Option (List Byte) :=
  let z := Config.deflate l
  if l.length ≤ 20 + z.length then none else
  some ([0x42, 0x4C, 0x01, 0x00] ++ leBytes 4 l.length ++ leBytes 4 z.length ++ leBytes 4 0 ++ z ++ leBytes 4 (crc32c l).toNat)

end Sys2Proof.Machine
end

