-- ==== Sys2Proof/Machine/Symbols.lean ====
section
/-! DEFINITION. The symbols Damask draws: Data Matrix ECC 200 (R150) and Code 128 (R151).  What the two rules leave to
ISO/IEC 16022 and ISO/IEC 15417 is PRESUMED from those standards (log entry 22). -/
namespace Sys2Proof.Machine

/-! ### Data Matrix (R150) -/

/-- A square size: modules a side, data and error codewords, interleaved blocks, data regions a side. -/
structure DmxSize where
  size : Nat
  data : Nat
  ecc : Nat
  blocks : Nat
  regions : Nat
  deriving DecidableEq, Repr

/-- The supported sizes (R150). -/
def dmxSizes : List DmxSize :=
  [⟨10, 3, 5, 1, 1⟩, ⟨12, 5, 7, 1, 1⟩, ⟨14, 8, 10, 1, 1⟩, ⟨16, 12, 12, 1, 1⟩, ⟨18, 18, 14, 1, 1⟩, ⟨20, 22, 18, 1, 1⟩,
   ⟨22, 30, 20, 1, 1⟩, ⟨24, 36, 24, 1, 1⟩, ⟨26, 44, 28, 1, 1⟩, ⟨32, 62, 36, 1, 2⟩, ⟨36, 86, 42, 1, 2⟩, ⟨40, 114, 48, 1, 2⟩,
   ⟨44, 144, 56, 1, 2⟩, ⟨48, 174, 68, 1, 2⟩, ⟨52, 204, 84, 2, 2⟩, ⟨64, 280, 112, 2, 4⟩]

def isDigit (c : Nat) : Bool := decide (48 ≤ c ∧ c ≤ 57)

/-- ASCII encodation of bytes (R150): digit pairs, upper shift above 127, 0x1D as FNC1 in GS1 data. -/
def dmxAscii (gs1 : Bool) : List Nat → List Nat
  | [] => []
  | [a] => if gs1 && a == 0x1D then [232] else if 127 < a then [235, a - 127] else [a + 1]
  | a :: b :: l =>
    if isDigit a && isDigit b then (130 + 10 * (a - 48) + (b - 48)) :: dmxAscii gs1 l
    else (if gs1 && a == 0x1D then [232] else if 127 < a then [235, a - 127] else [a + 1]) ++ dmxAscii gs1 (b :: l)

/-- The data codewords before padding. -/
def dmxWords (gs1 : Bool) (l : List Nat) : List Nat := (if gs1 then [232] else []) ++ dmxAscii gs1 l

/-- The smallest size from `lo` to `hi` that holds `n` data codewords (R150). -/
def dmxFit (n lo hi : Nat) : Option DmxSize :=
  dmxSizes.find? (fun z => decide (lo ≤ z.size) && decide (z.size ≤ hi) && decide (n ≤ z.data))

/-- Padding to `n` codewords from position `p` (1 for the first codeword): 129, then the 253-state pads. -/
def dmxPads : Nat → Nat → Bool → List Nat
  | 0, _, _ => []
  | k + 1, p, first =>
    let v := 129 + (149 * p) % 253 + 1
    (if first then 129 else if 254 < v then v - 254 else v) :: dmxPads k (p + 1) false

/-- Generator polynomial with roots α^1 … α^n over the field of 0x12D, highest power first and its leading 1 left out. -/
def rsGen : Nat → List Byte
  | 0 => []
  | n + 1 =>
    let g : List Byte := 1 :: rsGen n
    let a := iter (n + 1) (gfDouble 0x2D) 1
    ((List.range (n + 1)).map (fun i => g.getD (i + 1) 0 ^^^ gfMul 0x2D (g.getD i 0) a))

/-- Error codewords of a block: the remainder of its data by the generator. -/
def rsEcc (g : List Byte) : List Byte → List Byte → List Byte
  | [], r => r
  | d :: l, r =>
    let f := d ^^^ r.headD 0
    rsEcc g l (List.zipWith (fun a b => a ^^^ gfMul 0x2D b f) (r.drop 1 ++ [0]) g)

/-- Every `k`-th element from the `i`-th. -/
def everyNth (l : List Byte) (k i : Nat) : List Byte :=
  (List.range ((l.length + k - 1 - i) / k)).map (fun j => l.getD (i + j * k) 0)

/-- All codewords of a symbol: data padded, then the blocks' error codewords interleaved. -/
def dmxFull (z : DmxSize) (words : List Nat) : List Byte :=
  let n := words.length
  let data := (words ++ dmxPads (z.data - n) (n + 1) true).map (fun w => BitVec.ofNat 8 w)
  let per := z.ecc / z.blocks
  let g := rsGen per
  let eccs := (List.range z.blocks).map (fun b => rsEcc g (everyNth data z.blocks b) (List.replicate per 0))
  data ++ (List.range z.ecc).map (fun i => (eccs.getD (i % z.blocks) []).getD (i / z.blocks) 0)

/-- Placement of the codeword bits in a mapping matrix of side `n` (ISO/IEC 16022, annex F): cell row · n + column holds
8 · codeword + bit, bit 0 the most significant. -/
def dmxPut (n : Nat) (g : Tab Nat) (r c : Int) (v : Nat) : Tab Nat :=
  let (r, c) := if r < 0 then (r + n, c + 4 - ((n + 4) % 8 : Nat)) else (r, c)
  let (r, c) := if c < 0 then (r + 4 - ((n + 4) % 8 : Nat), c + n) else (r, c)
  tabIns g (r * n + c).toNat v

def dmxBits (n : Nat) (g : Tab Nat) (cells : List (Int × Int)) (word : Nat) : Tab Nat :=
  (cells.zip (List.range 8)).foldl (fun g e => dmxPut n g e.1.1 e.1.2 (8 * word + e.2)) g

/-- The eight cells of a codeword whose last bit stands at (r, c); the four corner shapes. -/
def dmxUtah (r c : Int) : List (Int × Int) :=
  [(r - 2, c - 2), (r - 2, c - 1), (r - 1, c - 2), (r - 1, c - 1), (r - 1, c), (r, c - 2), (r, c - 1), (r, c)]
def dmxCorner (n : Int) : Nat → List (Int × Int)
  | 0 => [(n - 1, 0), (n - 1, 1), (n - 1, 2), (0, n - 2), (0, n - 1), (1, n - 1), (2, n - 1), (3, n - 1)]
  | 1 => [(n - 3, 0), (n - 2, 0), (n - 1, 0), (0, n - 4), (0, n - 3), (0, n - 2), (0, n - 1), (1, n - 1)]
  | 2 => [(n - 3, 0), (n - 2, 0), (n - 1, 0), (0, n - 2), (0, n - 1), (1, n - 1), (2, n - 1), (3, n - 1)]
  | _ => [(n - 1, 0), (n - 1, n - 1), (0, n - 3), (0, n - 2), (0, n - 1), (1, n - 3), (1, n - 2), (1, n - 1)]

def dmxTaken (n : Nat) (g : Tab Nat) (r c : Int) : Bool := g.any (fun e => e.1 == (r * n + c).toNat)

/-- One diagonal sweep from (r, c) by steps of (-2, +2), or (+2, -2) when `down`. -/
def dmxSweep (n : Nat) (down : Bool) : Nat → Int → Int → Nat → Tab Nat → Int × Int × Nat × Tab Nat
  | 0, r, c, w, g => (r, c, w, g)
  | f + 1, r, c, w, g =>
    let free := decide (0 ≤ r ∧ r < n ∧ 0 ≤ c ∧ c < n) && ! dmxTaken n g r c
    let g' := if free then dmxBits n g (dmxUtah r c) w else g
    let w' := if free then w + 1 else w
    let r' := if down then r + 2 else r - 2
    let c' := if down then c - 2 else c + 2
    let go := if down then decide (r' < n ∧ 0 ≤ c') else decide (0 ≤ r' ∧ c' < n)
    if go then dmxSweep n down f r' c' w' g' else (r', c', w', g')

def dmxWalk (n : Nat) : Nat → Int → Int → Nat → Tab Nat → Tab Nat
  | 0, _, _, _, g => g
  | f + 1, r, c, w, g =>
    let at0 := [decide (r = n ∧ c = 0), decide (r = (n : Int) - 2 ∧ c = 0 ∧ n % 4 ≠ 0), decide (r = (n : Int) - 2 ∧ c = 0 ∧ n % 8 = 4),
      decide (r = (n : Int) + 4 ∧ c = 2 ∧ n % 8 = 0)]
    let (w, g) := (List.range 4).foldl (fun (a : Nat × Tab Nat) i =>
      if at0.getD i false then (a.1 + 1, dmxBits n a.2 (dmxCorner n i) a.1) else a) (w, g)
    let (r, c, w, g) := dmxSweep n false n r c w g
    let (r, c, w, g) := dmxSweep n true n (r + 1) (c + 3) w g
    let r := r + 3
    let c := c + 1
    if r < n ∨ c < n then dmxWalk n f r c w g else g

/-- The placement of side `n`. -/
def dmxPlace (n : Nat) : Tab Nat := dmxWalk n n 4 0 0 []

/-- The modules of a symbol, rows from the top, each a list of columns (R538): the finder's solid edges at the left and the
bottom, its alternating edges at the top and the right of every data region. -/
def dmxMatrix (z : DmxSize) (words : List Nat) : List (List Bool) :=
  let full := dmxFull z words
  let d := z.size / z.regions - 2
  let n := d * z.regions
  let g := dmxPlace n
  (List.range z.size).map (fun r => (List.range z.size).map (fun c =>
    let y := r % (d + 2)
    let x := c % (d + 2)
    if x = 0 ∨ y = d + 1 then true
    else if y = 0 then x % 2 == 0
    else if x = d + 1 then y % 2 == 1
    else
      let rr := r / (d + 2) * d + y - 1
      let cc := c / (d + 2) * d + x - 1
      match g.find? (fun e => e.1 == rr * n + cc) with
      | some (_, v) => (full.getD (v / 8) 0).getLsbD (7 - v % 8)
      | none => rr == cc))

/-! ### Code 128 (R151) -/

/-- Widths of bars and spaces by code value, the stop character last. -/
def c128Widths : List Nat :=
  [212222, 222122, 222221, 121223, 121322, 131222, 122213, 122312, 132212, 221213, 221312, 231212, 112232, 122132, 122231,
   113222, 123122, 123221, 223211, 221132, 221231, 213212, 223112, 312131, 311222, 321122, 321221, 312212, 322112, 322211,
   212123, 212321, 232121, 111323, 131123, 131321] ++
  [112313, 132113, 132311, 211313, 231113, 231311, 112133, 112331, 132131, 113123, 113321, 133121, 313121, 211331, 231131,
   213113, 213311, 213131, 311123, 311321, 331121, 312113, 312311, 332111, 314111, 221411, 431111, 111224, 111422, 121124,
   121421, 141122, 141221, 112214, 112412, 122114] ++
  [122411, 142112, 142211, 241211, 221114, 413111, 241112, 134111, 111242, 121142, 121241, 114212, 124112, 124211, 411212,
   421112, 421211, 212141, 214121, 412121, 111143, 111341, 131141, 114113, 114311, 411113, 411311, 113141, 114131, 311141,
   411131, 211412, 211214, 211232, 2331112]

/-- A code set of Code 128. -/
inductive C128Set where
  | a | b | c
  deriving DecidableEq, Repr

/-- Set A when a control character comes before any lower-case letter, else set B (R151). -/
def c128AorB : List Nat → C128Set
  | [] => .b
  | x :: l => if x < 32 then .a else if 97 ≤ x ∧ x ≤ 122 then .b else c128AorB l

/-- The code of a character in set A or B, where the set has it. -/
def c128Code (s : C128Set) (x : Nat) : Option Nat :=
  match s with
  | .a => if x < 32 then some (x + 64) else if x < 96 then some (x - 32) else none
  | .b => if 32 ≤ x ∧ x < 128 then some (x - 32) else none
  | .c => none

/-- Digits at the head of the data. -/
def digitRun : List Nat → Nat
  | [] => 0
  | x :: l => if isDigit x then digitRun l + 1 else 0

/-- Codes after the start character.  `left` counts the digits still to take in set C. -/
def c128Go : Nat → C128Set → Nat → List Nat → List Nat
  | 0, _, _, _ => []
  | _ + 1, _, _, [] => []
  | f + 1, s, left, x :: l =>
    if s = .c then
      match left, l with
      | k + 2, y :: l' => (10 * (x - 48) + (y - 48)) :: c128Go f .c k l'
      | _, _ => let t := c128AorB (x :: l); (if t = .a then 101 else 100) :: c128Go f t 0 (x :: l)
    else
      let n := digitRun (x :: l)
      let ends := n == l.length + 1
      if (6 ≤ n ∨ 4 ≤ n ∧ ends) ∧ n % 2 = 0 then 99 :: c128Go f .c n (x :: l)
      else match c128Code s x with
        | some v => v :: c128Go f s 0 l
        | none =>
          let other : C128Set := if s = .a then .b else .a
          let back := if s = .a then c128AorB l == .a && l.any (· < 32) else c128AorB l == .b && l.any (fun y => decide (97 ≤ y ∧ y ≤ 122))
          if back then 98 :: (c128Code other x).getD 0 :: c128Go f s 0 l
          else (if other = .a then 101 else 100) :: c128Go f other 0 (x :: l)

/-- The codes of a symbol with its check character and stop (R151). -/
def c128Codes (gs1 : Bool) (l : List Nat) : List Nat :=
  let n := digitRun l
  let s := if 4 ≤ n then C128Set.c else c128AorB l
  let start := match s with | .a => 103 | .b => 104 | .c => 105
  let codes := start :: (if gs1 then [102] else []) ++ c128Go (4 * l.length + 4) s (n - n % 2) l
  let check := ((codes.zip (List.range codes.length)).foldl (fun a e => a + e.1 * Nat.max 1 e.2) 0) % 103
  codes ++ [check, 106]

/-- The decimal digits of a number, most significant first. -/
def digitsGo : Nat → Nat → List Nat → List Nat
  | 0, _, acc => acc
  | f + 1, n, acc => if n < 10 then n :: acc else digitsGo f (n / 10) (n % 10 :: acc)

/-- The bars of a symbol, as their first module and width in modules, and the width of the whole. -/
def c128Bars (codes : List Nat) : List (Nat × Nat) × Nat :=
  let ws := codes.flatMap (fun v => digitsGo 8 (c128Widths.getD v 0) [])
  let r := ws.foldl (fun (a : List (Nat × Nat) × Nat × Bool) w =>
    (if a.2.2 then a.1 ++ [(a.2.1, w)] else a.1, a.2.1 + w, ! a.2.2)) ([], 0, true)
  (r.1, r.2.1)

end Sys2Proof.Machine
end

