-- ==== Sys2Proof/Machine/Templates.lean ====
section
/-! DEFINITION. Template images: text, format strings, fonts, and the checks of a load that need no signature (R131, R134 to
R141, R150, R151). -/
namespace Sys2Proof.Machine

/-! ### Text -/

/-- UTF-8 decoded to code points, none where it is malformed (R141). -/
def utf8 : List Byte → Option (List Nat)
  | [] => some []
  | a :: l =>
    let x := a.toNat
    let cont (b : Byte) : Bool := b.toNat / 64 == 2
    let t (b : Byte) : Nat := b.toNat % 64
    if x < 0x80 then (utf8 l).map (x :: ·)
    else match l with
      | [] => none
      | b :: l1 =>
        if 0xC2 ≤ x ∧ x < 0xE0 then (if cont b then (utf8 l1).map (((x % 32) * 64 + t b) :: ·) else none)
        else match l1 with
          | [] => none
          | c :: l2 =>
            if 0xE0 ≤ x ∧ x < 0xF0 then
              let v := (x % 16) * 4096 + t b * 64 + t c
              if cont b && cont c && decide (0x800 ≤ v) && ! decide (0xD800 ≤ v ∧ v < 0xE000) then (utf8 l2).map (v :: ·) else none
            else match l2 with
              | [] => none
              | d :: l3 =>
                let v := (x % 8) * 262144 + t b * 4096 + t c * 64 + t d
                if 0xF0 ≤ x ∧ x < 0xF5 ∧ (cont b && cont c && cont d) = true ∧ 0x10000 ≤ v ∧ v < 0x110000 then (utf8 l3).map (v :: ·)
                else none

/-- A piece of a format string (R141): a literal, a token by its letter, or {k}. -/
inductive Tok where
  | lit (c : Nat) | date (c : Nat) | ref (k : Nat)
  deriving DecidableEq, Repr

/-- Tokens of a field type, by letter: those of DATE and of TIME (R141). -/
def tokAllowed (kind c : Nat) : Bool :=
  if kind = 1 then ([0x59, 0x79, 0x6D, 0x64, 0x62, 0x6A, 0x56, 0x75] : List Nat).contains c
  else if kind = 2 then ([0x48, 0x4D, 0x53] : List Nat).contains c
  else false

/-- A format string parsed, none where it does not parse (R140, R141). -/
def parseFmt (kind : Nat) : List Nat → Option (List Tok)
  | [] => some []
  | 0x25 :: 0x25 :: l => (parseFmt kind l).map (Tok.lit 0x25 :: ·)
  | 0x25 :: c :: l => if tokAllowed kind c then (parseFmt kind l).map (Tok.date c :: ·) else none
  | [0x25] => none
  | 0x7B :: 0x7B :: l => (parseFmt kind l).map (Tok.lit 0x7B :: ·)
  | 0x7B :: a :: 0x7D :: l =>
    if isDigit a ∧ (kind = 0 ∨ kind = 7 ∨ kind = 8) then (parseFmt kind l).map (Tok.ref (a - 48) :: ·) else none
  | 0x7B :: a :: b :: 0x7D :: l =>
    if isDigit a ∧ isDigit b ∧ (kind = 0 ∨ kind = 7 ∨ kind = 8) ∧ 10 * (a - 48) + (b - 48) ≤ 31 then
      (parseFmt kind l).map (Tok.ref (10 * (a - 48) + (b - 48)) :: ·) else none
  | 0x7B :: _ => none
  | c :: l => (parseFmt kind l).map (Tok.lit c :: ·)

/-- The tokens of a field of a loaded template. -/
def TplField.toks (f : TplField) : List Tok := ((utf8 f.fmt).bind (parseFmt f.kind)).getD []

/-- Whether a character belongs to a CHARSET (R136). -/
def inCharset (cs c : Nat) : Bool :=
  match cs with
  | 0 => isDigit c
  | 1 => isDigit c || decide (65 ≤ c ∧ c ≤ 90) || ([0x20, 0x2D, 0x2E, 0x2F] : List Nat).contains c
  | _ => decide (0x20 ≤ c ∧ c ≤ 0x7E)

/-! ### Fonts and bitmaps (R139) -/

/-- Fields of a font's header. -/
def fontHeight (b : List Byte) : Nat := leAt b 4 2
def fontGlyphs (b : List Byte) : Nat := leAt b 6 2
def fontBase (b : List Byte) : Nat := leAt b 8 2

/-- Index entry `i`: code point, advance, offset. -/
def fontEntry (b : List Byte) (i : Nat) : Nat × Nat × Nat := (leAt b (16 + 8 * i) 2, leAt b (18 + 8 * i) 1, leAt b (20 + 8 * i) 4)

/-- The glyph of a code point: its advance and the offset of its data. -/
def fontFind (b : List Byte) (cp : Nat) : Option (Nat × Nat) :=
  ((List.range (fontGlyphs b)).find? (fun i => (fontEntry b i).1 == cp)).map (fun i => (fontEntry b i).2)

/-- Whether decompressed bytes are a font of a kind (R139). -/
def fontOk (kind : Nat) (b : List Byte) : Bool :=
  let w0 := leAt b 0 4
  let n := fontGlyphs b
  let ents := (List.range n).map (fontEntry b)
  decide (16 + 8 * n ≤ b.length) && w0 % 2 ^ 16 == 0x4E46 && w0 / 2 ^ 16 == kind && leAt b 10 6 == 0 &&
    (List.range n).all (fun i => leAt b (19 + 8 * i) 1 == 0 && (i == 0 || decide ((fontEntry b (i - 1)).1 < (fontEntry b i).1))) &&
    ents.all (fun e =>
      let o := e.2.2
      if kind = 0 then
        decide (o + 2 ≤ b.length) && leAt b (o + 1) 1 == 0 && decide (o + 2 + fontHeight b * ((leAt b o 1 + 7) / 8) ≤ b.length)
      else
        let k := leAt b o 2
        decide (o + 2 + 4 * k ≤ b.length) && (List.range k).all (fun i => leAt b (o + 2 + 4 * i) 4 / 2 ^ 17 == 0))

/-- Whether decompressed bytes are a bitmap (R139). -/
def bitmapOk (b : List Byte) : Bool := decide (4 ≤ b.length) && decide (4 + leAt b 2 2 * ((leAt b 0 2 + 7) / 8) ≤ b.length)

/-! ### The image (R134 to R138) -/

/-- A field entry. -/
def tplFieldAt (img : List Byte) (o stringOfs : Nat) : TplField :=
  let w0 := leAt img o 4
  { kind := w0 % 16, charset := w0 / 16 % 16, operatorEntry := w0.testBit 8, maxLen := w0 / 2 ^ 16 % 256, source := w0 / 2 ^ 24,
    fmt := slice img (stringOfs + leAt img (o + 4) 2) (leAt img (o + 6) 2),
    param0 := BitVec.ofNat 32 (leAt img (o + 8) 4), param1 := BitVec.ofNat 32 (leAt img (o + 12) 4) }

/-- A layout object. -/
def tplObjAt (img : List Byte) (o : Nat) : TplObj :=
  let w0 := leAt img o 4
  let w6 := leAt img (o + 24) 4
  { kind := w0 % 16, part := w0 / 16 % 8, field := w0 / 2 ^ 8 % 32, res := w0 / 2 ^ 16 % 16, rot := w0 / 2 ^ 20 % 4,
    mirror := w0.testBit 22, x := signed 32 (leAt img (o + 4) 4), y := signed 32 (leAt img (o + 8) 4),
    size := leAt img (o + 12) 4, x2 := signed 32 (leAt img (o + 16) 4), y2 := signed 32 (leAt img (o + 20) 4),
    spacing := w6 % 2 ^ 16, hatch := w6 / 2 ^ 16 % 256, dots := w6.testBit 24, dwell := leAt img (o + 28) 4 }

/-- A resource entry: KIND word, OFS, LEN, ORIG_LEN (R138). -/
def tplResAt (img : List Byte) (o : Nat) : Nat × Nat × Nat × Nat := (leAt img o 4, leAt img (o + 4) 4, leAt img (o + 8) 4, leAt img (o + 12) 4)

/-- Month names from the string pool: 12 of them, each ended by a zero byte. -/
def takeNames : Nat → List Byte → Option (List (List Byte))
  | 0, _ => some []
  | n + 1, l =>
    let name := l.takeWhile (· != 0)
    match l.drop name.length with
    | [] => none
    | _ :: rest => (takeNames n rest).map (name :: ·)

/-- The header's fields. -/
structure TplHead where
  mode : Nat
  form : Nat
  tplId : Nat
  revision : Nat
  total : Nat
  fieldCount : Nat
  objectCount : Nat
  partCount : Nat
  resCount : Nat
  fieldOfs : Nat
  objectOfs : Nat
  resOfs : Nat
  stringOfs : Nat
  stringLen : Nat
  markX : Nat
  markY : Nat
  pitch : Nat
  maxLen : Nat
  monthsOfs : Nat
  keyId : Nat
  deriving DecidableEq, Repr

def tplHead (img : List Byte) : TplHead :=
  let w (i : Nat) := leAt img (4 * i) 4
  { mode := w 0 / 2 ^ 24 % 2, form := w 0 / 2 ^ 25 % 4, tplId := w 1 % 2 ^ 16, revision := w 1 / 2 ^ 16, total := w 2,
    fieldCount := w 3 % 64, objectCount := w 3 / 2 ^ 8 % 128, partCount := w 3 / 2 ^ 16 % 16, resCount := w 3 / 2 ^ 24 % 16,
    fieldOfs := w 4, objectOfs := w 5, resOfs := w 6, stringOfs := w 7, stringLen := w 8, markX := w 9, markY := w 10,
    pitch := w 11, maxLen := w 12 % 2 ^ 13, monthsOfs := w 12 / 2 ^ 16, keyId := w 13 % 256 }

/-- Step 1 of R131: MAGIC, FORMAT and TOTAL_LEN. -/
def tplStart (img : List Byte) : Bool :=
  leAt img 0 3 == 0x014D44 && leAt img 8 4 == img.length && decide (img.length ≤ 2 ^ 20) && decide (128 ≤ img.length)

/-- The header's checks of R140. -/
def tplHeadOk (img : List Byte) (h : TplHead) : Bool :=
  let stop := img.length - 64
  let fits (o n : Nat) : Bool := decide (64 ≤ o) && decide (o + n ≤ stop)
  leAt img 3 1 / 8 == 0 && decide (h.form ≤ 2) && h.tplId != 0 && decide (1 ≤ h.fieldCount ∧ h.fieldCount ≤ 32) &&
    decide (1 ≤ h.objectCount ∧ h.objectCount ≤ 64) &&
    (if h.form = 2 then decide (1 ≤ h.partCount ∧ h.partCount ≤ 8) else h.partCount == 1) &&
    leAt img 12 1 / 64 == 0 && leAt img 13 1 / 128 == 0 && leAt img 14 1 / 16 == 0 && leAt img 15 1 / 16 == 0 &&
    (h.mode == 0 || h.pitch == 0) && decide (3 ≤ h.maxLen ∧ h.maxLen ≤ 4096) && leAt img 49 1 / 32 == 0 &&
    decide (h.keyId ≤ 3) && leAt img 53 11 == 0 &&
    [h.fieldOfs, h.objectOfs, h.resOfs].all (· % 4 == 0) && fits h.fieldOfs (32 * h.fieldCount) &&
    fits h.objectOfs (32 * h.objectCount) && (h.resCount == 0 || fits h.resOfs (16 * h.resCount)) &&
    (h.stringLen == 0 || fits h.stringOfs h.stringLen) && decide (h.resCount ≤ 15) &&
    decide (64 + 32 * h.fieldCount + 32 * h.objectCount + 16 * h.resCount + h.stringLen ≤ 32768)

/-- The month names the header points at: none for 0xFFFF, an error where they do not stand in the pool. -/
def tplMonths (img : List Byte) (h : TplHead) : Option (List (List Byte)) :=
  if h.monthsOfs = 0xFFFF then some []
  else match takeNames 12 (slice img (h.stringOfs + h.monthsOfs) (h.stringLen - h.monthsOfs)) with
    | some l => if l.all (fun m => (utf8 m).isSome) then some l else none
    | none => none

/-- A field's checks of R136 and R140, as field `j`; `ent` is its entry's offset. -/
def tplFieldOk (img : List Byte) (h : TplHead) (ent j : Nat) (months : Bool) (f : TplField) : Bool :=
  let p0 := f.param0.toNat
  let p1 := f.param1.toNat
  let fofs := leAt img (ent + 4) 2
  let flen := leAt img (ent + 6) 2
  let sizes := dmxSizes.map (fun z => z.size)
  let params : Bool := match f.kind with
    | 1 => p0 / 2 ^ 29 == 0 && decide (p0 / 2 ^ 18 % 2 ^ 11 ≤ 1439) && p1 == 0
    | 4 => p0 == 0 && decide (p1 % 256 ≤ 20) && p1 / 2 ^ 9 == 0 && decide (f.source < 32)
    | 6 => p0 == 0 && decide (p1 ≤ 20) && decide (f.source < 16)
    | 3 => p0 == 0 && p1 == 0 && decide (f.source < 16)
    | 7 => p0 / 2 ^ 17 == 0 && p1 == 0 && sizes.contains (p0 % 256) && sizes.contains (p0 / 256 % 256) &&
        decide (p0 % 256 ≤ p0 / 256 % 256)
    | 8 => p0 / 2 ^ 17 == 0 && p0 % 2 ^ 16 == 0 && p1 == 0
    | _ => p0 == 0 && p1 == 0
  let toks := (utf8 f.fmt).bind (parseFmt f.kind)
  decide (f.kind ≤ 8) && decide (f.charset ≤ 2) && decide (1 ≤ f.maxLen) && leAt img (ent + 1) 1 / 2 == 0 &&
    (! f.operatorEntry || f.kind == 3) && leAt img (ent + 16) 16 == 0 && decide (fofs + flen ≤ h.stringLen) && params &&
    (! decide (3 ≤ f.kind ∧ f.kind ≤ 6) || flen == 0) &&
    (match toks with
      | none => false
      | some l => l.all (fun t => match t with
        | .ref k => decide (k < j)
        | .lit c => (f.kind != 7 || decide (c ≤ 0xFF)) && (f.kind != 8 || decide (c ≤ 0x7F))
        | .date c => c != 0x62 || months))

/-- An object's checks of R137 and R140 that need no resource contents. -/
def tplObjOk (img : List Byte) (h : TplHead) (ent : Nat) (fields : List TplField) (resKinds : List Nat) (o : TplObj) : Bool :=
  let w0 := leAt img ent 4
  let fk := (fields.getD o.field ⟨15, 0, false, 0, 0, [], 0, 0⟩).kind
  let vdots := decide (o.kind = 1) && h.mode == 1 && o.dots && fk == 7
  decide (o.kind ≤ 4) && ! w0.testBit 7 && w0 / 2 ^ 13 % 8 == 0 && w0 / 2 ^ 23 == 0 && leAt img (ent + 27) 1 / 2 == 0 &&
    decide (o.part < h.partCount) && (o.kind != 2 || h.mode == 0) && (decide (2 ≤ o.kind) || decide (o.field < fields.length)) &&
    (o.kind != 1 || fk == 7 || fk == 8) &&
    (o.kind != 0 || resKinds.getD o.res 9 == h.mode) && (o.kind != 2 || resKinds.getD o.res 9 == 2) &&
    (match o.kind with
      | 0 => if h.mode = 0 then decide (1 ≤ o.size % 16 ∧ o.size % 16 ≤ 8) else decide (1 ≤ o.size)
      | 1 => decide (1 ≤ o.size) && (fk != 8 || decide (1 ≤ o.x2)) &&
          (h.mode == 0 || (if o.dots then decide (1 ≤ o.dwell ∧ o.dwell ≤ 800000) else decide (1 ≤ o.hatch ∧ o.hatch ≤ 16)))
      | 4 => h.mode == 0 || decide (1 ≤ o.size)
      | _ => true) &&
    (vdots || o.dwell == 0)

/-- A resource entry's checks. -/
def tplResOk (img : List Byte) (r : Nat × Nat × Nat × Nat) : Bool :=
  decide (r.1 ≤ 2) && r.2.1 % 4 == 0 && decide (64 ≤ r.2.1) && decide (r.2.1 + r.2.2.1 ≤ img.length - 64)

/-- Whether a font holds a glyph for every character a field can produce, its CHARSET apart (R140): its literals, the month
names it uses, and the same of every field it brings in, `fuel` fields deep. -/
def litsIn (font : List Byte) (months : List (List Byte)) (fields : List TplField) : Nat → Nat → Bool
  | 0, _ => true
  | fuel + 1, j => match fields[j]? with
    | none => true
    | some f => f.toks.all (fun t => match t with
      | .lit c => (fontFind font c).isSome
      | .date 0x62 => months.all (fun m => ((utf8 m).getD []).all (fun c => (fontFind font c).isSome))
      | .date _ => true
      | .ref k => litsIn font months fields fuel k)

/-- The font coverage of R140: those characters, and every character of the field's CHARSET. -/
def coverOk (font : List Byte) (months : List (List Byte)) (fields : List TplField) (j : Nat) : Bool :=
  let cs := (fields.getD j ⟨0, 0, false, 0, 0, [], 0, 0⟩).charset
  litsIn font months fields 33 j && (List.range 128).all (fun c => ! inCharset cs c || (fontFind font c).isSome)

/-- Resources decompressed one after another (R131, step 4): the glyph cache's free bytes bound them.  An error is the
result code: 6 NO_SPACE, 7 BAD_RESOURCE. -/
def tplResources (img : List Byte) (laneOk : Bool) : List (Nat × Nat × Nat × Nat) → Nat → Except Nat (List TplRes)
  | [], _ => .ok []
  | (kind, ofs, len, orig) :: rest, room =>
    match boltOpen (slice img ofs len) with
    | .error _ => .error 7
    | .ok b =>
      if ! laneOk then .error 7
      else if room < b.length then .error 6
      else if b.length ≠ orig ∨ ! (if kind = 2 then bitmapOk b else fontOk kind b) then .error 7
      else match tplResources img laneOk rest (room - b.length) with
        | .error e => .error e
        | .ok l => .ok (⟨kind, b⟩ :: l)

/-- An image's checks in the order of R131 after its start: `sigOk` is the enclave's answer, `store` and `cache` the bytes
free.  The template, or the result code. -/
def tplLoad (img : List Byte) (sigOk laneOk : Bool) (store cache : Nat) : Except Nat Template :=
  if ! tplStart img then .error 4
  else if ! sigOk then .error 3
  else
    let h := tplHead img
    if ! tplHeadOk img h then .error 4 else
    match tplMonths img h with
    | none => .error 4
    | some months =>
      let fields := (List.range h.fieldCount).map (fun k => tplFieldAt img (h.fieldOfs + 32 * k) h.stringOfs)
      let objs := (List.range h.objectCount).map (fun k => tplObjAt img (h.objectOfs + 32 * k))
      let res := (List.range h.resCount).map (fun k => tplResAt img (h.resOfs + 16 * k))
      let ok := (List.range h.fieldCount).all (fun k => match fields[k]? with
          | some f => tplFieldOk img h (h.fieldOfs + 32 * k) k (! months.isEmpty) f
          | none => false) &&
        res.all (tplResOk img) &&
        (List.range h.objectCount).all (fun k => match objs[k]? with
          | some o => tplObjOk img h (h.objectOfs + 32 * k) fields (res.map (fun r => r.1)) o
          | none => false)
      if ! ok then .error 4 else
      match tplResources img laneOk res cache with
      | .error e => .error e
      | .ok rs =>
        let cover := objs.all (fun o => o.kind != 0 || match rs[o.res]? with
          | some r => coverOk r.bytes months fields o.field
          | none => false)
        if ! cover then .error 4 else
        let storeBytes := 64 + 32 * h.fieldCount + 32 * h.objectCount + h.stringLen
        if store < storeBytes then .error 6 else
        .ok { mode := h.mode, form := h.form, tplId := h.tplId, revision := h.revision, partCount := h.partCount, markX := h.markX,
              markY := h.markY, pitch := h.pitch, maxLen := h.maxLen, months := months, fields := fields, objs := objs, res := rs,
              storeBytes := storeBytes, cacheBytes := rs.foldl (fun a r => a + r.bytes.length) 0 }

end Sys2Proof.Machine
end

