-- ==== Sys2Proof/Machine/Render.lean ====
section
/-! DEFINITION. A render's work: field evaluation (R141 to R149), symbols (R150, R151), layout (R137, R538), content blocks
(R152 to R155). -/
namespace Sys2Proof.Machine

/-- Causes of a failed render (R159). -/
def causeField : Nat := 1
def causeFit : Nat := 2
def causeVerify : Nat := 3
def causeLayout : Nat := 4
def causeSize : Nat := 5
def causeSerial : Nat := 6
def causeLot : Nat := 7
def causeEngine : Nat := 8
def causeNoTpl : Nat := 9
def causeNoDate : Nat := 10
def causeNoQueue : Nat := 11

/-! ### Dates (R141, R142) -/

/-- Year, month and day of a day counted from 2000-01-01. -/
def civil (days : Int) : Int × Nat × Nat :=
  let z := days + 730425
  let era := z / 146097
  let doe := z - era * 146097
  let yoe := (doe - doe / 1460 + doe / 36524 - doe / 146096) / 365
  let doy := doe - (365 * yoe + yoe / 4 - yoe / 100)
  let mp := (5 * doy + 2) / 153
  let d := doy - (153 * mp + 2) / 5 + 1
  let m := if mp < 10 then mp + 3 else mp - 9
  (yoe + era * 400 + (if m ≤ 2 then 1 else 0), m.toNat, d.toNat)

/-- The day of a year, month and day. -/
def dayOf (y : Int) (m d : Nat) : Int :=
  let y' := if m ≤ 2 then y - 1 else y
  let era := y' / 400
  let yoe := y' - era * 400
  let mp := if 2 < m then m - 3 else m + 9
  let doy : Int := ((153 * mp + 2) / 5 + d - 1 : Nat)
  era * 146097 + (yoe * 365 + yoe / 4 - yoe / 100 + doy) - 730425

/-- The first day of the month after that of `days`, less one. -/
def lastOfMonth (days : Int) : Int :=
  let (y, m, _) := civil days
  (if m = 12 then dayOf (y + 1) 1 1 else dayOf y (m + 1) 1) - 1

/-- ISO 8601 weekday, 1 for Monday (2000-01-01 was a Saturday), and week. -/
def isoWeekday (days : Int) : Nat := ((days + 5) % 7).toNat + 1
def isoWeek (days : Int) : Nat :=
  let th := days - isoWeekday days + 4
  ((th - dayOf (civil th).1 1 1) / 7).toNat + 1

/-- `n` as digits of a base, at least `w` of them; characters. -/
def numChars (base : Nat) : Nat → Nat → List Nat → List Nat
  | 0, _, acc => acc
  | f + 1, n, acc =>
    let d := n % base
    let c := if d < 10 then 48 + d else 55 + d
    if n < base then c :: acc else numChars base f (n / base) (c :: acc)
def padNum (base w n : Nat) : List Nat :=
  let l := numChars base 70 n []
  List.replicate (w - l.length) 48 ++ l

/-- A date or time token (R141): its characters, and whether they are variable. -/
def dateTok (months : List (List Byte)) (days : Int) (minute second c : Nat) : List Nat × Bool :=
  let (y, m, d) := civil days
  if c = 0x59 then (padNum 10 4 y.toNat, true)
  else if c = 0x79 then (padNum 10 2 (y % 100).toNat, true)
  else if c = 0x6D then (padNum 10 2 m, true)
  else if c = 0x64 then (padNum 10 2 d, true)
  else if c = 0x62 then ((utf8 (months.getD (m - 1) [])).getD [], false)
  else if c = 0x6A then (padNum 10 3 ((days - dayOf y 1 1).toNat + 1), true)
  else if c = 0x56 then (padNum 10 2 (isoWeek days), true)
  else if c = 0x75 then (padNum 10 1 (isoWeekday days), true)
  else if c = 0x48 then (padNum 10 2 (minute / 60), true)
  else if c = 0x4D then (padNum 10 2 (minute % 60), true)
  else (padNum 10 2 second, true)

/-! ### Fields (R141 to R151) -/

/-- The date a DATE field prints (R142). -/
def fieldDate (f : TplField) (v : RenderVals) : Int :=
  let roll := if bit f.param0 17 then v.rollover else fld f.param0 28 18
  let prod := if v.minute < roll then v.days - 1 else v.days
  let d := prod + sfld f.param0 15 0
  if bit f.param0 16 then lastOfMonth d else d

/-- One field's text as characters with whether each is variable, from the texts of the fields before it, or the cause of its
failure (R141, R143 to R149). -/
def fieldRaw (t : Template) (v : RenderVals) (outs : List (List (Nat × Bool))) (j : Nat) (f : TplField) :
    Except Nat (List (Nat × Bool)) :=
  let var (l : List Nat) : List (Nat × Bool) := l.map (fun c => (c, true))
  let bytes (l : List Byte) : List Nat := l.map (fun b => b.toNat)
  match f.kind with
  | 3 =>
    let l := match f.operatorEntry, v.entries.find? (fun e => e.1 == j) with
      | true, some e => e.2
      | _, _ => v.lots.getD f.source []
    if l.isEmpty then .error causeLot else .ok (var (bytes l))
  | 4 => match v.serials.find? (fun e => e.1 == f.source) with
    | some (_, some n) => .ok (var (padNum (if bit f.param1 8 then 16 else 10) (fld f.param1 7 0) n))
    | _ => .error causeSerial
  | 5 => match v.shift with
    | some l => .ok (var (bytes l))
    | none => .error causeField
  | 6 => .ok (var (padNum 10 (fld f.param1 7 0) (((v.counters.find? (fun e => e.1 == f.source)).map (fun e => e.2)).getD 0)))
  | _ =>
    let days := if f.kind = 1 then fieldDate f v else v.days
    .ok (f.toks.flatMap (fun k => match k with
      | .lit c => [(c, false)]
      | .date c => let r := dateTok t.months days v.minute v.second c; r.1.map (fun c => (c, r.2))
      | .ref k => outs.getD k []))

/-- A field's text checked (R141, R150, R151): its length, its variable characters, and what a symbol can encode. -/
def fieldText (t : Template) (v : RenderVals) (outs : List (List (Nat × Bool))) (j : Nat) (f : TplField) :
    Except Nat (List (Nat × Bool)) :=
  match fieldRaw t v outs j f with
  | .error e => .error e
  | .ok l =>
    if f.maxLen < l.length ∨ l.any (fun c => c.2 && ! inCharset f.charset c.1) ∨ (f.kind = 7 ∧ l.any (fun c => decide (0xFF < c.1))) ∨
      (f.kind = 8 ∧ l.any (fun c => decide (0x7F < c.1))) then .error causeField
    else .ok l

/-- The texts of the fields from the `j`-th on, or the cause and the field of the first failure. -/
def fieldTexts (t : Template) (v : RenderVals) : List TplField → Nat → List (List (Nat × Bool)) →
    Except (Nat × Nat) (List (List (Nat × Bool)))
  | [], _, outs => .ok outs
  | f :: fs, j, outs => match fieldText t v outs j f with
    | .error e => .error (e, j)
    | .ok l => fieldTexts t v fs (j + 1) (outs ++ [l])

/-- Every field's text (R141); DATE, TIME and SHIFT wait for a valid date clock (R142). -/
def evalFields (t : Template) (v : RenderVals) : Except (Nat × Nat) (List (List Nat)) :=
  match t.fields.findIdx? (fun f => f.kind == 1 || f.kind == 2 || f.kind == 5) with
  | some j => if v.dateValid then (fieldTexts t v t.fields 0 []).map (fun l => l.map (fun x => x.map (fun c => c.1)))
    else .error (causeNoDate, j)
  | none => (fieldTexts t v t.fields 0 []).map (fun l => l.map (fun x => x.map (fun c => c.1)))

/-- The first Data Matrix field whose data fits no size it allows (R150). -/
def noFit (t : Template) (texts : List (List Nat)) : Option Nat :=
  (List.range t.fields.length).find? (fun j => match t.fields[j]? with
    | some f => f.kind == 7 && (dmxFit (dmxWords (bit f.param0 16) (texts.getD j [])).length (fld f.param0 7 0) (fld f.param0 15 8)).isNone
    | none => false)

/-! ### Layout (R137, R538) -/

/-- A point of an object's own frame in the mark's coordinates: mirrored, turned, at the anchor (R538). -/
def place (o : TplObj) (u v : Int) : Int × Int :=
  if 3 ≤ o.kind then (o.x + u, o.y + v) else
  let v := if o.mirror then -v else v
  match o.rot with
  | 0 => (o.x + u, o.y + v)
  | 1 => (o.x - v, o.y + u)
  | 2 => (o.x - u, o.y - v)
  | _ => (o.x + v, o.y - u)

/-- Dark rectangles of an object in its own frame, corners inclusive, and the box the whole object takes. -/
abbrev Rects := List (Int × Int × Int × Int)

/-- Dark bits of a row of `w` bits, bit 0 of the first byte leftmost. -/
def rowBit (b : List Byte) (o i : Nat) : Bool := (byteAt b (o + i / 8)).getLsbD (i % 8)

/-- Raster TEXT: glyphs along +X (R538); the box of every glyph. -/
def rasterText (font : List Byte) (scale spacing : Nat) : List Nat → Int → Rects × Rects
  | [], _ => ([], [])
  | c :: l, pen =>
    match fontFind font c with
    | none => rasterText font scale spacing l pen
    | some (adv, o) =>
      let w := leAt font o 1
      let h := fontHeight font
      let top : Int := -(fontBase font * scale : Nat)
      let dots := (List.range h).flatMap (fun r => (List.range w).filterMap (fun i =>
        if rowBit font (o + 2 + r * ((w + 7) / 8)) i then
          some (pen + (i * scale : Nat), top + (r * scale : Nat), pen + (i * scale + scale - 1 : Nat), top + (r * scale + scale - 1 : Nat))
        else none))
      let box := if w = 0 ∨ h = 0 then [] else [(pen, top, pen + (w * scale - 1 : Nat), top + (h * scale - 1 : Nat))]
      let r := rasterText font scale spacing l (pen + (adv * scale + spacing : Nat))
      (dots ++ r.1, box ++ r.2)

/-- A Data Matrix symbol's modules of `m` dots. -/
def rasterDmx (rows : List (List Bool)) (m : Nat) : Rects :=
  (rows.zip (List.range rows.length)).flatMap (fun r => (r.1.zip (List.range r.1.length)).filterMap (fun c =>
    if c.1 then some ((c.2 * m : Nat), (r.2 * m : Nat), (c.2 * m + m - 1 : Nat), (r.2 * m + m - 1 : Nat)) else none))

/-- The dark rectangles and the boxes of a raster object; a LINE's dots are an open choice (R137). -/
def rasterObj (t : Template) (texts : List (List Nat)) (o : TplObj) : Rects × Rects :=
  let text := texts.getD o.field []
  let res := (t.res.getD o.res ⟨0, []⟩).bytes
  match o.kind with
  | 0 => rasterText res (o.size % 16) o.spacing text 0
  | 1 => match t.fields[o.field]? with
    | none => ([], [])
    | some f =>
      if f.kind = 7 then
        let words := dmxWords (bit f.param0 16) text
        match dmxFit words.length (fld f.param0 7 0) (fld f.param0 15 8) with
        | none => ([], [])
        | some z => (rasterDmx (dmxMatrix z words) o.size, [(0, 0, (z.size * o.size : Nat) - 1, (z.size * o.size : Nat) - 1)])
      else
        let (bars, w) := c128Bars (c128Codes (bit f.param0 16) text)
        (bars.map (fun b => (0, (b.1 * o.size : Nat), o.x2 - 1, (b.1 * o.size + b.2 * o.size : Nat) - 1)),
          [(0, -(10 * o.size : Nat), o.x2 - 1, (w * o.size + 10 * o.size : Nat) - 1)])
  | 2 =>
    let cols := leAt res 0 2
    let rows := leAt res 2 2
    ((List.range rows).flatMap (fun r => (List.range cols).filterMap (fun i =>
        if rowBit res (4 + r * ((cols + 7) / 8)) i then some ((r : Int), (i : Int), (r : Int), (i : Int)) else none)),
      if cols = 0 ∨ rows = 0 then [] else [(0, 0, (rows : Int) - 1, (cols : Int) - 1)])
  | 3 =>
    let dots := Config.lineDots o.x o.y o.x2 o.y2 o.size
    let l := dots.map (fun d => (d.1 - o.x, d.2 - o.y, d.1 - o.x, d.2 - o.y))
    (l, (0, 0, 0, 0) :: (o.x2 - o.x, o.y2 - o.y, o.x2 - o.x, o.y2 - o.y) :: l)
  | _ =>
    let r := (min 0 (o.x2 - o.x), min 0 (o.y2 - o.y), max 0 (o.x2 - o.x), max 0 (o.y2 - o.y))
    ([r], [r])

/-- A box lies inside the mark area after rotation (R155). -/
def boxInside (t : Template) (o : TplObj) (b : Int × Int × Int × Int) : Bool :=
  [place o b.1 b.2.1, place o b.2.2.1 b.2.2.2].all (fun p =>
    decide (0 ≤ p.1) && decide (p.1 < (t.markX : Nat)) && decide (0 ≤ p.2) && decide (p.2 < (t.markY : Nat)))

/-- A rectangle's dots set in the lines' bit maps, line by line. -/
def paintRect (o : TplObj) (r : Int × Int × Int × Int) (lines : Tab Nat) : Tab Nat :=
  let a := place o r.1 r.2.1
  let b := place o r.2.2.1 r.2.2.2
  let x0 := (min a.1 b.1).toNat
  let x1 := (max a.1 b.1).toNat
  let y0 := (min a.2 b.2).toNat
  let y1 := (max a.2 b.2).toNat
  let m := (2 ^ (y1 - y0 + 1) - 1) * 2 ^ y0
  forN (x1 - x0 + 1) (fun i lines => tabPut 0 lines (x0 + i) (tabGet 0 lines (x0 + i) ||| m)) lines

/-! ### Units (R153, R154) -/

/-- The lowest set bit of a number below 2^n, and one more than the highest. -/
def lowBit (n x : Nat) : Nat := ((List.range n).find? (fun i => x.testBit i)).getD 0

/-- A unit's bytes with its CRC-16 over header bytes 0-1, 4-15 and the data (R154). -/
def unitBytes (idx w1 seq : Nat) (data : List Byte) : List Byte :=
  let tail := leBytes 4 w1 ++ leBytes 4 seq ++ leBytes 4 0
  let crc := crc16 (leBytes 2 idx ++ tail ++ data)
  leBytes 2 idx ++ leBytes 2 crc.toNat ++ tail ++ data ++ List.replicate ((16 - data.length % 16) % 16) 0

/-- A weft (R153): the span of its dark dots, less `first` of a region. -/
def weftBytes (bits idx seq : Nat) (last : Bool) : List Byte :=
  let lo := lowBit 3072 bits
  let n := if bits = 0 then 0 else bits.log2 + 1 - lo
  unitBytes idx ((if bits = 0 then 0 else lo) + n * 2 ^ 12 + b2n last * 2 ^ 24) seq (leBytes ((n + 7) / 8) (bits / 2 ^ lo))

/-- Units of 16 bytes a weft takes. -/
def weftLen (bits : Nat) : Nat :=
  if bits = 0 then 1 else 1 + ((bits.log2 + 1 - lowBit 3072 bits + 7) / 8 + 15) / 16

/-- The bits of a line that a member prints: all, or its region of the combined width (R116). -/
def regionBits (region : Option (Nat × Nat)) (bits : Nat) : Nat := match region with
  | some (first, n) => bits / 2 ^ first % 2 ^ n
  | none => bits

/-! ### Vector records (R137, R151, R197) -/

/-- a · b ÷ c where it is whole; the part's own whole number where no rule rounds it. -/
def scaleI (a b c : Int) : Int := if c ≠ 0 ∧ a * b % c = 0 then a * b / c else Config.scaled a b c

/-- A record before its encoding: opcode, point in the object's frame, ARG32. -/
abbrev VecPt := Nat × Int × Int × Nat

/-- Vector TEXT: a JUMP to each stroke's start and a MARK to each PEN point after it. -/
def vecText (font : List Byte) (size spacing : Nat) : List Nat → Int → List VecPt
  | [], _ => []
  | c :: l, pen =>
    match fontFind font c with
    | none => vecText font size spacing l pen
    | some (adv, o) =>
      let h : Int := (fontHeight font : Nat)
      let n := leAt font o 2
      let pts := (List.range n).map (fun i =>
        let w := leAt font (o + 2 + 4 * i) 4
        let x := signed 8 (w % 256)
        let y := signed 8 (w / 256 % 256)
        (if w.testBit 16 ∧ i ≠ 0 then 2 else 1, pen + scaleI x size h, -(scaleI y size h), 0))
      pts ++ vecText font size spacing l (pen + scaleI adv size h + (spacing : Nat))

/-- Runs of dark modules in a row: first module and length. -/
def darkRuns : List Bool → Nat → List (Nat × Nat)
  | [], _ => []
  | b :: l, i =>
    match b, darkRuns l (i + 1) with
    | false, r => r
    | true, (j, n) :: r => if j = i + 1 then (i, n + 1) :: r else (i, 1) :: (j, n) :: r
    | true, [] => [(i, 1)]

/-- The records of a vector object. -/
def vecObj (t : Template) (texts : List (List Nat)) (o : TplObj) : List VecPt :=
  let text := texts.getD o.field []
  let res := (t.res.getD o.res ⟨0, []⟩).bytes
  let m := o.size
  let stroke (u0 v0 u1 v1 : Int) : List VecPt := [(1, u0, v0, 0), (2, u1, v1, 0)]
  match o.kind with
  | 0 => vecText res o.size o.spacing text 0
  | 1 => match t.fields[o.field]? with
    | none => []
    | some f =>
      if f.kind = 7 then
        let words := dmxWords (bit f.param0 16) text
        match dmxFit words.length (fld f.param0 7 0) (fld f.param0 15 8) with
        | none => []
        | some z =>
          let rows := dmxMatrix z words
          (rows.zip (List.range rows.length)).flatMap (fun r =>
            if o.dots then
              (r.1.zip (List.range r.1.length)).filterMap (fun c =>
                if c.1 then some (3, (c.2 * m : Nat) + scaleI m 1 2, (r.2 * m : Nat) + scaleI m 1 2, o.dwell) else none)
            else (List.range o.hatch).flatMap (fun i =>
              let v : Int := (r.2 * m : Nat) + Config.hatchAt i o.hatch m
              (darkRuns r.1 0).flatMap (fun d => stroke (d.1 * m : Nat) v ((d.1 + d.2) * m : Nat) v)))
      else
        (c128Bars (c128Codes (bit f.param0 16) text)).1.flatMap (fun b => (List.range (b.2 * o.hatch)).flatMap (fun i =>
          let v : Int := (b.1 * m + i / o.hatch * m : Nat) + Config.hatchAt (i % o.hatch) o.hatch m
          stroke 0 v o.x2 v))
  | 3 => stroke 0 0 (o.x2 - o.x) (o.y2 - o.y)
  | _ =>
    let u := o.x2 - o.x
    let v := o.y2 - o.y
    let d : Int := if v < 0 then -1 else 1
    let n := (v.natAbs - 1) / o.size
    [(1, 0, 0, 0), (2, u, 0, 0), (2, u, v, 0), (2, 0, v, 0), (2, 0, 0, 0)] ++
      (List.range (Nat.min n 70000)).flatMap (fun i => let y := d * (((i + 1) * o.size : Nat) : Int); stroke 0 y u y)

/-- The quiet zones of a Code 128 symbol, as points that must lie inside (R151). -/
def quietPts (t : Template) (texts : List (List Nat)) (o : TplObj) : List (Int × Int) :=
  match o.kind, t.fields[o.field]? with
  | 1, some f =>
    if f.kind = 8 then
      let w := (c128Bars (c128Codes (bit f.param0 16) (texts.getD o.field []))).2
      [(0, -(10 * o.size : Nat)), (o.x2, ((w + 10) * o.size : Nat))]
    else []
  | _, _ => []

/-- A record's 16 bytes (R196, R197). -/
def recBytes (op : Nat) (x y : Int) (arg : Nat) : List Byte :=
  leBytes 4 op ++ leBytes 4 (wrapN 24 x) ++ leBytes 4 (wrapN 24 y) ++ leBytes 4 arg

/-- Vector blocks of up to 16 records from the records' bytes (R153). -/
def vecBlocks (seq : Nat) : Nat → Nat → List (List Byte) → List Byte
  | 0, _, _ => []
  | f + 1, i, recs =>
    let now_ := recs.take 16
    let rest := recs.drop 16
    unitBytes i (now_.length + b2n rest.isEmpty * 2 ^ 8) seq now_.flatten ++ vecBlocks seq f (i + 1) rest

/-! ### Blocks (R152, R154, R155) -/

/-- What one member's block is made for. -/
structure BlockFor where
  seq : Nat
  productId : Nat
  part : Nat
  region : Option (Nat × Nat)
  deriving DecidableEq, Repr

/-- A block: its bytes, units and CRC-32C. -/
structure BlockOut where
  bytes : List Byte
  units : Nat
  crc : Word
  deriving DecidableEq, Repr

/-- Header and units put together (R152, R154). -/
def blockOf (t : Template) (b : BlockFor) (tag : Nat) (date serial : Nat) (units : Nat) (body : List Byte) : BlockOut :=
  let len := 3 + body.length / 16
  let head := leBytes 4 (0x01434E + t.mode * 2 ^ 24) ++ leBytes 4 b.seq ++ leBytes 4 b.productId ++
    leBytes 4 (t.tplId + b.part % 256 * 2 ^ 16) ++ leBytes 4 (units % 2 ^ 16 + len * 2 ^ 16) ++ leBytes 4 tag ++ leBytes 8 date ++ leBytes 8 serial
  let crc := crc32c (head ++ body)
  ⟨head ++ leBytes 4 crc.toNat ++ leBytes 4 0 ++ body, units, crc⟩

/-- Objects a member draws: all, or those of its side (R137). -/
def objsOf (t : Template) (part : Nat) : List TplObj := t.objs.filter (fun o => t.form != 2 || o.part == part)

/-- The raster content of the whole mark: its lines, or none where an object leaves the mark area (R155). -/
def rasterLines (t : Template) (texts : List (List Nat)) (part : Nat) : Option (Tab Nat) :=
  let objs := (objsOf t part).map (fun o => (o, rasterObj t texts o))
  if objs.all (fun e => e.2.2.all (boxInside t e.1)) then
    some (forL objs (fun e lines => forL e.2.1 (fun r lines => paintRect e.1 r lines) lines) [])
  else none

/-- The records of a vector mark, END last, or none where a point leaves the mark area (R155). -/
def vecRecs (t : Template) (texts : List (List Nat)) (part : Nat) : Option (List (List Byte)) :=
  let objs := objsOf t part
  let pts := objs.flatMap (fun o => (vecObj t texts o).map (fun p => (p.1, place o p.2.1 p.2.2.1, p.2.2.2)))
  let quiet := objs.flatMap (fun o => (quietPts t texts o).map (fun p => place o p.1 p.2))
  let inside (p : Int × Int) : Bool := decide (0 ≤ p.1) && decide (p.1 < (t.markX : Nat)) && decide (0 ≤ p.2) && decide (p.2 < (t.markY : Nat)) &&
    decide (p.1 ≤ 8388607) && decide (p.2 ≤ 8388607)
  if pts.all (fun p => inside p.2.1) && quiet.all inside then
    some (pts.map (fun p => recBytes p.1 p.2.1.1 p.2.1.2 p.2.2) ++ [recBytes 0x0F 0 0 0])
  else none

/-- One member's block, or the cause of the failure (R155). -/
def renderBlock (t : Template) (texts : List (List Nat)) (b : BlockFor) (tag date serial : Nat) : Except Nat BlockOut :=
  if t.mode = 0 then
    match rasterLines t texts b.part with
    | none => .error causeLayout
    | some lines =>
      let bitsAt (i : Nat) : Nat := regionBits b.region (tabGet 0 lines i)
      if t.maxLen < 3 + t.markX + lines.foldl (fun a e => a + (weftLen (regionBits b.region e.2) - 1)) 0 then .error causeSize
      else
        let body := (List.range t.markX).flatMap (fun i => weftBytes (bitsAt i) i b.seq (i + 1 == t.markX))
        .ok (blockOf t b tag date serial t.markX body)
  else
    match vecRecs t texts b.part with
    | none => .error causeLayout
    | some recs =>
      let n := (recs.length + 15) / 16
      if t.maxLen < 3 + n + recs.length then .error causeSize
      else .ok (blockOf t b tag date serial n (vecBlocks b.seq n 0 recs))

/-- Blocks of every member in turn, or the cause of the first failure. -/
def renderBlocks (t : Template) (texts : List (List Nat)) (tag date serial : Nat) : List BlockFor → Except Nat (List BlockOut)
  | [] => .ok []
  | b :: l => match renderBlock t texts b tag date serial with
    | .error e => .error e
    | .ok x => match renderBlocks t texts tag date serial l with
      | .error e => .error e
      | .ok r => .ok (x :: r)

/-- SERIAL of a block (R152): the value of the lowest-numbered SERIAL field, 0 without one. -/
def blockSerial (t : Template) (v : RenderVals) : Nat :=
  match t.fields.find? (fun f => f.kind == 4) with
  | none => 0
  | some f => match v.serials.find? (fun e => e.1 == f.source) with
    | some (_, some n) => n
    | _ => 0

/-- A whole render (R155): its blocks, or the cause and the field of its failure; `verify` says that every symbol read back as it
was encoded. -/
def renderAll (t : Template) (v : RenderVals) (verify : Bool) (tag : Nat) (members : List BlockFor) :
    Except (Nat × Nat) (List BlockOut) :=
  match evalFields t v with
  | .error e => .error e
  | .ok texts =>
    match noFit t texts with
    | some j => .error (causeFit, j)
    | none =>
      let symbol := t.fields.findIdx? (fun f => f.kind == 7 || f.kind == 8)
      if ! verify && symbol.isSome then .error (causeVerify, symbol.getD 0) else
      match renderBlocks t texts tag v.date.toNat (blockSerial t v) members with
      | .error c => .error (c, 0)
      | .ok l => .ok l

/-- Dot ranges a SYMBOL object can cover across the head at its largest size, after rotation (R185); a Code 128 symbol's largest
size is taken from its MAXLEN (log entry 23). -/
def symbolDots (t : Template) (part first n : Nat) : List (Nat × Nat) :=
  (objsOf t part).filterMap (fun o =>
    if o.kind ≠ 1 then none else
    match t.fields[o.field]? with
    | none => none
    | some f =>
      let b : Int × Int := if f.kind = 7 then ((fld f.param0 15 8 * o.size : Nat) - 1, (fld f.param0 15 8 * o.size : Nat) - 1)
        else (o.x2 - 1, (((2 * f.maxLen + 3) * 11 + 13) * o.size : Nat) - 1)
      let p := place o 0 0
      let q := place o b.1 b.2
      let lo := (min p.2 q.2).toNat
      let hi := (min (max p.2 q.2) (((t.markY : Nat) : Int) - 1)).toNat
      if hi < first ∨ first + n ≤ lo then none else some (Nat.max lo first - first, Nat.min hi (first + n - 1) - first))

end Sys2Proof.Machine
end

