-- ==== Sys2Proof/Machine/Damask.lean ====
section
/-! DEFINITION. Damask: the render queue and its engines, template slots and selections, lots and operator entries, serial and
general counters (spec/05, R125 to R160). -/
namespace Sys2Proof.Machine

/-! ### The flash store (R386) -/

/-- The payload of the entry of a kind in force. -/
def State.storeOf (s : State) (k : StoreKind) : Option (List Byte) := (s.sec.store.find? (fun e => e.kind == k)).map (fun e => e.payload)

/-- A store write asked for. -/
def State.storePush (s : State) (k : StoreKind) (payload : List Byte) (slot : Option Nat) : State :=
  { s with sec := { s.sec with writes := s.sec.writes ++ [⟨k, payload, slot, none⟩] } }

/-! ### Serial counters (R145 to R147, R386) -/

/-- Counter `c` has a valid reservation entry. -/
def State.serialValid (s : State) (c : Nat) : Bool := (s.storeOf (.serial c)).isSome

/-- The next block asked for once RESV - NEXT has fallen to 512 (R146). -/
def State.serialReserve (s : State) (c : Nat) : State :=
  let x := s.serial c
  if s.serialValid c && ! x.reserving && x.setTo.isNone && decide (x.resv.toNat - x.next.toNat ≤ 512) then
    (s.storePush (.serial c) (leBytes 8 (x.resv.toNat + 1024)) none).setSerial c { x with reserving := true }
  else s

/-- The counter issues NEXT (R145): only below RESV and below LIMIT; else source 90. -/
def State.serialIssue (s : State) (c : Nat) : State × Option Nat :=
  let x := s.serial c
  if s.serialValid c && decide (x.next.toNat < x.resv.toNat) && decide (x.next.toNat < x.limit.toNat) then
    ((s.setSerial c { x with next := x.next + 1 }).serialReserve c, some x.next.toNat)
  else ((s.serialReserve c).soot .dmk 2, none)

/-- DMK_SER_RES (R159). -/
def State.serRes (s : State) (v : Nat) : State := (s.wrf Reg.dmkSerRes 1 0 v).irq .dmk 4

/-- A serial store write is confirmed (R146, R147): RESV advances, and a SET_NEXT takes NEXT with it. -/
def State.serialConfirmed (s : State) (c : Nat) (payload : List Byte) : State :=
  let x := s.serial c
  let v := ofLe payload
  let resv := BitVec.ofNat 64 (Nat.max x.resv.toNat v)
  match x.setTo with
  | some n =>
    if v = n.toNat + 1024 then
      (s.setSerial c { x with resv := resv, next := if x.next.toNat < n.toNat then n else x.next, setTo := none, reserving := false }).serRes 2
    else s.setSerial c { x with resv := resv, reserving := false }
  | none => (s.setSerial c { x with resv := resv, reserving := false }).serialReserve c

/-- A serial store write failed (R146): source 90; the write is retried by the enclave. -/
def State.serialFailed (s : State) : State := s.soot .dmk 2

/-- NEXT lost (R146): every counter resumes at its flash RESV, and asks for its next block. -/
def State.serialLost (s : State) : State :=
  forN 32 (fun c s =>
    let v := BitVec.ofNat 64 (ofLe ((s.storeOf (.serial c)).getD []))
    (s.updSerial c (fun x => { x with next := v, resv := v, setTo := none, reserving := false })).serialReserve c) s

/-- NEXT, RESV and LIMIT of a counter captured (R159). -/
def State.serCapture (s : State) (c : Nat) : State :=
  let x := s.serial c
  let s := s.wr64 Reg.dmkSerNextLo Reg.dmkSerNextHi x.next.toNat
  let s := s.wr64 Reg.dmkSerResvLo Reg.dmkSerResvHi x.resv.toNat
  s.wr64 Reg.dmkSerLimitLo Reg.dmkSerLimitHi x.limit.toNat

/-- PD6 comes on: the counters as retention kept them, their captured registers, DMK_STAT (R146, R159). -/
def State.serialRestore (s : State) : State := (s.serCapture 0).dmkShow

/-- A write of DMK_SER_CMD (R147): SET_NEXT, then SET_LIMIT. -/
def State.serCmd (s : State) (v : Word) : State :=
  let c := s.rdf Reg.dmkSerSel 4 0
  let n := BitVec.ofNat 64 (s.rd64 Reg.dmkSerSetLo Reg.dmkSerSetHi)
  let s := if ! bit v 0 then s
    else if n.toNat < (s.serial c).resv.toNat then s.serRes 3
    else
      let s := (s.updSerial c (fun x => { x with setTo := some n })).wrf Reg.dmkSerRes 1 0 1
      s.storePush (.serial c) (leBytes 8 (n.toNat + 1024)) none
  if bit v 1 then (s.updSerial c (fun x => { x with limit := n })).serRes 2 else s

/-- SERIAL_SET_NEXT (R147). -/
def execSerialSetNext (b : Bus) (v : Word) (s : State) : Out := .next (busWrite b .dmk 0x1E4 v (fun s => s.serCmd v) s)

/-- SERIAL_SET_LIMIT (R147). -/
def execSerialSetLimit (b : Bus) (v : Word) (s : State) : Out := .next (busWrite b .dmk 0x1E4 v (fun s => s.serCmd v) s)

/-- SERIAL_CAPTURE (R159). -/
def execSerialCapture (b : Bus) (v : Word) (s : State) : Out :=
  .next (busWrite b .dmk 0x1C0 v (fun s => (s.plainWrite Reg.dmkSerSel v).serCapture (fld v 4 0)) s)

/-! ### Selections, lots and entries (R133, R144) -/

/-- A value that takes effect from the tick after it was written. -/
def Delayed.get {α : Type} (d : Delayed α) (now_ : Nat) : α := if d.since < now_ then d.cur else d.prev
def Delayed.put {α : Type} (d : Delayed α) (now_ : Nat) (v : α) : Delayed α := ⟨v, d.get now_, now_⟩

def selReset : Delayed Word := ⟨0, 0, 0⟩
def lotReset : Delayed (List Byte) := ⟨[], [], 0⟩
def entryReset : Delayed (Option (List Byte)) := ⟨none, none, 0⟩

/-- The selection in force for unit `u`, as DMK_SELu has it. -/
def State.selWord (s : State) (u : Nat) : Word := (tabGet selReset s.dmk.sel u).get s.now

/-- TEMPLATE_ID of a slot, 0 when it is empty. -/
def State.tplIdOf (s : State) (k : Nat) : BitVec 16 := match s.tplSlot k with
  | some t => BitVec.ofNat 16 t.tplId
  | none => 0

/-- Jobs that have not left their tables and carry a slot's template (R132, R159). -/
def State.jobsCarrying (s : State) (k : Nat) : Nat :=
  (List.range 16).foldl (fun a n => a + ((s.chan n).jobs.filter (fun e => e.2.tplSlot == some k)).length) 0 +
    (List.range 8).foldl (fun a n => a + ((s.stn n).jobs.filter (fun e => e.2.entry.tplSlot == some k)).length) 0

/-- A slot is in use (R132): a selection names it, or a job carries its template. -/
def State.slotInUse (s : State) (k : Nat) : Bool :=
  (List.range 24).any (fun u =>
    let r := s.rd (Reg.dmkSel u)
    let w := s.selWord u
    bit r 8 && fld r 4 0 == k || bit w 8 && fld w 4 0 == k) || s.jobsCarrying k != 0

/-- Dot pitch and dots of channel `n`'s head (R133). -/
def State.dotPitch (s : State) (n : Nat) : Nat := s.rdf (Reg.hpPitch n) 19 0
def State.dotCount (s : State) (n : Nat) : Nat := s.rdf (Reg.hpCfg n) 11 0

/-- A template may be selected for a unit (R133). -/
def State.selFits (s : State) (u : Nat) (t : Template) : Bool :=
  if u < 16 then
    t.form == 0 && (if t.mode = 1 then s.isLaser u else ! s.isLaser u && s.dotPitch u == t.pitch && decide (t.markY ≤ s.dotCount u))
  else
    let k := u - 16
    let slots := (List.range 8).filterMap (fun i => (s.stnSlot k i).map (fun m => (i, m)))
    let side := s.rdb (Reg.stnCfg k) 0
    let chans := slots.all (fun e => decide (e.2 < 16))
    let thermal := chans && slots.all (fun e => ! s.isLaser e.2 && s.dotPitch e.2 == t.pitch)
    let form := (t.form == 1 && ! side) ||
      (t.form == 2 && side && slots.all (fun e => decide (s.rdf (Reg.stnSlotMember k e.1) 15 8 < t.partCount)))
    let mode :=
      if t.mode = 1 then (s.stnChans 4 k).all (fun n => s.isLaser n)
      else if side then thermal && slots.all (fun e => decide (t.markY ≤ s.dotCount e.2))
      else thermal && decide (t.markY ≤ slots.foldl (fun a e => a + s.dotCount e.2) 0)
    form && mode

/-- TEMPLATE_SELECT (R133): from the tick after it is served; a refused one sets TEMPLATE_REFUSED. -/
def execTemplateSelect (b : Bus) (u : Fin 24) (v : Word) (s : State) : Out :=
  .next (busWrite b .dmk (0xC0 + 4 * u.val) v (fun s =>
    let ok := ! bit v 8 || (match s.tplSlot (fld v 4 0) with
      | some t => s.selFits u.val t
      | none => false)
    if ! ok then s.soot .dmk 1 else
    let s := s.plainWrite (Reg.dmkSel u.val) v
    let d := tabGet selReset s.dmk.sel u.val
    { s with dmk := { s.dmk with sel := tabPut selReset s.dmk.sel u.val (d.put s.now (s.rd (Reg.dmkSel u.val))) } }) s)

/-- The shadow of a lot data set: its length, then its 32 bytes. -/
def lotShadowReset : List Byte := List.replicate 33 0

/-- DMK_LOT_SEL (R159): the shadow registers show the selected set's shadow. -/
def State.lotSelect (s : State) (v : Word) : State :=
  let old := s.rdf Reg.dmkLotSel 3 0
  let now_ := BitVec.ofNat 8 (s.rdf Reg.dmkLotLen 5 0) :: (List.range 8).flatMap (fun i => leBytes 4 (s.rdn (Reg.dmkLotData i)))
  let tab := tabPut lotShadowReset s.dmk.lotShadow old now_
  let s := { s with dmk := { s.dmk with lotShadow := tab } }.plainWrite Reg.dmkLotSel v
  let sh := tabGet lotShadowReset tab (s.rdf Reg.dmkLotSel 3 0)
  let s := s.wrf Reg.dmkLotLen 5 0 (byteAt sh 0).toNat
  forN 8 (fun i s => s.wr (Reg.dmkLotData i) (BitVec.ofNat 32 (leAt sh (1 + 4 * i) 4))) s

/-- Bytes of eight registers from one on. -/
def State.regBytes (s : State) (r : Nat → Nat) (n : Nat) : List Byte := ((List.range 8).flatMap (fun i => leBytes 4 (s.rdn (r i)))).take n

/-- LOT_COMMIT (R144): the selected shadow from the next tick; a length over 32 is refused. -/
def execLotCommit (b : Bus) (v : Word) (s : State) : Out :=
  .next (busWrite b .dmk 0x148 v (fun s =>
    if ! bit v 0 then s else
    let n := s.rdf Reg.dmkLotLen 5 0
    if 32 < n then (s.wrf Reg.dmkLotRes 1 0 2).irq .dmk 3 else
    let k := s.rdf Reg.dmkLotSel 3 0
    let d := tabGet lotReset s.dmk.lots k
    let s := { s with dmk := { s.dmk with lots := tabPut lotReset s.dmk.lots k (d.put s.now (s.regBytes Reg.dmkLotData n)) } }
    (s.wrf Reg.dmkLotRes 1 0 1).irq .dmk 3) s)

/-- OPERATOR_ENTRY_COMMIT (R144). -/
def execOperatorEntryCommit (b : Bus) (v : Word) (s : State) : Out :=
  .next (busWrite b .dmk 0x178 v (fun s =>
    if ! bit v 0 then s else
    let slot := s.rdf Reg.dmkOpeTarget 4 0
    let field := s.rdf Reg.dmkOpeTarget 12 8
    let n := s.rdf Reg.dmkOpeLen 5 0
    let text := s.regBytes Reg.dmkOpeData n
    let f := (s.tplSlot slot).bind (fun t => t.fields[field]?)
    let res := match f with
      | none => 2
      | some f =>
        if f.kind ≠ 3 ∨ ! f.operatorEntry then 2
        else if 32 < n ∨ f.maxLen < n then 3
        else if text.any (fun c => ! inCharset f.charset c.toNat) then 4
        else 1
    let key := slot * 32 + field
    let d := tabGet entryReset s.dmk.entries key
    let s := if res = 1 then
        { s with dmk := { s.dmk with entries := tabPut entryReset s.dmk.entries key (d.put s.now (some text)) } }
      else s
    (s.wrf Reg.dmkOpeRes 2 0 res).irq .dmk 3) s)

/-! ### Template slots (R131, R132) -/

/-- Bytes used of the template store and of the glyph cache. -/
def State.storeUsed (s : State) : Nat := s.dmk.slots.foldl (fun a e => match e.2 with | some t => a + t.storeBytes | none => a) 0
def State.cacheUsed (s : State) : Nat := s.dmk.slots.foldl (fun a e => match e.2 with | some t => a + t.cacheBytes | none => a) 0

/-- DMK_CACHE_STAT in KiB, and the count of valid slots (R159). -/
def State.cacheShow (s : State) : State :=
  ((s.wrf Reg.dmkCacheStat 9 0 ((s.cacheUsed + 1023) / 1024)).wrf Reg.dmkCacheStat 25 16 ((s.storeUsed + 1023) / 1024)).dmkShow

/-- A template command ends with a result (R131): all but OK set TEMPLATE_REFUSED. -/
def State.tplResult (s : State) (slot res : Nat) : State :=
  let s := (s.wr Reg.dmkTplRes (BitVec.ofNat 32 (res + slot * 256))).irq .dmk 1
  if res = 2 then s else s.soot .dmk 1

/-- A slot emptied with its operator entries (R132, R144). -/
def State.tplEmpty (s : State) (k : Nat) : State :=
  let s := s.setTplSlot k none
  { s with dmk := { s.dmk with entries := s.dmk.entries.filter (fun e => e.1 / 32 != k) } }.cacheShow

/-- A write of DMK_TPL_CMD (R131, R132): not taken while a command is busy; LOAD before UNLOAD. -/
def State.tplCmd (s : State) (v : Word) : State :=
  let k := fld v 4 0
  if ! bit v 8 && ! bit v 9 then s
  else if s.rdf Reg.dmkTplRes 2 0 = 1 then s.soot .dmk 1
  else if bit v 8 then
    if (s.tplSlot k).isSome then s.tplResult k 5 else
    let a := s.rd64 Reg.dmkTplAddrLo Reg.dmkTplAddrHi % 2 ^ 40
    let s := { s with dmk := { s.dmk with loading := some (k, a, s.rdn Reg.dmkTplLen), boltsDone := 0, boltFault := false } }
    s.wr Reg.dmkTplRes (BitVec.ofNat 32 (1 + k * 256))
  else if (s.tplSlot k).isNone then s.tplResult k 2
  else if s.slotInUse k then s.tplResult k 5
  else (s.tplEmpty k).tplResult k 2

/-- TEMPLATE_LOAD (R131). -/
def execTemplateLoad (b : Bus) (v : Word) (s : State) : Out := .next (busWrite b .dmk 0x64 v (fun s => s.tplCmd v) s)

/-- TEMPLATE_UNLOAD (R132). -/
def execTemplateUnload (b : Bus) (v : Word) (s : State) : Out := .next (busWrite b .dmk 0x64 v (fun s => s.tplCmd v) s)

/-- The owner template key of an image verifies its signature (R134, R388); a missing key verifies nothing. -/
def State.tplSigOk (s : State) (img : List Byte) : Bool :=
  s.domOn 2 && s.sec.enclaveOk && s.rdf Reg.secStat 5 4 == 0 && (match tabGet none s.sec.tplKeys (leAt img 0x34 1) with
    | none => false
    | some key => ecdsaOk key (sha256 (img.take (img.length - 64))) (img.drop (img.length - 64)))

/-- The image a template load reads: its slot, address and bytes. -/
def State.tplImage (s : State) : Option (Nat × Nat × List Byte) := match s.dmk.loading with
  | none => none
  | some (k, a, n) => some (k, a, if n ≤ 2 ^ 20 then s.rdMem a n else [])

/-- A decompression lane is enabled and in service (R346). -/
def State.inflateLane (s : State) : Bool :=
  (s.rdb Reg.bltCfg 2 && s.lane 2 != .out) || (s.rdb Reg.bltCfg 3 && s.lane 3 != .out)

/-- Offset and length of the bolts of the image that the load opens (R131, step 4): none unless the steps before pass, and
none after the first resource that fails. -/
def State.tplBolts (s : State) (img : List Byte) : List (Nat × Nat) :=
  let cache := 512 * 1024 - s.cacheUsed
  match tplLoad img (s.tplSigOk img) false (128 * 1024 - s.storeUsed) cache with
  | .error 7 =>
    let h := tplHead img
    let res := (List.range h.resCount).map (fun i => tplResAt img (h.resOfs + 16 * i))
    let n := match (List.range res.length).find? (fun i => match tplResources img true (res.take (i + 1)) cache with
      | .error _ => true
      | .ok _ => false) with
      | some i => i + 1
      | none => res.length
    (res.take n).map (fun r => (r.2.1, r.2.2.1))
  | _ => []

/-- TEMPLATE_LOAD_DONE (R131): the lanes have opened the image's bolts, or none can; the image is checked, and on a failure
nothing of it stays. -/
def execTemplateLoadDone (s : State) : Out :=
  match s.tplImage with
  | none => .next s
  | some (k, _, img) =>
    if ! (decide ((s.tplBolts img).length ≤ s.dmk.boltsDone) || s.dmk.boltFault || ! s.inflateLane) then .next s else
    let lane := ! s.dmk.boltFault && (s.inflateLane || decide ((s.tplBolts img).length ≤ s.dmk.boltsDone))
    let s := { s with dmk := { s.dmk with loading := none } }
    match tplLoad img (s.tplSigOk img) lane (128 * 1024 - s.storeUsed) (512 * 1024 - s.cacheUsed) with
    | .ok t => .next ((s.setTplSlot k (some t)).cacheShow.tplResult k 2)
    | .error e => .next (s.tplResult k e)

/-- TPL_INFO_CAPTURE (R159). -/
def execTplInfoCapture (b : Bus) (v : Word) (s : State) : Out :=
  .next (busWrite b .dmk 0x6C v (fun s =>
    let s := s.plainWrite Reg.dmkTplSel v
    let k := fld v 4 0
    match s.tplSlot k with
    | none => (s.wr Reg.dmkTplInfo0 0).wr Reg.dmkTplInfo1 0
    | some t =>
      let s := s.wr Reg.dmkTplInfo0 (BitVec.ofNat 32 (t.tplId + t.revision * 2 ^ 16))
      s.wr Reg.dmkTplInfo1 (BitVec.ofNat 32 (1 + t.mode * 2 + t.form * 4 + t.partCount * 16 + satN 0xFFFF (s.jobsCarrying k) * 2 ^ 16))) s)

/-- What OWNER_RESET clears here (R387): every slot, lots, operator entries, LIMITs; each counter's NEXT goes to its RESV. -/
def State.dmkOwnerReset (s : State) : State :=
  let s := forN 32 (fun c s => s.updSerial c (fun x => { x with next := x.resv, limit := SerialState.reset.limit })) s
  if ! s.domOn 6 then s else
  let s := forN 24 (fun u s => s.wr (Reg.dmkSel u) 0) s
  let s := { s with dmk := { s.dmk with slots := [], sel := [], lots := [], lotShadow := [], entries := [] } }
  let s := s.wr Reg.dmkLotLen 0
  (forN 8 (fun i s => s.wr (Reg.dmkLotData i) 0) s).cacheShow

/-! ### The render queue (R125, R126) -/

/-- The order of requests: a render entered again first, then ADMIT_STAMP, then channels before stations (R125, R129). -/
def RenderReq.before (a b : RenderReq) : Bool :=
  if a.reentered != b.reentered then a.reentered
  else if a.stamp != b.stamp then decide (a.stamp.toNat < b.stamp.toNat)
  else decide (a.unit < b.unit)

/-- The first request of a list in that order. -/
def firstReq : List RenderReq → Option RenderReq
  | [] => none
  | r :: l => match firstReq l with
    | none => some r
    | some x => if x.before r then some x else some r

/-- Requests in that order, those of equal rank by arrival. -/
def insertReq (r : RenderReq) : List RenderReq → List RenderReq
  | [] => [r]
  | x :: l => if x.before r then x :: insertReq r l else r :: x :: l
def sortReqs (l : List RenderReq) : List RenderReq := l.foldr insertReq []

/-- A request changed in place. -/
def State.updReq (s : State) (u j : Nat) (f : RenderReq → RenderReq) : State :=
  { s with dmk := { s.dmk with reqs := s.dmk.reqs.map (fun r => if r.unit = u ∧ r.job = j then f r else r) } }

/-- An admitted job's render request (R97, R125): it enters the render queue, or waits while 64 are pending. -/
def State.renderRequest (s : State) (u j : Nat) : State :=
  if ! s.domOn 6 then s else
  let e := if u < 16 then s.job u j else (s.stnJob (u - 16) j).entry
  let wait := decide (64 ≤ s.pendingRenders) || s.dmk.reqs.any (fun r => r.phase == RenderPhase.waiting)
  let r : RenderReq := {
    unit := u, job := j, stamp := e.admitStamp, tplSlot := e.tplSlot,
    phase := if wait then RenderPhase.waiting else RenderPhase.pending, reentered := false, tag := 0, startTick := 0, pause := 0, vals := none }
  if (s.reqJobs r).isEmpty then s else { s with dmk := { s.dmk with reqs := s.dmk.reqs ++ [r] } }.dmkShow

/-- RENDER_QUEUE_ENTER (R125). -/
def execRenderQueueEnter (s : State) : Out :=
  if 64 ≤ s.pendingRenders then .next s else
  match firstReq (s.dmk.reqs.filter (fun r => r.phase == RenderPhase.waiting)) with
  | none => .next s
  | some r => .next (s.updReq r.unit r.job (fun x => { x with phase := RenderPhase.pending })).dmkShow

/-- Engine `e`'s state in DMK_ENG_STAT (R159): 0 idle, 1 rendering, 2 self-test, 3 out of service. -/
def State.engSt (s : State) (e : Nat) : Nat := s.rdf Reg.dmkEngStat (8 * e + 1) (8 * e)
def State.setEngSt (s : State) (e v : Nat) : State := s.wrf Reg.dmkEngStat (8 * e + 1) (8 * e) v

/-- Enabled engines that take no render now but could; those of them in no Damper pause (R126, R460). -/
def State.freeEngines (s : State) : List Nat := numsWhere 2 (fun e => s.rdb Reg.dmkCfg e && s.engSt e == 0)
def State.readyEngines (s : State) : List Nat := s.freeEngines.filter (fun e => (s.engine e).pausedUntil.isNone || s.due (s.engine e).pausedUntil)

/-- A render that a Damper pause delays sets DAMPED in its job entries (R126). -/
def State.markDamped (s : State) (r : RenderReq) : State :=
  let s := forL (s.reqJobs r) (fun d s => s.updJob d.1 d.2 (fun e => { e with damped := true })) s
  if r.unit < 16 then s else
    let x := s.stnJob (r.unit - 16) r.job
    if x.entry.st = .free then s else s.setStnJob (r.unit - 16) r.job { x with entry := { x.entry with damped := true } }

/-- The valid shift entries as index and start, and the shift in force at a minute of the day (R143). -/
def State.shiftAt (s : State) (minute : Nat) : Option Nat :=
  let l := (numsWhere 8 (fun k => s.rdb (Reg.dmkShiftStart k) 31)).map (fun k => (k, s.rdf (Reg.dmkShiftStart k) 10 0))
  let started := l.filter (fun e => decide (e.2 ≤ minute))
  ((if started.isEmpty then l else started).foldl (fun (m : Option (Nat × Nat)) e => match m with
    | some x => if x.2 < e.2 then some e else some x
    | none => some e) none).map (fun e => e.1)

/-- A shift's code: up to 4 characters, ended by a zero byte (R159). -/
def State.shiftCode (s : State) (k : Nat) : List Byte := (leBytes 4 (s.rdn (Reg.dmkShiftCode k))).takeWhile (· != 0)

/-- General counter `c` at a dispatch (R148): GENERAL_COUNTER_RESET, its output, its increment. -/
def State.counterIssue (s : State) (c : Nat) (shift : Option Nat) (day : Int) : State × Nat :=
  let seen := s.counter c
  let mode := s.rdf (Reg.dmkCntCfg c) 25 24
  let fresh := seen.seen && (mode == 1 && seen.shift != shift || mode == 2 && seen.day != day)
  let v := if fresh then 0 else s.rdn (Reg.dmkCntVal c)
  let m := Nat.max 1 (s.rdf (Reg.dmkCntCfg c) 23 0)
  ((s.wr (Reg.dmkCntVal c) (BitVec.ofNat 32 (if m ≤ v + 1 then 0 else v + 1))).setCounter c ⟨true, shift, day⟩, v)

/-- Values issued for several counters in turn. -/
def issueAll {α : Type} (f : State → Nat → State × α) : List Nat → State → State × List (Nat × α)
  | [], s => (s, [])
  | c :: l, s =>
    let r := f s c
    let q := issueAll f l r.1
    (q.1, (c, r.2) :: q.2)

/-- What a dispatch takes in its tick (R127). -/
def State.sample (s : State) (t : Template) (slot : Nat) : State × RenderVals :=
  let secs := s.localSecs
  let days := secs / 86400
  let sod := (secs % 86400).toNat
  let minute := sod / 60
  let shift := s.shiftAt minute
  let roll := s.rdf Reg.timRollover 10 0
  let day := if minute < roll then days - 1 else days
  let of (k : Nat) := ((t.fields.filter (fun f => f.kind == k)).map (fun f => f.source)).eraseDups
  let date := s.dateValue
  let valid := s.dcValid
  let lots := (List.range 16).map (fun i => (tabGet lotReset s.dmk.lots i).get s.now)
  let entries := (List.range t.fields.length).filterMap (fun j => ((tabGet entryReset s.dmk.entries (slot * 32 + j)).get s.now).map (fun x => (j, x)))
  let code := shift.map s.shiftCode
  let (s, serials) := issueAll (fun s c => s.serialIssue c) (of 4) s
  let (s, counters) := issueAll (fun s c => s.counterIssue c shift day) (of 6) s
  (s, { date := date, days := days, minute := minute, second := sod % 60, dateValid := valid, rollover := roll,
        serials := serials, counters := counters, lots := lots, entries := entries, shift := code })

/-- A render issued to engine `e` (R126, R127): MAX_LEN of staging space in each destination, its ticket, its values. -/
def State.dispatch (s : State) (r : RenderReq) (e : Nat) : State :=
  let len := s.reqLen r
  let tag := s.dmk.nextTag
  let s := forL (s.reqJobs r) (fun d s =>
    if len = 0 then s else
    match s.stgPlace d.1 len with
    | none => s
    | some o => { s with dmk := { s.dmk with holds := s.dmk.holds ++ [⟨d.1, o, len, (s.job d.1 d.2).jobSeq, some tag⟩] } }) s
  let (s, vals) := match s.reqTpl r with
    | none => (s, none)
    | some t => let q := s.sample t (r.tplSlot.getD 0); (q.1, some q.2)
  let level := s.rdf Reg.thmDmpStat 2 0
  let pause := if level = 0 ∨ ! s.domOn 4 then 0 else s.rdf (Reg.thmDmpL level) 11 0 * usT
  let s := { s with dmk := { s.dmk with nextTag := tag + 1 } }
  let s := s.updReq r.unit r.job (fun r => { r with
    phase := RenderPhase.engine e, tag := tag, startTick := s.now, pause := pause, vals := vals })
  ((s.updEngine e (fun x => { x with pausedUntil := none })).setEngSt e 1).dmkShow

/-- RENDER_DISPATCH (R126): the first pending render that is not passed over, to a free engine; renders that only a Damper pause
keeps waiting become DAMPED. -/
def execRenderDispatch (s : State) : Out :=
  if ! s.domOn 6 || ! s.enabled .dmk then .next s else
  let can := sortReqs (s.dmk.reqs.filter (fun r => r.phase == RenderPhase.pending && ! s.reqNoSpace r))
  let free := s.freeEngines
  let ready := s.readyEngines
  let s := forL ((can.drop ready.length).take (free.length - ready.length)) (fun r s => s.markDamped r) s
  match can, ready with
  | r :: _, e :: _ => .next (s.dispatch r e)
  | _, _ => .next s.dmkShow

/-! ### The end of a render (R128 to R130, R155) -/

/-- The request on engine `e`. -/
def State.engineReq (s : State) (e : Nat) : Option RenderReq := s.dmk.reqs.find? (fun r => r.phase == RenderPhase.engine e)

/-- A render's staging space returned (R126), and the request taken off. -/
def State.dropHolds (s : State) (tag : Word) : State :=
  { s with dmk := { s.dmk with holds := s.dmk.holds.filter (fun h => h.ticket != some tag) } }
def State.dropReq (s : State) (r : RenderReq) : State :=
  { s with dmk := { s.dmk with reqs := s.dmk.reqs.filter (fun x => x.tag != r.tag || x.phase != r.phase) } }

/-- RENDER_FAIL (R129). -/
def State.renderFail (s : State) (r : RenderReq) (cause field : Nat) : State :=
  let seq := if r.unit < 16 then (s.job r.unit r.job).jobSeq else (s.stnJob (r.unit - 16) r.job).entry.jobSeq
  let s := s.wr Reg.dmkFailInfo (BitVec.ofNat 32 (cause + r.unit * 16 + field * 2 ^ 16))
  let s := (s.wr Reg.dmkFailSeq seq).cntW Reg.dmkFailCnt
  (s.soot .dmk 0).irq .dmk 0

/-- The region of a member of a REGION station (R116): its first dot and its dots. -/
def State.regionOf (s : State) (r : RenderReq) (n : Nat) : Option (Nat × Nat) :=
  if r.unit < 16 ∨ s.rdb (Reg.stnCfg (r.unit - 16)) 0 then none else
  let k := r.unit - 16
  (leastWhere 8 (fun i => s.stnSlot k i == some n)).map (fun i => (s.rdf (Reg.stnSlotMember k i) 31 16, s.dotCount n))

/-- Base of staging area `n`, and bytes written into it from a 16-byte unit on, round its end (R126, R159). -/
def State.stgBase (s : State) (n : Nat) : Nat :=
  (s.rd64 Reg.dmkStgBaseLo Reg.dmkStgBaseHi % 2 ^ 40) / 2 ^ 22 * 2 ^ 22 + n * 2 ^ s.rdf Reg.dmkStgSize 4 0
def State.stgWrite (s : State) (n ofs : Nat) (l : List Byte) : State :=
  let room := (s.stgSize - ofs) * 16
  (s.wrMem (s.stgBase n + 16 * ofs) (l.take room)).wrMem (s.stgBase n) (l.drop room)

/-- The weft descriptor of a block (R128, R323, R325). -/
def State.weftDesc (s : State) (n ofs len : Nat) (tag : Word) : List Byte :=
  let src := s.stgBase n + 16 * ofs
  leBytes 4 src ++ leBytes 4 (src / 2 ^ 32 % 256) ++ leBytes 4 0 ++ leBytes 4 len ++ leBytes 4 (s.rdf Reg.dmkStgSize 4 0 * 64) ++
    leBytes 4 0 ++ leBytes 4 0 ++ leBytes 4 tag.toNat

/-- One member's part of a commit (R128): its block in the staging area, its job entry COMPOSED, its descriptor. -/
def State.commitMember (s : State) (r : RenderReq) (t : Template) (v : RenderVals) (us : Nat) (d : Nat × Nat) (b : BlockOut) : State :=
  let (n, j) := d
  let e := s.job n j
  let len := b.bytes.length / 16
  let ofs := ((s.dmk.holds.find? (fun h => h.ticket == some r.tag && h.unit == n)).map (fun h => h.ofs)).getD 0
  let s := s.stgWrite n ofs b.bytes
  let holds := s.dmk.holds.map (fun h => if h.ticket == some r.tag && h.unit == n then { h with len := len, ticket := none } else h)
  let s := { s with dmk := { s.dmk with holds := holds } }
  let region := s.regionOf r n
  let dots := symbolDots t e.partIdx.toNat ((region.map (fun x => x.1)).getD 0) (s.dotCount n)
  let s := s.setJob n j { e with
    st := .composed, contentCrc := b.crc, renderTag := r.tag, units := BitVec.ofNat 16 b.units, renderUs := BitVec.ofNat 16 us,
    block := some (v.date, BitVec.ofNat 64 (blockSerial t v)), symDots := if t.mode = 0 then dots else [] }
  (s.qPush (64 + n) (s.weftDesc n ofs b.bytes.length e.jobSeq)).chanShow n

/-- The commit (R128): every member's, then the station job's entry (R154), the counts, and the engine's pause (R460). -/
def State.commit (s : State) (r : RenderReq) (t : Template) (v : RenderVals) (e : Nat) (members : List (Nat × Nat)) (blocks : List BlockOut) : State :=
  let us := satN 0xFFFF ((s.now - r.startTick) / usT)
  let pairs := members.zip blocks
  let byPart := sortBy (fun (p : (Nat × Nat) × BlockOut) => (s.job p.1.1 p.1.2).partIdx.toNat) pairs
  let s := forL pairs (fun p s => s.commitMember r t v us p.1 p.2) s
  let s := if r.unit < 16 then s else
    let x := s.stnJob (r.unit - 16) r.job
    s.setStnJob (r.unit - 16) r.job { x with entry := { x.entry with
      st := .composed, contentCrc := crc32c (byPart.flatMap (fun p => leBytes 4 p.2.crc.toNat)), renderTag := r.tag,
      renderUs := BitVec.ofNat 16 us } }
  let s := ((s.dropHolds r.tag).cntW Reg.dmkRenderCnt).peak Reg.dmkRenderMax 15 0 us
  if r.pause = 0 then s else s.updEngine e (fun x => { x with pausedUntil := some (s.now + r.pause) })

/-- RENDER_COMMIT (R128, R155): the render on engine `e` ends; `verify` says that every symbol read back as it was encoded.  A
render whose job has left commits nothing. -/
def execRenderCommit (e : Fin 2) (verify : Bool) (s : State) : Out :=
  match s.engineReq e.val with
  | none => .next s
  | some r =>
    let members := (s.reqJobs r).filter (fun d => (s.job d.1 d.2).st == .admitted)
    let out : Except (Nat × Nat) (Option (Template × RenderVals × List BlockOut)) :=
      if members.isEmpty then .ok none else
      match s.reqTpl r, r.vals with
      | some t, some v =>
        match renderAll t v verify r.tag.toNat (members.map (fun d =>
            let j := s.job d.1 d.2
            ⟨j.jobSeq.toNat, j.productId.toNat, j.partIdx.toNat, s.regionOf r d.1⟩)) with
        | .error c => .error c
        | .ok l => if members.all (fun d => (s.queue (64 + d.1)).en) then .ok (some (t, v, l)) else .error (causeNoQueue, 0)
      | _, _ => .error (causeNoTpl, 0)
    let s := (s.dropReq r).setEngSt e.val 0
    match out with
    | .error (c, f) => .next ((s.dropHolds r.tag).renderFail r c f).dmkShow
    | .ok none => .next (s.dropHolds r.tag).dmkShow
    | .ok (some (t, v, l)) => .next (s.commit r t v e.val members l).dmkShow

/-- An engine has faulted (R130): source 91, its count, its self-test; its render is entered again once, and fails the second
time (R129). -/
def State.engineFault (s : State) (e : Nat) : State :=
  let s := (s.cnt Reg.dmkEngStat (8 * e + 7) (8 * e + 2)).soot .dmk 3
  let s := s.setEngSt e 2
  match s.engineReq e with
  | none => s.dmkShow
  | some r =>
    let s := s.dropHolds r.tag
    if r.job = 256 then (s.dropReq r).dmkShow
    else if r.reentered then ((s.dropReq r).renderFail r causeEngine 0).dmkShow
    else (s.updReq r.unit r.job (fun r => { r with phase := RenderPhase.pending, reentered := true, vals := none })).dmkShow

/-- RENDER_STALL_TIMEOUT (R130): 100 µs without progress. -/
def execRenderStallTimeout (e : Fin 2) (s : State) : Out :=
  match s.engineReq e.val with
  | none => .next s
  | some r => if s.now < r.startTick + 100 * usT then .next s else .next (s.engineFault e.val)

/-- ENGINE_ECC_FAULT (R130): during a self-test it fails the self-test. -/
def execEngineEccFault (e : Fin 2) (s : State) : Out :=
  if ! s.domOn 6 then .next s else
  match s.engSt e.val with
  | 3 => .next s
  | 2 => .next (((s.cnt Reg.dmkEngStat (8 * e.val + 7) (8 * e.val + 2)).soot .dmk 3).setEngSt e.val 3)
  | _ => .next (s.engineFault e.val)

/-- ENGINE_SELFTEST_DONE (R130): back in service, or out of it until the next reset of PD6. -/
def execEngineSelftestDone (e : Fin 2) (pass : Bool) (s : State) : Out :=
  if ! s.domOn 6 || s.engSt e.val != 2 then .next s else .next (s.setEngSt e.val (if pass then 0 else 3))

/-- RENDER_PAUSE_END (R460): the engine may take another render; the first pending one that only the pause kept waiting becomes
DAMPED (R126). -/
def execRenderPauseEnd (e : Fin 2) (s : State) : Out :=
  let x := s.engine e.val
  if x.pausedUntil.isNone || ! s.due x.pausedUntil then .next s else
  let can := sortReqs (s.dmk.reqs.filter (fun r => r.phase == RenderPhase.pending && ! s.reqNoSpace r))
  let others := s.readyEngines.filter (fun k => k != e.val)
  let s := match can[others.length]? with
    | some r => if s.freeEngines.contains e.val && s.enabled .dmk then s.markDamped r else s
    | none => s
  .next (s.updEngine e.val (fun x => { x with pausedUntil := none }))

/-- DMK_PEAK_CLEAR (R159). -/
def execDmkPeakClear (b : Bus) (v : Word) (s : State) : Out :=
  .next (busWrite b .dmk 0x44 v (fun s => if bit v 31 then s.wrf Reg.dmkPeak 6 0 0 else s) s)

/-- RENDER_MAX_CLEAR (R159). -/
def execRenderMaxClear (b : Bus) (v : Word) (s : State) : Out :=
  .next (busWrite b .dmk 0x8C v (fun s => if bit v 31 then s.wrf Reg.dmkRenderMax 15 0 0 else s) s)

/-- Whether a plain write of a DMK register is taken (R159): the log2 of a staging area is 16 to 22. -/
def dmkWriteOk (off : Nat) (v : Word) : Bool := off != 0x54 || decide (16 ≤ fld v 4 0 ∧ fld v 4 0 ≤ 22)

end Sys2Proof.Machine
end

