-- ==== Sys2Proof/Machine/Thermal.lean ====
section
/-! DEFINITION. Thermal heads and Ember: lines computed, fired and read back, strobe timers, head temperature, the dot audit
and the ribbon tag (spec/06, R161 to R193). -/
namespace Sys2Proof.Machine

/-! ### Head settings (R162, R165, R166) -/

/-- The thermal port of channel `n` runs: thermal mode, its domain on, its page's ENABLE 1 (R163). -/
def State.thermOn (s : State) (n : Nat) : Bool := ! s.isLaser n && s.powered (chPage n 3) && s.enabled (chPage n 3)

/-- HEAD_DOTS, data lanes, strobe groups and sub-pulses (HP_CFG). -/
def State.headDots (s : State) (n : Nat) : Nat := s.rdf (Reg.hpCfg n) 11 0
def State.headLanes (s : State) (n : Nat) : Nat := 2 ^ s.rdf (Reg.hpCfg n) 13 12
def State.headGroups (s : State) (n : Nat) : Nat := s.rdf (Reg.hpCfg n) 19 18 + 1
def State.subPulses (s : State) (n : Nat) : Nat := s.rdf (Reg.hpCfg n) 21 20 + 1

/-- SHIFT_T, LATCH_W, LATCH_SU (R165), in ticks. -/
def State.shiftT (s : State) (n : Nat) : Nat := s.headDots n / s.headLanes n * 2 * s.rdf (Reg.hpShift n) 6 0
def State.latchW (s : State) (n : Nat) : Nat := s.rdf (Reg.hpLatch n) 7 0
def State.latchSu (s : State) (n : Nat) : Nat := s.rdf (Reg.hpLatch n) 15 8

/-- The time of a sub-pulse of width `w`, from its latch to the next (R165). -/
def State.subT (s : State) (n w : Nat) : Nat :=
  s.latchW n + Nat.max (s.rdf (Reg.hpLatch n) 23 16 + (s.headGroups n - 1) * s.rdf (Reg.hpStb n) 23 12 + w + s.rdf (Reg.hpStb n) 11 0)
    (s.shiftT n + s.latchSu n)

/-- LINE_T (R166), and HP_LINE_T as it follows the settings. -/
def State.lineTime (s : State) (n : Nat) : Nat := s.subPulses n * s.subT n (s.rdf (Reg.hpSpwCap n) 19 0)
def State.lineTShow (s : State) (n : Nat) : State := s.wrf (Reg.hpLineT n) 19 0 (satN 0xFFFFF (s.lineTime n))

/-- A write to the port refused (R190): CONFIG and its interrupt. -/
def State.portConfig (s : State) (n : Nat) : State := (s.soot (chPage n 3) 2).irq (chPage n 3) 4

/-- The thermal conditions on enabling a port page (R163). -/
def State.thermEnableOk (s : State) (n : Nat) : Bool :=
  let d := s.headDots n
  ! s.isLaser n && decide (8 ≤ d) && decide (d ≤ 3072) && d % s.headLanes n == 0 &&
    decide (s.rdf (Reg.hpSpwCap n) 19 0 + usT ≤ s.rdf (Reg.hpStbMax n) 12 0 * usT) &&
    decide (s.lineTime n ≤ s.rdf (Reg.chMinLineT n) 19 0)

/-! ### The content ring as the engines read it (R153, R154, R325, R327) -/

/-- `len` bytes of channel `n`'s ring from byte offset `ofs`, round its end. -/
def State.ringBytes (s : State) (n ofs len : Nat) : List Byte :=
  (List.range len).map (fun i => s.rdByte (0x30000000 + 0x10000 * n + (ofs + i) % 65536))

/-- Bytes of a unit, by its header (R153): wefts and vector blocks. -/
def weftSize (h : List Byte) : Nat := 16 + (((leAt h 4 4 / 4096 % 4096 + 7) / 8 + 15) / 16) * 16
def vblockSize (h : List Byte) : Nat := 16 + leAt h 4 4 % 32 * 16

/-- The byte offset in the ring of unit `k` of a job's block, `none` past its end or its LAST unit. -/
def State.ringUnitGo (s : State) (n : Nat) (len : List Byte → Nat) (lastBit : Nat) (e : JobEntry) : Nat → Nat → Option Nat
  | k, pos =>
    let h := s.ringBytes n (16 * e.ringOfs.toNat + pos) 16
    if 16 * e.ringLen.toNat < pos + 16 then none else
    match k with
    | 0 => some (16 * e.ringOfs.toNat + pos)
    | k + 1 => if leAt h 4 4 / 2 ^ lastBit % 2 = 1 then none else s.ringUnitGo n len lastBit e k (pos + len h)
def State.weftAt (s : State) (n : Nat) (e : JobEntry) (k : Nat) : Option Nat := s.ringUnitGo n weftSize 24 e k 48
def State.vblockAt (s : State) (n : Nat) (e : JobEntry) (k : Nat) : Option Nat := s.ringUnitGo n vblockSize 8 e k 48

/-- A weft as read: its bytes, FIRST, DOTS, LAST, and whether its CRC-16 holds (R154, R174). -/
structure Weft where
  hdr : List Byte
  data : List Byte
  first : Nat
  dots : Nat
  last : Bool

def State.weftRead (s : State) (n ofs : Nat) : Weft :=
  let h := s.ringBytes n ofs 16
  let w := leAt h 4 4
  let dots := w / 4096 % 4096
  { hdr := h, data := s.ringBytes n (ofs + 16) ((dots + 7) / 8), first := w % 4096, dots := dots, last := w / 2 ^ 24 % 2 = 1 }

/-- CRC-16 of a unit (R154). -/
def unitCrc (hdr data : List Byte) : BitVec 16 := crc16 (hdr.take 2 ++ (hdr.drop 4).take 12 ++ data)
def Weft.crcOk (w : Weft) : Bool := (unitCrc w.hdr w.data).toNat == leAt w.hdr 2 2

/-- Whether weft dot `j` is dark (R153). -/
def Weft.dark (w : Weft) (j : Nat) : Bool :=
  decide (w.first ≤ j) && decide (j < w.first + w.dots) &&
    (byteAt w.data ((j - w.first) / 8)).toNat.testBit ((j - w.first) % 8)

/-! ### Ember (R168 to R173) -/

/-- A register of Ember's active set. -/
def State.embAct (s : State) (n a : Nat) : Word := tabGet (resetOf a) (s.therm n).active a

/-- Offsets in the binding page of the registers that exist twice (R173, R191). -/
def embOffs : List Nat :=
  0x40 :: ((List.range 4).map (fun i => 0x50 + 4 * i) ++ (List.range 64).map (fun i => 0x100 + 4 * i) ++
    (List.range 8).map (fun i => 0x200 + 4 * i) ++ (List.range 32).map (fun i => 0x280 + 4 * i) ++
    (List.range 384).map (fun i => 0x400 + 4 * i))
def embBase (n : Nat) : Nat := 0x40204000 + 0x10000 * n

/-- The shadow set copied into the active set (SWAP), and the active set into the shadow (COPY_BACK) (R173). -/
def State.embSwap (s : State) (n : Nat) : State :=
  let act := forL embOffs (fun o t => tabPut (resetOf (embBase n + o)) t (embBase n + o) (s.rd (embBase n + o))) []
  let s := s.updTherm n (fun t => { t with active := act })
  (s.wrb (Reg.embStat n) 0 false).cnt (Reg.embStat n) 31 16
def State.embCopyBack (s : State) (n : Nat) : State :=
  forL embOffs (fun o s => s.wr (embBase n + o) (s.embAct n (embBase n + o))) s

/-- The channel has a job ARMED or MARKING. -/
def State.armedOrMarking (s : State) (n : Nat) : Bool := ! (s.jobsIn n .armed).isEmpty || s.marking n

/-- A write of EMB_CMD (R173, R191): SWAP between two lines, or at once when no job is ARMED or MARKING. -/
def State.embCmdWrite (s : State) (n : Nat) (v : Word) : State :=
  let s := if ! bit v 0 then s
    else if s.armedOrMarking n then s.wrb (Reg.embStat n) 0 true
    else s.embSwap n
  if bit v 1 then s.embCopyBack n else s

/-- EMBER_SWAP (R173). -/
def execEmberSwap (b : Bus) (n : Fin 16) (v : Word) (s : State) : Out :=
  .next (busWrite b (chPage n.val 4) 0x44 (setBit v 0 true) (fun s => s.embCmdWrite n.val (setBit v 0 true)) s)

/-- EMBER_COPY_BACK (R173). -/
def execEmberCopyBack (b : Bus) (n : Fin 16) (v : Word) (s : State) : Out :=
  .next (busWrite b (chPage n.val 4) 0x44 (setBit v 1 true) (fun s => s.embCmdWrite n.val (setBit v 1 true)) s)

/-- EMBER_SWAP_APPLY (R173): a pending swap, between two lines. -/
def execEmberSwapApply (n : Fin 16) (s : State) : Out :=
  .next (if s.powered (chPage n.val 4) && s.rdb (Reg.embStat n.val) 0 then s.embSwap n.val else s)

/-- The neighbours of each dot: the pattern moved by one, white beyond the head's ends (R168). -/
def dotsBelow (p : List Bool) : List Bool := false :: p.dropLast
def dotsAbove (p : List Bool) : List Bool := p.drop 1 ++ [false]

/-- History indices of every dot of a line of `w` dots (R168). -/
def histIndex (w : Nat) (p : List Bool) (h : List (List Bool)) : List Nat :=
  let line (k : Nat) : List Bool := h.getD k (List.replicate w false)
  let bits := [line 0, line 1, line 2, line 3, dotsBelow p, dotsAbove p, dotsBelow (line 0), dotsAbove (line 0)]
  (bits.zip (List.range 8)).foldl (fun a b => (a.zip b.1).map (fun x => x.1 + b2n x.2 * 2 ^ b.2)) (List.replicate w 0)

/-- The energy level of a dark dot (R169, R170). -/
def State.embLevel (s : State) (n : Nat) (floor : Bool) (index dot : Nat) : Nat :=
  if floor then fld (s.embAct n (Reg.embCfg n)) 13 8 else
  let ht := sfld (s.embAct n (Reg.embHt n (index / 4))) (8 * (index % 4) + 7) (8 * (index % 4))
  let trim := sfld (s.embAct n (Reg.embTrim n (dot / 8))) (4 * (dot % 8) + 3) (4 * (dot % 8))
  (clampI 0 63 ((fld (s.embAct n (Reg.embCfg n)) 5 0 : Nat) + ht + trim)).toNat

/-- The sub-pulses each dot of a line takes part in (R169). -/
def State.embMasks (s : State) (n : Nat) (floor : Bool) (p : List Bool) (h : List (List Bool)) : List (BitVec 4) :=
  ((p.zip (histIndex p.length p h)).zip (List.range p.length)).map (fun x =>
    if ! x.1.1 then 0 else
    let level := s.embLevel n floor x.1.2 x.2
    let m := fld (s.embAct n (Reg.embEtbl n (level / 8))) (4 * (level % 8) + 3) (4 * (level % 8)) % 2 ^ s.subPulses n
    if m = 0 then 1 else BitVec.ofNat 4 m)

/-- The head temperature T, 0.1 °C (R181). -/
def State.headTemp (s : State) (n : Nat) : Int := s.rds (Reg.hpTemp n) 15 0

/-- The scaled widths of a line's sub-pulses (R172). -/
def State.embWidths (s : State) (n : Nat) : List Nat :=
  let entry := (clampI 0 31 (fdivI (s.headTemp n - 10 * sfld (s.embAct n (Reg.embCfg n)) 23 16) 20)).toNat
  (List.range (s.subPulses n)).map (fun k =>
    Nat.min (fld (s.embAct n (Reg.embSpw n k)) 19 0 * fld (s.embAct n (Reg.embTtbl n entry)) 9 0 / 256) (s.rdf (Reg.hpSpwCap n) 19 0))

/-! ### Dead dots (R184 to R186) -/

/-- The listed dead dots. -/
def State.deadDots (s : State) (n : Nat) : List Nat :=
  (List.range 64).filterMap (fun k => if s.rdb (Reg.hpDead n k) 31 then some (s.rdf (Reg.hpDead n k) 11 0) else none)

/-- The wefts of a job's block, with fuel; the columns some weft darkens (R186). -/
def State.wefts (s : State) (n : Nat) (e : JobEntry) : List Weft :=
  (List.range e.units.toNat).filterMap (fun k => (s.weftAt n e k).map (fun o => s.weftRead n o))
def State.occupied (s : State) (n : Nat) (e : JobEntry) : List Nat :=
  let w := s.wefts n e
  (List.range 3072).filter (fun j => w.any (fun x => x.dark j))

/-- The shifts tried, in order: 0, -1, +1, … (R186). -/
def shiftOrder (max : Nat) : List Int := 0 :: (List.range max).flatMap (fun (i : Nat) => [-((i : Int) + 1), (i : Int) + 1])

/-- The channel is a member of a REGION station (R17, R186). -/
def State.inRegion (s : State) (n : Nat) : Bool :=
  (List.range 8).any (fun k => ! s.rdb (Reg.stnCfg k) 0 && (List.range 8).any (fun i => s.stnSlot k i == some n))

/-- The dead-dot shift of a job (R186). -/
def State.chooseShift (s : State) (n : Nat) (occ : List Nat) : Int :=
  if ! s.rdb (Reg.hpDda n) 4 || s.inRegion n then 0 else
  match occ.head?, occ.getLast? with
  | some a, some b =>
    let dead := s.deadDots n
    let ok (c : Int) : Bool := decide (0 ≤ (a : Int) + c) && decide ((b : Int) + c ≤ (s.headDots n : Int) - 1) &&
      dead.all (fun d => ! occ.any (fun j => decide ((j : Int) = (d : Int) - c)))
    ((shiftOrder (s.rdf (Reg.hpDda n) 3 0)).find? ok).getD 0
  | _, _ => 0

/-- The shift chosen for job `j` and its effects (R186): dead dots it cannot clear are counted, and give CONTENT_ERROR under a
symbol. -/
def State.deadDotShift (s : State) (n j : Nat) : State :=
  let e := s.job n j
  let occ := s.occupied n e
  let c := s.chooseShift n occ
  let hit := (s.deadDots n).filterMap (fun (d : Nat) => occ.find? (fun (i : Nat) => decide ((i : Int) = (d : Int) - c)))
  let s := forL hit (fun i s =>
    let s := if e.symDots.any (fun r => decide (r.1 ≤ i) && decide (i ≤ r.2)) then s.addCond n j 7 else s
    s.cnt (Reg.hpCntShifted n) 31 16) s
  let s := if c = 0 then s else s.cnt (Reg.hpCntShifted n) 15 0
  (s.wrs (Reg.hpStat n) 20 16 c).updTherm n (fun t => { t with shift := c })

/-! ### Floor energy (R170, R173, R182) -/

/-- Job `j` fires the rest of its lines at floor energy, a line computed and not yet fired among them. -/
def State.jobFloor (s : State) (n j : Nat) : State :=
  let s := (s.addCond n j 0xB).updJob n j (fun e => { e with floor := true })
  let s := s.wrb (Reg.hpStat n) 7 true
  s.updTherm n (fun t => { t with computed := t.computed.map (fun l =>
    if l.jobSeq = (s.job n j).jobSeq then { l with masks := s.embMasks n true l.pattern t.history } else l) })

/-! ### Computing a line (R168 to R175) -/

/-- A correctable SRAM error (R315): corrected, counted, source 49. -/
def State.sramCe (s : State) : State :=
  if ! s.domOn 4 then s else
  ({ s with bkg := { s.bkg with srmCe := s.bkg.srmCe + 1 } }.cnt Reg.srmCeCnt 15 0).soot .srm 1

/-- The job whose next line Ember computes: the MARKING job, else the ARMED job with the least trigger position. -/
def State.embJob (s : State) (n : Nat) : Option Nat :=
  match s.markJob n with
  | some j => some j
  | none => (s.jobsIn n .armed).foldl (fun m j => match m with
    | some k => if sdiff (s.job n j).trigPos (s.job n k).trigPos < 0 then some j else m
    | none => some j) none

/-- An unfired line of channel `n` computed from the weft at ring offset `ofs` for job `j`. -/
def State.embCompute (s : State) (n j ofs : Nat) (table ring : Ecc) : State :=
  let mark := (s.job n j).st == .marking
  let s := if mark && (s.therm n).nextLine != 0 then s else
    let s := s.deadDotShift n j
    if s.rdb (Reg.hpStat n) 2 then s.jobFloor n j else s
  let s := match table with
    | .clean => s
    | .corrected => (s.cnt (Reg.embStat n) 15 8).sramCe
    | .uncorrectable => (s.jobFloor n j).soot (chPage n 4) 0
  let s := match ring with
    | .clean => s
    | .corrected => s.sramCe
    | .uncorrectable => s.soot (chPage n 6) 2
  let w := s.weftRead n ofs
  let t := s.therm n
  let e := s.job n j
  let blank := ring == .uncorrectable || ! w.crcOk
  let s := if blank then (s.addCond n j 7).soot (chPage n 6) 1 else s
  let pattern := (List.range (s.headDots n)).map (fun (d : Nat) =>
    let i : Int := (d : Int) - t.shift
    ! blank && decide (0 ≤ i) && w.dark i.toNat)
  let hist := if mark then t.history else []
  let l : ThermLine := {
    jobSeq := e.jobSeq, line := if mark then t.nextLine else 0, blank := blank, first := w.first, dots := w.dots,
    crc := BitVec.ofNat 16 (leAt w.hdr 2 2), hdr := w.hdr, pattern := pattern,
    masks := s.embMasks n (e.floor || table == .uncorrectable) pattern hist, widths := s.embWidths n, last := w.last }
  s.setTherm n { t with computed := some l, shiftedAt := Nat.max s.now t.shiftedAt + s.shiftT n + s.latchSu n }

/-- EMBER_COMPUTE_DONE (R171): the next line of the MARKING job, or line 0 of the next ARMED one, once its content is in the
ring. -/
def execEmberComputeDone (n : Fin 16) (table ring : Ecc) (s : State) : Out :=
  let n := n.val
  let t := s.therm n
  if ! s.thermOn n || t.computed.isSome || t.lastFired || t.ending || t.dummy then .next s else
  match s.embJob n with
  | none => .next s
  | some j =>
    let e := s.job n j
    if ! e.inRing then .next s else
    match s.weftAt n e (if e.st = .marking then t.nextLine else 0) with
    | none => .next s
    | some ofs => .next (s.embCompute n j ofs table ring)

/-! ### Firing (R164 to R167, R175, R176) -/

/-- A thermal job's mark begins (R103, R164): its lines are numbered from 0 and its history is white. -/
def State.thermMarkBegin (s : State) (n j : Nat) : State :=
  let seq := (s.job n j).jobSeq
  let s := s.wrb (Reg.hpStat n) 7 (s.job n j).floor
  s.updTherm n (fun t => { t with
    nextLine := 0, fired := false, waiting := [], history := [], lastFired := false, ending := false,
    computed := match t.computed with
      | some l => if l.jobSeq = seq then some l else none
      | none => none })

/-- The three conditions of R167, at the present tick, for a line of job `e`; a line's check is done before the next fires. -/
def State.lineReady (s : State) (n : Nat) (e : JobEntry) : Bool :=
  let t := s.therm n
  (! t.fired || decide (t.firedAt + fld e.minLineT 19 0 ≤ s.now)) && decide (t.lineEnd ≤ s.now) &&
    t.computed.isSome && decide (t.shiftedAt ≤ s.now) && t.unread.isNone

/-- Line `l` fires at the present tick (R165, R175). -/
def State.fireLine (s : State) (n : Nat) (l : ThermLine) (pinBad : Bool) : State :=
  let t := s.therm n
  let ends := l.widths.map (s.subT n)
  let lineEnd := s.now + ends.foldl (· + ·) 0
  let shiftAt := lineEnd - ends.getLastD 0 + s.latchW n
  let trip := s.rdb (Reg.hpStat n) 5 || s.rdb Reg.fgdCut n
  let s := s.setTherm n { t with
    nextLine := t.nextLine + 1, firedAt := s.now, lineEnd := lineEnd, fired := true, computed := none, shiftedAt := shiftAt,
    unread := some l, history := (l.pattern :: t.history).take 4, lastFired := l.last }
  let s := (s.cntW (Reg.hpCntLines n)).fired n
  let s := if l.blank then s.cnt (Reg.hpCntBlank n) 15 0 else s
  let pulses := l.masks.foldl (fun a m => a + ((List.range 4).filter (fun k => m.toNat.testBit k)).length) 0
  let s := (s.wearAdd n (if trip then 0 else pulses)).wearAdd (16 + n) 1
  let s := s.wrb (Reg.hpStat n) 0 true
  let s := if trip then s else { s with pins := { s.pins with strobe := s.pins.strobe ||| BitVec.ofNat 16 (2 ^ n) } }
  if pinBad then (s.soot (chPage n 3) 1).condMarking n 7 else s

/-- An edge of target 16 to 23 on a thermal channel (R164, R167): LINE alone acts. -/
def State.thermTrigger (s : State) (n t : Nat) (pinBad : Bool) : State :=
  let x := s.therm n
  if t ≠ 0 || ! s.thermOn n || x.lastFired || x.ending then s else
  match s.markJob n with
  | none => s
  | some j =>
    match x.computed with
    | some l =>
      if x.waiting.isEmpty && s.lineReady n (s.job n j) then s.fireLine n l pinBad
      else ((s.addCond n j 6).cnt (Reg.hpCntOvs n) 15 0).updTherm n (fun x => { x with waiting := x.waiting ++ [s.now] })
    | none => ((s.addCond n j 6).cnt (Reg.hpCntOvs n) 15 0).updTherm n (fun x => { x with waiting := x.waiting ++ [s.now] })

/-- LINE_DEFERRED_FIRE (R167): the oldest waiting edge, at the first tick at which the conditions hold. -/
def execLineDeferredFire (n : Fin 16) (pinBad : Bool) (s : State) : Out :=
  let n := n.val
  let t := s.therm n
  match s.markJob n, t.waiting, t.computed with
  | some j, _ :: rest, some l =>
    if s.thermOn n && s.lineReady n (s.job n j) then
      let s := (s.setTherm n { t with waiting := rest }).fireLine n l pinBad
      .next (if l.last then s.updTherm n (fun x => { x with waiting := [] }) else s)
    else .next s
  | _, _, _ => .next s

/-- DUMMY_SHIFT_START (R178, R179): at line_end of the last line, or of the line in progress when the mark ends early. -/
def execDummyShiftStart (n : Fin 16) (s : State) : Out :=
  let n := n.val
  let t := s.therm n
  if s.thermOn n && t.unread.isSome && ! t.dummy && t.computed.isNone && decide (t.lineEnd ≤ s.now) &&
      (t.lastFired || t.ending || (s.chan n).heldEnd.isSome) then
    .next (s.setTherm n { t with dummy := true, shiftedAt := s.now + s.shiftT n })
  else .next s

/-- The dots FIRST to FIRST + DOTS - 1 of a line's received pattern, with the shift undone, as weft bytes (R153, R177). -/
def packDots (rx : Nat → Bool) (first dots : Nat) : List Byte :=
  (List.range ((dots + 7) / 8)).map (fun i =>
    BitVec.ofNat 8 ((List.range 8).foldl (fun a k => if 8 * i + k < dots ∧ rx (first + 8 * i + k) then a + 2 ^ k else a) 0))

/-- The readback check of a line (R177): whether the pattern the head received is the weft's. -/
def rxMatches (l : ThermLine) (shift : Int) (head : Nat) (rx : List Bool) : Bool :=
  let at_ (j : Nat) : Bool := let d : Int := (j : Int) + shift; decide (0 ≤ d) && decide (d < head) && rx.getD d.toNat false
  if l.blank then ! (rx.take head).any (fun b => b) else
  let outside := ((rx.take head).zip (List.range head)).any (fun x =>
    let j : Int := (x.2 : Int) - shift
    x.1 && ! (decide ((l.first : Int) ≤ j) && decide (j < ((l.first + l.dots : Nat) : Int))))
  ! outside && unitCrc l.hdr (packDots at_ l.first l.dots) == l.crc

/-- READBACK_CHECK (R177, R179): complete once the shift that follows the line's last sub-pulse is; `rx` is the pattern the
head received.  A reversed job then ends. -/
def execReadbackCheck (n : Fin 16) (rx : List Bool) (s : State) : Out :=
  let n := n.val
  let t := s.therm n
  match t.unread with
  | none => .next s
  | some l =>
    if ! (s.thermOn n && (t.dummy || t.computed.isSome) && decide (t.shiftedAt ≤ s.now + (if t.dummy then 0 else s.latchSu n))) then
      .next s
    else
      let ok := rxMatches l t.shift (s.headDots n) rx
      let s := s.setTherm n { t with unread := none, dummy := false }
      let s := if ok then s else
        (((s.condMarking n 7).soot (chPage n 3) 0).cnt (Reg.hpCntRb n) 15 0).irq (chPage n 3) 3
      .next (if t.ending then (match s.markJob n with
        | some j => s.jobLeaveWith n j 0xA .aborted
        | none => s) else s)

/-- A held TP_JOB_END may take effect (R178): the last fired line has been checked. -/
def State.thermEndReady (s : State) (n : Nat) : Bool := (s.therm n).unread.isNone

/-- The thermal port in the safe state (R112, R423, R424). -/
def State.thermSafe (s : State) (n : Nat) : State := s.thermIdle n

/-- The channel leaves SAFE (R180): a tripped strobe timer whose soot bit is cleared lets the strobes go. -/
def State.thermSafeEnd (s : State) (n : Nat) : State :=
  if s.isLaser n || s.rdb (Reg.pgSoot (chPage n 3)) 3 then s else s.wrb (Reg.hpStat n) 5 false

/-- STROBE_TIMER_EXPIRY (R180): strobe group `g` has been sensed active for `held` ticks. -/
def execStrobeTimerExpiry (n : Fin 16) (g : Fin 4) (held : Nat) (s : State) : Out :=
  let n := n.val
  if s.isLaser n || ! s.powered (chPage n 3) || decide (s.headGroups n ≤ g.val) ||
      decide (held < s.rdf (Reg.hpStbMax n) 12 0 * usT) then .next s else
  let s := { s with pins := { s.pins with strobe := s.pins.strobe &&& ~~~(BitVec.ofNat 16 (2 ^ n)) } }
  .next (((s.wrb (Reg.hpStat n) 5 true).soot (chPage n 3) 3).condMarking n 7)

/-! ### Head temperature (R181, R182) -/

/-- The temperature of a code by linear interpolation of the 17 points, 0.1 °C, rounded down (R181). -/
def State.headCurve (s : State) (n code : Nat) : Int :=
  let i := code / 256
  let a := s.rds (Reg.hpThCurve n i) 15 0
  let b := s.rds (Reg.hpThCurve n (i + 1)) 15 0
  a + fdivI ((b - a) * ((code % 256 : Nat) : Int)) 256

/-- A line is in progress (R182). -/
def State.lineActive (s : State) (n : Nat) : Bool := let t := s.therm n; t.fired && decide (s.now < t.lineEnd)

/-- A soot bit of the head's temperature: at once, or held to the line's end (R182). -/
def State.headSoot (s : State) (n b : Nat) : State :=
  if s.lineActive n then s.updTherm n (fun t => { t with heldSoot := if t.heldSoot.contains b then t.heldSoot else t.heldSoot ++ [b] })
  else s.soot (chPage n 3) b

/-- The consecutive samples at or above, and below, a threshold; whether it is in force (R181). -/
def State.headLevel (s : State) (n k : Nat) (th temp hyst : Int) : State :=
  let t := s.therm n
  let up := if th ≤ temp then Nat.min 2 (t.above.getD k 0 + 1) else 0
  let dn := if temp < th - hyst then Nat.min 2 (t.below.getD k 0 + 1) else 0
  let was := s.rdb (Reg.hpStat n) (1 + k)
  let is := (was || up == 2) && dn != 2
  let s := s.setTherm n { t with above := listSet t.above k up, below := listSet t.below k dn }
  if is = was then s else
  let s := (s.wrb (Reg.hpStat n) (1 + k) is).irq (chPage n 3) 0
  if is && k == 1 then forL (s.jobsIn n .armed ++ s.jobsIn n .marking) (fun j s => s.jobFloor n j) s else s

/-- HEAD_TEMP_SAMPLE (R181, R182). -/
def execHeadTempSample (n : Fin 16) (code : BitVec 12) (s : State) : Out :=
  let n := n.val
  if ! s.thermOn n then .next s else
  let c := code.toNat
  let s := s.wrf (Reg.hpTemp n) 27 16 c
  let t := s.therm n
  let open_ := decide (s.rdf (Reg.hpThCfg n) 19 8 ≤ c)
  let short := decide (c ≤ s.rdf (Reg.hpThCfg n) 31 20)
  let t := { t with openCnt := if open_ then Nat.min 4 (t.openCnt + 1) else 0, shortCnt := if short then Nat.min 4 (t.shortCnt + 1) else 0 }
  let s := s.setTherm n t
  if open_ || short then
    let fault := t.openCnt == 4 || t.shortCnt == 4
    let s := if fault then (s.wrb (Reg.hpTemp n) 31 false).wrb (Reg.hpStat n) 4 true else s
    let s := if t.openCnt = 4 then s.headSoot n 4 else s
    let s := if t.shortCnt = 4 then s.headSoot n 5 else s
    .next (if s.rdb (Reg.hpStat n) 3 then s.headSoot n 6 else s)
  else
    let temp := s.headCurve n c
    let s := ((s.wrs (Reg.hpTemp n) 15 0 temp).wrb (Reg.hpTemp n) 31 true).wrb (Reg.hpStat n) 4 false
    let hyst : Int := (s.rdf (Reg.hpTHyst n) 7 0 : Nat)
    let s := s.headLevel n 0 (s.rds (Reg.hpTThrottle n) 15 0) temp hyst
    let s := s.headLevel n 1 (s.rds (Reg.hpTLimit n) 15 0) temp hyst
    let s := s.headLevel n 2 (s.rds (Reg.hpTShutdown n) 15 0) temp hyst
    .next (if s.rdb (Reg.hpStat n) 3 then s.headSoot n 6 else s)

/-- HEAD_SHUTDOWN_SOOT (R182): the soot bits held to the line's end. -/
def execHeadShutdownSoot (n : Fin 16) (s : State) : Out :=
  let n := n.val
  let held := (s.therm n).heldSoot
  if held.isEmpty || s.lineActive n then .next s
  else .next (forL held (fun b s => s.soot (chPage n 3) b) (s.updTherm n (fun t => { t with heldSoot := [] })))

/-! ### Dot audit (R183, R184) -/

/-- No job of the channel is ARMED or MARKING, and the earliest arm lies at least 5 ms ahead (R183, R497). -/
def State.armsAhead (s : State) (n : Nat) : Bool :=
  ! s.armedOrMarking n &&
    (s.chan n).jobs.all (fun e =>
      let x := e.2
      decide ((s.warpSpeed x.enc.toNat * 5 * msT : Nat) ≤ sdiff x.armPos (s.warpLow x.enc.toNat) * 2 ^ 32))

/-- The idle gap of a channel's audit and galvo check (R183, R497, R498). -/
def State.auditIdle (s : State) (n : Nat) : Bool :=
  s.armsAhead n &&
    s.rdf Reg.thmDmpStat 2 0 == 0 && (s.isLaser n || s.rdf (Reg.hpStat n) 3 1 == 0)

/-- The audit of channel `n` may pulse (R183, R497). -/
def State.auditRuns (s : State) (n : Nat) : Bool :=
  s.thermOn n && s.rdb (Reg.hpAuditCfg n) 0 && s.banking 3 && s.auditIdle n

/-- A signed quotient to the nearest whole number, halves away from zero; a divisor of 0 leaves it open. -/
def roundDiv (a b : Int) : Int :=
  if b = 0 then Config.scaled a 1 0 else
  let q := ((2 * a.natAbs + b.natAbs) / (2 * b.natAbs) : Nat)
  if (a < 0) = (b < 0) then q else -q

/-- The trim of a dot from its reading and the sum and count of the good readings (R184). -/
def auditTrim (sum : Int) (count : Nat) (reading : Int) (step : Nat) : Int :=
  clampI (-8) 7 (roundDiv ((sum - count * reading) * 1000) (count * reading * step))

/-- A dot's trim in the shadow and the active set (R184). -/
def State.trimSet (s : State) (n d : Nat) (v : Int) : State :=
  let a := Reg.embTrim n (d / 8)
  let lo := 4 * (d % 8)
  let act := setFld (s.embAct n a) (lo + 3) lo (wrapN 4 v)
  (s.wrs a (lo + 3) lo v).updTherm n (fun t => { t with active := tabPut (resetOf a) t.active a act })

/-- A dot newly found dead (R184): listed in the first free entry, or the list overflows. -/
def State.deadList (s : State) (n d : Nat) : State :=
  match leastWhere 64 (fun k => ! s.rdb (Reg.hpDead n k) 31) with
  | none => s.wrb (Reg.hpAuditStat n) 31 true
  | some k => (s.wr (Reg.hpDead n k) (BitVec.ofNat 32 (d + 2 ^ 31))).irq (chPage n 3) 2

/-- HP_AUDIT_STAT's count of dead dots listed. -/
def State.deadShow (s : State) (n : Nat) : State := s.wrf (Reg.hpAuditStat n) 30 24 (s.deadDots n).length

/-- The end of an audit pass (R184). -/
def State.auditPassEnd (s : State) (n : Nat) (readings : List (Nat × Int)) : State :=
  let sum := readings.foldl (fun a x => a + x.2) 0
  let pct : Int := (s.rdf (Reg.hpAuditCfg n) 25 20 : Nat)
  let dead := (readings.filter (fun x => decide (x.2 * 100 * readings.length < pct * sum))).map (fun x => x.1)
  let was := s.deadDots n
  let s := forL (dead.reverse.filter (fun d => ! was.contains d)) (fun d s => s.deadList n d) s
  let listed := s.deadDots n
  let good := readings.filter (fun x => ! listed.contains x.1)
  let gsum := good.foldl (fun a x => a + x.2) 0
  let iref := if good.isEmpty then Config.scaled gsum 1 0 else fdivI gsum good.length
  let s := s.wrf (Reg.hpAuditImean n) 11 0 (wrapN 12 iref)
  let s := if ! s.rdb (Reg.hpAuditCfg n) 1 then s else
    forL readings (fun x s => s.trimSet n x.1
      (if listed.contains x.1 then 0 else auditTrim gsum good.length x.2 (s.rdf (Reg.hpAuditTime n) 31 16))) s
  let s := (s.wrf (Reg.hpAuditStat n) 11 0 0).cnt (Reg.hpAuditStat n) 23 16
  (s.deadShow n).irq (chPage n 3) 1

/-- AUDIT_PULSE (R183): one pulse and its 4 conversions; every 64th carries no dot and gives the offset. -/
def execAuditPulse (n : Fin 16) (codes : Vector (BitVec 12) 4) (s : State) : Out :=
  let n := n.val
  if ! s.auditRuns n then .next s else
  let t := s.therm n
  let mean : Int := ((codes.toList.foldl (fun a c => a + c.toNat) 0 / 4 : Nat) : Int)
  let s := s.setTherm n { t with auditPulses := t.auditPulses + 1 }
  if t.auditPulses % 64 = 0 then .next (s.updTherm n (fun t => { t with auditOfs := mean })) else
  let dot := s.rdf (Reg.hpAuditStat n) 11 0
  let readings := (dot, mean - t.auditOfs) :: t.readings
  if dot + 1 < s.headDots n then
    .next ((s.wrf (Reg.hpAuditStat n) 11 0 (dot + 1)).updTherm n (fun t => { t with readings := readings }))
  else .next ((s.auditPassEnd n readings).updTherm n (fun t => { t with readings := [] }))

/-- A write of HP_AUDIT_CFG (R190): RESTART starts a new pass. -/
def State.auditCfgWrite (s : State) (n : Nat) (v : Word) : State :=
  let s := s.plainWrite (Reg.hpAuditCfg n) v
  if bit v 2 then (s.wrf (Reg.hpAuditStat n) 11 0 0).updTherm n (fun t => { t with readings := [], auditPulses := 0 }) else s

/-- AUDIT_RESTART (R190). -/
def execAuditRestart (b : Bus) (n : Fin 16) (v : Word) (s : State) : Out :=
  .next (busWrite b (chPage n.val 3) 0x100 (setBit v 2 true) (fun s =>
    if s.isLaser n.val then s else s.auditCfgWrite n.val (setBit v 2 true)) s)

/-! ### Writes of the port page (R163, R181, R190) -/

/-- Whether a plain write of a thermal port register is taken: RWL fields only while ENABLE is 0, thresholds in order, fields
in their ranges; else it is refused with CONFIG. -/
def State.hpWriteOk (s : State) (n off : Nat) (v : Word) : Bool :=
  let a := 0x40203000 + 0x10000 * n + off
  let th := if off = 0x6C then sfld v 15 0 else s.rds (Reg.hpTThrottle n) 15 0
  let li := if off = 0x70 then sfld v 15 0 else s.rds (Reg.hpTLimit n) 15 0
  let sh := if off = 0x74 then sfld v 15 0 else s.rds (Reg.hpTShutdown n) 15 0
  ! (isRwl a && s.enabled (chPage n 3)) &&
    (! (off == 0x6C || off == 0x70 || off == 0x74) || (decide (th ≤ li) && decide (li < sh))) &&
    (off != 0x48 || (decide (4 ≤ fld v 6 0))) &&
    (off != 0x58 || (decide (1 ≤ fld v 12 0) && decide (fld v 12 0 ≤ 5000))) &&
    (off != 0x68 || decide (fld v 6 0 < 80)) && (off != 0xE0 || decide (fld v 3 0 ≤ 8)) &&
    (off != 0x100 || (decide (fld v 10 4 < 80) && decide (1 ≤ fld v 18 12) && decide (fld v 18 12 ≤ 100)))

/-- What follows a plain write of the port page: HP_LINE_T and the dead-dot count. -/
def State.hpWritten (s : State) (n : Nat) : State := (s.lineTShow n).deadShow n

/-- A write of CH_MIN_LINE_T (R163): refused below HP_LINE_T while the port is enabled. -/
def State.minLineTOk (s : State) (n : Nat) (v : Word) : Bool :=
  ! (s.thermOn n && decide (fld v 19 0 < s.rdf (Reg.hpLineT n) 19 0))

/-! ### Ribbon tag (R187 to R189, R394) -/

/-- The consumable unit of channel `n` works (R188): CNS_CFG.EN, thermal mode. -/
def State.cnsOn (s : State) (n : Nat) : Bool := s.powered (chPage n 7) && ! s.isLaser n && s.rdb (Reg.cnsCfg n) 0

/-- CNS_STAT's REFUSING, WB_PENDING, LOW and EMPTY (R188, R189). -/
def State.cnsShow (s : State) (n : Nat) : State :=
  let t := s.tag n
  let left := s.rdn (Reg.cnsLeftMm n)
  let low := t.trusted && decide (left ≤ s.rdf (Reg.cnsLowMm n) 23 0)
  let empty := t.trusted && left == 0
  let wasLow := s.rdb (Reg.cnsStat n) 3
  let wasEmpty := s.rdb (Reg.cnsStat n) 4
  let s := (s.wrb (Reg.cnsStat n) 3 low).wrb (Reg.cnsStat n) 4 empty
  let s := if low && ! wasLow then s.irq (chPage n 7) 1 else s
  let s := if empty && ! wasEmpty then (s.irq (chPage n 7) 2).soot (chPage n 7) 3 else s
  let s := s.wrb (Reg.cnsStat n) 6 (t.writing.isSome || t.retryAt.isSome || t.wbWanted)
  s.wrb (Reg.cnsStat n) 5 (s.cnsOn n && ! (t.trusted && s.rdb (Reg.cnsStat n) 0 && s.rdf (Reg.cnsStat n) 2 1 == 2 && ! empty))

/-- Admissions to channel `n` are INHIBITED by its consumable (R188). -/
def State.cnsRefuses (s : State) (n : Nat) : Bool := s.cnsOn n && ! s.rdb (Reg.cnsCfg n) 1 && s.rdb (Reg.cnsStat n) 5

/-- An authentication starts (R188, R394): a challenge from the entropy source. -/
def State.tagAuthStart (s : State) (n : Nat) : State :=
  if ! s.cnsOn n then s else
  let (c, s) := s.drawBytes 16
  let s := s.updTag n (fun t => { t with nonce := some c })
  (s.wrf (Reg.cnsStat n) 2 1 1).cnsShow n

/-- Consumable key `k` of OTP (R384), and whether it is revoked. -/
def State.otpByte (s : State) (a : Nat) : Byte := tabGet 0 s.sec.otp a
def State.otpBytes (s : State) (a n : Nat) : List Byte := (List.range n).map (fun i => s.otpByte (a + i))
def State.cnsKey (s : State) (k : Nat) : List Byte := s.otpBytes (0x160 + 16 * k) 16
def State.cnsKeyRevoked (s : State) (k : Nat) : Bool := (s.otpByte 0x184).toNat.testBit (4 + k)

/-- The tag's answer verifies under key `k` (R187, R394). -/
def State.tagKeyOk (s : State) (k : Nat) (nonce : List Byte) (r : TagReply) : Bool :=
  let key := s.cnsKey k
  let uid := r.record.take 8
  let ktag := aesCmac key uid
  ! s.cnsKeyRevoked k && r.record.length == 40 &&
    r.sig == aesCmac ktag ([0x4B, 0x5A, 0x43, 0x41] ++ uid ++ nonce ++ r.record.take 24) &&
    (r.record.drop 24).take 16 == aesCmac key (r.record.take 24)

/-- An authentication fails (R188). -/
def State.tagAuthFail (s : State) (n b : Nat) : State :=
  let s := (s.updTag n (fun t => { t with nonce := none, trusted := false })).wrf (Reg.cnsStat n) 2 1 3
  (((s.cnt (Reg.cnsAuthCnt n) 31 16).soot (chPage n 7) b).irq (chPage n 7) 0).cnsShow n

/-- A tag record accepted under key `k` (R188, R189). -/
def State.tagAccept (s : State) (n k : Nat) (r : List Byte) : State :=
  let left := leAt r 0x10 4
  let same := s.rdn (Reg.cnsUidLo n) == leAt r 0 4 && s.rdn (Reg.cnsUidHi n) == leAt r 4 4 && (s.tag n).record != []
  let s := s.updTag n (fun t => { t with
    record := r, nonce := none, key := k, trusted := true, sinceWb := if same then t.sinceWb else 0, frac := if same then t.frac else 0 })
  let s := (s.wr (Reg.cnsUidLo n) (BitVec.ofNat 32 (leAt r 0 4))).wr (Reg.cnsUidHi n) (BitVec.ofNat 32 (leAt r 4 4))
  let s := s.wr (Reg.cnsTotalMm n) (BitVec.ofNat 32 (leAt r 0x0C 4))
  let s := s.wr (Reg.cnsLeftMm n) (BitVec.ofNat 32 (if same then Nat.min left (s.rdn (Reg.cnsLeftMm n)) else left))
  let s := s.wr (Reg.cnsTagLeftMm n) (BitVec.ofNat 32 left)
  let s := if same then s else s.wrf (Reg.cnsUsedNm n) 19 0 0
  let s := (s.wrb (Reg.cnsStat n) 0 true).wrf (Reg.cnsStat n) 2 1 2
  ((s.cnt (Reg.cnsAuthCnt n) 15 0).irq (chPage n 7) 0).cnsShow n

/-- TAG_AUTH_DONE (R394): the response checked under key 0, or else key 1. -/
def execTagAuthDone (n : Fin 16) (reply : Option TagReply) (s : State) : Out :=
  let n := n.val
  match (s.tag n).nonce, reply with
  | none, _ => .next s
  | some _, none => .next ((s.wrb (Reg.cnsStat n) 0 false).tagAuthFail n 1)
  | some c, some r =>
    let uid := leAt r.record 0 8
    let stale := decide ((tabGet 0xFFFFFFFF s.sec.tagLeft uid).toNat < leAt r.record 0x10 4)
    match [0, 1].find? (fun k => s.tagKeyOk k c r) with
    | some k => .next (if stale then s.tagAuthFail n 0 else s.tagAccept n k r.record)
    | none => .next (s.tagAuthFail n 0)

/-- The record a write-back writes (R189): LEFT_MM, WCOUNT + 1 and a new MAC under the key that authenticated the tag. -/
def State.tagRecord (s : State) (n : Nat) : List Byte :=
  let t := s.tag n
  let left := Nat.min (s.rdn (Reg.cnsLeftMm n)) (s.rdn (Reg.cnsTagLeftMm n))
  let body := t.record.take 0x10 ++ leBytes 4 left ++ leBytes 4 (leAt t.record 0x14 4 + 1)
  body ++ aesCmac (s.cnsKey t.key) body

/-- A write-back starts, or waits for the one in progress (R189). -/
def State.tagWritebackStart (s : State) (n : Nat) : State :=
  let t := s.tag n
  if ! s.cnsOn n || ! t.trusted then s
  else if t.writing.isSome then (s.setTag n { t with wbWanted := true }).cnsShow n
  else (s.setTag n { t with writing := some (s.tagRecord n), sinceWb := 0, wbWanted := false, retryAt := none }).cnsShow n
def State.tagWritebackAll (s : State) : State := forN 16 (fun n s => s.tagWritebackStart n) s

/-- A write of CNS_CMD (R192). -/
def State.cnsCmdWrite (s : State) (n : Nat) (v : Word) : State :=
  let s := if bit v 0 then s.tagAuthStart n else s
  if bit v 1 then s.tagWritebackStart n else s

/-- TAG_AUTH (R188). -/
def execTagAuth (b : Bus) (n : Fin 16) (v : Word) (s : State) : Out :=
  .next (busWrite b (chPage n.val 7) 0x4C (setBit v 0 true) (fun s => s.cnsCmdWrite n.val (setBit v 0 true)) s)

/-- TAG_WRITEBACK (R189). -/
def execTagWriteback (b : Bus) (n : Fin 16) (v : Word) (s : State) : Out :=
  .next (busWrite b (chPage n.val 7) 0x4C (setBit v 1 true) (fun s => s.cnsCmdWrite n.val (setBit v 1 true)) s)

/-- TAG_PRESENCE_POLL (R188): the UID read, `none` when no tag answers. -/
def execTagPresencePoll (n : Fin 16) (uid : Option (BitVec 64)) (s : State) : Out :=
  let n := n.val
  if ! s.cnsOn n then .next s else
  match uid with
  | none =>
    let s := (s.wrb (Reg.cnsStat n) 0 false).updTag n (fun t => { t with trusted := false, record := [], nonce := none })
    .next (((s.wrf (Reg.cnsStat n) 2 1 0).soot (chPage n 7) 1).cnsShow n)
  | some u =>
    let known := s.rdb (Reg.cnsStat n) 0 && s.rd64 (Reg.cnsUidLo n) (Reg.cnsUidHi n) == u.toNat
    if known then .next s else
    let s := (s.wrb (Reg.cnsStat n) 0 true).wr64 (Reg.cnsUidLo n) (Reg.cnsUidHi n) u.toNat
    let s := s.updTag n (fun t => { t with trusted := false, record := [] })
    .next ((s.irq (chPage n 7) 3).tagAuthStart n)

/-- TAG_WRITEBACK_DONE (R189). -/
def execTagWritebackDone (n : Fin 16) (ok : Bool) (s : State) : Out :=
  let n := n.val
  let t := s.tag n
  match t.writing with
  | none => .next s
  | some r =>
    if ok then
      let left := BitVec.ofNat 32 (leAt r 0x10 4)
      let s := s.setTag n { t with writing := none, record := r, retryAt := none }
      let s := { s with sec := { s.sec with tagLeft := tabPut 0xFFFFFFFF s.sec.tagLeft (leAt r 0 8) left } }
      let s := (s.wr (Reg.cnsTagLeftMm n) left).cnt (Reg.cnsWbCnt n) 15 0
      .next (if t.wbWanted then s.tagWritebackStart n else s.cnsShow n)
    else
      let s := s.setTag n { t with writing := none, retryAt := some (s.now + 100 * msT) }
      .next (((s.cnt (Reg.cnsWbCnt n) 31 16).soot (chPage n 7) 2).cnsShow n)

/-- TAG_WRITEBACK_RETRY (R189). -/
def execTagWritebackRetry (n : Fin 16) (s : State) : Out :=
  let t := s.tag n.val
  if s.due t.retryAt then .next ((s.setTag n.val { t with retryAt := none }).tagWritebackStart n.val) else .next s

/-- RIBBON_MM_COUNT (R189): stepper port `p` has moved `d` 256ths of a full step, in either direction. -/
def State.ribbonCount (s : State) (p d : Nat) : State :=
  if d = 0 then s else
  forN 16 (fun n s =>
    let t := s.tag n
    if ! s.cnsOn n || s.rdf (Reg.cnsCfg n) 13 10 ≠ p || ! t.trusted then s else
    let f := t.frac + d * s.rdf (Reg.cnsNmPerFs n) 23 0
    let nm := s.rdf (Reg.cnsUsedNm n) 19 0 + f / 256
    let mm := nm / 1000000
    let s := (s.wrf (Reg.cnsUsedNm n) 19 0 (nm % 1000000)).setTag n { t with frac := f % 256, sinceWb := t.sinceWb + mm }
    let s := s.wr (Reg.cnsLeftMm n) (BitVec.ofNat 32 (s.rdn (Reg.cnsLeftMm n) - mm))
    if 1000 ≤ t.sinceWb + mm then s.tagWritebackStart n else if mm = 0 then s else s.cnsShow n) s

end Sys2Proof.Machine
end

