-- ==== Sys2Proof/Machine/Laser.lean ====
section
/-! DEFINITION. Laser channels: vector records, the executor, the gate and modulation, the field and its tracking, limits, the
dwell monitor (spec/07, R194 to R219). -/
namespace Sys2Proof.Machine

/-! ### Vector records (R196 to R198) -/

/-- A vector record's words. -/
structure VecRec where
  op : Nat
  flags : Nat
  arg16 : Nat
  w1 : Word
  w2 : Word
  arg32 : Word

def vecRec (b : List Byte) : VecRec :=
  { op := leAt b 0 1, flags := leAt b 1 1, arg16 := leAt b 2 2, w1 := BitVec.ofNat 32 (leAt b 4 4), w2 := BitVec.ofNat 32 (leAt b 8 4),
    arg32 := BitVec.ofNat 32 (leAt b 12 4) }
def VecRec.x (r : VecRec) : Int := sfld r.w1 23 0
def VecRec.y (r : VecRec) : Int := sfld r.w2 23 0

/-- A record is valid in a modulation mode (R198). -/
def VecRec.ok (r : VecRec) (mode : Nat) : Bool :=
  let xy := fld r.w1 31 24 == 0 && fld r.w2 31 24 == 0
  let w0 := r.w1 == 0 && r.w2 == 0
  match r.op with
  | 1 | 2 => r.flags == 0 && xy && r.arg32 == 0
  | 3 => r.flags == 0 && r.arg16 == 0 && xy && decide (1 ≤ r.arg32.toNat) && decide (r.arg32.toNat ≤ 800000)
  | 4 => r.flags == 0 && w0 && r.arg32 == 0
  | 5 =>
    let period := r.arg32.toNat
    r.flags == 0 && r.arg16 == 0 && fld r.w1 31 20 == 0 && r.w2 == 0 && decide (period < 2 ^ 20) && r.w1 != 0 &&
      decide (r.w1.toNat < period) && decide (period ≤ (if mode = 1 ∨ mode = 2 then 400000 else period)) &&
      decide ((if mode = 1 then 2000 else if mode = 2 then 100 else 0) ≤ period)
  | 6 => r.flags == 0 && r.arg16 == 0 && r.arg32 == 0
  | 7 => r.flags == 0 && r.arg16 == 0 && w0
  | 8 => decide (r.flags < 4) && r.arg16 == 0 && w0 && r.arg32 == 0
  | 0xF => r.flags == 0 && r.arg16 == 0 && w0 && r.arg32 == 0
  | _ => false

/-- LP_CFG.MOD_MODE (R211). -/
def State.modMode (s : State) (n : Nat) : Nat := s.rdf (Reg.lpCfg n) 2 1

/-- Preamble record `j` (R217). -/
def State.preRec (s : State) (n j : Nat) : VecRec :=
  vecRec ((List.range 4).flatMap (fun w => leBytes 4 (s.rdn (Reg.lpPre n (4 * j + w)))))

/-- Record `r` of the block at a ring offset. -/
def State.contentRec (s : State) (n ofs r : Nat) : VecRec := vecRec (s.ringBytes n (ofs + 16 + 16 * r) 16)

/-- COUNT and LAST of the block at a ring offset (R153), and whether its CRC-16 holds (R203). -/
def State.blockCount (s : State) (n ofs : Nat) : Nat := leAt (s.ringBytes n ofs 16) 4 4 % 32
def State.blockLast (s : State) (n ofs : Nat) : Bool := leAt (s.ringBytes n ofs 16) 5 1 % 2 == 1
def State.blockOk (s : State) (n ofs : Nat) : Bool :=
  let h := s.ringBytes n ofs 16
  (unitCrc h (s.ringBytes n (ofs + 16) (16 * s.blockCount n ofs))).toNat == leAt h 2 2

/-! ### Enabling, binding, writes (R195, R217, R218) -/

/-- The laser port of channel `n` runs. -/
def State.laserOn (s : State) (n : Nat) : Bool := s.isLaser n && s.powered (chPage n 3) && s.enabled (chPage n 3)

/-- The bound X and Y loops (R218). -/
def State.loopX (s : State) (n : Nat) : Nat := s.rdf (Reg.lpBindCfg n) 4 0
def State.loopY (s : State) (n : Nat) : Nat := s.rdf (Reg.lpBindCfg n) 12 8

/-- Frame rate of a galvo loop's datapath, and its frame period T (R221). -/
def State.loopRate (s : State) (m : Nat) : Nat := s.rdf (Reg.ldpCfg (m / 8)) 1 0
def State.frameT (s : State) (d : Nat) : Nat := match s.rdf (Reg.ldpCfg d) 1 0 with
  | 0 => 4000
  | 1 => 2000
  | _ => 1000

/-- Another enabled laser channel binds a galvo loop. -/
def State.loopTaken (s : State) (n m : Nat) : Bool :=
  (List.range 16).any (fun k => k != n && s.laserOn k && (s.loopX k == m || s.loopY k == m))

/-- A write to the port refused (R217): CONFIG and its interrupt. -/
def State.laserConfig (s : State) (n : Nat) : State := (s.soot (chPage n 3) 0).irq (chPage n 3) 4

/-- The conditions on enabling a laser port page (R195). -/
def State.laserEnableOk (s : State) (n : Nat) : Bool :=
  let x := s.loopX n
  let y := s.loopY n
  s.isLaser n && x != y && ! s.loopTaken n x && ! s.loopTaken n y && s.loopRate x == s.loopRate y &&
    decide (s.rds (Reg.lpWinXmin n) 23 0 < s.rds (Reg.lpWinXmax n) 23 0) &&
    decide (s.rds (Reg.lpWinYmin n) 23 0 < s.rds (Reg.lpWinYmax n) 23 0) && s.rdf (Reg.lpFieldLen n) 23 0 != 0 &&
    (List.range (s.rdf (Reg.lpPreCount n) 6 0)).all (fun j =>
      let r := s.preRec n j
      [4, 5, 6, 8].contains r.op && r.ok (s.modMode n))

/-- Whether a plain write of a laser port register is taken (R217), and of its binding (R218). -/
def State.lpWriteOk (s : State) (n off : Nat) (v : Word) : Bool :=
  ! (isRwl (laserKey + 0x40203000 + 0x10000 * n + off) && s.enabled (chPage n 3)) &&
    (off != 0xB4 || decide (fld v 6 0 ≤ 64)) && (off != 0x94 || decide (fld v 12 0 ≤ 4224)) &&
    (off != 0xC4 || (decide (1 ≤ fld v 11 0) && decide (fld v 11 0 ≤ 2000))) && (off != 0xC8 || decide (fld v 11 0 ≤ 2000))
def State.bindWriteOk (s : State) (n : Nat) (v : Word) : Bool :=
  ! s.enabled (chPage n 3) && decide (fld v 4 0 < 32) && decide (fld v 12 8 < 32) && ! s.loopTaken n (fld v 4 0) &&
    ! s.loopTaken n (fld v 12 8)

/-- What follows a plain write of the port page: a preamble entry rewritten ends its error (R206). -/
def State.lpWritten (s : State) (n off : Nat) : State := if 0x400 ≤ off then s.updLas n (fun l => { l with preBad := false }) else s

/-! ### Power limits (R213) -/

/-- The entry of the OEM power-limit table in force for channel `n`: MAX_DUTY and MAX_SET. -/
def State.lpLimit (s : State) (n : Nat) : Option (Nat × Nat) :=
  let mode := s.modMode n
  let gate := mode == 0 || mode == 3
  let l := s.las n
  let p := if l.job = 256 then s.rdf (Reg.lpModPeriod n) 19 0 else l.period
  let per (k : Nat) : Nat := s.rdf (Reg.lpLimPer n k) 19 0
  let ok := (List.range 8).filter (fun k => s.rdb (Reg.lpLimPer n k) 31 && (if gate then per k == 0 else decide (per k ≤ p)))
  let best := ok.foldl (fun (m : Option Nat) k => match m with
    | none => some k
    | some j => if per j < per k then some k else some j) none
  best.map (fun k => (s.rdf (Reg.lpLimMax n k) 15 0, s.rdf (Reg.lpLimMax n k) 31 16))

/-- Setpoint and width as they go out, clamped. -/
def State.outPower (s : State) (n : Nat) : Nat := match s.lpLimit n with
  | some (_, set) => Nat.min (s.las n).power.toNat set
  | none => 0
def State.outWidth (s : State) (n : Nat) : Nat := match s.lpLimit n with
  | some (duty, _) => Nat.min (s.las n).width (duty * (s.las n).period / 65536)
  | none => 0

/-- POWER_CLAMP: whether the job in execution is clamped, or its gate held for want of an entry; noted once as it begins. -/
def State.limitCheck (s : State) (n : Nat) : State :=
  let l := s.las n
  let pulses := s.modMode n == 1 || s.modMode n == 2
  let clamp := l.job != 256 && (match s.lpLimit n with
    | none => l.gateCmd
    | some (duty, set) => decide (set < l.power.toNat) || (pulses && decide (duty * l.period / 65536 < l.width)))
  let was := s.rdb (Reg.lpStat n) 5
  let s := s.wrb (Reg.lpStat n) 5 clamp
  if clamp && ! was then (((s.condMarking n 7).soot (chPage n 3) 6).cnt (Reg.lpCntClamp n) 15 0).irq (chPage n 3) 2 else s

/-! ### Gate and modulation (R200, R211, R212, R214, R233) -/

/-- Both bound axes are CLOSED (R233, LP_BIND_STAT). -/
def loopIx (m : Nat) : Nat := if m < 32 then 12 * (m / 8) + m % 8 else 12 * ((m - 32) / 4) + 8 + (m - 32) % 4
def State.loopClosed (s : State) (m : Nat) : Bool := s.rdf (Reg.loopStat (loopIx m)) 1 0 == 1
def State.galvoLoops (s : State) (n : Nat) : List Nat := [s.loopX n, s.loopY n]
def State.axesClosed (s : State) (n : Nat) : Bool := (s.galvoLoops n).all s.loopClosed

/-- The gate pin follows the commanded gate unless something holds it low: a frame outside the window, the alarm, no limit
entry, an open axis, Fireguard's second path. -/
def State.gateEval (s : State) (n : Nat) : State :=
  let l := s.las n
  let on := l.gateCmd && s.laserOn n && ! s.rdb (Reg.lpStat n) 9 && ! l.alarmActive && (s.lpLimit n).isSome && s.axesClosed n &&
    ! s.rdb Reg.fgdCut n
  if on = l.gate then s else
  let s := s.gateSet n on
  s.updLas n (fun l =>
    if on then { l with tickling := false, pulseAt := if s.rdb (Reg.lpCfg n) 7 then s.now else l.pulseAt }
    else { l with tickling := false, tickleAt := s.now })

/-- A gate-on segment begins (R213, R214, R233): void while the laser is not ready, the alarm is active or an axis is open. -/
def State.gateUp (s : State) (n : Nat) : State :=
  let l := s.las n
  let s := s.setLas n { l with gateRise := none, gateCmd := true }
  let s := if l.readyActive && ! l.alarmActive && s.axesClosed n then s else s.condMarking n 7
  (s.limitCheck n).gateEval n
def State.gateDown (s : State) (n : Nat) : State :=
  (s.updLas n (fun l => { l with gateFall := none, gateCmd := false, dotDwell := none })).gateEval n

/-- Gate edges whose tick has come (R200). -/
def State.gateDue (s : State) (n : Nat) : State :=
  let s := if s.due (s.las n).gateRise then s.gateUp n else s
  if s.due (s.las n).gateFall && (s.las n).gateRise.isNone then s.gateDown n else s

/-- Fireguard asserts the laser enable that serves channel `n` (R212, R409, R440). -/
def State.lenServes (s : State) (n : Nat) : Bool := s.rdb Reg.fgdLenStat (if s.rdb Reg.fgdLenCfg n then 4 else 0)

/-- Tickle runs (R212). -/
def State.tickleOn (s : State) (n : Nat) : Bool :=
  s.laserOn n && s.rdb (Reg.lpCfg n) 8 && ! (s.las n).gate && ! s.inSafe n && s.lenServes n

/-- The level of IO11 (R211, R212), before its polarity. -/
def State.modLevel (s : State) (n : Nat) : Bool :=
  let l := s.las n
  if l.gate then
    if s.modMode n = 1 ∨ s.modMode n = 2 then decide (s.now - l.pulseAt < s.outWidth n) else true
  else s.tickleOn n && l.tickling &&
    decide (s.now - l.tickleAt < Nat.min (s.rdf (Reg.lpTickle n) 11 0) (s.rdf (Reg.lpTickleMax n) 11 0))

/-- What time brings on the laser channels: gate edges, and IO11 (R200, R211). -/
def State.beamsTick (s : State) : State :=
  forL s.laser (fun e s =>
    let s := s.gateDue e.1
    let m := BitVec.ofNat 16 (2 ^ e.1)
    { s with pins := { s.pins with laserMod := if s.modLevel e.1 then s.pins.laserMod ||| m else s.pins.laserMod &&& ~~~m } }) s

/-- A FREQ setting taken (R211). -/
def State.freqTake (s : State) (n : Nat) (period width : Nat) : State :=
  (s.updLas n (fun l => { l with period := period, width := width, freqNext := none })).limitCheck n

/-- MODULATION_PULSE_BOUNDARY (R211, R212): a period of IO11's train ends, the next pulse begins, with a FREQ setting that
waited; or a tickle period does. -/
def execModulationPulseBoundary (n : Fin 16) (pinBad : Bool) (s : State) : Out :=
  let n := n.val
  let l := s.las n
  let bad (s : State) : State := if pinBad then (s.soot (chPage n 3) 3).condMarking n 7 else s
  let runs := (s.modMode n == 1 || s.modMode n == 2) && s.laserOn n && l.job != 256 && (l.gate || ! s.rdb (Reg.lpCfg n) 7)
  if runs && decide (l.pulseAt + l.period ≤ s.now) then
    let s := s.setLas n { l with pulseAt := l.pulseAt + l.period }
    .next (bad (match l.freqNext with
      | some (p, w) => s.freqTake n p w
      | none => s))
  else if s.tickleOn n && decide (l.tickleAt + s.rdf (Reg.lpTickle n) 31 12 ≤ s.now) then
    .next (bad (s.setLas n { l with tickleAt := l.tickleAt + s.rdf (Reg.lpTickle n) 31 12, tickling := true }))
  else .next s

/-- LASER_READY_EDGE (R214): the filtered level of IO14. -/
def execLaserReadyEdge (n : Fin 16) (level : Bool) (s : State) : Out :=
  let n := n.val
  if ! s.isLaser n || ! s.powered (chPage n 3) then .next s else
  let active := level != s.rdb (Reg.lpCfg n) 5
  let l := s.las n
  if active = l.readyActive then .next s else
  let s := (s.setLas n { l with readyActive := active, readyLostAt := if active then none else some s.now }).wrb (Reg.lpStat n) 2 active
  .next (if ! active && l.gateCmd then s.condMarking n 7 else s)

/-- LASER_READY_TIMEOUT (R214). -/
def execLaserReadyTimeout (n : Fin 16) (s : State) : Out :=
  let n := n.val
  let l := s.las n
  match l.readyLostAt with
  | some t =>
    if s.laserOn n && ! l.readyActive && s.rdb (Reg.chCtrl n) 0 && decide (t + s.rdf (Reg.lpReadyT n) 15 0 * msT ≤ s.now) then
      .next ((s.setLas n { l with readyLostAt := none }).soot (chPage n 3) 1)
    else .next s
  | none => .next s

/-- LASER_ALARM (R214): IO15 becomes active. -/
def execLaserAlarm (n : Fin 16) (s : State) : Out :=
  let n := n.val
  if ! s.isLaser n || ! s.powered (chPage n 3) || (s.las n).alarmActive then .next s else
  let s := (s.updLas n (fun l => { l with alarmActive := true })).wrb (Reg.lpStat n) 3 true
  .next (((s.condMarking n 7).gateEval n).soot (chPage n 3) 2)

/-- LASER_ALARM_CLEAR (R214). -/
def execLaserAlarmClear (n : Fin 16) (s : State) : Out :=
  let n := n.val
  if ! (s.las n).alarmActive then .next s else
  .next (((s.updLas n (fun l => { l with alarmActive := false })).wrb (Reg.lpStat n) 3 false).gateEval n)

/-! ### Starting and ending a job (R199, R202) -/

/-- DELAYS' two words taken (R197): ON_DLY and OFF_DLY, JUMP_DLY and POLY_DLY. -/
def State.delaysTake (s : State) (n : Nat) (a b : Word) : State :=
  s.updLas n (fun l => { l with onDly := sfld a 15 0, offDly := fld a 31 16, jumpDly := fld b 15 0, polyDly := fld b 31 16 })

/-- POWER and SYNC_TRACK taken (R197, R208). -/
def State.powerTake (s : State) (n v : Nat) : State := (s.updLas n (fun l => { l with power := BitVec.ofNat 16 v })).limitCheck n
def State.syncTake (s : State) (n enc flags : Nat) : State :=
  let s := s.updLas n (fun l => { l with
    tracking := flags % 2 == 1, pStart := if flags / 2 % 2 = 1 then BitVec.ofNat 48 (s.warpFix enc) else l.pStart })
  s.wrb (Reg.lpStat n) 4 (flags % 2 == 1)

/-- A record that takes no time, applied (R197). -/
def State.applyZero (s : State) (n enc : Nat) (r : VecRec) : State :=
  match r.op with
  | 4 => s.powerTake n r.arg16
  | 5 =>
    let l := s.las n
    let runs := (s.modMode n == 1 || s.modMode n == 2) && (l.gate || ! s.rdb (Reg.lpCfg n) 7)
    if runs then s.setLas n { l with freqNext := some (fld r.arg32 19 0, fld r.w1 19 0) }
    else s.freqTake n (fld r.arg32 19 0) (fld r.w1 19 0)
  | 6 => s.delaysTake n r.w1 r.w2
  | 8 => s.syncTake n enc r.flags
  | _ => s

/-- The executor shows what it does (LP_STAT). -/
def State.laserShow (s : State) (n : Nat) : State :=
  let l := s.las n
  let exec := l.job != 256 && l.phase != BeamPhase.ended
  let s := (s.wrb (Reg.lpStat n) 0 exec).wrb (Reg.lpStat n) 6 (l.phase == BeamPhase.settling)
  s.wrb (Reg.lpStat n) 7 (exec && (l.blankBlock || l.blankJob))

/-- LASER_JOB_START (R199): p_start, the channel's defaults, the preamble; the content starts from the present commanded
point. -/
def State.laserStart (s : State) (n j : Nat) : State :=
  let e := s.job n j
  let l := s.las n
  let sp := s.rd (Reg.lpSpeed n)
  let x := l.tgtX - s.rds (Reg.lpOriginX n) 23 0
  let y := l.tgtY - s.rds (Reg.lpOriginY n) 23 0
  let bad := l.gridBad || l.preBad
  let s := s.setLas n { l with
    phase := .ready, job := j, block := 0, record := 0, blockLoaded := false, field := false, x := x, y := y, fromX := x, fromY := y,
    toX := x, toY := y, motStart := s.now, motEnd := s.now, recEnd := s.now, op := 0, pStart := e.trigPos ++ (0 : BitVec 16),
    power := BitVec.ofNat 16 (s.rdf (Reg.lpPower n) 15 0), period := s.rdf (Reg.lpModPeriod n) 19 0,
    width := s.rdf (Reg.lpModWidth n) 19 0, freqNext := none, markSpeed := fld sp 15 0, jumpSpeed := fld sp 31 16,
    gateRise := none, gateFall := none, gateCmd := false, blankBlock := false, blankJob := bad, blankToJump := false,
    heldVstart := false, exited := false, dwelling := false, dotDwell := none, jobStart := s.now, pulseAt := s.now }
  let s := if bad then s.addCond n j 7 else s
  let s := s.delaysTake n (s.rd (Reg.lpDelaysA n)) (s.rd (Reg.lpDelaysB n))
  let s := s.updLas n (fun l => { l with tracking := s.rdb (Reg.lpCfg n) 11 })
  let s := s.wrb (Reg.lpStat n) 4 (s.rdb (Reg.lpCfg n) 11)
  let s := (List.range (s.rdf (Reg.lpPreCount n) 6 0)).foldl (fun s i =>
    let r := s.preRec n i
    if r.op = 5 then s.freqTake n (fld r.arg32 19 0) (fld r.w1 19 0) else s.applyZero n e.enc.toNat r) s
  s.laserShow n

/-- A laser job enters MARKING (R199, R214). -/
def State.laserMarkBegin (s : State) (n j : Nat) : State :=
  let s := if (s.las n).alarmActive then s.addCond n j 7 else s
  if ! s.laserOn n then s
  else if s.rdb (Reg.lpCfg n) 0 || (s.las n).heldVstart then s.laserStart n j else s

/-- An edge of target 16 to 23 on a laser channel (R199): VSTART alone acts. -/
def State.laserTrigger (s : State) (n t : Nat) : State :=
  if t ≠ 0 || ! s.laserOn n then s
  else
  let busy := decide ((s.las n).job ≠ 256)
  if busy && ((s.las n).phase != BeamPhase.ended || (s.jobsIn n .armed).isEmpty) then s.cnt (Reg.lpCntIgnored n) 15 0
  else match (if busy then none else s.markJob n) with
    | some j => s.laserStart n j
    | none =>
      if (s.jobsIn n .armed).isEmpty then s.cnt (Reg.lpCntIgnored n) 15 0
      else s.updLas n (fun l => { l with heldVstart := true })

/-- END (R202), or the end of a block marked LAST without one: the executor's work is done, its duration kept, the park. -/
def State.laserEnd (s : State) (n : Nat) (ok : Bool) : State :=
  let l := s.las n
  let s := if ok then s else s.addCond n l.job 7
  let us := satN 0xFFFFFF ((s.now - l.jobStart) / usT)
  let s := ((s.wrf (Reg.lpDurLast n) 23 0 us).peak (Reg.lpDurMax n) 23 0 us).irq (chPage n 3) 0
  let s := s.gateDown n
  let s := s.updLas n (fun l => { l with
    phase := .ended, tracking := false, field := true, x := l.tgtX, y := l.tgtY, fromX := l.tgtX, fromY := l.tgtY,
    toX := l.tgtX, toY := l.tgtY, motStart := s.now, motEnd := s.now })
  let s := ((s.wrb (Reg.lpStat n) 4 false).wrb (Reg.lpStat n) 9 false).laserShow n
  if s.rdb (Reg.lpCfg n) 9 then s.laserPark n else s

/-- A held TP_JOB_END may take effect (R178, R202). -/
def State.endReady (s : State) (n : Nat) : Bool :=
  if s.isLaser n then (s.las n).phase == BeamPhase.ended else s.thermEndReady n

/-- The executor in the safe state (R112, R424). -/
def State.laserSafe (s : State) (n : Nat) : State := s.laserIdle n

/-- The channel leaves SAFE (R215): the dwell cut's latch ends. -/
def State.laserSafeEnd (s : State) (n : Nat) : State := if s.isLaser n then (s.wrb (Reg.lpStat n) 8 false).gateEval n else s

/-- The speed check of a laser job (R210). -/
def State.laserSpeedOk (s : State) (n : Nat) (e : JobEntry) : Bool :=
  let selv := e.selvPre.toNat + s.rdf (Reg.chSelv n) 31 16
  let room : Int := (s.rdf (Reg.lpFieldLen n) 23 0 : Int) - selv - s.rdf (Reg.chMarkLen n) 23 0
  decide (((s.predSpeed e * s.rdf (Reg.chMarkDur n) 23 0 * usT : Nat) : Int) ≤ room * 2 ^ 32)

/-! ### Executing records (R200 to R203, R208, R215) -/

/-- Executing: the ring offset of the block in hand, the record in hand. -/
def State.laserBlockAt (s : State) (n : Nat) : Option Nat := s.vblockAt n (s.job n (s.las n).job) (s.las n).block
def State.laserRec (s : State) (n : Nat) : Option VecRec :=
  let l := s.las n
  if ! s.laserOn n || l.job = 256 || ! l.blockLoaded || l.phase != BeamPhase.ready then none
  else (s.laserBlockAt n).map (fun o => s.contentRec n o l.record)

/-- Invalid records at the front of what is left of a block are passed over, and the rest of the block runs blanked (R198). -/
def State.skipInvalid (s : State) (n ofs : Nat) : Nat → State
  | 0 => s
  | fuel + 1 =>
    let l := s.las n
    if s.blockCount n ofs ≤ l.record || (s.contentRec n ofs l.record).ok (s.modMode n) then s else
    let s := if l.blankBlock then s else s.addCond n l.job 7
    (s.updLas n (fun l => { l with record := l.record + 1, blankBlock := true })).skipInvalid n ofs fuel

/-- The block is done when no record is left in it (R202). -/
def State.blockOver (s : State) (n ofs : Nat) : State :=
  let l := s.las n
  let s := if l.record < s.blockCount n ofs then s
    else if s.blockLast n ofs then s.laserEnd n false
    else s.setLas n { l with block := l.block + 1, record := 0, blockLoaded := false }
  s.laserShow n

/-- The record in hand is done: on to the next (R198, R200). -/
def State.recNext (s : State) (n : Nat) : State :=
  match s.laserBlockAt n with
  | none => s.laserEnd n false
  | some o => ((s.updLas n (fun l => { l with phase := .ready, dwelling := false, record := l.record + 1 })).skipInvalid n o 32).blockOver n o

/-- VECTOR_BLOCK_START (R203, R315): the block's CRC-16 is checked; `pre` is what the preamble's read found (R206). -/
def execVectorBlockStart (n : Fin 16) (ecc pre : Ecc) (s : State) : Out :=
  let n := n.val
  let l := s.las n
  if ! s.laserOn n || l.job = 256 || l.phase != BeamPhase.ready || l.blockLoaded then .next s else
  let s := if l.block = 0 then match pre with
      | .clean => s
      | .corrected => s.sramCe
      | .uncorrectable =>
        ((s.addCond n l.job 7).soot (chPage n 3) 5).updLas n (fun l => { l with preBad := true, blankJob := true })
    else s
  let s := match ecc with
    | .clean => s
    | .corrected => s.sramCe
    | .uncorrectable => s.soot (chPage n 6) 2
  match s.vblockAt n (s.job n l.job) l.block with
  | none => .next (s.laserEnd n false)
  | some o =>
    let bad := ecc == .uncorrectable || ! s.blockOk n o
    let s := (s.cntW (Reg.lpCntBlocks n)).wrf (Reg.lpStat n) 31 16 l.block
    let s := if bad then ((s.addCond n l.job 7).soot (chPage n 6) 1).cnt (Reg.lpCntBlank n) 15 0 else s
    let s := (s.updLas n (fun l => { l with blockLoaded := true, record := 0, blankBlock := bad })).fired n
    .next ((s.skipInvalid n o 32).blockOver n o)

/-- The next record that takes time after record `r` of block `b`, with the ON_DLY then in force (R200); none where it would
run blanked, or where no record follows.  `fuel` bounds the records looked at. -/
def State.peek (s : State) (n : Nat) (e : JobEntry) : Nat → Nat → Nat → Int → Option (Nat × Int)
  | 0, _, _, _ => none
  | fuel + 1, b, r, on =>
    match s.vblockAt n e b with
    | none => none
    | some o =>
      if r < s.blockCount n o then
        let x := s.contentRec n o r
        if ! x.ok (s.modMode n) then none
        else if x.op = 6 then s.peek n e fuel b (r + 1) (sfld x.w1 15 0)
        else if x.op = 4 ∨ x.op = 5 ∨ x.op = 8 then s.peek n e fuel b (r + 1) on
        else some (x.op, on)
      else if s.blockLast n o then none
      else match s.vblockAt n e (b + 1) with
        | none => none
        | some o' => if s.blockOk n o' then s.peek n e fuel (b + 1) 0 on else none
def State.peekNext (s : State) (n : Nat) : Option (Nat × Int) :=
  let l := s.las n
  if l.blankBlock || l.blankJob || l.blankToJump then none else s.peek n (s.job n l.job) 64 l.block (l.record + 1) l.onDly

/-- MARK and DOT fire, rather than run with the gate low. -/
def LaserState.fires (l : LaserState) : Bool := ! (l.blankBlock || l.blankJob || l.blankToJump)

/-- A motion from the present point to (x, y) from the tick at which the last record's time ended (R200). -/
def State.motion (s : State) (n op : Nat) (x y : Int) (ticks tail : Nat) : State :=
  s.updLas n (fun l => { l with
    phase := .moving, op := op, fromX := l.x, fromY := l.y, toX := x, toY := y, x := x, y := y, motStart := l.recEnd,
    motEnd := l.recEnd + ticks, recEnd := l.recEnd + ticks + tail, settledFrames := 0 })

/-- The gate rises before a MARK that follows a jump whose end is known, when ON_DLY is negative (R200). -/
def State.earlyRise (s : State) (n : Nat) : State :=
  match s.peekNext n with
  | some (2, on) => if on < 0 then s.updLas n (fun l => { l with gateRise := some (((l.recEnd : Nat) : Int) + on).toNat }) else s
  | _ => s

/-- JUMP (R197, R200). -/
def execJump (n : Fin 16) (s : State) : Out :=
  let n := n.val
  match s.laserRec n with
  | some r =>
    if r.op ≠ 1 then .next s else
    let l := s.las n
    let s := s.setLas n { l with blankToJump := false }
    let speed := if r.arg16 = 0 then l.jumpSpeed else r.arg16
    let s := (s.gateDue n).motion n 1 r.x r.y (motionTicks (r.x - l.x) (r.y - l.y) speed) l.jumpDly
    .next (if s.rdb (Reg.lpCfg n) 10 then s else (s.earlyRise n).gateDue n)
  | none => .next s

/-- MARK (R197, R200): between two MARK records the gate stays on. -/
def execMark (n : Fin 16) (s : State) : Out :=
  let n := n.val
  match s.laserRec n with
  | some r =>
    if r.op ≠ 2 then .next s else
    let l := s.las n
    let speed := if r.arg16 = 0 then l.markSpeed else r.arg16
    let ticks := motionTicks (r.x - l.x) (r.y - l.y) speed
    let more := match s.peekNext n with | some (2, _) => l.fires | _ => false
    let s := s.motion n 2 r.x r.y ticks (if more then l.polyDly else l.offDly)
    let s := s.updLas n (fun k =>
      if l.fires then { k with
        gateRise := if k.gateCmd || k.gateRise.isSome then k.gateRise else some (((k.motStart : Nat) : Int) + k.onDly).toNat,
        gateFall := if more then none else some (k.motEnd + k.offDly) }
      else { k with gateRise := none, gateFall := if k.gateCmd then some k.motStart else none })
    .next ((s.limitCheck n).gateDue n)
  | none => .next s

/-- DOT (R197, R200): its jump. -/
def execDot (n : Fin 16) (s : State) : Out :=
  let n := n.val
  match s.laserRec n with
  | some r =>
    if r.op ≠ 3 then .next s else
    let l := s.las n
    .next ((s.gateDue n).motion n 3 r.x r.y (motionTicks (r.x - l.x) (r.y - l.y) l.jumpSpeed) l.jumpDly)
  | none => .next s

/-- A record of no time, in its own row (R197, R203): applied unless its block runs blanked. -/
def State.zeroRow (s : State) (n op : Nat) : Out :=
  match s.laserRec n with
  | some r =>
    if r.op ≠ op then .next s else
    let l := s.las n
    let s := if l.blankBlock || l.blankJob then s else s.applyZero n (s.job n l.job).enc.toNat r
    .next (s.recNext n)
  | none => .next s

/-- POWER (R197). -/
def execPower (n : Fin 16) (s : State) : Out := s.zeroRow n.val 4

/-- FREQ (R197, R211). -/
def execFreq (n : Fin 16) (s : State) : Out := s.zeroRow n.val 5

/-- DELAYS (R197). -/
def execDelays (n : Fin 16) (s : State) : Out := s.zeroRow n.val 6

/-- SYNC_TRACK (R197, R208). -/
def execSyncTrack (n : Fin 16) (s : State) : Out := s.zeroRow n.val 8

/-- WAIT_POS (R197, R208): a position already reached releases at once. -/
def execWaitPos (n : Fin 16) (s : State) : Out :=
  let n := n.val
  match s.laserRec n with
  | some r =>
    if r.op ≠ 7 then .next s else
    let l := s.las n
    if l.blankBlock || l.blankJob then .next (s.recNext n) else
    let pos : Word := (l.pStart >>> (16 : Nat)).truncate 32 + r.arg32
    if s.warpAt (s.job n l.job).enc.toNat pos then .next (s.recNext n)
    else .next ((s.gateDown n).updLas n (fun l => { l with phase := .waiting, op := 7, waitPos := pos }))
  | none => .next s

/-- WAIT_POS_RELEASE (R208). -/
def execWaitPosRelease (n : Fin 16) (s : State) : Out :=
  let n := n.val
  let l := s.las n
  if l.phase == BeamPhase.waiting && l.job != 256 && s.warpAt (s.job n l.job).enc.toNat l.waitPos then
    .next ((s.setLas n { l with recEnd := s.now }).recNext n)
  else .next s

/-- END (R202). -/
def execEndRecord (n : Fin 16) (s : State) : Out :=
  match s.laserRec n.val with
  | some r => if r.op ≠ 0xF then .next s else .next (s.laserEnd n.val true)
  | none => .next s

/-- A DOT holds its point with the gate on for DWELL, unless it runs blanked or is beyond what Fireguard allows (R200,
R215). -/
def State.dotHold (s : State) (n : Nat) : State :=
  let l := s.las n
  let dwell := match s.laserBlockAt n with
    | some o => fld (s.contentRec n o l.record).arg32 19 0
    | none => 0
  let m := s.rd (Reg.lpDwellMax n)
  let allowed := decide (dwell ≤ fld m 11 0 * usT) && decide (l.power.toNat ≤ fld m 31 16)
  let on := l.fires && allowed
  let s := if l.fires && ! allowed then s.addCond n l.job 7 else s
  let s := s.setLas n { l with
    phase := .moving, dwelling := true, motStart := l.recEnd, motEnd := l.recEnd, recEnd := l.recEnd + dwell,
    dotDwell := if on then some dwell else none, gateRise := if on then some l.recEnd else none,
    gateFall := if on then some (l.recEnd + dwell) else none }
  (s.limitCheck n).gateDue n

/-- A jump's delay is over and it needs no settling, or has settled (R200, R201). -/
def State.jumpDone (s : State) (n : Nat) : State := if (s.las n).op = 3 then s.dotHold n else s.recNext n

/-- VECTOR_RECORD_COMPLETE (R200, R201): the time of the record in hand, delays included, has elapsed. -/
def execVectorRecordComplete (n : Fin 16) (s : State) : Out :=
  let n := n.val
  let l := s.las n
  if l.phase != BeamPhase.moving || l.job = 256 || decide (s.now < l.recEnd) then .next s else
  let s := s.gateDue n
  if (l.op = 1 ∨ l.op = 3) ∧ ! l.dwelling then
    if s.rdb (Reg.lpCfg n) 10 then
      .next ((s.updLas n (fun l => { l with phase := .settling, settleStart := l.recEnd })).laserShow n)
    else .next (s.jumpDone n)
  else .next (s.recNext n)

/-- A settling wait ends (R201): its time in LP_SETTLE_STAT. -/
def State.settled (s : State) (n : Nat) : State :=
  let l := s.las n
  let t := s.now - l.settleStart
  let s := (s.wrf (Reg.lpSettleStat n) 15 0 (satN 0xFFFF t)).peak (Reg.lpSettleStat n) 31 16 (satN 0xFFFF (t / usT))
  (s.setLas n { l with recEnd := s.now, phase := .ready }).jumpDone n

/-- SETTLE_DONE (R201): the error has stayed within SETTLE_WIN for 2 frames. -/
def execSettleDone (n : Fin 16) (s : State) : Out :=
  let l := s.las n.val
  if l.phase == BeamPhase.settling && decide (2 ≤ l.settledFrames) then .next ((s.settled n.val).laserShow n.val) else .next s

/-- SETTLE_TIMEOUT (R201): strokes up to the next JUMP run with the gate low. -/
def execSettleTimeout (n : Fin 16) (s : State) : Out :=
  let n := n.val
  let l := s.las n
  if l.phase == BeamPhase.settling && decide (l.settledFrames < 2) &&
      decide (l.settleStart + s.rdf (Reg.lpSettle n) 31 16 * usT ≤ s.now) then
    let s := ((s.addCond n l.job 7).soot (chPage n 3) 4).cnt (Reg.lpCntClamp n) 31 16
    .next (((s.setLas n { l with blankToJump := true }).settled n).laserShow n)
  else .next s

/-! ### The servo frame (R204 to R207, R209) -/

/-- A rational rounded to the nearest whole number, halves up. -/
def nearI (a : Int) (b : Nat) : Int := (2 * a + b) / (2 * (b : Int))

/-- The point the interpolator has reached (R200). -/
def State.beamPoint (s : State) (n : Nat) : Int × Int :=
  let l := s.las n
  if s.now ≤ l.motStart then (l.fromX, l.fromY)
  else if l.motEnd ≤ s.now then (l.toX, l.toY)
  else
    let t := l.motEnd - l.motStart
    let u : Int := (s.now - l.motStart : Nat)
    (l.fromX + nearI ((l.toX - l.fromX) * u) t, l.fromY + nearI ((l.toY - l.fromY) * u) t)

/-- Δp of a job at a lead in ticks, in 2^-57 counts (R207). -/
def State.trackDp (s : State) (enc : Nat) (pStart : BitVec 48) (lead : Int) : Int :=
  let d : Int := signed 48 (BitVec.ofNat 48 (s.warpFix enc) - pStart).toNat
  d * 2 ^ 41 + s.warpVelI enc * lead * 2 ^ 25 + sword (s.warpAcc enc) * lead * lead

/-- A node of the active grid (R205): dx or dy. -/
def LaserState.node (l : LaserState) (r c : Nat) (dy : Bool) : Int :=
  let w := tabGet 0 l.grid (65 * r + c)
  if dy then sfld w 31 16 else sfld w 15 0

/-- The grid's correction at a calibrated point (R205), with 16 fraction bits kept and the result to the nearest unit. -/
def State.gridCorr (s : State) (n : Nat) (ux uy : Int) (dy : Bool) : Int :=
  if ! s.rdb (Reg.lpGridCfg n) 8 then 0 else
  let l := s.las n
  let a := (clampI 0 16777215 (ux + 8388608)).toNat
  let b := (clampI 0 16777215 (uy + 8388608)).toNat
  let c := a / 262144
  let r := b / 262144
  let fx : Int := (a % 262144 : Nat)
  let fy : Int := (b % 262144 : Nat)
  let one : Int := 262144
  let d := (one - fx) * (one - fy) * l.node r c dy + fx * (one - fy) * l.node r (c + 1) dy +
    (one - fx) * fy * l.node (r + 1) c dy + fx * fy * l.node (r + 1) (c + 1) dy
  nearI (fdivI d (2 ^ 20) * (2 ^ s.rdf (Reg.lpGridCfg n) 2 0 : Nat)) 65536

/-- SERVO_FRAME_TARGET, FIELD_EXIT, POWER_CLAMP and GRID_ECC_ERROR (R204 to R207, R209, R213): the galvo target of channel `n`
for a frame of `T` ticks. -/
def State.laserFrame (s : State) (n T : Nat) (ecc : Ecc) : State :=
  let l := s.las n
  let s := match ecc with
    | .clean => s
    | .corrected => s.sramCe
    | .uncorrectable =>
      let s := (s.setLas n { l with gridBad := true }).soot (chPage n 3) 5
      if l.job = 256 ∨ l.phase = BeamPhase.ended then s
      else ((s.addCond n l.job 7).updLas n (fun l => { l with blankJob := true, gateRise := none })).gateDown n
  let s := s.gateDue n
  let l := s.las n
  let exec := l.job != 256 && l.phase != BeamPhase.ended
  let (x, y) := s.beamPoint n
  let lead : Int := (T : Nat) + s.rds (Reg.lpTrkLead n) 15 0
  let dp := if l.field || ! l.tracking then 0 else s.trackDp (s.job n l.job).enc.toNat l.pStart lead
  let ox := if l.field then 0 else s.rds (Reg.lpOriginX n) 23 0
  let oy := if l.field then 0 else s.rds (Reg.lpOriginY n) 23 0
  let tx := ox + x - nearI (dp * sword (s.rd (Reg.lpKX n))) (2 ^ 65)
  let ty := oy + y - nearI (dp * sword (s.rd (Reg.lpKY n))) (2 ^ 65)
  let xmin := s.rds (Reg.lpWinXmin n) 23 0
  let xmax := s.rds (Reg.lpWinXmax n) 23 0
  let ymin := s.rds (Reg.lpWinYmin n) 23 0
  let ymax := s.rds (Reg.lpWinYmax n) 23 0
  let outside := exec && (decide (tx < xmin) || decide (xmax < tx) || decide (ty < ymin) || decide (ymax < ty))
  let tx := clampI xmin xmax tx
  let ty := clampI ymin ymax ty
  let ux := nearI (s.rds (Reg.lpXformA n) 19 0 * tx + s.rds (Reg.lpXformB n) 19 0 * ty) 65536
  let uy := nearI (s.rds (Reg.lpXformC n) 19 0 * tx + s.rds (Reg.lpXformD n) 19 0 * ty) 65536
  let gx := clampI (-8388607) 8388607 (ux + s.gridCorr n ux uy false)
  let gy := clampI (-8388607) 8388607 (uy + s.gridCorr n ux uy true)
  let s := (s.setLas n { l with outX := gx, outY := gy, tgtX := tx, tgtY := ty }).wrb (Reg.lpStat n) 9 outside
  let exit := outside && l.gateCmd && ! l.exited
  let s := if exit then
      ((((s.addCond n l.job 0xC).cnt (Reg.lpCntBlank n) 31 16).irq (chPage n 3) 1).updLas n (fun l => { l with exited := true }))
    else s
  (s.limitCheck n).gateEval n

/-- The feed-forward of an axis for a frame of `T` ticks (R207, R226): velocity with 8 fraction bits, acceleration with 16. -/
def State.laserFf (s : State) (n T : Nat) (axisY : Bool) : Int × Int :=
  let l := s.las n
  if ! s.laserOn n then (0, 0) else
  let moving := decide (l.motStart < s.now + T) && decide (s.now < l.motEnd)
  let d := if axisY then l.toY - l.fromY else l.toX - l.fromX
  let path := if moving then fdivI (d * (T : Nat) * 256) (l.motEnd - l.motStart) else 0
  let k := sword (s.rd (if axisY then Reg.lpKY n else Reg.lpKX n))
  let enc := (s.job n l.job).enc.toNat
  let trk := l.tracking && ! l.field
  let v := if trk && s.rdb (Reg.lpBindCfg n) 16 then fdivI (-(s.warpVelI enc * k * (T : Nat))) (2 ^ 32) else 0
  let a := if trk && s.rdb (Reg.lpBindCfg n) 17 then fdivI (-(sword (s.warpAcc enc) * k * (T : Nat) * (T : Nat))) (2 ^ 48) else 0
  (path + v, a)

/-- The settling watch of a frame (R201), from the following errors of both axes. -/
def State.settleWatch (s : State) (n : Nat) (ex ey : Int) : State :=
  let win := s.rdf (Reg.lpSettle n) 15 0
  s.updLas n (fun l =>
    if s.now < l.motEnd then { l with settledFrames := 0 }
    else if ex.natAbs ≤ win ∧ ey.natAbs ≤ win then { l with settledFrames := Nat.min 2 (l.settledFrames + 1) }
    else { l with settledFrames := 0 })

/-- The dwell monitor of a frame of `T` ticks (R215), from both axes' uplink positions: the beam's speed over the product
against LP_DWELL_SPEED while the gate is on. -/
def State.dwellWatch (s : State) (n T : Nat) (fx fy : Int) : State :=
  let l := s.las n
  let enc := match s.markJob n with
    | some j => (s.job n j).enc.toNat
    | none => 0
  let v := if (s.markJob n).isSome then s.warpVelI enc else 0
  let vx := (fx - l.fbX) * 2 ^ 40 + v * sword (s.rd (Reg.lpKX n)) * (T : Nat)
  let vy := (fy - l.fbY) * 2 ^ 40 + v * sword (s.rd (Reg.lpKY n)) * (T : Nat)
  let lim : Int := (s.rdf (Reg.lpDwellSpeed n) 15 0 * T : Nat) * 2 ^ 40
  let slow := l.gate && decide ((vx * vx + vy * vy) * 160000 < lim * lim)
  s.setLas n { l with fbX := fx, fbY := fy, dwellSince := if slow then some (l.dwellSince.getD s.now) else none }

/-- DWELL_CUT (R215): the dwell timer has passed its limit. -/
def execDwellCut (n : Fin 16) (s : State) : Out :=
  let n := n.val
  let l := s.las n
  let limit := (if l.dotDwell.isSome then s.rdf (Reg.lpDwellMax n) 11 0 else s.rdf (Reg.lpDwellTime n) 11 0) * usT
  match l.dwellSince with
  | some t =>
    if ! s.domOn 1 || ! s.isLaser n || ! l.gate || decide (s.now - t ≤ limit) then .next s else
    let s := ((s.condMarking n 7).cut n 3).wrb (Reg.lpStat n) 8 true
    .next ((s.updLas n (fun l => { l with dwellSince := none })).soot (chPage n 3) 7)
  | none => .next s

/-! ### Grid, park, counters (R206, R217, R218) -/

/-- The shadow grid becomes the active one (R206). -/
def State.gridTake (s : State) (n : Nat) : State :=
  ((s.updLas n (fun l => { l with grid := l.gridShadow, gridBad := false })).wrb (Reg.lpStat n) 10 false).irq (chPage n 3) 3

/-- A write of LP_CMD (R206, R217). -/
def State.lpCmdWrite (s : State) (n : Nat) (v : Word) : State :=
  let s := if ! bit v 0 then s else if s.marking n then s.wrb (Reg.lpStat n) 10 true else s.gridTake n
  let s := if bit v 1 then s.updLas n (fun l => { l with gridShadow := l.grid }) else s
  if bit v 2 && ! s.marking n then s.laserPark n else s

/-- A write of a laser register of the port page; in thermal mode the page holds other registers. -/
def laserPortWrite (b : Bus) (n off : Nat) (v : Word) (eff : State → State) (s : State) : Out :=
  .next (busWrite b (chPage n 3) off v (fun s => if s.isLaser n then eff s else s.respond true 0) s)

/-- GRID_SWAP (R206). -/
def execGridSwap (b : Bus) (n : Fin 16) (v : Word) (s : State) : Out :=
  laserPortWrite b n.val 0x9C (setBit v 0 true) (fun s => s.lpCmdWrite n.val (setBit v 0 true)) s

/-- GRID_SWAP_APPLY (R206): at the first tick at which no job of the channel is MARKING. -/
def execGridSwapApply (n : Fin 16) (s : State) : Out :=
  .next (if s.isLaser n.val && s.powered (chPage n.val 3) && s.rdb (Reg.lpStat n.val) 10 && ! s.marking n.val then s.gridTake n.val else s)

/-- GRID_COPY_BACK (R206). -/
def execGridCopyBack (b : Bus) (n : Fin 16) (v : Word) (s : State) : Out :=
  laserPortWrite b n.val 0x9C (setBit v 1 true) (fun s => s.lpCmdWrite n.val (setBit v 1 true)) s

/-- LASER_PARK (R217). -/
def execLaserPark (b : Bus) (n : Fin 16) (v : Word) (s : State) : Out :=
  laserPortWrite b n.val 0x9C (setBit v 2 true) (fun s => s.lpCmdWrite n.val (setBit v 2 true)) s

/-- A write of LP_GRID_DATA (R217): the node LP_GRID_SEL names, and on to the next. -/
def State.gridWrite (s : State) (n : Nat) (v : Word) : State :=
  let i := s.rdf (Reg.lpGridSel n) 12 0
  let s := if i ≤ 4224 then s.updLas n (fun l => { l with gridShadow := tabPut 0 l.gridShadow i v }) else s
  s.wrf (Reg.lpGridSel n) 12 0 (i + 1)

/-- GRID_DATA_WRITE (R217). -/
def execGridDataWrite (b : Bus) (n : Fin 16) (v : Word) (s : State) : Out :=
  laserPortWrite b n.val 0x98 v (fun s => s.gridWrite n.val v) s

/-- DUR_MAX_CLEAR (R217). -/
def execDurMaxClear (b : Bus) (n : Fin 16) (v : Word) (s : State) : Out :=
  laserPortWrite b n.val 0xF8 v (fun s => if bit v 31 then s.wrf (Reg.lpDurMax n.val) 23 0 0 else s) s

/-- BIND_FE_PEAK_CLEAR (R218). -/
def execBindFePeakClear (b : Bus) (n : Fin 16) (v : Word) (s : State) : Out :=
  .next (busWrite b (chPage n.val 4) 0x48 v (fun s =>
    if ! s.isLaser n.val then s.respond true 0
    else if bit v 31 then s.wrf (Reg.lpBindFePeak n.val) 23 0 0 else s) s)

end Sys2Proof.Machine
end

