-- ==== Sys2Proof/Machine/Loops.lean ====
section
/-! DEFINITION. Servo and tension loops: frames, downlinks, the loop law, commands, coefficient banks, the following-error
watch and relay tuning (spec/08, R220 to R243; R282, R284). -/
namespace Sys2Proof.Machine

/-! ### Downlinks (R280, R282, R284) -/

/-- The link page of channel `n` runs (R278). -/
def State.linkOn (s : State) (n : Nat) : Bool := s.isLaser n && s.powered (chPage n 5) && s.enabled (chPage n 5)

/-- The link is up in the sense of R287. -/
def State.linkUp (s : State) (n : Nat) : Bool := s.linkOn n && s.rdf (Reg.lkStat n) 1 0 == 2 && s.rdb (Reg.lkStat n) 3

/-- The 96 bits a downlink's CRC covers (R282). -/
def State.downlinkBody (s : State) (n : Nat) : Nat :=
  let k := s.lnk n
  let len := s.lenServes n
  let cmd (m : Nat) : Nat := if k.train then 0 else wrapN 24 (s.loop m).out
  let flags := b2n ((s.las n).gate && ! k.train) + 2 * b2n len + 4 * b2n (s.loopClosed (s.loopX n)) +
    8 * b2n (s.loopClosed (s.loopY n)) + 16 * b2n (s.inSafe n) + 32 * b2n k.train + 64 * s.loopRate (s.loopX n) +
    256 * b2n (s.las n).field
  let power := if len && ! k.train then s.outPower n else 0
  (((k.seq.toNat * 2 ^ 24 + cmd (s.loopX n)) * 2 ^ 24 + cmd (s.loopY n)) * 2 ^ 16 + power) * 2 ^ 24 + flags

/-- LK_STAT.STATE, with PG_STAT.STATE (R287): 0 OFF, 1 TRAINING, 2 UP, 3 DOWN. -/
def State.setLinkSt (s : State) (n st : Nat) : State :=
  let was := s.rdf (Reg.lkStat n) 1 0
  let s := (s.wrf (Reg.lkStat n) 1 0 st).setStat (chPage n 5) (match st with
    | 0 => 0
    | 1 => 1
    | 2 => 3
    | _ => 6)
  let s := s.wrb (Reg.pgStat (chPage n 5)) 0 (st == 2)
  if was = 2 ∧ st ≠ 2 then s.irq (chPage n 5) 1 else if was ≠ 2 ∧ st = 2 then s.irq (chPage n 5) 0 else s

/-- Training starts (R288): while SYN3 is not locked no attempt begins and the link is DOWN. -/
def State.trainStart (s : State) (n : Nat) : State :=
  let s := s.updLnk n (fun k => { k with train := true, waitTo := none, searching := false, startDue := false, lastBad := false })
  if s.rdf (Reg.clkSynStat 3) 2 0 ≠ 2 then s.setLinkSt n 3
  else
    let s := (s.updLnk n (fun k => { k with attemptAt := s.now, waitTo := some (s.now + 100 * usT) })).setLinkSt n 1
    s.cnt (Reg.lkTrainCnt n) 15 0

/-- DOWNLINK_FRAME (R282): the frame channel `n`'s link sends at a boundary of its bound datapath. -/
def State.downlinkFrame (s : State) (n : Nat) : State :=
  if ! s.linkOn n then s else
  let s := if (s.lnk n).startDue then s.trainStart n else s
  let body := s.downlinkBody n
  let crc := (crc16 (beBytes 12 body)).toNat
  let s := s.wrf (Reg.lkSeq n) 7 0 (s.lnk n).seq.toNat
  s.updLnk n (fun k => { k with
    downlink := BitVec.ofNat 128 ((0xD42B * 2 ^ 96 + body) * 2 ^ 16 + crc), seq := k.seq + 1,
    gatePrev := k.gateNow, gateNow := (s.las n).gate, judged := false })

/-! ### Loops and their targets (R220, R228, R230) -/

/-- A loop's datapath; a galvo axis. -/
def loopDp (m : Nat) : Nat := if m < 32 then m / 8 else (m - 32) / 4
def loopGalvo (m : Nat) : Bool := decide (m < 32)
def loopPage (m : Nat) : Page := .ldp (Fin.ofNat 4 (loopDp m))

/-- LOOPm_STAT.STATE: 0 OPEN, 1 CLOSED, 2 TUNE. -/
def State.loopSt (s : State) (m : Nat) : Nat := s.rdf (Reg.loopStat (loopIx m)) 1 0

/-- The laser channel that binds a galvo axis: an enabled one if there is one. -/
def State.boundCh (s : State) (m : Nat) : Option Nat :=
  let binds (n : Nat) : Bool := s.isLaser n && (s.loopX n == m || s.loopY n == m)
  match leastWhere 16 (fun n => binds n && s.laserOn n) with
  | some n => some n
  | none => leastWhere 16 binds

/-- LOOPm_IO's target and its index; the evaluation divider. -/
def State.outTgt (s : State) (m : Nat) : Nat := if loopGalvo m then 0 else s.rdf (Reg.loopIo (loopIx m)) 14 12
def State.outIdx (s : State) (m : Nat) : Nat := s.rdf (Reg.loopIo (loopIx m)) 19 16
def State.loopDiv (s : State) (m : Nat) : Nat := if loopGalvo m then 1 else Nat.max 1 (s.rdf (Reg.loopIo (loopIx m)) 29 24)

/-- A drive port page runs and is not safe. -/
def State.portRuns (s : State) (p : Page) : Bool := s.powered p && s.enabled p && ! s.deviceSafe

/-- A loop's target can be driven (R230, R238). -/
def State.loopTargetOk (s : State) (m : Nat) : Bool :=
  if loopGalvo m then (match s.boundCh m with
    | some n => s.linkUp n
    | none => false)
  else
    let i := s.outIdx m
    match s.outTgt m with
    | 1 | 2 | 4 => s.portRuns (.stp (Fin.ofNat 16 i))
    | 3 => decide (i < 4) && s.portRuns (.bldc (Fin.ofNat 4 i))
    | _ => true

/-- Another CLOSED loop drives the same target. -/
def State.loopClash (s : State) (m : Nat) : Bool :=
  let t := s.outTgt m
  t != 0 && (List.range 16).any (fun a => 32 + a != m && s.loopSt (32 + a) == 1 && s.outTgt (32 + a) == t && s.outIdx (32 + a) == s.outIdx m)

/-- The loop that drives a target: a CLOSED or tuning one before an OPEN one, else the lowest-numbered. -/
def State.loopFor (s : State) (tgt idx : Nat) : Option Nat :=
  let hits (a : Nat) : Bool := s.outTgt (32 + a) == tgt && s.outIdx (32 + a) == idx
  ((leastWhere 16 (fun a => hits a && s.loopSt (32 + a) != 0)).orElse (fun _ => leastWhere 16 hits)).map (fun a => 32 + a)

/-- Some loop is CLOSED or tuning. -/
def State.anyLoopActive (s : State) : Bool := (List.range 48).any (fun m => s.loopSt m != 0)

/-! ### What the pages show (R218, R240, R241) -/

/-- A loop's state entered, with every bit that shows it. -/
def State.setLoopSt (s : State) (m st : Nat) : State :=
  let x := loopIx m
  let s := s.wrf (Reg.loopStat x) 1 0 st
  let s := (s.wrb (Reg.ldpStat (loopDp m)) (x % 12) (st == 1)).wrb (Reg.ldpStat (loopDp m)) (16 + x % 12) (st == 2)
  if loopGalvo m then (s.wrb Reg.loopClosedG m (st == 1)).wrb Reg.loopGtuning m (st == 2)
  else (s.wrb Reg.loopClosedA (m - 32) (st == 1)).wrb Reg.loopTuning (m - 32) (st == 2)

/-- LOOPm_STAT.RESULT. -/
def State.loopResult (s : State) (m r : Nat) : State := s.wrf (Reg.loopStat (loopIx m)) 10 8 r

/-- A command or write refused (R239, R243). -/
def State.loopRefuse (s : State) (m : Nat) : State := (s.soot (loopPage m) 3).loopResult m 3

/-- Loops an aux or galvo channel's gate depends on are re-evaluated. -/
def State.loopGate (s : State) (m : Nat) : State :=
  if ! loopGalvo m then s else forN 16 (fun n s => if s.isLaser n && (s.galvoLoops n).contains m then s.gateEval n else s) s

/-- A loop enters OPEN: integrator, biquad states and previous values clear (R229); a tune in progress ends with a result. -/
def State.loopToOpen (s : State) (m result : Nat) : State :=
  let s := if s.loopSt m = 2 then (s.wrf (Reg.loopTuneStat (loopIx m)) 2 0 result).irq (loopPage m) 0 else s
  let s := s.updLoop m (fun l => { l with
    integ := 0, ePrev := 0, yPrev := none, bq1 := Biquad.reset, bq2 := Biquad.reset, tune := none })
  (s.setLoopSt m 0).loopGate m

/-- LOOP_DROP_OPEN (R238): a CLOSED or tuning loop drops, with soot bit 1 TARGET_LOST or 0 ECC_UNCORR. -/
def State.loopDrop (s : State) (m b : Nat) : State :=
  if s.loopSt m = 0 then s else
  let s := s.loopToOpen m 4
  ((s.loopResult m 3).soot (loopPage m) b).irq (loopPage m) 1

/-- Every loop whose target is lost drops (R238). -/
def State.loopsCheck (s : State) : State :=
  forN 48 (fun m s => if s.loopSt m != 0 && ! s.loopTargetOk m then s.loopDrop m 1 else s) s

/-- The loops that drive port `p`'s target drop: it has entered a state that ignores it (R256). -/
def State.loopsDropFor (s : State) (tgt p : Nat) : State :=
  forN 16 (fun a s => if s.outTgt (32 + a) == tgt && s.outIdx (32 + a) == p then s.loopDrop (32 + a) 1 else s) s

/-! ### Coefficient banks (R225, R231, R232) -/

/-- OPENLOOP mode; the index of the active bank. -/
def State.openLoopMode (s : State) (m : Nat) : Bool := s.rdb (Reg.loopCfg (loopIx m)) 0
def State.activeBank (s : State) (m : Nat) : Bool := s.rdb (Reg.loopStat (loopIx m)) 2

/-- The active bank, or the shadow bank. -/
def State.loopBank (s : State) (m : Nat) (shadow : Bool) : Tab Word :=
  if s.activeBank m != shadow then (s.loop m).bank1 else (s.loop m).bank0

/-- Word `k` of a bank: KP, KI, KD, KV, KA, ILIM, OUT_MIN, OUT_MAX, the two biquads. -/
def bankWord (b : Tab Word) (k : Nat) : Word := tabGet 0 b k
def bankGain (b : Tab Word) (k : Nat) : Int := sword (bankWord b k)
def bankMin (b : Tab Word) : Int := sfld (bankWord b 6) 23 0
def bankMax (b : Tab Word) : Int := sfld (bankWord b 7) 23 0
def bankLim (b : Tab Word) : Int := (fld (bankWord b 5) 23 0 : Nat)
def bankOk (b : Tab Word) : Bool := decide (bankMin b ≤ bankMax b)

/-- The bank the coefficient registers address (R242). -/
def State.coefRead (s : State) (m k : Nat) : Word := bankWord (s.loopBank m (! s.openLoopMode m)) k

/-- A coefficient write taken in the active or the shadow bank. -/
def State.coefPut (s : State) (m k : Nat) (v : Word) : State :=
  let shadow := ! s.openLoopMode m
  let v := if 5 ≤ k ∧ k ≤ 7 then setFld v 31 24 0 else v
  let one := s.activeBank m != shadow
  s.updLoop m (fun l => if one then { l with bank1 := tabPut 0 l.bank1 k v } else { l with bank0 := tabPut 0 l.bank0 k v })

/-- A write of coefficient `k` (R231, R232). -/
def State.coefWr (s : State) (m k : Nat) (v : Word) : State :=
  if s.openLoopMode m && s.loopSt m != 0 then s.loopResult m 2 else s.coefPut m k v

/-! ### The loop law (R224 to R227) -/

/-- Intermediate results saturate at 48 bits; they carry 16 fraction bits. -/
def sat48 (x : Int) : Int := clampI (-140737488355328) 140737488355327 x

/-- A biquad of bank words `o` up: its output in units with 16 fraction bits, rounded to a whole unit (R225). -/
def Biquad.run (q : Biquad) (b : Tab Word) (o : Nat) (x : Int) : Int × Biquad :=
  let c (k : Nat) : Int := bankGain b (o + k)
  let sum := c 0 * x + c 1 * q.x1 + c 2 * q.x2 - (c 3 * q.w1 + c 4 * q.w2) * 65536
  let w := clampI (-2147483648) 2147483647 (nearI sum (2 ^ 46))
  (w * 65536, ⟨x, q.x1, w, q.w1⟩)

/-- A biquad as if its input had held `x` (R229), and its output; a gain without a value is free. -/
def biquadHeld (b : Tab Word) (o : Nat) (x : Int) : Int × Biquad :=
  let c (k : Nat) : Int := bankGain b (o + k)
  let den := 1073741824 + c 3 + c 4
  let num := (c 0 + c 1 + c 2) * x
  let w := if den = 0 then Config.scaled (c 0 + c 1 + c 2) x 0
    else nearI (if den < 0 then -num else num) (den.natAbs * 65536)
  let w := clampI (-2147483648) 2147483647 w
  (w * 65536, ⟨x, x, w, w⟩)

/-- What an evaluation takes: measurement, reference, feed-forward (8 and 16 fraction bits), bus voltage where it is fed forward. -/
structure LoopIn where
  y : Int
  r : Int
  vff : Int
  aff : Int
  vbus : Option (Nat × Nat × Nat)

/-- u for an integrator value, rounded to a unit, with both biquads' states. -/
def loopU (l : LoopState) (b : Tab Word) (q1 q2 : Bool) (vbus : Option (Nat × Nat × Nat)) (rest i : Int) : Int × Biquad × Biquad :=
  let raw := sat48 (rest + i)
  let (x1, a1) := if q1 then l.bq1.run b 8 raw else (raw, l.bq1)
  let (x2, a2) := if q2 then l.bq2.run b 13 x1 else (x1, l.bq2)
  let x3 := match vbus with
    | some (v, nom, floor) =>
      let d := Nat.max v floor
      sat48 (if d = 0 then Config.scaled x2 nom 0 else fdivI (x2 * nom) d)
    | none => x2
  (nearI x3 65536, a1, a2)

/-- One evaluation in CLOSED: the loop afterwards, e, and sat (R224). -/
def loopLaw (l : LoopState) (b : Tab Word) (dmode q1 q2 : Bool) (a : LoopIn) : LoopState × Int × Bool :=
  let e := a.r - a.y
  let p := sat48 (bankGain b 0 * e)
  let ki := sat48 (bankGain b 1 * e)
  let dd := if dmode then sat48 (-(bankGain b 2 * (a.y - l.yPrev.getD a.y))) else sat48 (bankGain b 2 * (e - l.ePrev))
  let lim := bankLim b * 65536
  let iTry := clampI (-lim) lim (sat48 (l.integ + ki))
  let ff := sat48 (fdivI (bankGain b 3 * a.vff) 256 + fdivI (bankGain b 4 * a.aff) 65536)
  let rest := sat48 (p + dd + ff)
  let (u, a1, a2) := loopU l b q1 q2 a.vbus rest iTry
  let out := clampI (bankMin b) (bankMax b) u
  let next (i : Int) (o : Int) (a1 a2 : Biquad) : LoopState :=
    { l with integ := i, ePrev := e, yPrev := some a.y, bq1 := a1, bq2 := a2, out := o }
  if out ≠ u ∧ ki.sign = (u - out).sign then
    let (u2, c1, c2) := loopU l b q1 q2 a.vbus rest l.integ
    let out2 := clampI (bankMin b) (bankMax b) u2
    (next l.integ out2 c1 c2, e, out2 != u)
  else (next iTry out a1 a2, e, out != u)

/-- An auxiliary loop's measurement (R228): none where its source has no value. -/
def State.loopInput (s : State) (m : Nat) : Option Int :=
  let x := loopIx m
  let i := s.rdf (Reg.loopIo x) 10 4
  match s.rdf (Reg.loopIo x) 2 0 with
  | 0 => if i < 80 ∧ s.domOn (pageDomain .adc) then some (s.rdf (Reg.adcCvRes (i / 16) (i % 16)) 11 0 * 2048 : Nat) else none
  | 1 => if i < 16 then some (signed 24 (wrapN 24 (fdivI (s.step_ i).pos 131072000000000))) else none
  | 2 => if i < 16 then some (fdivI (s.step_ i).vel 256000000) else none
  | 3 => if i < 16 then some (fdivI (s.warpVelI i) 256) else none
  | 4 => if i < 4 then
      let v : Int := (s.rdf (Reg.blStat i) 31 16 : Nat)
      some (if s.rdb (Reg.blStat i) 8 then -v else v)
    else none
  | 5 => some (s.rds (Reg.loopRegin x) 23 0)
  | _ => none

/-- The reference and feed-forward of an auxiliary loop, or a galvo axis's as its frame set them (R226). -/
def State.loopRefs (s : State) (m : Nat) : Int × Int × Int :=
  let l := s.loop m
  if loopGalvo m then (l.ref, l.vff, l.aff)
  else
    let r := s.rds (Reg.loopRef (loopIx m)) 23 0
    (r, (r - l.refPrev) * 256, (r - 2 * l.refPrev + l.refPrev2) * 65536)

/-- Bus-voltage feed-forward of an auxiliary loop (R227). -/
def State.loopVbusFf (s : State) (m : Nat) : Option (Nat × Nat × Nat) :=
  let x := loopIx m
  if s.rdb (Reg.loopCfg x) 4 && s.outTgt m == 4 then
    some (s.rdf (Reg.mbStat (b2n (s.rdb (Reg.loopIo x) 20))) 15 0, s.rdf (Reg.loopVbus x) 15 0, s.rdf (Reg.loopVbus x) 31 16)
  else none

/-! ### Relay tuning (R236 to R238) -/

/-- pi times 10^24. -/
def piScaled : Nat := 3141592653589793238462643

/-- The suggested gains of a finished tune, from the mean period and half peak-to-peak, each to the nearest of its format. -/
def State.tuneGains (s : State) (m tu a : Nat) : State :=
  let x := loopIx m
  let d := s.rdf (Reg.loopTuneAmp x) 23 0
  let h := s.rdf (Reg.loopTuneHyst x) 23 0
  let num := 4 * d * 65536 * 10 ^ 24 * 2 ^ 32
  let den := piScaled * isqrt ((a * a - h * h) * 2 ^ 64)
  let tl := s.frameT (loopDp m) * s.loopDiv m
  let near (a b : Nat) : Word := BitVec.ofNat 32 (satN 0x7FFFFFFF ((2 * a + b) / (2 * b)))
  let s := (s.wr (Reg.loopTuneKu x) (near num den)).wr (Reg.loopTuneKp x) (near (6 * num) (10 * den))
  let s := s.wr (Reg.loopTuneKi x) (near (12 * num * tl) (10 * den * tu))
  s.wr (Reg.loopTuneKd x) (near (6 * num * tu) (80 * den * tl))

/-- The last cycle of a tune is complete (R236, R238). -/
def State.tuneEnd (s : State) (m : Nat) (t : TuneState) : State :=
  let x := loopIx m
  let n := Nat.max 1 (s.rdf (Reg.loopTuneCfg x) 5 0)
  let tu := Nat.max 1 ((2 * t.sumPeriod + n) / (2 * n))
  let a := (t.sumPp + n) / (2 * n)
  let s := (s.wr (Reg.loopTuneTu x) (BitVec.ofNat 32 (satN 0xFFFFFFFF tu))).wrf (Reg.loopTuneA x) 23 0 (satN 0xFFFFFF a)
  if a ≤ s.rdf (Reg.loopTuneHyst x) 23 0 then s.loopToOpen m 3 else ((s.tuneGains m tu a).loopToOpen m 2).loopResult m 1

/-- One evaluation of a tune with measurement `y` and error `e` (R236, R238). -/
def State.tuneStep (s : State) (m : Nat) (t : TuneState) (y e : Int) : State :=
  let x := loopIx m
  let b := s.rds (Reg.loopOpenOut x) 23 0
  let d : Int := (s.rdf (Reg.loopTuneAmp x) 23 0 : Nat)
  let h : Int := (s.rdf (Reg.loopTuneHyst x) 23 0 : Nat)
  if s.rdf (Reg.loopTuneAbort x) 23 0 < e.natAbs then (s.loopToOpen m 4).soot (loopPage m) 2 else
  let high := if h < e then true else if e < -h then false else t.high
  let put (t : TuneState) : State := s.updLoop m (fun l => { l with out := b + (if t.high then d else -d), tune := some t })
  if high && ! t.high then
    let cycles := t.cycles + 1
    let counted := decide (2 < cycles)
    let pp := (t.yMax - t.yMin).toNat
    let t := { t with
      high := true, cycleAt := s.now, cycles := cycles, yMax := y, yMin := y,
      sumPeriod := if counted then t.sumPeriod + (s.now - t.cycleAt) else t.sumPeriod,
      sumPp := if counted then t.sumPp + pp else t.sumPp }
    let s := (put t).wrf (Reg.loopTuneStat x) 15 8 cycles
    if s.rdf (Reg.loopTuneCfg x) 5 0 + 2 ≤ cycles then s.tuneEnd m t else s
  else put { t with high := high, yMax := if t.yMax < y then y else t.yMax, yMin := if y < t.yMin then y else t.yMin }

/-! ### Commands (R229 to R233, R237) -/

/-- A CLOSE would be refused (R230). -/
def State.closeRefused (s : State) (m : Nat) : Bool := ! bankOk (s.loopBank m false) || ! s.loopTargetOk m || s.loopClash m

/-- OPEN and SWAP wait for the bound channel's mark to end (R233). -/
def State.loopHeld (s : State) (m : Nat) : Bool :=
  loopGalvo m && (match s.boundCh m with
    | some n => s.laserOn n && s.marking n
    | none => false)

/-- CLOSE (R229): integrator and biquads preloaded with OPEN_OUT. -/
def State.loopCloseNow (s : State) (m : Nat) : State :=
  if s.loopSt m = 1 then s.loopResult m 1
  else if s.closeRefused m then s.loopRefuse m
  else
    let s := if s.loopSt m = 2 then s.loopToOpen m 4 else s
    let x := loopIx m
    let b := s.loopBank m false
    let v := s.rds (Reg.loopOpenOut x) 23 0 * 65536
    let (x1, q1) := if s.rdb (Reg.loopCfg x) 2 then biquadHeld b 8 v else (v, Biquad.reset)
    let q2 := if s.rdb (Reg.loopCfg x) 3 then (biquadHeld b 13 x1).2 else Biquad.reset
    let lim := bankLim b * 65536
    let s := s.updLoop m (fun l => { l with integ := clampI (-lim) lim v, ePrev := 0, yPrev := none, bq1 := q1, bq2 := q2 })
    ((s.setLoopSt m 1).loopResult m 1).loopGate m

/-- TUNE (R236, R237). -/
def State.loopTuneNow (s : State) (m : Nat) : State :=
  let x := loopIx m
  let port := loopGalvo m && (match s.boundCh m with
    | some n => s.laserOn n
    | none => false)
  if s.loopSt m ≠ 0 ∨ s.closeRefused m ∨ port ∨ s.rdf (Reg.loopTuneAmp x) 23 0 = 0 then
    (s.wrf (Reg.loopTuneStat x) 2 0 5).loopRefuse m
  else
    let y := (s.loop m).meas.getD 0
    let t : TuneState := ⟨true, s.now, s.now, 0, 0, 0, y, y⟩
    let s := s.wr (Reg.loopTuneStat x) 1
    let s := s.updLoop m (fun l => { l with tune := some t })
    (s.setLoopSt m 2).loopResult m 1

/-- SWAP (R231): an invalid shadow bank is refused; in OPENLOOP mode it has no effect (R232). -/
def State.loopSwapNow (s : State) (m : Nat) : State :=
  if s.openLoopMode m then s
  else if ! bankOk (s.loopBank m true) then s.loopRefuse m
  else ((s.wrb (Reg.loopStat (loopIx m)) 2 (! s.activeBank m)).loopResult m 1).irq (loopPage m) 2

/-- What waits is applied, the command first and the swap after it (R230); one held stays, with RESULT HELD. -/
def State.loopCommands (s : State) (m : Nat) : State :=
  let x := loopIx m
  let l := s.loop m
  let held := s.loopHeld m
  let was := s.rdf (Reg.loopStat x) 10 8 == 4
  let doCmd := l.cmd != 0 && ! (held && l.cmd == 1)
  let doSwap := l.swap && ! held
  let s := if doCmd then (s.updLoop m (fun l => { l with cmd := 0 })).wrb (Reg.loopStat x) 4 false else s
  let s := if ! doCmd then s else match l.cmd with
    | 1 => (s.loopToOpen m 4).loopResult m 1
    | 2 => s.loopCloseNow m
    | 3 => s.loopTuneNow m
    | _ => (if s.loopSt m = 2 then s.loopToOpen m 4 else s).loopResult m 1
  let s := if doSwap then ((s.updLoop m (fun l => { l with swap := false })).wrb (Reg.loopStat x) 3 false).loopSwapNow m else s
  if held && (l.cmd == 1 || l.swap) then s.loopResult m 4
  else if was && (doCmd || doSwap) then s.irq (loopPage m) 3 else s

/-- A write of LOOPm_CMD (R230, R242): 1 OPEN, 2 CLOSE, 3 TUNE, 4 SWAP, 5 ABORT_TUNE. -/
def State.loopCmdWrite (s : State) (m : Nat) (v : Word) : State :=
  let c := fld v 2 0
  let x := loopIx m
  if c = 4 then (s.updLoop m (fun l => { l with swap := true })).wrb (Reg.loopStat x) 3 true
  else if 1 ≤ c ∧ c ≤ 5 then (s.updLoop m (fun l => { l with cmd := c })).wrb (Reg.loopStat x) 4 true
  else s

/-- A command row of the loop block. -/
def loopCmdRow (b : Bus) (m c : Nat) (s : State) : Out :=
  let x := loopIx m
  let v : Word := BitVec.ofNat 32 c
  .next (busWrite b (loopPage m) (0x104 + 0x100 * (x % 12)) v (fun s => s.loopCmdWrite m v) s)

/-- LOOP_OPEN (R229). -/
def execLoopOpen (b : Bus) (m : Fin 48) (s : State) : Out := loopCmdRow b m.val 1 s
/-- LOOP_CLOSE (R230). -/
def execLoopClose (b : Bus) (m : Fin 48) (s : State) : Out := loopCmdRow b m.val 2 s
/-- LOOP_TUNE (R236, R237). -/
def execLoopTune (b : Bus) (m : Fin 48) (s : State) : Out := loopCmdRow b m.val 3 s
/-- LOOP_SWAP (R231). -/
def execLoopSwap (b : Bus) (m : Fin 48) (s : State) : Out := loopCmdRow b m.val 4 s
/-- ABORT_TUNE (R238). -/
def execAbortTune (b : Bus) (m : Fin 48) (s : State) : Out := loopCmdRow b m.val 5 s

/-! ### Frames and evaluations (R221 to R223) -/

/-- SYN0 is not locked: the datapaths hold (R222). -/
def State.loopsHold (s : State) : Bool := s.rdf (Reg.clkSynStat 0) 2 0 != 2

/-- Channels and loops of a datapath: its auxiliary loops take up their outputs when an evaluation of theirs opens (R223). -/
def State.auxApply (s : State) (d : Nat) : State :=
  forN 4 (fun a s =>
    let m := 32 + 4 * d + a
    if s.rdn (Reg.ldpFrameLo d) % s.loopDiv m = 0 then s.updLoop m (fun l => { l with applied := l.out }) else s) s

/-- References of a datapath's galvo axes that no enabled port drives (R226, R242). -/
def State.galvoRefs (s : State) (d : Nat) : State :=
  forN 8 (fun j s =>
    let m := 8 * d + j
    let port := match s.boundCh m with
      | some n => s.laserOn n
      | none => false
    let r := s.rds (Reg.loopRef (loopIx m)) 23 0
    s.updLoop m (fun l => if port then { l with meas := none } else { l with meas := none, ref := r, vff := 0, aff := 0 })) s

/-- SERVO_FRAME_TARGET for the enabled laser channels whose X axis the datapath serves. -/
def State.laserFrames (s : State) (d : Nat) (ecc : Vector Ecc 16) : State :=
  forN 16 (fun n s =>
    if ! s.laserOn n || s.loopX n / 8 != d then s else
    let t := s.frameT d
    let s := s.laserFrame n t (ecc.getD n .clean)
    let (vx, ax) := s.laserFf n t false
    let (vy, ay) := s.laserFf n t true
    let o := s.las n
    let s := s.updLoop (s.loopX n) (fun l => { l with ref := o.outX, vff := vx, aff := ax })
    s.updLoop (s.loopY n) (fun l => { l with ref := o.outY, vff := vy, aff := ay })) s

/-- A datapath's page is served: its domain on, ENABLE 1. -/
def State.ldpOn (s : State) (d : Nat) : Bool := s.powered (.ldp (Fin.ofNat 4 d)) && s.enabled (.ldp (Fin.ofNat 4 d))

/-- A boundary of datapath `d` is due: this tick or the one before is a multiple of T and no frame has opened there. -/
def State.frameDue (s : State) (d : Nat) : Bool :=
  let t := s.frameT d
  s.ldpOn d && decide (s.now % t < 2) && tabGet 0 s.loops.frames d != s.now / t * t + 1

/-- LDP page counts and LOOP_STAT (R240, R241). -/
def State.loopsShow (s : State) : State :=
  forN 4 (fun d s => (s.wrb Reg.loopsStat d (s.ldpOn d)).wrb Reg.loopsStat (4 + d) (s.ldpOn d && s.loopsHold)) s

/-- DATAPATH_FRAME_BOUNDARY (R222, R223): the commands of the previous frame leave. -/
def execDatapathFrameBoundary (d : Fin 4) (ecc : Vector Ecc 16) (s : State) : Out :=
  let d := d.val
  if ! s.frameDue d then .next s else
  let t := s.frameT d
  let s := { s with loops := { s.loops with frames := tabPut 0 s.loops.frames d (s.now / t * t + 1) } }
  let s := s.loopsShow
  let links (s : State) : State := forN 16 (fun n s => if s.isLaser n && s.loopX n / 8 == d then s.downlinkFrame n else s) s
  if s.loopsHold then .next (links (s.cnt (Reg.ldpHoldFrames d) 15 0)) else
  let s := (s.cntW (Reg.ldpFrameLo d)).auxApply d
  let s := s.galvoRefs d
  .next (links (s.laserFrames d ecc))

/-- Where a loop's slot stands in its frame (R222). -/
def State.slotAt (s : State) (m : Nat) : Nat :=
  let j := loopIx m % 12
  if j < 8 then s.frameT (loopDp m) - 400 + 50 * j else 50 * (j - 8)

/-- A loop's evaluation is due: its slot has begun in the present frame and it has not been evaluated in it. -/
def State.evalDue (s : State) (m : Nat) : Bool :=
  let f := tabGet 0 s.loops.frames (loopDp m)
  s.ldpOn (loopDp m) && ! s.loopsHold && f != 0 && (s.loop m).evalAt != f && decide (f + s.slotAt m ≤ s.now + 1) &&
    decide (s.now + 1 < f + s.slotAt m + 50) && s.rdn (Reg.ldpFrameLo (loopDp m)) % s.loopDiv m == 0

/-- Output, error and measurement shown (R242). -/
def State.loopShow (s : State) (m : Nat) (y e : Int) : State :=
  let x := loopIx m
  let c (v : Int) : Int := clampI (-8388608) 8388607 v
  let s := (s.wrs (Reg.loopMeas x) 23 0 (c y)).wrs (Reg.loopErr x) 23 0 (c e)
  s.wrs (Reg.loopOut x) 23 0 (c (s.loop m).out)

/-- The output of a loop in its state, with a measurement (R224, R229, R236). -/
def State.loopOutput (s : State) (m : Nat) (y : Int) : State :=
  let x := loopIx m
  let (r, vff, aff) := s.loopRefs m
  match s.loopSt m with
  | 1 =>
    let cfg := s.rd (Reg.loopCfg x)
    let (l, e, sat) := loopLaw (s.loop m) (s.loopBank m false) (bit cfg 1) (bit cfg 2) (bit cfg 3) ⟨y, r, vff, aff, s.loopVbusFf m⟩
    let s := (s.setLoop m l).wrb (Reg.loopStat x) 5 sat
    (if sat then s.cnt (Reg.loopSatCnt x) 15 0 else s).loopShow m y e
  | 2 =>
    let e := s.rds (Reg.loopRef x) 23 0 - y
    (match (s.loop m).tune with
      | some t => s.tuneStep m t y e
      | none => s).loopShow m y e
  | _ => (s.updLoop m (fun l => { l with out := s.rds (Reg.loopOpenOut x) 23 0 })).loopShow m y (r - y)

/-- One evaluation of a loop after its commands: a missing measurement holds a CLOSED or tuning loop (R235). -/
def State.loopEval (s : State) (m : Nat) : State :=
  let x := loopIx m
  let s := if loopGalvo m then s else s.updLoop m (fun l => { l with meas := s.loopInput m })
  let s := s.loopCommands m
  let s := match (s.loop m).meas with
    | some y => s.loopOutput m y
    | none =>
      if s.loopSt m = 0 then
        let s := s.updLoop m (fun l => { l with out := s.rds (Reg.loopOpenOut x) 23 0 })
        s.wrs (Reg.loopOut x) 23 0 (s.loop m).out
      else s.cnt (Reg.loopHoldCnt x) 15 0
  if loopGalvo m then s
  else s.updLoop m (fun l => { l with refPrev := s.rds (Reg.loopRef x) 23 0, refPrev2 := l.refPrev })

/-- LOOP_EVALUATION (R222 to R238). -/
def execLoopEvaluation (m : Fin 48) (ecc : Ecc) (s : State) : Out :=
  let m := m.val
  if ! s.evalDue m then .next s else
  let s := s.updLoop m (fun l => { l with evalAt := tabGet 0 s.loops.frames (loopDp m) })
  let s := match ecc with
    | .clean => s
    | .corrected => s.sramCe
    | .uncorrectable => if s.loopSt m = 0 then s.soot (loopPage m) 0 else s.loopDrop m 0
  .next (s.loopEval m)

/-- HELD_LOOP_COMMAND_APPLY (R233): at the first evaluation after the bound job leaves MARKING. -/
def execHeldLoopCommandApply (m : Fin 48) (s : State) : Out :=
  let m := m.val
  .next (if s.evalDue m && ! s.loopHeld m && s.rdf (Reg.loopStat (loopIx m)) 10 8 == 4 then s.loopCommands m else s)

/-- TUNE_TIMEOUT (R238). -/
def execTuneTimeout (m : Fin 48) (s : State) : Out :=
  let m := m.val
  match (s.loop m).tune with
  | some t =>
    .next (if s.loopSt m = 2 ∧ t.startTick + s.rdf (Reg.loopTuneCfg (loopIx m)) 31 16 * msT ≤ s.now then s.loopToOpen m 3 else s)
  | none => .next s

/-! ### Writes (R221, R231, R232, R234, R239, R242) -/

/-- COEF_WRITE (R231, R232). -/
def execCoefWrite (b : Bus) (m : Fin 48) (k : Fin 18) (v : Word) (s : State) : Out :=
  .next (busWrite b (loopPage m.val) (0x140 + 0x100 * (loopIx m.val % 12) + 4 * k.val) v (fun s => s.coefWr m.val k.val v) s)

/-- A write of LOOPm_CFG (R232, R239). -/
def State.loopCfgWrite (s : State) (m : Nat) (v : Word) : State :=
  if s.loopSt m = 0 then s.plainWrite (Reg.loopCfg (loopIx m)) v else s.loopRefuse m

/-- COEF_MODE_WRITE (R232). -/
def execCoefModeWrite (b : Bus) (m : Fin 48) (v : Word) (s : State) : Out :=
  .next (busWrite b (loopPage m.val) (0x100 + 0x100 * (loopIx m.val % 12)) v (fun s => s.loopCfgWrite m.val v) s)

/-- LOOP_FE_PEAK_CLEAR (R242). -/
def execLoopFePeakClear (b : Bus) (m : Fin 48) (v : Word) (s : State) : Out :=
  .next (busWrite b (loopPage m.val) (0x134 + 0x100 * (loopIx m.val % 12)) v
    (fun s => if bit v 31 then s.wrf (Reg.loopFePeak (loopIx m.val)) 23 0 0 else s) s)

/-- Whether a plain write at offset `o` of loop `m`'s block is taken (R221, R234, R239). -/
def State.loopWriteOk (s : State) (m o : Nat) (v : Word) : Bool :=
  let rate := s.rdf (Reg.ldpCfg (loopDp m)) 1 0
  let k := if rate = 0 then 1 else if rate = 1 then 2 else 4
  match o with
  | 0x18 => s.loopSt m == 0 && ! loopGalvo m && decide (2 * k ≤ fld v 29 24) && decide (fld v 29 24 ≤ 10 * k)
  | 0x30 => decide (1 ≤ fld v 2 0) && decide (fld v 2 0 ≤ k)
  | 0x98 => decide (3 ≤ fld v 5 0)
  | _ => true

/-- Whether a plain write of LDP_CFG is taken (R239, R241). -/
def State.ldpCfgOk (s : State) (d : Nat) (v : Word) : Bool := ! s.enabled (.ldp (Fin.ofNat 4 d)) && fld v 1 0 != 3

/-- A datapath page is enabled or disabled: its frames count from there, and LOOP_STAT follows. -/
def State.ldpEnable (s : State) (d : Nat) (on : Bool) : State :=
  let s := { s with loops := { s.loops with frames := tabPut 0 s.loops.frames d 0 } }
  (if on then s.wr (Reg.ldpFrameLo d) 0 else s).loopsShow

/-! ### The following-error watch (R234, R235) -/

/-- Fireguard's view of one galvo axis of channel `n` as its uplink is judged: `pos` none for a missing or bad one. -/
def State.feWatch (s : State) (n : Nat) (axisY : Bool) (pos : Option Int) : State :=
  let m := if axisY then s.loopY n else s.loopX n
  let x := loopIx m
  let l := s.loop m
  let on := (s.las n).gate || (s.las n).gateCmd || s.pins.gate.getLsbD n
  let e : Nat := match pos with
    | some y => (l.ref - y).natAbs
    | none => 0
  let isOver := match pos with
    | some _ => decide (s.rdf (Reg.loopFeWin x) 23 0 < e)
    | none => l.feCount != 0
  let s := if on && pos.isSome then (s.peak (Reg.loopFePeak x) 23 0 e).peak (Reg.lpBindFePeak n) 23 0 e else s
  let s := (s.wrb (Reg.loopStat x) 6 (isOver && ! on)).wrb (Reg.lpBindStat n) (if axisY then 3 else 2) isOver
  let c := if isOver && on then l.feCount + 1 else 0
  let hit := decide (s.rdf (Reg.loopFeCfg x) 2 0 ≤ c) && c != 0
  let s := s.setLoop m { l with feCount := if hit then 0 else c }
  if hit then (s.cut n 4).soot (chPage n 4) 0 else s

end Sys2Proof.Machine
end

