-- ==== Sys2Proof/Machine/Drives.lean ====
section
/-! DEFINITION. Drives: stepper ports with their profile generators and choppers, BLDC ports, motor buses, their safe states
(spec/09, R244 to R277). -/
namespace Sys2Proof.Machine

/-! ### States of a stepper port (R245, R275) -/

/-- STP_STAT.STATE codes. -/
def stpIdle : Nat := 1
def stpMoving : Nat := 2
def stpGeared : Nat := 3
def stpHoming : Nat := 4
def stpStalled : Nat := 5
def stpShorted : Nat := 6
def stpHalted : Nat := 7

def stpPage (p : Nat) : Page := .stp (Fin.ofNat 16 p)
def blPage (k : Nat) : Page := .bldc (Fin.ofNat 4 k)
def mbPage (u : Nat) : Page := .mb (Fin.ofNat 2 u)

def State.stpSt (s : State) (p : Nat) : Nat := s.rdf (Reg.stpStat p) 3 0
def State.stpOn (s : State) (p : Nat) : Bool := s.powered (stpPage p) && s.enabled (stpPage p)
def State.stpDc (s : State) (p : Nat) : Bool := s.rdb (Reg.stpCfg p) 0
def State.stpBus (s : State) (p : Nat) : Nat := b2n (s.rdb (Reg.stpCfg p) 2)
def State.blOn (s : State) (k : Nat) : Bool := s.powered (blPage k) && s.enabled (blPage k)
def State.blBus (s : State) (k : Nat) : Nat := b2n (s.rdb (Reg.blCfg k) 0)
def State.blSt (s : State) (k : Nat) : Nat := s.rdf (Reg.blStat k) 3 0
def State.mbOn (s : State) (u : Nat) : Bool := s.powered (mbPage u) && s.enabled (mbPage u)

/-- The channel a stepper port is bound to (R260). -/
def State.stpCh (s : State) (p : Nat) : Option Nat := if s.rdb (Reg.stpCfg p) 7 then some (s.rdf (Reg.stpCfg p) 6 3) else none
def State.stpMarking (s : State) (p : Nat) : Bool := match s.stpCh p with
  | some n => s.marking n
  | none => false

/-- MBu_DRV_EN (R245, R269 to R271): the bus page runs, no bus is at OV3, and the part is not in DEVICE_SAFE unless a port of
the bus is SHORTED. -/
def State.busShorted (s : State) (u : Nat) : Bool :=
  (List.range 16).any (fun p => s.stpBus p == u && s.stpOn p && s.stpSt p == stpShorted) ||
    (List.range 4).any (fun k => s.blBus k == u && s.blOn k && s.blSt k == 6)
def State.busOv3 (s : State) : Bool := (List.range 2).any (fun u => s.mbOn u && s.rdb (Reg.mbStat u) 19)
def State.drvEnUpdate (s : State) : State :=
  forN 2 (fun u s =>
    let on := s.mbOn u && ! s.railBlocks (18 + u) && ! s.busOv3 && (! s.deviceSafe || s.busShorted u)
    let m := BitVec.ofNat 2 (2 ^ u)
    { s with pins := { s.pins with drvEn := if on then s.pins.drvEn ||| m else s.pins.drvEn &&& ~~~m } }) s

/-- PG_STAT.STATE of a stepper page (R275). -/
def State.stpPageState (s : State) (p : Nat) : State :=
  let st := s.stpSt p
  s.setStat (stpPage p) (if st = 0 then 0 else if s.deviceSafe then 5 else
    if st = 1 then 2 else if st ≤ 4 then 3 else if st = 5 then 8 else if st = 6 then 9 else 0xA)

/-- LOST and what shows it. -/
def State.stpLost (s : State) (p : Nat) (b : Bool) : State := (s.wrb (Reg.stpStat p) 4 b).wrb Reg.motLost p b

/-- A port enters a state, with what shows it, what it interrupts, the loops it drops (R256) and the mark it spoils (R260). -/
def State.stpEnter (s : State) (p st : Nat) : State :=
  let s := s.wrf (Reg.stpStat p) 3 0 st
  let s := (s.wrb Reg.motStalled p (st == stpStalled)).wrb Reg.motShorted p (st == stpShorted)
  let s := s.stpPageState p
  let s := if st = stpShorted ∨ st = stpHalted then s.irq (stpPage p) 3 else s
  let s := if stpHoming ≤ st then s.loopsDropFor 1 p else s
  if stpStalled ≤ st then (match s.stpCh p with
    | some n => s.condMarking n 7
    | none => s)
  else s

/-- I_NOW (R250). -/
def State.iNow (s : State) (p : Nat) : Nat := s.rdf (Reg.stpStat p) 31 24
def State.setINow (s : State) (p v : Nat) : State := s.wrf (Reg.stpStat p) 31 24 v
def State.iMin (s : State) (p : Nat) : Nat := s.rdf (Reg.stpCurrent p) 7 0
def State.iMax (s : State) (p : Nat) : Nat := s.rdf (Reg.stpCurrent p) 15 8

/-- I_t (R250): by the load, or by the auxiliary loop that drives the port's current. -/
def State.iTarget (s : State) (p : Nat) : Nat :=
  match s.loopFor 2 p with
  | some m => satN (s.iMax p) ((s.loop m).applied.natAbs * s.iMax p / 8388607)
  | none =>
    let load := s.rdf (Reg.stpStat p) 23 16
    let lo := s.rdf (Reg.stpLoadCfg p) 7 0
    let hi := s.rdf (Reg.stpLoadCfg p) 15 8
    if load ≤ lo then s.iMin p else if hi ≤ load then s.iMax p else s.iMin p + (s.iMax p - s.iMin p) * (load - lo) / (hi - lo)

/-- The current at which the axis moves off from rest: adaptive or fixed. -/
def State.iMoving (s : State) (p : Nat) : Nat :=
  if s.stpSt p = stpHoming then s.rdf (Reg.stpCurrent p) 31 24
  else if s.rdb (Reg.stpCfg p) 9 || (s.loopFor 2 p).isSome then s.iTarget p else s.iMax p

/-- The axis comes to rest without a ramp; the port enters IDLE with the target at its position (R255, R259). -/
def State.stpHaltMotion (s : State) (p : Nat) : State :=
  (s.updStep_ p (fun t => { t with
    vel := 0, acc := 0, braking := false, stopping := false, hard := false, passing := false, turnFrom := none, home := .none,
    stallRun := 0, restAt := some s.now })).wrf (Reg.stpStat p) 23 16 0
def State.stpToIdle (s : State) (p : Nat) : State :=
  let s := (s.stpHaltMotion p).updStep_ p (fun t => { t with target := t.pos })
  ((s.wrb (Reg.stpStat p) 6 false).wrb (Reg.stpStat p) 7 true).stpEnter p stpIdle

/-! ### Units of the generator (R252) -/

/-- Position units in a microstep, velocity units in a microstep per ms. -/
def posU : Nat := 131072000000000
def velU : Nat := 65536000000
def wrapPos (x : Int) : Int := (x + 2147483648 * posU) % (4294967296 * posU) - 2147483648 * posU

/-- The integer position, its 16-bit fraction, the velocity with 8 fraction bits (R252, R275). -/
def StepperState.posInt (t : StepperState) : Int := fdivI t.pos posU
def StepperState.posFrac (t : StepperState) : Nat := ((t.pos % (posU : Nat)).toNat * 65536) / posU
def StepperState.velReg (t : StepperState) : Int := fdivI t.vel 256000000

/-- DECEL_MAX, and ACCEL and DECEL under its cap; JERK; VMAX (R252). -/
def State.stpDm (s : State) (p : Nat) : Nat := s.rdn (Reg.stpDecelMax p) * 1000
def State.stpA (s : State) (p : Nat) : Nat := Nat.min (s.rdn (Reg.stpAccel p) * 1000) (s.stpDm p)
def State.stpD (s : State) (p : Nat) : Nat := Nat.min (s.rdn (Reg.stpDecel p) * 1000) (s.stpDm p)
def State.stpJ (s : State) (p : Nat) : Nat := s.rdn (Reg.stpJerk p)
def State.stpJerkMode (s : State) (p : Nat) : Bool := s.rdb (Reg.stpCfg p) 1

/-! ### Stopping distances and one tick of the generator (R252 to R254) -/

/-- The way a jerk-limited stop from speed `v` at no acceleration takes, at most `d` and changing by `j` a tick. -/
def jerkStop0 (v d j : Nat) : Nat :=
  if v = 0 then 0
  else if j = 0 ∨ d = 0 then 2 ^ 200
  else if d * d ≤ v * j then v * v / d + v * d / j
  else 2 * v * isqrt (v * j) / j

/-- The way from speed `v` with acceleration `a` under way. -/
def jerkStop (v : Nat) (a : Int) (d j : Nat) : Nat :=
  let n := a.natAbs
  if j = 0 then 2 ^ 200
  else if 0 ≤ a then jerkStop0 (v + n * n / (2 * j)) d j + 2 * v * n / j + 2 * n * n * n / (3 * j * j)
  else
    let v' := v + n * n / (2 * j)
    jerkStop0 v' (Nat.max d n) j - (2 * v' * n / j - n * n * n / (3 * j * j))

/-- What one tick does toward a target ahead: speed and acceleration after it; whether the target is reached, the needed
deceleration exceeds DECEL, the axis is decelerating, or the target will be passed at DECEL_MAX. -/
structure TickPlan where
  v : Nat
  a : Int
  snap : Bool
  held : Bool
  brk : Bool
  pass : Bool

/-- The trapezoidal generator with `dd` to go (R253, R254). -/
def trapPlan (v dd a d dm vmax : Nat) (braking : Bool) : TickPlan :=
  let ok (v1 : Nat) : Bool := decide (v + v1 ≤ dd) && decide (v1 * v1 ≤ d * (dd - (v + v1)))
  let up := if vmax < v then Nat.max vmax (v - d) else Nat.min (v + a) vmax
  if v ≤ dm ∧ dd ≤ v then ⟨0, 0, true, false, true, false⟩
  else if dm * dd < v * v then ⟨v - Nat.min dm v, -(dm : Int), false, true, true, true⟩
  else if ! braking ∧ ok up then ⟨up, (up : Int) - v, false, false, false, false⟩
  else if v = 0 then ⟨0, 0, decide (0 < d) && decide (0 < up), false, false, false⟩
  else if v ≤ vmax ∧ ok v then ⟨v, 0, false, false, braking, false⟩
  else
    let need := (v * v + dd - 1) / dd
    if v ≤ need then ⟨0, 0, true, decide (d < need), true, false⟩
    else ⟨v - need, -(need : Int), false, decide (d < need), true, false⟩

/-- The jerk-limited generator (R252): the greatest of the three accelerations a tick can reach from which a jerk-limited stop
still ends at the target, else the least. -/
def jerkPlan (v : Nat) (acc : Int) (dd a d dm vmax j : Nat) (braking : Bool) : TickPlan :=
  let top : Int := if braking then 0 else (a : Nat)
  let ok (c : Int) : Bool :=
    let v1 : Int := v + c
    let n := v1.toNat
    decide (-(dm : Int) ≤ c) && decide (c ≤ top) && decide (0 ≤ v1) && decide (v + n ≤ dd) &&
      (decide (c ≤ 0) || decide (n + c.natAbs * c.natAbs / (2 * Nat.max 1 j) ≤ vmax)) &&
      decide (jerkStop n c (Nat.max d (-c).toNat) j ≤ dd - (v + n))
  let go (c : Int) (pass : Bool) : TickPlan := ⟨((v : Int) + c).toNat, c, false, decide ((d : Int) < -c), decide (c < 0), pass⟩
  if v ≤ dm ∧ dd ≤ v then ⟨0, 0, true, false, true, false⟩
  else if dd + 2 * v < jerkStop v acc dm j then go (clampI (-dm) acc (acc - j)) true
  else if v = 0 ∧ acc = 0 ∧ ! ok j then ⟨0, 0, decide (0 < d) && decide (0 < j) && decide (0 < vmax), false, false, false⟩
  else if ok (acc + j) then go (acc + j) false
  else if ok acc then go acc false
  else if ok (acc - j) then go (acc - j) false
  else go (clampI (-dm) acc (acc - j)) false

/-- One tick of a velocity that follows a command: rising at `up`, falling at `dn`, and in jerk mode its acceleration changing
by `j` (R252, R255). -/
def follow (jerk : Bool) (v acc cmd : Int) (up dn j : Nat) : Int × Int :=
  let falling := decide (v ≠ 0) && (decide (v.sign ≠ cmd.sign) || decide (cmd.natAbs < v.natAbs))
  let goal := if falling && decide (v.sign ≠ cmd.sign) then 0 else cmd
  let w := goal - v
  let lim := if falling then dn else up
  if ! jerk then
    let dv := if w.natAbs ≤ lim then w else w.sign * lim
    (v + dv, dv)
  else if w = 0 then (v, 0)
  else
    let b := w.sign * acc
    let b1 : Int := if b < 0 then b + j
      else if w.natAbs ≤ b.natAbs * b.natAbs / (2 * Nat.max 1 j) + b.natAbs then (if b - j < 1 then 1 else b - j)
      else if b + j ≤ lim then b + j else (lim : Nat)
    if (w.natAbs : Int) ≤ b1 then (goal, 0) else (v + w.sign * b1, w.sign * b1)

/-! ### Commutation (R246, R247) -/

/-- The electrical angle of the coils: the position rounded down to the resolution in force, plus 45 degrees. -/
def State.coilAngle (s : State) (p : Nat) : Nat :=
  let g := 2 ^ s.rdf (Reg.stpStat p) 11 8
  let th := wrapN 10 (s.step_ p).posInt
  (th / g * g + 128) % 1024

/-- The sign of coil A and B at an angle: none where the current is 0. -/
def coilSign (b : Bool) (phi : Nat) : Option Bool :=
  let q := if b then (phi + 768) % 1024 else phi
  if q = 256 ∨ q = 768 then none else some (decide (q < 256) || decide (768 < q))

/-- sin(pi k / 512) for k up to 256, times 10^12. -/
def sinQ (k : Nat) : Int :=
  let x : Int := (3141592653590 : Int) * k / 512
  let one : Int := 1000000000000
  let x2 := x * x / one
  let term (t : Int) (n : Int) : Int := -(t * x2 / one) / (n * (n + 1))
  let t3 := term x 2
  let t5 := term t3 4
  let t7 := term t5 6
  let t9 := term t7 8
  let t11 := term t9 10
  x + t3 + t5 + t7 + t9 + t11

/-- A coil's threshold code (R246, R249): I_now by its angle, or I_ZC from a zero crossing to the comparator's first trip. -/
def State.coilCode (s : State) (p : Nat) (b : Bool) : Nat :=
  let t := s.step_ p
  if (if b then t.chopB else t.chopA).zeroAt.isSome then s.rdf (Reg.stpAdapt p) 23 16
  else if s.stpDc p then (if b then 0 else s.iMax p)
  else
    let phi := s.coilAngle p
    let r := (if b then phi else phi + 256) % 512
    let k := if r ≤ 256 then r else 512 - r
    (nearI (s.iNow p * sinQ k) 1000000000000).toNat

def StepperState.chop (t : StepperState) (b : Bool) : ChopState := if b then t.chopB else t.chopA
def StepperState.setChop (t : StepperState) (b : Bool) (c : ChopState) : StepperState :=
  if b then { t with chopB := c } else { t with chopA := c }

/-- A commanded zero crossing of a coil (R248, R249): the direction changes, an off-time ends at once. -/
def State.coilCross (s : State) (p : Nat) (b : Bool) : State :=
  let t := s.step_ p
  match coilSign b (s.coilAngle p) with
  | none => s
  | some pos =>
    let pos := if b && s.rdb (Reg.stpCfg p) 8 then ! pos else pos
    let c := t.chop b
    if c.positive = pos then s
    else s.setStep_ p (t.setChop b { c with positive := pos, driving := true, onAt := s.now, zeroAt := some s.now })

/-- Full steps per second, STP_MSk's unit, in velocity units. -/
def fsU : Nat := 256 * 65536000

/-- STP_MSk, 0 once the list has ended (R247). -/
def State.stpMsAt (s : State) (p k : Nat) : Nat :=
  if (List.range k).all (fun i => s.rdf (Reg.stpMs p i) 23 0 != 0) then s.rdf (Reg.stpMs p k) 23 0 else 0

/-- RESOLUTION_CHANGE (R247). -/
def State.resolution (s : State) (p : Nat) : State :=
  let k := s.rdf (Reg.stpStat p) 11 8
  let t := s.step_ p
  let th := wrapN 10 t.posInt
  let v := t.vel.natAbs
  let up := s.stpMsAt p k
  if k < 8 ∧ up ≠ 0 ∧ up * fsU ≤ v then (if th % 2 ^ (k + 1) = 0 then s.wrf (Reg.stpStat p) 11 8 (k + 1) else s)
  else if 0 < k ∧ v * 100 < s.stpMsAt p (k - 1) * (100 - s.rdf (Reg.stpMsHyst p) 7 0) * fsU then
    (if th % 2 ^ k = 0 then s.wrf (Reg.stpStat p) 11 8 (k - 1) else s)
  else s

/-! ### Motor buses (R266 to R270) -/

/-- The bus is treated as having CHOPPER_FAULT (R267). -/
def State.busCf (s : State) (u : Nat) : Bool := s.rdb (Reg.mbStat u) 20 || ! s.rdb (Reg.mbCfg u) 16

/-- The brake gate (R267): between its levels it keeps its state; a change starts the 5 us current check. -/
def State.brakeGate (s : State) (u : Nat) : State :=
  let v := s.rdf (Reg.mbStat u) 15 0
  let was := s.rdb (Reg.mbStat u) 16
  let on := s.mbOn u && ! s.busCf u && (if was then decide (s.rdf (Reg.mbBrk u) 31 16 < v) else decide (s.rdf (Reg.mbBrk u) 15 0 ≤ v))
  if on = was then s else
  let m := BitVec.ofNat 2 (2 ^ u)
  let s := { s with pins := { s.pins with brk := if on then s.pins.brk ||| m else s.pins.brk &&& ~~~m } }
  let s := s.wrb (Reg.mbStat u) 16 on
  let b := s.mbus u
  if on then s.setMbus u { b with edgeAt := some s.now, onSince := some s.now }
  else
    let t := b.onTicks + (match b.onSince with
      | some t0 => s.now - t0
      | none => 0)
    let s := s.wr (Reg.mbBrkMs u) (BitVec.ofNat 32 (satN 0xFFFFFFFF (s.rdn (Reg.mbBrkMs u) + t / msT)))
    s.setMbus u { b with edgeAt := some s.now, onSince := none, onTicks := t % msT }

/-- A stepper port goes to active short (R269): its deceleration is abandoned and its position lost. -/
def State.stpShort (s : State) (p : Nat) : State :=
  if ! s.stpOn p || s.stpSt p == stpShorted then s else
  let s := ((s.stpHaltMotion p).stpLost p true).updStep_ p (fun t => { t with
    chopA := { t.chopA with driving := false }, chopB := { t.chopB with driving := false } })
  ((s.wrb (Reg.stpStat p) 12 false).stpEnter p stpShorted).soot (stpPage p) 2

/-- A BLDC port's state entered. -/
def State.blEnter (s : State) (k st : Nat) : State :=
  let s := (s.wrf (Reg.blStat k) 3 0 st).wrb Reg.motShorted (16 + k) (st == 6)
  s.updBldc k (fun b => { b with since := s.now, sectorAt := s.now, commAt := none, accepted := 0, forced := 0 })

/-- Every gate of a BLDC port off, in a state. -/
def State.blGatesOff (s : State) (k st : Nat) : State :=
  (((s.blEnter k st).wrf (Reg.blDrive k) 25 16 0).wrb (Reg.blStat k) 5 false).updBldc k (fun b => { b with lastCross := none, times := [] })

def State.blShort (s : State) (k : Nat) : State :=
  if ! s.blOn k || s.blSt k == 6 then s else ((s.blGatesOff k 6).updBldc k (fun b => { b with stopping := false })).soot (blPage k) 2

/-- Ports of a bus go to active short: those that regenerate, or all (R268, R269). -/
def State.busShort (s : State) (u : Nat) (all : Bool) : State :=
  let s := forN 16 (fun p s => if s.stpBus p = u ∧ (all ∨ s.rdb (Reg.stpStat p) 12) then s.stpShort p else s) s
  let s := forN 4 (fun k s => if s.blBus k = u ∧ (all ∨ s.rdb (Reg.blStat k) 5) then s.blShort k else s) s
  (s.wrb (Reg.mbStat u) 21 (s.busShorted u)).drvEnUpdate

/-- What a bus's present levels do to its drives (R269). -/
def State.busCheck (s : State) (u : Nat) : State :=
  if ! s.mbOn u then s
  else if s.rdb (Reg.mbStat u) 18 then s.busShort u true
  else if s.rdb (Reg.mbStat u) 17 && s.busCf u then
    let some_ := (List.range 16).any (fun p => s.stpBus p == u && s.rdb (Reg.stpStat p) 12) ||
      (List.range 4).any (fun k => s.blBus k == u && s.rdb (Reg.blStat k) 5)
    if some_ then s.busShort u false else s
  else s

/-- CHOPPER_FAULT (R267): the gate is held off. -/
def State.chopperFault (s : State) (u : Nat) : State :=
  let s := ((s.wrb (Reg.mbStat u) 20 true).irq (mbPage u) 2).brakeGate u
  let s := s.soot (mbPage u) 0
  let s := if s.rdb (Reg.mbStat u) 17 then s.soot (mbPage u) 1 else s
  s.busCheck u

/-- BUS_LEVEL_CROSSING (R266, R269): the bus stands at `mv`; whether it rose to OV3. -/
def State.busCrossing (s : State) (u mv : Nat) : State × Bool :=
  let hyst := s.rdf (Reg.mbHold u) 31 16
  let level (reg bit_ : Nat) : Bool := let t := s.rdf reg 15 0; if s.rdb (Reg.mbStat u) bit_ then decide (t ≤ mv + hyst) else decide (t ≤ mv)
  let o1 := level (Reg.mbOv1 u) 17
  let o2 := level (Reg.mbOv2 u) 18
  let o3 := level (Reg.mbOv3 u) 19
  let r1 := o1 && ! s.rdb (Reg.mbStat u) 17
  let r2 := o2 && ! s.rdb (Reg.mbStat u) 18
  let r3 := o3 && ! s.rdb (Reg.mbStat u) 19
  let s := (s.wrf (Reg.mbStat u) 15 0 mv).peak (Reg.mbVpeak u) 15 0 mv
  let s := ((s.wrb (Reg.mbStat u) 17 o1).wrb (Reg.mbStat u) 18 o2).wrb (Reg.mbStat u) 19 o3
  let low := decide (mv + hyst < s.rdf (Reg.mbOv1 u) 15 0)
  let s := s.updMbus u (fun b => { b with lowSince := if low then some (b.lowSince.getD s.now) else none })
  let s := s.brakeGate u
  let s := if r1 then (s.cnt (Reg.mbCnt u) 15 0).irq (mbPage u) 0 else s
  let s := if r1 && s.busCf u then s.soot (mbPage u) 1 else s
  let s := if r2 then ((s.cnt (Reg.mbCnt u) 31 16).irq (mbPage u) 1) else s
  let s := (s.busCheck u).drvEnUpdate
  let s := if r2 then s.soot .fgd 9
    else if (List.range 2).any (fun v => s.rdb (Reg.mbStat v) 18) || ! s.rdb (Reg.pgSoot .fgd) 9 then s
    else s.sootOff .fgd 9
  (s, r3)

/-- BRAKE_CURRENT_CHECK (R267): 5 us after a brake edge. -/
def execBrakeCurrentCheck (u : Fin 2) (code : BitVec 10) (s : State) : Out :=
  let u := u.val
  match (s.mbus u).edgeAt with
  | some t =>
    if ! s.mbOn u || decide (s.now < t + 5 * usT) then .next s else
    let s := s.updMbus u (fun b => { b with edgeAt := none })
    let min := s.rdf (Reg.mbBrkImin u) 9 0
    let bad := if s.rdb (Reg.mbStat u) 16 then decide (code.toNat ≤ min) else decide (min < code.toNat)
    .next (if bad && s.rdb (Reg.mbCfg u) 16 && ! s.rdb (Reg.mbStat u) 20 then s.chopperFault u else s)
  | none => .next s

/-- A write of MB_CMD (R267, R277). -/
def State.mbCmdWrite (s : State) (u : Nat) (v : Word) : State :=
  if bit v 0 then (s.wrb (Reg.mbStat u) 20 false).brakeGate u else s

/-- CLEAR_CF (R267). -/
def execClearCf (b : Bus) (u : Fin 2) (v : Word) (s : State) : Out :=
  let v := setBit v 0 true
  .next (busWrite b (mbPage u.val) 0x5C v (fun s => s.mbCmdWrite u.val v) s)

/-- MB_VPEAK_CLEAR (R277). -/
def execMbVpeakClear (b : Bus) (u : Fin 2) (v : Word) (s : State) : Out :=
  .next (busWrite b (mbPage u.val) 0x64 v (fun s => if bit v 31 then s.wrf (Reg.mbVpeak u.val) 15 0 0 else s) s)

/-! ### The profile tick (R252 to R256, R258) -/

/-- The velocity trim of a loop, in velocity units (R256). -/
def State.stpTrim (s : State) (p : Nat) : Int := match s.loopFor 1 p with
  | some m => (s.loop m).applied * 256000000
  | none => 0

/-- The geared velocity command (R255). -/
def State.gearCmd (s : State) (p : Nat) : Int :=
  let n := s.rdf (Reg.stpCfg p) 6 3
  let idle := (s.jobsIn n .armed).isEmpty && ! s.marking n
  if s.rdb (Reg.stpGear p) 4 && idle then 0
  else fdivI (sword (s.rd (Reg.stpGearRatio p)) * s.warpVelI (s.rdf (Reg.stpGear p) 3 0) * 400000000000) (2 ^ 32)

/-- A written target taken in IDLE and MOVING (R252, R253). -/
def State.targetTake (s : State) (p : Nat) : State :=
  let t := s.step_ p
  match t.stored with
  | some g =>
    if s.stpSt p ≠ stpIdle ∧ s.stpSt p ≠ stpMoving then s else
    let s := s.setStep_ p { t with
      target := g, stored := none, braking := false, passing := false, stopping := false, hard := false,
      turnFrom := if t.vel = 0 then none else some t.pos }
    let s := (s.wrb (Reg.stpStat p) 6 false).wrb (Reg.stpStat p) 7 (decide (g = t.pos) && decide (t.vel = 0))
    if s.stpSt p = stpIdle ∧ g ≠ t.pos then s.stpEnter p stpMoving else s
  | none => s

/-- The generator's tick toward the target at speed at most `vmax` (R253, R254). -/
def State.genStep (s : State) (p vmax : Nat) : StepperState × Bool :=
  let t := s.step_ p
  let d := s.stpD p
  let dm := s.stpDm p
  let jm := s.stpJerkMode p
  let sg : Int := if t.vel = 0 then (t.target - t.pos).sign else t.vel.sign
  let dd := sg * (t.target - t.pos)
  let v := t.vel.natAbs
  if t.vel ≠ 0 ∧ (dd < 0 ∨ t.passing) then
    let (v1, a1) := follow jm t.vel t.acc 0 (if t.passing then dm else d) (if t.passing then dm else d) (s.stpJ p)
    ({ t with vel := v1, acc := a1, pos := t.pos + t.vel + v1, braking := false }, false)
  else
    let pl := if jm then jerkPlan v (sg * t.acc) dd.toNat (s.stpA p) d dm vmax (s.stpJ p) t.braking
      else trapPlan v dd.toNat (s.stpA p) d dm vmax t.braking
    if pl.snap then ({ t with vel := 0, acc := 0, pos := t.target, braking := false }, pl.held)
    else
      let v1 := sg * pl.v
      ({ t with vel := v1, acc := if pl.v = 0 then 0 else sg * pl.a, pos := t.pos + t.vel + v1, braking := pl.brk, passing := pl.pass }, pl.held)

/-- The motion of one tick by the port's state: the port after it, and whether the needed deceleration exceeds DECEL. -/
def State.motionStep (s : State) (p : Nat) : StepperState × Bool :=
  let t := s.step_ p
  let st := s.stpSt p
  let jm := s.stpJerkMode p
  let run (cmd : Int) (up dn : Nat) : StepperState × Bool :=
    let (v1, a1) := follow jm t.vel t.acc cmd up dn (s.stpJ p)
    ({ t with vel := v1, acc := if v1 = 0 then 0 else a1, pos := t.pos + t.vel + v1 }, false)
  let d := if t.hard then s.stpDm p else s.stpD p
  if st < stpMoving ∨ stpHoming < st then (t, false)
  else if t.stopping || t.home == HomePhase.failing then run 0 d d
  else if st = stpGeared then run (s.gearCmd p) (s.stpA p) (s.stpD p)
  else if t.home == HomePhase.approach then
    let v : Int := (s.rdf (Reg.stpHomeVel p) 23 0 * 256000000 : Nat)
    run (if s.rdb (Reg.stpHomeCfg p) 0 then v else -v) (s.stpA p) (s.stpD p)
  else s.genStep p ((if st = stpHoming then s.rdf (Reg.stpHomeVel p) 23 0 else s.rdf (Reg.stpVmax p) 23 0) * 256000000)

/-- Travel counted (R189, R275): whole microsteps between two positions. -/
def State.stpTravel (s : State) (p d : Nat) : State :=
  if d = 0 then s else
  let n := (s.step_ p).travel + d
  let s := s.updStep_ p (fun t => { t with travel := n % 256 })
  let s := s.wr (Reg.stpTravel p) (BitVec.ofNat 32 (satN 0xFFFFFFFF (s.rdn (Reg.stpTravel p) + n / 256)))
  s.ribbonCount p d

/-- What a tick's end brings: rest, the target reached, homing's next phase (R253, R255, R258, R259). -/
def State.motionEnd (s : State) (p : Nat) : State :=
  let t := s.step_ p
  let st := s.stpSt p
  if st = stpHoming ∧ t.home = .approach ∧ ! t.stopping ∧ s.rdn (Reg.stpHomeMaxtrav p) * posU ≤ (t.pos - t.homeStart).natAbs then
    s.setStep_ p { t with home := .failing }
  else if t.vel ≠ 0 then s
  else if st = stpHoming ∧ t.home = .failing then (s.stpToIdle p).soot (stpPage p) 1
  else if t.stopping then
    let s := if st ≠ stpHoming then s
      else if t.home = .approach then (s.wrb (Reg.stpStat p) 5 t.homedBefore).stpLost p t.lostBefore
      else ((s.wrb (Reg.stpStat p) 5 true).irq (stpPage p) 2).cnt (Reg.stpStallCnt p) 31 16
    s.stpToIdle p
  else if st = stpHoming ∧ t.home = .retract ∧ t.pos = t.target then
    (((s.wrb (Reg.stpStat p) 5 true).irq (stpPage p) 2).cnt (Reg.stpStallCnt p) 31 16).stpToIdle p
  else if st = stpMoving ∧ t.pos = t.target then (s.stpToIdle p).irq (stpPage p) 0
  else match t.turnFrom with
    | some f =>
      let s := s.setStep_ p { t with turnFrom := none, passing := false }
      s.wr (Reg.stpOvershoot p) (BitVec.ofNat 32 ((t.pos - f).natAbs / posU))
    | none => s.setStep_ p { t with passing := false }

/-- PROFILE_TICK (R252): each 1 us of the TSC. -/
def execProfileTick (p : Fin 16) (s : State) : Out :=
  let p := p.val
  let t0 := s.step_ p
  if ! s.stpOn p || s.stpDc p || s.stpSt p == 0 || t0.tickAt == s.now / usT + 1 || decide (2 ≤ s.now % usT) then .next s else
  let s := s.setStep_ p { t0 with tickAt := s.now / usT + 1 }
  let s := s.targetTake p
  let (t1, held) := s.motionStep p
  let s := s.setStep_ p t1
  let s := if held then s.wrb (Reg.stpStat p) 6 true else s
  let st := s.stpSt p
  let fell := decide (stpMoving ≤ st) && decide (st ≤ stpHoming) && decide (t1.vel.natAbs < t0.vel.natAbs)
  let regen := s.rdb (Reg.stpStat p) 12
  let s := s.wrb (Reg.stpStat p) 12 fell
  let s := s.motionEnd p
  let trim := if stpIdle ≤ st ∧ st ≤ stpGeared then s.stpTrim p else 0
  let s := s.updStep_ p (fun t =>
    let pos := wrapPos (t.pos + 2 * trim)
    { t with pos := pos, target := if s.stpSt p = stpIdle ∧ t.stored.isNone then pos else t.target })
  let s := s.stpTravel p ((s.step_ p).posInt - t0.posInt).natAbs
  let moving := decide ((s.step_ p).vel ≠ 0)
  let was := decide (t0.vel ≠ 0)
  let s := if moving && ! was then
      let s := if t0.restAt.isNone then s.setINow p (s.iMoving p) else s
      let s := s.updStep_ p (fun t => { t with restAt := none })
      if ! s.rdb (Reg.stpCfg p) 9 && s.stpSt p != stpHoming && (s.loopFor 2 p).isNone then s.setINow p (s.iMax p) else s
    else if ! moving && was then (s.updStep_ p (fun t => { t with restAt := some s.now })).wrf (Reg.stpStat p) 23 16 0
    else s
  let s := ((s.resolution p).coilCross p false).coilCross p true
  .next (if fell && ! regen then s.busCheck (s.stpBus p) else s)

/-- HOLD_CURRENT_TIMEOUT (R250). -/
def execHoldCurrentTimeout (p : Fin 16) (s : State) : Out :=
  let p := p.val
  let t := s.step_ p
  match t.restAt with
  | some r =>
    if s.stpOn p && decide (t.vel = 0) && s.stpSt p != 0 && decide (r + s.rdf (Reg.stpAdapt p) 31 24 * 10 * msT ≤ s.now) then
      .next ((s.setStep_ p { t with restAt := none }).setINow p (s.rdf (Reg.stpCurrent p) 23 16))
    else .next s
  | none => .next s

/-! ### The chopper, load and stall (R248 to R251, R258) -/

/-- Off-times round up to 40 ns while SYN0 is in bypass (R271). -/
def State.driveTime (s : State) (t : Nat) : Nat := if s.loopsHold then (t + 15) / 16 * 16 else t

/-- HOME_STALL (R258): the reference point is set and the retract begins. -/
def State.homeStall (s : State) (p : Nat) : State :=
  let t := s.step_ p
  let ofs := sword (s.rd (Reg.stpHomeOffset p)) * posU
  let pos := wrapPos (t.pos + (ofs - t.stallPos))
  let r : Int := (s.rdf (Reg.stpHomeRetract p) 23 0 : Nat)
  let target := wrapPos (pos + (if s.rdb (Reg.stpHomeCfg p) 0 then -r else r) * posU)
  (s.setStep_ p { t with
    pos := pos, target := target, vel := 0, acc := 0, home := .retract, stallRun := 0, braking := false, turnFrom := none,
    restAt := some s.now }).stpLost p false

/-- STALL_DETECT (R251). -/
def State.stall (s : State) (p : Nat) : State :=
  if s.stpSt p = stpHoming then (if (s.step_ p).home == HomePhase.approach then s.homeStall p else s)
  else
    let s := (s.stpHaltMotion p).updStep_ p (fun t => { t with restAt := none })
    let s := (s.setINow p (s.rdf (Reg.stpCurrent p) 23 16)).stpLost p true
    let s := ((s.wrb (Reg.stpStat p) 12 false).stpEnter p stpStalled).irq (stpPage p) 1
    (s.cnt (Reg.stpStallCnt p) 15 0).soot (stpPage p) 0

/-- A full step's load is measured: the current follows it, and stalled steps are counted (R249 to R251). -/
def State.loadStep (s : State) (p lag : Nat) : State :=
  let t := s.step_ p
  let load := satN 255 (255 * lag * t.vel.natAbs / (256 * 400000 * velU))
  let s := s.wrf (Reg.stpStat p) 23 16 load
  let homing := s.stpSt p == stpHoming
  let s := if homing || ! (s.rdb (Reg.stpCfg p) 9 || (s.loopFor 2 p).isSome) then s else
    let i := s.iNow p
    let g := s.iTarget p
    s.setINow p (if i ≤ g then Nat.min g (i + s.rdf (Reg.stpAdapt p) 7 0) else Nat.max g (i - s.rdf (Reg.stpAdapt p) 15 8))
  let full := if homing then s.rdf (Reg.stpCurrent p) 31 24 else s.iMax p
  let isOver := s.rdb (Reg.stpCfg p) 10 && decide (s.rdf (Reg.stpLoadCfg p) 23 16 < load) && s.iNow p == full
  let s := s.updStep_ p (fun t =>
    if isOver then { t with stallRun := t.stallRun + 1, stallPos := if t.stallRun = 0 then t.pos else t.stallPos }
    else { t with stallRun := 0 })
  if isOver && decide (s.rdf (Reg.stpLoadCfg p) 31 24 ≤ (s.step_ p).stallRun) then s.stall p else s

/-- CHOPPER_TRIP (R248, R249): the sensed current reaches the coil's threshold. -/
def execChopperTrip (p : Fin 16) (coil : Fin 2) (s : State) : Out :=
  let p := p.val
  let b := coil.val == 1
  let t := s.step_ p
  let c := t.chop b
  let blank := s.driveTime (s.rdf (Reg.stpChop p) 18 11 * 4)
  if ! s.stpOn p || s.stpSt p == stpShorted || ! c.driving || decide (s.now < c.onAt + blank) then .next s else
  let off := s.driveTime (s.rdf (Reg.stpChop p) 10 0 * 4)
  let s := s.setStep_ p (t.setChop b { c with driving := false, offAt := s.now, until_ := s.now + off, zeroAt := none })
  match c.zeroAt with
  | some z => .next (if t.vel = 0 ∨ s.stpDc p then s else s.loadStep p (s.now - z))
  | none => .next s

/-- CHOPPER_OFF_END (R248): a threshold of 0 keeps the coil in slow decay. -/
def execChopperOffEnd (p : Fin 16) (coil : Fin 2) (s : State) : Out :=
  let p := p.val
  let b := coil.val == 1
  let t := s.step_ p
  let c := t.chop b
  if ! s.stpOn p || s.stpSt p == stpShorted || c.driving || decide (s.now < c.until_) || s.coilCode p b == 0 then .next s
  else .next (s.setStep_ p (t.setChop b { c with driving := true, onAt := s.now }))

/-- The duty bridge A is driven at in DC mode (R257, R259). -/
def State.dcDuty (s : State) (p : Nat) : Int :=
  if (s.step_ p).dcHold then 0 else match s.loopFor 4 p with
    | some m => (s.loop m).applied
    | none => s.rds (Reg.stpDcDuty p) 23 0

/-- The bridge inputs x_HI, x_LO of a coil (R244, R248, R257, R269). -/
def State.bridgePins (s : State) (p : Nat) (b : Bool) : Bool × Bool :=
  let c := (s.step_ p).chop b
  let drive (pos : Bool) : Bool × Bool := (pos, ! pos)
  if ! s.stpOn p || s.stpSt p == 0 || s.stpSt p == stpShorted then (false, false)
  else if s.stpDc p then
    let d := s.dcDuty p
    let on := decide (s.now % 16000 * 8388607 < d.natAbs * 16000)
    if b || ! on || ! c.driving then (false, false) else drive (decide (0 ≤ d))
  else if c.driving then drive c.positive
  else if c.until_ ≤ s.now ∨ (s.now - c.offAt) * 16 < (c.until_ - c.offAt) * s.rdf (Reg.stpChop p) 22 19 then (false, false)
  else drive (! c.positive)

/-! ### Stepper commands and writes (R252, R254, R255, R258 to R261, R272) -/

/-- STEPPER_TARGET_WRITE (R251, R252): a STALLED port ignores it. -/
def State.stpTargetWrite (s : State) (p : Nat) (v : Word) : State :=
  let s := s.wr (Reg.stpTarget p) v
  if s.stpSt p = stpStalled ∨ s.stpSt p = 0 then s else
  let g := sword v * posU + s.rdf (Reg.stpTargetFrac p) 15 0 * 2000000000
  s.updStep_ p (fun t => { t with stored := some g })
def execStepperTargetWrite (b : Bus) (p : Fin 16) (v : Word) (s : State) : Out :=
  .next (busWrite b (stpPage p.val) 0x84 v (fun s => s.stpTargetWrite p.val v) s)

/-- PROFILE_PARAM_WRITE (R254): the generator reads the new value at its next tick. -/
def execProfileParamWrite (b : Bus) (p : Fin 16) (k : ProfileParam) (v : Word) (s : State) : Out :=
  let off := match k with
    | .accel => 0x8C
    | .decel => 0x90
    | .jerk => 0x98
  .next (busWrite b (stpPage p.val) off v (fun s => s.wr (pageBase (stpPage p.val) + off) v) s)

/-- A write of STP_DC_DUTY ends a STOP's hold (R259). -/
def State.dcDutyWrite (s : State) (p : Nat) (v : Word) : State :=
  (s.wrf (Reg.stpDcDuty p) 23 0 (fld v 23 0)).updStep_ p (fun t => { t with dcHold := false })
def execDcDutyWrite (b : Bus) (p : Fin 16) (v : Word) (s : State) : Out :=
  .next (busWrite b (stpPage p.val) 0xD4 v (fun s => s.dcDutyWrite p.val v) s)

/-- STOP (R259). -/
def State.stpStopNow (s : State) (p : Nat) : State :=
  if s.stpDc p then s.updStep_ p (fun t => { t with dcHold := true })
  else
    let st := s.stpSt p
    if st = stpIdle then s.updStep_ p (fun t => { t with target := t.pos, stored := none })
    else if stpMoving ≤ st ∧ st ≤ stpHoming then s.updStep_ p (fun t => { t with stopping := true, stored := none })
    else s

/-- HOME (R258). -/
def State.stpHomeNow (s : State) (p : Nat) : State :=
  let st := s.stpSt p
  if st = 0 ∨ st = stpHoming ∨ st = stpShorted ∨ s.stpDc p then s else
  let x := s.rd (Reg.stpStat p)
  let s := s.updStep_ p (fun t => { t with
    home := .approach, homeStart := t.pos, stallRun := 0, stopping := false, hard := false, braking := false, passing := false,
    turnFrom := none, homedBefore := bit x 5, lostBefore := bit x 4 })
  let s := ((s.wrb (Reg.stpStat p) 5 false).wrb (Reg.stpStat p) 7 false).stpLost p true
  (s.setINow p (s.rdf (Reg.stpCurrent p) 31 24)).stpEnter p stpHoming

/-- SET_POS (R258). -/
def State.stpSetPosNow (s : State) (p : Nat) : State :=
  let st := s.stpSt p
  if st = 0 ∨ st = stpHoming ∨ st = stpShorted ∨ s.stpDc p then s else
  let s := s.updStep_ p (fun t => { t with pos := sword (s.rd (Reg.stpSetpos p)) * posU })
  (s.stpLost p false).stpToIdle p

/-- GEAR, UNGEAR, RESUME (R255, R259). -/
def State.stpGearNow (s : State) (p : Nat) : State :=
  if (s.stpSt p = stpIdle ∨ s.stpSt p = stpMoving) ∧ ! s.stpDc p then
    ((s.updStep_ p (fun t => { t with stopping := false, braking := false, passing := false, turnFrom := none })).wrb
      (Reg.stpStat p) 7 false).stpEnter p stpGeared
  else s
def State.stpUngearNow (s : State) (p : Nat) : State :=
  if s.stpSt p = stpGeared then s.updStep_ p (fun t => { t with stopping := true }) else s
def State.stpResumeNow (s : State) (p : Nat) : State :=
  if (s.stpSt p = stpStalled ∨ s.stpSt p = stpHalted) ∧ ! s.stpDc p ∧ ! s.deviceSafe then s.stpToIdle p else s

/-- A command of STP_CMD takes effect: 1 STOP, 2 HOME, 3 SET_POS, 4 GEAR, 5 UNGEAR, 6 RESUME. -/
def State.stpDo (s : State) (p c : Nat) : State := match c with
  | 1 => s.stpStopNow p
  | 2 => s.stpHomeNow p
  | 3 => s.stpSetPosNow p
  | 4 => s.stpGearNow p
  | 5 => s.stpUngearNow p
  | 6 => s.stpResumeNow p
  | _ => s

/-- A write of STP_CMD: STOP, HOME, SET_POS and UNGEAR wait for the bound channel's mark to end (R260). -/
def State.stpCmdWrite (s : State) (p : Nat) (v : Word) : State :=
  let c := fld v 2 0
  if ! s.stpOn p then s
  else if s.stpMarking p && [1, 2, 3, 5].contains c then s.updStep_ p (fun t => { t with held := t.held ++ [c] })
  else s.stpDo p c

/-- A command row of a stepper port. -/
def stpCmdRow (b : Bus) (p c : Nat) (s : State) : Out :=
  let v : Word := BitVec.ofNat 32 c
  .next (busWrite b (stpPage p) 0x9C v (fun s => s.stpCmdWrite p v) s)

/-- STEPPER_STOP (R259). -/
def execStepperStop (b : Bus) (p : Fin 16) (s : State) : Out := stpCmdRow b p.val 1 s
/-- STEPPER_HOME (R258). -/
def execStepperHome (b : Bus) (p : Fin 16) (s : State) : Out := stpCmdRow b p.val 2 s
/-- STEPPER_SET_POS (R258). -/
def execStepperSetPos (b : Bus) (p : Fin 16) (s : State) : Out := stpCmdRow b p.val 3 s
/-- STEPPER_GEAR (R255). -/
def execStepperGear (b : Bus) (p : Fin 16) (s : State) : Out := stpCmdRow b p.val 4 s
/-- STEPPER_UNGEAR (R255). -/
def execStepperUngear (b : Bus) (p : Fin 16) (s : State) : Out := stpCmdRow b p.val 5 s
/-- STEPPER_RESUME (R259). -/
def execStepperResume (b : Bus) (p : Fin 16) (s : State) : Out := stpCmdRow b p.val 6 s

/-- The conditions on enabling a stepper port page (R261). -/
def State.stpEnableOk (s : State) (p : Nat) : Bool :=
  let ms (k : Nat) : Nat := s.rdf (Reg.stpMs p k) 23 0
  let toff := s.rdf (Reg.stpChop p) 10 0
  s.mbOn (s.stpBus p) && s.rd (Reg.stpDecelMax p) != 0 && s.iMax p != 0 && decide (s.iMin p ≤ s.iMax p) &&
    decide (s.rdf (Reg.stpCurrent p) 23 16 ≤ s.iMax p) && decide (50 ≤ toff) && decide (toff ≤ 2000) &&
    decide (s.rdf (Reg.stpLoadCfg p) 7 0 < s.rdf (Reg.stpLoadCfg p) 15 8) &&
    (List.range 7).all (fun k => ms (k + 1) == 0 || (ms k != 0 && decide (ms k < ms (k + 1))))

/-- A stepper port page is enabled (R261) or disabled: its outputs low, its loops dropped (R238, R244). -/
def State.stpEnabled (s : State) (p : Nat) : State :=
  let s := s.setStep_ p { StepperState.reset with
    chopA := { ChopState.reset with driving := true, onAt := s.now }, chopB := { ChopState.reset with driving := true, onAt := s.now } }
  let s := ((s.wr (Reg.stpStat p) 0).wrb Reg.motStat p true).stpLost p true
  let s := s.stpToIdle p
  (s.setINow p (s.iMoving p)).stpPageState p
def State.stpDisabled (s : State) (p : Nat) : State :=
  let s := s.setStep_ p StepperState.reset
  let s := ((s.wr (Reg.stpStat p) 0).wrb Reg.motStat p false).stpLost p false
  ((s.wrb Reg.motStalled p false).wrb Reg.motShorted p false).loopsCheck

/-! ### BLDC ports (R262 to R265) -/

/-- Measured speed, erpm, of a mean sector time (R262). -/
def meanOf (l : List Nat) : Nat := if l.isEmpty then 0 else l.sum / l.length
def erpmOf (t : Nat) : Nat := if t = 0 then 0 else satN 65535 (10 * secT / t)

/-- The curve's input X (R265): none where the selected die sensor is broken. -/
def State.curveX (s : State) (k : Nat) : Option Int :=
  let i := s.rdf (Reg.blCfg k) 11 5
  match s.rdf (Reg.blCfg k) 4 3 with
  | 0 => some (s.rds (Reg.blInReg k) 15 0)
  | 1 => some (if i < 80 then (s.rdf (Reg.adcCvRes (i / 16) (i % 16)) 11 0 : Nat) else 0)
  | _ => if i < 12 ∧ s.rdb (Reg.thmDie i) 16 then some (s.rds (Reg.thmDie i) 15 0) else none
def State.curvePt (s : State) (k i : Nat) : Int × Nat := (s.rds (Reg.blCurve k i) 15 0, s.rdf (Reg.blCurve k i) 31 16)

/-- The curve's speed (R265): 16 points interpolated, clamped at the ends. -/
def State.curveSpeed (s : State) (k : Nat) : Nat :=
  match s.curveX k with
  | none => (s.curvePt k 15).2
  | some x =>
    match (List.range 16).find? (fun i => decide (x < (s.curvePt k i).1)) with
    | none => (s.curvePt k 15).2
    | some 0 => (s.curvePt k 0).2
    | some (i + 1) =>
      let (x0, y0) := s.curvePt k i
      let (x1, y1) := s.curvePt k (i + 1)
      (y0 + fdivI (((y1 : Int) - y0) * (x - x0)) (x1 - x0).toNat).toNat

/-- The speed command in use (R265). -/
def State.blCommand (s : State) (k : Nat) : Nat :=
  let raw := match leastWhere 16 (fun a => s.outTgt (32 + a) == 3 && s.outIdx (32 + a) == k && s.loopSt (32 + a) == 1) with
    | some a => (clampI 0 65535 (s.loop (32 + a)).applied).toNat
    | none => if s.rdb (Reg.blCfg k) 2 then s.curveSpeed k else s.rdf (Reg.blSpeedReg k) 15 0
  if (s.bldc k).on then Nat.max raw (s.rdf (Reg.blSpeeds k) 31 16) else raw

/-- BL_STAT and BL_DRIVE as the drive runs; REGEN (R268). -/
def State.blShow (s : State) (k : Nat) : State :=
  let b := s.bldc k
  let v := erpmOf (meanOf b.times)
  let cmd := s.blCommand k
  let s := ((s.wrf (Reg.blStat k) 31 16 v).wrb (Reg.blStat k) 8 (! b.fwd)).wrf (Reg.blDrive k) 15 0 cmd
  let was := s.rdb (Reg.blStat k) 5
  let regen := s.blSt k == 5 && decide (cmd * 102 < v * 100)
  let s := s.wrb (Reg.blStat k) 5 regen
  if regen && ! was then s.busCheck (s.blBus k) else s

/-- The port starts at SENSE (R264); attempts counted. -/
def State.blStart (s : State) (k : Nat) : State :=
  let s := (s.blGatesOff k 1).cnt (Reg.blCnt k) 15 0
  s.updBldc k (fun b => { b with on := true, stopping := false })

/-- ON: the port starts unless it runs, is SHORTED or the part is in DEVICE_SAFE. -/
def State.blOnNow (s : State) (k : Nat) : State :=
  if ! s.blOn k then s else
  let b := s.bldc k
  let st := s.blSt k
  if s.deviceSafe || st == 6 then s.setBldc k { b with on := true }
  else if b.on && st != 0 then s
  else s.blStart k
/-- OFF: every gate off, the motor coasts. -/
def State.blOffNow (s : State) (k : Nat) : State :=
  if ! s.blOn k then s else
  let s := s.updBldc k (fun b => { b with on := false, stopping := false })
  if s.blSt k = 6 then s else s.blGatesOff k 0
/-- STOP: braking to below CATCH_MIN, then every gate off. -/
def State.blStopNow (s : State) (k : Nat) : State :=
  if ! s.blOn k then s else
  let s := s.updBldc k (fun b => { b with on := false })
  let st := s.blSt k
  if st = 6 ∨ st = 0 then s
  else if st = 7 then s.blGatesOff k 0
  else (s.blEnter k 2).updBldc k (fun b => { b with stopping := true })

/-- A write of BL_CMD: 1 ON, 2 OFF, 3 STOP. -/
def State.blCmdWrite (s : State) (k : Nat) (v : Word) : State := match fld v 1 0 with
  | 1 => s.blOnNow k
  | 2 => s.blOffNow k
  | 3 => s.blStopNow k
  | _ => s
def blCmdRow (b : Bus) (k c : Nat) (s : State) : Out :=
  let v : Word := BitVec.ofNat 32 c
  .next (busWrite b (blPage k) 0x60 v (fun s => s.blCmdWrite k v) s)

/-- BLDC_ON (R264). -/
def execBldcOn (b : Bus) (k : Fin 4) (s : State) : Out := blCmdRow b k.val 1 s
/-- BLDC_OFF (R264). -/
def execBldcOff (b : Bus) (k : Fin 4) (s : State) : Out := blCmdRow b k.val 2 s
/-- BLDC_STOP (R264). -/
def execBldcStop (b : Bus) (k : Fin 4) (s : State) : Out := blCmdRow b k.val 3 s

/-- The speed curve's switch (R265). -/
def State.bldcCurve (s : State) (k : Nat) : State :=
  if ! s.blOn k || ! s.rdb (Reg.blCfg k) 2 then s else
  let was := s.rdb (Reg.blStat k) 4
  let on := match s.curveX k with
    | none => true
    | some x => if was then decide (s.rds (Reg.blXonoff k) 31 16 < x) else decide (s.rds (Reg.blXonoff k) 15 0 ≤ x)
  let s := if on = was then s else
    let s := (s.wrb (Reg.blStat k) 4 on).irq (blPage k) 2
    if on then s.blOnNow k else s.blOffNow k
  s.blShow k

/-- RUN entered (R264): the integrator preloaded for a catch-spin; after a ramp its value is open, and free. -/
def State.blRun (s : State) (k : Nat) (catch_ : Bool) : State :=
  let b := s.bldc k
  let v := erpmOf (meanOf b.times)
  let max := s.rdf (Reg.blPwm k) 25 16
  let (i, s) := if catch_ then (v * s.rdf (Reg.blLearn k) 15 0 * 256 / 1000, s) else
    let (n, s) := s.drawNat
    (n % (max * 65536 + 1), s)
  let s := (s.blEnter k 5).irq (blPage k) 0
  let s := s.updBldc k (fun c => { c with
    integ := i, commAt := c.lastCross.map (fun t => t + meanOf c.times / 2), learnSum := 0, learnN := 0, learnAt := s.now })
  (s.wrf (Reg.blDrive k) 25 16 (Nat.min max (i / 65536))).blShow k

/-- ALIGN entered: one sector vector at ALIGN_DUTY. -/
def State.blAlign (s : State) (k : Nat) : State :=
  (s.blEnter k 3).wrf (Reg.blDrive k) 25 16 (s.rdf (Reg.blStart k) 7 0 * 1000 / 256)

/-- BLDC_SENSE_END (R264): after 10 ms of SENSE. -/
def execBldcSenseEnd (k : Fin 4) (s : State) : Out :=
  let k := k.val
  let b := s.bldc k
  if ! s.blOn k || s.blSt k != 1 || decide (s.now < b.since + 10 * msT) then .next s else
  let fast := decide (s.rdf (Reg.blSpeeds k) 15 0 < erpmOf (meanOf b.times))
  .next (if fast && b.fwd then s.blRun k true else if fast then s.blEnter k 2 else s.blAlign k)

/-- The braking motor turns slower than CATCH_MIN (R264). -/
def State.brakeOver (s : State) (k : Nat) : State :=
  let b := s.bldc k
  let last := match b.lastCross with
    | some t => Nat.max t b.since
    | none => b.since
  let t := Nat.max (b.times.headD 0) (s.now - last)
  if s.blSt k ≠ 2 ∨ s.rdf (Reg.blSpeeds k) 15 0 * t ≤ 10 * secT then s
  else if b.stopping then s.blGatesOff k 0 else s.blAlign k

/-- The PI controller at a measured sector (R263). -/
def State.blControl (s : State) (k : Nat) : State :=
  let b := s.bldc k
  let v := erpmOf (meanOf b.times)
  let err : Int := (s.blCommand k : Int) - v
  let max : Int := (s.rdf (Reg.blPwm k) 25 16 * 65536 : Nat)
  let i := b.integ + sword (s.rd (Reg.blKi k)) * err
  let u := sword (s.rd (Reg.blKp k)) * err + i
  let c := clampI 0 max u
  let duty := c.toNat / 65536
  let s := s.setBldc k { b with
    integ := if c = u then i else b.integ, learnSum := if v = 0 then b.learnSum else b.learnSum + duty * 256000 / v,
    learnN := if v = 0 then b.learnN else b.learnN + 1 }
  s.wrf (Reg.blDrive k) 25 16 duty

/-- BLDC_ZERO_CROSSING (R262, R264): a crossing is accepted; `fwd` when the sequence runs forward. -/
def execBldcZeroCrossing (k : Fin 4) (fwd : Bool) (s : State) : Out :=
  let k := k.val
  let st := s.blSt k
  if ! s.blOn k || ! [1, 2, 4, 5].contains st then .next s else
  let b := s.bldc k
  let gap := b.lastCross.map (fun t => s.now - t)
  let times := match gap with
    | some g => (g :: b.times).take 6
    | none => b.times
  let b1 : BldcState := { b with times := times, lastCross := some s.now, fwd := fwd }
  let s1 := s.setBldc k b1
  match st with
  | 5 =>
    let s := s1.setBldc k { b1 with commAt := some (s.now + meanOf times / 2) }
    .next ((s.blControl k).blShow k)
  | 4 =>
    let window := match b.commAt with
      | some c => decide (b.sectorAt + (c - b.sectorAt) / 4 ≤ s.now)
      | none => false
    let n := if fwd && window then b.accepted + 1 else 0
    let s := s1.setBldc k { b1 with accepted := n }
    .next (if n ≠ 0 ∧ s.rdf (Reg.blStart k) 31 24 ≤ n then s.blRun k false else s.blShow k)
  | _ => .next ((s1.brakeOver k).blShow k)

/-- When commutation `n` of a ramp falls, ticks from its start (R264): linear to HANDOVER_RPM over RAMP_T, then steady. -/
def rampAt (n ramp rpm : Nat) : Nat :=
  let t := isqrt (20 * n * secT * ramp / Nat.max 1 rpm)
  if t ≤ ramp then t else ramp + (20 * n * secT - rpm * ramp) / (2 * Nat.max 1 rpm)

/-- BLDC_COMMUTATION (R262, R264). -/
def execBldcCommutation (k : Fin 4) (s : State) : Out :=
  let k := k.val
  let b := s.bldc k
  let st := s.blSt k
  if ! s.blOn k || (st != 4 && st != 5) || ! s.due b.commAt then .next s else
  let n := b.forced + 1
  let ramp := s.rdf (Reg.blStart k) 23 16 * 10 * msT
  let next := if st = 4 then some (b.since + rampAt (n + 1) ramp (s.rdf (Reg.blSpeeds k) 31 16)) else none
  .next (s.setBldc k { b with sector := (b.sector + 1) % 6, sectorAt := s.now, commAt := next, forced := n })

/-- BLDC_ALIGN_END (R264): RAMP begins; its duty is open, and free. -/
def execBldcAlignEnd (k : Fin 4) (s : State) : Out :=
  let k := k.val
  let b := s.bldc k
  if ! s.blOn k || s.blSt k != 3 || decide (s.now < b.since + s.rdf (Reg.blStart k) 15 8 * msT) then .next s else
  let (n, s) := s.drawNat
  let s := (s.blEnter k 4).wrf (Reg.blDrive k) 25 16 (n % (s.rdf (Reg.blPwm k) 25 16 + 1))
  let ramp := s.rdf (Reg.blStart k) 23 16 * 10 * msT
  .next (s.updBldc k (fun b => { b with
    times := [], lastCross := none, commAt := some (s.now + rampAt 1 ramp (s.rdf (Reg.blSpeeds k) 31 16)) }))

/-- A start failed, or the back-EMF is lost: every gate off, WAIT_RESTART (R264). -/
def State.blFail (s : State) (k b : Nat) : State :=
  let s := ((s.blGatesOff k 7).cnt (Reg.blCnt k) 31 16).irq (blPage k) 1
  s.soot (blPage k) b

/-- BLDC_START_FAIL (R264). -/
def execBldcStartFail (k : Fin 4) (s : State) : Out :=
  let k := k.val
  let t := (s.bldc k).since + s.rdf (Reg.blStart k) 23 16 * 10 * msT + 100 * msT
  if ! s.blOn k || s.blSt k != 4 || decide (s.now < t) then .next s else .next (s.blFail k 0)

/-- BLDC_BEMF_LOST (R264). -/
def execBldcBemfLost (k : Fin 4) (s : State) : Out :=
  let k := k.val
  let b := s.bldc k
  let t := Nat.max b.since (b.lastCross.getD 0) + 2 * meanOf b.times
  if ! s.blOn k || s.blSt k != 5 || decide (s.now < t) then .next s else .next (s.blFail k 1)

/-- BLDC_RESTART (R264): 1 s in WAIT_RESTART, for as long as the port is commanded on. -/
def execBldcRestart (k : Fin 4) (s : State) : Out :=
  let k := k.val
  let b := s.bldc k
  if ! s.blOn k || s.blSt k != 7 || ! b.on || decide (s.now < b.since + secT) then .next s else .next (s.blStart k)

/-- BLDC_LEARN_UPDATE (R263): every 100 ms in RUN. -/
def execBldcLearnUpdate (k : Fin 4) (s : State) : Out :=
  let k := k.val
  let b := s.bldc k
  if ! s.blOn k || s.blSt k != 5 || decide (s.now < b.learnAt + 100 * msT) then .next s else
  let s := s.setBldc k { b with learnSum := 0, learnN := 0, learnAt := s.now }
  .next (if b.learnN = 0 then s else s.wrf (Reg.blLearn k) 15 0 (satN 0xFFFF (b.learnSum / b.learnN)))

/-- A phase-current reading (R263) and a curve input (R265): analog input `i` has a new code. -/
def State.adcConverted (s : State) (i code : Nat) : State :=
  forN 4 (fun k s =>
    if ! s.blOn k then s else
    let r := Reg.blIsense k
    let zero : Int := (s.rdf r 27 16 : Nat)
    let cur (j : Nat) : Int := (s.rdf (Reg.adcCvRes (j / 16) (j % 16)) 11 0 : Nat) - zero
    let u := s.rdf r 6 0
    let v := s.rdf r 14 8
    let s := if s.blSt k != 5 || (i != u && i != v) then s else
      let a : Int := if i = u then (code : Int) - zero else cur u
      let b : Int := if i = v then (code : Int) - zero else cur v
      let lim := s.rdf (Reg.blIlim k) 11 0
      let isOver := decide (lim < a.natAbs) || decide (lim < b.natAbs) || decide (lim < (a + b).natAbs)
      let per := Nat.max 1 (s.rdf (Reg.blPwm k) 15 0)
      let s := if isOver then s.updBldc k (fun x => { x with limitedTo := (s.now / per + 1) * per }) else s
      if isOver || (s.bldc k).limitedTo ≤ s.now then s.wrb (Reg.blStat k) 6 isOver else s
    if s.rdf (Reg.blCfg k) 4 3 = 1 ∧ s.rdf (Reg.blCfg k) 11 5 = i then s.bldcCurve k else s) s

/-- High- and low-side gates of the phases (R262 to R264, R269): sector n drives phase n/2 toward the next two in turn. -/
def State.blGates (s : State) (k : Nat) : List Bool × List Bool :=
  let b := s.bldc k
  let off := [false, false, false]
  let per := Nat.max 1 (s.rdf (Reg.blPwm k) 15 0)
  let pwm := decide (s.now % per * 1000 < s.rdf (Reg.blDrive k) 25 16 * per)
  let sec := if s.rdb (Reg.blCfg k) 1 then 5 - b.sector % 6 else b.sector % 6
  let hi := [0, 0, 1, 1, 2, 2].getD sec 0
  let lo := [1, 2, 2, 0, 0, 1].getD sec 0
  let one (i : Nat) (v : Bool) : List Bool := (List.range 3).map (fun j => v && j == i)
  if ! s.blOn k then (off, off) else match s.blSt k with
    | 6 => (off, [true, true, true])
    | 2 => (off, [pwm, pwm, pwm])
    | 3 | 4 | 5 => (one hi (pwm && decide (b.limitedTo ≤ s.now)), one lo true)
    | _ => (off, off)

/-- A BLDC port page's enabling (R272). -/
def State.blEnableOk (s : State) (k : Nat) : Bool :=
  s.mbOn (s.blBus k) && s.rdf (Reg.blIlim k) 11 0 != 0 && s.rdf (Reg.blIlim k) 27 16 != 0 &&
    (List.range 15).all (fun i => decide ((s.curvePt k i).1 ≤ (s.curvePt k (i + 1)).1))
def State.blEnabled (s : State) (k : Nat) : State :=
  let s := (s.setBldc k BldcState.reset).wr (Reg.blStat k) 0
  ((s.blGatesOff k 0).wrb Reg.motStat (16 + k) true).bldcCurve k
def State.blDisabled (s : State) (k : Nat) : State :=
  let s := (s.setBldc k BldcState.reset).wr (Reg.blStat k) 0
  ((s.wrb Reg.motStat (16 + k) false).wrb Reg.motShorted (16 + k) false).loopsCheck

/-- A motor bus page's enabling (R272), and what follows it. -/
def State.mbEnableOk (s : State) (u : Nat) : Bool :=
  let o1 := s.rdf (Reg.mbOv1 u) 15 0
  let o2 := s.rdf (Reg.mbOv2 u) 15 0
  let o3 := s.rdf (Reg.mbOv3 u) 15 0
  let on := s.rdf (Reg.mbBrk u) 15 0
  let off := s.rdf (Reg.mbBrk u) 31 16
  decide (o1 < o2) && decide (o2 < o3) && decide (o3 ≤ s.rdf (Reg.mbCfg u) 15 0) &&
    (! s.rdb (Reg.mbCfg u) 16 || (decide (off < on) && decide (on < o1)))
def State.mbEnabled (s : State) (u : Nat) (on : Bool) : State :=
  let s := s.wrb Reg.motStat (20 + u) on
  (s.brakeGate u).drvEnUpdate

/-! ### Held commands and shorting's end (R260, R270) -/

/-- SHORT_HOLD_END (R270): the bus has been below OV1 - OV_HYST for SHORT_HOLD. -/
def execShortHoldEnd (u : Fin 2) (s : State) : Out :=
  let u := u.val
  match (s.mbus u).lowSince with
  | some t =>
    if ! s.mbOn u || ! s.busShorted u || decide (s.now < t + s.rdf (Reg.mbHold u) 15 0 * msT) then .next s else
    let s := forN 16 (fun p s =>
      if s.stpBus p = u ∧ s.stpOn p ∧ s.stpSt p = stpShorted then
        ((s.setINow p (s.rdf (Reg.stpCurrent p) 23 16)).stpLost p true).stpEnter p stpHalted
      else s) s
    let s := forN 4 (fun k s =>
      if s.blBus k = u ∧ s.blOn k ∧ s.blSt k = 6 then
        (if (s.bldc k).on && ! s.deviceSafe then s.blStart k else s.blGatesOff k 0)
      else s) s
    .next (((s.wrb (Reg.mbStat u) 21 false).irq (mbPage u) 3).drvEnUpdate)
  | none => .next s

/-! ### Safe states (R271) -/

/-- CHANNEL_SAFE of channel `n`: bound ports decelerate at DECEL_MAX and hold in IDLE. -/
def State.drivesChannelSafe (s : State) (n : Nat) : State :=
  forN 16 (fun p s =>
    if s.stpCh p ≠ some n ∨ ! s.stpOn p ∨ s.stpDc p then s
    else if stpMoving ≤ s.stpSt p ∧ s.stpSt p ≤ stpHoming then
      s.updStep_ p (fun t => { t with stopping := true, hard := true, stored := none })
    else s) s

/-- DEVICE_SAFE entered: on a bus with a SHORTED port every port goes to active short; elsewhere the bridges go off. -/
def State.drivesDeviceSafe (s : State) : State :=
  let s := forN 2 (fun u s => if s.mbOn u && s.busShorted u then s.busShort u true else s) s
  let s := forN 16 (fun p s =>
    if ! s.stpOn p then s
    else if s.stpSt p = stpShorted then s.stpPageState p
    else ((s.stpHaltMotion p).stpLost p true).stpEnter p stpHalted) s
  let s := forN 4 (fun k s => if ! s.blOn k || s.blSt k == 6 then s else s.blGatesOff k 0) s
  s.drvEnUpdate.loopsCheck

/-- DEVICE_SAFE left: steppers in HALTED, BLDC ports in WAIT_RESTART. -/
def State.drivesSafeLeft (s : State) : State :=
  let s := forN 16 (fun p s => if s.stpOn p then s.stpPageState p else s) s
  let s := forN 4 (fun k s => if s.blOn k && s.blSt k != 6 then s.blGatesOff k 7 else s) s
  s.drvEnUpdate

/-- What time brings on the drives: braking motors that have slowed (R264). -/
def State.drivesTick (s : State) : State := forL s.drives.bldcs (fun (e : Nat × BldcState) s => if s.blSt e.1 = 2 then s.brakeOver e.1 else s) s

/-- Whether a plain write at an offset of a drive page is taken (R272): RWL fields only while ENABLE is 0. -/
def State.drvWriteOk (s : State) (p : Page) (off : Nat) : Bool := ! (isRwl (pageBase p + off) && s.enabled p)

end Sys2Proof.Machine
end

