-- ==== Sys2Proof/Machine/Clock.lean ====
section
/-! DEFINITION. The passing of time (R12, R352, R447, R453). -/
namespace Sys2Proof.Machine

/-- The reference cycle count (R447): one for each 16 cycles of SYN0, while PD4 is on. -/
def State.refTick (s : State) : State :=
  let p := s.clk.refPhase + 1
  if p < 16 then { s with clk := { s.clk with refPhase := p } }
  else
    let s := { s with clk := { s.clk with refPhase := 0 } }
    if s.domOn 4 then s.wr Reg.clkRefcnt (s.rd Reg.clkRefcnt + 1) else s

/-- What a second adds to the wear counters (R500): the part's seconds with PD4 on, and the seconds each BLDC motor
runs. -/
def State.wearSecond (s : State) : State :=
  if ! s.domOn 4 then s else
  let s := s.wearAdd 69 1
  forN 4 (fun k s => if s.rdf (Reg.blStat k) 3 0 == 5 then s.wearAdd (64 + k) 1 else s) s

/-- At a second's end with no snapshot to take, Banking's counts of the second start again (R499). -/
def State.teleSecond (s : State) : State :=
  if s.banking 8 && s.rdb Reg.bkgTeleCfg 4 then s
  else { s with bkg := { s.bkg with ddrCe := 0, srmCe := 0, notOk := [], teleSec := s.now / secT } }

/-- One cycle of SYN0: the TSC accumulator advances by 1 + TIM_RATE x 2^-32 counts (R352), in holdover by the holdover
rate, and, while the backup oscillator stands in, by that times CLK_BKP_RATIO (R453).  In bypass a reference cycle
advances it 16 times that, which 16 of these steps are.  An accepted date step takes effect in it (R370), and thermal lines end (R165), and
laser gates change (R200), and a braking motor slows (R264).  DESIGN CHOICE
(log entry 3): it is what an empty queue's step does. -/
def State.tick (s : State) : State :=
  let base := ((2 ^ 32 : Int) + s.tscRate).toNat
  let adv := if s.domOn 4 && s.rdb Reg.clkStat 9 then base * s.rdn Reg.clkBkpRatio / 2 ^ 24 else base
  let t := (s.tim.tscAcc + adv) % 2 ^ 96
  let second := decide (s.tim.tscAcc / 2 ^ 32 / secT < t / 2 ^ 32 / secT)
  let s := { s with tim := { s.tim with tscAcc := t } }.refTick.applyAccept.linesOver.beamsTick.drivesTick
  if second then s.wearSecond.teleSecond else s

end Sys2Proof.Machine
end

