-- ==== Sys2Proof/Machine/Link.lean ====
section
/-! DEFINITION. The Agjor Link: uplink frames judged, training, link faults (spec/10, R278 to R294). -/
namespace Sys2Proof.Machine

/-! ### An uplink frame (R283, R284) -/

/-- Bits `o` to `o + w - 1` in transmission order. -/
def upField (u : BitVec 160) (o w : Nat) : Nat := u.toNat / 2 ^ (160 - o - w) % 2 ^ w

/-- Good but for its time and SEQ: SYNC, CRC, POS_INVALID 0. -/
def upFormOk (u : BitVec 160) : Bool :=
  upField u 0 16 == 0x2BD4 && (crc16 (beBytes 16 (upField u 16 128))).toNat == upField u 144 16

/-- STATUS and its bits. -/
def upStatus (u : BitVec 160) : Nat := upField u 104 24
def upBit (u : BitVec 160) (i : Nat) : Bool := (upStatus u).testBit i

/-- The opening tick of channel `n`'s present frame. -/
def State.frameOpen (s : State) (n : Nat) : Option Nat :=
  match tabGet 0 s.loops.frames (s.loopX n / 8) with
  | 0 => none
  | f + 1 => some f

/-- A frame of the link waits to be judged. -/
def State.uplinkDue (s : State) (n : Nat) : Bool := s.linkOn n && (s.frameOpen n).isSome && ! (s.lnk n).judged

/-- The gate of channel `n` was on in the present frame. -/
def State.gateInFrame (s : State) (n : Nat) : Bool := (s.lnk n).gateNow || (s.las n).gate

/-! ### Faults (R290, R292) -/

/-- LINK_FAULT (R290): the second path cuts the gate, the bound loops drop, training starts. -/
def State.linkFault (s : State) (n : Nat) : State :=
  let s := (s.cut n 5).cnt (Reg.lkCntFault n) 15 0
  let s := s.trainStart n
  (s.soot (chPage n 5) 0).loopsCheck

/-- One frame of a link that is UP was bad or missing (R235, R290, R292). -/
def State.upBad (s : State) (n : Nat) (missing : Bool) : State :=
  let s := ((s.feWatch n false none).feWatch n true none).updLas n (fun l => { l with settledFrames := 0 })
  if (s.lnk n).lastBad then s.linkFault n else
  let s := s.updLnk n (fun k => { k with lastBad := true })
  let s := if missing then s.cnt (Reg.lkCntBad n) 31 16 else s.cnt (Reg.lkCntBad n) 15 0
  let s := s.soot (chPage n 5) 2
  if s.gateInFrame n then s.condMarking n 7 else s

/-- A frame judged during the tap search (R288): a tap passes when every one of its frames is good. -/
def State.tapFrame (s : State) (n : Nat) (good : Bool) : State :=
  let k := s.lnk n
  if ! k.searching || 64 ≤ k.tap then s else
  let ok := k.tapGood && good
  if k.frames + 1 < 2 ^ s.rdf (Reg.lkCfg n) 11 8 then s.setLnk n { k with frames := k.frames + 1, tapGood := ok }
  else s.setLnk n { k with
    frames := 0, tapGood := true, tap := k.tap + 1, tapMap := if ok then k.tapMap ||| BitVec.ofNat 64 (2 ^ k.tap) else k.tapMap }

/-- What a good frame reports (R283, R292, R293). -/
def State.upReport (s : State) (n : Nat) (u : BitVec 160) : State :=
  let st := upStatus u
  let was := s.rdf (Reg.lkModStatus n) 23 0
  let s := s.wr (Reg.lkModStatus n) (BitVec.ofNat 32 st)
  let s := s.wr (Reg.lkModTemp n) (BitVec.ofNat 32 (upField u 128 16))
  let s := s.wr (Reg.lkModCur n) (BitVec.ofNat 32 (upField u 72 16 + upField u 88 16 * 65536))
  let s := (s.wrb (Reg.lkStat n) 3 (upBit u 0)).wrb (Reg.lkStat n) 2 true
  let s := if was = st then s else s.irq (chPage n 5) 3
  let fault := (upBit u 1 && ! was.testBit 1) || (upBit u 2 && ! was.testBit 2)
  let s := if fault then s.soot (chPage n 5) 3 else s
  let c := if upBit u 3 then (s.las n).overtempFrames + 1 else 0
  let s := s.updLas n (fun l => { l with overtempFrames := satN 5 c })
  if c = 4 then s.soot (chPage n 3) 8 else s

/-- A galvo drift check of channel `n` averages the errors of 256 frames from 1 ms on (R498). -/
def State.driftFrame (s : State) (n : Nat) (ex ey : Int) : State :=
  match tabGet none s.bkg.galvo n with
  | none => s
  | some g =>
    if s.now < g.startAt + msT ∨ 256 ≤ g.frames then s
    else { s with bkg := { s.bkg with galvo := tabPut none s.bkg.galvo n (some ⟨g.startAt, g.frames + 1, g.sumX + ex, g.sumY + ey⟩) } }

/-- A good frame of a link that is UP gives its positions to the loops and to Fireguard (R215, R234, R292). -/
def State.upGood (s : State) (n : Nat) (u : BitVec 160) : State :=
  let s := s.updLnk n (fun k => { k with lastBad := false })
  let x := signed 24 (upField u 24 24)
  let y := signed 24 (upField u 48 24)
  let s := (s.updLoop (s.loopX n) (fun l => { l with meas := some x })).updLoop (s.loopY n) (fun l => { l with meas := some y })
  let s := if upBit u 4 && (s.lnk n).gatePrev then s.condMarking n 7 else s
  let s := (s.feWatch n false (some x)).feWatch n true (some y)
  let s := s.settleWatch n ((s.loop (s.loopX n)).ref - x) ((s.loop (s.loopY n)).ref - y)
  let s := s.driftFrame n ((s.loop (s.loopX n)).ref - x) ((s.loop (s.loopY n)).ref - y)
  let s := s.dwellWatch n (s.frameT (s.loopX n / 8)) x y
  s.loopsCheck

/-- UPLINK_FRAME (R284): the frame that arrived `rtt` ticks after the boundary is judged. -/
def execUplinkFrame (n : Fin 16) (bits : BitVec 160) (rtt : Nat) (s : State) : Out :=
  let n := n.val
  if ! s.uplinkDue n then .next s else
  let s := s.updLnk n (fun k => { k with judged := true })
  let good := upFormOk bits && ! upBit bits 5 && decide (upField bits 16 8 = s.rdf (Reg.lkSeq n) 7 0) && decide (rtt ≤ 600)
  let s := (s.wrf (Reg.lkRtt n) 11 0 (satN 0xFFF rtt)).peak (Reg.lkRtt n) 27 16 (satN 0xFFF rtt)
  let s := s.wrf (Reg.lkSeq n) 15 8 (upField bits 16 8)
  let s := if good then s.upReport n bits else s
  match s.rdf (Reg.lkStat n) 1 0 with
  | 1 => .next (s.tapFrame n good)
  | 2 => .next (if good then s.upGood n bits else s.upBad n false)
  | _ => .next s

/-- UPLINK_MISSING (R284): no frame by 600 ticks after the boundary. -/
def execUplinkMissing (n : Fin 16) (s : State) : Out :=
  let n := n.val
  let late := match s.frameOpen n with
    | some f => decide (f + 600 ≤ s.now)
    | none => false
  if ! s.uplinkDue n || ! late then .next s else
  let s := s.updLnk n (fun k => { k with judged := true })
  match s.rdf (Reg.lkStat n) 1 0 with
  | 1 => .next (s.tapFrame n false)
  | 2 => .next (s.upBad n true)
  | _ => .next s

/-- UCLK_LOSS (R290): no UCLK edge for 100 ns while the link is UP. -/
def execUclkLoss (n : Fin 16) (s : State) : Out :=
  let n := n.val
  if ! s.linkOn n then .next s else
  let s := s.wrb (Reg.lkStat n) 2 false
  .next (if s.rdf (Reg.lkStat n) 1 0 = 2 then s.linkFault n else s)

/-! ### Training (R288, R289) -/

/-- TRAINING_WAIT_END (R288): the tap search begins. -/
def execTrainingWaitEnd (n : Fin 16) (s : State) : Out :=
  let n := n.val
  if s.linkOn n && s.due (s.lnk n).waitTo then
    .next (s.updLnk n (fun k => { k with waitTo := none, searching := true, tap := 0, frames := 0, tapGood := true, tapMap := 0 }))
  else .next s

/-- The longest run of passing taps and its first tap, the lower of equals (R288). -/
def eyeOf (m : BitVec 64) : Nat × Nat :=
  let r := (List.range 64).foldl (fun (a : (Nat × Nat) × (Nat × Nat)) t =>
    let cur := if m.getLsbD t then (if a.2.1 = 0 then (1, t) else (a.2.1 + 1, a.2.2)) else (0, t)
    (if a.1.1 < cur.1 then cur else a.1, cur)) ((0, 0), (0, 0))
  r.1

/-- TRAINING_COMPLETE (R288, R289). -/
def execTrainingComplete (n : Fin 16) (s : State) : Out :=
  let n := n.val
  let k := s.lnk n
  if ! s.linkOn n || ! k.searching || k.tap < 64 then .next s else
  let (len, first) := eyeOf k.tapMap
  let s := (s.wr (Reg.lkEyeMapLo n) (loW k.tapMap.toNat)).wr (Reg.lkEyeMapHi n) (hiW k.tapMap.toNat)
  let s := s.setLnk n { k with searching := false }
  if s.rdf (Reg.lkCfg n) 5 0 ≤ len then
    let s := s.updLnk n (fun k => { k with train := false, lastBad := false })
    let s := (s.wrf (Reg.lkStat n) 13 8 (first + len / 2)).wrf (Reg.lkStat n) 21 16 (satN 63 len)
    .next (s.setLinkSt n 2)
  else
    let s := (s.setLinkSt n 3).cnt (Reg.lkTrainCnt n) 31 16
    .next ((s.irq (chPage n 5) 2).soot (chPage n 5) 1)

/-- TRAINING_RETRY (R289): 100 ms after the failed attempt began. -/
def execTrainingRetry (n : Fin 16) (s : State) : Out :=
  let n := n.val
  let k := s.lnk n
  .next (if s.linkOn n && s.rdf (Reg.lkStat n) 1 0 == 3 && ! k.startDue && s.rdf (Reg.clkSynStat 3) 2 0 == 2 &&
    decide (k.attemptAt + 100 * msT ≤ s.now) then s.trainStart n else s)

/-- RETRAIN (R288): held while a job of the channel is MARKING. -/
def State.retrainNow (s : State) (n : Nat) : State := ((s.wrb (Reg.lkStat n) 4 false).trainStart n).loopsCheck
def State.lkCmdWrite (s : State) (n : Nat) (v : Word) : State :=
  let s := if ! bit v 0 || ! s.linkOn n then s
    else if s.marking n then s.wrb (Reg.lkStat n) 4 true
    else s.retrainNow n
  if bit v 1 then (s.wr (Reg.lkCntBad n) 0).wrf (Reg.lkRtt n) 27 16 0 else s

/-- LINK_RETRAIN (R288). -/
def execLinkRetrain (b : Bus) (n : Fin 16) (v : Word) (s : State) : Out :=
  let v := setBit v 0 true
  .next (busWrite b (chPage n.val 5) 0x44 v (fun s => s.lkCmdWrite n.val v) s)

/-- HELD_RETRAIN_APPLY (R288). -/
def execHeldRetrainApply (n : Fin 16) (s : State) : Out :=
  let n := n.val
  .next (if s.linkOn n && s.rdb (Reg.lkStat n) 4 && ! s.marking n then s.retrainNow n else s)

/-- LINK_CLEAR (R293). -/
def execLinkClear (b : Bus) (n : Fin 16) (v : Word) (s : State) : Out :=
  let v := setBit v 1 true
  .next (busWrite b (chPage n.val 5) 0x44 v (fun s => s.lkCmdWrite n.val v) s)

/-- The link page is enabled (R282, R288) or disabled (R287). -/
def State.linkEnable (s : State) (n : Nat) (on : Bool) : State :=
  let s := s.setLnk n LinkState.reset
  if ! on then ((s.setLinkSt n 0).wr (Reg.lkStat n) 0).loopsCheck
  else if s.isLaser n then (s.wr (Reg.lkStat n) 0).trainStart n
  else s

/-- Whether a plain write of the link page is taken (R293). -/
def State.lkWriteOk (s : State) (n off : Nat) (v : Word) : Bool :=
  off != 0x40 || (! s.enabled (chPage n 5) && fld v 5 0 != 0 && decide (2 ≤ fld v 11 8) && decide (fld v 11 8 ≤ 8))

/-- SYN3 loses lock: a training in progress is given up, its link DOWN; an UP link fails by its frames (R288, R292).  SYN3
locks again: training starts at the next frame boundary. -/
def State.syn3Lost (s : State) : State :=
  forN 16 (fun n s =>
    if s.linkOn n && s.rdf (Reg.lkStat n) 1 0 == 1 then
      (s.updLnk n (fun k => { k with waitTo := none, searching := false })).setLinkSt n 3
    else s) s
def State.syn3Back (s : State) : State :=
  forN 16 (fun n s =>
    if s.linkOn n && s.rdf (Reg.lkStat n) 1 0 == 3 then s.updLnk n (fun k => { k with startDue := true }) else s) s

end Sys2Proof.Machine
end

