-- ==== Sys2Proof/Machine/Dram.lean ====
section
/-! DEFINITION. Memory: the DRAM controller's ports, errors, refresh, training, remap and repair; on-chip SRAM's errors and
repairs (spec/11, R295 to R322). -/
namespace Sys2Proof.Machine

/-! ### Sizes and the address maps (R295 to R298) -/

/-- DDR_STAT's state codes (R319). -/
def State.ddrSt (s : State) : Nat := s.rdf Reg.ddrStat 2 0
def ddrPageState (st : Nat) : Nat := match st with
  | 0 => 0
  | 1 => 1
  | 6 => 6
  | _ => 3
def State.setDdrSt (s : State) (st : Nat) : State := 
  ((s.wrf Reg.ddrStat 2 0 st).setStat .ddr (ddrPageState st)).wrb (Reg.pgStat .ddr) 0 (st == 2 || st == 3)

/-- Rows of a bank; the installed bytes; DDR_SIZE (R295, R296). -/
def State.dramRows (s : State) : Nat := 32768 * 2 ^ s.rdf Reg.ddrCfg 4 3
def State.dramRanks (s : State) : Nat := 1 + s.rdf Reg.ddrCfg 2 2
def State.dramSize (s : State) : Nat := 2 * s.dramRanks * 2 ^ (29 + s.rdf Reg.ddrCfg 4 3) * 7 / 8 - 114688

/-- Base of the DRAM space, and the offset of an address in it. -/
def dramBase : Nat := 0x800000000
def State.inDram (s : State) (a n : Nat) : Bool := decide (dramBase ≤ a) && decide (a + n ≤ dramBase + s.dramSize)

/-- The row a data address lies in (R298). -/
def State.dramRow (s : State) (a : Nat) : DramRow :=
  let l := (a - dramBase) / 64
  let l' := l / 2
  let r := l' / 224
  let b := match s.rdf Reg.ddrCfg 1 0 with
    | 0 => l' / 28 % 8
    | 2 => (l' / 4 % 8) ^^^ (r % 8) ^^^ (r / 8 % 8)
    | _ => l' / 4 % 8
  ⟨l % 2, r / s.dramRows, b, r % s.dramRows⟩

/-! ### Remap (R311) -/

def State.remapEntry (s : State) (k : Nat) : Option DramRow := tabGet none s.ddr.remap k
def State.remapOf (s : State) (r : DramRow) : Option Nat := leastWhere 64 (fun k => s.remapEntry k == some r)
/-- The least free spare of a channel. -/
def State.spareOf (s : State) (c : Nat) : Option Nat :=
  leastWhere 64 (fun k => k / 32 == c && (s.remapEntry k).isNone && (match s.ddr.copying with
    | some (j, _) => j != k
    | none => true))

/-- DDR_REMAP_STAT (R319). -/
def State.remapShow (s : State) : State :=
  let used (c : Nat) : Nat := (numsWhere 64 (fun k => k / 32 == c && (s.remapEntry k).isSome)).length
  s.wr Reg.ddrRemapStat (BitVec.ofNat 32 (used 0 + used 1 + b2n (used 0 == 32) * 0x80 + b2n (used 1 == 32) * 0x100))
def State.setRemap (s : State) (k : Nat) (r : Option DramRow) : State :=
  { s with ddr := { s.ddr with remap := tabPut none s.ddr.remap k r } }.remapShow

/-- An entry as DDR_REMAP_D shows it, and its reading (R319, R502). -/
def remapWord (r : Option DramRow) : Word := match r with
  | some r => BitVec.ofNat 32 (1 + r.chan * 2 + r.rank * 4 + r.bank * 8 + r.row * 64)
  | none => 0
def remapUnword (w : Word) : Option DramRow :=
  if bit w 0 then some ⟨fld w 1 1, fld w 2 2, fld w 5 3, fld w 22 6⟩ else none

/-- DDR_CMD_RES. -/
def State.ddrRes (s : State) (res cmd : Nat) : State := s.wr Reg.ddrCmdRes (BitVec.ofNat 32 (res + cmd * 16))
def State.ddrDone (s : State) (res cmd : Nat) : State := (s.ddrRes res cmd).irq .ddr 4

/-- The next copy that waits starts, unless a port panics or one runs (R304, R311). -/
def State.copyStart (s : State) : State :=
  if s.ddr.copying.isSome || s.ddr.panic != 0 then s else
  match s.ddr.copyWanted with
  | [] => s
  | (r, cmd) :: rest =>
    let s := { s with ddr := { s.ddr with copyWanted := rest } }
    match s.spareOf r.chan with
    | some k => { s with ddr := { s.ddr with copying := some (k, r, cmd) } }
    | none =>
      let s := s.soot .ddr 5
      if cmd then s.ddrDone 3 2 else s

/-- A row is to be remapped: one already remapped or waiting is not asked for again. -/
def State.remapAsk (s : State) (r : DramRow) (cmd : Bool) : State :=
  let busy := (s.remapOf r).isSome || s.ddr.copyWanted.any (fun e => e.1 == r) || (match s.ddr.copying with
    | some (_, x, _) => x == r
    | none => false)
  if busy then (if cmd then s.ddrDone 3 2 else s) else
  let s := if cmd then s.ddrRes 1 2 else s
  ({ s with ddr := { s.ddr with copyWanted := s.ddr.copyWanted ++ [(r, cmd)] } }).copyStart

/-- REMAP_COPY_DONE (R311): the row is redirected to its spare. -/
def execRemapCopyDone (s : State) : Out :=
  let s := s.copyStart
  match s.ddr.copying with
  | none => .next s
  | some (k, r, cmd) =>
    let s := { s with ddr := { s.ddr with copying := none, rowCe := s.ddr.rowCe.filter (fun e => e.1 != r) } }
    let s := (s.setRemap k (some r)).irq .ddr 3
    let s := s.logPush 2 ((List.range 64).flatMap (fun j => leBytes 4 (remapWord (s.remapEntry j)).toNat))
    let s := if cmd then s.ddrDone 2 2 else s
    .next s.copyStart

/-! ### Errors (R305, R306) -/

/-- An entry of the error log; the newest replaces the oldest of 16 (R306, R319). -/
def State.elogAdd (s : State) (e : ElogEntry) : State :=
  let full := decide (16 ≤ s.ddr.elog.length)
  let log := (if full then s.ddr.elog.drop 1 else s.ddr.elog) ++ [e]
  let s := { s with ddr := { s.ddr with elog := log } }
  let newest := if s.rdf Reg.ddrElogStat 8 4 = 0 then 0 else (s.rdf Reg.ddrElogStat 3 0 + 1) % 16
  let s := (s.wrf Reg.ddrElogStat 3 0 newest).wrf Reg.ddrElogStat 8 4 log.length
  if full then s.cnt Reg.ddrElogStat 31 16 else s

/-- An uncorrectable DRAM error at an address. -/
def State.dramUe (s : State) (a port : Nat) (part : Bool) (syn : BitVec 8) : State :=
  let s := s.elogAdd ⟨BitVec.ofNat 40 a, BitVec.ofNat 3 port, part, syn, s.stamp⟩
  ((s.cnt Reg.ddrUeCnt 15 0).irq .ddr 0).soot .ddr 0

/-- A count kept per key. -/
def countOf {α : Type} [DecidableEq α] (l : List (α × Nat)) (k : α) : Nat := ((l.find? (fun e => e.1 == k)).map (fun e => e.2)).getD 0
def countPut {α : Type} [DecidableEq α] (l : List (α × Nat)) (k : α) (n : Nat) : List (α × Nat) := (k, n) :: l.filter (fun e => e.1 != k)

/-- A correctable DRAM error at an address: counted, against its row too, and its write-back scheduled. -/
def State.dramCe (s : State) (a : Nat) : State :=
  let r := s.dramRow a
  let s := { s with bkg := { s.bkg with ddrCe := s.bkg.ddrCe + 1 } }
  let s := (s.cnt Reg.ddrCeCnt 15 0).soot .ddr 1
  let n := countOf s.ddr.rowCe r + 1
  let s := { s with ddr := { s.ddr with
    writebacks := s.ddr.writebacks ++ [⟨a / 64, false⟩], rowCe := countPut s.ddr.rowCe r n } }
  if s.rdb Reg.ddrRemapCfg 0 && s.rdf Reg.ddrRemapCfg 15 8 != 0 && decide (s.rdf Reg.ddrRemapCfg 15 8 ≤ n) then s.remapAsk r false else s

/-- CORRECTED_WRITEBACK (R302, R305): dropped when the line was written since. -/
def execCorrectedWriteback (s : State) : Out :=
  match s.ddr.writebacks with
  | [] => .next s
  | _ :: rest => .next (if s.domOn 5 then { s with ddr := { s.ddr with writebacks := rest } } else s)

/-! ### Ports (R299 to R304) -/

/-- A port's PRIO, above 3 while it panics; its turn (R301, R303). -/
def State.portPanics (s : State) (p : Nat) : Bool := (p == 2 && s.rdb Reg.ddrStat 4) || (p == 3 && s.rdb Reg.ddrStat 5)
def State.portRank (s : State) (p : Nat) : Nat := if s.portPanics p then 4 else s.rdf Reg.ddrPortPrio (4 * p + 1) (4 * p)
def State.portTurn (s : State) (p : Nat) : Nat := s.rdf Reg.ddrPortPrio (4 * p + 3) (4 * p + 2) + 1

/-- A transaction that the controller can issue now: its row is not being copied, nor its channel repaired. -/
def State.reqFree (s : State) (q : DramReq) : Bool :=
  let r := s.dramRow q.addr.toNat
  (match s.ddr.copying with
    | some (_, x, _) => x != r
    | none => true) &&
    (match s.ddr.ppr with
    | some k => k / 32 != r.chan
    | none => true) && ! (q.port.val == 7 && s.ddr.panic != 0)

/-- The port served (R301): of those with the highest rank, the one whose turn it is, or the next in ascending order. -/
def State.portPick (s : State) (ports : List Nat) : Option Nat :=
  let best := ports.foldl (fun m p => Nat.max m (s.portRank p)) 0
  let l := ports.filter (fun p => s.portRank p == best)
  if l.contains s.ddr.lastPort && s.ddr.served < s.portTurn s.ddr.lastPort then some s.ddr.lastPort
  else ((List.range 8).map (fun i => (s.ddr.lastPort + 1 + i) % 8)).find? (fun p => l.contains p)

/-- DDR_OUTSTD0 and 1: transactions at each port, 64 at most (R300). -/
def State.outstanding (s : State) (ready : List DramReq) : State :=
  forN 8 (fun p s =>
    let n := satN 64 (ready.filter (fun q => q.port.val == p)).length
    s.wrf (if p < 4 then Reg.ddrOutstd0 else Reg.ddrOutstd1) (8 * (p % 4) + 6) (8 * (p % 4)) n) s

/-- One transaction at the DRAM (R299, R305, R306). -/
def State.dramIssue (s : State) (q : DramReq) (ecc : DramEcc) : State :=
  let a := q.addr.toNat
  let port := q.port.val
  let len := if q.data.isEmpty then q.len else q.data.length
  if ! s.inDram a len then (s.cnt Reg.ddrUeCnt 31 16).respond true 0
  else if q.data.isEmpty then
    match ecc with
    | .clean => s.respond false (BitVec.ofNat 32 (s.rdLe a (Nat.min 4 len)))
    | .corrected _ => (s.dramCe a).respond false (BitVec.ofNat 32 (s.rdLe a (Nat.min 4 len)))
    | .uncorrectable syn => (s.dramUe a port false syn).respond true 0
  else
    let part := a % 8 != 0 || len % 8 != 0
    let take (s : State) : State :=
      let s := { s with ddr := { s.ddr with
        writebacks := s.ddr.writebacks.map (fun (w : Writeback) => if a / 64 ≤ w.line ∧ w.line ≤ (a + len - 1) / 64 then { w with written := true } else w) } }
      (s.wrMem a q.data).respond false 0
    if ! part then take s
    else match ecc with
      | .clean => take s
      | .corrected _ => take (s.dramCe a)
      | .uncorrectable syn => (s.dramUe a port true syn).respond true 0

/-- DRAM_TRANSACTION (R300 to R302): of the transactions ready, oldest first, one is arbitrated and issued; `ecc` is what its
reading found. -/
def execDramTransaction (ready : List DramReq) (ecc : DramEcc) (s : State) : Out :=
  let st := s.ddrSt
  if ! s.domOn 5 || ! [2, 3, 5].contains st || s.ddr.hold then .next s else
  match s.portPick ((ready.filter s.reqFree).map (fun q => q.port.val)) with
  | none => .next (s.outstanding ready)
  | some p =>
    match ready.find? (fun q => q.port.val == p && s.reqFree q) with
    | none => .next s
    | some q =>
      let s := { s with ddr := { s.ddr with lastPort := p, served := if p = s.ddr.lastPort then s.ddr.served + 1 else 1 } }
      .next ((s.outstanding (ready.erase q)).dramIssue q ecc)

/-- DRAM_SCRUB_READ (R313, R497): Banking's activity 0 reads the next line; a pass begins PERIOD hours after the last began. -/
def execDramScrubRead (ecc : DramEcc) (s : State) : Out :=
  let pos := s.rdn Reg.ddrScrubPos
  let period := s.rdf Reg.ddrScrubCfg 7 0 * 3600 * secT
  let early := match s.ddr.scrubAt with
    | some t => pos == 0 && decide (s.now < t + period)
    | none => false
  if ! s.banking 0 || ! s.domOn 5 || ! s.rdb Reg.ddrScrubCfg 8 || s.ddr.panic != 0 || ! [2, 3].contains s.ddrSt || s.ddr.hold || early
  then .next s else
  let s := if pos = 0 then { s with ddr := { s.ddr with scrubAt := some s.now } } else s
  let a := dramBase + 64 * pos
  let s := match ecc with
    | .clean => s
    | .corrected _ => s.dramCe a
    | .uncorrectable syn => s.dramUe a 7 false syn
  .next (if s.dramSize / 64 ≤ pos + 1 then s.wr Reg.ddrScrubPos 0 |>.cntW Reg.ddrScrubPasses else s.wr Reg.ddrScrubPos (BitVec.ofNat 32 (pos + 1)))

/-! ### Refresh (R307) -/

/-- DRAM_REFRESH (R307): every tREFIpb, TREFI_PB by the multiplier in force, on each channel; the banks in turn. -/
def execDramRefresh (c : Fin 2) (s : State) : Out :=
  let t := tabGet 0 s.ddr.refAt c.val
  let ivl := s.rdf Reg.ddrRefCfg 15 0 * s.ddr.mult / 10
  if ! s.domOn 5 || ! [2, 3, 5].contains s.ddrSt || (t != 0 && decide (s.now + 1 < t + ivl)) then .next s else
  .next { s with ddr := { s.ddr with
    refAt := tabPut 0 s.ddr.refAt c.val (s.now + 1), refBank := tabPut 0 s.ddr.refBank c.val ((tabGet 0 s.ddr.refBank c.val + 1) % 8) } }

/-- The multiplier of an MR4 refresh-rate code, in quarters (JESD209-4; PRESUMED, log entry 41). -/
def mr4Mult (r : Nat) : Nat := match r with
  | 0 | 1 => 16
  | 2 => 8
  | 3 => 4
  | 4 => 2
  | _ => 1

/-- MR4_POLL (R307): the refresh rates read of both channels. -/
def execMr4Poll (rates : Vector (BitVec 3) 2) (s : State) : Out :=
  if ! s.domOn 5 || ! [2, 3].contains s.ddrSt || decide (s.now < s.ddr.mr4At + s.rdf Reg.ddrRefCfg 23 16 * msT) then .next s else
  let a := (rates.getD 0 0).toNat
  let b := (rates.getD 1 0).toNat
  let s := { s with ddr := { s.ddr with
    mr4At := s.now, mult := Nat.min (mr4Mult a) (mr4Mult b), derated := decide (6 ≤ a) || decide (6 ≤ b) } }
  let s := (s.wrf Reg.ddrStat 10 8 a).wrf Reg.ddrStat 14 12 b
  .next (if a = 7 ∨ b = 7 then s.soot .ddr 4 else s)

/-! ### SRAM repairs (R314 to R316, R321) -/

/-- The macros the part has. -/
def macroOk (m : Nat) : Bool := decide (m < 151) && m != 130 && m != 131

/-- SRM_STAT and SRM_REPAIR_CNT. -/
def State.srmShow (s : State) : State :=
  if ! s.domOn 4 then s else
  let n (p : RepairEntry → Bool) : Nat := (s.srm.repairs.filter p).length
  let s := s.wr Reg.srmStat (BitVec.ofNat 32 (satN 511 (n (fun e => ! e.column && ! e.retired)) +
    satN 127 (n (fun e => e.column)) * 512 + satN 255 (n (fun e => e.retired)) * 65536))
  s.wr Reg.srmRepairCnt (BitVec.ofNat 32 (satN 511 s.srm.repairs.length))

/-- A list entry as SRM_REPAIR_D shows it. -/
def repairWord (e : RepairEntry) : Word :=
  BitVec.ofNat 32 (e.macroNo % 256 + e.pos % 1024 * 256 + b2n e.column * 2 ^ 18 + b2n e.retired * 2 ^ 19 + 2 ^ 31)
def repairOf (w : Word) : RepairEntry := ⟨fld w 7 0, fld w 17 8, bit w 18, bit w 19⟩

/-- An entry joins the repair list. -/
def State.repairAdd (s : State) (e : RepairEntry) : State :=
  if s.srm.repairs.contains e then s else { s with srm := { s.srm with repairs := s.srm.repairs ++ [e] } }.srmShow

/-- The type-1 log entry (R501): the repairs, then the flash sectors retired. -/
def State.repairLog (s : State) : State :=
  s.logPush 1 (leBytes 2 s.srm.repairs.length ++ s.srm.repairs.flatMap (fun e => leBytes 4 (repairWord e).toNat) ++
    s.bkg.retired.map (fun k => BitVec.ofNat 8 k))

/-- A row of a macro of system SRAM is retired: the queues on it are to move (R316, R341). -/
def State.queuesOnRow (s : State) (m row : Nat) : State :=
  if 64 ≤ m then s else s.qRetire (0x10000 * m + 64 * row) (0x10000 * m + 64 * row + 64)

/-- A row that needs repair: into a spare row, or retired once both are used (R316). -/
def State.rowRepair (s : State) (m row : Nat) : State :=
  let used := (s.srm.repairs.filter (fun e => e.macroNo == m && ! e.column && ! e.retired)).length
  if s.srm.repairs.any (fun e => e.macroNo == m && e.pos == row && ! e.column) then s
  else if used < 2 then (((s.repairAdd ⟨m, row, false, false⟩).soot .srm 2).irq .srm 1).repairLog
  else ((((s.repairAdd ⟨m, row, false, true⟩).soot .srm 3).irq .srm 2).repairLog).queuesOnRow m row

/-- A column into the macro's spare column. -/
def State.colRepair (s : State) (m pos : Nat) : State :=
  if s.srm.repairs.any (fun e => e.macroNo == m && e.column) then s
  else (((s.repairAdd ⟨m, pos, true, false⟩).soot .srm 2).irq .srm 1).repairLog

/-- A correctable error in row `row` of macro `m` at bit `pos` (R315, R316). -/
def State.sramCorrected (s : State) (m row pos : Nat) : State :=
  if ! s.domOn 4 then s else
  let s := s.sramCe
  let n := countOf s.srm.rowCe (m, row) + 1
  let was := ((s.srm.colRows.find? (fun e => e.1 == (m, pos))).map (fun e => e.2)).getD []
  let rows := if was.contains row then was else row :: was
  let s := { s with srm := { s.srm with
    rowCe := countPut s.srm.rowCe (m, row) n,
    colRows := ((m, pos), rows) :: s.srm.colRows.filter (fun e => e.1 != (m, pos)) } }
  let need := s.rdf Reg.srmRepairCfg 7 0
  if ! s.rdb Reg.srmRepairCfg 8 || need = 0 then s else
  let s := if need ≤ rows.length then s.colRepair m pos else s
  if need ≤ n then s.rowRepair m row else s

/-- An uncorrectable error met by SRAM scrub or a master, logged (R315, R321, R322), and its region's source;
a sequencer's own comes with its failure (R119). -/
def State.sramUe (s : State) (m row master : Nat) : State :=
  if ! s.domOn 4 then s else
  let a := if m < 64 then 0x10000000 + 0x10000 * m + 64 * row else if 132 ≤ m ∧ m < 141 then 0x20000000 + 0x8000 * (m - 132) + 64 * row
    else 64 * row
  let s := (s.cnt Reg.srmUeCnt 15 0).wr Reg.srmUeAddr (BitVec.ofNat 32 a)
  let s := s.wr Reg.srmUeInfo (BitVec.ofNat 32 (m + master % 256 * 4096 + 2 ^ 31))
  let s := (s.wr64 Reg.srmUeStampLo Reg.srmUeStampHi s.now).irq .srm 0
  if m < 64 then s.soot .srm 0
  else if 132 ≤ m ∧ m < 141 then s.soot .srm 4
  else if 141 ≤ m then s.srcEvent 91
  else
    let n := (m - 64) / 4
    match (m - 64) % 4 with
    | 3 => s.srcEvent (96 + 8 * n + 1)
    | 2 => s.srcEvent (96 + 8 * n)
    | _ => s

/-- SRM_REPAIR_LOAD (R316, R321): only while the page is unlocked. -/
def State.repairLoad (s : State) (v : Word) : State :=
  let e := repairOf v
  if bit v 31 && macroOk e.macroNo then s.repairAdd e else s
def execSrmRepairLoad (b : Bus) (v : Word) (s : State) : Out :=
  .next (busWrite b .srm 0x5C v (fun s => rwl .srm (fun s => s.repairLoad v) s) s)

/-- SRM_REPAIR_CAPTURE (R321). -/
def execSrmRepairCapture (b : Bus) (v : Word) (s : State) : Out :=
  .next (busWrite b .srm 0x50 v (fun s =>
    (s.plainWrite Reg.srmRepairSel v).wr Reg.srmRepairD (match s.srm.repairs[fld v 8 0]? with
      | some e => repairWord e
      | none => 0)) s)

/-- SRM_CE_CNT_CLEAR (R321). -/
def execSrmCeCntClear (b : Bus) (v : Word) (s : State) : Out :=
  .next (busWrite b .srm 0x44 v (fun s => if bit v 31 then s.wrf Reg.srmCeCnt 15 0 0 else s) s)

/-- The remembered repairs of domain `d` (R502); an entry that names no macro sets RESTORE_FAIL. -/
def State.repairRestore (s : State) (d : Nat) : State :=
  match s.logInForce 1 with
  | none => s
  | some e => forN (leAt e.payload 0 2) (fun i s =>
      let r := repairOf (BitVec.ofNat 32 (leAt e.payload (2 + 4 * i) 4))
      if ! macroOk r.macroNo then (if d = 4 then s.soot .bkg 2 else s)
      else if macroDomain r.macroNo = d ∨ d = 4 ∧ macroDomain r.macroNo = 0 then s.repairAdd r else s) s

/-- Start-up step 7 (R479, R502): the remembered repairs of every powered domain, SRM locked, the other domains on. -/
def State.bootStep7 (s : State) : State :=
  let s := forN 13 (fun d s => if d ≠ 0 ∧ s.domOn d then s.repairRestore d else s) s
  (s.wrb (Reg.pgLock .srm) 0 true).startStep7

/-! ### Training and retraining (R308 to R310, R451, R502) -/

/-- Initial training begins: the DDR page is enabled, or Kindling tries again. -/
def State.ddrTrain (s : State) : State :=
  let s := ({ s with ddr := { s.ddr with trainFrom := s.now, failAt := none } }.setDdrSt 1)
  s.wr64 Reg.ddrSizeLo Reg.ddrSizeHi s.dramSize
def State.ddrDisable (s : State) : State := s.setDdrSt 0

/-- The mean of die sensors 10 and 11 (R309). -/
def State.phyTemp (s : State) : Int := fdivI (s.dieTemp 10 + s.dieTemp 11) 2

/-- The remembered remap table is installed without copying (R502). -/
def State.remapRestore (s : State) : State :=
  match s.logInForce 2 with
  | none => s
  | some e => forN 64 (fun k s =>
      match remapUnword (BitVec.ofNat 32 (leAt e.payload (4 * k) 4)) with
      | none => s
      | some r => if r.rank < s.dramRanks ∧ r.row < s.dramRows ∧ r.chan = k / 32 then s.setRemap k (some r) else s.soot .bkg 2) s

/-- A retraining starts, unless one runs (R309). -/
def State.retrain (s : State) : State :=
  if s.ddrSt ≠ 2 ∨ ! s.domOn 5 then s
  else { s with ddr := { s.ddr with slices := 256, retrainFrom := s.now, retrainOk := [true, true] } }.setDdrSt 3

/-- DDR_TRAINING_DONE (R308): a working setting was found, or none.  The devices' MR25 readings are theirs, and free. -/
def execDdrTrainingDone (ok : Bool) (s : State) : Out :=
  if ! s.domOn 5 || s.ddrSt != 1 then .next s else
  if ! ok then
    let s := { s with ddr := { s.ddr with failAt := some s.now } }
    .next ((s.setDdrSt 6).soot .ddr 2)
  else
    let s := s.wrf Reg.ddrTrainTime 15 0 (satN 0xFFFF ((s.now - s.ddr.trainFrom) / usT))
    let s := { s with ddr := { s.ddr with trainedAt := s.now, trainTemp := s.phyTemp } }.remapRestore
    let (w, s) := s.drawWord
    let s := (s.wr Reg.ddrPprAvail w).setDdrSt 2
    .next (if s.bootAt 6 then s.bootStep7 else s)

/-- DDR_TRAINING_RETRY (R308): 5 s after a failure. -/
def execDdrTrainingRetry (s : State) : Out :=
  match s.ddr.failAt with
  | some t => .next (if s.domOn 5 && s.ddrSt == 6 && decide (t + 5 * secT ≤ s.now) then s.ddrTrain else s)
  | none => .next s

/-- RETRAIN_INTERVAL_EXPIRY (R309, R497). -/
def execRetrainIntervalExpiry (s : State) : Out :=
  .next (if s.banking 7 && s.domOn 5 && s.ddrSt == 2 && decide (s.ddr.trainedAt + s.rdf Reg.ddrRetrainCfg 15 0 * secT ≤ s.now) then s.retrain else s)

/-- DQS_DRIFT_POLL (R309): how far each channel's oscillator lies from its trained value, in taps. -/
def execDqsDriftPoll (taps : Vector (BitVec 8) 2) (s : State) : Out :=
  if ! s.domOn 5 || ! [2, 3].contains s.ddrSt || decide (s.now < s.ddr.driftAt + s.rdf Reg.ddrDriftCfg 15 0 * msT) then .next s else
  let s := { s with ddr := { s.ddr with driftAt := s.now } }
  let lim := s.rdf Reg.ddrRetrainCfg 31 24
  let far := decide (lim < (taps.getD 0 0).toNat) || decide (lim < (taps.getD 1 0).toNat)
  .next (if far && s.banking 7 then s.retrain else s)

/-- The temperature trigger of R309, after each die sensor round. -/
def State.ddrTempCheck (s : State) : State :=
  if s.domOn 5 && s.ddrSt == 2 && s.banking 7 && s.dieGood 10 && s.dieGood 11 &&
    decide (s.rdf Reg.ddrRetrainCfg 23 16 * 10 < (s.phyTemp - s.ddr.trainTemp).natAbs) then s.retrain else s

/-- RETRAIN_SLICE (R304, R309, R310): slices at least 10 us apart, none while a port panics; the last ends the retraining. -/
def execRetrainSlice (c : Fin 2) (found : Bool) (s : State) : Out :=
  let d := s.ddr
  if ! s.domOn 5 || s.ddrSt != 3 || d.slices = 0 || d.panic != 0 || (d.slices < 256 && decide (s.now < d.sliceAt + 10 * usT)) then .next s else
  let s := { s with ddr := { d with slices := d.slices - 1, sliceAt := s.now, retrainOk := listSet d.retrainOk c.val found } }
  if 1 < d.slices then .next s else
  let ok := s.ddr.retrainOk.all (fun b => b)
  let s := { s with ddr := { s.ddr with trainedAt := s.now, trainTemp := s.phyTemp, hold := false } }
  let s := s.wrf Reg.ddrTrainTime 31 16 (satN 0xFFFF ((s.now - d.retrainFrom) / usT))
  let s := ((s.cnt Reg.ddrTrainCnt 15 0).setDdrSt 2).wrb Reg.ddrStat 3 (! ok)
  .next (if ok then s.irq .ddr 1 else ((s.cnt Reg.ddrTrainCnt 31 16).irq .ddr 2).soot .ddr 3)

/-- SYN2 goes to bypass: both channels in self-refresh; it relocks: one retraining before any port is served (R451). -/
def State.syn2Lost (s : State) : State :=
  if s.domOn 5 && (s.ddrSt == 2 || s.ddrSt == 3) then { s with ddr := { s.ddr with slices := 0 } }.setDdrSt 4 else s
def State.syn2Back (s : State) : State :=
  if s.domOn 5 && s.ddrSt == 4 then ({ s with ddr := { s.ddr with hold := true } }.setDdrSt 2).retrain else s

/-- DRAM on entry to a low-power state (R308, R482), and at PD5's power-up: with its settings kept it leaves self-refresh, takes
the remembered remap table and is retrained once; else, in start-up, Kindling enables the page (R479, R489). -/
def State.dramSelfRefresh (s : State) : State := if s.domOn 5 && s.ddrSt != 0 then s.setDdrSt 4 else s
def State.ddrPowerUp (s : State) : State :=
  let on (s : State) : State := s.wrb (Reg.pgCtrl .ddr) 0 true
  if s.pwr.phyKept then
    let s := ((on s).wr64 Reg.ddrSizeLo Reg.ddrSizeHi s.dramSize).setDdrSt 2
    let s := { s with ddr := { s.ddr with hold := true, slices := 0 }, pwr := { s.pwr with phyKept := false } }.remapRestore.retrain
    if s.bootAt 6 then s.bootStep7 else s
  else if s.bootAt 6 then (on s).ddrTrain
  else s

/-! ### DDR_CMD and captures (R311, R312, R318, R319) -/

/-- The target row of DDR_TGT_ADDR. -/
def State.ddrTgt (s : State) : Nat := s.rdn Reg.ddrTgtAddrLo + s.rdf Reg.ddrTgtAddrHi 7 0 * 2 ^ 32

/-- The conditions on a post-package repair (R312). -/
def State.pprOk (s : State) (k : Nat) (r : DramRow) : Bool :=
  let _ := k
  s.rdb Reg.ddrPprAvail (16 * r.chan + 8 * r.rank + r.bank) && (List.range 16).all (fun n =>
    ! s.rdb (Reg.chCtrl n) 0 && ! (s.chan n).jobs.any (fun e => [JobSt.admitted, .composed, .armed, .marking].contains e.2.st))

/-- A write of DDR_CMD. -/
def State.ddrCmdWrite (s : State) (v : Word) : State :=
  let up := s.ddrSt == 2 || s.ddrSt == 3
  let s := if bit v 0 then (if up then (s.ddrRes 2 0).retrain.irq .ddr 4 else s.ddrDone 3 0) else s
  let s := if bit v 1 then ({ s with ddr := { s.ddr with elog := [] } }.wr Reg.ddrElogStat 0).ddrDone 2 1 else s
  let s := if ! bit v 2 then s
    else if up && s.inDram s.ddrTgt 1 then s.remapAsk (s.dramRow s.ddrTgt) true
    else s.ddrDone 3 2
  if ! bit v 3 then s
  else if s.ddrSt != 2 || ! s.inDram s.ddrTgt 1 then s.ddrDone 3 3
  else
    let r := s.dramRow s.ddrTgt
    match s.remapOf r with
    | some k => if s.pprOk k r then ({ s with ddr := { s.ddr with ppr := some k } }.setDdrSt 5).ddrRes 1 3 else s.ddrDone 3 3
    | none => s.ddrDone 3 3

/-- A row of DDR_CMD: its bit is set whatever else the write carries. -/
def ddrCmdRow (b : Bus) (v : Word) (i : Nat) (s : State) : Out :=
  let v := setBit v i true
  .next (busWrite b .ddr 0x90 v (fun s => s.ddrCmdWrite v) s)

/-- DDR_RETRAIN (R309). -/
def execDdrRetrain (b : Bus) (v : Word) (s : State) : Out := ddrCmdRow b v 0 s
/-- ELOG_CLEAR (R319). -/
def execElogClear (b : Bus) (v : Word) (s : State) : Out := ddrCmdRow b v 1 s
/-- DDR_ROW_REMAP (R311). -/
def execDdrRowRemap (b : Bus) (v : Word) (s : State) : Out := ddrCmdRow b v 2 s
/-- DDR_PPR (R312). -/
def execDdrPpr (b : Bus) (v : Word) (s : State) : Out := ddrCmdRow b v 3 s

/-- PPR_DONE (R312): the spare is copied back and the entry freed, its bank's resource used; or the remap stays. -/
def execPprDone (ok : Bool) (s : State) : Out :=
  match s.ddr.ppr with
  | none => .next s
  | some k =>
    let s := { s with ddr := { s.ddr with ppr := none } }.setDdrSt 2
    if ! ok then .next (s.ddrDone 4 3) else
    let s := match s.remapEntry k with
      | some r => s.wrb Reg.ddrPprAvail (16 * r.chan + 8 * r.rank + r.bank) false
      | none => s
    let s := s.setRemap k none
    let s := s.logPush 2 ((List.range 64).flatMap (fun j => leBytes 4 (remapWord (s.remapEntry j)).toNat))
    .next (s.ddrDone 2 3)

/-- ELOG_CAPTURE (R319): entry by its index; the newest stands at DDR_ELOG_STAT[3:0]. -/
def execElogCapture (b : Bus) (v : Word) (s : State) : Out :=
  .next (busWrite b .ddr 0x78 v (fun s =>
    let s := s.plainWrite Reg.ddrElogSel v
    let back := (s.rdf Reg.ddrElogStat 3 0 + 16 - fld v 3 0) % 16
    let n := s.ddr.elog.length
    match if back < n then s.ddr.elog[n - 1 - back]? else none with
    | some e =>
      let s := s.wr Reg.ddrElogD0 (loW e.addr.toNat)
      let s := s.wr Reg.ddrElogD1 (BitVec.ofNat 32 (e.addr.toNat / 2 ^ 32 + e.port.toNat * 256 + b2n e.part * 2048 +
        e.syndrome.toNat * 65536 + 2 ^ 31))
      s.wr64 Reg.ddrElogD2 Reg.ddrElogD3 e.stamp.toNat
    | none => (((s.wr Reg.ddrElogD0 0).wr Reg.ddrElogD1 0).wr Reg.ddrElogD2 0).wr Reg.ddrElogD3 0) s)

/-- REMAP_ENTRY_CAPTURE (R319). -/
def execRemapEntryCapture (b : Bus) (v : Word) (s : State) : Out :=
  .next (busWrite b .ddr 0xC8 v (fun s => (s.plainWrite Reg.ddrRemapSel v).wr Reg.ddrRemapD (remapWord (s.remapEntry (fld v 5 0)))) s)

/-- DDR_CE_CNT_CLEAR (R319). -/
def execDdrCeCntClear (b : Bus) (v : Word) (s : State) : Out :=
  .next (busWrite b .ddr 0x70 v (fun s => if bit v 31 then s.wrf Reg.ddrCeCnt 15 0 0 else s) s)

/-- Whether a plain write of the DDR page is taken (R318, R319). -/
def State.ddrWriteOk (s : State) (off : Nat) (v : Word) : Bool :=
  ! (isRwl (pageBase .ddr + off) && s.enabled .ddr) && (off != 0xB4 || fld v 7 0 != 0) && (off != 0x40 || (fld v 1 0 != 3 && fld v 4 3 != 3))

end Sys2Proof.Machine
end

