-- ==== Sys2Proof/Machine/Dma.lean ====
section
/-! DEFINITION. The DMA channels' descriptors, weft channels and content rings, enabling and disabling, and the bolt codec's
lanes (spec/12, R323 to R334, R346, R348, R350). -/
namespace Sys2Proof.Machine

/-! ### Descriptors (R323, R324) -/

/-- A descriptor's fields. -/
def descOf (l : List Byte) : Desc :=
  let w (i : Nat) : Nat := leAt l (4 * i) 4
  { src := w 0 + w 1 % 256 * 2 ^ 32
    dst := w 2 + w 1 / 256 % 256 * 2 ^ 32
    len := w 3 % 2 ^ 24
    op := w 4 % 4
    srcFix := (w 4).testBit 2
    dstFix := (w 4).testBit 3
    width := 2 ^ (w 4 / 16 % 4)
    wrap := w 4 / 64 % 32
    next := w 5 + w 6 % 256 * 2 ^ 32
    tag := BitVec.ofNat 32 (w 7)
    clean := w 1 / 65536 == 0 && w 3 / 2 ^ 24 == 0 && w 4 / 2 ^ 11 == 0 && w 6 / 256 == 0 }

/-- Bytes a descriptor touches at its source and at its destination. -/
def Desc.srcLen (d : Desc) : Nat := if d.srcFix then d.width else d.len
def Desc.dstLen (d : Desc) : Nat := if d.dstFix then d.width else d.len

/-- Addresses of register space: the pages of R45 and the interrupt controller (R48). -/
def inRegSpace (a : Nat) : Bool := (pageAt (a / 4096)).isSome || decide (0x0C000000 ≤ a ∧ a < 0x10000000)

/-- The memories of the physical map: system SRAM, retention SRAM, the content-ring windows, the DRAM window (R296, R314,
R325).  DEDUCED (log entry 42): an address in none of them and not in register space leaves the map. -/
def inRingWin (a : Nat) : Bool := decide (0x30000000 ≤ a ∧ a < 0x30100000)
def inMemMap (a : Nat) : Bool :=
  decide (0x10000000 ≤ a ∧ a < 0x10400000) || decide (0x20000000 ≤ a ∧ a < 0x20040000) || inRingWin a ||
    decide (dramBase ≤ a ∧ a < dramBase + 0x200000000)

/-- Some address of a range satisfies `p`; every one does.  Looked at per 4 KiB piece, which no region of the map parts. -/
def rangePages (a n : Nat) : List Nat :=
  if n = 0 then [] else (List.range ((a + n - 1) / 4096 - a / 4096 + 1)).map (fun i => Nat.max a ((a / 4096 + i) * 4096))
def rangeAny (p : Nat → Bool) (a n : Nat) : Bool := (rangePages a n).any p
def rangeAll (p : Nat → Bool) (a n : Nat) : Bool := (rangePages a n).all p

/-- One side of a general channel's descriptor breaks ADDR (R324): it leaves the map, touches a content ring, or touches
register space other than as aligned 32-bit words. -/
def addrBad (words : Bool) (fix : Bool) (width a n : Nat) : Bool :=
  decide (2 ^ 40 < a + n) || ! rangeAll (fun x => inMemMap x || inRegSpace x) a n || rangeAny inRingWin a n ||
    (rangeAny inRegSpace a n && ! (words && a % 4 == 0 && n % 4 == 0 && (! fix || width == 4)))

/-- Two ranges overlap. -/
def overlaps (a n b m : Nat) : Bool := decide (a < b + m) && decide (b < a + n) && n != 0 && m != 0

/-- A general channel's checks (R324): the code and address of the first error found. -/
def genCheck (d : Desc) : Option (Nat × Nat) :=
  let fix := d.srcFix || d.dstFix
  let bad := ! d.clean || d.len == 0 || d.op == 3 || d.wrap != 0 || (d.srcFix && d.src % d.width != 0) ||
    (d.dstFix && d.dst % d.width != 0) || (fix && d.len % d.width != 0) || (d.op != 0 && fix) || (d.op == 2 && decide (65536 < d.len))
  if bad then some (1, 0)
  else if addrBad (d.op == 0) d.srcFix d.width d.src d.srcLen then some (2, d.src)
  else if addrBad (d.op == 0) d.dstFix d.width d.dst d.dstLen then some (2, d.dst)
  else if d.op != 0 && overlaps d.src d.len d.dst d.len then some (3, d.dst)
  else none

/-- The source ring of a weft descriptor, and its address `i` bytes on (R325). -/
def Desc.ringBase (d : Desc) : Nat := d.src / 2 ^ d.wrap * 2 ^ d.wrap
def Desc.ringAddr (d : Desc) (i : Nat) : Nat := d.ringBase + (d.src - d.ringBase + i) % 2 ^ d.wrap

/-- A weft channel's checks (R324, R325). -/
def weftCheck (n : Nat) (d : Desc) : Option (Nat × Nat) :=
  let bad := ! d.clean || d.len == 0 || d.op != 0 || d.srcFix || d.dstFix || d.dst != 0 || d.next != 0 || d.len % 16 != 0 ||
    decide (65536 < d.len) || decide (d.wrap < 16) || decide (22 < d.wrap)
  if bad then some (1, 0)
  else if ! rangeAll inMemMap d.ringBase (2 ^ d.wrap) then some (2, d.src)
  else if overlaps d.ringBase (2 ^ d.wrap) (0x30000000 + n * 0x10000) 0x10000 then some (3, d.src)
  else none

/-! ### Channel registers (R348) -/

/-- STATE of a channel; DMA_STAT shows the ACTIVE ones. -/
def State.dmaSt (s : State) (k : Nat) : Nat := s.rdf (Reg.dmaChStat k) 2 0
def State.setDmaSt (s : State) (k st : Nat) : State := (s.wrf (Reg.dmaChStat k) 2 0 st).wrb Reg.dmaStat k (st == 2)
def State.dmaOn (s : State) (k : Nat) : Bool := s.powered .dma && s.rdb (Reg.dmaChCtrl k) 0

/-- The channel has no descriptor: IDLE while EN, else OFF. -/
def State.dmaIdle (s : State) (k : Nat) : State :=
  (s.updDch k (fun c => { c with desc := none, started := false, aborting := false, boltOut := none })).setDmaSt k
    (if s.rdb (Reg.dmaChCtrl k) 0 then 1 else 0)

/-- The last error's code and, for codes 2 to 8, its address. -/
def State.dmaErr (s : State) (k code addr : Nat) : State :=
  let s := s.wrf (Reg.dmaChStat k) 11 8 code
  if code = 1 then s else (s.wr (Reg.dmaChErrAddrLo k) (loW addr)).wr (Reg.dmaChErrAddrHi k) (BitVec.ofNat 32 (addr / 2 ^ 32 % 256))

/-! ### Access to memory -/

/-- The memory at an address is there: its domain is on, a DRAM address is in the DRAM's size. -/
def State.memThere (s : State) (a : Nat) : Bool :=
  if dramBase ≤ a then s.inDram a 1 && s.domOn 5 else if a < 0x20000000 then s.domOn 4 else true

/-- The memory at an address answers a role: it is there, and a region lets the role in. -/
def State.memAnswers (s : State) (r : Role) (write : Bool) (a : Nat) : Bool := s.memThere a && s.addrOk r write a

/-- Bytes of a range before the first that does not answer, if one does not. -/
def State.memFault (s : State) (r : Role) (write : Bool) (a n : Nat) : Option Nat :=
  let edge := dramBase + s.dramSize
  let starts := rangePages a n ++ (if a < edge ∧ edge < a + n then [edge] else [])
  match starts.filter (fun x => ! s.memAnswers r write x) with
  | [] => none
  | x :: l => some (l.foldl Nat.min x - a)

/-- A memory access that `r` makes as DMA channel `k` is refused, and counted as one to a page (R382), or lies past the DRAM's
end (R296). -/
def State.memRefused (s : State) (r : Role) (write : Bool) (k a : Nat) : State :=
  if ! s.addrOk r write a then s.refuse ⟨r, BitVec.ofNat 8 k⟩ a write
  else if dramBase ≤ a && s.domOn 5 && ! s.inDram a 1 then s.cnt Reg.ddrUeCnt 31 16
  else s

/-! ### Weft channels (R325 to R329) -/

/-- Ring bytes not free (R326). -/
def State.ringRoom (s : State) (n len : Nat) : Bool := decide ((s.ring n).used + len ≤ 65536)

/-- The block's staging space goes back to Damask (R126, R326). -/
def State.stgRelease (s : State) (n : Nat) (tag : Word) : State :=
  { s with dmk := { s.dmk with holds := s.dmk.holds.filter (fun h => ! (h.unit == n && h.tag == tag && h.ticket.isNone)) } }.dmkShow

/-- The block fails the ring's check (R156): CONTENT_ERROR for its job and the channel's content source. -/
def State.weftContentError (s : State) (n : Nat) (tag : Word) : State :=
  let s := forL ((s.chan n).jobs.filter (fun e => e.2.jobSeq == tag)) (fun e s => s.addCond n e.1 7) s
  s.soot (chPage n 6) 0

/-- A weft descriptor ends in error (R328): the block is discarded and the channel goes on. -/
def State.weftFail (s : State) (n code addr : Nat) (d : Desc) : State :=
  let s := (s.dmaErr n code addr).stgRelease n d.tag
  let s := s.weftContentError n d.tag
  let s := (s.wrb Reg.dmaWeftErr n true).cnt Reg.dmaWeftErrCnt 15 0
  (((s.soot .dma 0).irq .dma 16).dmaIdle n).panicUpdate

/-- WEFT_DESCRIPTOR_TAKE (R325, R326): the oldest entry of queue 64 + n is taken and checked. -/
def execWeftDescriptorTake (n : Fin 16) (s : State) : Out :=
  if ! s.dmaOn n.val || (s.dch n.val).desc.isSome then .next s else
  match s.qFront (64 + n.val) with
  | none => .next s
  | some l =>
    let d := descOf l
    let s := s.qDrop (64 + n.val)
    match weftCheck n.val d with
    | some (code, addr) => .next (s.weftFail n.val code addr d)
    | none =>
      let s := s.updDch n.val (fun c => { c with desc := some d, started := false })
      let s := s.wr (Reg.dmaChRem n.val) (BitVec.ofNat 32 d.len)
      .next (s.setDmaSt n.val 3).panicUpdate

/-- WEFT_TRANSFER_START (R326): the content ring has LEN bytes free. -/
def execWeftTransferStart (n : Fin 16) (s : State) : Out :=
  match (s.dch n.val).desc with
  | none => .next s
  | some d =>
    if (s.dch n.val).started || ! s.powered .dma || ! s.ringRoom n.val d.len then .next s else
    .next ((s.updDch n.val (fun c => { c with started := true })).setDmaSt n.val 2)

/-- A block's bytes into the ring at its write pointer, round its end (R325). -/
def State.ringWrite (s : State) (n : Nat) (l : List Byte) : State :=
  let base := 0x30000000 + n * 0x10000
  let w := (s.ring n).wptr
  ((s.wrMem (base + w) (l.take (65536 - w))).wrMem base (l.drop (65536 - w)))

/-- The block arrived (R156, R326, R327): checked against its job's CONTENT_CRC; without a job its space returns at once. -/
def State.weftArrive (s : State) (n : Nat) (d : Desc) (l : List Byte) : State :=
  let w := (s.ring n).wptr
  let s := s.ringWrite n l
  let deliver (s : State) (left : Bool) : State :=
    s.updRing n (fun r => { wptr := (w + d.len) % 65536, blocks := ringTrim (r.blocks ++ [⟨d.tag, w, d.len, left⟩]) })
  match ((s.chan n).jobs.find? (fun e => e.2.jobSeq == d.tag)).map (fun e => e.1) with
  | none => deliver s true
  | some j =>
    if crc32c l = (s.job n j).contentCrc then
      (deliver s false).updJob n j (fun e => { e with
        inRing := true, ringOfs := BitVec.ofNat 16 (w / 16), ringLen := BitVec.ofNat 16 (d.len / 16) })
    else s.weftContentError n d.tag

/-- A pulse to the channel's sequencer ends a wait (R326). -/
def State.seqPulse (s : State) (n : Nat) : State :=
  s.updSeq n (fun q => if q.wait = .none then q else { q with wakePulse := true })

/-- WEFT_TRANSFER_COMPLETE (R326, R328): every write response has returned, or an error did. -/
def execWeftTransferComplete (n : Fin 16) (r : XferResult) (s : State) : Out :=
  match (s.dch n.val).desc with
  | none => .next s
  | some d =>
    if ! (s.dch n.val).started || ! s.powered .dma then .next s else
    let role := (s.dch n.val).role
    let first := Nat.min d.len (d.ringBase + 2 ^ d.wrap - d.src)
    let fault := match s.memFault role false d.src first with
      | some o => some o
      | none => (s.memFault role false d.ringBase (d.len - first)).map (fun o => first + o)
    match r, fault with
    | .writeErr o, _ => .next (s.weftFail n.val 5 (0x30000000 + n.val * 0x10000 + ((s.ring n.val).wptr + o) % 65536) d)
    | .readErr o, none => .next (s.weftFail n.val 4 (d.ringAddr o) d)
    | _, some o => .next ((s.memRefused role false n.val (d.ringAddr o)).weftFail n.val 4 (d.ringAddr o) d)
    | .ok, none =>
      let l := s.rdMem d.src first ++ s.rdMem d.ringBase (d.len - first)
      let s := ((s.weftArrive n.val d l).stgRelease n.val d.tag).seqPulse n.val
      let s := ((s.wr (Reg.dmaChRem n.val) 0).cntW (Reg.dmaChDone n.val)).wr (Reg.dmaChTag n.val) d.tag
      .next (s.dmaIdle n.val).panicUpdate

/-! ### General channels (R330 to R333) -/

/-- A general channel enters ERROR (R333): no further access, its lane given back. -/
def State.genFail (s : State) (k code addr : Nat) : State :=
  let s := match (s.dch k).lane with
    | some l => if s.lane l == LaneUse.dma k then (s.setLane l .idle).wrf Reg.bltStat (2 * l + 1) (2 * l) 0 else s
    | none => s
  let s := s.updDch k (fun c => { c with started := false, aborting := false, lane := none, boltOut := none })
  let s := (s.dmaErr k code addr).setDmaSt k 4
  (s.soot .dma 1).irq .dma (k - 16)

/-- A descriptor in hand is checked and its transfer starts; one for a lane waits for it (R331, R334). -/
def State.genStart (s : State) (k : Nat) (d : Desc) : State :=
  let s := s.updDch k (fun c => { c with desc := some d, next := d.next, started := d.op == 0, aborting := false, lane := none, boltOut := none })
  match genCheck d with
  | some (code, addr) => s.genFail k code addr
  | none =>
    let s := s.wr (Reg.dmaChRem k) (BitVec.ofNat 32 d.len)
    let s := s.wrb (Reg.dmaChStat k) 3 (d.op == 0 && ! d.srcFix && ! d.dstFix && decide (d.src < d.dst ∧ d.dst < d.src + d.len))
    s.setDmaSt k (if d.op = 0 then 2 else 3)

/-- GEN_DESCRIPTOR_TAKE (R330): the chain's next descriptor, read with the channel's role, or else the oldest queue entry,
whose role its whole chain uses.  `chainOk`: the reading of a chained one met no error response. -/
def execGenDescriptorTake (k : Fin 16) (chainOk : Bool) (s : State) : Out :=
  let k := k.val + 16
  let c := s.dch k
  if ! s.dmaOn k || c.desc.isSome || s.dmaSt k == 4 then .next s
  else if c.next ≠ 0 then
    if ! chainOk || (s.memFault c.role false c.next 32).isSome then .next ((s.memRefused c.role false k c.next).genFail k 8 c.next)
    else .next (s.genStart k (descOf (s.rdMem c.next 32)))
  else match s.qFront (64 + k) with
    | none => .next s
    | some l =>
      let role := (s.queue (64 + k)).roles.head?.getD c.role
      .next (((s.qDrop (64 + k)).updDch k (fun c => { c with entryRole := role })).genStart k (descOf l))

/-! ### Enabling (R329, R333) -/

/-- EN written on channel `k` (R329, R333). -/
def State.dmaCtrlWrite (s : State) (k : Nat) (r : Role) (on : Bool) : State :=
  if k < 16 && (s.enabled (chPage k 0) || (on && decide ((s.queue (64 + k)).size < 256 ∨ ! (s.queue (64 + k)).en))) then s.soot .dma 2
  else
    let was := s.rdb (Reg.dmaChCtrl k) 0
    let s := s.wrb (Reg.dmaChCtrl k) 0 on
    if on then
      let s := if was then s else s.updDch k (fun c => { c with role := r })
      if s.dmaSt k = 4 then
        ((s.updDch k (fun c => { c with next := 0, role := r })).wrf (Reg.dmaChStat k) 11 8 0).dmaIdle k
      else if (s.dch k).desc.isSome then s
      else s.dmaIdle k
    else if s.dmaSt k = 4 then s
    else if (s.dch k).desc.isNone then s.setDmaSt k 0
    else if k < 16 then s
    else s.updDch k (fun c => { c with aborting := true })

/-- DMA_ENABLE (R333). -/
def execDmaEnable (b : Bus) (k : Fin 32) (s : State) : Out :=
  .next (busWrite b .dma (0x100 + 0x20 * k.val) 1 (fun s => s.dmaCtrlWrite k.val b.role true) s)

/-- DMA_DISABLE (R333). -/
def execDmaDisable (b : Bus) (k : Fin 32) (s : State) : Out :=
  .next (busWrite b .dma (0x100 + 0x20 * k.val) 0 (fun s => s.dmaCtrlWrite k.val b.role false) s)

/-! ### The bolt lanes (R344 to R346) -/

/-- Who BLT_STAT shows on a lane (R350); a lane under test is out of service. -/
def LaneUse.code : LaneUse → Nat
  | .idle => 0 | .damask => 1 | .dma _ => 2 | .testing => 3 | .out => 3
def State.laneSet (s : State) (l : Nat) (u : LaneUse) : State :=
  (s.setLane l u).wrf Reg.bltStat (2 * l + 1) (2 * l) u.code

/-- The bolt of Damask's template load that comes next, unless a lane has it or the load has failed (R131, R346). -/
def State.damaskBolt (s : State) : Option (Nat × List Byte) :=
  match s.tplImage with
  | none => none
  | some (_, a, img) =>
    if s.dmk.boltFault then none
    else ((s.tplBolts img)[s.dmk.boltsDone]?).map (fun r => (a + r.1, slice img r.1 r.2))

/-- General channels that wait for a lane of the kind of lane `l` (R334). -/
def State.laneWaits (s : State) (l : Nat) : List Nat :=
  ((List.range 16).map (· + 16)).filter (fun k =>
    let c := s.dch k
    ! c.started && ! c.aborting && s.dmaSt k == 3 && (match c.desc with
      | some d => d.op == (if l < 2 then 2 else 1)
      | none => false))

/-- BOLT_LANE_ACQUIRE (R346): Damask first, then the lowest-numbered channel that waits (DESIGN CHOICE, log entry 42). -/
def execBoltLaneAcquire (l : Fin 4) (s : State) : Out :=
  if ! s.powered .blt || s.lane l.val != .idle || ! s.rdb Reg.bltCfg l.val then .next s
  else if 2 ≤ l.val ∧ s.damaskBolt.isSome ∧ s.lane 2 ≠ .damask ∧ s.lane 3 ≠ .damask then .next (s.laneSet l.val .damask)
  else match s.laneWaits l.val with
    | [] => .next s
    | k :: _ => .next ((s.laneSet l.val (.dma k)).updDch k (fun c => { c with started := true, lane := some l.val }) |>.setDmaSt k 2)

/-- A bolt failed (R346, R350): counted, recorded and reported; LANE_FAULT has the lane test itself. -/
def State.boltFailed (s : State) (l res : Nat) (chan : Option Nat) (addr : Nat) : State :=
  let s := s.cnt Reg.bltErrCnt 15 0
  let s := s.wr Reg.bltLastErr (BitVec.ofNat 32 (res + (match chan with | some k => 8 + k * 16 | none => 0)))
  let s := (s.wr Reg.bltLastErrAddrLo (loW addr)).wr Reg.bltLastErrAddrHi (BitVec.ofNat 32 (addr / 2 ^ 32 % 256))
  let s := if res = 6 then (s.soot .blt 1).laneSet l .testing else (s.soot .blt 0).laneSet l .idle
  s.irq .blt 0

/-- DMA_CHk_BOLT (R348). -/
def State.boltShow (s : State) (k res bytes : Nat) : State := s.wr (Reg.dmaChBolt k) (BitVec.ofNat 32 (res + bytes * 256))

/-- A lane's work for channel `k` done: its output is held for the destination (R334, R345). -/
def State.laneDone (s : State) (l k res : Nat) (out : List Byte) : State :=
  let s := (s.laneSet l .idle).updDch k (fun c => { c with lane := none, boltOut := some out })
  s.boltShow k res out.length

/-- BOLT_DONE (R334, R344 to R346): lane `l` finishes; `ecc` is the worst its buffer met. -/
def execBoltDone (l : Fin 4) (ecc : Ecc) (s : State) : Out :=
  if ! s.powered .blt then .next s else
  let fault := decide (ecc = .uncorrectable)
  match s.lane l.val with
  | .damask =>
    match s.damaskBolt with
    | none => .next (s.laneSet l.val .idle)
    | some (addr, bytes) =>
      let s := { s with dmk := { s.dmk with boltsDone := s.dmk.boltsDone + 1, boltFault := fault } }
      match boltOpen bytes with
      | .ok _ => if fault then .next (s.boltFailed l.val 6 none addr) else .next ((s.laneSet l.val .idle).cntW Reg.bltCntInflate)
      | .error e => .next (s.boltFailed l.val (if fault then 6 else e) none addr)
  | .dma k =>
    match (s.dch k).desc with
    | none => .next (s.laneSet l.val .idle)
    | some d =>
      let role := (s.dch k).entryRole
      let fail (s : State) (res : Nat) : State :=
        let s := s.boltFailed l.val res (some k) d.src
        ((s.updDch k (fun c => { c with lane := none })).boltShow k res 0).genFail k 6 d.src
      match s.memFault role false d.src d.len with
      | some o => .next ((s.memRefused role false k (d.src + o)).genFail k 4 (d.src + o))
      | none =>
        let bytes := s.rdMem d.src d.len
        if fault then .next (fail s 6)
        else if d.op = 1 then match boltOpen bytes with
          | .ok out => .next ((s.cntW Reg.bltCntInflate).laneDone l.val k 0 out)
          | .error e => .next (fail s e)
        else match boltMake bytes with
          | some out => .next ((s.cntW Reg.bltCntDeflate).laneDone l.val k 0 out)
          | none => .next ((s.cntW Reg.bltCntNogain).laneDone l.val k 1 [])
  | _ => .next s

/-- BOLT_LANE_SELFTEST_DONE (R346). -/
def execBoltLaneSelftestDone (l : Fin 4) (pass : Bool) (s : State) : Out :=
  if ! s.powered .blt || s.lane l.val != .testing then .next s
  else if pass then .next (s.laneSet l.val .idle)
  else .next (((s.laneSet l.val .out).soot .blt 1).irq .blt 1)

end Sys2Proof.Machine
end

