-- ==== Sys2Proof/Machine/Net.lean ====
section
/-! DEFINITION. The network switch: forwarding, descriptors, stamps, the transparent clock, MDIO (spec/13, R357 to R364,
R372, R374).  A frame is its bytes without the FCS. -/
namespace Sys2Proof.Machine

/-! ### Ports -/

/-- The switch runs; external port `p` carries frames: enabled, and SYN3 is locked (R358, R374). -/
def State.netOn (s : State) : Bool := s.powered .net && s.enabled .net
def State.netPort (s : State) (p : Nat) : Bool := s.netOn && s.rdb Reg.netCfg p && s.domOn 4 && s.rdb Reg.clkStat 3 && ! s.railBlocks 21

/-! ### Headers (R358, R360, R363) -/

/-- Tags of a frame, two at most; the offset of its Ethertype. -/
def isTag (l : List Byte) (o : Nat) : Bool := let t := ofBe (slice l o 2); t == 0x8100 || t == 0x88A8
def etherOfs (l : List Byte) : Nat := if isTag l 12 then (if isTag l 16 then 20 else 16) else 12
def etherType (l : List Byte) : Nat := ofBe (slice l (etherOfs l) 2)
def macAt (l : List Byte) (o : Nat) : BitVec 48 := BitVec.ofNat 48 (ofBe (slice l o 6))
/-- Broadcast or multicast: the group bit of the first byte. -/
def groupMac (l : List Byte) (o : Nat) : Bool := (byteAt l o).getLsbD 0

/-- Priority of a frame: the PCP of its outer tag, or DEF_PCP (R360). -/
def State.framePcp (s : State) (l : List Byte) : Nat := if isTag l 12 then (byteAt l 14).toNat / 32 else s.rdf Reg.netCfg 10 8

/-- A PAUSE frame (R358): MAC control with opcode 1. -/
def isPause (l : List Byte) : Bool := etherType l == 0x8808 && ofBe (slice l (etherOfs l + 2) 2) == 1

/-- Offset of a PTP version 2 message in a frame, and of the UDP checksum before it (R363). -/
def ptpAt (l : List Byte) : Option (Nat × Option Nat) :=
  let o := etherOfs l + 2
  let v2 (at_ : Nat) : Bool := (byteAt l (at_ + 1)).toNat % 16 == 2 && decide (at_ + 34 ≤ l.length)
  if etherType l = 0x88F7 then (if v2 o then some (o, none) else none)
  else if etherType l = 0x0800 ∧ (byteAt l o).toNat / 16 = 4 ∧ byteAt l (o + 9) = 17 then
    let u := o + 4 * ((byteAt l o).toNat % 16)
    let port := ofBe (slice l (u + 2) 2)
    if (port = 319 ∨ port = 320) ∧ v2 (u + 8) then some (u + 8, some (u + 6)) else none
  else none

/-- The frame is a PTP event message the switch corrects: Sync or Delay_Req. -/
def ptpEvent (l : List Byte) : Option (Nat × Option Nat) := match ptpAt l with
  | some (o, u) => if (byteAt l o).toNat % 16 ≤ 1 then some (o, u) else none
  | none => none

/-- PTP over IPv6 (R363). -/
def ptpV6 (l : List Byte) : Bool :=
  let o := etherOfs l + 2
  let port := ofBe (slice l (o + 42) 2)
  etherType l == 0x86DD && byteAt l (o + 6) == 17 && (port == 319 || port == 320)

/-- Egress queue of a frame (R360). -/
def State.egressQ (s : State) (l : List Byte) : Nat :=
  if s.rdb Reg.netCfg 4 && (ptpEvent l).isSome then 3
  else let k := s.framePcp l; s.rdf Reg.netPcpMap (2 * k + 1) (2 * k)

/-! ### Stamps (R357, R361) -/

/-- PHY latencies of a port, ns. -/
def State.rxLat (s : State) (p : Nat) : Nat := if p < 2 then s.rdf (Reg.netPLat p) 15 0 else 0
def State.txLat (s : State) (p : Nat) : Nat := if p < 2 then s.rdf (Reg.netPLat p) 31 16 else 0

/-- The stamp words of a descriptor for a raw TSC count moved by `lat` ns: nanoseconds, seconds, sub-nanoseconds, and TSC
rounded down to a whole count. -/
def State.stampWords (s : State) (raw : Nat) (lat : Int) : List Byte :=
  let t : Int := (raw * 163840 : Nat) + lat * 65536 + s.tim.ptpOfs
  let sec := wrapN 48 (t / ptpSec)
  let rest := (t % ptpSec).toNat
  leBytes 4 (rest / 65536) ++ leBytes 4 sec ++ leBytes 4 (sec / 2 ^ 32 + rest % 65536 * 65536) ++
    leBytes 4 (wrapN 32 (((raw * 5 : Nat) + 2 * lat) / 5))

/-! ### Addresses (R359) -/

def State.macPort (s : State) (m : BitVec 48) : Option Nat := (s.net.macs.find? (fun e => e.mac == m)).map (fun e => e.port)

/-- A source address learned, or seen again; a full table learns no more (log entry 43). -/
def State.macLearn (s : State) (m : BitVec 48) (p : Nat) : State :=
  if ! s.rdb Reg.netCfg 3 then s
  else if s.net.macs.any (fun e => e.mac == m) then
    { s with net := { s.net with macs := s.net.macs.map (fun e => if e.mac = m then ⟨m, p, s.now⟩ else e) } }
  else if 1024 ≤ s.net.macs.length then s
  else { s with net := { s.net with macs := s.net.macs ++ [⟨m, p, s.now⟩] } }

/-- The ports a frame from `ingress` goes to by its address: its own, or every enabled port but the ingress (R359). -/
def State.forwardTo (s : State) (l : List Byte) (ingress : Nat) : List Nat :=
  let flood := (([0, 1].filter s.netPort) ++ [2]).filter (fun p => p != ingress)
  if groupMac l 0 then flood else match s.macPort (macAt l 0) with
    | some p => if p = ingress ∨ (p < 2 ∧ ! s.netPort p) then [] else [p]
    | none => flood

/-! ### Queues (R360 to R362) -/

def State.egress (s : State) (k : Nat) : List NetFrame := tabGet [] s.net.egress k
def State.setEgress (s : State) (k : Nat) (l : List NetFrame) : State := { s with net := { s.net with egress := tabPut [] s.net.egress k l } }
def bytesIn (l : List NetFrame) : Nat := l.foldl (fun a f => a + f.bytes.length) 0
def State.bufferUsed (s : State) : Nat := s.net.egress.foldl (fun a e => a + bytesIn e.2) 0

/-- A frame into an external port's egress queue, or tail-dropped; whether it was taken. -/
def State.netEnqueue (s : State) (p : Nat) (f : NetFrame) : State × Bool :=
  let k := p * 4 + s.egressQ f.bytes
  let n := f.bytes.length
  if 1024 * s.rdf Reg.netQlim 6 0 < bytesIn (s.egress k) + n ∨ 131072 < s.bufferUsed + n then (s.cnt (Reg.netPDrop p) 15 0, false)
  else (s.setEgress k (s.egress k ++ [f]), true)

/-- A frame from external port `p` to the internal port (R361, R362): into the buffer of the entry it takes, with its
receive stamp. -/
def State.netDeliver (s : State) (p : Nat) (l : List Byte) (stamp : Option Nat) : State :=
  let i := s.egressQ l
  let q := s.queue (116 + i)
  if ! q.canPush then ((s.cnt Reg.netCntRxqDrop 15 0).qPush (116 + i) []).irq .net 1 else
  let base := s.rd64 (Reg.netRxbaseLo i) (Reg.netRxbaseHi i) % 2 ^ 40 / 2048 * 2048
  let s := s.wrMem (base + q.tail.toNat % q.size * 2048) (l.take 2048)
  let flags := p + (if stamp.isSome then 4 else 0) + b2n (ptpEvent l).isSome * 8
  let st := match stamp with
    | some raw => s.stampWords raw (-(s.rxLat p : Nat))
    | none => List.replicate 16 0
  s.qPush (116 + i) (leBytes 4 0 ++ leBytes 4 (l.length * 65536) ++ leBytes 4 flags ++ leBytes 4 1 ++ st)

/-- ETH_FRAME_RECEIVE (R357 to R364): `stamp` is the raw TSC count at the stamp point, if one was taken. -/
def execEthFrameReceive (p : Fin 2) (frame : List Byte) (fcsOk : Bool) (stamp : Option Nat) (s : State) : Out :=
  let p := p.val
  if ! s.netPort p then .next s else
  if ! fcsOk || decide (frame.length < 60) || decide (1518 < frame.length) then .next ((s.cnt (Reg.netPErr p) 15 0).soot .net 0) else
  let s := s.cntW (Reg.netPRx p)
  if isPause frame then .next (s.cnt (Reg.netPErr p) 31 16) else
  let s := if groupMac frame 6 then s else s.macLearn (macAt frame 6) p
  let ev := ptpEvent frame
  let s := if ev.isSome && stamp.isNone then s.soot .net 1 else s
  let ports := s.forwardTo frame p
  let across := ports.contains (1 - p)
  let s := if across && s.rdb Reg.netCfg 2 && (ptpV6 frame || (ev.isSome && stamp.isNone)) then s.cnt Reg.netCntTcSkip 15 0 else s
  let fix := if s.rdb Reg.netCfg 2 && stamp.isSome then ev else none
  let s := if across then (s.netEnqueue (1 - p) ⟨frame, p, stamp.getD 0, fix.map (fun x => x.1 + 8), fix.bind (fun x => x.2), none⟩).1 else s
  .next (if ports.contains 2 then s.netDeliver p frame stamp else s)

/-! ### Transmit descriptors (R361) -/

/-- STATUS written into entry `c` of transmit queue `k`, and HEAD advanced past it. -/
def State.txStatus (s : State) (k c st : Nat) (stamp : List Byte) : State :=
  let a := s.qAddr k c
  ((s.wrMem (a + 12) (leBytes 4 st)).wrMem (a + 16) stamp).qDrop k

/-- Copies of a descriptor's frame still in an egress queue. -/
def State.txCopies (s : State) (d : Nat × Nat) : Bool := s.net.egress.any (fun e => e.2.any (fun f => f.desc == some d))

/-- NET_TX_DESCRIPTOR (R361): the oldest entry of queue 112 + q is taken once the entry before it is done with. -/
def execNetTxDescriptor (q : Fin 4) (s : State) : Out :=
  let k := 112 + q.val
  let c := (s.queue k).head.toNat
  if ! s.netOn || s.txCopies (k, c) then .next s else
  match s.qFront k with
  | none => .next s
  | some d =>
    let w (i : Nat) : Nat := leAt d (4 * i) 4
    let a := w 0 + w 1 % 256 * 2 ^ 32
    let len := w 1 / 65536 % 2048
    let ports := w 2 % 4
    let ok := w 1 / 256 % 256 == 0 && w 1 / 2 ^ 27 == 0 && w 2 / 16 == 0 && w 3 / 16 == 0 && decide (60 ≤ len) &&
      decide (len ≤ 1518) && rangeAll (fun x => inMemMap x && ! inRingWin x && s.memThere x) a len
    if ! ok then .next (s.txStatus k c 3 []) else
    let l := s.rdMem a len
    let s := if groupMac l 6 then s else s.macLearn (macAt l 6) 2
    let dests := if ports = 0 then (s.forwardTo l 2).filter (fun p => p != 2) else [0, 1].filter (fun p => ports.testBit p && s.netPort p)
    let f : NetFrame := ⟨l, 2, 0, none, none, some (k, c)⟩
    let (s, taken) := dests.foldl (fun (x : State × Bool) p => let (s, ok) := x.1.netEnqueue p f; (s, x.2 || ok)) (s, false)
    .next (if taken then s else s.txStatus k c 2 [])

/-- `n` bytes of `l` at `o` replaced by `b`. -/
def splice (l : List Byte) (o : Nat) (b : List Byte) : List Byte := l.take o ++ b ++ l.drop (o + b.length)

/-- The correction of R364 made in a frame sent on port `p` with raw transmit stamp `raw`: the correctionField plus the
residence × 2^16, and a UDP checksum of 0. -/
def State.tcCorrect (s : State) (p : Nat) (f : NetFrame) (raw : Nat) : List Byte := match f.corrAt with
  | none => f.bytes
  | some o =>
    let add := (raw - f.rxRaw) * 163840 + (s.txLat p + s.rxLat f.ingress) * 65536
    let l := splice f.bytes o (beBytes 8 (ofBe (slice f.bytes o 8) + add))
    match f.udpAt with
    | some u => splice l u [0, 0]
    | none => l

/-- ETH_FRAME_TRANSMIT (R360, R361, R364): the first frame of the highest egress queue of port `p` that holds one passes
the stamp point now; `ecc` is what reading it found. -/
def execEthFrameTransmit (p : Fin 2) (ecc : Ecc) (s : State) : Out :=
  let p := p.val
  if ! s.netPort p then .next s else
  match [3, 2, 1, 0].find? (fun q => ! (s.egress (p * 4 + q)).isEmpty) with
  | none => .next s
  | some q =>
    match s.egress (p * 4 + q) with
    | [] => .next s
    | f :: rest =>
      let s := s.setEgress (p * 4 + q) rest
      let bad := decide (ecc = .uncorrectable)
      let s := if bad then (((s.cnt (Reg.netPDrop p) 31 16).soot .net 2).irq .net 2)
        else
          let s := { s with net := { s.net with sent := tabPut [] s.net.sent p (s.tcCorrect p f s.now) } }
          let s := if f.corrAt.isSome then s.cntW Reg.netCntTc else s
          s.cntW (Reg.netPTx p)
      match f.desc with
      | none => .next s
      | some (k, c) =>
        if s.txCopies (k, c) then .next s
        else if bad then .next (s.txStatus k c 2 [])
        else .next (s.txStatus k c 1 (if s.rdByte (s.qAddr k c + 8) |>.getLsbD 2 then s.stampWords s.now (s.txLat p : Nat) else []))

/-- MAC_ENTRY_AGE (R359). -/
def execMacEntryAge (mac : BitVec 48) (s : State) : Out :=
  match s.net.macs.find? (fun e => e.mac == mac) with
  | some e =>
    if s.netOn && decide (s.rdf Reg.netAge 15 0 * secT ≤ s.now - e.seenAt) then
      .next { s with net := { s.net with macs := s.net.macs.filter (fun e => e.mac != mac) } }
    else .next s
  | none => .next s

/-! ### MDIO (R358, R374) -/

/-- A write of NET_MDIO_CTRL: GO starts a frame; while one runs the register keeps. -/
def State.mdioWrite (s : State) (v : Word) : State :=
  if s.net.mdioBusy then s.soot .net 3
  else
    let s := s.plainWrite Reg.netMdioCtrl v
    if bit v 31 then { s.wrb Reg.netMdioCtrl 31 true with net := { s.net with mdioBusy := true } } else s.wrb Reg.netMdioCtrl 31 false

/-- MDIO_GO (R374). -/
def execMdioGo (b : Bus) (v : Word) (s : State) : Out := .next (busWrite b .net 0x50 v (fun s => s.mdioWrite v) s)

/-- MDIO_DONE (R374): `data` is what a reading frame got. -/
def execMdioDone (data : BitVec 16) (s : State) : Out :=
  if ! (s.powered .net && s.net.mdioBusy) then .next s else
  let s := { s.wrb Reg.netMdioCtrl 31 false with net := { s.net with mdioBusy := false } }
  let s := if s.rdb Reg.netMdioCtrl 10 || s.rdb Reg.netMdioCtrl 12 then s else s.wrf Reg.netMdioData 15 0 data.toNat
  .next (s.irq .net 0)

/-- Whether a plain write of the NET page is taken (R372): RWL fields only while the port or the switch is disabled. -/
def State.netWriteOk (s : State) (off : Nat) (v : Word) : Bool :=
  if off = 0x40 ∨ (0x80 ≤ off ∧ off < 0xA0) then ! s.enabled .net
  else if off = 0x100 ∨ off = 0x140 then ! (s.enabled .net && s.rdb Reg.netCfg ((off - 0x100) / 0x40)) && fld v 1 0 != 3
  else true

end Sys2Proof.Machine
end

