-- ==== Sys2Proof/Machine/Enclave.lean ====
section
/-! DEFINITION. The security enclave: requests, roles, keys, the OTP, the flash store, memory regions, records and their
chains (spec/14, R376 to R394, R401 to R406). -/
namespace Sys2Proof.Machine

/-! ### OTP and lifecycle (R383, R384) -/

/-- Ones of a thermometer field; a field nothing has written. -/
def onesIn (l : List Byte) : Nat := l.foldl (fun a b => a + ((List.range 8).filter (fun i => b.getLsbD i)).length) 0
def State.otpOnes (s : State) (a n : Nat) : Nat := onesIn (s.otpBytes a n)
def State.otpBlank (s : State) (a n : Nat) : Bool := (s.otpBytes a n).all (fun b => b == 0)

/-- OTP bits set: they only ever change from 0 to 1. -/
def State.otpOr (s : State) (a : Nat) (l : List Byte) : State :=
  { s with sec := { s.sec with
      otp := ((List.range l.length).foldl (fun t i => tabPut 0 t (a + i) (tabGet 0 t (a + i) ||| byteAt l i)) s.sec.otp) } }

/-- LIFECYCLE, 0 BLANK to 3 RMA, by the ones of its thermometer (DEDUCED, log entry 44). -/
def State.lifecycle (s : State) : Nat := Nat.min 3 (s.otpOnes 0x188 8)
def State.rollback (s : State) : Nat := s.otpOnes 0x190 32

/-- A thermometer of `n` bytes with `k` ones. -/
def thermo (n k : Nat) : List Byte := leBytes n (2 ^ k - 1)

/-- The hash of a key stands in an OTP field that is written (R381). -/
def State.otpHashIs (s : State) (a : Nat) (key : List Byte) : Bool :=
  ! s.otpBlank a 32 && decide (key.length = 64) && sha256 key == s.otpBytes a 32

/-! ### What SEC shows (R406) -/

def State.owned (s : State) : Bool := (s.storeOf .owned).isSome
def State.credKey (s : State) (i : Nat) : Option (List Byte) := tabGet none s.sec.creds i
def State.tplKey (s : State) (i : Nat) : Option (List Byte) := tabGet none s.sec.tplKeys i

/-- Debug level in force (R402). -/
def State.debugLevel (s : State) : Nat := s.rdf Reg.secStat 5 4

/-- SEC_STAT, SEC_KEYS, SEC_EPOCH and SEC_REC_PEND; a change of REC_READY is reported (R406, R407). -/
def State.secShow (s : State) : State :=
  if ! s.domOn 2 then s else
  let was := s.rdb Reg.secStat 6
  let x := s.sec
  let keys (base : Nat) : Nat := (List.range 4).foldl (fun a i => if (s.credKey (4 * base + i)).isSome then a + 2 ^ i else a) 0
  let tk := (List.range 4).foldl (fun a i => if (s.tplKey i).isSome then a + 2 ^ i else a) 0
  let s := s.wr Reg.secStat (BitVec.ofNat 32 (s.lifecycle + b2n s.owned * 8 + s.debugLevel * 16 + b2n s.recReady * 64 +
    b2n x.enclaveOk * 128 + b2n x.entropyOk * 256 + b2n x.epochOk * 512))
  let s := s.wr Reg.secKeys (BitVec.ofNat 32 (tk + b2n x.recKey.isSome * 16 + b2n x.progKey.isSome * 32 + keys 3 * 2 ^ 8 +
    keys 4 * 2 ^ 12 + keys 5 * 2 ^ 16 + keys 6 * 2 ^ 20))
  let s := (s.wr Reg.secEpoch x.epoch).wrf Reg.secRecPend 9 0 x.pending.length
  let s := s.wrf Reg.secRecPend 25 16 s.recOut
  if was = s.recReady then s
  else
    let s := s.irq .sec 4
    if was then s.soot .sec 6 else s

/-- What the OTP shows (R383, R406). -/
def State.otpShow (s : State) : State :=
  let s := forN 4 (fun i s => s.wr (Reg.secUid i) (BitVec.ofNat 32 (ofLe (s.otpBytes (4 * i) 4)))) s
  let s := forN 4 (fun i s => s.wr (Reg.secMfg i) (BitVec.ofNat 32 (ofLe (s.otpBytes (16 + 4 * i) 4)))) s
  let rev := (s.otpByte 0x184).toNat
  let s := s.wr Reg.secOtpCfg (BitVec.ofNat 32 (ofLe (s.otpBytes 0x180 3) + rev % 64 * 2 ^ 24))
  s.wr Reg.secRollback (BitVec.ofNat 32 s.rollback)

/-! ### The flash store (R386, R391) -/

/-- New record chains (R391): every chain head waits for a new epoch, whose entry is written unless it is on its way. -/
def State.newChains (s : State) : State :=
  let s := forN 16 (fun n s =>
    { s with sec := { s.sec with chains := tabPut ChainHead.reset s.sec.chains n { tabGet ChainHead.reset s.sec.chains n with needNew := true } } }) s
  let s := { s with sec := { s.sec with epochOk := false } }
  if s.sec.writes.any (fun w => w.kind == .epoch) then s else
  match s.storeOf .epoch with
  | some p => s.storePush .epoch (leBytes 4 (ofLe p + 1)) none
  | none => let (w, s) := s.drawWord; s.storePush .epoch (leBytes 4 w.toNat) none

/-- The store without the entries of some kinds. -/
def State.storeDrop (s : State) (p : StoreKind → Bool) : State :=
  { s with sec := { s.sec with store := s.sec.store.filter (fun e => ! p e.kind) } }

/-- A kind of entry that belongs to the owner store (R386). -/
def StoreKind.ownerKind : StoreKind → Bool
  | .cred i => decide (12 ≤ i ∧ i < 16) || decide (20 ≤ i)
  | .tplKey _ => true
  | .recKey => true
  | .owned => true
  | _ => false

/-- The keys as the store's entries in force give them. -/
def State.keysFromStore (s : State) : State :=
  let some' (k : StoreKind) : Option (List Byte) := match s.storeOf k with
    | some [] => none
    | x => x
  { s with sec := { s.sec with
      creds := (List.range 28).foldl (fun t i => tabPut none t i (some' (.cred i))) []
      tplKeys := (List.range 4).foldl (fun t i => tabPut none t i (some' (.tplKey i))) []
      recKey := some' .recKey
      progKey := some' .progKey } }

/-- A confirmed entry takes force (R386): the next sequence number of its type.  `owned` stands for a change of owner (R387):
its payload, if any, is OWNER credential 0; where the part was owned, or is to be unowned, the old owner's entries go and new
chains start. -/
def State.storeApply (s : State) (k : StoreKind) (payload : List Byte) : State :=
  let seq := match s.sec.store.find? (fun e => e.kind == k) with
    | some e => e.seq + 1
    | none => 1
  let put (s : State) : State :=
    let s := s.storeDrop (fun x => x == k)
    { s with sec := { s.sec with store := s.sec.store ++ [⟨k, seq, payload⟩] } }
  match k with
  | .serial c => (put s).serialConfirmed c payload
  | .epoch =>
    let s := put s
    { s with sec := { s.sec with epoch := BitVec.ofNat 32 (ofLe payload), epochOk := true } }
  | .owned =>
    let new := ! s.owned && ! payload.isEmpty
    let s := if new then s.storeDrop (fun x => x == .cred 12) else s.storeDrop StoreKind.ownerKind
    let s := if payload.isEmpty then s
      else { s with sec := { s.sec with store := s.sec.store ++ [⟨.owned, seq, payload⟩, ⟨.cred 12, seq, payload⟩] } }
    if new then s.keysFromStore else s.keysFromStore.newChains
  | .recKey =>
    let s := (put s).keysFromStore
    { s with sec := { s.sec with newRecKey := none, newRecLeft := 0 } }.newChains
  | _ => (put s).keysFromStore

/-! ### Requests (R378) -/

/-- SEC_REQk_STAT: result, last opcode, output bytes; a BAD_AUTH is counted (R379). -/
def State.reqStat (s : State) (k op res out : Nat) : State :=
  let s := s.wr (Reg.secReqStat k) (BitVec.ofNat 32 (res + op * 256 + out * 65536))
  if res = 4 then (s.soot .sec 3).cnt Reg.secAuthFailCnt 15 0 else s

/-- A slot's request complete. -/
def State.reqDone (s : State) (k op res out : Nat) : State := (s.reqStat k op res out).irq .sec k

/-- Slot `k` has a request in progress: a store write, or records to be signed first. -/
def State.reqBusy (s : State) (k : Nat) : Bool :=
  s.sec.writes.any (fun w => w.slot == some k) || (s.sec.newRecKey.isSome && s.sec.newRecSlot == k)

/-- What a request answers: done with a result and outputs, or waiting for the store. -/
inductive ReqAnswer where
  | done (res : Nat) (out : List Byte)
  | wait (out : List Byte)
  deriving DecidableEq, Repr

/-- The inputs of slot `k`'s request block, read with a role: none unless it lies in system SRAM with a length to 512. -/
def State.reqBlock (s : State) (k : Nat) (r : Role) : Option (Nat × List Byte) :=
  let a := s.rd64 (Reg.secReqAddrLo k) (Reg.secReqAddrHi k) % 2 ^ 40
  if a % 4 ≠ 0 ∨ a < 0x10000000 ∨ 0x10400000 < a + 4 then none else
  let n := ofLe (s.rdMem a 4)
  if n < 4 ∨ 512 < n ∨ 0x10400000 < a + n ∨ (s.memFault r false a n).isSome then none
  else some (a, s.rdMem (a + 4) (n - 4))

/-- A request `op` of slot `k` (R378, R404): the enclave takes its inputs, acts for the caller's role, writes its outputs
and its status.  The debug port, none of whose requests but three are taken, brings its inputs and takes its answer. -/
def request (c : ReqCaller) (k op : Nat) (port : Bool) (f : Option Role → List Byte → State → ReqAnswer × State) (s : State) : Out :=
  match c with
  | .bus b => .next (busWrite b .sec (0x108 + 0x10 * k) (BitVec.ofNat 32 op) (fun s =>
      if s.reqBusy k then s.reqStat k op 9 0
      else if ! s.sec.enclaveOk then s.reqDone k op 8 0
      else match s.reqBlock k b.role with
        | none => s.reqDone k op 6 0
        | some (a, args) =>
          match f (some b.role) args s with
          | (.done res out, s) => ((s.wrMem (a + 4) out).reqDone k op res out.length).secShow
          | (.wait out, s) => ((s.wrMem (a + 4) out).reqStat k op 1 out.length).secShow) s)
  | .debugPort args =>
    if ! s.domOn 2 then .next s
    else if ! port then .next (s.reqDone k op 3 0)
    else if s.reqBusy k then .next (s.reqStat k op 9 0)
    else match f none args s with
      | (.done res out, s) => .next (({ s with sec := { s.sec with portAnswer := out } }).reqDone k op res out.length).secShow
      | (.wait out, s) => .next (({ s with sec := { s.sec with portAnswer := out } }).reqStat k op 1 out.length).secShow

/-- A request from a role in a mask, with inputs of a length; else DENIED, or BAD_ARGS. -/
def asked (mask n : Nat) (r : Option Role) (args : List Byte) (s : State) (f : State → ReqAnswer × State) : ReqAnswer × State :=
  if ! (match r with | some r => inMask mask r | none => true) then (.done 3 [], s)
  else if args.length ≠ n then (.done 6 [], s)
  else f s

/-- Every channel's RUN is 0 and every job table is empty (R387, R403). -/
def State.partIdle (s : State) : Bool :=
  (List.range 16).all (fun n => ! s.rdb (Reg.chCtrl n) 0 && (s.chan n).jobs.isEmpty) &&
    (List.range 8).all (fun k => (s.stn k).jobs.isEmpty)

/-- The nonce of slot `k`, used up (R380); `none` when there is none. -/
def State.takeNonce (s : State) (k : Nat) : Option (List Byte) × State :=
  let s' := { s with sec := { s.sec with nonces := tabPut none s.sec.nonces k none } }
  match tabGet none s.sec.nonces k with
  | some n => if s.now - n.at_ < 60 * secT then (some n.value, s') else (none, s')
  | none => (none, s')

/-- The signature `sig` by `key` over tag, UID, the slot's nonce and `rest` verifies (R380); the nonce is used up. -/
def State.tokenOk (s : State) (k : Nat) (tag rest : List Byte) (sig key : List Byte) : Bool × State :=
  match s.takeNonce k with
  | (some n, s) => (ecdsaOk key (sha256 (tag ++ s.otpBytes 0 16 ++ n ++ rest)) sig, s)
  | (none, s) => (false, s)

def tagRL : List Byte := [0x4B, 0x5A, 0x52, 0x4C]
def tagOT : List Byte := [0x4B, 0x5A, 0x4F, 0x54]
def tagOR : List Byte := [0x4B, 0x5A, 0x4F, 0x52]
def tagBR : List Byte := [0x4B, 0x5A, 0x42, 0x52]
def tagDB : List Byte := [0x4B, 0x5A, 0x44, 0x42]
def tagRM : List Byte := [0x4B, 0x5A, 0x52, 0x4D]
def tagRK : List Byte := [0x4B, 0x5A, 0x52, 0x4B]

/-- `key` is a credential of a role (R381); no OWNER credential serves while a debug level is open (R402). -/
def State.credentialOf (s : State) (role : Nat) (key : List Byte) : Bool :=
  if role = 1 then s.otpHashIs 0x40 key
  else if role = 2 then s.otpHashIs 0x100 key
  else if role = 3 ∧ s.debugLevel ≠ 0 then false
  else decide (3 ≤ role ∧ role ≤ 6) && (List.range 4).any (fun i => s.credKey (4 * role + i) == some key)

/-! ### The requests (R379) -/

/-- GET_CHALLENGE (R380). -/
def execGetChallenge (c : ReqCaller) (k : Fin 4) (s : State) : Out :=
  request c k.val 0x01 true (fun _ args s =>
    if ! args.isEmpty then (.done 6 [], s)
    else if ! s.sec.entropyOk then (.done 8 [], s)
    else
      let (n, s) := s.drawBytes 32
      (.done 2 n, { s with sec := { s.sec with nonces := tabPut none s.sec.nonces k.val (some ⟨n, s.now⟩) } })) s

/-- SET_ROLE (R381): context, role, public key, signature. -/
def execSetRole (c : ReqCaller) (k : Fin 4) (s : State) : Out :=
  request c k.val 0x02 false (fun r args s => asked mAny 130 r args s (fun s =>
    let ctx := (byteAt args 0).toNat
    let role := (byteAt args 1).toNat
    let key := slice args 2 64
    if 4 ≤ ctx ∨ 8 ≤ role then (.done 6 [], s)
    else if role = 0 ∨ role = 7 then (.done 3 [], s)
    else
      let (ok, s) := s.tokenOk k.val tagRL (args.take 2) (slice args 66 64) key
      if ok && s.credentialOf role key then (.done 2 [], s.wrf Reg.secCtxRole (4 * ctx + 2) (4 * ctx) role) else (.done 4 [], s))) s

/-- DROP_ROLE (R379): context, role. -/
def execDropRole (c : ReqCaller) (k : Fin 4) (s : State) : Out :=
  request c k.val 0x03 false (fun r args s => asked mAny 2 r args s (fun s =>
    let ctx := (byteAt args 0).toNat
    let role := (byteAt args 1).toNat
    if 4 ≤ ctx ∨ 8 ≤ role then (.done 6 [], s)
    else if role = 0 ∨ role = 1 ∨ role = 7 then (.done 3 [], s)
    else (.done 2 [], s.wrf Reg.secCtxRole (4 * ctx + 2) (4 * ctx) role))) s

/-- The credentials a caller may install (R379): OEM for SERVICE, OWNER for OPERATOR and LINE. -/
def credCaller (role : Nat) : Nat := if role = 4 then mOem else if role = 5 ∨ role = 6 then mOwner else 0

/-- CRED_SET (R379): role, index, public key. -/
def execCredSet (c : ReqCaller) (k : Fin 4) (s : State) : Out :=
  request c k.val 0x10 false (fun r args s =>
    let role := (byteAt args 0).toNat
    let i := (byteAt args 1).toNat
    asked (credCaller role) 66 r args s (fun s =>
      if 4 ≤ i ∨ (ecPoint (args.drop 2)).isNone then (.done 6 [], s)
      else (.wait [], s.storePush (.cred (4 * role + i)) (args.drop 2) (some k.val)))) s

/-- CRED_CLEAR (R379): role, index. -/
def execCredClear (c : ReqCaller) (k : Fin 4) (s : State) : Out :=
  request c k.val 0x11 false (fun r args s =>
    let role := (byteAt args 0).toNat
    let i := (byteAt args 1).toNat
    asked (credCaller role) 2 r args s (fun s =>
      if 4 ≤ i then (.done 6 [], s) else (.wait [], s.storePush (.cred (4 * role + i)) [] (some k.val)))) s

/-- TAKE_OWNERSHIP (R387): the owner's public key. -/
def execTakeOwnership (c : ReqCaller) (k : Fin 4) (s : State) : Out :=
  request c k.val 0x20 false (fun r args s => asked mOem 64 r args s (fun s =>
    if s.owned || ! s.partIdle then (.done 5 [], s)
    else if (ecPoint args).isNone then (.done 6 [], s)
    else (.wait [], s.storePush .owned args (some k.val)))) s

/-- TRANSFER_OWNERSHIP (R387): the new owner's key, and a signature by a current OWNER credential. -/
def execTransferOwnership (c : ReqCaller) (k : Fin 4) (s : State) : Out :=
  request c k.val 0x21 false (fun r args s => asked mOwner 128 r args s (fun s =>
    let key := args.take 64
    if ! s.owned || ! s.partIdle then (.done 5 [], s)
    else if (ecPoint key).isNone then (.done 6 [], s)
    else
      let signed := s.debugLevel = 0 ∧ (List.range 4).any (fun i => match s.credKey (12 + i) with
        | some o => (s.tokenOk k.val tagOT (sha256 key) (args.drop 64) o).1
        | none => false)
      let s := (s.takeNonce k.val).2
      if signed then (.wait [], s.storePush .owned key (some k.val)) else (.done 4 [], s))) s

/-- OWNER_RESET (R387): the OEM credential key (R381) and its signature.  Slots, lots, entries, LIMITs and the reject
policy go at once, the owner's entries with the store's write. -/
def execOwnerReset (c : ReqCaller) (k : Fin 4) (s : State) : Out :=
  request c k.val 0x22 false (fun r args s => asked mOem 128 r args s (fun s =>
    if ! s.partIdle then (.done 5 [], s) else
    let key := args.take 64
    let (ok, s) := s.tokenOk k.val tagOR [] (args.drop 64) key
    if ! (ok && s.credentialOf 2 key) then (.done 4 [], s) else
    let s := s.dmkOwnerReset
    let s := if s.domOn 4 then s.wr Reg.linPolicy (resetOf Reg.linPolicy) else s
    (.wait [], s.storePush .owned [] (some k.val)))) s

/-- TPL_KEY_SET (R388): index, public key. -/
def execTplKeySet (c : ReqCaller) (k : Fin 4) (s : State) : Out :=
  request c k.val 0x30 false (fun r args s => asked mOwner 65 r args s (fun s =>
    let i := (byteAt args 0).toNat
    if 4 ≤ i ∨ (ecPoint (args.drop 1)).isNone then (.done 6 [], s)
    else (.wait [], s.storePush (.tplKey i) (args.drop 1) (some k.val)))) s

/-- The new record key's write is asked for once the records pending at the request are signed (R393). -/
def State.recKeyGo (s : State) : State := match s.sec.newRecKey with
  | none => s
  | some key =>
    if (s.sec.newRecLeft = 0 ∨ s.sec.recKey.isNone) ∧ ! s.sec.writes.any (fun w => w.kind == .recKey) then
      s.storePush .recKey key (some s.sec.newRecSlot) else s

/-- REC_KEY_GEN (R393): the owner's wrap key; returns the ephemeral public key and the wrapped record key. -/
def execRecKeyGen (c : ReqCaller) (k : Fin 4) (s : State) : Out :=
  request c k.val 0x31 false (fun r args s => asked mOwner 64 r args s (fun s =>
    if ! s.sec.entropyOk then (.done 8 [], s)
    else if s.sec.newRecKey.isSome then (.done 5 [], s)
    else match ecPoint args with
      | none => (.done 6 [], s)
      | some q =>
        let (key, s) := s.drawBytes 32
        let (e, s) := s.drawBytes 32
        let d := ofBe e % (p256n - 1) + 1
        let shared := (ecBytes (ecMul d (some q))).take 32
        let out := ecBytes (ecMul d (some p256g)) ++ aesWrap (sha256 (shared ++ tagRK)) key
        let s := { s with sec := { s.sec with newRecKey := some key, newRecLeft := s.sec.pending.length, newRecSlot := k.val } }
        (.wait out, s.recKeyGo))) s

/-- PROG_KEY_SET (R379): its hash must be the OTP's. -/
def execProgKeySet (c : ReqCaller) (k : Fin 4) (s : State) : Out :=
  request c k.val 0x32 false (fun r args s => asked mOem 64 r args s (fun s =>
    if s.otpHashIs 0xE0 args then (.wait [], s.storePush .progKey args (some k.val)) else (.done 4 [], s))) s

/-- OEM fields of the OTP by offset: their length (R383). -/
def oemField : List (Nat × Nat) :=
  [(0x60, 32), (0x80, 32), (0xA0, 32), (0xC0, 32), (0xE0, 32), (0x100, 32), (0x120, 32), (0x140, 32), (0x160, 16), (0x170, 16),
    (0x180, 4), (0x184, 4)]

/-- PROVISION (R385): the field's offset in two bytes, then its value (DESIGN CHOICE, log entry 44). -/
def execProvision (c : ReqCaller) (k : Fin 4) (s : State) : Out :=
  request c k.val 0x40 false (fun r args s => asked mOem args.length r args s (fun s =>
    let a := leAt args 0 2
    match oemField.find? (fun f => f.1 == a) with
    | none => (.done 6 [], s)
    | some (_, n) =>
      if args.length ≠ n + 2 then (.done 6 [], s)
      else if s.lifecycle ≠ 1 ∨ ! s.otpBlank a n then (.done 5 [], s)
      else (.done 2 [], (s.otpOr a (args.drop 2)).otpShow))) s

/-- SECURE (R385). -/
def execSecure (c : ReqCaller) (k : Fin 4) (s : State) : Out :=
  request c k.val 0x41 false (fun r args s => asked mOem 0 r args s (fun s =>
    if s.lifecycle ≠ 1 ∨ s.otpBlank 0x60 32 ∨ s.otpBlank 0x100 32 ∨ s.otpBlank 0x140 32 ∨ s.otpBlank 0x160 16 then (.done 5 [], s)
    else (.done 2 [], s.otpOr 0x188 (thermo 8 2)))) s

/-- REVOKE_BOOT_KEY (R379, R384): slot, the OEM credential key (R381), its signature. -/
def execRevokeBootKey (c : ReqCaller) (k : Fin 4) (s : State) : Out :=
  request c k.val 0x42 false (fun r args s => asked mOem 129 r args s (fun s =>
    let slot := (byteAt args 0).toNat
    let key := slice args 1 64
    if 4 ≤ slot then (.done 6 [], s) else
    let (ok, s) := s.tokenOk k.val tagBR (args.take 1) (args.drop 65) key
    if ok && s.credentialOf 2 key then (.done 2 [], (s.otpOr 0x184 [BitVec.ofNat 8 (2 ^ slot)]).otpShow) else (.done 4 [], s))) s

/-- ROLLBACK_COMMIT (R401). -/
def execRollbackCommit (c : ReqCaller) (k : Fin 4) (s : State) : Out :=
  request c k.val 0x43 false (fun r args s => asked mOem 0 r args s (fun s =>
    (.done 2 [], (s.otpOr 0x190 (thermo 32 (s.rdf Reg.secBootVer 8 0))).otpShow))) s

/-- SET_BOOT_SLOT (R398): 0 slot A, 1 slot B. -/
def execSetBootSlot (c : ReqCaller) (k : Fin 4) (s : State) : Out :=
  request c k.val 0x44 false (fun r args s => asked mOem 1 r args s (fun s =>
    let slot := (byteAt args 0).toNat
    if 2 ≤ slot then (.done 6 [], s)
    else (.done 2 [], { s with sec := { s.sec with boot := { s.sec.boot with named := some slot } } }))) s

/-- DEBUG_UNLOCK (R402 to R404): level, public key, signature. -/
def execDebugUnlock (c : ReqCaller) (k : Fin 4) (s : State) : Out :=
  request c k.val 0x50 true (fun r args s => asked mOem 129 r args s (fun s =>
    let key := slice args 1 64
    if byteAt args 0 ≠ 1 then (.done 6 [], s)
    else if ! s.partIdle then (.done 5 [], s)
    else
      let (ok, s) := s.tokenOk k.val tagDB (args.take 1) (args.drop 65) key
      if ok && s.otpHashIs 0x120 key then (.done 2 [], s.wrf Reg.secStat 5 4 (Nat.max 1 s.debugLevel)) else (.done 4 [], s))) s

/-- RMA_UNLOCK (R402 to R404, R500): public key, signature; every OTP bit is set, the store and the log store are erased, and
the wear counters restart from 0. -/
def execRmaUnlock (c : ReqCaller) (k : Fin 4) (s : State) : Out :=
  request c k.val 0x51 true (fun r args s => asked 0x02 128 r args s (fun s =>
    let key := args.take 64
    if ! s.partIdle then (.done 5 [], s) else
    let (ok, s) := s.tokenOk k.val tagRM [] (args.drop 64) key
    if ! (ok && s.otpHashIs 0x40 key) then (.done 4 [], s) else
    let s := s.otpOr 0 (List.replicate 1024 0xFF)
    let s := { s with
      sec := { s.sec with store := [], writes := [], newRecKey := none, newRecLeft := 0 },
      bkg := { s.bkg with log := [], writes := [], wear := [], wearPart := [] } }
    (.done 2 [], (s.keysFromStore.wrf Reg.secStat 5 4 2).otpShow))) s

/-- RANDOM (R379): the length in two bytes. -/
def execRandom (c : ReqCaller) (k : Fin 4) (s : State) : Out :=
  request c k.val 0x60 false (fun r args s => asked mAny 2 r args s (fun s =>
    let n := leAt args 0 2
    if n = 0 ∨ 256 < n then (.done 6 [], s)
    else if ! s.sec.entropyOk then (.done 8 [], s)
    else let (l, s) := s.drawBytes n; (.done 2 l, s))) s

/-! ### Events of the enclave -/

/-- NONCE_EXPIRY (R380). -/
def execNonceExpiry (k : Fin 4) (s : State) : Out :=
  match tabGet none s.sec.nonces k.val with
  | some n =>
    if s.domOn 2 && decide (60 * secT ≤ s.now - n.at_) then
      .next { s with sec := { s.sec with nonces := tabPut none s.sec.nonces k.val none } }
    else .next s
  | none => .next s

/-- ENTROPY_FAILURE (R377). -/
def execEntropyFailure (s : State) : Out :=
  if ! s.domOn 2 then .next s else
  .next (({ s with sec := { s.sec with entropyOk := false } }).soot .sec 1).secShow

/-- ENTROPY_RECOVERY (R377): the health tests pass again. -/
def execEntropyRecovery (s : State) : Out :=
  if ! s.domOn 2 then .next s else
  .next ({ s with sec := { s.sec with entropyOk := true } }).secShow

/-- ENCLAVE_FAULT (R392, R407): requests in progress end with FAULT, nonces go, and the enclave restarts: it is out of
service, REC_READY 0, until it runs again, which is at once in this model (log entry 44). -/
def execEnclaveFault (s : State) : Out :=
  if ! s.domOn 2 then .next s else
  let s := forN 4 (fun k s => if s.rdf (Reg.secReqStat k) 3 0 = 1 then s.reqDone k (s.rdf (Reg.secReqStat k) 15 8) 8 0 else s) s
  let s := { s with sec := { s.sec with enclaveOk := false, nonces := [], newRecKey := none, newRecLeft := 0 } }.secShow
  .next ({ (s.soot .sec 0) with sec := { s.sec with enclaveOk := true } }).secShow

/-- A write of SEC_RGNr_BASE_LO (R382). -/
def State.regionBaseWrite (s : State) (r : Nat) (role : Role) (v : Word) : State :=
  let valid := s.rdb (Reg.secRgnBaseLo r) 6
  let size := fld v 5 0
  let base := s.rdf (Reg.secRgnBaseHi r) 7 0 * 2 ^ 32 + fld v 31 12 * 4096
  let mine := s.rdf (Reg.secRgnAcl r) 23 16 == 2 ^ roleBit role
  if (valid && ! mine) || (bit v 6 && (decide (size < 12) || decide (40 < size) || base % 2 ^ size != 0)) then s.soot .sec 7
  else
    let s := s.plainWrite (Reg.secRgnBaseLo r) v
    if bit v 6 then s.wrf (Reg.secRgnAcl r) 23 16 (2 ^ roleBit role) else s

/-- REGION_WRITE (R382). -/
def execRegionWrite (b : Bus) (r : Fin 16) (v : Word) (s : State) : Out :=
  .next (busWrite b .sec (0x200 + 0x10 * r.val) v (fun s => s.regionBaseWrite r.val b.role v) s)

/-- Whether a plain write of the SEC page is taken: a region's other registers only while it is empty (R382). -/
def State.secWriteOk (s : State) (off : Nat) : Bool :=
  ! (decide (0x200 ≤ off ∧ off < 0x300) && off % 16 != 0 && s.rdb (Reg.secRgnBaseLo ((off - 0x200) / 16)) 6)

/-! ### Records (R389 to R392) -/

/-- Bytes 0x00 to 0x2F of a record (R389). -/
def recordBytes (r : PendRec) (epoch : Word) (start : Bool) : List Byte :=
  leBytes 4 r.productId.toNat ++ leBytes 4 r.jobSeq.toNat ++ leBytes 4 epoch.toNat ++
    leBytes 4 (r.verdict.toNat + r.exit.toNat * 16 + r.chan * 256 + b2n r.noTrk * 4096 + b2n start * 8192 + b2n r.late * 16384 +
      r.templateId.toNat * 65536) ++
    leBytes 4 (r.unrec.toNat + r.stn.toNat * 65536 + r.partIdx.toNat * 2 ^ 24) ++ leBytes 4 r.contentCrc.toNat ++
    leBytes 8 r.stamp.toNat ++ leBytes 8 r.date.toNat ++ leBytes 8 r.serial.toNat

/-- The key that signs now: none between REC_KEY_GEN's last old record and its new key (R393). -/
def State.signKey (s : State) : Option (List Byte) :=
  if s.sec.newRecKey.isSome ∧ s.sec.newRecLeft = 0 then none else s.sec.recKey

/-- RECORD_SIGN (R390 to R393): the oldest pending record, signed in its channel's chain and pushed. -/
def execRecordSign (s : State) : Out :=
  match s.sec.pending, s.signKey with
  | r :: rest, some key =>
    let q := 4 * r.chan + 2
    let held := (s.queue q).resv != 0
    if ! s.recReady || ! s.domOn 4 || (! held && ! (s.queue q).canPush) then .next s else
    let h := s.chain r.chan
    let body := recordBytes r s.sec.epoch h.needNew
    let p := if h.needNew then List.replicate 16 0 else h.mac
    let mac := (hmacSha256 key (p ++ body)).take 16
    let s := if held then s.qPushReserved q (body ++ mac) else s.qAppend q (body ++ mac)
    let s := s.setChain r.chan ⟨mac, if h.needNew then 1 else h.recs + 1, false⟩
    let s := if h.needNew then s.irq .sec 5 else s
    let s := { s with sec := { s.sec with pending := rest, newRecLeft := s.sec.newRecLeft - 1 } }
    .next ((s.wr Reg.secRecCnt (s.rd Reg.secRecCnt + 1)).recKeyGo).secShow
  | _, _ => .next s

/-- CHAIN_CAPTURE (R406). -/
def execChainCapture (b : Bus) (v : Word) (s : State) : Out :=
  .next (busWrite b .sec 0x90 v (fun s =>
    let s := s.plainWrite Reg.secChainSel v
    let h := s.chain (fld v 3 0)
    let s := forN 4 (fun i s => s.wr (Reg.secChainMac i) (BitVec.ofNat 32 (leAt h.mac (4 * i) 4))) s
    s.wr Reg.secChainRecs h.recs) s)

/-! ### Store writes (R386) -/

/-- The first write that is not waiting to be retried, and the writes without it. -/
def nextWrite : List StoreWrite → Option (StoreWrite × List StoreWrite)
  | [] => none
  | w :: l => if w.retryAt.isNone then some (w, l) else match nextWrite l with
    | some (x, r) => some (x, w :: r)
    | none => none

/-- The opcode a slot's status shows. -/
def State.reqOp (s : State) (k : Nat) : Nat := s.rdf (Reg.secReqStat k) 15 8

/-- STORE_WRITE_CONFIRM (R386): the entry reads back, or it does not. -/
def execStoreWriteConfirm (ok : Bool) (s : State) : Out :=
  if ! s.domOn 2 then .next s else
  match nextWrite s.sec.writes with
  | none => .next s
  | some (w, rest) =>
    if ok then
      let s := { s with sec := { s.sec with writes := rest } }
      let s := s.storeApply w.kind w.payload
      let s := match w.slot with
        | some k => if s.rdf (Reg.secReqStat k) 3 0 = 1 then s.reqDone k (s.reqOp k) 2 (s.rdf (Reg.secReqStat k) 31 16) else s
        | none => s
      .next s.secShow
    else
      let again : StoreWrite := ⟨w.kind, w.payload, w.slot, some (s.now + 10 * msT)⟩
      let s := { s with sec := { s.sec with writes := s.sec.writes.map (fun x => if x = w then again else x) } }
      let s := match w.slot with
        | some k => if s.rdf (Reg.secReqStat k) 3 0 = 1 then s.reqDone k (s.reqOp k) 7 0 else s
        | none => s
      let s := match w.kind with
        | .serial _ => s.serialFailed
        | _ => s
      .next (s.soot .sec 5)

/-- STORE_WRITE_RETRY (R386): 10 ms after it failed the write is made again. -/
def execStoreWriteRetry (s : State) : Out :=
  if ! s.domOn 2 || ! s.sec.writes.any (fun w => w.retryAt.isSome && s.due w.retryAt) then .next s else
  let s := { s with sec := { s.sec with writes := s.sec.writes.map (fun (w : StoreWrite) => if s.due w.retryAt then { w with retryAt := none } else w) } }
  .next (s.soot .sec 5)

/-! ### Keys for signed objects (R388, R397) -/

/-- A mark program's signature verifies: key 0 is Plyneth's, 1 the OEM program key. -/
def State.progSigOk (s : State) (key : Nat) (hash sig : List Byte) : Bool :=
  s.domOn 2 && s.sec.enclaveOk && (match key with
    | 0 => ecdsaOk (Config.plynethKey 0) hash sig
    | 1 => (match s.sec.progKey with
      | some k => ecdsaOk k hash sig
      | none => false)
    | _ => false)

/-- The Fireguard configuration image's own key and signature (R388, R418). -/
def State.verifySafety (s : State) (img : List Byte) : Bool :=
  let body := img.take (img.length - 64)
  let key := body.drop (body.length - 64)
  decide (128 ≤ img.length) && s.otpHashIs 0x140 key && ecdsaOk key (sha256 body) (img.drop (img.length - 64))

/-! ### Boot headers (R395, R396) -/

/-- Flash offset of a slot's header; its 256 bytes. -/
def State.bootOfs (s : State) (slot : Nat) : Nat :=
  if slot = 0 then 0 else let m := (s.otpByte 0x182).toNat; (if m = 0 then 8 else m) * 2 ^ 20
def State.bootHeader (s : State) (slot : Nat) : List Byte := s.flashRd (s.bootOfs slot) 256

/-- The slot Kindling tries next (R398): the one named, else the one that booted last, else A; then the other. -/
def State.bootSlot (s : State) : Nat :=
  let b := s.sec.boot
  let first := match b.named, b.last with
    | some x, _ => x
    | none, some x => x
    | none, none => 0
  if b.failed = 0 then first else 1 - first

/-- Fields of a header. -/
def hdrSram (h : List Byte) : Bool := (byteAt h 3).getLsbD 0
def hdrEntry (h : List Byte) : Nat := leAt h 0x18 5

/-- Check 1 (R397): the header is valid. -/
def headerOk (h : List Byte) : Bool :=
  leAt h 0 2 == 0x4B44 && byteAt h 2 == 1 && (byteAt h 3).toNat / 2 == 0 && decide (leAt h 4 4 ≤ 256) &&
    decide (leAt h 0x24 4 ≤ 3670016) && (slice h 0x70 16).all (fun b => b == 0) && slice h 0x15 3 == [0, 0, 0] && slice h 0x1D 3 == [0, 0, 0]

/-- Check 2 (R384): the lifecycle allows the header's key. -/
def State.bootKeyOk (s : State) (key : List Byte) : Bool :=
  match s.lifecycle with
  | 0 => key == Config.plynethKey 1
  | 1 => s.otpBlank 0x60 32 || s.otpHashIs 0x60 key
  | 2 => (List.range 4).any (fun i => ! (s.otpByte 0x184).getLsbD i && s.otpHashIs (0x60 + 32 * i) key)
  | _ => s.otpHashIs 0x40 key

/-- Checks 1 to 4 of R397: the cause of the first that fails. -/
def State.headerFault (s : State) (h : List Byte) : Option Nat :=
  let key := slice h 0x80 64
  if ! headerOk h then some 2
  else if ! s.bootKeyOk key then some 3
  else if ! ecdsaOk key (sha256 (h.take 0xC0)) (slice h 0xC0 64) then some 4
  else if leAt h 4 4 < s.rollback then some 5
  else none

/-- The Fireguard configuration the header of the slot in hand names (R397, check 5). -/
def State.fgImage (s : State) : Option (List Byte) :=
  let h := s.bootHeader s.bootSlot
  let n := leAt h 0x2C 4
  if ! s.domOn 2 || ! headerOk h || n = 0 || decide (16384 < n) then none else some (s.flashRd (leAt h 0x28 4) n)

/-- An attempt on a slot fails (R397, R398): counted, its cause kept; when both have failed Kindling waits.  After cause 7
every switched domain is reset before the next attempt (R421). -/
def State.attemptFailed (s : State) (slot cause : Nat) : State :=
  let s := (s.cnt Reg.secBootAttempts 15 0).cnt Reg.secBootAttempts 31 16
  let s := (s.wrf Reg.secBootStat (4 * slot + 7) (4 * slot + 4) cause).irq .sec 6
  let b : BootState := { s.sec.boot with resetFirst := cause == 7 }
  if b.failed = 0 then { s with sec := { s.sec with boot := { b with failed := 1 } } }
  else
    let wait := Nat.min (2 ^ b.waits) 64
    let s := { s with sec := { s.sec with boot := { b with failed := 0, waits := b.waits + 1, waitTo := some (s.now + wait * secT), recHeader := [] } } }
    s.soot .sec 4
def State.bootCause (s : State) (cause : Nat) : State := s.attemptFailed s.bootSlot cause

/-- Core 0 starts at ENTRY (R400): FGD locked, every context OEM; `slot` booted, or none for a recovery image. -/
def State.handOverWith (s : State) (h : List Byte) (slot : Option Nat) (sram : Bool) : State :=
  let s := s.wrb (Reg.pgLock .fgd) 0 true
  let s := (s.wr Reg.secCtxRole 0x2222).wr Reg.secBootVer (BitVec.ofNat 32 (leAt h 4 4 % 512))
  let s := (s.wrb Reg.secBootStat 1 slot.isNone).wrb Reg.secBootStat 2 sram
  let s := match slot with
    | some k => s.wrb Reg.secBootStat 0 (k == 1)
    | none => s
  let b := s.sec.boot
  let last := match slot with
    | some k => some k
    | none => b.last
  let named := match slot with
    | some _ => none
    | none => b.named
  { s with sec := { s.sec with boot := {
      named := named, last := last, failed := 0, waits := 0, waitTo := none, recHeader := [], answer := b.answer,
      core0 := some (BitVec.ofNat 40 (hdrEntry h)), resetFirst := false } } }

/-- The main image lies verified in place in DRAM (R489). -/
def State.imageInPlace (s : State) : Bool :=
  let h := s.bootHeader s.bootSlot
  let a := leAt h 0x10 5
  let n := leAt h 0xC 4
  s.domOn 2 && (s.headerFault h).isNone && s.cfgOk && s.domOn 5 && s.inDram a n && sha256 (s.rdMem a n) == slice h 0x30 32

/-- Kindling hands over the image in place (R400, R489). -/
def State.handOver (s : State) : State :=
  (s.handOverWith (s.bootHeader s.bootSlot) (some s.bootSlot) false).cnt Reg.secBootAttempts 15 0

/-- PD2 comes on: the registers the OTP and the store give, and the epoch a new chain still waits for (R383, R386, R391). -/
def State.secPowerUp (s : State) : State :=
  let s := s.keysFromStore.otpShow
  let s := match s.storeOf .epoch with
    | some p => if s.sec.epochOk then s else { s with sec := { s.sec with epoch := BitVec.ofNat 32 (ofLe p) } }
    | none => s
  let s := if s.sec.epochOk then s else s.newChains
  s.secShow

end Sys2Proof.Machine
end

