-- ==== Sys2Proof/Machine/SynthBase.lean ====
section
/-! DEFINITION. Synthesisers: their codes, an acquisition's start, start-up step 5 (spec/16, R444 to R450; R479). -/
namespace Sys2Proof.Machine

/-- SYNs_STAT.STATE codes (R465). -/
def synAcquire : Nat := 1
def synLocked : Nat := 2
def synBypass : Nat := 3
def synWait : Nat := 4

/-- Synthesiser `y`'s state code; its RUN bit; CLK_STAT.REF_OK. -/
def State.synSt (s : State) (y : Nat) : Nat := s.rdf (Reg.clkSynStat y) 2 0
def State.synRunning (s : State) (y : Nat) : Bool := s.rdb (Reg.clkSynCfg y) 8
def State.refOk (s : State) : Bool := s.rdb Reg.clkStat 8

/-- LOCK_WIN in ps, and whether a phase error lies in it (R446). -/
def State.lockWin (s : State) : Nat := s.rdf Reg.clkLockCfg 4 0 * 10
def State.errIn (s : State) (err : BitVec 16) : Bool := decide (err.toInt.natAbs ≤ s.lockWin)

/-- The band entry of the bin in force (R444). -/
def State.bandOfBin (s : State) (y : Nat) : Nat := s.rdf (Reg.clkSynBand y (s.rdf (Reg.clkSynStat y) 7 4)) 7 0

/-- The last phase error and the largest since lock (R465). -/
def State.phErr (s : State) (y : Nat) (err : BitVec 16) : State :=
  let s := s.wrf (Reg.clkSynPherr y) 15 0 err.toNat
  s.wrf (Reg.clkSynPherr y) 30 16 (Nat.max (s.rdf (Reg.clkSynPherr y) 30 16) err.toInt.natAbs)

/-- Synthesiser `y` starts acquiring lock with the band of the bin in force (R444, R446, R450); with the reference lost it
waits (R450). -/
def State.synAttempt (s : State) (y : Nat) : State :=
  if s.refOk then
    let s := s.wrf (Reg.clkSynStat y) 2 0 synAcquire
    let s := s.wrf (Reg.clkSynStat y) 15 8 (s.bandOfBin y)
    let s := s.wrb Reg.clkStat (12 + y) true
    s.updSyn y (fun x => { x with waitAt := none, attemptAt := some s.now })
  else (s.wrf (Reg.clkSynStat y) 2 0 synWait).updSyn y (fun x => { x with waitAt := none, attemptAt := none })

/-- Start-up step 5 (R479): every synthesiser is set to RUN. -/
def State.startSynths (s : State) : State :=
  forN 4 (fun y s =>
    if s.synRunning y then s else
    ((s.wrb (Reg.clkSynCfg y) 8 true).updSyn y (fun x => { x with backoff := 4000 })).synAttempt y) (s.setBootStep 5)

end Sys2Proof.Machine
end

