-- ==== Sys2Proof/Machine/Fireguard.lean ====
section
/-! DEFINITION. Fireguard and the fault collector: enables, safe states, the second path, self-test, the signed configuration, sources and steps (spec/15, R408 to R442). -/
namespace Sys2Proof.Machine

/-- Every laser channel; every channel. -/
def State.laserChans (s : State) : List Nat := numsWhere 16 s.isLaser

/-! ### Enables and SAFE_OUT (R413, R426) -/

/-- An interlock's two channels mean closed (R410). -/
def ilkClosed (anti l1 l2 : Bool) : Bool := l1 && (l2 != anti)
/-- They show the open state together (R411). -/
def ilkBothOpen (anti l1 l2 : Bool) : Bool := ! l1 && (l2 == anti)

/-- Fields of FGD_ILK_CFG for interlock `x`: EN, ANTIVALENT, DISC_T in ticks. -/
def State.ilkEn (s : State) (x : Nat) : Bool := s.rdb Reg.fgdIlkCfg (8 * x)
def State.ilkAnti (s : State) (x : Nat) : Bool := s.rdb Reg.fgdIlkCfg (8 * x + 1)
def State.ilkDiscT (s : State) (x : Nat) : Nat := s.rdf Reg.fgdIlkCfg (8 * x + 5) (8 * x + 2) * msT

/-- Every enabled interlock is closed, with no DISC flag set. -/
def State.ilksOk (s : State) : Bool :=
  (List.range 4).all (fun x => ! s.ilkEn x || (s.rdb Reg.fgdStat (4 + x) && ! s.rdb Reg.fgdStat (8 + x)))

/-- The conditions of enable `k` (R413). -/
def State.enableOk (s : State) (k : Nat) : Bool :=
  s.cfgOk && s.rdb Reg.fgdStat 1 && s.rdb Reg.fgdLenCfg (16 + k) && ! s.deviceSafe && s.ilksOk && s.rdb Reg.fgdStat 3 &&
    ! s.railBlocks (16 + k) &&
    (List.range 16).any (fun n =>
      (s.rdb Reg.fgdLenCfg n == (k == 1)) && s.isLaser n && s.rdb (Reg.chCtrl n) 0 && ! s.inSafe n)

/-- Enable `k` commanded. -/
def State.lenOn (s : State) (k : Nat) : Bool := s.rdb Reg.fgdLenStat (4 * k)

/-- Enable `k` commanded on or off: its pins and status (R409, R440). -/
def State.setLen (s : State) (k : Nat) (on : Bool) : State :=
  if s.lenOn k = on then s else
  let s := s.wrf Reg.fgdLenStat (4 * k + 2) (4 * k) (if on then 3 else 4)
  let s := s.wrb Reg.fgdStat (12 + k) on
  let m : BitVec 2 := BitVec.ofNat 2 (2 ^ k)
  let s := { s with pins := { s.pins with len := if on then s.pins.len ||| m else s.pins.len &&& ~~~m } }
  let s := { s with fgd := { s.fgd with offAt := tabPut none s.fgd.offAt k none } }
  s.irq .fgd 0

/-- Both enables fall at once (R413, R414). -/
def State.lenDrop (s : State) : State := (s.setLen 0 false).setLen 1 false

/-- Each asserted enable whose conditions no longer hold starts its off-delay (R413), and FGD_LEN_STAT shows what a rail
blocks. -/
def State.enableCheck (s : State) : State :=
  let s := (s.wrb Reg.fgdLenStat 8 (s.railBlocks 16)).wrb Reg.fgdLenStat 9 (s.railBlocks 17)
  forN 2 (fun k s =>
    if s.lenOn k && ! s.enableOk k && (tabGet none s.fgd.offAt k).isNone then
      { s with fgd := { s.fgd with
        offAt := tabPut none s.fgd.offAt k (some (s.now + s.rdf Reg.fgdLenCfg 27 20 * 10 * usT)) } }
    else s) s

/-- SAFE_OUT: high while CFG_OK and SELFTEST_OK are 1 and the part is not in DEVICE_SAFE (R426). -/
def State.safeOutUpdate (s : State) : State :=
  let on := s.cfgOk && s.rdb Reg.fgdStat 1 && ! s.deviceSafe
  let s := s.wrb Reg.fgdStat 14 on
  { s with pins := { s.pins with safeOut := on } }

/-! ### The safe states (R423, R424, R438) -/

/-- A channel enters CHANNEL_SAFE (R423). -/
def State.channelSafeEnter (s : State) (n : Nat) : State :=
  let s := s.wrb Reg.fltChSafe n true
  let s := s.cnt Reg.fltStepCnt 31 16
  let s := s.abortChannelJobs n false
  let s := s.cut n 7
  let s := if s.isLaser n then s.laserSafe n else s.thermSafe n
  let s := s.drivesChannelSafe n
  let s := (s.setStat (chPage n 0) 5).setStat (chPage n 3) 5
  s.enableCheck

/-- The second-path latch and the page states of a channel that is no longer in SAFE (R423). -/
def State.channelUnsafe (s : State) (n : Nat) : State :=
  let s := if (s.forcesOf n).isEmpty then s.uncut n else s
  let s := if s.isLaser n then s.laserSafeEnd n else s.thermSafeEnd n
  s.chanIdleState n

/-- A channel leaves CHANNEL_SAFE (R423). -/
def State.channelSafeLeave (s : State) (n : Nat) : State :=
  let s := s.wrb Reg.fltChSafe n false
  if s.deviceSafe then s else s.channelUnsafe n

/-- The part enters DEVICE_SAFE (R424). -/
def State.deviceSafeEnter (s : State) : State :=
  let s := s.wrb Reg.fltStat 0 true
  let s := s.cnt Reg.fltStepCnt 15 0
  let s := s.irq .flt 4
  let s := forN 16 (fun n s =>
    let s := s.cut n 7
    let s := s.abortChannelJobs n true
    let s := if s.isLaser n then s.laserSafe n else s.thermSafe n
    (s.setStat (chPage n 0) 5).setStat (chPage n 3) 5) s
  let s := s.safeOutUpdate
  let s := s.drivesDeviceSafe
  let s := s.rejectsSafe
  let s := s.lsrUpdate
  s.enableCheck

/-- The part leaves DEVICE_SAFE (R438). -/
def State.deviceSafeLeave (s : State) : State :=
  let s := s.wrb Reg.fltStat 0 false
  let s := s.irq .flt 5
  let s := s.rejectsSafeEnd
  let s := s.drivesSafeLeft
  let s := s.safeOutUpdate
  let s := forN 16 (fun n s => if s.chanSafe n then s else s.channelUnsafe n) s
  s.lsrUpdate

/-- The safe states brought to what the sources and the hardware paths hold (R432, R438): DEVICE_SAFE first, for the
strongest reaction governs. -/
def State.safeUpdate (s : State) : State :=
  let s := s.wrb Reg.fltStat 3 s.clockHold
  let s := if s.deviceHeld && ! s.deviceSafe then s.deviceSafeEnter else s
  let s := forN 16 (fun n s =>
    let held := s.srcHoldsChannel n || s.clockHold
    if held && ! s.chanSafe n then s.channelSafeEnter n
    else if ! held && s.chanSafe n then s.channelSafeLeave n
    else s) s
  if ! s.deviceHeld && s.deviceSafe then s.deviceSafeLeave else s

/-- A hardware path takes or gives up DEVICE_SAFE (R402, R417, R461). -/
def State.holdDevice (s : State) (h : DevHold) : State :=
  (if s.flt.holds.contains h then s else { s with flt := { s.flt with holds := h :: s.flt.holds } }).safeUpdate
def State.dropHold (s : State) (h : DevHold) : State :=
  ({ s with flt := { s.flt with holds := s.flt.holds.filter (fun x => x ≠ h) } }).safeUpdate

/-- The clock-loss force or the bypass force on every gate and strobe, and its end (R415). -/
def State.clockForces (s : State) (clock bypass : Bool) : State :=
  let s := { s with flt := { s.flt with clockForce := clock, bypassForce := bypass } }
  if ! s.domOn 1 then s else
  let s := s.wrb Reg.fgdStat 16 (clock || bypass)
  let s := if clock || bypass then forN 16 (fun n s => s.force n 6) s else s
  let s := s.safeUpdate
  if clock || bypass then s else forN 16 (fun n s => s.unforce n 6) s

/-! ### Interlocks, key switch, enables -/

/-- INTERLOCK_OPEN (R410, R411): an interlock's sensed levels now mean open. -/
def execInterlockOpen (x : Fin 4) (l1 l2 : Bool) (s : State) : Out :=
  let anti := s.ilkAnti x.val
  if ilkClosed anti l1 l2 then .next s else
  let both := ilkBothOpen anti l1 l2
  let k := s.ilk x.val
  let s := s.setIlk x.val { k with
    l1 := l1, l2 := l2, disagreeAt := if both then none else (match k.disagreeAt with | some t => some t | none => some s.now),
    openShown := k.openShown || both }
  if ! s.domOn 1 || ! s.ilkEn x.val then .next s else
  let wasClosed := s.rdb Reg.fgdStat (4 + x.val)
  let s := s.wrb Reg.fgdStat (4 + x.val) false
  let s := forL s.laserChans (fun n s => s.force n 1) s
  let s := if wasClosed || ! s.rdb (Reg.pgSoot .fgd) (2 + x.val) then s.soot .fgd (2 + x.val) else s
  let s := s.irq .fgd 3
  .next s.enableCheck

/-- INTERLOCK_CLOSE (R410, R411): both channels show closed; with DISC set only after both have shown open together. -/
def execInterlockClose (x : Fin 4) (l1 l2 : Bool) (s : State) : Out :=
  let anti := s.ilkAnti x.val
  if ! ilkClosed anti l1 l2 then .next s else
  let k := s.ilk x.val
  let s := s.setIlk x.val { k with l1 := l1, l2 := l2, disagreeAt := none }
  if ! s.domOn 1 || ! s.ilkEn x.val then .next s else
  if s.rdb Reg.fgdStat (8 + x.val) && ! k.openShown then .next s else
  let s := s.wrb Reg.fgdStat (8 + x.val) false
  let s := s.wrb Reg.fgdStat (4 + x.val) true
  let s := if s.ilksOk then forL s.laserChans (fun n s => s.unforce n 1) s else s
  let s := s.sootOff .fgd (2 + x.val)
  .next (s.irq .fgd 3)

/-- INTERLOCK_DISCREPANCY (R411): the two channels have disagreed for longer than DISC_T. -/
def execInterlockDiscrepancy (x : Fin 4) (s : State) : Out :=
  match (s.ilk x.val).disagreeAt with
  | none => .next s
  | some t =>
    if ! s.domOn 1 || ! s.ilkEn x.val || decide (s.now ≤ t + s.ilkDiscT x.val) then .next s else
    let s := s.wrb Reg.fgdStat (8 + x.val) true
    let s := s.updIlk x.val (fun k => { k with openShown := false })
    .next ((s.irq .fgd 3).enableCheck)

/-- KEY_SWITCH_CHANGE (R412): a condition, not a fault. -/
def execKeySwitchChange (high : Bool) (s : State) : Out :=
  let s := { s with fgd := { s.fgd with keyHigh := high } }
  if ! s.domOn 1 then .next s else
  let s := s.wrb Reg.fgdStat 3 high
  let s := if high then forL s.laserChans (fun n s => s.unforce n 8) s else forL s.laserChans (fun n s => s.force n 8) s
  .next s.enableCheck

/-- ENABLE_ASSERT (R413): every condition of enable `k` holds. -/
def execEnableAssert (k : Fin 2) (s : State) : Out :=
  if s.domOn 1 && s.enableOk k.val && ! s.lenOn k.val then .next (s.setLen k.val true) else .next s

/-- ENABLE_OFF_DELAY_END (R413): LEN_OFF_DLY after a condition failed the enable falls. -/
def execEnableOffDelayEnd (k : Fin 2) (s : State) : Out :=
  if s.due (tabGet none s.fgd.offAt k.val) then .next (s.setLen k.val false) else .next s

/-- ENABLE_READBACK_MISMATCH (R413): a sensed safety output differs from its command for 1 µs. -/
def execEnableReadbackMismatch (o : LenSense) (s : State) : Out :=
  if ! s.domOn 1 then .next s else
  match o with
  | .len k p n =>
    let cmd := s.lenOn k.val
    if p = cmd ∧ n = ! cmd then .next s else
    let s := (s.wrb Reg.fgdLenStat (4 * k.val + 1) p).wrb Reg.fgdLenStat (4 * k.val + 2) n
    .next ((s.soot .fgd 7).lenDrop)
  | .safeOut level =>
    if level = s.pins.safeOut then .next s else .next ((s.soot .fgd 7).lenDrop)

/-- READBACK_MISMATCH (R414): a gate, strobe or reject pin differs from its command for 1 µs. -/
def execReadbackMismatch (p : FgPin) (s : State) : Out :=
  if ! s.domOn 1 then .next s else
  match p with
  | .gate n on =>
    let s := s.wrb Reg.fgdGateSense n.val on
    if on = s.pins.gate.getLsbD n.val then .next s else
    let s := s.wrb Reg.fgdGateMm n.val true
    .next (((s.cut n.val 2).soot .fgd 6).lenDrop)
  | .strobe n on =>
    let s := s.wrb Reg.fgdGateSense (16 + n.val) on
    if on = s.pins.strobe.getLsbD n.val then .next s else
    let s := s.wrb Reg.fgdGateMm (16 + n.val) true
    .next ((s.cut n.val 9).srcEvent (96 + 8 * n.val + 3))
  | .reject j level =>
    if level = s.pins.rej.getLsbD j.val then .next s else
    .next ((s.wrb Reg.fgdRejMm j.val true).soot .lin 9)

/-- DUTY_WINDOW_CHECK (R414): the duty of IO11 over 1 ms, in 1/65,536, against the OEM limit in force (R213). -/
def execDutyWindowCheck (n : Fin 16) (duty : BitVec 16) (s : State) : Out :=
  if ! s.domOn 1 || ! s.isLaser n.val then .next s else
  match s.lpLimit n.val with
  | none => .next s
  | some (maxDuty, _) =>
    if duty.toNat ≤ maxDuty then .next s else .next ((s.cut n.val 3).srcEvent (96 + 8 * n.val + 3))

/-! ### Clocks, cores, supply, self-test -/

/-- SYN0 runs in bypass (R415, R465). -/
def State.syn0Bypass (s : State) : Bool := s.rdf (Reg.clkSynStat 0) 2 0 != 2

/-- CLOCK_MONITOR_WINDOW (R415): edges of the reference and of the fabric clock over 16 in 1 µs; 25 of each are expected. -/
def execClockMonitorWindow (refEdges fabEdges : Nat) (s : State) : Out :=
  if ! s.domOn 1 then .next s else
  let lost := decide (2 * refEdges < 25) || (! s.syn0Bypass && decide (2 * fabEdges < 25))
  if lost then
    let s := if s.flt.clockForce then s else s.clockForces true s.flt.bypassForce
    .next (if s.rdb (Reg.pgSoot .fgd) 8 then s else s.soot .fgd 8)
  else if s.flt.clockForce && s.rdb Reg.clkStat 8 then
    .next ((s.clockForces false s.flt.bypassForce).sootOff .fgd 8)
  else .next s

/-- FG_OSC_DEVIATION (R415): Fireguard's oscillator, in 10 kHz units, beyond ±5 % of 100 MHz for 100 µs. -/
def execFgOscDeviation (freq : BitVec 16) (s : State) : Out :=
  if ! s.domOn 1 then .next s else
  let s := s.wrf Reg.fgdOsc 15 0 freq.toNat
  if freq.toNat < 9500 ∨ 10500 < freq.toNat then .next (s.soot .fgd 8) else .next s

/-- Fireguard's cores are reset and must pass the self-test again (R416). -/
def State.fgCoreReset (s : State) : State :=
  let s := (s.wrb Reg.fgdStat 2 false).wrb Reg.fgdStat 1 false
  (s.safeOutUpdate).enableCheck

/-- LOCKSTEP_MISMATCH (R416). -/
def execLockstepMismatch (s : State) : Out :=
  if ! s.domOn 1 then .next s else
  .next (((s.cnt Reg.fgdWdtCnt 31 16).soot .fgd 0).fgCoreReset)

/-- FG_WATCHDOG_EXPIRY (R416). -/
def execFgWatchdogExpiry (s : State) : Out :=
  if ! s.domOn 1 then .next s else
  .next (((s.cnt Reg.fgdWdtCnt 15 0).soot .fgd 1).fgCoreReset)

/-- SUPPLY_WINDOW_FAULT (R416). -/
def execSupplyWindowFault (s : State) : Out :=
  if ! s.domOn 1 then .next s else .next ((s.wrb Reg.fgdStat 17 false).soot .fgd 11)

/-- The self-test starts (R417). -/
def State.selftestBegin (s : State) : State :=
  let s := s.wrf Reg.fgdSelftest 1 0 1
  let s := s.cnt Reg.fgdSelftest 31 16
  let s := s.wrb Reg.fgdStat 2 true
  { s with fgd := { s.fgd with retryAt := none } }

/-- FG_SELFTEST_START (R417): at start-up step 4 and after every core reset. -/
def execFgSelftestStart (s : State) : Out :=
  if s.domOn 1 && ! s.rdb Reg.fgdStat 1 && s.rdf Reg.fgdSelftest 1 0 != 1 && s.fgd.retryAt.isNone then
    .next s.selftestBegin
  else .next s

/-- The failed path's source is raised (R417): a source of FGD's own through its soot bit. -/
def State.raiseFgSrc (s : State) (src : Nat) : State :=
  if src ≤ 12 ∧ src ≠ 10 then s.soot .fgd src else s.srcEvent src

/-- FG_SELFTEST_DONE (R417).  On a pass Fireguard clears soot bits 0 and 1 (R435). -/
def execFgSelftestDone (r : TestResult) (s : State) : Out :=
  if s.rdf Reg.fgdSelftest 1 0 != 1 then .next s else
  match r with
  | .pass =>
    let s := (s.wrf Reg.fgdSelftest 1 0 2).wrf Reg.fgdSelftest 11 4 0
    let s := (s.wrb Reg.fgdStat 1 true).wrb Reg.fgdStat 17 true
    let s := (s.sootOff .fgd 0).sootOff .fgd 1
    let s := ((s.irq .fgd 2).dropHold .selftest).safeOutUpdate
    .next (if s.bootAt 4 then s.startSynths else s)
  | .fail item src =>
    let s := (s.wrf Reg.fgdSelftest 1 0 3).wrf Reg.fgdSelftest 11 4 item.toNat
    let s := { s with fgd := { s.fgd with retryAt := some (s.now + secT) } }
    .next (((s.irq .fgd 2).raiseFgSrc src.toNat).holdDevice .selftest)

/-- FG_SELFTEST_RETRY (R417): 1 s after a failure. -/
def execFgSelftestRetry (s : State) : Out :=
  if s.domOn 1 && s.due s.fgd.retryAt then .next s.selftestBegin else .next s

/-- FG_PERIODIC_TEST (R417): the items repeated while the part runs.  DESIGN CHOICE (log entry 8): a pass is where Fireguard
clears its soot bits GATE_RB, LEN_RB and SUPPLY, whose conditions' ends have no row of their own (R435). -/
def execFgPeriodicTest (r : TestResult) (s : State) : Out :=
  if ! s.domOn 1 || ! s.rdb Reg.fgdStat 1 then .next s else
  match r with
  | .pass => .next ((((s.wrb Reg.fgdStat 17 true).sootOff .fgd 6).sootOff .fgd 7).sootOff .fgd 11)
  | .fail item src => .next ((s.wrf Reg.fgdSelftest 11 4 item.toNat).raiseFgSrc src.toNat)

/-! ### The signed configuration (R418 to R421) -/

/-- The registers a configuration entry may write, as keys of State.regs (R419).  A port page's offset names the thermal
register, the laser one, or both (DESIGN CHOICE, log entry 9: the entry carries an address only). -/
def fgTargets (a : Nat) : List Nat :=
  let off := a % 4096
  let f := a / 4096
  if f = 0x40060 ∧ (off = 0x44 ∨ off = 0x48 ∨ off = 0x80) then [a]
  else if 0x40200 ≤ f ∧ f < 0x40300 ∧ f % 16 = 3 then
    (if off = 0x58 ∨ off = 0x68 ∨ off = 0x74 ∨ 0x80 ≤ off ∧ off ≤ 0xC0 ∧ off % 4 = 0 then [a] else []) ++
    (if (0x100 ≤ off ∧ off < 0x140 ∨ 0xC0 ≤ off ∧ off ≤ 0xCC) ∧ off % 4 = 0 then [laserKey + a] else [])
  else if 0x40401 ≤ f ∧ f < 0x40405 ∧ 0x100 ≤ off ∧ off < 0xD00 ∧ ((off - 0x100) % 0x100 = 0x2C ∨ (off - 0x100) % 0x100 = 0x30) then
    [a]
  else if 0x40515 ≤ f ∧ f < 0x40517 ∧ 0x44 ≤ off ∧ off ≤ 0x54 ∧ off % 4 = 0 then [a]
  else if 0x40501 ≤ f ∧ f < 0x40511 ∧ off = 0x94 then [a]
  else []

/-- The write table of an image: address and value. -/
def fgWrites (img : List Byte) : List (Nat × Word) :=
  (List.range (leAt img 0x0C 2)).map (fun i =>
    (leAt img (leAt img 0x10 4 + 8 * i) 4, BitVec.ofNat 32 (leAt img (leAt img 0x10 4 + 8 * i + 4) 4)))

/-- The source table of an image. -/
def fgSources (img : List Byte) : List SrcCfg :=
  (List.range 256).map (fun i =>
    let o := leAt img 0x14 4 + 16 * i
    ⟨BitVec.ofNat 32 (leAt img o 4), BitVec.ofNat 32 (leAt img (o + 4) 4), BitVec.ofNat 32 (leAt img (o + 8) 4)⟩)

/-- A source entry passes the check of R421 step 1: ranges and reserved bits of R420, and the fixed values of R437. -/
def fgSourceOk (src : Nat) (c : SrcCfg) (word3 : Nat) : Bool :=
  let fixed := src ≤ 8 ∨ src = 10 ∨ src = 11 ∨ src = 12
  let manual := decide (2 ≤ src ∧ src ≤ 5) || src == 10
  let step := if src = 8 then 0 else 2
  decide (c.first ≤ c.last) && ! bit c.w0 7 && decide (1 ≤ c.promoteN) && decide (fld c.w0 23 16 ≤ 100) &&
    fld c.w0 31 24 == 0 && decide (fld c.w1 15 14 ≤ 1) && decide (1 ≤ fld c.w1 13 0) &&
    decide (fld c.w1 13 0 ≤ (if fld c.w1 15 14 = 1 then 3600 else 16383)) && decide (1 ≤ fld c.w1 31 16) &&
    decide (fld c.w1 31 16 ≤ 60000) && fld c.w2 31 16 == 0 && word3 == 0 &&
    (! decide fixed || (c.cls == clsCritical && c.manual == manual && c.first == step && c.last == step))

/-- Format, addresses and entries of an image (R418, R421 step 1). -/
def fgFormatOk (img : List Byte) : Bool :=
  let wofs := leAt img 0x10 4
  let sofs := leAt img 0x14 4
  let cnt := leAt img 0x0C 2
  decide (img.length ≤ 16384) && leAt img 0 2 == 0x4647 && leAt img 2 1 == 1 && leAt img 3 1 == 0 &&
    leAt img 8 4 == img.length && decide (cnt ≤ 1024) && leAt img 0x0E 2 == 0 && leAt img 0x1C 0x24 == 0 &&
    decide (64 ≤ wofs) && decide (wofs + 8 * cnt ≤ sofs) && decide (sofs + 4096 + 128 ≤ img.length) &&
    (fgWrites img).all (fun w => ! (fgTargets w.1).isEmpty) &&
    (List.range 256).all (fun i =>
      fgSourceOk i ((fgSources img).getD i ⟨0, 0, 0⟩) (leAt img (sofs + 16 * i + 12) 4))

/-- One write with the FIREGUARD role (R421 step 2). -/
def State.fgWrite (s : State) (w : Nat × Word) : State := forL (fgTargets w.1) (fun a s => s.plainWrite a w.2) s

/-- The value a configuration entry reads back (R421 step 3); of a page whose domain is off, the copy's. -/
def State.fgReadBack (s : State) (w : Nat × Word) : Word :=
  let on := match pageAt (w.1 / 4096) with | some p => s.powered p | none => false
  if ! on then w.2 else
  match (fgTargets w.1).find? (fun a => s.rd a ≠ w.2) with
  | some a => s.rd a
  | none => w.2

/-- The bytes of the write table with the values given, and of the source table (R418 CRC). -/
def fgCrcBytes (ws : List (Nat × Word)) (cs : List SrcCfg) : List Byte :=
  ws.flatMap (fun w => leBytes 4 w.1 ++ leBytes 4 w.2.toNat) ++
    cs.flatMap (fun c => leBytes 4 c.w0.toNat ++ leBytes 4 c.w1.toNat ++ leBytes 4 c.w2.toNat ++ leBytes 4 0)

/-- The interlocks and the key switch as their live pins say under the configuration now in force: gates forced, and the
source of an interlock that has stood open since the start-up latched (R410, R412, R438's table; log entry 51). -/
def State.livePaths (s : State) : State :=
  let s := forN 4 (fun x s =>
    let k := s.ilk x
    let closed := ilkClosed (s.ilkAnti x) k.l1 k.l2
    let s := s.wrb Reg.fgdStat (4 + x) closed
    if s.ilkEn x && ! closed then (forL s.laserChans (fun n s => s.force n 1) s).soot .fgd (2 + x) else s) s
  if s.rdb Reg.fgdStat 3 then s else forL s.laserChans (fun n s => s.force n 8) s

/-- A channel's mode has changed (R410, R412): the interlocks and the key switch force a laser gate, not a thermal channel's
strobes. -/
def State.laserPaths (s : State) (n : Nat) : State :=
  if ! s.domOn 1 then s
  else if s.isLaser n then
    let s := if s.ilksOk then s else s.force n 1
    if s.rdb Reg.fgdStat 3 then s else s.force n 8
  else (s.unforce n 1).unforce n 8

/-- Fireguard's steps over a verified image (R421): the state it leaves and whether every step passed.  A failed step
undoes nothing. -/
def State.fgLoad (s : State) (img : List Byte) : State × Bool :=
  if ! s.domOn 1 || ! fgFormatOk img then (s, false) else
  let ws := fgWrites img
  let cs := fgSources img
  let s := forL ws (fun w s => s.fgWrite w) s
  if ws.any (fun w => s.fgReadBack w ≠ w.2) then (s, false) else
  let s := (forL cs (fun c (st : State × Nat) =>
    (st.1.updSrc st.2 (fun x => { x with cfg := some c }), st.2 + 1)) (s, 0)).1
  let crc := crc32c (fgCrcBytes (ws.map (fun w => (w.1, s.fgReadBack w))) cs)
  if crc.toNat ≠ leAt img 0x18 4 then (s, false) else
  let s := s.wrb Reg.fgdStat 0 true
  let s := s.wr Reg.fgdCfgCrc crc
  let s := s.wr Reg.fgdCfgVer (BitVec.ofNat 32 (leAt img 4 4))
  let s := s.wrf Reg.fgdCfgInfo 10 0 ws.length
  let s := { s with fgd := { s.fgd with cfgWrites := ws, cfgSources := cs, applyPending := [] } }
  let s := (s.wrb (Reg.pgLock .flt) 0 true).wrb Reg.fltStat 1 true
  (s.livePaths.safeOutUpdate, true)

/-- FG_CONFIG_LOAD (R421): the image the boot header names, its signature verified by the enclave; a failure gives boot
cause 7 (R397). -/
def execFgConfigLoad (s : State) : Out :=
  if ! s.domOn 1 || ! s.domOn 2 || s.cfgOk || s.pwr.bootStep < 6 || s.sec.boot.core0.isSome || s.sec.boot.waitTo.isSome ||
      s.sec.boot.resetFirst then .next s else
  match s.fgImage with
  | none => .next (s.bootCause 7)
  | some img =>
    if ! s.verifySafety img then .next (s.bootCause 7) else
    match s.fgLoad img with
    | (s, true) => .next (s.wrb (Reg.pgLock .fgd) 0 true)
    | (s, false) => .next (s.bootCause 7)

/-- FG_DOMAIN_REAPPLY (R421): a domain powered up later gets its writes from Fireguard's copy. -/
def execFgDomainReapply (d : Fin 13) (s : State) : Out :=
  if ! s.domOn 1 || ! s.cfgOk || ! s.domOn d.val || ! s.fgd.applyPending.contains d.val then .next s else
  let mine := s.fgd.cfgWrites.filter (fun w => match pageAt (w.1 / 4096) with | some p => pageDomain p == d.val | none => false)
  let s := forL mine (fun w s => s.fgWrite w) s
  .next { s with fgd := { s.fgd with applyPending := s.fgd.applyPending.filter (fun x => x != d.val) } }

/-- CONFIG_CRC_PASS (R421): the CRC comparison repeated over every powered page. -/
def execConfigCrcPass (s : State) : Out :=
  if ! s.domOn 1 || ! s.cfgOk then .next s else
  let cs := (List.range 256).map (fun i => match (s.src i).cfg with | some c => c | none => ⟨0, 0, 0⟩)
  let crc := crc32c (fgCrcBytes (s.fgd.cfgWrites.map (fun w => (w.1, s.fgReadBack w))) cs)
  let s := s.wrf Reg.fgdCfgInfo 31 16 (s.rdf Reg.fgdCfgInfo 31 16 + 1)
  if crc = s.rd Reg.fgdCfgCrc then .next (if s.rdb (Reg.pgSoot .fgd) 12 then s.sootOff .fgd 12 else s)
  else .next (s.soot .fgd 12)

/-! ### The collector's steps -/

/-- A source recovers or is released (R435, R436): `kind` is the log's, 7 or 8. -/
def State.recover (s : State) (src kind : Nat) : State :=
  let x := s.src src
  let s := s.setSrc src { x with
    latched := false, promoted := false, releasable := false, acked := false, step := 0, taken := false, graceAt := none,
    quietAt := none, window := [], recov := if x.recov = 0xFFFF then x.recov else x.recov + 1 }
  ((s.fltLog src kind).irq .flt 3).showSrc src

/-- GRACE_EXPIRY (R430, R431): the source takes its next step. -/
def execGraceExpiry (src : BitVec 8) (s : State) : Out :=
  let k := src.toNat
  let x := s.src k
  if ! s.domOn 1 || ! s.due x.graceAt then .next s else
  let c := s.srcCfg k
  let step := if ! x.taken then c.first else if x.step < c.last then x.step + 1 else x.step
  let s := s.setSrc k { x with graceAt := none, taken := true, step := step }
  let s := s.irq .flt 2
  let s := if step = 0 then s else s.fltLog k (3 + step)
  if step = 3 then .next (s.warmReset k) else .next s.safeUpdate

/-- FLT_ACK (R430). -/
def execFltAck (b : Bus) (v : Word) (s : State) : Out :=
  .next (busWrite b .flt 0x70 v (fun s =>
    let k := fld v 7 0
    let x := s.src k
    if x.graceAt.isSome then
      ((s.setSrc k { x with graceAt := none, acked := true }).fltLog k 3).wrf Reg.fltAckRes 1 0 1
    else s.wrf Reg.fltAckRes 1 0 2) s)

/-- FLT_RELEASE_RES after releases (R436). -/
def State.releaseRes (s : State) (released : Nat) (res : Nat) : State :=
  (s.wrf Reg.fltReleaseRes 1 0 res).wrf Reg.fltReleaseRes 15 8 (satN 255 released)

/-- Every RELEASABLE source released (R436). -/
def State.releaseAll (s : State) : State :=
  let l := numsWhere 256 (fun k => (s.src k).releasable)
  let s := forL l (fun k s => s.recover k 8) s
  (s.releaseRes l.length (if l.isEmpty then 2 else 1)).safeUpdate

/-- FLT_RELEASE (R436). -/
def execFltRelease (b : Bus) (v : Word) (s : State) : Out :=
  .next (busWrite b .flt 0x78 v (fun s =>
    if bit v 31 then s.releaseAll else
    let k := fld v 7 0
    if (s.src k).releasable then ((s.recover k 8).releaseRes 1 1).safeUpdate
    else s.releaseRes 0 (if (s.srcCfg k).manual then 2 else 3)) s)

/-- RELEASE_PULSE (R436): a pulse of RELEASE from RELEASE_MIN to RELEASE_MAX long ends. -/
def execReleasePulse (held : Nat) (s : State) : Out :=
  if ! s.domOn 1 || decide (held < s.rdf Reg.fgdReleaseCfg 7 0 * 10 * msT) ||
      decide (s.rdf Reg.fgdReleaseCfg 15 8 * 10 * msT < held) then .next s
  else .next s.releaseAll

/-- QUIET_EXPIRY (R435). -/
def execQuietExpiry (src : BitVec 8) (s : State) : Out :=
  let k := src.toNat
  let x := s.src k
  if ! s.domOn 1 || ! x.latched || x.pin || ! s.due x.quietAt then .next s else
  if (s.srcCfg k).manual then .next (s.setSrc k { x with quietAt := none, releasable := true })
  else .next (s.recover k 7).safeUpdate

/-- INTEGRITY_MISMATCH (R434): DEVICE_SAFE through source 10 at once, the configuration reloaded from Fireguard's copy,
every source cleared, and each whose pin is high latched anew. -/
def execIntegrityMismatch (s : State) : Out :=
  if ! s.domOn 1 then .next s else
  let cfgs := s.fgd.cfgSources
  let loaded := s.cfgOk
  let s := s.soot .flt 0
  let s := forN 256 (fun k s => s.setSrc k { SrcState.reset with
    cfg := if loaded then cfgs[k]? else none, events := (s.src k).events, recov := (s.src k).recov }) s
  let s := forN 256 (fun k s => s.showSrc k) s
  let s := forL (numsWhere 256 s.srcPin) (fun k s => s.srcEvent k) s
  let s := s.updSrc 10 (fun x => { x with latched := true, step := 2, taken := true, graceAt := none })
  let s := (s.fltLog 10 5).irq .flt 2
  .next ((s.wrb Reg.fltStat 2 true).showSrc 10).safeUpdate

/-- FLT_SELECT_CAPTURE (R441). -/
def execFltSelectCapture (b : Bus) (v : Word) (s : State) : Out :=
  .next (busWrite b .flt 0x48 v (fun s =>
    let k := fld v 7 0
    let x := s.src k
    let c := s.srcCfg k
    let s := s.wrf Reg.fltSel 7 0 k
    let s := s.wr Reg.fltSrcStat (BitVec.ofNat 32
      (c.cls + b2n x.latched * 4 + b2n x.promoted * 8 + b2n x.releasable * 16 + b2n x.acked * 32 + b2n x.pin * 64 +
        x.step % 4 * 0x100 + b2n x.graceAt.isSome * 0x400 + b2n x.quietAt.isSome * 0x800 +
        satN 255 (x.window.filter (fun t => decide (s.now - t < c.window))).length * 0x10000))
    let s := s.wr Reg.fltSrcCnt (BitVec.ofNat 32 (x.events.toNat + x.recov.toNat * 0x10000))
    let s := s.wr64 Reg.fltSrcStampLo Reg.fltSrcStampHi x.stamp.toNat
    let s := ((s.wr (Reg.fltSrcCfg 0) c.w0).wr (Reg.fltSrcCfg 1) c.w1).wr (Reg.fltSrcCfg 2) c.w2
    let left := fun (o : Option Nat) => match o with | some t => t - s.now | none => 0
    s.wr Reg.fltSrcTimer (BitVec.ofNat 32
      (satN 255 (left x.graceAt / msT) + satN 0xFFFF (left x.quietAt / (10 * msT)) * 0x10000))) s)

/-- FLT_LOG_CAPTURE (R441). -/
def execFltLogCapture (b : Bus) (v : Word) (s : State) : Out :=
  .next (busWrite b .flt 0xC0 v (fun s =>
    let i := fld v 4 0
    let s := s.wrf Reg.fltLogSel 4 0 i
    let newest := s.rdf Reg.fltLogStat 4 0
    let pos := if s.flt.log.length < 32 then i else (i + 31 - newest) % 32
    match s.flt.log[pos]? with
    | none => ((s.wr Reg.fltLogD0 0).wr Reg.fltLogD1 0).wr Reg.fltLogD2 0
    | some e =>
      let s := s.wr Reg.fltLogD0 (BitVec.ofNat 32 (e.src % 256 + e.kind % 16 * 0x100 + 0x80000000))
      s.wr64 Reg.fltLogD1 Reg.fltLogD2 e.stamp.toNat) s)

end Sys2Proof.Machine
end

