-- ==== Sys2Proof/Machine/BusLevels.lean ====
section
/-! DEFINITION. Motor-bus level crossings, which can take the part to DEVICE_SAFE; the TAP's hold; the sequencers' and SRAM
scrub's uncorrectable errors (spec/09, R266, R269; spec/14, R402, R404; spec/15, R431). -/
namespace Sys2Proof.Machine

/-- A step of OV3 (R431): source 9 takes DEVICE_SAFE whatever its entry holds. -/
def State.ov3Step (s : State) : State :=
  if ! s.domOn 1 then s else
  let x := s.src 9
  let s := s.setSrc 9 { x with latched := true, releasable := false, graceAt := none, taken := true, step := Nat.max x.step 2 }
  if x.step < 2 then (((s.irq .flt 2).fltLog 9 5).showSrc 9).safeUpdate else (s.showSrc 9).safeUpdate

/-- BUS_LEVEL_CROSSING (R266, R269): the bus stands at `mv`. -/
def execBusLevelCrossing (u : Fin 2) (mv : BitVec 16) (s : State) : Out :=
  if ! s.mbOn u.val then .next s else
  let (s, ov3) := s.busCrossing u.val mv.toNat
  .next (if ov3 then s.ov3Step else s)

/-- TAP_INSTRUCTION_LOAD (R404): EXTEST and INTEST hold DEVICE_SAFE while loaded. -/
def execTapInstructionLoad (i : TapInstr) (s : State) : Out :=
  match i with
  | .other => .next (if s.flt.holds.contains .tap then s.dropHold .tap else s)
  | _ => .next (s.holdDevice .tap)

end Sys2Proof.Machine
end

