-- ==== Sys2Proof/Machine/Synth.lean ====
section
/-! DEFINITION. Synthesisers and the reference: locking, relocking, bands, bypass (spec/16, R443 to R453, R464, R465). -/
namespace Sys2Proof.Machine

/-- The outputs of synthesiser `y` on the reference (R449): its status, and what its bypass does to what it feeds: SYN0
the bypass force (R415), SYN2 the DRAM (R451), SYN3 the links and ports (R452). -/
def State.synToBypass (s : State) (y : Nat) : State :=
  let was := s.synSt y == synLocked
  let s := (s.wrf (Reg.clkSynStat y) 2 0 synBypass).wrb (Reg.clkSynStat y) 3 false
  let s := ((s.wrb Reg.clkStat y false).wrb Reg.clkStat (4 + y) true).wrb Reg.clkStat (12 + y) false
  let s := s.updSyn y (fun x => { x with attemptAt := none, waitAt := none })
  if ! was then s
  else if y = 0 then s.clockForces s.flt.clockForce true
  else if y = 2 then s.syn2Lost
  else if y = 3 then s.syn3Lost
  else s

/-- SYN_RUN (R446, R464): a write of CLK_SYNs_CFG; RUN rising starts the acquisition, RUN falling leaves the outputs on the
reference as at reset. -/
def execSynRun (b : Bus) (y : Fin 4) (v : Word) (s : State) : Out :=
  .next (busWrite b .clk (0x100 + 0x80 * y.val) v (fun s =>
    if 11 < fld v 3 0 then s.soot .clk 6 else
    let was := s.synRunning y.val
    let s := s.plainWrite (Reg.clkSynCfg y.val) v
    if ! was && bit v 8 then (s.updSyn y.val (fun x => { x with backoff := 4000 })).synAttempt y.val
    else if was && ! bit v 8 then s.synToBypass y.val
    else s) s)

/-- SYN_LOCK (R446, R447, R450, R451): lock is declared and the outputs switch back to the synthesiser. -/
def execSynLock (y : Fin 4) (err : BitVec 16) (s : State) : Out :=
  if ! (s.domOn 4 && s.synRunning y.val && s.synSt y.val == synAcquire && s.refOk && s.errIn err) then .next s else
  let s := (s.wrf (Reg.clkSynStat y.val) 2 0 synLocked).wrb (Reg.clkSynStat y.val) 3 true
  let s := ((s.wrb Reg.clkStat y.val true).wrb Reg.clkStat (4 + y.val) false).wrb Reg.clkStat (12 + y.val) false
  let s := (s.wrf (Reg.clkSynPherr y.val) 30 16 0).phErr y.val err
  let s := s.setSyn y.val ⟨none, 4000, none⟩
  let s := s.irq .clk y.val
  let s := if s.bootAt 5 && (List.range 4).all (fun k => s.synSt k == synLocked) then s.startStep6 else s
  .next (if y.val = 0 then s.clockForces s.flt.clockForce false
    else if y.val = 2 then s.syn2Back
    else if y.val = 3 then s.syn3Back
    else s)

/-- SYN_LOSS_OF_LOCK (R448, R449, R450): judged only once lock has been declared. -/
def execSynLossOfLock (y : Fin 4) (err : BitVec 16) (s : State) : Out :=
  if ! (s.domOn 4 && s.synSt y.val == synLocked && ! s.errIn err) then .next s else
  let s := s.phErr y.val err
  let s := s.cnt (Reg.clkSynRelock y.val) 31 16
  let s := (s.soot .clk y.val).irq .clk (4 + y.val)
  let s := s.synToBypass y.val
  .next (s.setSyn y.val ⟨some (s.now + 10 * usT), 4000, none⟩)

/-- RELOCK_ATTEMPT (R450). -/
def execRelockAttempt (y : Fin 4) (s : State) : Out :=
  if ! (s.domOn 4 && s.synRunning y.val && s.refOk && s.due (s.syn y.val).waitAt) then .next s else
  .next ((s.cnt (Reg.clkSynRelock y.val) 15 0).synAttempt y.val)

/-- RELOCK_ATTEMPT_TIMEOUT (R450): 100 µs without lock; the wait is the present backoff, which then doubles to 10 ms. -/
def execRelockAttemptTimeout (y : Fin 4) (s : State) : Out :=
  match (s.syn y.val).attemptAt with
  | none => .next s
  | some t =>
    if ! (s.domOn 4 && s.synSt y.val == synAcquire && decide (t + 100 * usT ≤ s.now)) then .next s else
    let s := (s.wrf (Reg.clkSynStat y.val) 2 0 synWait).wrb Reg.clkStat (12 + y.val) false
    let b := satN (10 * msT) (2 * (s.syn y.val).backoff)
    .next (s.setSyn y.val ⟨some (s.now + b), b, none⟩)

/-- A band applied to a locked synthesiser with its compensating step of 64 fine codes, against the band's move
(R445; DEDUCED). -/
def State.applyBand (s : State) (y band : Nat) : State :=
  let a := Reg.clkSynStat y
  let old := s.rdf a 15 8
  let fine := s.rdf a 23 16
  let fine := if old < band then fine - 64 else if band < old then satN 255 (fine + 64) else fine
  (s.wrf a 15 8 band).wrf a 23 16 fine

/-- BAND_RECENTRE (R445): the fine code, as observed for 1 s, lies below 32 or above 223. -/
def execBandRecentre (y : Fin 4) (fine : BitVec 8) (s : State) : Out :=
  let f := fine.toNat
  if ! (s.domOn 4 && s.rdb (Reg.clkSynCfg y.val) 4 && s.synSt y.val == synLocked && s.banking 6 &&
      (decide (f < 32) || decide (223 < f))) then .next s else
  let bin := s.rdf (Reg.clkSynStat y.val) 7 4
  let band := s.bandOfBin y.val
  let band' := if f < 32 then band - 1 else satN 255 (band + 1)
  let s := s.wrf (Reg.clkSynStat y.val) 23 16 f
  let s := s.wrf (Reg.clkSynBand y.val bin) 7 0 band'
  let s := (s.applyBand y.val band').wrb (Reg.clkSynStat y.val) 24 true
  .next (s.irq .clk 10)

/-- REF_LOSS (R453, R455): the outputs stand on the backup oscillator, or stop while BKP_OK is 0; no source of a
synthesiser is raised. -/
def execRefLoss (s : State) : Out :=
  if ! s.domOn 4 || ! s.refOk then .next s else
  let s := (s.wrb Reg.clkStat 8 false).wrb Reg.clkStat 9 (s.rdb Reg.clkStat 10)
  let s := (s.soot .clk 4).irq .clk 8
  .next (forN 4 (fun y s =>
    if s.synSt y == synLocked then
      ((s.cnt (Reg.clkSynRelock y) 31 16).irq .clk (4 + y)).synToBypass y
    else if s.synSt y == synAcquire then
      ((s.wrf (Reg.clkSynStat y) 2 0 synWait).wrb Reg.clkStat (12 + y) false).updSyn y
        (fun x => { x with waitAt := none, attemptAt := none })
    else s.updSyn y (fun x => { x with waitAt := none })) s)

/-- REF_GOOD (R454, R415): bypass from the reference again, and relock attempts with the backoff at 10 µs. -/
def execRefGood (s : State) : Out :=
  if ! s.domOn 4 || s.refOk then .next s else
  let s := (s.wrb Reg.clkStat 8 true).wrb Reg.clkStat 9 false
  let s := s.irq .clk 9
  .next (forN 4 (fun y s =>
    if s.synRunning y then s.setSyn y ⟨some (s.now + 10 * usT), 4000, none⟩ else s) s)

/-- BACKUP_MEASURE (R453, R455): the backup's frequency in kHz and the ratio 8.24 of reference to backup. -/
def execBackupMeasure (kHz : BitVec 16) (ratio : Word) (s : State) : Out :=
  if ! s.domOn 4 || ! s.refOk then .next s else
  let s := (s.wr Reg.clkBkpRatio ratio).wrf Reg.clkBkpMeas 15 0 kHz.toNat
  if kHz.toNat < 22500 ∨ 27500 < kHz.toNat then
    .next ((if s.rdb Reg.clkStat 10 then s.soot .clk 5 else s).wrb Reg.clkStat 10 false)
  else .next (s.wrb Reg.clkStat 10 true)

/-- Power domains an output feeds (R442, R46). -/
def outputDomains (y o : Nat) : List Nat :=
  match y, o with
  | 0, 0 => [4] | 0, 1 => [2] | 0, 2 => [11] | 0, 3 => [4]
  | 1, 0 => [3] | 1, 1 => [3]
  | 2, 0 => [5]
  | 3, 0 => [9] | 3, 1 => [12] | 3, 2 => [12] | 3, 3 => [12]
  | _, _ => []

/-- The DRAM controller's own setting of SYN2 O0, from DDR_CFG.RATE (R443). -/
def State.ddrClock (s : State) : State :=
  if ! s.domOn 4 then s else s.wrf (Reg.clkSynOut 2 0) 7 0 (b2n (s.rdb Reg.ddrCfg 5))

/-- The switch's own setting of SYN3 O1 or O2, from port `p`'s SPEED and TXDLY (R443). -/
def State.netClock (s : State) (p : Nat) : State :=
  if ! s.domOn 4 then s else
  let speed := s.rdf (Reg.netPCfg p) 1 0
  let a := Reg.clkSynOut 3 (1 + p)
  let s := s.wrf a 7 0 (if speed = 2 then 1 else if speed = 1 then 9 else 99)
  s.wrf a 13 8 (if s.rdb (Reg.netPCfg p) 2 then (if speed = 2 then 16 else if speed = 1 then 3 else 0) else 0)

/-- CLOCK_OUTPUT_WRITE (R443). -/
def execClockOutputWrite (b : Bus) (y o : Fin 4) (v : Word) (s : State) : Out :=
  .next (busWrite b .clk (0x110 + 0x80 * y.val + 4 * o.val) v (fun s =>
    let a := Reg.clkSynOut y.val o.val
    let changes := s.rdf a 13 0 != fld v 13 0
    if (s.rdb a 16 && changes) || (s.rdb a 16 && ! bit v 16 && (outputDomains y.val o.val).any s.domOn) then s.soot .clk 6
    else s.plainWrite a v) s)

/-- PHERR_CLEAR (R465). -/
def execPherrClear (b : Bus) (y : Fin 4) (v : Word) (s : State) : Out :=
  .next (busWrite b .clk (0x108 + 0x80 * y.val) v (fun s =>
    if bit v 31 then s.wrf (Reg.clkSynPherr y.val) 30 16 0 else s) s)

/-- Whether a plain write of a CLK register is accepted (R464, R465). -/
def State.clkWriteOk (s : State) (off : Nat) (v : Word) : Bool :=
  if off = 0x44 then
    ! (List.range 4).any s.synRunning && decide (1 ≤ fld v 4 0) && decide (16 ≤ fld v 18 8) && decide (fld v 18 8 ≤ 1024) &&
      decide (1 ≤ fld v 27 24)
  else true

end Sys2Proof.Machine
end

