-- ==== Sys2Proof/Machine/DieTemp.lean ====
section
/-! DEFINITION. Die temperature: sensors, thresholds, Damper and the thermal shutdown (spec/16, R454 to R463, R466). -/
namespace Sys2Proof.Machine

/-- A sensor's neighbours (R456). -/
def dieNeighbours : Nat → List Nat
  | 0 => [3, 5, 6, 7] | 1 => [2, 3] | 2 => [1, 3] | 3 => [0, 1, 2, 4] | 4 => [3, 5, 10] | 5 => [0, 4, 6]
  | 6 => [0, 5, 7] | 7 => [0, 6, 8] | 8 => [7, 9] | 9 => [8, 11] | 10 => [4, 11] | 11 => [9, 10] | _ => []

/-- A threshold register's threshold and hysteresis, 0.1 °C; k = 0 WARN, 1 THROTTLE, 2 SHUTDOWN. -/
def thrReg (k : Nat) : Nat := if k = 0 then Reg.thmTWarn else if k = 1 then Reg.thmTThrot else Reg.thmTShut
def State.thrT (s : State) (k : Nat) : Int := s.rds (thrReg k) 15 0
def State.thrH (s : State) (k : Nat) : Int := (s.rdf (thrReg k) 23 16 : Nat)

/-- STEP_T in ticks; the automatic level; the level in force. -/
def State.dmpStepT (s : State) : Nat := s.rdf Reg.thmDmpCfg 15 8 * msT
def State.dmpAuto (s : State) : Nat := s.rdf Reg.thmDmpStat 5 3
def State.dmpLevel (s : State) : Nat := s.rdf Reg.thmDmpStat 2 0

/-- The level in force recomputed (R459). -/
def State.damperUpdate (s : State) : State :=
  let old := s.dmpLevel
  let few := s.rdb Reg.thmStat 15
  let l := Nat.max (Nat.max s.dmpAuto (s.rdf Reg.thmDmpCfg 2 0)) (if few then s.rdf Reg.thmDmpCfg 5 3 else 0)
  if l = old then s else
  let s := (s.wrf Reg.thmDmpStat 2 0 l).irq .thm 1
  if old = 0 then s.soot .thm 1 else s

/-- SHUTDOWN is reached (R461): the latch, source 34, DEVICE_SAFE through the hardware path, and the 10 ms. -/
def State.thermalShutdown (s : State) : State :=
  if s.thm.shutAt.isSome then s else
  let s := (s.wrb Reg.thmStat 14 true).soot .thm 2
  let s := { s with thm := { s.thm with shutAt := some (s.now + 10 * msT) } }
  s.holdDevice .shutdown

/-- One sensor judged (R457): `old` is the state before the round. -/
def State.judgeDie (s old : State) (k : Nat) (t : Int) : State :=
  let out := decide (t < -550) || decide (1500 < t)
  let near := (dieNeighbours k).filter old.dieGood
  let dev := decide (2 ≤ near.length) && (match medianOf (near.map old.dieTemp) with
    | some m => decide (150 < (t - m).natAbs)
    | none => false)
  let bad := out || dev
  let d := s.die k
  let clear := if bad then 0 else satN 10 (d.clear + 1)
  let was := old.dieGood k
  let good := if was || ! d.judged then ! bad else decide (clear = 10)
  let s := s.setDie k ⟨clear, true⟩
  let s := s.wr (Reg.thmDie k) (BitVec.ofNat 32 (wrapN 16 t + b2n good * 0x10000 + b2n out * 0x20000 + b2n dev * 0x40000))
  let s := s.wrb Reg.thmStat k good
  let s := if was && ! good || (! d.judged && ! good) then s.soot .thm 3 else s
  if was ≠ good then s.irq .thm 2 else s

/-- A threshold judged (R458): two consecutive rounds at or above it, or below it minus its hysteresis. -/
def State.judgeThreshold (s : State) (hot : Option Int) (k : Nat) : State × Option Bool :=
  let ge := match hot with | some t => decide (s.thrT k ≤ t) | none => false
  let lt := match hot with | some t => decide (t < s.thrT k - s.thrH k) | none => false
  let a := if ge then satN 2 (tabGet 0 s.thm.above k + 1) else 0
  let b := if lt then satN 2 (tabGet 0 s.thm.below k + 1) else 0
  let s := { s with thm := { s.thm with above := tabPut 0 s.thm.above k a, below := tabPut 0 s.thm.below k b } }
  let reached := if k = 2 then s.thm.shutReached else s.rdb Reg.thmStat (12 + k)
  if a = 2 && ! reached then (s, some true) else if b = 2 && reached then (s, some false) else (s, none)

/-- What reaching or leaving a threshold does (R458, R459, R461). -/
def State.thresholdEvent (s : State) (k : Nat) (on : Bool) : State :=
  let s := s.irq .thm 0
  if k = 0 then
    let s := s.wrb Reg.thmStat 12 on
    if on then s.soot .thm 0 else s
  else if k = 1 then
    let s := s.wrb Reg.thmStat 13 on
    let s := if on && s.dmpAuto = 0 then s.wrf Reg.thmDmpStat 5 3 1 else s
    { s with thm := { s.thm with stepAt := if s.dmpAuto = 0 then none else some (s.now + s.dmpStepT) } }
  else
    let s := { s with thm := { s.thm with shutReached := on } }
    if on then s.thermalShutdown else s

/-- An external point converted and judged (R463). -/
def State.extPoint (s : State) (x : Nat) (code : Nat) : State :=
  if ! s.rdb (Reg.thmExtCfg x) 7 then { s with thm := { s.thm with ext := tabPut 0 s.thm.ext x 0 } } else
  let t := s.rds (Reg.thmExtCal x) 15 0 + fdivI (s.rds (Reg.thmExtCal x) 31 16 * (code : Nat)) 100
  let s := s.wrs (Reg.thmExt x) 15 0 t
  let n := if s.rds (Reg.thmExtCfg x) 31 16 ≤ t then tabGet 0 s.thm.ext x + 1 else 0
  let s := { s with thm := { s.thm with ext := tabPut 0 s.thm.ext x (satN 3 n) } }
  if n = 2 then (s.soot .thm 5).irq .thm 3 else s

/-- The bin of a temperature in 0.1 °C (R444). -/
def binOf (t : Int) : Nat := (clampI 0 15 (fdivI (t + 400) 100)).toNat

/-- Synthesiser `y`'s bin follows its sensor once the edge is passed by 2 °C; a locked one takes the new band (R444,
R445). -/
def State.binUpdate (s : State) (y : Nat) : State :=
  let k := s.rdf (Reg.clkSynCfg y) 3 0
  match (if s.dieGood k then some (s.dieTemp k) else s.dieMedian) with
  | none => s
  | some t =>
    let old := s.rdf (Reg.clkSynStat y) 7 4
    let new := if old < binOf (t - 20) then binOf (t - 20) else if binOf (t + 20) < old then binOf (t + 20) else old
    if new = old then s else
    let s := s.wrf (Reg.clkSynStat y) 7 4 new
    if s.synSt y == synLocked then s.applyBand y (s.bandOfBin y) else s

/-- DIE_SENSOR_ROUND (R456 to R463, R444, R265, R309): readings in 0.1 °C, and the codes of the two external points. -/
def execDieSensorRound (temps : Vector (BitVec 16) 12) (ext : Vector (BitVec 12) 2) (s : State) : Out :=
  if ! s.domOn 4 then .next s else
  let old := s
  let s := forN 12 (fun k s => s.judgeDie old k ((temps.toList.getD k 0).toInt)) s
  let s : State := match s.hottest with
    | some (k, t) =>
      let s := (s.wrs Reg.thmHot 15 0 t).wrf Reg.thmHot 19 16 k
      if s.rds Reg.thmPeak 15 0 < t then s.wrs Reg.thmPeak 15 0 t else s
    | none => s
  let hot := (s.hottest).map (fun p => p.2)
  let few := decide (s.goodDies.length < 3)
  let wasFew := s.rdb Reg.thmStat 15
  let s := s.wrb Reg.thmStat 15 few
  let s := if few && ! wasFew then s.soot .thm 4 else s
  let s := forN 3 (fun k s => match s.judgeThreshold hot k with
    | (s, some on) => s.thresholdEvent k on
    | (s, none) => s) s
  let s := s.damperUpdate
  let n := if s.goodDies.isEmpty then satN 10 (s.thm.noGood + 1) else 0
  let s := { s with thm := { s.thm with noGood := n } }
  let s := if n = 10 then s.thermalShutdown else s
  let s := forN 2 (fun x s => s.extPoint x ((ext.toList.getD x 0).toNat)) s
  let s := forN 4 (fun y s => s.binUpdate y) s
  .next ((forN 4 (fun k s => s.bldcCurve k) s).ddrTempCheck)

/-- SHUTDOWN_POWER_OFF (R461): 10 ms after shutdown. -/
def execShutdownPowerOff (s : State) : Out :=
  if ! s.due s.thm.shutAt || ! s.rdb Reg.thmStat 14 then .next s else
  .next (forL [3, 5, 6, 7, 8, 9, 10, 11, 12] (fun d s => s.domainOff d) s)

/-- DAMPER_STEP (R459): one step of the automatic level each STEP_T, up while THROTTLE is reached, none between THROTTLE
minus its hysteresis and THROTTLE, down once THROTTLE is left. -/
def execDamperStep (s : State) : Out :=
  if ! s.domOn 4 || ! s.due s.thm.stepAt then .next s else
  let hot := (s.hottest).map (fun p => p.2)
  let between := match hot with | some t => decide (s.thrT 1 - s.thrH 1 ≤ t) && decide (t < s.thrT 1) | none => false
  let reached := s.rdb Reg.thmStat 13
  let auto := s.dmpAuto
  let auto' := if between then auto else if reached then satN 7 (auto + 1) else auto - 1
  let s := s.wrf Reg.thmDmpStat 5 3 auto'
  let s := { s with thm := { s.thm with stepAt := if auto' = 0 then none else some (s.now + s.dmpStepT) } }
  .next s.damperUpdate

/-- MARK_PAUSE_END (R460). -/
def execMarkPauseEnd (n : Fin 16) (s : State) : Out :=
  if ! s.due (tabGet none s.thm.pauseAt n.val) then .next s else
  .next (({ s with thm := { s.thm with pauseAt := tabPut none s.thm.pauseAt n.val none } }).setDamperPause n.val false)

/-- THM_PEAK_CLEAR (R466). -/
def execThmPeakClear (b : Bus) (v : Word) (s : State) : Out :=
  .next (busWrite b .thm 0x90 v (fun s => if bit v 31 then s.wrf Reg.thmPeak 15 0 0 else s) s)

/-- Whether a level of the Damper lies between its neighbours, each of the three values no lighter than the lower level's
and no heavier than the upper's (R460). -/
def State.dmpLevelOk (s : State) (l : Nat) (v : Word) : Bool :=
  let heavier (x y : Word) : Bool :=
    decide (fld y 11 0 ≤ fld x 11 0) && decide (fld x 16 12 ≤ fld y 16 12) && decide (fld y 31 20 ≤ fld x 31 20)
  decide (1 ≤ fld v 16 12) && decide (fld v 16 12 ≤ 16) && (l == 1 || heavier v (s.rd (Reg.thmDmpL (l - 1)))) &&
    (l == 7 || heavier (s.rd (Reg.thmDmpL (l + 1))) v)

/-- A threshold write's conditions (R458): at most the default, WARN ≤ THROTTLE ≤ SHUTDOWN, hysteresis 0.5 to 20.0 °C. -/
def State.thrWriteOk (s : State) (k : Nat) (v : Word) : Bool :=
  let t := sfld v 15 0
  decide (t ≤ sfld (resetOf (thrReg k)) 15 0) && decide (5 ≤ fld v 23 16) && decide (fld v 23 16 ≤ 200) &&
    (k == 0 || decide (s.thrT (k - 1) ≤ t)) && (k == 2 || decide (t ≤ s.thrT (k + 1)))

/-- Whether a plain write of a THM register is accepted (R458, R460, R464). -/
def State.thmWriteOk (s : State) (off : Nat) (v : Word) : Bool :=
  if off = 0x48 then s.thrWriteOk 0 v
  else if off = 0x4C then s.thrWriteOk 1 v
  else if off = 0x50 then s.thrWriteOk 2 v
  else if 0xA4 ≤ off ∧ off < 0xC0 then s.dmpLevelOk ((off - 0xA0) / 4) v
  else if 0xC0 ≤ off ∧ off < 0xE0 then ! s.enabled .thm
  else true

/-- What a plain write of a THM register changes at once: the Damper's level (R459). -/
def State.thmWritten (s : State) (off : Nat) : State := if off = 0x54 then s.damperUpdate else s

end Sys2Proof.Machine
end

