-- ==== Sys2Proof/Machine/Power.lean ====
section
/-! DEFINITION. Rails, sequencing, start-up, power states, retention (spec/17, R468 to R495). -/
namespace Sys2Proof.Machine

/-- The spare takes bank `c` permanently (R507). -/
def State.spareTakes (s : State) (c : Nat) : State :=
  let s := s.wrf Reg.adcStat 2 0 c
  let p : Page := .cv (Fin.ofNat 6 c)
  (s.setStat p 7).wrb (Reg.pgStat p) 3 true

/-- BKG_LOG_STAT's retired and spare counts (R511). -/
def State.logStat (s : State) : State :=
  let n := s.bkg.retired.length
  (s.wrf Reg.bkgLogStat 7 0 (satN 255 n)).wrf Reg.bkgLogStat 15 8 (8 - n)

/-- At PD4's power-up the sectors retired are those the type-1 entry in force records (R501). -/
def State.logRestore (s : State) : State :=
  let l := match s.logInForce 1 with
    | none => []
    | some e => (e.payload.drop (2 + 4 * leAt e.payload 0 2)).map (fun x => x.toNat)
  { s with bkg := { s.bkg with retired := l } }.logStat

/-- At PD11's power-up the converter assignment of the log store is applied (R502). -/
def State.convRestore (s : State) : State :=
  match s.logInForce 3 with
  | none => s
  | some e =>
    let c := leAt e.payload 0 1
    if c < 5 then s.spareTakes c else s.soot .bkg 2

/-! ### Rail slots (R468 to R474) -/

/-- A slot's state code set, with the interrupt of a change. -/
def State.setSlotSt (s : State) (k st : Nat) : State := (s.wrf (Reg.psqSlotStat k) 1 0 st).irq .pwr 3

/-- What depends on the rails brought to what they now block (R471): domains, enables, drivers. -/
def State.railsChanged (s : State) : State :=
  let s := s.blockedOff.blockedUpdate
  let s := if s.domOn 1 then s.enableCheck else s
  s.drvEnUpdate

/-- Functions that a rail blocked are given back (R470, R473): start-up step 3 once the sequence is through, PD5 at step
6, else the domains asked for, but for those the shutdown latch keeps off (R461). -/
def State.railsUnblock (s : State) : State :=
  let s := s.railsChanged
  if s.pwr.bootStep = 2 then (if s.pwr.phase = .idle ∧ s.railsUp then s.startStep3 else s)
  else if s.rdb Reg.thmStat 14 then s
  else if s.pwr.bootStep = 6 then s.requestDomOn 5
  else if 7 ≤ s.pwr.bootStep then s.requestDoms (numsWhere 13 (fun d => d != 0 && s.rdb Reg.pwrDomCtrl d))
  else s

/-- The slots of the group at `o` that the sequence drives. -/
def State.groupOf (s : State) (o : Nat) : List Nat := numsWhere 12 (fun k => s.slotUsed k && s.slotOrder k == o)

/-- The sequencer need wait for no slot of the present group (R469, R474). -/
def State.groupResolved (s : State) : Bool :=
  match s.pwr.phase with
  | .idle => true
  | .up o => (s.groupOf o).all (fun k => (s.slot k).resolved)
  | .down o => (s.groupOf o).all (fun k => (s.slot k).resolved || s.slotDriven k)

/-- One slot enabled (R469). -/
def State.slotEnable (s : State) (k : Nat) : State :=
  let s := (s.wrb (Reg.psqSlotStat k) 3 true).wrb (Reg.psqSlotStat k) 4 false
  let s := s.setSlotSt k 1
  s.setSlot k ⟨if s.slotPg k then some (s.now + s.slotQual k) else none, some (s.now + s.slotTimeout k), false⟩

/-- One slot's EN falls (R474). -/
def State.slotDisable (s : State) (k : Nat) : State :=
  let s := s.wrb (Reg.psqSlotStat k) 3 false
  let s := s.setSlotSt k 0
  s.setSlot k ⟨none, some (s.now + s.slotTimeout k), ! s.slotPg k⟩

/-- RAIL_GROUP_ENABLE (R469, R473): the group of the next ORDER in ascending order; after the last, step 3. -/
def execRailGroupEnable (s : State) : Out :=
  let from_ := match s.pwr.phase with | .up o => some (o + 1) | .idle => some 0 | .down _ => none
  match from_ with
  | none => .next s
  | some f =>
    if ! s.pwr.aon || s.pwr.emergency || s.pwr.bootStep != 2 || ! s.groupResolved then .next s else
    match (List.range 16).find? (fun o => decide (f ≤ o) && (s.groupOf o).any (fun k => ! s.slotDriven k)) with
    | some o =>
      let s := forL ((s.groupOf o).filter (fun k => ! s.slotDriven k)) (fun k s => s.slotEnable k) s
      .next { s with pwr := { s.pwr with phase := .up o } }
    | none =>
      let s := { s with pwr := { s.pwr with phase := .idle } }
      .next (if s.rdf Reg.pwrStat 5 3 = 3 then s else s.heldCfgApply).railsUnblock

/-- A GOOD rail is lost (R472). -/
def State.railLost (s : State) (k : Nat) : State :=
  let s := s.cnt (Reg.psqSlotStat k) 31 24
  let s := (s.setSlotSt k 3).pwrSoot 0
  let dep := Reg.psqSlotDep k
  let s := if 3 ≤ s.pwr.bootStep && (s.rdb dep 1 || s.rdb dep 2 || s.rdb dep 4) then
      { s with pwr := { s.pwr with bootStep := 2, switching := [] } }
    else s
  let s := if s.rdb dep 16 && s.domOn 1 then s.setLen 0 false else s
  let s := if s.rdb dep 17 && s.domOn 1 then s.setLen 1 false else s
  s.railsChanged

/-- Slot registers written (R471, R493): what they now block goes off, what they no longer block comes back. -/
def State.slotsWritten (s : State) : State := s.railsUnblock

/-- PG_EDGE (R469, R472, R474). -/
def execPgEdge (k : Fin 12) (level : Bool) (s : State) : Out :=
  if s.slotPg k.val = level then .next s else
  let s := s.wrb (Reg.psqSlotStat k.val) 2 level
  if ! s.slotDriven k.val then
    .next (if level then s else s.updSlot k.val (fun x => { x with resolved := true, timeoutAt := none }))
  else if level then
    .next (if s.slotSt k.val = 1 ∨ s.slotSt k.val = 3 then
        s.updSlot k.val (fun x => { x with qualAt := some (s.now + s.slotQual k.val) })
      else s)
  else if s.slotSt k.val = 2 then .next (s.railLost k.val)
  else if (s.slot k.val).qualAt.isSome then
    let s := s.updSlot k.val (fun x => { x with qualAt := none })
    .next ((s.cnt (Reg.psqSlotStat k.val) 15 8).pwrSoot 1)
  else .next s

/-- RAIL_QUALIFIED (R469, R470). -/
def execRailQualified (k : Fin 12) (s : State) : Out :=
  if ! (s.slotDriven k.val && s.slotPg k.val && s.due (s.slot k.val).qualAt) then .next s else
  let s := (s.setSlotSt k.val 2).setSlot k.val ⟨none, none, true⟩
  .next s.railsUnblock

/-- RAIL_TIMEOUT (R470, R474). -/
def execRailTimeout (k : Fin 12) (s : State) : Out :=
  if ! s.due (s.slot k.val).timeoutAt then .next s else
  let s := s.updSlot k.val (fun x => { x with timeoutAt := none, resolved := true })
  if ! s.slotDriven k.val then .next (if s.slotPg k.val then s.wrb (Reg.psqSlotStat k.val) 4 true else s)
  else if s.slotSt k.val = 1 then .next (((s.setSlotSt k.val 3).pwrSoot 0).railsChanged)
  else .next s

/-! ### Retention (R490 to R492) -/

/-- The bytes of logical bank `b`, and its CRC-32C. -/
def State.bankCrc (s : State) (b : Nat) : Word := crc32c (s.rdMem (0x20000000 + 0x8000 * b) 0x8000)

/-- The banks sealed (R491). -/
def State.seal (s : State) : State := forN 8 (fun b s => s.wr (Reg.pwrRetCrc b) (s.bankCrc b)) s

/-- A bank that does not match (R492). -/
def State.bankLost (s : State) (b : Nat) : State :=
  let s := (s.wrb Reg.pwrRetLost b true).eraseMem (0x20000000 + 0x8000 * b) 0x8000
  let p := s.rdf Reg.srmRetMap (4 * b + 3) (4 * b)
  let f := satN 3 (s.rdf Reg.pwrRetFails (2 * p + 1) (2 * p) + 1)
  let s := s.wrf Reg.pwrRetFails (2 * p + 1) (2 * p) f
  let spareFree := (List.range 8).all (fun c => s.rdf Reg.srmRetMap (4 * c + 3) (4 * c) != 8)
  let s := if f = 2 && spareFree then (s.wrf Reg.srmRetMap (4 * b + 3) (4 * b) 8).wrb Reg.srmRetStat p true else s
  let s := if b = 6 then { s with sec := { s.sec with pending := [] } } else s
  if b < 6 then s else
  let s := if s.domOn 2 then s.newChains.secShow
    else
      let s := forN 16 (fun n s => s.updChain n (fun c => { c with needNew := true })) s
      { s with sec := { s.sec with epochOk := false } }
  if b = 7 then forN 32 (fun c s => s.updSerial c (fun x => { x with next := x.resv })) s else s

/-- The banks checked (R492).  Whether a bank kept its bytes without their supply is open: a free choice for each. -/
def State.retentionCheck (s : State) : State :=
  let s := s.wr Reg.pwrRetLost 0
  let s := forN 8 (fun b s =>
    let (kept, s) := s.drawBool
    if kept && s.bankCrc b == s.rd (Reg.pwrRetCrc b) then s else s.bankLost b) s
  if s.rd Reg.pwrRetLost = 0 then s else (s.wrb Reg.pwrWakeCause 8 true).pwrSoot 3

/-! ### Start-up and emergency -/

/-- ALWAYS_ON_POWER_UP (R479 step 1, R487, R516): everything but the boot flash and the OTP starts from reset. -/
def execAlwaysOnPowerUp (testMode : Bool) (s : State) : Out :=
  let r := State.reset
  let bkg : BkgState := { r.bkg with log := s.bkg.log, logSeq := s.bkg.logSeq, sector := s.bkg.sector, used := s.bkg.used, retired := s.bkg.retired }
  let s : State := { r with
    flash := s.flash
    testMode := testMode
    pending := s.pending
    free := s.free
    resp := s.resp
    sec := { r.sec with otp := s.sec.otp, store := s.sec.store }
    bkg := bkg
    fgd := { r.fgd with ilks := s.fgd.ilks, keyHigh := s.fgd.keyHigh }
    pwr := { r.pwr with aon := true, bootStep := 2 } }
  let a := (tabGet 0 s.sec.otp 0x181).toNat % 128
  let s := s.wrf Reg.pwrWakeAddr 6 0 (if a = 0 then 0x3A else a)
  .next (s.wrb Reg.pwrVin 0 true).serialLost

/-- POWER_STATE fields of PWR_STAT (R494): the state code, the phase, the target. -/
def State.pwrState (s : State) : Nat := s.rdf Reg.pwrStat 2 0
def State.pwrPhase (s : State) : Nat := s.rdf Reg.pwrStat 5 3
def State.pwrTarget (s : State) : Nat := s.rdf Reg.pwrStat 8 6
def State.setPwr (s : State) (st ph : Nat) : State := (s.wrf Reg.pwrStat 2 0 st).wrf Reg.pwrStat 5 3 ph

/-- VIN_WARNING (R475): the emergency power-down, in any state and at any step. -/
def execVinWarning (s : State) : Out :=
  if ! s.pwr.aon || s.pwr.emergency then .next s else
  let s := { s with pins := PinState.reset, sec := { s.sec with writes := [] }, bkg := { s.bkg with writes := [] } }
  let s := { s with pwr := { s.pwr with switching := [], heldOff := [], fwAt := none, wake := none } }
  let s := (s.dramLost.domainsOff allDomains).seal
  let s := forN 12 (fun k s =>
    if s.slotKept k 4 then s else (s.wrb (Reg.psqSlotStat k) 3 false).setSlotSt k 0 |>.setSlot k ⟨none, none, true⟩) s
  let s := (s.wrb Reg.pwrVin 0 false).wrf Reg.pwrVin 15 8 (satN 255 (s.rdf Reg.pwrVin 15 8 + 1))
  let s := { s with pwr := { s.pwr with emergency := true, phase := .idle, bootStep := 1 } }
  let s := s.wr Reg.pwrStat 0
  .next (s.heldCfgApply.pwrSoot 2)

/-- VIN_RESTORE (R477, R492). -/
def execVinRestore (s : State) : Out :=
  if ! s.pwr.emergency then .next s else
  let s := { s with pwr := { s.pwr with emergency := false, bootStep := 2, phase := .idle } }
  let s := (s.wr Reg.pwrWakeCause 0x40).wrb Reg.pwrVin 0 true
  .next s.retentionCheck

/-! ### Domains (R478) -/

/-- A job of the half of the channels that domain `d` (7 or 8) feeds is MARKING. -/
def State.halfMarking (s : State) (d : Nat) : Bool :=
  (List.range 8).any (fun i => (s.chan (8 * (d - 7) + i)).jobs.any (fun e => e.2.st == .marking))

/-- One domain's bit of a write of PWR_DOM_CTRL. -/
def State.domCtrlBit (s : State) (pd3 : Bool) (d : Nat) (on : Bool) : State :=
  let was := s.rdb Reg.pwrDomCtrl d
  if on then
    if s.domOn d then ({ s with pwr := { s.pwr with heldOff := s.pwr.heldOff.filter (fun x => x != d) } }).wrb Reg.pwrDomCtrl d true
    else if s.railBlocks d then s.pwrSoot 5
    else (s.wrb Reg.pwrDomCtrl d true).requestDomOn d
  else if d = 1 ∨ d = 2 ∨ d = 4 then s
  else if ! was && ! s.domOn d then s
  else if d = 5 && pd3 then s.pwrSoot 5
  else if (d = 7 ∨ d = 8) ∧ s.halfMarking d then
    let s := s.wrb Reg.pwrDomCtrl d false
    { s with pwr := { s.pwr with heldOff := d :: s.pwr.heldOff.filter (fun x => x != d) } }
  else
    let s := s.wrb Reg.pwrDomCtrl d false
    let s := { s with pwr := { s.pwr with switching := s.pwr.switching.filter (fun e => e.1 != d) } }
    s.domainOff d

/-- DOMAIN_CONTROL_WRITE (R478): the switch-offs first, then the switch-ons in ascending order. -/
def execDomainControlWrite (b : Bus) (v : Word) (s : State) : Out :=
  .next (busWrite b .pwr 0xD0 v (fun s =>
    let pd3 := s.domOn 3
    let offs := [12, 11, 10, 9, 8, 7, 6, 5, 4, 3, 2, 1].filter (fun d => ! bit v d)
    let ons := (numsWhere 13 (fun d => d != 0 && bit v d))
    forL ons (fun d s => s.domCtrlBit pd3 d true) (forL offs (fun d s => s.domCtrlBit pd3 d false) s)) s)

/-- What a domain takes up when it comes on (R353, R410, R415, R443, R412, R421, R461, R500, R502). -/
def State.domainUp (s : State) (d : Nat) : State :=
  match d with
  | 1 =>
    let s := forN 4 (fun x s =>
      let k := s.ilk x
      s.wrb Reg.fgdStat (4 + x) (ilkClosed (s.ilkAnti x) k.l1 k.l2)) s
    let s := s.wrb Reg.fgdStat 3 s.fgd.keyHigh
    let s := s.wrb Reg.fltStat 2 true
    let s := if s.syn0Bypass then s.clockForces false true else s
    if s.rdb Reg.thmStat 14 then s.holdDevice .shutdown else s.safeUpdate
  | 2 => s.secPowerUp
  | 4 => s.tscResume.wearRestore.logRestore
  | 5 => s.ddrClock.ddrPowerUp
  | 6 => s.serialRestore
  | 11 => s.convRestore
  | 12 => (s.netClock 0).netClock 1
  | _ => s

/-- DOMAIN_SWITCH_ON (R478, R479). -/
def execDomainSwitchOn (d : Fin 13) (s : State) : Out :=
  match s.pwr.switching with
  | [] => .next s
  | (e, _) :: rest =>
    if e ≠ d.val then .next s else
    let s := { s with pwr := { s.pwr with switching := rest } }
    if s.railBlocks d.val then .next s else
    let s := (s.wrb Reg.pwrDomStat d.val true).wrb Reg.pwrDomCtrl d.val true
    let s := s.domainUp d.val
    let s := if 7 ≤ s.pwr.bootStep then s.repairRestore d.val else s
    let mine := s.fgd.cfgWrites.any (fun w => match pageAt (w.1 / 4096) with | some p => pageDomain p == d.val | none => false)
    let s := if mine then { s with fgd := { s.fgd with
        applyPending := if s.fgd.applyPending.contains d.val then s.fgd.applyPending else d.val :: s.fgd.applyPending } } else s
    let late := s.pwr.lateSoot
    let s := if s.domOn 1 && s.domOn 4 && ! late.isEmpty then
        forL late (fun b s => s.soot .pwr b) { s with pwr := { s.pwr with lateSoot := [] } }
      else s
    .next (if s.bootAt 3 && s.domOn 1 && s.domOn 2 && s.domOn 4 then s.setBootStep 4 else s)

/-- DOMAIN_SWITCH_FAIL (R478): the switch did not report ON within 50 µs, or dropped while on. -/
def execDomainSwitchFail (d : Fin 13) (s : State) : Out :=
  if s.domOn d.val && d.val != 0 then .next ((s.domainOff d.val).pwrSoot 4) else
  match s.pwr.switching with
  | [] => .next s
  | (e, t) :: rest =>
    if e ≠ d.val ∨ s.now < t then .next s else
    .next ({ s with pwr := { s.pwr with switching := rest } }.pwrSoot 4)

/-- HELD_DOMAIN_OFF (R478). -/
def execHeldDomainOff (d : Fin 13) (s : State) : Out :=
  if s.pwr.heldOff.contains d.val && ! s.halfMarking d.val then .next (s.domainOff d.val) else .next s

/-! ### Power states (R480 to R489) -/

/-- The conditions that still fail, as bits of WAIT_LINE to WAIT_READY (R481). -/
def State.powerWaits (s : State) (target : Nat) : Nat :=
  let line := decide (s.now < s.pwr.lineAt + s.rdf Reg.pwrCfg 15 0 * msT) &&
    (List.range 8).any (fun e => s.rdb (Reg.linEncCfg e) 0)
  let jobs := s.jobs.chans.any (fun c => ! c.2.jobs.isEmpty) || s.jobs.stns.any (fun c => ! c.2.jobs.isEmpty)
  let track := s.lin.trk.any (fun e => s.wouldReject e.1)
  let recs := ! s.sec.pending.isEmpty ||
    (List.range 16).any (fun n => (s.queue (4 * n + 2)).head != (s.queue (4 * n + 2)).tail)
  let ready := target == 1 && ((List.range 16).any (fun n => s.rdb (Reg.chCtrl n) 0) || s.anyLoopActive)
  b2n line + b2n jobs * 2 + b2n track * 4 + b2n recs * 8 + b2n ready * 16

/-- A request taken as new (R189, R481). -/
def State.powerRequest (s : State) (target : Nat) : State :=
  let s := s.tagWritebackAll
  if target = s.pwrState then
    let s := s.setPwr target 0
    ((s.wrf Reg.pwrStat 8 6 target).wrf Reg.pwrStat 20 16 0).irq .pwr 1
  else if target = 0 then
    let s := s.setPwr 0 0
    ((s.wrf Reg.pwrStat 8 6 0).wrf Reg.pwrStat 20 16 0).irq .pwr 1
  else
    let s := (s.wrf Reg.pwrStat 8 6 target).wrf Reg.pwrStat 5 3 1
    s.wrf Reg.pwrStat 20 16 (s.powerWaits target)

/-- POWER_STATE_REQUEST (R481, R483, R484). -/
def execPowerStateRequest (b : Bus) (v : Word) (s : State) : Out :=
  .next (busWrite b .pwr 0x40 v (fun s =>
    let t := fld v 2 0
    if 5 ≤ t ∨ s.rdb Reg.thmStat 14 ∧ t ≠ 4 then (s.pwrSoot 5).irq .pwr 2 else
    let s := (s.wrf Reg.pwrStateReq 2 0 t).wrb Reg.pwrStat 13 false
    if s.pwrPhase = 2 ∨ s.pwrPhase = 3 then (s.wrf Reg.pwrStat 11 9 t).wrb Reg.pwrStat 12 true
    else s.powerRequest t) s)

/-- POWER_ENTRY_START (R481, R482 step 1, R483, R500): begins ENTERING when every condition holds, else shows those that
fail.  After an aborted entry the writes held in it are made first (R493). -/
def execPowerEntryStart (s : State) : Out :=
  if ! s.pwr.aon || s.pwrPhase != 1 then .next s else
  let s := s.heldCfgApply
  let w := s.powerWaits s.pwrTarget
  let s := s.wrf Reg.pwrStat 20 16 w
  if w ≠ 0 then .next s else
  if s.pwrTarget = 1 then .next (((s.setPwr 1 0).cnt Reg.pwrCnt 15 0).irq .pwr 1)
  else
    let s := (s.wrf Reg.pwrStat 5 3 2).irq .pwr 0
    let s := { s with pwr := { s.pwr with fwAt := some (s.now + s.rdf Reg.pwrCfg 23 16 * msT) } }
    .next (if s.banking 9 then s.saveWear else s)

/-- Entry step 4 (R308, R482): DRAM is kept in self-refresh with its trained settings, but for OFF. -/
def State.entryDram (s : State) (target : Nat) : State :=
  if target = 4 then s.dramLost else
  let s := s.dramSelfRefresh
  { s with pwr := { s.pwr with phyKept := s.pwr.phyKept || s.domOn 5 } }

/-- Steps 2 to 7 of an entry (R482). -/
def State.entryRun (s : State) : State :=
  let target := s.pwrTarget
  let s := { s with pwr := { s.pwr with fwAt := none, switching := [], heldOff := [], bootStep := 1 } }
  let s := s.domainsOff [12, 11, 10, 9, 8, 7, 6, 3]
  let s := ((s.entryDram target).domainsOff [5, 2, 1, 4]).seal
  { s with pwr := { s.pwr with phase := .down 16 } }

/-- PROCEED: the firmware's wait ends and the entry goes on (R482). -/
def State.pwrProceed (s : State) : State := if s.pwrPhase = 2 && s.pwr.fwAt.isSome then s.entryRun else s

/-- CANCEL: a request that still waits for its checks is dropped (R481). -/
def State.pwrCancel (s : State) : State :=
  if s.pwrPhase = 1 then
    let s := s.heldCfgApply
    ((s.wrf Reg.pwrStat 5 3 0).wrf Reg.pwrStat 8 6 s.pwrState).wrf Reg.pwrStat 20 16 0
  else s

/-- POWER_PROCEED (R482). -/
def execPowerProceed (b : Bus) (s : State) : Out :=
  .next (busWrite b .pwr 0x48 1 (fun s => s.pwrProceed) s)

/-- FW_TIMEOUT (R482). -/
def execFwTimeout (s : State) : Out :=
  if s.pwrPhase = 2 && s.due s.pwr.fwAt then .next s.entryRun else .next s

/-- POWER_CANCEL (R481). -/
def execPowerCancel (b : Bus) (s : State) : Out :=
  .next (busWrite b .pwr 0x48 2 (fun s => s.pwrCancel) s)

/-- Whether DRAM came through (R480, R489, R494): not when every rail has fallen; else, since which slot feeds the DRAM
devices is the board's, a free choice. -/
def State.dramCheck (s : State) : State :=
  if ! s.pwr.phyKept then s else
  let (kept, s) := s.drawBool
  if kept && (List.range 12).any s.slotDriven then s else s.dramLost

/-- A wake begins (R485, R486, R489, R492): the cause bits, the state left, the check of the retention banks, and start-up
from the rails. -/
def State.beginWake (s : State) (bits : Word) : State :=
  let s := (s.wr Reg.pwrWakeCause bits).wrf Reg.pwrWakeCause 14 12 s.pwrState
  let s := (s.wrf Reg.pwrStat 5 3 3).wrf Reg.pwrStat 8 6 0
  let s := s.dramCheck.retentionCheck
  { s with pwr := { s.pwr with bootStep := 2, phase := .idle, wake := none } }

/-- A held request for a low-power state is discarded by a wake (R485). -/
def State.discardHeld (s : State) : State :=
  if s.rdb Reg.pwrStat 12 && decide (2 ≤ s.rdf Reg.pwrStat 11 9) then
    (s.wrb Reg.pwrStat 12 false).wrb Reg.pwrStat 13 true
  else s

/-- A cause joins those of a wake already recorded; WAKE_ARG is that of the last write (R485, R487). -/
def wakeMerge (old bits : Word) (arg : Option Byte) : Word :=
  match arg with
  | some x => setFld (old ||| bits) 23 16 x.toNat
  | none => old ||| bits

/-- A wake source fires (R485, R486). -/
def State.wakeBy (s : State) (bits : Word) (arg : Option Byte) : State :=
  if ! s.pwr.aon || s.pwr.emergency then s
  else if s.pwrPhase = 2 then
    let old := match s.pwr.wake with | some w => w | none => 0
    { s.discardHeld with pwr := { s.pwr with wake := some (wakeMerge old bits arg) } }
  else if s.pwrPhase = 3 then s.wr Reg.pwrWakeCause (wakeMerge (s.rd Reg.pwrWakeCause) bits arg)
  else if 2 ≤ s.pwrState then s.discardHeld.beginWake (wakeMerge 0 bits arg)
  else s

/-- A held request is taken once the change has completed (R484); after an entry one for RUN or READY waits on for the wake,
since the part leaves a low-power state by a wake alone (R486). -/
def State.heldTake (s : State) : State :=
  let held := s.rdf Reg.pwrStat 11 9
  if s.rdb Reg.pwrStat 12 && (decide (s.pwrState < 2) || decide (2 ≤ held)) then
    (s.wrb Reg.pwrStat 12 false).powerRequest held
  else s

/-- POWER_DOWN_GROUP (R474, R482 step 7): the groups in descending ORDER; after the last the state is reached. -/
def execPowerDownGroup (s : State) : Out :=
  match s.pwr.phase with
  | .down o =>
    if ! s.groupResolved then .next s else
    let t := s.pwrTarget
    match ((List.range o).reverse).find? (fun g => (s.groupOf g).any (fun k => s.slotDriven k && ! s.slotKept k t)) with
    | some g =>
      let s := forL ((s.groupOf g).filter (fun k => s.slotDriven k && ! s.slotKept k t)) (fun k s => s.slotDisable k) s
      .next { s with pwr := { s.pwr with phase := .down g } }
    | none =>
      let s := { s with pwr := { s.pwr with phase := .idle, bootStep := 1 } }
      let s := ((s.setPwr t 0).wrf Reg.pwrCnt 15 0 (satN 0xFFFF (s.rdf Reg.pwrCnt 15 0 + 1))).heldCfgApply
      .next (match s.pwr.wake with
        | some w => s.beginWake w
        | none => s.heldTake)
  | _ => .next s

/-- TWO_WIRE_WAKE (R487): `arg` is a write's first byte; a read, which has none, is answered with the state code. -/
def execTwoWireWake (addr : BitVec 7) (arg : Option Byte) (s : State) : Out :=
  if ! s.rdb Reg.pwrWakeEn 0 || addr.toNat != s.rdf Reg.pwrWakeAddr 6 0 || (s.pwrPhase = 0 && decide (s.pwrState < 2)) then
    .next s
  else
    let s := if arg.isNone then { s with resp := ⟨false, BitVec.ofNat 32 s.pwrState⟩ } else s
    .next (s.wakeBy 4 arg)

/-- One watch slot's sample (R488): the mean of four conversions against THRESH, and the run of samples that met it. -/
def State.watchSlot (s : State) (k : Nat) (codes : List (BitVec 16)) : State × Bool :=
  let cfg := Reg.pwrWatchSlotCfg k
  let die := s.rdf cfg 3 0 == 8
  let val := fun (x : BitVec 16) => if die then x.toInt else (x.toNat : Int)
  let mean := fdivI (codes.foldl (fun a x => a + val x) 0) 4
  let s := s.wrs (Reg.pwrWatchLast k) 15 0 mean
  let thr : Int := if die then s.rds cfg 31 16 else (s.rdf cfg 31 16 : Nat)
  let met := if s.rdb cfg 4 then decide (mean < thr) else decide (thr < mean)
  let n := if met then tabGet 0 s.pwr.watchRuns k + 1 else 0
  ({ s with pwr := { s.pwr with watchRuns := tabPut 0 s.pwr.watchRuns k n } }, decide (s.rdf cfg 7 5 + 1 ≤ n))

/-- WATCH_SAMPLE (R486, R488). -/
def execWatchSample (codes : Vector (Vector (BitVec 16) 4) 8) (s : State) : Out :=
  if s.pwrPhase != 0 || s.pwrState != 3 then .next s else
  let s := s.wrf Reg.pwrWatchStat 23 0 (satN 0xFFFFFF (s.rdf Reg.pwrWatchStat 23 0 + 1))
  let (s, met) := (numsWhere 8 (fun k => s.rdb Reg.pwrWatchCfg (16 + k) && decide (s.rdf (Reg.pwrWatchSlotCfg k) 3 0 ≤ 8))).foldl
    (fun (a : State × List Nat) k =>
      let (s, m) := a.1.watchSlot k ((codes.toList.getD k (Vector.replicate 4 0)).toList)
      (s, if m then a.2 ++ [k] else a.2)) (s, [])
  match met with
  | k :: _ =>
    if s.rdb Reg.pwrWakeEn 1 then
      let s := (s.wrf Reg.pwrWatchStat 26 24 k).wrb Reg.pwrWatchStat 27 true
      .next ({ s with pwr := { s.pwr with watchRuns := [] } }.wakeBy 8 none)
    else .next s
  | [] => .next s

/-- WCH_WAKE (R486, R494): an enabled edge on a watch input used as a digital input. -/
def execWchWake (j : Fin 8) (falling : Bool) (s : State) : Out :=
  if s.rdb Reg.pwrWchCfg j.val && s.rdb Reg.pwrWchCfg (8 + j.val) == falling && s.rdb Reg.pwrWakeEn (4 + j.val) then
    .next (s.wakeBy 0x10 none)
  else .next s

/-- RTC_ALARM_WAKE (R486): the RTC count has reached PWR_ALARM. -/
def execRtcAlarmWake (s : State) : Out :=
  if s.rdb Reg.pwrWakeEn 2 && decide (s.rd64 Reg.pwrAlarmLo Reg.pwrAlarmHi ≤ s.tim.rtc.toNat) then .next (s.wakeBy 0x20 none)
  else .next s

/-- RESET_PIN (R486, R516): RESET was low for `held` ticks and is released: a wake, or PD1 to PD12 reset as by WARM_RESET
and start-up from step 3. -/
def execResetPin (held : Nat) (s : State) : Out :=
  if held < usT ∨ ! s.pwr.aon ∨ s.pwr.emergency then .next s
  else if s.pwrPhase = 2 ∨ s.pwrPhase = 3 ∨ 2 ≤ s.pwrState then .next (s.wakeBy 2 none)
  else if s.pwr.bootStep = 2 then .next (s.wr Reg.pwrWakeCause (s.rd Reg.pwrWakeCause ||| 2))
  else
    let s := { s with flt := { s.flt with inReset := true }, pwr := { s.pwr with switching := [], heldOff := [], phyKept := false } }
    let s := s.domainsOff allDomains
    let s := { s with flt := { s.flt with inReset := false } }
    let s := (s.wr Reg.pwrWakeCause 2).wr Reg.pwrStat 0
    .next ((s.setBootStep 2).heldCfgApply).startStep3

/-- WARM_RESET_RELEASE (R425): the full start-up from step 3. -/
def execWarmResetRelease (s : State) : Out :=
  if ! s.flt.inReset then .next s else
  let s := { s with flt := { s.flt with inReset := false } }
  let s := ((s.wr Reg.pwrWakeCause 0x80).wr Reg.pwrStat 0).wearAdd 70 1
  .next ((s.setBootStep 2).heldCfgApply).startStep3

/-- WAKE_COMPLETE (R484, R489): the image matched in place, or was loaded again; core 0 starts in RUN, and a held
request is taken. -/
def execWakeComplete (s : State) : Out :=
  if s.pwrPhase != 3 || s.pwr.bootStep < 7 || ! s.pwr.switching.isEmpty then .next s else
  let left := s.rdf Reg.pwrWakeCause 14 12
  if ! (s.sec.boot.core0.isSome || (left != 4 && s.imageInPlace)) then .next s else
  let s := if s.sec.boot.core0.isSome then s else s.handOver
  let s := (s.setPwr 0 0).setBootStep 8
  .next ((s.heldCfgApply).irq .pwr 1).heldTake

/-- Whether a plain write of a PWR register is accepted (R494): PWR_CFG's LINE_IDLE, PERIOD, slot fields in range. -/
def State.pwrWriteOk (off : Nat) (v : Word) : Bool :=
  if off = 0x4C then decide (1 ≤ fld v 15 0)
  else if off = 0x64 then decide (1 ≤ fld v 13 0) && decide (fld v 13 0 ≤ 10000)
  else if 0x100 ≤ off ∧ off < 0x1C0 ∧ off % 16 = 0 then
    decide (fld v 3 0 ≤ 11) && decide (1 ≤ fld v 18 8) && decide (fld v 18 8 ≤ 2000) && decide (1 ≤ fld v 31 19) &&
      decide (fld v 31 19 ≤ 5000)
  else true

/-- Writes of slot registers during a sequence or a state change are held (R493). -/
def State.pwrWriteHeld (s : State) (off : Nat) : Bool :=
  decide (0x100 ≤ off) && (s.pwr.phase != .idle || s.pwrPhase == 2 || s.pwrPhase == 3)

end Sys2Proof.Machine
end

