-- ==== Sys2Proof/Machine/Banking.lean ====
section
/-! DEFINITION. Background work: banking, wear counters, converters, telemetry, the log store (spec/18, R496 to R513). -/
namespace Sys2Proof.Machine

/-! ### Galvo drift (R498) -/

/-- GALVO_DRIFT_CHECK (R497, R498): in an idle gap of laser channel `n` with both loops CLOSED; a due check that finds no
gap is counted late. -/
def execGalvoDriftCheck (n : Fin 16) (s : State) : Out :=
  if ! s.banking 4 || ! s.isLaser n.val || (tabGet none s.bkg.galvo n.val).isSome ||
      decide (s.now < tabGet 0 s.bkg.galvoAt n.val + s.rdf Reg.bkgGalvoT 15 0 * secT) then .next s else
  let s := { s with bkg := { s.bkg with galvoAt := tabPut 0 s.bkg.galvoAt n.val s.now } }
  if ! s.auditIdle n.val || ! (s.galvoLoops n.val).all s.loopClosed then .next (s.cnt Reg.bkgLate 15 0) else
  let s := { s with bkg := { s.bkg with galvo := tabPut none s.bkg.galvo n.val (some ⟨s.now, 0, 0, 0⟩) } }
  .next ((s.laserPark n.val).wrb Reg.bkgStat 4 true)

/-- GALVO_DRIFT_DONE (R498): 256 frames were averaged. -/
def execGalvoDriftDone (n : Fin 16) (s : State) : Out :=
  match tabGet none s.bkg.galvo n.val with
  | none => .next s
  | some g =>
    if g.frames < 256 then .next s else
    let s := (s.wr (Reg.bkgGalvoDrift n.val) (wordOf (fdivI g.sumX 256))).wr (Reg.bkgGalvoDriftY n.val) (wordOf (fdivI g.sumY 256))
    .next (s.galvoStop n.val)

/-! ### Telemetry (R499) -/

/-- The 64 bytes of a snapshot. -/
def State.snapshot (s : State) : List Byte :=
  leBytes 8 s.now ++ leBytes 8 s.dateValue.toNat ++
    leBytes 4 (s.rdf Reg.thmHot 15 0 + s.dmpLevel * 0x10000) ++
    leBytes 4 (s.rdf Reg.fltStat 24 16 + b2n s.deviceSafe * 0x200) ++
    leBytes 4 (satN 0xFFFF s.bkg.ddrCe + satN 0xFFFF s.bkg.srmCe * 0x10000) ++
    leBytes 4 (s.rdn Reg.secRecCnt) ++
    (List.range 16).flatMap (fun n => leBytes 2 (satN 0xFFFF (tabGet 0 s.bkg.notOk n)))

/-- TELEMETRY_SNAPSHOT (R499): at a TSC second boundary; `writeOk` says whether the fabric took the write. -/
def execTelemetrySnapshot (writeOk : Bool) (s : State) : Out :=
  if ! s.banking 8 || ! s.rdb Reg.bkgTeleCfg 4 || decide (s.now / secT ≤ s.bkg.teleSec) then .next s else
  let s := { s with bkg := { s.bkg with teleSec := s.now / secT } }
  let bytes := s.snapshot
  let a := s.rdn Reg.bkgTeleBaseLo + s.rdf Reg.bkgTeleBaseHi 7 0 * 2 ^ 32 +
    64 * (s.rdn Reg.bkgTeleIdx % 2 ^ (s.rdf Reg.bkgTeleCfg 3 0))
  let s := { s with bkg := { s.bkg with ddrCe := 0, srmCe := 0, notOk := [] } }
  if writeOk && s.regionOk .oem true a 64 then
    let s := s.wrMem a bytes
    .next ((s.wr Reg.bkgTeleIdx (s.rd Reg.bkgTeleIdx + 1)).irq .bkg 0)
  else .next (s.cnt Reg.bkgLate 31 16)

/-! ### Wear (R500) -/

/-- WEAR_SAVE (R500): hourly. -/
def execWearSave (s : State) : Out :=
  if s.banking 9 && decide (s.bkg.wearAt + 3600 * secT ≤ s.now) then .next { s with bkg := { s.bkg with wearAt := s.now } }.saveWear else .next s

/-- WEAR_SAVE_NOW (R511). -/
def execWearSaveNow (b : Bus) (v : Word) (s : State) : Out :=
  .next (busWrite b .bkg 0x6C v (fun s => if bit v 0 then s.saveWear else s) s)

/-- WEAR_CAPTURE (R511). -/
def execWearCapture (b : Bus) (v : Word) (s : State) : Out :=
  .next (busWrite b .bkg 0x60 v (fun s =>
    (s.plainWrite Reg.bkgWearSel v).wr64 Reg.bkgWearLo Reg.bkgWearHi (tabGet 0 s.bkg.wear (fld v 6 0))) s)

/-! ### The log store (R501) -/

/-- Sectors of the circle: 120 of the 128, the spares taking the places of retired ones; past the eighth it shrinks. -/
def State.logSectors (s : State) : List Nat := (numsWhere 128 (fun k => ! s.bkg.retired.contains k)).take 120

/-- The sector after `k` in the circle. -/
def State.logNext (s : State) (k : Nat) : Nat :=
  match s.logSectors.find? (fun x => decide (k < x)) with
  | some x => x
  | none => s.logSectors.headD 0

/-- Bytes of an entry in its sector: type, sequence number, length and CRC beside the payload (DESIGN CHOICE, log
entry 10: the layout is not given). -/
def logSize (payload : List Byte) : Nat := payload.length + 16

/-- The circle moves to its next sector: the entries still in force there are written again, the sector erased (R501). -/
def State.logAdvance (s : State) : State :=
  let k := s.logNext s.bkg.sector
  let live := s.bkg.log.filter (fun e => e.sector == k && decide (1 ≤ e.kind) && decide (e.kind ≤ 4) &&
    (match s.logInForce e.kind with | some x => x.seq == e.seq | none => false))
  let others := s.bkg.log.filter (fun e => e.sector != k)
  let moved := (List.range live.length).filterMap (fun i => live[i]?.map (fun (e : LogEntry) => { e with seq := s.bkg.logSeq + i }))
  let s := { s with bkg := { s.bkg with
    log := others ++ moved, logSeq := s.bkg.logSeq + moved.length, sector := k,
    used := moved.foldl (fun n (e : LogEntry) => n + logSize e.payload) 0 } }
  s.wearAdd 68 1

/-- The write at the head starts programming, in the present sector or the next. -/
def State.logBegin (s : State) : State :=
  match s.bkg.writes with
  | [] => s
  | w :: rest =>
    let s := if 4096 < s.bkg.used + logSize w.payload then s.logAdvance else s
    { s with bkg := { s.bkg with writes := { w with busy := true, retryAt := none } :: rest } }

/-- Banking may use the boot flash port (R497): its activity 9 runs, and no store write of the enclave is in progress. -/
def State.logIdle (s : State) : Bool := s.banking 9 && ! s.sec.writes.any (fun w => w.retryAt.isNone)

/-- LOG_STORE_WRITE (R497, R501): Banking programs the oldest entry that waits. -/
def execLogStoreWrite (s : State) : Out :=
  match s.bkg.writes with
  | [] => .next s
  | w :: _ => if ! s.logIdle || w.busy || w.retryAt.isSome then .next s else .next s.logBegin

/-- LOG_WRITE_RETRY (R501): 10 ms after a failure. -/
def execLogWriteRetry (s : State) : Out :=
  match s.bkg.writes with
  | [] => .next s
  | w :: _ => if ! s.logIdle || w.busy || ! s.due w.retryAt then .next s else .next s.logBegin

/-- A write that verified is an entry of the circle; its sector failed, is retired, and the write is retried. -/
def State.logConfirmed (s : State) (w : LogWrite) (rest : List LogWrite) : State :=
  let e : LogEntry := ⟨w.kind, s.bkg.logSeq, w.payload, s.bkg.sector⟩
  let b : BkgState := { s.bkg with log := s.bkg.log ++ [e], logSeq := s.bkg.logSeq + 1, used := s.bkg.used + logSize w.payload, writes := rest }
  let s := { s with bkg := b }
  if 1 ≤ w.kind ∧ w.kind ≤ 3 then s.irq .bkg 1 else s
def LogWrite.again (w : LogWrite) (t : Nat) : LogWrite := ⟨w.kind, w.payload, false, some t⟩
def BkgState.logRetire (b : BkgState) (w : List LogWrite) : BkgState := { b with retired := b.retired ++ [b.sector], used := 4096, writes := w }
def State.logFailed (s : State) (w : LogWrite) (rest : List LogWrite) : State :=
  let eighth := s.bkg.retired.length == 7
  let t := s.now + 10 * msT
  let s := { s with bkg := s.bkg.logRetire (w.again t :: rest) }
  let s := ((s.cnt Reg.bkgLogStat 31 16).logStat.irq .bkg 2).soot .bkg 0
  if eighth then s.soot .bkg 1 else s

/-- LOG_WRITE_VERIFY (R501): the entry is confirmed; or its sector retired and a retry set, with LOG_FAIL. -/
def execLogWriteVerify (ok : Bool) (s : State) : Out :=
  match s.bkg.writes with
  | [] => .next s
  | w :: rest =>
    if ! s.domOn 4 || ! w.busy then .next s else
    if ok then .next (s.logConfirmed w rest) else .next (s.logFailed w rest)

/-! ### The converters (R503 to R507) -/

/-- Bank the spare serves permanently, 7 for none. -/
def State.spareBank (s : State) : Nat := s.rdf Reg.adcStat 2 0

/-- Bank a converter serves now (R503, R506, R507). -/
def State.bankServed (s : State) (c : Nat) : Option Nat :=
  if c < 5 then (if (s.conv c).calibrating || s.spareBank == c then none else some c)
  else if (s.conv 5).calibrating then none
  else if s.spareBank < 5 then some s.spareBank
  else s.bkg.standIn

/-- A raw code corrected (R505); rounding is toward minus infinity (DEDUCED). -/
def State.adcCode (s : State) (c raw : Nat) : Nat :=
  let ofs := s.rds (Reg.adcCvCal c) 15 0
  let gain : Int := (s.rdf (Reg.adcCvCal c) 31 16 : Nat)
  (clampI 0 4095 (fdivI (((raw : Int) - ofs) * gain * 1000000 + s.bkg.terms * 32768) 32768000000)).toNat

/-- The temperature terms of R505, in 10^-6 code; held while sensor 9 is not good. -/
def State.adcTerms (s : State) : State :=
  if ! s.dieGood 9 then s else
  let t := s.dieTemp 9 - 250
  let k1 := s.rds Reg.adcTcomp 15 0
  let k2 := s.rds Reg.adcTcomp 31 16
  { s with bkg := { s.bkg with terms := k1 * t * 1000 + k2 * t * t } }

/-- The next enabled input of a scan at or after `i`. -/
def State.scanNext (s : State) (bank i : Nat) : Option Nat :=
  ((List.range 16).map (fun k => (i + k) % 16)).find? (fun k => s.rdb (Reg.adcCvScanEn bank) k)

/-- ADC_CONVERSION (R503 to R505, R263, R265): a converter's slot takes the request its bank has, else the scan's next
input; `raw` is what it converts. -/
def execAdcConversion (c : Fin 6) (req : Option (Fin 16)) (raw : BitVec 12) (s : State) : Out :=
  if ! s.domOn 11 || ! s.enabled (.cv c) then .next s else
  match s.bankServed c.val with
  | none => .next s
  | some bank =>
    let input := match req with | some i => some i.val | none => s.scanNext bank (s.conv c.val).scan
    match input with
    | none => .next s
    | some i =>
      let s := if req.isNone then s.updConv c.val (fun x => { x with scan := (i + 1) % 16 }) else s
      let s := s.adcTerms
      let code := s.adcCode c.val raw.toNat
      let s := s.wr (Reg.adcCvRes bank i) (BitVec.ofNat 32 (code + s.now % 65536 * 65536))
      .next (s.adcConverted (16 * bank + i) code)

/-- ADC_CALIBRATION_START (R506): at its second of ten; the spare takes its bank if it is free to. -/
def execAdcCalibrationStart (c : Fin 6) (s : State) : Out :=
  if ! s.banking 5 || ! s.domOn 11 || ! s.enabled (.cv c) || (s.conv c.val).calibrating || s.now / secT % 10 != c.val ||
      s.spareBank == c.val || s.now / secT + 1 == tabGet 0 s.bkg.calSec c.val then .next s else
  let spareFree := s.spareBank == 7 && s.bkg.standIn.isNone && ! s.rdb Reg.adcStat 3 && ! (s.conv 5).calibrating
  let s := if c.val < 5 && spareFree then { s with bkg := { s.bkg with standIn := some c.val } } else s
  let s := s.updConv c.val (fun x => { x with calibrating := true })
  let s := { s with bkg := { s.bkg with calSec := tabPut 0 s.bkg.calSec c.val (s.now / secT + 1) } }
  .next (s.wrb Reg.bkgStat 5 true)

/-- ADC_CALIBRATION_END (R507). -/
def execAdcCalibrationEnd (c : Fin 6) (ofs gain : BitVec 16) (s : State) : Out :=
  if ! s.domOn 11 || ! (s.conv c.val).calibrating then .next s else
  let s := s.wrb Reg.bkgStat 5 ((List.range 6).any (fun k => k != c.val && (s.conv k).calibrating))
  let s := if s.bkg.standIn = some c.val then { s with bkg := { s.bkg with standIn := none } } else s
  let x := s.conv c.val
  let s := s.cnt (Reg.adcCvCalCnt c.val) 15 0
  let bad := decide (s.rdf Reg.adcCalLim 15 0 < ofs.toInt.natAbs) ||
    decide (s.rdf Reg.adcCalLim 31 16 * 32768 < ((gain.toNat : Int) - 32768).natAbs * 10000)
  if ! bad then
    let s := s.setConv c.val { x with calibrating := false, fails := 0 }
    .next (s.wr (Reg.adcCvCal c.val) (BitVec.ofNat 32 (ofs.toNat + gain.toNat * 0x10000)))
  else
    let fails := satN 2 (x.fails + 1)
    let s := s.setConv c.val { x with calibrating := false, fails := fails }
    let s := (s.cnt (Reg.adcCvCalCnt c.val) 31 16).soot (.cv c) 0
    if fails < 2 then .next s
    else if c.val = 5 then .next (s.wrb Reg.adcStat 3 true)
    else if s.spareBank = 7 ∧ ¬ s.rdb Reg.adcStat 3 then .next ((s.spareTakes c.val).logPush 3 [BitVec.ofNat 8 c.val])
    else .next (s.soot .adc 0)

/-- Whether a plain write of a BKG or ADC register is accepted (R510, R511). -/
def State.bkgWriteOk (s : State) (off : Nat) (v : Word) : Bool :=
  if off = 0x50 ∨ off = 0x54 then ! s.enabled .bkg && (off != 0x50 || fld v 5 0 == 0)
  else if off = 0x58 then ! s.enabled .bkg && decide (2 ≤ fld v 3 0) && decide (fld v 3 0 ≤ 12)
  else true

end Sys2Proof.Machine
end

