-- ==== Sys2Proof/Machine/Jobs.lean ====
section
/-! DEFINITION. Mark jobs, sequencers and stations: admission, arming, marking, waits, programs, swaps (spec/04, R92 to R124; spec/01, R18 to R30). -/
namespace Sys2Proof.Machine

/-! ### Admission (R96 to R99, R116, R117) -/

/-- Speed of an encoder times a time in ticks, in whole counts. -/
def State.wayIn (s : State) (id ticks : Nat) : Nat := s.warpSpeed id * ticks / 2 ^ 32

/-- What a station passes to a member's admission: STN, PART_IDX, the station job, and its own refusal (R117). -/
structure MemberAdm where
  stn : Nat
  part : Nat
  stnJob : Option (Nat × Nat)
  refuse : BitVec 4

/-- The job entry an admission would make, in state ADMITTED (R95, R96, R98). -/
def State.newJob (s : State) (n : Nat) (r : AdmitReq) (trig : Word) (m : MemberAdm) : JobEntry :=
  let foot := s.rdf (Reg.chMarkLen n) 23 0 +
    (if s.isLaser n then s.wayIn r.enc.toNat (s.rdf (Reg.chMarkDur n) 23 0 * usT) else 0)
  let sel := s.selWord (if m.stn = 0 then n else 15 + m.stn)
  let e : JobEntry := { JobEntry.reset with
    productId := r.productId, trkIdx := r.trkIdx, enc := r.enc, st := .admitted, noTrk := r.noTrk,
    jobSeq := s.rd (Reg.chjSeqNext n), templateId := if bit sel 8 then s.tplIdOf (fld sel 4 0) else 0, tplSlot := if bit sel 8 then some (fld sel 4 0) else none,
    partIdx := BitVec.ofNat 8 m.part, stn := BitVec.ofNat 8 m.stn, trigPos := trig,
    winEnd := trig + BitVec.ofNat 32 (foot + s.rdf (Reg.chSelv n) 31 16), foot := BitVec.ofNat 24 foot, admitStamp := s.stamp,
    selvPre := BitVec.ofNat 32 (s.rdf (Reg.chSelv n) 15 0), armDist := s.rd (Reg.chArmDist n), armTmin := s.rd (Reg.chArmTmin n),
    linePitch := s.rd (Reg.chLinePitch n), minLineT := s.rd (Reg.chMinLineT n), speedTol := s.rd (Reg.chSpeedTol n),
    stnJob := m.stnJob }
  { e with armPos := s.armPosOf e }

/-- The highest-ranking condition an admission meets (R97), 0 for none. -/
def State.admitCond (s : State) (n : Nat) (e : JobEntry) (m : MemberAdm) : BitVec 4 :=
  let inhibit := ! s.rdb (Reg.chCtrl n) 0 || ! s.enabled (chPage n 0) || s.inSafe n || s.rdb (Reg.chStat n) 5 ||
    (s.chan n).heldDisable.contains 0 || s.cnsRefuses n
  let full := decide (256 ≤ (s.chan n).jobs.length)
  let pitch := (s.chan n).lastWinValid && decide (sdiff (e.trigPos - e.selvPre) (s.rd (Reg.chLastWin n)) < 0)
  let c := condMax m.refuse (if inhibit then 0xF else 0)
  let c := condMax c (if full then 2 else 0)
  condMax c (if pitch then 3 else 0)

/-- The lowest free entry of channel `n`'s table. -/
def State.freeJob (s : State) (n : Nat) : Nat := (leastWhere 256 (fun j => (s.job n j).st == .free)).getD 0

/-- One admission on channel `n` (R97): refused at once with its verdict, or ADMITTED.  The verdict, 0 when ADMITTED, and the
entry's index. -/
def State.admitMark (s : State) (n : Nat) (r : AdmitReq) (trig : Word) (m : MemberAdm) : State × BitVec 4 × Nat :=
  let e := s.newJob n r trig m
  let c := s.admitCond n e m
  let s := s.wr (Reg.chjSeqNext n) (s.rd (Reg.chjSeqNext n) + 1)
  if c ≠ 0 then
    let (s, e) := s.leaveOut n { e with st := .refused, cond := c } false
    (s, e.verdict, 0)
  else
    let j := s.freeJob n
    let s := (s.setJob n j e).wr (Reg.chLastWin n) e.winEnd
    let s := s.updChan n (fun x => { x with lastWinValid := true })
    let s := (s.cntW (Reg.chCntAdmit n)).chanShow n
    let s := if m.stn = 0 then s.renderRequest n j else s
    (s, 0, j)

/-- JOB_ADMISSION (R97): the request at the head of the channel's job queue. -/
def execJobAdmission (n : Fin 16) (s : State) : Out :=
  match (s.chan n.val).reqs with
  | [] => .next s
  | r :: rest =>
    let s := (s.updChan n.val (fun c => { c with reqs := rest })).qDrop (4 * n.val)
    .next (s.admitMark n.val r (r.birthPos + BitVec.ofNat 32 (s.rdf (Reg.chTrigOfs n.val) 29 0)) ⟨0, 0, none, 0⟩).1

/-- SLOT_OFS of a slot, signed counts (R124). -/
def State.slotOfs (s : State) (k i : Nat) : Word := wordOf (s.rds (Reg.stnSlotOfs k i) 23 0)

/-- Members of station `k` by slot: slot number, member. -/
def State.stnMembersOf (s : State) (k : Nat) : List (Nat × Nat) :=
  (List.range 8).filterMap (fun i => match s.stnSlot k i with | some m => some (i, m) | none => none)

/-- A station that is stopped, disabled or in the safe state refuses for all its members (R117). -/
def State.stnStopped (s : State) (k : Nat) : Bool :=
  ! s.rdb (Reg.chCtrl (16 + k)) 0 || ! s.enabled (.stn (Fin.ofNat 8 k)) || s.deviceSafe

/-- One member's part of a station's admission: its mark job, or its own station job through `nested`; a member refused at
once is counted.  The flag says whether a member was refused or missed so far. -/
def State.memberAdmit (nested : Nat → Word → Nat → Option (Nat × Nat) → BitVec 4 → State → State × BitVec 4 × JobSt × Nat)
    (k : Nat) (r : AdmitReq) (trig : Word) (own : Option (Nat × Nat)) (refuse : BitVec 4) (s : State) (out : Bool)
    (im : Nat × Nat) : State × Bool :=
  let ofs := s.slotOfs k im.1
  let p := s.rdf (Reg.stnSlotMember k im.1) 15 8
  let (s, v, exit) :=
    if im.2 < 16 then
      let (s, v, _) := s.admitMark im.2 r (trig + ofs) ⟨k + 1, p, own, refuse⟩
      (s, v, JobSt.refused)
    else
      let (s, v, exit, _) := nested (im.2 - 16) (trig + ofs) p own refuse s
      (s, v, exit)
  match own with
  | none => (s, out || v != 0)
  | some (_, sj) => if v = 0 then (s, out) else (s.stnCount k sj v exit, out || exit == .refused || exit == .missed)

/-- A station's admission (R117): one station job and a member job on every member, in slot order; members refused at once
are counted, and an ATOMIC station then inhibits the rest. -/
def State.stationAdmit (nested : Nat → Word → Nat → Option (Nat × Nat) → BitVec 4 → State → State × BitVec 4 × JobSt × Nat)
    (k : Nat) (r : AdmitReq) (trig : Word) (part : Nat) (parent : Option (Nat × Nat)) (refuse : BitVec 4) (s : State) :
    State × BitVec 4 × JobSt × Nat :=
  let full := decide (256 ≤ (s.stn k).jobs.length)
  let refuse := condMax refuse (if s.stnStopped k then 0xF else if full then 2 else 0)
  let members := s.stnMembersOf k
  let seq := s.rd (Reg.chjSeqNext (16 + k))
  let s := s.wr (Reg.chjSeqNext (16 + k)) (seq + 1)
  let sj := (leastWhere 256 (fun j => (s.stnJob k j).entry.st == .free)).getD 0
  let sel := s.selWord (16 + k)
  let e : JobEntry := { JobEntry.reset with
    productId := r.productId, trkIdx := r.trkIdx, enc := r.enc, st := .admitted, noTrk := r.noTrk, jobSeq := seq,
    templateId := if bit sel 8 then s.tplIdOf (fld sel 4 0) else 0, tplSlot := if bit sel 8 then some (fld sel 4 0) else none,
    partIdx := BitVec.ofNat 8 part, trigPos := trig,
    admitStamp := s.stamp, units := BitVec.ofNat 16 members.length, stnJob := parent }
  let own := if full then none else some (k, sj)
  let s := if full then s else s.setStnJob k sj ⟨e, members.length, 0⟩
  let s := s.usedShow (16 + k) (s.stn k).jobs.length
  let (s, out) := members.foldl (fun a im => State.memberAdmit nested k r trig own refuse a.1 a.2 im) (s, false)
  if full then (s, 2, .refused, 0) else
  let s := if out && s.rdb (Reg.stnCfg k) 1 then s.stnInhibit 4 k sj else s
  let x := s.stnJob k sj
  if x.left = 0 then (s.stnClose k sj, x.worst, x.entry.st, sj)
  else ((s.cntW (Reg.chCntAdmit (16 + k))).renderRequest (16 + k) sj, 0, .admitted, sj)

/-- STATION_ADMISSION (R117) with the nesting bounded by `fuel` (R17).  The verdict is the station job's when it has already
left, else 0. -/
def State.admitStation : Nat → Nat → AdmitReq → Word → Nat → Option (Nat × Nat) → BitVec 4 → State → State × BitVec 4 × JobSt × Nat
  | 0, _, _, _, _, _, _, s => (s, 0, .free, 0)
  | fuel + 1, k, r, trig, part, parent, refuse, s =>
    State.stationAdmit (fun k' trig' part' => State.admitStation fuel k' r trig' part') k r trig part parent refuse s

/-- STATION_ADMISSION (R117). -/
def execStationAdmission (k : Fin 8) (s : State) : Out :=
  match (s.stn k.val).reqs with
  | [] => .next s
  | r :: rest =>
    let s := s.updStn k.val (fun x => { x with reqs := rest })
    .next (State.admitStation 4 k.val r (r.birthPos + BitVec.ofNat 32 (s.rdf (Reg.chTrigOfs (16 + k.val)) 29 0)) 0 none 0 s).1

/-! ### Arm checks and marking (R100 to R104) -/

/-- The speed check of a thermal job (R102). -/
def State.thermSpeedOk (s : State) (e : JobEntry) : Bool :=
  decide (s.predSpeed e * fld e.minLineT 19 0 * 1000 ≤ e.linePitch.toNat * (1000 + fld e.speedTol 9 0) * 65536)

/-- Position `p` has been passed by the warp of a job. -/
def State.past (s : State) (e : JobEntry) (p : Word) : Bool := decide (0 < sdiff (s.warpLow e.enc.toNat) p)

/-- A self-test of Banking ends, or is cut short (R119, R496). -/
def State.selftestStop (s : State) (n : Nat) : State :=
  if ! (s.seq n).testing then s else
  let s := s.updSeq n (fun q => { q with testing := false })
  s.wrb Reg.bkgStat 2 ((List.range 17).any (fun k => (s.seq k).testing))

/-- ARM_CHECK (R101): the conditions of the check with those the job already has; ARMED with a record slot, or out. -/
def execArmCheck (n : Fin 16) (j : BitVec 8) (s : State) : Out :=
  let n := n.val
  let j := j.toNat
  let e := s.job n j
  if ! (e.st == .admitted || e.st == .composed) || ! s.warpAt e.enc.toNat e.armPos then .next s else
  let slot := s.recFree n
  let speed := if s.isLaser n then s.laserSpeedOk n e else s.thermSpeedOk e
  let content := e.st == .composed && e.inRing && ! s.past e (e.trigPos - e.selvPre)
  let damper := s.rdb (Reg.chStat n) 4
  let pause := damper || (! s.isLaser n && s.rdb (Reg.hpStat n) 1)
  let s := if s.past e e.trigPos then s.soot (chPage n 2) 0 else s
  if slot && speed && content && ! pause then
    let s := (s.qReserve (4 * n + 2)).setJob n j { e with st := .armed }
    let s := s.jobEvent n 1 j
    let s := s.galvoStop n
    .next ((s.selftestStop n).chanShow n)
  else
    let c := condMax e.cond (if slot then 0 else 0xE)
    let c := condMax c (if speed then 0 else 4)
    let c := condMax c (if content then 0 else if e.damped then 0xD else 5)
    let c := condMax c (if pause then 0xD else 0)
    let s := s.addCond n j c
    let s := if c = 0xD ∧ (damper ∨ e.damped) then s.cnt Reg.thmDmpStat 31 16 else s
    .next (s.jobLeave n j (if c = 0xE ∨ c = 4 then .refused else .missed))

/-- MARKING_START (R103): the warp has reached an ARMED job's trigger. -/
def execMarkingStart (n : Fin 16) (j : BitVec 8) (s : State) : Out :=
  let n := n.val
  let j := j.toNat
  let e := s.job n j
  if e.st != .armed || ! s.warpAt e.enc.toNat e.trigPos then .next s else
  let s := s.setJob n j { e with st := .marking, startStamp := s.stamp }
  let s := (s.jobEvent n 2 j).galvoStop n
  let s := s.updChan n (fun c => { c with lastFire := s.now, heldEnd := none })
  let s := s.chanShow n
  .next (if s.isLaser n then s.laserMarkBegin n j else s.thermMarkBegin n j)

/-- A job that a mark-program write may name: index and condition of the write (R109). -/
def postJob (v : Word) : Nat := fld v 7 0
def postCond (v : Word) : BitVec 4 := BitVec.ofNat 4 (fld v 11 8)

/-- A write ignored and counted (R109). -/
def State.badPost (s : State) (n : Nat) : State := s.cnt (Reg.seqBadpost n) 15 0

/-- The sequencer of channel `n` executes: running, neither waiting nor stalled (R108, R111, R115). -/
def State.seqRuns (s : State) (n : Nat) : Bool :=
  s.powered (seqPage n) && s.rdb (Reg.seqStat n) 8 && (s.seq n).wait == .none && (s.seq n).stalledEdge.isNone

/-- TP_JOB_END (R109): a condition first, then DONE, held while a last readback check or the laser's END is open (R178,
R202). -/
def execTpJobEnd (n : Fin 16) (v : Word) (s : State) : Out :=
  let n := n.val
  let j := postJob v
  if ! s.seqRuns n then .next s else
  if (s.job n j).st != .marking then .next (s.badPost n) else
  let s := s.addCond n j (postCond v)
  if s.endReady n then .next (s.jobLeave n j .done)
  else .next (s.updChan n (fun c => { c with heldEnd := some (j, postCond v) }))

/-- JOB_END_DEFERRED_APPLY (R178, R202). -/
def execJobEndDeferredApply (n : Fin 16) (s : State) : Out :=
  match (s.chan n.val).heldEnd with
  | none => .next s
  | some (j, _) =>
    if ! s.endReady n.val then .next s else
    let s := s.updChan n.val (fun c => { c with heldEnd := none })
    .next (if (s.job n.val j).st == .marking then s.jobLeave n.val j .done else s)

/-- TP_COND (R109). -/
def execTpCond (n : Fin 16) (v : Word) (s : State) : Out :=
  let n := n.val
  let j := postJob v
  if ! s.seqRuns n then .next s else
  match (s.job n j).st with
  | .admitted | .composed | .armed | .marking => .next (s.addCond n j (postCond v))
  | _ => .next (s.badPost n)

/-- MARK_STALL (R104). -/
def execMarkStall (n : Fin 16) (s : State) : Out :=
  let n := n.val
  match s.markJob n with
  | none => .next s
  | some j =>
    if s.rdb (Reg.chStat n) 3 || decide (s.now - (s.chan n).lastFire < s.rdf (Reg.chStallT n) 15 0 * msT) then .next s else
    .next (((s.wrb (Reg.chStat n) 3 true).jobEvent n 3 j).irq (chPage n 2) 2)

/-! ### Start, stop, cancel, manual admission (R105, R121, R123) -/

/-- The unit number of a channel or station (R116, R124), its header page, and the offsets of its registers there. -/
def unitNum : MarkUnit → Nat
  | .ch n => n.val
  | .stn k => 16 + k.val
def unitPage : MarkUnit → Page
  | .ch n => .ch n 0
  | .stn k => .stn k
def unitJobPage : MarkUnit → Page
  | .ch n => .ch n 2
  | .stn k => .stn k
def unitJobOff (u : MarkUnit) (o : Nat) : Nat :=
  match u with
  | .ch _ => o
  | .stn _ => o + 0x400

/-- READY_RETURN (R483): the part leaves READY for RUN; a request under way stays. -/
def State.readyReturn (s : State) : State :=
  if s.rdf Reg.pwrStat 2 0 = 1 then
    let s := s.wrf Reg.pwrStat 2 0 0
    if s.rdf Reg.pwrStat 5 3 = 0 then ((s.wrf Reg.pwrStat 8 6 0).wrf Reg.pwrStat 20 16 0).irq .pwr 1 else s
  else s

/-- CH_STAT and STATE of a station (R124). -/
def State.stnShow (s : State) (k : Nat) : State :=
  let on := s.enabled (.stn (Fin.ofNat 8 k))
  let used := (s.stn k).jobs.length
  let s := s.wrb (Reg.chStat (16 + k)) 0 (on && s.rdb (Reg.chCtrl (16 + k)) 0)
  s.setStat (.stn (Fin.ofNat 8 k)) (if ! on then 0 else if s.deviceSafe then 5 else if used = 0 then 2 else 3)

/-- A unit started (R121, R188, R483); a station needs 2 members (R17). -/
def State.unitStart (s : State) (u : MarkUnit) : State :=
  let s := s.readyReturn
  match u with
  | .ch n =>
    let s := (s.wrb (Reg.chCtrl n.val) 0 true).chanShow n.val
    if s.isLaser n.val then s else s.tagAuthStart n.val
  | .stn k =>
    if (s.stnMembersOf k.val).length < 2 then s.soot (.stn k) 0
    else (s.wrb (Reg.chCtrl (16 + k.val)) 0 true).stnShow k.val

/-- A station job with no member job left leaves, and its own station is told (R117). -/
def State.stnEmptyClose (s : State) (k sj : Nat) (x : StnJob) : State :=
  if x.left != 0 || x.entry.st == .free then s else
  match x.entry.stnJob with
  | some (k', sj') => (s.stnClose k sj).stnLeft 4 k' sj' x.worst x.entry.st
  | none => s.stnClose k sj
def State.stnInhibitJob (s : State) (k sj : Nat) : State :=
  let s := s.stnInhibit 4 k sj
  s.stnEmptyClose k sj (s.stnJob k sj)

/-- Every station job's members that are not MARKING leave REFUSED with INHIBITED (R105). -/
def State.stnInhibitAll (s : State) (k : Nat) : State :=
  (forL ((s.stn k).jobs.map (fun e => e.1)) (fun sj s => s.stnInhibitJob k sj) s).stnShow k

/-- A unit stopped (R105, R189). -/
def State.unitStop (s : State) (u : MarkUnit) : State :=
  match u with
  | .ch n =>
    let s := (s.wrb (Reg.chCtrl n.val) 0 false).inhibitJobs n.val
    let s := if s.isLaser n.val then s else s.tagWritebackStart n.val
    (s.chanShow n.val).enableCheck
  | .stn k => (s.wrb (Reg.chCtrl (16 + k.val)) 0 false).stnInhibitAll k.val

/-- CHANNEL_START (R121). -/
def execChannelStart (b : Bus) (u : MarkUnit) (s : State) : Out := .next (busWrite b (unitPage u) 0x44 1 (fun s => s.unitStart u) s)

/-- CHANNEL_STOP (R105). -/
def execChannelStop (b : Bus) (u : MarkUnit) (s : State) : Out := .next (busWrite b (unitPage u) 0x44 0 (fun s => s.unitStop u) s)

/-- A job cancelled (R123): result 1 cancelled, 2 MARKING, 3 entry FREE.  A station's job is MARKING while a member is. -/
def State.cancelJob (s : State) (u : MarkUnit) (j : Nat) : State × Nat :=
  match u with
  | .ch n =>
    match (s.job n.val j).st with
    | .free => (s, 3)
    | .marking => (s, 2)
    | _ => (s.jobLeaveWith n.val j 0xF .refused, 1)
  | .stn k =>
    let x := s.stnJob k.val j
    let marks := (List.range 16).any (fun n => (s.chan n).jobs.any (fun e => e.2.stnJob == some (k.val, j) && e.2.st == .marking))
    if x.entry.st = .free then (s, 3)
    else if marks then (s, 2)
    else
      let s := s.stnInhibit 4 k.val j
      let x := s.stnJob k.val j
      if x.left ≠ 0 then (s, 1) else
      let s := s.stnClose k.val j
      match x.entry.stnJob with
      | some (k', sj') => (s.stnLeft 4 k' sj' x.worst x.entry.st, 1)
      | none => (s, 1)

/-- JOB_CANCEL (R123). -/
def execJobCancel (b : Bus) (u : MarkUnit) (v : Word) (s : State) : Out :=
  .next (busWrite b (unitJobPage u) (unitJobOff u 0x54) v (fun s =>
    let (s, r) := s.cancelJob u (fld v 7 0)
    s.wrf (Reg.chjCancelRes (unitNum u)) 1 0 r) s)

/-- A manual admission on a channel or a station: the verdict, 0 when ADMITTED, and the entry's index. -/
def State.admitManual (s : State) (u : MarkUnit) (r : AdmitReq) (pos : Word) : State × BitVec 4 × Nat :=
  match u with
  | .ch n => s.admitMark n.val r pos ⟨0, 0, none, 0⟩
  | .stn k =>
    let x := State.admitStation 4 k.val r pos 0 none 0 s
    (x.1, x.2.1, x.2.2.2)

/-- MANUAL_ADMIT (R123): a job with no product record at CHJ_MADMIT_POS. -/
def execManualAdmit (b : Bus) (u : MarkUnit) (v : Word) (s : State) : Out :=
  .next (busWrite b (unitJobPage u) (unitJobOff u 0x4C) v (fun s =>
    if ! bit v 31 then s else
    let pos := s.rd (Reg.chjMadmitPos (unitNum u))
    let (s, verdict, j) := s.admitManual u ⟨0, 0, BitVec.ofNat 4 (fld v 3 0), pos, true⟩ pos
    s.wr (Reg.chjMadmitRes (unitNum u))
      (BitVec.ofNat 32 (if verdict = 0 then j + 0x100 else verdict.toNat * 0x1000))) s)

/-- The code of a job's state (R92). -/
def JobSt.code : JobSt → Nat
  | .free => 0 | .admitted => 1 | .composed => 2 | .armed => 3 | .marking => 4 | .done => 5 | .aborted => 6 | .refused => 7
  | .missed => 8

/-- The 16 words of a job entry (R95). -/
def jobWords (e : JobEntry) : List Nat :=
  [e.productId.toNat,
   e.trkIdx.toNat + e.enc.toNat * 0x1000 + e.st.code * 0x10000 + e.cond.toNat * 0x100000 + e.verdict.toNat * 0x1000000 +
     b2n e.noTrk * 2 ^ 28 + b2n e.inRing * 2 ^ 29 + b2n e.damped * 2 ^ 30 + b2n e.popped * 2 ^ 31,
   e.jobSeq.toNat, e.templateId.toNat + e.partIdx.toNat * 0x10000 + e.stn.toNat * 0x1000000, e.trigPos.toNat, e.armPos.toNat,
   e.winEnd.toNat, e.foot.toNat, e.admitStamp.toNat % 2 ^ 32, e.admitStamp.toNat / 2 ^ 32, e.startStamp.toNat % 2 ^ 32,
   e.startStamp.toNat / 2 ^ 32, e.ringOfs.toNat + e.ringLen.toNat * 0x10000, e.contentCrc.toNat, e.renderTag.toNat,
   e.units.toNat + e.renderUs.toNat * 0x10000]

/-- JOB_ENTRY_CAPTURE (R123, R124). -/
def execJobEntryCapture (b : Bus) (u : MarkUnit) (v : Word) (s : State) : Out :=
  .next (busWrite b (unitJobPage u) (unitJobOff u 0x5C) v (fun s =>
    let e := match u with
      | .ch n => s.job n.val (fld v 7 0)
      | .stn k => (s.stnJob k.val (fld v 7 0)).entry
    (s.plainWrite (Reg.chjSel (unitNum u)) v).wrWords (Reg.chjD (unitNum u)) 0 (jobWords e)) s)

/-- CHJ_PEAK_CLEAR (R123). -/
def execChjPeakClear (b : Bus) (u : MarkUnit) (v : Word) (s : State) : Out :=
  .next (busWrite b (unitJobPage u) (unitJobOff u 0x44) v (fun s => if bit v 31 then s.wrf (Reg.chjPeak (unitNum u)) 8 0 0 else s) s)

/-! ### Timing ports (R108 to R113) -/

/-- A port access of a sequencer that executes. -/
def State.port (s : State) (n : Nat) (eff : State → State) : Out := .next (if s.seqRuns n then eff s else s)

/-- TP_TSC_CAPTURE (R108). -/
def execTpTscCapture (n : Fin 16) (s : State) : Out :=
  s.port n.val (fun s => (s.updSeq n.val (fun q => { q with tscHi := hiW s.now })).respond false (loW s.now))

/-- TP_POS_CAPTURE (R108): the warp integer, with fraction and velocity captured. -/
def execTpPosCapture (n : Fin 16) (s : State) : Out :=
  s.port n.val (fun s =>
    let id := (s.seq n.val).encSel.toNat
    let p := s.warpFix id
    (s.updSeq n.val (fun q => { q with posFrac := BitVec.ofNat 16 p, velCap := s.warpVel id })).respond false (loW (p / 65536)))

/-- TP_WAIT_POS (R108). -/
def execTpWaitPos (n : Fin 16) (v : Word) (s : State) : Out :=
  s.port n.val (fun s => s.updSeq n.val (fun q => { q with wait := .pos v q.encSel, wakeReversal := false, wakePulse := false }))

/-- TP_WAIT_TICK (R108). -/
def execTpWaitTick (n : Fin 16) (v : Word) (s : State) : Out :=
  s.port n.val (fun s => s.updSeq n.val (fun q => { q with wait := .tick v, wakeReversal := false, wakePulse := false }))

/-- WAIT_WAKE (R108): a reversal, the position or tick, or a completion pulse ends the wait; an abort order ends it at once
(R112). -/
def execWaitWake (n : Fin 16) (s : State) : Out :=
  let q := s.seq n.val
  let reached := match q.wait with
    | .none => false
    | .pos p id => s.warpAt id.toNat p
    | .tick t => decide (0 ≤ sdiff (loW s.now) t)
  if q.wait == .none then .next s else
  let wake (c : BitVec 2) : Out :=
    .next (s.setSeq n.val { q with wait := .none, waitRes := c, wakeReversal := false, wakePulse := false })
  if q.wakeReversal then wake 2 else if reached then wake 0 else if q.wakePulse then wake 3 else .next s

/-- TP_PRED_POS (R110). -/
def execTpPredPos (n : Fin 16) (v : Word) (s : State) : Out :=
  s.port n.val (fun s => s.updSeq n.val (fun q => { q with predPos := some (v, s.now), predStat := 0 }))

/-- The prediction (R110): status and ticks from now, to the nearest.  `d` is the way to go in 2^-16 counts, `v` in 2^-32
counts per tick, `a` in 2^-56 counts per tick squared. -/
def predict (d v a : Int) : Nat × Nat :=
  if v = 0 then (1, 0) else
  let d := if v < 0 then -d else d
  let a := if v < 0 then -a else a
  if d ≤ 0 then (2, 0) else
  let u := v.natAbs * 2 ^ 24
  let disc : Int := (u * u : Nat) + 2 * a * (d * 2 ^ 40)
  if disc < 0 then (3, 0) else
  let root := isqrt (disc.toNat * 2 ^ 80)
  (0, divNear (2 * d.toNat * 2 ^ 40 * 2 ^ 40) (u * 2 ^ 40 + root))

/-- PREDICTION_DONE (R110). -/
def execPredictionDone (n : Fin 16) (s : State) : Out :=
  let q := s.seq n.val
  match q.predPos with
  | none => .next s
  | some (p, _) =>
    let id := q.encSel.toNat
    let d := signed 48 (wrapN 48 ((p.toNat * 65536 + q.predFrac.toNat : Nat) - (s.warpFix id : Nat)))
    let (st, t) := predict d (s.warpVelI id) (sword (s.warpAcc id))
    .next (s.setSeq n.val { q with predPos := none, predTick := BitVec.ofNat 64 (s.now + t), predStat := BitVec.ofNat 3 (1 + 2 * st) })

/-- An edge changes its target (R111): a pin the channel's mode gives the sequencer, or an engine trigger. -/
def State.edgeApply (s : State) (n : Nat) (e : SchedEdge) (pinBad : Bool) : State :=
  let t := e.target.toNat
  if t < 16 then
    let own := if s.isLaser n then [8, 9, 12, 13].contains t else t == 15
    if ! own then s else
    let m := BitVec.ofNat 16 (2 ^ t)
    s.updChan n (fun c => { c with pins := if e.level then c.pins ||| m else c.pins &&& ~~~m })
  else if t < 24 then (if s.isLaser n then s.laserTrigger n (t - 16) else s.thermTrigger n (t - 16) pinBad)
  else s

/-- LATE_EDGE (R111): LATE, the event, soot EDGE_LATE, and CONTENT_ERROR on every MARKING job. -/
def State.edgeLate (s : State) (n : Nat) (e : SchedEdge) : State :=
  let s := s.edgeApply n e false
  let s := (s.updSeq n (fun q => { q with late := true })).cnt (Reg.seqLateCnt n) 15 0
  let s := (s.chanEvent n 8 0 0).soot (chPage n 1) 3
  s.condMarking n 7

/-- An edge enters the queue (R111): a later write for the same target and tick replaces the earlier; one whose tick has
passed is late. -/
def State.edgeInsert (s : State) (n : Nat) (e : SchedEdge) : State :=
  if 0 < sdiff (loW s.now) e.tick then s.edgeLate n e
  else s.updSeq n (fun q => { q with edges := q.edges.filter (fun x => ! (x.target == e.target && x.tick == e.tick)) ++ [e] })

/-- TP_EDGE_CMD (R111): the edge queued at TP_EDGE_TICK, or the sequencer stalled until a slot frees. -/
def execTpEdgeCmd (n : Fin 16) (v : Word) (s : State) : Out :=
  s.port n.val (fun s =>
    let q := s.seq n.val
    let e : SchedEdge := ⟨q.edgeTick, BitVec.ofNat 5 (fld v 4 0), bit v 8⟩
    if 32 ≤ q.edges.length then s.setSeq n.val { q with stalledEdge := some e } else s.edgeInsert n.val e)

/-- EDGE_QUEUE_RESUME (R111). -/
def execEdgeQueueResume (n : Fin 16) (s : State) : Out :=
  let q := s.seq n.val
  match q.stalledEdge with
  | some e => if q.edges.length < 32 then .next ((s.setSeq n.val { q with stalledEdge := none }).edgeInsert n.val e) else .next s
  | none => .next s

/-- The queued edge with the least tick, the earliest written of equals. -/
def firstEdge (now_ : Word) : List SchedEdge → Option SchedEdge
  | [] => none
  | e :: t => match firstEdge now_ t with
    | none => some e
    | some x => if sdiff x.tick e.tick < 0 then some x else some e

/-- SCHEDULED_EDGE_RELEASE (R111, R352): the first edge, once the TSC has reached its tick. -/
def execScheduledEdgeRelease (n : Fin 16) (pinBad : Bool) (s : State) : Out :=
  let q := s.seq n.val
  match firstEdge (loW s.now) q.edges with
  | none => .next s
  | some e =>
    if sdiff (loW s.now) e.tick < 0 then .next s else
    .next ((s.setSeq n.val { q with edges := q.edges.erase e }).edgeApply n.val e pinBad)

/-- TP_EDGE_STAT_READ (R108). -/
def execTpEdgeStatRead (n : Fin 16) (s : State) : Out :=
  s.port n.val (fun s =>
    let q := s.seq n.val
    (s.setSeq n.val { q with late := false }).respond false (BitVec.ofNat 32 (32 - q.edges.length + b2n q.late * 256)))

/-- TP_JOB_POP (R108): the ARMED, unpopped job with the lowest trigger position, by signed difference. -/
def execTpJobPop (n : Fin 16) (s : State) : Out :=
  s.port n.val (fun s =>
    let c := (s.chan n.val).jobs.filter (fun e => e.2.st == .armed && ! e.2.popped)
    let best := c.foldl (fun (m : Option (Nat × JobEntry)) e => match m with
      | none => some e
      | some x => if sdiff e.2.trigPos x.2.trigPos < 0 then some e else some x) none
    match best with
    | none => s.respond false 0
    | some (j, e) => (s.setJob n.val j { e with popped := true }).respond false (BitVec.ofNat 32 (j + 256)))

/-- TP_EVENT_POP (R108). -/
def execTpEventPop (n : Fin 16) (s : State) : Out :=
  s.port n.val (fun s =>
    match (s.seq n.val).events with
    | [] => s.respond false 0
    | e :: rest =>
      (s.updSeq n.val (fun q => { q with events := rest })).respond false
        (BitVec.ofNat 32 (e.kind.toNat + e.job.toNat * 256 + 0x10000)))

/-- SEQ_WDT in ticks, 0 taken as 1 µs (R122). -/
def State.wdtTicks (s : State) (n : Nat) : Nat := Nat.max 1 (s.rdf (Reg.seqWdt n) 15 0) * usT

/-- TP_KICK (R113). -/
def execTpKick (n : Fin 16) (s : State) : Out :=
  s.port n.val (fun s => s.updSeq n.val (fun q => { q with wdtAt := s.now + s.wdtTicks n.val }))

/-! ### Sequencer failure, programs, the spare (R113 to R120) -/

/-- SEQUENCER_FAILURE (R119): halted, its source raised, its channel's jobs aborted, a swap awaited. -/
def State.seqFail (s : State) (n cause : Nat) : State :=
  let s := ((s.wrb (Reg.seqStat n) 8 false).wrb (Reg.seqStat n) 9 true).wrf (Reg.seqStat n) 15 12 cause
  let s := (s.selftestStop n).updSeq n (fun q => { q with wait := .none, failedAt := some s.now })
  let s := s.soot (seqPage n) cause
  if n = 16 then s else
  let s := (s.abortChannelJobs n false).wrb (Reg.chStat n) 5 true
  s.wrf (Reg.seqSwapStat n) 2 0 1

/-- SEQ_WATCHDOG_EXPIRY (R113): a wait does not stop it. -/
def execSeqWatchdogExpiry (n : Fin 17) (s : State) : Out :=
  if s.powered (seqPage n.val) && s.rdb (Reg.seqStat n.val) 8 && decide ((s.seq n.val).wdtAt ≤ s.now) then .next (s.seqFail n.val 0)
  else .next s

/-- SEQ_ACCESS_FAULT (R107, R119). -/
def execSeqAccessFault (n : Fin 17) (s : State) : Out :=
  if s.powered (seqPage n.val) && s.rdb (Reg.seqStat n.val) 8 then .next (s.seqFail n.val 6) else .next s

/-- SEQ_ECC_UNCORRECTABLE (R119, R315). -/
def execSeqEccUncorrectable (n : Fin 17) (s : State) : Out :=
  if s.powered (seqPage n.val) && s.rdb (Reg.seqStat n.val) 8 then .next (s.seqFail n.val 2) else .next s

/-- The idle gap of a sequencer's self-test (R119, R497). -/
def State.seqIdle (s : State) (n : Nat) : Bool := decide (n = 16) || s.armsAhead n

/-- SEQ_SELFTEST_START (R119, R497): Banking's activity 2, in an idle gap; a test that finds none is counted late. -/
def execSeqSelftestStart (n : Fin 17) (s : State) : Out :=
  if ! s.banking 2 || ! s.powered (seqPage n.val) || s.rdb (Reg.seqStat n.val) 9 || (s.seq n.val).testing then .next s
  else if ! s.seqIdle n.val then .next (s.cnt Reg.bkgLate 15 0)
  else .next ((s.updSeq n.val (fun q => { q with testing := true })).wrb Reg.bkgStat 2 true)

/-- SEQ_SELFTEST_DONE (R119). -/
def execSeqSelftestDone (n : Fin 17) (pass : Bool) (s : State) : Out :=
  if ! (s.seq n.val).testing then .next s else
  let s := s.selftestStop n.val
  .next (if pass then s else s.seqFail n.val 1)

/-- Fields of a mark-program image (R114), and its format checks against the bytes' length and a mode, 2 for either. -/
def progCode (img : List Byte) : Nat := leAt img 4 4
def progData (img : List Byte) : Nat := leAt img 8 4
def progFormatOk (img : List Byte) (mode : Nat) : Bool :=
  let c := progCode img
  let d := progData img
  let m := leAt img 3 1
  leAt img 0 2 == 0x5153 && leAt img 2 1 == 1 && decide (m ≤ 2) && (m == 2 || mode == 2 || m == mode) &&
    c % 4 == 0 && decide (c ≤ 32768) && d % 4 == 0 && decide (d ≤ 32768) && img.length == 128 + c + d &&
    decide (leAt img 0x0C 4 < 32768) && decide (leAt img 0x14 1 ≤ 1) && leAt img 0x15 3 == 0 && leAt img 0x18 20 == 0 &&
    leAt img 0x2C 20 == 0

/-- The image at SEQ_LOAD_ADDR (R115). -/
def State.progImage (s : State) (n : Nat) : List Byte :=
  s.rdMem (s.rdn (Reg.seqLoadAddrLo n) + s.rdf (Reg.seqLoadAddrHi n) 7 0 * 2 ^ 32) (Nat.min (s.rdn (Reg.seqLoadLen n)) 65664)

/-- The image's code, data and entry in a sequencer. -/
def State.progStore (s : State) (n : Nat) (img : List Byte) : State :=
  s.updSeq n (fun q => { q with
    code := slice img 64 (progCode img), data := slice img (64 + progCode img) (progData img),
    entry := BitVec.ofNat 32 (leAt img 0x0C 4), loaded := true })

/-- A write of SEQ_CTRL (R115, R122): LOAD, RUN and HALT. -/
def State.seqCtrlWrite (s : State) (n : Nat) (v : Word) : State :=
  let a := Reg.seqCtrl n
  let s := s.wr a (setBit (setBit (s.rd a) 0 (bit v 0)) 2 (bit v 2))
  let ok := decide (n = 16) && s.jobs.spareServes.isNone ||
    decide (n < 16) && ! s.enabled (chPage n 0) && (s.chan n).jobs.isEmpty
  let s := if ! bit v 1 || (s.seq n).loading then s
    else if ! ok then s.wrf (Reg.seqStat n) 2 0 5
    else ((s.updSeq n (fun q => { q with loading := true, loaded := false })).wrf (Reg.seqStat n) 2 0 1).wrb (Reg.seqStat n) 8 false
  let s := if bit v 0 && (s.seq n).loaded && ! s.rdb (Reg.seqStat n) 9 && ! s.rdb (Reg.seqStat n) 8 && ! bit v 2 then
      let s := s.updSeq n (fun q => { q with wdtAt := s.now + s.wdtTicks n, wait := .none })
      (s.wrb (Reg.seqStat n) 8 true).wr (Reg.seqPc n) (s.seq n).entry
    else s
  if bit v 2 then s.wrb (Reg.seqStat n) 8 false else s

/-- A bus write of a sequencer's SEQ_CTRL. -/
def seqCtrlBus (b : Bus) (n : Nat) (v : Word) (s : State) : Out :=
  .next (busWrite b (seqPage n) 0x40 v (fun s => s.seqCtrlWrite n v) s)

/-- PROGRAM_LOAD (R115). -/
def execProgramLoad (b : Bus) (n : Fin 17) (v : Word) (s : State) : Out := seqCtrlBus b n.val (setBit v 1 true) s

/-- SEQ_RUN (R115). -/
def execSeqRun (b : Bus) (n : Fin 17) (v : Word) (s : State) : Out := seqCtrlBus b n.val (setBit v 0 true) s

/-- SEQ_HALT (R122). -/
def execSeqHalt (b : Bus) (n : Fin 17) (v : Word) (s : State) : Out := seqCtrlBus b n.val (setBit v 2 true) s

/-- PROGRAM_LOAD_DONE (R115, R120): format, mode, signature, then the copy and the hash; a failure clears the SRAMs.  A load
completed on a channel whose swap failed retries the swap. -/
def execProgramLoadDone (n : Fin 17) (s : State) : Out :=
  let n := n.val
  if ! (s.seq n).loading then .next s else
  let img := s.progImage n
  let body := img.take (img.length - 64)
  let mode := if n = 16 then 2 else s.rdf (Reg.chCfg n) 0 0
  let s := s.updSeq n (fun q => { q with loading := false, code := [], data := [], loaded := false })
  let hash := sha256 body
  let res := if img.length ≠ s.rdn (Reg.seqLoadLen n) ∨ progFormatOk img mode = false then 4
    else if s.progSigOk (leAt img 0x14 1) hash (img.drop (img.length - 64)) = false then 3 else 2
  let s := s.wrf (Reg.seqStat n) 2 0 res
  if res ≠ 2 then .next (s.soot (seqPage n) 4) else
  let s := s.progStore n img
  let s := s.wrWords (Reg.seqProgHash n) 0 ((List.range 8).map (fun i => leAt (sha256 img) (4 * i) 4))
  let s := s.wr (Reg.seqProgVer n) (BitVec.ofNat 32 (leAt img 0x10 4))
  .next (if n < 16 ∧ s.rdf (Reg.seqSwapStat n) 2 0 = 5 then
      (s.updSeq n (fun q => { q with failedAt := some s.now })).wrf (Reg.seqSwapStat n) 2 0 1 else s)

/-- SWAP_FAIL (R120): the soot, the event, and the channel taken to CHANNEL_SAFE. -/
def State.swapFail (s : State) (n : Nat) : State :=
  let s := (s.wrf (Reg.seqSwapStat n) 2 0 5).soot (chPage n 1) 5
  let s := s.chanEvent n 7 0 0
  let src := 96 + 8 * n
  let s := s.updSrc src (fun x => { x with latched := true, taken := true, step := Nat.max x.step 1 })
  (s.showSrc src).safeUpdate

/-- SWAP_START (R120): 50 µs with no job MARKING; the spare is loaded once the image's hash matches. -/
def execSwapStart (n : Fin 16) (s : State) : Out :=
  let n := n.val
  if s.rdf (Reg.seqSwapStat n) 2 0 ≠ 1 ∨ s.marking n ∨ s.now < (s.chan n).lastMarkEnd + 50 * usT then .next s else
  let s := s.chanEvent n 5 0 0
  let img := s.progImage n
  let hash := (List.range 8).map (fun i => leAt (sha256 img) (4 * i) 4)
  let want := (List.range 8).map (fun i => s.rdn (Reg.seqProgHash n i))
  if s.jobs.spareServes.isSome || s.rdb (Reg.seqStat 16) 9 then .next (s.swapFail n)
  else if hash ≠ want then .next ((s.wrf (Reg.seqStat n) 2 0 6).swapFail n)
  else .next (((s.progStore 16 img).wr (Reg.seqProgVer 16) (s.rd (Reg.seqProgVer n))).wrf (Reg.seqSwapStat n) 2 0 3)

/-- SWAP_COMPLETE (R47, R120): the spare takes the channel's page and its sequencer the spare's. -/
def execSwapComplete (n : Fin 16) (pass : Bool) (s : State) : Out :=
  let n := n.val
  if s.rdf (Reg.seqSwapStat n) 2 0 ≠ 3 then .next s else
  if ! pass then .next (s.swapFail n) else
  let old := s.seq n
  let new := s.seq 16
  let t := s.now - old.failedAt.getD s.now
  let s := (s.setSeq n { new with wdtAt := s.now + s.wdtTicks n, events := old.events }).setSeq 16 { old with failedAt := none, events := [] }
  let s := forL [Reg.seqStat, Reg.seqPc, Reg.seqEccCnt, Reg.seqLateCnt, Reg.seqBadpost] (fun r s =>
    let a := s.rd (r n)
    let b := s.rd (r 16)
    (s.wr (r n) b).wr (r 16) a) s
  let s := ((s.wrf (Reg.seqStat n) 2 0 2).wrb (Reg.seqStat n) 8 true).wr (Reg.seqPc n) new.entry
  let s := (s.wrf (Reg.seqSwapStat n) 2 0 4).wrf (Reg.seqSwapStat n) 31 16 (satN 0xFFFF (t / usT))
  let s := { s with jobs := { s.jobs with spareServes := some n } }
  let s := (s.wrb (Reg.pgStat (chPage n 1)) 3 true).setStat .spareSeq 7
  .next (((s.wrb (Reg.chStat n) 5 false).chanEvent n 6 0 0).chanShow n)

/-! ### Station configuration (R17, R116, R124) -/

/-- Depth of nesting below a station, 1 over channels; none when it exceeds the fuel (a cycle, or too deep). -/
def State.stnDepth : Nat → Nat → State → Option Nat
  | 0, _, _ => none
  | fuel + 1, k, s =>
    (s.stnMembersOf k).foldl (fun a m => match a with
      | none => none
      | some d => if m.2 < 16 then some d else match State.stnDepth fuel (m.2 - 16) s with
        | some d' => some (Nat.max d (d' + 1))
        | none => none) (some 1)

/-- The rules a station's configuration keeps (R17, R116). -/
def State.stnValid (s : State) (k : Nat) : Bool :=
  let ms := s.stnMembersOf k
  let all := (List.range 8).flatMap (fun j => (s.stnMembersOf j).map (fun m => m.2))
  let once := all.eraseDups.length == all.length
  let depth := (List.range 8).all (fun j => (State.stnDepth 3 j s).isSome)
  let chans := s.stnChans 4 k
  let sameMode := chans.all (fun n => s.isLaser n == s.isLaser (chans.headD 0))
  let region := ! s.rdb (Reg.stnCfg k) 0
  let head := chans.headD 0
  let regionOk := ms.all (fun m => decide (m.2 < 16)) && chans.all (fun n => ! s.isLaser n) &&
    chans.all (fun n => s.rd (Reg.chLinePitch n) == s.rd (Reg.chLinePitch head) && s.dotPitch n == s.dotPitch head) &&
    ms.all (fun a => ms.all (fun b =>
      let fa := s.rdf (Reg.stnSlotMember k a.1) 31 16
      let fb := s.rdf (Reg.stnSlotMember k b.1) 31 16
      a.1 == b.1 || decide (fa + s.dotCount a.2 ≤ fb) || decide (fb + s.dotCount b.2 ≤ fa)))
  ms.all (fun m => decide (m.2 < 24)) && once && depth && (if region then regionOk else sameMode)

/-- Every member of a station, and the station itself, has an empty job table (R17). -/
def State.stnEmpty (s : State) (k : Nat) : Bool :=
  (s.stn k).jobs.isEmpty && (s.stnMembersOf k).all (fun m =>
    if m.2 < 16 then (s.chan m.2).jobs.isEmpty else (s.stn (m.2 - 16)).jobs.isEmpty)

/-- STN_MEMBERS and the members' mode shown (R124). -/
def State.stnShowMembers (s : State) (k : Nat) : State :=
  let ms := (s.stnMembersOf k).map (fun m => m.2)
  let mask := ms.foldl (fun a m => a ||| 2 ^ m) 0
  let s := s.wr (Reg.stnMembers k) (BitVec.ofNat 32 (mask % 2 ^ 24 + (State.stnDepth 3 k s).getD 0 * 2 ^ 24))
  s.wrb (Reg.chCfg (16 + k)) 0 (match s.stnChans 4 k with | n :: _ => s.isLaser n | [] => false)

/-- STATION_CONFIG_WRITE (R17, R116, R124): applied only while every member's table is empty, before the write and after it,
and only if the configuration it leaves keeps the rules; CH_CFG ignores writes. -/
def State.stnCfgWrite (s : State) (k off : Nat) (v : Word) : State :=
  if off = 0x40 then s else
  let s' := s.plainWrite (0x40380000 + 0x1000 * k + off) v
  if s.stnEmpty k && s'.stnEmpty k && (off < 0x800 || s'.stnValid k) then s'.stnShowMembers k
  else s.soot (.stn (Fin.ofNat 8 k)) 0

/-- STATION_CONFIG_WRITE (R17). -/
def execStationConfigWrite (b : Bus) (k : Fin 8) (off : BitVec 12) (v : Word) (s : State) : Out :=
  .next (busWrite b (.stn k) off.toNat v (rwl (.stn k) (fun s => s.stnCfgWrite k.val off.toNat v)) s)

end Sys2Proof.Machine
end

