-- ==== Sys2Proof/Machine/Boot.lean ====
section
/-! DEFINITION. Kindling: boot attempts and recovery (spec/14, R395 to R400; spec/11, R308). -/
namespace Sys2Proof.Machine

/-! ### Attempts (R397, R398) -/

/-- Check 5 (R397): the Fireguard configuration verifies and is in force, or is accepted now. -/
def State.fgdCheck (s : State) : Bool × State :=
  match s.fgImage with
  | none => (false, s)
  | some img =>
    if ! s.verifySafety img then (false, s)
    else if s.cfgOk then (true, s)
    else let (s, ok) := s.fgLoad img; (ok, s)

/-- A passing attempt (R398, R400): counted, core 0 started; the start-up is over, unless a wake completes it (R489). -/
def State.bootPass (s : State) (h : List Byte) (slot : Option Nat) (sram : Bool) : State :=
  let s := (s.handOverWith h slot sram).cnt Reg.secBootAttempts 15 0
  if sram || s.pwrPhase == 3 then s else s.setBootStep 8

/-- Checks 5 and 6 of a slot whose header passed: its main image, which a wake need not copy when it lies intact in DRAM
(R489), or its SRAM image while DRAM training fails (R308). -/
def State.bootImage (s : State) (slot : Nat) (h : List Byte) (sram : Bool) : State :=
  match s.fgdCheck with
  | (false, s) => s.attemptFailed slot 7
  | (true, s) =>
    if ! sram && s.pwrPhase == 3 && s.rdf Reg.pwrWakeCause 14 12 != 4 && s.imageInPlace then s.bootPass h (some slot) false else
    let img := if sram then s.flashRd (leAt h 0x20 4) (leAt h 0x24 4) else s.flashRd (leAt h 8 4) (leAt h 0xC 4)
    let a := if sram then 0x10000000 else leAt h 0x10 5
    let fits := sram || s.inDram a img.length
    if ! fits || sha256 img != (if sram then slice h 0x50 32 else slice h 0x30 32) then s.attemptFailed slot 6
    else (s.wrMem a img).bootPass h (some slot) sram

/-- BOOT_ATTEMPT (R395, R397, R398): Kindling tries the slot it is at.  Its header is checked from start-up step 3 on; a
header that passes waits for step 7, or boots its SRAM image while DRAM training fails.  After a failed Fireguard
configuration every switched domain is reset first, and the attempt comes when the start-up is back at it (R421).  While a
rail blocks the boot flash port no flash is read, and the attempt waits (R471). -/
def execBootAttempt (slot : Fin 2) (r : FlashRead) (s : State) : Out :=
  let b := s.sec.boot
  if ! s.domOn 2 || ! s.sec.enclaveOk || b.core0.isSome || b.waitTo.isSome || s.bootSlot != slot.val ||
      s.pwr.bootStep < 3 || s.railBlocks 20 then .next s else
  if b.resetFirst then .next ({ s with sec := { s.sec with boot := { b with resetFirst := false } } }).restart else
  match r with
  | .noSfdp => .next (s.attemptFailed slot.val 1)
  | .readError => .next (s.attemptFailed slot.val 8)
  | .ok =>
    let h := s.bootHeader slot.val
    match s.headerFault h with
    | some c => .next (s.attemptFailed slot.val c)
    | none =>
      if s.pwr.bootStep = 6 ∧ s.domOn 5 ∧ s.ddrSt = 6 ∧ hdrSram h then .next (s.bootImage slot.val h true)
      else if s.pwr.bootStep < 7 ∨ ! s.domOn 5 then .next s
      else .next (s.bootImage slot.val h false)

/-- BOOT_RETRY_WAIT_END (R398). -/
def execBootRetryWaitEnd (s : State) : Out :=
  if ! s.domOn 2 || s.sec.boot.waitTo.isNone || ! s.due s.sec.boot.waitTo then .next s else
  .next { s with sec := { s.sec with boot := { s.sec.boot with waitTo := none, recHeader := [] } } }

/-! ### Recovery (R399) -/

/-- Kindling listens: during a wait, with RECOVERY_EN and an interface enabled. -/
def State.recoveryOn (s : State) : Bool :=
  let c := (s.otpByte 0x180).toNat
  s.domOn 2 && s.sec.boot.waitTo.isSome && ! s.due s.sec.boot.waitTo && c.testBit 0 && (c.testBit 1 || c.testBit 2)

/-- A frame: 0x7E, LEN, TYPE, payload, CRC-16 over LEN, TYPE and payload. -/
def recoveryFrame (typ : Nat) (payload : List Byte) : List Byte :=
  let body := leBytes 2 payload.length ++ [BitVec.ofNat 8 typ] ++ payload
  0x7E :: body ++ leBytes 2 (crc16 body).toNat

/-- The payload of a good frame of a type. -/
def recoveryPayload (typ : Nat) (f : List Byte) : Option (List Byte) :=
  let n := leAt f 1 2
  let body := slice f 1 (3 + n)
  if byteAt f 0 = 0x7E ∧ f.length = n + 6 ∧ byteAt f 3 = BitVec.ofNat 8 typ ∧ (crc16 body).toNat = leAt f (4 + n) 2 then some (slice f 4 n)
  else none

/-- The answer to a host frame: result, then what HELLO adds. -/
def State.recoveryAnswer (s : State) (typ res : Nat) (more : List Byte) : State :=
  { s with sec := { s.sec with boot := { s.sec.boot with answer := recoveryFrame (0x80 + typ) (BitVec.ofNat 8 res :: more) } } }

/-- A recovery frame of a type: nothing while Kindling does not listen, 1 for a bad frame, else what `f` does. -/
def recovery (typ : Nat) (frame : List Byte) (f : List Byte → State → State) (s : State) : Out :=
  if ! s.recoveryOn then .next s else
  match recoveryPayload typ frame with
  | none => .next (s.recoveryAnswer typ 1 [])
  | some p => .next (f p s)

/-- RECOVERY_HELLO (R399). -/
def execRecoveryHello (frame : List Byte) (s : State) : Out :=
  recovery 1 frame (fun p s =>
    if ! p.isEmpty then s.recoveryAnswer 1 1 []
    else s.recoveryAnswer 1 0 (s.otpBytes 0 16 ++ [BitVec.ofNat 8 s.lifecycle] ++ leBytes 4 (s.rdn Reg.secBootStat))) s

/-- RECOVERY_HEADER (R399): checks 1 to 4, with SRAM_CAPABLE. -/
def execRecoveryHeader (frame : List Byte) (s : State) : Out :=
  recovery 2 frame (fun p s =>
    if p.length ≠ 256 then s.recoveryAnswer 2 1 []
    else if (s.headerFault p).isSome || ! hdrSram p then s.recoveryAnswer 2 2 []
    else ({ s with sec := { s.sec with boot := { s.sec.boot with recHeader := p } } }).recoveryAnswer 2 0 []) s

/-- RECOVERY_DATA (R399): bytes of the SRAM image. -/
def execRecoveryData (frame : List Byte) (s : State) : Out :=
  recovery 3 frame (fun p s =>
    let ofs := leAt p 0 4
    let n := p.length - 4
    if p.length < 5 ∨ 1024 < n then s.recoveryAnswer 3 1 []
    else if s.sec.boot.recHeader.isEmpty ∨ leAt s.sec.boot.recHeader 0x24 4 < ofs + n ∨ ! s.domOn 4 then s.recoveryAnswer 3 2 []
    else (s.wrMem (0x10000000 + ofs) (p.drop 4)).recoveryAnswer 3 0 []) s

/-- RECOVERY_RUN (R399, R400). -/
def execRecoveryRun (frame : List Byte) (s : State) : Out :=
  recovery 4 frame (fun p s =>
    let h := s.sec.boot.recHeader
    if ! p.isEmpty then s.recoveryAnswer 4 1 []
    else if h.isEmpty || ! s.domOn 4 || sha256 (s.rdMem 0x10000000 (leAt h 0x24 4)) != slice h 0x50 32 then s.recoveryAnswer 4 2 []
    else ((s.recoveryAnswer 4 0 []).handOverWith h none true)) s

end Sys2Proof.Machine
end

