-- ==== Sys2Proof/Machine/PageCtl.lean ====
section
/-! DEFINITION. The header of every page: access rights, enabling, soft reset, held writes of PG_CTRL, locks, soot and error
counts; the software interrupts and the refusal log of ROOT (spec/02, R36 to R56). -/
namespace Sys2Proof.Machine

/-! ### What enabling and disabling a unit does -/

/-- The conditions on enabling a page (R163, R195, R261, R272). -/
def State.pageEnableOk (s : State) (p : Page) : Bool :=
  match p with
  | .ch n k => k.val != 3 || (if s.isLaser n.val then s.laserEnableOk n.val else s.thermEnableOk n.val)
  | .stp k => s.stpEnableOk k.val
  | .bldc k => s.blEnableOk k.val
  | .mb u => s.mbEnableOk u.val
  | _ => true

/-- A refused enabling. -/
def State.enableRefused (s : State) (p : Page) : State :=
  match p with
  | .ch n _ => if s.isLaser n.val then s.laserConfig n.val else s.portConfig n.val
  | .mb _ => s.soot p 2
  | _ => s.soot p 3

/-- A unit runs: its page is enabled. -/
def State.unitOn (s : State) (p : Page) : State :=
  let plain (s : State) : State := (s.setStat p 2).wrb (Reg.pgStat p) 0 true
  match p with
  | .ch n k =>
    match k.val with
    | 0 => (plain s).chanShow n.val
    | 3 =>
      let s := (plain s).chanShow n.val
      if s.isLaser n.val then s.gateEval n.val else s.hpWritten n.val
    | 5 => s.linkEnable n.val true
    | 7 => (plain s).cnsShow n.val
    | _ => plain s
  | .stn k => (plain s).stnShow k.val
  | .ldp d => (plain s).ldpEnable d.val true
  | .stp k => (plain s).stpEnabled k.val
  | .bldc k => (plain s).blEnabled k.val
  | .mb u => (plain s).mbEnabled u.val true
  | .ddr => s.ddrTrain
  | _ => plain s

/-- A channel stops as RUN = 0 stops it (R105, R189). -/
def State.headerOff (s : State) (n : Nat) : State :=
  let s := s.inhibitJobs n
  let s := if s.isLaser n then s else s.tagWritebackStart n
  (s.chanShow n).enableCheck

/-- A unit stops: its page is disabled. -/
def State.unitOff (s : State) (p : Page) : State :=
  let s := (s.setStat p 0).wrb (Reg.pgStat p) 0 false
  match p with
  | .ch n k =>
    match k.val with
    | 0 => s.headerOff n.val
    | 3 =>
      let s := (s.engineIdle n.val).chanShow n.val
      if s.isLaser n.val then s.gateEval n.val else s
    | 5 => s.linkEnable n.val false
    | 7 => s.cnsShow n.val
    | _ => s
  | .stn k => s.stnInhibitAll k.val
  | .ldp d => s.ldpEnable d.val false
  | .stp k => s.stpDisabled k.val
  | .bldc k => s.blDisabled k.val
  | .mb u => s.mbEnabled u.val false
  | .ddr => s.ddrDisable
  | _ => s

/-! ### Soft reset (R37, R40) -/

/-- The statistics of a page: offset, step, number, and the bits that count. -/
def pageCounters (laser : Bool) (p : Page) : List (Nat × Nat × Nat × Nat) :=
  let all := 0xFFFFFFFF
  let job (o : Nat) : List (Nat × Nat × Nat × Nat) := [(o + 0x44, 0, 1, 0x1FF), (o + 0x64, 4, 5, all)]
  match p with
  | .ch _ k =>
    match k.val with
    | 0 => [(0x78, 4, 3, all)]
    | 1 => [(0x80, 4, 3, all)]
    | 2 => job 0
    | 3 => if laser then [(0xE4, 4, 3, all), (0xF8, 4, 2, all), (0x140, 0, 1, all)] else [(0xD0, 4, 4, all), (0xE4, 0, 1, all)]
    | 4 => if laser then [(0x48, 0, 1, all)] else [(0x48, 0, 1, 0xFFFFFF00)]
    | 5 => [(0x50, 4, 3, all)]
    | 7 => [(0x6C, 4, 2, all)]
    | _ => []
  | .spareSeq => [(0x80, 4, 3, all)]
  | .stn _ => (0x78, 4, 3, all) :: job 0x400
  | .root => [(0x58, 0, 1, 0xFFFF)]
  | .lin => [(0x44, 0, 1, 0x1FFF), (0x5C, 4, 2, all), (0x130, 0x40, 8, all), (0x414, 0x20, 16, all), (0x418, 0x20, 16, all), (0x61C, 0x20, 16, all)]
  | .dmk => [(0x44, 0, 1, 0x7F), (0x7C, 4, 2, all), (0x8C, 0, 1, all)]
  | .ldp _ => [(0x48, 4, 2, all), (0x134, 0x100, 12, all), (0x138, 0x100, 12, all), (0x13C, 0x100, 12, all)]
  | .mb _ => [(0x64, 4, 2, all), (0x70, 0, 1, all)]
  | .ddr => [(0x6C, 4, 3, all), (0x7C, 0, 1, 0xFFFF0000), (0xA8, 0, 1, all), (0xBC, 0, 1, all)]
  | .srm => [(0x44, 4, 2, all), (0x74, 0, 1, all)]
  | .dma => [(0x48, 0, 1, all), (0x10C, 0x20, 32, all)]
  | .qmg => [(0x6C, 0, 1, all)]
  | .blt => [(0x48, 4, 4, all)]
  | .net => [(0x58, 4, 3, all), (0x108, 0x40, 2, all), (0x10C, 0x40, 2, all), (0x110, 0x40, 2, all), (0x114, 0x40, 2, all)]
  | .sec => [(0x78, 0, 1, all), (0xA8, 0, 1, all)]
  | .fgd => [(0x74, 0, 1, 0xFFFF0000), (0x78, 0, 1, all)]
  | .flt => [(0xD8, 0, 1, all)]
  | .clk => [(0x10C, 0x80, 4, all)]
  | .thm => [(0x58, 0, 1, 0xFFFF0000), (0x90, 0, 1, all)]
  | .bkg => [(0x48, 0, 1, all)]
  | .cv _ => [(0x48, 0, 1, all)]
  | _ => []

/-- Key of a register of a page: a laser port's and binding's stand apart. -/
def State.regKey (s : State) (p : Page) (off : Nat) : Nat :=
  let a := pageBase p + off
  match p with
  | .ch n k => if s.isLaser n.val && (k.val == 3 || k.val == 4) && decide (0x40 ≤ off) then laserKey + a else a
  | _ => a

/-- Every statistic of a page, and its error count, at 0. -/
def State.clearCounters (s : State) (p : Page) : State :=
  let laser := match p with | .ch n _ => s.isLaser n.val | _ => false
  let s := forL (pageCounters laser p) (fun e s =>
    forN e.2.2.1 (fun i s =>
      let a := s.regKey p (e.1 + e.2.1 * i)
      s.wr a (s.rd a &&& ~~~(BitVec.ofNat 32 e.2.2.2))) s) s
  s.wrf (Reg.pgErrcnt p) 15 0 0

/-- A sequencer's machine as at its start, its program and data kept (R115); a running one starts again at ENTRY. -/
def State.seqReset (s : State) (n : Nat) : State :=
  let q := s.seq n
  let s := s.setSeq n { SeqState.reset with
    code := q.code, data := q.data, entry := q.entry, loaded := q.loaded, loading := q.loading, testing := q.testing,
    failedAt := q.failedAt, wdtAt := s.now + s.wdtTicks n }
  if s.rdb (Reg.seqStat n) 8 then s.wr (Reg.seqPc n) q.entry else s

/-- The state machines and queues of a unit (R37); what its stores and tables hold, and what other units hold of it, stays
(log entry 46). -/
def State.unitReset (s : State) (p : Page) : State :=
  match p with
  | .ch n k =>
    let n := n.val
    match k.val with
    | 0 | 2 => s.headerOff n
    | 1 => s.seqReset n
    | 3 =>
      let s := s.engineIdle n
      if s.isLaser n then (s.updLas n (fun l => { l with freqNext := none, settledFrames := 0, overtempFrames := 0 })).gateEval n
      else
        let s := s.updTherm n (fun (t : ThermState) => { ThermState.reset with active := t.active })
        ((s.wrf (Reg.hpAuditStat n) 11 0 0).thermSafeEnd n).hpWritten n
    | 4 => if s.isLaser n then s else s.wrb (Reg.embStat n) 0 false
    | 5 => s.linkEnable n (s.enabled p)
    | 6 => (s.headerOff n).setRing n RingState.reset
    | _ => (s.updTag n (fun t => { t with nonce := none, writing := none, wbWanted := false, retryAt := none })).cnsShow n
  | .spareSeq => s.seqReset 16
  | .stn k => s.stnInhibitAll k.val
  | .lin =>
    let s := forN 16 (fun i s => s.updPd i (fun x => { x with edge := none })) s
    forN 8 (fun k s => s.updVenc k (fun x => { x with stamps := [] })) s
  | .dmk =>
    let reqs := s.dmk.reqs.map (fun r => match r.phase with | .engine _ => { r with phase := RenderPhase.pending } | _ => r)
    { s with dmk := { s.dmk with
      loading := none, boltsDone := 0, boltFault := false, engines := [], reqs := reqs,
      holds := s.dmk.holds.filter (fun h => h.ticket.isNone) } }.dmkShow
  | .ldp d =>
    let s := forN 8 (fun j s => s.loopToOpen (8 * d.val + j) 4) s
    forN 4 (fun j s => s.loopToOpen (32 + 4 * d.val + j) 4) s
  | .stp k => if s.enabled p then (s.stpDisabled k.val).stpEnabled k.val else s
  | .bldc k => if s.enabled p then (s.blDisabled k.val).blEnabled k.val else s
  | .mb u => (s.setMbus u.val BusState.reset).mbEnabled u.val (s.enabled p)
  | .ddr =>
    let s := { s with ddr := { s.ddr with
      writebacks := [], copying := none, copyWanted := [], ppr := none, slices := 0, scrubAt := none, panic := 0 } }
    if s.enabled p then s.ddrTrain else s
  | .srm => { s with srm := { s.srm with scrubPos := 0 } }
  | .dma => forN 32 (fun k s => (s.updDch k (fun (c : DmaChan) => { DmaChan.reset with role := c.role, entryRole := c.role })).dmaIdle k) s
  | .qmg => (forN 128 (fun q s => s.updQueue q (fun x => { x with
      head := 0, tail := 0, drop := 0, movePending := false, roles := [] })) s).qmgStat
  | .net => { s.wrb Reg.netMdioCtrl 31 false with net := { s.net with egress := [], mdioBusy := false } }
  | .sec => { s with sec := { s.sec with nonces := [] } }
  | .thm => { s with thm := { s.thm with above := [], below := [], ext := [], noGood := 0 } }
  | .bkg => forN 16 (fun n s => s.galvoStop n) s
  | .cv c => s.updConv c.val (fun x => { x with scan := 0 })
  | _ => s

/-- SOFT_RESET takes effect (R40): PG_ACL, PG_LOCK, PG_SOOT_MASK, PG_SOOT and every field a write sets stay. -/
def State.softReset (s : State) (p : Page) : State := (s.clearCounters p).unitReset p

/-! ### Writes of PG_CTRL (R37, R40) -/

/-- A write of PG_CTRL waits for the end of a mark (R40, R260). -/
def State.ctrlHeld (s : State) (p : Page) : Bool :=
  match p with
  | .ch n _ => s.marking n.val
  | .stp k => s.stpMarking k.val
  | _ => false

/-- A number in a list once. -/
def addOnce (l : List Nat) (k : Nat) : List Nat := if l.contains k then l else l ++ [k]

/-- SOFT_RESET, or ENABLE = 0, held (R40, R105, R260): on a stepper port codes 8 and 7 in its list of held commands. -/
def State.holdCtrl (s : State) (p : Page) (reset : Bool) : State :=
  match p with
  | .ch n k =>
    if reset then
      ((s.updChan n.val (fun c => { c with heldReset := addOnce c.heldReset k.val })).setStat p 4).chanShow n.val
    else
      let s := (s.updChan n.val (fun c => { c with heldDisable := addOnce c.heldDisable k.val })).setStat p 4
      if k.val = 0 then s.headerOff n.val else s.chanShow n.val
  | .stp k => s.updStep_ k.val (fun t => { t with held := addOnce t.held (if reset then 8 else 7) })
  | _ => s

/-- A held ENABLE = 0 gives way to a later write of ENABLE = 1. -/
def State.unholdDisable (s : State) (p : Page) : State :=
  match p with
  | .ch n k =>
    if (s.chan n.val).heldDisable.contains k.val then
      ((s.updChan n.val (fun c => { c with heldDisable := c.heldDisable.filter (fun x => x != k.val) })).setStat p 2).chanShow n.val
    else s
  | .stp k => s.updStep_ k.val (fun t => { t with held := t.held.filter (fun x => x != 7) })
  | _ => s

/-- ENABLE = 0 takes effect. -/
def State.disableNow (s : State) (p : Page) : State := (s.wrb (Reg.pgCtrl p) 0 false).unitOff p

/-- ENABLE written. -/
def State.enableWrite (s : State) (p : Page) (on : Bool) : State :=
  if on then
    if s.enabled p then s.unholdDisable p
    else if s.pageEnableOk p then (s.wrb (Reg.pgCtrl p) 0 true).unitOn p
    else s.enableRefused p
  else if ! s.enabled p then s
  else if s.ctrlHeld p then s.holdCtrl p false
  else s.disableNow p

/-- A write of PG_CTRL: SOFT_RESET first, then ENABLE (DEDUCED, log entry 46). -/
def State.pgCtrlWrite (s : State) (p : Page) (v : Word) : State :=
  let s := (s.wrb (Reg.pgCtrl p) 2 (bit v 2)).wrb (Reg.pgCtrl p) 3 (bit v 3)
  let s := if ! bit v 1 then s else if s.ctrlHeld p then s.holdCtrl p true else s.softReset p
  s.enableWrite p (bit v 0)

/-- SOFT_RESET (R40): a write of PG_CTRL with bit 1 set. -/
def execSoftReset (b : Bus) (p : Page) (v : Word) (s : State) : Out :=
  .next (busWrite b p 0x10 v (fun s => s.pgCtrlWrite p (setBit v 1 true)) s)

/-- UNIT_ENABLE (R40): a write of PG_CTRL. -/
def execUnitEnable (b : Bus) (p : Page) (v : Word) (s : State) : Out :=
  .next (busWrite b p 0x10 v (fun s => s.pgCtrlWrite p v) s)

/-- HELD_CONTROL_APPLY (R40): no job of the channel is MARKING; its held soft resets, then its held disablings. -/
def execHeldControlApply (n : Fin 16) (s : State) : Out :=
  if s.marking n.val then .next s else
  let c := s.chan n.val
  let s := s.updChan n.val (fun c => { c with heldDisable := [], heldReset := [] })
  let s := forL c.heldReset (fun k s => s.softReset (chPage n.val k)) s
  .next ((forL c.heldDisable (fun k s => s.disableNow (chPage n.val k)) s).chanShow n.val)

/-- HELD_STEPPER_COMMAND_APPLY (R260): the bound channel's mark is over; the held commands in the order of their writes. -/
def execHeldStepperCommandApply (p : Fin 16) (s : State) : Out :=
  if ! s.stpOn p.val || s.stpMarking p.val then .next s else
  let held := (s.step_ p.val).held
  let s := s.updStep_ p.val (fun t => { t with held := [] })
  .next (forL held (fun c s =>
    if ! s.stpOn p.val then s
    else if c = 7 then s.disableNow (.stp p)
    else if c = 8 then s.softReset (.stp p)
    else s.stpDo p.val c) s)

/-! ### Rights, locks, soot and counts -/

/-- A write of PG_ACL (R37, R50, R54): the masks, bit 0 of READ_MASK reading 1; a locked page keeps them. -/
def State.aclWrite (s : State) (p : Page) (v : Word) : State :=
  rwl p (fun s => s.wrf (Reg.pgAcl p) 15 0 (fld v 15 0 ||| 0x100)) s

/-- ACL_WRITE (R50). -/
def execAclWrite (b : Bus) (p : Page) (v : Word) (s : State) : Out := .next (busWrite b p 0x0C v (fun s => s.aclWrite p v) s)

/-- A write of PG_SOOT_MASK (R54, R56): the bits of a source classed CRITICAL read 1. -/
def State.sootMaskWrite (s : State) (p : Page) (v : Word) : State :=
  let laser := match p with | .ch n _ => s.isLaser n.val | _ => false
  let kept := (sootMap laser p).foldl (fun (m : Word) e => if s.cfgOk && (s.srcCfg e.2.1).cls == clsCritical then m ||| BitVec.ofNat 32 (2 ^ e.1) else m) 0
  rwl p (fun s => (s.wr (Reg.pgSootMask p) (v ||| kept)).pinsOf p) s

/-- ERRCNT_CLEAR (R37): a write of PG_ERRCNT with CLEAR set. -/
def execErrcntClear (b : Bus) (p : Page) (s : State) : Out :=
  .next (busWrite b p 0x28 0x80000000 (fun s => s.wrf (Reg.pgErrcnt p) 15 0 0) s)

/-- A write of PG_LOCK (R37, R54): LOCK sets, WRITE_AFTER_LOCK clears where a 1 is written. -/
def State.lockWrite (s : State) (p : Page) (v : Word) : State :=
  let s := if bit v 8 then s.wrb (Reg.pgLock p) 8 false else s
  if bit v 0 then s.wrb (Reg.pgLock p) 0 true else s

/-- PAGE_LOCK (R54). -/
def execPageLock (b : Bus) (p : Page) (v : Word) (s : State) : Out := .next (busWrite b p 0x30 v (fun s => s.lockWrite p v) s)

/-- A W1C write of PG_SOOT (R56): the bits clear and the pins follow; a bit whose condition persists sets again. -/
def State.sootWrite (s : State) (p : Page) (v persist : Word) : State :=
  let was := s.rd (Reg.pgSoot p)
  let s := (s.wr (Reg.pgSoot p) (was &&& ~~~v)).pinsOf p
  forL (numsWhere 32 (fun k => bit was k && bit v k && bit persist k)) (fun k s => s.soot p k) s

/-- SOOT_CLEAR (R56): `persist` has the bits whose conditions persist. -/
def execSootClear (b : Bus) (p : Page) (v persist : Word) (s : State) : Out :=
  .next (busWrite b p 0x18 v (fun s => s.sootWrite p v persist) s)

/-! ### ROOT (R41) -/

/-- SWI_SET: software interrupt levels. -/
def execSwiSet (b : Bus) (v : Word) (s : State) : Out :=
  .next (busWrite b .root 0x60 v (fun s => s.wrf Reg.rootSwiStat 15 0 (s.rdf Reg.rootSwiStat 15 0 ||| fld v 15 0)) s)

/-- SWI_CLR. -/
def execSwiClr (b : Bus) (v : Word) (s : State) : Out :=
  .next (busWrite b .root 0x64 v (fun s => s.wr Reg.rootSwiStat (s.rd Reg.rootSwiStat &&& ~~~(BitVec.ofNat 32 (fld v 15 0)))) s)

/-- VALID written 1: VALID, the count and the log clear. -/
def State.acvClear (s : State) : State :=
  forL [Reg.rootAcvCount, Reg.rootAcvAddrLo, Reg.rootAcvInfo, Reg.rootAcvStampLo, Reg.rootAcvStampHi] (fun a s => s.wr a 0) s

/-- ACV_LOG_CLEAR: a write of ROOT_ACV_COUNT with VALID set. -/
def execAcvLogClear (b : Bus) (s : State) : Out := .next (busWrite b .root 0x58 0x80000000 (fun s => s.acvClear) s)

end Sys2Proof.Machine
end

