-- ==== Sys2Proof/Machine/RegWrite.lean ====
section
/-! DEFINITION. A bus write of any address: memory, the interrupt controller, the page headers and the block registers
of every page (spec/02, R35 to R56, and the register maps); a sequencer's timing ports (R108). -/
namespace Sys2Proof.Machine

/-- The state a meaning that never stops answers. -/
def outState (o : Out) (s : State) : State :=
  match o with
  | .next t => t
  | _ => s

/-! ### Memory and the interrupt controller -/

/-- A bus write of memory (R296, R325, R382): an error response where the memory is not there, the refusal of R51 where
no region lets the role in, else the bytes in little-endian order (R4).  DESIGN CHOICE (log entry 47): the table gives
memory accesses of the cores no row, and this is where they stand. -/
def memBusWrite (b : Bus) (a size : Nat) (v : Word) (s : State) : State :=
  if dramBase ≤ a ∧ ! s.inDram a size then (s.cnt Reg.ddrUeCnt 31 16).respond true 0
  else match s.memFault b.role true a size with
    | some o => if s.addrOk b.role true (a + o) then s.respond true 0 else s.refuse b (a + o) true
    | none => (s.wrMem a (leBytes size v.toNat)).respond false 0

/-- The level of input `i` of the interrupt controller (R41, R45, R48). -/
def State.plicLevel (s : State) (i : Nat) : Bool :=
  if 240 ≤ i then s.rdb Reg.rootSwiStat (i - 240)
  else i != 0 && allPages.any (fun p => pageIdx p == i && s.irqLine p)

/-- Registers of the controller, by offset; the interrupts being served stand past its region (PRESUMED, log entry 6). -/
def plicServed (w : Nat) : Nat := 0x4000000 + 4 * w
def State.plicRd (s : State) (o : Nat) : Word := tabGet 0 s.plic o
def State.plicWr (s : State) (o : Nat) (v : Word) : State := { s with plic := tabPut 0 s.plic o v }
def State.plicPending (s : State) (i : Nat) : Bool := s.plicLevel i && ! bit (s.plicRd (plicServed (i / 32))) (i % 32)

/-- Whether input `i` is enabled to target `c` (machine and supervisor context of each application core). -/
def State.plicEnabled (s : State) (c i : Nat) : Bool := bit (s.plicRd (0x2000 + 0x80 * c + 4 * (i / 32))) (i % 32)

/-- The input a claim of target `c` takes: the highest priority pending and enabled, the lowest number of equals. -/
def State.plicBest (s : State) (c : Nat) : Nat :=
  (List.range 256).foldl (fun m i =>
    if s.plicPending i && s.plicEnabled c i && decide ((s.plicRd (4 * m)).toNat < (s.plicRd (4 * i)).toNat) then i else m) 0

/-- A write of the controller's region: priorities of 0 to 7, enables, thresholds, completions. -/
def State.plicWrite (s : State) (o : Nat) (v : Word) : State :=
  if o < 0x400 then if o = 0 then s else s.plicWr o (v &&& 7)
  else if 0x2000 ≤ o ∧ o < 0x2200 ∧ o % 0x80 < 0x20 then s.plicWr o (if o % 0x80 = 0 then setBit v 0 false else v)
  else if 0x200000 ≤ o ∧ o < 0x204000 then
    let c := (o - 0x200000) / 0x1000
    if o % 0x1000 = 0 then s.plicWr o (v &&& 7)
    else if o % 0x1000 = 4 ∧ v.toNat < 256 ∧ s.plicEnabled c v.toNat then
      s.plicWr (plicServed (v.toNat / 32)) (setBit (s.plicRd (plicServed (v.toNat / 32))) (v.toNat % 32) false)
    else s
  else s

/-! ### Block registers without a row of their own -/

/-- The loop at slot `i` of datapath `d`. -/
def loopAt (d i : Nat) : Nat := if i < 8 then 8 * d + i else 32 + 4 * d + (i - 8)

/-- The soot of a write a block refuses for its state or its value (R537 and the register maps' rules). -/
def State.writeRefused (s : State) (p : Page) (off : Nat) : State :=
  match p with
  | .ch n k =>
    match k.val with
    | 3 => if s.isLaser n.val then s.laserConfig n.val else s.portConfig n.val
    | 4 => s.soot p 1
    | 5 => s.soot p 4
    | 0 => if off = 0x68 then s.portConfig n.val else s
    | _ => s
  | .lin => s.soot .lin 12
  | .dmk => s.soot .dmk 4
  | .ldp d => if 0x100 ≤ off ∧ off < 0xD00 then s.loopRefuse (loopAt d.val ((off - 0x100) / 0x100)) else s.soot p 3
  | .stp _ | .bldc _ => s.soot p 3
  | .mb _ => s.soot p 2
  | .ddr | .clk | .thm => s.soot p 6
  | .tim | .net | .bkg => s.soot p 3
  | .sec => s.soot p 7
  | .pwr => s.pwrSoot 5
  | _ => s

/-- The conditions on a block write (R537). -/
def State.writeOk (s : State) (p : Page) (off : Nat) (v : Word) : Bool :=
  match p with
  | .ch n k =>
    match k.val with
    | 0 => if off = 0x40 then ! s.enabled p else if off = 0x68 then s.minLineTOk n.val v else true
    | 3 => if s.isLaser n.val then s.lpWriteOk n.val off v else s.hpWriteOk n.val off v
    | 4 => ! (s.isLaser n.val && off == 0x40) || s.bindWriteOk n.val v
    | 5 => s.lkWriteOk n.val off v
    | _ => true
  | .lin => linWriteOk off v
  | .dmk => dmkWriteOk off v
  | .ldp d =>
    if off = 0x40 then s.ldpCfgOk d.val v
    else if 0x100 ≤ off ∧ off < 0xD00 then s.loopWriteOk (loopAt d.val ((off - 0x100) / 0x100)) (off % 0x100) v
    else true
  | .stp _ | .bldc _ | .mb _ => s.drvWriteOk p off
  | .ddr => s.ddrWriteOk off v
  | .tim => timWriteOk off v
  | .net => s.netWriteOk off v
  | .sec => s.secWriteOk off
  | .clk => s.clkWriteOk off v
  | .thm => s.thmWriteOk off v
  | .pwr => State.pwrWriteOk off v
  | .bkg => s.bkgWriteOk off v
  | _ => true

/-- CH_CFG written: the mode shows at the channel's own pages and at its stations. -/
def State.modeWritten (s : State) (n : Nat) : State :=
  let s := forL [2, 3, 4, 6] (fun m s => s.pinUpdate (96 + 8 * n + m)) s
  ((forN 8 (fun k s => if (s.stnChans 4 k).contains n then s.stnShowMembers k else s) s).cnsShow n).laserPaths n

/-- What follows a block write at once. -/
def State.written (s : State) (p : Page) (off : Nat) : State :=
  match p with
  | .ch n k =>
    match k.val with
    | 0 => if off = 0x40 then s.modeWritten n.val else s
    | 3 => if s.isLaser n.val then s.lpWritten n.val off else s.hpWritten n.val
    | 7 => s.cnsShow n.val
    | _ => s
  | .bldc k => if 0x68 ≤ off then s.bldcCurve k.val else s
  | .thm => s.thmWritten off
  | .pwr => if 0x100 ≤ off then s.slotsWritten else s
  | .ddr => if off = 0x40 then s.ddrClock else s
  | .net => if off = 0x100 then s.netClock 0 else if off = 0x140 then s.netClock 1 else s
  | .flt =>
    if 0x5C ≤ off ∧ off < 0x68 then
      let k := s.rdf Reg.fltSel 7 0
      s.updSrc k (fun x => { x with cfg := some ⟨s.rd (Reg.fltSrcCfg 0), s.rd (Reg.fltSrcCfg 1), s.rd (Reg.fltSrcCfg 2)⟩ })
    else s
  | _ => s

/-- Whether a taken block write waits (R493). -/
def State.writeHeld (s : State) (p : Page) (off : Nat) : Bool := p == .pwr && s.pwrWriteHeld off

/-- The write of a block register by its map's row, under its page's lock and conditions; an offset the map does not list
keeps nothing (R7). -/
def State.blockPlain (s : State) (p : Page) (off : Nat) (v : Word) : State :=
  let a := s.regKey p off
  let eff (s : State) : State :=
    if ! s.writeOk p off v then s.writeRefused p off
    else if s.writeHeld p off then { s with pwr := { s.pwr with heldCfg := s.pwr.heldCfg ++ [(a, v)] } }
    else (s.plainWrite a v).written p off
  if (rowOf a).isNone then s else if isRwl a then rwl p eff s else eff s

/-! ### Block registers with a meaning of their own -/

/-- A job-queue register of a unit: each has a row. -/
def unitJobWrite (b : Bus) (u : MarkUnit) (o : Nat) (v : Word) (s : State) : Option Out :=
  match o with
  | 0x44 => some (execChjPeakClear b u v s)
  | 0x4C => some (execManualAdmit b u v s)
  | 0x54 => some (execJobCancel b u v s)
  | 0x5C => some (execJobEntryCapture b u v s)
  | _ => none

/-- CH_CTRL of a unit. -/
def unitCtrlWrite (b : Bus) (u : MarkUnit) (v : Word) (s : State) : Out :=
  .next (busWrite b (unitPage u) 0x44 v (fun s => if bit v 0 then s.unitStart u else s.unitStop u) s)

/-- A write of SEC_REQk_CMD, by its opcode (R379, R404); a code of no request gets BAD_ARGS. -/
def secCmdWrite (b : Bus) (k : Fin 4) (v : Word) (s : State) : Out :=
  let c := ReqCaller.bus b
  match fld v 7 0 with
  | 0x01 => execGetChallenge c k s
  | 0x02 => execSetRole c k s
  | 0x03 => execDropRole c k s
  | 0x10 => execCredSet c k s
  | 0x11 => execCredClear c k s
  | 0x20 => execTakeOwnership c k s
  | 0x21 => execTransferOwnership c k s
  | 0x22 => execOwnerReset c k s
  | 0x30 => execTplKeySet c k s
  | 0x31 => execRecKeyGen c k s
  | 0x32 => execProgKeySet c k s
  | 0x40 => execProvision c k s
  | 0x41 => execSecure c k s
  | 0x42 => execRevokeBootKey c k s
  | 0x43 => execRollbackCommit c k s
  | 0x44 => execSetBootSlot c k s
  | 0x50 => execDebugUnlock c k s
  | 0x51 => execRmaUnlock c k s
  | 0x60 => execRandom c k s
  | op => request c k.val op false (fun _ _ s => (.done 6 [], s)) s

/-- The channel pages' registers with a meaning of their own. -/
def chanRow (b : Bus) (n : Fin 16) (k : Fin 8) (off : Nat) (v : Word) (s : State) : Option Out :=
  let p := Page.ch n k
  let row (eff : State → State) : Option Out := some (.next (busWrite b p off v eff s))
  match k.val with
  | 0 => if off = 0x44 then some (unitCtrlWrite b (.ch n) v s) else none
  | 1 => if off = 0x40 then some (seqCtrlBus b n.val v s) else none
  | 2 => unitJobWrite b (.ch n) off v s
  | 3 =>
    if s.isLaser n.val then
      match off with
      | 0x98 => some (execGridDataWrite b n v s)
      | 0x9C => row (fun s => s.lpCmdWrite n.val v)
      | 0xF8 => some (execDurMaxClear b n v s)
      | _ => none
    else if off = 0x100 then
      row (fun s => if s.hpWriteOk n.val off v then s.auditCfgWrite n.val v else s.portConfig n.val)
    else none
  | 4 =>
    if s.isLaser n.val then if off = 0x48 then some (execBindFePeakClear b n v s) else none
    else if off = 0x44 then row (fun s => s.embCmdWrite n.val v) else none
  | 5 => if off = 0x44 then row (fun s => s.lkCmdWrite n.val v) else none
  | 7 => if off = 0x4C then row (fun s => s.cnsCmdWrite n.val v) else none
  | _ => none

/-- The line interface's. -/
def linRow (b : Bus) (off : Nat) (v : Word) (s : State) : Option Out :=
  match off with
  | 0x44 => some (execTrkPeakClear b v s)
  | 0x48 => some (execPidNextWrite b v s)
  | 0x4C => some (execPolicyWrite b v s)
  | 0x50 => some (execLsrCtrlWrite b v s)
  | 0x54 => some (execForcePid b v s)
  | 0x64 => some (execTrkSelCapture b v s)
  | 0x88 => some (execMapWrite b .enc v s)
  | 0x8C => some (execMapWrite b .pd0 v s)
  | 0x90 => some (execMapWrite b .pd1 v s)
  | 0x94 => some (execMapWrite b .rej0 v s)
  | 0x98 => some (execMapWrite b .rej1 v s)
  | _ =>
    if 0x100 ≤ off ∧ off < 0x300 ∧ off % 0x40 = 0 then
      some (execLinCfgDisable b (.enc (Fin.ofNat 8 ((off - 0x100) / 0x40))) v s)
    else if 0x300 ≤ off ∧ off < 0x400 ∧ off % 0x20 = 0 then
      some (execLinCfgDisable b (.venc (Fin.ofNat 8 ((off - 0x300) / 0x20))) v s)
    else if 0x300 ≤ off ∧ off < 0x400 ∧ off % 0x20 = 4 then
      some (.next (busWrite b .lin off v (fun s => s.vencRateWrite ((off - 0x300) / 0x20) v) s))
    else if 0x400 ≤ off ∧ off < 0x600 ∧ off % 0x20 = 0 then
      some (execLinCfgDisable b (.pd (Fin.ofNat 16 ((off - 0x400) / 0x20))) v s)
    else if 0x600 ≤ off ∧ off < 0x800 ∧ off % 0x20 = 0 then
      some (execLinCfgDisable b (.rej (Fin.ofNat 16 ((off - 0x600) / 0x20))) v s)
    else if 0x600 ≤ off ∧ off < 0x800 ∧ off % 0x20 = 0x18 then
      some (.next (busWrite b .lin off v (fun s => s.cmpPosWrite ((off - 0x600) / 0x20) v) s))
    else none

/-- Damask's. -/
def dmkRow (b : Bus) (off : Nat) (v : Word) (s : State) : Option Out :=
  match off with
  | 0x44 => some (execDmkPeakClear b v s)
  | 0x64 => some (.next (busWrite b .dmk 0x64 v (fun s => s.tplCmd v) s))
  | 0x6C => some (execTplInfoCapture b v s)
  | 0x8C => some (execRenderMaxClear b v s)
  | 0x140 => some (.next (busWrite b .dmk 0x140 v (fun s => s.lotSelect v) s))
  | 0x148 => some (execLotCommit b v s)
  | 0x178 => some (execOperatorEntryCommit b v s)
  | 0x1C0 => some (execSerialCapture b v s)
  | 0x1E4 => some (.next (busWrite b .dmk 0x1E4 v (fun s => s.serCmd v) s))
  | _ => if 0xC0 ≤ off ∧ off < 0x120 ∧ off % 4 = 0 then some (execTemplateSelect b (Fin.ofNat 24 ((off - 0xC0) / 4)) v s) else none

/-- A loop datapath's. -/
def ldpRow (b : Bus) (d : Fin 4) (off : Nat) (v : Word) (s : State) : Option Out :=
  if off < 0x100 ∨ 0xD00 ≤ off then none else
  let m := loopAt d.val ((off - 0x100) / 0x100)
  let o := off % 0x100
  let row (eff : State → State) : Option Out := some (.next (busWrite b (.ldp d) off v eff s))
  match o with
  | 0x00 => row (fun s => s.loopCfgWrite m v)
  | 0x04 => row (fun s => s.loopCmdWrite m v)
  | 0x34 => some (execLoopFePeakClear b (Fin.ofNat 48 m) v s)
  | _ => if 0x40 ≤ o ∧ o < 0x88 ∧ o % 4 = 0 then row (fun s => s.coefWr m ((o - 0x40) / 4) v) else none

/-- The drives'. -/
def stpRow (b : Bus) (p : Fin 16) (off : Nat) (v : Word) (s : State) : Option Out :=
  match off with
  | 0x84 => some (execStepperTargetWrite b p v s)
  | 0x8C => some (execProfileParamWrite b p .accel v s)
  | 0x90 => some (execProfileParamWrite b p .decel v s)
  | 0x98 => some (execProfileParamWrite b p .jerk v s)
  | 0x9C => some (.next (busWrite b (.stp p) 0x9C v (fun s => s.stpCmdWrite p.val v) s))
  | 0xD4 => some (execDcDutyWrite b p v s)
  | _ => none
def bldcRow (b : Bus) (k : Fin 4) (off : Nat) (v : Word) (s : State) : Option Out :=
  if off = 0x60 then some (.next (busWrite b (.bldc k) 0x60 v (fun s => s.blCmdWrite k.val v) s)) else none
def mbRow (b : Bus) (u : Fin 2) (off : Nat) (v : Word) (s : State) : Option Out :=
  match off with
  | 0x5C => some (.next (busWrite b (.mb u) 0x5C v (fun s => s.mbCmdWrite u.val v) s))
  | 0x64 => some (execMbVpeakClear b u v s)
  | _ => none

/-- The memories', the DMA engine's, the queue manager's. -/
def memRow (b : Bus) (p : Page) (off : Nat) (v : Word) (s : State) : Option Out :=
  match p with
  | .ddr =>
    match off with
    | 0x70 => some (execDdrCeCntClear b v s)
    | 0x78 => some (execElogCapture b v s)
    | 0x90 => some (.next (busWrite b .ddr 0x90 v (fun s => s.ddrCmdWrite v) s))
    | 0xC8 => some (execRemapEntryCapture b v s)
    | _ => none
  | .srm =>
    match off with
    | 0x44 => some (execSrmCeCntClear b v s)
    | 0x50 => some (execSrmRepairCapture b v s)
    | 0x5C => some (execSrmRepairLoad b v s)
    | _ => none
  | .dma =>
    if 0x100 ≤ off ∧ off < 0x500 ∧ off % 0x20 = 0 then
      some (.next (busWrite b .dma off v (fun s => s.dmaCtrlWrite ((off - 0x100) / 0x20) b.role (bit v 0)) s))
    else none
  | .qmg =>
    match off with
    | 0x44 => some (execQueueSelectCapture b v s)
    | 0x48 => some (execQueueConfigWrite b v s)
    | 0x4C => some (.next (busWrite b .qmg 0x4C v (fun s => s.qBaseWrite v) s))
    | 0x50 => some (.next (busWrite b .qmg 0x50 v (fun s => s.qWmWrite v) s))
    | _ =>
      if 0x400 ≤ off ∧ off < 0x600 ∧ off % 4 = 0 then
        some (.next (busWrite b .qmg off v (fun s => s.doorbell ((off - 0x400) / 4) b.role v) s))
      else none
  | _ => none

/-- PWR_CMD: PROCEED, then CANCEL. -/
def pwrCmdWrite (b : Bus) (v : Word) (s : State) : Out :=
  .next (busWrite b .pwr 0x48 v (fun s =>
    let s := if bit v 0 then s.pwrProceed else s
    if bit v 1 then s.pwrCancel else s) s)

/-- The registers of the part's central pages with a meaning of their own. -/
def centralRow (b : Bus) (p : Page) (off : Nat) (v : Word) (s : State) : Option Out :=
  match p with
  | .root =>
    match off with
    | 0x58 => some (.next (busWrite b .root 0x58 v (fun s => if bit v 31 then s.acvClear else s) s))
    | 0x60 => some (execSwiSet b v s)
    | 0x64 => some (execSwiClr b v s)
    | _ => none
  | .tim =>
    match off with
    | 0x54 => some (execTimRateWrite b v s)
    | 0x64 => some (.next (busWrite b .tim 0x64 v (fun s => s.timCmd v) s))
    | 0x6C => some (execUtcOffsetWrite b v s)
    | 0x90 => some (execTzStdWrite b v s)
    | _ =>
      if 0x100 ≤ off ∧ off < 0x140 ∧ off % 4 = 0 then
        some (execTzWrite b (Fin.ofNat 8 ((off - 0x100) / 8)) (off % 8 == 4) v s)
      else none
  | .net => if off = 0x50 then some (execMdioGo b v s) else none
  | .sec =>
    if off = 0x90 then some (execChainCapture b v s)
    else if 0x100 ≤ off ∧ off < 0x140 ∧ off % 16 = 8 then some (secCmdWrite b (Fin.ofNat 4 ((off - 0x100) / 16)) v s)
    else if 0x200 ≤ off ∧ off < 0x300 ∧ off % 16 = 0 then some (execRegionWrite b (Fin.ofNat 16 ((off - 0x200) / 16)) v s)
    else none
  | .flt =>
    match off with
    | 0x48 => some (execFltSelectCapture b v s)
    | 0x70 => some (execFltAck b v s)
    | 0x78 => some (execFltRelease b v s)
    | 0xC0 => some (execFltLogCapture b v s)
    | _ => none
  | .clk =>
    if off < 0x100 ∨ 0x300 ≤ off then none else
    let y := Fin.ofNat 4 ((off - 0x100) / 0x80)
    match off % 0x80 with
    | 0x00 => some (execSynRun b y v s)
    | 0x08 => some (execPherrClear b y v s)
    | 0x10 => some (execClockOutputWrite b y 0 v s)
    | 0x14 => some (execClockOutputWrite b y 1 v s)
    | 0x18 => some (execClockOutputWrite b y 2 v s)
    | 0x1C => some (execClockOutputWrite b y 3 v s)
    | _ => none
  | .thm => if off = 0x90 then some (execThmPeakClear b v s) else none
  | .pwr =>
    match off with
    | 0x40 => some (execPowerStateRequest b v s)
    | 0x48 => some (pwrCmdWrite b v s)
    | 0xD0 => some (execDomainControlWrite b v s)
    | _ => none
  | .bkg =>
    match off with
    | 0x60 => some (execWearCapture b v s)
    | 0x6C => some (execWearSaveNow b v s)
    | _ => none
  | _ => none

/-- The block registers whose writes have a meaning of their own, page by page. -/
def blockRow (b : Bus) (p : Page) (off : Nat) (v : Word) (s : State) : Option Out :=
  match p with
  | .ch n k => chanRow b n k off v s
  | .spareSeq => if off = 0x40 then some (seqCtrlBus b 16 v s) else none
  | .stn k =>
    if off = 0x44 then some (unitCtrlWrite b (.stn k) v s)
    else if 0x440 ≤ off ∧ off < 0x4C0 then unitJobWrite b (.stn k) (off - 0x400) v s
    else if isRwl (pageBase p + off) then some (execStationConfigWrite b k (BitVec.ofNat 12 off) v s)
    else none
  | .lin => linRow b off v s
  | .dmk => dmkRow b off v s
  | .ldp d => ldpRow b d off v s
  | .stp q => stpRow b q off v s
  | .bldc k => bldcRow b k off v s
  | .mb u => mbRow b u off v s
  | .ddr | .srm | .dma | .qmg => memRow b p off v s
  | _ => centralRow b p off v s

/-! ### The header, and any address -/

/-- A write of a page's header (R37): the registers that only read are not changed. -/
def headerWrite (b : Bus) (p : Page) (off : Nat) (v : Word) (s : State) : State :=
  busWrite b p off v (fun s =>
    match off with
    | 0x0C => s.aclWrite p v
    | 0x10 => s.pgCtrlWrite p v
    | 0x18 =>
      let (f, s) := s.drawWord
      s.sootWrite p v f
    | 0x1C => s.sootMaskWrite p v
    | 0x20 => s.wr (Reg.pgIrqStat p) (s.rd (Reg.pgIrqStat p) &&& ~~~v)
    | 0x24 => s.wr (Reg.pgIrqEn p) v
    | 0x28 => if bit v 31 then s.wrf (Reg.pgErrcnt p) 15 0 0 else s
    | 0x30 => s.lockWrite p v
    | _ => s) s

/-- The pages whose block registers the spec does not give (R45). -/
def noMap : Page → Bool
  | .sys | .hio | .hioCh _ => true
  | _ => false

/-- A bus write of an aligned word of register space (R35 to R54): an error response where no page is. -/
def regWrite (b : Bus) (a : Nat) (v : Word) (s : State) : Out :=
  if 0x40001000 ≤ a ∧ a < 0x40001800 then .next (busWrite b .root (a - 0x40000000) v id s)
  else match pageAt (a / 4096) with
    | none => .next (s.respond true 0)
    | some p =>
      let off := a % 4096
      if off < 0x40 then .next (headerWrite b p off v s)
      else if noMap p then
        if s.powered p && s.mayWrite b.role p off v then .refused (.noRegisterMap p off) else .next (busWrite b p off v id s)
      else match blockRow b p off v s with
        | some o => o
        | none => .next (busWrite b p off v (fun s => s.blockPlain p off v) s)

/-- A bus write of any address, of `size` bytes (R35, R48, R325, R382). -/
def anyWrite (b : Bus) (a size : Nat) (v : Word) (s : State) : Out :=
  if inMemMap a then .next (memBusWrite b a size v s)
  else if size ≠ 4 ∨ a % 4 ≠ 0 then .next (s.respond true 0)
  else if 0x0C000000 ≤ a ∧ a < 0x10000000 then
    .next (if ! s.domOn 4 then s.respond true 0
      else if ! s.addrOk b.role true a then s.refuse b a true
      else (s.plicWrite (a - 0x0C000000) v).respond false 0)
  else regWrite b a v s

/-- A write of a sequencer's timing port (R108): only by a program that executes; a port that only reads keeps. -/
def portWrite (n : Fin 17) (off : Nat) (v : Word) (s : State) : Out :=
  let put (f : SeqState → SeqState) : Out := s.port n.val (fun s => s.updSeq n.val f)
  if h : n.val < 16 then
    let c : Fin 16 := ⟨n.val, h⟩
    match off with
    | 0x08 => put (fun q => { q with encSel := BitVec.ofNat 4 (fld v 3 0) })
    | 0x18 => execTpWaitPos c v s
    | 0x1C => execTpWaitTick c v s
    | 0x24 => put (fun q => { q with predFrac := BitVec.ofNat 16 (fld v 15 0) })
    | 0x28 => execTpPredPos c v s
    | 0x38 => put (fun q => { q with edgeTick := v })
    | 0x3C => execTpEdgeCmd c v s
    | 0x48 => execTpJobEnd c v s
    | 0x4C => execTpCond c v s
    | 0x54 => execTpKick c s
    | 0x58 => put (fun q => { q with win := BitVec.ofNat 2 (fld v 1 0) })
    | _ => .next s
  else match off with
    | 0x08 => put (fun q => { q with encSel := BitVec.ofNat 4 (fld v 3 0) })
    | 0x24 => put (fun q => { q with predFrac := BitVec.ofNat 16 (fld v 15 0) })
    | 0x38 => put (fun q => { q with edgeTick := v })
    | 0x58 => put (fun q => { q with win := BitVec.ofNat 2 (fld v 1 0) })
    | _ => .next s

/-- REGISTER_WRITE (R9, R35, R50 to R54, R108, R537): a bus write of an address, or a port write of a mark program. -/
def execRegisterWrite (b : Bus) (t : RegTarget) (size : Nat) (v : Word) (s : State) : Out :=
  match t with
  | .addr a => anyWrite b a.toNat size v s
  | .port n off => if size = 4 then portWrite n off.toNat v s else .next s

end Sys2Proof.Machine
end

