-- ==== Sys2Proof/Machine/GenDma.lean ====
section
/-! DEFINITION. Bus reads as a general DMA channel makes them, and the completion and abort of its descriptors (spec/02, R37,
R41 to R44, R48; spec/12, R330 to R334). -/
namespace Sys2Proof.Machine

/-! ### Reads (R7, R37, R41 to R44, R50) -/

/-- A word of the ROOT directory (R42). -/
def State.dirWord (s : State) (o : Nat) : Word :=
  match allPages.find? (fun p => pageIdx p == o / 8) with
  | none => 0
  | some p =>
    let laser := match p with | .ch n _ => s.isLaser n.val | _ => false
    if o % 8 = 0 then BitVec.ofNat 32 (pagePfn p)
    else BitVec.ofNat 32 (pageType laser p + pageDomain p * 2 ^ 16 + 2 ^ 20 + b2n (s.powered p) * 2 ^ 21 +
      (match pageParent p with | some q => pageIdx q | none => 0xFF) * 2 ^ 24)

/-- Entry `i` of a page's table of children (R43). -/
def childWord (p : Page) (i : Nat) : Word :=
  let kids := allPages.filter (fun q => if p = .root then q != .root && (pageParent q).isNone else pageParent q == some p)
  match kids[i]? with
  | some q => BitVec.ofNat 32 ((pagePfn q - pagePfn p) % 65536 + pageIdx q * 65536)
  | none => 0

/-- The present value of a register that shows other state than its own. -/
def State.liveWord (s : State) (p : Page) (off : Nat) : Word :=
  let w := s.rd (s.regKey p off)
  match p with
  | .ch n k =>
    let n := n.val
    if off = 0 then setFld w 31 16 (pageType (s.isLaser n) p)
    else match k.val, off with
    | 3, 0x60 => if s.isLaser n then w else setBit w 6 (s.auditRuns n)
    | 3, 0x98 => if s.isLaser n then tabGet 0 (s.las n).gridShadow (s.rdf (Reg.lpGridSel n) 12 0) else w
    | 4, 0x44 =>
      if s.isLaser n then setFld (setBit (setBit w 0 (s.loopClosed (s.loopX n))) 1 (s.loopClosed (s.loopY n))) 7 4 (s.loopRate (s.loopX n))
      else w
    | 7, 0x40 => if s.isLaser n then setBit w 0 false else w
    | _, _ => w
  | .ldp d =>
    if off < 0x100 ∨ 0xD00 ≤ off then w else
    let m := loopAt d.val ((off - 0x100) / 0x100)
    let o := off % 0x100
    if o = 0x18 ∧ loopGalvo m then 0
    else if 0x40 ≤ o ∧ o < 0x88 then s.coefRead m ((o - 0x40) / 4)
    else w
  | .mb u =>
    if off = 0x6C then
      let stp := (List.range 16).foldl (fun a k => a + b2n (s.stpBus k == u.val) * 2 ^ k) 0
      let bl := (List.range 4).foldl (fun a k => a + b2n (s.blBus k == u.val) * 2 ^ k) 0
      BitVec.ofNat 32 (stp + bl * 65536)
    else w
  | .qmg =>
    if 0x400 ≤ off ∧ off < 0x600 then
      let q := s.queue ((off - 0x400) / 4)
      BitVec.ofNat 32 (q.head.toNat + q.tail.toNat * 65536)
    else w
  | .sec => if off = 0x7C then BitVec.ofNat 32 (s.sec.pending.length + s.recOut * 65536) else w
  | _ => w

/-- A read of a stepper port's STP_POS_FRAC captures STP_POS and STP_VEL (R275). -/
def State.stpCapture (s : State) (p : Nat) : State :=
  let t := s.step_ p
  ((s.wr (Reg.stpPos p) (wordOf t.posInt)).wr (Reg.stpVel p) (wordOf t.velReg)).wrf (Reg.stpPosFrac p) 15 0 t.posFrac

/-- A bus read of an aligned word of register space (R44, R50, R51): the response holds its data.  `none` where the spec
gives the page no register map. -/
def regRead (b : Bus) (a : Nat) (s : State) : Option State :=
  let plain (p : Page) (d : State → Word) : Option State :=
    if ! s.powered p then some (s.respond true 0)
    else if ! inMask (s.rdf (Reg.pgAcl p) 15 8) b.role then some (s.refuse b a false)
    else some (s.respond false (d s))
  if 0x40001000 ≤ a ∧ a < 0x40001800 then some (if s.domOn 4 then s.respond false (s.dirWord (a - 0x40001000)) else s.respond true 0)
  else if 0x0C000000 ≤ a ∧ a < 0x10000000 then
    if ! s.domOn 4 then some (s.respond true 0)
    else if ! s.addrOk b.role false a then some (s.refuse b a false)
    else
      let o := a - 0x0C000000
      if 0x200000 ≤ o ∧ o < 0x204000 ∧ o % 0x1000 = 4 then
        let i := s.plicBest ((o - 0x200000) / 0x1000)
        let i := if (s.plicRd (4 * i)).toNat ≤ (s.plicRd (o - 4)).toNat then 0 else i
        let s := if i = 0 then s else s.plicWr (plicServed (i / 32)) (setBit (s.plicRd (plicServed (i / 32))) (i % 32) true)
        some (s.respond false (BitVec.ofNat 32 i))
      else if 0x1000 ≤ o ∧ o < 0x1020 then
        some (s.respond false (BitVec.ofNat 32 ((List.range 32).foldl (fun a i => a + b2n (s.plicPending ((o - 0x1000) * 8 + i)) * 2 ^ i) 0)))
      else if 0x4000000 ≤ o then some (s.respond false 0)
      else some (s.respond false (s.plicRd o))
  else match pageAt (a / 4096) with
    | none => some (s.respond true 0)
    | some p =>
      let off := a % 4096
      if off < 0x40 ∧ [0x00, 0x04, 0x08, 0x0C, 0x2C, 0x3C].contains off then
        some (if s.powered p then s.respond false (s.liveWord p off) else s.respond true 0)
      else if off < 0x40 then plain p (fun s => s.liveWord p off)
      else if noMap p then
        if s.powered p && inMask (s.rdf (Reg.pgAcl p) 15 8) b.role then none else plain p (fun _ => 0)
      else if 0xF00 ≤ off then plain p (fun _ => childWord p ((off - 0xF00) / 4))
      else match p with
        | .tim => if off = 0x40 then some (outState (execTscCapture b s) s) else if off = 0x7C then some (outState (execDateClockCapture b s) s)
            else plain p (fun s => s.liveWord p off)
        | .lin =>
          if 0x100 ≤ off ∧ off < 0x300 ∧ off % 0x40 = 4 then some (outState (execEncPosCapture b (Fin.ofNat 8 ((off - 0x100) / 0x40)) s) s)
          else if 0x300 ≤ off ∧ off < 0x400 ∧ off % 0x20 = 8 then
            some (outState (execVencPosCapture b (Fin.ofNat 8 ((off - 0x300) / 0x20)) s) s)
          else plain p (fun s => s.liveWord p off)
        | .stp k => if off = 0xA0 then some (busRead b p off (fun s => s.stpCapture k.val) s) else plain p (fun s => s.liveWord p off)
        | _ => plain p (fun s => s.liveWord p off)

/-! ### A copy of words with register space at a side (R324, R331, R333) -/

/-- Where byte `j` of a transfer stands at a side. -/
def sideAddr (fix : Bool) (width base j : Nat) : Nat := if fix then base + j % width else base + j

/-- How a copy went: the state, the bytes done, and the code and address of an error. -/
structure CopyEnd where
  st : State
  done : Nat
  err : Option (Nat × Nat)

/-- One word read, and its bytes: `none` where the spec gives no register map. -/
def copyRead (b : Bus) (d : Desc) (k i : Nat) (s : State) : Option (State × Option (List Byte)) :=
  let a := sideAddr d.srcFix d.width d.src (4 * i)
  if inRegSpace a then (regRead b a s).map (fun t => (t, if t.resp.err then none else some (leBytes 4 t.resp.data.toNat)))
  else
    let n := if d.srcFix then Nat.min 4 d.width else 4
    match s.memFault b.role false a n with
    | some o => some (s.memRefused b.role false k (a + o), none)
    | none => some (s, some ((List.range 4).map (fun t => s.rdByte (sideAddr d.srcFix d.width d.src (4 * i + t)))))

/-- One word written; whether it was taken. -/
def copyWrite (b : Bus) (d : Desc) (k i : Nat) (l : List Byte) (s : State) : Host.Outcome (State × Bool) Fault Refusal :=
  let a := sideAddr d.dstFix d.width d.dst (4 * i)
  if inRegSpace a then
    match anyWrite b a 4 (BitVec.ofNat 32 (ofLe l)) s with
    | .next t => .next (t, ! t.resp.err)
    | .fault f => .fault f
    | .refused r => .refused r
  else
    let n := if d.dstFix then Nat.min 4 d.width else 4
    match s.memFault b.role true a n with
    | some o => .next (s.memRefused b.role true k (a + o), false)
    | none => .next (forL (l.zip (List.range 4)) (fun x s => s.wrByte (sideAddr d.dstFix d.width d.dst (4 * i + x.2)) x.1) s, true)

/-- Whether the response that failed is word `i`'s read, or its write. -/
def readErrAt (r : XferResult) (i : Nat) : Bool := match r with | .readErr o => o / 4 == i | _ => false
def writeErrAt (r : XferResult) (i : Nat) : Bool := match r with | .writeErr o => o / 4 == i | _ => false

/-- The words of a copy in their order, until one meets an error: the fabric's own, or one that `r` reports. -/
def copyWords (b : Bus) (d : Desc) (k : Nat) (r : XferResult) : List Nat → Nat → State → Host.Outcome CopyEnd Fault Refusal
  | [], n, s => .next ⟨s, n, none⟩
  | i :: rest, n, s =>
    let sa := sideAddr d.srcFix d.width d.src (4 * i)
    let da := sideAddr d.dstFix d.width d.dst (4 * i)
    if readErrAt r i then .next ⟨s, n, some (4, sa)⟩
    else match copyRead b d k i s with
      | none => match pageAt (sa / 4096) with
        | some p => .refused (.noRegisterMap p (sa % 4096))
        | none => .next ⟨s, n, some (4, sa)⟩
      | some (s, none) => .next ⟨s, n, some (4, sa)⟩
      | some (s, some l) =>
        if writeErrAt r i then .next ⟨s, n, some (5, da)⟩
        else match copyWrite b d k i l s with
          | .next (s, true) => copyWords b d k r rest (n + 4) s
          | .next (s, false) => .next ⟨s, n, some (5, da)⟩
          | .fault f => .fault f
          | .refused x => .refused x

/-! ### A copy within memory -/

/-- Offset of the first byte that fails in the copy's order, of a range at `a` (R331). -/
def State.sideFault (s : State) (r : Role) (write down : Bool) (a n : Nat) : Option Nat :=
  if ! down then s.memFault r write a n
  else
    let edge := dramBase + s.dramSize
    let starts := rangePages a n ++ (if a < edge ∧ edge < a + n then [edge] else [])
    match starts.filter (fun x => ! s.memAnswers r write x) with
    | [] => none
    | x :: l =>
      let top := l.foldl Nat.max x
      some ((starts.filter (fun y => decide (top < y))).foldl Nat.min (a + n) - 1 - a)

/-- Bytes done before the byte at offset `o`. -/
def doneBefore (down : Bool) (len o : Nat) : Nat := if down then len - Nat.min len (o + 1) else Nat.min len o

/-- Bytes of a copy that are done, written at the destination (R331). -/
def State.copyPut (s : State) (d : Desc) (down : Bool) (l : List Byte) (done : Nat) : State :=
  if d.dstFix then
    let beats := done / d.width
    if beats = 0 then s else s.wrMem d.dst (slice l ((beats - 1) * d.width) d.width)
  else if down then s.wrMem (d.dst + (l.length - done)) (l.drop (l.length - done))
  else s.wrMem d.dst (l.take done)

/-- The source bytes of a copy. -/
def State.copySrc (s : State) (d : Desc) : List Byte :=
  if d.srcFix then (List.replicate (d.len / d.width) (s.rdMem d.src d.width)).flatten else s.rdMem d.src d.len

/-- The earliest of the errors a copy meets in its order: bytes done before it, code, address, whether the fabric refused. -/
def State.copyFault (s : State) (role : Role) (d : Desc) (down : Bool) (r : XferResult) : Option (Nat × Nat × Nat × Bool) :=
  let rd := (s.sideFault role false down d.src d.srcLen).map (fun o =>
    (if d.srcFix then 0 else doneBefore down d.len o, 4, d.src + o, true))
  let wr := (s.sideFault role true down d.dst d.dstLen).map (fun o =>
    (if d.dstFix then 0 else doneBefore down d.len o, 5, d.dst + o, true))
  let ext := match r with
    | .ok => none
    | .readErr o => some (doneBefore down d.len o, 4, sideAddr d.srcFix d.width d.src o, false)
    | .writeErr o => some (doneBefore down d.len o, 5, sideAddr d.dstFix d.width d.dst o, false)
  [rd, ext, wr].foldl (fun m x => match m, x with
    | none, x => x
    | some a, none => some a
    | some a, some b => if b.1 < a.1 then some b else some a) none

/-- A copy within memory runs to its end or its first error. -/
def copyMem (role : Role) (d : Desc) (k : Nat) (down : Bool) (r : XferResult) (s : State) : CopyEnd :=
  let l := s.copySrc d
  match s.copyFault role d down r with
  | none => ⟨s.copyPut d down l d.len, d.len, none⟩
  | some (done, code, addr, fabric) =>
    let s := s.copyPut d down l done
    ⟨if fabric then s.memRefused role (code == 5) k addr else s, done, some (code, addr)⟩

/-! ### Completion, error, abort (R330, R332, R333) -/

/-- Whether a side of a descriptor lies in register space. -/
def Desc.regSide (d : Desc) : Bool := rangeAny inRegSpace d.src d.srcLen || rangeAny inRegSpace d.dst d.dstLen

/-- The copy order is descending (R331). -/
def Desc.down (d : Desc) : Bool := ! d.srcFix && ! d.dstFix && decide (d.src < d.dst ∧ d.dst < d.src + d.len)

/-- A descriptor is complete (R330, R332). -/
def State.genDone (s : State) (k : Nat) (d : Desc) : State :=
  let s := ((s.wr (Reg.dmaChRem k) 0).cntW (Reg.dmaChDone k)).wr (Reg.dmaChTag k) d.tag
  let s := s.dmaIdle k
  if d.next = 0 then s.irq .dma (k - 16) else s

/-- What a copy's end makes of the channel. -/
def State.genEnd (s : State) (k : Nat) (d : Desc) (e : CopyEnd) : State :=
  let t := { e.st with resp := s.resp }
  match e.err with
  | none => t.genDone k d
  | some (code, addr) => (t.wr (Reg.dmaChRem k) (BitVec.ofNat 32 (d.len - e.done))).genFail k code addr

/-- The descriptor's transfer: its copy, or a lane's output to its destination (R334). -/
def genTransfer (k : Nat) (d : Desc) (r : XferResult) (s : State) : Out :=
  let c := s.dch k
  let b : Bus := ⟨c.entryRole, BitVec.ofNat 8 k⟩
  if d.op = 0 then
    if d.regSide then
      let order := List.range (d.len / 4)
      match copyWords b d k r (if d.down then order.reverse else order) 0 s with
      | .next e => .next (s.genEnd k d e)
      | .fault f => .fault f
      | .refused x => .refused x
    else .next (s.genEnd k d (copyMem b.role d k d.down r s))
  else match c.boltOut with
    | none => .next s
    | some out =>
      let w : Desc := { d with len := out.length }
      if ! rangeAll inMemMap d.dst out.length then .next (s.genFail k 2 d.dst)
      else
        let fault := match s.memFault b.role true d.dst out.length, r with
          | some o, .writeErr o' => some (Nat.min o o')
          | some o, _ => some o
          | none, .writeErr o' => some o'
          | none, _ => none
        match fault with
        | none => .next ((s.copyPut w false out out.length).genDone k d)
        | some o => .next (((s.copyPut w false out o).memRefused b.role true k (d.dst + o)).genFail k 5 (d.dst + o))

/-- GEN_DESCRIPTOR_COMPLETE (R330 to R334): every response has returned; `r` says whether one was an error response the
memory gave.  A register whose page has no map refuses. -/
def execGenDescriptorComplete (k : Fin 16) (r : XferResult) (s : State) : Out :=
  let k := k.val + 16
  let c := s.dch k
  match c.desc with
  | none => .next s
  | some d =>
    if ! s.powered .dma || c.aborting || s.dmaSt k == 4 || (if d.op = 0 then ! c.started else c.boltOut.isNone) then .next s
    else genTransfer k d r s

/-- DMA_ABORT_DONE (R333): what was done, up to a 64-byte boundary, is written; how much is free. -/
def execDmaAbortDone (k : Fin 16) (s : State) : Out :=
  let k := k.val + 16
  let c := s.dch k
  match c.desc with
  | none => .next s
  | some d =>
    if ! s.powered .dma || ! c.aborting then .next s else
    if c.started && d.op == 0 then
      let (n, s) := s.drawNat
      let b : Bus := ⟨c.entryRole, BitVec.ofNat 8 k⟩
      let done := Nat.min d.len (n % (d.len / 64 + 1) * 64)
      let stop (s : State) (done : Nat) : State :=
        (s.wr (Reg.dmaChRem k) (BitVec.ofNat 32 (d.len - done))).genFail k 7 (sideAddr d.srcFix d.width d.src (if d.down then d.len - done else done))
      if d.regSide then
        let order := List.range (d.len / 4)
        match copyWords b d k .ok ((if d.down then order.reverse else order).take (done / 4)) 0 s with
        | .next e => .next (match e.err with
          | none => stop { e.st with resp := s.resp } e.done
          | some _ => s.genEnd k d e)
        | .fault f => .fault f
        | .refused x => .refused x
      else
        match s.copyFault b.role d d.down .ok with
        | some (n, _, _, _) => if n < done then .next (s.genEnd k d (copyMem b.role d k d.down .ok s)) else .next (stop (s.copyPut d d.down (s.copySrc d) done) done)
        | none => .next (stop (s.copyPut d d.down (s.copySrc d) done) done)
    else .next ((s.wr (Reg.dmaChRem k) (BitVec.ofNat 32 d.len)).genFail k 7 d.src)

end Sys2Proof.Machine
end

