-- ==== Sys2Proof/Machine/Scrub.lean ====
section
/-! DEFINITION. SRAM scrub (spec/11, R314 to R317; spec/18, R497). -/
namespace Sys2Proof.Machine

/-- Rows of 64 bytes of a macro (R314; DEDUCED, log entry 41). -/
def macroRows (m : Nat) : Nat :=
  if ! macroOk m then 0
  else if 64 ≤ m ∧ m < 132 then (match (m - 64) % 4 with | 2 => 256 | 3 => 1024 | _ => 512)
  else if 132 ≤ m ∧ m < 141 then 512
  else 1024

/-- An entry of a job table is lost (R315): its job alone ends as a CHANNEL_SAFE order ends it.  The row is one entry; in
which of its 8 words the error lies the scrub's report does not say: a free value.  Word 0 holds PRODUCT_ID and TRK_IDX. -/
def State.jobEntryLost (s : State) (n j : Nat) : State :=
  let x := s.job n j
  if x.st = .free then s else
  let (w, s) := s.drawNat
  let s := if w % 8 = 0 then s.updJob n j (fun e => { e with noTrk := true }) else s
  s.jobLeaveWith n j 8 (if x.st = .marking then .aborted else .refused)

/-- What an uncorrectable error does in its region (R315). -/
def State.scrubUe (s : State) (m row : Nat) : State :=
  let s := s.sramUe m row 0
  if m < 64 ∨ 132 ≤ m then s else
  let n := (m - 64) / 4
  match (m - 64) % 4 with
  | 2 => if n < 16 then s.jobEntryLost n row else s
  | 3 => s
  | _ => s.seqFail n 2

/-- SRAM_SCRUB_READ (R315, R316, R317): Banking's activity 1 reads a row of a macro whose domain is on. -/
def execSramScrubRead (m : BitVec 8) (row : BitVec 10) (ecc : SramEcc) (s : State) : Out :=
  let m := m.toNat
  if ! (s.banking 1 && s.rdb Reg.srmScrubCfg 16 && decide (row.toNat < macroRows m) && s.domOn (macroDomain m)) then .next s else
  .next (match ecc with
    | .clean => s
    | .corrected pos => s.sramCorrected m row.toNat pos.toNat
    | .uncorrectable => s.scrubUe m row.toNat)

end Sys2Proof.Machine
end

