-- ==== Sys2Proof/Machine/Dispatch.lean ====
section
/-! DEFINITION. One arm per command: a direct call of its meaning. -/
namespace Sys2Proof.Machine

def exec (i : Instr) (s : State) : Host.Outcome State Fault Refusal :=
  match i with
  | .registerWrite b t size v => Sys2Proof.Machine.execRegisterWrite b t size v s
  | .aclWrite b p v => Sys2Proof.Machine.execAclWrite b p v s
  | .softReset b p v => Sys2Proof.Machine.execSoftReset b p v s
  | .unitEnable b p v => Sys2Proof.Machine.execUnitEnable b p v s
  | .heldControlApply n => Sys2Proof.Machine.execHeldControlApply n s
  | .errcntClear b p => Sys2Proof.Machine.execErrcntClear b p s
  | .pageLock b p v => Sys2Proof.Machine.execPageLock b p v s
  | .sootClear b p v persist => Sys2Proof.Machine.execSootClear b p v persist s
  | .swiSet b v => Sys2Proof.Machine.execSwiSet b v s
  | .swiClr b v => Sys2Proof.Machine.execSwiClr b v s
  | .acvLogClear b => Sys2Proof.Machine.execAcvLogClear b s
  | .stationConfigWrite b m off v => Sys2Proof.Machine.execStationConfigWrite b m off v s
  | .tscCopyCheck island copy => Sys2Proof.Machine.execTscCopyCheck island copy s
  | .scheduledEdgeRelease n pinBad => Sys2Proof.Machine.execScheduledEdgeRelease n pinBad s
  | .inputFilterAccept k held => Sys2Proof.Machine.execInputFilterAccept k held s
  | .encoderEnable b e v a lvlB z => Sys2Proof.Machine.execEncoderEnable b e v a lvlB z s
  | .linCfgDisable b r v => Sys2Proof.Machine.execLinCfgDisable b r v s
  | .encoderStopTimeout e => Sys2Proof.Machine.execEncoderStopTimeout e s
  | .productQualify k => Sys2Proof.Machine.execProductQualify k s
  | .pdStuck k => Sys2Proof.Machine.execPdStuck k s
  | .pdEnable b k v => Sys2Proof.Machine.execPdEnable b k v s
  | .rejectHoldStart j e => Sys2Proof.Machine.execRejectHoldStart j e s
  | .rejectHoldEnd j e => Sys2Proof.Machine.execRejectHoldEnd j e s
  | .rejectDecision t => Sys2Proof.Machine.execRejectDecision t s
  | .rejectWindowEnd j => Sys2Proof.Machine.execRejectWindowEnd j s
  | .trackingEntryFree t => Sys2Proof.Machine.execTrackingEntryFree t s
  | .rejectMismatch j pin => Sys2Proof.Machine.execRejectMismatch j pin s
  | .forcePid b v => Sys2Proof.Machine.execForcePid b v s
  | .comparePulse j => Sys2Proof.Machine.execComparePulse j s
  | .rejectOutputConfig b j v => Sys2Proof.Machine.execRejectOutputConfig b j v s
  | .lsrCtrlWrite b v => Sys2Proof.Machine.execLsrCtrlWrite b v s
  | .lineStopHoldEnd => Sys2Proof.Machine.execLineStopHoldEnd s
  | .pidNextWrite b v => Sys2Proof.Machine.execPidNextWrite b v s
  | .policyWrite b v => Sys2Proof.Machine.execPolicyWrite b v s
  | .trkSelCapture b v => Sys2Proof.Machine.execTrkSelCapture b v s
  | .trkPeakClear b v => Sys2Proof.Machine.execTrkPeakClear b v s
  | .mapWrite b m v => Sys2Proof.Machine.execMapWrite b m v s
  | .encPosCapture b e => Sys2Proof.Machine.execEncPosCapture b e s
  | .vencPosCapture b v => Sys2Proof.Machine.execVencPosCapture b v s
  | .jobAdmission n => Sys2Proof.Machine.execJobAdmission n s
  | .stationAdmission m => Sys2Proof.Machine.execStationAdmission m s
  | .armCheck n j => Sys2Proof.Machine.execArmCheck n j s
  | .markingStart n j => Sys2Proof.Machine.execMarkingStart n j s
  | .tpJobEnd n v => Sys2Proof.Machine.execTpJobEnd n v s
  | .jobEndDeferredApply n => Sys2Proof.Machine.execJobEndDeferredApply n s
  | .tpCond n v => Sys2Proof.Machine.execTpCond n v s
  | .markStall n => Sys2Proof.Machine.execMarkStall n s
  | .channelStart b u => Sys2Proof.Machine.execChannelStart b u s
  | .channelStop b u => Sys2Proof.Machine.execChannelStop b u s
  | .jobCancel b u v => Sys2Proof.Machine.execJobCancel b u v s
  | .manualAdmit b u v => Sys2Proof.Machine.execManualAdmit b u v s
  | .jobEntryCapture b u v => Sys2Proof.Machine.execJobEntryCapture b u v s
  | .chjPeakClear b u v => Sys2Proof.Machine.execChjPeakClear b u v s
  | .tpTscCapture n => Sys2Proof.Machine.execTpTscCapture n s
  | .tpPosCapture n => Sys2Proof.Machine.execTpPosCapture n s
  | .tpWaitPos n v => Sys2Proof.Machine.execTpWaitPos n v s
  | .tpWaitTick n v => Sys2Proof.Machine.execTpWaitTick n v s
  | .waitWake n => Sys2Proof.Machine.execWaitWake n s
  | .tpPredPos n v => Sys2Proof.Machine.execTpPredPos n v s
  | .predictionDone n => Sys2Proof.Machine.execPredictionDone n s
  | .tpEdgeCmd n v => Sys2Proof.Machine.execTpEdgeCmd n v s
  | .edgeQueueResume n => Sys2Proof.Machine.execEdgeQueueResume n s
  | .tpEdgeStatRead n => Sys2Proof.Machine.execTpEdgeStatRead n s
  | .tpJobPop n => Sys2Proof.Machine.execTpJobPop n s
  | .tpEventPop n => Sys2Proof.Machine.execTpEventPop n s
  | .tpKick n => Sys2Proof.Machine.execTpKick n s
  | .seqWatchdogExpiry n => Sys2Proof.Machine.execSeqWatchdogExpiry n s
  | .seqAccessFault n => Sys2Proof.Machine.execSeqAccessFault n s
  | .seqSelftestStart n => Sys2Proof.Machine.execSeqSelftestStart n s
  | .seqSelftestDone n pass => Sys2Proof.Machine.execSeqSelftestDone n pass s
  | .programLoad b n v => Sys2Proof.Machine.execProgramLoad b n v s
  | .programLoadDone n => Sys2Proof.Machine.execProgramLoadDone n s
  | .seqRun b n v => Sys2Proof.Machine.execSeqRun b n v s
  | .seqHalt b n v => Sys2Proof.Machine.execSeqHalt b n v s
  | .swapStart n => Sys2Proof.Machine.execSwapStart n s
  | .swapComplete n pass => Sys2Proof.Machine.execSwapComplete n pass s
  | .renderQueueEnter => Sys2Proof.Machine.execRenderQueueEnter s
  | .renderDispatch => Sys2Proof.Machine.execRenderDispatch s
  | .renderCommit e verify => Sys2Proof.Machine.execRenderCommit e verify s
  | .renderStallTimeout e => Sys2Proof.Machine.execRenderStallTimeout e s
  | .engineEccFault e => Sys2Proof.Machine.execEngineEccFault e s
  | .engineSelftestDone e pass => Sys2Proof.Machine.execEngineSelftestDone e pass s
  | .renderPauseEnd e => Sys2Proof.Machine.execRenderPauseEnd e s
  | .templateLoad b v => Sys2Proof.Machine.execTemplateLoad b v s
  | .templateLoadDone => Sys2Proof.Machine.execTemplateLoadDone s
  | .templateUnload b v => Sys2Proof.Machine.execTemplateUnload b v s
  | .templateSelect b u v => Sys2Proof.Machine.execTemplateSelect b u v s
  | .tplInfoCapture b v => Sys2Proof.Machine.execTplInfoCapture b v s
  | .operatorEntryCommit b v => Sys2Proof.Machine.execOperatorEntryCommit b v s
  | .lotCommit b v => Sys2Proof.Machine.execLotCommit b v s
  | .serialSetNext b v => Sys2Proof.Machine.execSerialSetNext b v s
  | .serialSetLimit b v => Sys2Proof.Machine.execSerialSetLimit b v s
  | .serialCapture b v => Sys2Proof.Machine.execSerialCapture b v s
  | .dmkPeakClear b v => Sys2Proof.Machine.execDmkPeakClear b v s
  | .renderMaxClear b v => Sys2Proof.Machine.execRenderMaxClear b v s
  | .lineDeferredFire n pinBad => Sys2Proof.Machine.execLineDeferredFire n pinBad s
  | .emberComputeDone n table ring => Sys2Proof.Machine.execEmberComputeDone n table ring s
  | .dummyShiftStart n => Sys2Proof.Machine.execDummyShiftStart n s
  | .readbackCheck n rx => Sys2Proof.Machine.execReadbackCheck n rx s
  | .emberSwap b n v => Sys2Proof.Machine.execEmberSwap b n v s
  | .emberSwapApply n => Sys2Proof.Machine.execEmberSwapApply n s
  | .emberCopyBack b n v => Sys2Proof.Machine.execEmberCopyBack b n v s
  | .strobeTimerExpiry n g held => Sys2Proof.Machine.execStrobeTimerExpiry n g held s
  | .headTempSample n code => Sys2Proof.Machine.execHeadTempSample n code s
  | .headShutdownSoot n => Sys2Proof.Machine.execHeadShutdownSoot n s
  | .auditPulse n codes => Sys2Proof.Machine.execAuditPulse n codes s
  | .auditRestart b n v => Sys2Proof.Machine.execAuditRestart b n v s
  | .tagAuth b n v => Sys2Proof.Machine.execTagAuth b n v s
  | .tagPresencePoll n uid => Sys2Proof.Machine.execTagPresencePoll n uid s
  | .tagAuthDone n reply => Sys2Proof.Machine.execTagAuthDone n reply s
  | .tagWriteback b n v => Sys2Proof.Machine.execTagWriteback b n v s
  | .tagWritebackDone n ok => Sys2Proof.Machine.execTagWritebackDone n ok s
  | .tagWritebackRetry n => Sys2Proof.Machine.execTagWritebackRetry n s
  | .vectorBlockStart n ecc pre => Sys2Proof.Machine.execVectorBlockStart n ecc pre s
  | .jump n => Sys2Proof.Machine.execJump n s
  | .mark n => Sys2Proof.Machine.execMark n s
  | .dot n => Sys2Proof.Machine.execDot n s
  | .power n => Sys2Proof.Machine.execPower n s
  | .freq n => Sys2Proof.Machine.execFreq n s
  | .delays n => Sys2Proof.Machine.execDelays n s
  | .waitPos n => Sys2Proof.Machine.execWaitPos n s
  | .syncTrack n => Sys2Proof.Machine.execSyncTrack n s
  | .endRecord n => Sys2Proof.Machine.execEndRecord n s
  | .vectorRecordComplete n => Sys2Proof.Machine.execVectorRecordComplete n s
  | .waitPosRelease n => Sys2Proof.Machine.execWaitPosRelease n s
  | .settleDone n => Sys2Proof.Machine.execSettleDone n s
  | .settleTimeout n => Sys2Proof.Machine.execSettleTimeout n s
  | .gridSwap b n v => Sys2Proof.Machine.execGridSwap b n v s
  | .gridSwapApply n => Sys2Proof.Machine.execGridSwapApply n s
  | .gridCopyBack b n v => Sys2Proof.Machine.execGridCopyBack b n v s
  | .laserPark b n v => Sys2Proof.Machine.execLaserPark b n v s
  | .gridDataWrite b n v => Sys2Proof.Machine.execGridDataWrite b n v s
  | .laserReadyTimeout n => Sys2Proof.Machine.execLaserReadyTimeout n s
  | .laserAlarm n => Sys2Proof.Machine.execLaserAlarm n s
  | .dwellCut n => Sys2Proof.Machine.execDwellCut n s
  | .durMaxClear b n v => Sys2Proof.Machine.execDurMaxClear b n v s
  | .bindFePeakClear b n v => Sys2Proof.Machine.execBindFePeakClear b n v s
  | .datapathFrameBoundary d ecc => Sys2Proof.Machine.execDatapathFrameBoundary d ecc s
  | .loopEvaluation m ecc => Sys2Proof.Machine.execLoopEvaluation m ecc s
  | .loopOpen b m => Sys2Proof.Machine.execLoopOpen b m s
  | .loopClose b m => Sys2Proof.Machine.execLoopClose b m s
  | .loopTune b m => Sys2Proof.Machine.execLoopTune b m s
  | .loopSwap b m => Sys2Proof.Machine.execLoopSwap b m s
  | .abortTune b m => Sys2Proof.Machine.execAbortTune b m s
  | .heldLoopCommandApply m => Sys2Proof.Machine.execHeldLoopCommandApply m s
  | .tuneTimeout m => Sys2Proof.Machine.execTuneTimeout m s
  | .coefWrite b m k v => Sys2Proof.Machine.execCoefWrite b m k v s
  | .coefModeWrite b m v => Sys2Proof.Machine.execCoefModeWrite b m v s
  | .loopFePeakClear b m v => Sys2Proof.Machine.execLoopFePeakClear b m v s
  | .profileTick p => Sys2Proof.Machine.execProfileTick p s
  | .chopperTrip p coil => Sys2Proof.Machine.execChopperTrip p coil s
  | .chopperOffEnd p coil => Sys2Proof.Machine.execChopperOffEnd p coil s
  | .holdCurrentTimeout p => Sys2Proof.Machine.execHoldCurrentTimeout p s
  | .stepperTargetWrite b p v => Sys2Proof.Machine.execStepperTargetWrite b p v s
  | .profileParamWrite b p k v => Sys2Proof.Machine.execProfileParamWrite b p k v s
  | .stepperStop b p => Sys2Proof.Machine.execStepperStop b p s
  | .stepperHome b p => Sys2Proof.Machine.execStepperHome b p s
  | .stepperSetPos b p => Sys2Proof.Machine.execStepperSetPos b p s
  | .stepperGear b p => Sys2Proof.Machine.execStepperGear b p s
  | .stepperUngear b p => Sys2Proof.Machine.execStepperUngear b p s
  | .stepperResume b p => Sys2Proof.Machine.execStepperResume b p s
  | .heldStepperCommandApply p => Sys2Proof.Machine.execHeldStepperCommandApply p s
  | .dcDutyWrite b p v => Sys2Proof.Machine.execDcDutyWrite b p v s
  | .bldcOn b k => Sys2Proof.Machine.execBldcOn b k s
  | .bldcOff b k => Sys2Proof.Machine.execBldcOff b k s
  | .bldcStop b k => Sys2Proof.Machine.execBldcStop b k s
  | .bldcSenseEnd k => Sys2Proof.Machine.execBldcSenseEnd k s
  | .bldcZeroCrossing k fwd => Sys2Proof.Machine.execBldcZeroCrossing k fwd s
  | .bldcCommutation k => Sys2Proof.Machine.execBldcCommutation k s
  | .bldcAlignEnd k => Sys2Proof.Machine.execBldcAlignEnd k s
  | .bldcStartFail k => Sys2Proof.Machine.execBldcStartFail k s
  | .bldcBemfLost k => Sys2Proof.Machine.execBldcBemfLost k s
  | .bldcRestart k => Sys2Proof.Machine.execBldcRestart k s
  | .bldcLearnUpdate k => Sys2Proof.Machine.execBldcLearnUpdate k s
  | .busLevelCrossing u mv => Sys2Proof.Machine.execBusLevelCrossing u mv s
  | .brakeCurrentCheck u code => Sys2Proof.Machine.execBrakeCurrentCheck u code s
  | .clearCf b u v => Sys2Proof.Machine.execClearCf b u v s
  | .shortHoldEnd u => Sys2Proof.Machine.execShortHoldEnd u s
  | .mbVpeakClear b u v => Sys2Proof.Machine.execMbVpeakClear b u v s
  | .uplinkFrame n bits rtt => Sys2Proof.Machine.execUplinkFrame n bits rtt s
  | .uplinkMissing n => Sys2Proof.Machine.execUplinkMissing n s
  | .uclkLoss n => Sys2Proof.Machine.execUclkLoss n s
  | .trainingWaitEnd n => Sys2Proof.Machine.execTrainingWaitEnd n s
  | .trainingComplete n => Sys2Proof.Machine.execTrainingComplete n s
  | .trainingRetry n => Sys2Proof.Machine.execTrainingRetry n s
  | .linkRetrain b n v => Sys2Proof.Machine.execLinkRetrain b n v s
  | .heldRetrainApply n => Sys2Proof.Machine.execHeldRetrainApply n s
  | .linkClear b n v => Sys2Proof.Machine.execLinkClear b n v s
  | .dramTransaction ready ecc => Sys2Proof.Machine.execDramTransaction ready ecc s
  | .correctedWriteback => Sys2Proof.Machine.execCorrectedWriteback s
  | .dramRefresh c => Sys2Proof.Machine.execDramRefresh c s
  | .mr4Poll rates => Sys2Proof.Machine.execMr4Poll rates s
  | .ddrTrainingDone ok => Sys2Proof.Machine.execDdrTrainingDone ok s
  | .ddrTrainingRetry => Sys2Proof.Machine.execDdrTrainingRetry s
  | .retrainIntervalExpiry => Sys2Proof.Machine.execRetrainIntervalExpiry s
  | .dqsDriftPoll taps => Sys2Proof.Machine.execDqsDriftPoll taps s
  | .ddrRetrain b v => Sys2Proof.Machine.execDdrRetrain b v s
  | .retrainSlice c found => Sys2Proof.Machine.execRetrainSlice c found s
  | .ddrRowRemap b v => Sys2Proof.Machine.execDdrRowRemap b v s
  | .remapCopyDone => Sys2Proof.Machine.execRemapCopyDone s
  | .ddrPpr b v => Sys2Proof.Machine.execDdrPpr b v s
  | .pprDone ok => Sys2Proof.Machine.execPprDone ok s
  | .elogClear b v => Sys2Proof.Machine.execElogClear b v s
  | .elogCapture b v => Sys2Proof.Machine.execElogCapture b v s
  | .remapEntryCapture b v => Sys2Proof.Machine.execRemapEntryCapture b v s
  | .ddrCeCntClear b v => Sys2Proof.Machine.execDdrCeCntClear b v s
  | .dramScrubRead ecc => Sys2Proof.Machine.execDramScrubRead ecc s
  | .sramScrubRead m row ecc => Sys2Proof.Machine.execSramScrubRead m row ecc s
  | .srmRepairLoad b v => Sys2Proof.Machine.execSrmRepairLoad b v s
  | .srmRepairCapture b v => Sys2Proof.Machine.execSrmRepairCapture b v s
  | .srmCeCntClear b v => Sys2Proof.Machine.execSrmCeCntClear b v s
  | .weftDescriptorTake n => Sys2Proof.Machine.execWeftDescriptorTake n s
  | .weftTransferStart n => Sys2Proof.Machine.execWeftTransferStart n s
  | .weftTransferComplete n r => Sys2Proof.Machine.execWeftTransferComplete n r s
  | .genDescriptorTake k chainOk => Sys2Proof.Machine.execGenDescriptorTake k chainOk s
  | .genDescriptorComplete k r => Sys2Proof.Machine.execGenDescriptorComplete k r s
  | .dmaEnable b k => Sys2Proof.Machine.execDmaEnable b k s
  | .dmaDisable b k => Sys2Proof.Machine.execDmaDisable b k s
  | .dmaAbortDone k => Sys2Proof.Machine.execDmaAbortDone k s
  | .boltLaneAcquire l => Sys2Proof.Machine.execBoltLaneAcquire l s
  | .boltDone l ecc => Sys2Proof.Machine.execBoltDone l ecc s
  | .boltLaneSelftestDone l pass => Sys2Proof.Machine.execBoltLaneSelftestDone l pass s
  | .queueProduce b q v => Sys2Proof.Machine.execQueueProduce b q v s
  | .queueConsume b q v => Sys2Proof.Machine.execQueueConsume b q v s
  | .queueConfigWrite b v => Sys2Proof.Machine.execQueueConfigWrite b v s
  | .queueSelectCapture b v => Sys2Proof.Machine.execQueueSelectCapture b v s
  | .queueMove q => Sys2Proof.Machine.execQueueMove q s
  | .timRateWrite b v => Sys2Proof.Machine.execTimRateWrite b v s
  | .timRateApply => Sys2Proof.Machine.execTimRateApply s
  | .stepPtp b v => Sys2Proof.Machine.execStepPtp b v s
  | .lockKick b v => Sys2Proof.Machine.execLockKick b v s
  | .unlock b v => Sys2Proof.Machine.execUnlock b v s
  | .acceptStep b v => Sys2Proof.Machine.execAcceptStep b v s
  | .setInitial b v => Sys2Proof.Machine.execSetInitial b v s
  | .ptpLockTimeout => Sys2Proof.Machine.execPtpLockTimeout s
  | .holdoverRateUpdate => Sys2Proof.Machine.execHoldoverRateUpdate s
  | .dateClockUpdate => Sys2Proof.Machine.execDateClockUpdate s
  | .floorUpdate => Sys2Proof.Machine.execFloorUpdate s
  | .utcOffsetWrite b v => Sys2Proof.Machine.execUtcOffsetWrite b v s
  | .tzWrite b k ofs v => Sys2Proof.Machine.execTzWrite b k ofs v s
  | .tzStdWrite b v => Sys2Proof.Machine.execTzStdWrite b v s
  | .tscCapture b => Sys2Proof.Machine.execTscCapture b s
  | .dateClockCapture b => Sys2Proof.Machine.execDateClockCapture b s
  | .ethFrameReceive p frame fcsOk stamp => Sys2Proof.Machine.execEthFrameReceive p frame fcsOk stamp s
  | .netTxDescriptor q => Sys2Proof.Machine.execNetTxDescriptor q s
  | .ethFrameTransmit p ecc => Sys2Proof.Machine.execEthFrameTransmit p ecc s
  | .macEntryAge mac => Sys2Proof.Machine.execMacEntryAge mac s
  | .mdioGo b v => Sys2Proof.Machine.execMdioGo b v s
  | .mdioDone data => Sys2Proof.Machine.execMdioDone data s
  | .getChallenge c k => Sys2Proof.Machine.execGetChallenge c k s
  | .setRole c k => Sys2Proof.Machine.execSetRole c k s
  | .dropRole c k => Sys2Proof.Machine.execDropRole c k s
  | .credSet c k => Sys2Proof.Machine.execCredSet c k s
  | .credClear c k => Sys2Proof.Machine.execCredClear c k s
  | .takeOwnership c k => Sys2Proof.Machine.execTakeOwnership c k s
  | .transferOwnership c k => Sys2Proof.Machine.execTransferOwnership c k s
  | .ownerReset c k => Sys2Proof.Machine.execOwnerReset c k s
  | .tplKeySet c k => Sys2Proof.Machine.execTplKeySet c k s
  | .recKeyGen c k => Sys2Proof.Machine.execRecKeyGen c k s
  | .progKeySet c k => Sys2Proof.Machine.execProgKeySet c k s
  | .provision c k => Sys2Proof.Machine.execProvision c k s
  | .secure c k => Sys2Proof.Machine.execSecure c k s
  | .revokeBootKey c k => Sys2Proof.Machine.execRevokeBootKey c k s
  | .rollbackCommit c k => Sys2Proof.Machine.execRollbackCommit c k s
  | .setBootSlot c k => Sys2Proof.Machine.execSetBootSlot c k s
  | .debugUnlock c k => Sys2Proof.Machine.execDebugUnlock c k s
  | .rmaUnlock c k => Sys2Proof.Machine.execRmaUnlock c k s
  | .random c k => Sys2Proof.Machine.execRandom c k s
  | .nonceExpiry k => Sys2Proof.Machine.execNonceExpiry k s
  | .entropyFailure => Sys2Proof.Machine.execEntropyFailure s
  | .regionWrite b r v => Sys2Proof.Machine.execRegionWrite b r v s
  | .recordSign => Sys2Proof.Machine.execRecordSign s
  | .chainCapture b v => Sys2Proof.Machine.execChainCapture b v s
  | .storeWriteConfirm ok => Sys2Proof.Machine.execStoreWriteConfirm ok s
  | .storeWriteRetry => Sys2Proof.Machine.execStoreWriteRetry s
  | .bootAttempt slot r => Sys2Proof.Machine.execBootAttempt slot r s
  | .bootRetryWaitEnd => Sys2Proof.Machine.execBootRetryWaitEnd s
  | .recoveryHello frame => Sys2Proof.Machine.execRecoveryHello frame s
  | .recoveryHeader frame => Sys2Proof.Machine.execRecoveryHeader frame s
  | .recoveryData frame => Sys2Proof.Machine.execRecoveryData frame s
  | .recoveryRun frame => Sys2Proof.Machine.execRecoveryRun frame s
  | .tapInstructionLoad k => Sys2Proof.Machine.execTapInstructionLoad k s
  | .interlockOpen x l1 l2 => Sys2Proof.Machine.execInterlockOpen x l1 l2 s
  | .interlockClose x l1 l2 => Sys2Proof.Machine.execInterlockClose x l1 l2 s
  | .interlockDiscrepancy x => Sys2Proof.Machine.execInterlockDiscrepancy x s
  | .keySwitchChange high => Sys2Proof.Machine.execKeySwitchChange high s
  | .enableAssert k => Sys2Proof.Machine.execEnableAssert k s
  | .enableOffDelayEnd k => Sys2Proof.Machine.execEnableOffDelayEnd k s
  | .enableReadbackMismatch o => Sys2Proof.Machine.execEnableReadbackMismatch o s
  | .readbackMismatch p => Sys2Proof.Machine.execReadbackMismatch p s
  | .dutyWindowCheck n duty => Sys2Proof.Machine.execDutyWindowCheck n duty s
  | .clockMonitorWindow refEdges fabEdges => Sys2Proof.Machine.execClockMonitorWindow refEdges fabEdges s
  | .fgOscDeviation freq => Sys2Proof.Machine.execFgOscDeviation freq s
  | .lockstepMismatch => Sys2Proof.Machine.execLockstepMismatch s
  | .fgWatchdogExpiry => Sys2Proof.Machine.execFgWatchdogExpiry s
  | .supplyWindowFault => Sys2Proof.Machine.execSupplyWindowFault s
  | .fgSelftestStart => Sys2Proof.Machine.execFgSelftestStart s
  | .fgSelftestDone r => Sys2Proof.Machine.execFgSelftestDone r s
  | .fgSelftestRetry => Sys2Proof.Machine.execFgSelftestRetry s
  | .fgPeriodicTest r => Sys2Proof.Machine.execFgPeriodicTest r s
  | .fgConfigLoad => Sys2Proof.Machine.execFgConfigLoad s
  | .fgDomainReapply d => Sys2Proof.Machine.execFgDomainReapply d s
  | .configCrcPass => Sys2Proof.Machine.execConfigCrcPass s
  | .graceExpiry src => Sys2Proof.Machine.execGraceExpiry src s
  | .warmResetRelease => Sys2Proof.Machine.execWarmResetRelease s
  | .fltAck b v => Sys2Proof.Machine.execFltAck b v s
  | .fltRelease b v => Sys2Proof.Machine.execFltRelease b v s
  | .releasePulse held => Sys2Proof.Machine.execReleasePulse held s
  | .quietExpiry src => Sys2Proof.Machine.execQuietExpiry src s
  | .integrityMismatch => Sys2Proof.Machine.execIntegrityMismatch s
  | .fltSelectCapture b v => Sys2Proof.Machine.execFltSelectCapture b v s
  | .fltLogCapture b v => Sys2Proof.Machine.execFltLogCapture b v s
  | .synRun b y v => Sys2Proof.Machine.execSynRun b y v s
  | .synLock y err => Sys2Proof.Machine.execSynLock y err s
  | .synLossOfLock y err => Sys2Proof.Machine.execSynLossOfLock y err s
  | .relockAttempt y => Sys2Proof.Machine.execRelockAttempt y s
  | .relockAttemptTimeout y => Sys2Proof.Machine.execRelockAttemptTimeout y s
  | .bandRecentre y fine => Sys2Proof.Machine.execBandRecentre y fine s
  | .refLoss => Sys2Proof.Machine.execRefLoss s
  | .refGood => Sys2Proof.Machine.execRefGood s
  | .backupMeasure kHz ratio => Sys2Proof.Machine.execBackupMeasure kHz ratio s
  | .clockOutputWrite b y o v => Sys2Proof.Machine.execClockOutputWrite b y o v s
  | .pherrClear b y v => Sys2Proof.Machine.execPherrClear b y v s
  | .dieSensorRound temps ext => Sys2Proof.Machine.execDieSensorRound temps ext s
  | .shutdownPowerOff => Sys2Proof.Machine.execShutdownPowerOff s
  | .damperStep => Sys2Proof.Machine.execDamperStep s
  | .markPauseEnd n => Sys2Proof.Machine.execMarkPauseEnd n s
  | .thmPeakClear b v => Sys2Proof.Machine.execThmPeakClear b v s
  | .alwaysOnPowerUp testMode => Sys2Proof.Machine.execAlwaysOnPowerUp testMode s
  | .railGroupEnable => Sys2Proof.Machine.execRailGroupEnable s
  | .pgEdge k level => Sys2Proof.Machine.execPgEdge k level s
  | .railQualified k => Sys2Proof.Machine.execRailQualified k s
  | .railTimeout k => Sys2Proof.Machine.execRailTimeout k s
  | .powerDownGroup => Sys2Proof.Machine.execPowerDownGroup s
  | .vinWarning => Sys2Proof.Machine.execVinWarning s
  | .vinRestore => Sys2Proof.Machine.execVinRestore s
  | .domainControlWrite b v => Sys2Proof.Machine.execDomainControlWrite b v s
  | .domainSwitchOn d => Sys2Proof.Machine.execDomainSwitchOn d s
  | .domainSwitchFail d => Sys2Proof.Machine.execDomainSwitchFail d s
  | .heldDomainOff d => Sys2Proof.Machine.execHeldDomainOff d s
  | .powerStateRequest b v => Sys2Proof.Machine.execPowerStateRequest b v s
  | .powerEntryStart => Sys2Proof.Machine.execPowerEntryStart s
  | .powerProceed b => Sys2Proof.Machine.execPowerProceed b s
  | .fwTimeout => Sys2Proof.Machine.execFwTimeout s
  | .powerCancel b => Sys2Proof.Machine.execPowerCancel b s
  | .twoWireWake addr arg => Sys2Proof.Machine.execTwoWireWake addr arg s
  | .watchSample codes => Sys2Proof.Machine.execWatchSample codes s
  | .wchWake j falling => Sys2Proof.Machine.execWchWake j falling s
  | .rtcAlarmWake => Sys2Proof.Machine.execRtcAlarmWake s
  | .resetPin held => Sys2Proof.Machine.execResetPin held s
  | .wakeComplete => Sys2Proof.Machine.execWakeComplete s
  | .galvoDriftCheck n => Sys2Proof.Machine.execGalvoDriftCheck n s
  | .galvoDriftDone n => Sys2Proof.Machine.execGalvoDriftDone n s
  | .telemetrySnapshot writeOk => Sys2Proof.Machine.execTelemetrySnapshot writeOk s
  | .wearSave => Sys2Proof.Machine.execWearSave s
  | .wearSaveNow b v => Sys2Proof.Machine.execWearSaveNow b v s
  | .wearCapture b v => Sys2Proof.Machine.execWearCapture b v s
  | .logStoreWrite => Sys2Proof.Machine.execLogStoreWrite s
  | .logWriteRetry => Sys2Proof.Machine.execLogWriteRetry s
  | .adcConversion c req raw => Sys2Proof.Machine.execAdcConversion c req raw s
  | .adcCalibrationStart c => Sys2Proof.Machine.execAdcCalibrationStart c s
  | .adcCalibrationEnd c ofs gain => Sys2Proof.Machine.execAdcCalibrationEnd c ofs gain s
  | .seqEccUncorrectable n => Sys2Proof.Machine.execSeqEccUncorrectable n s
  | .enclaveFault => Sys2Proof.Machine.execEnclaveFault s
  | .entropyRecovery => Sys2Proof.Machine.execEntropyRecovery s
  | .rtcEdgeLatch => Sys2Proof.Machine.execRtcEdgeLatch s
  | .laserReadyEdge n level => Sys2Proof.Machine.execLaserReadyEdge n level s
  | .laserAlarmClear n => Sys2Proof.Machine.execLaserAlarmClear n s
  | .modulationPulseBoundary n pinBad => Sys2Proof.Machine.execModulationPulseBoundary n pinBad s
  | .logWriteVerify ok => Sys2Proof.Machine.execLogWriteVerify ok s

end Sys2Proof.Machine
end

