-- ==== Sys2Proof/Safety.lean ====
section
/-! DEFINITION. What a safe run is: the safe state as the spec describes it (R424, R426); and the terms claims about the
block use. -/
namespace Sys2Proof.Machine

/-- The beam and the strobes are off: no gate and no strobe is driven on (R424). -/
def State.outputsDark (s : State) : Prop := s.pins.gate = 0 ∧ s.pins.strobe = 0

/-- The outputs of the safe state (R424): gates and strobes off, enables not asserted, SAFE_OUT low. -/
def State.isSafe (s : State) : Prop := s.outputsDark ∧ s.pins.safeOut = false

/-- A page takes a write of `v` at offset `off` from master `b`: its domain is on (R44), and neither the page's rights nor
a role rule refuses it (R50, R53). -/
def State.takes (s : State) (b : Bus) (p : Page) (off : Nat) (v : Word) : Prop :=
  s.powered p = true ∧ s.mayWrite b.role p off v = true

/-- The state with the normal response a write that reaches its register gets (R51, R537). -/
def State.ok (s : State) : State := s.respond false 0

/-- The enclave takes request `op` of slot `k`: its write is taken, the slot is free, the enclave in service, and the block at
`a` readable with that write's role, its inputs `args` (R378). -/
structure State.asks (s : State) (b : Bus) (k op a : Nat) (args : List Byte) : Prop where
  takes : s.takes b .sec (0x108 + 0x10 * k) (BitVec.ofNat 32 op)
  free : s.reqBusy k = false
  inService : s.sec.enclaveOk = true
  block : s.reqBlock k b.role = some (a, args)

/-- A request answered (R378): outputs over the block from its second word, then the slot's status. -/
def State.answered (s : State) (k op a res : Nat) (out : List Byte) : State :=
  ((s.wrMem (a + 4) out).reqDone k op res out.length).secShow

/-- A request that waits for its store write, RESULT busy (R378, R386). -/
def State.storing (s : State) (k op a : Nat) (kind : StoreKind) (payload : List Byte) : State :=
  (((s.storePush kind payload (some k)).wrMem (a + 4) []).reqStat k op 1 0).secShow

/-- The nonce of slot `k` used up (R380). -/
def State.nonceUsed (s : State) (k : Nat) : State := { s with sec := { s.sec with nonces := tabPut none s.sec.nonces k none } }

/-- A token for slot `k` verifies (R380): the slot's nonce, at most 60 s old, is signed with UID and `rest` under `key`. -/
def State.signed (s : State) (k : Nat) (tag rest sig key : List Byte) : Prop :=
  ∃ n, tabGet none s.sec.nonces k = some n ∧ s.now - n.at_ < 60 * secT ∧
    ecdsaOk key (sha256 (tag ++ s.otpBytes 0 16 ++ n.value ++ rest)) sig = true

/-- From `s`, a wake source with cause bit `c` (R485, R486): in a low-power state the wake begins, the banks are checked and the
start-up taken from the rails; while ENTERING it is recorded; while already waking its cause joins; a held request for a
low-power state is discarded. -/
structure State.wakes (c : Nat) (s t : State) : Prop where
  begins : s.pwrPhase ≠ 2 → s.pwrPhase ≠ 3 → 2 ≤ s.pwrState → t.pwrPhase = 3 ∧ t.pwr.bootStep = 2 ∧ t.pwr.phase = .idle ∧
    t.rdb Reg.pwrWakeCause c = true ∧ t.rdf Reg.pwrWakeCause 14 12 = s.pwrState ∧
    (t.rdb Reg.pwrWakeCause 8 = true ↔ t.rd Reg.pwrRetLost ≠ 0) ∧
    ∀ b, b < 8 → t.rdb Reg.pwrRetLost b = false → s.bankCrc b = s.rd (Reg.pwrRetCrc b)
  recorded : s.pwrPhase = 2 → t.pwrPhase = 2 ∧ t.pwr.phase = s.pwr.phase ∧ ∃ w, t.pwr.wake = some w ∧ w.getLsbD c = true
  joins : s.pwrPhase = 3 → t.pwrPhase = 3 ∧ t.pwr = s.pwr ∧ t.rdb Reg.pwrWakeCause c = true ∧
    ∀ k, k < 9 → s.rdb Reg.pwrWakeCause k = true → t.rdb Reg.pwrWakeCause k = true
  discards : (s.pwrPhase = 2 ∨ (s.pwrPhase ≠ 3 ∧ 2 ≤ s.pwrState)) → s.rdb Reg.pwrStat 12 = true → 2 ≤ s.rdf Reg.pwrStat 11 9 →
    t.rdb Reg.pwrStat 12 = false ∧ t.rdb Reg.pwrStat 13 = true

/-- A page is not locked: its RWL fields can be written (R54). -/
def State.unlocked (s : State) (p : Page) : Prop := s.rdb (Reg.pgLock p) 0 = false

/-- A command answers a next state, and it is the one a claim describes. -/
def Completes (c : Instr) (s : State) (good : State → Prop) : Prop := ∃ t, exec c s = .next t ∧ good t

/-- Every byte of memory reads as before. -/
def sameMem (s t : State) : Prop := ∀ a, t.rdByte a = s.rdByte a

/-- Every register outside a set reads as before. -/
def sameRegsBut (s t : State) (but : Nat → Prop) : Prop := ∀ a, ¬ but a → t.rd a = s.rd a

/-- Nothing but registers of a set and the state of the fault collector changes. -/
structure Leaves (R : Nat → Prop) (s t : State) : Prop where
  rest : { t with regs := s.regs, flt := s.flt } = s
  rd : ∀ a, ¬ R a → t.rd a = s.rd a

/-- The registers an event writes: PG_STAT of any page; of the fault collector's page, the interrupt status and the block
registers. -/
def evRegs (a : Nat) : Prop := a % 4096 = 0x14 ∨ a / 4096 = 0x40050 ∧ (a % 4096 = 0x20 ∨ 0x40 ≤ a % 4096)

/-- The registers a soot bit of a page writes: its header's soot, stamp, interrupt status and error count, and the registers
of an event. -/
def sootRegs (p : Page) (a : Nat) : Prop :=
  evRegs a ∨ a / 4096 = pagePfn p ∧ (a % 4096 = 0x18 ∨ a % 4096 = 0x20 ∨ a % 4096 = 0x28 ∨ a % 4096 = 0x34 ∨ a % 4096 = 0x38)

end Sys2Proof.Machine
end

