-- ==== Sys2Proof/WellFormed.lean ====
section
/-! DEFINITION. Which commands are well formed: operands the types leave too wide. -/
namespace Sys2Proof

/-- An access size of a bus: 1, 2, 4 or 8 bytes. -/
def accessSizes : List Nat := [1, 2, 4, 8]

/-- A DRAM request asks for at least one byte inside the 8 GiB window at 0x08_0000_0000 (R295), and a write carries the
bytes it says it writes. -/
def DramReq.wf (r : DramReq) : Bool :=
  decide (0 < r.len) && decide (0x800000000 ≤ r.addr.toNat) && decide (r.addr.toNat + r.len ≤ 0xA00000000) &&
    (r.data.isEmpty || r.data.length == r.len)

/-- The checks of a command's operands. -/
def Instr.wf : Instr → Bool
  | .registerWrite _ _ size _ => accessSizes.contains size
  | .readbackCheck _ rx => decide (rx.length ≤ 3072)
  | .dramTransaction ready _ => ready.all DramReq.wf
  | .ethFrameReceive _ frame _ _ => decide (0 < frame.length) && decide (frame.length ≤ 2048)
  | .recoveryHello f => decide (f.length ≤ 4096)
  | .recoveryHeader f => decide (f.length ≤ 4096)
  | .recoveryData f => decide (f.length ≤ 4096)
  | .recoveryRun f => decide (f.length ≤ 4096)
  | .domainSwitchOn d => d.val != 0
  | .domainSwitchFail d => d.val != 0
  | .heldDomainOff d => d.val != 0
  | .fgDomainReapply d => d.val != 0
  | _ => true

end Sys2Proof
end

