-- ==== Sys2Proof/Certificates/Slice0/Obligations.lean ====
section
/-! DEFINITION. The statements for the provers. -/
open Sys2Proof Sys2Proof.Machine

/-! ### The block as a whole -/

/-- With a command at the front of the queue, a step is that command run on the state with the queue's rest. -/
def Obligations.StepRunsTheFrontCommand : Prop :=
  ∀ (c : Instr) (rest : List Instr) (s : State), step { s with pending := c :: rest } = exec c { s with pending := rest }

/-- With nothing waiting a step is one tick of the clock, and queues nothing (the model's choice, log entry 3). -/
def Obligations.StepIdlesWithATick : Prop :=
  ∀ s : State, s.pending = [] → step s = .next s.tick ∧ s.tick.pending = []

/-- The reset state: nothing waits, every table and memory is canonical, every register reads its reset value, every byte
of memory reads blank, every switched domain is off. -/
def Obligations.ResetState : Prop :=
  State.reset.pending = [] ∧ State.reset.wf = true ∧ (∀ a, State.reset.rd a = resetOf a) ∧
  (∀ a, State.reset.rdByte a = memBlank) ∧ (∀ d : Fin 13, State.reset.domOn d.val = decide (d.val = 0))

/-- The reset values the chapters give to registers of the header, of ROOT, of the line interface and of the power unit;
and the default rights of every page, as OWNER_MASK, READ_MASK and WRITE_MASK of R52. -/
def Obligations.ResetValuesTheSpecGives : Prop :=
  resetOf Reg.rootDevid = 0x481615C3 ∧ resetOf Reg.rootDirSize = 0x100 ∧ resetOf Reg.rootAcvCount = 0 ∧
  resetOf Reg.linPolicy = 0xFFFFFFFD ∧ resetOf Reg.linMapPd1 = 0xFEDCBA98 ∧
  (∀ e : Fin 8, resetOf (Reg.linEncCfg e.val) = 0x06404010) ∧ (∀ j : Fin 16, resetOf (Reg.linRejLen j.val) = 1) ∧
  (∀ p ∈ allPages, resetOf (Reg.pgCtrl p) = 0 ∧ resetOf (Reg.pgStat p) = 0 ∧ resetOf (Reg.pgSoot p) = 0 ∧
    resetOf (Reg.pgSootMask p) = 0xFFFFFFFF ∧ resetOf (Reg.pgIrqStat p) = 0 ∧ resetOf (Reg.pgIrqEn p) = 0 ∧
    resetOf (Reg.pgErrcnt p) = 0 ∧ resetOf (Reg.pgLock p) = 0) ∧
  (∀ p ∈ allPages, fld (resetOf (Reg.pgAcl p)) 15 8 = (pageAcl p).1 ∧ fld (resetOf (Reg.pgAcl p)) 7 0 = (pageAcl p).2.1 ∧
    fld (resetOf (Reg.pgAcl p)) 23 16 = (pageAcl p).2.2)

/-- Every step keeps the canonical form of the registers, of the memory and of the boot flash. -/
def Obligations.EveryStepKeepsTheCanonicalForm : Prop :=
  ∀ s t : State, s.wf = true → step s = .next t → t.wf = true

/-- Every step takes the command at the front of the queue and no other, adds none, writes no boot flash, and only uses up
free values. -/
def Obligations.EveryStepTakesOneCommand : Prop :=
  ∀ s t : State, step s = .next t → t.pending = s.pending.tail ∧ t.flash = s.flash ∧ s.free ≤ t.free

/-- No command but a register access answers anything but a next state; a register access answers one too, unless it
reaches a block register of SYS or of a host I/O page, which the spec names and gives no map (log entry 13). -/
def Obligations.OnlyUnmappedRegistersStop : Prop :=
  ∀ (c : Instr) (s : State), (∃ t, exec c s = .next t) ∨
    (∃ p off, exec c s = .refused (.noRegisterMap p off) ∧ noMap p = true ∧ 0x40 ≤ off)

/-! ### Register pages, roles and locks (spec/02; spec/01 for the stations' configuration) -/

/-- An access of register space of another size than a word, or not aligned to one, is answered with an error response and
changes nothing else. -/
def Obligations.MisalignedAccessChangesNothing : Prop :=
  ∀ (b : Bus) (a : BitVec 40) (size : Nat) (v : Word) (s : State), inMemMap a.toNat = false → (size ≠ 4 ∨ a.toNat % 4 ≠ 0) →
    exec (.registerWrite b (.addr a) size v) s = .next (s.respond true 0)

/-- A register write to a page whose domain is off is answered with an error response and changes nothing else: nothing is
recorded as refused. -/
def Obligations.PoweredOffPageChangesNothing : Prop :=
  ∀ (b : Bus) (a : BitVec 40) (v : Word) (p : Page) (s : State), inMemMap a.toNat = false → a.toNat % 4 = 0 →
    pageAt (a.toNat / 4096) = some p → s.powered p = false →
    exec (.registerWrite b (.addr a) 4 v) s = .next (s.respond true 0)

/-- A register write that its page's rights or a role rule refuse is recorded in ROOT, and does what its chapter says of
such a write (log entry 45), and changes no byte of memory. -/
def Obligations.RoleRefusalIsRecorded : Prop :=
  ∀ (b : Bus) (a : BitVec 40) (v : Word) (p : Page) (s : State), inMemMap a.toNat = false → a.toNat % 4 = 0 →
    ¬ (0x40001000 ≤ a.toNat ∧ a.toNat < 0x40001800) → ¬ (0x0C000000 ≤ a.toNat ∧ a.toNat < 0x10000000) →
    pageAt (a.toNat / 4096) = some p → s.powered p = true → s.mayWrite b.role p (a.toNat % 4096) v = false →
    exec (.registerWrite b (.addr a) 4 v) s = .next (s.refuseWrite b p (a.toNat % 4096) v) ∧
    sameMem s (s.refuseWrite b p (a.toNat % 4096) v)

/-- The record of a refused access: an error response of 0; the log of ROOT filled where VALID was clear and kept where it
was set; the count one up, saturating; then the event of Fireguard's source 254. -/
def Obligations.RefusalRecord : Prop :=
  ∀ (b : Bus) (a : Nat) (write : Bool) (s : State), ∃ t, s.refuse b a write = t.srcEvent 254 ∧
    t.resp = ⟨true, 0⟩ ∧ sameMem s t ∧ t.pending = s.pending ∧
    t.rdf Reg.rootAcvCount 15 0 = min 0xFFFF (s.rdf Reg.rootAcvCount 15 0 + 1) ∧ t.rdb Reg.rootAcvCount 31 = true ∧
    (s.rdb Reg.rootAcvCount 31 = true → t.rd Reg.rootAcvAddrLo = s.rd Reg.rootAcvAddrLo ∧ t.rd Reg.rootAcvInfo = s.rd Reg.rootAcvInfo) ∧
    (s.rdb Reg.rootAcvCount 31 = false → t.rd Reg.rootAcvAddrLo = BitVec.ofNat 32 a ∧
      t.rdf Reg.rootAcvInfo 10 8 = roleBit b.role ∧ t.rdb Reg.rootAcvInfo 11 = write ∧
      t.rdf Reg.rootAcvInfo 19 12 = b.master.toNat ∧ t.rd Reg.rootAcvStampLo = BitVec.ofNat 32 s.now) ∧
    sameRegsBut s t (fun r => r = Reg.rootAcvCount ∨ r = Reg.rootAcvAddrLo ∨ r = Reg.rootAcvInfo ∨
      r = Reg.rootAcvStampLo ∨ r = Reg.rootAcvStampHi)

/-- A soot bit that is set: it reads 1 and the page's other bits stay, the stamp is the present tick, SOOT_IRQ is raised, the
error count goes up (unless the page's statistics are frozen), saturating; beside the page's header only the event of its
source changes anything, and none happens for a masked bit; with the page's domain off nothing is set. -/
def Obligations.SootBitSets : Prop :=
  ∀ (p : Page) (k : Nat) (s : State), k < 32 →
    (s.powered p = false → s.soot p k = s) ∧
    (s.powered p = true →
      (∀ i, i < 32 → (s.soot p k).rdb (Reg.pgSoot p) i = (s.rdb (Reg.pgSoot p) i || i == k)) ∧
      (s.soot p k).rd (Reg.pgStampLo p) = BitVec.ofNat 32 s.now ∧
      (s.soot p k).rdb (Reg.pgIrqStat p) 31 = true ∧
      (s.rdb (Reg.pgCtrl p) 2 = false →
        (s.soot p k).rdf (Reg.pgErrcnt p) 15 0 = min 0xFFFF (s.rdf (Reg.pgErrcnt p) 15 0 + 1)) ∧
      Leaves (sootRegs p) s (s.soot p k)) ∧
    (s.powered p = true → s.rdb (Reg.pgSootMask p) k = false → (s.soot p k).flt = s.flt)

/-- The commands on a page's header, taken: rights, locks, error counts, soot, and the plain header registers. -/
def Obligations.HeaderCommands : Prop :=
  ∀ (b : Bus) (p : Page) (v : Word) (s : State),
    (s.takes b p 0x0C v → s.unlocked p →
      exec (.aclWrite b p v) s = .next (s.ok.wrf (Reg.pgAcl p) 15 0 (fld v 15 0 ||| 0x100))) ∧
    (s.takes b p 0x0C v → s.rdb (Reg.pgLock p) 0 = true →
      exec (.aclWrite b p v) s = .next (s.ok.wrb (Reg.pgLock p) 8 true)) ∧
    (s.takes b p 0x28 0x80000000 → exec (.errcntClear b p) s = .next (s.ok.wrf (Reg.pgErrcnt p) 15 0 0)) ∧
    (s.takes b p 0x30 v → bit v 0 = true → bit v 8 = false →
      exec (.pageLock b p v) s = .next (s.ok.wrb (Reg.pgLock p) 0 true)) ∧
    (s.takes b p 0x30 v → bit v 0 = false → bit v 8 = true →
      exec (.pageLock b p v) s = .next (s.ok.wrb (Reg.pgLock p) 8 false)) ∧
    (s.takes b p 0x18 v → exec (.sootClear b p v 0) s =
      .next ((s.ok.wr (Reg.pgSoot p) (s.rd (Reg.pgSoot p) &&& ~~~v)).pinsOf p))

/-- Enabling, disabling and resetting a unit: ENABLE = 1 on a page that meets the conditions turns the unit on; ENABLE = 0
turns it off and SOFT_RESET resets it, unless a mark holds them; a held control is applied once the mark is over. -/
def Obligations.UnitControls : Prop :=
  ∀ (b : Bus) (p : Page) (v : Word) (s : State),
    (s.takes b p 0x10 v → bit v 0 = true → bit v 1 = false → s.enabled p = false →
      let u := (s.ok.wrb (Reg.pgCtrl p) 2 (bit v 2)).wrb (Reg.pgCtrl p) 3 (bit v 3)
      u.enabled p = false → u.pageEnableOk p = true →
      exec (.unitEnable b p v) s = .next ((u.wrb (Reg.pgCtrl p) 0 true).unitOn p)) ∧
    (s.takes b p 0x10 v → bit v 0 = false → bit v 1 = false →
      let u := (s.ok.wrb (Reg.pgCtrl p) 2 (bit v 2)).wrb (Reg.pgCtrl p) 3 (bit v 3)
      u.enabled p = true → 
      exec (.unitEnable b p v) s = .next (if u.ctrlHeld p then u.holdCtrl p false else (u.wrb (Reg.pgCtrl p) 0 false).unitOff p)) ∧
    (s.takes b p 0x10 v →
      let u := (s.ok.wrb (Reg.pgCtrl p) 2 (bit v 2)).wrb (Reg.pgCtrl p) 3 (bit v 3)
      exec (.softReset b p v) s =
        .next (((if u.ctrlHeld p then u.holdCtrl p true else (u.clearCounters p).unitReset p)).enableWrite p (bit v 0))) ∧
    (∀ n : Fin 16, s.marking n.val = false →
      let u := s.updChan n.val (fun c => { c with heldDisable := [], heldReset := [] })
      let w := forL (s.chan n.val).heldReset (fun k s => s.softReset (chPage n.val k)) u
      exec (.heldControlApply n) s =
        .next ((forL (s.chan n.val).heldDisable (fun k s => s.disableNow (chPage n.val k)) w).chanShow n.val))

/-- The registers of ROOT that act: software interrupts set and cleared, the log of refusals cleared. -/
def Obligations.RootCommands : Prop :=
  ∀ (b : Bus) (v : Word) (s : State),
    (s.takes b .root 0x60 v → exec (.swiSet b v) s =
      .next (s.ok.wrf Reg.rootSwiStat 15 0 (s.rdf Reg.rootSwiStat 15 0 ||| fld v 15 0))) ∧
    (s.takes b .root 0x64 v → exec (.swiClr b v) s =
      .next (s.ok.wr Reg.rootSwiStat (s.rd Reg.rootSwiStat &&& ~~~(BitVec.ofNat 32 (fld v 15 0))))) ∧
    (b.role ≠ .debug → s.domOn 4 = true → s.takes b .root 0x60 v ∧ s.takes b .root 0x64 v) ∧
    (b.role = .debug → ¬ s.takes b .root 0x60 v ∧ ¬ s.takes b .root 0x64 v) ∧
    (s.takes b .root 0x58 0x80000000 → ∃ t, exec (.acvLogClear b) s = .next t ∧ sameMem s t ∧
      t.rd Reg.rootAcvCount = 0 ∧ t.rd Reg.rootAcvAddrLo = 0 ∧ t.rd Reg.rootAcvInfo = 0 ∧ t.rd Reg.rootAcvStampLo = 0 ∧
      t.rd Reg.rootAcvStampHi = 0 ∧
      sameRegsBut s t (fun r => r = Reg.rootAcvCount ∨ r = Reg.rootAcvAddrLo ∨ r = Reg.rootAcvInfo ∨
        r = Reg.rootAcvStampLo ∨ r = Reg.rootAcvStampHi))

/-- A register write that its page takes: the interrupt enables take the value, the interrupt status clears where a 1 is
written, a register that only reads keeps; a byte-sized to doubleword-sized write of memory that a region lets the role make
stores the value's bytes in little-endian order there and nowhere else (the model's reading, log entry 47). -/
def Obligations.PlainWrites : Prop :=
  (∀ (b : Bus) (a : BitVec 40) (v : Word) (p : Page) (s : State), inMemMap a.toNat = false → a.toNat % 4 = 0 →
    ¬ (0x40001000 ≤ a.toNat ∧ a.toNat < 0x40001800) → ¬ (0x0C000000 ≤ a.toNat ∧ a.toNat < 0x10000000) →
    pageAt (a.toNat / 4096) = some p → s.takes b p (a.toNat % 4096) v →
    (a.toNat % 4096 = 0x24 → exec (.registerWrite b (.addr a) 4 v) s = .next (s.ok.wr (Reg.pgIrqEn p) v)) ∧
    (a.toNat % 4096 = 0x20 → exec (.registerWrite b (.addr a) 4 v) s =
      .next (s.ok.wr (Reg.pgIrqStat p) (s.rd (Reg.pgIrqStat p) &&& ~~~v))) ∧
    (a.toNat % 4096 < 0x0C ∨ a.toNat % 4096 = 0x14 ∨ a.toNat % 4096 = 0x2C ∨ 0x34 ≤ a.toNat % 4096 ∧ a.toNat % 4096 < 0x40 →
      exec (.registerWrite b (.addr a) 4 v) s = .next s.ok)) ∧
  (∀ (b : Bus) (a : BitVec 40) (size : Nat) (v : Word) (s : State), size ∈ accessSizes → inMemMap a.toNat = true →
    (dramBase ≤ a.toNat → s.inDram a.toNat size = true) → s.memFault b.role true a.toNat size = none →
    ∃ t, exec (.registerWrite b (.addr a) size v) s = .next t ∧ t.resp = ⟨false, 0⟩ ∧ (∀ r, t.rd r = s.rd r) ∧
      (∀ i, i < size → t.rdByte (a.toNat + i) = (leBytes size v.toNat).getD i 0) ∧
      (∀ c, c < a.toNat ∨ a.toNat + size ≤ c → t.rdByte c = s.rdByte c))

/-- Station configuration and the check of a TSC copy: a configuration write is applied where the members' tables are empty
and the rules hold, and is refused with the station's soot bit elsewhere; a copy that differs from the TSC sets TSC_COPY. -/
def Obligations.StationConfigAndTscCopy : Prop :=
  (∀ (b : Bus) (k : Fin 8) (off : BitVec 12) (v : Word) (s : State), s.takes b (.stn k) off.toNat v → s.unlocked (.stn k) →
    off.toNat ≠ 0x40 →
    let u := s.ok.plainWrite (0x40380000 + 0x1000 * k.val + off.toNat) v
    exec (.stationConfigWrite b k off v) s =
      .next (if s.ok.stnEmpty k.val = true ∧ u.stnEmpty k.val = true ∧ (off.toNat < 0x800 ∨ u.stnValid k.val = true) then u.stnShowMembers k.val
        else s.ok.soot (.stn k) 0)) ∧
  (∀ (i : Fin 16) (copy : BitVec 64) (s : State),
    (s.powered .tim = true → copy ≠ s.stamp → exec (.tscCopyCheck i copy) s = .next (s.soot .tim 0)) ∧
    (copy = s.stamp → exec (.tscCopyCheck i copy) s = .next s))

/-! ### The line interface (spec/03) -/

/-- LIN_POLICY resets to 0xFFFF_FFFD; a write of it takes the policy bits, with bit 0 and bits [31:16] reading 1, and only
OWNER makes one; a policy bit is what the decision asks of a bound channel's verdict, and PENDING always rejects. -/
def Obligations.RejectPolicy : Prop :=
  resetOf Reg.linPolicy = 0xFFFFFFFD ∧
  (∀ (b : Bus) (v : Word) (s : State), s.takes b .lin 0x4C v →
    exec (.policyWrite b v) s = .next (s.ok.wr Reg.linPolicy (v ||| 0xFFFF0001))) ∧
  (∀ (b : Bus) (v : Word) (s : State), s.powered .lin = true → s.rdf (Reg.pgAcl .lin) 7 0 = (pageAcl .lin).2.1 →
    (s.takes b .lin 0x4C v ↔ b.role = .owner)) ∧
  (∀ (b : Bus) (v : Word) (s : State), s.powered .lin = true → b.role ≠ .owner →
    exec (.policyWrite b v) s = .next (s.refuseWrite b .lin 0x4C v)) ∧
  (∀ (v : Word) (s : State), (s.wr Reg.linPolicy (v ||| 0xFFFF0001)).rdb Reg.linPolicy 0 = true) ∧
  (∀ (s : State) (x : TrkEntry) (n : Fin 16), x.bind = BitVec.ofNat 16 (2 ^ n.val) → x.force = false →
    (s.trkDecide x).1 = s.rdb Reg.linPolicy (x.verdict.toNat / 2 ^ (4 * n.val) % 16))

/-- The line interface's registers that act, taken: the next product ID, the peak of the table, the request pin, the maps,
and the capture of a tracking entry. -/
def Obligations.LineRegisters : Prop :=
  ∀ (b : Bus) (v : Word) (s : State),
    (s.takes b .lin 0x48 v → s.unlocked .lin → exec (.pidNextWrite b v) s =
      .next (if s.rdf Reg.linStat 12 0 = 0 then s.ok.wr Reg.linPidNext (if v = 0 then 1 else v) else s.ok.soot .lin 12)) ∧
    (s.takes b .lin 0x44 v → exec (.trkPeakClear b v) s =
      .next (if bit v 31 then s.ok.wrf Reg.linTrkPeak 12 0 0 else s.ok)) ∧
    (s.takes b .lin 0x50 v → s.domOn 4 = true → bit v 8 = true → ∃ t, exec (.lsrCtrlWrite b v) s = .next t ∧
      t.lin.lsrDriven = true ∧ t.pins.lsr = bit v 16 ∧ t.rd Reg.linLsrCtrl &&& 0xFF01011F = v &&& 0xFF01011F ∧ sameMem s t ∧
      sameRegsBut s t (fun r => r = Reg.linLsrCtrl)) ∧
    (∀ m : LinMap, s.takes b .lin (mapReg m % 4096) v → s.unlocked .lin → (∀ k, k < 8 → s.rdb (mapUnit m k) 0 = false) →
      exec (.mapWrite b m v) s = .next (if ((List.range 16).map (s.ok.plainWrite (mapReg m) v).mapRej).eraseDups.length = 16
        then s.ok.plainWrite (mapReg m) v else s.ok.soot .lin 12)) ∧
    (s.takes b .lin 0x64 v → ∃ t, exec (.trkSelCapture b v) s = .next t ∧
      t.rd (Reg.linTrkD 0) = (s.trk (fld v 11 0)).productId ∧ t.rd (Reg.linTrkD 2) = (s.trk (fld v 11 0)).birthStamp.truncate 32 ∧
      t.rdb (Reg.linTrkD 1) 8 = (s.trk (fld v 11 0)).valid ∧ t.rdf (Reg.linTrkD 1) 31 16 = (s.trk (fld v 11 0)).bind.toNat ∧
      t.rd (Reg.linTrkD 6) = (s.trk (fld v 11 0)).birthPos ∧ t.rd (Reg.linTrkD 7) = (s.trk (fld v 11 0)).rejectPos ∧
      t.lin = s.lin ∧ sameMem s t ∧ sameRegsBut s t (fun r => r = Reg.linTrkSel ∨ ∃ k, k < 8 ∧ r = Reg.linTrkD k))

/-- Writes of the CFG registers: of a disabled unit the write is taken (a filter width of 0 as 1; an encoder starts from the
levels present; an input's and an output's own conditions refuse it), of an enabled one it can only clear EN; and the forcing
of a product. -/
def Obligations.LineConfiguration : Prop :=
  ∀ (b : Bus) (v : Word) (s : State), s.unlocked .lin →
    (∀ (e : Fin 8) (a c z : Bool), s.takes b .lin (0x100 + 0x40 * e.val) v → s.encOn e.val = false → bit v 0 = true →
      exec (.encoderEnable b e v a c z) s = .next ((s.ok.plainWrite (Reg.linEncCfg e.val) (filtFix v 11 4)).updEnc e.val
        (fun x => { x with a := a, b := c, z := z, stamps := [], vel := 0, acc := 0, frozen := 0, started := false }))) ∧
    (∀ (i : Fin 16), s.takes b .lin (0x400 + 0x20 * i.val) v → s.rdb (Reg.linPdCfg i.val) 0 = false → bit v 0 = true →
      s.encIdOff (fld v 13 10) = true → exec (.pdEnable b i v) s = .next (s.ok.soot .lin 12)) ∧
    (∀ (i : Fin 16), s.takes b .lin (0x400 + 0x20 * i.val) v → s.rdb (Reg.linPdCfg i.val) 0 = false → bit v 0 = true →
      s.encIdOff (fld v 13 10) = false → s.rdf (Reg.linPdBind i.val) 23 0 = 0 →
      exec (.pdEnable b i v) s = .next ((s.ok.plainWrite (Reg.linPdCfg i.val) (filtFix v 9 2)).updPd i.val
        (fun x => { x with edge := none, active := x.active != (bit v 1 != s.rdb (Reg.linPdCfg i.val) 1),
                           activePos := s.warpInt (fld v 13 10) }))) ∧
    (∀ (j : Fin 16), s.takes b .lin (0x600 + 0x20 * j.val) v → s.rejOn j.val = false → fld v 3 2 = 3 →
      exec (.rejectOutputConfig b j v) s = .next (s.ok.soot .lin 12)) ∧
    (∀ (j : Fin 16), s.takes b .lin (0x600 + 0x20 * j.val) v → s.rejOn j.val = false → fld v 3 2 ≠ 3 →
      let u := s.ok.plainWrite (Reg.linRejCfg j.val) v
      exec (.rejectOutputConfig b j v) s = .next
        ((u.updRej j.val (fun x => { x with safeHeld := u.deviceSafe && bit v 0, cmpArmed := ! u.warpAt (fld v 11 8) (u.rd (Reg.linRejCmpPos j.val)) })).rejUpdate j.val)) ∧
    (∀ (e : Fin 8), s.takes b .lin (0x100 + 0x40 * e.val) v → s.encOn e.val = true → bit v 0 = true →
      exec (.linCfgDisable b (.enc e) v) s = .next (s.ok.soot .lin 12)) ∧
    (∀ (e : Fin 8), s.takes b .lin (0x100 + 0x40 * e.val) v → s.encOn e.val = true →
      v = setBit (s.rd (Reg.linEncCfg e.val)) 0 false → fld v 11 4 ≠ 0 →
      exec (.linCfgDisable b (.enc e) v) s = .next ((s.ok.wrb (Reg.linEncCfg e.val) 0 false).encOff e.val)) ∧
    (s.takes b .lin 0x54 v → (∀ e ∈ s.lin.trk, ¬ (e.2.valid = true ∧ e.2.productId = v)) →
      exec (.forcePid b v) s = .next (s.ok.wrf Reg.linForceRes 1 0 2)) ∧
    (∀ (t : Nat) (x : TrkEntry), s.takes b .lin 0x54 v →
      s.lin.trk.find? (fun e => e.2.valid && e.2.productId == v) = some (t, x) → x.decided = false →
      exec (.forcePid b v) s = .next ((s.ok.setTrk t { x with force := true }).wrf Reg.linForceRes 1 0 1))

/-- Inputs accepted and positions read: each enabled logical encoder or input routed to a physical one takes the level it has
held for its filter's width, and no other unit changes; a count moves the warp by one in its direction, a phase error by two
in the direction of the last count; no count for STOP_T stops the encoder; a read of a position captures it whole. -/
def Obligations.EncodersAndInputs : Prop :=
  (∀ (i : LineInput) (held : Nat) (s : State), s.powered .lin = true →
    exec (.inputFilterAccept i held) s = .next (match i with
      | .enc p a b z => forN 8 (fun e u =>
          if u.mapEnc e = p.val ∧ u.rdf (Reg.linEncCfg e) 11 4 + 1 ≤ held then u.encAccept e a b z (s.now - held) else u) s
      | .pd p level => forN 16 (fun k u =>
          if u.mapPd k = p.val ∧ u.rdf (Reg.linPdCfg k) 9 2 + 1 ≤ held then u.pdAccept k level (s.now - held) else u) s)) ∧
  (∀ (e : Nat) (down phase : Bool) (at_ : Nat) (s : State),
    ((s.encMove e down phase at_).1.enc e).warp =
      (if down then (s.enc e).warp - (if phase then 2 else 1) else (s.enc e).warp + (if phase then 2 else 1)) ∧
    ((s.encMove e down phase at_).1.enc e).tEdge = at_) ∧
  (∀ (e : Fin 8) (s : State), s.powered .lin = true → s.encOn e.val = true → s.rdb (Reg.linEncStat e.val) 0 = true →
    s.rdf (Reg.linEncCfg e.val) 31 20 * 100 * usT ≤ s.now - (s.enc e.val).tEdge →
    ∃ t, exec (.encoderStopTimeout e) s = .next t ∧ (t.enc e.val).vel = 0 ∧ (t.enc e.val).acc = 0 ∧
      (t.enc e.val).frozen = BitVec.ofNat 16 (s.encFrac e.val) ∧ (t.enc e.val).warp = (s.enc e.val).warp ∧
      t.rdb (Reg.linEncStat e.val) 0 = false ∧ sameMem s t ∧ sameRegsBut s t (fun r => r = Reg.linEncStat e.val)) ∧
  (∀ (b : Bus) (e : Fin 8) (s : State), s.powered .lin = true → inMask (s.rdf (Reg.pgAcl .lin) 15 8) b.role = true →
    ∃ t, exec (.encPosCapture b e) s = .next t ∧ t.rd (Reg.linEncPosFrac e.val) = BitVec.ofNat 32 (s.encPos e.val % 65536) ∧
      t.resp = ⟨false, t.rd (Reg.linEncPosFrac e.val)⟩ ∧
      t.rd (Reg.linEncPosLo e.val) = BitVec.ofNat 32 (s.encPos e.val / 65536) ∧ t.rd (Reg.linEncVel e.val) = (s.enc e.val).vel ∧
      t.rd (Reg.linEncAcc e.val) = (s.enc e.val).acc ∧ t.rd (Reg.linEncSnapLo e.val) = BitVec.ofNat 32 s.now ∧
      t.lin = s.lin ∧ sameMem s t) ∧
  (∀ (b : Bus) (v : Fin 8) (s : State), s.powered .lin = true → inMask (s.rdf (Reg.pgAcl .lin) 15 8) b.role = true →
    ∃ t, exec (.vencPosCapture b v) s = .next t ∧
      t.rd (Reg.linVencPosFrac v.val) = BitVec.ofNat 32 (s.warpFix (8 + v.val) % 65536) ∧
      t.rd (Reg.linVencPosLo v.val) = BitVec.ofNat 32 (s.warpFix (8 + v.val) / 65536) ∧ t.lin = s.lin ∧ sameMem s t)

/-- Products: an input that has stayed active for PD_MIN_LEN qualifies its product; with a free entry the product takes the
next ID, which moves on past 0xFFFF_FFFF to 1, and no other entry changes; with none it is counted unrecorded; an input
active for longer than PD_MAX_LEN is stuck. -/
def Obligations.Products : Prop :=
  (∀ (i : Fin 16) (e : PdEdge) (s : State), (s.pd i.val).edge = some e → s.powered .lin = true →
    s.rdb (Reg.linPdCfg i.val) 0 = true → (s.pd i.val).active = true → s.rdb (Reg.linPdMaxLen i.val) 31 = false →
    (s.rdf (Reg.linPdMinLen i.val) 23 0 : Int) ≤ s.sinceEdge i.val e.pos →
    exec (.productQualify i) s = .next (s.qualify i.val e)) ∧
  (∀ p : Word, pidAfter p ≠ 0 ∧ (p ≠ 0xFFFFFFFF → pidAfter p = p + 1) ∧ pidAfter 0xFFFFFFFF = 1) ∧
  (∀ (i t : Nat) (e : PdEdge) (s u : State), s.trkTake = some (t, u) →
    let w := s.qualify i e
    (w.trk t).productId = s.rd Reg.linPidNext ∧ (w.trk t).valid = true ∧ (w.trk t).birthPos = e.pos.truncate 32 ∧
    (w.trk t).verdict = 0 ∧ w.rd Reg.linPidNext = pidAfter (s.rd Reg.linPidNext) ∧ ∀ x, x ≠ t → w.trk x = s.trk x) ∧
  (∀ (i : Nat) (e : PdEdge) (s : State), s.trkTake = none → s.frozen Reg.linCntUnrec = false → (s.qualify i e).lin.trk = s.lin.trk ∧
    (s.qualify i e).rd Reg.linPidNext = s.rd Reg.linPidNext ∧
    (s.qualify i e).rdf Reg.linCntUnrec 31 0 = satN 0xFFFFFFFF (s.rdf Reg.linCntUnrec 31 0 + 1)) ∧
  (∀ (s u : State) (t : Nat), s.trkTake = some (t, u) → u.lin.trk = s.lin.trk ∧ (s.lin.fresh < 4096 → t = s.lin.fresh) ∧
    (4096 ≤ s.lin.fresh → s.lin.freed = t :: u.lin.freed)) ∧
  (∀ s : State, s.trkTake = none ↔ 4096 ≤ s.lin.fresh ∧ s.lin.freed = []) ∧
  (∀ (i : Fin 16) (s : State), s.powered .lin = true → s.rdb (Reg.linPdCfg i.val) 0 = true → (s.pd i.val).active = true →
    s.rdf (Reg.linPdMaxLen i.val) 23 0 ≠ 0 → s.rdb (Reg.linPdMaxLen i.val) 31 = false →
    (s.rdf (Reg.linPdMaxLen i.val) 23 0 : Int) < s.sinceEdge i.val (s.pd i.val).activePos →
    exec (.pdStuck i) s = .next
      (((((s.wrb (Reg.linPdMaxLen i.val) 31 true).updPd i.val (fun x => { x with edge := none })).soot .lin 10).irq .lin 12).lsrUpdate))

/-- The gate: what each of its events does when its condition holds (the decision at REJECT_POS, the windows' and holds' ends,
the compare pulse, an entry's return to the free list, a mismatch of the pin, the end of the line-stop request's hold). -/
def Obligations.RejectGate : Prop :=
  (∀ (t : BitVec 12) (s : State), (s.trk t.toNat).valid = true → (s.trk t.toNat).decided = false →
    s.warpAt (s.trk t.toNat).enc.toNat (s.trk t.toNat).rejectPos = true → s.reversing (s.trk t.toNat).enc.toNat = false →
    (s.trkDecide (s.trk t.toNat)).2 = 0 → (s.trk t.toNat).rejUse = true →
    let x := s.trk t.toNat
    let j := x.rejOut.toNat
    let u := s.setTrk t.toNat { x with decided := true, rejected := (s.trkDecide x).1 }
    let w := if (s.trkDecide x).1 || (u.rejOn j && u.rejMode j == 2) then u.cnt (Reg.linRejCnt j) 15 0 else u.cnt (Reg.linRejCnt j) 31 16
    exec (.rejectDecision t) s = .next
      (if (s.trkDecide x).1 then w.rejOpen j ⟨x.enc, x.rejectPos + w.rejLen j, w.now + w.rejMin j, false⟩ else w)) ∧
  (∀ (t : BitVec 12) (s : State), (s.trk t.toNat).valid = true → (s.trk t.toNat).decided = true →
    (s.trk t.toNat).rejUse = true → s.windowPast (s.trk t.toNat) = true →
    exec (.trackingEntryFree t) s = .next (s.trkFree t.toNat)) ∧
  (∀ (j : Fin 16) (s : State), ∃ t, exec (.rejectWindowEnd j) s = .next t ∧ sameMem s t ∧
    (t.rej j.val).windows = (s.rej j.val).windows.filter (fun w =>
      ! (s.warpAt w.enc.toNat w.endPos && decide (w.notBefore ≤ s.now) && ! s.reversing w.enc.toNat)) ∧
    (t.rej j.val).holds = (s.rej j.val).holds) ∧
  (∀ (j e : Fin 16) (h : RejHold) (s : State), tabGet RejHold.reset (s.rej j.val).holds e.val = h → h.phase = .waiting →
    s.warpAt e.val h.start = true → exec (.rejectHoldStart j e) s = .next ((s.updRej j.val (fun x =>
      { x with holds := tabPut RejHold.reset x.holds e.val { h with phase := .asserting } })).rejUpdate j.val)) ∧
  (∀ (j e : Fin 16) (h : RejHold) (s : State), tabGet RejHold.reset (s.rej j.val).holds e.val = h → h.phase ≠ .idle →
    s.warpAt e.val h.stop = true → exec (.rejectHoldEnd j e) s = .next ((s.updRej j.val (fun x =>
      { x with holds := tabPut RejHold.reset x.holds e.val RejHold.reset })).rejUpdate j.val)) ∧
  (∀ (j : Fin 16) (s : State), s.rejOn j.val = true → s.rejMode j.val = 1 → (s.rej j.val).cmpArmed = true →
    s.warpAt (s.rdf (Reg.linRejCfg j.val) 11 8) (s.rd (Reg.linRejCmpPos j.val)) = true →
    exec (.comparePulse j) s = .next ((s.updRej j.val (fun x => { x with cmpArmed := false })).rejOpen j.val
      ⟨BitVec.ofNat 4 (s.rdf (Reg.linRejCfg j.val) 11 8), s.rd (Reg.linRejCmpPos j.val) + s.rejLen j.val,
        s.now + s.rejMin j.val, true⟩)) ∧
  (∀ (j : Fin 16) (pin : Bool) (s : State), s.powered .lin = true → s.rejLevel j.val ≠ pin →
    exec (.rejectMismatch j pin) s = .next (((((s.wrb (Reg.linRejStat j.val) 2 true).wrb (Reg.linRejStat j.val) 1 pin).soot
      .lin 9).irq .lin 11).lsrEvent 2)) ∧
  (∀ (n : Nat) (s : State), s.lin.lsrUntil = some n → n ≤ s.now →
    exec .lineStopHoldEnd s = .next { s with lin := { s.lin with lsrUntil := none } }.lsrUpdate) ∧
  (∀ (s : State) (j : Nat), s.rejOn j = false → s.rejLevel j = false)

/-! ### Mark jobs, stations and sequencers (spec/04; spec/01) -/

/-- The precedence of R20: of two conditions the one that stands first in its list is kept, whichever came first. -/
def Obligations.VerdictPrecedence : Prop :=
  let list : List (BitVec 4) := [0x9, 0x8, 0xA, 0x7, 0xC, 0xB, 0x6, 0xE, 0xF, 0x2, 0x3, 0x4, 0x5, 0xD, 0x1]
  (∀ (i k : Nat) (a b : BitVec 4), list[i]? = some a → list[k]? = some b → i ≤ k → condMax a b = a ∧ condMax b a = a) ∧
  (∀ a ∈ list, condMax 0 a = a ∧ condMax a 0 = a) ∧
  (∀ a b c : BitVec 4, condMax (condMax a b) c = condMax a (condMax b c)) ∧
  (∀ (s : State) (n j : Nat) (c : BitVec 4), (s.addCond n j c).job n j = { s.job n j with cond := condMax (s.job n j).cond c }) ∧
  (∀ (s : State) (n j : Nat), (s.job n j).st = .marking → (s.job n j).cond = 0 → (s.leaveJob n j .done).2.verdict = 1)

/-- A job's exit: its entry is free and no other entry of the channel has changed; its verdict is the condition it keeps, or
MARKED_OK for a DONE job that met none; RECORD_FULL joins the conditions where no slot is free for its record; another
channel's table is left alone. -/
def Obligations.JobExit : Prop :=
  ∀ (n : Fin 16) (j : Nat) (st : JobSt) (s : State),
    (s.leaveJob n.val j st).1.job n.val j = JobEntry.reset ∧
    (∀ k, k ≠ j → (s.leaveJob n.val j st).1.job n.val k = s.job n.val k) ∧
    (∀ (m k : Nat), m ≠ n.val → (s.leaveJob n.val j st).1.job m k = s.job m k) ∧
    (let held := (s.job n.val j).st = .armed ∨ (s.job n.val j).st = .marking ∨ s.recFree n.val = true
     let c := (s.job n.val j).cond
     (s.leaveJob n.val j st).2.st = st ∧
     (held → (s.leaveJob n.val j st).2.verdict = if st = .done ∧ c = 0 then 1 else c) ∧
     (¬ held → (s.leaveJob n.val j st).2.verdict = condMax c 0xE)) ∧
    (s.leaveJob n.val j st).1.pending = s.pending

/-- Admission: the request at the head is taken out and its job admitted at its trigger position; a job that meets no
condition is ADMITTED in a free entry, one that meets one occupies none; both take the channel's next sequence number; a
stopped, disabled, safe or swapping channel refuses; a manual job takes CHJ_MADMIT_POS. -/
def Obligations.Admission : Prop :=
  (∀ (n : Fin 16) (r : AdmitReq) (rest : List AdmitReq) (s : State), (s.chan n.val).reqs = r :: rest →
    let u := (s.updChan n.val (fun c => { c with reqs := rest })).qDrop (4 * n.val)
    exec (.jobAdmission n) s = .next (u.admitMark n.val r (r.birthPos + BitVec.ofNat 32 (u.rdf (Reg.chTrigOfs n.val) 29 0)) ⟨0, 0, none, 0⟩).1) ∧
  (∀ (k : Fin 8) (r : AdmitReq) (rest : List AdmitReq) (s : State), (s.stn k.val).reqs = r :: rest →
    let u := s.updStn k.val (fun x => { x with reqs := rest })
    exec (.stationAdmission k) s = .next (State.admitStation 4 k.val r
      (r.birthPos + BitVec.ofNat 32 (u.rdf (Reg.chTrigOfs (16 + k.val)) 29 0)) 0 none 0 u).1) ∧
  (∀ (b : Bus) (n : Fin 16) (v : Word) (s : State), s.takes b (.ch n 2) 0x4C v → bit v 31 = true →
    let pos := s.rd (Reg.chjMadmitPos n.val)
    let x := s.ok.admitMark n.val ⟨0, 0, BitVec.ofNat 4 (fld v 3 0), pos, true⟩ pos ⟨0, 0, none, 0⟩
    exec (.manualAdmit b (.ch n) v) s = .next (x.1.wr (Reg.chjMadmitRes n.val)
      (BitVec.ofNat 32 (if x.2.1 = 0 then x.2.2 + 0x100 else x.2.1.toNat * 0x1000)))) ∧
  (∀ (b : Bus) (k : Fin 8) (v : Word) (s : State), s.takes b (.stn k) 0x44C v → bit v 31 = true →
    let pos := s.rd (Reg.chjMadmitPos (16 + k.val))
    let x := State.admitStation 4 k.val ⟨0, 0, BitVec.ofNat 4 (fld v 3 0), pos, true⟩ pos 0 none 0 s.ok
    exec (.manualAdmit b (.stn k) v) s = .next (x.1.wr (Reg.chjMadmitRes (16 + k.val))
      (BitVec.ofNat 32 (if x.2.1 = 0 then x.2.2.2 + 0x100 else x.2.1.toNat * 0x1000)))) ∧
  (∀ (n : Fin 16) (r : AdmitReq) (trig : Word) (m : MemberAdm) (s : State), s.admitCond n.val (s.newJob n.val r trig m) m ≠ 0 →
    ((s.admitMark n.val r trig m).1.chan n.val).jobs = (s.chan n.val).jobs ∧ (s.admitMark n.val r trig m).2.1 ≠ 0) ∧
  (∀ (n : Fin 16) (r : AdmitReq) (trig : Word) (m : MemberAdm) (s : State), s.admitCond n.val (s.newJob n.val r trig m) m = 0 →
    (s.admitMark n.val r trig m).2 = (0, s.freeJob n.val) ∧
    (s.admitMark n.val r trig m).1.job n.val (s.freeJob n.val) = s.newJob n.val r trig m ∧
    (s.newJob n.val r trig m).st = .admitted ∧ (s.newJob n.val r trig m).trigPos = trig ∧
    (s.newJob n.val r trig m).jobSeq = s.rd (Reg.chjSeqNext n.val) ∧
    (s.isLaser n.val = false → s.rdf (Reg.chMarkLen n.val) 23 0 = (s.newJob n.val r trig m).foot.toNat) ∧
    (∀ k, k ≠ s.freeJob n.val → (s.admitMark n.val r trig m).1.job n.val k = s.job n.val k)) ∧
  (∀ (n : Fin 16) (e : JobEntry) (s : State), (s.rdb (Reg.chCtrl n.val) 0 = false ∨ s.enabled (chPage n.val 0) = false ∨
    s.inSafe n.val = true ∨ s.rdb (Reg.chStat n.val) 5 = true) → 256 ≤ (s.chan n.val).jobs.length →
    s.admitCond n.val e ⟨0, 0, none, 0⟩ = 0xF)

/-- Arming and marking: a job that passes every check is ARMED with a record slot, one that fails leaves by the exit of the
condition it keeps; at its trigger position an ARMED job enters MARKING with its START_STAMP; a stall is told and ends no job,
and is over when a line or a block fires. -/
def Obligations.ArmAndMark : Prop :=
  (∀ (n : Fin 16) (j : BitVec 8) (s : State), let e := s.job n.val j.toNat
    (e.st = .admitted ∨ e.st = .composed) → s.warpAt e.enc.toNat e.armPos = true → s.past e e.trigPos = false →
    s.recFree n.val = true → (if s.isLaser n.val then s.laserSpeedOk n.val e else s.thermSpeedOk e) = true →
    e.st = .composed → e.inRing = true → s.past e (e.trigPos - e.selvPre) = false →
    s.rdb (Reg.chStat n.val) 4 = false → (s.isLaser n.val = true ∨ s.rdb (Reg.hpStat n.val) 1 = false) →
    exec (.armCheck n j) s = .next (((((((s.qReserve (4 * n.val + 2)).setJob n.val j.toNat { e with st := .armed }).jobEvent
      n.val 1 j.toNat).galvoStop n.val).selftestStop n.val).chanShow n.val))) ∧
  (∀ (n : Fin 16) (j : BitVec 8) (s : State), let e := s.job n.val j.toNat
    (e.st = .admitted ∨ e.st = .composed) → s.warpAt e.enc.toNat e.armPos = true → s.past e e.trigPos = false →
    s.recFree n.val = true → (if s.isLaser n.val then s.laserSpeedOk n.val e else s.thermSpeedOk e) = true → e.cond = 0 →
    (e.st = .admitted ∨ e.inRing = false ∨ s.past e (e.trigPos - e.selvPre) = true) →
    s.rdb (Reg.chStat n.val) 4 = false → s.rdb (Reg.hpStat n.val) 1 = false → e.damped = false →
    exec (.armCheck n j) s = .next ((s.addCond n.val j.toNat 5).jobLeave n.val j.toNat .missed)) ∧
  (∀ (n : Fin 16) (j : BitVec 8) (s : State), let e := s.job n.val j.toNat
    (e.st = .admitted ∨ e.st = .composed) → s.warpAt e.enc.toNat e.armPos = true → s.past e e.trigPos = false →
    s.recFree n.val = false → e.cond = 0 →
    exec (.armCheck n j) s = .next ((s.addCond n.val j.toNat 0xE).jobLeave n.val j.toNat .refused)) ∧
  (∀ (n : Fin 16) (j : BitVec 8) (s : State), let e := s.job n.val j.toNat
    e.st = .armed → s.warpAt e.enc.toNat e.trigPos = true →
    let u := ((((s.setJob n.val j.toNat { e with st := .marking, startStamp := s.stamp }).jobEvent n.val 2 j.toNat).galvoStop
      n.val).updChan n.val (fun c => { c with lastFire := s.now, heldEnd := none })).chanShow n.val
    exec (.markingStart n j) s = .next (if s.isLaser n.val then u.laserMarkBegin n.val j.toNat else u.thermMarkBegin n.val j.toNat)) ∧
  (∀ (n : Fin 16) (j : Nat) (s : State), s.markJob n.val = some j → s.rdb (Reg.chStat n.val) 3 = false →
    s.rdf (Reg.chStallT n.val) 15 0 * msT ≤ s.now - (s.chan n.val).lastFire →
    ∃ t, exec (.markStall n) s = .next t ∧ t.rdb (Reg.chStat n.val) 3 = true ∧
      (t.seq n.val).events = (s.seq n.val).events ++ [⟨3, BitVec.ofNat 8 j⟩] ∧ (∀ m k, t.job m k = s.job m k)) ∧
  (∀ (n : Fin 16) (l : ThermLine) (pin : Bool) (s : State), (s.fireLine n.val l pin).rdb (Reg.chStat n.val) 3 = false) ∧
  (∀ (n : Fin 16) (ecc pre : Ecc) (o : Nat) (s : State), s.laserOn n.val = true → (s.las n.val).job ≠ 256 →
    (s.las n.val).phase = BeamPhase.ready → (s.las n.val).blockLoaded = false →
    s.vblockAt n.val (s.job n.val (s.las n.val).job) (s.las n.val).block = some o →
    ∃ t, exec (.vectorBlockStart n ecc pre) s = .next t ∧ t.rdb (Reg.chStat n.val) 3 = false) ∧
  (∀ (e : JobEntry) (s : State), s.warpVelI e.enc.toNat = 0 → s.thermSpeedOk e = true)

/-- The ends of a job by hand: TP_JOB_END of a MARKING job, held while a last check is open and applied when it closes;
TP_COND of a job in the table; writes that name a job in another state are counted and change no job; a cancel refuses a
MARKING job and reports a free entry. -/
def Obligations.JobEnds : Prop :=
  (∀ (n : Fin 16) (v : Word) (s : State), s.seqRuns n.val = true → (s.job n.val (postJob v)).st = .marking →
    let u := s.addCond n.val (postJob v) (postCond v)
    exec (.tpJobEnd n v) s = .next (if u.endReady n.val then u.jobLeave n.val (postJob v) .done
      else u.updChan n.val (fun c => { c with heldEnd := some (postJob v, postCond v) }))) ∧
  (∀ (n : Fin 16) (v : Word) (s : State), s.seqRuns n.val = true → (s.job n.val (postJob v)).st ≠ .marking →
    exec (.tpJobEnd n v) s = .next (s.cnt (Reg.seqBadpost n.val) 15 0)) ∧
  (∀ (n : Fin 16) (j : Nat) (c : BitVec 4) (s : State), (s.chan n.val).heldEnd = some (j, c) → s.endReady n.val = true →
    (s.job n.val j).st = .marking →
    exec (.jobEndDeferredApply n) s = .next ((s.updChan n.val (fun x => { x with heldEnd := none })).jobLeave n.val j .done)) ∧
  (∀ (n : Fin 16) (v : Word) (s : State), s.seqRuns n.val = true →
    exec (.tpCond n v) s = .next (if (s.job n.val (postJob v)).st ∈ [JobSt.admitted, .composed, .armed, .marking]
      then s.addCond n.val (postJob v) (postCond v) else s.cnt (Reg.seqBadpost n.val) 15 0)) ∧
  (∀ (b : Bus) (n : Fin 16) (v : Word) (s : State), s.takes b (.ch n 2) 0x54 v →
    exec (.jobCancel b (.ch n) v) s = .next (match (s.job n.val (fld v 7 0)).st with
      | .free => s.ok.wrf (Reg.chjCancelRes n.val) 1 0 3
      | .marking => s.ok.wrf (Reg.chjCancelRes n.val) 1 0 2
      | _ => ((s.ok.addCond n.val (fld v 7 0) 0xF).jobLeave n.val (fld v 7 0) .refused).wrf (Reg.chjCancelRes n.val) 1 0 1)) ∧
  (∀ (b : Bus) (k : Fin 8) (v : Word) (s : State), s.takes b (.stn k) 0x454 v →
    exec (.jobCancel b (.stn k) v) s = .next ((s.ok.cancelJob (.stn k) (fld v 7 0)).1.wrf (Reg.chjCancelRes (16 + k.val)) 1 0
      (s.ok.cancelJob (.stn k) (fld v 7 0)).2))

/-- A unit's start and stop, the capture of a job entry, the clearing of the peak. -/
def Obligations.UnitRegisters : Prop :=
  ∀ (b : Bus) (v : Word) (s : State),
    (∀ n : Fin 16, s.takes b (.ch n 0) 0x44 1 → exec (.channelStart b (.ch n)) s =
      .next (let u := ((s.ok.readyReturn).wrb (Reg.chCtrl n.val) 0 true).chanShow n.val
        if u.isLaser n.val then u else u.tagAuthStart n.val)) ∧
    (∀ k : Fin 8, s.takes b (.stn k) 0x44 1 → exec (.channelStart b (.stn k)) s =
      .next (if (s.ok.readyReturn.stnMembersOf k.val).length < 2 then s.ok.readyReturn.soot (.stn k) 0
        else (s.ok.readyReturn.wrb (Reg.chCtrl (16 + k.val)) 0 true).stnShow k.val)) ∧
    (∀ n : Fin 16, s.takes b (.ch n 0) 0x44 0 → exec (.channelStop b (.ch n)) s =
      .next (let u := (s.ok.wrb (Reg.chCtrl n.val) 0 false).inhibitJobs n.val
        ((if u.isLaser n.val then u else u.tagWritebackStart n.val).chanShow n.val).enableCheck)) ∧
    (∀ k : Fin 8, s.takes b (.stn k) 0x44 0 → exec (.channelStop b (.stn k)) s =
      .next ((s.ok.wrb (Reg.chCtrl (16 + k.val)) 0 false).stnInhibitAll k.val)) ∧
    (∀ n : Fin 16, s.takes b (.ch n 2) 0x5C v → exec (.jobEntryCapture b (.ch n) v) s =
      .next ((s.ok.plainWrite (Reg.chjSel n.val) v).wrWords (Reg.chjD n.val) 0 (jobWords (s.job n.val (fld v 7 0))))) ∧
    (∀ k : Fin 8, s.takes b (.stn k) 0x45C v → exec (.jobEntryCapture b (.stn k) v) s =
      .next ((s.ok.plainWrite (Reg.chjSel (16 + k.val)) v).wrWords (Reg.chjD (16 + k.val)) 0
        (jobWords (s.stnJob k.val (fld v 7 0)).entry))) ∧
    (∀ n : Fin 16, s.takes b (.ch n 2) 0x44 v → exec (.chjPeakClear b (.ch n) v) s =
      .next (if bit v 31 then s.ok.wrf (Reg.chjPeak n.val) 8 0 0 else s.ok)) ∧
    (∀ k : Fin 8, s.takes b (.stn k) 0x444 v → exec (.chjPeakClear b (.stn k) v) s =
      .next (if bit v 31 then s.ok.wrf (Reg.chjPeak (16 + k.val)) 8 0 0 else s.ok))

/-- The timing ports of a sequencer that executes: reads answer and capture, waits and predictions begin, a wake ends a wait
with its cause, an edge is queued, replaced, stalled or late, the oldest event and the ARMED job nearest its trigger pop. -/
def Obligations.TimingPorts : Prop :=
  (∀ (n : Fin 16) (v : Word) (s : State), s.seqRuns n.val = true →
    exec (.tpTscCapture n) s = .next ((s.updSeq n.val (fun q => { q with tscHi := hiW s.now })).respond false (loW s.now)) ∧
    (let p := s.warpFix (s.seq n.val).encSel.toNat
     exec (.tpPosCapture n) s = .next ((s.updSeq n.val (fun q => { q with
       posFrac := BitVec.ofNat 16 p, velCap := s.warpVel (s.seq n.val).encSel.toNat })).respond false (loW (p / 65536)))) ∧
    exec (.tpWaitPos n v) s = .next (s.updSeq n.val (fun q => { q with wait := .pos v q.encSel, wakeReversal := false, wakePulse := false })) ∧
    exec (.tpWaitTick n v) s = .next (s.updSeq n.val (fun q => { q with wait := .tick v, wakeReversal := false, wakePulse := false })) ∧
    exec (.tpPredPos n v) s = .next (s.updSeq n.val (fun q => { q with predPos := some (v, s.now), predStat := 0 })) ∧
    exec (.tpKick n) s = .next (s.updSeq n.val (fun q => { q with wdtAt := s.now + Nat.max 1 (s.rdf (Reg.seqWdt n.val) 15 0) * 400 })) ∧
    exec (.tpEdgeStatRead n) s = .next ((s.updSeq n.val (fun q => { q with late := false })).respond false
      (BitVec.ofNat 32 (32 - (s.seq n.val).edges.length + (if (s.seq n.val).late then 256 else 0)))) ∧
    exec (.tpEventPop n) s = .next (match (s.seq n.val).events with
      | [] => s.respond false 0
      | e :: rest => (s.updSeq n.val (fun q => { q with events := rest })).respond false
          (BitVec.ofNat 32 (e.kind.toNat + e.job.toNat * 256 + 0x10000))) ∧
    (let e : SchedEdge := ⟨(s.seq n.val).edgeTick, BitVec.ofNat 5 (fld v 4 0), bit v 8⟩
     exec (.tpEdgeCmd n v) s = .next (if 32 ≤ (s.seq n.val).edges.length
       then s.updSeq n.val (fun q => { q with stalledEdge := some e }) else s.edgeInsert n.val e))) ∧
  (∀ (n : Fin 16) (s : State), s.seqRuns n.val = true → (∀ e ∈ (s.chan n.val).jobs, e.2.st ≠ .armed ∨ e.2.popped = true) →
    exec (.tpJobPop n) s = .next (s.respond false 0)) ∧
  (∀ (n : Fin 16) (j : Nat) (e : JobEntry) (s : State), s.seqRuns n.val = true →
    (s.chan n.val).jobs.filter (fun x => x.2.st == .armed && ! x.2.popped) = [(j, e)] →
    exec (.tpJobPop n) s = .next ((s.setJob n.val j { e with popped := true }).respond false (BitVec.ofNat 32 (j + 256)))) ∧
  (∀ (n : Fin 16) (s : State), (s.seq n.val).wait ≠ .none →
    let wake (c : BitVec 2) := s.updSeq n.val (fun q => { q with wait := .none, waitRes := c, wakeReversal := false, wakePulse := false })
    ((s.seq n.val).wakeReversal = true → exec (.waitWake n) s = .next (wake 2)) ∧
    (∀ (p : Word) (id : BitVec 4), (s.seq n.val).wakeReversal = false → (s.seq n.val).wait = .pos p id → s.warpAt id.toNat p = true →
      exec (.waitWake n) s = .next (wake 0)) ∧
    (∀ t : Word, (s.seq n.val).wakeReversal = false → (s.seq n.val).wait = .tick t → 0 ≤ sdiff (loW s.now) t →
      exec (.waitWake n) s = .next (wake 0))) ∧
  (∀ (n : Fin 16) (p : Word) (at_ : Nat) (s : State), (s.seq n.val).predPos = some (p, at_) →
    s.warpVelI (s.seq n.val).encSel.toNat = 0 →
    exec (.predictionDone n) s = .next (s.updSeq n.val (fun q => { q with
      predPos := none, predTick := BitVec.ofNat 64 s.now, predStat := 3 }))) ∧
  (∀ (n : Fin 16) (e : SchedEdge) (s : State), (s.seq n.val).stalledEdge = some e → (s.seq n.val).edges.length < 32 →
    exec (.edgeQueueResume n) s = .next ((s.updSeq n.val (fun q => { q with stalledEdge := none })).edgeInsert n.val e)) ∧
  (∀ (n : Fin 16) (e : SchedEdge) (s : State), sdiff (loW s.now) e.tick ≤ 0 →
    s.edgeInsert n.val e = s.updSeq n.val (fun q => { q with
      edges := q.edges.filter (fun x => ! (x.target == e.target && x.tick == e.tick)) ++ [e] })) ∧
  (∀ (n : Fin 16) (bad : Bool) (e : SchedEdge) (s : State), firstEdge (loW s.now) (s.seq n.val).edges = some e →
    0 ≤ sdiff (loW s.now) e.tick →
    exec (.scheduledEdgeRelease n bad) s =
      .next ((s.updSeq n.val (fun q => { q with edges := q.edges.erase e })).edgeApply n.val e bad)) ∧
  (∀ d a : Int, predict d 0 a = (1, 0)) ∧ (∀ d v a : Int, 0 < v → d ≤ 0 → predict d v a = (2, 0))

/-- Sequencers: a failure halts its sequencer and names its cause; a load is refused while the channel is enabled or has
jobs, and busy otherwise; a load that fails clears the memories; RUN starts a loaded program at its entry; the self-test; a
swap to the spare. -/
def Obligations.Sequencers : Prop :=
  (∀ (n : Fin 17) (s : State), s.powered (seqPage n.val) = true → s.rdb (Reg.seqStat n.val) 8 = true →
    ((s.seq n.val).wdtAt ≤ s.now → exec (.seqWatchdogExpiry n) s = .next (s.seqFail n.val 0)) ∧
    (exec (.seqAccessFault n) s = .next (s.seqFail n.val 6)) ∧ (exec (.seqEccUncorrectable n) s = .next (s.seqFail n.val 2))) ∧
  (∀ (n : Fin 16) (cause : Nat) (s : State), cause < 16 → (s.seqFail n.val cause).rdb (Reg.seqStat n.val) 8 = false ∧
    (s.seqFail n.val cause).rdb (Reg.seqStat n.val) 9 = true ∧ (s.seqFail n.val cause).rdf (Reg.seqStat n.val) 15 12 = cause ∧
    (s.seqFail n.val cause).rdf (Reg.seqSwapStat n.val) 2 0 = 1) ∧
  (∀ (n : Fin 17) (s : State), s.banking 2 = true → s.powered (seqPage n.val) = true → s.rdb (Reg.seqStat n.val) 9 = false →
    (s.seq n.val).testing = false →
    exec (.seqSelftestStart n) s = .next (if s.seqIdle n.val
      then (s.updSeq n.val (fun q => { q with testing := true })).wrb Reg.bkgStat 2 true else s.cnt Reg.bkgLate 15 0)) ∧
  (∀ (n : Fin 17) (pass : Bool) (s : State), (s.seq n.val).testing = true →
    let u := s.selftestStop n.val
    exec (.seqSelftestDone n pass) s = .next (if pass then u else u.seqFail n.val 1) ∧ (u.seq n.val).testing = false ∧
      u.rdb Reg.bkgStat 2 = (List.range 17).any (fun k => k != n.val && (s.seq k).testing)) ∧
  (∀ (b : Bus) (n : Fin 16) (v : Word) (s : State), s.takes b (.ch n 1) 0x40 (setBit v 1 true) → bit v 0 = false → bit v 2 = false →
    (s.seq n.val).loading = false → s.enabled (.ch n 0) = false → (s.chan n.val).jobs = [] →
    ∃ t, exec (.programLoad b ⟨n.val, Nat.lt_trans n.isLt (by decide)⟩ v) s = .next t ∧ t.rdf (Reg.seqStat n.val) 2 0 = 1 ∧
      t.rdb (Reg.seqStat n.val) 8 = false ∧ (t.seq n.val).loading = true ∧ (t.seq n.val).loaded = false ∧ sameMem s t) ∧
  (∀ (b : Bus) (n : Fin 16) (v : Word) (s : State), s.takes b (.ch n 1) 0x40 (setBit v 1 true) → bit v 0 = false → bit v 2 = false →
    (s.seq n.val).loading = false → (s.enabled (.ch n 0) = true ∨ (s.chan n.val).jobs ≠ []) →
    ∃ t, exec (.programLoad b ⟨n.val, Nat.lt_trans n.isLt (by decide)⟩ v) s = .next t ∧ t.rdf (Reg.seqStat n.val) 2 0 = 5 ∧
      t.seq n.val = s.seq n.val ∧ sameMem s t) ∧
  (∀ (n : Fin 17) (s : State), (s.seq n.val).loading = true →
    (let img := s.progImage n.val
     let mode := if n.val = 16 then 2 else s.rdf (Reg.chCfg n.val) 0 0
     img.length ≠ s.rdn (Reg.seqLoadLen n.val) ∨ progFormatOk img mode = false) →
    ∃ t, exec (.programLoadDone n) s = .next t ∧ t.rdf (Reg.seqStat n.val) 2 0 = 4 ∧ (t.seq n.val).loaded = false ∧
      (t.seq n.val).loading = false ∧ (t.seq n.val).code = [] ∧ (t.seq n.val).data = []) ∧
  (∀ (n : Fin 17) (s : State), (s.seq n.val).loading = true →
    let img := s.progImage n.val
    let u := s.updSeq n.val (fun q => { q with loading := false, code := [], data := [], loaded := false })
    img.length = s.rdn (Reg.seqLoadLen n.val) → progFormatOk img (if n.val = 16 then 2 else s.rdf (Reg.chCfg n.val) 0 0) = true →
    u.progSigOk (leAt img 0x14 1) (sha256 (img.take (img.length - 64))) (img.drop (img.length - 64)) = true →
    ∃ t, exec (.programLoadDone n) s = .next t ∧ t.rdf (Reg.seqStat n.val) 2 0 = 2 ∧ (t.seq n.val).loaded = true ∧
      (t.seq n.val).loading = false ∧ (t.seq n.val).code = slice img 64 (progCode img) ∧
      (t.seq n.val).data = slice img (64 + progCode img) (progData img) ∧
      (t.seq n.val).entry = BitVec.ofNat 32 (leAt img 0x0C 4) ∧
      t.rd (Reg.seqProgVer n.val) = BitVec.ofNat 32 (leAt img 0x10 4) ∧
      (∀ i, i < 8 → t.rd (Reg.seqProgHash n.val i) = BitVec.ofNat 32 (leAt (sha256 img) (4 * i) 4)) ∧ sameMem s t) ∧
  (∀ (b : Bus) (n : Fin 17) (v : Word) (s : State), s.takes b (seqPage n.val) 0x40 (setBit v 0 true) → bit v 1 = false →
    bit v 2 = false → (s.seq n.val).loaded = true → s.rdb (Reg.seqStat n.val) 9 = false → s.rdb (Reg.seqStat n.val) 8 = false →
    ∃ t, exec (.seqRun b n v) s = .next t ∧ t.rdb (Reg.seqStat n.val) 8 = true ∧ t.rd (Reg.seqPc n.val) = (s.seq n.val).entry ∧
      (t.seq n.val).wdtAt = s.now + s.wdtTicks n.val ∧ (t.seq n.val).wait = .none ∧ sameMem s t) ∧
  (∀ (b : Bus) (n : Fin 17) (v : Word) (s : State), s.takes b (seqPage n.val) 0x40 (setBit v 2 true) → bit v 1 = false →
    bit v 0 = false → ∃ t, exec (.seqHalt b n v) s = .next t ∧ t.rdb (Reg.seqStat n.val) 8 = false ∧ t.seq n.val = s.seq n.val ∧ sameMem s t) ∧
  (∀ (n : Fin 16) (s : State), s.rdf (Reg.seqSwapStat n.val) 2 0 = 1 → s.marking n.val = false →
    (s.chan n.val).lastMarkEnd + 20000 ≤ s.now →
    let u := s.chanEvent n.val 5 0 0
    (u.jobs.spareServes.isSome = true ∨ u.rdb (Reg.seqStat 16) 9 = true → exec (.swapStart n) s = .next (u.swapFail n.val)) ∧
    (u.jobs.spareServes = none → u.rdb (Reg.seqStat 16) 9 = false →
      (List.range 8).map (fun i => leAt (sha256 (u.progImage n.val)) (4 * i) 4) = (List.range 8).map (fun i => u.rdn (Reg.seqProgHash n.val i)) →
      exec (.swapStart n) s = .next (((u.progStore 16 (u.progImage n.val)).wr (Reg.seqProgVer 16) (u.rd (Reg.seqProgVer n.val))).wrf
        (Reg.seqSwapStat n.val) 2 0 3))) ∧
  (∀ (n : Fin 16) (s : State), s.rdf (Reg.seqSwapStat n.val) 2 0 = 3 →
    exec (.swapComplete n false) s = .next (s.swapFail n.val) ∧
    ∃ t, exec (.swapComplete n true) s = .next t ∧ t.jobs.spareServes = some n.val ∧ (t.seq n.val).code = (s.seq 16).code ∧
      (t.seq n.val).data = (s.seq 16).data ∧ t.rdf (Reg.seqSwapStat n.val) 2 0 = 4)

/-! ### Damask (spec/05) -/

/-- The render queue: a request waits while 64 are pending and never makes more pending than that; the waiting request that
comes first enters; the first pending request with room goes to a free engine that no Damper pause holds; an engine's pause ends. -/
def Obligations.RenderQueue : Prop :=
  (∀ (u j : Nat) (s : State), s.pendingRenders ≤ 64 → (s.renderRequest u j).pendingRenders ≤ 64 ∧
    (64 ≤ s.pendingRenders → (s.renderRequest u j).pendingRenders = s.pendingRenders)) ∧
  (∀ (r : RenderReq) (s : State), s.pendingRenders < 64 →
    firstReq (s.dmk.reqs.filter (fun r => r.phase == RenderPhase.waiting)) = some r →
    exec .renderQueueEnter s = .next (s.updReq r.unit r.job (fun x => { x with phase := RenderPhase.pending })).dmkShow) ∧
  (∀ (l : List RenderReq) (r : RenderReq), firstReq l = some r → r ∈ l ∧ ∀ x ∈ l, x.stamp ≠ r.stamp → x.reentered = r.reentered →
    r.stamp.toNat < x.stamp.toNat) ∧
  (∀ (r : RenderReq) (e : Nat) (s : State), s.domOn 6 = true → s.enabled .dmk = true → s.readyEngines = [e] → s.freeEngines = [e] →
    sortReqs (s.dmk.reqs.filter (fun r => r.phase == RenderPhase.pending && ! s.reqNoSpace r)) = [r] →
    exec .renderDispatch s = .next (s.dispatch r e)) ∧
  (∀ (e : Fin 2) (s : State), (s.engine e.val).pausedUntil.isSome = true → s.due (s.engine e.val).pausedUntil = true →
    ∃ t, exec (.renderPauseEnd e) s = .next t ∧ (t.engine e.val).pausedUntil = none ∧ t.regs = s.regs ∧ t.mem = s.mem ∧
      (∀ k, k ≠ e.val → t.engine k = s.engine k) ∧ (∀ n j, (t.job n j).st = (s.job n j).st))

/-- A counter issues NEXT and moves on by one, only below RESV and LIMIT; one that cannot issue keeps NEXT and sets SERIAL_STORE;
no command of a counter moves NEXT or RESV back, and a SET_NEXT below RESV is BACKWARD. -/
def Obligations.SerialCounters : Prop :=
  (∀ (c : Nat) (s : State), s.serialValid c = true → (s.serial c).next.toNat < (s.serial c).resv.toNat →
    (s.serial c).next.toNat < (s.serial c).limit.toNat →
    (s.serialIssue c).2 = some (s.serial c).next.toNat ∧ ((s.serialIssue c).1.serial c).next.toNat = (s.serial c).next.toNat + 1) ∧
  (∀ (c : Nat) (s : State), (s.serialValid c = false ∨ (s.serial c).resv.toNat ≤ (s.serial c).next.toNat ∨
      (s.serial c).limit.toNat ≤ (s.serial c).next.toNat) →
    (s.serialIssue c).2 = none ∧ ((s.serialIssue c).1.serial c).next = (s.serial c).next ∧
    (s.powered .dmk = true → (s.serialIssue c).1.rdb (Reg.pgSoot .dmk) 2 = true)) ∧
  (∀ (c k : Nat) (p : List Byte) (s : State), ((s.serial k).next.toNat ≤ ((s.serialConfirmed c p).serial k).next.toNat ∧
    (s.serial k).resv.toNat ≤ ((s.serialConfirmed c p).serial k).resv.toNat) ∨ 2 ^ 64 ≤ ofLe p) ∧
  (∀ (b : Bus) (v : Word) (s : State), s.takes b .dmk 0x1E4 v → bit v 0 = true → bit v 1 = false →
    s.rd64 Reg.dmkSerSetLo Reg.dmkSerSetHi < (s.serial (s.rdf Reg.dmkSerSel 4 0)).resv.toNat →
    exec (.serialSetNext b v) s = .next (s.ok.serRes 3)) ∧
  (∀ (b : Bus) (v : Word) (s : State), s.takes b .dmk 0x1E4 v → bit v 0 = true → bit v 1 = false →
    (s.serial (s.rdf Reg.dmkSerSel 4 0)).resv.toNat ≤ s.rd64 Reg.dmkSerSetLo Reg.dmkSerSetHi →
    ∃ t, exec (.serialSetNext b v) s = .next t ∧ t.rdf Reg.dmkSerRes 1 0 = 1 ∧
      (∀ k, (t.serial k).next = (s.serial k).next ∧ (t.serial k).resv = (s.serial k).resv) ∧
      t.sec.writes = s.sec.writes ++ [⟨.serial (s.rdf Reg.dmkSerSel 4 0),
        leBytes 8 (s.rd64 Reg.dmkSerSetLo Reg.dmkSerSetHi + 1024), none, none⟩] ∧
      sameMem s t ∧ sameRegsBut s t (fun r => r = Reg.dmkSerRes)) ∧
  (∀ (b : Bus) (v : Word) (s : State), s.takes b .dmk 0x1E4 v → bit v 0 = false → bit v 1 = true →
    exec (.serialSetLimit b v) s = .next ((s.ok.updSerial (s.rdf Reg.dmkSerSel 4 0) (fun x => { x with
      limit := BitVec.ofNat 64 (s.rd64 Reg.dmkSerSetLo Reg.dmkSerSetHi) })).serRes 2))

/-- Template slots and selections: a load into an empty slot is busy, a load into a valid slot and an unload of a slot in use
are refused, an empty slot unloads with OK; a load ends with the template in its slot or with the result of the first check that
fails; a selection that fits takes effect from the next tick. -/
def Obligations.TemplateSlots : Prop :=
  (∀ (b : Bus) (v : Word) (s : State), s.takes b .dmk 0x64 v → s.rdf Reg.dmkTplRes 2 0 ≠ 1 →
    (bit v 8 = true → s.tplSlot (fld v 4 0) = none → ∃ t, exec (.templateLoad b v) s = .next t ∧
      t.rd Reg.dmkTplRes = BitVec.ofNat 32 (1 + fld v 4 0 * 256) ∧ t.dmk.slots = s.dmk.slots ∧
      t.dmk.loading = some (fld v 4 0, s.rd64 Reg.dmkTplAddrLo Reg.dmkTplAddrHi % 2 ^ 40, s.rdn Reg.dmkTplLen) ∧ sameMem s t ∧
      sameRegsBut s t (fun r => r = Reg.dmkTplRes)) ∧
    (bit v 8 = true → (s.tplSlot (fld v 4 0)).isSome = true → exec (.templateLoad b v) s = .next (s.ok.tplResult (fld v 4 0) 5)) ∧
    (bit v 8 = false → bit v 9 = true → s.tplSlot (fld v 4 0) = none →
      exec (.templateUnload b v) s = .next (s.ok.tplResult (fld v 4 0) 2)) ∧
    (bit v 8 = false → bit v 9 = true → (s.tplSlot (fld v 4 0)).isSome = true → s.slotInUse (fld v 4 0) = true →
      exec (.templateUnload b v) s = .next (s.ok.tplResult (fld v 4 0) 5)) ∧
    (bit v 8 = false → bit v 9 = true → (s.tplSlot (fld v 4 0)).isSome = true → s.slotInUse (fld v 4 0) = false →
      exec (.templateUnload b v) s = .next ((s.ok.tplEmpty (fld v 4 0)).tplResult (fld v 4 0) 2))) ∧
  (∀ (b : Bus) (v : Word) (s : State), s.takes b .dmk 0x64 v → s.rdf Reg.dmkTplRes 2 0 = 1 → (bit v 8 = true ∨ bit v 9 = true) →
    exec (.templateLoad b v) s = .next (s.ok.soot .dmk 1)) ∧
  (∀ (k a : Nat) (img : List Byte) (s : State), s.tplImage = some (k, a, img) → (s.tplBolts img).length ≤ s.dmk.boltsDone →
    s.dmk.boltFault = false →
    exec .templateLoadDone s = .next (
      let u := { s with dmk := { s.dmk with loading := none } }
      match tplLoad img (u.tplSigOk img) true (128 * 1024 - u.storeUsed) (512 * 1024 - u.cacheUsed) with
      | .ok t => ((u.setTplSlot k (some t)).cacheShow).tplResult k 2
      | .error e => u.tplResult k e)) ∧
  (∀ (img : List Byte) (sig lane : Bool) (store cache : Nat), tplStart img = false → tplLoad img sig lane store cache = .error 4) ∧
  (∀ (img : List Byte) (lane : Bool) (store cache : Nat), tplStart img = true → tplLoad img false lane store cache = .error 3) ∧
  (∀ (b : Bus) (u : Fin 24) (v : Word) (x : Template) (s : State), s.takes b .dmk (0xC0 + 4 * u.val) v → bit v 8 = true →
    s.tplSlot (fld v 4 0) = some x → s.selFits u.val x = true →
    ∃ t, exec (.templateSelect b u v) s = .next t ∧ t.rdb (Reg.dmkSel u.val) 8 = true ∧ t.rdf (Reg.dmkSel u.val) 4 0 = fld v 4 0 ∧
      t.selWord u.val = s.selWord u.val ∧ (∀ w, w ≠ u.val → t.selWord w = s.selWord w) ∧ sameMem s t ∧
      sameRegsBut s t (fun r => r = Reg.dmkSel u.val)) ∧
  (∀ (b : Bus) (u : Fin 24) (v : Word) (s : State), s.takes b .dmk (0xC0 + 4 * u.val) v → bit v 8 = true →
    s.tplSlot (fld v 4 0) = none → exec (.templateSelect b u v) s = .next (s.ok.soot .dmk 1))

/-- Lot data sets, operator entries, and the captures and clearings of Damask's registers. -/
def Obligations.DamaskRegisters : Prop :=
  ∀ (b : Bus) (v : Word) (s : State),
    (s.takes b .dmk 0x148 v → bit v 0 = true → s.rdf Reg.dmkLotLen 5 0 ≤ 32 →
      ∃ t, exec (.lotCommit b v) s = .next t ∧ t.rdf Reg.dmkLotRes 1 0 = 1 ∧
        (let d := tabGet lotReset t.dmk.lots (s.rdf Reg.dmkLotSel 3 0)
         d.cur = s.regBytes Reg.dmkLotData (s.rdf Reg.dmkLotLen 5 0) ∧
         d.get s.now = (tabGet lotReset s.dmk.lots (s.rdf Reg.dmkLotSel 3 0)).get s.now ∧
         ∀ n, s.now < n → d.get n = d.cur) ∧
        (∀ k, k ≠ s.rdf Reg.dmkLotSel 3 0 → tabGet lotReset t.dmk.lots k = tabGet lotReset s.dmk.lots k) ∧ sameMem s t) ∧
    (s.takes b .dmk 0x148 v → bit v 0 = true → 32 < s.rdf Reg.dmkLotLen 5 0 →
      exec (.lotCommit b v) s = .next ((s.ok.wrf Reg.dmkLotRes 1 0 2).irq .dmk 3)) ∧
    (∀ (x : Template) (f : TplField), s.takes b .dmk 0x178 v → bit v 0 = true → s.tplSlot (s.rdf Reg.dmkOpeTarget 4 0) = some x →
      x.fields[s.rdf Reg.dmkOpeTarget 12 8]? = some f →
      let n := s.rdf Reg.dmkOpeLen 5 0
      let text := s.regBytes Reg.dmkOpeData n
      let refused (c : Nat) := (s.ok.wrf Reg.dmkOpeRes 2 0 c).irq .dmk 3
      ((f.kind ≠ 3 ∨ f.operatorEntry = false) → exec (.operatorEntryCommit b v) s = .next (refused 2)) ∧
      (f.kind = 3 → f.operatorEntry = true → (32 < n ∨ f.maxLen < n) → exec (.operatorEntryCommit b v) s = .next (refused 3)) ∧
      (f.kind = 3 → f.operatorEntry = true → n ≤ 32 → n ≤ f.maxLen → (∃ c ∈ text, inCharset f.charset c.toNat = false) →
        exec (.operatorEntryCommit b v) s = .next (refused 4)) ∧
      (f.kind = 3 → f.operatorEntry = true → n ≤ 32 → n ≤ f.maxLen → (∀ c ∈ text, inCharset f.charset c.toNat = true) →
        ∃ t, exec (.operatorEntryCommit b v) s = .next t ∧ t.rdf Reg.dmkOpeRes 2 0 = 1 ∧ sameMem s t ∧
          (tabGet entryReset t.dmk.entries (s.rdf Reg.dmkOpeTarget 4 0 * 32 + s.rdf Reg.dmkOpeTarget 12 8)).cur = some text)) ∧
    (s.takes b .dmk 0x1C0 v → exec (.serialCapture b v) s = .next ((s.ok.plainWrite Reg.dmkSerSel v).serCapture (fld v 4 0))) ∧
    (∀ x : Template, s.takes b .dmk 0x6C v → s.tplSlot (fld v 4 0) = some x →
      exec (.tplInfoCapture b v) s = .next (((s.ok.plainWrite Reg.dmkTplSel v).wr Reg.dmkTplInfo0
        (BitVec.ofNat 32 (x.tplId + x.revision * 65536))).wr Reg.dmkTplInfo1
        (BitVec.ofNat 32 (1 + x.mode * 2 + x.form * 4 + x.partCount * 16 + satN 0xFFFF (s.jobsCarrying (fld v 4 0)) * 65536)))) ∧
    (s.takes b .dmk 0x44 v → exec (.dmkPeakClear b v) s = .next (if bit v 31 then s.ok.wrf Reg.dmkPeak 6 0 0 else s.ok)) ∧
    (s.takes b .dmk 0x8C v → exec (.renderMaxClear b v) s = .next (if bit v 31 then s.ok.wrf Reg.dmkRenderMax 15 0 0 else s.ok))

/-- The end of a render: a render that passes every check commits, its job COMPOSED with its check value; one that fails returns
its space, is counted and keeps its job; an engine's fault takes it into its self-test, which it passes or leaves service. -/
def Obligations.RenderEnds : Prop :=
  (∀ (e : Fin 2) (r : RenderReq) (x : Template) (vals : RenderVals) (n : Nat) (l : List BlockOut) (s : State),
    s.engineReq e.val = some r → s.reqJobs r = [(n, r.job)] → (s.job n r.job).st = .admitted → s.reqTpl r = some x →
    r.vals = some vals → (s.queue (64 + n)).en = true →
    renderAll x vals true r.tag.toNat [⟨(s.job n r.job).jobSeq.toNat, (s.job n r.job).productId.toNat, (s.job n r.job).partIdx.toNat,
      s.regionOf r n⟩] = .ok l →
    exec (.renderCommit e true) s = .next (((s.dropReq r).setEngSt e.val 0).commit r x vals e.val [(n, r.job)] l).dmkShow) ∧
  (∀ (r : RenderReq) (x : Template) (vals : RenderVals) (us n j : Nat) (b : BlockOut) (s : State),
    let t := s.commitMember r x vals us (n, j) b
    (t.job n j).st = .composed ∧ (t.job n j).contentCrc = b.crc ∧ (t.job n j).renderTag = r.tag ∧
    (t.job n j).units = BitVec.ofNat 16 b.units ∧ (t.job n j).jobSeq = (s.job n j).jobSeq ∧ (t.job n j).cond = (s.job n j).cond ∧
    (∀ m k, (m, k) ≠ (n, j) → t.job m k = s.job m k)) ∧
  (∀ (e : Fin 2) (r : RenderReq) (x : Template) (vals : RenderVals) (n c f : Nat) (v : Bool) (s : State),
    s.engineReq e.val = some r → s.reqJobs r = [(n, r.job)] → (s.job n r.job).st = .admitted → s.reqTpl r = some x →
    r.vals = some vals →
    renderAll x vals v r.tag.toNat [⟨(s.job n r.job).jobSeq.toNat, (s.job n r.job).productId.toNat, (s.job n r.job).partIdx.toNat,
      s.regionOf r n⟩] = .error (c, f) →
    exec (.renderCommit e v) s = .next ((((s.dropReq r).setEngSt e.val 0).dropHolds r.tag).renderFail r c f).dmkShow) ∧
  (∀ (e : Fin 2) (r : RenderReq) (s : State), s.engineReq e.val = some r → r.startTick + 40000 ≤ s.now →
    exec (.renderStallTimeout e) s = .next (s.engineFault e.val)) ∧
  (∀ (e : Fin 2) (s : State), s.domOn 6 = true → s.engSt e.val < 2 → exec (.engineEccFault e) s = .next (s.engineFault e.val)) ∧
  (∀ (e : Fin 2) (pass : Bool) (s : State), s.domOn 6 = true → s.engSt e.val = 2 →
    exec (.engineSelftestDone e pass) s = .next (s.setEngSt e.val (if pass then 0 else 3))) ∧
  (∀ (e : Fin 2) (r : RenderReq) (s : State), s.engineReq e.val = some r → r.reentered = true → r.job ≠ 256 → s.domOn 6 = true →
    (s.engineFault e.val).rdf Reg.dmkFailInfo 3 0 = 8)

/-- Check values of R154, the dates and symbol sizes of the chapter's example, and how numbers print. -/
def Obligations.CheckValues : Prop :=
  crc16 ((List.range 9).map (fun i => BitVec.ofNat 8 (49 + i))) = 0x29B1 ∧
  crc32c ((List.range 9).map (fun i => BitVec.ofNat 8 (49 + i))) = 0xE3069283 ∧
  civil (dayOf 2026 11 1 - 1) = (2026, 10, 31) ∧ civil (dayOf 2026 11 1 - 1 + 365) = (2027, 10, 31) ∧
  dmxWords false ([50, 55, 49, 48, 51, 49] ++ [65, 52, 50, 49, 55] ++ [48, 48, 53, 49, 50, 56, 51, 48]) =
    [157, 140, 161, 66, 172, 147, 130, 181, 158, 160] ∧
  (dmxFit 10 10 64).map (fun z => (z.size, z.data, z.ecc)) = some (16, 12, 12) ∧
  (∀ d : Fin 28, civil (dayOf 2000 2 28 + 1 + d.val) = if d.val = 0 then (2000, 2, 29) else (2000, 3, d.val)) ∧
  padNum 10 8 512830 = [48, 48, 53, 49, 50, 56, 51, 48]

/-! ### Thermal heads, Ember and the ribbon tag (spec/06) -/

/-- Ember: a level lies in 0 to 63 and is FLOOR at floor energy; every dark dot takes part in some sub-pulse of the line and no
white dot in any; no width passes the cap, and no line of such widths takes longer than LINE_T. -/
def Obligations.EmberEnergy : Prop :=
  (∀ (n index dot : Nat) (s : State), s.embLevel n false index dot ≤ 63 ∧
    s.embLevel n true index dot = fld (s.embAct n (Reg.embCfg n)) 13 8) ∧
  (∀ (n d : Nat) (floor : Bool) (p : List Bool) (h : List (List Bool)) (m : BitVec 4) (s : State),
    (s.embMasks n floor p h)[d]? = some m → p[d]? = some (m != 0) ∧ (∀ k, m.getLsbD k = true → k = 0 ∨ k < s.subPulses n)) ∧
  (∀ (n : Nat) (s : State), (s.embWidths n).length = s.subPulses n ∧ ∀ w ∈ s.embWidths n, w ≤ s.rdf (Reg.hpSpwCap n) 19 0) ∧
  (∀ (n : Nat) (ws : List Nat) (s : State), ws.length = s.subPulses n → (∀ w ∈ ws, w ≤ s.rdf (Reg.hpSpwCap n) 19 0) →
    (ws.map (s.subT n)).foldl (· + ·) 0 ≤ s.lineTime n) ∧
  (∀ (w : Nat) (p : List Bool), histIndex w p [] = histIndex w p [List.replicate w false])

/-- Ember's two sets of tables: a SWAP copies the whole shadow set into the active one at once, waits while a job is ARMED or
MARKING, and is applied between two lines; COPY_BACK copies the active set into the shadow. -/
def Obligations.EmberSets : Prop :=
  (∀ (b : Bus) (n : Fin 16) (v : Word) (s : State), s.takes b (chPage n.val 4) 0x44 (setBit v 0 true) → bit v 1 = false →
    s.armedOrMarking n.val = false → exec (.emberSwap b n v) s = .next (s.ok.embSwap n.val)) ∧
  (∀ (b : Bus) (n : Fin 16) (v : Word) (s : State), s.takes b (chPage n.val 4) 0x44 (setBit v 0 true) → bit v 1 = false →
    s.armedOrMarking n.val = true → exec (.emberSwap b n v) s = .next (s.ok.wrb (Reg.embStat n.val) 0 true)) ∧
  (∀ (n : Fin 16) (s : State), s.powered (chPage n.val 4) = true → s.rdb (Reg.embStat n.val) 0 = true →
    exec (.emberSwapApply n) s = .next (s.embSwap n.val)) ∧
  (∀ (n : Fin 16) (o : Nat) (s : State), o ∈ embOffs →
    (s.embSwap n.val).embAct n.val (embBase n.val + o) = s.rd (embBase n.val + o) ∧
    (s.embSwap n.val).rd (embBase n.val + o) = s.rd (embBase n.val + o) ∧ (s.embSwap n.val).rdb (Reg.embStat n.val) 0 = false) ∧
  (∀ (b : Bus) (n : Fin 16) (v : Word) (s : State), s.takes b (chPage n.val 4) 0x44 (setBit v 1 true) → bit v 0 = false →
    ∃ t, exec (.emberCopyBack b n v) s = .next t ∧
      (∀ o ∈ embOffs, t.rd (embBase n.val + o) = s.embAct n.val (embBase n.val + o)) ∧ t.therm n.val = s.therm n.val ∧ sameMem s t ∧
      sameRegsBut s t (fun r => ∃ o ∈ embOffs, r = embBase n.val + o))

/-- Lines: the next line is computed from its weft; an edge fires its line at its tick only where it may, else it waits with
OVERSPEED and is counted; a waiting line fires when it may; the dummy shift; the readback check. -/
def Obligations.ThermalLines : Prop :=
  (∀ (n : Fin 16) (tab ring : Ecc) (j ofs : Nat) (s : State), s.thermOn n.val = true → (s.therm n.val).computed = none →
    (s.therm n.val).lastFired = false → (s.therm n.val).ending = false → (s.therm n.val).dummy = false →
    s.embJob n.val = some j → (s.job n.val j).inRing = true →
    s.weftAt n.val (s.job n.val j) (if (s.job n.val j).st = .marking then (s.therm n.val).nextLine else 0) = some ofs →
    exec (.emberComputeDone n tab ring) s = .next (s.embCompute n.val j ofs tab ring)) ∧
  (∀ (n j : Nat) (l : ThermLine) (bad : Bool) (s : State), s.thermOn n = true → (s.therm n).lastFired = false →
    (s.therm n).ending = false → s.markJob n = some j → (s.therm n).computed = some l →
    s.thermTrigger n 0 bad = (if (s.therm n).waiting = [] ∧ s.lineReady n (s.job n j) = true then s.fireLine n l bad
      else ((s.addCond n j 6).cnt (Reg.hpCntOvs n) 15 0).updTherm n (fun x => { x with waiting := x.waiting ++ [s.now] }))) ∧
  (∀ (n t : Nat) (bad : Bool) (s : State), t ≠ 0 → s.thermTrigger n t bad = s) ∧
  (∀ (n : Fin 16) (j w : Nat) (rest : List Nat) (l : ThermLine) (bad : Bool) (s : State), s.markJob n.val = some j →
    (s.therm n.val).waiting = w :: rest → (s.therm n.val).computed = some l → s.thermOn n.val = true →
    s.lineReady n.val (s.job n.val j) = true →
    exec (.lineDeferredFire n bad) s = .next (
      let u := (s.updTherm n.val (fun x => { x with waiting := rest })).fireLine n.val l bad
      if l.last then u.updTherm n.val (fun x => { x with waiting := [] }) else u)) ∧
  (∀ (n : Nat) (l : ThermLine) (bad : Bool) (s : State),
    let t := s.fireLine n l bad
    (t.therm n).nextLine = (s.therm n).nextLine + 1 ∧ (t.therm n).firedAt = s.now ∧ (t.therm n).computed = none ∧
    (t.therm n).unread = some l ∧ (t.therm n).lineEnd = s.now + (l.widths.map (s.subT n)).foldl (· + ·) 0 ∧
    (s.rdb (Reg.hpStat n) 5 = true → t.pins.strobe = s.pins.strobe) ∧ (∀ m k, (t.job m k).st = (s.job m k).st)) ∧
  (∀ (n : Fin 16) (s : State), s.thermOn n.val = true → (s.therm n.val).unread.isSome = true → (s.therm n.val).dummy = false →
    (s.therm n.val).computed = none → (s.therm n.val).lineEnd ≤ s.now → (s.therm n.val).lastFired = true →
    exec (.dummyShiftStart n) s = .next (s.updTherm n.val (fun x => { x with dummy := true, shiftedAt := s.now + s.shiftT n.val }))) ∧
  (∀ (n : Fin 16) (l : ThermLine) (rx : List Bool) (s : State), s.thermOn n.val = true → (s.therm n.val).unread = some l →
    (s.therm n.val).dummy = true → (s.therm n.val).shiftedAt ≤ s.now → (s.therm n.val).ending = false →
    exec (.readbackCheck n rx) s = .next (
      let u := s.updTherm n.val (fun x => { x with unread := none, dummy := false })
      if rxMatches l (s.therm n.val).shift (s.headDots n.val) rx then u
      else (((u.condMarking n.val 7).soot (chPage n.val 3) 0).cnt (Reg.hpCntRb n.val) 15 0).irq (chPage n.val 3) 3)) ∧
  (∀ (l : ThermLine) (shift : Int) (head : Nat) (rx : List Bool), l.blank = true → (∃ b ∈ rx.take head, b = true) →
    rxMatches l shift head rx = false)

/-- The guards of a head: the strobe timer forces the strobes off; a sample's temperature with the thresholds it has reached; a
shutdown is held to the line's end; an audit pulse; a new audit pass. -/
def Obligations.HeadGuards : Prop :=
  (∀ (n : Fin 16) (g : Fin 4) (held : Nat) (s : State), s.isLaser n.val = false → s.powered (chPage n.val 3) = true →
    g.val < s.headGroups n.val → s.rdf (Reg.hpStbMax n.val) 12 0 * usT ≤ held →
    ∃ t, exec (.strobeTimerExpiry n g held) s = .next t ∧ t.pins.strobe = s.pins.strobe &&& ~~~(BitVec.ofNat 16 (2 ^ n.val)) ∧
      t.rdb (Reg.hpStat n.val) 5 = true ∧ t.rdb (Reg.pgSoot (chPage n.val 3)) 3 = true ∧ t.pins.gate = s.pins.gate ∧
      (∀ j ∈ s.jobsIn n.val .marking, (t.job n.val j).cond = condMax (s.job n.val j).cond 7) ∧ sameMem s t) ∧
  (∀ (n : Fin 16) (code : BitVec 12) (s : State), s.thermOn n.val = true → code.toNat < s.rdf (Reg.hpThCfg n.val) 19 8 →
    s.rdf (Reg.hpThCfg n.val) 31 20 < code.toNat →
    ∃ t, exec (.headTempSample n code) s = .next t ∧ t.rdf (Reg.hpTemp n.val) 27 16 = code.toNat ∧
      t.rdb (Reg.hpTemp n.val) 31 = true ∧ t.rdb (Reg.hpStat n.val) 4 = false ∧
      t.rdf (Reg.hpTemp n.val) 15 0 = wrapN 16 (s.headCurve n.val code.toNat) ∧ (t.therm n.val).openCnt = 0 ∧
      (t.therm n.val).shortCnt = 0 ∧ t.pins = s.pins ∧ sameMem s t) ∧
  (∀ (n : Fin 16) (code : BitVec 12) (s : State), s.thermOn n.val = true → s.rdf (Reg.hpThCfg n.val) 19 8 ≤ code.toNat →
    3 ≤ (s.therm n.val).openCnt → s.lineActive n.val = false →
    ∃ t, exec (.headTempSample n code) s = .next t ∧ t.rdb (Reg.hpTemp n.val) 31 = false ∧ t.rdb (Reg.hpStat n.val) 4 = true ∧
      t.rdb (Reg.pgSoot (chPage n.val 3)) 4 = true ∧ t.headTemp n.val = s.headTemp n.val) ∧
  (∀ (n : Fin 16) (s : State), (s.therm n.val).heldSoot ≠ [] → s.lineActive n.val = false →
    exec (.headShutdownSoot n) s = .next (forL (s.therm n.val).heldSoot (fun b u => u.soot (chPage n.val 3) b)
      (s.updTherm n.val (fun t => { t with heldSoot := [] })))) ∧
  (∀ (n : Fin 16) (codes : Vector (BitVec 12) 4) (s : State), s.auditRuns n.val = true → (s.therm n.val).auditPulses % 64 = 0 →
    exec (.auditPulse n codes) s = .next ((s.updTherm n.val (fun t => { t with auditPulses := t.auditPulses + 1 })).updTherm n.val
      (fun t => { t with auditOfs := ((codes.toList.foldl (fun a c => a + c.toNat) 0 / 4 : Nat) : Int) }))) ∧
  (∀ (b : Bus) (n : Fin 16) (v : Word) (s : State), s.takes b (chPage n.val 3) 0x100 (setBit v 2 true) → s.isLaser n.val = false →
    ∃ t, exec (.auditRestart b n v) s = .next t ∧ t.rdf (Reg.hpAuditStat n.val) 11 0 = 0 ∧ (t.therm n.val).readings = [] ∧
      (t.therm n.val).auditPulses = 0 ∧ sameMem s t)

/-- The ribbon tag: an authentication starts on a command and on a new UID, and refuses meanwhile; it succeeds on a good answer
and fails on a bad one or none; a write-back starts, completes, fails and is tried again 100 ms later; LEFT_MM never rises. -/
def Obligations.RibbonTag : Prop :=
  (∀ (b : Bus) (n : Fin 16) (v : Word) (s : State), s.takes b (chPage n.val 7) 0x4C (setBit v 0 true) → bit v 1 = false →
    exec (.tagAuth b n v) s = .next (s.ok.tagAuthStart n.val)) ∧
  (∀ (n : Fin 16) (s : State), s.cnsOn n.val = true → (s.tagAuthStart n.val).rdf (Reg.cnsStat n.val) 2 1 = 1 ∧
    (s.tagAuthStart n.val).rdb (Reg.cnsStat n.val) 5 = true ∧ ((s.tagAuthStart n.val).tag n.val).nonce.isSome = true) ∧
  (∀ (n : Fin 16) (u : BitVec 64) (s : State), s.cnsOn n.val = true →
    (s.rdb (Reg.cnsStat n.val) 0 = false ∨ s.rd64 (Reg.cnsUidLo n.val) (Reg.cnsUidHi n.val) ≠ u.toNat) →
    exec (.tagPresencePoll n (some u)) s = .next (((((s.wrb (Reg.cnsStat n.val) 0 true).wr64 (Reg.cnsUidLo n.val) (Reg.cnsUidHi n.val)
      u.toNat).updTag n.val (fun t => { t with trusted := false, record := [] })).irq (chPage n.val 7) 3).tagAuthStart n.val)) ∧
  (∀ (n : Fin 16) (c : List Byte) (r : TagReply) (k : Nat) (s : State), (s.tag n.val).nonce = some c →
    [0, 1].find? (fun k => s.tagKeyOk k c r) = some k →
    leAt r.record 0x10 4 ≤ (tabGet 0xFFFFFFFF s.sec.tagLeft (leAt r.record 0 8)).toNat →
    exec (.tagAuthDone n (some r)) s = .next (s.tagAccept n.val k r.record)) ∧
  (∀ (n : Fin 16) (c : List Byte) (r : TagReply) (s : State), (s.tag n.val).nonce = some c →
    (∀ k ∈ [0, 1], s.tagKeyOk k c r = false) → exec (.tagAuthDone n (some r)) s = .next (s.tagAuthFail n.val 0)) ∧
  (∀ (b : Bus) (n : Fin 16) (v : Word) (s : State), s.takes b (chPage n.val 7) 0x4C (setBit v 1 true) → bit v 0 = false →
    exec (.tagWriteback b n v) s = .next (s.ok.tagWritebackStart n.val)) ∧
  (∀ (n : Fin 16) (s : State), s.cnsOn n.val = true → (s.tag n.val).trusted = true → (s.tag n.val).writing = none →
    (s.tag n.val).record.length = 40 →
    ∃ r, ((s.tagWritebackStart n.val).tag n.val).writing = some r ∧ leAt r 0x10 4 ≤ s.rdn (Reg.cnsTagLeftMm n.val) ∧
      leAt r 0x10 4 ≤ s.rdn (Reg.cnsLeftMm n.val)) ∧
  (∀ (n : Fin 16) (r : List Byte) (s : State), (s.tag n.val).writing = some r →
    ((s.tag n.val).wbWanted = false → ∃ t, exec (.tagWritebackDone n true) s = .next t ∧ (t.tag n.val).writing = none ∧
      t.rd (Reg.cnsTagLeftMm n.val) = BitVec.ofNat 32 (leAt r 0x10 4) ∧ (t.tag n.val).record = r ∧ sameMem s t) ∧
    ∃ t, exec (.tagWritebackDone n false) s = .next t ∧ (t.tag n.val).writing = none ∧
      (t.tag n.val).retryAt = some (s.now + 100 * 400000) ∧ sameMem s t ∧
      (s.powered (chPage n.val 7) = true → t.rdb (Reg.pgSoot (chPage n.val 7)) 2 = true)) ∧
  (∀ (n : Fin 16) (d : Nat) (s : State), (s.tag n.val).retryAt = some d → d ≤ s.now →
    exec (.tagWritebackRetry n) s = .next ((s.updTag n.val (fun t => { t with retryAt := none })).tagWritebackStart n.val)) ∧
  (∀ (p d : Nat) (n : Fin 16) (s : State), (s.ribbonCount p d).rdn (Reg.cnsLeftMm n.val) ≤ s.rdn (Reg.cnsLeftMm n.val))

/-! ### Laser channels (spec/07) -/

/-- Vector records: a block's check at its start; the records that take no time, applied unless the block runs blanked; a motion
from the present point in L ÷ speed to the nearest tick; a stroke, a jump and a dot; waiting for a position; END; the end of a
record's time and of a settling wait. -/
def Obligations.VectorRecords : Prop :=
  (∀ (n : Fin 16) (o : Nat) (s : State), s.laserOn n.val = true → (s.las n.val).job ≠ 256 → (s.las n.val).phase = .ready →
    (s.las n.val).blockLoaded = false → s.vblockAt n.val (s.job n.val (s.las n.val).job) (s.las n.val).block = some o →
    exec (.vectorBlockStart n .clean .clean) s = .next (
      let u := (s.cntW (Reg.lpCntBlocks n.val)).wrf (Reg.lpStat n.val) 31 16 (s.las n.val).block
      let w := if s.blockOk n.val o then u
        else ((u.addCond n.val (s.las n.val).job 7).soot (chPage n.val 6) 1).cnt (Reg.lpCntBlank n.val) 15 0
      ((((w.updLas n.val (fun l => { l with blockLoaded := true, record := 0, blankBlock := ! s.blockOk n.val o })).fired
        n.val).skipInvalid n.val o 32).blockOver n.val o))) ∧
  (∀ (c : Instr) (op : Nat) (n : Fin 16) (r : VecRec) (s : State),
    (c, op) ∈ [(.power n, 4), (.freq n, 5), (.delays n, 6), (.syncTrack n, 8)] → s.laserRec n.val = some r → r.op = op →
    exec c s = .next ((if (s.las n.val).blankBlock || (s.las n.val).blankJob then s
      else s.applyZero n.val (s.job n.val (s.las n.val).job).enc.toNat r).recNext n.val)) ∧
  (∀ (n enc : Nat) (r : VecRec) (s : State),
    (r.op = 4 → ((s.applyZero n enc r).las n).power = BitVec.ofNat 16 r.arg16) ∧
    (r.op = 6 → ((s.applyZero n enc r).las n).onDly = sfld r.w1 15 0 ∧ ((s.applyZero n enc r).las n).offDly = fld r.w1 31 16 ∧
      ((s.applyZero n enc r).las n).jumpDly = fld r.w2 15 0 ∧ ((s.applyZero n enc r).las n).polyDly = fld r.w2 31 16) ∧
    (r.op = 8 → ((s.applyZero n enc r).las n).tracking = (r.flags % 2 == 1) ∧
      (r.flags / 2 % 2 = 1 → ((s.applyZero n enc r).las n).pStart = BitVec.ofNat 48 (s.warpFix enc)))) ∧
  (∀ (dx dy : Int) (v : Nat), dx.natAbs < 2 ^ 25 → dy.natAbs < 2 ^ 25 → 0 < v →
    let l2 := 160000 * (dx.natAbs * dx.natAbs + dy.natAbs * dy.natAbs)
    let t := motionTicks dx dy v
    ((2 * t - 1) * v) * ((2 * t - 1) * v) ≤ 4 * l2 ∧ 4 * l2 < ((2 * t + 1) * v) * ((2 * t + 1) * v)) ∧
  (∀ (n : Fin 16) (r : VecRec) (s : State), s.laserRec n.val = some r → r.op = 1 →
    let l := s.las n.val
    let u := ((s.updLas n.val (fun l => { l with blankToJump := false })).gateDue n.val).motion n.val 1 r.x r.y
      (motionTicks (r.x - l.x) (r.y - l.y) (if r.arg16 = 0 then l.jumpSpeed else r.arg16)) l.jumpDly
    exec (.jump n) s = .next (if u.rdb (Reg.lpCfg n.val) 10 then u else (u.earlyRise n.val).gateDue n.val)) ∧
  (∀ (n : Fin 16) (r : VecRec) (s : State), s.laserRec n.val = some r → r.op = 2 → (s.las n.val).fires = true →
    let l := s.las n.val
    let more := match s.peekNext n.val with
      | some (2, _) => true
      | _ => false
    let v := if r.arg16 = 0 then l.markSpeed else r.arg16
    let u := s.motion n.val 2 r.x r.y (motionTicks (r.x - l.x) (r.y - l.y) v) (if more then l.polyDly else l.offDly)
    exec (.mark n) s = .next (((u.updLas n.val (fun k => { k with
      gateRise := if k.gateCmd || k.gateRise.isSome then k.gateRise else some (((k.motStart : Nat) : Int) + k.onDly).toNat,
      gateFall := if more then none else some (k.motEnd + k.offDly) })).limitCheck n.val).gateDue n.val)) ∧
  (∀ (n : Fin 16) (r : VecRec) (s : State), s.laserRec n.val = some r → r.op = 2 → (s.las n.val).fires = false →
    let l := s.las n.val
    let u := s.motion n.val 2 r.x r.y (motionTicks (r.x - l.x) (r.y - l.y) (if r.arg16 = 0 then l.markSpeed else r.arg16)) l.offDly
    exec (.mark n) s = .next (((u.updLas n.val (fun k => { k with
      gateRise := none, gateFall := if k.gateCmd then some k.motStart else none })).limitCheck n.val).gateDue n.val)) ∧
  (∀ (n : Fin 16) (r : VecRec) (s : State), s.laserRec n.val = some r → r.op = 3 →
    let l := s.las n.val
    exec (.dot n) s = .next ((s.gateDue n.val).motion n.val 3 r.x r.y (motionTicks (r.x - l.x) (r.y - l.y) l.jumpSpeed) l.jumpDly)) ∧
  (∀ (n : Fin 16) (r : VecRec) (s : State), s.laserRec n.val = some r → r.op = 7 →
    let l := s.las n.val
    let pos : Word := (l.pStart >>> (16 : Nat)).truncate 32 + r.arg32
    exec (.waitPos n) s = .next (
      if l.blankBlock || l.blankJob || s.warpAt (s.job n.val l.job).enc.toNat pos then s.recNext n.val
      else (s.gateDown n.val).updLas n.val (fun l => { l with phase := .waiting, op := 7, waitPos := pos }))) ∧
  (∀ (n : Fin 16) (s : State), (s.las n.val).phase = .waiting → (s.las n.val).job ≠ 256 →
    s.warpAt (s.job n.val (s.las n.val).job).enc.toNat (s.las n.val).waitPos = true →
    exec (.waitPosRelease n) s = .next ((s.updLas n.val (fun l => { l with recEnd := s.now })).recNext n.val)) ∧
  (∀ (n : Fin 16) (r : VecRec) (s : State), s.laserRec n.val = some r → r.op = 0xF →
    exec (.endRecord n) s = .next (s.laserEnd n.val true)) ∧
  (∀ (n : Fin 16) (s : State), (s.las n.val).phase = .moving → (s.las n.val).job ≠ 256 → (s.las n.val).recEnd ≤ s.now →
    let l := s.las n.val
    let u := s.gateDue n.val
    exec (.vectorRecordComplete n) s = .next (
      if (l.op = 1 ∨ l.op = 3) ∧ l.dwelling = false then
        if u.rdb (Reg.lpCfg n.val) 10 then
          (u.updLas n.val (fun l => { l with phase := .settling, settleStart := l.recEnd })).laserShow n.val
        else u.jumpDone n.val
      else u.recNext n.val)) ∧
  (∀ (n : Fin 16) (s : State), (s.las n.val).phase = .settling → 2 ≤ (s.las n.val).settledFrames →
    exec (.settleDone n) s = .next ((s.settled n.val).laserShow n.val)) ∧
  (∀ (n : Fin 16) (s : State), (s.las n.val).phase = .settling → (s.las n.val).settledFrames < 2 →
    (s.las n.val).settleStart + s.rdf (Reg.lpSettle n.val) 31 16 * usT ≤ s.now →
    exec (.settleTimeout n) s = .next (
      let u := ((s.addCond n.val (s.las n.val).job 7).soot (chPage n.val 3) 4).cnt (Reg.lpCntClamp n.val) 31 16
      ((u.setLas n.val { (s.las n.val) with blankToJump := true }).settled n.val).laserShow n.val)) ∧
  (∀ (n : Fin 16) (c : Instr) (s t : State), c ∈ [.jump n, .mark n, .dot n, .power n, .freq n, .delays n, .syncTrack n, .waitPos n,
      .waitPosRelease n, .endRecord n, .vectorRecordComplete n, .settleDone n, .settleTimeout n, .vectorBlockStart n .clean .clean] →
    exec c s = .next t → sameMem s t ∧ t.pending = s.pending ∧ t.now = s.now ∧ ∀ m, m ≠ n.val → t.las m = s.las m)

/-- The beam's guards: pulses and tickle pulses at their periods; ready and alarm; the dwell cut; the OEM limits on setpoint and
width; a gate stays low outside the window, under the alarm, with no limit entry in force, with an axis open or cut. -/
def Obligations.BeamGuards : Prop :=
  (∀ (n : Fin 16) (s : State), (s.modMode n.val = 1 ∨ s.modMode n.val = 2) → s.laserOn n.val = true → (s.las n.val).job ≠ 256 →
    ((s.las n.val).gate = true ∨ s.rdb (Reg.lpCfg n.val) 7 = false) → (s.las n.val).pulseAt + (s.las n.val).period ≤ s.now →
    exec (.modulationPulseBoundary n false) s = .next (
      let u := s.updLas n.val (fun l => { l with pulseAt := l.pulseAt + l.period })
      match (s.las n.val).freqNext with
      | some (p, w) => u.freqTake n.val p w
      | none => u)) ∧
  (∀ (n : Fin 16) (level : Bool) (s : State), s.isLaser n.val = true → s.powered (chPage n.val 3) = true →
    (level != s.rdb (Reg.lpCfg n.val) 5) = ! (s.las n.val).readyActive →
    exec (.laserReadyEdge n level) s = .next (
      let a := level != s.rdb (Reg.lpCfg n.val) 5
      let u := (s.updLas n.val (fun l => { l with readyActive := a, readyLostAt := if a then none else some s.now })).wrb
        (Reg.lpStat n.val) 2 a
      if ! a && (s.las n.val).gateCmd then u.condMarking n.val 7 else u)) ∧
  (∀ (n : Fin 16) (t : Nat) (s : State), (s.las n.val).readyLostAt = some t → s.laserOn n.val = true →
    (s.las n.val).readyActive = false → s.rdb (Reg.chCtrl n.val) 0 = true → t + s.rdf (Reg.lpReadyT n.val) 15 0 * msT ≤ s.now →
    exec (.laserReadyTimeout n) s = .next ((s.updLas n.val (fun l => { l with readyLostAt := none })).soot (chPage n.val 3) 1)) ∧
  (∀ (n : Fin 16) (s : State), s.isLaser n.val = true → s.powered (chPage n.val 3) = true → (s.las n.val).alarmActive = false →
    exec (.laserAlarm n) s = .next (((((s.updLas n.val (fun l => { l with alarmActive := true })).wrb (Reg.lpStat n.val) 3
      true).condMarking n.val 7).gateEval n.val).soot (chPage n.val 3) 2)) ∧
  (∀ (n : Fin 16) (s : State), (s.las n.val).alarmActive = true →
    exec (.laserAlarmClear n) s = .next (((s.updLas n.val (fun l => { l with alarmActive := false })).wrb (Reg.lpStat n.val) 3
      false).gateEval n.val)) ∧
  (∀ (n : Fin 16) (t : Nat) (s : State), (s.las n.val).dwellSince = some t → s.domOn 1 = true → s.isLaser n.val = true →
    (s.las n.val).gate = true →
    (if (s.las n.val).dotDwell.isSome then s.rdf (Reg.lpDwellMax n.val) 11 0 else s.rdf (Reg.lpDwellTime n.val) 11 0) * usT <
      s.now - t →
    exec (.dwellCut n) s = .next (((((s.condMarking n.val 7).cut n.val 3).wrb (Reg.lpStat n.val) 8 true).updLas n.val
      (fun l => { l with dwellSince := none })).soot (chPage n.val 3) 7)) ∧
  (∀ (n duty set : Nat) (s : State), s.lpLimit n = some (duty, set) →
    s.outPower n ≤ set ∧ s.outPower n ≤ (s.las n).power.toNat ∧ s.outWidth n * 65536 ≤ duty * (s.las n).period ∧
    ∃ k, k < 8 ∧ s.rdb (Reg.lpLimPer n k) 31 = true ∧ s.rdf (Reg.lpLimMax n k) 15 0 = duty ∧ s.rdf (Reg.lpLimMax n k) 31 16 = set ∧
      (s.modMode n = 0 → s.rdf (Reg.lpLimPer n k) 19 0 = 0) ∧
      (s.modMode n = 1 → (s.las n).job ≠ 256 → s.rdf (Reg.lpLimPer n k) 19 0 ≤ (s.las n).period ∧
        ∀ i, i < 8 → s.rdb (Reg.lpLimPer n i) 31 = true → s.rdf (Reg.lpLimPer n i) 19 0 ≤ (s.las n).period →
          s.rdf (Reg.lpLimPer n i) 19 0 ≤ s.rdf (Reg.lpLimPer n k) 19 0)) ∧
  (∀ (n : Nat) (s : State), s.rdb (Reg.lpStat n) 9 = true ∨ (s.las n).alarmActive = true ∨ s.lpLimit n = none ∨
    s.axesClosed n = false ∨ s.rdb Reg.fgdCut n = true ∨ s.laserOn n = false → ((s.gateEval n).las n).gate = false) ∧
  (∀ (n : Fin 16) (T : Nat) (ecc : Ecc) (s : State), s.rds (Reg.lpWinXmin n.val) 23 0 ≤ s.rds (Reg.lpWinXmax n.val) 23 0 →
    let t := s.laserFrame n.val T ecc
    s.rds (Reg.lpWinXmin n.val) 23 0 ≤ (t.las n.val).tgtX ∧ (t.las n.val).tgtX ≤ s.rds (Reg.lpWinXmax n.val) 23 0 ∧
    (t.las n.val).outX.natAbs ≤ 8388607 ∧ (t.las n.val).outY.natAbs ≤ 8388607 ∧
    (t.rdb (Reg.lpStat n.val) 9 = true → (t.las n.val).gate = false))

/-- The laser port's commands and registers: the correction grid's two sets, the park, the counters; an edge starts a job, is
held or is ignored and counted. -/
def Obligations.LaserCommands : Prop :=
  (∀ (b : Bus) (n : Fin 16) (v : Word) (s : State), s.takes b (chPage n.val 3) 0x9C (setBit v 0 true) → s.isLaser n.val = true →
    bit v 1 = false → bit v 2 = false →
    exec (.gridSwap b n v) s = .next (if s.marking n.val then s.ok.wrb (Reg.lpStat n.val) 10 true else s.ok.gridTake n.val)) ∧
  (∀ (n : Fin 16) (s : State), s.isLaser n.val = true → s.powered (chPage n.val 3) = true → s.rdb (Reg.lpStat n.val) 10 = true →
    s.marking n.val = false → exec (.gridSwapApply n) s = .next (s.gridTake n.val)) ∧
  (∀ (n : Fin 16) (s : State), ((s.gridTake n.val).las n.val).grid = (s.las n.val).gridShadow ∧
    ((s.gridTake n.val).las n.val).gridShadow = (s.las n.val).gridShadow ∧ (s.gridTake n.val).rdb (Reg.lpStat n.val) 10 = false ∧
    ((s.gridTake n.val).las n.val).gridBad = false) ∧
  (∀ (b : Bus) (n : Fin 16) (v : Word) (s : State), s.takes b (chPage n.val 3) 0x9C (setBit v 1 true) → s.isLaser n.val = true →
    bit v 0 = false → bit v 2 = false →
    exec (.gridCopyBack b n v) s = .next (s.ok.updLas n.val (fun l => { l with gridShadow := l.grid }))) ∧
  (∀ (b : Bus) (n : Fin 16) (v : Word) (s : State), s.takes b (chPage n.val 3) 0x9C (setBit v 2 true) → s.isLaser n.val = true →
    bit v 0 = false → bit v 1 = false →
    exec (.laserPark b n v) s = .next (if s.marking n.val then s.ok else s.ok.laserPark n.val)) ∧
  (∀ (b : Bus) (n : Fin 16) (v : Word) (s : State), s.takes b (chPage n.val 3) 0x98 v → s.isLaser n.val = true →
    exec (.gridDataWrite b n v) s = .next (s.ok.gridWrite n.val v)) ∧
  (∀ (n : Nat) (v : Word) (s : State), s.rdf (Reg.lpGridSel n) 12 0 ≤ 4224 →
    tabGet 0 ((s.gridWrite n v).las n).gridShadow (s.rdf (Reg.lpGridSel n) 12 0) = v ∧
    (∀ i, i ≠ s.rdf (Reg.lpGridSel n) 12 0 → tabGet 0 ((s.gridWrite n v).las n).gridShadow i = tabGet 0 (s.las n).gridShadow i) ∧
    ((s.gridWrite n v).las n).grid = (s.las n).grid ∧
    (s.gridWrite n v).rdf (Reg.lpGridSel n) 12 0 = s.rdf (Reg.lpGridSel n) 12 0 + 1) ∧
  (∀ (b : Bus) (n : Fin 16) (v : Word) (s : State), s.takes b (chPage n.val 3) 0xF8 v → s.isLaser n.val = true →
    exec (.durMaxClear b n v) s = .next (if bit v 31 then s.ok.wrf (Reg.lpDurMax n.val) 23 0 0 else s.ok)) ∧
  (∀ (b : Bus) (n : Fin 16) (v : Word) (s : State), s.takes b (chPage n.val 4) 0x48 v → s.isLaser n.val = true →
    exec (.bindFePeakClear b n v) s = .next (if bit v 31 then s.ok.wrf (Reg.lpBindFePeak n.val) 23 0 0 else s.ok)) ∧
  (∀ (n : Nat) (s : State), s.laserOn n = true →
    ((s.las n).job ≠ 256 → (s.las n).phase ≠ .ended → s.laserTrigger n 0 = s.cnt (Reg.lpCntIgnored n) 15 0) ∧
    (∀ j, (s.las n).job = 256 → s.markJob n = some j → s.laserTrigger n 0 = s.laserStart n j) ∧
    ((s.las n).job = 256 → s.markJob n = none → s.jobsIn n .armed ≠ [] →
      s.laserTrigger n 0 = s.updLas n (fun l => { l with heldVstart := true })) ∧
    ((s.las n).job = 256 → s.markJob n = none → s.jobsIn n .armed = [] → s.laserTrigger n 0 = s.cnt (Reg.lpCntIgnored n) 15 0) ∧
    (∀ t, t ≠ 0 → s.laserTrigger n t = s)) ∧
  (∀ (n : Fin 16) (j : Nat) (s : State),
    let l := (s.laserStart n.val j).las n.val
    (s.rdf (Reg.lpPreCount n.val) 6 0 = 0 → l.pStart.toNat = (s.job n.val j).trigPos.toNat * 65536 ∧
      l.tracking = s.rdb (Reg.lpCfg n.val) 11 ∧ l.power.toNat = s.rdf (Reg.lpPower n.val) 15 0) ∧
    l.job = j ∧ l.block = 0 ∧ l.record = 0 ∧ l.heldVstart = false ∧ l.jumpSpeed = s.rdf (Reg.lpSpeed n.val) 31 16 ∧
    l.markSpeed = s.rdf (Reg.lpSpeed n.val) 15 0)

/-! ### Servo and tension loops (spec/08) -/

/-- Loop commands: a command waits for the next evaluation and a second one replaces it; OPEN and SWAP are held while the bound
channel marks; a coefficient goes to the shadow bank, or to the active one while OPEN; a swap exchanges the banks and keeps the
loop's states; a CLOSE preloads the integrator; a tune ends at its time. -/
def Obligations.LoopCommands : Prop :=
  (∀ (b : Bus) (m : Fin 48) (c : Instr) (k : Nat) (s : State),
    (c, k) ∈ [(.loopOpen b m, 1), (.loopClose b m, 2), (.loopTune b m, 3), (.abortTune b m, 5)] →
    s.takes b (loopPage m.val) (0x104 + 0x100 * (loopIx m.val % 12)) (BitVec.ofNat 32 k) →
    exec c s = .next ((s.ok.updLoop m.val (fun l => { l with cmd := k })).wrb (Reg.loopStat (loopIx m.val)) 4 true)) ∧
  (∀ (b : Bus) (m : Fin 48) (s : State), s.takes b (loopPage m.val) (0x104 + 0x100 * (loopIx m.val % 12)) 4 →
    exec (.loopSwap b m) s = .next ((s.ok.updLoop m.val (fun l => { l with swap := true })).wrb (Reg.loopStat (loopIx m.val)) 3 true)) ∧
  (∀ (m : Fin 48) (s : State), s.evalDue m.val = true → s.loopHeld m.val = false →
    s.rdf (Reg.loopStat (loopIx m.val)) 10 8 = 4 → exec (.heldLoopCommandApply m) s = .next (s.loopCommands m.val)) ∧
  (∀ (m : Fin 48) (s : State), s.loopHeld m.val = true → ((s.loop m.val).cmd = 1 ∨ (s.loop m.val).cmd = 0) →
    (s.loop m.val).cmd = 1 ∨ (s.loop m.val).swap = true → s.loopCommands m.val = s.loopResult m.val 4) ∧
  (∀ (m : Fin 48) (s : State), s.openLoopMode m.val = false → bankOk (s.loopBank m.val true) = true →
    let t := s.loopSwapNow m.val
    t.loopBank m.val false = s.loopBank m.val true ∧ t.loopBank m.val true = s.loopBank m.val false ∧
    t.loop m.val = s.loop m.val ∧ t.loopSt m.val = s.loopSt m.val) ∧
  (∀ (m : Fin 48) (s : State), s.openLoopMode m.val = false → bankOk (s.loopBank m.val true) = false →
    let t := s.loopSwapNow m.val
    t.loopBank m.val false = s.loopBank m.val false ∧ t.rdf (Reg.loopStat (loopIx m.val)) 10 8 = 3 ∧
    (s.powered (loopPage m.val) = true → t.rdb (Reg.pgSoot (loopPage m.val)) 3 = true)) ∧
  (∀ (m : Fin 48) (s : State), s.loopSt m.val = 0 → s.closeRefused m.val = false →
    let t := s.loopCloseNow m.val
    let lim := bankLim (s.loopBank m.val false) * 65536
    t.loopSt m.val = 1 ∧ (t.loop m.val).integ = clampI (-lim) lim (s.rds (Reg.loopOpenOut (loopIx m.val)) 23 0 * 65536)) ∧
  (∀ (m : Fin 48) (s : State), s.loopSt m.val ≠ 1 → s.closeRefused m.val = true → s.loopCloseNow m.val = s.loopRefuse m.val) ∧
  (∀ (b : Bus) (m : Fin 48) (k : Fin 18) (v : Word) (s : State),
    s.takes b (loopPage m.val) (0x140 + 0x100 * (loopIx m.val % 12) + 4 * k.val) v →
    exec (.coefWrite b m k v) s = .next (if s.openLoopMode m.val && s.loopSt m.val != 0 then s.ok.loopResult m.val 2
      else s.ok.coefPut m.val k.val v)) ∧
  (∀ (m : Fin 48) (k : Fin 18) (v : Word) (s : State),
    (s.coefPut m.val k.val v).coefRead m.val k.val = (if 5 ≤ k.val ∧ k.val ≤ 7 then setFld v 31 24 0 else v) ∧
    (∀ i, i ≠ k.val → (s.coefPut m.val k.val v).coefRead m.val i = s.coefRead m.val i) ∧
    (s.openLoopMode m.val = false → (s.coefPut m.val k.val v).loopBank m.val false = s.loopBank m.val false)) ∧
  (∀ (b : Bus) (m : Fin 48) (v : Word) (s : State), s.takes b (loopPage m.val) (0x100 + 0x100 * (loopIx m.val % 12)) v →
    exec (.coefModeWrite b m v) s = .next (if s.loopSt m.val = 0 then s.ok.plainWrite (Reg.loopCfg (loopIx m.val)) v
      else s.ok.loopRefuse m.val)) ∧
  (∀ (b : Bus) (m : Fin 48) (v : Word) (s : State), s.takes b (loopPage m.val) (0x134 + 0x100 * (loopIx m.val % 12)) v →
    exec (.loopFePeakClear b m v) s = .next (if bit v 31 then s.ok.wrf (Reg.loopFePeak (loopIx m.val)) 23 0 0 else s.ok)) ∧
  (∀ (m : Fin 48) (t : TuneState) (s : State), (s.loop m.val).tune = some t → s.loopSt m.val = 2 →
    t.startTick + s.rdf (Reg.loopTuneCfg (loopIx m.val)) 31 16 * msT ≤ s.now →
    exec (.tuneTimeout m) s = .next (s.loopToOpen m.val 3)) ∧
  (∀ (m : Fin 48) (r : Nat) (s : State),
    let t := s.loopToOpen m.val r
    t.loopSt m.val = 0 ∧ (t.loop m.val).integ = 0 ∧ (t.loop m.val).tune = none ∧ (t.loop m.val).out = (s.loop m.val).out)

/-- Frames and evaluations: what a boundary and an evaluation do; the law's output keeps to its limits and its integrator to
ILIM, holds the integrator against wind-up, and begins at OPEN_OUT; a missing measurement holds the loop; the following-error
watch cuts the gate. -/
def Obligations.LoopLaw : Prop :=
  (∀ (d : Fin 4) (ecc : Vector Ecc 16) (s : State), s.frameDue d.val = true →
    let t := s.frameT d.val
    let u := ({ s with loops := { s.loops with frames := tabPut 0 s.loops.frames d.val (s.now / t * t + 1) } }).loopsShow
    let w := if u.loopsHold then u.cnt (Reg.ldpHoldFrames d.val) 15 0
      else (((u.cntW (Reg.ldpFrameLo d.val)).auxApply d.val).galvoRefs d.val).laserFrames d.val ecc
    exec (.datapathFrameBoundary d ecc) s = .next
      (forN 16 (fun n s => if s.isLaser n && s.loopX n / 8 == d.val then s.downlinkFrame n else s) w)) ∧
  (∀ (m : Fin 48) (s : State), s.evalDue m.val = true →
    exec (.loopEvaluation m .clean) s = .next
      ((s.updLoop m.val (fun l => { l with evalAt := tabGet 0 s.loops.frames (loopDp m.val) })).loopEval m.val)) ∧
  (∀ (l : LoopState) (b : Tab Word) (d q1 q2 : Bool) (a : LoopIn), bankOk b = true →
    bankMin b ≤ (loopLaw l b d q1 q2 a).1.out ∧ (loopLaw l b d q1 q2 a).1.out ≤ bankMax b ∧
    (loopLaw l b d q1 q2 a).1.ePrev = a.r - a.y ∧ (loopLaw l b d q1 q2 a).1.yPrev = some a.y ∧
    (l.integ.natAbs ≤ (bankLim b * 65536).natAbs → (loopLaw l b d q1 q2 a).1.integ.natAbs ≤ (bankLim b * 65536).natAbs) ∧
    ((loopLaw l b d q1 q2 a).1.integ = l.integ ∨ (loopLaw l b d q1 q2 a).1.integ =
      clampI (-(bankLim b * 65536)) (bankLim b * 65536) (sat48 (l.integ + sat48 (bankGain b 1 * (a.r - a.y)))))) ∧
  (∀ (l : LoopState) (b : Tab Word) (d : Bool) (y v : Int), bankOk b = true → bankMin b ≤ v → v ≤ bankMax b →
    (v * 65536).natAbs ≤ (bankLim b * 65536).natAbs → l.integ = v * 65536 → l.ePrev = 0 → l.yPrev = none →
    (loopLaw l b d false false ⟨y, y, 0, 0, none⟩).1.out = v ∧ (loopLaw l b d false false ⟨y, y, 0, 0, none⟩).2 = (0, false)) ∧
  (∀ (m : Fin 48) (s : State), m.val < 32 → (s.loop m.val).meas = none → (s.loop m.val).cmd = 0 → (s.loop m.val).swap = false →
    s.loopSt m.val ≠ 0 → s.loopEval m.val = s.cnt (Reg.loopHoldCnt (loopIx m.val)) 15 0) ∧
  (∀ (n : Fin 16) (axisY : Bool) (y : Int) (s : State),
    let m := if axisY then s.loopY n.val else s.loopX n.val
    let e := ((s.loop m).ref - y).natAbs
    let on := (s.las n.val).gate || (s.las n.val).gateCmd || s.pins.gate.getLsbD n.val
    let t := s.feWatch n.val axisY (some y)
    (e ≤ s.rdf (Reg.loopFeWin (loopIx m)) 23 0 ∨ on = false → (t.loop m).feCount = 0 ∧ t.pins = s.pins) ∧
    (s.rdf (Reg.loopFeWin (loopIx m)) 23 0 < e → on = true → s.rdf (Reg.loopFeCfg (loopIx m)) 2 0 ≤ (s.loop m).feCount + 1 →
      s.isLaser n.val = true → (t.las n.val).gate = false ∧
        (s.powered (chPage n.val 4) = true → t.rdb (Reg.pgSoot (chPage n.val 4)) 0 = true)) ∧
    (s.rdf (Reg.loopFeWin (loopIx m)) 23 0 < e → on = true → (s.loop m).feCount + 1 < s.rdf (Reg.loopFeCfg (loopIx m)) 2 0 →
      (t.loop m).feCount = (s.loop m).feCount + 1 ∧ t.pins = s.pins)) ∧
  (∀ (m : Fin 48) (s t : State), exec (.loopEvaluation m .clean) s = .next t →
    sameMem s t ∧ t.pending = s.pending ∧ t.now = s.now ∧ ∀ k, k ≠ m.val → t.loop k = s.loop k)

/-! ### Drives (spec/09) -/

/-- Stepper ports: one tick of the trapezoidal generator keeps to VMAX and DECEL_MAX and does not pass a target it can stop at; a
tick is served once; the chopper's trip and off-time; commands, held while the bound channel marks; targets, SET_POS, RESUME and
a stall. -/
def Obligations.StepperPorts : Prop :=
  (∀ (v dd a d dm vmax : Nat) (braking : Bool), d ≤ dm →
    let pl := trapPlan v dd a d dm vmax braking
    (pl.snap = false → v ≤ pl.v + dm ∧ pl.v ≤ Nat.max v vmax ∧ (pl.pass = false → v + pl.v ≤ dd)) ∧
    (pl.pass = true ↔ dm * dd < v * v ∧ ¬ (v ≤ dm ∧ dd ≤ v)) ∧
    (pl.pass = true → pl.v = v - dm) ∧ (v = 0 → dd = 0 → pl.snap = true)) ∧
  (∀ (p : Fin 16) (s : State), s.stpOn p.val = true → s.stpDc p.val = false → s.stpSt p.val ≠ 0 →
    (s.step_ p.val).tickAt ≠ s.now / usT + 1 → s.now % usT < 2 →
    ∃ t, exec (.profileTick p) s = .next t ∧ (t.step_ p.val).tickAt = s.now / usT + 1 ∧ sameMem s t ∧ t.now = s.now ∧
      t.pending = s.pending ∧ exec (.profileTick p) t = .next t) ∧
  (∀ (p : Fin 16) (coil : Fin 2) (s : State),
    let c := (s.step_ p.val).chop (coil.val == 1)
    s.stpOn p.val = true → s.stpSt p.val ≠ stpShorted → c.driving = true →
    c.onAt + s.driveTime (s.rdf (Reg.stpChop p.val) 18 11 * 4) ≤ s.now →
    exec (.chopperTrip p coil) s = .next (
      let off := s.driveTime (s.rdf (Reg.stpChop p.val) 10 0 * 4)
      let u := s.setStep_ p.val ((s.step_ p.val).setChop (coil.val == 1) { c with
        driving := false, offAt := s.now, until_ := s.now + off, zeroAt := none })
      match c.zeroAt with
      | some z => if (s.step_ p.val).vel = 0 ∨ s.stpDc p.val then u else u.loadStep p.val (s.now - z)
      | none => u)) ∧
  (∀ (p : Fin 16) (coil : Fin 2) (s : State),
    let c := (s.step_ p.val).chop (coil.val == 1)
    s.stpOn p.val = true → s.stpSt p.val ≠ stpShorted → c.driving = false → c.until_ ≤ s.now →
    s.coilCode p.val (coil.val == 1) ≠ 0 →
    exec (.chopperOffEnd p coil) s = .next (s.setStep_ p.val ((s.step_ p.val).setChop (coil.val == 1) { c with
      driving := true, onAt := s.now }))) ∧
  (∀ (p : Fin 16) (r : Nat) (s : State), (s.step_ p.val).restAt = some r → s.stpOn p.val = true → (s.step_ p.val).vel = 0 →
    s.stpSt p.val ≠ 0 → r + s.rdf (Reg.stpAdapt p.val) 31 24 * 10 * msT ≤ s.now →
    exec (.holdCurrentTimeout p) s = .next ((s.updStep_ p.val (fun t => { t with restAt := none })).wrf (Reg.stpStat p.val) 31 24
      (s.rdf (Reg.stpCurrent p.val) 23 16))) ∧
  (∀ (b : Bus) (p : Fin 16) (v : Word) (s : State), s.takes b (stpPage p.val) 0x84 v →
    exec (.stepperTargetWrite b p v) s = .next (s.ok.stpTargetWrite p.val v)) ∧
  (∀ (p : Fin 16) (v : Word) (s : State), s.stpSt p.val ≠ 0 →
    (s.stpTargetWrite p.val v).rd (Reg.stpTarget p.val) = v ∧
    (s.stpSt p.val = stpStalled → (s.stpTargetWrite p.val v).step_ p.val = s.step_ p.val) ∧
    (s.stpSt p.val ≠ stpStalled → ((s.stpTargetWrite p.val v).step_ p.val).stored =
      some (sword v * posU + s.rdf (Reg.stpTargetFrac p.val) 15 0 * 2000000000))) ∧
  (∀ (b : Bus) (p : Fin 16) (k : ProfileParam) (off : Nat) (v : Word) (s : State),
    (k, off) ∈ [(ProfileParam.accel, 0x8C), (.decel, 0x90), (.jerk, 0x98)] → s.takes b (stpPage p.val) off v →
    exec (.profileParamWrite b p k v) s = .next (s.ok.wr (pageBase (stpPage p.val) + off) v)) ∧
  (∀ (b : Bus) (p : Fin 16) (c : Instr) (k : Nat) (s : State), (c, k) ∈ [(.stepperStop b p, 1), (.stepperHome b p, 2),
      (.stepperSetPos b p, 3), (.stepperGear b p, 4), (.stepperUngear b p, 5), (.stepperResume b p, 6)] →
    s.takes b (stpPage p.val) 0x9C (BitVec.ofNat 32 k) → s.stpOn p.val = true →
    exec c s = .next (if s.stpMarking p.val && k != 4 && k != 6 then s.ok.updStep_ p.val (fun t => { t with held := t.held ++ [k] })
      else s.ok.stpDo p.val k)) ∧
  (∀ (p : Fin 16) (k : Nat) (s : State), s.stpOn p.val = true → s.stpMarking p.val = false → (s.step_ p.val).held = [k] → k ≤ 6 →
    exec (.heldStepperCommandApply p) s = .next ((s.updStep_ p.val (fun t => { t with held := [] })).stpDo p.val k)) ∧
  (∀ (p : Fin 16) (s : State), [1, 2, 3, 5, 7].contains (s.stpSt p.val) = true → s.stpDc p.val = false →
    let t := s.stpSetPosNow p.val
    t.stpSt p.val = stpIdle ∧ t.rdb (Reg.stpStat p.val) 4 = false ∧ (t.step_ p.val).vel = 0 ∧
    (t.step_ p.val).pos = sword (s.rd (Reg.stpSetpos p.val)) * posU ∧ (t.step_ p.val).target = (t.step_ p.val).pos) ∧
  (∀ (p : Fin 16) (s : State), s.stpDc p.val = false → s.deviceSafe = false →
    let t := s.stpResumeNow p.val
    (s.stpSt p.val = stpStalled ∨ s.stpSt p.val = stpHalted → t.stpSt p.val = stpIdle ∧
      (t.step_ p.val).pos = (s.step_ p.val).pos ∧ (t.step_ p.val).target = (s.step_ p.val).pos ∧
      t.rdb (Reg.stpStat p.val) 4 = s.rdb (Reg.stpStat p.val) 4) ∧
    (s.stpSt p.val ≠ stpStalled → s.stpSt p.val ≠ stpHalted → t = s)) ∧
  (∀ (p : Fin 16) (s : State), s.stpSt p.val ≠ stpHoming → s.powered (stpPage p.val) = true →
    let t := s.stall p.val
    t.stpSt p.val = stpStalled ∧ (t.step_ p.val).vel = 0 ∧ t.rdb (Reg.stpStat p.val) 4 = true ∧
    t.rdf (Reg.stpStat p.val) 31 24 = s.rdf (Reg.stpCurrent p.val) 23 16 ∧ t.rdb (Reg.pgSoot (stpPage p.val)) 0 = true ∧
    (∀ n j, s.stpCh p.val = some n → j ∈ s.jobsIn n .marking → (t.job n j).cond = condMax (s.job n j).cond 7)) ∧
  (∀ (b : Bus) (p : Fin 16) (v : Word) (s : State), s.takes b (stpPage p.val) 0xD4 v →
    exec (.dcDutyWrite b p v) s = .next ((s.ok.wrf (Reg.stpDcDuty p.val) 23 0 (fld v 23 0)).updStep_ p.val
      (fun t => { t with dcHold := false }))) ∧
  (∀ (b : Bus) (p : Fin 16) (coil : Fin 2) (v : Word) (k : ProfileParam) (c : Instr) (s t : State),
    c ∈ [.stepperStop b p, .stepperHome b p, .stepperSetPos b p, .stepperGear b p, .stepperUngear b p, .stepperResume b p,
      .stepperTargetWrite b p v, .profileParamWrite b p k v, .dcDutyWrite b p v, .holdCurrentTimeout p, .chopperTrip p coil,
      .chopperOffEnd p coil] → exec c s = .next t →
    sameMem s t ∧ t.pending = s.pending ∧ t.now = s.now ∧ ∀ q, q ≠ p.val → t.step_ q = s.step_ q)

/-- BLDC ports and motor buses: the start sequence, crossings and commutations, failures and restarts, the speed command; a bus's
levels, its brake's current check, active short and its end. -/
def Obligations.BlowersAndBuses : Prop :=
  (∀ (b : Bus) (k : Fin 4) (s : State), s.takes b (blPage k.val) 0x60 1 → exec (.bldcOn b k) s = .next (s.ok.blOnNow k.val)) ∧
  (∀ (b : Bus) (k : Fin 4) (s : State), s.takes b (blPage k.val) 0x60 2 → exec (.bldcOff b k) s = .next (s.ok.blOffNow k.val)) ∧
  (∀ (b : Bus) (k : Fin 4) (s : State), s.takes b (blPage k.val) 0x60 3 → exec (.bldcStop b k) s = .next (s.ok.blStopNow k.val)) ∧
  (∀ (k : Fin 4) (s : State), s.blOn k.val = true →
    (s.deviceSafe = false → s.blSt k.val = 0 → (s.blOnNow k.val).blSt k.val = 1 ∧ ((s.blOnNow k.val).bldc k.val).on = true) ∧
    (s.blSt k.val ≠ 6 → (s.blOffNow k.val).blSt k.val = 0 ∧ (s.blOffNow k.val).rdf (Reg.blDrive k.val) 25 16 = 0 ∧
      ((s.blOffNow k.val).bldc k.val).on = false) ∧
    (s.blSt k.val = 5 → (s.blStopNow k.val).blSt k.val = 2 ∧ ((s.blStopNow k.val).bldc k.val).stopping = true ∧
      ((s.blStopNow k.val).bldc k.val).on = false)) ∧
  (∀ (k : Fin 4) (s : State), s.blOn k.val = true → s.blSt k.val = 1 → (s.bldc k.val).since + 10 * msT ≤ s.now →
    let fast := s.rdf (Reg.blSpeeds k.val) 15 0 < erpmOf (meanOf (s.bldc k.val).times)
    (fast → (s.bldc k.val).fwd = true → exec (.bldcSenseEnd k) s = .next (s.blRun k.val true)) ∧
    (fast → (s.bldc k.val).fwd = false → exec (.bldcSenseEnd k) s = .next (s.blEnter k.val 2)) ∧
    (¬ fast → exec (.bldcSenseEnd k) s = .next (s.blAlign k.val))) ∧
  (∀ (k : Fin 4) (fwd : Bool) (t0 : Nat) (s : State), s.blOn k.val = true → (s.bldc k.val).lastCross = some t0 →
    let times := ((s.now - t0) :: (s.bldc k.val).times).take 6
    (s.blSt k.val = 5 → exec (.bldcZeroCrossing k fwd) s = .next (((s.setBldc k.val { (s.bldc k.val) with
      times := times, lastCross := some s.now, fwd := fwd, commAt := some (s.now + meanOf times / 2) }).blControl k.val).blShow k.val)) ∧
    (s.blSt k.val = 1 → exec (.bldcZeroCrossing k fwd) s = .next ((s.setBldc k.val { (s.bldc k.val) with
      times := times, lastCross := some s.now, fwd := fwd }).blShow k.val))) ∧
  (∀ (k : Fin 4) (t0 : Nat) (s : State), s.blOn k.val = true → s.blSt k.val = 5 → (s.bldc k.val).commAt = some t0 → t0 ≤ s.now →
    exec (.bldcCommutation k) s = .next (s.updBldc k.val (fun b => { b with
      sector := (b.sector + 1) % 6, sectorAt := s.now, commAt := none, forced := b.forced + 1 }))) ∧
  (∀ (k : Fin 4) (s : State), s.blOn k.val = true → s.blSt k.val = 3 →
    (s.bldc k.val).since + s.rdf (Reg.blStart k.val) 15 8 * msT ≤ s.now →
    ∃ t, exec (.bldcAlignEnd k) s = .next t ∧ t.blSt k.val = 4 ∧ (t.bldc k.val).since = s.now ∧ (t.bldc k.val).times = [] ∧
      t.rdf (Reg.blDrive k.val) 25 16 ≤ s.rdf (Reg.blPwm k.val) 25 16 ∧ sameMem s t) ∧
  (∀ (k : Fin 4) (s : State), s.blOn k.val = true → s.blSt k.val = 4 →
    (s.bldc k.val).since + s.rdf (Reg.blStart k.val) 23 16 * 10 * msT + 100 * msT ≤ s.now →
    exec (.bldcStartFail k) s = .next (s.blFail k.val 0)) ∧
  (∀ (k : Fin 4) (s : State), s.blOn k.val = true → s.blSt k.val = 5 →
    Nat.max (s.bldc k.val).since ((s.bldc k.val).lastCross.getD 0) + 2 * meanOf (s.bldc k.val).times ≤ s.now →
    exec (.bldcBemfLost k) s = .next (s.blFail k.val 1)) ∧
  (∀ (k : Fin 4) (i : Fin 2) (s : State), s.powered (blPage k.val) = true → (s.blFail k.val i.val).blSt k.val = 7 ∧
    (s.blFail k.val i.val).rdb (Reg.pgSoot (blPage k.val)) i.val = true ∧ ((s.blFail k.val i.val).bldc k.val).on = (s.bldc k.val).on ∧
    ((s.blFail k.val i.val).blGates k.val).1 = [false, false, false] ∧
    ((s.blFail k.val i.val).blGates k.val).2 = [false, false, false]) ∧
  (∀ (k : Fin 4) (s : State), s.blOn k.val = true → s.blSt k.val = 7 → (s.bldc k.val).on = true →
    (s.bldc k.val).since + secT ≤ s.now → exec (.bldcRestart k) s = .next (s.blStart k.val)) ∧
  (∀ (k : Fin 4) (s : State), s.blOn k.val = true → s.blSt k.val = 5 → (s.bldc k.val).learnN ≠ 0 →
    (s.bldc k.val).learnAt + 100 * msT ≤ s.now →
    exec (.bldcLearnUpdate k) s = .next ((s.updBldc k.val (fun b => { b with learnSum := 0, learnN := 0, learnAt := s.now })).wrf
      (Reg.blLearn k.val) 15 0 (satN 0xFFFF ((s.bldc k.val).learnSum / (s.bldc k.val).learnN)))) ∧
  (∀ (k : Nat) (s : State), ((s.bldc k).on = true → s.rdf (Reg.blSpeeds k) 31 16 ≤ s.blCommand k) ∧
    (s.curveX k = none → s.curveSpeed k = (s.curvePt k 15).2) ∧
    (∀ x, s.curveX k = some x → x < (s.curvePt k 0).1 → s.curveSpeed k = (s.curvePt k 0).2) ∧
    (∀ x, s.curveX k = some x → (∀ i, i < 16 → (s.curvePt k i).1 ≤ x) → s.curveSpeed k = (s.curvePt k 15).2)) ∧
  (∀ (u : Fin 2) (mv : BitVec 16) (s : State), s.mbOn u.val = true →
    exec (.busLevelCrossing u mv) s = .next (if (s.busCrossing u.val mv.toNat).2 then (s.busCrossing u.val mv.toNat).1.ov3Step
      else (s.busCrossing u.val mv.toNat).1)) ∧
  (∀ (u : Fin 2) (mv : BitVec 16) (s : State), s.mbOn u.val = true →
    let t := (s.busCrossing u.val mv.toNat).1
    t.rdf (Reg.mbStat u.val) 15 0 = mv.toNat ∧
    (s.rdf (Reg.mbOv2 u.val) 15 0 ≤ mv.toNat → (∀ p : Fin 16, s.stpBus p.val = u.val → s.stpOn p.val = true →
      t.stpSt p.val = stpShorted) ∧ ∀ k : Fin 4, s.blBus k.val = u.val → s.blOn k.val = true → t.blSt k.val = 6) ∧
    (s.rdf (Reg.mbOv3 u.val) 15 0 ≤ mv.toNat → t.pins.drvEn = 0) ∧ sameMem s t) ∧
  (∀ (u : Fin 2) (code : BitVec 10) (t0 : Nat) (s : State), (s.mbus u.val).edgeAt = some t0 → s.mbOn u.val = true →
    t0 + 5 * usT ≤ s.now →
    exec (.brakeCurrentCheck u code) s = .next (
      let w := s.updMbus u.val (fun b => { b with edgeAt := none })
      let bad := if w.rdb (Reg.mbStat u.val) 16 then decide (code.toNat ≤ w.rdf (Reg.mbBrkImin u.val) 9 0)
        else decide (w.rdf (Reg.mbBrkImin u.val) 9 0 < code.toNat)
      if bad && w.rdb (Reg.mbCfg u.val) 16 && ! w.rdb (Reg.mbStat u.val) 20 then w.chopperFault u.val else w)) ∧
  (∀ (b : Bus) (u : Fin 2) (v : Word) (s : State), s.takes b (mbPage u.val) 0x5C (setBit v 0 true) →
    exec (.clearCf b u v) s = .next ((s.ok.wrb (Reg.mbStat u.val) 20 false).brakeGate u.val)) ∧
  (∀ (u : Fin 2) (t0 : Nat) (s : State), (s.mbus u.val).lowSince = some t0 → s.mbOn u.val = true → s.busShorted u.val = true →
    t0 + s.rdf (Reg.mbHold u.val) 15 0 * msT ≤ s.now →
    ∃ t, exec (.shortHoldEnd u) s = .next t ∧ t.rdb (Reg.mbStat u.val) 21 = false ∧ sameMem s t ∧
      ∀ p : Fin 16, s.stpBus p.val = u.val → s.stpOn p.val = true → s.stpSt p.val = stpShorted → t.stpSt p.val = stpHalted ∧
        t.rdb (Reg.stpStat p.val) 4 = true ∧ t.rdf (Reg.stpStat p.val) 31 24 = s.rdf (Reg.stpCurrent p.val) 23 16) ∧
  (∀ (b : Bus) (u : Fin 2) (v : Word) (s : State), s.takes b (mbPage u.val) 0x64 v →
    exec (.mbVpeakClear b u v) s = .next (if bit v 31 then s.ok.wrf (Reg.mbVpeak u.val) 15 0 0 else s.ok))

/-! ### Agjor Link (spec/10) -/

/-- The Agjor Link: a downlink's fields, sequence and CRC, and what it holds back while training; an uplink frame judged; a lone
bad frame; a link fault cuts the gate and starts training; the tap search, its eye and its retries; RETRAIN, held while a job
marks; CLEAR. -/
def Obligations.AgjorLink : Prop :=
  (∀ (n : Fin 16) (s : State), s.linkOn n.val = true → (s.lnk n.val).startDue = false →
    let t := s.downlinkFrame n.val
    let f := (t.lnk n.val).downlink.toNat
    f / 2 ^ 112 = 0xD42B ∧ f / 2 ^ 104 % 256 = (s.lnk n.val).seq.toNat ∧
    f % 2 ^ 16 = (crc16 (beBytes 12 (f / 2 ^ 16 % 2 ^ 96))).toNat ∧ (t.lnk n.val).seq = (s.lnk n.val).seq + 1 ∧
    t.rdf (Reg.lkSeq n.val) 7 0 = (s.lnk n.val).seq.toNat ∧
    ((s.lnk n.val).train = true → f / 2 ^ 40 % 2 ^ 64 = 0 ∧ f / 2 ^ 16 % 2 = 0 ∧ f / 2 ^ 21 % 2 = 1) ∧
    (s.lenServes n.val = false → f / 2 ^ 40 % 2 ^ 16 = 0 ∧ f / 2 ^ 17 % 2 = 0)) ∧
  (∀ u : BitVec 160, upField u 0 16 = 0xD42B → upFormOk u = false) ∧
  (∀ (n : Fin 16) (bits : BitVec 160) (rtt : Nat) (s : State), s.uplinkDue n.val = true →
    exec (.uplinkFrame n bits rtt) s = .next (
      let good := upFormOk bits && ! upBit bits 5 && decide (upField bits 16 8 = s.rdf (Reg.lkSeq n.val) 7 0) && decide (rtt ≤ 600)
      let u := (s.updLnk n.val (fun k => { k with judged := true })).wrf (Reg.lkRtt n.val) 11 0 (satN 0xFFF rtt)
      let v := (u.peak (Reg.lkRtt n.val) 27 16 (satN 0xFFF rtt)).wrf (Reg.lkSeq n.val) 15 8 (upField bits 16 8)
      let w := if good then v.upReport n.val bits else v
      if w.rdf (Reg.lkStat n.val) 1 0 = 1 then w.tapFrame n.val good
      else if w.rdf (Reg.lkStat n.val) 1 0 = 2 then (if good then w.upGood n.val bits else w.upBad n.val false)
      else w)) ∧
  (∀ (n : Fin 16) (f : Nat) (s : State), s.uplinkDue n.val = true → s.frameOpen n.val = some f → f + 600 ≤ s.now →
    let u := s.updLnk n.val (fun k => { k with judged := true })
    (s.rdf (Reg.lkStat n.val) 1 0 = 1 → exec (.uplinkMissing n) s = .next (u.tapFrame n.val false)) ∧
    (s.rdf (Reg.lkStat n.val) 1 0 = 2 → exec (.uplinkMissing n) s = .next (u.upBad n.val true))) ∧
  (∀ (n : Fin 16) (missing : Bool) (s : State), s.linkOn n.val = true → (s.lnk n.val).lastBad = false →
    let t := s.upBad n.val missing
    t.rdb (Reg.pgSoot (chPage n.val 5)) 2 = true ∧ (t.lnk n.val).lastBad = true ∧
    t.rdf (Reg.lkStat n.val) 1 0 = s.rdf (Reg.lkStat n.val) 1 0 ∧
    ((s.lnk n.val).gateNow = true → ∀ j ∈ s.jobsIn n.val .marking, (t.job n.val j).cond = condMax (s.job n.val j).cond 7)) ∧
  (∀ (n : Fin 16) (missing : Bool) (s : State), s.linkOn n.val = true → (s.lnk n.val).lastBad = true →
    let t := s.upBad n.val missing
    (t.las n.val).gate = false ∧ t.rdb (Reg.pgSoot (chPage n.val 5)) 0 = true ∧ t.rdf (Reg.lkStat n.val) 1 0 ≠ 2 ∧
    (t.lnk n.val).train = true ∧ t.rdb Reg.fgdCut n.val = true) ∧
  (∀ (n : Fin 16) (s : State), s.linkOn n.val = true → exec (.uclkLoss n) s = .next (
    let u := s.wrb (Reg.lkStat n.val) 2 false
    if u.rdf (Reg.lkStat n.val) 1 0 = 2 then u.linkFault n.val else u)) ∧
  (∀ (n : Fin 16) (t0 : Nat) (s : State), s.linkOn n.val = true → (s.lnk n.val).waitTo = some t0 → t0 ≤ s.now →
    exec (.trainingWaitEnd n) s = .next (s.updLnk n.val (fun k => { k with
      waitTo := none, searching := true, tap := 0, frames := 0, tapGood := true, tapMap := 0 }))) ∧
  (∀ m : BitVec 64, (∀ i, i < (eyeOf m).1 → m.getLsbD ((eyeOf m).2 + i) = true) ∧ (eyeOf m).2 + (eyeOf m).1 ≤ 64 ∧
    ∀ a l, a + l ≤ 64 → (∀ i, i < l → m.getLsbD (a + i) = true) → l ≤ (eyeOf m).1 ∧ (l = (eyeOf m).1 → 0 < l → (eyeOf m).2 ≤ a)) ∧
  (∀ (n : Fin 16) (s : State), s.linkOn n.val = true → (s.lnk n.val).searching = true → 64 ≤ (s.lnk n.val).tap →
    let e := eyeOf (s.lnk n.val).tapMap
    let u := ((s.wr (Reg.lkEyeMapLo n.val) (loW (s.lnk n.val).tapMap.toNat)).wr (Reg.lkEyeMapHi n.val)
      (hiW (s.lnk n.val).tapMap.toNat)).updLnk n.val (fun k => { k with searching := false })
    exec (.trainingComplete n) s = .next (
      if u.rdf (Reg.lkCfg n.val) 5 0 ≤ e.1 then
        (((u.updLnk n.val (fun k => { k with train := false, lastBad := false })).wrf (Reg.lkStat n.val) 13 8 (e.2 + e.1 / 2)).wrf
          (Reg.lkStat n.val) 21 16 (satN 63 e.1)).setLinkSt n.val 2
      else (((u.setLinkSt n.val 3).cnt (Reg.lkTrainCnt n.val) 31 16).irq (chPage n.val 5) 2).soot (chPage n.val 5) 1)) ∧
  (∀ (n : Fin 16) (s : State), s.linkOn n.val = true → s.rdf (Reg.lkStat n.val) 1 0 = 3 → (s.lnk n.val).startDue = false →
    s.rdf (Reg.clkSynStat 3) 2 0 = 2 → (s.lnk n.val).attemptAt + 100 * msT ≤ s.now →
    exec (.trainingRetry n) s = .next (s.trainStart n.val)) ∧
  (∀ (b : Bus) (n : Fin 16) (v : Word) (s : State), s.takes b (chPage n.val 5) 0x44 (setBit v 0 true) → bit v 1 = false →
    s.linkOn n.val = true →
    exec (.linkRetrain b n v) s = .next (if s.marking n.val then s.ok.wrb (Reg.lkStat n.val) 4 true else s.ok.retrainNow n.val)) ∧
  (∀ (n : Fin 16) (s : State), s.linkOn n.val = true → s.rdb (Reg.lkStat n.val) 4 = true → s.marking n.val = false →
    exec (.heldRetrainApply n) s = .next (s.retrainNow n.val)) ∧
  (∀ (b : Bus) (n : Fin 16) (v : Word) (s : State), s.takes b (chPage n.val 5) 0x44 (setBit v 1 true) → bit v 0 = false →
    exec (.linkClear b n v) s = .next ((s.ok.wr (Reg.lkCntBad n.val) 0).wrf (Reg.lkRtt n.val) 27 16 0)) ∧
  (∀ (n : Fin 16) (bits : BitVec 160) (rtt : Nat) (c : Instr) (s t : State), c ∈ [.uplinkFrame n bits rtt, .uplinkMissing n,
      .uclkLoss n, .trainingWaitEnd n, .trainingComplete n, .trainingRetry n, .heldRetrainApply n] → exec c s = .next t →
    sameMem s t ∧ t.pending = s.pending ∧ t.now = s.now ∧ (∀ m, m ≠ n.val → t.lnk m = s.lnk m) ∧ t.drives = s.drives)

/-! ### Memory (spec/11) -/

/-- Memory: every data address lies in a row that is not a spare; one ready transaction is issued, a write changes its bytes and no
others, an access out of range or a partial write on an uncorrectable word changes none; write-backs, refresh, MR4, training and
retraining; remap and repair; the error log; SRAM scrub and repairs, two spare rows to a macro. -/
def Obligations.MemoryControllers : Prop :=
  (∀ (a : Nat) (s : State), s.inDram a 1 = true →
    (s.dramRow a).chan < 2 ∧ (s.dramRow a).bank < 8 ∧ (s.dramRow a).row < s.dramRows ∧
    (s.dramRow a).rank * s.dramRows + (s.dramRow a).row + 4 < s.dramRanks * s.dramRows + 1) ∧
  (∀ (q : DramReq) (ecc : DramEcc) (s : State), s.domOn 5 = true → [2, 3, 5].contains s.ddrSt = true → s.ddr.hold = false →
    s.reqFree q = true →
    exec (.dramTransaction [q] ecc) s = .next (
      let k := if q.port.val = s.ddr.lastPort then s.ddr.served + 1 else 1
      let u := { s with ddr := { s.ddr with lastPort := q.port.val, served := k } }
      (u.outstanding []).dramIssue q ecc)) ∧
  (∀ (q : DramReq) (ecc : DramEcc) (s : State), q.data ≠ [] →
    let a := q.addr.toNat
    let t := s.dramIssue q ecc
    (s.inDram a q.data.length = false → sameMem s t ∧ t.resp = ⟨true, 0⟩) ∧
    (s.inDram a q.data.length = true → a % 8 ≠ 0 ∨ q.data.length % 8 ≠ 0 → ∀ syn, ecc = .uncorrectable syn →
      sameMem s t ∧ t.resp = ⟨true, 0⟩) ∧
    (s.inDram a q.data.length = true → (a % 8 = 0 ∧ q.data.length % 8 = 0) ∨ ecc = .clean → t.resp = ⟨false, 0⟩ ∧
      (∀ i, i < q.data.length → q.data[i]? = some (t.rdByte (a + i))) ∧
      ∀ x, x < a ∨ a + q.data.length ≤ x → t.rdByte x = s.rdByte x)) ∧
  (∀ (w : Writeback) (rest : List Writeback) (s : State), s.ddr.writebacks = w :: rest → s.domOn 5 = true →
    exec .correctedWriteback s = .next { s with ddr := { s.ddr with writebacks := rest } }) ∧
  (∀ (c : Fin 2) (s : State), s.domOn 5 = true → [2, 3, 5].contains s.ddrSt = true →
    tabGet 0 s.ddr.refAt c.val + s.rdf Reg.ddrRefCfg 15 0 * s.ddr.mult / 10 ≤ s.now + 1 →
    exec (.dramRefresh c) s = .next (
      let bank := (tabGet 0 s.ddr.refBank c.val + 1) % 8
      { s with ddr := { s.ddr with
        refAt := tabPut 0 s.ddr.refAt c.val (s.now + 1), refBank := tabPut 0 s.ddr.refBank c.val bank } })) ∧
  (∀ (rates : Vector (BitVec 3) 2) (s : State), s.domOn 5 = true → [2, 3].contains s.ddrSt = true →
    s.ddr.mr4At + s.rdf Reg.ddrRefCfg 23 16 * msT ≤ s.now → ∃ t, exec (.mr4Poll rates) s = .next t ∧ t.ddr.mr4At = s.now ∧
      t.rdf Reg.ddrStat 10 8 = (rates.getD 0 0).toNat ∧ t.rdf Reg.ddrStat 14 12 = (rates.getD 1 0).toNat ∧
      ((rates.getD 0 0).toNat = 7 → s.powered .ddr = true → t.rdb (Reg.pgSoot .ddr) 4 = true)) ∧
  (∀ (s : State), s.domOn 5 = true → s.ddrSt = 1 →
    exec (.ddrTrainingDone false) s = .next
      ((({ s with ddr := { s.ddr with failAt := some s.now } }).setDdrSt 6).soot .ddr 2) ∧
    (s.bootAt 6 = false → ∃ t, exec (.ddrTrainingDone true) s = .next t ∧ t.ddrSt = 2 ∧ t.ddr.trainedAt = s.now)) ∧
  (∀ (t0 : Nat) (s : State), s.ddr.failAt = some t0 → s.domOn 5 = true → s.ddrSt = 6 → t0 + 5 * secT ≤ s.now →
    exec .ddrTrainingRetry s = .next s.ddrTrain) ∧
  (∀ (s : State), s.banking 7 = true → s.domOn 5 = true → s.ddrSt = 2 →
    s.ddr.trainedAt + s.rdf Reg.ddrRetrainCfg 15 0 * secT ≤ s.now → exec .retrainIntervalExpiry s = .next s.retrain) ∧
  (∀ (taps : Vector (BitVec 8) 2) (s : State), s.domOn 5 = true → [2, 3].contains s.ddrSt = true → s.banking 7 = true →
    s.ddr.driftAt + s.rdf Reg.ddrDriftCfg 15 0 * msT ≤ s.now →
    let u := { s with ddr := { s.ddr with driftAt := s.now } }
    (u.rdf Reg.ddrRetrainCfg 31 24 < (taps.getD 0 0).toNat → exec (.dqsDriftPoll taps) s = .next u.retrain) ∧
    ((taps.getD 0 0).toNat ≤ u.rdf Reg.ddrRetrainCfg 31 24 → (taps.getD 1 0).toNat ≤ u.rdf Reg.ddrRetrainCfg 31 24 →
      exec (.dqsDriftPoll taps) s = .next u)) ∧
  (∀ (b : Bus) (v : Word) (s : State), s.takes b .ddr 0x90 (setBit v 0 true) → bit v 1 = false → bit v 2 = false → bit v 3 = false →
    exec (.ddrRetrain b v) s = .next (if s.ddrSt == 2 || s.ddrSt == 3 then (s.ok.ddrRes 2 0).retrain.irq .ddr 4
      else s.ok.ddrDone 3 0)) ∧
  (∀ (s : State), s.ddrSt = 2 → s.domOn 5 = true → s.retrain.ddrSt = 3 ∧ s.retrain.ddr.slices = 256 ∧
    s.retrain.ddr.retrainFrom = s.now) ∧
  (∀ (c : Fin 2) (found : Bool) (s : State), s.domOn 5 = true → s.ddrSt = 3 → 0 < s.ddr.slices → s.ddr.panic = 0 →
    s.ddr.sliceAt + 10 * usT ≤ s.now →
    (1 < s.ddr.slices → exec (.retrainSlice c found) s = .next (
      let ok := listSet s.ddr.retrainOk c.val found
      { s with ddr := { s.ddr with slices := s.ddr.slices - 1, sliceAt := s.now, retrainOk := ok } })) ∧
    (s.ddr.slices = 1 → s.ddr.retrainOk = [true, true] → ∃ t, exec (.retrainSlice c found) s = .next t ∧ t.ddrSt = 2 ∧
      t.ddr.slices = 0 ∧ t.ddr.hold = false ∧ t.ddr.trainedAt = s.now ∧ t.rdb Reg.ddrStat 3 = ! found)) ∧
  (∀ (b : Bus) (v : Word) (s : State), s.takes b .ddr 0x90 (setBit v 2 true) → bit v 0 = false → bit v 1 = false → bit v 3 = false →
    exec (.ddrRowRemap b v) s = .next (if (s.ddrSt == 2 || s.ddrSt == 3) && s.inDram s.ddrTgt 1 then
      s.ok.remapAsk (s.ok.dramRow s.ok.ddrTgt) true else s.ok.ddrDone 3 2)) ∧
  (∀ (k : Nat) (r : DramRow) (cmd : Bool) (s : State), s.ddr.copying = some (k, r, cmd) →
    ∃ t, exec .remapCopyDone s = .next t ∧ t.remapEntry k = some r ∧ (∀ i, i ≠ k → t.remapEntry i = s.remapEntry i) ∧ sameMem s t) ∧
  (∀ (c k : Nat) (s : State), s.spareOf c = some k → k < 64 ∧ k / 32 = c ∧ s.remapEntry k = none) ∧
  (∀ (b : Bus) (v : Word) (k : Nat) (s : State), s.takes b .ddr 0x90 (setBit v 3 true) → bit v 0 = false → bit v 1 = false →
    bit v 2 = false → s.ddrSt = 2 → s.inDram s.ddrTgt 1 = true → s.remapOf (s.dramRow s.ddrTgt) = some k →
    s.pprOk k (s.dramRow s.ddrTgt) = true →
    exec (.ddrPpr b v) s = .next ((({ s.ok with ddr := { s.ddr with ppr := some k } }).setDdrSt 5).ddrRes 1 3)) ∧
  (∀ (k : Nat) (s : State), s.ddr.ppr = some k →
    (∃ t, exec (.pprDone true) s = .next t ∧ t.ddr.ppr = none ∧ t.remapEntry k = none ∧ t.ddrSt = 2 ∧ t.rdf Reg.ddrCmdRes 2 0 = 2) ∧
    (∃ t, exec (.pprDone false) s = .next t ∧ t.ddr.ppr = none ∧ t.remapEntry k = s.remapEntry k ∧ t.ddrSt = 2 ∧
      t.rdf Reg.ddrCmdRes 2 0 = 4)) ∧
  (∀ (b : Bus) (v : Word) (s : State), s.takes b .ddr 0x90 (setBit v 1 true) → bit v 0 = false → bit v 2 = false → bit v 3 = false →
    exec (.elogClear b v) s = .next ((({ s.ok with ddr := { s.ddr with elog := [] } }).wr Reg.ddrElogStat 0).ddrDone 2 1)) ∧
  (∀ (e : ElogEntry) (s : State), s.ddr.elog.length ≤ 16 →
    (s.elogAdd e).ddr.elog.length ≤ 16 ∧ (s.elogAdd e).ddr.elog.getLast? = some e) ∧
  (∀ (b : Bus) (v : Word) (e : ElogEntry) (s : State), s.takes b .ddr 0x78 v → s.ddr.elog.getLast? = some e →
    fld v 3 0 = s.rdf Reg.ddrElogStat 3 0 → ∃ t, exec (.elogCapture b v) s = .next t ∧ t.rd Reg.ddrElogD0 = loW e.addr.toNat ∧
      t.rdf Reg.ddrElogD1 10 8 = e.port.toNat ∧ t.rdf Reg.ddrElogD1 23 16 = e.syndrome.toNat ∧ t.rdb Reg.ddrElogD1 31 = true ∧
      t.rd64 Reg.ddrElogD2 Reg.ddrElogD3 = e.stamp.toNat) ∧
  (∀ (b : Bus) (v : Word) (s : State), s.takes b .ddr 0xC8 v → exec (.remapEntryCapture b v) s = .next
    ((s.ok.plainWrite Reg.ddrRemapSel v).wr Reg.ddrRemapD (remapWord ((s.ok.plainWrite Reg.ddrRemapSel v).remapEntry (fld v 5 0))))) ∧
  (∀ (b : Bus) (v : Word) (s : State), s.takes b .ddr 0x70 v →
    exec (.ddrCeCntClear b v) s = .next (if bit v 31 then s.ok.wrf Reg.ddrCeCnt 15 0 0 else s.ok)) ∧
  (∀ (s : State), s.banking 0 = true → s.domOn 5 = true → s.rdb Reg.ddrScrubCfg 8 = true → s.ddr.panic = 0 →
    [2, 3].contains s.ddrSt = true → s.ddr.hold = false → 0 < s.rdn Reg.ddrScrubPos →
    exec (.dramScrubRead .clean) s = .next (if s.dramSize / 64 ≤ s.rdn Reg.ddrScrubPos + 1 then
      (s.wr Reg.ddrScrubPos 0).cntW Reg.ddrScrubPasses else s.wr Reg.ddrScrubPos (BitVec.ofNat 32 (s.rdn Reg.ddrScrubPos + 1)))) ∧
  (∀ (m : BitVec 8) (row : BitVec 10) (ecc : SramEcc) (s : State), s.banking 1 = true → s.rdb Reg.srmScrubCfg 16 = true →
    row.toNat < macroRows m.toNat → s.domOn (macroDomain m.toNat) = true →
    exec (.sramScrubRead m row ecc) s = .next (match ecc with
      | .clean => s
      | .corrected pos => s.sramCorrected m.toNat row.toNat pos.toNat
      | .uncorrectable => s.scrubUe m.toNat row.toNat)) ∧
  (∀ (m row k : Nat) (s : State),
    let used (u : State) : Nat := (u.srm.repairs.filter (fun e => e.macroNo == k && ! e.column && ! e.retired)).length
    used s ≤ 2 → used (s.rowRepair m row) ≤ 2 ∧ used (s.colRepair m row) ≤ 2) ∧
  (∀ (b : Bus) (v : Word) (s : State), s.takes b .srm 0x5C v → s.unlocked .srm →
    exec (.srmRepairLoad b v) s = .next (s.ok.repairLoad v)) ∧
  (∀ (b : Bus) (v : Word) (s : State), s.takes b .srm 0x50 v → ∃ t, exec (.srmRepairCapture b v) s = .next t ∧
    t.rd Reg.srmRepairD = (match s.srm.repairs[fld v 8 0]? with
      | some e => repairWord e
      | none => 0) ∧ t.srm = s.srm ∧ sameMem s t) ∧
  (∀ (b : Bus) (v : Word) (s : State), s.takes b .srm 0x44 v →
    exec (.srmCeCntClear b v) s = .next (if bit v 31 then s.ok.wrf Reg.srmCeCnt 15 0 0 else s.ok)) ∧
  (∀ (rates : Vector (BitVec 3) 2) (taps : Vector (BitVec 8) 2) (ch : Fin 2) (f : Bool) (e : DramEcc) (c : Instr) (s t : State),
    c ∈ [.correctedWriteback, .dramRefresh ch, .mr4Poll rates, .retrainIntervalExpiry, .dqsDriftPoll taps, .retrainSlice ch f,
      .remapCopyDone, .pprDone f, .dramScrubRead e] → exec c s = .next t →
    sameMem s t ∧ t.pending = s.pending ∧ t.now = s.now ∧ t.jobs = s.jobs)

/-! ### DMA, queues and bolts (spec/12) -/

/-- DMA, hardware queues and bolts: descriptors taken, checked and completed, a copy leaving its source's bytes at its destination
whichever way the ranges overlap; errors, enabling and aborts; lanes, and what an unpacked bolt has passed; doorbells, pushes,
configuration and the move to a spare, which keeps the entries. -/
def Obligations.DmaAndQueues : Prop :=
  (∀ (n : Fin 16) (l : List Byte) (s : State), s.dmaOn n.val = true → (s.dch n.val).desc = none → s.qFront (64 + n.val) = some l →
    (weftCheck n.val (descOf l) = none → exec (.weftDescriptorTake n) s = .next (
      let u := (s.qDrop (64 + n.val)).updDch n.val (fun c => { c with desc := some (descOf l), started := false })
      ((u.wr (Reg.dmaChRem n.val) (BitVec.ofNat 32 (descOf l).len)).setDmaSt n.val 3).panicUpdate)) ∧
    (∀ code addr, weftCheck n.val (descOf l) = some (code, addr) →
      exec (.weftDescriptorTake n) s = .next ((s.qDrop (64 + n.val)).weftFail n.val code addr (descOf l)))) ∧
  (∀ (n : Nat) (d : Desc), weftCheck n d = none → d.op = 0 ∧ d.dst = 0 ∧ d.next = 0 ∧ d.len % 16 = 0 ∧ 0 < d.len ∧ d.len ≤ 65536 ∧
    16 ≤ d.wrap ∧ d.wrap ≤ 22 ∧ ∀ i, d.ringBase ≤ d.ringAddr i ∧ d.ringAddr i < d.ringBase + 2 ^ d.wrap) ∧
  (∀ (n : Fin 16) (d : Desc) (s : State), (s.dch n.val).desc = some d → (s.dch n.val).started = false → s.powered .dma = true →
    s.ringRoom n.val d.len = true →
    exec (.weftTransferStart n) s = .next ((s.updDch n.val (fun c => { c with started := true })).setDmaSt n.val 2)) ∧
  (∀ (n : Fin 16) (d : Desc) (s : State), (s.dch n.val).desc = some d → (s.dch n.val).started = true → s.powered .dma = true →
    let first := Nat.min d.len (d.ringBase + 2 ^ d.wrap - d.src)
    (s.memFault (s.dch n.val).role false d.src first = none → s.memFault (s.dch n.val).role false d.ringBase (d.len - first) = none →
      exec (.weftTransferComplete n .ok) s = .next (
        let l := s.rdMem d.src first ++ s.rdMem d.ringBase (d.len - first)
        let u := ((s.weftArrive n.val d l).stgRelease n.val d.tag).seqPulse n.val
        let w := ((u.wr (Reg.dmaChRem n.val) 0).cntW (Reg.dmaChDone n.val)).wr (Reg.dmaChTag n.val) d.tag
        (w.dmaIdle n.val).panicUpdate)) ∧
    (∀ o, exec (.weftTransferComplete n (.writeErr o)) s = .next
      (s.weftFail n.val 5 (0x30000000 + n.val * 0x10000 + ((s.ring n.val).wptr + o) % 65536) d))) ∧
  (∀ (n : Fin 16) (j : Nat) (d : Desc) (l : List Byte) (s : State),
    ((s.chan n.val).jobs.find? (fun e => e.2.jobSeq == d.tag)).map (fun e => e.1) = some j → crc32c l = (s.job n.val j).contentCrc →
    ((s.weftArrive n.val d l).job n.val j).inRing = true ∧
    ((s.weftArrive n.val d l).job n.val j).ringOfs = BitVec.ofNat 16 ((s.ring n.val).wptr / 16) ∧
    ((s.weftArrive n.val d l).job n.val j).ringLen = BitVec.ofNat 16 (d.len / 16)) ∧
  (∀ (k : Fin 16) (ok : Bool) (s : State), s.dmaOn (k.val + 16) = true → (s.dch (k.val + 16)).desc = none →
    s.dmaSt (k.val + 16) ≠ 4 →
    (∀ l, (s.dch (k.val + 16)).next = 0 → s.qFront (64 + (k.val + 16)) = some l → exec (.genDescriptorTake k ok) s = .next (
      let role := (s.queue (64 + (k.val + 16))).roles.head?.getD (s.dch (k.val + 16)).role
      ((s.qDrop (64 + (k.val + 16))).updDch (k.val + 16) (fun c => { c with entryRole := role })).genStart (k.val + 16) (descOf l))) ∧
    ((s.dch (k.val + 16)).next ≠ 0 → s.memFault (s.dch (k.val + 16)).role false (s.dch (k.val + 16)).next 32 = none →
      exec (.genDescriptorTake k true) s =
        .next (s.genStart (k.val + 16) (descOf (s.rdMem (s.dch (k.val + 16)).next 32))))) ∧
  (∀ (k : Fin 16) (d : Desc) (s : State),
    (genCheck d = none → (s.genStart (k.val + 16) d).dmaSt (k.val + 16) = (if d.op = 0 then 2 else 3) ∧
      ((s.genStart (k.val + 16) d).dch (k.val + 16)).desc = some d ∧
      (s.genStart (k.val + 16) d).rdb (Reg.dmaChStat (k.val + 16)) 3 = (d.op == 0 && d.down)) ∧
    (∀ code addr, genCheck d = some (code, addr) → code < 16 → (s.genStart (k.val + 16) d).dmaSt (k.val + 16) = 4 ∧
      (s.genStart (k.val + 16) d).rdf (Reg.dmaChStat (k.val + 16)) 11 8 = code)) ∧
  (∀ (k : Fin 16) (d : Desc) (r : XferResult) (s : State), (s.dch (k.val + 16)).desc = some d → s.powered .dma = true →
    (s.dch (k.val + 16)).aborting = false → s.dmaSt (k.val + 16) ≠ 4 → (s.dch (k.val + 16)).started = true → d.op = 0 →
    d.regSide = false →
    exec (.genDescriptorComplete k r) s = .next (s.genEnd (k.val + 16) d
      (copyMem (s.dch (k.val + 16)).entryRole d (k.val + 16) d.down r s))) ∧
  (∀ (role : Role) (d : Desc) (k : Nat) (r : XferResult) (s : State), d.srcFix = false → d.dstFix = false →
    s.copyFault role d d.down r = none →
    let e := copyMem role d k d.down r s
    e.err = none ∧ (∀ i, i < d.len → e.st.rdByte (d.dst + i) = s.rdByte (d.src + i)) ∧
    ∀ x, x < d.dst ∨ d.dst + d.len ≤ x → e.st.rdByte x = s.rdByte x) ∧
  (∀ (b : Bus) (k : Fin 32) (s : State), s.takes b .dma (0x100 + 0x20 * k.val) 1 →
    exec (.dmaEnable b k) s = .next (s.ok.dmaCtrlWrite k.val b.role true)) ∧
  (∀ (b : Bus) (k : Fin 32) (s : State), s.takes b .dma (0x100 + 0x20 * k.val) 0 →
    exec (.dmaDisable b k) s = .next (s.ok.dmaCtrlWrite k.val b.role false)) ∧
  (∀ (k : Fin 32) (r : Role) (s : State),
    (k.val < 16 → s.enabled (chPage k.val 0) = true → ∀ on, s.dmaCtrlWrite k.val r on = s.soot .dma 2) ∧
    (16 ≤ k.val → s.dmaSt k.val = 4 → (s.dmaCtrlWrite k.val r true).dmaSt k.val = 1 ∧
      ((s.dmaCtrlWrite k.val r true).dch k.val).next = 0 ∧ ((s.dmaCtrlWrite k.val r true).dch k.val).desc = none) ∧
    (16 ≤ k.val → s.dmaSt k.val ≠ 4 → (s.dch k.val).desc.isSome = true →
      ((s.dmaCtrlWrite k.val r false).dch k.val).aborting = true ∧ (s.dmaCtrlWrite k.val r false).rdb (Reg.dmaChCtrl k.val) 0 = false)) ∧
  (∀ (k : Fin 16) (d : Desc) (s : State), (s.dch (k.val + 16)).desc = some d → s.powered .dma = true →
    (s.dch (k.val + 16)).aborting = true → (s.dch (k.val + 16)).started = false →
    exec (.dmaAbortDone k) s = .next ((s.wr (Reg.dmaChRem (k.val + 16)) (BitVec.ofNat 32 d.len)).genFail (k.val + 16) 7 d.src)) ∧
  (∀ (l : Fin 4) (s : State), s.powered .blt = true → s.lane l.val = .idle → s.rdb Reg.bltCfg l.val = true →
    (2 ≤ l.val → s.damaskBolt.isSome = true → s.lane 2 ≠ .damask → s.lane 3 ≠ .damask →
      exec (.boltLaneAcquire l) s = .next (s.laneSet l.val .damask)) ∧
    (∀ k rest, s.damaskBolt = none → s.laneWaits l.val = k :: rest → exec (.boltLaneAcquire l) s = .next
      (((s.laneSet l.val (.dma k)).updDch k (fun c => { c with started := true, lane := some l.val })).setDmaSt k 2))) ∧
  (∀ (l : Fin 4) (k : Nat) (d : Desc) (out : List Byte) (s : State), s.powered .blt = true → s.lane l.val = .dma k →
    (s.dch k).desc = some d → d.op = 1 → s.memFault (s.dch k).entryRole false d.src d.len = none →
    boltOpen (s.rdMem d.src d.len) = .ok out →
    exec (.boltDone l .clean) s = .next ((s.cntW Reg.bltCntInflate).laneDone l.val k 0 out)) ∧
  (∀ b out : List Byte, boltOpen b = .ok out → (crc32c out).toNat = leAt b (16 + leAt b 8 4) 4 ∧ out.length = leAt b 4 4 ∧
    1 ≤ out.length ∧ out.length ≤ 65536 ∧ b.length = 20 + leAt b 8 4 ∧ leAt b 0 2 = 0x4C42) ∧
  (∀ (l : Fin 4) (pass : Bool) (s : State), s.powered .blt = true → s.lane l.val = .testing →
    exec (.boltLaneSelftestDone l pass) s = .next (if pass then s.laneSet l.val .idle
      else ((s.laneSet l.val .out).soot .blt 1).irq .blt 1)) ∧
  (∀ (b : Bus) (q : Fin 128) (v : Word) (s : State), s.takes b .qmg (0x400 + 4 * q.val) v →
    exec (.queueProduce b q v) s = .next (s.ok.doorbell q.val b.role v) ∧
    exec (.queueConsume b q v) s = .next (s.ok.doorbell q.val b.role v)) ∧
  (∀ (q : Fin 128) (r : Role) (v : Word) (s : State),
    let n := fld v 12 0
    let x := s.queue q.val
    let t := s.doorbell q.val r v
    (fld v 31 30 = 1 → 0 < n → x.en = true → qSoftProducer q.val = true → x.used + x.resv + n ≤ x.size →
      (t.queue q.val).tail = x.tail + BitVec.ofNat 16 n ∧ (t.queue q.val).head = x.head ∧ t.rdf Reg.qmgDbRes 1 0 = 1) ∧
    (fld v 31 30 = 2 → 0 < n → qSoftConsumer q.val = true → n ≤ x.used →
      (t.queue q.val).head = x.head + BitVec.ofNat 16 n ∧ (t.queue q.val).tail = x.tail ∧ t.rdf Reg.qmgDbRes 1 0 = 1) ∧
    (n = 0 ∨ fld v 31 30 = 0 ∨ fld v 31 30 = 3 ∨ (fld v 31 30 = 1 ∧ (qSoftProducer q.val = false ∨ x.size < x.used + x.resv + n)) ∨
      (fld v 31 30 = 2 ∧ (qSoftConsumer q.val = false ∨ x.used < n)) → t = s.dbRefused q.val) ∧
    (∀ j, j ≠ q.val → t.queue j = s.queue j) ∧ sameMem s t) ∧
  (∀ (q : Nat) (bytes : List Byte) (s : State),
    ((s.queue q).canPush = true → (s.queue q).log2 ≤ 12 → ((s.qPush q bytes).queue q).used = (s.queue q).used + 1 ∧
      ((s.qPush q bytes).queue q).head = (s.queue q).head ∧
      ((s.queue q).used = 0 → (s.qPush q bytes).qFront q =
        some ((bytes ++ List.replicate (s.queue q).esize 0).take (s.queue q).esize))) ∧
    ((s.queue q).canPush = false → sameMem s (s.qPush q bytes) ∧ ((s.qPush q bytes).queue q).used = (s.queue q).used)) ∧
  (∀ (b : Bus) (v : Word) (s : State), s.takes b .qmg 0x48 v → exec (.queueConfigWrite b v) s = .next (s.ok.qCfgWrite v)) ∧
  (∀ (v : Word) (s : State), fld v 4 1 < 4 ∨ 12 < fld v 4 1 ∨ fld v 6 5 = 3 ∨ (bit v 0 = false ∧
    (s.queue (s.rdf Reg.qmgSel 6 0)).en = true ∧ (s.queue (s.rdf Reg.qmgSel 6 0)).used ≠ 0) → s.qCfgWrite v = s.soot .qmg 2) ∧
  (∀ (b : Bus) (v : Word) (s : State), s.takes b .qmg 0x44 v →
    exec (.queueSelectCapture b v) s = .next (s.ok.plainWrite Reg.qmgSel v).qCapture) ∧
  (∀ (k : Fin 128) (s : State), s.powered .qmg = true → (s.queue k.val).movePending = true → (s.queue k.val).used ≤ 16 →
    (s.qSpareFor k.val = none → exec (.queueMove k) s = .next
      ((s.updQueue k.val (fun q => { q with movePending := false })).qmgStat.soot .qmg 0)) ∧
    (∀ p, s.qSpareFor k.val = some p → (s.queue k.val).used ≤ (s.queue k.val).size → ∃ t, exec (.queueMove k) s = .next t ∧
      (t.queue k.val).spare = some p ∧ (t.queue k.val).movePending = false ∧ t.qFront k.val = s.qFront k.val ∧
      (t.queue k.val).used = (s.queue k.val).used))

/-! ### Time, dates and the network (spec/13) -/

/-- The TSC's rate, PTP time, the servo's lock, holdover, and the date clock, which no command sets back while it is valid: a step
is refused, slewed, accepted forward or held; time zones and captures. -/
def Obligations.TimeAndDates : Prop :=
  (∀ (b : Bus) (v : Word) (s : State), s.takes b .tim 0x54 v →
    ((sword v).natAbs ≤ 2147484 → exec (.timRateWrite b v) s =
      .next { (s.ok.wr Reg.timRate v) with tim := { s.tim with ratePending := some (sword v) } }) ∧
    (2147484 < (sword v).natAbs → exec (.timRateWrite b v) s = .next (s.ok.soot .tim 3))) ∧
  (∀ (r : Int) (s : State), s.tim.ratePending = some r →
    exec .timRateApply s = .next { s with tim := { s.tim with rate := r, ratePending := none } }) ∧
  (∀ (b : Bus) (s : State), s.takes b .tim 0x64 1 → exec (.stepPtp b 1) s = .next s.ok.stepPtp) ∧
  (∀ s : State, s.stepPtp.ptpNow = s.ptpNow + (s.rds Reg.timStepSec 31 0 * 1000000000 + s.rds Reg.timStepNs 31 0) * 65536 ∧
    s.stepPtp.now = s.now ∧ s.dcNow ≤ s.stepPtp.dcNow ∧ (s.dcHeld = false → s.stepPtp.dcNow = s.dcNow)) ∧
  (∀ (b : Bus) (s : State), s.takes b .tim 0x64 2 → exec (.lockKick b 2) s = .next s.ok.lockKick) ∧
  (∀ s : State, s.lockKick.locked = true ∧ s.lockKick.tim.kickAt = s.now ∧
    (s.dcValid = true → s.lockKick.dcNow = s.dcNow) ∧
    (s.locked = false → s.dcValid = true → s.dcPending = false → s.lockKick.dcHoldover = false) ∧
    (s.locked = false → s.dcValid = false → s.dcHeld = false → s.lockKick.dcValid = true ∧
      s.lockKick.dcNow = (if s.floorValid && decide (s.dcTarget < s.floorVal) then s.floorVal else s.dcTarget))) ∧
  (∀ (b : Bus) (s : State), s.takes b .tim 0x64 4 → exec (.unlock b 4) s = .next s.ok.unlockPtp) ∧
  (∀ s : State, s.powered .tim = true → s.locked = true → s.rdf Reg.timPtpCfg 15 0 * msT ≤ s.now - s.tim.kickAt →
    exec .ptpLockTimeout s = .next s.unlockPtp) ∧
  (∀ s : State, s.locked = true → s.unlockPtp.locked = false ∧ s.unlockPtp.dcHoldover = s.dcValid ∧
    s.unlockPtp.dcNow = s.dcNow ∧ (s.powered .tim = true → s.unlockPtp.rdb (Reg.pgSoot .tim) 1 = true)) ∧
  (∀ (b : Bus) (s : State), s.takes b .tim 0x64 8 →
    exec (.acceptStep b 8) s = .next (if s.dcPending then { s.ok with tim := { s.tim with acceptPending := true } }
      else s.ok.soot .tim 3)) ∧
  (∀ s : State, s.tim.acceptPending = true → s.dcPending = true →
    s.applyAccept.dcPending = false ∧ s.applyAccept.tim.acceptPending = false ∧
    (s.dcNow ≤ s.dcTarget → s.applyAccept.dcNow = s.dcTarget) ∧
    (s.dcTarget < s.dcNow → s.applyAccept.dcHeld = true ∧ s.applyAccept.dcNow = s.dcNow)) ∧
  (∀ (b : Bus) (s : State), s.takes b .tim 0x64 16 →
    (s.dcValid = true → exec (.setInitial b 16) s = .next (s.ok.soot .tim 3)) ∧
    (s.dcValid = false → exec (.setInitial b 16) s = .next
      (s.ok.setDate ((s.rdn Reg.timDcSetLo : Nat) * ptpSec + (s.rdf Reg.timDcSetHi 9 0 : Nat) * ptpMs)))) ∧
  (∀ (v : Int) (s : State), s.dcHeld = false →
    (s.setDate v).dcValid = true ∧
    (s.floorValid = true → v < s.floorVal → (s.setDate v).dcNow = s.floorVal ∧ (s.setDate v).dcPending = true) ∧
    (s.floorValid = false ∨ s.floorVal ≤ v → (s.setDate v).dcNow = v ∧ (s.setDate v).dcPending = s.dcPending)) ∧
  (∀ s : State, s.powered .tim = true → s.locked = true → s.rdf Reg.timHoCfg 9 8 ≠ 2 →
    ∃ t, exec .holdoverRateUpdate s = .next t ∧ t.tim.rates = (s.tscRate :: s.tim.rates).take 1024 ∧
      t.rd Reg.timRateAvg = wordOf (fdivI (t.tim.rates.foldl (· + ·) 0) t.tim.rates.length) ∧
      (s.rdf Reg.timHoCfg 9 8 = 0 → t.tim.holdRate = sword (t.rd Reg.timRateAvg)) ∧
      ∀ x, s.rdf Reg.timHoCfg 9 8 = 1 → s.dieMean = some x → t.tim.holdRate = sword (t.rd Reg.timRateAvg) +
        (1000 * s.rds Reg.timHoTcomp 15 0 * (x - 10 * s.rds Reg.timHoCfg 7 0) +
          s.rds Reg.timHoTcomp 31 16 * (x - 10 * s.rds Reg.timHoCfg 7 0) ^ 2) * 2 ^ 32 / 10 ^ 13) ∧
  (∀ s : State, s.powered .tim = true → s.dcValid = true →
    let e := s.dcTarget - s.dcNow
    ∃ t, exec .dateClockUpdate s = .next t ∧ t.dcNow = s.dcNow ∧ t.dcTarget = s.dcTarget ∧
      t.rd Reg.timDcErr = wordOf (clampI (-2147483648) 2147483647 (e / ptpMs)) ∧
      (s.dcHeld = false → s.locked = true → s.dcPending = false → s.jumpMax ≤ e.natAbs → t.dcPending = true ∧
        t.dcHoldover = true ∧ t.tim.slew = 0 ∧ t.rdb (Reg.pgSoot .tim) 2 = true) ∧
      (s.dcHeld = false → (e.natAbs : Int) < s.jumpMax → t.dcPending = false ∧
        (s.dcPending = true ∨ s.dcHoldover = false → s.locked = true → t.dcHoldover = false) ∧
        (s.locked = true → s.dcHoldover = false ∨ s.dcPending = true → t.tim.slew = clampI (-ptpMs) ptpMs e ∧
          t.rdb Reg.timDcStat 4 = decide (ptpMs < e.natAbs))) ∧
      (s.dcHeld = true → (s.dcNow ≤ s.dcTarget ↔ t.dcHeld = false))) ∧
  (∀ s : State, s.powered .tim = true → s.dcValid = true →
    (s.floorValid = false ∨ s.floorVal < s.dcNow → exec .floorUpdate s = .next
      ((s.wr64 Reg.timFloorLo Reg.timFloorHi s.dateValue.toNat).wrb Reg.timDcStat 6 true)) ∧
    (s.floorValid = true → s.dcNow ≤ s.floorVal → exec .floorUpdate s = .next s)) ∧
  (∀ (b : Bus) (v : Word) (s : State), s.takes b .tim 0x6C v →
    let d : Int := (fld v 15 0 : Nat) - (s.rdf Reg.timUtcOfs 15 0 : Nat)
    (1 < d.natAbs → exec (.utcOffsetWrite b v) s = .next (s.ok.soot .tim 3)) ∧
    (d.natAbs ≤ 1 → exec (.utcOffsetWrite b v) s = .next (
      let u := s.ok.dcSync.plainWrite Reg.timUtcOfs v
      if d = 0 then u else { u with tim := { u.tim with leap := true } }))) ∧
  (∀ (k : Nat) (s : State), k < 8 → s.rdb (Reg.timTzOfs k) 31 = true → (s.rdn (Reg.timTzAt k) : Int) ≤ s.dcSecs →
    (∀ j, j < 8 → j ≠ k → s.rdb (Reg.timTzOfs j) 31 = true → (s.rdn (Reg.timTzAt j) : Int) ≤ s.dcSecs →
      s.rdn (Reg.timTzAt j) < s.rdn (Reg.timTzAt k)) →
    s.offsetUpdate.tim.offset = s.rds (Reg.timTzOfs k) 10 0) ∧
  (∀ s : State, (∀ j, j < 8 → s.rdb (Reg.timTzOfs j) 31 = true → s.dcSecs < (s.rdn (Reg.timTzAt j) : Int)) →
    s.offsetUpdate.tim.offset = s.rds Reg.timTzStd 10 0) ∧
  (∀ (b : Bus) (k : Fin 8) (ofs : Bool) (v : Word) (s : State), s.takes b .tim (0x100 + 8 * k.val + if ofs then 4 else 0) v →
    let u := s.ok.plainWrite (pageBase .tim + (0x100 + 8 * k.val + if ofs then 4 else 0)) v
    let at_ : Int := (u.rdn (Reg.timTzAt k.val) : Nat)
    (s.dcValid = true → at_ * ptpSec < s.dcNow + ptpSec → exec (.tzWrite b k ofs v) s = .next (s.ok.soot .tim 3)) ∧
    (u.rdb (Reg.timTzOfs k.val) 31 = true → u.tzBackward at_ (u.tzAt (at_ - 1) k.val) (u.rds (Reg.timTzOfs k.val) 10 0) false = true →
      exec (.tzWrite b k ofs v) s = .next (s.ok.soot .tim 3)) ∧
    (s.dcValid = false ∨ s.dcNow + ptpSec ≤ at_ * ptpSec → u.rdb (Reg.timTzOfs k.val) 31 = false ∨
        u.tzBackward at_ (u.tzAt (at_ - 1) k.val) (u.rds (Reg.timTzOfs k.val) 10 0) false = false →
      exec (.tzWrite b k ofs v) s = .next u.offsetUpdate)) ∧
  (∀ (x o n m : Int) (s : State), x + 60 * n < 86400 * m → 86400 * m < x + 60 * o → s.tzBackward x o n false = true) ∧
  (∀ (x o n m : Int) (s : State), x + 60 * n < 86400 * m + 60 * (s.rdf Reg.timRollover 10 0 : Nat) →
    86400 * m + 60 * (s.rdf Reg.timRollover 10 0 : Nat) < x + 60 * o → s.tzBackward x o n false = true) ∧
  (∀ (x o n : Int) (seen : Bool) (s : State), o ≤ n → s.tzBackward x o n seen = false) ∧
  (∀ (b : Bus) (v : Word) (s : State), s.takes b .tim 0x90 v →
    let held := (List.range 8).any (fun k => s.rdb (Reg.timTzOfs k) 31 && decide ((s.rdn (Reg.timTzAt k) : Int) ≤ s.dcSecs))
    let back := s.tzBackward s.dcSecs (s.rds Reg.timTzStd 10 0) (sfld v 10 0) true
    (s.dcValid = true → held = false → back = true → exec (.tzStdWrite b v) s = .next (s.ok.soot .tim 3)) ∧
    (s.dcValid = false ∨ held = true ∨ back = false →
      exec (.tzStdWrite b v) s = .next (s.ok.plainWrite Reg.timTzStd v).offsetUpdate)) ∧
  (∀ (b : Bus) (s : State), s.powered .tim = true → inMask (s.rdf (Reg.pgAcl .tim) 15 8) b.role = true →
    (∃ t, exec (.tscCapture b) s = .next t ∧ t.rd Reg.timTscLo = loW s.now ∧ t.rd Reg.timTscHi = hiW s.now ∧
      t.rd Reg.timSnapNs = BitVec.ofNat 32 (s.ptpNow / 65536 % 1000000000).toNat ∧
      t.rd Reg.timSnapSecLo = loW (wrapN 48 (s.ptpNow / ptpSec)) ∧ t.tim = s.tim ∧ sameMem s t) ∧
    ∃ t, exec (.dateClockCapture b) s = .next t ∧ t.rd Reg.timDcLo = loW s.dateValue.toNat ∧
      t.rd Reg.timDcHi = hiW s.dateValue.toNat ∧ t.tim = s.tim ∧ sameMem s t) ∧
  (∀ (c : Instr) (s t : State), c ∈ [.timRateApply, .ptpLockTimeout, .holdoverRateUpdate, .dateClockUpdate, .floorUpdate] →
    exec c s = .next t → { t with regs := s.regs, flt := s.flt, tim := s.tim, free := s.free } = s ∧ t.now = s.now ∧
      (s.dcValid = true → s.dcNow ≤ t.dcNow))

/-- The network switch: frames received, checked, counted, learned and forwarded; priorities and tail drops; transmit descriptors;
the residence added to an event message's correctionField as it leaves; addresses that age; and MDIO. -/
def Obligations.NetworkSwitch : Prop :=
  (∀ (p : Fin 2) (frame : List Byte) (ok : Bool) (stamp : Option Nat) (s : State), s.netPort p.val = true →
    (ok = false ∨ frame.length < 60 ∨ 1518 < frame.length →
      exec (.ethFrameReceive p frame ok stamp) s = .next ((s.cnt (Reg.netPErr p.val) 15 0).soot .net 0)) ∧
    (ok = true → 60 ≤ frame.length → frame.length ≤ 1518 →
      (isPause frame = true →
        exec (.ethFrameReceive p frame ok stamp) s = .next ((s.cntW (Reg.netPRx p.val)).cnt (Reg.netPErr p.val) 31 16)) ∧
      (isPause frame = false → ptpV6 frame = false → ∀ raw, stamp = some raw →
        let s1 := s.cntW (Reg.netPRx p.val)
        let u := if groupMac frame 6 then s1 else s1.macLearn (macAt frame 6) p.val
        let ev := if u.rdb Reg.netCfg 2 then ptpEvent frame else none
        let f : NetFrame := ⟨frame, p.val, raw, ev.map (fun x => x.1 + 8), ev.bind (fun x => x.2), none⟩
        (u.forwardTo frame p.val = [1 - p.val] →
          exec (.ethFrameReceive p frame ok stamp) s = .next (u.netEnqueue (1 - p.val) f).1) ∧
        (u.forwardTo frame p.val = [2] → exec (.ethFrameReceive p frame ok stamp) s = .next (u.netDeliver p.val frame (some raw))) ∧
        (u.forwardTo frame p.val = [1 - p.val, 2] → exec (.ethFrameReceive p frame ok stamp) s = .next
          ((u.netEnqueue (1 - p.val) f).1.netDeliver p.val frame (some raw)))))) ∧
  (∀ (l : List Byte) (p : Fin 3) (s : State),
    p.val ∉ s.forwardTo l p.val ∧
    ((∀ e ∈ s.net.macs, e.port < 3) → ∀ q ∈ s.forwardTo l p.val, q = 2 ∨ q < 2 ∧ s.netPort q = true) ∧
    (groupMac l 0 = true ∨ s.macPort (macAt l 0) = none → ∀ q, q ≠ p.val → (q ∈ s.forwardTo l p.val ↔ q = 2 ∨ q < 2 ∧ s.netPort q = true))) ∧
  (∀ (m : BitVec 48) (p : Nat) (s : State), s.rdb Reg.netCfg 3 = true →
    ((s.macPort m).isSome = true ∨ s.net.macs.length < 1024 → (s.macLearn m p).macPort m = some p) ∧
    ∀ m', m' ≠ m → (s.macLearn m p).macPort m' = s.macPort m') ∧
  (∀ (p : Nat) (f : NetFrame) (s : State),
    let k := p * 4 + s.egressQ f.bytes
    (1024 * s.rdf Reg.netQlim 6 0 < bytesIn (s.egress k) + f.bytes.length → s.netEnqueue p f = (s.cnt (Reg.netPDrop p) 15 0, false)) ∧
    (bytesIn (s.egress k) + f.bytes.length ≤ 1024 * s.rdf Reg.netQlim 6 0 → s.bufferUsed + f.bytes.length ≤ 131072 →
      (s.netEnqueue p f).2 = true ∧ ((s.netEnqueue p f).1.egress k) = s.egress k ++ [f] ∧
      ∀ j, j ≠ k → (s.netEnqueue p f).1.egress j = s.egress j)) ∧
  (∀ (l : List Byte) (s : State), s.egressQ l < 4 ∧
    (s.rdb Reg.netCfg 4 = true → (ptpEvent l).isSome = true → s.egressQ l = 3) ∧
    (s.rdb Reg.netCfg 4 = false → isTag l 12 = false →
      s.egressQ l = s.rdf Reg.netPcpMap (2 * s.rdf Reg.netCfg 10 8 + 1) (2 * s.rdf Reg.netCfg 10 8))) ∧
  (∀ (p i : Nat) (l : List Byte) (x : Option Nat) (s : State), s.egressQ l = i → (s.queue (116 + i)).canPush = false →
    sameMem s (s.netDeliver p l x) ∧ ∀ j, (s.netDeliver p l x).qFront j = s.qFront j) ∧
  (∀ (q : Fin 4) (d : List Byte) (s : State), s.netOn = true → s.txCopies (112 + q.val, (s.queue (112 + q.val)).head.toNat) = false →
    s.qFront (112 + q.val) = some d →
    let len := leAt d 4 4 / 65536 % 2048
    let a := leAt d 0 4 + leAt d 4 4 % 256 * 2 ^ 32
    let c := (s.queue (112 + q.val)).head.toNat
    (len < 60 ∨ 1518 < len → exec (.netTxDescriptor q) s = .next (s.txStatus (112 + q.val) c 3 [])) ∧
    (60 ≤ len → len ≤ 1518 → leAt d 4 4 / 256 % 256 = 0 → leAt d 4 4 / 2 ^ 27 = 0 → leAt d 8 4 / 16 = 0 → leAt d 12 4 / 16 = 0 →
      rangeAll (fun x => inMemMap x && ! inRingWin x && s.memThere x) a len = true → groupMac (s.rdMem a len) 6 = true →
      leAt d 8 4 % 4 = 1 → s.netPort 0 = true →
      let f : NetFrame := ⟨s.rdMem a len, 2, 0, none, none, some (112 + q.val, c)⟩
      exec (.netTxDescriptor q) s = .next (if (s.netEnqueue 0 f).2 then (s.netEnqueue 0 f).1
        else (s.netEnqueue 0 f).1.txStatus (112 + q.val) c 2 []))) ∧
  (∀ (p : Fin 2) (ecc : Ecc) (q : Fin 4) (f : NetFrame) (rest : List NetFrame) (s : State), s.netPort p.val = true →
    s.egress (p.val * 4 + q.val) = f :: rest → (∀ j, j < 4 → q.val < j → s.egress (p.val * 4 + j) = []) → f.desc = none →
    let u := s.setEgress (p.val * 4 + q.val) rest
    exec (.ethFrameTransmit p ecc) s = .next (if ecc = .uncorrectable then ((u.cnt (Reg.netPDrop p.val) 31 16).soot .net 2).irq .net 2
      else
        let w : State := { u with net := { u.net with sent := tabPut [] u.net.sent p.val (u.tcCorrect p.val f s.now) } }
        (if f.corrAt.isSome then w.cntW Reg.netCntTc else w).cntW (Reg.netPTx p.val))) ∧
  (∀ (p raw o : Nat) (f : NetFrame) (s : State), f.corrAt = some o → o + 8 ≤ f.bytes.length →
    (∀ u, f.udpAt = some u → u + 2 ≤ o) → f.rxRaw ≤ raw →
    let l := s.tcCorrect p f raw
    let residence := (raw - f.rxRaw) * 163840 + (s.txLat p + s.rxLat f.ingress) * 65536
    l.length = f.bytes.length ∧ ofBe (slice l o 8) = (ofBe (slice f.bytes o 8) + residence) % 2 ^ 64 ∧
    (∀ u, f.udpAt = some u → slice l u 2 = [0, 0]) ∧
    ∀ i, i < o ∨ o + 8 ≤ i → (∀ u, f.udpAt = some u → i ≠ u ∧ i ≠ u + 1) → l[i]? = f.bytes[i]?) ∧
  (∀ (m : BitVec 48) (e : MacEntry) (s : State), s.net.macs.find? (fun e => e.mac == m) = some e → s.netOn = true →
    (s.rdf Reg.netAge 15 0 * secT ≤ s.now - e.seenAt → ∃ t, exec (.macEntryAge m) s = .next t ∧ t.macPort m = none ∧
      (∀ m', m' ≠ m → t.macPort m' = s.macPort m') ∧ { t with net := s.net } = s) ∧
    (s.now - e.seenAt < s.rdf Reg.netAge 15 0 * secT → exec (.macEntryAge m) s = .next s)) ∧
  (∀ (b : Bus) (v : Word) (s : State), s.takes b .net 0x50 v →
    (s.net.mdioBusy = true → exec (.mdioGo b v) s = .next (s.ok.soot .net 3)) ∧
    (s.net.mdioBusy = false → bit v 31 = true → ∃ t, exec (.mdioGo b v) s = .next t ∧ t.net.mdioBusy = true ∧
      t.rdb Reg.netMdioCtrl 31 = true ∧ t.rdf Reg.netMdioCtrl 12 0 = fld v 12 0)) ∧
  (∀ (data : BitVec 16) (s : State), s.powered .net = true → s.net.mdioBusy = true → ∃ t, exec (.mdioDone data) s = .next t ∧
    t.net.mdioBusy = false ∧ t.rdb Reg.netMdioCtrl 31 = false ∧ t.rdb (Reg.pgIrqStat .net) 0 = true ∧
    t.rdf Reg.netMdioData 15 0 = (if s.rdb Reg.netMdioCtrl 10 || s.rdb Reg.netMdioCtrl 12 then s.rdf Reg.netMdioData 15 0
      else data.toNat)) ∧
  (∀ (p : Fin 2) (l : List Byte) (x : Option Nat) (e : Ecc) (m : BitVec 48) (d : BitVec 16) (q : Fin 4) (c : Instr) (s t : State),
    c ∈ [.ethFrameReceive p l false x, .ethFrameTransmit p e, .netTxDescriptor q, .macEntryAge m, .mdioDone d] →
    exec c s = .next t → t.jobs = s.jobs ∧ t.tim = s.tim ∧ t.pins = s.pins ∧ t.pending = s.pending)

/-! ### Roles, keys, records and boot (spec/14) -/

/-- The enclave's requests: challenge, roles, credentials, ownership, keys, OTP, boot slots, unlocking and random bytes; a busy slot
refuses, OTP bits only ever change from 0 to 1, a nonce serves once, and no signature gives FIREGUARD or DEBUG. -/
def Obligations.EnclaveRequests : Prop :=
  (∀ (b : Bus) (k : Fin 4) (a : Nat) (s : State), s.asks b k.val 0x01 a [] → s.sec.entropyOk = true →
    exec (.getChallenge (.bus b) k) s = .next (
      let n := (s.ok.drawBytes 32).1
      let u : State := { s.ok with free := s.free + 32, sec := { s.sec with nonces := tabPut none s.sec.nonces k.val (some ⟨n, s.now⟩) } }
      u.answered k.val 0x01 a 2 n)) ∧
  (∀ (b : Bus) (k : Fin 4) (a : Nat) (args : List Byte) (s : State), s.asks b k.val 0x02 a args → args.length = 130 →
    let ctx := (byteAt args 0).toNat
    let role := (byteAt args 1).toNat
    let key := slice args 2 64
    (ctx < 4 → role = 0 ∨ role = 7 → exec (.setRole (.bus b) k) s = .next (s.ok.answered k.val 0x02 a 3 [])) ∧
    (ctx < 4 → 1 ≤ role → role ≤ 6 → s.signed k.val tagRL (args.take 2) (slice args 66 64) key → s.credentialOf role key = true →
      exec (.setRole (.bus b) k) s = .next (((s.ok.nonceUsed k.val).wrf Reg.secCtxRole (4 * ctx + 2) (4 * ctx) role).answered k.val 0x02 a 2 [])) ∧
    (ctx < 4 → 1 ≤ role → role ≤ 6 → ¬ (s.signed k.val tagRL (args.take 2) (slice args 66 64) key ∧ s.credentialOf role key = true) →
      exec (.setRole (.bus b) k) s = .next ((s.ok.nonceUsed k.val).answered k.val 0x02 a 4 []))) ∧
  (∀ (b : Bus) (k : Fin 4) (a : Nat) (ctx role : Byte) (s : State), s.asks b k.val 0x03 a [ctx, role] → ctx.toNat < 4 →
    2 ≤ role.toNat → role.toNat ≤ 6 → exec (.dropRole (.bus b) k) s =
      .next ((s.ok.wrf Reg.secCtxRole (4 * ctx.toNat + 2) (4 * ctx.toNat) role.toNat).answered k.val 0x03 a 2 [])) ∧
  (∀ (b : Bus) (k : Fin 4) (a : Nat) (role i : Byte) (key : List Byte) (s : State), s.asks b k.val 0x10 a (role :: i :: key) →
    inMask (credCaller role.toNat) b.role = true → key.length = 64 → i.toNat < 4 → (ecPoint key).isSome = true →
    exec (.credSet (.bus b) k) s = .next (s.ok.storing k.val 0x10 a (.cred (4 * role.toNat + i.toNat)) key)) ∧
  (∀ (b : Bus) (k : Fin 4) (a : Nat) (role i : Byte) (s : State), s.asks b k.val 0x11 a [role, i] →
    inMask (credCaller role.toNat) b.role = true → i.toNat < 4 →
    exec (.credClear (.bus b) k) s = .next (s.ok.storing k.val 0x11 a (.cred (4 * role.toNat + i.toNat)) [])) ∧
  (∀ (b : Bus) (k : Fin 4) (a : Nat) (key : List Byte) (s : State), s.asks b k.val 0x20 a key → b.role = .oem → key.length = 64 →
    (s.owned = true ∨ s.partIdle = false → exec (.takeOwnership (.bus b) k) s = .next (s.ok.answered k.val 0x20 a 5 [])) ∧
    (s.owned = false → s.partIdle = true → (ecPoint key).isSome = true →
      exec (.takeOwnership (.bus b) k) s = .next (s.ok.storing k.val 0x20 a .owned key))) ∧
  (∀ (b : Bus) (k : Fin 4) (a i : Nat) (key sig old : List Byte) (s : State), s.asks b k.val 0x21 a (key ++ sig) → b.role = .owner →
    key.length = 64 → sig.length = 64 → s.owned = true → s.partIdle = true → (ecPoint key).isSome = true → s.debugLevel = 0 →
    i < 4 → s.credKey (12 + i) = some old → s.signed k.val tagOT (sha256 key) sig old →
    exec (.transferOwnership (.bus b) k) s = .next ((s.ok.nonceUsed k.val).storing k.val 0x21 a .owned key)) ∧
  (∀ (b : Bus) (k : Fin 4) (a : Nat) (key sig : List Byte) (s : State), s.asks b k.val 0x22 a (key ++ sig) → b.role = .oem →
    key.length = 64 → sig.length = 64 → s.partIdle = true → s.signed k.val tagOR [] sig key → s.otpHashIs 0x100 key = true →
    exec (.ownerReset (.bus b) k) s = .next (
      let u := (s.ok.nonceUsed k.val).dmkOwnerReset
      (if u.domOn 4 then u.wr Reg.linPolicy (resetOf Reg.linPolicy) else u).storing k.val 0x22 a .owned [])) ∧
  (∀ (b : Bus) (k : Fin 4) (a : Nat) (i : Byte) (key : List Byte) (s : State), s.asks b k.val 0x30 a (i :: key) → b.role = .owner →
    key.length = 64 → i.toNat < 4 → (ecPoint key).isSome = true →
    exec (.tplKeySet (.bus b) k) s = .next (s.ok.storing k.val 0x30 a (.tplKey i.toNat) key)) ∧
  (∀ (b : Bus) (k : Fin 4) (a : Nat) (key : List Byte) (q : Nat × Nat) (s : State), s.asks b k.val 0x31 a key → b.role = .owner →
    key.length = 64 → s.sec.entropyOk = true → s.sec.newRecKey = none → ecPoint key = some q →
    ∃ t, exec (.recKeyGen (.bus b) k) s = .next t ∧ t.sec.newRecKey = some (s.ok.drawBytes 32).1 ∧
      t.sec.newRecLeft = s.sec.pending.length ∧ t.rdf (Reg.secReqStat k.val) 3 0 = 1 ∧
      t.sec.recKey = s.sec.recKey) ∧
  (∀ (b : Bus) (k : Fin 4) (a : Nat) (key : List Byte) (s : State), s.asks b k.val 0x32 a key → b.role = .oem → key.length = 64 →
    (s.otpHashIs 0xE0 key = true → exec (.progKeySet (.bus b) k) s = .next (s.ok.storing k.val 0x32 a .progKey key)) ∧
    (s.otpHashIs 0xE0 key = false → exec (.progKeySet (.bus b) k) s = .next (s.ok.answered k.val 0x32 a 4 []))) ∧
  (∀ (b : Bus) (k : Fin 4) (a ofs n : Nat) (value : List Byte) (s : State), s.asks b k.val 0x40 a (leBytes 2 ofs ++ value) →
    b.role = .oem → (ofs, n) ∈ oemField → value.length = n →
    (s.lifecycle = 1 → s.otpBlank ofs n = true →
      exec (.provision (.bus b) k) s = .next ((s.ok.otpOr ofs value).otpShow.answered k.val 0x40 a 2 [])) ∧
    (s.lifecycle ≠ 1 ∨ s.otpBlank ofs n = false → exec (.provision (.bus b) k) s = .next (s.ok.answered k.val 0x40 a 5 []))) ∧
  (∀ (b : Bus) (k : Fin 4) (a : Nat) (s : State), s.asks b k.val 0x41 a [] → b.role = .oem → s.lifecycle = 1 →
    (s.otpBlank 0x60 32 = false → s.otpBlank 0x100 32 = false → s.otpBlank 0x140 32 = false → s.otpBlank 0x160 16 = false →
      exec (.secure (.bus b) k) s = .next ((s.ok.otpOr 0x188 (thermo 8 2)).answered k.val 0x41 a 2 [])) ∧
    (s.otpBlank 0x60 32 = true ∨ s.otpBlank 0x100 32 = true ∨ s.otpBlank 0x140 32 = true ∨ s.otpBlank 0x160 16 = true →
      exec (.secure (.bus b) k) s = .next (s.ok.answered k.val 0x41 a 5 []))) ∧
  (∀ (b : Bus) (k : Fin 4) (a : Nat) (slot : Byte) (key sig : List Byte) (s : State), s.asks b k.val 0x42 a (slot :: (key ++ sig)) →
    b.role = .oem → key.length = 64 → sig.length = 64 → slot.toNat < 4 → s.signed k.val tagBR [slot] sig key →
    s.otpHashIs 0x100 key = true → exec (.revokeBootKey (.bus b) k) s = .next
      (((s.ok.nonceUsed k.val).otpOr 0x184 [BitVec.ofNat 8 (2 ^ slot.toNat)]).otpShow.answered k.val 0x42 a 2 [])) ∧
  (∀ (b : Bus) (k : Fin 4) (a : Nat) (s : State), s.asks b k.val 0x43 a [] → b.role = .oem → exec (.rollbackCommit (.bus b) k) s =
    .next ((s.ok.otpOr 0x190 (thermo 32 (s.rdf Reg.secBootVer 8 0))).otpShow.answered k.val 0x43 a 2 [])) ∧
  (∀ (n : Nat) (s : State), n ≤ 256 → s.otpBytes 0x190 32 = thermo 32 s.rollback → s.rollback ≤ n →
    (s.otpOr 0x190 (thermo 32 n)).rollback = n) ∧
  (∀ (b : Bus) (k : Fin 4) (a : Nat) (slot : Byte) (s : State), s.asks b k.val 0x44 a [slot] → b.role = .oem → slot.toNat < 2 →
    exec (.setBootSlot (.bus b) k) s = .next (
      let u : State := { s.ok with sec := { s.sec with boot := { s.sec.boot with named := some slot.toNat } } }
      u.answered k.val 0x44 a 2 [])) ∧
  (∀ (b : Bus) (k : Fin 4) (a : Nat) (key sig : List Byte) (s : State), key.length = 64 → sig.length = 64 → s.partIdle = true →
    (s.asks b k.val 0x50 a (1 :: (key ++ sig)) → b.role = .oem → s.signed k.val tagDB [1] sig key → s.otpHashIs 0x120 key = true →
      exec (.debugUnlock (.bus b) k) s =
        .next (((s.ok.nonceUsed k.val).wrf Reg.secStat 5 4 (Nat.max 1 s.debugLevel)).answered k.val 0x50 a 2 [])) ∧
    (s.asks b k.val 0x51 a (key ++ sig) → b.role = .vendor → s.signed k.val tagRM [] sig key → s.otpHashIs 0x40 key = true →
      ∃ t, exec (.rmaUnlock (.bus b) k) s = .next t ∧ t.bkg.log = [] ∧ t.bkg.wear = [] ∧ t.lifecycle = 3 ∧ t.debugLevel = 2 ∧ t.sec.store = [] ∧
        t.recReady = false ∧ ∀ i, i < 1024 → t.otpByte i = 0xFF)) ∧
  (∀ (b : Bus) (k : Fin 4) (a n : Nat) (s : State), s.asks b k.val 0x60 a (leBytes 2 n) → 1 ≤ n → n ≤ 256 → s.sec.entropyOk = true →
    exec (.random (.bus b) k) s = .next ((s.ok.drawBytes n).2.answered k.val 0x60 a 2 (s.ok.drawBytes n).1)) ∧
  (∀ (f : ReqCaller → Fin 4 → Instr) (op : Nat) (b : Bus) (k : Fin 4) (s : State),
    (f, op) ∈ [(Instr.getChallenge, 0x01), (.setRole, 0x02), (.dropRole, 0x03), (.credSet, 0x10), (.credClear, 0x11),
      (.takeOwnership, 0x20), (.transferOwnership, 0x21), (.ownerReset, 0x22), (.tplKeySet, 0x30), (.recKeyGen, 0x31),
      (.progKeySet, 0x32), (.provision, 0x40), (.secure, 0x41), (.revokeBootKey, 0x42), (.rollbackCommit, 0x43),
      (.setBootSlot, 0x44), (.debugUnlock, 0x50), (.rmaUnlock, 0x51), (.random, 0x60)] →
    (s.takes b .sec (0x108 + 0x10 * k.val) (BitVec.ofNat 32 op) → s.reqBusy k.val = true →
      exec (f (.bus b) k) s = .next (s.ok.reqStat k.val op 9 0)) ∧
    (s.domOn 2 = true → op ≠ 0x01 → op ≠ 0x50 → op ≠ 0x51 → ∀ l, exec (f (.debugPort l) k) s = .next (s.reqDone k.val op 3 0)) ∧
    ∀ c t, exec (f c k) s = .next t → ∀ x i, (s.otpByte x).getLsbD i = true → (t.otpByte x).getLsbD i = true) ∧
  (∀ (k : Fin 4) (n : Nonce) (s : State), tabGet none s.sec.nonces k.val = some n → s.domOn 2 = true →
    (60 * secT ≤ s.now - n.at_ → exec (.nonceExpiry k) s = .next (s.nonceUsed k.val)) ∧
    (s.now - n.at_ < 60 * secT → exec (.nonceExpiry k) s = .next s)) ∧
  (∀ s : State, s.domOn 2 = true →
    (∃ t, exec .entropyFailure s = .next t ∧ t.sec.entropyOk = false ∧ t.rdb (Reg.pgSoot .sec) 1 = true ∧
      t.rdb Reg.secStat 8 = false) ∧
    ∃ t, exec .entropyRecovery s = .next t ∧ t.sec.entropyOk = true ∧ t.rdb Reg.secStat 8 = true) ∧
  (∀ s : State, s.domOn 2 = true → ∃ t, exec .enclaveFault s = .next t ∧ t.rdb (Reg.pgSoot .sec) 0 = true ∧ t.sec.nonces = [] ∧
    t.sec.pending = s.sec.pending ∧ t.sec.store = s.sec.store ∧ (s.rdb Reg.secStat 6 = true → t.rdb (Reg.pgSoot .sec) 6 = true) ∧
    ∀ k, k < 4 → s.rdf (Reg.secReqStat k) 3 0 = 1 → t.rdf (Reg.secReqStat k) 3 0 = 8)

/-- Memory regions, mark records and their chains, the flash store, Kindling's attempts and waits, recovery, and the TAP. -/
def Obligations.RecordsAndBoot : Prop :=
  (∀ (b : Bus) (r : Fin 16) (v : Word) (s : State), s.takes b .sec (0x200 + 0x10 * r.val) v →
    exec (.regionWrite b r v) s = .next (s.ok.regionBaseWrite r.val b.role v)) ∧
  (∀ (r : Fin 16) (role : Role) (v : Word) (s : State),
    let valid := s.rdb (Reg.secRgnBaseLo r.val) 6
    let setter := s.rdf (Reg.secRgnAcl r.val) 23 16
    let base := s.rdf (Reg.secRgnBaseHi r.val) 7 0 * 2 ^ 32 + fld v 31 12 * 4096
    let t := s.regionBaseWrite r.val role v
    (valid = true → setter ≠ 2 ^ roleBit role → t = s.soot .sec 7) ∧
    (bit v 6 = true → fld v 5 0 < 12 ∨ 40 < fld v 5 0 ∨ base % 2 ^ fld v 5 0 ≠ 0 → t = s.soot .sec 7) ∧
    (valid = false ∨ setter = 2 ^ roleBit role → bit v 6 = true → 12 ≤ fld v 5 0 → fld v 5 0 ≤ 40 → base % 2 ^ fld v 5 0 = 0 →
      t.rdb (Reg.secRgnBaseLo r.val) 6 = true ∧ t.rdf (Reg.secRgnBaseLo r.val) 31 12 = fld v 31 12 ∧
      t.rdf (Reg.secRgnAcl r.val) 23 16 = 2 ^ roleBit role ∧ t.rdf (Reg.secRgnAcl r.val) 15 0 = s.rdf (Reg.secRgnAcl r.val) 15 0) ∧
    (setter = 2 ^ roleBit role → bit v 6 = false → t.rdb (Reg.secRgnBaseLo r.val) 6 = false)) ∧
  (∀ (r : PendRec) (rest : List PendRec) (key : List Byte) (s : State), s.sec.pending = r :: rest → s.signKey = some key →
    s.recReady = true → s.domOn 4 = true → (s.queue (4 * r.chan + 2)).resv ≠ 0 → r.chan < 16 →
    let h := s.chain r.chan
    let body := recordBytes r s.sec.epoch h.needNew
    let mac := (hmacSha256 key ((if h.needNew then List.replicate 16 0 else h.mac) ++ body)).take 16
    let u := (s.qPushReserved (4 * r.chan + 2) (body ++ mac)).setChain r.chan ⟨mac, if h.needNew then 1 else h.recs + 1, false⟩
    let v := if h.needNew then u.irq .sec 5 else u
    let w : State := { v with sec := { v.sec with pending := rest, newRecLeft := v.sec.newRecLeft - 1 } }
    exec .recordSign s = .next ((w.wr Reg.secRecCnt (w.rd Reg.secRecCnt + 1)).recKeyGo).secShow) ∧
  (∀ (r : PendRec) (epoch : Word) (start : Bool), r.chan < 16 →
    let l := recordBytes r epoch start
    l.length = 48 ∧ leAt l 0 4 = r.productId.toNat ∧ leAt l 4 4 = r.jobSeq.toNat ∧ leAt l 8 4 = epoch.toNat ∧
    leAt l 0xE 2 = r.templateId.toNat ∧ leAt l 0x10 2 = r.unrec.toNat ∧ leAt l 0x14 4 = r.contentCrc.toNat ∧
    leAt l 0x18 8 = r.stamp.toNat ∧ leAt l 0x20 8 = r.date.toNat ∧ leAt l 0x28 8 = r.serial.toNat ∧
    (leAt l 0xC 2).testBit 13 = start) ∧
  (∀ s : State, s.sec.pending = [] ∨ s.recReady = false → exec .recordSign s = .next s) ∧
  (∀ (b : Bus) (v : Word) (s : State), s.takes b .sec 0x90 v → ∃ t, exec (.chainCapture b v) s = .next t ∧
    t.rd Reg.secChainRecs = (s.chain (fld v 3 0)).recs ∧ (∀ i, i < 4 → t.rd (Reg.secChainMac i) =
      BitVec.ofNat 32 (leAt (s.chain (fld v 3 0)).mac (4 * i) 4)) ∧ t.sec = s.sec ∧ sameMem s t) ∧
  (∀ (w : StoreWrite) (rest : List StoreWrite) (s : State), s.domOn 2 = true → nextWrite s.sec.writes = some (w, rest) →
    (exec (.storeWriteConfirm true) s = .next (
      let u := ({ s with sec := { s.sec with writes := rest } } : State).storeApply w.kind w.payload
      (match w.slot with
        | some k => if u.rdf (Reg.secReqStat k) 3 0 = 1 then u.reqDone k (u.reqOp k) 2 (u.rdf (Reg.secReqStat k) 31 16) else u
        | none => u).secShow)) ∧
    ∃ t, exec (.storeWriteConfirm false) s = .next t ∧ t.rdb (Reg.pgSoot .sec) 5 = true ∧ t.sec.store = s.sec.store ∧
      ∀ k, w.slot = some k → k < 4 → s.rdf (Reg.secReqStat k) 3 0 = 1 → t.rdf (Reg.secReqStat k) 3 0 = 7) ∧
  (∀ (kind other : StoreKind) (payload : List Byte) (s : State), kind ≠ .owned →
    (s.storeApply kind payload).storeOf kind = some payload ∧
    (other ≠ kind → (s.storeApply kind payload).storeOf other = s.storeOf other)) ∧
  (∀ (i : Nat) (key : List Byte) (s : State), s.owned = true → key ≠ [] → i < 4 →
    let t := s.storeApply .owned key
    t.credKey 12 = some key ∧ (1 ≤ i → t.credKey (12 + i) = none) ∧ t.credKey (20 + i) = none ∧ t.credKey (24 + i) = none ∧
    t.tplKey i = none ∧ t.sec.recKey = none ∧ t.sec.epochOk = false ∧ t.dmk = s.dmk ∧
    ∀ n, n < 16 → (t.chain n).needNew = true) ∧
  (∀ s : State, s.domOn 2 = true → s.sec.writes.any (fun w => w.retryAt.isSome && s.due w.retryAt) = true →
    exec .storeWriteRetry s = .next (
      let l : List StoreWrite := s.sec.writes.map (fun w => if s.due w.retryAt then { w with retryAt := none } else w)
      ({ s with sec := { s.sec with writes := l } } : State).soot .sec 5)) ∧
  (∀ (slot : Fin 2) (s : State), s.domOn 2 = true → s.sec.enclaveOk = true → s.sec.boot.core0 = none → s.sec.boot.waitTo = none →
    s.bootSlot = slot.val → 3 ≤ s.pwr.bootStep → s.sec.boot.resetFirst = false → s.railBlocks 20 = false →
    let h := s.bootHeader slot.val
    exec (.bootAttempt slot .noSfdp) s = .next (s.attemptFailed slot.val 1) ∧
    exec (.bootAttempt slot .readError) s = .next (s.attemptFailed slot.val 8) ∧
    (∀ c, s.headerFault h = some c → exec (.bootAttempt slot .ok) s = .next (s.attemptFailed slot.val c)) ∧
    (s.headerFault h = none → 7 ≤ s.pwr.bootStep → s.domOn 5 = true → s.pwrPhase ≠ 3 → s.cfgOk = true → (∃ img, s.fgImage = some img ∧ s.verifySafety img = true) →
      s.inDram (leAt h 0x10 5) (leAt h 0xC 4) = true → sha256 (s.flashRd (leAt h 8 4) (leAt h 0xC 4)) = slice h 0x30 32 →
      exec (.bootAttempt slot .ok) s = .next
        ((s.wrMem (leAt h 0x10 5) (s.flashRd (leAt h 8 4) (leAt h 0xC 4))).bootPass h (some slot.val) false))) ∧
  (∀ (h : List Byte) (s : State), s.headerFault h = none → leAt h 0 2 = 0x4B44 ∧ byteAt h 2 = 1 ∧
    s.bootKeyOk (slice h 0x80 64) = true ∧ ecdsaOk (slice h 0x80 64) (sha256 (h.take 0xC0)) (slice h 0xC0 64) = true ∧
    s.rollback ≤ leAt h 4 4 ∧ leAt h 4 4 ≤ 256) ∧
  (∀ (h : List Byte) (slot : Fin 2) (sram : Bool) (s : State),
    let t := s.bootPass h (some slot.val) sram
    t.rdb (Reg.pgLock .fgd) 0 = true ∧ t.rd Reg.secCtxRole = 0x2222 ∧ t.sec.boot.last = some slot.val ∧
    t.sec.boot.core0 = some (BitVec.ofNat 40 (hdrEntry h)) ∧ t.rdb Reg.secBootStat 0 = (slot.val == 1)) ∧
  (∀ (slot : Fin 2) (c : Fin 16) (s : State),
    let t := s.attemptFailed slot.val c.val
    t.rdf Reg.secBootStat (4 * slot.val + 7) (4 * slot.val + 4) = c.val ∧ t.sec.boot.resetFirst = (c.val == 7) ∧
    (s.sec.boot.failed = 0 → t.bootSlot = 1 - s.bootSlot ∧ t.sec.boot.waitTo = s.sec.boot.waitTo) ∧
    (s.sec.boot.failed ≠ 0 → (s.powered .sec = true → t.rdb (Reg.pgSoot .sec) 4 = true) ∧ t.sec.boot.failed = 0 ∧
      t.sec.boot.waitTo = some (s.now + Nat.min (2 ^ s.sec.boot.waits) 64 * secT) ∧ t.sec.boot.waits = s.sec.boot.waits + 1)) ∧
  (∀ s : State, s.domOn 2 = true → (∃ w, s.sec.boot.waitTo = some w ∧ w ≤ s.now) → exec .bootRetryWaitEnd s =
    .next { s with sec := { s.sec with boot := { s.sec.boot with waitTo := none, recHeader := [] } } }) ∧
  (∀ (p f : List Byte) (s : State), s.recoveryOn = true →
    (recoveryPayload 1 f = some [] → exec (.recoveryHello f) s = .next (s.recoveryAnswer 1 0
      (s.otpBytes 0 16 ++ [BitVec.ofNat 8 s.lifecycle] ++ leBytes 4 (s.rdn Reg.secBootStat)))) ∧
    (recoveryPayload 2 f = some p → p.length = 256 → s.headerFault p = none → hdrSram p = true →
      exec (.recoveryHeader f) s = .next
        (({ s with sec := { s.sec with boot := { s.sec.boot with recHeader := p } } } : State).recoveryAnswer 2 0 [])) ∧
    (recoveryPayload 3 f = some p → 5 ≤ p.length → p.length ≤ 1028 → s.sec.boot.recHeader ≠ [] → s.domOn 4 = true →
      leAt p 0 4 + (p.length - 4) ≤ leAt s.sec.boot.recHeader 0x24 4 →
      exec (.recoveryData f) s = .next ((s.wrMem (0x10000000 + leAt p 0 4) (p.drop 4)).recoveryAnswer 3 0 [])) ∧
    (recoveryPayload 4 f = some [] → s.sec.boot.recHeader ≠ [] → s.domOn 4 = true →
      sha256 (s.rdMem 0x10000000 (leAt s.sec.boot.recHeader 0x24 4)) = slice s.sec.boot.recHeader 0x50 32 →
      exec (.recoveryRun f) s = .next ((s.recoveryAnswer 4 0 []).handOverWith s.sec.boot.recHeader none true)) ∧
    (recoveryPayload 4 f = none → exec (.recoveryRun f) s = .next (s.recoveryAnswer 4 1 []))) ∧
  (∀ (typ : Fin 256) (p : List Byte), p.length < 65536 → recoveryPayload typ.val (recoveryFrame typ.val p) = some p) ∧
  (∀ (i : TapInstr) (s : State), exec (.tapInstructionLoad i) s = .next (if i = .other
    then (if s.flt.holds.contains .tap then s.dropHold .tap else s) else s.holdDevice .tap)) ∧
  (∀ (k : Fin 4) (c : Instr) (s t : State),
    c ∈ [.recordSign, .nonceExpiry k, .entropyFailure, .entropyRecovery, .storeWriteRetry, .bootRetryWaitEnd] →
    exec c s = .next t → t.pins = s.pins ∧ t.now = s.now ∧ t.pending = s.pending ∧ t.sec.otp = s.sec.otp ∧ t.sec.store = s.sec.store)

/-! ### Fireguard and the fault collector (spec/15) -/

/-- Interlocks, key switch, enables, readbacks, clock and core checks, self-tests and the signed configuration; events, grace, steps,
acknowledgement, quiet, release and the integrity check; the safe state and WARM_RESET. -/
def Obligations.FireguardAndFaults : Prop :=
  (∀ (x : Fin 4) (l1 l2 : Bool) (s : State), ilkClosed (s.ilkAnti x.val) l1 l2 = false → s.domOn 1 = true → s.ilkEn x.val = true →
    (∀ n, n < 16 → s.pins.gate.getLsbD n = (s.las n).gate) →
    ∃ t, exec (.interlockOpen x l1 l2) s = .next t ∧ t.rdb Reg.fgdStat (4 + x.val) = false ∧
      t.rdb (Reg.pgSoot .fgd) (2 + x.val) = true ∧
      (∀ n, n < 16 → s.isLaser n = true → t.pins.gate.getLsbD n = false ∧ t.rdb Reg.fgdCut n = true) ∧
      ∀ k, k < 2 → t.lenOn k = true → (tabGet none t.fgd.offAt k).isSome = true) ∧
  (∀ (x : Fin 4) (l1 l2 : Bool) (s : State), ilkClosed (s.ilkAnti x.val) l1 l2 = true → s.domOn 1 = true → s.ilkEn x.val = true →
    ∃ t, exec (.interlockClose x l1 l2) s = .next t ∧ t.deviceSafe = s.deviceSafe ∧
      (s.rdb Reg.fgdStat (8 + x.val) = true → (s.ilk x.val).openShown = false → t.rd Reg.fgdStat = s.rd Reg.fgdStat) ∧
      (s.rdb Reg.fgdStat (8 + x.val) = false ∨ (s.ilk x.val).openShown = true → t.rdb Reg.fgdStat (4 + x.val) = true ∧
        t.rdb Reg.fgdStat (8 + x.val) = false ∧ t.rdb (Reg.pgSoot .fgd) (2 + x.val) = false)) ∧
  (∀ (x : Fin 4) (d : Nat) (s : State), (s.ilk x.val).disagreeAt = some d → s.domOn 1 = true → s.ilkEn x.val = true →
    (d + s.ilkDiscT x.val < s.now → ∃ t, exec (.interlockDiscrepancy x) s = .next t ∧ t.rdb Reg.fgdStat (8 + x.val) = true ∧
      (t.ilk x.val).openShown = false ∧ t.ilksOk = false) ∧
    (s.now ≤ d + s.ilkDiscT x.val → exec (.interlockDiscrepancy x) s = .next s)) ∧
  (∀ (high : Bool) (s : State), s.domOn 1 = true → (∀ n, n < 16 → s.pins.gate.getLsbD n = (s.las n).gate) →
    ∃ t, exec (.keySwitchChange high) s = .next t ∧ t.rdb Reg.fgdStat 3 = high ∧ t.flt = s.flt ∧ t.rd Reg.fltChSafe = s.rd Reg.fltChSafe ∧
      (high = false → (∀ n, n < 16 → s.isLaser n = true → t.pins.gate.getLsbD n = false) ∧
        ∀ k, k < 2 → t.lenOn k = true → (tabGet none t.fgd.offAt k).isSome = true)) ∧
  (∀ (k : Fin 2) (s : State), s.domOn 1 = true →
    (s.enableOk k.val = true → s.lenOn k.val = false → exec (.enableAssert k) s = .next (s.setLen k.val true)) ∧
    (s.enableOk k.val = false → exec (.enableAssert k) s = .next s)) ∧
  (∀ (k : Fin 2) (on : Bool) (s : State), s.lenOn k.val ≠ on → (s.setLen k.val on).lenOn k.val = on ∧
    (s.setLen k.val on).pins.len.getLsbD k.val = on ∧ (s.setLen k.val on).rdb Reg.fgdStat (12 + k.val) = on ∧
    (s.setLen k.val on).lenOn (1 - k.val) = s.lenOn (1 - k.val)) ∧
  (∀ (k : Fin 2) (s : State), s.due (tabGet none s.fgd.offAt k.val) = true →
    exec (.enableOffDelayEnd k) s = .next (s.setLen k.val false)) ∧
  (∀ (k : Fin 2) (p n : Bool) (s : State), s.domOn 1 = true → ¬ (p = s.lenOn k.val ∧ n = ! s.lenOn k.val) →
    ∃ t, exec (.enableReadbackMismatch (.len k p n)) s = .next t ∧ t.lenOn 0 = false ∧ t.lenOn 1 = false ∧
      t.rdb (Reg.pgSoot .fgd) 7 = true) ∧
  (∀ (n j : Fin 16) (on : Bool) (s : State), s.domOn 1 = true →
    (on ≠ s.pins.gate.getLsbD n.val → exec (.readbackMismatch (.gate n on)) s = .next
      (((((s.wrb Reg.fgdGateSense n.val on).wrb Reg.fgdGateMm n.val true).cut n.val 2).soot .fgd 6).lenDrop)) ∧
    (on ≠ s.pins.strobe.getLsbD n.val → exec (.readbackMismatch (.strobe n on)) s = .next
      ((((s.wrb Reg.fgdGateSense (16 + n.val) on).wrb Reg.fgdGateMm (16 + n.val) true).cut n.val 9).srcEvent (96 + 8 * n.val + 3))) ∧
    (on ≠ s.pins.rej.getLsbD j.val → exec (.readbackMismatch (.reject j on)) s = .next ((s.wrb Reg.fgdRejMm j.val true).soot .lin 9))) ∧
  (∀ (n : Fin 16) (duty : BitVec 16) (m p : Nat) (s : State), s.domOn 1 = true → s.isLaser n.val = true → s.lpLimit n.val = some (m, p) →
    (m < duty.toNat → exec (.dutyWindowCheck n duty) s = .next ((s.cut n.val 3).srcEvent (96 + 8 * n.val + 3))) ∧
    (duty.toNat ≤ m → exec (.dutyWindowCheck n duty) s = .next s)) ∧
  (∀ (r f : Nat) (s : State), s.domOn 1 = true →
    (2 * r < 25 ∨ (s.syn0Bypass = false ∧ 2 * f < 25) → exec (.clockMonitorWindow r f) s = .next (
      let u := if s.flt.clockForce then s else s.clockForces true s.flt.bypassForce
      if u.rdb (Reg.pgSoot .fgd) 8 then u else u.soot .fgd 8)) ∧
    (25 ≤ 2 * r → s.syn0Bypass = true ∨ 25 ≤ 2 * f → s.flt.clockForce = true → s.rdb Reg.clkStat 8 = true →
      exec (.clockMonitorWindow r f) s = .next ((s.clockForces false s.flt.bypassForce).sootOff .fgd 8))) ∧
  (∀ (freq : BitVec 16) (s : State), s.domOn 1 = true →
    exec (.fgOscDeviation freq) s = .next (if freq.toNat < 9500 ∨ 10500 < freq.toNat then (s.wrf Reg.fgdOsc 15 0 freq.toNat).soot .fgd 8
      else s.wrf Reg.fgdOsc 15 0 freq.toNat)) ∧
  (∀ s : State, s.domOn 1 = true →
    exec .lockstepMismatch s = .next (((s.cnt Reg.fgdWdtCnt 31 16).soot .fgd 0).fgCoreReset) ∧
    exec .fgWatchdogExpiry s = .next (((s.cnt Reg.fgdWdtCnt 15 0).soot .fgd 1).fgCoreReset) ∧
    exec .supplyWindowFault s = .next ((s.wrb Reg.fgdStat 17 false).soot .fgd 11)) ∧
  (∀ s : State, s.fgCoreReset.rdb Reg.fgdStat 1 = false ∧ s.fgCoreReset.pins.safeOut = false ∧
    ∀ k, k < 2 → s.fgCoreReset.enableOk k = false) ∧
  (∀ s : State, s.domOn 1 = true → s.rdb Reg.fgdStat 1 = false → s.rdf Reg.fgdSelftest 1 0 ≠ 1 → s.fgd.retryAt = none →
    exec .fgSelftestStart s = .next s.selftestBegin) ∧
  (∀ s : State, s.domOn 1 = true → s.due s.fgd.retryAt = true → exec .fgSelftestRetry s = .next s.selftestBegin) ∧
  (∀ (item src : BitVec 8) (s : State), s.rdf Reg.fgdSelftest 1 0 = 1 →
    (exec (.fgSelftestDone .pass) s = .next (
      let u := ((((s.wrf Reg.fgdSelftest 1 0 2).wrf Reg.fgdSelftest 11 4 0).wrb Reg.fgdStat 1 true).wrb Reg.fgdStat 17 true)
      let w := ((((u.sootOff .fgd 0).sootOff .fgd 1).irq .fgd 2).dropHold .selftest).safeOutUpdate
      if w.bootAt 4 then w.startSynths else w)) ∧
    exec (.fgSelftestDone (.fail item src)) s = .next (
      let u := (s.wrf Reg.fgdSelftest 1 0 3).wrf Reg.fgdSelftest 11 4 item.toNat
      let w : State := { u with fgd := { u.fgd with retryAt := some (u.now + secT) } }
      ((w.irq .fgd 2).raiseFgSrc src.toNat).holdDevice .selftest)) ∧
  (∀ (item src : BitVec 8) (s : State), s.domOn 1 = true → s.rdb Reg.fgdStat 1 = true →
    exec (.fgPeriodicTest .pass) s = .next ((((s.wrb Reg.fgdStat 17 true).sootOff .fgd 6).sootOff .fgd 7).sootOff .fgd 11) ∧
    exec (.fgPeriodicTest (.fail item src)) s = .next ((s.wrf Reg.fgdSelftest 11 4 item.toNat).raiseFgSrc src.toNat)) ∧
  (∀ (img : List Byte) (u s : State), s.domOn 1 = true → s.domOn 2 = true → s.cfgOk = false → 6 ≤ s.pwr.bootStep →
    s.sec.boot.core0 = none → s.sec.boot.waitTo = none → s.sec.boot.resetFirst = false → s.fgImage = some img →
    (s.verifySafety img = false → exec .fgConfigLoad s = .next (s.bootCause 7)) ∧
    (s.verifySafety img = true → s.fgLoad img = (u, true) → exec .fgConfigLoad s = .next (u.wrb (Reg.pgLock .fgd) 0 true)) ∧
    (s.verifySafety img = true → s.fgLoad img = (u, false) → exec .fgConfigLoad s = .next (u.bootCause 7))) ∧
  (∀ (img : List Byte) (u s : State),
    (s.fgLoad img = (u, true) → fgFormatOk img = true ∧ u.cfgOk = true ∧ (u.rd Reg.fgdCfgCrc).toNat = leAt img 0x18 4 ∧
      u.rdb (Reg.pgLock .flt) 0 = true ∧ ∀ k, k < 256 → (u.src k).cfg = (fgSources img)[k]?) ∧
    (s.fgLoad img = (u, false) → u.cfgOk = s.cfgOk)) ∧
  (∀ (d : Fin 13) (s : State), s.domOn 1 = true → s.cfgOk = true → s.domOn d.val = true → s.fgd.applyPending.contains d.val = true →
    ∃ t, exec (.fgDomainReapply d) s = .next t ∧ t.fgd.applyPending.contains d.val = false ∧
      ∀ e, e ≠ d.val → t.fgd.applyPending.contains e = s.fgd.applyPending.contains e) ∧
  (∀ s : State, s.domOn 1 = true → s.cfgOk = true →
    let cs := (List.range 256).map (fun i => match (s.src i).cfg with | some c => c | none => ⟨0, 0, 0⟩)
    let crc := crc32c (fgCrcBytes (s.fgd.cfgWrites.map (fun w => (w.1, s.fgReadBack w))) cs)
    let u := s.wrf Reg.fgdCfgInfo 31 16 (s.rdf Reg.fgdCfgInfo 31 16 + 1)
    (crc ≠ s.rd Reg.fgdCfgCrc → exec .configCrcPass s = .next (u.soot .fgd 12)) ∧
    (crc = s.rd Reg.fgdCfgCrc → s.rdb (Reg.pgSoot .fgd) 12 = false → exec .configCrcPass s = .next u)) ∧
  (∀ (k j : Nat) (s : State), s.domOn 1 = true → k < 256 →
    let c := s.srcCfg k
    let x := s.src k
    let t := s.srcEvent k
    (t.src k).latched = true ∧ (t.src k).releasable = false ∧ (t.src k).step = x.step ∧ (t.src k).stamp = s.stamp ∧
    (x.events ≠ 0xFFFF → (t.src k).events = x.events + 1) ∧ (j ≠ k → t.src j = s.src j) ∧
    (c.cls = clsInfo → x.promoted = false → (t.src k).graceAt = x.graceAt) ∧
    (c.cls = clsMinor → x.promoted = false →
      (x.window.filter (fun a => decide (s.now - a < c.window))).length + 1 < c.promoteN →
      (t.src k).promoted = false ∧ (t.src k).graceAt = x.graceAt) ∧
    (c.cls = clsMinor → c.promoteN ≤ (x.window.filter (fun a => decide (s.now - a < c.window))).length + 1 →
      (t.src k).promoted = true ∧ (x.graceAt = none → x.belowLast c = true → (t.src k).graceAt = some (s.now + c.grace))) ∧
    (c.cls = clsSevere → x.graceAt = none → x.belowLast c = true → (t.src k).graceAt = some (s.now + c.grace)) ∧
    (c.cls = clsCritical → x.graceAt = none → x.belowLast c = true → (t.src k).graceAt = some s.now) ∧
    (x.belowLast c = false ∨ x.graceAt ≠ none → (t.src k).graceAt = x.graceAt)) ∧
  (∀ (src : BitVec 8) (s : State), s.domOn 1 = true → s.due (s.src src.toNat).graceAt = true →
    let k := src.toNat
    let x := s.src k
    let c := s.srcCfg k
    let step := if ! x.taken then c.first else if x.step < c.last then x.step + 1 else x.step
    let u := (s.setSrc k { x with graceAt := none, taken := true, step := step }).irq .flt 2
    (step = 0 → exec (.graceExpiry src) s = .next u.safeUpdate) ∧
    (step = 1 ∨ step = 2 → exec (.graceExpiry src) s = .next (u.fltLog k (3 + step)).safeUpdate) ∧
    (step = 3 → exec (.graceExpiry src) s = .next ((u.fltLog k 6).warmReset k))) ∧
  (∀ s : State, s.deviceHeld = true → s.deviceSafe = false → s.domOn 1 = true →
    (∀ n, n < 16 → s.pins.gate.getLsbD n = (s.las n).gate) →
    s.safeUpdate.deviceSafe = true ∧ s.safeUpdate.pins.safeOut = false ∧
    ∀ n, n < 16 → s.safeUpdate.rdb Reg.fgdCut n = true ∧ (s.isLaser n = true → s.safeUpdate.pins.gate.getLsbD n = false) ∧
      (s.isLaser n = false → s.safeUpdate.pins.strobe.getLsbD n = false)) ∧
  (∀ s : State, s.deviceHeld = false → s.safeUpdate.deviceSafe = false) ∧
  (∀ (k : Nat) (s : State), k < 256 → let t := s.warmReset k
    (∀ d, 1 ≤ d → d ≤ 12 → t.domOn d = false) ∧ t.rdf Reg.fltWarm 7 0 = k ∧ t.sec.pending = s.sec.pending ∧
    t.sec.chains = s.sec.chains ∧ t.flt.log = s.flt.log ∧ t.tim.rtc = s.tim.rtc ∧ t.pins.len = (if s.domOn 1 then 0 else s.pins.len) ∧
    t.flt.inReset = true) ∧
  (∀ s : State, s.flt.inReset = true → s.pwr.heldCfg = [] → s.railBlocks 1 = false → s.railBlocks 2 = false → s.railBlocks 4 = false →
    ∃ t, exec .warmResetRelease s = .next t ∧ t.flt.inReset = false ∧ t.rd Reg.pwrWakeCause = 0x80 ∧ t.pwr.bootStep = 3) ∧
  (∀ (b : Bus) (v : Word) (s : State), s.takes b .flt 0x70 v →
    let k := fld v 7 0
    ((s.src k).graceAt.isSome = true → exec (.fltAck b v) s = .next
      (((s.ok.setSrc k { s.src k with graceAt := none, acked := true }).fltLog k 3).wrf Reg.fltAckRes 1 0 1)) ∧
    ((s.src k).graceAt = none → exec (.fltAck b v) s = .next (s.ok.wrf Reg.fltAckRes 1 0 2))) ∧
  (∀ (b : Bus) (v : Word) (s : State), s.takes b .flt 0x78 v →
    let k := fld v 7 0
    (bit v 31 = true → exec (.fltRelease b v) s = .next s.ok.releaseAll) ∧
    (bit v 31 = false → (s.src k).releasable = true →
      exec (.fltRelease b v) s = .next ((s.ok.recover k 8).releaseRes 1 1).safeUpdate) ∧
    (bit v 31 = false → (s.src k).releasable = false → exec (.fltRelease b v) s =
      .next (s.ok.releaseRes 0 (if (s.ok.srcCfg k).manual then 2 else 3)))) ∧
  (∀ (k kind j : Nat) (s : State), let t := s.recover k kind
    (t.src k).latched = false ∧ (t.src k).step = 0 ∧ (t.src k).promoted = false ∧ (t.src k).window = [] ∧
    ((s.src k).recov ≠ 0xFFFF → (t.src k).recov = (s.src k).recov + 1) ∧ (t.src k).events = (s.src k).events ∧
    (j ≠ k → t.src j = s.src j)) ∧
  (∀ (held : Nat) (s : State), s.domOn 1 = true →
    (s.rdf Reg.fgdReleaseCfg 7 0 * 10 * msT ≤ held → held ≤ s.rdf Reg.fgdReleaseCfg 15 8 * 10 * msT →
      exec (.releasePulse held) s = .next s.releaseAll) ∧
    (held < s.rdf Reg.fgdReleaseCfg 7 0 * 10 * msT ∨ s.rdf Reg.fgdReleaseCfg 15 8 * 10 * msT < held →
      exec (.releasePulse held) s = .next s)) ∧
  (∀ (src : BitVec 8) (s : State), s.domOn 1 = true → (s.src src.toNat).latched = true → (s.src src.toNat).pin = false →
    s.due (s.src src.toNat).quietAt = true →
    ((s.srcCfg src.toNat).manual = true → exec (.quietExpiry src) s =
      .next (s.setSrc src.toNat { s.src src.toNat with quietAt := none, releasable := true })) ∧
    ((s.srcCfg src.toNat).manual = false → exec (.quietExpiry src) s = .next (s.recover src.toNat 7).safeUpdate)) ∧
  (∀ s : State, s.domOn 1 = true → ∃ t, exec .integrityMismatch s = .next t ∧ t.deviceSafe = true ∧ (t.src 10).latched = true ∧
    (t.src 10).step = 2 ∧ t.rdb Reg.fltStat 2 = true ∧ (s.cfgOk = true → ∀ k, k < 256 → (t.src k).cfg = s.fgd.cfgSources[k]?)) ∧
  (∀ (b : Bus) (v : Word) (s : State), s.takes b .flt 0x48 v → ∃ t, exec (.fltSelectCapture b v) s = .next t ∧
    let x := s.src (fld v 7 0)
    let c := s.srcCfg (fld v 7 0)
    t.rdf Reg.fltSel 7 0 = fld v 7 0 ∧ t.rd (Reg.fltSrcCfg 0) = c.w0 ∧ t.rd (Reg.fltSrcCfg 1) = c.w1 ∧ t.rd (Reg.fltSrcCfg 2) = c.w2 ∧
    t.rdb Reg.fltSrcStat 2 = x.latched ∧ t.rdb Reg.fltSrcStat 3 = x.promoted ∧ t.rdb Reg.fltSrcStat 4 = x.releasable ∧
    t.rdb Reg.fltSrcStat 10 = x.graceAt.isSome ∧ t.rd Reg.fltSrcCnt = BitVec.ofNat 32 (x.events.toNat + x.recov.toNat * 0x10000) ∧
    t.rd Reg.fltSrcStampLo = loW x.stamp.toNat ∧ t.flt = s.flt) ∧
  (∀ (b : Bus) (v : Word) (s : State), s.takes b .flt 0xC0 v → s.flt.log.length < 32 → ∃ t, exec (.fltLogCapture b v) s = .next t ∧
    (∀ e, s.flt.log[fld v 4 0]? = some e → t.rdf Reg.fltLogD0 7 0 = e.src % 256 ∧ t.rdf Reg.fltLogD0 11 8 = e.kind % 16 ∧
      t.rdb Reg.fltLogD0 31 = true ∧ t.rd Reg.fltLogD1 = loW e.stamp.toNat ∧ t.rd Reg.fltLogD2 = hiW e.stamp.toNat) ∧
    (s.flt.log[fld v 4 0]? = none → t.rd Reg.fltLogD0 = 0) ∧ t.flt = s.flt) ∧
  (∀ (src k : Nat) (s : State), let t := s.fltLog src k
    (s.flt.log.length ≤ 32 → t.flt.log.length ≤ 32) ∧ t.flt.log.getLast? = some ⟨src, k, s.stamp⟩) ∧
  (∀ (x : Fin 4) (l1 l2 high : Bool) (k : Fin 2) (freq : BitVec 16) (c : Instr) (s t : State),
    c ∈ [.interlockOpen x l1 l2, .interlockClose x l1 l2, .interlockDiscrepancy x, .keySwitchChange high, .enableAssert k,
      .enableOffDelayEnd k, .fgOscDeviation freq, .fgSelftestStart, .fgSelftestRetry] →
    exec c s = .next t → sameMem s t ∧ t.sec = s.sec ∧ t.pending = s.pending ∧ t.now = s.now ∧ t.jobs = s.jobs)

/-! ### Clock synthesis and die temperature (spec/16) -/

/-- Synthesisers lock, lose lock and relock; the reference and its backup; outputs; die sensors, thresholds, Damper and shutdown. -/
def Obligations.ClocksAndTemperature : Prop :=
  (∀ (b : Bus) (y : Fin 4) (v : Word) (s : State), s.takes b .clk (0x100 + 0x80 * y.val) v → fld v 3 0 ≤ 11 →
    let u := s.ok.plainWrite (Reg.clkSynCfg y.val) v
    (s.synRunning y.val = false → bit v 8 = true →
      exec (.synRun b y v) s = .next ((u.updSyn y.val (fun x => { x with backoff := 4000 })).synAttempt y.val)) ∧
    (s.synRunning y.val = true → bit v 8 = false → exec (.synRun b y v) s = .next (u.synToBypass y.val)) ∧
    (s.synRunning y.val = bit v 8 → exec (.synRun b y v) s = .next u)) ∧
  (∀ (y : Fin 4) (err : BitVec 16) (s : State), s.domOn 4 = true → s.synRunning y.val = true → s.synSt y.val = synAcquire →
    s.refOk = true → err.toInt.natAbs ≤ 10 * s.rdf Reg.clkLockCfg 4 0 →
    ∃ t, exec (.synLock y err) s = .next t ∧ t.synSt y.val = synLocked ∧ t.rdb Reg.clkStat y.val = true ∧
      t.rdb Reg.clkStat (4 + y.val) = false ∧ t.rdf (Reg.clkSynPherr y.val) 30 16 = err.toInt.natAbs ∧
      (y.val = 0 → t.flt.bypassForce = false) ∧ t.rd (Reg.clkSynRelock y.val) = s.rd (Reg.clkSynRelock y.val)) ∧
  (∀ (y : Fin 4) (err : BitVec 16) (s : State), s.domOn 4 = true →
    (s.synSt y.val = synLocked → 10 * s.rdf Reg.clkLockCfg 4 0 < err.toInt.natAbs →
      ∃ t, exec (.synLossOfLock y err) s = .next t ∧ t.synSt y.val = synBypass ∧ t.rdb (Reg.pgSoot .clk) y.val = true ∧
        t.rdb Reg.clkStat y.val = false ∧ t.rdb Reg.clkStat (4 + y.val) = true ∧
        (t.syn y.val).waitAt = some (s.now + 10 * usT) ∧ (y.val = 0 → t.flt.bypassForce = true) ∧
        (y.val = 0 → s.domOn 1 = true → ∀ n, n < 16 → t.rdb Reg.fgdCut n = true)) ∧
    (s.synSt y.val ≠ synLocked → exec (.synLossOfLock y err) s = .next s)) ∧
  (∀ (y : Fin 4) (s : State), s.domOn 4 = true → s.synRunning y.val = true → s.refOk = true → s.due (s.syn y.val).waitAt = true →
    exec (.relockAttempt y) s = .next ((s.cnt (Reg.clkSynRelock y.val) 15 0).synAttempt y.val)) ∧
  (∀ (y : Fin 4) (s : State), s.refOk = false → exec (.relockAttempt y) s = .next s) ∧
  (∀ (y : Fin 4) (s : State), s.refOk = true → (s.synAttempt y.val).synSt y.val = synAcquire ∧
    (s.synAttempt y.val).rdf (Reg.clkSynStat y.val) 15 8 = s.bandOfBin y.val ∧
    ((s.synAttempt y.val).syn y.val).attemptAt = some s.now ∧ ((s.synAttempt y.val).syn y.val).waitAt = none) ∧
  (∀ (y : Fin 4) (a : Nat) (s : State), (s.syn y.val).attemptAt = some a → s.domOn 4 = true → s.synSt y.val = synAcquire →
    a + 100 * usT ≤ s.now → ∃ t, exec (.relockAttemptTimeout y) s = .next t ∧ t.synSt y.val = synWait ∧
      (t.syn y.val).waitAt = some (s.now + satN (10 * msT) (2 * (s.syn y.val).backoff)) ∧
      (t.syn y.val).backoff = satN (10 * msT) (2 * (s.syn y.val).backoff) ∧ t.rd (Reg.pgSoot .clk) = s.rd (Reg.pgSoot .clk)) ∧
  (∀ (y : Fin 4) (fine : BitVec 8) (s : State), s.domOn 4 = true → s.rdb (Reg.clkSynCfg y.val) 4 = true → s.synSt y.val = synLocked →
    s.banking 6 = true →
    (fine.toNat < 32 ∨ 223 < fine.toNat → ∃ t, exec (.bandRecentre y fine) s = .next t ∧
      t.rdb (Reg.clkSynStat y.val) 24 = true ∧ t.synSt y.val = synLocked ∧
      t.bandOfBin y.val = (if fine.toNat < 32 then s.bandOfBin y.val - 1 else satN 255 (s.bandOfBin y.val + 1)) ∧
      t.rdf (Reg.clkSynStat y.val) 15 8 = t.bandOfBin y.val) ∧
    (32 ≤ fine.toNat → fine.toNat ≤ 223 → exec (.bandRecentre y fine) s = .next s)) ∧
  (∀ s : State, s.domOn 4 = true → s.refOk = true → ∃ t, exec .refLoss s = .next t ∧ t.refOk = false ∧
    t.rdb Reg.clkStat 9 = s.rdb Reg.clkStat 10 ∧ t.rdb (Reg.pgSoot .clk) 4 = true ∧
    t.rdf (Reg.pgSoot .clk) 3 0 = s.rdf (Reg.pgSoot .clk) 3 0 ∧
    ∀ y, y < 4 → s.synSt y = synLocked → t.synSt y = synBypass ∧ (t.syn y).waitAt = none) ∧
  (∀ s : State, s.domOn 4 = true → s.refOk = false → ∃ t, exec .refGood s = .next t ∧ t.refOk = true ∧ t.rdb Reg.clkStat 9 = false ∧
    ∀ y, y < 4 → s.synRunning y = true → (t.syn y).waitAt = some (s.now + 10 * usT)) ∧
  (∀ (kHz : BitVec 16) (ratio : Word) (s : State), s.domOn 4 = true → s.refOk = true →
    ∃ t, exec (.backupMeasure kHz ratio) s = .next t ∧ t.rd Reg.clkBkpRatio = ratio ∧ t.rdf Reg.clkBkpMeas 15 0 = kHz.toNat ∧
      t.rdb Reg.clkStat 10 = decide (22500 ≤ kHz.toNat ∧ kHz.toNat ≤ 27500) ∧
      (s.rdb Reg.clkStat 10 = true → kHz.toNat < 22500 ∨ 27500 < kHz.toNat → t.rdb (Reg.pgSoot .clk) 5 = true)) ∧
  (∀ (b : Bus) (y o : Fin 4) (v : Word) (s : State), s.takes b .clk (0x110 + 0x80 * y.val + 4 * o.val) v →
    let a := Reg.clkSynOut y.val o.val
    (s.rdb a 16 = false ∨ (s.rdf a 13 0 = fld v 13 0 ∧ (bit v 16 = true ∨ (outputDomains y.val o.val).any s.domOn = false)) →
      exec (.clockOutputWrite b y o v) s = .next (s.ok.plainWrite a v)) ∧
    (s.rdb a 16 = true → s.rdf a 13 0 ≠ fld v 13 0 ∨ (bit v 16 = false ∧ (outputDomains y.val o.val).any s.domOn = true) →
      exec (.clockOutputWrite b y o v) s = .next (s.ok.soot .clk 6))) ∧
  (∀ (b : Bus) (y : Fin 4) (v : Word) (s : State), s.takes b .clk (0x108 + 0x80 * y.val) v →
    exec (.pherrClear b y v) s = .next (if bit v 31 then s.ok.wrf (Reg.clkSynPherr y.val) 30 16 0 else s.ok)) ∧
  (∀ (temps : Vector (BitVec 16) 12) (ext : Vector (BitVec 12) 2) (s : State), s.domOn 4 = true →
    ∃ t, exec (.dieSensorRound temps ext) s = .next t ∧ t.now = s.now ∧ sameMem s t ∧
      (∀ k : Fin 12, t.dieTemp k.val = (temps.get k).toInt ∧
        ((temps.get k).toInt < -550 ∨ 1500 < (temps.get k).toInt → t.dieGood k.val = false) ∧
        (s.dieGood k.val = false → (s.die k.val).judged = true → (s.die k.val).clear < 9 → t.dieGood k.val = false) ∧
        (s.dieGood k.val = true → ((dieNeighbours k.val).filter s.dieGood).length < 2 → -550 ≤ (temps.get k).toInt →
          (temps.get k).toInt ≤ 1500 → t.dieGood k.val = true)) ∧
      (∀ k x, t.hottest = some (k, x) → t.dieGood k = true ∧ t.dieTemp k = x ∧ (∀ j, j < 12 → t.dieGood j = true → t.dieTemp j ≤ x) ∧
        t.rds Reg.thmHot 15 0 = x ∧ t.rdf Reg.thmHot 19 16 = k ∧
        (s.thrT 0 ≤ x → 1 ≤ tabGet 0 s.thm.above 0 → t.rdb Reg.thmStat 12 = true) ∧
        (s.thrT 1 ≤ x → 1 ≤ tabGet 0 s.thm.above 1 → (s.rdb Reg.thmStat 13 = true → 1 ≤ s.dmpAuto) →
          t.rdb Reg.thmStat 13 = true ∧ 1 ≤ t.dmpLevel) ∧
        (s.thrT 2 ≤ x → 1 ≤ tabGet 0 s.thm.above 2 → s.thm.shutReached = false → s.thm.shutAt = none →
          t.rdb Reg.thmStat 14 = true ∧ t.thm.shutAt = some (s.now + 10 * msT) ∧ t.deviceHeld = true) ∧
        (s.rdb Reg.thmStat 14 = false → x < s.thrT 2 → t.rdb Reg.thmStat 14 = false))) ∧
  (∀ s : State, s.rdb Reg.thmStat 14 = true → s.due s.thm.shutAt = true → ∃ t, exec .shutdownPowerOff s = .next t ∧
    (∀ d ∈ [3, 5, 6, 7, 8, 9, 10, 11, 12], t.domOn d = false) ∧ t.domOn 1 = s.domOn 1 ∧ t.domOn 2 = s.domOn 2 ∧ t.domOn 4 = s.domOn 4 ∧
    t.rdb Reg.thmStat 14 = true) ∧
  (∀ s : State, s.domOn 4 = true → s.due s.thm.stepAt = true →
    let between := match s.hottest with | some (_, x) => decide (s.thrT 1 - s.thrH 1 ≤ x) && decide (x < s.thrT 1) | none => false
    ∃ t, exec .damperStep s = .next t ∧
      (between = true → t.dmpAuto = s.dmpAuto) ∧
      (between = false → s.rdb Reg.thmStat 13 = true → t.dmpAuto = satN 7 (s.dmpAuto + 1)) ∧
      (between = false → s.rdb Reg.thmStat 13 = false → t.dmpAuto = s.dmpAuto - 1) ∧
      t.dmpLevel = Nat.max (Nat.max t.dmpAuto (s.rdf Reg.thmDmpCfg 2 0)) (if s.rdb Reg.thmStat 15 then s.rdf Reg.thmDmpCfg 5 3 else 0) ∧
      (s.dmpLevel = 0 → t.dmpLevel ≠ 0 → t.rdb (Reg.pgSoot .thm) 1 = true)) ∧
  (∀ (n : Fin 16) (s : State), s.due (tabGet none s.thm.pauseAt n.val) = true → ∃ t, exec (.markPauseEnd n) s = .next t ∧
    tabGet none t.thm.pauseAt n.val = none ∧ t.rdb (Reg.chStat n.val) 4 = false ∧
    ∀ m, m ≠ n.val → tabGet none t.thm.pauseAt m = tabGet none s.thm.pauseAt m) ∧
  (∀ (b : Bus) (v : Word) (s : State), s.takes b .thm 0x90 v →
    exec (.thmPeakClear b v) s = .next (if bit v 31 then s.ok.wrf Reg.thmPeak 15 0 0 else s.ok)) ∧
  (∀ (k : Nat) (v : Word) (s : State), s.thrWriteOk k v = true → k < 3 →
    sfld v 15 0 ≤ sfld (resetOf (thrReg k)) 15 0 ∧ 5 ≤ fld v 23 16 ∧ fld v 23 16 ≤ 200 ∧
    (0 < k → s.thrT (k - 1) ≤ sfld v 15 0) ∧ (k < 2 → sfld v 15 0 ≤ s.thrT (k + 1))) ∧
  (∀ (y : Fin 4) (fine : BitVec 8) (kHz : BitVec 16) (ratio : Word) (c : Instr) (s t : State),
    c ∈ [.relockAttempt y, .relockAttemptTimeout y, .bandRecentre y fine, .refGood, .backupMeasure kHz ratio, .damperStep] →
    exec c s = .next t → sameMem s t ∧ t.pins = s.pins ∧ t.jobs = s.jobs ∧ t.now = s.now ∧ t.pending = s.pending)

/-! ### Rails, start-up and power states (spec/17) -/

/-- The rail sequencer, the emergency power-down, the domains, the power states, wakes, retention; the TSC across them. -/
def Obligations.RailsAndPower : Prop :=
  (∀ (m : Bool) (s : State), ∃ t, exec (.alwaysOnPowerUp m) s = .next t ∧ t.pwr.aon = true ∧ t.pwr.bootStep = 2 ∧ t.testMode = m ∧
    t.rd Reg.pwrWakeCause = 1 ∧ t.rd Reg.pwrRetLost = 0xFF ∧ t.rdb Reg.pwrVin 0 = true ∧ t.mem = [] ∧ t.flash = s.flash ∧
    t.sec.otp = s.sec.otp ∧ t.sec.store = s.sec.store ∧ t.bkg.log = s.bkg.log ∧ t.pins = PinState.reset ∧ t.pending = s.pending ∧
    t.rdf Reg.pwrWakeAddr 6 0 = (if (tabGet 0 s.sec.otp 0x181).toNat % 128 = 0 then 0x3A else (tabGet 0 s.sec.otp 0x181).toNat % 128) ∧
    (∀ k, k < 12 → t.rd (Reg.psqSlotCfg k) = BitVec.ofNat 32 (0x03203210 + k) ∧ t.slotDriven k = false) ∧
    ∀ d, 1 ≤ d → d < 13 → t.domOn d = false) ∧
  (∀ (o : Nat) (s : State), s.pwr.aon = true → s.pwr.emergency = false → s.pwr.bootStep = 2 → s.groupResolved = true →
    (s.pwr.phase = .idle ∨ ∃ q, s.pwr.phase = .up q ∧ q < o) → o < 16 → (∃ k ∈ s.groupOf o, s.slotDriven k = false) →
    (∀ p, p < o → ∀ k ∈ s.groupOf p, s.slotDriven k = true) → ∃ t, exec .railGroupEnable s = .next t ∧ t.pwr.phase = .up o ∧
    (∀ k ∈ s.groupOf o, s.slotDriven k = false → t.slotDriven k = true ∧ t.slotSt k = 1 ∧
      t.slot k = ⟨if s.slotPg k then some (s.now + s.slotQual k) else none, some (s.now + s.slotTimeout k), false⟩) ∧
    ∀ k, k < 12 → k ∉ s.groupOf o → t.rd (Reg.psqSlotStat k) = s.rd (Reg.psqSlotStat k) ∧ t.slot k = s.slot k) ∧
  (∀ s : State, s.pwr.aon = true → s.pwr.emergency = false → s.pwr.bootStep = 2 → s.groupResolved = true → s.railsUp = true →
    (s.pwr.phase = .idle ∨ ∃ q, s.pwr.phase = .up q) → s.pwr.heldCfg = [] → s.domOn 1 = false → s.domOn 2 = false → s.domOn 4 = false →
    s.pwr.switching = [] → s.testMode = false → ∃ t, exec .railGroupEnable s = .next t ∧ t.pwr.phase = .idle ∧
    (s.railBlocks 1 = false → s.railBlocks 2 = false → s.railBlocks 4 = false →
      t.pwr.bootStep = 3 ∧ t.pwr.switching = [(4, s.now + 50 * usT), (1, s.now + 100 * usT), (2, s.now + 150 * usT)]) ∧
    (s.railBlocks 1 = true ∨ s.railBlocks 2 = true ∨ s.railBlocks 4 = true → t.pwr.bootStep = 2 ∧ t.pwr.switching = [])) ∧
  (∀ (k : Fin 12) (level : Bool) (s : State), (s.slotPg k.val = level → exec (.pgEdge k level) s = .next s) ∧
    (s.slotPg k.val ≠ level → s.frozen (Reg.psqSlotStat k.val) = false → ∃ t, exec (.pgEdge k level) s = .next t ∧ t.slotPg k.val = level ∧
      t.slotDriven k.val = s.slotDriven k.val ∧
      (s.slotDriven k.val = true → level = true → s.slotSt k.val = 1 ∨ s.slotSt k.val = 3 → t.slotSt k.val = s.slotSt k.val ∧
        t.slot k.val = { s.slot k.val with qualAt := some (s.now + s.slotQual k.val) }) ∧
      (s.slotDriven k.val = true → level = false → s.slotSt k.val ≠ 2 → (s.slot k.val).qualAt.isSome = true →
        t.slotSt k.val = s.slotSt k.val ∧ (t.slot k.val).qualAt = none ∧
        t.rdf (Reg.psqSlotStat k.val) 15 8 = satN 255 (s.rdf (Reg.psqSlotStat k.val) 15 8 + 1)) ∧
      (s.slotDriven k.val = true → level = false → s.slotSt k.val = 2 → t.slotSt k.val = 3 ∧
        t.rdf (Reg.psqSlotStat k.val) 31 24 = satN 255 (s.rdf (Reg.psqSlotStat k.val) 31 24 + 1) ∧
        (∀ d, 1 ≤ d → d < 13 → s.rdb (Reg.psqSlotDep k.val) d = true → t.domOn d = false) ∧
        (∀ u, u < 2 → s.rdb (Reg.psqSlotDep k.val) (18 + u) = true → t.pins.drvEn.getLsbD u = false) ∧
        (∀ x, x < 2 → s.rdb (Reg.psqSlotDep k.val) (16 + x) = true → s.domOn 1 = true → t.lenOn x = false) ∧
        ((s.domOn 1 && s.domOn 4) = false → 0 ∈ t.pwr.lateSoot)) ∧
      (s.slotDriven k.val = false → level = false → (t.slot k.val).resolved = true))) ∧
  (∀ (k : Fin 12) (s : State), s.slotDriven k.val = true → s.slotPg k.val = true → s.due (s.slot k.val).qualAt = true →
    ∃ t, exec (.railQualified k) s = .next t ∧ t.slotSt k.val = 2 ∧ t.slot k.val = ⟨none, none, true⟩ ∧
    (∀ f, (∀ j, j < 12 → j ≠ k.val → s.slotDriven j = true → s.rdb (Reg.psqSlotDep j) f = true → s.slotSt j = 2) → t.railBlocks f = false) ∧
    (s.pwr.bootStep = 8 → s.testMode = false → s.rdb Reg.thmStat 14 = false → ∀ d, 1 ≤ d → d < 13 → s.rdb Reg.pwrDomCtrl d = true →
      s.domOn d = false → t.railBlocks d = false → t.pwr.switching.any (fun e => e.1 == d) = true)) ∧
  (∀ (k : Fin 12) (s : State), s.due (s.slot k.val).timeoutAt = true → ∃ t, exec (.railTimeout k) s = .next t ∧
    (t.slot k.val).timeoutAt = none ∧ (t.slot k.val).resolved = true ∧
    (s.slotDriven k.val = true → s.slotSt k.val = 1 → t.slotSt k.val = 3 ∧
      ∀ f, s.rdb (Reg.psqSlotDep k.val) f = true → t.railBlocks f = true) ∧
    (s.slotDriven k.val = true → s.slotSt k.val ≠ 1 → t.slotSt k.val = s.slotSt k.val) ∧
    (s.slotDriven k.val = false → t.rdb (Reg.psqSlotStat k.val) 4 = (s.rdb (Reg.psqSlotStat k.val) 4 || s.slotPg k.val))) ∧
  (∀ (o g : Nat) (s : State), s.pwr.phase = .down o → s.groupResolved = true → g < o →
    (∃ k ∈ s.groupOf g, s.slotDriven k = true ∧ s.slotKept k s.pwrTarget = false) →
    (∀ p, g < p → p < o → ∀ k ∈ s.groupOf p, s.slotDriven k = true → s.slotKept k s.pwrTarget = true) →
    ∃ t, exec .powerDownGroup s = .next t ∧ t.pwr.phase = .down g ∧ t.pwrPhase = s.pwrPhase ∧
    (∀ k ∈ s.groupOf g, s.slotDriven k = true → s.slotKept k s.pwrTarget = false → t.slotDriven k = false ∧ t.slotSt k = 0 ∧
      t.slot k = ⟨none, some (s.now + s.slotTimeout k), ! s.slotPg k⟩) ∧
    ∀ k, k < 12 → k ∉ s.groupOf g ∨ s.slotKept k s.pwrTarget = true → t.rd (Reg.psqSlotStat k) = s.rd (Reg.psqSlotStat k)) ∧
  (∀ (o : Nat) (s : State), s.pwr.phase = .down o → s.groupResolved = true → s.pwr.heldCfg = [] → 2 ≤ s.pwrTarget →
    (∀ p, p < o → ∀ k ∈ s.groupOf p, s.slotDriven k = true → s.slotKept k s.pwrTarget = true) →
    ∃ t, exec .powerDownGroup s = .next t ∧ t.rdf Reg.pwrCnt 15 0 = satN 0xFFFF (s.rdf Reg.pwrCnt 15 0 + 1) ∧
    t.pwrState = s.pwrTarget ∧ t.pwr.phase = .idle ∧
    (s.pwr.wake = none → s.rdb Reg.pwrStat 12 = false → t.pwrPhase = 0 ∧ t.pwr.bootStep = 1) ∧
    (s.pwr.wake.isSome = true → t.pwrPhase = 3 ∧ t.pwr.bootStep = 2 ∧ t.pwr.wake = none ∧
      t.rdf Reg.pwrWakeCause 14 12 = s.pwrTarget)) ∧
  (∀ s : State, s.pwr.aon = true → s.pwr.emergency = false → s.pwr.heldCfg = [] → ∃ t, exec .vinWarning s = .next t ∧
    t.pwr.emergency = true ∧ t.pwr.bootStep = 1 ∧ (∀ d, 1 ≤ d → d < 13 → t.domOn d = false) ∧
    t.pins = PinState.reset ∧ t.sec.writes = [] ∧ t.bkg.writes = [] ∧
    t.rdb Reg.pwrVin 0 = false ∧ t.rdf Reg.pwrVin 15 8 = satN 255 (s.rdf Reg.pwrVin 15 8 + 1) ∧
    (∀ b, b < 8 → t.rd (Reg.pwrRetCrc b) = s.bankCrc b) ∧ (∀ k, k < 12 → t.slotDriven k = (s.slotDriven k && s.slotKept k 4)) ∧
    2 ∈ t.pwr.lateSoot) ∧
  (∀ s : State, s.pwr.emergency = true → ∃ t, exec .vinRestore s = .next t ∧ t.pwr.emergency = false ∧ t.pwr.bootStep = 2 ∧
    t.rdb Reg.pwrVin 0 = true ∧ t.rd Reg.pwrWakeCause = (if t.rd Reg.pwrRetLost = 0 then 0x40 else 0x140) ∧
    ∀ b, b < 8 → (t.rdb Reg.pwrRetLost b = false → s.bankCrc b = s.rd (Reg.pwrRetCrc b)) ∧
      ∀ i, i < 0x8000 → t.rdByte (0x20000000 + 0x8000 * b + i) =
        if t.rdb Reg.pwrRetLost b then 0 else s.rdByte (0x20000000 + 0x8000 * b + i)) ∧
  (∀ (b : Nat) (s : State), b < 8 → let p := s.rdf Reg.srmRetMap (4 * b + 3) (4 * b)
    p < 9 → (s.bankLost b).rdb Reg.pwrRetLost b = true ∧
    (s.bankLost b).rdf Reg.pwrRetFails (2 * p + 1) (2 * p) = satN 3 (s.rdf Reg.pwrRetFails (2 * p + 1) (2 * p) + 1) ∧
    (s.rdf Reg.pwrRetFails (2 * p + 1) (2 * p) = 1 → (∀ c, c < 8 → s.rdf Reg.srmRetMap (4 * c + 3) (4 * c) ≠ 8) →
      (s.bankLost b).rdf Reg.srmRetMap (4 * b + 3) (4 * b) = 8 ∧ (s.bankLost b).rdb Reg.srmRetStat p = true) ∧
    (b = 6 → (s.bankLost b).sec.pending = []) ∧ (b = 7 → ∀ c, c < 32 → ((s.bankLost b).serial c).next = (s.serial c).resv)) ∧
  (∀ (b : Bus) (v : Word) (s : State), s.takes b .pwr 0xD0 v → s.domOn 1 = true → ∃ t, exec (.domainControlWrite b v) s = .next t ∧ t.resp = ⟨false, 0⟩ ∧
    ∀ d, 1 ≤ d → d < 13 →
      (d = 1 ∨ d = 2 ∨ d = 4 → t.domOn d = s.domOn d ∧ (bit v d = false → t.rdb Reg.pwrDomCtrl d = s.rdb Reg.pwrDomCtrl d)) ∧
      (bit v d = false → d = 3 ∨ d = 6 ∨ 9 ≤ d → t.domOn d = false ∧ t.rdb Reg.pwrDomCtrl d = false) ∧
      (bit v d = false → d = 5 → s.domOn 3 = true → s.domOn 5 = true → t.domOn 5 = true ∧ t.rdb (Reg.pgSoot .pwr) 5 = true) ∧
      (bit v d = false → d = 5 → s.domOn 3 = false → t.domOn 5 = false) ∧
      (bit v d = false → d = 7 ∨ d = 8 → s.domOn d = true → s.halfMarking d = true → t.domOn d = true ∧ d ∈ t.pwr.heldOff) ∧
      (bit v d = false → d = 7 ∨ d = 8 → s.halfMarking d = false → t.domOn d = false) ∧
      (bit v d = true → s.domOn d = true → t.domOn d = true ∧ t.rdb Reg.pwrDomCtrl d = true ∧ d ∉ t.pwr.heldOff) ∧
      (bit v d = true → s.domOn d = false → s.railBlocks d = true → t.domOn d = false ∧
        t.rdb Reg.pwrDomCtrl d = s.rdb Reg.pwrDomCtrl d ∧ t.rdb (Reg.pgSoot .pwr) 5 = true) ∧
      (bit v d = true → s.domOn d = false → s.railBlocks d = false → s.testMode = false →
        t.rdb Reg.pwrDomCtrl d = true ∧ t.pwr.switching.any (fun e => e.1 == d) = true)) ∧
  (∀ (d : Fin 13) (u : Nat) (rest : List (Nat × Nat)) (s : State), d ≠ 0 → s.pwr.switching = (d.val, u) :: rest →
    (s.railBlocks d.val = true → exec (.domainSwitchOn d) s = .next { s with pwr := { s.pwr with switching := rest } }) ∧
    (s.railBlocks d.val = false → ∃ t, exec (.domainSwitchOn d) s = .next t ∧ t.domOn d.val = true ∧ t.rdb Reg.pwrDomCtrl d.val = true ∧
      (d ≠ 4 → d ≠ 5 → t.pwr.switching = rest) ∧ (d ≠ 5 → t.pwr.bootStep =
        if s.pwr.bootStep = 3 ∧ [1, 2, 4].all (fun e => e == d.val || s.domOn e) then 4 else s.pwr.bootStep))) ∧
  (∀ (d : Fin 13) (s : State), d ≠ 0 → s.domOn d.val = true → exec (.domainSwitchFail d) s = .next ((s.domainOff d.val).pwrSoot 4)) ∧
  (∀ (d : Fin 13) (u : Nat) (rest : List (Nat × Nat)) (s : State), s.domOn d.val = false → s.pwr.switching = (d.val, u) :: rest → u ≤ s.now →
    exec (.domainSwitchFail d) s = .next ({ s with pwr := { s.pwr with switching := rest } }.pwrSoot 4)) ∧
  (∀ (d : Fin 13) (s : State), d.val ∈ s.pwr.heldOff → s.halfMarking d.val = false → exec (.heldDomainOff d) s = .next (s.domainOff d.val)) ∧
  (∀ (d : Nat) (s : State), 1 ≤ d → d < 13 → s.domOn d = true → (s.domainOff d).domOn d = false ∧ d ∉ (s.domainOff d).pwr.heldOff ∧
    (∀ e, e ≠ d → (s.domainOff d).domOn e = s.domOn e) ∧
    (d ≠ 1 → ∀ a, regDomain a = some d → aonReg a = false → a % 4096 ≠ 0x14 → a ≠ Reg.thmStat → (s.domainOff d).rd a = resetOf a)) ∧
  (∀ (b : Bus) (v : Word) (s : State), s.takes b .pwr 0x40 v →
    let k := fld v 2 0
    let no := 5 ≤ k ∨ (s.rdb Reg.thmStat 14 = true ∧ k ≠ 4)
    (no → exec (.powerStateRequest b v) s = .next ((s.ok.pwrSoot 5).irq .pwr 2)) ∧
    (¬ no → ∃ t, exec (.powerStateRequest b v) s = .next t ∧ t.rdb Reg.pwrStat 13 = false ∧
      (s.pwrPhase = 2 ∨ s.pwrPhase = 3 → t.rdb Reg.pwrStat 12 = true ∧ t.rdf Reg.pwrStat 11 9 = k ∧
        t.rdf Reg.pwrStat 8 0 = s.rdf Reg.pwrStat 8 0) ∧
      (s.pwrPhase < 2 → 1 ≤ k → k ≠ s.pwrState → t.pwrPhase = 1 ∧ t.pwrTarget = k ∧ t.pwrState = s.pwrState ∧
        t.rdf Reg.pwrStat 20 16 = s.powerWaits k) ∧
      (s.pwrPhase < 2 → k = s.pwrState ∨ k = 0 → t.pwrPhase = 0 ∧ t.pwrState = k ∧ t.rdf Reg.pwrStat 20 16 = 0 ∧
        t.rdb (Reg.pgIrqStat .pwr) 1 = true))) ∧
  (∀ (k : Nat) (s : State), s.powerWaits k = 0 ↔
    (s.pwr.lineAt + s.rdf Reg.pwrCfg 15 0 * msT ≤ s.now ∨ ∀ e, e < 8 → s.rdb (Reg.linEncCfg e) 0 = false) ∧
    (∀ c ∈ s.jobs.chans, c.2.jobs = []) ∧ (∀ c ∈ s.jobs.stns, c.2.jobs = []) ∧ (∀ e ∈ s.lin.trk, s.wouldReject e.1 = false) ∧
    s.sec.pending = [] ∧ (∀ n, n < 16 → (s.queue (4 * n + 2)).head = (s.queue (4 * n + 2)).tail) ∧
    (k = 1 → (∀ n, n < 16 → s.rdb (Reg.chCtrl n) 0 = false) ∧ s.anyLoopActive = false)) ∧
  (∀ s : State, s.pwr.aon = true → s.pwrPhase = 1 → s.pwr.heldCfg = [] →
    (s.powerWaits s.pwrTarget ≠ 0 → exec .powerEntryStart s = .next (s.wrf Reg.pwrStat 20 16 (s.powerWaits s.pwrTarget))) ∧
    (s.powerWaits s.pwrTarget = 0 → s.pwrTarget = 1 → s.frozen Reg.pwrCnt = false → ∃ t, exec .powerEntryStart s = .next t ∧ t.pwrState = 1 ∧ t.pwrPhase = 0 ∧
      t.rdf Reg.pwrCnt 15 0 = satN 0xFFFF (s.rdf Reg.pwrCnt 15 0 + 1)) ∧
    (s.powerWaits s.pwrTarget = 0 → s.pwrTarget ≠ 1 → ∃ t, exec .powerEntryStart s = .next t ∧ t.pwrPhase = 2 ∧
      t.pwr.fwAt = some (s.now + s.rdf Reg.pwrCfg 23 16 * msT) ∧ t.pwrTarget = s.pwrTarget ∧ t.pwrState = s.pwrState ∧
      (s.domOn 4 = true → t.rdb (Reg.pgIrqStat .pwr) 0 = true))) ∧
  (∀ (b : Bus) (s : State), s.takes b .pwr 0x48 1 → exec (.powerProceed b) s =
    .next (if s.pwrPhase = 2 ∧ s.pwr.fwAt.isSome = true then s.ok.entryRun else s.ok)) ∧
  (∀ s : State, s.pwrPhase = 2 → s.due s.pwr.fwAt = true → exec .fwTimeout s = .next s.entryRun) ∧
  (∀ s : State, (∀ d, 1 ≤ d → d < 13 → s.entryRun.domOn d = false) ∧ s.entryRun.pwr.phase = .down 16 ∧ s.entryRun.pwr.fwAt = none ∧
    s.entryRun.pwrPhase = s.pwrPhase ∧ (∀ b, b < 8 → s.entryRun.rd (Reg.pwrRetCrc b) = s.bankCrc b) ∧
    (∀ a, 0x20000000 ≤ a → a < 0x20040000 → s.entryRun.rdByte a = s.rdByte a) ∧
    (∀ a, 0x800000000 ≤ a → a < 0xA00000000 → s.domOn 5 = true → s.entryRun.rdByte a = if s.pwrTarget = 4 then 0 else s.rdByte a)) ∧
  (∀ (b : Bus) (s : State), s.takes b .pwr 0x48 2 → s.pwr.heldCfg = [] → ∃ t, exec (.powerCancel b) s = .next t ∧
    (s.pwrPhase = 1 → t.pwrPhase = 0 ∧ t.pwrState = s.pwrState ∧ t.pwrTarget = s.pwrState ∧ t.rdf Reg.pwrStat 20 16 = 0) ∧
    (s.pwrPhase ≠ 1 → t = s.ok)) ∧
  (∀ (arg : Option Byte) (s : State), s.pwr.aon = true → s.pwr.emergency = false → s.rdb Reg.pwrWakeEn 0 = true →
    2 ≤ s.pwrState ∨ s.pwrPhase = 2 → ∃ t, exec (.twoWireWake (BitVec.ofNat 7 (s.rdf Reg.pwrWakeAddr 6 0)) arg) s = .next t ∧ s.wakes 2 t ∧
    (arg = none → t.resp = ⟨false, BitVec.ofNat 32 s.pwrState⟩) ∧
    (∀ x : Byte, arg = some x → s.pwrPhase ≠ 2 → t.rdf Reg.pwrWakeCause 23 16 = x.toNat)) ∧
  (∀ (codes : Vector (Vector (BitVec 16) 4) 8) (s : State), s.pwr.aon = true → s.pwr.emergency = false → s.pwrPhase = 0 → s.pwrState = 3 →
    let on (k : Fin 8) : Prop := s.rdb Reg.pwrWatchCfg (16 + k.val) = true ∧ s.rdf (Reg.pwrWatchSlotCfg k.val) 3 0 ≤ 8
    let met (k : Fin 8) : Prop := on k ∧ (s.watchSlot k.val (codes.get k).toList).2 = true
    ∃ t, exec (.watchSample codes) s = .next t ∧ t.rdf Reg.pwrWatchStat 23 0 = satN 0xFFFFFF (s.rdf Reg.pwrWatchStat 23 0 + 1) ∧
    (∀ k, on k → s.rdf (Reg.pwrWatchSlotCfg k.val) 3 0 < 8 → t.rdf (Reg.pwrWatchLast k.val) 15 0 =
      (((codes.get k).get 0).toNat + ((codes.get k).get 1).toNat + ((codes.get k).get 2).toNat + ((codes.get k).get 3).toNat) / 4) ∧
    ((∃ k, met k) → s.rdb Reg.pwrWakeEn 1 = true → s.wakes 3 t ∧ t.rdb Reg.pwrWatchStat 27 = true ∧
      ∃ k, met k ∧ t.rdf Reg.pwrWatchStat 26 24 = k.val ∧ ∀ j, j < k → ¬ met j) ∧
    ((∀ k, ¬ met k) ∨ s.rdb Reg.pwrWakeEn 1 = false → t.pwrPhase = 0 ∧ t.pwrState = 3)) ∧
  (∀ (k m : Nat) (s : State), s.rdf (Reg.pwrWatchSlotCfg k) 3 0 < 8 → m < 65536 →
    ((s.watchSlot k (List.replicate 4 (BitVec.ofNat 16 m))).2 = true ↔
      (if s.rdb (Reg.pwrWatchSlotCfg k) 4 then m < s.rdf (Reg.pwrWatchSlotCfg k) 31 16 else s.rdf (Reg.pwrWatchSlotCfg k) 31 16 < m) ∧
        s.rdf (Reg.pwrWatchSlotCfg k) 7 5 ≤ tabGet 0 s.pwr.watchRuns k)) ∧
  (∀ (j : Fin 8) (s : State), s.pwr.aon = true → s.pwr.emergency = false → s.rdb Reg.pwrWchCfg j.val = true →
    s.rdb Reg.pwrWakeEn (4 + j.val) = true →
    (∃ t, exec (.wchWake j (s.rdb Reg.pwrWchCfg (8 + j.val))) s = .next t ∧ s.wakes 4 t) ∧
    exec (.wchWake j (! s.rdb Reg.pwrWchCfg (8 + j.val))) s = .next s) ∧
  (∀ s : State, s.pwr.aon = true → s.pwr.emergency = false → s.rdb Reg.pwrWakeEn 2 = true →
    (s.rd64 Reg.pwrAlarmLo Reg.pwrAlarmHi ≤ s.tim.rtc.toNat → ∃ t, exec .rtcAlarmWake s = .next t ∧ s.wakes 5 t) ∧
    (s.tim.rtc.toNat < s.rd64 Reg.pwrAlarmLo Reg.pwrAlarmHi → exec .rtcAlarmWake s = .next s)) ∧
  (∀ (held : Nat) (s : State), s.pwr.aon = true → s.pwr.emergency = false → (held < usT → exec (.resetPin held) s = .next s) ∧
    (usT ≤ held → s.pwrPhase = 2 ∨ s.pwrPhase = 3 ∨ 2 ≤ s.pwrState → ∃ t, exec (.resetPin held) s = .next t ∧ s.wakes 1 t) ∧
    (usT ≤ held → s.pwrPhase < 2 → s.pwrState < 2 → s.pwr.bootStep ≠ 2 → s.pwr.heldCfg = [] → ∃ t, exec (.resetPin held) s = .next t ∧
      (∀ d, 1 ≤ d → d < 13 → t.domOn d = false) ∧ t.rd Reg.pwrWakeCause = 2 ∧ t.rd Reg.pwrStat = 0 ∧
      (∀ k, k < 12 → t.rd (Reg.psqSlotCfg k) = s.rd (Reg.psqSlotCfg k) ∧ t.rd (Reg.psqSlotStat k) = s.rd (Reg.psqSlotStat k)) ∧
      (∀ a, 0x20000000 ≤ a → a < 0x20040000 → t.rdByte a = s.rdByte a) ∧
      (s.railBlocks 1 = false → s.railBlocks 2 = false → s.railBlocks 4 = false → t.pwr.bootStep = 3))) ∧
  (∀ s : State, s.pwrPhase = 3 → 7 ≤ s.pwr.bootStep → s.pwr.switching = [] → s.pwr.heldCfg = [] →
    (s.sec.boot.core0 = none → s.rdf Reg.pwrWakeCause 14 12 = 4 ∨ s.imageInPlace = false → exec .wakeComplete s = .next s) ∧
    (s.sec.boot.core0.isSome = true ∨ (s.rdf Reg.pwrWakeCause 14 12 ≠ 4 ∧ s.imageInPlace = true) →
      ∃ t, exec .wakeComplete s = .next t ∧ t.pwrState = 0 ∧ t.pwr.bootStep = 8 ∧ t.sec.boot.core0.isSome = true ∧
      t.rdb Reg.pwrStat 12 = false ∧ (s.rdb Reg.pwrStat 12 = false → t.pwrPhase = 0) ∧
      (s.rdb Reg.pwrStat 12 = true → 1 ≤ s.rdf Reg.pwrStat 11 9 → t.pwrPhase = 1 ∧ t.pwrTarget = s.rdf Reg.pwrStat 11 9))) ∧
  (∀ s : State, s.pwr.aon = true → ∃ t, exec .rtcEdgeLatch s = .next t ∧ t.tim.rtc = s.tim.rtc + 1 ∧
    t.rd64 Reg.timRtcLo Reg.timRtcHi = t.tim.rtc.toNat ∧ (s.domOn 4 = true → t.tim.latchTsc = s.now ∧ t.tim.latchRtc = t.tim.rtc) ∧
    (s.domOn 4 = false → t.tim.latchTsc = s.tim.latchTsc ∧ t.tim.latchRtc = s.tim.latchRtc)) ∧
  (∀ s : State, (s.tim.offTsc = none → s.tscResume.now = 0 ∧ s.tscResume.rdb Reg.timWakeStat 0 = false) ∧
    (∀ o, s.tim.offTsc = some o → o ≤ s.tscResume.tim.tscAcc ∧ s.tscResume.rdb Reg.timWakeStat 0 = true ∧
      (s.rd Reg.timRtcTrim = 0 → s.tscResume.now =
        Nat.max (o / 2 ^ 32) (s.tim.latchTsc + (s.tim.rtc - s.tim.latchRtc).toNat * 390625 / 32)))) ∧
  (∀ (k : Fin 12) (l : Bool) (c : Instr) (s t : State), c ∈ [.pgEdge k l, .railQualified k, .railTimeout k] → exec c s = .next t →
    (∀ j, j < 12 → (j ≠ k.val → t.rd (Reg.psqSlotStat j) = s.rd (Reg.psqSlotStat j) ∧ t.slot j = s.slot j) ∧
      t.rd (Reg.psqSlotCfg j) = s.rd (Reg.psqSlotCfg j) ∧ t.rd (Reg.psqSlotDep j) = s.rd (Reg.psqSlotDep j)) ∧
    (∀ a, 0x20000000 ≤ a → a < 0x20040000 → t.rdByte a = s.rdByte a) ∧ t.sec.otp = s.sec.otp ∧ t.flash = s.flash ∧ t.pending = s.pending) ∧
  (∀ (b : Bus) (v : Word) (c : Instr) (s t : State),
    c ∈ [.powerEntryStart, .powerCancel b, .powerStateRequest b v, .rtcEdgeLatch] → s.pwr.heldCfg = [] → exec c s = .next t →
    sameMem s t ∧ t.pins = s.pins ∧ t.jobs = s.jobs ∧ t.loops = s.loops ∧ (∀ d, t.domOn d = s.domOn d) ∧ t.pending = s.pending)

/-! ### Background work, wear and spares (spec/18) -/

/-- Banking's drift checks and snapshots, the wear counters, the log store, the converters with their spare. -/
def Obligations.BackgroundWork : Prop :=
  (∀ (n : Fin 16) (s : State), s.banking 4 = true → s.isLaser n.val = true → tabGet none s.bkg.galvo n.val = none →
    tabGet 0 s.bkg.galvoAt n.val + s.rdf Reg.bkgGalvoT 15 0 * secT ≤ s.now →
    (s.auditIdle n.val = true → (s.galvoLoops n.val).all s.loopClosed = true → ∃ t, exec (.galvoDriftCheck n) s = .next t ∧
      tabGet none t.bkg.galvo n.val = some ⟨s.now, 0, 0, 0⟩ ∧ tabGet 0 t.bkg.galvoAt n.val = s.now ∧ t.rdb Reg.bkgStat 4 = true ∧
      (t.las n.val).toX = s.rds (Reg.lpParkX n.val) 23 0 ∧ (t.las n.val).toY = s.rds (Reg.lpParkY n.val) 23 0 ∧ t.pins = s.pins) ∧
    (s.auditIdle n.val = false ∨ (s.galvoLoops n.val).all s.loopClosed = false → s.frozen Reg.bkgLate = false → ∃ t, exec (.galvoDriftCheck n) s = .next t ∧
      tabGet none t.bkg.galvo n.val = none ∧ tabGet 0 t.bkg.galvoAt n.val = s.now ∧ t.laser = s.laser ∧
      t.rdf Reg.bkgLate 15 0 = satN 0xFFFF (s.rdf Reg.bkgLate 15 0 + 1))) ∧
  (∀ (n : Nat) (g : GalvoCheck) (ex ey : Int) (s : State), tabGet none s.bkg.galvo n = some g →
    (g.startAt + msT ≤ s.now → g.frames < 256 →
      tabGet none (s.driftFrame n ex ey).bkg.galvo n = some ⟨g.startAt, g.frames + 1, g.sumX + ex, g.sumY + ey⟩) ∧
    (s.now < g.startAt + msT ∨ 256 ≤ g.frames → s.driftFrame n ex ey = s)) ∧
  (∀ (n : Fin 16) (g : GalvoCheck) (s : State), tabGet none s.bkg.galvo n.val = some g →
    (g.frames < 256 → exec (.galvoDriftDone n) s = .next s) ∧
    (256 ≤ g.frames → ∃ t, exec (.galvoDriftDone n) s = .next t ∧ tabGet none t.bkg.galvo n.val = none ∧
      t.rd (Reg.bkgGalvoDrift n.val) = wordOf (fdivI g.sumX 256) ∧ t.rd (Reg.bkgGalvoDriftY n.val) = wordOf (fdivI g.sumY 256))) ∧
  (∀ (ok : Bool) (s : State), s.banking 8 = true → s.rdb Reg.bkgTeleCfg 4 = true → s.bkg.teleSec < s.now / secT →
    s.frozen Reg.bkgLate = false →
    let a := s.rdn Reg.bkgTeleBaseLo + s.rdf Reg.bkgTeleBaseHi 7 0 * 2 ^ 32 + 64 * (s.rdn Reg.bkgTeleIdx % 2 ^ s.rdf Reg.bkgTeleCfg 3 0)
    ∃ t, exec (.telemetrySnapshot ok) s = .next t ∧ t.bkg.teleSec = s.now / secT ∧ t.bkg.ddrCe = 0 ∧ t.bkg.srmCe = 0 ∧ t.bkg.notOk = [] ∧
    (∀ x, x < a ∨ a + 64 ≤ x → t.rdByte x = s.rdByte x) ∧
    (ok = true → s.regionOk .oem true a 64 = true → t.rdMem a 64 = s.snapshot ∧ t.rd Reg.bkgTeleIdx = s.rd Reg.bkgTeleIdx + 1 ∧
      t.rd Reg.bkgLate = s.rd Reg.bkgLate ∧ t.rdb (Reg.pgIrqStat .bkg) 0 = true) ∧
    (ok = false ∨ s.regionOk .oem true a 64 = false → sameMem s t ∧ t.rd Reg.bkgTeleIdx = s.rd Reg.bkgTeleIdx ∧
      t.rdf Reg.bkgLate 31 16 = satN 0xFFFF (s.rdf Reg.bkgLate 31 16 + 1))) ∧
  (∀ s : State, s.now < 2 ^ 64 → s.snapshot.length = 64 ∧ leAt s.snapshot 0 8 = s.now ∧ leAt s.snapshot 8 8 = s.dateValue.toNat ∧
    leAt s.snapshot 0x10 2 = s.rdf Reg.thmHot 15 0 ∧ leAt s.snapshot 0x12 2 = s.dmpLevel ∧
    leAt s.snapshot 0x14 4 = s.rdf Reg.fltStat 24 16 + (if s.deviceSafe then 0x200 else 0) ∧
    leAt s.snapshot 0x18 2 = satN 0xFFFF s.bkg.ddrCe ∧ leAt s.snapshot 0x1A 2 = satN 0xFFFF s.bkg.srmCe ∧
    leAt s.snapshot 0x1C 4 = s.rdn Reg.secRecCnt ∧
    ∀ n, n < 16 → leAt s.snapshot (0x20 + 2 * n) 2 = satN 0xFFFF (tabGet 0 s.bkg.notOk n)) ∧
  (∀ s : State, s.banking 9 = true →
    (s.bkg.wearAt + 3600 * secT ≤ s.now → exec .wearSave s = .next { s with bkg := { s.bkg with wearAt := s.now } }.saveWear) ∧
    (s.now < s.bkg.wearAt + 3600 * secT → exec .wearSave s = .next s)) ∧
  (∀ (b : Bus) (v : Word) (s : State), s.takes b .bkg 0x6C v →
    exec (.wearSaveNow b v) s = .next (if bit v 0 then s.ok.saveWear else s.ok)) ∧
  (∀ s : State, ∃ p, s.saveWear.bkg.writes = s.bkg.writes ++ [⟨4, p, false, none⟩] ∧ p.length = 568 ∧
    ∀ i, i < 71 → leAt p (8 * i) 8 = tabGet 0 s.bkg.wear i % 2 ^ 64) ∧
  (∀ (e : LogEntry) (s : State), s.logInForce 4 = some e → ∀ i, i < 71 →
    tabGet 0 s.wearRestore.bkg.wear i = Nat.max (tabGet 0 s.bkg.wear i) (leAt e.payload (8 * i) 8)) ∧
  (∀ (b : Bus) (v : Word) (s : State), s.takes b .bkg 0x60 v → ∃ t, exec (.wearCapture b v) s = .next t ∧
    t.rdf Reg.bkgWearSel 6 0 = fld v 6 0 ∧ t.rd64 Reg.bkgWearLo Reg.bkgWearHi = tabGet 0 s.bkg.wear (fld v 6 0) % 2 ^ 64 ∧
    t.bkg = s.bkg) ∧
  (∀ (w : LogWrite) (rest : List LogWrite) (s : State), s.bkg.writes = w :: rest → w.busy = false →
    (s.logIdle = true → w.retryAt = none → exec .logStoreWrite s = .next s.logBegin) ∧
    (s.logIdle = true → s.due w.retryAt = true → exec .logWriteRetry s = .next s.logBegin) ∧
    (s.logIdle = false → exec .logStoreWrite s = .next s ∧ exec .logWriteRetry s = .next s)) ∧
  (∀ (w : LogWrite) (rest : List LogWrite) (s : State), s.bkg.writes = w :: rest → (∀ e ∈ s.bkg.log, e.seq < s.bkg.logSeq) →
    s.bkg.log.Pairwise (fun x y => x.seq ≠ y.seq) →
    (∀ kind, 1 ≤ kind → kind ≤ 4 → (s.logBegin.logInForce kind).map LogEntry.payload = (s.logInForce kind).map LogEntry.payload) ∧
    s.logBegin.bkg.writes = ⟨w.kind, w.payload, true, none⟩ :: rest ∧
    (s.bkg.used + logSize w.payload ≤ 4096 → s.logBegin.bkg.log = s.bkg.log ∧ s.logBegin.bkg.wear = s.bkg.wear) ∧
    (4096 < s.bkg.used + logSize w.payload → s.logBegin.bkg.sector = s.logNext s.bkg.sector ∧
      ∀ e ∈ s.logBegin.bkg.log, e.sector = s.logNext s.bkg.sector → s.bkg.logSeq ≤ e.seq)) ∧
  (∀ (w : LogWrite) (rest : List LogWrite) (s : State), s.domOn 4 = true → s.bkg.writes = w :: rest → w.busy = true →
    s.frozen Reg.bkgLogStat = false →
    (∃ t, exec (.logWriteVerify true) s = .next t ∧ t.bkg.writes = rest ∧ t.bkg.retired = s.bkg.retired ∧
      ((∀ e ∈ s.bkg.log, e.seq < s.bkg.logSeq) → t.logInForce w.kind = some ⟨w.kind, s.bkg.logSeq, w.payload, s.bkg.sector⟩) ∧
      (∀ kind, kind ≠ w.kind → t.logInForce kind = s.logInForce kind) ∧
      (1 ≤ w.kind → w.kind ≤ 3 → t.rdb (Reg.pgIrqStat .bkg) 1 = true)) ∧
    (∃ t, exec (.logWriteVerify false) s = .next t ∧ t.bkg.writes = ⟨w.kind, w.payload, false, some (s.now + 10 * msT)⟩ :: rest ∧
      t.bkg.log = s.bkg.log ∧ t.bkg.retired = s.bkg.retired ++ [s.bkg.sector] ∧ t.rdb (Reg.pgSoot .bkg) 0 = true ∧
      t.rdf Reg.bkgLogStat 31 16 = satN 0xFFFF (s.rdf Reg.bkgLogStat 31 16 + 1) ∧
      t.rdf Reg.bkgLogStat 15 8 = 8 - (s.bkg.retired.length + 1) ∧
      (s.bkg.retired.length = 7 → t.rdb (Reg.pgSoot .bkg) 1 = true))) ∧
  (∀ (retired : List Nat) (s : State), s.bkg.retired = retired → retired.Nodup → (∀ k ∈ retired, k < 128) →
    (retired.length ≤ 8 → s.logSectors.length = 120) ∧ (8 < retired.length → s.logSectors.length = 128 - retired.length) ∧
    ∀ k ∈ s.logSectors, k < 128 ∧ k ∉ retired) ∧
  (∀ (c : Nat) (s : State),
    (c < 5 → (s.conv c).calibrating = false → s.spareBank ≠ c → s.bankServed c = some c) ∧
    (c < 5 → (s.conv c).calibrating = true ∨ s.spareBank = c → s.bankServed c = none) ∧
    ((s.conv 5).calibrating = false → s.spareBank < 5 → s.bankServed 5 = some s.spareBank) ∧
    ((s.conv 5).calibrating = false → 5 ≤ s.spareBank → s.bankServed 5 = s.bkg.standIn) ∧
    ((s.conv 5).calibrating = true → s.bankServed 5 = none)) ∧
  (∀ (c : Fin 6) (req : Option (Fin 16)) (raw : BitVec 12) (s : State), s.domOn 11 = true → s.enabled (.cv c) = true →
    (s.bankServed c.val = none → exec (.adcConversion c req raw) s = .next s) ∧
    (∀ bank i, s.bankServed c.val = some bank → bank < 5 →
      (match req with | some r => some r.val | none => s.scanNext bank (s.conv c.val).scan) = some i →
      ∃ t, exec (.adcConversion c req raw) s = .next t ∧ t.rdf (Reg.adcCvRes bank i) 11 0 = s.adcTerms.adcCode c.val raw.toNat ∧
      t.rdf (Reg.adcCvRes bank i) 31 16 = s.now % 65536 ∧ (t.conv c.val).scan = (if req = none then (i + 1) % 16 else (s.conv c.val).scan) ∧
      (∀ j, j < 16 → j ≠ i → t.rd (Reg.adcCvRes bank j) = s.rd (Reg.adcCvRes bank j)) ∧ sameMem s t ∧ t.jobs = s.jobs ∧ t.pending = s.pending)) ∧
  (∀ (c raw : Nat) (s : State), s.adcCode c raw ≤ 4095 ∧
    (s.rd (Reg.adcCvCal c) = 0x80000000 → s.bkg.terms = 0 → raw ≤ 4095 → s.adcCode c raw = raw)) ∧
  (∀ s : State, (s.dieGood 9 = false → s.adcTerms = s) ∧ (s.dieGood 9 = true → s.adcTerms.bkg.terms =
    s.rds Reg.adcTcomp 15 0 * (s.dieTemp 9 - 250) * 1000 + s.rds Reg.adcTcomp 31 16 * (s.dieTemp 9 - 250) ^ 2)) ∧
  (∀ (bank i : Nat) (s : State), i < 16 → (∀ k, s.scanNext bank i = some k → k < 16 ∧ s.rdb (Reg.adcCvScanEn bank) k = true ∧
    ∀ j, j < 16 → s.rdb (Reg.adcCvScanEn bank) j = true → (k + 16 - i) % 16 ≤ (j + 16 - i) % 16) ∧
    (s.scanNext bank i = none → ∀ j, j < 16 → s.rdb (Reg.adcCvScanEn bank) j = false)) ∧
  (∀ (c : Fin 6) (s : State), s.banking 5 = true → s.domOn 11 = true → s.enabled (.cv c) = true → (s.conv c.val).calibrating = false →
    s.now / secT % 10 = c.val → s.spareBank ≠ c.val → tabGet 0 s.bkg.calSec c.val ≠ s.now / secT + 1 →
    ∃ t, exec (.adcCalibrationStart c) s = .next t ∧ (t.conv c.val).calibrating = true ∧ t.bankServed c.val = none ∧
    t.rdb Reg.bkgStat 5 = true ∧ exec (.adcCalibrationStart c) t = .next t ∧
    (c.val < 5 → s.spareBank = 7 → s.bkg.standIn = none → s.rdb Reg.adcStat 3 = false → (s.conv 5).calibrating = false →
      t.bankServed 5 = some c.val) ∧
    (s.spareBank < 5 → t.bkg.standIn = s.bkg.standIn)) ∧
  (∀ (c : Fin 6) (ofs gain : BitVec 16) (s : State), s.domOn 11 = true → (s.conv c.val).calibrating = true →
    s.frozen (Reg.adcCvCalCnt c.val) = false →
    let bad := s.rdf Reg.adcCalLim 15 0 < ofs.toInt.natAbs ∨
      s.rdf Reg.adcCalLim 31 16 * 32768 < ((gain.toNat : Int) - 32768).natAbs * 10000
    ∃ t, exec (.adcCalibrationEnd c ofs gain) s = .next t ∧ (t.conv c.val).calibrating = false ∧ t.bkg.standIn ≠ some c.val ∧
    t.rdf (Reg.adcCvCalCnt c.val) 15 0 = satN 0xFFFF (s.rdf (Reg.adcCvCalCnt c.val) 15 0 + 1) ∧
    (¬ bad → t.rdf (Reg.adcCvCal c.val) 15 0 = ofs.toNat ∧ t.rdf (Reg.adcCvCal c.val) 31 16 = gain.toNat ∧ (t.conv c.val).fails = 0 ∧
      t.rd Reg.adcStat = s.rd Reg.adcStat) ∧
    (bad → t.rd (Reg.adcCvCal c.val) = s.rd (Reg.adcCvCal c.val) ∧ t.rdb (Reg.pgSoot (.cv c)) 0 = true ∧
      t.rdf (Reg.adcCvCalCnt c.val) 31 16 = satN 0xFFFF (s.rdf (Reg.adcCvCalCnt c.val) 31 16 + 1)) ∧
    (bad → (s.conv c.val).fails = 0 → t.rd Reg.adcStat = s.rd Reg.adcStat ∧ (t.conv c.val).fails = 1) ∧
    (bad → 1 ≤ (s.conv c.val).fails → c.val < 5 → s.spareBank = 7 → s.rdb Reg.adcStat 3 = false →
      t.spareBank = c.val ∧ t.bankServed c.val = none ∧ t.rdf (Reg.pgStat (.cv c)) 7 4 = 7 ∧
      t.bkg.writes = s.bkg.writes ++ [⟨3, [BitVec.ofNat 8 c.val], false, none⟩]) ∧
    (bad → 1 ≤ (s.conv c.val).fails → c.val < 5 → s.spareBank ≠ 7 ∨ s.rdb Reg.adcStat 3 = true →
      t.rd Reg.adcStat = s.rd Reg.adcStat ∧ t.rdb (Reg.pgSoot .adc) 0 = true) ∧
    (bad → 1 ≤ (s.conv c.val).fails → c.val = 5 → t.rdb Reg.adcStat 3 = true)) ∧
  (∀ (c : Fin 6) (ofs gain : BitVec 16) (ok : Bool) (d : Instr) (s t : State),
    d ∈ [.adcCalibrationStart c, .adcCalibrationEnd c ofs gain, .logStoreWrite, .logWriteRetry, .logWriteVerify ok, .wearSave] →
    exec d s = .next t → sameMem s t ∧ t.pins = s.pins ∧ t.jobs = s.jobs ∧ t.sec = s.sec ∧ t.pwr = s.pwr ∧ t.now = s.now ∧
      t.pending = s.pending)
end

