-- ==== Sys2Proof/Laws/Answers.lean ====
section
/-! SUPPORT. Every meaning answers a next state, or refuses a register of a page without a register map. -/
-- one script for every shape of goal: what a goal does not need is not reported
set_option linter.all false
namespace Sys2Proof.Machine

/-- What an outcome can be: a next state, or the one refusal. -/
def Answers (o : Out) : Prop :=
  (∃ t, o = .next t) ∨ ∃ p off, o = .refused (.noRegisterMap p off) ∧ noMap p = true ∧ 0x40 ≤ off

def AnswersP (p : Option Out) : Prop := ∀ o, p = some o → Answers o

theorem next_answers {s : State} : Answers (.next s) := .inl ⟨s, rfl⟩

theorem ite_answers {c : Prop} [Decidable c] {a b : Out} (ha : Answers a) (hb : Answers b) :
    Answers (if c then a else b) := by
  split <;> assumption

theorem none_answersP : AnswersP none := fun _ h => absurd h (Option.some_ne_none _).symm

theorem some_answersP {o : Out} (h : Answers o) : AnswersP (some o) := fun _ e => Option.some.inj e ▸ h

theorem ite_answersP {c : Prop} [Decidable c] {a b : Option Out} (ha : AnswersP a) (hb : AnswersP b) :
    AnswersP (if c then a else b) := by
  split <;> assumption

theorem AnswersP.of_some {p : Option Out} {o : Out} (h : AnswersP p) (e : p = some o) : Answers o := h o e

theorem fault_answers {r : Fault} : Answers (.fault r) := nomatch r

theorem State.port_answers {s : State} {n} {eff} : Answers (State.port s n eff) := by
  unfold State.port
  with_reducible repeat' first
    | assumption | extract_lets | apply next_answers | apply ite_answers | split

theorem State.zeroRow_answers {s : State} {n} {op} : Answers (State.zeroRow s n op) := by
  unfold State.zeroRow
  with_reducible repeat' first
    | assumption | extract_lets | apply next_answers | apply ite_answers | split

theorem execWearSaveNow_answers {b} {v} {s : State} : Answers (execWearSaveNow b v s) := by
  unfold execWearSaveNow
  with_reducible repeat' first
    | assumption | extract_lets | apply next_answers | apply ite_answers | split

theorem execWearCapture_answers {b} {v} {s : State} : Answers (execWearCapture b v s) := by
  unfold execWearCapture
  with_reducible repeat' first
    | assumption | extract_lets | apply next_answers | apply ite_answers | split

theorem execDomainControlWrite_answers {b} {v} {s : State} : Answers (execDomainControlWrite b v s) := by
  unfold execDomainControlWrite
  with_reducible repeat' first
    | assumption | extract_lets | apply next_answers | apply ite_answers | split

theorem pwrCmdWrite_answers {b} {v} {s : State} : Answers (pwrCmdWrite b v s) := by
  unfold pwrCmdWrite
  with_reducible repeat' first
    | assumption | extract_lets | apply next_answers | apply ite_answers | split

theorem execPowerStateRequest_answers {b} {v} {s : State} : Answers (execPowerStateRequest b v s) := by
  unfold execPowerStateRequest
  with_reducible repeat' first
    | assumption | extract_lets | apply next_answers | apply ite_answers | split

theorem execThmPeakClear_answers {b} {v} {s : State} : Answers (execThmPeakClear b v s) := by
  unfold execThmPeakClear
  with_reducible repeat' first
    | assumption | extract_lets | apply next_answers | apply ite_answers | split

theorem execClockOutputWrite_answers {b} {y} {o} {v} {s : State} : Answers (execClockOutputWrite b y o v s) := by
  unfold execClockOutputWrite
  with_reducible repeat' first
    | assumption | extract_lets | apply next_answers | apply ite_answers | split

theorem execPherrClear_answers {b} {y} {v} {s : State} : Answers (execPherrClear b y v s) := by
  unfold execPherrClear
  with_reducible repeat' first
    | assumption | extract_lets | apply next_answers | apply ite_answers | split

theorem execSynRun_answers {b} {y} {v} {s : State} : Answers (execSynRun b y v s) := by
  unfold execSynRun
  with_reducible repeat' first
    | assumption | extract_lets | apply next_answers | apply ite_answers | split

theorem execFltLogCapture_answers {b} {v} {s : State} : Answers (execFltLogCapture b v s) := by
  unfold execFltLogCapture
  with_reducible repeat' first
    | assumption | extract_lets | apply next_answers | apply ite_answers | split

theorem execFltRelease_answers {b} {v} {s : State} : Answers (execFltRelease b v s) := by
  unfold execFltRelease
  with_reducible repeat' first
    | assumption | extract_lets | apply next_answers | apply ite_answers | split

theorem execFltAck_answers {b} {v} {s : State} : Answers (execFltAck b v s) := by
  unfold execFltAck
  with_reducible repeat' first
    | assumption | extract_lets | apply next_answers | apply ite_answers | split

theorem execFltSelectCapture_answers {b} {v} {s : State} : Answers (execFltSelectCapture b v s) := by
  unfold execFltSelectCapture
  with_reducible repeat' first
    | assumption | extract_lets | apply next_answers | apply ite_answers | split

theorem execRegionWrite_answers {b} {r} {v} {s : State} : Answers (execRegionWrite b r v s) := by
  unfold execRegionWrite
  with_reducible repeat' first
    | assumption | extract_lets | apply next_answers | apply ite_answers | split

theorem request_answers {c} {k} {op} {port} {f} {s : State} : Answers (request c k op port f s) := by
  unfold request
  with_reducible repeat' first
    | assumption | extract_lets | apply next_answers | apply ite_answers | split

theorem execRandom_answers {c} {k} {s : State} : Answers (execRandom c k s) := by
  unfold execRandom
  with_reducible repeat' first
    | assumption | extract_lets | apply next_answers | apply ite_answers | apply request_answers | split

theorem execRmaUnlock_answers {c} {k} {s : State} : Answers (execRmaUnlock c k s) := by
  unfold execRmaUnlock
  with_reducible repeat' first
    | assumption | extract_lets | apply next_answers | apply ite_answers | apply request_answers | split

theorem execDebugUnlock_answers {c} {k} {s : State} : Answers (execDebugUnlock c k s) := by
  unfold execDebugUnlock
  with_reducible repeat' first
    | assumption | extract_lets | apply next_answers | apply ite_answers | apply request_answers | split

theorem execSetBootSlot_answers {c} {k} {s : State} : Answers (execSetBootSlot c k s) := by
  unfold execSetBootSlot
  with_reducible repeat' first
    | assumption | extract_lets | apply next_answers | apply ite_answers | apply request_answers | split

theorem execRollbackCommit_answers {c} {k} {s : State} : Answers (execRollbackCommit c k s) := by
  unfold execRollbackCommit
  with_reducible repeat' first
    | assumption | extract_lets | apply next_answers | apply ite_answers | apply request_answers | split

theorem execRevokeBootKey_answers {c} {k} {s : State} : Answers (execRevokeBootKey c k s) := by
  unfold execRevokeBootKey
  with_reducible repeat' first
    | assumption | extract_lets | apply next_answers | apply ite_answers | apply request_answers | split

theorem execSecure_answers {c} {k} {s : State} : Answers (execSecure c k s) := by
  unfold execSecure
  with_reducible repeat' first
    | assumption | extract_lets | apply next_answers | apply ite_answers | apply request_answers | split

theorem execProvision_answers {c} {k} {s : State} : Answers (execProvision c k s) := by
  unfold execProvision
  with_reducible repeat' first
    | assumption | extract_lets | apply next_answers | apply ite_answers | apply request_answers | split

theorem execProgKeySet_answers {c} {k} {s : State} : Answers (execProgKeySet c k s) := by
  unfold execProgKeySet
  with_reducible repeat' first
    | assumption | extract_lets | apply next_answers | apply ite_answers | apply request_answers | split

theorem execRecKeyGen_answers {c} {k} {s : State} : Answers (execRecKeyGen c k s) := by
  unfold execRecKeyGen
  with_reducible repeat' first
    | assumption | extract_lets | apply next_answers | apply ite_answers | apply request_answers | split

theorem execTplKeySet_answers {c} {k} {s : State} : Answers (execTplKeySet c k s) := by
  unfold execTplKeySet
  with_reducible repeat' first
    | assumption | extract_lets | apply next_answers | apply ite_answers | apply request_answers | split

theorem execOwnerReset_answers {c} {k} {s : State} : Answers (execOwnerReset c k s) := by
  unfold execOwnerReset
  with_reducible repeat' first
    | assumption | extract_lets | apply next_answers | apply ite_answers | apply request_answers | split

theorem execTransferOwnership_answers {c} {k} {s : State} : Answers (execTransferOwnership c k s) := by
  unfold execTransferOwnership
  with_reducible repeat' first
    | assumption | extract_lets | apply next_answers | apply ite_answers | apply request_answers | split

theorem execTakeOwnership_answers {c} {k} {s : State} : Answers (execTakeOwnership c k s) := by
  unfold execTakeOwnership
  with_reducible repeat' first
    | assumption | extract_lets | apply next_answers | apply ite_answers | apply request_answers | split

theorem execCredClear_answers {c} {k} {s : State} : Answers (execCredClear c k s) := by
  unfold execCredClear
  with_reducible repeat' first
    | assumption | extract_lets | apply next_answers | apply ite_answers | apply request_answers | split

theorem execCredSet_answers {c} {k} {s : State} : Answers (execCredSet c k s) := by
  unfold execCredSet
  with_reducible repeat' first
    | assumption | extract_lets | apply next_answers | apply ite_answers | apply request_answers | split

theorem execDropRole_answers {c} {k} {s : State} : Answers (execDropRole c k s) := by
  unfold execDropRole
  with_reducible repeat' first
    | assumption | extract_lets | apply next_answers | apply ite_answers | apply request_answers | split

theorem execSetRole_answers {c} {k} {s : State} : Answers (execSetRole c k s) := by
  unfold execSetRole
  with_reducible repeat' first
    | assumption | extract_lets | apply next_answers | apply ite_answers | apply request_answers | split

theorem execGetChallenge_answers {c} {k} {s : State} : Answers (execGetChallenge c k s) := by
  unfold execGetChallenge
  with_reducible repeat' first
    | assumption | extract_lets | apply next_answers | apply ite_answers | apply request_answers | split

theorem secCmdWrite_answers {b} {k} {v} {s : State} : Answers (secCmdWrite b k v s) := by
  unfold secCmdWrite
  with_reducible repeat' first
    | assumption | extract_lets | apply next_answers | apply ite_answers | apply request_answers | apply execRandom_answers | apply execRmaUnlock_answers | apply execDebugUnlock_answers | apply execSetBootSlot_answers | apply execRollbackCommit_answers | apply execRevokeBootKey_answers | apply execSecure_answers | apply execProvision_answers | apply execProgKeySet_answers | apply execRecKeyGen_answers | apply execTplKeySet_answers | apply execOwnerReset_answers | apply execTransferOwnership_answers | apply execTakeOwnership_answers | apply execCredClear_answers | apply execCredSet_answers | apply execDropRole_answers | apply execSetRole_answers | apply execGetChallenge_answers | split

theorem execChainCapture_answers {b} {v} {s : State} : Answers (execChainCapture b v s) := by
  unfold execChainCapture
  with_reducible repeat' first
    | assumption | extract_lets | apply next_answers | apply ite_answers | split

theorem execMdioGo_answers {b} {v} {s : State} : Answers (execMdioGo b v s) := by
  unfold execMdioGo
  with_reducible repeat' first
    | assumption | extract_lets | apply next_answers | apply ite_answers | split

theorem execTzWrite_answers {b} {k} {ofs} {v} {s : State} : Answers (execTzWrite b k ofs v s) := by
  unfold execTzWrite
  with_reducible repeat' first
    | assumption | extract_lets | apply next_answers | apply ite_answers | split

theorem execTzStdWrite_answers {b} {v} {s : State} : Answers (execTzStdWrite b v s) := by
  unfold execTzStdWrite
  with_reducible repeat' first
    | assumption | extract_lets | apply next_answers | apply ite_answers | split

theorem execUtcOffsetWrite_answers {b} {v} {s : State} : Answers (execUtcOffsetWrite b v s) := by
  unfold execUtcOffsetWrite
  with_reducible repeat' first
    | assumption | extract_lets | apply next_answers | apply ite_answers | split

theorem execTimRateWrite_answers {b} {v} {s : State} : Answers (execTimRateWrite b v s) := by
  unfold execTimRateWrite
  with_reducible repeat' first
    | assumption | extract_lets | apply next_answers | apply ite_answers | split

theorem execSwiClr_answers {b} {v} {s : State} : Answers (execSwiClr b v s) := by
  unfold execSwiClr
  with_reducible repeat' first
    | assumption | extract_lets | apply next_answers | apply ite_answers | split

theorem execSwiSet_answers {b} {v} {s : State} : Answers (execSwiSet b v s) := by
  unfold execSwiSet
  with_reducible repeat' first
    | assumption | extract_lets | apply next_answers | apply ite_answers | split

theorem centralRow_answers {b} {p} {off} {v} {s : State} : AnswersP (centralRow b p off v s) := by
  unfold centralRow
  with_reducible repeat' first
    | assumption | extract_lets | apply none_answersP | apply some_answersP | apply ite_answersP | apply next_answers | apply ite_answers | apply refused_answers | apply execWearSaveNow_answers | apply execWearCapture_answers | apply execDomainControlWrite_answers | apply pwrCmdWrite_answers | apply execPowerStateRequest_answers | apply execThmPeakClear_answers | apply execClockOutputWrite_answers | apply execPherrClear_answers | apply execSynRun_answers | apply execFltLogCapture_answers | apply execFltRelease_answers | apply execFltAck_answers | apply execFltSelectCapture_answers | apply execRegionWrite_answers | apply secCmdWrite_answers | apply execChainCapture_answers | apply execMdioGo_answers | apply execTzWrite_answers | apply execTzStdWrite_answers | apply execUtcOffsetWrite_answers | apply execTimRateWrite_answers | apply execSwiClr_answers | apply execSwiSet_answers | intro _ | split

theorem execQueueConfigWrite_answers {b} {v} {s : State} : Answers (execQueueConfigWrite b v s) := by
  unfold execQueueConfigWrite
  with_reducible repeat' first
    | assumption | extract_lets | apply next_answers | apply ite_answers | split

theorem execQueueSelectCapture_answers {b} {v} {s : State} : Answers (execQueueSelectCapture b v s) := by
  unfold execQueueSelectCapture
  with_reducible repeat' first
    | assumption | extract_lets | apply next_answers | apply ite_answers | split

theorem execSrmRepairLoad_answers {b} {v} {s : State} : Answers (execSrmRepairLoad b v s) := by
  unfold execSrmRepairLoad
  with_reducible repeat' first
    | assumption | extract_lets | apply next_answers | apply ite_answers | split

theorem execSrmRepairCapture_answers {b} {v} {s : State} : Answers (execSrmRepairCapture b v s) := by
  unfold execSrmRepairCapture
  with_reducible repeat' first
    | assumption | extract_lets | apply next_answers | apply ite_answers | split

theorem execSrmCeCntClear_answers {b} {v} {s : State} : Answers (execSrmCeCntClear b v s) := by
  unfold execSrmCeCntClear
  with_reducible repeat' first
    | assumption | extract_lets | apply next_answers | apply ite_answers | split

theorem execRemapEntryCapture_answers {b} {v} {s : State} : Answers (execRemapEntryCapture b v s) := by
  unfold execRemapEntryCapture
  with_reducible repeat' first
    | assumption | extract_lets | apply next_answers | apply ite_answers | split

theorem execElogCapture_answers {b} {v} {s : State} : Answers (execElogCapture b v s) := by
  unfold execElogCapture
  with_reducible repeat' first
    | assumption | extract_lets | apply next_answers | apply ite_answers | split

theorem execDdrCeCntClear_answers {b} {v} {s : State} : Answers (execDdrCeCntClear b v s) := by
  unfold execDdrCeCntClear
  with_reducible repeat' first
    | assumption | extract_lets | apply next_answers | apply ite_answers | split

theorem memRow_answers {b} {p} {off} {v} {s : State} : AnswersP (memRow b p off v s) := by
  unfold memRow
  with_reducible repeat' first
    | assumption | extract_lets | apply none_answersP | apply some_answersP | apply ite_answersP | apply next_answers | apply ite_answers | apply refused_answers | apply execQueueConfigWrite_answers | apply execQueueSelectCapture_answers | apply execSrmRepairLoad_answers | apply execSrmRepairCapture_answers | apply execSrmCeCntClear_answers | apply execRemapEntryCapture_answers | apply execElogCapture_answers | apply execDdrCeCntClear_answers | intro _ | split

theorem execMbVpeakClear_answers {b} {u} {v} {s : State} : Answers (execMbVpeakClear b u v s) := by
  unfold execMbVpeakClear
  with_reducible repeat' first
    | assumption | extract_lets | apply next_answers | apply ite_answers | split

theorem mbRow_answers {b} {u} {off} {v} {s : State} : AnswersP (mbRow b u off v s) := by
  unfold mbRow
  with_reducible repeat' first
    | assumption | extract_lets | apply none_answersP | apply some_answersP | apply ite_answersP | apply next_answers | apply ite_answers | apply refused_answers | apply execMbVpeakClear_answers | intro _ | split

theorem bldcRow_answers {b} {k} {off} {v} {s : State} : AnswersP (bldcRow b k off v s) := by
  unfold bldcRow
  with_reducible repeat' first
    | assumption | extract_lets | apply none_answersP | apply some_answersP | apply ite_answersP | apply next_answers | apply ite_answers | apply refused_answers | intro _ | split

theorem execDcDutyWrite_answers {b} {p} {v} {s : State} : Answers (execDcDutyWrite b p v s) := by
  unfold execDcDutyWrite
  with_reducible repeat' first
    | assumption | extract_lets | apply next_answers | apply ite_answers | split

theorem execProfileParamWrite_answers {b} {p} {k} {v} {s : State} : Answers (execProfileParamWrite b p k v s) := by
  unfold execProfileParamWrite
  with_reducible repeat' first
    | assumption | extract_lets | apply next_answers | apply ite_answers | split

theorem execStepperTargetWrite_answers {b} {p} {v} {s : State} : Answers (execStepperTargetWrite b p v s) := by
  unfold execStepperTargetWrite
  with_reducible repeat' first
    | assumption | extract_lets | apply next_answers | apply ite_answers | split

theorem stpRow_answers {b} {p} {off} {v} {s : State} : AnswersP (stpRow b p off v s) := by
  unfold stpRow
  with_reducible repeat' first
    | assumption | extract_lets | apply none_answersP | apply some_answersP | apply ite_answersP | apply next_answers | apply ite_answers | apply refused_answers | apply execDcDutyWrite_answers | apply execProfileParamWrite_answers | apply execStepperTargetWrite_answers | intro _ | split

theorem execLoopFePeakClear_answers {b} {m} {v} {s : State} : Answers (execLoopFePeakClear b m v s) := by
  unfold execLoopFePeakClear
  with_reducible repeat' first
    | assumption | extract_lets | apply next_answers | apply ite_answers | split

theorem ldpRow_answers {b d off v} {s : State} : AnswersP (ldpRow b d off v s) := by
  unfold ldpRow
  extract_lets m o row
  have hr : ∀ e, AnswersP (row e) := fun _ => some_answersP next_answers
  clear_value m o row
  repeat' first
    | exact none_answersP
    | exact hr _
    | exact some_answersP execLoopFePeakClear_answers
    | split

theorem execTemplateSelect_answers {b} {u} {v} {s : State} : Answers (execTemplateSelect b u v s) := by
  unfold execTemplateSelect
  with_reducible repeat' first
    | assumption | extract_lets | apply next_answers | apply ite_answers | split

theorem execSerialCapture_answers {b} {v} {s : State} : Answers (execSerialCapture b v s) := by
  unfold execSerialCapture
  with_reducible repeat' first
    | assumption | extract_lets | apply next_answers | apply ite_answers | split

theorem execOperatorEntryCommit_answers {b} {v} {s : State} : Answers (execOperatorEntryCommit b v s) := by
  unfold execOperatorEntryCommit
  with_reducible repeat' first
    | assumption | extract_lets | apply next_answers | apply ite_answers | split

theorem execLotCommit_answers {b} {v} {s : State} : Answers (execLotCommit b v s) := by
  unfold execLotCommit
  with_reducible repeat' first
    | assumption | extract_lets | apply next_answers | apply ite_answers | split

theorem execRenderMaxClear_answers {b} {v} {s : State} : Answers (execRenderMaxClear b v s) := by
  unfold execRenderMaxClear
  with_reducible repeat' first
    | assumption | extract_lets | apply next_answers | apply ite_answers | split

theorem execTplInfoCapture_answers {b} {v} {s : State} : Answers (execTplInfoCapture b v s) := by
  unfold execTplInfoCapture
  with_reducible repeat' first
    | assumption | extract_lets | apply next_answers | apply ite_answers | split

theorem execDmkPeakClear_answers {b} {v} {s : State} : Answers (execDmkPeakClear b v s) := by
  unfold execDmkPeakClear
  with_reducible repeat' first
    | assumption | extract_lets | apply next_answers | apply ite_answers | split

theorem dmkRow_answers {b} {off} {v} {s : State} : AnswersP (dmkRow b off v s) := by
  unfold dmkRow
  with_reducible repeat' first
    | assumption | extract_lets | apply none_answersP | apply some_answersP | apply ite_answersP | apply next_answers | apply ite_answers | apply refused_answers | apply execTemplateSelect_answers | apply execSerialCapture_answers | apply execOperatorEntryCommit_answers | apply execLotCommit_answers | apply execRenderMaxClear_answers | apply execTplInfoCapture_answers | apply execDmkPeakClear_answers | intro _ | split

theorem execLinCfgDisable_answers {b} {r} {v} {s : State} : Answers (execLinCfgDisable b r v s) := by
  unfold execLinCfgDisable
  with_reducible repeat' first
    | assumption | extract_lets | apply next_answers | apply ite_answers | split

theorem execMapWrite_answers {b} {m} {v} {s : State} : Answers (execMapWrite b m v s) := by
  unfold execMapWrite
  with_reducible repeat' first
    | assumption | extract_lets | apply next_answers | apply ite_answers | split

theorem execTrkSelCapture_answers {b} {v} {s : State} : Answers (execTrkSelCapture b v s) := by
  unfold execTrkSelCapture
  with_reducible repeat' first
    | assumption | extract_lets | apply next_answers | apply ite_answers | split

theorem execForcePid_answers {b} {v} {s : State} : Answers (execForcePid b v s) := by
  unfold execForcePid
  with_reducible repeat' first
    | assumption | extract_lets | apply next_answers | apply ite_answers | split

theorem execLsrCtrlWrite_answers {b} {v} {s : State} : Answers (execLsrCtrlWrite b v s) := by
  unfold execLsrCtrlWrite
  with_reducible repeat' first
    | assumption | extract_lets | apply next_answers | apply ite_answers | split

theorem execPolicyWrite_answers {b} {v} {s : State} : Answers (execPolicyWrite b v s) := by
  unfold execPolicyWrite
  with_reducible repeat' first
    | assumption | extract_lets | apply next_answers | apply ite_answers | split

theorem execPidNextWrite_answers {b} {v} {s : State} : Answers (execPidNextWrite b v s) := by
  unfold execPidNextWrite
  with_reducible repeat' first
    | assumption | extract_lets | apply next_answers | apply ite_answers | split

theorem execTrkPeakClear_answers {b} {v} {s : State} : Answers (execTrkPeakClear b v s) := by
  unfold execTrkPeakClear
  with_reducible repeat' first
    | assumption | extract_lets | apply next_answers | apply ite_answers | split

theorem linRow_answers {b} {off} {v} {s : State} : AnswersP (linRow b off v s) := by
  unfold linRow
  with_reducible repeat' first
    | assumption | extract_lets | apply none_answersP | apply some_answersP | apply ite_answersP | apply next_answers | apply ite_answers | apply refused_answers | apply execLinCfgDisable_answers | apply execMapWrite_answers | apply execTrkSelCapture_answers | apply execForcePid_answers | apply execLsrCtrlWrite_answers | apply execPolicyWrite_answers | apply execPidNextWrite_answers | apply execTrkPeakClear_answers | intro _ | split

theorem execStationConfigWrite_answers {b} {k} {off} {v} {s : State} : Answers (execStationConfigWrite b k off v s) := by
  unfold execStationConfigWrite
  with_reducible repeat' first
    | assumption | extract_lets | apply next_answers | apply ite_answers | split

theorem execJobEntryCapture_answers {b} {u} {v} {s : State} : Answers (execJobEntryCapture b u v s) := by
  unfold execJobEntryCapture
  with_reducible repeat' first
    | assumption | extract_lets | apply next_answers | apply ite_answers | split

theorem execJobCancel_answers {b} {u} {v} {s : State} : Answers (execJobCancel b u v s) := by
  unfold execJobCancel
  with_reducible repeat' first
    | assumption | extract_lets | apply next_answers | apply ite_answers | split

theorem execManualAdmit_answers {b} {u} {v} {s : State} : Answers (execManualAdmit b u v s) := by
  unfold execManualAdmit
  with_reducible repeat' first
    | assumption | extract_lets | apply next_answers | apply ite_answers | split

theorem execChjPeakClear_answers {b} {u} {v} {s : State} : Answers (execChjPeakClear b u v s) := by
  unfold execChjPeakClear
  with_reducible repeat' first
    | assumption | extract_lets | apply next_answers | apply ite_answers | split

theorem unitJobWrite_answers {b} {u} {o} {v} {s : State} : AnswersP (unitJobWrite b u o v s) := by
  unfold unitJobWrite
  with_reducible repeat' first
    | assumption | extract_lets | apply none_answersP | apply some_answersP | apply ite_answersP | apply next_answers | apply ite_answers | apply refused_answers | apply execJobEntryCapture_answers | apply execJobCancel_answers | apply execManualAdmit_answers | apply execChjPeakClear_answers | intro _ | split

theorem unitCtrlWrite_answers {b} {u} {v} {s : State} : Answers (unitCtrlWrite b u v s) := by
  unfold unitCtrlWrite
  with_reducible repeat' first
    | assumption | extract_lets | apply next_answers | apply ite_answers | split

theorem seqCtrlBus_answers {b} {n} {v} {s : State} : Answers (seqCtrlBus b n v s) := by
  unfold seqCtrlBus
  with_reducible repeat' first
    | assumption | extract_lets | apply next_answers | apply ite_answers | split

theorem execBindFePeakClear_answers {b} {n} {v} {s : State} : Answers (execBindFePeakClear b n v s) := by
  unfold execBindFePeakClear
  with_reducible repeat' first
    | assumption | extract_lets | apply next_answers | apply ite_answers | split

theorem laserPortWrite_answers {b} {n} {off} {v} {eff} {s : State} : Answers (laserPortWrite b n off v eff s) := by
  unfold laserPortWrite
  with_reducible repeat' first
    | assumption | extract_lets | apply next_answers | apply ite_answers | split

theorem execDurMaxClear_answers {b} {n} {v} {s : State} : Answers (execDurMaxClear b n v s) := by
  unfold execDurMaxClear
  with_reducible repeat' first
    | assumption | extract_lets | apply next_answers | apply ite_answers | apply laserPortWrite_answers | split

theorem execGridDataWrite_answers {b} {n} {v} {s : State} : Answers (execGridDataWrite b n v s) := by
  unfold execGridDataWrite
  with_reducible repeat' first
    | assumption | extract_lets | apply next_answers | apply ite_answers | apply laserPortWrite_answers | split

theorem chanRow_answers {b} {n} {k} {off} {v} {s : State} : AnswersP (chanRow b n k off v s) := by
  unfold chanRow
  with_reducible repeat' first
    | assumption | extract_lets | apply none_answersP | apply some_answersP | apply ite_answersP | apply next_answers | apply ite_answers | apply refused_answers | apply execBindFePeakClear_answers | apply execDurMaxClear_answers | apply execGridDataWrite_answers | apply unitJobWrite_answers | apply seqCtrlBus_answers | apply unitCtrlWrite_answers | intro _ | split | (refine AnswersP.of_some ?_ (by assumption))

theorem blockRow_answers {b} {p} {off} {v} {s : State} : AnswersP (blockRow b p off v s) := by
  unfold blockRow
  with_reducible repeat' first
    | assumption | extract_lets | apply none_answersP | apply some_answersP | apply ite_answersP | apply next_answers | apply ite_answers | apply refused_answers | apply centralRow_answers | apply memRow_answers | apply mbRow_answers | apply bldcRow_answers | apply stpRow_answers | apply ldpRow_answers | apply dmkRow_answers | apply linRow_answers | apply execStationConfigWrite_answers | apply unitJobWrite_answers | apply unitCtrlWrite_answers | apply seqCtrlBus_answers | apply chanRow_answers | intro _ | split | (refine AnswersP.of_some ?_ (by assumption))

theorem regWrite_answers {b a v} {s : State} : Answers (regWrite b a v s) := by
  unfold regWrite
  refine ite_answers next_answers ?_
  split
  · exact next_answers
  · next p hp =>
    extract_lets off
    by_cases h1 : off < 0x40
    · rw [if_pos h1]
      exact next_answers
    · rw [if_neg h1]
      by_cases h2 : noMap p = true
      · rw [if_pos h2]
        split
        · exact .inr ⟨p, off, rfl, h2, Nat.le_of_not_lt h1⟩
        · exact next_answers
      · rw [if_neg h2]
        split
        · next o ho => exact AnswersP.of_some blockRow_answers ho
        · exact next_answers

theorem anyWrite_answers {b} {a} {size} {v} {s : State} : Answers (anyWrite b a size v s) := by
  unfold anyWrite
  with_reducible repeat' first
    | assumption | extract_lets | apply next_answers | apply ite_answers | apply regWrite_answers | split

theorem blCmdRow_answers {b} {k} {c} {s : State} : Answers (blCmdRow b k c s) := by
  unfold blCmdRow
  with_reducible repeat' first
    | assumption | extract_lets | apply next_answers | apply ite_answers | split

theorem execVencPosCapture_answers {b} {v} {s : State} : Answers (execVencPosCapture b v s) := by
  unfold execVencPosCapture
  with_reducible repeat' first
    | assumption | extract_lets | apply next_answers | apply ite_answers | split

theorem execEncPosCapture_answers {b} {e} {s : State} : Answers (execEncPosCapture b e s) := by
  unfold execEncPosCapture
  with_reducible repeat' first
    | assumption | extract_lets | apply next_answers | apply ite_answers | split

theorem execDateClockCapture_answers {b} {s : State} : Answers (execDateClockCapture b s) := by
  unfold execDateClockCapture
  with_reducible repeat' first
    | assumption | extract_lets | apply next_answers | apply ite_answers | split

theorem execTscCapture_answers {b} {s : State} : Answers (execTscCapture b s) := by
  unfold execTscCapture
  with_reducible repeat' first
    | assumption | extract_lets | apply next_answers | apply ite_answers | split

theorem ite_none {c : Prop} [Decidable c] {a b : Option State} {q : Prop} (ha : c → a = none → q) (hb : ¬c → b = none → q) :
    (if c then a else b) = none → q := by
  split
  · next h => exact ha h
  · next h => exact hb h

theorem some_none {s : State} {q : Prop} : some s = none → q := fun h => absurd h (Option.some_ne_none _)

/-- A read finds no register map only in the block registers of a page that has none. -/
theorem regRead_none {b a} {s : State} :
    regRead b a s = none → ∃ p, pageAt (a / 4096) = some p ∧ noMap p = true ∧ 0x40 ≤ a % 4096 := by
  unfold regRead
  extract_lets plain o i i' s' off
  have hp : ∀ p d {q : Prop}, plain p d = none → q := by
    intro p d q
    exact ite_none (fun _ => some_none) (fun _ => ite_none (fun _ => some_none) fun _ => some_none)
  clear_value plain
  refine ite_none (fun _ => some_none) fun _ => ite_none (fun _ => ?_) fun _ => ?_
  · refine ite_none (fun _ => some_none) fun _ => ite_none (fun _ => some_none) fun _ => ?_
    exact ite_none (fun _ => some_none) fun _ => ite_none (fun _ => some_none) fun _ =>
      ite_none (fun _ => some_none) fun _ => some_none
  · split
    · exact some_none
    · next p h =>
      refine ite_none (fun _ => some_none) fun _ => ite_none (fun _ => hp _ _) fun h1 => ite_none (fun h2 => ite_none ?_ fun _ => hp _ _) fun _ => ?_
      · exact fun _ _ => ⟨p, h, h2, by omega⟩
      · refine ite_none (fun _ => hp _ _) fun _ => ?_
        split
        · exact ite_none (fun _ => some_none) fun _ => ite_none (fun _ => some_none) fun _ => hp _ _
        · exact ite_none (fun _ => some_none) fun _ => ite_none (fun _ => some_none) fun _ => hp _ _
        · exact ite_none (fun _ => some_none) fun _ => hp _ _
        · exact hp _ _

theorem copyRead_none {b d k i} {s : State} (h : copyRead b d k i s = none) :
    ∃ p, pageAt (sideAddr d.srcFix d.width d.src (4 * i) / 4096) = some p ∧ noMap p = true ∧
      0x40 ≤ sideAddr d.srcFix d.width d.src (4 * i) % 4096 := by
  simp only [copyRead] at h
  split at h
  · exact regRead_none (Option.map_eq_none_iff.1 h)
  · split at h <;> cases h

theorem copyWrite_refused {b d k i l} {s : State} {x : Refusal} (h : copyWrite b d k i l s = .refused x) :
    ∃ p off, x = .noRegisterMap p off ∧ noMap p = true ∧ 0x40 ≤ off := by
  simp only [copyWrite] at h
  split at h
  · split at h
    · cases h
    · cases h
    · next r hr =>
      injection h with h
      subst h
      rcases @anyWrite_answers b _ _ _ s with ⟨t, ht⟩ | ⟨p, off, he, h1, h2⟩
      · rw [ht] at hr; cases hr
      · rw [he] at hr; injection hr with hr; exact ⟨p, off, hr.symm, h1, h2⟩
  · split at h <;> cases h

theorem copyWords_refused {b d k r} {l : List Nat} {n : Nat} {s : State} {x : Refusal}
    (h : copyWords b d k r l n s = .refused x) : ∃ p off, x = .noRegisterMap p off ∧ noMap p = true ∧ 0x40 ≤ off := by
  induction l generalizing n s with
  | nil => cases h
  | cons i l ih =>
    unfold copyWords at h
    extract_lets sa da at h
    split at h
    · cases h
    · split at h
      · next hn =>
        obtain ⟨p, h1, h2, h3⟩ := copyRead_none hn
        split at h
        · next q hq =>
          injection h with h
          have e : q = p := Option.some.inj (hq.symm.trans h1)
          exact ⟨q, _, h.symm, e ▸ h2, h3⟩
        · cases h
      · cases h
      · split at h
        · cases h
        · split at h
          · exact ih h
          · cases h
          · cases h
          · next y hy => injection h with h; subst h; exact copyWrite_refused hy

theorem ddrCmdRow_answers {b} {v} {i} {s : State} : Answers (ddrCmdRow b v i s) := by
  unfold ddrCmdRow
  with_reducible repeat' first
    | assumption | extract_lets | apply next_answers | apply ite_answers | split

theorem execLogWriteVerify_answers {ok} {s : State} : Answers (execLogWriteVerify ok s) := by
  unfold execLogWriteVerify
  with_reducible repeat' first
    | assumption | extract_lets | apply next_answers | apply ite_answers | split

theorem execModulationPulseBoundary_answers {n} {pinBad} {s : State} : Answers (execModulationPulseBoundary n pinBad s) := by
  unfold execModulationPulseBoundary
  with_reducible repeat' first
    | assumption | extract_lets | apply next_answers | apply ite_answers | split

theorem execLaserAlarmClear_answers {n} {s : State} : Answers (execLaserAlarmClear n s) := by
  unfold execLaserAlarmClear
  with_reducible repeat' first
    | assumption | extract_lets | apply next_answers | apply ite_answers | split

theorem execLaserReadyEdge_answers {n} {level} {s : State} : Answers (execLaserReadyEdge n level s) := by
  unfold execLaserReadyEdge
  with_reducible repeat' first
    | assumption | extract_lets | apply next_answers | apply ite_answers | split

theorem execRtcEdgeLatch_answers {s : State} : Answers (execRtcEdgeLatch s) := by
  unfold execRtcEdgeLatch
  with_reducible repeat' first
    | assumption | extract_lets | apply next_answers | apply ite_answers | split

theorem execEntropyRecovery_answers {s : State} : Answers (execEntropyRecovery s) := by
  unfold execEntropyRecovery
  with_reducible repeat' first
    | assumption | extract_lets | apply next_answers | apply ite_answers | split

theorem execEnclaveFault_answers {s : State} : Answers (execEnclaveFault s) := by
  unfold execEnclaveFault
  with_reducible repeat' first
    | assumption | extract_lets | apply next_answers | apply ite_answers | split

theorem execSeqEccUncorrectable_answers {n} {s : State} : Answers (execSeqEccUncorrectable n s) := by
  unfold execSeqEccUncorrectable
  with_reducible repeat' first
    | assumption | extract_lets | apply next_answers | apply ite_answers | split

theorem execAdcCalibrationEnd_answers {c} {ofs} {gain} {s : State} : Answers (execAdcCalibrationEnd c ofs gain s) := by
  unfold execAdcCalibrationEnd
  with_reducible repeat' first
    | assumption | extract_lets | apply next_answers | apply ite_answers | split

theorem execAdcCalibrationStart_answers {c} {s : State} : Answers (execAdcCalibrationStart c s) := by
  unfold execAdcCalibrationStart
  with_reducible repeat' first
    | assumption | extract_lets | apply next_answers | apply ite_answers | split

theorem execAdcConversion_answers {c} {req} {raw} {s : State} : Answers (execAdcConversion c req raw s) := by
  unfold execAdcConversion
  with_reducible repeat' first
    | assumption | (extract_lets +onlyGivenNames x; clear_value x) | extract_lets | apply next_answers | apply ite_answers | split

theorem execLogWriteRetry_answers {s : State} : Answers (execLogWriteRetry s) := by
  unfold execLogWriteRetry
  with_reducible repeat' first
    | assumption | extract_lets | apply next_answers | apply ite_answers | split

theorem execLogStoreWrite_answers {s : State} : Answers (execLogStoreWrite s) := by
  unfold execLogStoreWrite
  with_reducible repeat' first
    | assumption | extract_lets | apply next_answers | apply ite_answers | split

theorem execWearSave_answers {s : State} : Answers (execWearSave s) := by
  unfold execWearSave
  with_reducible repeat' first
    | assumption | extract_lets | apply next_answers | apply ite_answers | split

theorem execTelemetrySnapshot_answers {writeOk} {s : State} : Answers (execTelemetrySnapshot writeOk s) := by
  unfold execTelemetrySnapshot
  with_reducible repeat' first
    | assumption | extract_lets | apply next_answers | apply ite_answers | split

theorem execGalvoDriftDone_answers {n} {s : State} : Answers (execGalvoDriftDone n s) := by
  unfold execGalvoDriftDone
  with_reducible repeat' first
    | assumption | extract_lets | apply next_answers | apply ite_answers | split

theorem execGalvoDriftCheck_answers {n} {s : State} : Answers (execGalvoDriftCheck n s) := by
  unfold execGalvoDriftCheck
  with_reducible repeat' first
    | assumption | extract_lets | apply next_answers | apply ite_answers | split

theorem execWakeComplete_answers {s : State} : Answers (execWakeComplete s) := by
  unfold execWakeComplete
  with_reducible repeat' first
    | assumption | extract_lets | apply next_answers | apply ite_answers | split

theorem execResetPin_answers {held} {s : State} : Answers (execResetPin held s) := by
  unfold execResetPin
  with_reducible repeat' first
    | assumption | extract_lets | apply next_answers | apply ite_answers | split

theorem execRtcAlarmWake_answers {s : State} : Answers (execRtcAlarmWake s) := by
  unfold execRtcAlarmWake
  with_reducible repeat' first
    | assumption | extract_lets | apply next_answers | apply ite_answers | split

theorem execWchWake_answers {j} {falling} {s : State} : Answers (execWchWake j falling s) := by
  unfold execWchWake
  with_reducible repeat' first
    | assumption | extract_lets | apply next_answers | apply ite_answers | split

theorem execWatchSample_answers {codes} {s : State} : Answers (execWatchSample codes s) := by
  unfold execWatchSample
  with_reducible repeat' first
    | assumption | extract_lets | apply next_answers | apply ite_answers | split

theorem execTwoWireWake_answers {addr} {arg} {s : State} : Answers (execTwoWireWake addr arg s) := by
  unfold execTwoWireWake
  with_reducible repeat' first
    | assumption | extract_lets | apply next_answers | apply ite_answers | split

theorem execPowerCancel_answers {b} {s : State} : Answers (execPowerCancel b s) := by
  unfold execPowerCancel
  with_reducible repeat' first
    | assumption | extract_lets | apply next_answers | apply ite_answers | split

theorem execFwTimeout_answers {s : State} : Answers (execFwTimeout s) := by
  unfold execFwTimeout
  with_reducible repeat' first
    | assumption | extract_lets | apply next_answers | apply ite_answers | split

theorem execPowerProceed_answers {b} {s : State} : Answers (execPowerProceed b s) := by
  unfold execPowerProceed
  with_reducible repeat' first
    | assumption | extract_lets | apply next_answers | apply ite_answers | split

theorem execPowerEntryStart_answers {s : State} : Answers (execPowerEntryStart s) := by
  unfold execPowerEntryStart
  with_reducible repeat' first
    | assumption | extract_lets | apply next_answers | apply ite_answers | split

theorem execHeldDomainOff_answers {d} {s : State} : Answers (execHeldDomainOff d s) := by
  unfold execHeldDomainOff
  with_reducible repeat' first
    | assumption | extract_lets | apply next_answers | apply ite_answers | split

theorem execDomainSwitchFail_answers {d} {s : State} : Answers (execDomainSwitchFail d s) := by
  unfold execDomainSwitchFail
  with_reducible repeat' first
    | assumption | extract_lets | apply next_answers | apply ite_answers | split

theorem execDomainSwitchOn_answers {d} {s : State} : Answers (execDomainSwitchOn d s) := by
  unfold execDomainSwitchOn
  with_reducible repeat' first
    | assumption | extract_lets | apply next_answers | apply ite_answers | split

theorem execVinRestore_answers {s : State} : Answers (execVinRestore s) := by
  unfold execVinRestore
  with_reducible repeat' first
    | assumption | extract_lets | apply next_answers | apply ite_answers | split

theorem execVinWarning_answers {s : State} : Answers (execVinWarning s) := by
  unfold execVinWarning
  with_reducible repeat' first
    | assumption | extract_lets | apply next_answers | apply ite_answers | split

theorem execPowerDownGroup_answers {s : State} : Answers (execPowerDownGroup s) := by
  unfold execPowerDownGroup
  with_reducible repeat' first
    | assumption | extract_lets | apply next_answers | apply ite_answers | split

theorem execRailTimeout_answers {k} {s : State} : Answers (execRailTimeout k s) := by
  unfold execRailTimeout
  with_reducible repeat' first
    | assumption | extract_lets | apply next_answers | apply ite_answers | split

theorem execRailQualified_answers {k} {s : State} : Answers (execRailQualified k s) := by
  unfold execRailQualified
  with_reducible repeat' first
    | assumption | extract_lets | apply next_answers | apply ite_answers | split

theorem execPgEdge_answers {k} {level} {s : State} : Answers (execPgEdge k level s) := by
  unfold execPgEdge
  with_reducible repeat' first
    | assumption | extract_lets | apply next_answers | apply ite_answers | split

theorem execRailGroupEnable_answers {s : State} : Answers (execRailGroupEnable s) := by
  unfold execRailGroupEnable
  with_reducible repeat' first
    | assumption | (extract_lets +onlyGivenNames x; clear_value x) | extract_lets | apply next_answers | apply ite_answers | split

theorem execAlwaysOnPowerUp_answers {testMode} {s : State} : Answers (execAlwaysOnPowerUp testMode s) := by
  unfold execAlwaysOnPowerUp
  with_reducible repeat' first
    | assumption | extract_lets | apply next_answers | apply ite_answers | split

theorem execMarkPauseEnd_answers {n} {s : State} : Answers (execMarkPauseEnd n s) := by
  unfold execMarkPauseEnd
  with_reducible repeat' first
    | assumption | extract_lets | apply next_answers | apply ite_answers | split

theorem execDamperStep_answers {s : State} : Answers (execDamperStep s) := by
  unfold execDamperStep
  with_reducible repeat' first
    | assumption | extract_lets | apply next_answers | apply ite_answers | split

theorem execShutdownPowerOff_answers {s : State} : Answers (execShutdownPowerOff s) := by
  unfold execShutdownPowerOff
  with_reducible repeat' first
    | assumption | extract_lets | apply next_answers | apply ite_answers | split

theorem execDieSensorRound_answers {temps} {ext} {s : State} : Answers (execDieSensorRound temps ext s) := by
  unfold execDieSensorRound
  with_reducible repeat' first
    | assumption | extract_lets | apply next_answers | apply ite_answers | split

theorem execBackupMeasure_answers {kHz} {ratio} {s : State} : Answers (execBackupMeasure kHz ratio s) := by
  unfold execBackupMeasure
  with_reducible repeat' first
    | assumption | extract_lets | apply next_answers | apply ite_answers | split

theorem execRefGood_answers {s : State} : Answers (execRefGood s) := by
  unfold execRefGood
  with_reducible repeat' first
    | assumption | extract_lets | apply next_answers | apply ite_answers | split

theorem execRefLoss_answers {s : State} : Answers (execRefLoss s) := by
  unfold execRefLoss
  with_reducible repeat' first
    | assumption | extract_lets | apply next_answers | apply ite_answers | split

theorem execBandRecentre_answers {y} {fine} {s : State} : Answers (execBandRecentre y fine s) := by
  unfold execBandRecentre
  with_reducible repeat' first
    | assumption | extract_lets | apply next_answers | apply ite_answers | split

theorem execRelockAttemptTimeout_answers {y} {s : State} : Answers (execRelockAttemptTimeout y s) := by
  unfold execRelockAttemptTimeout
  with_reducible repeat' first
    | assumption | extract_lets | apply next_answers | apply ite_answers | split

theorem execRelockAttempt_answers {y} {s : State} : Answers (execRelockAttempt y s) := by
  unfold execRelockAttempt
  with_reducible repeat' first
    | assumption | extract_lets | apply next_answers | apply ite_answers | split

theorem execSynLossOfLock_answers {y} {err} {s : State} : Answers (execSynLossOfLock y err s) := by
  unfold execSynLossOfLock
  with_reducible repeat' first
    | assumption | extract_lets | apply next_answers | apply ite_answers | split

theorem execSynLock_answers {y} {err} {s : State} : Answers (execSynLock y err s) := by
  unfold execSynLock
  with_reducible repeat' first
    | assumption | extract_lets | apply next_answers | apply ite_answers | split

theorem execIntegrityMismatch_answers {s : State} : Answers (execIntegrityMismatch s) := by
  unfold execIntegrityMismatch
  with_reducible repeat' first
    | assumption | extract_lets | apply next_answers | apply ite_answers | split

theorem execQuietExpiry_answers {src} {s : State} : Answers (execQuietExpiry src s) := by
  unfold execQuietExpiry
  with_reducible repeat' first
    | assumption | extract_lets | apply next_answers | apply ite_answers | split

theorem execReleasePulse_answers {held} {s : State} : Answers (execReleasePulse held s) := by
  unfold execReleasePulse
  with_reducible repeat' first
    | assumption | extract_lets | apply next_answers | apply ite_answers | split

theorem execWarmResetRelease_answers {s : State} : Answers (execWarmResetRelease s) := by
  unfold execWarmResetRelease
  with_reducible repeat' first
    | assumption | extract_lets | apply next_answers | apply ite_answers | split

theorem execGraceExpiry_answers {src} {s : State} : Answers (execGraceExpiry src s) := by
  unfold execGraceExpiry
  with_reducible repeat' first
    | assumption | extract_lets | apply next_answers | apply ite_answers | split

theorem execConfigCrcPass_answers {s : State} : Answers (execConfigCrcPass s) := by
  unfold execConfigCrcPass
  with_reducible repeat' first
    | assumption | extract_lets | apply next_answers | apply ite_answers | split

theorem execFgDomainReapply_answers {d} {s : State} : Answers (execFgDomainReapply d s) := by
  unfold execFgDomainReapply
  with_reducible repeat' first
    | assumption | extract_lets | apply next_answers | apply ite_answers | split

theorem execFgConfigLoad_answers {s : State} : Answers (execFgConfigLoad s) := by
  unfold execFgConfigLoad
  with_reducible repeat' first
    | assumption | extract_lets | apply next_answers | apply ite_answers | split

theorem execFgPeriodicTest_answers {r} {s : State} : Answers (execFgPeriodicTest r s) := by
  unfold execFgPeriodicTest
  with_reducible repeat' first
    | assumption | extract_lets | apply next_answers | apply ite_answers | split

theorem execFgSelftestRetry_answers {s : State} : Answers (execFgSelftestRetry s) := by
  unfold execFgSelftestRetry
  with_reducible repeat' first
    | assumption | extract_lets | apply next_answers | apply ite_answers | split

theorem execFgSelftestDone_answers {r} {s : State} : Answers (execFgSelftestDone r s) := by
  unfold execFgSelftestDone
  with_reducible repeat' first
    | assumption | extract_lets | apply next_answers | apply ite_answers | split

theorem execFgSelftestStart_answers {s : State} : Answers (execFgSelftestStart s) := by
  unfold execFgSelftestStart
  with_reducible repeat' first
    | assumption | extract_lets | apply next_answers | apply ite_answers | split

theorem execSupplyWindowFault_answers {s : State} : Answers (execSupplyWindowFault s) := by
  unfold execSupplyWindowFault
  with_reducible repeat' first
    | assumption | extract_lets | apply next_answers | apply ite_answers | split

theorem execFgWatchdogExpiry_answers {s : State} : Answers (execFgWatchdogExpiry s) := by
  unfold execFgWatchdogExpiry
  with_reducible repeat' first
    | assumption | extract_lets | apply next_answers | apply ite_answers | split

theorem execLockstepMismatch_answers {s : State} : Answers (execLockstepMismatch s) := by
  unfold execLockstepMismatch
  with_reducible repeat' first
    | assumption | extract_lets | apply next_answers | apply ite_answers | split

theorem execFgOscDeviation_answers {freq} {s : State} : Answers (execFgOscDeviation freq s) := by
  unfold execFgOscDeviation
  with_reducible repeat' first
    | assumption | extract_lets | apply next_answers | apply ite_answers | split

theorem execClockMonitorWindow_answers {refEdges} {fabEdges} {s : State} : Answers (execClockMonitorWindow refEdges fabEdges s) := by
  unfold execClockMonitorWindow
  with_reducible repeat' first
    | assumption | extract_lets | apply next_answers | apply ite_answers | split

theorem execDutyWindowCheck_answers {n} {duty} {s : State} : Answers (execDutyWindowCheck n duty s) := by
  unfold execDutyWindowCheck
  with_reducible repeat' first
    | assumption | extract_lets | apply next_answers | apply ite_answers | split

theorem execReadbackMismatch_answers {p} {s : State} : Answers (execReadbackMismatch p s) := by
  unfold execReadbackMismatch
  with_reducible repeat' first
    | assumption | extract_lets | apply next_answers | apply ite_answers | split

theorem execEnableReadbackMismatch_answers {o} {s : State} : Answers (execEnableReadbackMismatch o s) := by
  unfold execEnableReadbackMismatch
  with_reducible repeat' first
    | assumption | extract_lets | apply next_answers | apply ite_answers | split

theorem execEnableOffDelayEnd_answers {k} {s : State} : Answers (execEnableOffDelayEnd k s) := by
  unfold execEnableOffDelayEnd
  with_reducible repeat' first
    | assumption | extract_lets | apply next_answers | apply ite_answers | split

theorem execEnableAssert_answers {k} {s : State} : Answers (execEnableAssert k s) := by
  unfold execEnableAssert
  with_reducible repeat' first
    | assumption | extract_lets | apply next_answers | apply ite_answers | split

theorem execKeySwitchChange_answers {high} {s : State} : Answers (execKeySwitchChange high s) := by
  unfold execKeySwitchChange
  with_reducible repeat' first
    | assumption | extract_lets | apply next_answers | apply ite_answers | split

theorem execInterlockDiscrepancy_answers {x} {s : State} : Answers (execInterlockDiscrepancy x s) := by
  unfold execInterlockDiscrepancy
  with_reducible repeat' first
    | assumption | extract_lets | apply next_answers | apply ite_answers | split

theorem execInterlockClose_answers {x} {l1} {l2} {s : State} : Answers (execInterlockClose x l1 l2 s) := by
  unfold execInterlockClose
  with_reducible repeat' first
    | assumption | extract_lets | apply next_answers | apply ite_answers | split

theorem execInterlockOpen_answers {x} {l1} {l2} {s : State} : Answers (execInterlockOpen x l1 l2 s) := by
  unfold execInterlockOpen
  with_reducible repeat' first
    | assumption | extract_lets | apply next_answers | apply ite_answers | split

theorem execTapInstructionLoad_answers {i} {s : State} : Answers (execTapInstructionLoad i s) := by
  unfold execTapInstructionLoad
  with_reducible repeat' first
    | assumption | extract_lets | apply next_answers | apply ite_answers | split

theorem recovery_answers {typ} {frame} {f} {s : State} : Answers (recovery typ frame f s) := by
  unfold recovery
  with_reducible repeat' first
    | assumption | extract_lets | apply next_answers | apply ite_answers | split

theorem execRecoveryRun_answers {frame} {s : State} : Answers (execRecoveryRun frame s) := by
  unfold execRecoveryRun
  with_reducible repeat' first
    | assumption | extract_lets | apply next_answers | apply ite_answers | apply recovery_answers | split

theorem execRecoveryData_answers {frame} {s : State} : Answers (execRecoveryData frame s) := by
  unfold execRecoveryData
  with_reducible repeat' first
    | assumption | extract_lets | apply next_answers | apply ite_answers | apply recovery_answers | split

theorem execRecoveryHeader_answers {frame} {s : State} : Answers (execRecoveryHeader frame s) := by
  unfold execRecoveryHeader
  with_reducible repeat' first
    | assumption | extract_lets | apply next_answers | apply ite_answers | apply recovery_answers | split

theorem execRecoveryHello_answers {frame} {s : State} : Answers (execRecoveryHello frame s) := by
  unfold execRecoveryHello
  with_reducible repeat' first
    | assumption | extract_lets | apply next_answers | apply ite_answers | apply recovery_answers | split

theorem execBootRetryWaitEnd_answers {s : State} : Answers (execBootRetryWaitEnd s) := by
  unfold execBootRetryWaitEnd
  with_reducible repeat' first
    | assumption | extract_lets | apply next_answers | apply ite_answers | split

theorem execBootAttempt_answers {slot} {r} {s : State} : Answers (execBootAttempt slot r s) := by
  unfold execBootAttempt
  with_reducible repeat' first
    | assumption | extract_lets | apply next_answers | apply ite_answers | split

theorem execStoreWriteRetry_answers {s : State} : Answers (execStoreWriteRetry s) := by
  unfold execStoreWriteRetry
  with_reducible repeat' first
    | assumption | extract_lets | apply next_answers | apply ite_answers | split

theorem execStoreWriteConfirm_answers {ok} {s : State} : Answers (execStoreWriteConfirm ok s) := by
  unfold execStoreWriteConfirm
  with_reducible repeat' first
    | assumption | extract_lets | apply next_answers | apply ite_answers | split

theorem execRecordSign_answers {s : State} : Answers (execRecordSign s) := by
  unfold execRecordSign
  with_reducible repeat' first
    | assumption | extract_lets | apply next_answers | apply ite_answers | split

theorem execEntropyFailure_answers {s : State} : Answers (execEntropyFailure s) := by
  unfold execEntropyFailure
  with_reducible repeat' first
    | assumption | extract_lets | apply next_answers | apply ite_answers | split

theorem execNonceExpiry_answers {k} {s : State} : Answers (execNonceExpiry k s) := by
  unfold execNonceExpiry
  with_reducible repeat' first
    | assumption | extract_lets | apply next_answers | apply ite_answers | split

theorem execMdioDone_answers {data} {s : State} : Answers (execMdioDone data s) := by
  unfold execMdioDone
  with_reducible repeat' first
    | assumption | extract_lets | apply next_answers | apply ite_answers | split

theorem execMacEntryAge_answers {mac} {s : State} : Answers (execMacEntryAge mac s) := by
  unfold execMacEntryAge
  with_reducible repeat' first
    | assumption | extract_lets | apply next_answers | apply ite_answers | split

theorem execEthFrameTransmit_answers {p} {ecc} {s : State} : Answers (execEthFrameTransmit p ecc s) := by
  unfold execEthFrameTransmit
  with_reducible repeat' first
    | assumption | extract_lets | apply next_answers | apply ite_answers | split

theorem execNetTxDescriptor_answers {q} {s : State} : Answers (execNetTxDescriptor q s) := by
  unfold execNetTxDescriptor
  with_reducible repeat' first
    | assumption | extract_lets | apply next_answers | apply ite_answers | split

theorem execEthFrameReceive_answers {p} {frame} {fcsOk} {stamp} {s : State} : Answers (execEthFrameReceive p frame fcsOk stamp s) := by
  unfold execEthFrameReceive
  with_reducible repeat' first
    | assumption | extract_lets | apply next_answers | apply ite_answers | split

theorem execFloorUpdate_answers {s : State} : Answers (execFloorUpdate s) := by
  unfold execFloorUpdate
  with_reducible repeat' first
    | assumption | extract_lets | apply next_answers | apply ite_answers | split

theorem execDateClockUpdate_answers {s : State} : Answers (execDateClockUpdate s) := by
  unfold execDateClockUpdate
  with_reducible repeat' first
    | assumption | extract_lets | apply next_answers | apply ite_answers | split

theorem execHoldoverRateUpdate_answers {s : State} : Answers (execHoldoverRateUpdate s) := by
  unfold execHoldoverRateUpdate
  with_reducible repeat' first
    | assumption | extract_lets | apply next_answers | apply ite_answers | split

theorem execPtpLockTimeout_answers {s : State} : Answers (execPtpLockTimeout s) := by
  unfold execPtpLockTimeout
  with_reducible repeat' first
    | assumption | extract_lets | apply next_answers | apply ite_answers | split

theorem execSetInitial_answers {b} {v} {s : State} : Answers (execSetInitial b v s) := by
  unfold execSetInitial
  with_reducible repeat' first
    | assumption | extract_lets | apply next_answers | apply ite_answers | split

theorem execAcceptStep_answers {b} {v} {s : State} : Answers (execAcceptStep b v s) := by
  unfold execAcceptStep
  with_reducible repeat' first
    | assumption | extract_lets | apply next_answers | apply ite_answers | split

theorem execUnlock_answers {b} {v} {s : State} : Answers (execUnlock b v s) := by
  unfold execUnlock
  with_reducible repeat' first
    | assumption | extract_lets | apply next_answers | apply ite_answers | split

theorem execLockKick_answers {b} {v} {s : State} : Answers (execLockKick b v s) := by
  unfold execLockKick
  with_reducible repeat' first
    | assumption | extract_lets | apply next_answers | apply ite_answers | split

theorem execStepPtp_answers {b} {v} {s : State} : Answers (execStepPtp b v s) := by
  unfold execStepPtp
  with_reducible repeat' first
    | assumption | extract_lets | apply next_answers | apply ite_answers | split

theorem execTimRateApply_answers {s : State} : Answers (execTimRateApply s) := by
  unfold execTimRateApply
  with_reducible repeat' first
    | assumption | extract_lets | apply next_answers | apply ite_answers | split

theorem execQueueMove_answers {k} {s : State} : Answers (execQueueMove k s) := by
  unfold execQueueMove
  with_reducible repeat' first
    | assumption | extract_lets | apply next_answers | apply ite_answers | split

theorem execQueueConsume_answers {b} {q} {v} {s : State} : Answers (execQueueConsume b q v s) := by
  unfold execQueueConsume
  with_reducible repeat' first
    | assumption | extract_lets | apply next_answers | apply ite_answers | split

theorem execQueueProduce_answers {b} {q} {v} {s : State} : Answers (execQueueProduce b q v s) := by
  unfold execQueueProduce
  with_reducible repeat' first
    | assumption | extract_lets | apply next_answers | apply ite_answers | split

theorem execBoltLaneSelftestDone_answers {l} {pass} {s : State} : Answers (execBoltLaneSelftestDone l pass s) := by
  unfold execBoltLaneSelftestDone
  with_reducible repeat' first
    | assumption | extract_lets | apply next_answers | apply ite_answers | split

theorem execBoltDone_answers {l} {ecc} {s : State} : Answers (execBoltDone l ecc s) := by
  unfold execBoltDone
  with_reducible repeat' first
    | assumption | extract_lets | apply next_answers | apply ite_answers | split

theorem execBoltLaneAcquire_answers {l} {s : State} : Answers (execBoltLaneAcquire l s) := by
  unfold execBoltLaneAcquire
  with_reducible repeat' first
    | assumption | extract_lets | apply next_answers | apply ite_answers | split

theorem execDmaAbortDone_answers {k} {s : State} : Answers (execDmaAbortDone k s) := by
  unfold execDmaAbortDone
  extract_lets k c
  split
  · exact next_answers
  · next d hd =>
    split
    · exact next_answers
    · split
      · generalize s.drawNat = p
        obtain ⟨n, u⟩ := p
        dsimp -zeta only
        extract_lets done stop order
        clear_value done stop order
        split
        · split
          · exact next_answers
          · exact fault_answers
          · next x hx => obtain ⟨p, off, rfl, h1, h2⟩ := copyWords_refused hx; exact .inr ⟨p, off, rfl, h1, h2⟩
        · split
          · exact ite_answers next_answers next_answers
          · exact next_answers
      · exact next_answers

theorem execDmaDisable_answers {b} {k} {s : State} : Answers (execDmaDisable b k s) := by
  unfold execDmaDisable
  with_reducible repeat' first
    | assumption | extract_lets | apply next_answers | apply ite_answers | split

theorem execDmaEnable_answers {b} {k} {s : State} : Answers (execDmaEnable b k s) := by
  unfold execDmaEnable
  with_reducible repeat' first
    | assumption | extract_lets | apply next_answers | apply ite_answers | split

theorem genTransfer_answers {k d r} {s : State} : Answers (genTransfer k d r s) := by
  unfold genTransfer
  extract_lets c b
  split
  · split
    · split
      · exact next_answers
      · exact fault_answers
      · next x hx => obtain ⟨p, off, rfl, h1, h2⟩ := copyWords_refused hx; exact .inr ⟨p, off, rfl, h1, h2⟩
    · exact next_answers
  · split
    · exact next_answers
    · extract_lets w
      split
      · exact next_answers
      · rename_i fault _
        clear_value fault
        split <;> exact next_answers

theorem execGenDescriptorComplete_answers {k} {r} {s : State} : Answers (execGenDescriptorComplete k r s) := by
  unfold execGenDescriptorComplete
  with_reducible repeat' first
    | assumption | extract_lets | apply next_answers | apply ite_answers | apply genTransfer_answers | split

theorem execGenDescriptorTake_answers {k} {chainOk} {s : State} : Answers (execGenDescriptorTake k chainOk s) := by
  unfold execGenDescriptorTake
  with_reducible repeat' first
    | assumption | extract_lets | apply next_answers | apply ite_answers | split

theorem execWeftTransferComplete_answers {n} {r} {s : State} : Answers (execWeftTransferComplete n r s) := by
  unfold execWeftTransferComplete
  with_reducible repeat' first
    | assumption | (extract_lets +onlyGivenNames x; clear_value x) | extract_lets | apply next_answers | apply ite_answers | split

theorem execWeftTransferStart_answers {n} {s : State} : Answers (execWeftTransferStart n s) := by
  unfold execWeftTransferStart
  with_reducible repeat' first
    | assumption | extract_lets | apply next_answers | apply ite_answers | split

theorem execWeftDescriptorTake_answers {n} {s : State} : Answers (execWeftDescriptorTake n s) := by
  unfold execWeftDescriptorTake
  with_reducible repeat' first
    | assumption | extract_lets | apply next_answers | apply ite_answers | split

theorem execSramScrubRead_answers {m} {row} {ecc} {s : State} : Answers (execSramScrubRead m row ecc s) := by
  unfold execSramScrubRead
  with_reducible repeat' first
    | assumption | extract_lets | apply next_answers | apply ite_answers | split

theorem execDramScrubRead_answers {ecc} {s : State} : Answers (execDramScrubRead ecc s) := by
  unfold execDramScrubRead
  with_reducible repeat' first
    | assumption | extract_lets | apply next_answers | apply ite_answers | split

theorem execElogClear_answers {b} {v} {s : State} : Answers (execElogClear b v s) := by
  unfold execElogClear
  with_reducible repeat' first
    | assumption | extract_lets | apply next_answers | apply ite_answers | apply ddrCmdRow_answers | split

theorem execPprDone_answers {ok} {s : State} : Answers (execPprDone ok s) := by
  unfold execPprDone
  with_reducible repeat' first
    | assumption | extract_lets | apply next_answers | apply ite_answers | split

theorem execDdrPpr_answers {b} {v} {s : State} : Answers (execDdrPpr b v s) := by
  unfold execDdrPpr
  with_reducible repeat' first
    | assumption | extract_lets | apply next_answers | apply ite_answers | apply ddrCmdRow_answers | split

theorem execRemapCopyDone_answers {s : State} : Answers (execRemapCopyDone s) := by
  unfold execRemapCopyDone
  with_reducible repeat' first
    | assumption | extract_lets | apply next_answers | apply ite_answers | split

theorem execDdrRowRemap_answers {b} {v} {s : State} : Answers (execDdrRowRemap b v s) := by
  unfold execDdrRowRemap
  with_reducible repeat' first
    | assumption | extract_lets | apply next_answers | apply ite_answers | apply ddrCmdRow_answers | split

theorem execRetrainSlice_answers {c} {found} {s : State} : Answers (execRetrainSlice c found s) := by
  unfold execRetrainSlice
  with_reducible repeat' first
    | assumption | extract_lets | apply next_answers | apply ite_answers | split

theorem execDdrRetrain_answers {b} {v} {s : State} : Answers (execDdrRetrain b v s) := by
  unfold execDdrRetrain
  with_reducible repeat' first
    | assumption | extract_lets | apply next_answers | apply ite_answers | apply ddrCmdRow_answers | split

theorem execDqsDriftPoll_answers {taps} {s : State} : Answers (execDqsDriftPoll taps s) := by
  unfold execDqsDriftPoll
  with_reducible repeat' first
    | assumption | extract_lets | apply next_answers | apply ite_answers | split

theorem execRetrainIntervalExpiry_answers {s : State} : Answers (execRetrainIntervalExpiry s) := by
  unfold execRetrainIntervalExpiry
  with_reducible repeat' first
    | assumption | extract_lets | apply next_answers | apply ite_answers | split

theorem execDdrTrainingRetry_answers {s : State} : Answers (execDdrTrainingRetry s) := by
  unfold execDdrTrainingRetry
  with_reducible repeat' first
    | assumption | extract_lets | apply next_answers | apply ite_answers | split

theorem execDdrTrainingDone_answers {ok} {s : State} : Answers (execDdrTrainingDone ok s) := by
  unfold execDdrTrainingDone
  with_reducible repeat' first
    | assumption | extract_lets | apply next_answers | apply ite_answers | split

theorem execMr4Poll_answers {rates} {s : State} : Answers (execMr4Poll rates s) := by
  unfold execMr4Poll
  with_reducible repeat' first
    | assumption | extract_lets | apply next_answers | apply ite_answers | split

theorem execDramRefresh_answers {c} {s : State} : Answers (execDramRefresh c s) := by
  unfold execDramRefresh
  with_reducible repeat' first
    | assumption | extract_lets | apply next_answers | apply ite_answers | split

theorem execCorrectedWriteback_answers {s : State} : Answers (execCorrectedWriteback s) := by
  unfold execCorrectedWriteback
  with_reducible repeat' first
    | assumption | extract_lets | apply next_answers | apply ite_answers | split

theorem execDramTransaction_answers {ready} {ecc} {s : State} : Answers (execDramTransaction ready ecc s) := by
  unfold execDramTransaction
  with_reducible repeat' first
    | assumption | extract_lets | apply next_answers | apply ite_answers | split

theorem execLinkClear_answers {b} {n} {v} {s : State} : Answers (execLinkClear b n v s) := by
  unfold execLinkClear
  with_reducible repeat' first
    | assumption | extract_lets | apply next_answers | apply ite_answers | split

theorem execHeldRetrainApply_answers {n} {s : State} : Answers (execHeldRetrainApply n s) := by
  unfold execHeldRetrainApply
  with_reducible repeat' first
    | assumption | extract_lets | apply next_answers | apply ite_answers | split

theorem execLinkRetrain_answers {b} {n} {v} {s : State} : Answers (execLinkRetrain b n v s) := by
  unfold execLinkRetrain
  with_reducible repeat' first
    | assumption | extract_lets | apply next_answers | apply ite_answers | split

theorem execTrainingRetry_answers {n} {s : State} : Answers (execTrainingRetry n s) := by
  unfold execTrainingRetry
  with_reducible repeat' first
    | assumption | extract_lets | apply next_answers | apply ite_answers | split

theorem execTrainingComplete_answers {n} {s : State} : Answers (execTrainingComplete n s) := by
  unfold execTrainingComplete
  with_reducible repeat' first
    | assumption | extract_lets | apply next_answers | apply ite_answers | split

theorem execTrainingWaitEnd_answers {n} {s : State} : Answers (execTrainingWaitEnd n s) := by
  unfold execTrainingWaitEnd
  with_reducible repeat' first
    | assumption | extract_lets | apply next_answers | apply ite_answers | split

theorem execUclkLoss_answers {n} {s : State} : Answers (execUclkLoss n s) := by
  unfold execUclkLoss
  with_reducible repeat' first
    | assumption | extract_lets | apply next_answers | apply ite_answers | split

theorem execUplinkMissing_answers {n} {s : State} : Answers (execUplinkMissing n s) := by
  unfold execUplinkMissing
  with_reducible repeat' first
    | assumption | extract_lets | apply next_answers | apply ite_answers | split

theorem execUplinkFrame_answers {n} {bits} {rtt} {s : State} : Answers (execUplinkFrame n bits rtt s) := by
  unfold execUplinkFrame
  with_reducible repeat' first
    | assumption | extract_lets | apply next_answers | apply ite_answers | split

theorem execShortHoldEnd_answers {u} {s : State} : Answers (execShortHoldEnd u s) := by
  unfold execShortHoldEnd
  with_reducible repeat' first
    | assumption | extract_lets | apply next_answers | apply ite_answers | split

theorem execClearCf_answers {b} {u} {v} {s : State} : Answers (execClearCf b u v s) := by
  unfold execClearCf
  with_reducible repeat' first
    | assumption | extract_lets | apply next_answers | apply ite_answers | split

theorem execBrakeCurrentCheck_answers {u} {code} {s : State} : Answers (execBrakeCurrentCheck u code s) := by
  unfold execBrakeCurrentCheck
  with_reducible repeat' first
    | assumption | extract_lets | apply next_answers | apply ite_answers | split

theorem execBusLevelCrossing_answers {u} {mv} {s : State} : Answers (execBusLevelCrossing u mv s) := by
  unfold execBusLevelCrossing
  with_reducible repeat' first
    | assumption | extract_lets | apply next_answers | apply ite_answers | split

theorem execBldcLearnUpdate_answers {k} {s : State} : Answers (execBldcLearnUpdate k s) := by
  unfold execBldcLearnUpdate
  with_reducible repeat' first
    | assumption | extract_lets | apply next_answers | apply ite_answers | split

theorem execBldcRestart_answers {k} {s : State} : Answers (execBldcRestart k s) := by
  unfold execBldcRestart
  with_reducible repeat' first
    | assumption | extract_lets | apply next_answers | apply ite_answers | split

theorem execBldcBemfLost_answers {k} {s : State} : Answers (execBldcBemfLost k s) := by
  unfold execBldcBemfLost
  with_reducible repeat' first
    | assumption | extract_lets | apply next_answers | apply ite_answers | split

theorem execBldcStartFail_answers {k} {s : State} : Answers (execBldcStartFail k s) := by
  unfold execBldcStartFail
  with_reducible repeat' first
    | assumption | extract_lets | apply next_answers | apply ite_answers | split

theorem execBldcAlignEnd_answers {k} {s : State} : Answers (execBldcAlignEnd k s) := by
  unfold execBldcAlignEnd
  with_reducible repeat' first
    | assumption | extract_lets | apply next_answers | apply ite_answers | split

theorem execBldcCommutation_answers {k} {s : State} : Answers (execBldcCommutation k s) := by
  unfold execBldcCommutation
  with_reducible repeat' first
    | assumption | extract_lets | apply next_answers | apply ite_answers | split

theorem execBldcZeroCrossing_answers {k} {fwd} {s : State} : Answers (execBldcZeroCrossing k fwd s) := by
  unfold execBldcZeroCrossing
  with_reducible repeat' first
    | assumption | (extract_lets +onlyGivenNames x; clear_value x) | extract_lets | apply next_answers | apply ite_answers | split

theorem execBldcSenseEnd_answers {k} {s : State} : Answers (execBldcSenseEnd k s) := by
  unfold execBldcSenseEnd
  with_reducible repeat' first
    | assumption | extract_lets | apply next_answers | apply ite_answers | split

theorem execBldcStop_answers {b} {k} {s : State} : Answers (execBldcStop b k s) := by
  unfold execBldcStop
  with_reducible repeat' first
    | assumption | extract_lets | apply next_answers | apply ite_answers | apply blCmdRow_answers | split

theorem execBldcOff_answers {b} {k} {s : State} : Answers (execBldcOff b k s) := by
  unfold execBldcOff
  with_reducible repeat' first
    | assumption | extract_lets | apply next_answers | apply ite_answers | apply blCmdRow_answers | split

theorem execBldcOn_answers {b} {k} {s : State} : Answers (execBldcOn b k s) := by
  unfold execBldcOn
  with_reducible repeat' first
    | assumption | extract_lets | apply next_answers | apply ite_answers | apply blCmdRow_answers | split

theorem execHeldStepperCommandApply_answers {p} {s : State} : Answers (execHeldStepperCommandApply p s) := by
  unfold execHeldStepperCommandApply
  with_reducible repeat' first
    | assumption | extract_lets | apply next_answers | apply ite_answers | split

theorem stpCmdRow_answers {b} {p} {c} {s : State} : Answers (stpCmdRow b p c s) := by
  unfold stpCmdRow
  with_reducible repeat' first
    | assumption | extract_lets | apply next_answers | apply ite_answers | split

theorem execStepperResume_answers {b} {p} {s : State} : Answers (execStepperResume b p s) := by
  unfold execStepperResume
  with_reducible repeat' first
    | assumption | extract_lets | apply next_answers | apply ite_answers | apply stpCmdRow_answers | split

theorem execStepperUngear_answers {b} {p} {s : State} : Answers (execStepperUngear b p s) := by
  unfold execStepperUngear
  with_reducible repeat' first
    | assumption | extract_lets | apply next_answers | apply ite_answers | apply stpCmdRow_answers | split

theorem execStepperGear_answers {b} {p} {s : State} : Answers (execStepperGear b p s) := by
  unfold execStepperGear
  with_reducible repeat' first
    | assumption | extract_lets | apply next_answers | apply ite_answers | apply stpCmdRow_answers | split

theorem execStepperSetPos_answers {b} {p} {s : State} : Answers (execStepperSetPos b p s) := by
  unfold execStepperSetPos
  with_reducible repeat' first
    | assumption | extract_lets | apply next_answers | apply ite_answers | apply stpCmdRow_answers | split

theorem execStepperHome_answers {b} {p} {s : State} : Answers (execStepperHome b p s) := by
  unfold execStepperHome
  with_reducible repeat' first
    | assumption | extract_lets | apply next_answers | apply ite_answers | apply stpCmdRow_answers | split

theorem execStepperStop_answers {b} {p} {s : State} : Answers (execStepperStop b p s) := by
  unfold execStepperStop
  with_reducible repeat' first
    | assumption | extract_lets | apply next_answers | apply ite_answers | apply stpCmdRow_answers | split

theorem execHoldCurrentTimeout_answers {p} {s : State} : Answers (execHoldCurrentTimeout p s) := by
  unfold execHoldCurrentTimeout
  with_reducible repeat' first
    | assumption | extract_lets | apply next_answers | apply ite_answers | split

theorem execChopperOffEnd_answers {p} {coil} {s : State} : Answers (execChopperOffEnd p coil s) := by
  unfold execChopperOffEnd
  with_reducible repeat' first
    | assumption | extract_lets | apply next_answers | apply ite_answers | split

theorem execChopperTrip_answers {p} {coil} {s : State} : Answers (execChopperTrip p coil s) := by
  unfold execChopperTrip
  with_reducible repeat' first
    | assumption | extract_lets | apply next_answers | apply ite_answers | split

theorem execProfileTick_answers {p} {s : State} : Answers (execProfileTick p s) := by
  unfold execProfileTick
  with_reducible repeat' first
    | assumption | extract_lets | apply next_answers | apply ite_answers | split

theorem execCoefModeWrite_answers {b} {m} {v} {s : State} : Answers (execCoefModeWrite b m v s) := by
  unfold execCoefModeWrite
  with_reducible repeat' first
    | assumption | extract_lets | apply next_answers | apply ite_answers | split

theorem execCoefWrite_answers {b} {m} {k} {v} {s : State} : Answers (execCoefWrite b m k v s) := by
  unfold execCoefWrite
  with_reducible repeat' first
    | assumption | extract_lets | apply next_answers | apply ite_answers | split

theorem execTuneTimeout_answers {m} {s : State} : Answers (execTuneTimeout m s) := by
  unfold execTuneTimeout
  with_reducible repeat' first
    | assumption | extract_lets | apply next_answers | apply ite_answers | split

theorem execHeldLoopCommandApply_answers {m} {s : State} : Answers (execHeldLoopCommandApply m s) := by
  unfold execHeldLoopCommandApply
  with_reducible repeat' first
    | assumption | extract_lets | apply next_answers | apply ite_answers | split

theorem loopCmdRow_answers {b} {m} {c} {s : State} : Answers (loopCmdRow b m c s) := by
  unfold loopCmdRow
  with_reducible repeat' first
    | assumption | extract_lets | apply next_answers | apply ite_answers | split

theorem execAbortTune_answers {b} {m} {s : State} : Answers (execAbortTune b m s) := by
  unfold execAbortTune
  with_reducible repeat' first
    | assumption | extract_lets | apply next_answers | apply ite_answers | apply loopCmdRow_answers | split

theorem execLoopSwap_answers {b} {m} {s : State} : Answers (execLoopSwap b m s) := by
  unfold execLoopSwap
  with_reducible repeat' first
    | assumption | extract_lets | apply next_answers | apply ite_answers | apply loopCmdRow_answers | split

theorem execLoopTune_answers {b} {m} {s : State} : Answers (execLoopTune b m s) := by
  unfold execLoopTune
  with_reducible repeat' first
    | assumption | extract_lets | apply next_answers | apply ite_answers | apply loopCmdRow_answers | split

theorem execLoopClose_answers {b} {m} {s : State} : Answers (execLoopClose b m s) := by
  unfold execLoopClose
  with_reducible repeat' first
    | assumption | extract_lets | apply next_answers | apply ite_answers | apply loopCmdRow_answers | split

theorem execLoopOpen_answers {b} {m} {s : State} : Answers (execLoopOpen b m s) := by
  unfold execLoopOpen
  with_reducible repeat' first
    | assumption | extract_lets | apply next_answers | apply ite_answers | apply loopCmdRow_answers | split

theorem execLoopEvaluation_answers {m} {ecc} {s : State} : Answers (execLoopEvaluation m ecc s) := by
  unfold execLoopEvaluation
  with_reducible repeat' first
    | assumption | extract_lets | apply next_answers | apply ite_answers | split

theorem execDatapathFrameBoundary_answers {d} {ecc} {s : State} : Answers (execDatapathFrameBoundary d ecc s) := by
  unfold execDatapathFrameBoundary
  with_reducible repeat' first
    | assumption | extract_lets | apply next_answers | apply ite_answers | split

theorem execDwellCut_answers {n} {s : State} : Answers (execDwellCut n s) := by
  unfold execDwellCut
  with_reducible repeat' first
    | assumption | extract_lets | apply next_answers | apply ite_answers | split

theorem execLaserAlarm_answers {n} {s : State} : Answers (execLaserAlarm n s) := by
  unfold execLaserAlarm
  with_reducible repeat' first
    | assumption | extract_lets | apply next_answers | apply ite_answers | split

theorem execLaserReadyTimeout_answers {n} {s : State} : Answers (execLaserReadyTimeout n s) := by
  unfold execLaserReadyTimeout
  with_reducible repeat' first
    | assumption | extract_lets | apply next_answers | apply ite_answers | split

theorem execLaserPark_answers {b} {n} {v} {s : State} : Answers (execLaserPark b n v s) := by
  unfold execLaserPark
  with_reducible repeat' first
    | assumption | extract_lets | apply next_answers | apply ite_answers | apply laserPortWrite_answers | split

theorem execGridCopyBack_answers {b} {n} {v} {s : State} : Answers (execGridCopyBack b n v s) := by
  unfold execGridCopyBack
  with_reducible repeat' first
    | assumption | extract_lets | apply next_answers | apply ite_answers | apply laserPortWrite_answers | split

theorem execGridSwapApply_answers {n} {s : State} : Answers (execGridSwapApply n s) := by
  unfold execGridSwapApply
  with_reducible repeat' first
    | assumption | extract_lets | apply next_answers | apply ite_answers | split

theorem execGridSwap_answers {b} {n} {v} {s : State} : Answers (execGridSwap b n v s) := by
  unfold execGridSwap
  with_reducible repeat' first
    | assumption | extract_lets | apply next_answers | apply ite_answers | apply laserPortWrite_answers | split

theorem execSettleTimeout_answers {n} {s : State} : Answers (execSettleTimeout n s) := by
  unfold execSettleTimeout
  with_reducible repeat' first
    | assumption | extract_lets | apply next_answers | apply ite_answers | split

theorem execSettleDone_answers {n} {s : State} : Answers (execSettleDone n s) := by
  unfold execSettleDone
  with_reducible repeat' first
    | assumption | extract_lets | apply next_answers | apply ite_answers | split

theorem execWaitPosRelease_answers {n} {s : State} : Answers (execWaitPosRelease n s) := by
  unfold execWaitPosRelease
  with_reducible repeat' first
    | assumption | extract_lets | apply next_answers | apply ite_answers | split

theorem execVectorRecordComplete_answers {n} {s : State} : Answers (execVectorRecordComplete n s) := by
  unfold execVectorRecordComplete
  with_reducible repeat' first
    | assumption | extract_lets | apply next_answers | apply ite_answers | split

theorem execEndRecord_answers {n} {s : State} : Answers (execEndRecord n s) := by
  unfold execEndRecord
  with_reducible repeat' first
    | assumption | extract_lets | apply next_answers | apply ite_answers | split

theorem execSyncTrack_answers {n} {s : State} : Answers (execSyncTrack n s) := by
  unfold execSyncTrack
  with_reducible repeat' first
    | assumption | extract_lets | apply next_answers | apply ite_answers | apply State.zeroRow_answers | split

theorem execWaitPos_answers {n} {s : State} : Answers (execWaitPos n s) := by
  unfold execWaitPos
  with_reducible repeat' first
    | assumption | extract_lets | apply next_answers | apply ite_answers | split

theorem execDelays_answers {n} {s : State} : Answers (execDelays n s) := by
  unfold execDelays
  with_reducible repeat' first
    | assumption | extract_lets | apply next_answers | apply ite_answers | apply State.zeroRow_answers | split

theorem execFreq_answers {n} {s : State} : Answers (execFreq n s) := by
  unfold execFreq
  with_reducible repeat' first
    | assumption | extract_lets | apply next_answers | apply ite_answers | apply State.zeroRow_answers | split

theorem execPower_answers {n} {s : State} : Answers (execPower n s) := by
  unfold execPower
  with_reducible repeat' first
    | assumption | extract_lets | apply next_answers | apply ite_answers | apply State.zeroRow_answers | split

theorem execDot_answers {n} {s : State} : Answers (execDot n s) := by
  unfold execDot
  with_reducible repeat' first
    | assumption | extract_lets | apply next_answers | apply ite_answers | split

theorem execMark_answers {n} {s : State} : Answers (execMark n s) := by
  unfold execMark
  with_reducible repeat' first
    | assumption | extract_lets | apply next_answers | apply ite_answers | split

theorem execJump_answers {n} {s : State} : Answers (execJump n s) := by
  unfold execJump
  with_reducible repeat' first
    | assumption | extract_lets | apply next_answers | apply ite_answers | split

theorem execVectorBlockStart_answers {n} {ecc} {pre} {s : State} : Answers (execVectorBlockStart n ecc pre s) := by
  unfold execVectorBlockStart
  with_reducible repeat' first
    | assumption | extract_lets | apply next_answers | apply ite_answers | split

theorem execTagWritebackRetry_answers {n} {s : State} : Answers (execTagWritebackRetry n s) := by
  unfold execTagWritebackRetry
  with_reducible repeat' first
    | assumption | extract_lets | apply next_answers | apply ite_answers | split

theorem execTagWritebackDone_answers {n} {ok} {s : State} : Answers (execTagWritebackDone n ok s) := by
  unfold execTagWritebackDone
  with_reducible repeat' first
    | assumption | extract_lets | apply next_answers | apply ite_answers | split

theorem execTagWriteback_answers {b} {n} {v} {s : State} : Answers (execTagWriteback b n v s) := by
  unfold execTagWriteback
  with_reducible repeat' first
    | assumption | extract_lets | apply next_answers | apply ite_answers | split

theorem execTagAuthDone_answers {n} {reply} {s : State} : Answers (execTagAuthDone n reply s) := by
  unfold execTagAuthDone
  with_reducible repeat' first
    | assumption | extract_lets | apply next_answers | apply ite_answers | split

theorem execTagPresencePoll_answers {n} {uid} {s : State} : Answers (execTagPresencePoll n uid s) := by
  unfold execTagPresencePoll
  with_reducible repeat' first
    | assumption | extract_lets | apply next_answers | apply ite_answers | split

theorem execTagAuth_answers {b} {n} {v} {s : State} : Answers (execTagAuth b n v s) := by
  unfold execTagAuth
  with_reducible repeat' first
    | assumption | extract_lets | apply next_answers | apply ite_answers | split

theorem execAuditRestart_answers {b} {n} {v} {s : State} : Answers (execAuditRestart b n v s) := by
  unfold execAuditRestart
  with_reducible repeat' first
    | assumption | extract_lets | apply next_answers | apply ite_answers | split

theorem execAuditPulse_answers {n} {codes} {s : State} : Answers (execAuditPulse n codes s) := by
  unfold execAuditPulse
  with_reducible repeat' first
    | assumption | extract_lets | apply next_answers | apply ite_answers | split

theorem execHeadShutdownSoot_answers {n} {s : State} : Answers (execHeadShutdownSoot n s) := by
  unfold execHeadShutdownSoot
  with_reducible repeat' first
    | assumption | extract_lets | apply next_answers | apply ite_answers | split

theorem execHeadTempSample_answers {n} {code} {s : State} : Answers (execHeadTempSample n code s) := by
  unfold execHeadTempSample
  with_reducible repeat' first
    | assumption | extract_lets | apply next_answers | apply ite_answers | split

theorem execStrobeTimerExpiry_answers {n} {g} {held} {s : State} : Answers (execStrobeTimerExpiry n g held s) := by
  unfold execStrobeTimerExpiry
  with_reducible repeat' first
    | assumption | extract_lets | apply next_answers | apply ite_answers | split

theorem execEmberCopyBack_answers {b} {n} {v} {s : State} : Answers (execEmberCopyBack b n v s) := by
  unfold execEmberCopyBack
  with_reducible repeat' first
    | assumption | extract_lets | apply next_answers | apply ite_answers | split

theorem execEmberSwapApply_answers {n} {s : State} : Answers (execEmberSwapApply n s) := by
  unfold execEmberSwapApply
  with_reducible repeat' first
    | assumption | extract_lets | apply next_answers | apply ite_answers | split

theorem execEmberSwap_answers {b} {n} {v} {s : State} : Answers (execEmberSwap b n v s) := by
  unfold execEmberSwap
  with_reducible repeat' first
    | assumption | extract_lets | apply next_answers | apply ite_answers | split

theorem execReadbackCheck_answers {n} {rx} {s : State} : Answers (execReadbackCheck n rx s) := by
  unfold execReadbackCheck
  with_reducible repeat' first
    | assumption | extract_lets | apply next_answers | apply ite_answers | split

theorem execDummyShiftStart_answers {n} {s : State} : Answers (execDummyShiftStart n s) := by
  unfold execDummyShiftStart
  with_reducible repeat' first
    | assumption | extract_lets | apply next_answers | apply ite_answers | split

theorem execEmberComputeDone_answers {n} {table} {ring} {s : State} : Answers (execEmberComputeDone n table ring s) := by
  unfold execEmberComputeDone
  with_reducible repeat' first
    | assumption | extract_lets | apply next_answers | apply ite_answers | split

theorem execLineDeferredFire_answers {n} {pinBad} {s : State} : Answers (execLineDeferredFire n pinBad s) := by
  unfold execLineDeferredFire
  with_reducible repeat' first
    | assumption | extract_lets | apply next_answers | apply ite_answers | split

theorem execSerialSetLimit_answers {b} {v} {s : State} : Answers (execSerialSetLimit b v s) := by
  unfold execSerialSetLimit
  with_reducible repeat' first
    | assumption | extract_lets | apply next_answers | apply ite_answers | split

theorem execSerialSetNext_answers {b} {v} {s : State} : Answers (execSerialSetNext b v s) := by
  unfold execSerialSetNext
  with_reducible repeat' first
    | assumption | extract_lets | apply next_answers | apply ite_answers | split

theorem execTemplateUnload_answers {b} {v} {s : State} : Answers (execTemplateUnload b v s) := by
  unfold execTemplateUnload
  with_reducible repeat' first
    | assumption | extract_lets | apply next_answers | apply ite_answers | split

theorem execTemplateLoadDone_answers {s : State} : Answers (execTemplateLoadDone s) := by
  unfold execTemplateLoadDone
  with_reducible repeat' first
    | assumption | extract_lets | apply next_answers | apply ite_answers | split

theorem execTemplateLoad_answers {b} {v} {s : State} : Answers (execTemplateLoad b v s) := by
  unfold execTemplateLoad
  with_reducible repeat' first
    | assumption | extract_lets | apply next_answers | apply ite_answers | split

theorem execRenderPauseEnd_answers {e} {s : State} : Answers (execRenderPauseEnd e s) := by
  unfold execRenderPauseEnd
  with_reducible repeat' first
    | assumption | extract_lets | apply next_answers | apply ite_answers | split

theorem execEngineSelftestDone_answers {e} {pass} {s : State} : Answers (execEngineSelftestDone e pass s) := by
  unfold execEngineSelftestDone
  with_reducible repeat' first
    | assumption | extract_lets | apply next_answers | apply ite_answers | split

theorem execEngineEccFault_answers {e} {s : State} : Answers (execEngineEccFault e s) := by
  unfold execEngineEccFault
  with_reducible repeat' first
    | assumption | extract_lets | apply next_answers | apply ite_answers | split

theorem execRenderStallTimeout_answers {e} {s : State} : Answers (execRenderStallTimeout e s) := by
  unfold execRenderStallTimeout
  with_reducible repeat' first
    | assumption | extract_lets | apply next_answers | apply ite_answers | split

theorem execRenderCommit_answers {e} {verify} {s : State} : Answers (execRenderCommit e verify s) := by
  unfold execRenderCommit
  with_reducible repeat' first
    | assumption | (extract_lets +onlyGivenNames x; clear_value x) | extract_lets | apply next_answers | apply ite_answers | split

theorem execRenderDispatch_answers {s : State} : Answers (execRenderDispatch s) := by
  unfold execRenderDispatch
  with_reducible repeat' first
    | assumption | (extract_lets +onlyGivenNames x; clear_value x) | extract_lets | apply next_answers | apply ite_answers | split

theorem execRenderQueueEnter_answers {s : State} : Answers (execRenderQueueEnter s) := by
  unfold execRenderQueueEnter
  with_reducible repeat' first
    | assumption | extract_lets | apply next_answers | apply ite_answers | split

theorem execSwapComplete_answers {n} {pass} {s : State} : Answers (execSwapComplete n pass s) := by
  unfold execSwapComplete
  with_reducible repeat' first
    | assumption | extract_lets | apply next_answers | apply ite_answers | split

theorem execSwapStart_answers {n} {s : State} : Answers (execSwapStart n s) := by
  unfold execSwapStart
  with_reducible repeat' first
    | assumption | extract_lets | apply next_answers | apply ite_answers | split

theorem execSeqHalt_answers {b} {n} {v} {s : State} : Answers (execSeqHalt b n v s) := by
  unfold execSeqHalt
  with_reducible repeat' first
    | assumption | extract_lets | apply next_answers | apply ite_answers | apply seqCtrlBus_answers | split

theorem execSeqRun_answers {b} {n} {v} {s : State} : Answers (execSeqRun b n v s) := by
  unfold execSeqRun
  with_reducible repeat' first
    | assumption | extract_lets | apply next_answers | apply ite_answers | apply seqCtrlBus_answers | split

theorem execProgramLoadDone_answers {n} {s : State} : Answers (execProgramLoadDone n s) := by
  unfold execProgramLoadDone
  with_reducible repeat' first
    | assumption | extract_lets | apply next_answers | apply ite_answers | split

theorem execProgramLoad_answers {b} {n} {v} {s : State} : Answers (execProgramLoad b n v s) := by
  unfold execProgramLoad
  with_reducible repeat' first
    | assumption | extract_lets | apply next_answers | apply ite_answers | apply seqCtrlBus_answers | split

theorem execSeqSelftestDone_answers {n} {pass} {s : State} : Answers (execSeqSelftestDone n pass s) := by
  unfold execSeqSelftestDone
  with_reducible repeat' first
    | assumption | extract_lets | apply next_answers | apply ite_answers | split

theorem execSeqSelftestStart_answers {n} {s : State} : Answers (execSeqSelftestStart n s) := by
  unfold execSeqSelftestStart
  with_reducible repeat' first
    | assumption | extract_lets | apply next_answers | apply ite_answers | split

theorem execSeqAccessFault_answers {n} {s : State} : Answers (execSeqAccessFault n s) := by
  unfold execSeqAccessFault
  with_reducible repeat' first
    | assumption | extract_lets | apply next_answers | apply ite_answers | split

theorem execSeqWatchdogExpiry_answers {n} {s : State} : Answers (execSeqWatchdogExpiry n s) := by
  unfold execSeqWatchdogExpiry
  with_reducible repeat' first
    | assumption | extract_lets | apply next_answers | apply ite_answers | split

theorem execTpKick_answers {n} {s : State} : Answers (execTpKick n s) := by
  unfold execTpKick
  with_reducible repeat' first
    | assumption | extract_lets | apply next_answers | apply ite_answers | apply State.port_answers | split

theorem execTpEventPop_answers {n} {s : State} : Answers (execTpEventPop n s) := by
  unfold execTpEventPop
  with_reducible repeat' first
    | assumption | extract_lets | apply next_answers | apply ite_answers | apply State.port_answers | split

theorem execTpJobPop_answers {n} {s : State} : Answers (execTpJobPop n s) := by
  unfold execTpJobPop
  with_reducible repeat' first
    | assumption | extract_lets | apply next_answers | apply ite_answers | apply State.port_answers | split

theorem execTpEdgeStatRead_answers {n} {s : State} : Answers (execTpEdgeStatRead n s) := by
  unfold execTpEdgeStatRead
  with_reducible repeat' first
    | assumption | extract_lets | apply next_answers | apply ite_answers | apply State.port_answers | split

theorem execEdgeQueueResume_answers {n} {s : State} : Answers (execEdgeQueueResume n s) := by
  unfold execEdgeQueueResume
  with_reducible repeat' first
    | assumption | extract_lets | apply next_answers | apply ite_answers | split

theorem execTpEdgeCmd_answers {n} {v} {s : State} : Answers (execTpEdgeCmd n v s) := by
  unfold execTpEdgeCmd
  with_reducible repeat' first
    | assumption | extract_lets | apply next_answers | apply ite_answers | apply State.port_answers | split

theorem execPredictionDone_answers {n} {s : State} : Answers (execPredictionDone n s) := by
  unfold execPredictionDone
  with_reducible repeat' first
    | assumption | extract_lets | apply next_answers | apply ite_answers | split

theorem execTpPredPos_answers {n} {v} {s : State} : Answers (execTpPredPos n v s) := by
  unfold execTpPredPos
  with_reducible repeat' first
    | assumption | extract_lets | apply next_answers | apply ite_answers | apply State.port_answers | split

theorem execWaitWake_answers {n} {s : State} : Answers (execWaitWake n s) := by
  unfold execWaitWake
  with_reducible repeat' first
    | assumption | extract_lets | apply next_answers | apply ite_answers | split

theorem execTpWaitTick_answers {n} {v} {s : State} : Answers (execTpWaitTick n v s) := by
  unfold execTpWaitTick
  with_reducible repeat' first
    | assumption | extract_lets | apply next_answers | apply ite_answers | apply State.port_answers | split

theorem execTpWaitPos_answers {n} {v} {s : State} : Answers (execTpWaitPos n v s) := by
  unfold execTpWaitPos
  with_reducible repeat' first
    | assumption | extract_lets | apply next_answers | apply ite_answers | apply State.port_answers | split

theorem execTpPosCapture_answers {n} {s : State} : Answers (execTpPosCapture n s) := by
  unfold execTpPosCapture
  with_reducible repeat' first
    | assumption | extract_lets | apply next_answers | apply ite_answers | apply State.port_answers | split

theorem execTpTscCapture_answers {n} {s : State} : Answers (execTpTscCapture n s) := by
  unfold execTpTscCapture
  with_reducible repeat' first
    | assumption | extract_lets | apply next_answers | apply ite_answers | apply State.port_answers | split

theorem execChannelStop_answers {b} {u} {s : State} : Answers (execChannelStop b u s) := by
  unfold execChannelStop
  with_reducible repeat' first
    | assumption | extract_lets | apply next_answers | apply ite_answers | split

theorem execChannelStart_answers {b} {u} {s : State} : Answers (execChannelStart b u s) := by
  unfold execChannelStart
  with_reducible repeat' first
    | assumption | extract_lets | apply next_answers | apply ite_answers | split

theorem execMarkStall_answers {n} {s : State} : Answers (execMarkStall n s) := by
  unfold execMarkStall
  with_reducible repeat' first
    | assumption | extract_lets | apply next_answers | apply ite_answers | split

theorem execTpCond_answers {n} {v} {s : State} : Answers (execTpCond n v s) := by
  unfold execTpCond
  with_reducible repeat' first
    | assumption | extract_lets | apply next_answers | apply ite_answers | split

theorem execJobEndDeferredApply_answers {n} {s : State} : Answers (execJobEndDeferredApply n s) := by
  unfold execJobEndDeferredApply
  with_reducible repeat' first
    | assumption | extract_lets | apply next_answers | apply ite_answers | split

theorem execTpJobEnd_answers {n} {v} {s : State} : Answers (execTpJobEnd n v s) := by
  unfold execTpJobEnd
  with_reducible repeat' first
    | assumption | extract_lets | apply next_answers | apply ite_answers | split

theorem execMarkingStart_answers {n} {j} {s : State} : Answers (execMarkingStart n j s) := by
  unfold execMarkingStart
  with_reducible repeat' first
    | assumption | extract_lets | apply next_answers | apply ite_answers | split

theorem execArmCheck_answers {n} {j} {s : State} : Answers (execArmCheck n j s) := by
  unfold execArmCheck
  with_reducible repeat' first
    | assumption | extract_lets | apply next_answers | apply ite_answers | split

theorem execStationAdmission_answers {k} {s : State} : Answers (execStationAdmission k s) := by
  unfold execStationAdmission
  with_reducible repeat' first
    | assumption | extract_lets | apply next_answers | apply ite_answers | split

theorem execJobAdmission_answers {n} {s : State} : Answers (execJobAdmission n s) := by
  unfold execJobAdmission
  with_reducible repeat' first
    | assumption | extract_lets | apply next_answers | apply ite_answers | split

theorem execLineStopHoldEnd_answers {s : State} : Answers (execLineStopHoldEnd s) := by
  unfold execLineStopHoldEnd
  with_reducible repeat' first
    | assumption | extract_lets | apply next_answers | apply ite_answers | split

theorem execRejectOutputConfig_answers {b} {j} {v} {s : State} : Answers (execRejectOutputConfig b j v s) := by
  unfold execRejectOutputConfig
  with_reducible repeat' first
    | assumption | extract_lets | apply next_answers | apply ite_answers | split

theorem execComparePulse_answers {j} {s : State} : Answers (execComparePulse j s) := by
  unfold execComparePulse
  with_reducible repeat' first
    | assumption | extract_lets | apply next_answers | apply ite_answers | split

theorem execRejectMismatch_answers {j} {pin} {s : State} : Answers (execRejectMismatch j pin s) := by
  unfold execRejectMismatch
  with_reducible repeat' first
    | assumption | extract_lets | apply next_answers | apply ite_answers | split

theorem execTrackingEntryFree_answers {t} {s : State} : Answers (execTrackingEntryFree t s) := by
  unfold execTrackingEntryFree
  with_reducible repeat' first
    | assumption | extract_lets | apply next_answers | apply ite_answers | split

theorem execRejectWindowEnd_answers {j} {s : State} : Answers (execRejectWindowEnd j s) := by
  unfold execRejectWindowEnd
  with_reducible repeat' first
    | assumption | extract_lets | apply next_answers | apply ite_answers | split

theorem execRejectDecision_answers {t} {s : State} : Answers (execRejectDecision t s) := by
  unfold execRejectDecision
  with_reducible repeat' first
    | assumption | extract_lets | apply next_answers | apply ite_answers | split

theorem execRejectHoldEnd_answers {j} {e} {s : State} : Answers (execRejectHoldEnd j e s) := by
  unfold execRejectHoldEnd
  with_reducible repeat' first
    | assumption | extract_lets | apply next_answers | apply ite_answers | split

theorem execRejectHoldStart_answers {j} {e} {s : State} : Answers (execRejectHoldStart j e s) := by
  unfold execRejectHoldStart
  with_reducible repeat' first
    | assumption | extract_lets | apply next_answers | apply ite_answers | split

theorem execPdEnable_answers {b} {i} {v} {s : State} : Answers (execPdEnable b i v s) := by
  unfold execPdEnable
  with_reducible repeat' first
    | assumption | extract_lets | apply next_answers | apply ite_answers | split

theorem execPdStuck_answers {i} {s : State} : Answers (execPdStuck i s) := by
  unfold execPdStuck
  with_reducible repeat' first
    | assumption | extract_lets | apply next_answers | apply ite_answers | split

theorem execProductQualify_answers {i} {s : State} : Answers (execProductQualify i s) := by
  unfold execProductQualify
  with_reducible repeat' first
    | assumption | extract_lets | apply next_answers | apply ite_answers | split

theorem execEncoderStopTimeout_answers {e} {s : State} : Answers (execEncoderStopTimeout e s) := by
  unfold execEncoderStopTimeout
  with_reducible repeat' first
    | assumption | extract_lets | apply next_answers | apply ite_answers | split

theorem execEncoderEnable_answers {b} {e} {v} {a} {lvlB} {z} {s : State} : Answers (execEncoderEnable b e v a lvlB z s) := by
  unfold execEncoderEnable
  with_reducible repeat' first
    | assumption | extract_lets | apply next_answers | apply ite_answers | split

theorem execInputFilterAccept_answers {i} {held} {s : State} : Answers (execInputFilterAccept i held s) := by
  unfold execInputFilterAccept
  with_reducible repeat' first
    | assumption | extract_lets | apply next_answers | apply ite_answers | split

theorem execScheduledEdgeRelease_answers {n} {pinBad} {s : State} : Answers (execScheduledEdgeRelease n pinBad s) := by
  unfold execScheduledEdgeRelease
  with_reducible repeat' first
    | assumption | extract_lets | apply next_answers | apply ite_answers | split

theorem execTscCopyCheck_answers {_island} {copy} {s : State} : Answers (execTscCopyCheck _island copy s) := by
  unfold execTscCopyCheck
  with_reducible repeat' first
    | assumption | extract_lets | apply next_answers | apply ite_answers | split

theorem execAcvLogClear_answers {b} {s : State} : Answers (execAcvLogClear b s) := by
  unfold execAcvLogClear
  with_reducible repeat' first
    | assumption | extract_lets | apply next_answers | apply ite_answers | split

theorem execSootClear_answers {b} {p} {v} {persist} {s : State} : Answers (execSootClear b p v persist s) := by
  unfold execSootClear
  with_reducible repeat' first
    | assumption | extract_lets | apply next_answers | apply ite_answers | split

theorem execPageLock_answers {b} {p} {v} {s : State} : Answers (execPageLock b p v s) := by
  unfold execPageLock
  with_reducible repeat' first
    | assumption | extract_lets | apply next_answers | apply ite_answers | split

theorem execErrcntClear_answers {b} {p} {s : State} : Answers (execErrcntClear b p s) := by
  unfold execErrcntClear
  with_reducible repeat' first
    | assumption | extract_lets | apply next_answers | apply ite_answers | split

theorem execHeldControlApply_answers {n} {s : State} : Answers (execHeldControlApply n s) := by
  unfold execHeldControlApply
  with_reducible repeat' first
    | assumption | extract_lets | apply next_answers | apply ite_answers | split

theorem execUnitEnable_answers {b} {p} {v} {s : State} : Answers (execUnitEnable b p v s) := by
  unfold execUnitEnable
  with_reducible repeat' first
    | assumption | extract_lets | apply next_answers | apply ite_answers | split

theorem execSoftReset_answers {b} {p} {v} {s : State} : Answers (execSoftReset b p v s) := by
  unfold execSoftReset
  with_reducible repeat' first
    | assumption | extract_lets | apply next_answers | apply ite_answers | split

theorem execAclWrite_answers {b} {p} {v} {s : State} : Answers (execAclWrite b p v s) := by
  unfold execAclWrite
  with_reducible repeat' first
    | assumption | extract_lets | apply next_answers | apply ite_answers | split

theorem portWrite_answers {n} {off} {v} {s : State} : Answers (portWrite n off v s) := by
  unfold portWrite
  with_reducible repeat' first
    | assumption | extract_lets | apply next_answers | apply ite_answers | apply execTpKick_answers | apply execTpCond_answers | apply execTpJobEnd_answers | apply execTpEdgeCmd_answers | apply execTpPredPos_answers | apply execTpWaitTick_answers | apply execTpWaitPos_answers | apply State.port_answers | split

theorem execRegisterWrite_answers {b} {t} {size} {v} {s : State} : Answers (execRegisterWrite b t size v s) := by
  unfold execRegisterWrite
  with_reducible repeat' first
    | assumption | extract_lets | apply next_answers | apply ite_answers | apply portWrite_answers | apply anyWrite_answers | split

end Sys2Proof.Machine
end

