-- ==== Sys2Proof/Laws/Tables.lean ====
section
/-! SUPPORT. Laws of the sparse tables: read after write, and the canonical form kept by every table operation. -/
namespace Sys2Proof.Machine

variable {α : Type}

/-! ### Read after write -/

theorem tabGet_ins_same (d : α) (t : Tab α) (k : Nat) (v : α) : tabGet d (tabIns t k v) k = v := by
  induction t with
  | nil => simp [tabIns, tabGet]
  | cons e t ih =>
    simp only [tabIns]
    split
    · next h => simp [tabGet, Nat.ne_of_lt h, ih]
    · simp [tabGet]

theorem tabGet_ins_other (d : α) (t : Tab α) {k j : Nat} (v : α) (h : j ≠ k) :
    tabGet d (tabIns t k v) j = tabGet d t j := by
  induction t with
  | nil => simp [tabIns, tabGet, h.symm]
  | cons e t ih =>
    simp only [tabIns]
    split
    · simp [tabGet, ih]
    · simp [tabGet, h.symm]

theorem tabGet_filter_out (d : α) (t : Tab α) (p : Nat × α → Bool) {j : Nat} (h : ∀ v, p (j, v) = false) :
    tabGet d (t.filter p) j = d := by
  induction t with
  | nil => rfl
  | cons e t ih =>
    by_cases hp : p e
    · have hj : e.1 ≠ j := by
        rintro rfl
        have := h e.2
        simp_all
      simpa [List.filter_cons, hp, tabGet, hj] using ih
    · simpa [List.filter_cons, hp] using ih

theorem tabGet_filter_in (d : α) (t : Tab α) (p : Nat × α → Bool) {j : Nat} (h : ∀ v, p (j, v) = true) :
    tabGet d (t.filter p) j = tabGet d t j := by
  induction t with
  | nil => rfl
  | cons e t ih =>
    by_cases hp : p e
    · simp [hp, tabGet, ih]
    · have hj : e.1 ≠ j := by
        rintro rfl
        exact hp (h e.2)
      simp [hp, tabGet, hj, ih]

theorem tabGet_erase_same (d : α) (t : Tab α) (k : Nat) : tabGet d (tabErase t k) k = d :=
  tabGet_filter_out d t _ (by simp)

theorem tabGet_erase_other (d : α) (t : Tab α) {k j : Nat} (h : j ≠ k) :
    tabGet d (tabErase t k) j = tabGet d t j :=
  tabGet_filter_in d t _ (by simp [h])

/-- A key reads as what was last put there. -/
theorem tabGet_put_same [DecidableEq α] (d : α) (t : Tab α) (k : Nat) (v : α) :
    tabGet d (tabPut d t k v) k = v := by
  unfold tabPut
  split
  · next h => rw [tabGet_erase_same, h]
  · exact tabGet_ins_same ..

/-- Putting at one key leaves what every other key reads as. -/
theorem tabGet_put_other [DecidableEq α] (d d' : α) (t : Tab α) {k j : Nat} (v : α) (h : j ≠ k) :
    tabGet d (tabPut d' t k v) j = tabGet d t j := by
  unfold tabPut
  split
  · exact tabGet_erase_other d t h
  · rw [tabGet_ins_other d _ v h, tabGet_erase_other d t h]

/-! ### The canonical form -/

theorem tabSorted_cons (e : Nat × α) (t : Tab α) :
    tabSorted (e :: t) = true ↔ (∀ x ∈ t, e.1 < x.1) ∧ tabSorted t = true := by
  induction t generalizing e with
  | nil => simp [tabSorted]
  | cons f t ih =>
    constructor
    · intro h
      have h' : e.1 < f.1 ∧ tabSorted (f :: t) = true := by simpa [tabSorted] using h
      refine ⟨?_, h'.2⟩
      have hf := ((ih f).1 h'.2).1
      intro x hx
      rcases List.mem_cons.1 hx with rfl | hx
      · exact h'.1
      · exact Nat.lt_trans h'.1 (hf x hx)
    · rintro ⟨h1, h2⟩
      simpa [tabSorted, h2] using h1 f (List.mem_cons_self ..)

theorem tabSorted_filter (t : Tab α) (p : Nat × α → Bool) (h : tabSorted t = true) :
    tabSorted (t.filter p) = true := by
  induction t with
  | nil => rfl
  | cons e t ih =>
    obtain ⟨h1, h2⟩ := (tabSorted_cons e t).1 h
    by_cases hp : p e
    · rw [List.filter_cons_of_pos hp]
      exact (tabSorted_cons ..).2 ⟨fun x hx => h1 x (List.mem_filter.1 hx).1, ih h2⟩
    · rw [List.filter_cons_of_neg hp]
      exact ih h2

theorem mem_tabIns {t : Tab α} {k : Nat} {v : α} {x : Nat × α} (h : x ∈ tabIns t k v) : x = (k, v) ∨ x ∈ t := by
  induction t with
  | nil => simpa [tabIns] using h
  | cons e t ih =>
    simp only [tabIns] at h
    split at h
    · rcases List.mem_cons.1 h with rfl | h
      · exact .inr (List.mem_cons_self ..)
      · exact (ih h).imp id (List.mem_cons_of_mem _)
    · exact List.mem_cons.1 h

theorem tabSorted_ins (t : Tab α) (k : Nat) (v : α) (hk : ∀ x ∈ t, x.1 ≠ k) (h : tabSorted t = true) :
    tabSorted (tabIns t k v) = true := by
  induction t with
  | nil => rfl
  | cons e t ih =>
    obtain ⟨h1, h2⟩ := (tabSorted_cons e t).1 h
    simp only [tabIns]
    split
    · next hlt =>
      refine (tabSorted_cons ..).2 ⟨fun x hx => ?_, ih (fun x hx => hk x (List.mem_cons_of_mem _ hx)) h2⟩
      rcases mem_tabIns hx with rfl | hx
      · exact hlt
      · exact h1 x hx
    · next hlt =>
      refine (tabSorted_cons ..).2 ⟨fun x hx => ?_, h⟩
      have hek : k < e.1 := Nat.lt_of_le_of_ne (Nat.le_of_not_lt hlt) (hk e (List.mem_cons_self ..)).symm
      rcases List.mem_cons.1 hx with rfl | hx
      · exact hek
      · exact Nat.lt_trans hek (h1 x hx)

variable [DecidableEq α]

theorem tabWf_iff (d : Nat → α) (t : Tab α) :
    tabWf d t = true ↔ tabSorted t = true ∧ ∀ x ∈ t, x.2 ≠ d x.1 := by
  simp [tabWf]

/-- Dropping entries keeps the canonical form. -/
theorem tabWf_filter (d : Nat → α) (t : Tab α) (p : Nat × α → Bool) (h : tabWf d t = true) :
    tabWf d (t.filter p) = true := by
  obtain ⟨h1, h2⟩ := (tabWf_iff d t).1 h
  exact (tabWf_iff d _).2 ⟨tabSorted_filter t p h1, fun x hx => h2 x (List.mem_filter.1 hx).1⟩

/-- Putting a value keeps the canonical form. -/
theorem tabWf_put (d : Nat → α) (t : Tab α) (k : Nat) (v : α) (h : tabWf d t = true) :
    tabWf d (tabPut (d k) t k v) = true := by
  unfold tabPut
  have he := tabWf_filter d t (fun e => e.1 != k) h
  split
  · exact he
  · next hv =>
    obtain ⟨h1, h2⟩ := (tabWf_iff d _).1 he
    refine (tabWf_iff d _).2 ⟨tabSorted_ins _ k v (fun x hx => ?_) h1, fun x hx => ?_⟩
    · simpa using (List.mem_filter.1 hx).2
    · rcases mem_tabIns hx with rfl | hx
      · exact hv
      · exact h2 x hx

/-! ### Registers and memory -/

/-- A register reads as what was last written to it. -/
@[simp] theorem State.rd_wr_same (s : State) (a : Nat) (v : Word) : (s.wr a v).rd a = v :=
  tabGet_put_same ..

/-- Writing one register leaves every other register. -/
theorem State.rd_wr_other (s : State) {a b : Nat} (v : Word) (h : b ≠ a) : (s.wr a v).rd b = s.rd b :=
  tabGet_put_other _ _ _ v h

/-- A byte reads as what was last written to it. -/
@[simp] theorem State.rdByte_wrByte_same (s : State) (a : Nat) (b : Byte) : (s.wrByte a b).rdByte a = b :=
  tabGet_put_same ..

/-- Writing one byte leaves every other byte. -/
theorem State.rdByte_wrByte_other (s : State) {a c : Nat} (b : Byte) (h : c ≠ a) :
    (s.wrByte a b).rdByte c = s.rdByte c :=
  tabGet_put_other _ _ _ b h

/-- Bytes written from `a` up leave every byte outside them. -/
theorem State.rdByte_wrMem_outside (s : State) (a c : Nat) (l : List Byte) (h : c < a ∨ a + l.length ≤ c) :
    (s.wrMem a l).rdByte c = s.rdByte c := by
  induction l generalizing s a with
  | nil => rfl
  | cons b t ih =>
    simp only [List.length_cons] at h
    rw [State.wrMem, ih _ _ (by omega), State.rdByte_wrByte_other _ _ (by omega)]

/-- A byte inside bytes written from `a` up reads as its byte of the list. -/
theorem State.rdByte_wrMem_inside (s : State) (a i : Nat) (l : List Byte) (h : i < l.length) :
    (s.wrMem a l).rdByte (a + i) = l[i] := by
  induction l generalizing s a i with
  | nil => simp at h
  | cons b t ih =>
    cases i with
    | zero => rw [State.wrMem, State.rdByte_wrMem_outside _ _ _ _ (by omega)]; simp
    | succ i =>
      have := ih (s.wrByte a b) (a + 1) i (by simpa using h)
      rw [State.wrMem, List.getElem_cons_succ, ← this]
      congr 1
      omega

/-- A memory's canonical form: writing a byte keeps it. -/
theorem Memory.wf_put (d : Byte) (m : List Host.Cell) (a : Nat) (b : Byte) (h : Memory.wf d m = true) :
    Memory.wf d (tabPut d m a b) = true :=
  tabWf_put (fun _ => d) m a b h

/-- A memory's canonical form: blanking bytes keeps it. -/
theorem Memory.wf_filter (d : Byte) (m : List Host.Cell) (p : Host.Cell → Bool) (h : Memory.wf d m = true) :
    Memory.wf d (m.filter p) = true :=
  tabWf_filter (fun _ => d) m p h

end Sys2Proof.Machine
end

