-- ==== Sys2Proof/Laws/State.lean ====
section
/-! SUPPORT. One lemma per field of the state for each primitive update: what the update leaves, and what it sets. -/
namespace Sys2Proof.Machine

/-! ### The fields each update leaves -/

section
variable (s : State)

@[simp] theorem State.wr_mem (a : Nat) (v : Word) : (s.wr a v).mem = s.mem := by cases s; rfl
@[simp] theorem State.wr_flash (a : Nat) (v : Word) : (s.wr a v).flash = s.flash := by cases s; rfl
@[simp] theorem State.wr_lin (a : Nat) (v : Word) : (s.wr a v).lin = s.lin := by cases s; rfl
@[simp] theorem State.wr_jobs (a : Nat) (v : Word) : (s.wr a v).jobs = s.jobs := by cases s; rfl
@[simp] theorem State.wr_dmk (a : Nat) (v : Word) : (s.wr a v).dmk = s.dmk := by cases s; rfl
@[simp] theorem State.wr_thermal (a : Nat) (v : Word) : (s.wr a v).thermal = s.thermal := by cases s; rfl
@[simp] theorem State.wr_laser (a : Nat) (v : Word) : (s.wr a v).laser = s.laser := by cases s; rfl
@[simp] theorem State.wr_loops (a : Nat) (v : Word) : (s.wr a v).loops = s.loops := by cases s; rfl
@[simp] theorem State.wr_drives (a : Nat) (v : Word) : (s.wr a v).drives = s.drives := by cases s; rfl
@[simp] theorem State.wr_link (a : Nat) (v : Word) : (s.wr a v).link = s.link := by cases s; rfl
@[simp] theorem State.wr_ddr (a : Nat) (v : Word) : (s.wr a v).ddr = s.ddr := by cases s; rfl
@[simp] theorem State.wr_srm (a : Nat) (v : Word) : (s.wr a v).srm = s.srm := by cases s; rfl
@[simp] theorem State.wr_dma (a : Nat) (v : Word) : (s.wr a v).dma = s.dma := by cases s; rfl
@[simp] theorem State.wr_tim (a : Nat) (v : Word) : (s.wr a v).tim = s.tim := by cases s; rfl
@[simp] theorem State.wr_net (a : Nat) (v : Word) : (s.wr a v).net = s.net := by cases s; rfl
@[simp] theorem State.wr_sec (a : Nat) (v : Word) : (s.wr a v).sec = s.sec := by cases s; rfl
@[simp] theorem State.wr_fgd (a : Nat) (v : Word) : (s.wr a v).fgd = s.fgd := by cases s; rfl
@[simp] theorem State.wr_flt (a : Nat) (v : Word) : (s.wr a v).flt = s.flt := by cases s; rfl
@[simp] theorem State.wr_clk (a : Nat) (v : Word) : (s.wr a v).clk = s.clk := by cases s; rfl
@[simp] theorem State.wr_thm (a : Nat) (v : Word) : (s.wr a v).thm = s.thm := by cases s; rfl
@[simp] theorem State.wr_pwr (a : Nat) (v : Word) : (s.wr a v).pwr = s.pwr := by cases s; rfl
@[simp] theorem State.wr_bkg (a : Nat) (v : Word) : (s.wr a v).bkg = s.bkg := by cases s; rfl
@[simp] theorem State.wr_pins (a : Nat) (v : Word) : (s.wr a v).pins = s.pins := by cases s; rfl
@[simp] theorem State.wr_plic (a : Nat) (v : Word) : (s.wr a v).plic = s.plic := by cases s; rfl
@[simp] theorem State.wr_testMode (a : Nat) (v : Word) : (s.wr a v).testMode = s.testMode := by cases s; rfl
@[simp] theorem State.wr_resp (a : Nat) (v : Word) : (s.wr a v).resp = s.resp := by cases s; rfl
@[simp] theorem State.wr_free (a : Nat) (v : Word) : (s.wr a v).free = s.free := by cases s; rfl
@[simp] theorem State.wr_pending (a : Nat) (v : Word) : (s.wr a v).pending = s.pending := by cases s; rfl

@[simp] theorem State.resetRegs_mem (p : Nat → Bool) : (s.resetRegs p).mem = s.mem := rfl
@[simp] theorem State.resetRegs_flash (p : Nat → Bool) : (s.resetRegs p).flash = s.flash := rfl
@[simp] theorem State.resetRegs_lin (p : Nat → Bool) : (s.resetRegs p).lin = s.lin := rfl
@[simp] theorem State.resetRegs_jobs (p : Nat → Bool) : (s.resetRegs p).jobs = s.jobs := rfl
@[simp] theorem State.resetRegs_dmk (p : Nat → Bool) : (s.resetRegs p).dmk = s.dmk := rfl
@[simp] theorem State.resetRegs_thermal (p : Nat → Bool) : (s.resetRegs p).thermal = s.thermal := rfl
@[simp] theorem State.resetRegs_laser (p : Nat → Bool) : (s.resetRegs p).laser = s.laser := rfl
@[simp] theorem State.resetRegs_loops (p : Nat → Bool) : (s.resetRegs p).loops = s.loops := rfl
@[simp] theorem State.resetRegs_drives (p : Nat → Bool) : (s.resetRegs p).drives = s.drives := rfl
@[simp] theorem State.resetRegs_link (p : Nat → Bool) : (s.resetRegs p).link = s.link := rfl
@[simp] theorem State.resetRegs_ddr (p : Nat → Bool) : (s.resetRegs p).ddr = s.ddr := rfl
@[simp] theorem State.resetRegs_srm (p : Nat → Bool) : (s.resetRegs p).srm = s.srm := rfl
@[simp] theorem State.resetRegs_dma (p : Nat → Bool) : (s.resetRegs p).dma = s.dma := rfl
@[simp] theorem State.resetRegs_tim (p : Nat → Bool) : (s.resetRegs p).tim = s.tim := rfl
@[simp] theorem State.resetRegs_net (p : Nat → Bool) : (s.resetRegs p).net = s.net := rfl
@[simp] theorem State.resetRegs_sec (p : Nat → Bool) : (s.resetRegs p).sec = s.sec := rfl
@[simp] theorem State.resetRegs_fgd (p : Nat → Bool) : (s.resetRegs p).fgd = s.fgd := rfl
@[simp] theorem State.resetRegs_flt (p : Nat → Bool) : (s.resetRegs p).flt = s.flt := rfl
@[simp] theorem State.resetRegs_clk (p : Nat → Bool) : (s.resetRegs p).clk = s.clk := rfl
@[simp] theorem State.resetRegs_thm (p : Nat → Bool) : (s.resetRegs p).thm = s.thm := rfl
@[simp] theorem State.resetRegs_pwr (p : Nat → Bool) : (s.resetRegs p).pwr = s.pwr := rfl
@[simp] theorem State.resetRegs_bkg (p : Nat → Bool) : (s.resetRegs p).bkg = s.bkg := rfl
@[simp] theorem State.resetRegs_pins (p : Nat → Bool) : (s.resetRegs p).pins = s.pins := rfl
@[simp] theorem State.resetRegs_plic (p : Nat → Bool) : (s.resetRegs p).plic = s.plic := rfl
@[simp] theorem State.resetRegs_testMode (p : Nat → Bool) : (s.resetRegs p).testMode = s.testMode := rfl
@[simp] theorem State.resetRegs_resp (p : Nat → Bool) : (s.resetRegs p).resp = s.resp := rfl
@[simp] theorem State.resetRegs_free (p : Nat → Bool) : (s.resetRegs p).free = s.free := rfl
@[simp] theorem State.resetRegs_pending (p : Nat → Bool) : (s.resetRegs p).pending = s.pending := rfl

@[simp] theorem State.wrByte_regs (a : Nat) (b : Byte) : (s.wrByte a b).regs = s.regs := rfl
@[simp] theorem State.wrByte_flash (a : Nat) (b : Byte) : (s.wrByte a b).flash = s.flash := rfl
@[simp] theorem State.wrByte_lin (a : Nat) (b : Byte) : (s.wrByte a b).lin = s.lin := rfl
@[simp] theorem State.wrByte_jobs (a : Nat) (b : Byte) : (s.wrByte a b).jobs = s.jobs := rfl
@[simp] theorem State.wrByte_dmk (a : Nat) (b : Byte) : (s.wrByte a b).dmk = s.dmk := rfl
@[simp] theorem State.wrByte_thermal (a : Nat) (b : Byte) : (s.wrByte a b).thermal = s.thermal := rfl
@[simp] theorem State.wrByte_laser (a : Nat) (b : Byte) : (s.wrByte a b).laser = s.laser := rfl
@[simp] theorem State.wrByte_loops (a : Nat) (b : Byte) : (s.wrByte a b).loops = s.loops := rfl
@[simp] theorem State.wrByte_drives (a : Nat) (b : Byte) : (s.wrByte a b).drives = s.drives := rfl
@[simp] theorem State.wrByte_link (a : Nat) (b : Byte) : (s.wrByte a b).link = s.link := rfl
@[simp] theorem State.wrByte_ddr (a : Nat) (b : Byte) : (s.wrByte a b).ddr = s.ddr := rfl
@[simp] theorem State.wrByte_srm (a : Nat) (b : Byte) : (s.wrByte a b).srm = s.srm := rfl
@[simp] theorem State.wrByte_dma (a : Nat) (b : Byte) : (s.wrByte a b).dma = s.dma := rfl
@[simp] theorem State.wrByte_tim (a : Nat) (b : Byte) : (s.wrByte a b).tim = s.tim := rfl
@[simp] theorem State.wrByte_net (a : Nat) (b : Byte) : (s.wrByte a b).net = s.net := rfl
@[simp] theorem State.wrByte_sec (a : Nat) (b : Byte) : (s.wrByte a b).sec = s.sec := rfl
@[simp] theorem State.wrByte_fgd (a : Nat) (b : Byte) : (s.wrByte a b).fgd = s.fgd := rfl
@[simp] theorem State.wrByte_flt (a : Nat) (b : Byte) : (s.wrByte a b).flt = s.flt := rfl
@[simp] theorem State.wrByte_clk (a : Nat) (b : Byte) : (s.wrByte a b).clk = s.clk := rfl
@[simp] theorem State.wrByte_thm (a : Nat) (b : Byte) : (s.wrByte a b).thm = s.thm := rfl
@[simp] theorem State.wrByte_pwr (a : Nat) (b : Byte) : (s.wrByte a b).pwr = s.pwr := rfl
@[simp] theorem State.wrByte_bkg (a : Nat) (b : Byte) : (s.wrByte a b).bkg = s.bkg := rfl
@[simp] theorem State.wrByte_pins (a : Nat) (b : Byte) : (s.wrByte a b).pins = s.pins := rfl
@[simp] theorem State.wrByte_plic (a : Nat) (b : Byte) : (s.wrByte a b).plic = s.plic := rfl
@[simp] theorem State.wrByte_testMode (a : Nat) (b : Byte) : (s.wrByte a b).testMode = s.testMode := rfl
@[simp] theorem State.wrByte_resp (a : Nat) (b : Byte) : (s.wrByte a b).resp = s.resp := rfl
@[simp] theorem State.wrByte_free (a : Nat) (b : Byte) : (s.wrByte a b).free = s.free := rfl
@[simp] theorem State.wrByte_pending (a : Nat) (b : Byte) : (s.wrByte a b).pending = s.pending := rfl

@[simp] theorem State.eraseMem_regs (a n : Nat) : (s.eraseMem a n).regs = s.regs := rfl
@[simp] theorem State.eraseMem_flash (a n : Nat) : (s.eraseMem a n).flash = s.flash := rfl
@[simp] theorem State.eraseMem_lin (a n : Nat) : (s.eraseMem a n).lin = s.lin := rfl
@[simp] theorem State.eraseMem_jobs (a n : Nat) : (s.eraseMem a n).jobs = s.jobs := rfl
@[simp] theorem State.eraseMem_dmk (a n : Nat) : (s.eraseMem a n).dmk = s.dmk := rfl
@[simp] theorem State.eraseMem_thermal (a n : Nat) : (s.eraseMem a n).thermal = s.thermal := rfl
@[simp] theorem State.eraseMem_laser (a n : Nat) : (s.eraseMem a n).laser = s.laser := rfl
@[simp] theorem State.eraseMem_loops (a n : Nat) : (s.eraseMem a n).loops = s.loops := rfl
@[simp] theorem State.eraseMem_drives (a n : Nat) : (s.eraseMem a n).drives = s.drives := rfl
@[simp] theorem State.eraseMem_link (a n : Nat) : (s.eraseMem a n).link = s.link := rfl
@[simp] theorem State.eraseMem_ddr (a n : Nat) : (s.eraseMem a n).ddr = s.ddr := rfl
@[simp] theorem State.eraseMem_srm (a n : Nat) : (s.eraseMem a n).srm = s.srm := rfl
@[simp] theorem State.eraseMem_dma (a n : Nat) : (s.eraseMem a n).dma = s.dma := rfl
@[simp] theorem State.eraseMem_tim (a n : Nat) : (s.eraseMem a n).tim = s.tim := rfl
@[simp] theorem State.eraseMem_net (a n : Nat) : (s.eraseMem a n).net = s.net := rfl
@[simp] theorem State.eraseMem_sec (a n : Nat) : (s.eraseMem a n).sec = s.sec := rfl
@[simp] theorem State.eraseMem_fgd (a n : Nat) : (s.eraseMem a n).fgd = s.fgd := rfl
@[simp] theorem State.eraseMem_flt (a n : Nat) : (s.eraseMem a n).flt = s.flt := rfl
@[simp] theorem State.eraseMem_clk (a n : Nat) : (s.eraseMem a n).clk = s.clk := rfl
@[simp] theorem State.eraseMem_thm (a n : Nat) : (s.eraseMem a n).thm = s.thm := rfl
@[simp] theorem State.eraseMem_pwr (a n : Nat) : (s.eraseMem a n).pwr = s.pwr := rfl
@[simp] theorem State.eraseMem_bkg (a n : Nat) : (s.eraseMem a n).bkg = s.bkg := rfl
@[simp] theorem State.eraseMem_pins (a n : Nat) : (s.eraseMem a n).pins = s.pins := rfl
@[simp] theorem State.eraseMem_plic (a n : Nat) : (s.eraseMem a n).plic = s.plic := rfl
@[simp] theorem State.eraseMem_testMode (a n : Nat) : (s.eraseMem a n).testMode = s.testMode := rfl
@[simp] theorem State.eraseMem_resp (a n : Nat) : (s.eraseMem a n).resp = s.resp := rfl
@[simp] theorem State.eraseMem_free (a n : Nat) : (s.eraseMem a n).free = s.free := rfl
@[simp] theorem State.eraseMem_pending (a n : Nat) : (s.eraseMem a n).pending = s.pending := rfl

@[simp] theorem State.respond_regs (e : Bool) (d : Word) : (s.respond e d).regs = s.regs := rfl
@[simp] theorem State.respond_mem (e : Bool) (d : Word) : (s.respond e d).mem = s.mem := rfl
@[simp] theorem State.respond_flash (e : Bool) (d : Word) : (s.respond e d).flash = s.flash := rfl
@[simp] theorem State.respond_lin (e : Bool) (d : Word) : (s.respond e d).lin = s.lin := rfl
@[simp] theorem State.respond_jobs (e : Bool) (d : Word) : (s.respond e d).jobs = s.jobs := rfl
@[simp] theorem State.respond_dmk (e : Bool) (d : Word) : (s.respond e d).dmk = s.dmk := rfl
@[simp] theorem State.respond_thermal (e : Bool) (d : Word) : (s.respond e d).thermal = s.thermal := rfl
@[simp] theorem State.respond_laser (e : Bool) (d : Word) : (s.respond e d).laser = s.laser := rfl
@[simp] theorem State.respond_loops (e : Bool) (d : Word) : (s.respond e d).loops = s.loops := rfl
@[simp] theorem State.respond_drives (e : Bool) (d : Word) : (s.respond e d).drives = s.drives := rfl
@[simp] theorem State.respond_link (e : Bool) (d : Word) : (s.respond e d).link = s.link := rfl
@[simp] theorem State.respond_ddr (e : Bool) (d : Word) : (s.respond e d).ddr = s.ddr := rfl
@[simp] theorem State.respond_srm (e : Bool) (d : Word) : (s.respond e d).srm = s.srm := rfl
@[simp] theorem State.respond_dma (e : Bool) (d : Word) : (s.respond e d).dma = s.dma := rfl
@[simp] theorem State.respond_tim (e : Bool) (d : Word) : (s.respond e d).tim = s.tim := rfl
@[simp] theorem State.respond_net (e : Bool) (d : Word) : (s.respond e d).net = s.net := rfl
@[simp] theorem State.respond_sec (e : Bool) (d : Word) : (s.respond e d).sec = s.sec := rfl
@[simp] theorem State.respond_fgd (e : Bool) (d : Word) : (s.respond e d).fgd = s.fgd := rfl
@[simp] theorem State.respond_flt (e : Bool) (d : Word) : (s.respond e d).flt = s.flt := rfl
@[simp] theorem State.respond_clk (e : Bool) (d : Word) : (s.respond e d).clk = s.clk := rfl
@[simp] theorem State.respond_thm (e : Bool) (d : Word) : (s.respond e d).thm = s.thm := rfl
@[simp] theorem State.respond_pwr (e : Bool) (d : Word) : (s.respond e d).pwr = s.pwr := rfl
@[simp] theorem State.respond_bkg (e : Bool) (d : Word) : (s.respond e d).bkg = s.bkg := rfl
@[simp] theorem State.respond_pins (e : Bool) (d : Word) : (s.respond e d).pins = s.pins := rfl
@[simp] theorem State.respond_plic (e : Bool) (d : Word) : (s.respond e d).plic = s.plic := rfl
@[simp] theorem State.respond_testMode (e : Bool) (d : Word) : (s.respond e d).testMode = s.testMode := rfl
@[simp] theorem State.respond_free (e : Bool) (d : Word) : (s.respond e d).free = s.free := rfl
@[simp] theorem State.respond_pending (e : Bool) (d : Word) : (s.respond e d).pending = s.pending := rfl

@[simp] theorem State.setEnc_regs (k : Nat) (v : EncState) : (s.setEnc k v).regs = s.regs := rfl
@[simp] theorem State.setEnc_mem (k : Nat) (v : EncState) : (s.setEnc k v).mem = s.mem := rfl
@[simp] theorem State.setEnc_flash (k : Nat) (v : EncState) : (s.setEnc k v).flash = s.flash := rfl
@[simp] theorem State.setEnc_jobs (k : Nat) (v : EncState) : (s.setEnc k v).jobs = s.jobs := rfl
@[simp] theorem State.setEnc_dmk (k : Nat) (v : EncState) : (s.setEnc k v).dmk = s.dmk := rfl
@[simp] theorem State.setEnc_thermal (k : Nat) (v : EncState) : (s.setEnc k v).thermal = s.thermal := rfl
@[simp] theorem State.setEnc_laser (k : Nat) (v : EncState) : (s.setEnc k v).laser = s.laser := rfl
@[simp] theorem State.setEnc_loops (k : Nat) (v : EncState) : (s.setEnc k v).loops = s.loops := rfl
@[simp] theorem State.setEnc_drives (k : Nat) (v : EncState) : (s.setEnc k v).drives = s.drives := rfl
@[simp] theorem State.setEnc_link (k : Nat) (v : EncState) : (s.setEnc k v).link = s.link := rfl
@[simp] theorem State.setEnc_ddr (k : Nat) (v : EncState) : (s.setEnc k v).ddr = s.ddr := rfl
@[simp] theorem State.setEnc_srm (k : Nat) (v : EncState) : (s.setEnc k v).srm = s.srm := rfl
@[simp] theorem State.setEnc_dma (k : Nat) (v : EncState) : (s.setEnc k v).dma = s.dma := rfl
@[simp] theorem State.setEnc_tim (k : Nat) (v : EncState) : (s.setEnc k v).tim = s.tim := rfl
@[simp] theorem State.setEnc_net (k : Nat) (v : EncState) : (s.setEnc k v).net = s.net := rfl
@[simp] theorem State.setEnc_sec (k : Nat) (v : EncState) : (s.setEnc k v).sec = s.sec := rfl
@[simp] theorem State.setEnc_fgd (k : Nat) (v : EncState) : (s.setEnc k v).fgd = s.fgd := rfl
@[simp] theorem State.setEnc_flt (k : Nat) (v : EncState) : (s.setEnc k v).flt = s.flt := rfl
@[simp] theorem State.setEnc_clk (k : Nat) (v : EncState) : (s.setEnc k v).clk = s.clk := rfl
@[simp] theorem State.setEnc_thm (k : Nat) (v : EncState) : (s.setEnc k v).thm = s.thm := rfl
@[simp] theorem State.setEnc_pwr (k : Nat) (v : EncState) : (s.setEnc k v).pwr = s.pwr := rfl
@[simp] theorem State.setEnc_bkg (k : Nat) (v : EncState) : (s.setEnc k v).bkg = s.bkg := rfl
@[simp] theorem State.setEnc_pins (k : Nat) (v : EncState) : (s.setEnc k v).pins = s.pins := rfl
@[simp] theorem State.setEnc_plic (k : Nat) (v : EncState) : (s.setEnc k v).plic = s.plic := rfl
@[simp] theorem State.setEnc_testMode (k : Nat) (v : EncState) : (s.setEnc k v).testMode = s.testMode := rfl
@[simp] theorem State.setEnc_resp (k : Nat) (v : EncState) : (s.setEnc k v).resp = s.resp := rfl
@[simp] theorem State.setEnc_free (k : Nat) (v : EncState) : (s.setEnc k v).free = s.free := rfl
@[simp] theorem State.setEnc_pending (k : Nat) (v : EncState) : (s.setEnc k v).pending = s.pending := rfl

@[simp] theorem State.setVenc_regs (k : Nat) (v : VencState) : (s.setVenc k v).regs = s.regs := rfl
@[simp] theorem State.setVenc_mem (k : Nat) (v : VencState) : (s.setVenc k v).mem = s.mem := rfl
@[simp] theorem State.setVenc_flash (k : Nat) (v : VencState) : (s.setVenc k v).flash = s.flash := rfl
@[simp] theorem State.setVenc_jobs (k : Nat) (v : VencState) : (s.setVenc k v).jobs = s.jobs := rfl
@[simp] theorem State.setVenc_dmk (k : Nat) (v : VencState) : (s.setVenc k v).dmk = s.dmk := rfl
@[simp] theorem State.setVenc_thermal (k : Nat) (v : VencState) : (s.setVenc k v).thermal = s.thermal := rfl
@[simp] theorem State.setVenc_laser (k : Nat) (v : VencState) : (s.setVenc k v).laser = s.laser := rfl
@[simp] theorem State.setVenc_loops (k : Nat) (v : VencState) : (s.setVenc k v).loops = s.loops := rfl
@[simp] theorem State.setVenc_drives (k : Nat) (v : VencState) : (s.setVenc k v).drives = s.drives := rfl
@[simp] theorem State.setVenc_link (k : Nat) (v : VencState) : (s.setVenc k v).link = s.link := rfl
@[simp] theorem State.setVenc_ddr (k : Nat) (v : VencState) : (s.setVenc k v).ddr = s.ddr := rfl
@[simp] theorem State.setVenc_srm (k : Nat) (v : VencState) : (s.setVenc k v).srm = s.srm := rfl
@[simp] theorem State.setVenc_dma (k : Nat) (v : VencState) : (s.setVenc k v).dma = s.dma := rfl
@[simp] theorem State.setVenc_tim (k : Nat) (v : VencState) : (s.setVenc k v).tim = s.tim := rfl
@[simp] theorem State.setVenc_net (k : Nat) (v : VencState) : (s.setVenc k v).net = s.net := rfl
@[simp] theorem State.setVenc_sec (k : Nat) (v : VencState) : (s.setVenc k v).sec = s.sec := rfl
@[simp] theorem State.setVenc_fgd (k : Nat) (v : VencState) : (s.setVenc k v).fgd = s.fgd := rfl
@[simp] theorem State.setVenc_flt (k : Nat) (v : VencState) : (s.setVenc k v).flt = s.flt := rfl
@[simp] theorem State.setVenc_clk (k : Nat) (v : VencState) : (s.setVenc k v).clk = s.clk := rfl
@[simp] theorem State.setVenc_thm (k : Nat) (v : VencState) : (s.setVenc k v).thm = s.thm := rfl
@[simp] theorem State.setVenc_pwr (k : Nat) (v : VencState) : (s.setVenc k v).pwr = s.pwr := rfl
@[simp] theorem State.setVenc_bkg (k : Nat) (v : VencState) : (s.setVenc k v).bkg = s.bkg := rfl
@[simp] theorem State.setVenc_pins (k : Nat) (v : VencState) : (s.setVenc k v).pins = s.pins := rfl
@[simp] theorem State.setVenc_plic (k : Nat) (v : VencState) : (s.setVenc k v).plic = s.plic := rfl
@[simp] theorem State.setVenc_testMode (k : Nat) (v : VencState) : (s.setVenc k v).testMode = s.testMode := rfl
@[simp] theorem State.setVenc_resp (k : Nat) (v : VencState) : (s.setVenc k v).resp = s.resp := rfl
@[simp] theorem State.setVenc_free (k : Nat) (v : VencState) : (s.setVenc k v).free = s.free := rfl
@[simp] theorem State.setVenc_pending (k : Nat) (v : VencState) : (s.setVenc k v).pending = s.pending := rfl

@[simp] theorem State.setPd_regs (k : Nat) (v : PdState) : (s.setPd k v).regs = s.regs := rfl
@[simp] theorem State.setPd_mem (k : Nat) (v : PdState) : (s.setPd k v).mem = s.mem := rfl
@[simp] theorem State.setPd_flash (k : Nat) (v : PdState) : (s.setPd k v).flash = s.flash := rfl
@[simp] theorem State.setPd_jobs (k : Nat) (v : PdState) : (s.setPd k v).jobs = s.jobs := rfl
@[simp] theorem State.setPd_dmk (k : Nat) (v : PdState) : (s.setPd k v).dmk = s.dmk := rfl
@[simp] theorem State.setPd_thermal (k : Nat) (v : PdState) : (s.setPd k v).thermal = s.thermal := rfl
@[simp] theorem State.setPd_laser (k : Nat) (v : PdState) : (s.setPd k v).laser = s.laser := rfl
@[simp] theorem State.setPd_loops (k : Nat) (v : PdState) : (s.setPd k v).loops = s.loops := rfl
@[simp] theorem State.setPd_drives (k : Nat) (v : PdState) : (s.setPd k v).drives = s.drives := rfl
@[simp] theorem State.setPd_link (k : Nat) (v : PdState) : (s.setPd k v).link = s.link := rfl
@[simp] theorem State.setPd_ddr (k : Nat) (v : PdState) : (s.setPd k v).ddr = s.ddr := rfl
@[simp] theorem State.setPd_srm (k : Nat) (v : PdState) : (s.setPd k v).srm = s.srm := rfl
@[simp] theorem State.setPd_dma (k : Nat) (v : PdState) : (s.setPd k v).dma = s.dma := rfl
@[simp] theorem State.setPd_tim (k : Nat) (v : PdState) : (s.setPd k v).tim = s.tim := rfl
@[simp] theorem State.setPd_net (k : Nat) (v : PdState) : (s.setPd k v).net = s.net := rfl
@[simp] theorem State.setPd_sec (k : Nat) (v : PdState) : (s.setPd k v).sec = s.sec := rfl
@[simp] theorem State.setPd_fgd (k : Nat) (v : PdState) : (s.setPd k v).fgd = s.fgd := rfl
@[simp] theorem State.setPd_flt (k : Nat) (v : PdState) : (s.setPd k v).flt = s.flt := rfl
@[simp] theorem State.setPd_clk (k : Nat) (v : PdState) : (s.setPd k v).clk = s.clk := rfl
@[simp] theorem State.setPd_thm (k : Nat) (v : PdState) : (s.setPd k v).thm = s.thm := rfl
@[simp] theorem State.setPd_pwr (k : Nat) (v : PdState) : (s.setPd k v).pwr = s.pwr := rfl
@[simp] theorem State.setPd_bkg (k : Nat) (v : PdState) : (s.setPd k v).bkg = s.bkg := rfl
@[simp] theorem State.setPd_pins (k : Nat) (v : PdState) : (s.setPd k v).pins = s.pins := rfl
@[simp] theorem State.setPd_plic (k : Nat) (v : PdState) : (s.setPd k v).plic = s.plic := rfl
@[simp] theorem State.setPd_testMode (k : Nat) (v : PdState) : (s.setPd k v).testMode = s.testMode := rfl
@[simp] theorem State.setPd_resp (k : Nat) (v : PdState) : (s.setPd k v).resp = s.resp := rfl
@[simp] theorem State.setPd_free (k : Nat) (v : PdState) : (s.setPd k v).free = s.free := rfl
@[simp] theorem State.setPd_pending (k : Nat) (v : PdState) : (s.setPd k v).pending = s.pending := rfl

@[simp] theorem State.setTrk_regs (k : Nat) (v : TrkEntry) : (s.setTrk k v).regs = s.regs := rfl
@[simp] theorem State.setTrk_mem (k : Nat) (v : TrkEntry) : (s.setTrk k v).mem = s.mem := rfl
@[simp] theorem State.setTrk_flash (k : Nat) (v : TrkEntry) : (s.setTrk k v).flash = s.flash := rfl
@[simp] theorem State.setTrk_jobs (k : Nat) (v : TrkEntry) : (s.setTrk k v).jobs = s.jobs := rfl
@[simp] theorem State.setTrk_dmk (k : Nat) (v : TrkEntry) : (s.setTrk k v).dmk = s.dmk := rfl
@[simp] theorem State.setTrk_thermal (k : Nat) (v : TrkEntry) : (s.setTrk k v).thermal = s.thermal := rfl
@[simp] theorem State.setTrk_laser (k : Nat) (v : TrkEntry) : (s.setTrk k v).laser = s.laser := rfl
@[simp] theorem State.setTrk_loops (k : Nat) (v : TrkEntry) : (s.setTrk k v).loops = s.loops := rfl
@[simp] theorem State.setTrk_drives (k : Nat) (v : TrkEntry) : (s.setTrk k v).drives = s.drives := rfl
@[simp] theorem State.setTrk_link (k : Nat) (v : TrkEntry) : (s.setTrk k v).link = s.link := rfl
@[simp] theorem State.setTrk_ddr (k : Nat) (v : TrkEntry) : (s.setTrk k v).ddr = s.ddr := rfl
@[simp] theorem State.setTrk_srm (k : Nat) (v : TrkEntry) : (s.setTrk k v).srm = s.srm := rfl
@[simp] theorem State.setTrk_dma (k : Nat) (v : TrkEntry) : (s.setTrk k v).dma = s.dma := rfl
@[simp] theorem State.setTrk_tim (k : Nat) (v : TrkEntry) : (s.setTrk k v).tim = s.tim := rfl
@[simp] theorem State.setTrk_net (k : Nat) (v : TrkEntry) : (s.setTrk k v).net = s.net := rfl
@[simp] theorem State.setTrk_sec (k : Nat) (v : TrkEntry) : (s.setTrk k v).sec = s.sec := rfl
@[simp] theorem State.setTrk_fgd (k : Nat) (v : TrkEntry) : (s.setTrk k v).fgd = s.fgd := rfl
@[simp] theorem State.setTrk_flt (k : Nat) (v : TrkEntry) : (s.setTrk k v).flt = s.flt := rfl
@[simp] theorem State.setTrk_clk (k : Nat) (v : TrkEntry) : (s.setTrk k v).clk = s.clk := rfl
@[simp] theorem State.setTrk_thm (k : Nat) (v : TrkEntry) : (s.setTrk k v).thm = s.thm := rfl
@[simp] theorem State.setTrk_pwr (k : Nat) (v : TrkEntry) : (s.setTrk k v).pwr = s.pwr := rfl
@[simp] theorem State.setTrk_bkg (k : Nat) (v : TrkEntry) : (s.setTrk k v).bkg = s.bkg := rfl
@[simp] theorem State.setTrk_pins (k : Nat) (v : TrkEntry) : (s.setTrk k v).pins = s.pins := rfl
@[simp] theorem State.setTrk_plic (k : Nat) (v : TrkEntry) : (s.setTrk k v).plic = s.plic := rfl
@[simp] theorem State.setTrk_testMode (k : Nat) (v : TrkEntry) : (s.setTrk k v).testMode = s.testMode := rfl
@[simp] theorem State.setTrk_resp (k : Nat) (v : TrkEntry) : (s.setTrk k v).resp = s.resp := rfl
@[simp] theorem State.setTrk_free (k : Nat) (v : TrkEntry) : (s.setTrk k v).free = s.free := rfl
@[simp] theorem State.setTrk_pending (k : Nat) (v : TrkEntry) : (s.setTrk k v).pending = s.pending := rfl

@[simp] theorem State.setRej_regs (k : Nat) (v : RejState) : (s.setRej k v).regs = s.regs := rfl
@[simp] theorem State.setRej_mem (k : Nat) (v : RejState) : (s.setRej k v).mem = s.mem := rfl
@[simp] theorem State.setRej_flash (k : Nat) (v : RejState) : (s.setRej k v).flash = s.flash := rfl
@[simp] theorem State.setRej_jobs (k : Nat) (v : RejState) : (s.setRej k v).jobs = s.jobs := rfl
@[simp] theorem State.setRej_dmk (k : Nat) (v : RejState) : (s.setRej k v).dmk = s.dmk := rfl
@[simp] theorem State.setRej_thermal (k : Nat) (v : RejState) : (s.setRej k v).thermal = s.thermal := rfl
@[simp] theorem State.setRej_laser (k : Nat) (v : RejState) : (s.setRej k v).laser = s.laser := rfl
@[simp] theorem State.setRej_loops (k : Nat) (v : RejState) : (s.setRej k v).loops = s.loops := rfl
@[simp] theorem State.setRej_drives (k : Nat) (v : RejState) : (s.setRej k v).drives = s.drives := rfl
@[simp] theorem State.setRej_link (k : Nat) (v : RejState) : (s.setRej k v).link = s.link := rfl
@[simp] theorem State.setRej_ddr (k : Nat) (v : RejState) : (s.setRej k v).ddr = s.ddr := rfl
@[simp] theorem State.setRej_srm (k : Nat) (v : RejState) : (s.setRej k v).srm = s.srm := rfl
@[simp] theorem State.setRej_dma (k : Nat) (v : RejState) : (s.setRej k v).dma = s.dma := rfl
@[simp] theorem State.setRej_tim (k : Nat) (v : RejState) : (s.setRej k v).tim = s.tim := rfl
@[simp] theorem State.setRej_net (k : Nat) (v : RejState) : (s.setRej k v).net = s.net := rfl
@[simp] theorem State.setRej_sec (k : Nat) (v : RejState) : (s.setRej k v).sec = s.sec := rfl
@[simp] theorem State.setRej_fgd (k : Nat) (v : RejState) : (s.setRej k v).fgd = s.fgd := rfl
@[simp] theorem State.setRej_flt (k : Nat) (v : RejState) : (s.setRej k v).flt = s.flt := rfl
@[simp] theorem State.setRej_clk (k : Nat) (v : RejState) : (s.setRej k v).clk = s.clk := rfl
@[simp] theorem State.setRej_thm (k : Nat) (v : RejState) : (s.setRej k v).thm = s.thm := rfl
@[simp] theorem State.setRej_pwr (k : Nat) (v : RejState) : (s.setRej k v).pwr = s.pwr := rfl
@[simp] theorem State.setRej_bkg (k : Nat) (v : RejState) : (s.setRej k v).bkg = s.bkg := rfl
@[simp] theorem State.setRej_pins (k : Nat) (v : RejState) : (s.setRej k v).pins = s.pins := rfl
@[simp] theorem State.setRej_plic (k : Nat) (v : RejState) : (s.setRej k v).plic = s.plic := rfl
@[simp] theorem State.setRej_testMode (k : Nat) (v : RejState) : (s.setRej k v).testMode = s.testMode := rfl
@[simp] theorem State.setRej_resp (k : Nat) (v : RejState) : (s.setRej k v).resp = s.resp := rfl
@[simp] theorem State.setRej_free (k : Nat) (v : RejState) : (s.setRej k v).free = s.free := rfl
@[simp] theorem State.setRej_pending (k : Nat) (v : RejState) : (s.setRej k v).pending = s.pending := rfl

@[simp] theorem State.setChan_regs (k : Nat) (v : ChanState) : (s.setChan k v).regs = s.regs := rfl
@[simp] theorem State.setChan_mem (k : Nat) (v : ChanState) : (s.setChan k v).mem = s.mem := rfl
@[simp] theorem State.setChan_flash (k : Nat) (v : ChanState) : (s.setChan k v).flash = s.flash := rfl
@[simp] theorem State.setChan_lin (k : Nat) (v : ChanState) : (s.setChan k v).lin = s.lin := rfl
@[simp] theorem State.setChan_dmk (k : Nat) (v : ChanState) : (s.setChan k v).dmk = s.dmk := rfl
@[simp] theorem State.setChan_thermal (k : Nat) (v : ChanState) : (s.setChan k v).thermal = s.thermal := rfl
@[simp] theorem State.setChan_laser (k : Nat) (v : ChanState) : (s.setChan k v).laser = s.laser := rfl
@[simp] theorem State.setChan_loops (k : Nat) (v : ChanState) : (s.setChan k v).loops = s.loops := rfl
@[simp] theorem State.setChan_drives (k : Nat) (v : ChanState) : (s.setChan k v).drives = s.drives := rfl
@[simp] theorem State.setChan_link (k : Nat) (v : ChanState) : (s.setChan k v).link = s.link := rfl
@[simp] theorem State.setChan_ddr (k : Nat) (v : ChanState) : (s.setChan k v).ddr = s.ddr := rfl
@[simp] theorem State.setChan_srm (k : Nat) (v : ChanState) : (s.setChan k v).srm = s.srm := rfl
@[simp] theorem State.setChan_dma (k : Nat) (v : ChanState) : (s.setChan k v).dma = s.dma := rfl
@[simp] theorem State.setChan_tim (k : Nat) (v : ChanState) : (s.setChan k v).tim = s.tim := rfl
@[simp] theorem State.setChan_net (k : Nat) (v : ChanState) : (s.setChan k v).net = s.net := rfl
@[simp] theorem State.setChan_sec (k : Nat) (v : ChanState) : (s.setChan k v).sec = s.sec := rfl
@[simp] theorem State.setChan_fgd (k : Nat) (v : ChanState) : (s.setChan k v).fgd = s.fgd := rfl
@[simp] theorem State.setChan_flt (k : Nat) (v : ChanState) : (s.setChan k v).flt = s.flt := rfl
@[simp] theorem State.setChan_clk (k : Nat) (v : ChanState) : (s.setChan k v).clk = s.clk := rfl
@[simp] theorem State.setChan_thm (k : Nat) (v : ChanState) : (s.setChan k v).thm = s.thm := rfl
@[simp] theorem State.setChan_pwr (k : Nat) (v : ChanState) : (s.setChan k v).pwr = s.pwr := rfl
@[simp] theorem State.setChan_bkg (k : Nat) (v : ChanState) : (s.setChan k v).bkg = s.bkg := rfl
@[simp] theorem State.setChan_pins (k : Nat) (v : ChanState) : (s.setChan k v).pins = s.pins := rfl
@[simp] theorem State.setChan_plic (k : Nat) (v : ChanState) : (s.setChan k v).plic = s.plic := rfl
@[simp] theorem State.setChan_testMode (k : Nat) (v : ChanState) : (s.setChan k v).testMode = s.testMode := rfl
@[simp] theorem State.setChan_resp (k : Nat) (v : ChanState) : (s.setChan k v).resp = s.resp := rfl
@[simp] theorem State.setChan_free (k : Nat) (v : ChanState) : (s.setChan k v).free = s.free := rfl
@[simp] theorem State.setChan_pending (k : Nat) (v : ChanState) : (s.setChan k v).pending = s.pending := rfl

@[simp] theorem State.setSeq_regs (k : Nat) (v : SeqState) : (s.setSeq k v).regs = s.regs := rfl
@[simp] theorem State.setSeq_mem (k : Nat) (v : SeqState) : (s.setSeq k v).mem = s.mem := rfl
@[simp] theorem State.setSeq_flash (k : Nat) (v : SeqState) : (s.setSeq k v).flash = s.flash := rfl
@[simp] theorem State.setSeq_lin (k : Nat) (v : SeqState) : (s.setSeq k v).lin = s.lin := rfl
@[simp] theorem State.setSeq_dmk (k : Nat) (v : SeqState) : (s.setSeq k v).dmk = s.dmk := rfl
@[simp] theorem State.setSeq_thermal (k : Nat) (v : SeqState) : (s.setSeq k v).thermal = s.thermal := rfl
@[simp] theorem State.setSeq_laser (k : Nat) (v : SeqState) : (s.setSeq k v).laser = s.laser := rfl
@[simp] theorem State.setSeq_loops (k : Nat) (v : SeqState) : (s.setSeq k v).loops = s.loops := rfl
@[simp] theorem State.setSeq_drives (k : Nat) (v : SeqState) : (s.setSeq k v).drives = s.drives := rfl
@[simp] theorem State.setSeq_link (k : Nat) (v : SeqState) : (s.setSeq k v).link = s.link := rfl
@[simp] theorem State.setSeq_ddr (k : Nat) (v : SeqState) : (s.setSeq k v).ddr = s.ddr := rfl
@[simp] theorem State.setSeq_srm (k : Nat) (v : SeqState) : (s.setSeq k v).srm = s.srm := rfl
@[simp] theorem State.setSeq_dma (k : Nat) (v : SeqState) : (s.setSeq k v).dma = s.dma := rfl
@[simp] theorem State.setSeq_tim (k : Nat) (v : SeqState) : (s.setSeq k v).tim = s.tim := rfl
@[simp] theorem State.setSeq_net (k : Nat) (v : SeqState) : (s.setSeq k v).net = s.net := rfl
@[simp] theorem State.setSeq_sec (k : Nat) (v : SeqState) : (s.setSeq k v).sec = s.sec := rfl
@[simp] theorem State.setSeq_fgd (k : Nat) (v : SeqState) : (s.setSeq k v).fgd = s.fgd := rfl
@[simp] theorem State.setSeq_flt (k : Nat) (v : SeqState) : (s.setSeq k v).flt = s.flt := rfl
@[simp] theorem State.setSeq_clk (k : Nat) (v : SeqState) : (s.setSeq k v).clk = s.clk := rfl
@[simp] theorem State.setSeq_thm (k : Nat) (v : SeqState) : (s.setSeq k v).thm = s.thm := rfl
@[simp] theorem State.setSeq_pwr (k : Nat) (v : SeqState) : (s.setSeq k v).pwr = s.pwr := rfl
@[simp] theorem State.setSeq_bkg (k : Nat) (v : SeqState) : (s.setSeq k v).bkg = s.bkg := rfl
@[simp] theorem State.setSeq_pins (k : Nat) (v : SeqState) : (s.setSeq k v).pins = s.pins := rfl
@[simp] theorem State.setSeq_plic (k : Nat) (v : SeqState) : (s.setSeq k v).plic = s.plic := rfl
@[simp] theorem State.setSeq_testMode (k : Nat) (v : SeqState) : (s.setSeq k v).testMode = s.testMode := rfl
@[simp] theorem State.setSeq_resp (k : Nat) (v : SeqState) : (s.setSeq k v).resp = s.resp := rfl
@[simp] theorem State.setSeq_free (k : Nat) (v : SeqState) : (s.setSeq k v).free = s.free := rfl
@[simp] theorem State.setSeq_pending (k : Nat) (v : SeqState) : (s.setSeq k v).pending = s.pending := rfl

@[simp] theorem State.setStn_regs (k : Nat) (v : StnState) : (s.setStn k v).regs = s.regs := rfl
@[simp] theorem State.setStn_mem (k : Nat) (v : StnState) : (s.setStn k v).mem = s.mem := rfl
@[simp] theorem State.setStn_flash (k : Nat) (v : StnState) : (s.setStn k v).flash = s.flash := rfl
@[simp] theorem State.setStn_lin (k : Nat) (v : StnState) : (s.setStn k v).lin = s.lin := rfl
@[simp] theorem State.setStn_dmk (k : Nat) (v : StnState) : (s.setStn k v).dmk = s.dmk := rfl
@[simp] theorem State.setStn_thermal (k : Nat) (v : StnState) : (s.setStn k v).thermal = s.thermal := rfl
@[simp] theorem State.setStn_laser (k : Nat) (v : StnState) : (s.setStn k v).laser = s.laser := rfl
@[simp] theorem State.setStn_loops (k : Nat) (v : StnState) : (s.setStn k v).loops = s.loops := rfl
@[simp] theorem State.setStn_drives (k : Nat) (v : StnState) : (s.setStn k v).drives = s.drives := rfl
@[simp] theorem State.setStn_link (k : Nat) (v : StnState) : (s.setStn k v).link = s.link := rfl
@[simp] theorem State.setStn_ddr (k : Nat) (v : StnState) : (s.setStn k v).ddr = s.ddr := rfl
@[simp] theorem State.setStn_srm (k : Nat) (v : StnState) : (s.setStn k v).srm = s.srm := rfl
@[simp] theorem State.setStn_dma (k : Nat) (v : StnState) : (s.setStn k v).dma = s.dma := rfl
@[simp] theorem State.setStn_tim (k : Nat) (v : StnState) : (s.setStn k v).tim = s.tim := rfl
@[simp] theorem State.setStn_net (k : Nat) (v : StnState) : (s.setStn k v).net = s.net := rfl
@[simp] theorem State.setStn_sec (k : Nat) (v : StnState) : (s.setStn k v).sec = s.sec := rfl
@[simp] theorem State.setStn_fgd (k : Nat) (v : StnState) : (s.setStn k v).fgd = s.fgd := rfl
@[simp] theorem State.setStn_flt (k : Nat) (v : StnState) : (s.setStn k v).flt = s.flt := rfl
@[simp] theorem State.setStn_clk (k : Nat) (v : StnState) : (s.setStn k v).clk = s.clk := rfl
@[simp] theorem State.setStn_thm (k : Nat) (v : StnState) : (s.setStn k v).thm = s.thm := rfl
@[simp] theorem State.setStn_pwr (k : Nat) (v : StnState) : (s.setStn k v).pwr = s.pwr := rfl
@[simp] theorem State.setStn_bkg (k : Nat) (v : StnState) : (s.setStn k v).bkg = s.bkg := rfl
@[simp] theorem State.setStn_pins (k : Nat) (v : StnState) : (s.setStn k v).pins = s.pins := rfl
@[simp] theorem State.setStn_plic (k : Nat) (v : StnState) : (s.setStn k v).plic = s.plic := rfl
@[simp] theorem State.setStn_testMode (k : Nat) (v : StnState) : (s.setStn k v).testMode = s.testMode := rfl
@[simp] theorem State.setStn_resp (k : Nat) (v : StnState) : (s.setStn k v).resp = s.resp := rfl
@[simp] theorem State.setStn_free (k : Nat) (v : StnState) : (s.setStn k v).free = s.free := rfl
@[simp] theorem State.setStn_pending (k : Nat) (v : StnState) : (s.setStn k v).pending = s.pending := rfl

@[simp] theorem State.setEngine_regs (k : Nat) (v : EngineState) : (s.setEngine k v).regs = s.regs := rfl
@[simp] theorem State.setEngine_mem (k : Nat) (v : EngineState) : (s.setEngine k v).mem = s.mem := rfl
@[simp] theorem State.setEngine_flash (k : Nat) (v : EngineState) : (s.setEngine k v).flash = s.flash := rfl
@[simp] theorem State.setEngine_lin (k : Nat) (v : EngineState) : (s.setEngine k v).lin = s.lin := rfl
@[simp] theorem State.setEngine_jobs (k : Nat) (v : EngineState) : (s.setEngine k v).jobs = s.jobs := rfl
@[simp] theorem State.setEngine_thermal (k : Nat) (v : EngineState) : (s.setEngine k v).thermal = s.thermal := rfl
@[simp] theorem State.setEngine_laser (k : Nat) (v : EngineState) : (s.setEngine k v).laser = s.laser := rfl
@[simp] theorem State.setEngine_loops (k : Nat) (v : EngineState) : (s.setEngine k v).loops = s.loops := rfl
@[simp] theorem State.setEngine_drives (k : Nat) (v : EngineState) : (s.setEngine k v).drives = s.drives := rfl
@[simp] theorem State.setEngine_link (k : Nat) (v : EngineState) : (s.setEngine k v).link = s.link := rfl
@[simp] theorem State.setEngine_ddr (k : Nat) (v : EngineState) : (s.setEngine k v).ddr = s.ddr := rfl
@[simp] theorem State.setEngine_srm (k : Nat) (v : EngineState) : (s.setEngine k v).srm = s.srm := rfl
@[simp] theorem State.setEngine_dma (k : Nat) (v : EngineState) : (s.setEngine k v).dma = s.dma := rfl
@[simp] theorem State.setEngine_tim (k : Nat) (v : EngineState) : (s.setEngine k v).tim = s.tim := rfl
@[simp] theorem State.setEngine_net (k : Nat) (v : EngineState) : (s.setEngine k v).net = s.net := rfl
@[simp] theorem State.setEngine_sec (k : Nat) (v : EngineState) : (s.setEngine k v).sec = s.sec := rfl
@[simp] theorem State.setEngine_fgd (k : Nat) (v : EngineState) : (s.setEngine k v).fgd = s.fgd := rfl
@[simp] theorem State.setEngine_flt (k : Nat) (v : EngineState) : (s.setEngine k v).flt = s.flt := rfl
@[simp] theorem State.setEngine_clk (k : Nat) (v : EngineState) : (s.setEngine k v).clk = s.clk := rfl
@[simp] theorem State.setEngine_thm (k : Nat) (v : EngineState) : (s.setEngine k v).thm = s.thm := rfl
@[simp] theorem State.setEngine_pwr (k : Nat) (v : EngineState) : (s.setEngine k v).pwr = s.pwr := rfl
@[simp] theorem State.setEngine_bkg (k : Nat) (v : EngineState) : (s.setEngine k v).bkg = s.bkg := rfl
@[simp] theorem State.setEngine_pins (k : Nat) (v : EngineState) : (s.setEngine k v).pins = s.pins := rfl
@[simp] theorem State.setEngine_plic (k : Nat) (v : EngineState) : (s.setEngine k v).plic = s.plic := rfl
@[simp] theorem State.setEngine_testMode (k : Nat) (v : EngineState) : (s.setEngine k v).testMode = s.testMode := rfl
@[simp] theorem State.setEngine_resp (k : Nat) (v : EngineState) : (s.setEngine k v).resp = s.resp := rfl
@[simp] theorem State.setEngine_free (k : Nat) (v : EngineState) : (s.setEngine k v).free = s.free := rfl
@[simp] theorem State.setEngine_pending (k : Nat) (v : EngineState) : (s.setEngine k v).pending = s.pending := rfl

@[simp] theorem State.setTplSlot_regs (k : Nat) (v : Option Template) : (s.setTplSlot k v).regs = s.regs := rfl
@[simp] theorem State.setTplSlot_mem (k : Nat) (v : Option Template) : (s.setTplSlot k v).mem = s.mem := rfl
@[simp] theorem State.setTplSlot_flash (k : Nat) (v : Option Template) : (s.setTplSlot k v).flash = s.flash := rfl
@[simp] theorem State.setTplSlot_lin (k : Nat) (v : Option Template) : (s.setTplSlot k v).lin = s.lin := rfl
@[simp] theorem State.setTplSlot_jobs (k : Nat) (v : Option Template) : (s.setTplSlot k v).jobs = s.jobs := rfl
@[simp] theorem State.setTplSlot_thermal (k : Nat) (v : Option Template) : (s.setTplSlot k v).thermal = s.thermal := rfl
@[simp] theorem State.setTplSlot_laser (k : Nat) (v : Option Template) : (s.setTplSlot k v).laser = s.laser := rfl
@[simp] theorem State.setTplSlot_loops (k : Nat) (v : Option Template) : (s.setTplSlot k v).loops = s.loops := rfl
@[simp] theorem State.setTplSlot_drives (k : Nat) (v : Option Template) : (s.setTplSlot k v).drives = s.drives := rfl
@[simp] theorem State.setTplSlot_link (k : Nat) (v : Option Template) : (s.setTplSlot k v).link = s.link := rfl
@[simp] theorem State.setTplSlot_ddr (k : Nat) (v : Option Template) : (s.setTplSlot k v).ddr = s.ddr := rfl
@[simp] theorem State.setTplSlot_srm (k : Nat) (v : Option Template) : (s.setTplSlot k v).srm = s.srm := rfl
@[simp] theorem State.setTplSlot_dma (k : Nat) (v : Option Template) : (s.setTplSlot k v).dma = s.dma := rfl
@[simp] theorem State.setTplSlot_tim (k : Nat) (v : Option Template) : (s.setTplSlot k v).tim = s.tim := rfl
@[simp] theorem State.setTplSlot_net (k : Nat) (v : Option Template) : (s.setTplSlot k v).net = s.net := rfl
@[simp] theorem State.setTplSlot_sec (k : Nat) (v : Option Template) : (s.setTplSlot k v).sec = s.sec := rfl
@[simp] theorem State.setTplSlot_fgd (k : Nat) (v : Option Template) : (s.setTplSlot k v).fgd = s.fgd := rfl
@[simp] theorem State.setTplSlot_flt (k : Nat) (v : Option Template) : (s.setTplSlot k v).flt = s.flt := rfl
@[simp] theorem State.setTplSlot_clk (k : Nat) (v : Option Template) : (s.setTplSlot k v).clk = s.clk := rfl
@[simp] theorem State.setTplSlot_thm (k : Nat) (v : Option Template) : (s.setTplSlot k v).thm = s.thm := rfl
@[simp] theorem State.setTplSlot_pwr (k : Nat) (v : Option Template) : (s.setTplSlot k v).pwr = s.pwr := rfl
@[simp] theorem State.setTplSlot_bkg (k : Nat) (v : Option Template) : (s.setTplSlot k v).bkg = s.bkg := rfl
@[simp] theorem State.setTplSlot_pins (k : Nat) (v : Option Template) : (s.setTplSlot k v).pins = s.pins := rfl
@[simp] theorem State.setTplSlot_plic (k : Nat) (v : Option Template) : (s.setTplSlot k v).plic = s.plic := rfl
@[simp] theorem State.setTplSlot_testMode (k : Nat) (v : Option Template) : (s.setTplSlot k v).testMode = s.testMode := rfl
@[simp] theorem State.setTplSlot_resp (k : Nat) (v : Option Template) : (s.setTplSlot k v).resp = s.resp := rfl
@[simp] theorem State.setTplSlot_free (k : Nat) (v : Option Template) : (s.setTplSlot k v).free = s.free := rfl
@[simp] theorem State.setTplSlot_pending (k : Nat) (v : Option Template) : (s.setTplSlot k v).pending = s.pending := rfl

@[simp] theorem State.setSerial_regs (k : Nat) (v : SerialState) : (s.setSerial k v).regs = s.regs := rfl
@[simp] theorem State.setSerial_mem (k : Nat) (v : SerialState) : (s.setSerial k v).mem = s.mem := rfl
@[simp] theorem State.setSerial_flash (k : Nat) (v : SerialState) : (s.setSerial k v).flash = s.flash := rfl
@[simp] theorem State.setSerial_lin (k : Nat) (v : SerialState) : (s.setSerial k v).lin = s.lin := rfl
@[simp] theorem State.setSerial_jobs (k : Nat) (v : SerialState) : (s.setSerial k v).jobs = s.jobs := rfl
@[simp] theorem State.setSerial_thermal (k : Nat) (v : SerialState) : (s.setSerial k v).thermal = s.thermal := rfl
@[simp] theorem State.setSerial_laser (k : Nat) (v : SerialState) : (s.setSerial k v).laser = s.laser := rfl
@[simp] theorem State.setSerial_loops (k : Nat) (v : SerialState) : (s.setSerial k v).loops = s.loops := rfl
@[simp] theorem State.setSerial_drives (k : Nat) (v : SerialState) : (s.setSerial k v).drives = s.drives := rfl
@[simp] theorem State.setSerial_link (k : Nat) (v : SerialState) : (s.setSerial k v).link = s.link := rfl
@[simp] theorem State.setSerial_ddr (k : Nat) (v : SerialState) : (s.setSerial k v).ddr = s.ddr := rfl
@[simp] theorem State.setSerial_srm (k : Nat) (v : SerialState) : (s.setSerial k v).srm = s.srm := rfl
@[simp] theorem State.setSerial_dma (k : Nat) (v : SerialState) : (s.setSerial k v).dma = s.dma := rfl
@[simp] theorem State.setSerial_tim (k : Nat) (v : SerialState) : (s.setSerial k v).tim = s.tim := rfl
@[simp] theorem State.setSerial_net (k : Nat) (v : SerialState) : (s.setSerial k v).net = s.net := rfl
@[simp] theorem State.setSerial_sec (k : Nat) (v : SerialState) : (s.setSerial k v).sec = s.sec := rfl
@[simp] theorem State.setSerial_fgd (k : Nat) (v : SerialState) : (s.setSerial k v).fgd = s.fgd := rfl
@[simp] theorem State.setSerial_flt (k : Nat) (v : SerialState) : (s.setSerial k v).flt = s.flt := rfl
@[simp] theorem State.setSerial_clk (k : Nat) (v : SerialState) : (s.setSerial k v).clk = s.clk := rfl
@[simp] theorem State.setSerial_thm (k : Nat) (v : SerialState) : (s.setSerial k v).thm = s.thm := rfl
@[simp] theorem State.setSerial_pwr (k : Nat) (v : SerialState) : (s.setSerial k v).pwr = s.pwr := rfl
@[simp] theorem State.setSerial_bkg (k : Nat) (v : SerialState) : (s.setSerial k v).bkg = s.bkg := rfl
@[simp] theorem State.setSerial_pins (k : Nat) (v : SerialState) : (s.setSerial k v).pins = s.pins := rfl
@[simp] theorem State.setSerial_plic (k : Nat) (v : SerialState) : (s.setSerial k v).plic = s.plic := rfl
@[simp] theorem State.setSerial_testMode (k : Nat) (v : SerialState) : (s.setSerial k v).testMode = s.testMode := rfl
@[simp] theorem State.setSerial_resp (k : Nat) (v : SerialState) : (s.setSerial k v).resp = s.resp := rfl
@[simp] theorem State.setSerial_free (k : Nat) (v : SerialState) : (s.setSerial k v).free = s.free := rfl
@[simp] theorem State.setSerial_pending (k : Nat) (v : SerialState) : (s.setSerial k v).pending = s.pending := rfl

@[simp] theorem State.setCounter_regs (k : Nat) (v : CounterSeen) : (s.setCounter k v).regs = s.regs := rfl
@[simp] theorem State.setCounter_mem (k : Nat) (v : CounterSeen) : (s.setCounter k v).mem = s.mem := rfl
@[simp] theorem State.setCounter_flash (k : Nat) (v : CounterSeen) : (s.setCounter k v).flash = s.flash := rfl
@[simp] theorem State.setCounter_lin (k : Nat) (v : CounterSeen) : (s.setCounter k v).lin = s.lin := rfl
@[simp] theorem State.setCounter_jobs (k : Nat) (v : CounterSeen) : (s.setCounter k v).jobs = s.jobs := rfl
@[simp] theorem State.setCounter_thermal (k : Nat) (v : CounterSeen) : (s.setCounter k v).thermal = s.thermal := rfl
@[simp] theorem State.setCounter_laser (k : Nat) (v : CounterSeen) : (s.setCounter k v).laser = s.laser := rfl
@[simp] theorem State.setCounter_loops (k : Nat) (v : CounterSeen) : (s.setCounter k v).loops = s.loops := rfl
@[simp] theorem State.setCounter_drives (k : Nat) (v : CounterSeen) : (s.setCounter k v).drives = s.drives := rfl
@[simp] theorem State.setCounter_link (k : Nat) (v : CounterSeen) : (s.setCounter k v).link = s.link := rfl
@[simp] theorem State.setCounter_ddr (k : Nat) (v : CounterSeen) : (s.setCounter k v).ddr = s.ddr := rfl
@[simp] theorem State.setCounter_srm (k : Nat) (v : CounterSeen) : (s.setCounter k v).srm = s.srm := rfl
@[simp] theorem State.setCounter_dma (k : Nat) (v : CounterSeen) : (s.setCounter k v).dma = s.dma := rfl
@[simp] theorem State.setCounter_tim (k : Nat) (v : CounterSeen) : (s.setCounter k v).tim = s.tim := rfl
@[simp] theorem State.setCounter_net (k : Nat) (v : CounterSeen) : (s.setCounter k v).net = s.net := rfl
@[simp] theorem State.setCounter_sec (k : Nat) (v : CounterSeen) : (s.setCounter k v).sec = s.sec := rfl
@[simp] theorem State.setCounter_fgd (k : Nat) (v : CounterSeen) : (s.setCounter k v).fgd = s.fgd := rfl
@[simp] theorem State.setCounter_flt (k : Nat) (v : CounterSeen) : (s.setCounter k v).flt = s.flt := rfl
@[simp] theorem State.setCounter_clk (k : Nat) (v : CounterSeen) : (s.setCounter k v).clk = s.clk := rfl
@[simp] theorem State.setCounter_thm (k : Nat) (v : CounterSeen) : (s.setCounter k v).thm = s.thm := rfl
@[simp] theorem State.setCounter_pwr (k : Nat) (v : CounterSeen) : (s.setCounter k v).pwr = s.pwr := rfl
@[simp] theorem State.setCounter_bkg (k : Nat) (v : CounterSeen) : (s.setCounter k v).bkg = s.bkg := rfl
@[simp] theorem State.setCounter_pins (k : Nat) (v : CounterSeen) : (s.setCounter k v).pins = s.pins := rfl
@[simp] theorem State.setCounter_plic (k : Nat) (v : CounterSeen) : (s.setCounter k v).plic = s.plic := rfl
@[simp] theorem State.setCounter_testMode (k : Nat) (v : CounterSeen) : (s.setCounter k v).testMode = s.testMode := rfl
@[simp] theorem State.setCounter_resp (k : Nat) (v : CounterSeen) : (s.setCounter k v).resp = s.resp := rfl
@[simp] theorem State.setCounter_free (k : Nat) (v : CounterSeen) : (s.setCounter k v).free = s.free := rfl
@[simp] theorem State.setCounter_pending (k : Nat) (v : CounterSeen) : (s.setCounter k v).pending = s.pending := rfl

@[simp] theorem State.setTherm_regs (k : Nat) (v : ThermState) : (s.setTherm k v).regs = s.regs := rfl
@[simp] theorem State.setTherm_mem (k : Nat) (v : ThermState) : (s.setTherm k v).mem = s.mem := rfl
@[simp] theorem State.setTherm_flash (k : Nat) (v : ThermState) : (s.setTherm k v).flash = s.flash := rfl
@[simp] theorem State.setTherm_lin (k : Nat) (v : ThermState) : (s.setTherm k v).lin = s.lin := rfl
@[simp] theorem State.setTherm_jobs (k : Nat) (v : ThermState) : (s.setTherm k v).jobs = s.jobs := rfl
@[simp] theorem State.setTherm_dmk (k : Nat) (v : ThermState) : (s.setTherm k v).dmk = s.dmk := rfl
@[simp] theorem State.setTherm_laser (k : Nat) (v : ThermState) : (s.setTherm k v).laser = s.laser := rfl
@[simp] theorem State.setTherm_loops (k : Nat) (v : ThermState) : (s.setTherm k v).loops = s.loops := rfl
@[simp] theorem State.setTherm_drives (k : Nat) (v : ThermState) : (s.setTherm k v).drives = s.drives := rfl
@[simp] theorem State.setTherm_link (k : Nat) (v : ThermState) : (s.setTherm k v).link = s.link := rfl
@[simp] theorem State.setTherm_ddr (k : Nat) (v : ThermState) : (s.setTherm k v).ddr = s.ddr := rfl
@[simp] theorem State.setTherm_srm (k : Nat) (v : ThermState) : (s.setTherm k v).srm = s.srm := rfl
@[simp] theorem State.setTherm_dma (k : Nat) (v : ThermState) : (s.setTherm k v).dma = s.dma := rfl
@[simp] theorem State.setTherm_tim (k : Nat) (v : ThermState) : (s.setTherm k v).tim = s.tim := rfl
@[simp] theorem State.setTherm_net (k : Nat) (v : ThermState) : (s.setTherm k v).net = s.net := rfl
@[simp] theorem State.setTherm_sec (k : Nat) (v : ThermState) : (s.setTherm k v).sec = s.sec := rfl
@[simp] theorem State.setTherm_fgd (k : Nat) (v : ThermState) : (s.setTherm k v).fgd = s.fgd := rfl
@[simp] theorem State.setTherm_flt (k : Nat) (v : ThermState) : (s.setTherm k v).flt = s.flt := rfl
@[simp] theorem State.setTherm_clk (k : Nat) (v : ThermState) : (s.setTherm k v).clk = s.clk := rfl
@[simp] theorem State.setTherm_thm (k : Nat) (v : ThermState) : (s.setTherm k v).thm = s.thm := rfl
@[simp] theorem State.setTherm_pwr (k : Nat) (v : ThermState) : (s.setTherm k v).pwr = s.pwr := rfl
@[simp] theorem State.setTherm_bkg (k : Nat) (v : ThermState) : (s.setTherm k v).bkg = s.bkg := rfl
@[simp] theorem State.setTherm_pins (k : Nat) (v : ThermState) : (s.setTherm k v).pins = s.pins := rfl
@[simp] theorem State.setTherm_plic (k : Nat) (v : ThermState) : (s.setTherm k v).plic = s.plic := rfl
@[simp] theorem State.setTherm_testMode (k : Nat) (v : ThermState) : (s.setTherm k v).testMode = s.testMode := rfl
@[simp] theorem State.setTherm_resp (k : Nat) (v : ThermState) : (s.setTherm k v).resp = s.resp := rfl
@[simp] theorem State.setTherm_free (k : Nat) (v : ThermState) : (s.setTherm k v).free = s.free := rfl
@[simp] theorem State.setTherm_pending (k : Nat) (v : ThermState) : (s.setTherm k v).pending = s.pending := rfl

@[simp] theorem State.setTag_regs (k : Nat) (v : TagState) : (s.setTag k v).regs = s.regs := rfl
@[simp] theorem State.setTag_mem (k : Nat) (v : TagState) : (s.setTag k v).mem = s.mem := rfl
@[simp] theorem State.setTag_flash (k : Nat) (v : TagState) : (s.setTag k v).flash = s.flash := rfl
@[simp] theorem State.setTag_lin (k : Nat) (v : TagState) : (s.setTag k v).lin = s.lin := rfl
@[simp] theorem State.setTag_jobs (k : Nat) (v : TagState) : (s.setTag k v).jobs = s.jobs := rfl
@[simp] theorem State.setTag_dmk (k : Nat) (v : TagState) : (s.setTag k v).dmk = s.dmk := rfl
@[simp] theorem State.setTag_laser (k : Nat) (v : TagState) : (s.setTag k v).laser = s.laser := rfl
@[simp] theorem State.setTag_loops (k : Nat) (v : TagState) : (s.setTag k v).loops = s.loops := rfl
@[simp] theorem State.setTag_drives (k : Nat) (v : TagState) : (s.setTag k v).drives = s.drives := rfl
@[simp] theorem State.setTag_link (k : Nat) (v : TagState) : (s.setTag k v).link = s.link := rfl
@[simp] theorem State.setTag_ddr (k : Nat) (v : TagState) : (s.setTag k v).ddr = s.ddr := rfl
@[simp] theorem State.setTag_srm (k : Nat) (v : TagState) : (s.setTag k v).srm = s.srm := rfl
@[simp] theorem State.setTag_dma (k : Nat) (v : TagState) : (s.setTag k v).dma = s.dma := rfl
@[simp] theorem State.setTag_tim (k : Nat) (v : TagState) : (s.setTag k v).tim = s.tim := rfl
@[simp] theorem State.setTag_net (k : Nat) (v : TagState) : (s.setTag k v).net = s.net := rfl
@[simp] theorem State.setTag_sec (k : Nat) (v : TagState) : (s.setTag k v).sec = s.sec := rfl
@[simp] theorem State.setTag_fgd (k : Nat) (v : TagState) : (s.setTag k v).fgd = s.fgd := rfl
@[simp] theorem State.setTag_flt (k : Nat) (v : TagState) : (s.setTag k v).flt = s.flt := rfl
@[simp] theorem State.setTag_clk (k : Nat) (v : TagState) : (s.setTag k v).clk = s.clk := rfl
@[simp] theorem State.setTag_thm (k : Nat) (v : TagState) : (s.setTag k v).thm = s.thm := rfl
@[simp] theorem State.setTag_pwr (k : Nat) (v : TagState) : (s.setTag k v).pwr = s.pwr := rfl
@[simp] theorem State.setTag_bkg (k : Nat) (v : TagState) : (s.setTag k v).bkg = s.bkg := rfl
@[simp] theorem State.setTag_pins (k : Nat) (v : TagState) : (s.setTag k v).pins = s.pins := rfl
@[simp] theorem State.setTag_plic (k : Nat) (v : TagState) : (s.setTag k v).plic = s.plic := rfl
@[simp] theorem State.setTag_testMode (k : Nat) (v : TagState) : (s.setTag k v).testMode = s.testMode := rfl
@[simp] theorem State.setTag_resp (k : Nat) (v : TagState) : (s.setTag k v).resp = s.resp := rfl
@[simp] theorem State.setTag_free (k : Nat) (v : TagState) : (s.setTag k v).free = s.free := rfl
@[simp] theorem State.setTag_pending (k : Nat) (v : TagState) : (s.setTag k v).pending = s.pending := rfl

@[simp] theorem State.setLas_regs (k : Nat) (v : LaserState) : (s.setLas k v).regs = s.regs := rfl
@[simp] theorem State.setLas_mem (k : Nat) (v : LaserState) : (s.setLas k v).mem = s.mem := rfl
@[simp] theorem State.setLas_flash (k : Nat) (v : LaserState) : (s.setLas k v).flash = s.flash := rfl
@[simp] theorem State.setLas_lin (k : Nat) (v : LaserState) : (s.setLas k v).lin = s.lin := rfl
@[simp] theorem State.setLas_jobs (k : Nat) (v : LaserState) : (s.setLas k v).jobs = s.jobs := rfl
@[simp] theorem State.setLas_dmk (k : Nat) (v : LaserState) : (s.setLas k v).dmk = s.dmk := rfl
@[simp] theorem State.setLas_thermal (k : Nat) (v : LaserState) : (s.setLas k v).thermal = s.thermal := rfl
@[simp] theorem State.setLas_loops (k : Nat) (v : LaserState) : (s.setLas k v).loops = s.loops := rfl
@[simp] theorem State.setLas_drives (k : Nat) (v : LaserState) : (s.setLas k v).drives = s.drives := rfl
@[simp] theorem State.setLas_link (k : Nat) (v : LaserState) : (s.setLas k v).link = s.link := rfl
@[simp] theorem State.setLas_ddr (k : Nat) (v : LaserState) : (s.setLas k v).ddr = s.ddr := rfl
@[simp] theorem State.setLas_srm (k : Nat) (v : LaserState) : (s.setLas k v).srm = s.srm := rfl
@[simp] theorem State.setLas_dma (k : Nat) (v : LaserState) : (s.setLas k v).dma = s.dma := rfl
@[simp] theorem State.setLas_tim (k : Nat) (v : LaserState) : (s.setLas k v).tim = s.tim := rfl
@[simp] theorem State.setLas_net (k : Nat) (v : LaserState) : (s.setLas k v).net = s.net := rfl
@[simp] theorem State.setLas_sec (k : Nat) (v : LaserState) : (s.setLas k v).sec = s.sec := rfl
@[simp] theorem State.setLas_fgd (k : Nat) (v : LaserState) : (s.setLas k v).fgd = s.fgd := rfl
@[simp] theorem State.setLas_flt (k : Nat) (v : LaserState) : (s.setLas k v).flt = s.flt := rfl
@[simp] theorem State.setLas_clk (k : Nat) (v : LaserState) : (s.setLas k v).clk = s.clk := rfl
@[simp] theorem State.setLas_thm (k : Nat) (v : LaserState) : (s.setLas k v).thm = s.thm := rfl
@[simp] theorem State.setLas_pwr (k : Nat) (v : LaserState) : (s.setLas k v).pwr = s.pwr := rfl
@[simp] theorem State.setLas_bkg (k : Nat) (v : LaserState) : (s.setLas k v).bkg = s.bkg := rfl
@[simp] theorem State.setLas_pins (k : Nat) (v : LaserState) : (s.setLas k v).pins = s.pins := rfl
@[simp] theorem State.setLas_plic (k : Nat) (v : LaserState) : (s.setLas k v).plic = s.plic := rfl
@[simp] theorem State.setLas_testMode (k : Nat) (v : LaserState) : (s.setLas k v).testMode = s.testMode := rfl
@[simp] theorem State.setLas_resp (k : Nat) (v : LaserState) : (s.setLas k v).resp = s.resp := rfl
@[simp] theorem State.setLas_free (k : Nat) (v : LaserState) : (s.setLas k v).free = s.free := rfl
@[simp] theorem State.setLas_pending (k : Nat) (v : LaserState) : (s.setLas k v).pending = s.pending := rfl

@[simp] theorem State.setLoop_regs (k : Nat) (v : LoopState) : (s.setLoop k v).regs = s.regs := rfl
@[simp] theorem State.setLoop_mem (k : Nat) (v : LoopState) : (s.setLoop k v).mem = s.mem := rfl
@[simp] theorem State.setLoop_flash (k : Nat) (v : LoopState) : (s.setLoop k v).flash = s.flash := rfl
@[simp] theorem State.setLoop_lin (k : Nat) (v : LoopState) : (s.setLoop k v).lin = s.lin := rfl
@[simp] theorem State.setLoop_jobs (k : Nat) (v : LoopState) : (s.setLoop k v).jobs = s.jobs := rfl
@[simp] theorem State.setLoop_dmk (k : Nat) (v : LoopState) : (s.setLoop k v).dmk = s.dmk := rfl
@[simp] theorem State.setLoop_thermal (k : Nat) (v : LoopState) : (s.setLoop k v).thermal = s.thermal := rfl
@[simp] theorem State.setLoop_laser (k : Nat) (v : LoopState) : (s.setLoop k v).laser = s.laser := rfl
@[simp] theorem State.setLoop_drives (k : Nat) (v : LoopState) : (s.setLoop k v).drives = s.drives := rfl
@[simp] theorem State.setLoop_link (k : Nat) (v : LoopState) : (s.setLoop k v).link = s.link := rfl
@[simp] theorem State.setLoop_ddr (k : Nat) (v : LoopState) : (s.setLoop k v).ddr = s.ddr := rfl
@[simp] theorem State.setLoop_srm (k : Nat) (v : LoopState) : (s.setLoop k v).srm = s.srm := rfl
@[simp] theorem State.setLoop_dma (k : Nat) (v : LoopState) : (s.setLoop k v).dma = s.dma := rfl
@[simp] theorem State.setLoop_tim (k : Nat) (v : LoopState) : (s.setLoop k v).tim = s.tim := rfl
@[simp] theorem State.setLoop_net (k : Nat) (v : LoopState) : (s.setLoop k v).net = s.net := rfl
@[simp] theorem State.setLoop_sec (k : Nat) (v : LoopState) : (s.setLoop k v).sec = s.sec := rfl
@[simp] theorem State.setLoop_fgd (k : Nat) (v : LoopState) : (s.setLoop k v).fgd = s.fgd := rfl
@[simp] theorem State.setLoop_flt (k : Nat) (v : LoopState) : (s.setLoop k v).flt = s.flt := rfl
@[simp] theorem State.setLoop_clk (k : Nat) (v : LoopState) : (s.setLoop k v).clk = s.clk := rfl
@[simp] theorem State.setLoop_thm (k : Nat) (v : LoopState) : (s.setLoop k v).thm = s.thm := rfl
@[simp] theorem State.setLoop_pwr (k : Nat) (v : LoopState) : (s.setLoop k v).pwr = s.pwr := rfl
@[simp] theorem State.setLoop_bkg (k : Nat) (v : LoopState) : (s.setLoop k v).bkg = s.bkg := rfl
@[simp] theorem State.setLoop_pins (k : Nat) (v : LoopState) : (s.setLoop k v).pins = s.pins := rfl
@[simp] theorem State.setLoop_plic (k : Nat) (v : LoopState) : (s.setLoop k v).plic = s.plic := rfl
@[simp] theorem State.setLoop_testMode (k : Nat) (v : LoopState) : (s.setLoop k v).testMode = s.testMode := rfl
@[simp] theorem State.setLoop_resp (k : Nat) (v : LoopState) : (s.setLoop k v).resp = s.resp := rfl
@[simp] theorem State.setLoop_free (k : Nat) (v : LoopState) : (s.setLoop k v).free = s.free := rfl
@[simp] theorem State.setLoop_pending (k : Nat) (v : LoopState) : (s.setLoop k v).pending = s.pending := rfl

@[simp] theorem State.setStep__regs (k : Nat) (v : StepperState) : (s.setStep_ k v).regs = s.regs := rfl
@[simp] theorem State.setStep__mem (k : Nat) (v : StepperState) : (s.setStep_ k v).mem = s.mem := rfl
@[simp] theorem State.setStep__flash (k : Nat) (v : StepperState) : (s.setStep_ k v).flash = s.flash := rfl
@[simp] theorem State.setStep__lin (k : Nat) (v : StepperState) : (s.setStep_ k v).lin = s.lin := rfl
@[simp] theorem State.setStep__jobs (k : Nat) (v : StepperState) : (s.setStep_ k v).jobs = s.jobs := rfl
@[simp] theorem State.setStep__dmk (k : Nat) (v : StepperState) : (s.setStep_ k v).dmk = s.dmk := rfl
@[simp] theorem State.setStep__thermal (k : Nat) (v : StepperState) : (s.setStep_ k v).thermal = s.thermal := rfl
@[simp] theorem State.setStep__laser (k : Nat) (v : StepperState) : (s.setStep_ k v).laser = s.laser := rfl
@[simp] theorem State.setStep__loops (k : Nat) (v : StepperState) : (s.setStep_ k v).loops = s.loops := rfl
@[simp] theorem State.setStep__link (k : Nat) (v : StepperState) : (s.setStep_ k v).link = s.link := rfl
@[simp] theorem State.setStep__ddr (k : Nat) (v : StepperState) : (s.setStep_ k v).ddr = s.ddr := rfl
@[simp] theorem State.setStep__srm (k : Nat) (v : StepperState) : (s.setStep_ k v).srm = s.srm := rfl
@[simp] theorem State.setStep__dma (k : Nat) (v : StepperState) : (s.setStep_ k v).dma = s.dma := rfl
@[simp] theorem State.setStep__tim (k : Nat) (v : StepperState) : (s.setStep_ k v).tim = s.tim := rfl
@[simp] theorem State.setStep__net (k : Nat) (v : StepperState) : (s.setStep_ k v).net = s.net := rfl
@[simp] theorem State.setStep__sec (k : Nat) (v : StepperState) : (s.setStep_ k v).sec = s.sec := rfl
@[simp] theorem State.setStep__fgd (k : Nat) (v : StepperState) : (s.setStep_ k v).fgd = s.fgd := rfl
@[simp] theorem State.setStep__flt (k : Nat) (v : StepperState) : (s.setStep_ k v).flt = s.flt := rfl
@[simp] theorem State.setStep__clk (k : Nat) (v : StepperState) : (s.setStep_ k v).clk = s.clk := rfl
@[simp] theorem State.setStep__thm (k : Nat) (v : StepperState) : (s.setStep_ k v).thm = s.thm := rfl
@[simp] theorem State.setStep__pwr (k : Nat) (v : StepperState) : (s.setStep_ k v).pwr = s.pwr := rfl
@[simp] theorem State.setStep__bkg (k : Nat) (v : StepperState) : (s.setStep_ k v).bkg = s.bkg := rfl
@[simp] theorem State.setStep__pins (k : Nat) (v : StepperState) : (s.setStep_ k v).pins = s.pins := rfl
@[simp] theorem State.setStep__plic (k : Nat) (v : StepperState) : (s.setStep_ k v).plic = s.plic := rfl
@[simp] theorem State.setStep__testMode (k : Nat) (v : StepperState) : (s.setStep_ k v).testMode = s.testMode := rfl
@[simp] theorem State.setStep__resp (k : Nat) (v : StepperState) : (s.setStep_ k v).resp = s.resp := rfl
@[simp] theorem State.setStep__free (k : Nat) (v : StepperState) : (s.setStep_ k v).free = s.free := rfl
@[simp] theorem State.setStep__pending (k : Nat) (v : StepperState) : (s.setStep_ k v).pending = s.pending := rfl

@[simp] theorem State.setBldc_regs (k : Nat) (v : BldcState) : (s.setBldc k v).regs = s.regs := rfl
@[simp] theorem State.setBldc_mem (k : Nat) (v : BldcState) : (s.setBldc k v).mem = s.mem := rfl
@[simp] theorem State.setBldc_flash (k : Nat) (v : BldcState) : (s.setBldc k v).flash = s.flash := rfl
@[simp] theorem State.setBldc_lin (k : Nat) (v : BldcState) : (s.setBldc k v).lin = s.lin := rfl
@[simp] theorem State.setBldc_jobs (k : Nat) (v : BldcState) : (s.setBldc k v).jobs = s.jobs := rfl
@[simp] theorem State.setBldc_dmk (k : Nat) (v : BldcState) : (s.setBldc k v).dmk = s.dmk := rfl
@[simp] theorem State.setBldc_thermal (k : Nat) (v : BldcState) : (s.setBldc k v).thermal = s.thermal := rfl
@[simp] theorem State.setBldc_laser (k : Nat) (v : BldcState) : (s.setBldc k v).laser = s.laser := rfl
@[simp] theorem State.setBldc_loops (k : Nat) (v : BldcState) : (s.setBldc k v).loops = s.loops := rfl
@[simp] theorem State.setBldc_link (k : Nat) (v : BldcState) : (s.setBldc k v).link = s.link := rfl
@[simp] theorem State.setBldc_ddr (k : Nat) (v : BldcState) : (s.setBldc k v).ddr = s.ddr := rfl
@[simp] theorem State.setBldc_srm (k : Nat) (v : BldcState) : (s.setBldc k v).srm = s.srm := rfl
@[simp] theorem State.setBldc_dma (k : Nat) (v : BldcState) : (s.setBldc k v).dma = s.dma := rfl
@[simp] theorem State.setBldc_tim (k : Nat) (v : BldcState) : (s.setBldc k v).tim = s.tim := rfl
@[simp] theorem State.setBldc_net (k : Nat) (v : BldcState) : (s.setBldc k v).net = s.net := rfl
@[simp] theorem State.setBldc_sec (k : Nat) (v : BldcState) : (s.setBldc k v).sec = s.sec := rfl
@[simp] theorem State.setBldc_fgd (k : Nat) (v : BldcState) : (s.setBldc k v).fgd = s.fgd := rfl
@[simp] theorem State.setBldc_flt (k : Nat) (v : BldcState) : (s.setBldc k v).flt = s.flt := rfl
@[simp] theorem State.setBldc_clk (k : Nat) (v : BldcState) : (s.setBldc k v).clk = s.clk := rfl
@[simp] theorem State.setBldc_thm (k : Nat) (v : BldcState) : (s.setBldc k v).thm = s.thm := rfl
@[simp] theorem State.setBldc_pwr (k : Nat) (v : BldcState) : (s.setBldc k v).pwr = s.pwr := rfl
@[simp] theorem State.setBldc_bkg (k : Nat) (v : BldcState) : (s.setBldc k v).bkg = s.bkg := rfl
@[simp] theorem State.setBldc_pins (k : Nat) (v : BldcState) : (s.setBldc k v).pins = s.pins := rfl
@[simp] theorem State.setBldc_plic (k : Nat) (v : BldcState) : (s.setBldc k v).plic = s.plic := rfl
@[simp] theorem State.setBldc_testMode (k : Nat) (v : BldcState) : (s.setBldc k v).testMode = s.testMode := rfl
@[simp] theorem State.setBldc_resp (k : Nat) (v : BldcState) : (s.setBldc k v).resp = s.resp := rfl
@[simp] theorem State.setBldc_free (k : Nat) (v : BldcState) : (s.setBldc k v).free = s.free := rfl
@[simp] theorem State.setBldc_pending (k : Nat) (v : BldcState) : (s.setBldc k v).pending = s.pending := rfl

@[simp] theorem State.setMbus_regs (k : Nat) (v : BusState) : (s.setMbus k v).regs = s.regs := rfl
@[simp] theorem State.setMbus_mem (k : Nat) (v : BusState) : (s.setMbus k v).mem = s.mem := rfl
@[simp] theorem State.setMbus_flash (k : Nat) (v : BusState) : (s.setMbus k v).flash = s.flash := rfl
@[simp] theorem State.setMbus_lin (k : Nat) (v : BusState) : (s.setMbus k v).lin = s.lin := rfl
@[simp] theorem State.setMbus_jobs (k : Nat) (v : BusState) : (s.setMbus k v).jobs = s.jobs := rfl
@[simp] theorem State.setMbus_dmk (k : Nat) (v : BusState) : (s.setMbus k v).dmk = s.dmk := rfl
@[simp] theorem State.setMbus_thermal (k : Nat) (v : BusState) : (s.setMbus k v).thermal = s.thermal := rfl
@[simp] theorem State.setMbus_laser (k : Nat) (v : BusState) : (s.setMbus k v).laser = s.laser := rfl
@[simp] theorem State.setMbus_loops (k : Nat) (v : BusState) : (s.setMbus k v).loops = s.loops := rfl
@[simp] theorem State.setMbus_link (k : Nat) (v : BusState) : (s.setMbus k v).link = s.link := rfl
@[simp] theorem State.setMbus_ddr (k : Nat) (v : BusState) : (s.setMbus k v).ddr = s.ddr := rfl
@[simp] theorem State.setMbus_srm (k : Nat) (v : BusState) : (s.setMbus k v).srm = s.srm := rfl
@[simp] theorem State.setMbus_dma (k : Nat) (v : BusState) : (s.setMbus k v).dma = s.dma := rfl
@[simp] theorem State.setMbus_tim (k : Nat) (v : BusState) : (s.setMbus k v).tim = s.tim := rfl
@[simp] theorem State.setMbus_net (k : Nat) (v : BusState) : (s.setMbus k v).net = s.net := rfl
@[simp] theorem State.setMbus_sec (k : Nat) (v : BusState) : (s.setMbus k v).sec = s.sec := rfl
@[simp] theorem State.setMbus_fgd (k : Nat) (v : BusState) : (s.setMbus k v).fgd = s.fgd := rfl
@[simp] theorem State.setMbus_flt (k : Nat) (v : BusState) : (s.setMbus k v).flt = s.flt := rfl
@[simp] theorem State.setMbus_clk (k : Nat) (v : BusState) : (s.setMbus k v).clk = s.clk := rfl
@[simp] theorem State.setMbus_thm (k : Nat) (v : BusState) : (s.setMbus k v).thm = s.thm := rfl
@[simp] theorem State.setMbus_pwr (k : Nat) (v : BusState) : (s.setMbus k v).pwr = s.pwr := rfl
@[simp] theorem State.setMbus_bkg (k : Nat) (v : BusState) : (s.setMbus k v).bkg = s.bkg := rfl
@[simp] theorem State.setMbus_pins (k : Nat) (v : BusState) : (s.setMbus k v).pins = s.pins := rfl
@[simp] theorem State.setMbus_plic (k : Nat) (v : BusState) : (s.setMbus k v).plic = s.plic := rfl
@[simp] theorem State.setMbus_testMode (k : Nat) (v : BusState) : (s.setMbus k v).testMode = s.testMode := rfl
@[simp] theorem State.setMbus_resp (k : Nat) (v : BusState) : (s.setMbus k v).resp = s.resp := rfl
@[simp] theorem State.setMbus_free (k : Nat) (v : BusState) : (s.setMbus k v).free = s.free := rfl
@[simp] theorem State.setMbus_pending (k : Nat) (v : BusState) : (s.setMbus k v).pending = s.pending := rfl

@[simp] theorem State.setLnk_regs (k : Nat) (v : LinkState) : (s.setLnk k v).regs = s.regs := rfl
@[simp] theorem State.setLnk_mem (k : Nat) (v : LinkState) : (s.setLnk k v).mem = s.mem := rfl
@[simp] theorem State.setLnk_flash (k : Nat) (v : LinkState) : (s.setLnk k v).flash = s.flash := rfl
@[simp] theorem State.setLnk_lin (k : Nat) (v : LinkState) : (s.setLnk k v).lin = s.lin := rfl
@[simp] theorem State.setLnk_jobs (k : Nat) (v : LinkState) : (s.setLnk k v).jobs = s.jobs := rfl
@[simp] theorem State.setLnk_dmk (k : Nat) (v : LinkState) : (s.setLnk k v).dmk = s.dmk := rfl
@[simp] theorem State.setLnk_thermal (k : Nat) (v : LinkState) : (s.setLnk k v).thermal = s.thermal := rfl
@[simp] theorem State.setLnk_laser (k : Nat) (v : LinkState) : (s.setLnk k v).laser = s.laser := rfl
@[simp] theorem State.setLnk_loops (k : Nat) (v : LinkState) : (s.setLnk k v).loops = s.loops := rfl
@[simp] theorem State.setLnk_drives (k : Nat) (v : LinkState) : (s.setLnk k v).drives = s.drives := rfl
@[simp] theorem State.setLnk_ddr (k : Nat) (v : LinkState) : (s.setLnk k v).ddr = s.ddr := rfl
@[simp] theorem State.setLnk_srm (k : Nat) (v : LinkState) : (s.setLnk k v).srm = s.srm := rfl
@[simp] theorem State.setLnk_dma (k : Nat) (v : LinkState) : (s.setLnk k v).dma = s.dma := rfl
@[simp] theorem State.setLnk_tim (k : Nat) (v : LinkState) : (s.setLnk k v).tim = s.tim := rfl
@[simp] theorem State.setLnk_net (k : Nat) (v : LinkState) : (s.setLnk k v).net = s.net := rfl
@[simp] theorem State.setLnk_sec (k : Nat) (v : LinkState) : (s.setLnk k v).sec = s.sec := rfl
@[simp] theorem State.setLnk_fgd (k : Nat) (v : LinkState) : (s.setLnk k v).fgd = s.fgd := rfl
@[simp] theorem State.setLnk_flt (k : Nat) (v : LinkState) : (s.setLnk k v).flt = s.flt := rfl
@[simp] theorem State.setLnk_clk (k : Nat) (v : LinkState) : (s.setLnk k v).clk = s.clk := rfl
@[simp] theorem State.setLnk_thm (k : Nat) (v : LinkState) : (s.setLnk k v).thm = s.thm := rfl
@[simp] theorem State.setLnk_pwr (k : Nat) (v : LinkState) : (s.setLnk k v).pwr = s.pwr := rfl
@[simp] theorem State.setLnk_bkg (k : Nat) (v : LinkState) : (s.setLnk k v).bkg = s.bkg := rfl
@[simp] theorem State.setLnk_pins (k : Nat) (v : LinkState) : (s.setLnk k v).pins = s.pins := rfl
@[simp] theorem State.setLnk_plic (k : Nat) (v : LinkState) : (s.setLnk k v).plic = s.plic := rfl
@[simp] theorem State.setLnk_testMode (k : Nat) (v : LinkState) : (s.setLnk k v).testMode = s.testMode := rfl
@[simp] theorem State.setLnk_resp (k : Nat) (v : LinkState) : (s.setLnk k v).resp = s.resp := rfl
@[simp] theorem State.setLnk_free (k : Nat) (v : LinkState) : (s.setLnk k v).free = s.free := rfl
@[simp] theorem State.setLnk_pending (k : Nat) (v : LinkState) : (s.setLnk k v).pending = s.pending := rfl

@[simp] theorem State.setDch_regs (k : Nat) (v : DmaChan) : (s.setDch k v).regs = s.regs := rfl
@[simp] theorem State.setDch_mem (k : Nat) (v : DmaChan) : (s.setDch k v).mem = s.mem := rfl
@[simp] theorem State.setDch_flash (k : Nat) (v : DmaChan) : (s.setDch k v).flash = s.flash := rfl
@[simp] theorem State.setDch_lin (k : Nat) (v : DmaChan) : (s.setDch k v).lin = s.lin := rfl
@[simp] theorem State.setDch_jobs (k : Nat) (v : DmaChan) : (s.setDch k v).jobs = s.jobs := rfl
@[simp] theorem State.setDch_dmk (k : Nat) (v : DmaChan) : (s.setDch k v).dmk = s.dmk := rfl
@[simp] theorem State.setDch_thermal (k : Nat) (v : DmaChan) : (s.setDch k v).thermal = s.thermal := rfl
@[simp] theorem State.setDch_laser (k : Nat) (v : DmaChan) : (s.setDch k v).laser = s.laser := rfl
@[simp] theorem State.setDch_loops (k : Nat) (v : DmaChan) : (s.setDch k v).loops = s.loops := rfl
@[simp] theorem State.setDch_drives (k : Nat) (v : DmaChan) : (s.setDch k v).drives = s.drives := rfl
@[simp] theorem State.setDch_link (k : Nat) (v : DmaChan) : (s.setDch k v).link = s.link := rfl
@[simp] theorem State.setDch_ddr (k : Nat) (v : DmaChan) : (s.setDch k v).ddr = s.ddr := rfl
@[simp] theorem State.setDch_srm (k : Nat) (v : DmaChan) : (s.setDch k v).srm = s.srm := rfl
@[simp] theorem State.setDch_tim (k : Nat) (v : DmaChan) : (s.setDch k v).tim = s.tim := rfl
@[simp] theorem State.setDch_net (k : Nat) (v : DmaChan) : (s.setDch k v).net = s.net := rfl
@[simp] theorem State.setDch_sec (k : Nat) (v : DmaChan) : (s.setDch k v).sec = s.sec := rfl
@[simp] theorem State.setDch_fgd (k : Nat) (v : DmaChan) : (s.setDch k v).fgd = s.fgd := rfl
@[simp] theorem State.setDch_flt (k : Nat) (v : DmaChan) : (s.setDch k v).flt = s.flt := rfl
@[simp] theorem State.setDch_clk (k : Nat) (v : DmaChan) : (s.setDch k v).clk = s.clk := rfl
@[simp] theorem State.setDch_thm (k : Nat) (v : DmaChan) : (s.setDch k v).thm = s.thm := rfl
@[simp] theorem State.setDch_pwr (k : Nat) (v : DmaChan) : (s.setDch k v).pwr = s.pwr := rfl
@[simp] theorem State.setDch_bkg (k : Nat) (v : DmaChan) : (s.setDch k v).bkg = s.bkg := rfl
@[simp] theorem State.setDch_pins (k : Nat) (v : DmaChan) : (s.setDch k v).pins = s.pins := rfl
@[simp] theorem State.setDch_plic (k : Nat) (v : DmaChan) : (s.setDch k v).plic = s.plic := rfl
@[simp] theorem State.setDch_testMode (k : Nat) (v : DmaChan) : (s.setDch k v).testMode = s.testMode := rfl
@[simp] theorem State.setDch_resp (k : Nat) (v : DmaChan) : (s.setDch k v).resp = s.resp := rfl
@[simp] theorem State.setDch_free (k : Nat) (v : DmaChan) : (s.setDch k v).free = s.free := rfl
@[simp] theorem State.setDch_pending (k : Nat) (v : DmaChan) : (s.setDch k v).pending = s.pending := rfl

@[simp] theorem State.setRing_regs (k : Nat) (v : RingState) : (s.setRing k v).regs = s.regs := rfl
@[simp] theorem State.setRing_mem (k : Nat) (v : RingState) : (s.setRing k v).mem = s.mem := rfl
@[simp] theorem State.setRing_flash (k : Nat) (v : RingState) : (s.setRing k v).flash = s.flash := rfl
@[simp] theorem State.setRing_lin (k : Nat) (v : RingState) : (s.setRing k v).lin = s.lin := rfl
@[simp] theorem State.setRing_jobs (k : Nat) (v : RingState) : (s.setRing k v).jobs = s.jobs := rfl
@[simp] theorem State.setRing_dmk (k : Nat) (v : RingState) : (s.setRing k v).dmk = s.dmk := rfl
@[simp] theorem State.setRing_thermal (k : Nat) (v : RingState) : (s.setRing k v).thermal = s.thermal := rfl
@[simp] theorem State.setRing_laser (k : Nat) (v : RingState) : (s.setRing k v).laser = s.laser := rfl
@[simp] theorem State.setRing_loops (k : Nat) (v : RingState) : (s.setRing k v).loops = s.loops := rfl
@[simp] theorem State.setRing_drives (k : Nat) (v : RingState) : (s.setRing k v).drives = s.drives := rfl
@[simp] theorem State.setRing_link (k : Nat) (v : RingState) : (s.setRing k v).link = s.link := rfl
@[simp] theorem State.setRing_ddr (k : Nat) (v : RingState) : (s.setRing k v).ddr = s.ddr := rfl
@[simp] theorem State.setRing_srm (k : Nat) (v : RingState) : (s.setRing k v).srm = s.srm := rfl
@[simp] theorem State.setRing_tim (k : Nat) (v : RingState) : (s.setRing k v).tim = s.tim := rfl
@[simp] theorem State.setRing_net (k : Nat) (v : RingState) : (s.setRing k v).net = s.net := rfl
@[simp] theorem State.setRing_sec (k : Nat) (v : RingState) : (s.setRing k v).sec = s.sec := rfl
@[simp] theorem State.setRing_fgd (k : Nat) (v : RingState) : (s.setRing k v).fgd = s.fgd := rfl
@[simp] theorem State.setRing_flt (k : Nat) (v : RingState) : (s.setRing k v).flt = s.flt := rfl
@[simp] theorem State.setRing_clk (k : Nat) (v : RingState) : (s.setRing k v).clk = s.clk := rfl
@[simp] theorem State.setRing_thm (k : Nat) (v : RingState) : (s.setRing k v).thm = s.thm := rfl
@[simp] theorem State.setRing_pwr (k : Nat) (v : RingState) : (s.setRing k v).pwr = s.pwr := rfl
@[simp] theorem State.setRing_bkg (k : Nat) (v : RingState) : (s.setRing k v).bkg = s.bkg := rfl
@[simp] theorem State.setRing_pins (k : Nat) (v : RingState) : (s.setRing k v).pins = s.pins := rfl
@[simp] theorem State.setRing_plic (k : Nat) (v : RingState) : (s.setRing k v).plic = s.plic := rfl
@[simp] theorem State.setRing_testMode (k : Nat) (v : RingState) : (s.setRing k v).testMode = s.testMode := rfl
@[simp] theorem State.setRing_resp (k : Nat) (v : RingState) : (s.setRing k v).resp = s.resp := rfl
@[simp] theorem State.setRing_free (k : Nat) (v : RingState) : (s.setRing k v).free = s.free := rfl
@[simp] theorem State.setRing_pending (k : Nat) (v : RingState) : (s.setRing k v).pending = s.pending := rfl

@[simp] theorem State.setLane_regs (k : Nat) (v : LaneUse) : (s.setLane k v).regs = s.regs := rfl
@[simp] theorem State.setLane_mem (k : Nat) (v : LaneUse) : (s.setLane k v).mem = s.mem := rfl
@[simp] theorem State.setLane_flash (k : Nat) (v : LaneUse) : (s.setLane k v).flash = s.flash := rfl
@[simp] theorem State.setLane_lin (k : Nat) (v : LaneUse) : (s.setLane k v).lin = s.lin := rfl
@[simp] theorem State.setLane_jobs (k : Nat) (v : LaneUse) : (s.setLane k v).jobs = s.jobs := rfl
@[simp] theorem State.setLane_dmk (k : Nat) (v : LaneUse) : (s.setLane k v).dmk = s.dmk := rfl
@[simp] theorem State.setLane_thermal (k : Nat) (v : LaneUse) : (s.setLane k v).thermal = s.thermal := rfl
@[simp] theorem State.setLane_laser (k : Nat) (v : LaneUse) : (s.setLane k v).laser = s.laser := rfl
@[simp] theorem State.setLane_loops (k : Nat) (v : LaneUse) : (s.setLane k v).loops = s.loops := rfl
@[simp] theorem State.setLane_drives (k : Nat) (v : LaneUse) : (s.setLane k v).drives = s.drives := rfl
@[simp] theorem State.setLane_link (k : Nat) (v : LaneUse) : (s.setLane k v).link = s.link := rfl
@[simp] theorem State.setLane_ddr (k : Nat) (v : LaneUse) : (s.setLane k v).ddr = s.ddr := rfl
@[simp] theorem State.setLane_srm (k : Nat) (v : LaneUse) : (s.setLane k v).srm = s.srm := rfl
@[simp] theorem State.setLane_tim (k : Nat) (v : LaneUse) : (s.setLane k v).tim = s.tim := rfl
@[simp] theorem State.setLane_net (k : Nat) (v : LaneUse) : (s.setLane k v).net = s.net := rfl
@[simp] theorem State.setLane_sec (k : Nat) (v : LaneUse) : (s.setLane k v).sec = s.sec := rfl
@[simp] theorem State.setLane_fgd (k : Nat) (v : LaneUse) : (s.setLane k v).fgd = s.fgd := rfl
@[simp] theorem State.setLane_flt (k : Nat) (v : LaneUse) : (s.setLane k v).flt = s.flt := rfl
@[simp] theorem State.setLane_clk (k : Nat) (v : LaneUse) : (s.setLane k v).clk = s.clk := rfl
@[simp] theorem State.setLane_thm (k : Nat) (v : LaneUse) : (s.setLane k v).thm = s.thm := rfl
@[simp] theorem State.setLane_pwr (k : Nat) (v : LaneUse) : (s.setLane k v).pwr = s.pwr := rfl
@[simp] theorem State.setLane_bkg (k : Nat) (v : LaneUse) : (s.setLane k v).bkg = s.bkg := rfl
@[simp] theorem State.setLane_pins (k : Nat) (v : LaneUse) : (s.setLane k v).pins = s.pins := rfl
@[simp] theorem State.setLane_plic (k : Nat) (v : LaneUse) : (s.setLane k v).plic = s.plic := rfl
@[simp] theorem State.setLane_testMode (k : Nat) (v : LaneUse) : (s.setLane k v).testMode = s.testMode := rfl
@[simp] theorem State.setLane_resp (k : Nat) (v : LaneUse) : (s.setLane k v).resp = s.resp := rfl
@[simp] theorem State.setLane_free (k : Nat) (v : LaneUse) : (s.setLane k v).free = s.free := rfl
@[simp] theorem State.setLane_pending (k : Nat) (v : LaneUse) : (s.setLane k v).pending = s.pending := rfl

@[simp] theorem State.setChain_regs (k : Nat) (v : ChainHead) : (s.setChain k v).regs = s.regs := rfl
@[simp] theorem State.setChain_mem (k : Nat) (v : ChainHead) : (s.setChain k v).mem = s.mem := rfl
@[simp] theorem State.setChain_flash (k : Nat) (v : ChainHead) : (s.setChain k v).flash = s.flash := rfl
@[simp] theorem State.setChain_lin (k : Nat) (v : ChainHead) : (s.setChain k v).lin = s.lin := rfl
@[simp] theorem State.setChain_jobs (k : Nat) (v : ChainHead) : (s.setChain k v).jobs = s.jobs := rfl
@[simp] theorem State.setChain_dmk (k : Nat) (v : ChainHead) : (s.setChain k v).dmk = s.dmk := rfl
@[simp] theorem State.setChain_thermal (k : Nat) (v : ChainHead) : (s.setChain k v).thermal = s.thermal := rfl
@[simp] theorem State.setChain_laser (k : Nat) (v : ChainHead) : (s.setChain k v).laser = s.laser := rfl
@[simp] theorem State.setChain_loops (k : Nat) (v : ChainHead) : (s.setChain k v).loops = s.loops := rfl
@[simp] theorem State.setChain_drives (k : Nat) (v : ChainHead) : (s.setChain k v).drives = s.drives := rfl
@[simp] theorem State.setChain_link (k : Nat) (v : ChainHead) : (s.setChain k v).link = s.link := rfl
@[simp] theorem State.setChain_ddr (k : Nat) (v : ChainHead) : (s.setChain k v).ddr = s.ddr := rfl
@[simp] theorem State.setChain_srm (k : Nat) (v : ChainHead) : (s.setChain k v).srm = s.srm := rfl
@[simp] theorem State.setChain_dma (k : Nat) (v : ChainHead) : (s.setChain k v).dma = s.dma := rfl
@[simp] theorem State.setChain_tim (k : Nat) (v : ChainHead) : (s.setChain k v).tim = s.tim := rfl
@[simp] theorem State.setChain_net (k : Nat) (v : ChainHead) : (s.setChain k v).net = s.net := rfl
@[simp] theorem State.setChain_fgd (k : Nat) (v : ChainHead) : (s.setChain k v).fgd = s.fgd := rfl
@[simp] theorem State.setChain_flt (k : Nat) (v : ChainHead) : (s.setChain k v).flt = s.flt := rfl
@[simp] theorem State.setChain_clk (k : Nat) (v : ChainHead) : (s.setChain k v).clk = s.clk := rfl
@[simp] theorem State.setChain_thm (k : Nat) (v : ChainHead) : (s.setChain k v).thm = s.thm := rfl
@[simp] theorem State.setChain_pwr (k : Nat) (v : ChainHead) : (s.setChain k v).pwr = s.pwr := rfl
@[simp] theorem State.setChain_bkg (k : Nat) (v : ChainHead) : (s.setChain k v).bkg = s.bkg := rfl
@[simp] theorem State.setChain_pins (k : Nat) (v : ChainHead) : (s.setChain k v).pins = s.pins := rfl
@[simp] theorem State.setChain_plic (k : Nat) (v : ChainHead) : (s.setChain k v).plic = s.plic := rfl
@[simp] theorem State.setChain_testMode (k : Nat) (v : ChainHead) : (s.setChain k v).testMode = s.testMode := rfl
@[simp] theorem State.setChain_resp (k : Nat) (v : ChainHead) : (s.setChain k v).resp = s.resp := rfl
@[simp] theorem State.setChain_free (k : Nat) (v : ChainHead) : (s.setChain k v).free = s.free := rfl
@[simp] theorem State.setChain_pending (k : Nat) (v : ChainHead) : (s.setChain k v).pending = s.pending := rfl

@[simp] theorem State.setIlk_regs (k : Nat) (v : IlkState) : (s.setIlk k v).regs = s.regs := rfl
@[simp] theorem State.setIlk_mem (k : Nat) (v : IlkState) : (s.setIlk k v).mem = s.mem := rfl
@[simp] theorem State.setIlk_flash (k : Nat) (v : IlkState) : (s.setIlk k v).flash = s.flash := rfl
@[simp] theorem State.setIlk_lin (k : Nat) (v : IlkState) : (s.setIlk k v).lin = s.lin := rfl
@[simp] theorem State.setIlk_jobs (k : Nat) (v : IlkState) : (s.setIlk k v).jobs = s.jobs := rfl
@[simp] theorem State.setIlk_dmk (k : Nat) (v : IlkState) : (s.setIlk k v).dmk = s.dmk := rfl
@[simp] theorem State.setIlk_thermal (k : Nat) (v : IlkState) : (s.setIlk k v).thermal = s.thermal := rfl
@[simp] theorem State.setIlk_laser (k : Nat) (v : IlkState) : (s.setIlk k v).laser = s.laser := rfl
@[simp] theorem State.setIlk_loops (k : Nat) (v : IlkState) : (s.setIlk k v).loops = s.loops := rfl
@[simp] theorem State.setIlk_drives (k : Nat) (v : IlkState) : (s.setIlk k v).drives = s.drives := rfl
@[simp] theorem State.setIlk_link (k : Nat) (v : IlkState) : (s.setIlk k v).link = s.link := rfl
@[simp] theorem State.setIlk_ddr (k : Nat) (v : IlkState) : (s.setIlk k v).ddr = s.ddr := rfl
@[simp] theorem State.setIlk_srm (k : Nat) (v : IlkState) : (s.setIlk k v).srm = s.srm := rfl
@[simp] theorem State.setIlk_dma (k : Nat) (v : IlkState) : (s.setIlk k v).dma = s.dma := rfl
@[simp] theorem State.setIlk_tim (k : Nat) (v : IlkState) : (s.setIlk k v).tim = s.tim := rfl
@[simp] theorem State.setIlk_net (k : Nat) (v : IlkState) : (s.setIlk k v).net = s.net := rfl
@[simp] theorem State.setIlk_sec (k : Nat) (v : IlkState) : (s.setIlk k v).sec = s.sec := rfl
@[simp] theorem State.setIlk_flt (k : Nat) (v : IlkState) : (s.setIlk k v).flt = s.flt := rfl
@[simp] theorem State.setIlk_clk (k : Nat) (v : IlkState) : (s.setIlk k v).clk = s.clk := rfl
@[simp] theorem State.setIlk_thm (k : Nat) (v : IlkState) : (s.setIlk k v).thm = s.thm := rfl
@[simp] theorem State.setIlk_pwr (k : Nat) (v : IlkState) : (s.setIlk k v).pwr = s.pwr := rfl
@[simp] theorem State.setIlk_bkg (k : Nat) (v : IlkState) : (s.setIlk k v).bkg = s.bkg := rfl
@[simp] theorem State.setIlk_pins (k : Nat) (v : IlkState) : (s.setIlk k v).pins = s.pins := rfl
@[simp] theorem State.setIlk_plic (k : Nat) (v : IlkState) : (s.setIlk k v).plic = s.plic := rfl
@[simp] theorem State.setIlk_testMode (k : Nat) (v : IlkState) : (s.setIlk k v).testMode = s.testMode := rfl
@[simp] theorem State.setIlk_resp (k : Nat) (v : IlkState) : (s.setIlk k v).resp = s.resp := rfl
@[simp] theorem State.setIlk_free (k : Nat) (v : IlkState) : (s.setIlk k v).free = s.free := rfl
@[simp] theorem State.setIlk_pending (k : Nat) (v : IlkState) : (s.setIlk k v).pending = s.pending := rfl

@[simp] theorem State.setSrc_regs (k : Nat) (v : SrcState) : (s.setSrc k v).regs = s.regs := rfl
@[simp] theorem State.setSrc_mem (k : Nat) (v : SrcState) : (s.setSrc k v).mem = s.mem := rfl
@[simp] theorem State.setSrc_flash (k : Nat) (v : SrcState) : (s.setSrc k v).flash = s.flash := rfl
@[simp] theorem State.setSrc_lin (k : Nat) (v : SrcState) : (s.setSrc k v).lin = s.lin := rfl
@[simp] theorem State.setSrc_jobs (k : Nat) (v : SrcState) : (s.setSrc k v).jobs = s.jobs := rfl
@[simp] theorem State.setSrc_dmk (k : Nat) (v : SrcState) : (s.setSrc k v).dmk = s.dmk := rfl
@[simp] theorem State.setSrc_thermal (k : Nat) (v : SrcState) : (s.setSrc k v).thermal = s.thermal := rfl
@[simp] theorem State.setSrc_laser (k : Nat) (v : SrcState) : (s.setSrc k v).laser = s.laser := rfl
@[simp] theorem State.setSrc_loops (k : Nat) (v : SrcState) : (s.setSrc k v).loops = s.loops := rfl
@[simp] theorem State.setSrc_drives (k : Nat) (v : SrcState) : (s.setSrc k v).drives = s.drives := rfl
@[simp] theorem State.setSrc_link (k : Nat) (v : SrcState) : (s.setSrc k v).link = s.link := rfl
@[simp] theorem State.setSrc_ddr (k : Nat) (v : SrcState) : (s.setSrc k v).ddr = s.ddr := rfl
@[simp] theorem State.setSrc_srm (k : Nat) (v : SrcState) : (s.setSrc k v).srm = s.srm := rfl
@[simp] theorem State.setSrc_dma (k : Nat) (v : SrcState) : (s.setSrc k v).dma = s.dma := rfl
@[simp] theorem State.setSrc_tim (k : Nat) (v : SrcState) : (s.setSrc k v).tim = s.tim := rfl
@[simp] theorem State.setSrc_net (k : Nat) (v : SrcState) : (s.setSrc k v).net = s.net := rfl
@[simp] theorem State.setSrc_sec (k : Nat) (v : SrcState) : (s.setSrc k v).sec = s.sec := rfl
@[simp] theorem State.setSrc_fgd (k : Nat) (v : SrcState) : (s.setSrc k v).fgd = s.fgd := rfl
@[simp] theorem State.setSrc_clk (k : Nat) (v : SrcState) : (s.setSrc k v).clk = s.clk := rfl
@[simp] theorem State.setSrc_thm (k : Nat) (v : SrcState) : (s.setSrc k v).thm = s.thm := rfl
@[simp] theorem State.setSrc_pwr (k : Nat) (v : SrcState) : (s.setSrc k v).pwr = s.pwr := rfl
@[simp] theorem State.setSrc_bkg (k : Nat) (v : SrcState) : (s.setSrc k v).bkg = s.bkg := rfl
@[simp] theorem State.setSrc_pins (k : Nat) (v : SrcState) : (s.setSrc k v).pins = s.pins := rfl
@[simp] theorem State.setSrc_plic (k : Nat) (v : SrcState) : (s.setSrc k v).plic = s.plic := rfl
@[simp] theorem State.setSrc_testMode (k : Nat) (v : SrcState) : (s.setSrc k v).testMode = s.testMode := rfl
@[simp] theorem State.setSrc_resp (k : Nat) (v : SrcState) : (s.setSrc k v).resp = s.resp := rfl
@[simp] theorem State.setSrc_free (k : Nat) (v : SrcState) : (s.setSrc k v).free = s.free := rfl
@[simp] theorem State.setSrc_pending (k : Nat) (v : SrcState) : (s.setSrc k v).pending = s.pending := rfl

@[simp] theorem State.setSyn_regs (k : Nat) (v : SynState) : (s.setSyn k v).regs = s.regs := rfl
@[simp] theorem State.setSyn_mem (k : Nat) (v : SynState) : (s.setSyn k v).mem = s.mem := rfl
@[simp] theorem State.setSyn_flash (k : Nat) (v : SynState) : (s.setSyn k v).flash = s.flash := rfl
@[simp] theorem State.setSyn_lin (k : Nat) (v : SynState) : (s.setSyn k v).lin = s.lin := rfl
@[simp] theorem State.setSyn_jobs (k : Nat) (v : SynState) : (s.setSyn k v).jobs = s.jobs := rfl
@[simp] theorem State.setSyn_dmk (k : Nat) (v : SynState) : (s.setSyn k v).dmk = s.dmk := rfl
@[simp] theorem State.setSyn_thermal (k : Nat) (v : SynState) : (s.setSyn k v).thermal = s.thermal := rfl
@[simp] theorem State.setSyn_laser (k : Nat) (v : SynState) : (s.setSyn k v).laser = s.laser := rfl
@[simp] theorem State.setSyn_loops (k : Nat) (v : SynState) : (s.setSyn k v).loops = s.loops := rfl
@[simp] theorem State.setSyn_drives (k : Nat) (v : SynState) : (s.setSyn k v).drives = s.drives := rfl
@[simp] theorem State.setSyn_link (k : Nat) (v : SynState) : (s.setSyn k v).link = s.link := rfl
@[simp] theorem State.setSyn_ddr (k : Nat) (v : SynState) : (s.setSyn k v).ddr = s.ddr := rfl
@[simp] theorem State.setSyn_srm (k : Nat) (v : SynState) : (s.setSyn k v).srm = s.srm := rfl
@[simp] theorem State.setSyn_dma (k : Nat) (v : SynState) : (s.setSyn k v).dma = s.dma := rfl
@[simp] theorem State.setSyn_tim (k : Nat) (v : SynState) : (s.setSyn k v).tim = s.tim := rfl
@[simp] theorem State.setSyn_net (k : Nat) (v : SynState) : (s.setSyn k v).net = s.net := rfl
@[simp] theorem State.setSyn_sec (k : Nat) (v : SynState) : (s.setSyn k v).sec = s.sec := rfl
@[simp] theorem State.setSyn_fgd (k : Nat) (v : SynState) : (s.setSyn k v).fgd = s.fgd := rfl
@[simp] theorem State.setSyn_flt (k : Nat) (v : SynState) : (s.setSyn k v).flt = s.flt := rfl
@[simp] theorem State.setSyn_thm (k : Nat) (v : SynState) : (s.setSyn k v).thm = s.thm := rfl
@[simp] theorem State.setSyn_pwr (k : Nat) (v : SynState) : (s.setSyn k v).pwr = s.pwr := rfl
@[simp] theorem State.setSyn_bkg (k : Nat) (v : SynState) : (s.setSyn k v).bkg = s.bkg := rfl
@[simp] theorem State.setSyn_pins (k : Nat) (v : SynState) : (s.setSyn k v).pins = s.pins := rfl
@[simp] theorem State.setSyn_plic (k : Nat) (v : SynState) : (s.setSyn k v).plic = s.plic := rfl
@[simp] theorem State.setSyn_testMode (k : Nat) (v : SynState) : (s.setSyn k v).testMode = s.testMode := rfl
@[simp] theorem State.setSyn_resp (k : Nat) (v : SynState) : (s.setSyn k v).resp = s.resp := rfl
@[simp] theorem State.setSyn_free (k : Nat) (v : SynState) : (s.setSyn k v).free = s.free := rfl
@[simp] theorem State.setSyn_pending (k : Nat) (v : SynState) : (s.setSyn k v).pending = s.pending := rfl

@[simp] theorem State.setDie_regs (k : Nat) (v : DieState) : (s.setDie k v).regs = s.regs := rfl
@[simp] theorem State.setDie_mem (k : Nat) (v : DieState) : (s.setDie k v).mem = s.mem := rfl
@[simp] theorem State.setDie_flash (k : Nat) (v : DieState) : (s.setDie k v).flash = s.flash := rfl
@[simp] theorem State.setDie_lin (k : Nat) (v : DieState) : (s.setDie k v).lin = s.lin := rfl
@[simp] theorem State.setDie_jobs (k : Nat) (v : DieState) : (s.setDie k v).jobs = s.jobs := rfl
@[simp] theorem State.setDie_dmk (k : Nat) (v : DieState) : (s.setDie k v).dmk = s.dmk := rfl
@[simp] theorem State.setDie_thermal (k : Nat) (v : DieState) : (s.setDie k v).thermal = s.thermal := rfl
@[simp] theorem State.setDie_laser (k : Nat) (v : DieState) : (s.setDie k v).laser = s.laser := rfl
@[simp] theorem State.setDie_loops (k : Nat) (v : DieState) : (s.setDie k v).loops = s.loops := rfl
@[simp] theorem State.setDie_drives (k : Nat) (v : DieState) : (s.setDie k v).drives = s.drives := rfl
@[simp] theorem State.setDie_link (k : Nat) (v : DieState) : (s.setDie k v).link = s.link := rfl
@[simp] theorem State.setDie_ddr (k : Nat) (v : DieState) : (s.setDie k v).ddr = s.ddr := rfl
@[simp] theorem State.setDie_srm (k : Nat) (v : DieState) : (s.setDie k v).srm = s.srm := rfl
@[simp] theorem State.setDie_dma (k : Nat) (v : DieState) : (s.setDie k v).dma = s.dma := rfl
@[simp] theorem State.setDie_tim (k : Nat) (v : DieState) : (s.setDie k v).tim = s.tim := rfl
@[simp] theorem State.setDie_net (k : Nat) (v : DieState) : (s.setDie k v).net = s.net := rfl
@[simp] theorem State.setDie_sec (k : Nat) (v : DieState) : (s.setDie k v).sec = s.sec := rfl
@[simp] theorem State.setDie_fgd (k : Nat) (v : DieState) : (s.setDie k v).fgd = s.fgd := rfl
@[simp] theorem State.setDie_flt (k : Nat) (v : DieState) : (s.setDie k v).flt = s.flt := rfl
@[simp] theorem State.setDie_clk (k : Nat) (v : DieState) : (s.setDie k v).clk = s.clk := rfl
@[simp] theorem State.setDie_pwr (k : Nat) (v : DieState) : (s.setDie k v).pwr = s.pwr := rfl
@[simp] theorem State.setDie_bkg (k : Nat) (v : DieState) : (s.setDie k v).bkg = s.bkg := rfl
@[simp] theorem State.setDie_pins (k : Nat) (v : DieState) : (s.setDie k v).pins = s.pins := rfl
@[simp] theorem State.setDie_plic (k : Nat) (v : DieState) : (s.setDie k v).plic = s.plic := rfl
@[simp] theorem State.setDie_testMode (k : Nat) (v : DieState) : (s.setDie k v).testMode = s.testMode := rfl
@[simp] theorem State.setDie_resp (k : Nat) (v : DieState) : (s.setDie k v).resp = s.resp := rfl
@[simp] theorem State.setDie_free (k : Nat) (v : DieState) : (s.setDie k v).free = s.free := rfl
@[simp] theorem State.setDie_pending (k : Nat) (v : DieState) : (s.setDie k v).pending = s.pending := rfl

@[simp] theorem State.setSlot_regs (k : Nat) (v : SlotState) : (s.setSlot k v).regs = s.regs := rfl
@[simp] theorem State.setSlot_mem (k : Nat) (v : SlotState) : (s.setSlot k v).mem = s.mem := rfl
@[simp] theorem State.setSlot_flash (k : Nat) (v : SlotState) : (s.setSlot k v).flash = s.flash := rfl
@[simp] theorem State.setSlot_lin (k : Nat) (v : SlotState) : (s.setSlot k v).lin = s.lin := rfl
@[simp] theorem State.setSlot_jobs (k : Nat) (v : SlotState) : (s.setSlot k v).jobs = s.jobs := rfl
@[simp] theorem State.setSlot_dmk (k : Nat) (v : SlotState) : (s.setSlot k v).dmk = s.dmk := rfl
@[simp] theorem State.setSlot_thermal (k : Nat) (v : SlotState) : (s.setSlot k v).thermal = s.thermal := rfl
@[simp] theorem State.setSlot_laser (k : Nat) (v : SlotState) : (s.setSlot k v).laser = s.laser := rfl
@[simp] theorem State.setSlot_loops (k : Nat) (v : SlotState) : (s.setSlot k v).loops = s.loops := rfl
@[simp] theorem State.setSlot_drives (k : Nat) (v : SlotState) : (s.setSlot k v).drives = s.drives := rfl
@[simp] theorem State.setSlot_link (k : Nat) (v : SlotState) : (s.setSlot k v).link = s.link := rfl
@[simp] theorem State.setSlot_ddr (k : Nat) (v : SlotState) : (s.setSlot k v).ddr = s.ddr := rfl
@[simp] theorem State.setSlot_srm (k : Nat) (v : SlotState) : (s.setSlot k v).srm = s.srm := rfl
@[simp] theorem State.setSlot_dma (k : Nat) (v : SlotState) : (s.setSlot k v).dma = s.dma := rfl
@[simp] theorem State.setSlot_tim (k : Nat) (v : SlotState) : (s.setSlot k v).tim = s.tim := rfl
@[simp] theorem State.setSlot_net (k : Nat) (v : SlotState) : (s.setSlot k v).net = s.net := rfl
@[simp] theorem State.setSlot_sec (k : Nat) (v : SlotState) : (s.setSlot k v).sec = s.sec := rfl
@[simp] theorem State.setSlot_fgd (k : Nat) (v : SlotState) : (s.setSlot k v).fgd = s.fgd := rfl
@[simp] theorem State.setSlot_flt (k : Nat) (v : SlotState) : (s.setSlot k v).flt = s.flt := rfl
@[simp] theorem State.setSlot_clk (k : Nat) (v : SlotState) : (s.setSlot k v).clk = s.clk := rfl
@[simp] theorem State.setSlot_thm (k : Nat) (v : SlotState) : (s.setSlot k v).thm = s.thm := rfl
@[simp] theorem State.setSlot_bkg (k : Nat) (v : SlotState) : (s.setSlot k v).bkg = s.bkg := rfl
@[simp] theorem State.setSlot_pins (k : Nat) (v : SlotState) : (s.setSlot k v).pins = s.pins := rfl
@[simp] theorem State.setSlot_plic (k : Nat) (v : SlotState) : (s.setSlot k v).plic = s.plic := rfl
@[simp] theorem State.setSlot_testMode (k : Nat) (v : SlotState) : (s.setSlot k v).testMode = s.testMode := rfl
@[simp] theorem State.setSlot_resp (k : Nat) (v : SlotState) : (s.setSlot k v).resp = s.resp := rfl
@[simp] theorem State.setSlot_free (k : Nat) (v : SlotState) : (s.setSlot k v).free = s.free := rfl
@[simp] theorem State.setSlot_pending (k : Nat) (v : SlotState) : (s.setSlot k v).pending = s.pending := rfl

@[simp] theorem State.setConv_regs (k : Nat) (v : ConvState) : (s.setConv k v).regs = s.regs := rfl
@[simp] theorem State.setConv_mem (k : Nat) (v : ConvState) : (s.setConv k v).mem = s.mem := rfl
@[simp] theorem State.setConv_flash (k : Nat) (v : ConvState) : (s.setConv k v).flash = s.flash := rfl
@[simp] theorem State.setConv_lin (k : Nat) (v : ConvState) : (s.setConv k v).lin = s.lin := rfl
@[simp] theorem State.setConv_jobs (k : Nat) (v : ConvState) : (s.setConv k v).jobs = s.jobs := rfl
@[simp] theorem State.setConv_dmk (k : Nat) (v : ConvState) : (s.setConv k v).dmk = s.dmk := rfl
@[simp] theorem State.setConv_thermal (k : Nat) (v : ConvState) : (s.setConv k v).thermal = s.thermal := rfl
@[simp] theorem State.setConv_laser (k : Nat) (v : ConvState) : (s.setConv k v).laser = s.laser := rfl
@[simp] theorem State.setConv_loops (k : Nat) (v : ConvState) : (s.setConv k v).loops = s.loops := rfl
@[simp] theorem State.setConv_drives (k : Nat) (v : ConvState) : (s.setConv k v).drives = s.drives := rfl
@[simp] theorem State.setConv_link (k : Nat) (v : ConvState) : (s.setConv k v).link = s.link := rfl
@[simp] theorem State.setConv_ddr (k : Nat) (v : ConvState) : (s.setConv k v).ddr = s.ddr := rfl
@[simp] theorem State.setConv_srm (k : Nat) (v : ConvState) : (s.setConv k v).srm = s.srm := rfl
@[simp] theorem State.setConv_dma (k : Nat) (v : ConvState) : (s.setConv k v).dma = s.dma := rfl
@[simp] theorem State.setConv_tim (k : Nat) (v : ConvState) : (s.setConv k v).tim = s.tim := rfl
@[simp] theorem State.setConv_net (k : Nat) (v : ConvState) : (s.setConv k v).net = s.net := rfl
@[simp] theorem State.setConv_sec (k : Nat) (v : ConvState) : (s.setConv k v).sec = s.sec := rfl
@[simp] theorem State.setConv_fgd (k : Nat) (v : ConvState) : (s.setConv k v).fgd = s.fgd := rfl
@[simp] theorem State.setConv_flt (k : Nat) (v : ConvState) : (s.setConv k v).flt = s.flt := rfl
@[simp] theorem State.setConv_clk (k : Nat) (v : ConvState) : (s.setConv k v).clk = s.clk := rfl
@[simp] theorem State.setConv_thm (k : Nat) (v : ConvState) : (s.setConv k v).thm = s.thm := rfl
@[simp] theorem State.setConv_pwr (k : Nat) (v : ConvState) : (s.setConv k v).pwr = s.pwr := rfl
@[simp] theorem State.setConv_pins (k : Nat) (v : ConvState) : (s.setConv k v).pins = s.pins := rfl
@[simp] theorem State.setConv_plic (k : Nat) (v : ConvState) : (s.setConv k v).plic = s.plic := rfl
@[simp] theorem State.setConv_testMode (k : Nat) (v : ConvState) : (s.setConv k v).testMode = s.testMode := rfl
@[simp] theorem State.setConv_resp (k : Nat) (v : ConvState) : (s.setConv k v).resp = s.resp := rfl
@[simp] theorem State.setConv_free (k : Nat) (v : ConvState) : (s.setConv k v).free = s.free := rfl
@[simp] theorem State.setConv_pending (k : Nat) (v : ConvState) : (s.setConv k v).pending = s.pending := rfl

@[simp] theorem State.wrf_mem (a hi lo v : Nat) : (s.wrf a hi lo v).mem = s.mem := by rw [State.wrf, State.wr_mem]
@[simp] theorem State.wrf_flash (a hi lo v : Nat) : (s.wrf a hi lo v).flash = s.flash := by rw [State.wrf, State.wr_flash]
@[simp] theorem State.wrf_lin (a hi lo v : Nat) : (s.wrf a hi lo v).lin = s.lin := by rw [State.wrf, State.wr_lin]
@[simp] theorem State.wrf_jobs (a hi lo v : Nat) : (s.wrf a hi lo v).jobs = s.jobs := by rw [State.wrf, State.wr_jobs]
@[simp] theorem State.wrf_dmk (a hi lo v : Nat) : (s.wrf a hi lo v).dmk = s.dmk := by rw [State.wrf, State.wr_dmk]
@[simp] theorem State.wrf_thermal (a hi lo v : Nat) : (s.wrf a hi lo v).thermal = s.thermal := by rw [State.wrf, State.wr_thermal]
@[simp] theorem State.wrf_laser (a hi lo v : Nat) : (s.wrf a hi lo v).laser = s.laser := by rw [State.wrf, State.wr_laser]
@[simp] theorem State.wrf_loops (a hi lo v : Nat) : (s.wrf a hi lo v).loops = s.loops := by rw [State.wrf, State.wr_loops]
@[simp] theorem State.wrf_drives (a hi lo v : Nat) : (s.wrf a hi lo v).drives = s.drives := by rw [State.wrf, State.wr_drives]
@[simp] theorem State.wrf_link (a hi lo v : Nat) : (s.wrf a hi lo v).link = s.link := by rw [State.wrf, State.wr_link]
@[simp] theorem State.wrf_ddr (a hi lo v : Nat) : (s.wrf a hi lo v).ddr = s.ddr := by rw [State.wrf, State.wr_ddr]
@[simp] theorem State.wrf_srm (a hi lo v : Nat) : (s.wrf a hi lo v).srm = s.srm := by rw [State.wrf, State.wr_srm]
@[simp] theorem State.wrf_dma (a hi lo v : Nat) : (s.wrf a hi lo v).dma = s.dma := by rw [State.wrf, State.wr_dma]
@[simp] theorem State.wrf_tim (a hi lo v : Nat) : (s.wrf a hi lo v).tim = s.tim := by rw [State.wrf, State.wr_tim]
@[simp] theorem State.wrf_net (a hi lo v : Nat) : (s.wrf a hi lo v).net = s.net := by rw [State.wrf, State.wr_net]
@[simp] theorem State.wrf_sec (a hi lo v : Nat) : (s.wrf a hi lo v).sec = s.sec := by rw [State.wrf, State.wr_sec]
@[simp] theorem State.wrf_fgd (a hi lo v : Nat) : (s.wrf a hi lo v).fgd = s.fgd := by rw [State.wrf, State.wr_fgd]
@[simp] theorem State.wrf_flt (a hi lo v : Nat) : (s.wrf a hi lo v).flt = s.flt := by rw [State.wrf, State.wr_flt]
@[simp] theorem State.wrf_clk (a hi lo v : Nat) : (s.wrf a hi lo v).clk = s.clk := by rw [State.wrf, State.wr_clk]
@[simp] theorem State.wrf_thm (a hi lo v : Nat) : (s.wrf a hi lo v).thm = s.thm := by rw [State.wrf, State.wr_thm]
@[simp] theorem State.wrf_pwr (a hi lo v : Nat) : (s.wrf a hi lo v).pwr = s.pwr := by rw [State.wrf, State.wr_pwr]
@[simp] theorem State.wrf_bkg (a hi lo v : Nat) : (s.wrf a hi lo v).bkg = s.bkg := by rw [State.wrf, State.wr_bkg]
@[simp] theorem State.wrf_pins (a hi lo v : Nat) : (s.wrf a hi lo v).pins = s.pins := by rw [State.wrf, State.wr_pins]
@[simp] theorem State.wrf_plic (a hi lo v : Nat) : (s.wrf a hi lo v).plic = s.plic := by rw [State.wrf, State.wr_plic]
@[simp] theorem State.wrf_testMode (a hi lo v : Nat) : (s.wrf a hi lo v).testMode = s.testMode := by rw [State.wrf, State.wr_testMode]
@[simp] theorem State.wrf_resp (a hi lo v : Nat) : (s.wrf a hi lo v).resp = s.resp := by rw [State.wrf, State.wr_resp]
@[simp] theorem State.wrf_free (a hi lo v : Nat) : (s.wrf a hi lo v).free = s.free := by rw [State.wrf, State.wr_free]
@[simp] theorem State.wrf_pending (a hi lo v : Nat) : (s.wrf a hi lo v).pending = s.pending := by rw [State.wrf, State.wr_pending]
@[simp] theorem State.wrf_rdByte (a hi lo v : Nat) (c : Nat) : (s.wrf a hi lo v).rdByte c = s.rdByte c := by simp only [State.rdByte, State.wrf_mem]

@[simp] theorem State.wrb_mem (a i : Nat) (b : Bool) : (s.wrb a i b).mem = s.mem := by rw [State.wrb, State.wr_mem]
@[simp] theorem State.wrb_flash (a i : Nat) (b : Bool) : (s.wrb a i b).flash = s.flash := by rw [State.wrb, State.wr_flash]
@[simp] theorem State.wrb_lin (a i : Nat) (b : Bool) : (s.wrb a i b).lin = s.lin := by rw [State.wrb, State.wr_lin]
@[simp] theorem State.wrb_jobs (a i : Nat) (b : Bool) : (s.wrb a i b).jobs = s.jobs := by rw [State.wrb, State.wr_jobs]
@[simp] theorem State.wrb_dmk (a i : Nat) (b : Bool) : (s.wrb a i b).dmk = s.dmk := by rw [State.wrb, State.wr_dmk]
@[simp] theorem State.wrb_thermal (a i : Nat) (b : Bool) : (s.wrb a i b).thermal = s.thermal := by rw [State.wrb, State.wr_thermal]
@[simp] theorem State.wrb_laser (a i : Nat) (b : Bool) : (s.wrb a i b).laser = s.laser := by rw [State.wrb, State.wr_laser]
@[simp] theorem State.wrb_loops (a i : Nat) (b : Bool) : (s.wrb a i b).loops = s.loops := by rw [State.wrb, State.wr_loops]
@[simp] theorem State.wrb_drives (a i : Nat) (b : Bool) : (s.wrb a i b).drives = s.drives := by rw [State.wrb, State.wr_drives]
@[simp] theorem State.wrb_link (a i : Nat) (b : Bool) : (s.wrb a i b).link = s.link := by rw [State.wrb, State.wr_link]
@[simp] theorem State.wrb_ddr (a i : Nat) (b : Bool) : (s.wrb a i b).ddr = s.ddr := by rw [State.wrb, State.wr_ddr]
@[simp] theorem State.wrb_srm (a i : Nat) (b : Bool) : (s.wrb a i b).srm = s.srm := by rw [State.wrb, State.wr_srm]
@[simp] theorem State.wrb_dma (a i : Nat) (b : Bool) : (s.wrb a i b).dma = s.dma := by rw [State.wrb, State.wr_dma]
@[simp] theorem State.wrb_tim (a i : Nat) (b : Bool) : (s.wrb a i b).tim = s.tim := by rw [State.wrb, State.wr_tim]
@[simp] theorem State.wrb_net (a i : Nat) (b : Bool) : (s.wrb a i b).net = s.net := by rw [State.wrb, State.wr_net]
@[simp] theorem State.wrb_sec (a i : Nat) (b : Bool) : (s.wrb a i b).sec = s.sec := by rw [State.wrb, State.wr_sec]
@[simp] theorem State.wrb_fgd (a i : Nat) (b : Bool) : (s.wrb a i b).fgd = s.fgd := by rw [State.wrb, State.wr_fgd]
@[simp] theorem State.wrb_flt (a i : Nat) (b : Bool) : (s.wrb a i b).flt = s.flt := by rw [State.wrb, State.wr_flt]
@[simp] theorem State.wrb_clk (a i : Nat) (b : Bool) : (s.wrb a i b).clk = s.clk := by rw [State.wrb, State.wr_clk]
@[simp] theorem State.wrb_thm (a i : Nat) (b : Bool) : (s.wrb a i b).thm = s.thm := by rw [State.wrb, State.wr_thm]
@[simp] theorem State.wrb_pwr (a i : Nat) (b : Bool) : (s.wrb a i b).pwr = s.pwr := by rw [State.wrb, State.wr_pwr]
@[simp] theorem State.wrb_bkg (a i : Nat) (b : Bool) : (s.wrb a i b).bkg = s.bkg := by rw [State.wrb, State.wr_bkg]
@[simp] theorem State.wrb_pins (a i : Nat) (b : Bool) : (s.wrb a i b).pins = s.pins := by rw [State.wrb, State.wr_pins]
@[simp] theorem State.wrb_plic (a i : Nat) (b : Bool) : (s.wrb a i b).plic = s.plic := by rw [State.wrb, State.wr_plic]
@[simp] theorem State.wrb_testMode (a i : Nat) (b : Bool) : (s.wrb a i b).testMode = s.testMode := by rw [State.wrb, State.wr_testMode]
@[simp] theorem State.wrb_resp (a i : Nat) (b : Bool) : (s.wrb a i b).resp = s.resp := by rw [State.wrb, State.wr_resp]
@[simp] theorem State.wrb_free (a i : Nat) (b : Bool) : (s.wrb a i b).free = s.free := by rw [State.wrb, State.wr_free]
@[simp] theorem State.wrb_pending (a i : Nat) (b : Bool) : (s.wrb a i b).pending = s.pending := by rw [State.wrb, State.wr_pending]
@[simp] theorem State.wrb_rdByte (a i : Nat) (b : Bool) (c : Nat) : (s.wrb a i b).rdByte c = s.rdByte c := by simp only [State.rdByte, State.wrb_mem]

@[simp] theorem State.wrs_mem (a hi lo : Nat) (v : Int) : (s.wrs a hi lo v).mem = s.mem := by rw [State.wrs, State.wrf_mem]
@[simp] theorem State.wrs_flash (a hi lo : Nat) (v : Int) : (s.wrs a hi lo v).flash = s.flash := by rw [State.wrs, State.wrf_flash]
@[simp] theorem State.wrs_lin (a hi lo : Nat) (v : Int) : (s.wrs a hi lo v).lin = s.lin := by rw [State.wrs, State.wrf_lin]
@[simp] theorem State.wrs_jobs (a hi lo : Nat) (v : Int) : (s.wrs a hi lo v).jobs = s.jobs := by rw [State.wrs, State.wrf_jobs]
@[simp] theorem State.wrs_dmk (a hi lo : Nat) (v : Int) : (s.wrs a hi lo v).dmk = s.dmk := by rw [State.wrs, State.wrf_dmk]
@[simp] theorem State.wrs_thermal (a hi lo : Nat) (v : Int) : (s.wrs a hi lo v).thermal = s.thermal := by rw [State.wrs, State.wrf_thermal]
@[simp] theorem State.wrs_laser (a hi lo : Nat) (v : Int) : (s.wrs a hi lo v).laser = s.laser := by rw [State.wrs, State.wrf_laser]
@[simp] theorem State.wrs_loops (a hi lo : Nat) (v : Int) : (s.wrs a hi lo v).loops = s.loops := by rw [State.wrs, State.wrf_loops]
@[simp] theorem State.wrs_drives (a hi lo : Nat) (v : Int) : (s.wrs a hi lo v).drives = s.drives := by rw [State.wrs, State.wrf_drives]
@[simp] theorem State.wrs_link (a hi lo : Nat) (v : Int) : (s.wrs a hi lo v).link = s.link := by rw [State.wrs, State.wrf_link]
@[simp] theorem State.wrs_ddr (a hi lo : Nat) (v : Int) : (s.wrs a hi lo v).ddr = s.ddr := by rw [State.wrs, State.wrf_ddr]
@[simp] theorem State.wrs_srm (a hi lo : Nat) (v : Int) : (s.wrs a hi lo v).srm = s.srm := by rw [State.wrs, State.wrf_srm]
@[simp] theorem State.wrs_dma (a hi lo : Nat) (v : Int) : (s.wrs a hi lo v).dma = s.dma := by rw [State.wrs, State.wrf_dma]
@[simp] theorem State.wrs_tim (a hi lo : Nat) (v : Int) : (s.wrs a hi lo v).tim = s.tim := by rw [State.wrs, State.wrf_tim]
@[simp] theorem State.wrs_net (a hi lo : Nat) (v : Int) : (s.wrs a hi lo v).net = s.net := by rw [State.wrs, State.wrf_net]
@[simp] theorem State.wrs_sec (a hi lo : Nat) (v : Int) : (s.wrs a hi lo v).sec = s.sec := by rw [State.wrs, State.wrf_sec]
@[simp] theorem State.wrs_fgd (a hi lo : Nat) (v : Int) : (s.wrs a hi lo v).fgd = s.fgd := by rw [State.wrs, State.wrf_fgd]
@[simp] theorem State.wrs_flt (a hi lo : Nat) (v : Int) : (s.wrs a hi lo v).flt = s.flt := by rw [State.wrs, State.wrf_flt]
@[simp] theorem State.wrs_clk (a hi lo : Nat) (v : Int) : (s.wrs a hi lo v).clk = s.clk := by rw [State.wrs, State.wrf_clk]
@[simp] theorem State.wrs_thm (a hi lo : Nat) (v : Int) : (s.wrs a hi lo v).thm = s.thm := by rw [State.wrs, State.wrf_thm]
@[simp] theorem State.wrs_pwr (a hi lo : Nat) (v : Int) : (s.wrs a hi lo v).pwr = s.pwr := by rw [State.wrs, State.wrf_pwr]
@[simp] theorem State.wrs_bkg (a hi lo : Nat) (v : Int) : (s.wrs a hi lo v).bkg = s.bkg := by rw [State.wrs, State.wrf_bkg]
@[simp] theorem State.wrs_pins (a hi lo : Nat) (v : Int) : (s.wrs a hi lo v).pins = s.pins := by rw [State.wrs, State.wrf_pins]
@[simp] theorem State.wrs_plic (a hi lo : Nat) (v : Int) : (s.wrs a hi lo v).plic = s.plic := by rw [State.wrs, State.wrf_plic]
@[simp] theorem State.wrs_testMode (a hi lo : Nat) (v : Int) : (s.wrs a hi lo v).testMode = s.testMode := by rw [State.wrs, State.wrf_testMode]
@[simp] theorem State.wrs_resp (a hi lo : Nat) (v : Int) : (s.wrs a hi lo v).resp = s.resp := by rw [State.wrs, State.wrf_resp]
@[simp] theorem State.wrs_free (a hi lo : Nat) (v : Int) : (s.wrs a hi lo v).free = s.free := by rw [State.wrs, State.wrf_free]
@[simp] theorem State.wrs_pending (a hi lo : Nat) (v : Int) : (s.wrs a hi lo v).pending = s.pending := by rw [State.wrs, State.wrf_pending]
@[simp] theorem State.wrs_rdByte (a hi lo : Nat) (v : Int) (c : Nat) : (s.wrs a hi lo v).rdByte c = s.rdByte c := by simp only [State.rdByte, State.wrs_mem]

@[simp] theorem State.wr64_mem (lo hi n : Nat) : (s.wr64 lo hi n).mem = s.mem := by rw [State.wr64, State.wr_mem, State.wr_mem]
@[simp] theorem State.wr64_flash (lo hi n : Nat) : (s.wr64 lo hi n).flash = s.flash := by rw [State.wr64, State.wr_flash, State.wr_flash]
@[simp] theorem State.wr64_lin (lo hi n : Nat) : (s.wr64 lo hi n).lin = s.lin := by rw [State.wr64, State.wr_lin, State.wr_lin]
@[simp] theorem State.wr64_jobs (lo hi n : Nat) : (s.wr64 lo hi n).jobs = s.jobs := by rw [State.wr64, State.wr_jobs, State.wr_jobs]
@[simp] theorem State.wr64_dmk (lo hi n : Nat) : (s.wr64 lo hi n).dmk = s.dmk := by rw [State.wr64, State.wr_dmk, State.wr_dmk]
@[simp] theorem State.wr64_thermal (lo hi n : Nat) : (s.wr64 lo hi n).thermal = s.thermal := by rw [State.wr64, State.wr_thermal, State.wr_thermal]
@[simp] theorem State.wr64_laser (lo hi n : Nat) : (s.wr64 lo hi n).laser = s.laser := by rw [State.wr64, State.wr_laser, State.wr_laser]
@[simp] theorem State.wr64_loops (lo hi n : Nat) : (s.wr64 lo hi n).loops = s.loops := by rw [State.wr64, State.wr_loops, State.wr_loops]
@[simp] theorem State.wr64_drives (lo hi n : Nat) : (s.wr64 lo hi n).drives = s.drives := by rw [State.wr64, State.wr_drives, State.wr_drives]
@[simp] theorem State.wr64_link (lo hi n : Nat) : (s.wr64 lo hi n).link = s.link := by rw [State.wr64, State.wr_link, State.wr_link]
@[simp] theorem State.wr64_ddr (lo hi n : Nat) : (s.wr64 lo hi n).ddr = s.ddr := by rw [State.wr64, State.wr_ddr, State.wr_ddr]
@[simp] theorem State.wr64_srm (lo hi n : Nat) : (s.wr64 lo hi n).srm = s.srm := by rw [State.wr64, State.wr_srm, State.wr_srm]
@[simp] theorem State.wr64_dma (lo hi n : Nat) : (s.wr64 lo hi n).dma = s.dma := by rw [State.wr64, State.wr_dma, State.wr_dma]
@[simp] theorem State.wr64_tim (lo hi n : Nat) : (s.wr64 lo hi n).tim = s.tim := by rw [State.wr64, State.wr_tim, State.wr_tim]
@[simp] theorem State.wr64_net (lo hi n : Nat) : (s.wr64 lo hi n).net = s.net := by rw [State.wr64, State.wr_net, State.wr_net]
@[simp] theorem State.wr64_sec (lo hi n : Nat) : (s.wr64 lo hi n).sec = s.sec := by rw [State.wr64, State.wr_sec, State.wr_sec]
@[simp] theorem State.wr64_fgd (lo hi n : Nat) : (s.wr64 lo hi n).fgd = s.fgd := by rw [State.wr64, State.wr_fgd, State.wr_fgd]
@[simp] theorem State.wr64_flt (lo hi n : Nat) : (s.wr64 lo hi n).flt = s.flt := by rw [State.wr64, State.wr_flt, State.wr_flt]
@[simp] theorem State.wr64_clk (lo hi n : Nat) : (s.wr64 lo hi n).clk = s.clk := by rw [State.wr64, State.wr_clk, State.wr_clk]
@[simp] theorem State.wr64_thm (lo hi n : Nat) : (s.wr64 lo hi n).thm = s.thm := by rw [State.wr64, State.wr_thm, State.wr_thm]
@[simp] theorem State.wr64_pwr (lo hi n : Nat) : (s.wr64 lo hi n).pwr = s.pwr := by rw [State.wr64, State.wr_pwr, State.wr_pwr]
@[simp] theorem State.wr64_bkg (lo hi n : Nat) : (s.wr64 lo hi n).bkg = s.bkg := by rw [State.wr64, State.wr_bkg, State.wr_bkg]
@[simp] theorem State.wr64_pins (lo hi n : Nat) : (s.wr64 lo hi n).pins = s.pins := by rw [State.wr64, State.wr_pins, State.wr_pins]
@[simp] theorem State.wr64_plic (lo hi n : Nat) : (s.wr64 lo hi n).plic = s.plic := by rw [State.wr64, State.wr_plic, State.wr_plic]
@[simp] theorem State.wr64_testMode (lo hi n : Nat) : (s.wr64 lo hi n).testMode = s.testMode := by rw [State.wr64, State.wr_testMode, State.wr_testMode]
@[simp] theorem State.wr64_resp (lo hi n : Nat) : (s.wr64 lo hi n).resp = s.resp := by rw [State.wr64, State.wr_resp, State.wr_resp]
@[simp] theorem State.wr64_free (lo hi n : Nat) : (s.wr64 lo hi n).free = s.free := by rw [State.wr64, State.wr_free, State.wr_free]
@[simp] theorem State.wr64_pending (lo hi n : Nat) : (s.wr64 lo hi n).pending = s.pending := by rw [State.wr64, State.wr_pending, State.wr_pending]
@[simp] theorem State.wr64_rdByte (lo hi n : Nat) (c : Nat) : (s.wr64 lo hi n).rdByte c = s.rdByte c := by simp only [State.rdByte, State.wr64_mem]

@[simp] theorem State.cntN_mem (a hi lo n : Nat) : (s.cntN a hi lo n).mem = s.mem := by rw [State.cntN]; split <;> simp only [State.wrf_mem]
@[simp] theorem State.cntN_flash (a hi lo n : Nat) : (s.cntN a hi lo n).flash = s.flash := by rw [State.cntN]; split <;> simp only [State.wrf_flash]
@[simp] theorem State.cntN_lin (a hi lo n : Nat) : (s.cntN a hi lo n).lin = s.lin := by rw [State.cntN]; split <;> simp only [State.wrf_lin]
@[simp] theorem State.cntN_jobs (a hi lo n : Nat) : (s.cntN a hi lo n).jobs = s.jobs := by rw [State.cntN]; split <;> simp only [State.wrf_jobs]
@[simp] theorem State.cntN_dmk (a hi lo n : Nat) : (s.cntN a hi lo n).dmk = s.dmk := by rw [State.cntN]; split <;> simp only [State.wrf_dmk]
@[simp] theorem State.cntN_thermal (a hi lo n : Nat) : (s.cntN a hi lo n).thermal = s.thermal := by rw [State.cntN]; split <;> simp only [State.wrf_thermal]
@[simp] theorem State.cntN_laser (a hi lo n : Nat) : (s.cntN a hi lo n).laser = s.laser := by rw [State.cntN]; split <;> simp only [State.wrf_laser]
@[simp] theorem State.cntN_loops (a hi lo n : Nat) : (s.cntN a hi lo n).loops = s.loops := by rw [State.cntN]; split <;> simp only [State.wrf_loops]
@[simp] theorem State.cntN_drives (a hi lo n : Nat) : (s.cntN a hi lo n).drives = s.drives := by rw [State.cntN]; split <;> simp only [State.wrf_drives]
@[simp] theorem State.cntN_link (a hi lo n : Nat) : (s.cntN a hi lo n).link = s.link := by rw [State.cntN]; split <;> simp only [State.wrf_link]
@[simp] theorem State.cntN_ddr (a hi lo n : Nat) : (s.cntN a hi lo n).ddr = s.ddr := by rw [State.cntN]; split <;> simp only [State.wrf_ddr]
@[simp] theorem State.cntN_srm (a hi lo n : Nat) : (s.cntN a hi lo n).srm = s.srm := by rw [State.cntN]; split <;> simp only [State.wrf_srm]
@[simp] theorem State.cntN_dma (a hi lo n : Nat) : (s.cntN a hi lo n).dma = s.dma := by rw [State.cntN]; split <;> simp only [State.wrf_dma]
@[simp] theorem State.cntN_tim (a hi lo n : Nat) : (s.cntN a hi lo n).tim = s.tim := by rw [State.cntN]; split <;> simp only [State.wrf_tim]
@[simp] theorem State.cntN_net (a hi lo n : Nat) : (s.cntN a hi lo n).net = s.net := by rw [State.cntN]; split <;> simp only [State.wrf_net]
@[simp] theorem State.cntN_sec (a hi lo n : Nat) : (s.cntN a hi lo n).sec = s.sec := by rw [State.cntN]; split <;> simp only [State.wrf_sec]
@[simp] theorem State.cntN_fgd (a hi lo n : Nat) : (s.cntN a hi lo n).fgd = s.fgd := by rw [State.cntN]; split <;> simp only [State.wrf_fgd]
@[simp] theorem State.cntN_flt (a hi lo n : Nat) : (s.cntN a hi lo n).flt = s.flt := by rw [State.cntN]; split <;> simp only [State.wrf_flt]
@[simp] theorem State.cntN_clk (a hi lo n : Nat) : (s.cntN a hi lo n).clk = s.clk := by rw [State.cntN]; split <;> simp only [State.wrf_clk]
@[simp] theorem State.cntN_thm (a hi lo n : Nat) : (s.cntN a hi lo n).thm = s.thm := by rw [State.cntN]; split <;> simp only [State.wrf_thm]
@[simp] theorem State.cntN_pwr (a hi lo n : Nat) : (s.cntN a hi lo n).pwr = s.pwr := by rw [State.cntN]; split <;> simp only [State.wrf_pwr]
@[simp] theorem State.cntN_bkg (a hi lo n : Nat) : (s.cntN a hi lo n).bkg = s.bkg := by rw [State.cntN]; split <;> simp only [State.wrf_bkg]
@[simp] theorem State.cntN_pins (a hi lo n : Nat) : (s.cntN a hi lo n).pins = s.pins := by rw [State.cntN]; split <;> simp only [State.wrf_pins]
@[simp] theorem State.cntN_plic (a hi lo n : Nat) : (s.cntN a hi lo n).plic = s.plic := by rw [State.cntN]; split <;> simp only [State.wrf_plic]
@[simp] theorem State.cntN_testMode (a hi lo n : Nat) : (s.cntN a hi lo n).testMode = s.testMode := by rw [State.cntN]; split <;> simp only [State.wrf_testMode]
@[simp] theorem State.cntN_resp (a hi lo n : Nat) : (s.cntN a hi lo n).resp = s.resp := by rw [State.cntN]; split <;> simp only [State.wrf_resp]
@[simp] theorem State.cntN_free (a hi lo n : Nat) : (s.cntN a hi lo n).free = s.free := by rw [State.cntN]; split <;> simp only [State.wrf_free]
@[simp] theorem State.cntN_pending (a hi lo n : Nat) : (s.cntN a hi lo n).pending = s.pending := by rw [State.cntN]; split <;> simp only [State.wrf_pending]
@[simp] theorem State.cntN_rdByte (a hi lo n : Nat) (c : Nat) : (s.cntN a hi lo n).rdByte c = s.rdByte c := by simp only [State.rdByte, State.cntN_mem]

@[simp] theorem State.cnt_mem (a hi lo : Nat) : (s.cnt a hi lo).mem = s.mem := by rw [State.cnt, State.cntN_mem]
@[simp] theorem State.cnt_flash (a hi lo : Nat) : (s.cnt a hi lo).flash = s.flash := by rw [State.cnt, State.cntN_flash]
@[simp] theorem State.cnt_lin (a hi lo : Nat) : (s.cnt a hi lo).lin = s.lin := by rw [State.cnt, State.cntN_lin]
@[simp] theorem State.cnt_jobs (a hi lo : Nat) : (s.cnt a hi lo).jobs = s.jobs := by rw [State.cnt, State.cntN_jobs]
@[simp] theorem State.cnt_dmk (a hi lo : Nat) : (s.cnt a hi lo).dmk = s.dmk := by rw [State.cnt, State.cntN_dmk]
@[simp] theorem State.cnt_thermal (a hi lo : Nat) : (s.cnt a hi lo).thermal = s.thermal := by rw [State.cnt, State.cntN_thermal]
@[simp] theorem State.cnt_laser (a hi lo : Nat) : (s.cnt a hi lo).laser = s.laser := by rw [State.cnt, State.cntN_laser]
@[simp] theorem State.cnt_loops (a hi lo : Nat) : (s.cnt a hi lo).loops = s.loops := by rw [State.cnt, State.cntN_loops]
@[simp] theorem State.cnt_drives (a hi lo : Nat) : (s.cnt a hi lo).drives = s.drives := by rw [State.cnt, State.cntN_drives]
@[simp] theorem State.cnt_link (a hi lo : Nat) : (s.cnt a hi lo).link = s.link := by rw [State.cnt, State.cntN_link]
@[simp] theorem State.cnt_ddr (a hi lo : Nat) : (s.cnt a hi lo).ddr = s.ddr := by rw [State.cnt, State.cntN_ddr]
@[simp] theorem State.cnt_srm (a hi lo : Nat) : (s.cnt a hi lo).srm = s.srm := by rw [State.cnt, State.cntN_srm]
@[simp] theorem State.cnt_dma (a hi lo : Nat) : (s.cnt a hi lo).dma = s.dma := by rw [State.cnt, State.cntN_dma]
@[simp] theorem State.cnt_tim (a hi lo : Nat) : (s.cnt a hi lo).tim = s.tim := by rw [State.cnt, State.cntN_tim]
@[simp] theorem State.cnt_net (a hi lo : Nat) : (s.cnt a hi lo).net = s.net := by rw [State.cnt, State.cntN_net]
@[simp] theorem State.cnt_sec (a hi lo : Nat) : (s.cnt a hi lo).sec = s.sec := by rw [State.cnt, State.cntN_sec]
@[simp] theorem State.cnt_fgd (a hi lo : Nat) : (s.cnt a hi lo).fgd = s.fgd := by rw [State.cnt, State.cntN_fgd]
@[simp] theorem State.cnt_flt (a hi lo : Nat) : (s.cnt a hi lo).flt = s.flt := by rw [State.cnt, State.cntN_flt]
@[simp] theorem State.cnt_clk (a hi lo : Nat) : (s.cnt a hi lo).clk = s.clk := by rw [State.cnt, State.cntN_clk]
@[simp] theorem State.cnt_thm (a hi lo : Nat) : (s.cnt a hi lo).thm = s.thm := by rw [State.cnt, State.cntN_thm]
@[simp] theorem State.cnt_pwr (a hi lo : Nat) : (s.cnt a hi lo).pwr = s.pwr := by rw [State.cnt, State.cntN_pwr]
@[simp] theorem State.cnt_bkg (a hi lo : Nat) : (s.cnt a hi lo).bkg = s.bkg := by rw [State.cnt, State.cntN_bkg]
@[simp] theorem State.cnt_pins (a hi lo : Nat) : (s.cnt a hi lo).pins = s.pins := by rw [State.cnt, State.cntN_pins]
@[simp] theorem State.cnt_plic (a hi lo : Nat) : (s.cnt a hi lo).plic = s.plic := by rw [State.cnt, State.cntN_plic]
@[simp] theorem State.cnt_testMode (a hi lo : Nat) : (s.cnt a hi lo).testMode = s.testMode := by rw [State.cnt, State.cntN_testMode]
@[simp] theorem State.cnt_resp (a hi lo : Nat) : (s.cnt a hi lo).resp = s.resp := by rw [State.cnt, State.cntN_resp]
@[simp] theorem State.cnt_free (a hi lo : Nat) : (s.cnt a hi lo).free = s.free := by rw [State.cnt, State.cntN_free]
@[simp] theorem State.cnt_pending (a hi lo : Nat) : (s.cnt a hi lo).pending = s.pending := by rw [State.cnt, State.cntN_pending]
@[simp] theorem State.cnt_rdByte (a hi lo : Nat) (c : Nat) : (s.cnt a hi lo).rdByte c = s.rdByte c := by simp only [State.rdByte, State.cnt_mem]

@[simp] theorem State.cntW_mem (a : Nat) : (s.cntW a).mem = s.mem := by rw [State.cntW]; split <;> simp only [State.wr_mem]
@[simp] theorem State.cntW_flash (a : Nat) : (s.cntW a).flash = s.flash := by rw [State.cntW]; split <;> simp only [State.wr_flash]
@[simp] theorem State.cntW_lin (a : Nat) : (s.cntW a).lin = s.lin := by rw [State.cntW]; split <;> simp only [State.wr_lin]
@[simp] theorem State.cntW_jobs (a : Nat) : (s.cntW a).jobs = s.jobs := by rw [State.cntW]; split <;> simp only [State.wr_jobs]
@[simp] theorem State.cntW_dmk (a : Nat) : (s.cntW a).dmk = s.dmk := by rw [State.cntW]; split <;> simp only [State.wr_dmk]
@[simp] theorem State.cntW_thermal (a : Nat) : (s.cntW a).thermal = s.thermal := by rw [State.cntW]; split <;> simp only [State.wr_thermal]
@[simp] theorem State.cntW_laser (a : Nat) : (s.cntW a).laser = s.laser := by rw [State.cntW]; split <;> simp only [State.wr_laser]
@[simp] theorem State.cntW_loops (a : Nat) : (s.cntW a).loops = s.loops := by rw [State.cntW]; split <;> simp only [State.wr_loops]
@[simp] theorem State.cntW_drives (a : Nat) : (s.cntW a).drives = s.drives := by rw [State.cntW]; split <;> simp only [State.wr_drives]
@[simp] theorem State.cntW_link (a : Nat) : (s.cntW a).link = s.link := by rw [State.cntW]; split <;> simp only [State.wr_link]
@[simp] theorem State.cntW_ddr (a : Nat) : (s.cntW a).ddr = s.ddr := by rw [State.cntW]; split <;> simp only [State.wr_ddr]
@[simp] theorem State.cntW_srm (a : Nat) : (s.cntW a).srm = s.srm := by rw [State.cntW]; split <;> simp only [State.wr_srm]
@[simp] theorem State.cntW_dma (a : Nat) : (s.cntW a).dma = s.dma := by rw [State.cntW]; split <;> simp only [State.wr_dma]
@[simp] theorem State.cntW_tim (a : Nat) : (s.cntW a).tim = s.tim := by rw [State.cntW]; split <;> simp only [State.wr_tim]
@[simp] theorem State.cntW_net (a : Nat) : (s.cntW a).net = s.net := by rw [State.cntW]; split <;> simp only [State.wr_net]
@[simp] theorem State.cntW_sec (a : Nat) : (s.cntW a).sec = s.sec := by rw [State.cntW]; split <;> simp only [State.wr_sec]
@[simp] theorem State.cntW_fgd (a : Nat) : (s.cntW a).fgd = s.fgd := by rw [State.cntW]; split <;> simp only [State.wr_fgd]
@[simp] theorem State.cntW_flt (a : Nat) : (s.cntW a).flt = s.flt := by rw [State.cntW]; split <;> simp only [State.wr_flt]
@[simp] theorem State.cntW_clk (a : Nat) : (s.cntW a).clk = s.clk := by rw [State.cntW]; split <;> simp only [State.wr_clk]
@[simp] theorem State.cntW_thm (a : Nat) : (s.cntW a).thm = s.thm := by rw [State.cntW]; split <;> simp only [State.wr_thm]
@[simp] theorem State.cntW_pwr (a : Nat) : (s.cntW a).pwr = s.pwr := by rw [State.cntW]; split <;> simp only [State.wr_pwr]
@[simp] theorem State.cntW_bkg (a : Nat) : (s.cntW a).bkg = s.bkg := by rw [State.cntW]; split <;> simp only [State.wr_bkg]
@[simp] theorem State.cntW_pins (a : Nat) : (s.cntW a).pins = s.pins := by rw [State.cntW]; split <;> simp only [State.wr_pins]
@[simp] theorem State.cntW_plic (a : Nat) : (s.cntW a).plic = s.plic := by rw [State.cntW]; split <;> simp only [State.wr_plic]
@[simp] theorem State.cntW_testMode (a : Nat) : (s.cntW a).testMode = s.testMode := by rw [State.cntW]; split <;> simp only [State.wr_testMode]
@[simp] theorem State.cntW_resp (a : Nat) : (s.cntW a).resp = s.resp := by rw [State.cntW]; split <;> simp only [State.wr_resp]
@[simp] theorem State.cntW_free (a : Nat) : (s.cntW a).free = s.free := by rw [State.cntW]; split <;> simp only [State.wr_free]
@[simp] theorem State.cntW_pending (a : Nat) : (s.cntW a).pending = s.pending := by rw [State.cntW]; split <;> simp only [State.wr_pending]
@[simp] theorem State.cntW_rdByte (a : Nat) (c : Nat) : (s.cntW a).rdByte c = s.rdByte c := by simp only [State.rdByte, State.cntW_mem]

@[simp] theorem State.peak_mem (a hi lo n : Nat) : (s.peak a hi lo n).mem = s.mem := by rw [State.peak]; split <;> simp only [State.wrf_mem]
@[simp] theorem State.peak_flash (a hi lo n : Nat) : (s.peak a hi lo n).flash = s.flash := by rw [State.peak]; split <;> simp only [State.wrf_flash]
@[simp] theorem State.peak_lin (a hi lo n : Nat) : (s.peak a hi lo n).lin = s.lin := by rw [State.peak]; split <;> simp only [State.wrf_lin]
@[simp] theorem State.peak_jobs (a hi lo n : Nat) : (s.peak a hi lo n).jobs = s.jobs := by rw [State.peak]; split <;> simp only [State.wrf_jobs]
@[simp] theorem State.peak_dmk (a hi lo n : Nat) : (s.peak a hi lo n).dmk = s.dmk := by rw [State.peak]; split <;> simp only [State.wrf_dmk]
@[simp] theorem State.peak_thermal (a hi lo n : Nat) : (s.peak a hi lo n).thermal = s.thermal := by rw [State.peak]; split <;> simp only [State.wrf_thermal]
@[simp] theorem State.peak_laser (a hi lo n : Nat) : (s.peak a hi lo n).laser = s.laser := by rw [State.peak]; split <;> simp only [State.wrf_laser]
@[simp] theorem State.peak_loops (a hi lo n : Nat) : (s.peak a hi lo n).loops = s.loops := by rw [State.peak]; split <;> simp only [State.wrf_loops]
@[simp] theorem State.peak_drives (a hi lo n : Nat) : (s.peak a hi lo n).drives = s.drives := by rw [State.peak]; split <;> simp only [State.wrf_drives]
@[simp] theorem State.peak_link (a hi lo n : Nat) : (s.peak a hi lo n).link = s.link := by rw [State.peak]; split <;> simp only [State.wrf_link]
@[simp] theorem State.peak_ddr (a hi lo n : Nat) : (s.peak a hi lo n).ddr = s.ddr := by rw [State.peak]; split <;> simp only [State.wrf_ddr]
@[simp] theorem State.peak_srm (a hi lo n : Nat) : (s.peak a hi lo n).srm = s.srm := by rw [State.peak]; split <;> simp only [State.wrf_srm]
@[simp] theorem State.peak_dma (a hi lo n : Nat) : (s.peak a hi lo n).dma = s.dma := by rw [State.peak]; split <;> simp only [State.wrf_dma]
@[simp] theorem State.peak_tim (a hi lo n : Nat) : (s.peak a hi lo n).tim = s.tim := by rw [State.peak]; split <;> simp only [State.wrf_tim]
@[simp] theorem State.peak_net (a hi lo n : Nat) : (s.peak a hi lo n).net = s.net := by rw [State.peak]; split <;> simp only [State.wrf_net]
@[simp] theorem State.peak_sec (a hi lo n : Nat) : (s.peak a hi lo n).sec = s.sec := by rw [State.peak]; split <;> simp only [State.wrf_sec]
@[simp] theorem State.peak_fgd (a hi lo n : Nat) : (s.peak a hi lo n).fgd = s.fgd := by rw [State.peak]; split <;> simp only [State.wrf_fgd]
@[simp] theorem State.peak_flt (a hi lo n : Nat) : (s.peak a hi lo n).flt = s.flt := by rw [State.peak]; split <;> simp only [State.wrf_flt]
@[simp] theorem State.peak_clk (a hi lo n : Nat) : (s.peak a hi lo n).clk = s.clk := by rw [State.peak]; split <;> simp only [State.wrf_clk]
@[simp] theorem State.peak_thm (a hi lo n : Nat) : (s.peak a hi lo n).thm = s.thm := by rw [State.peak]; split <;> simp only [State.wrf_thm]
@[simp] theorem State.peak_pwr (a hi lo n : Nat) : (s.peak a hi lo n).pwr = s.pwr := by rw [State.peak]; split <;> simp only [State.wrf_pwr]
@[simp] theorem State.peak_bkg (a hi lo n : Nat) : (s.peak a hi lo n).bkg = s.bkg := by rw [State.peak]; split <;> simp only [State.wrf_bkg]
@[simp] theorem State.peak_pins (a hi lo n : Nat) : (s.peak a hi lo n).pins = s.pins := by rw [State.peak]; split <;> simp only [State.wrf_pins]
@[simp] theorem State.peak_plic (a hi lo n : Nat) : (s.peak a hi lo n).plic = s.plic := by rw [State.peak]; split <;> simp only [State.wrf_plic]
@[simp] theorem State.peak_testMode (a hi lo n : Nat) : (s.peak a hi lo n).testMode = s.testMode := by rw [State.peak]; split <;> simp only [State.wrf_testMode]
@[simp] theorem State.peak_resp (a hi lo n : Nat) : (s.peak a hi lo n).resp = s.resp := by rw [State.peak]; split <;> simp only [State.wrf_resp]
@[simp] theorem State.peak_free (a hi lo n : Nat) : (s.peak a hi lo n).free = s.free := by rw [State.peak]; split <;> simp only [State.wrf_free]
@[simp] theorem State.peak_pending (a hi lo n : Nat) : (s.peak a hi lo n).pending = s.pending := by rw [State.peak]; split <;> simp only [State.wrf_pending]
@[simp] theorem State.peak_rdByte (a hi lo n : Nat) (c : Nat) : (s.peak a hi lo n).rdByte c = s.rdByte c := by simp only [State.rdByte, State.peak_mem]

end

/-! ### Registers and bytes through the updates of other parts -/

section
variable (s : State)

@[simp] theorem State.wr_rdByte (i : Nat) (v : Word) (r : Nat) : (s.wr i v).rdByte r = s.rdByte r := by simp only [State.rdByte, State.wr_mem]
@[simp] theorem State.resetRegs_rdByte (p : Nat → Bool) (r : Nat) : (s.resetRegs p).rdByte r = s.rdByte r := by simp only [State.rdByte, State.resetRegs_mem]
@[simp] theorem State.wrByte_rd (i : Nat) (b : Byte) (r : Nat) : (s.wrByte i b).rd r = s.rd r := rfl
@[simp] theorem State.eraseMem_rd (i n : Nat) (r : Nat) : (s.eraseMem i n).rd r = s.rd r := rfl
@[simp] theorem State.respond_rd (e : Bool) (d : Word) (r : Nat) : (s.respond e d).rd r = s.rd r := rfl
@[simp] theorem State.respond_rdByte (e : Bool) (d : Word) (r : Nat) : (s.respond e d).rdByte r = s.rdByte r := by simp only [State.rdByte, State.respond_mem]
@[simp] theorem State.setEnc_rd (k : Nat) (v : EncState) (r : Nat) : (s.setEnc k v).rd r = s.rd r := rfl
@[simp] theorem State.setEnc_rdByte (k : Nat) (v : EncState) (r : Nat) : (s.setEnc k v).rdByte r = s.rdByte r := by simp only [State.rdByte, State.setEnc_mem]
@[simp] theorem State.setVenc_rd (k : Nat) (v : VencState) (r : Nat) : (s.setVenc k v).rd r = s.rd r := rfl
@[simp] theorem State.setVenc_rdByte (k : Nat) (v : VencState) (r : Nat) : (s.setVenc k v).rdByte r = s.rdByte r := by simp only [State.rdByte, State.setVenc_mem]
@[simp] theorem State.setPd_rd (k : Nat) (v : PdState) (r : Nat) : (s.setPd k v).rd r = s.rd r := rfl
@[simp] theorem State.setPd_rdByte (k : Nat) (v : PdState) (r : Nat) : (s.setPd k v).rdByte r = s.rdByte r := by simp only [State.rdByte, State.setPd_mem]
@[simp] theorem State.setTrk_rd (k : Nat) (v : TrkEntry) (r : Nat) : (s.setTrk k v).rd r = s.rd r := rfl
@[simp] theorem State.setTrk_rdByte (k : Nat) (v : TrkEntry) (r : Nat) : (s.setTrk k v).rdByte r = s.rdByte r := by simp only [State.rdByte, State.setTrk_mem]
@[simp] theorem State.setRej_rd (k : Nat) (v : RejState) (r : Nat) : (s.setRej k v).rd r = s.rd r := rfl
@[simp] theorem State.setRej_rdByte (k : Nat) (v : RejState) (r : Nat) : (s.setRej k v).rdByte r = s.rdByte r := by simp only [State.rdByte, State.setRej_mem]
@[simp] theorem State.setChan_rd (k : Nat) (v : ChanState) (r : Nat) : (s.setChan k v).rd r = s.rd r := rfl
@[simp] theorem State.setChan_rdByte (k : Nat) (v : ChanState) (r : Nat) : (s.setChan k v).rdByte r = s.rdByte r := by simp only [State.rdByte, State.setChan_mem]
@[simp] theorem State.setSeq_rd (k : Nat) (v : SeqState) (r : Nat) : (s.setSeq k v).rd r = s.rd r := rfl
@[simp] theorem State.setSeq_rdByte (k : Nat) (v : SeqState) (r : Nat) : (s.setSeq k v).rdByte r = s.rdByte r := by simp only [State.rdByte, State.setSeq_mem]
@[simp] theorem State.setStn_rd (k : Nat) (v : StnState) (r : Nat) : (s.setStn k v).rd r = s.rd r := rfl
@[simp] theorem State.setStn_rdByte (k : Nat) (v : StnState) (r : Nat) : (s.setStn k v).rdByte r = s.rdByte r := by simp only [State.rdByte, State.setStn_mem]
@[simp] theorem State.setEngine_rd (k : Nat) (v : EngineState) (r : Nat) : (s.setEngine k v).rd r = s.rd r := rfl
@[simp] theorem State.setEngine_rdByte (k : Nat) (v : EngineState) (r : Nat) : (s.setEngine k v).rdByte r = s.rdByte r := by simp only [State.rdByte, State.setEngine_mem]
@[simp] theorem State.setTplSlot_rd (k : Nat) (v : Option Template) (r : Nat) : (s.setTplSlot k v).rd r = s.rd r := rfl
@[simp] theorem State.setTplSlot_rdByte (k : Nat) (v : Option Template) (r : Nat) : (s.setTplSlot k v).rdByte r = s.rdByte r := by simp only [State.rdByte, State.setTplSlot_mem]
@[simp] theorem State.setSerial_rd (k : Nat) (v : SerialState) (r : Nat) : (s.setSerial k v).rd r = s.rd r := rfl
@[simp] theorem State.setSerial_rdByte (k : Nat) (v : SerialState) (r : Nat) : (s.setSerial k v).rdByte r = s.rdByte r := by simp only [State.rdByte, State.setSerial_mem]
@[simp] theorem State.setCounter_rd (k : Nat) (v : CounterSeen) (r : Nat) : (s.setCounter k v).rd r = s.rd r := rfl
@[simp] theorem State.setCounter_rdByte (k : Nat) (v : CounterSeen) (r : Nat) : (s.setCounter k v).rdByte r = s.rdByte r := by simp only [State.rdByte, State.setCounter_mem]
@[simp] theorem State.setTherm_rd (k : Nat) (v : ThermState) (r : Nat) : (s.setTherm k v).rd r = s.rd r := rfl
@[simp] theorem State.setTherm_rdByte (k : Nat) (v : ThermState) (r : Nat) : (s.setTherm k v).rdByte r = s.rdByte r := by simp only [State.rdByte, State.setTherm_mem]
@[simp] theorem State.setTag_rd (k : Nat) (v : TagState) (r : Nat) : (s.setTag k v).rd r = s.rd r := rfl
@[simp] theorem State.setTag_rdByte (k : Nat) (v : TagState) (r : Nat) : (s.setTag k v).rdByte r = s.rdByte r := by simp only [State.rdByte, State.setTag_mem]
@[simp] theorem State.setLas_rd (k : Nat) (v : LaserState) (r : Nat) : (s.setLas k v).rd r = s.rd r := rfl
@[simp] theorem State.setLas_rdByte (k : Nat) (v : LaserState) (r : Nat) : (s.setLas k v).rdByte r = s.rdByte r := by simp only [State.rdByte, State.setLas_mem]
@[simp] theorem State.setLoop_rd (k : Nat) (v : LoopState) (r : Nat) : (s.setLoop k v).rd r = s.rd r := rfl
@[simp] theorem State.setLoop_rdByte (k : Nat) (v : LoopState) (r : Nat) : (s.setLoop k v).rdByte r = s.rdByte r := by simp only [State.rdByte, State.setLoop_mem]
@[simp] theorem State.setStep__rd (k : Nat) (v : StepperState) (r : Nat) : (s.setStep_ k v).rd r = s.rd r := rfl
@[simp] theorem State.setStep__rdByte (k : Nat) (v : StepperState) (r : Nat) : (s.setStep_ k v).rdByte r = s.rdByte r := by simp only [State.rdByte, State.setStep__mem]
@[simp] theorem State.setBldc_rd (k : Nat) (v : BldcState) (r : Nat) : (s.setBldc k v).rd r = s.rd r := rfl
@[simp] theorem State.setBldc_rdByte (k : Nat) (v : BldcState) (r : Nat) : (s.setBldc k v).rdByte r = s.rdByte r := by simp only [State.rdByte, State.setBldc_mem]
@[simp] theorem State.setMbus_rd (k : Nat) (v : BusState) (r : Nat) : (s.setMbus k v).rd r = s.rd r := rfl
@[simp] theorem State.setMbus_rdByte (k : Nat) (v : BusState) (r : Nat) : (s.setMbus k v).rdByte r = s.rdByte r := by simp only [State.rdByte, State.setMbus_mem]
@[simp] theorem State.setLnk_rd (k : Nat) (v : LinkState) (r : Nat) : (s.setLnk k v).rd r = s.rd r := rfl
@[simp] theorem State.setLnk_rdByte (k : Nat) (v : LinkState) (r : Nat) : (s.setLnk k v).rdByte r = s.rdByte r := by simp only [State.rdByte, State.setLnk_mem]
@[simp] theorem State.setDch_rd (k : Nat) (v : DmaChan) (r : Nat) : (s.setDch k v).rd r = s.rd r := rfl
@[simp] theorem State.setDch_rdByte (k : Nat) (v : DmaChan) (r : Nat) : (s.setDch k v).rdByte r = s.rdByte r := by simp only [State.rdByte, State.setDch_mem]
@[simp] theorem State.setRing_rd (k : Nat) (v : RingState) (r : Nat) : (s.setRing k v).rd r = s.rd r := rfl
@[simp] theorem State.setRing_rdByte (k : Nat) (v : RingState) (r : Nat) : (s.setRing k v).rdByte r = s.rdByte r := by simp only [State.rdByte, State.setRing_mem]
@[simp] theorem State.setLane_rd (k : Nat) (v : LaneUse) (r : Nat) : (s.setLane k v).rd r = s.rd r := rfl
@[simp] theorem State.setLane_rdByte (k : Nat) (v : LaneUse) (r : Nat) : (s.setLane k v).rdByte r = s.rdByte r := by simp only [State.rdByte, State.setLane_mem]
@[simp] theorem State.setChain_rd (k : Nat) (v : ChainHead) (r : Nat) : (s.setChain k v).rd r = s.rd r := rfl
@[simp] theorem State.setChain_rdByte (k : Nat) (v : ChainHead) (r : Nat) : (s.setChain k v).rdByte r = s.rdByte r := by simp only [State.rdByte, State.setChain_mem]
@[simp] theorem State.setIlk_rd (k : Nat) (v : IlkState) (r : Nat) : (s.setIlk k v).rd r = s.rd r := rfl
@[simp] theorem State.setIlk_rdByte (k : Nat) (v : IlkState) (r : Nat) : (s.setIlk k v).rdByte r = s.rdByte r := by simp only [State.rdByte, State.setIlk_mem]
@[simp] theorem State.setSrc_rd (k : Nat) (v : SrcState) (r : Nat) : (s.setSrc k v).rd r = s.rd r := rfl
@[simp] theorem State.setSrc_rdByte (k : Nat) (v : SrcState) (r : Nat) : (s.setSrc k v).rdByte r = s.rdByte r := by simp only [State.rdByte, State.setSrc_mem]
@[simp] theorem State.setSyn_rd (k : Nat) (v : SynState) (r : Nat) : (s.setSyn k v).rd r = s.rd r := rfl
@[simp] theorem State.setSyn_rdByte (k : Nat) (v : SynState) (r : Nat) : (s.setSyn k v).rdByte r = s.rdByte r := by simp only [State.rdByte, State.setSyn_mem]
@[simp] theorem State.setDie_rd (k : Nat) (v : DieState) (r : Nat) : (s.setDie k v).rd r = s.rd r := rfl
@[simp] theorem State.setDie_rdByte (k : Nat) (v : DieState) (r : Nat) : (s.setDie k v).rdByte r = s.rdByte r := by simp only [State.rdByte, State.setDie_mem]
@[simp] theorem State.setSlot_rd (k : Nat) (v : SlotState) (r : Nat) : (s.setSlot k v).rd r = s.rd r := rfl
@[simp] theorem State.setSlot_rdByte (k : Nat) (v : SlotState) (r : Nat) : (s.setSlot k v).rdByte r = s.rdByte r := by simp only [State.rdByte, State.setSlot_mem]
@[simp] theorem State.setConv_rd (k : Nat) (v : ConvState) (r : Nat) : (s.setConv k v).rd r = s.rd r := rfl
@[simp] theorem State.setConv_rdByte (k : Nat) (v : ConvState) (r : Nat) : (s.setConv k v).rdByte r = s.rdByte r := by simp only [State.rdByte, State.setConv_mem]

end

/-! ### Units: what was set is what reads -/

section
variable (s : State)

@[simp] theorem State.setEnc_same (k : Nat) (v : EncState) : (s.setEnc k v).enc k = v := tabGet_put_same ..
theorem State.setEnc_other {k j : Nat} (v : EncState) (h : j ≠ k) : (s.setEnc k v).enc j = s.enc j := tabGet_put_other _ _ _ v h
@[simp] theorem State.setVenc_same (k : Nat) (v : VencState) : (s.setVenc k v).venc k = v := tabGet_put_same ..
theorem State.setVenc_other {k j : Nat} (v : VencState) (h : j ≠ k) : (s.setVenc k v).venc j = s.venc j := tabGet_put_other _ _ _ v h
@[simp] theorem State.setPd_same (k : Nat) (v : PdState) : (s.setPd k v).pd k = v := tabGet_put_same ..
theorem State.setPd_other {k j : Nat} (v : PdState) (h : j ≠ k) : (s.setPd k v).pd j = s.pd j := tabGet_put_other _ _ _ v h
@[simp] theorem State.setTrk_same (k : Nat) (v : TrkEntry) : (s.setTrk k v).trk k = v := tabGet_put_same ..
theorem State.setTrk_other {k j : Nat} (v : TrkEntry) (h : j ≠ k) : (s.setTrk k v).trk j = s.trk j := tabGet_put_other _ _ _ v h
@[simp] theorem State.setRej_same (k : Nat) (v : RejState) : (s.setRej k v).rej k = v := tabGet_put_same ..
theorem State.setRej_other {k j : Nat} (v : RejState) (h : j ≠ k) : (s.setRej k v).rej j = s.rej j := tabGet_put_other _ _ _ v h
@[simp] theorem State.setChan_same (k : Nat) (v : ChanState) : (s.setChan k v).chan k = v := tabGet_put_same ..
theorem State.setChan_other {k j : Nat} (v : ChanState) (h : j ≠ k) : (s.setChan k v).chan j = s.chan j := tabGet_put_other _ _ _ v h
@[simp] theorem State.setSeq_same (k : Nat) (v : SeqState) : (s.setSeq k v).seq k = v := tabGet_put_same ..
theorem State.setSeq_other {k j : Nat} (v : SeqState) (h : j ≠ k) : (s.setSeq k v).seq j = s.seq j := tabGet_put_other _ _ _ v h
@[simp] theorem State.setStn_same (k : Nat) (v : StnState) : (s.setStn k v).stn k = v := tabGet_put_same ..
theorem State.setStn_other {k j : Nat} (v : StnState) (h : j ≠ k) : (s.setStn k v).stn j = s.stn j := tabGet_put_other _ _ _ v h
@[simp] theorem State.setEngine_same (k : Nat) (v : EngineState) : (s.setEngine k v).engine k = v := tabGet_put_same ..
theorem State.setEngine_other {k j : Nat} (v : EngineState) (h : j ≠ k) : (s.setEngine k v).engine j = s.engine j := tabGet_put_other _ _ _ v h
@[simp] theorem State.setTplSlot_same (k : Nat) (v : Option Template) : (s.setTplSlot k v).tplSlot k = v := tabGet_put_same ..
theorem State.setTplSlot_other {k j : Nat} (v : Option Template) (h : j ≠ k) : (s.setTplSlot k v).tplSlot j = s.tplSlot j := tabGet_put_other _ _ _ v h
@[simp] theorem State.setSerial_same (k : Nat) (v : SerialState) : (s.setSerial k v).serial k = v := tabGet_put_same ..
theorem State.setSerial_other {k j : Nat} (v : SerialState) (h : j ≠ k) : (s.setSerial k v).serial j = s.serial j := tabGet_put_other _ _ _ v h
@[simp] theorem State.setCounter_same (k : Nat) (v : CounterSeen) : (s.setCounter k v).counter k = v := tabGet_put_same ..
theorem State.setCounter_other {k j : Nat} (v : CounterSeen) (h : j ≠ k) : (s.setCounter k v).counter j = s.counter j := tabGet_put_other _ _ _ v h
@[simp] theorem State.setTherm_same (k : Nat) (v : ThermState) : (s.setTherm k v).therm k = v := tabGet_put_same ..
theorem State.setTherm_other {k j : Nat} (v : ThermState) (h : j ≠ k) : (s.setTherm k v).therm j = s.therm j := tabGet_put_other _ _ _ v h
@[simp] theorem State.setTag_same (k : Nat) (v : TagState) : (s.setTag k v).tag k = v := tabGet_put_same ..
theorem State.setTag_other {k j : Nat} (v : TagState) (h : j ≠ k) : (s.setTag k v).tag j = s.tag j := tabGet_put_other _ _ _ v h
@[simp] theorem State.setLas_same (k : Nat) (v : LaserState) : (s.setLas k v).las k = v := tabGet_put_same ..
theorem State.setLas_other {k j : Nat} (v : LaserState) (h : j ≠ k) : (s.setLas k v).las j = s.las j := tabGet_put_other _ _ _ v h
@[simp] theorem State.setLoop_same (k : Nat) (v : LoopState) : (s.setLoop k v).loop k = v := tabGet_put_same ..
theorem State.setLoop_other {k j : Nat} (v : LoopState) (h : j ≠ k) : (s.setLoop k v).loop j = s.loop j := tabGet_put_other _ _ _ v h
@[simp] theorem State.setStep__same (k : Nat) (v : StepperState) : (s.setStep_ k v).step_ k = v := tabGet_put_same ..
theorem State.setStep__other {k j : Nat} (v : StepperState) (h : j ≠ k) : (s.setStep_ k v).step_ j = s.step_ j := tabGet_put_other _ _ _ v h
@[simp] theorem State.setBldc_same (k : Nat) (v : BldcState) : (s.setBldc k v).bldc k = v := tabGet_put_same ..
theorem State.setBldc_other {k j : Nat} (v : BldcState) (h : j ≠ k) : (s.setBldc k v).bldc j = s.bldc j := tabGet_put_other _ _ _ v h
@[simp] theorem State.setMbus_same (k : Nat) (v : BusState) : (s.setMbus k v).mbus k = v := tabGet_put_same ..
theorem State.setMbus_other {k j : Nat} (v : BusState) (h : j ≠ k) : (s.setMbus k v).mbus j = s.mbus j := tabGet_put_other _ _ _ v h
@[simp] theorem State.setLnk_same (k : Nat) (v : LinkState) : (s.setLnk k v).lnk k = v := tabGet_put_same ..
theorem State.setLnk_other {k j : Nat} (v : LinkState) (h : j ≠ k) : (s.setLnk k v).lnk j = s.lnk j := tabGet_put_other _ _ _ v h
@[simp] theorem State.setDch_same (k : Nat) (v : DmaChan) : (s.setDch k v).dch k = v := tabGet_put_same ..
theorem State.setDch_other {k j : Nat} (v : DmaChan) (h : j ≠ k) : (s.setDch k v).dch j = s.dch j := tabGet_put_other _ _ _ v h
@[simp] theorem State.setRing_same (k : Nat) (v : RingState) : (s.setRing k v).ring k = v := tabGet_put_same ..
theorem State.setRing_other {k j : Nat} (v : RingState) (h : j ≠ k) : (s.setRing k v).ring j = s.ring j := tabGet_put_other _ _ _ v h
@[simp] theorem State.setLane_same (k : Nat) (v : LaneUse) : (s.setLane k v).lane k = v := tabGet_put_same ..
theorem State.setLane_other {k j : Nat} (v : LaneUse) (h : j ≠ k) : (s.setLane k v).lane j = s.lane j := tabGet_put_other _ _ _ v h
@[simp] theorem State.setChain_same (k : Nat) (v : ChainHead) : (s.setChain k v).chain k = v := tabGet_put_same ..
theorem State.setChain_other {k j : Nat} (v : ChainHead) (h : j ≠ k) : (s.setChain k v).chain j = s.chain j := tabGet_put_other _ _ _ v h
@[simp] theorem State.setIlk_same (k : Nat) (v : IlkState) : (s.setIlk k v).ilk k = v := tabGet_put_same ..
theorem State.setIlk_other {k j : Nat} (v : IlkState) (h : j ≠ k) : (s.setIlk k v).ilk j = s.ilk j := tabGet_put_other _ _ _ v h
@[simp] theorem State.setSrc_same (k : Nat) (v : SrcState) : (s.setSrc k v).src k = v := tabGet_put_same ..
theorem State.setSrc_other {k j : Nat} (v : SrcState) (h : j ≠ k) : (s.setSrc k v).src j = s.src j := tabGet_put_other _ _ _ v h
@[simp] theorem State.setSyn_same (k : Nat) (v : SynState) : (s.setSyn k v).syn k = v := tabGet_put_same ..
theorem State.setSyn_other {k j : Nat} (v : SynState) (h : j ≠ k) : (s.setSyn k v).syn j = s.syn j := tabGet_put_other _ _ _ v h
@[simp] theorem State.setDie_same (k : Nat) (v : DieState) : (s.setDie k v).die k = v := tabGet_put_same ..
theorem State.setDie_other {k j : Nat} (v : DieState) (h : j ≠ k) : (s.setDie k v).die j = s.die j := tabGet_put_other _ _ _ v h
@[simp] theorem State.setSlot_same (k : Nat) (v : SlotState) : (s.setSlot k v).slot k = v := tabGet_put_same ..
theorem State.setSlot_other {k j : Nat} (v : SlotState) (h : j ≠ k) : (s.setSlot k v).slot j = s.slot j := tabGet_put_other _ _ _ v h
@[simp] theorem State.setConv_same (k : Nat) (v : ConvState) : (s.setConv k v).conv k = v := tabGet_put_same ..
theorem State.setConv_other {k j : Nat} (v : ConvState) (h : j ≠ k) : (s.setConv k v).conv j = s.conv j := tabGet_put_other _ _ _ v h

end

end Sys2Proof.Machine
end

