-- ==== Sys2Proof/Laws/Bits.lean ====
section
/-! SUPPORT. Fields of words: what reads after a field or a bit was set, and the same through a register. -/
namespace Sys2Proof.Machine

theorem testBit_setFld (w : Word) (hi lo v i : Nat) (h : lo ≤ hi) (h32 : hi < 32) :
    (setFld w hi lo v).toNat.testBit i =
      if i < lo then w.toNat.testBit i else if i ≤ hi then v.testBit (i - lo) else w.toNat.testBit i := by
  obtain ⟨k, rfl⟩ : ∃ k, hi = lo + k := ⟨hi - lo, by omega⟩
  have hk : lo + k + 1 - lo = k + 1 := by omega
  simp only [setFld, hk]
  generalize hn : w.toNat = n
  have hn32 : n < 2 ^ 32 := hn ▸ w.isLt
  have e1 : n = 2 ^ lo * (2 ^ (k + 1) * (n / 2 ^ lo / 2 ^ (k + 1)) + n / 2 ^ lo % 2 ^ (k + 1)) + n % 2 ^ lo := by
    rw [Nat.div_add_mod, Nat.div_add_mod]
  have e2 : n - n / 2 ^ lo % 2 ^ (k + 1) * 2 ^ lo + v % 2 ^ (k + 1) * 2 ^ lo =
      2 ^ lo * (2 ^ (k + 1) * (n / 2 ^ lo / 2 ^ (k + 1)) + v % 2 ^ (k + 1)) + n % 2 ^ lo := by
    conv => lhs; arg 1; arg 1; rw [e1]
    simp only [Nat.mul_add, Nat.mul_comm (n / 2 ^ lo % 2 ^ (k + 1)) (2 ^ lo), Nat.mul_comm (v % 2 ^ (k + 1)) (2 ^ lo)]
    omega
  have hlo : n % 2 ^ lo < 2 ^ lo := Nat.mod_lt _ (Nat.two_pow_pos _)
  have hm : n / 2 ^ lo % 2 ^ (k + 1) < 2 ^ (k + 1) := Nat.mod_lt _ (Nat.two_pow_pos _)
  have hv : v % 2 ^ (k + 1) < 2 ^ (k + 1) := Nat.mod_lt _ (Nat.two_pow_pos _)
  have tn : ∀ j, n.testBit j = if j < lo then (n % 2 ^ lo).testBit j else if j - lo < k + 1 then
      (n / 2 ^ lo % 2 ^ (k + 1)).testBit (j - lo) else (n / 2 ^ lo / 2 ^ (k + 1)).testBit (j - lo - (k + 1)) := by
    intro j
    conv => lhs; rw [e1]
    rw [Nat.testBit_two_pow_mul_add _ hlo, Nat.testBit_two_pow_mul_add _ hm]
  have t2 : ∀ j, (n - n / 2 ^ lo % 2 ^ (k + 1) * 2 ^ lo + v % 2 ^ (k + 1) * 2 ^ lo).testBit j =
      if j < lo then (n % 2 ^ lo).testBit j else if j - lo < k + 1 then
      (v % 2 ^ (k + 1)).testBit (j - lo) else (n / 2 ^ lo / 2 ^ (k + 1)).testBit (j - lo - (k + 1)) := by
    intro j
    rw [e2, Nat.testBit_two_pow_mul_add _ hlo, Nat.testBit_two_pow_mul_add _ hv]
  have hlt : n - n / 2 ^ lo % 2 ^ (k + 1) * 2 ^ lo + v % 2 ^ (k + 1) * 2 ^ lo < 2 ^ 32 := by
    refine Nat.lt_pow_two_of_testBit _ fun j hj => ?_
    have hj' : n.testBit j = false := Nat.testBit_lt_two_pow (Nat.lt_of_lt_of_le hn32 (Nat.pow_le_pow_right (by decide) hj))
    rw [tn] at hj'
    rw [t2]
    have h1 : ¬ j < lo := by omega
    have h2 : ¬ j - lo < k + 1 := by omega
    rw [if_neg h1, if_neg h2] at hj' ⊢
    exact hj'
  rw [BitVec.toNat_ofNat, Nat.mod_eq_of_lt hlt, t2, tn]
  by_cases h1 : i < lo
  · simp [h1]
  · by_cases h2 : i ≤ lo + k
    · have h3 : i - lo < k + 1 := by omega
      simp [h1, h2, h3, Nat.testBit_mod_two_pow]
    · have h3 : ¬ i - lo < k + 1 := by omega
      simp [h1, h2, h3]

theorem testBit_fld (w : Word) (hi lo i : Nat) :
    (fld w hi lo).testBit i = (decide (i < hi + 1 - lo) && w.toNat.testBit (lo + i)) := by
  simp [fld, Nat.testBit_mod_two_pow, Nat.testBit_div_two_pow, Nat.add_comm]

/-- A field reads as what was set, modulo its size. -/
theorem fld_setFld_same (w : Word) {hi lo : Nat} (v : Nat) (h : lo ≤ hi) (h32 : hi < 32) :
    fld (setFld w hi lo v) hi lo = v % 2 ^ (hi + 1 - lo) := by
  refine Nat.eq_of_testBit_eq fun i => ?_
  rw [testBit_fld, testBit_setFld _ _ _ _ _ h h32, Nat.testBit_mod_two_pow]
  by_cases hi' : i < hi + 1 - lo
  · have h1 : ¬ lo + i < lo := by omega
    have h2 : lo + i ≤ hi := by omega
    simp [hi', h1, h2]
  · simp [hi']

/-- Setting one field leaves a field that does not meet it. -/
theorem fld_setFld_other (w : Word) {hi lo : Nat} (v : Nat) {hi' lo' : Nat} (h : lo ≤ hi) (h32 : hi < 32)
    (hd : hi' < lo ∨ hi < lo') : fld (setFld w hi lo v) hi' lo' = fld w hi' lo' := by
  refine Nat.eq_of_testBit_eq fun i => ?_
  rw [testBit_fld, testBit_fld, testBit_setFld _ _ _ _ _ h h32]
  by_cases hi1 : i < hi' + 1 - lo'
  · by_cases h1 : lo' + i < lo
    · simp [h1]
    · have h2 : ¬ lo' + i ≤ hi := by omega
      simp [h1, h2]
  · simp [hi1]

theorem bit_setFld_other (w : Word) {hi lo : Nat} (v : Nat) {i : Nat} (h : lo ≤ hi) (h32 : hi < 32) (hd : i < lo ∨ hi < i) :
    bit (setFld w hi lo v) i = bit w i := by
  unfold bit
  rw [testBit_setFld _ _ _ _ _ h h32]
  by_cases h1 : i < lo
  · simp [h1]
  · have h2 : ¬ i ≤ hi := by omega
    simp [h1, h2]

theorem b2n_mod_two (b : Bool) : decide (b2n b % 2 = 1) = b := by cases b <;> rfl

/-- A bit reads as what was set. -/
theorem bit_setBit_same (w : Word) {i : Nat} (b : Bool) (h : i < 32) : bit (setBit w i b) i = b := by
  unfold bit setBit
  rw [testBit_setFld _ _ _ _ _ (Nat.le_refl _) h]
  simp [b2n_mod_two]

theorem bit_setBit_other (w : Word) {i j : Nat} (b : Bool) (h : i < 32) (hd : j ≠ i) : bit (setBit w i b) j = bit w j :=
  bit_setFld_other w _ (Nat.le_refl _) h (by omega)

theorem fld_setBit_other (w : Word) {i : Nat} (b : Bool) {hi' lo' : Nat} (h : i < 32) (hd : hi' < i ∨ i < lo') :
    fld (setBit w i b) hi' lo' = fld w hi' lo' :=
  fld_setFld_other w _ (Nat.le_refl _) h hd

/-! ### Through a register -/

section
variable (s : State)

@[simp] theorem State.rd_wrf_same (a hi lo v : Nat) : (s.wrf a hi lo v).rd a = setFld (s.rd a) hi lo v := s.rd_wr_same ..
@[simp] theorem State.rd_wrb_same (a i : Nat) (b : Bool) : (s.wrb a i b).rd a = setBit (s.rd a) i b := s.rd_wr_same ..
theorem State.rd_wrf_other {a c : Nat} (hi lo v : Nat) (h : c ≠ a) : (s.wrf a hi lo v).rd c = s.rd c := s.rd_wr_other _ h
theorem State.rd_wrb_other {a c : Nat} (i : Nat) (b : Bool) (h : c ≠ a) : (s.wrb a i b).rd c = s.rd c := s.rd_wr_other _ h

theorem State.rdf_wrf_same {a hi lo v : Nat} (h : lo ≤ hi) (h32 : hi < 32) :
    (s.wrf a hi lo v).rdf a hi lo = v % 2 ^ (hi + 1 - lo) := by
  rw [State.rdf, State.rd_wrf_same]
  exact fld_setFld_same _ _ h h32

theorem State.rdb_wrb_same {a i : Nat} {b : Bool} (h : i < 32) : (s.wrb a i b).rdb a i = b := by
  rw [State.rdb, State.rd_wrb_same]
  exact bit_setBit_same _ _ h

theorem State.rdb_wr_same (a i : Nat) (v : Word) : (s.wr a v).rdb a i = bit v i := by
  rw [State.rdb, State.rd_wr_same]

theorem State.rdf_wr_same (a i j : Nat) (v : Word) : (s.wr a v).rdf a i j = fld v i j := by
  rw [State.rdf, State.rd_wr_same]

/-- The pair of words of a 64-bit number. -/
theorem State.rd_wr64 {lo hi n : Nat} (h : lo ≠ hi) : (s.wr64 lo hi n).rd lo = loW n ∧ (s.wr64 lo hi n).rd hi = hiW n := by
  unfold State.wr64
  exact ⟨by rw [State.rd_wr_other _ _ h, State.rd_wr_same], State.rd_wr_same ..⟩

theorem State.rd_wr64_other {lo hi c : Nat} (n : Nat) (h1 : c ≠ lo) (h2 : c ≠ hi) : (s.wr64 lo hi n).rd c = s.rd c := by
  unfold State.wr64
  rw [State.rd_wr_other _ _ h2, State.rd_wr_other _ _ h1]

end

end Sys2Proof.Machine
end

