-- ==== Sys2Proof/Laws/Flags.lean ====
section
/-! SUPPORT. What the status flags, the soot bits and the events of the fault collector can change: registers of a known
set, and the collector's own state. -/
namespace Sys2Proof.Machine

theorem Leaves.refl {R : Nat → Prop} (s : State) : Leaves R s s := ⟨rfl, fun _ _ => rfl⟩

theorem Leaves.trans {R : Nat → Prop} {s t u : State} (h : Leaves R s t) (g : Leaves R t u) : Leaves R s u := by
  refine ⟨?_, fun a ha => (g.rd a ha).trans (h.rd a ha)⟩
  have e : { u with regs := t.regs, flt := t.flt } = t := g.rest
  have e' : { u with regs := s.regs, flt := s.flt } = { t with regs := s.regs, flt := s.flt } :=
    congrArg (fun x : State => { x with regs := s.regs, flt := s.flt }) e
  exact e'.trans h.rest

theorem Leaves.mono {R Q : Nat → Prop} {s t : State} (h : Leaves R s t) (hq : ∀ a, R a → Q a) : Leaves Q s t :=
  ⟨h.rest, fun a ha => h.rd a fun r => ha (hq a r)⟩

theorem Leaves.mem {R : Nat → Prop} {s t : State} (h : Leaves R s t) : t.mem = s.mem := by
  have e := congrArg State.mem h.rest
  exact e
theorem Leaves.resp {R : Nat → Prop} {s t : State} (h : Leaves R s t) : t.resp = s.resp := by
  have e := congrArg State.resp h.rest
  exact e
theorem Leaves.pending {R : Nat → Prop} {s t : State} (h : Leaves R s t) : t.pending = s.pending := by
  have e := congrArg State.pending h.rest
  exact e
theorem Leaves.tim {R : Nat → Prop} {s t : State} (h : Leaves R s t) : t.tim = s.tim := by
  have e := congrArg State.tim h.rest
  exact e

theorem Leaves.wr {R : Nat → Prop} {s t : State} (h : Leaves R s t) {a : Nat} (v : Word) (ha : R a) :
    Leaves R s (t.wr a v) :=
  h.trans ⟨rfl, fun _ hc => t.rd_wr_other _ fun e => hc (e ▸ ha)⟩

theorem Leaves.wrb {R : Nat → Prop} {s t : State} (h : Leaves R s t) {a : Nat} (i : Nat) (b : Bool) (ha : R a) :
    Leaves R s (t.wrb a i b) := h.wr _ ha

theorem Leaves.wr64 {R : Nat → Prop} {s t : State} (h : Leaves R s t) {a c : Nat} (n : Nat) (ha : R a) (hc : R c) :
    Leaves R s (t.wr64 a c n) := by
  unfold State.wr64
  exact (h.wr _ ha).wr _ hc

theorem Leaves.wrf {R : Nat → Prop} {s t : State} (h : Leaves R s t) {a : Nat} (i j v : Nat) (ha : R a) :
    Leaves R s (t.wrf a i j v) := h.wr _ ha

theorem Leaves.cnt {R : Nat → Prop} {s t : State} (h : Leaves R s t) {a : Nat} (i j : Nat) (ha : R a) :
    Leaves R s (t.cnt a i j) := by
  unfold State.cnt State.cntN
  split
  · exact h
  · exact h.wrf _ _ _ ha

theorem Leaves.irq {R : Nat → Prop} {s t : State} (h : Leaves R s t) {p : Page} (b : Nat) (ha : R (Reg.pgIrqStat p)) :
    Leaves R s (t.irq p b) := by
  unfold State.irq
  split
  · exact h.wrb _ _ ha
  · exact h

theorem Leaves.forL {R : Nat → Prop} {α : Type} (l : List α) (f : α → State → State) {s t : State} (h : Leaves R s t)
    (hf : ∀ x ∈ l, ∀ u, Leaves R u (f x u)) : Leaves R s (forL l f t) := by
  induction l generalizing t with
  | nil => exact h
  | cons x xs ih => exact ih (h.trans (hf x (.head _) t)) fun y hy => hf y (.tail _ hy)

theorem Leaves.setSrc {R : Nat → Prop} {s t : State} (h : Leaves R s t) (k : Nat) (x : SrcState) :
    Leaves R s (t.setSrc k x) := h.trans ⟨rfl, fun _ _ => rfl⟩

/-- The registers of an event but the interrupt status. -/
def colRegs (a : Nat) : Prop := a % 4096 = 0x14 ∨ a / 4096 = 0x40050 ∧ 0x40 ≤ a % 4096

theorem colRegs_ev {a : Nat} (h : colRegs a) : evRegs a := by
  simp only [colRegs, evRegs] at *
  omega

theorem colRegs_stat (p : Page) : colRegs (Reg.pgStat p) := by
  left
  simp only [Reg.pgStat, pageBase]
  omega

theorem evRegs_irq : evRegs (Reg.pgIrqStat .flt) := by
  right
  decide

theorem colRegs_flt {o : Nat} (h1 : 0x40 ≤ o) (h2 : o < 4096) : colRegs (0x40050000 + o) := by
  right
  omega

theorem colRegs_soot {k : Nat} (h : k < 8) : colRegs (Reg.fltSoot k) := by
  right
  simp only [Reg.fltSoot]
  omega

theorem colRegs_pin {k : Nat} (h : k < 8) : colRegs (Reg.fltPin k) := by
  right
  simp only [Reg.fltPin]
  omega

section
variable {R : Nat → Prop} (hR : ∀ a, colRegs a → R a)
include hR

theorem Leaves.setFaulted {s t : State} (h : Leaves R s t) (src : Nat) : Leaves R s (t.setFaulted src) := by
  unfold State.setFaulted
  exact h.forL _ _ fun p _ u => (Leaves.refl u).wrb _ _ (hR _ (colRegs_stat p))

theorem Leaves.fltLog {s t : State} (h : Leaves R s t) (src kind : Nat) : Leaves R s (t.fltLog src kind) := by
  unfold State.fltLog
  extract_lets e full log f u1 u2 u3
  have hr : R Reg.fltLogStat := hR _ (colRegs_flt (by decide) (by decide))
  have h1 : Leaves R s u1 := h.trans ⟨rfl, fun _ _ => rfl⟩
  have h2 : Leaves R s u2 := by
    show Leaves R s (if full = true then _ else _)
    split
    · exact h1.cnt _ _ hr
    · exact h1
  exact (h2.wrf _ _ _ hr).wrf _ _ _ hr

theorem Leaves.showSrc {s t : State} (h : Leaves R s t) {src : Nat} (hs : src < 256) : Leaves R s (t.showSrc src) := by
  unfold State.showSrc
  have hk : src / 32 < 8 := by omega
  exact ((((h.wrb _ _ (hR _ (colRegs_soot hk))).wrb _ _ (hR _ (colRegs_pin hk))).wrf _ _ _
    (hR _ (colRegs_flt (by decide) (by decide))))).setFaulted hR src

end

theorem Leaves.ite {R : Nat → Prop} {c : Prop} [Decidable c] {s t u : State} (ht : Leaves R s t) (hu : Leaves R s u) :
    Leaves R s (if c then t else u) := by
  split <;> assumption

/-- What an event of a source can change: a register the collector writes, or one that its three interrupts keep. -/
theorem Leaves.srcEvent' {R : Nat → Prop} (hR : ∀ a, colRegs a → R a)
    {P : State → Prop} (hP : ∀ s t, Leaves R s t → P s → P t) (hI : ∀ s k, k = 0 ∨ k = 1 ∨ k = 6 → P s → P (s.irq .flt k))
    {s : State} {src : Nat} (hs : src < 256) (h : P s) : P (s.srcEvent src) := by
  unfold State.srcEvent
  split
  · exact h
  extract_lets c x pin window promotes x1 reacts starts x2 u1 u2 u3 u4
  have h1 : P u1 := hP _ _ (((Leaves.refl s).setSrc _ _).fltLog hR _ _) h
  have h2 : P u2 := hI _ _ (.inl rfl) h1
  have h3 : P u3 := by
    show P (if promotes = true then _ else _)
    split
    · exact hI _ _ (.inr (.inr rfl)) (hP _ _ ((Leaves.refl _).fltLog hR _ _) h2)
    · exact h2
  have h4 : P u4 := by
    show P (if starts = true then _ else _)
    split
    · exact hI _ _ (.inr (.inl rfl)) (hP _ _ ((Leaves.refl _).fltLog hR _ _) h3)
    · exact h3
  exact hP _ _ ((Leaves.refl _).showSrc hR hs) h4

/-- What an event of a source can change. -/
theorem Leaves.srcEvent {s t : State} (h : Leaves evRegs s t) {src : Nat} (hs : src < 256) :
    Leaves evRegs s (t.srcEvent src) :=
  Leaves.srcEvent' (R := evRegs) (P := Leaves evRegs s) (fun _ => colRegs_ev) (fun _ _ g h => h.trans g)
    (fun _ _ _ h => h.irq _ evRegs_irq) hs h

/-- An event of a source leaves SOOT_IRQ of the collector's own page. -/
theorem srcEvent_irq31 {s : State} {src : Nat} (hs : src < 256) (h : s.rdb (Reg.pgIrqStat .flt) 31 = true) :
    (s.srcEvent src).rdb (Reg.pgIrqStat .flt) 31 = true :=
  Leaves.srcEvent' (R := colRegs) (P := fun s => s.rdb (Reg.pgIrqStat .flt) 31 = true) (fun _ h => h)
    (fun s t g h => by
      rw [State.rdb, g.rd _ (by simp only [colRegs]; decide)]
      exact h)
    (fun s k hk h => by
      unfold State.irq
      split
      · rw [State.rdb, State.rd_wrb_same, bit_setBit_other _ _ (by omega) (by omega)]
        exact h
      · exact h) hs h

theorem Leaves.pinUpdate {s t : State} (h : Leaves evRegs s t) {src : Nat} (hs : src < 256) :
    Leaves evRegs s (t.pinUpdate src) := by
  unfold State.pinUpdate
  exact Leaves.ite h ((h.setSrc _ _).showSrc (fun _ => colRegs_ev) hs)

/-- Every soot bit maps to a source below 256. -/
theorem sootMap_lt (laser : Bool) (p : Page) : ∀ e ∈ sootMap laser p, e.2.1 < 256 := by
  cases p with
  | ch n k =>
    intro e he
    obtain ⟨k, hk⟩ := k
    have hn := n.isLt
    match k, hk with
    | 0, _ => simp [sootMap] at he
    | 1, _ => simp only [sootMap, List.mem_map] at he; obtain ⟨_, _, rfl⟩ := he; simp only; omega
    | 2, _ => simp [sootMap] at he; subst he; simp only; omega
    | 3, _ =>
      cases laser
      · simp [sootMap] at he; rcases he with h | h | h | h | h | h | h <;> subst h <;> simp only <;> omega
      · simp [sootMap] at he; rcases he with h | h | h | h | h | h | h | h | h <;> subst h <;> simp only <;> omega
    | 4, _ =>
      cases laser
      · simp [sootMap] at he; subst he; simp only; omega
      · simp [sootMap] at he; rcases he with h | h <;> subst h <;> simp only <;> omega
    | 5, _ => simp [sootMap] at he; rcases he with h | h | h | h | h <;> subst h <;> simp only <;> omega
    | 6, _ => simp [sootMap] at he; rcases he with h | h | h <;> subst h <;> simp only <;> omega
    | 7, _ => simp [sootMap] at he; rcases he with h | h | h | h <;> subst h <;> simp only <;> omega
  | stp q => intro e he; simp only [sootMap, List.mem_map] at he; obtain ⟨_, _, rfl⟩ := he; simp only; omega
  | bldc k => intro e he; simp only [sootMap, List.mem_map] at he; obtain ⟨_, _, rfl⟩ := he; simp only; omega
  | mb u => intro e he; simp only [sootMap, List.mem_map] at he; obtain ⟨_, _, rfl⟩ := he; simp only; omega
  | _ => simp only [sootMap]; decide

theorem sootOf_lt {laser : Bool} {p : Page} {b src cls : Nat} (h : sootOf laser p b = some (src, cls)) : src < 256 := by
  unfold sootOf at h
  rw [Option.map_eq_some_iff] at h
  obtain ⟨e, he, h⟩ := h
  have := sootMap_lt laser p e (List.mem_of_find?_eq_some he)
  rw [h] at this
  exact this

theorem sootRegs_own (p : Page) {o : Nat} (h : o = 0x18 ∨ o = 0x20 ∨ o = 0x28 ∨ o = 0x34 ∨ o = 0x38) :
    sootRegs p (pageBase p + o) := by
  right
  simp only [pageBase]
  omega

/-- What the marks of a soot bit can change. -/
theorem Leaves.sootMark {s t : State} {p : Page} (h : Leaves (sootRegs p) s t) (b : Nat) :
    Leaves (sootRegs p) s (t.sootMark p b) := by
  unfold State.sootMark
  exact (((h.wrb _ _ (sootRegs_own p (.inl rfl))).wr64 _ (sootRegs_own p (.inr (.inr (.inr (.inl rfl)))))
    (sootRegs_own p (.inr (.inr (.inr (.inr rfl)))))).wrb _ _ (sootRegs_own p (.inr (.inl rfl)))).cnt _ _
    (sootRegs_own p (.inr (.inr (.inl rfl))))

/-- A soot bit beside its marks: at most the event of a source. -/
theorem soot_event {s : State} {p : Page} (b : Nat) (h : s.powered p = true) :
    s.soot p b = s.sootMark p b ∨ ∃ src, src < 256 ∧ (s.sootMark p b).rdb (Reg.pgSootMask p) b = true ∧
      s.soot p b = (s.sootMark p b).srcEvent src := by
  unfold State.soot
  rw [h, if_neg (by decide)]
  dsimp only
  split
  · exact .inl rfl
  · next src cls he =>
    by_cases hm : (s.sootMark p b).rdb (Reg.pgSootMask p) b = true
    · rw [if_pos hm]
      exact .inr ⟨src, sootOf_lt he, hm, rfl⟩
    · rw [if_neg hm]
      exact .inl rfl

/-- What a soot bit can change. -/
theorem Leaves.soot {s t : State} {p : Page} (h : Leaves (sootRegs p) s t) (b : Nat) :
    Leaves (sootRegs p) s (t.soot p b) := by
  cases hp : t.powered p
  · simpa [State.soot, hp] using h
  · obtain e | ⟨src, hs, _, e⟩ := soot_event b hp <;> rw [e]
    · exact h.sootMark b
    · exact (h.sootMark b).trans (((Leaves.refl _).srcEvent hs).mono fun _ => .inl)

/-! ### The header after the marks of a soot bit -/

theorem sootMark_flt (s : State) (p : Page) (b : Nat) : (s.sootMark p b).flt = s.flt := by
  unfold State.sootMark State.cnt State.cntN
  split <;> simp

theorem cnt_rd_other (s : State) {a c : Nat} (i j : Nat) (h : c ≠ a) : (s.cnt a i j).rd c = s.rd c := by
  unfold State.cnt State.cntN
  split
  · rfl
  · exact State.rd_wrf_other _ _ _ _ h

/-- The registers of the header a mark of a soot bit leaves. -/
theorem sootMark_rd_other (s : State) {p : Page} {b c : Nat} (h1 : c ≠ Reg.pgSoot p) (h2 : c ≠ Reg.pgStampLo p)
    (h3 : c ≠ Reg.pgStampHi p) (h4 : c ≠ Reg.pgIrqStat p) (h5 : c ≠ Reg.pgErrcnt p) : (s.sootMark p b).rd c = s.rd c := by
  unfold State.sootMark
  rw [cnt_rd_other _ _ _ h5, State.rd_wrb_other _ _ _ h4, State.rd_wr64_other _ _ h2 h3, State.rd_wrb_other _ _ _ h1]

theorem sootMark_soot (s : State) (p : Page) (b : Nat) : (s.sootMark p b).rd (Reg.pgSoot p) = setBit (s.rd (Reg.pgSoot p)) b true := by
  simp only [State.sootMark, Reg.pgErrcnt, Reg.pgSoot, Reg.pgStampLo, Reg.pgStampHi, Reg.pgIrqStat]
  rw [cnt_rd_other _ _ _ (by omega), State.rd_wrb_other _ _ _ (by omega),
    State.rd_wr64_other _ _ (by omega) (by omega), State.rd_wrb_same]

theorem sootMark_stamp (s : State) (p : Page) (b : Nat) : (s.sootMark p b).rd (Reg.pgStampLo p) = loW s.now := by
  simp only [State.sootMark, Reg.pgErrcnt, Reg.pgSoot, Reg.pgStampLo, Reg.pgStampHi, Reg.pgIrqStat]
  rw [cnt_rd_other _ _ _ (by omega), State.rd_wrb_other _ _ _ (by omega),
    (State.rd_wr64 _ (by omega)).1]

theorem sootMark_irq (s : State) (p : Page) (b : Nat) : (s.sootMark p b).rdb (Reg.pgIrqStat p) 31 = true := by
  simp only [State.sootMark, Reg.pgErrcnt, Reg.pgSoot, Reg.pgStampLo, Reg.pgStampHi, Reg.pgIrqStat]
  rw [State.rdb, cnt_rd_other _ _ _ (by omega), State.rd_wrb_same, bit_setBit_same _ _ (by decide)]

theorem pagePfn_lt (p : Page) : pagePfn p < 0x41000 := by
  cases p <;> simp only [pagePfn] <;> omega

theorem satN_eq (h x : Nat) : satN h x = min h x := by
  unfold satN
  split <;> omega

/-- FREEZE_STATS of a page, asked of a register of its header. -/
theorem frozen_hdr (s : State) (p : Page) {o : Nat} (h : o < 4096) : s.frozen (pageBase p + o) = s.rdb (Reg.pgCtrl p) 2 := by
  have e : (pageBase p + o) % laserKey / 4096 * 4096 + 0x10 = Reg.pgCtrl p := by
    have := pagePfn_lt p
    simp only [Reg.pgCtrl, pageBase, laserKey]
    omega
  rw [State.frozen, e]

/-- A 16-bit statistic of a page that is not frozen goes up by one, to the top at most. -/
theorem cnt_rdf {s : State} {a hi lo : Nat} (h : lo ≤ hi) (h32 : hi < 32) (hf : s.frozen a = false) :
    (s.cnt a hi lo).rdf a hi lo = min (2 ^ (hi + 1 - lo) - 1) (s.rdf a hi lo + 1) := by
  unfold State.cnt State.cntN
  rw [hf, if_neg (by decide), State.rdf_wrf_same _ h h32, satN_eq]
  have := Nat.two_pow_pos (hi + 1 - lo)
  rw [Nat.mod_eq_of_lt (by omega)]

theorem sootMark_errcnt (s : State) (p : Page) (b : Nat) (hf : s.rdb (Reg.pgCtrl p) 2 = false) :
    (s.sootMark p b).rdf (Reg.pgErrcnt p) 15 0 = min 0xFFFF (s.rdf (Reg.pgErrcnt p) 15 0 + 1) := by
  unfold State.sootMark
  have hr : ∀ o, o = 0x10 ∨ o = 0x28 → (((s.wrb (Reg.pgSoot p) b true).wr64 (Reg.pgStampLo p) (Reg.pgStampHi p) s.now).wrb
      (Reg.pgIrqStat p) 31 true).rd (pageBase p + o) = s.rd (pageBase p + o) := by
    intro o ho
    simp only [Reg.pgSoot, Reg.pgStampLo, Reg.pgStampHi, Reg.pgIrqStat]
    rw [State.rd_wrb_other _ _ _ (by omega), State.rd_wr64_other _ _ (by omega) (by omega), State.rd_wrb_other _ _ _ (by omega)]
  rw [cnt_rdf (by decide) (by decide), State.rdf, Reg.pgErrcnt, hr _ (.inr rfl)]
  · rfl
  · rw [Reg.pgErrcnt, frozen_hdr _ _ (by decide), State.rdb, Reg.pgCtrl, hr _ (.inl rfl)]
    exact hf

/-- What reading a page's error pins again can change. -/
theorem Leaves.pinsOf {s t : State} (h : Leaves evRegs s t) (p : Page) : Leaves evRegs s (t.pinsOf p) := by
  unfold State.pinsOf
  extract_lets laser
  refine h.forL _ _ fun x hx u => (Leaves.refl u).pinUpdate ?_
  rw [List.mem_eraseDups, List.mem_map] at hx
  obtain ⟨e, he, rfl⟩ := hx
  exact sootMap_lt _ _ e he

end Sys2Proof.Machine
end

