-- ==== Sys2Proof/Laws/Keeps.lean ====
section
/-! SUPPORT. What every operation of the block keeps: the relation and its lemmas for the primitive operations. -/
namespace Sys2Proof.Machine

/-- What every operation does to the parts of the state that all units share: the queue and the boot flash are left
alone, free values are only consumed, and the registers and the memory keep their canonical form. -/
structure Keeps (s t : State) : Prop where
  pending : t.pending = s.pending
  flash : t.flash = s.flash
  free : s.free ≤ t.free
  regs : tabWf resetOf s.regs = true → tabWf resetOf t.regs = true
  mem : Memory.wf memBlank s.mem = true → Memory.wf memBlank t.mem = true

/-- Every next state of an outcome is kept to. -/
structure KeepsO (s : State) (o : Out) : Prop where
  next : ∀ t, o = .next t → Keeps s t

/-- An outcome, where there is one, is kept to. -/
structure KeepsP (s : State) (p : Option Out) : Prop where
  of : ∀ o, p = some o → KeepsO s o

/-- A state, where there is one, is kept to. -/
structure KeepsR (s : State) (p : Option State) : Prop where
  of : ∀ t, p = some t → Keeps s t

theorem Keeps.refl (s : State) : Keeps s s := ⟨rfl, rfl, Nat.le_refl _, id, id⟩

theorem Keeps.trans {a b c : State} (h : Keeps a b) (g : Keeps b c) : Keeps a c :=
  ⟨g.1.trans h.1, g.2.trans h.2, Nat.le_trans h.3 g.3, g.4 ∘ h.4, g.5 ∘ h.5⟩

/-- An operation that keeps to its own start keeps to an earlier one. -/
theorem Keeps.wf {s t : State} (h : Keeps s t) (hs : s.wf = true) : t.wf = true := by
  simp only [State.wf, Bool.and_eq_true] at hs ⊢
  exact ⟨⟨h.regs hs.1.1, h.mem hs.1.2⟩, h.flash ▸ hs.2⟩

/-- A record update of the other fields. -/
theorem Keeps.upd {z s : State} (h : Keeps z s)
    {lin jobs dmk thermal laser loops drives link ddr srm dma tim net sec fgd flt clk thm pwr bkg pins plic testMode resp} :
    Keeps z ⟨s.regs, s.mem, s.flash, lin, jobs, dmk, thermal, laser, loops, drives, link, ddr, srm, dma, tim, net, sec, fgd,
      flt, clk, thm, pwr, bkg, pins, plic, testMode, resp, s.free, s.pending⟩ :=
  ⟨h.1, h.2, h.3, h.4, h.5⟩

/-- The memory of another kept state put back. -/
theorem Keeps.withMem {z s u : State} (h : Keeps z s) (hu : Keeps z u) : Keeps z { s with mem := u.mem } :=
  ⟨h.1, h.2, h.3, h.4, hu.5⟩

theorem ite_keeps {c : Prop} [Decidable c] {z a b : State} (ha : Keeps z a) (hb : Keeps z b) :
    Keeps z (if c then a else b) := by
  split <;> assumption

theorem ite_keepsO {c : Prop} [Decidable c] {z : State} {a b : Out} (ha : KeepsO z a) (hb : KeepsO z b) :
    KeepsO z (if c then a else b) := by
  split <;> assumption

theorem next_keepsO {z s : State} (h : Keeps z s) : KeepsO z (.next s) := by
  constructor
  rintro t ⟨⟩
  exact h

theorem refused_keepsO {z : State} {r : Refusal} : KeepsO z (.refused r) := by
  constructor
  rintro t ⟨⟩

theorem fault_keepsO {z : State} {r : Fault} : KeepsO z (.fault r) := nomatch r

theorem none_keepsP {z : State} : KeepsP z none :=
  ⟨fun _ h => absurd h (Option.some_ne_none _).symm⟩

theorem some_keepsP {z : State} {o : Out} (h : KeepsO z o) : KeepsP z (some o) :=
  ⟨fun _ e => Option.some.inj e ▸ h⟩

theorem ite_keepsP {c : Prop} [Decidable c] {z : State} {a b : Option Out} (ha : KeepsP z a) (hb : KeepsP z b) :
    KeepsP z (if c then a else b) := by
  split <;> assumption

theorem none_keepsR {z : State} : KeepsR z none :=
  ⟨fun _ h => absurd h (Option.some_ne_none _).symm⟩

theorem some_keepsR {z s : State} (h : Keeps z s) : KeepsR z (some s) :=
  ⟨fun _ e => Option.some.inj e ▸ h⟩

theorem ite_keepsR {c : Prop} [Decidable c] {z : State} {a b : Option State} (ha : KeepsR z a) (hb : KeepsR z b) :
    KeepsR z (if c then a else b) := by
  split <;> assumption

theorem KeepsP.of_some {z : State} {p : Option Out} {o : Out} (h : KeepsP z p) (e : p = some o) : KeepsO z o :=
  h.of o e

theorem KeepsO.of_next {z t : State} {o : Out} (h : KeepsO z o) (e : o = .next t) : Keeps z t :=
  h.next t e

theorem Keeps.of_fst {α : Type} {z t : State} {p : State × α} {b : α} (e : p = (t, b)) (h : Keeps z p.1) :
    Keeps z t := by
  subst e
  exact h

theorem Keeps.of_snd {α : Type} {z t : State} {p : α × State} {b : α} (e : p = (b, t)) (h : Keeps z p.2) :
    Keeps z t := by
  subst e
  exact h

theorem ite_keeps_fst {α : Type} {c : Prop} [Decidable c] {z : State} {a b : State × α} (ha : Keeps z a.1)
    (hb : Keeps z b.1) : Keeps z (if c then a else b).1 := by
  split <;> assumption

theorem ite_keeps_snd {α : Type} {c : Prop} [Decidable c] {z : State} {a b : α × State} (ha : Keeps z a.2)
    (hb : Keeps z b.2) : Keeps z (if c then a else b).2 := by
  split <;> assumption

theorem forN_keeps {z : State} {n : Nat} {f : Nat → State → State} {s : State}
    (hf : ∀ k s, Keeps z s → Keeps z (f k s)) (h : Keeps z s) : Keeps z (forN n f s) := by
  induction n with
  | zero => exact h
  | succ n ih => exact hf _ _ ih

theorem forL_keeps {α : Type} {z : State} {l : List α} {f : α → State → State} {s : State}
    (hf : ∀ a s, Keeps z s → Keeps z (f a s)) (h : Keeps z s) : Keeps z (forL l f s) := by
  induction l generalizing s with
  | nil => exact h
  | cons a t ih => exact ih (hf _ _ h)

theorem forL_keeps_fst {α β : Type} {z : State} {l : List α} {f : α → State × β → State × β} {p : State × β}
    (hf : ∀ a p, Keeps z p.1 → Keeps z (f a p).1) (h : Keeps z p.1) : Keeps z (forL l f p).1 := by
  induction l generalizing p with
  | nil => exact h
  | cons a t ih => exact ih (hf _ _ h)

theorem foldl_keeps {α : Type} {z : State} {l : List α} {f : State → α → State} {s : State}
    (hf : ∀ a s, Keeps z s → Keeps z (f s a)) (h : Keeps z s) : Keeps z (l.foldl f s) := by
  induction l generalizing s with
  | nil => exact h
  | cons a t ih => exact ih (hf _ _ h)

theorem foldl_keeps_fst {α β : Type} {z : State} {l : List α} {f : State × β → α → State × β} {p : State × β}
    (hf : ∀ a p, Keeps z p.1 → Keeps z (f p a).1) (h : Keeps z p.1) : Keeps z (l.foldl f p).1 := by
  induction l generalizing p with
  | nil => exact h
  | cons a t ih => exact ih (hf _ _ h)

/-! ### The primitive operations -/

theorem State.wr_keeps {z s : State} {a v} (h : Keeps z s) : Keeps z (s.wr a v) :=
  ⟨h.1, h.2, h.3, fun g => tabWf_put resetOf _ _ _ (h.4 g), h.5⟩

theorem State.resetRegs_keeps {z s : State} {p} (h : Keeps z s) : Keeps z (s.resetRegs p) :=
  ⟨h.1, h.2, h.3, fun g => tabWf_filter _ _ _ (h.4 g), h.5⟩

theorem State.wrByte_keeps {z s : State} {a b} (h : Keeps z s) : Keeps z (s.wrByte a b) :=
  ⟨h.1, h.2, h.3, h.4, fun g => Memory.wf_put _ _ _ _ (h.5 g)⟩

theorem State.wrMem_keeps {z s : State} {a l} (h : Keeps z s) : Keeps z (s.wrMem a l) := by
  induction l generalizing s a with
  | nil => exact h
  | cons b t ih => exact ih (State.wrByte_keeps h)

theorem State.eraseMem_keeps {z s : State} {a n} (h : Keeps z s) : Keeps z (s.eraseMem a n) :=
  ⟨h.1, h.2, h.3, h.4, fun g => Memory.wf_filter _ _ _ (h.5 g)⟩

theorem State.drawWord_keeps {z s : State} (h : Keeps z s) : Keeps z s.drawWord.2 :=
  ⟨h.1, h.2, Nat.le_succ_of_le h.3, h.4, h.5⟩

theorem State.drawNat_keeps {z s : State} (h : Keeps z s) : Keeps z s.drawNat.2 :=
  ⟨h.1, h.2, Nat.le_succ_of_le h.3, h.4, h.5⟩

theorem State.drawBool_keeps {z s : State} (h : Keeps z s) : Keeps z s.drawBool.2 :=
  ⟨h.1, h.2, Nat.le_succ_of_le h.3, h.4, h.5⟩

theorem State.drawBytes_keeps {z s : State} {n} (h : Keeps z s) : Keeps z (s.drawBytes n).2 :=
  ⟨h.1, h.2, Nat.le_trans h.3 (Nat.le_add_right ..), h.4, h.5⟩

end Sys2Proof.Machine
end

