-- ==== Sys2Proof/Laws/KeepsOps.lean ====
section
/-! SUPPORT. What every operation of Machine/Ops.lean keeps (Laws/Keeps.lean). -/
-- one script for every shape of goal: what a goal does not need is not reported
set_option linter.all false
namespace Sys2Proof.Machine

theorem State.setTherm_keeps {z : State} {s : State} {k} {v} (hz : Keeps z s) :
    Keeps z (State.setTherm s k v) := by
  unfold State.setTherm
  with_reducible repeat' first
    | assumption | apply ite_keeps | (refine Keeps.upd ?_; first | assumption)

theorem State.updTherm_keeps {z : State} {s : State} {k} {f} (hz : Keeps z s) :
    Keeps z (State.updTherm s k f) := by
  unfold State.updTherm
  with_reducible repeat' first
    | assumption | apply State.setTherm_keeps

theorem State.wrb_keeps {z : State} {s : State} {a} {i} {b} (hz : Keeps z s) :
    Keeps z (State.wrb s a i b) := by
  unfold State.wrb
  with_reducible repeat' first
    | assumption | apply State.wr_keeps

theorem State.setLas_keeps {z : State} {s : State} {k} {v} (hz : Keeps z s) :
    Keeps z (State.setLas s k v) := by
  unfold State.setLas
  with_reducible repeat' first
    | assumption | apply ite_keeps | (refine Keeps.upd ?_; first | assumption)

theorem State.updLas_keeps {z : State} {s : State} {k} {f} (hz : Keeps z s) :
    Keeps z (State.updLas s k f) := by
  unfold State.updLas
  with_reducible repeat' first
    | assumption | apply State.setLas_keeps

theorem State.wrf_keeps {z : State} {s : State} {a} {hi} {lo} {v} (hz : Keeps z s) :
    Keeps z (State.wrf s a hi lo v) := by
  unfold State.wrf
  with_reducible repeat' first
    | assumption | apply State.wr_keeps

theorem State.cntN_keeps {z : State} {s : State} {a} {hi} {lo} {n} (hz : Keeps z s) :
    Keeps z (State.cntN s a hi lo n) := by
  unfold State.cntN
  with_reducible repeat' first
    | assumption | apply ite_keeps | apply State.wrf_keeps
    | (refine Keeps.upd ?_; first | assumption | apply State.wrf_keeps)

theorem State.setStat_keeps {z : State} {s : State} {p} {v} (hz : Keeps z s) :
    Keeps z (State.setStat s p v) := by
  unfold State.setStat
  with_reducible repeat' first
    | assumption | apply State.wrf_keeps

theorem State.peak_keeps {z : State} {s : State} {a} {hi} {lo} {n} (hz : Keeps z s) :
    Keeps z (State.peak s a hi lo n) := by
  unfold State.peak
  with_reducible repeat' first
    | assumption | apply ite_keeps | apply State.wrf_keeps
    | (refine Keeps.upd ?_; first | assumption | apply State.wrf_keeps)

theorem State.setStn_keeps {z : State} {s : State} {k} {v} (hz : Keeps z s) :
    Keeps z (State.setStn s k v) := by
  unfold State.setStn
  with_reducible repeat' first
    | assumption | apply ite_keeps | (refine Keeps.upd ?_; first | assumption)

theorem State.updStn_keeps {z : State} {s : State} {k} {f} (hz : Keeps z s) :
    Keeps z (State.updStn s k f) := by
  unfold State.updStn
  with_reducible repeat' first
    | assumption | apply State.setStn_keeps

theorem State.setStnJob_keeps {z : State} {s : State} {k} {j} {v} (hz : Keeps z s) :
    Keeps z (State.setStnJob s k j v) := by
  unfold State.setStnJob
  with_reducible repeat' first
    | assumption | apply State.updStn_keeps

theorem State.cntW_keeps {z : State} {s : State} {a} (hz : Keeps z s) :
    Keeps z (State.cntW s a) := by
  unfold State.cntW
  with_reducible repeat' first
    | assumption | apply ite_keeps | apply State.wr_keeps
    | (refine Keeps.upd ?_; first | assumption | apply State.wr_keeps)

theorem State.setQueue_keeps {z : State} {s : State} {q} {v} (hz : Keeps z s) :
    Keeps z (State.setQueue s q v) := by
  unfold State.setQueue
  with_reducible repeat' first
    | assumption | apply ite_keeps | (refine Keeps.upd ?_; first | assumption)

theorem State.updQueue_keeps {z : State} {s : State} {q} {f} (hz : Keeps z s) :
    Keeps z (State.updQueue s q f) := by
  unfold State.updQueue
  with_reducible repeat' first
    | assumption | apply State.setQueue_keeps

theorem State.setChan_keeps {z : State} {s : State} {k} {v} (hz : Keeps z s) :
    Keeps z (State.setChan s k v) := by
  unfold State.setChan
  with_reducible repeat' first
    | assumption | apply ite_keeps | (refine Keeps.upd ?_; first | assumption)

theorem State.updChan_keeps {z : State} {s : State} {k} {f} (hz : Keeps z s) :
    Keeps z (State.updChan s k f) := by
  unfold State.updChan
  with_reducible repeat' first
    | assumption | apply State.setChan_keeps

theorem State.setJob_keeps {z : State} {s : State} {n} {j} {v} (hz : Keeps z s) :
    Keeps z (State.setJob s n j v) := by
  unfold State.setJob
  with_reducible repeat' first
    | assumption | apply State.updChan_keeps

theorem State.setRing_keeps {z : State} {s : State} {k} {v} (hz : Keeps z s) :
    Keeps z (State.setRing s k v) := by
  unfold State.setRing
  with_reducible repeat' first
    | assumption | apply ite_keeps | (refine Keeps.upd ?_; first | assumption)

theorem State.updRing_keeps {z : State} {s : State} {k} {f} (hz : Keeps z s) :
    Keeps z (State.updRing s k f) := by
  unfold State.updRing
  with_reducible repeat' first
    | assumption | apply State.setRing_keeps

theorem State.cnt_keeps {z : State} {s : State} {a} {hi} {lo} (hz : Keeps z s) :
    Keeps z (State.cnt s a hi lo) := by
  unfold State.cnt
  with_reducible repeat' first
    | assumption | apply State.cntN_keeps

theorem State.setTrk_keeps {z : State} {s : State} {k} {v} (hz : Keeps z s) :
    Keeps z (State.setTrk s k v) := by
  unfold State.setTrk
  with_reducible repeat' first
    | assumption | apply ite_keeps | (refine Keeps.upd ?_; first | assumption)

theorem State.updJob_keeps {z : State} {s : State} {n} {j} {f} (hz : Keeps z s) :
    Keeps z (State.updJob s n j f) := by
  unfold State.updJob
  with_reducible repeat' first
    | assumption | apply State.setJob_keeps

theorem State.setSeq_keeps {z : State} {s : State} {k} {v} (hz : Keeps z s) :
    Keeps z (State.setSeq s k v) := by
  unfold State.setSeq
  with_reducible repeat' first
    | assumption | apply ite_keeps | (refine Keeps.upd ?_; first | assumption)

theorem State.updSeq_keeps {z : State} {s : State} {k} {f} (hz : Keeps z s) :
    Keeps z (State.updSeq s k f) := by
  unfold State.updSeq
  with_reducible repeat' first
    | assumption | apply State.setSeq_keeps

theorem State.setSrc_keeps {z : State} {s : State} {k} {v} (hz : Keeps z s) :
    Keeps z (State.setSrc s k v) := by
  unfold State.setSrc
  with_reducible repeat' first
    | assumption | apply ite_keeps | (refine Keeps.upd ?_; first | assumption)

theorem State.wr64_keeps {z : State} {s : State} {lo} {hi} {n} (hz : Keeps z s) :
    Keeps z (State.wr64 s lo hi n) := by
  unfold State.wr64
  with_reducible repeat' first
    | assumption | apply State.wr_keeps

theorem State.setBldc_keeps {z : State} {s : State} {k} {v} (hz : Keeps z s) :
    Keeps z (State.setBldc s k v) := by
  unfold State.setBldc
  with_reducible repeat' first
    | assumption | apply ite_keeps | (refine Keeps.upd ?_; first | assumption)

theorem State.updBldc_keeps {z : State} {s : State} {k} {f} (hz : Keeps z s) :
    Keeps z (State.updBldc s k f) := by
  unfold State.updBldc
  with_reducible repeat' first
    | assumption | apply State.setBldc_keeps

theorem State.setLoop_keeps {z : State} {s : State} {k} {v} (hz : Keeps z s) :
    Keeps z (State.setLoop s k v) := by
  unfold State.setLoop
  with_reducible repeat' first
    | assumption | apply ite_keeps | (refine Keeps.upd ?_; first | assumption)

theorem State.updLoop_keeps {z : State} {s : State} {k} {f} (hz : Keeps z s) :
    Keeps z (State.updLoop s k f) := by
  unfold State.updLoop
  with_reducible repeat' first
    | assumption | apply State.setLoop_keeps

theorem State.setStep__keeps {z : State} {s : State} {k} {v} (hz : Keeps z s) :
    Keeps z (State.setStep_ s k v) := by
  unfold State.setStep_
  with_reducible repeat' first
    | assumption | apply ite_keeps | (refine Keeps.upd ?_; first | assumption)

theorem State.updStep__keeps {z : State} {s : State} {k} {f} (hz : Keeps z s) :
    Keeps z (State.updStep_ s k f) := by
  unfold State.updStep_
  with_reducible repeat' first
    | assumption | apply State.setStep__keeps

theorem State.wrs_keeps {z : State} {s : State} {a} {hi} {lo} {v} (hz : Keeps z s) :
    Keeps z (State.wrs s a hi lo v) := by
  unfold State.wrs
  with_reducible repeat' first
    | assumption | apply State.wrf_keeps

theorem State.setSerial_keeps {z : State} {s : State} {k} {v} (hz : Keeps z s) :
    Keeps z (State.setSerial s k v) := by
  unfold State.setSerial
  with_reducible repeat' first
    | assumption | apply ite_keeps | (refine Keeps.upd ?_; first | assumption)

theorem State.updSerial_keeps {z : State} {s : State} {k} {f} (hz : Keeps z s) :
    Keeps z (State.updSerial s k f) := by
  unfold State.updSerial
  with_reducible repeat' first
    | assumption | apply State.setSerial_keeps

theorem State.setChain_keeps {z : State} {s : State} {k} {v} (hz : Keeps z s) :
    Keeps z (State.setChain s k v) := by
  unfold State.setChain
  with_reducible repeat' first
    | assumption | apply ite_keeps | (refine Keeps.upd ?_; first | assumption)

theorem State.updChain_keeps {z : State} {s : State} {k} {f} (hz : Keeps z s) :
    Keeps z (State.updChain s k f) := by
  unfold State.updChain
  with_reducible repeat' first
    | assumption | apply State.setChain_keeps

theorem State.updSrc_keeps {z : State} {s : State} {k} {f} (hz : Keeps z s) :
    Keeps z (State.updSrc s k f) := by
  unfold State.updSrc
  with_reducible repeat' first
    | assumption | apply State.setSrc_keeps

theorem State.setTag_keeps {z : State} {s : State} {k} {v} (hz : Keeps z s) :
    Keeps z (State.setTag s k v) := by
  unfold State.setTag
  with_reducible repeat' first
    | assumption | apply ite_keeps | (refine Keeps.upd ?_; first | assumption)

theorem State.setLane_keeps {z : State} {s : State} {k} {v} (hz : Keeps z s) :
    Keeps z (State.setLane s k v) := by
  unfold State.setLane
  with_reducible repeat' first
    | assumption | apply ite_keeps | (refine Keeps.upd ?_; first | assumption)

theorem State.setMbus_keeps {z : State} {s : State} {k} {v} (hz : Keeps z s) :
    Keeps z (State.setMbus s k v) := by
  unfold State.setMbus
  with_reducible repeat' first
    | assumption | apply ite_keeps | (refine Keeps.upd ?_; first | assumption)

theorem State.updMbus_keeps {z : State} {s : State} {k} {f} (hz : Keeps z s) :
    Keeps z (State.updMbus s k f) := by
  unfold State.updMbus
  with_reducible repeat' first
    | assumption | apply State.setMbus_keeps

theorem State.setRej_keeps {z : State} {s : State} {k} {v} (hz : Keeps z s) :
    Keeps z (State.setRej s k v) := by
  unfold State.setRej
  with_reducible repeat' first
    | assumption | apply ite_keeps | (refine Keeps.upd ?_; first | assumption)

theorem State.updRej_keeps {z : State} {s : State} {k} {f} (hz : Keeps z s) :
    Keeps z (State.updRej s k f) := by
  unfold State.updRej
  with_reducible repeat' first
    | assumption | apply State.setRej_keeps

theorem State.updTag_keeps {z : State} {s : State} {k} {f} (hz : Keeps z s) :
    Keeps z (State.updTag s k f) := by
  unfold State.updTag
  with_reducible repeat' first
    | assumption | apply State.setTag_keeps

theorem State.setEngine_keeps {z : State} {s : State} {k} {v} (hz : Keeps z s) :
    Keeps z (State.setEngine s k v) := by
  unfold State.setEngine
  with_reducible repeat' first
    | assumption | apply ite_keeps | (refine Keeps.upd ?_; first | assumption)

theorem State.updEngine_keeps {z : State} {s : State} {k} {f} (hz : Keeps z s) :
    Keeps z (State.updEngine s k f) := by
  unfold State.updEngine
  with_reducible repeat' first
    | assumption | apply State.setEngine_keeps

theorem State.setCounter_keeps {z : State} {s : State} {k} {v} (hz : Keeps z s) :
    Keeps z (State.setCounter s k v) := by
  unfold State.setCounter
  with_reducible repeat' first
    | assumption | apply ite_keeps | (refine Keeps.upd ?_; first | assumption)

theorem State.setLnk_keeps {z : State} {s : State} {k} {v} (hz : Keeps z s) :
    Keeps z (State.setLnk s k v) := by
  unfold State.setLnk
  with_reducible repeat' first
    | assumption | apply ite_keeps | (refine Keeps.upd ?_; first | assumption)

theorem State.updLnk_keeps {z : State} {s : State} {k} {f} (hz : Keeps z s) :
    Keeps z (State.updLnk s k f) := by
  unfold State.updLnk
  with_reducible repeat' first
    | assumption | apply State.setLnk_keeps

theorem State.setDch_keeps {z : State} {s : State} {k} {v} (hz : Keeps z s) :
    Keeps z (State.setDch s k v) := by
  unfold State.setDch
  with_reducible repeat' first
    | assumption | apply ite_keeps | (refine Keeps.upd ?_; first | assumption)

theorem State.updDch_keeps {z : State} {s : State} {k} {f} (hz : Keeps z s) :
    Keeps z (State.updDch s k f) := by
  unfold State.updDch
  with_reducible repeat' first
    | assumption | apply State.setDch_keeps

theorem State.respond_keeps {z : State} {s : State} {err} {d} (hz : Keeps z s) :
    Keeps z (State.respond s err d) := by
  unfold State.respond
  with_reducible repeat' first
    | assumption | apply ite_keeps | (refine Keeps.upd ?_; first | assumption)

theorem State.setEnc_keeps {z : State} {s : State} {k} {v} (hz : Keeps z s) :
    Keeps z (State.setEnc s k v) := by
  unfold State.setEnc
  with_reducible repeat' first
    | assumption | apply ite_keeps | (refine Keeps.upd ?_; first | assumption)

theorem State.updEnc_keeps {z : State} {s : State} {k} {f} (hz : Keeps z s) :
    Keeps z (State.updEnc s k f) := by
  unfold State.updEnc
  with_reducible repeat' first
    | assumption | apply State.setEnc_keeps

theorem State.setDie_keeps {z : State} {s : State} {k} {v} (hz : Keeps z s) :
    Keeps z (State.setDie s k v) := by
  unfold State.setDie
  with_reducible repeat' first
    | assumption | apply ite_keeps | (refine Keeps.upd ?_; first | assumption)

theorem State.setPd_keeps {z : State} {s : State} {k} {v} (hz : Keeps z s) :
    Keeps z (State.setPd s k v) := by
  unfold State.setPd
  with_reducible repeat' first
    | assumption | apply ite_keeps | (refine Keeps.upd ?_; first | assumption)

theorem State.updPd_keeps {z : State} {s : State} {k} {f} (hz : Keeps z s) :
    Keeps z (State.updPd s k f) := by
  unfold State.updPd
  with_reducible repeat' first
    | assumption | apply State.setPd_keeps

theorem State.setVenc_keeps {z : State} {s : State} {k} {v} (hz : Keeps z s) :
    Keeps z (State.setVenc s k v) := by
  unfold State.setVenc
  with_reducible repeat' first
    | assumption | apply ite_keeps | (refine Keeps.upd ?_; first | assumption)

theorem State.updVenc_keeps {z : State} {s : State} {k} {f} (hz : Keeps z s) :
    Keeps z (State.updVenc s k f) := by
  unfold State.updVenc
  with_reducible repeat' first
    | assumption | apply State.setVenc_keeps

theorem State.setConv_keeps {z : State} {s : State} {k} {v} (hz : Keeps z s) :
    Keeps z (State.setConv s k v) := by
  unfold State.setConv
  with_reducible repeat' first
    | assumption | apply ite_keeps | (refine Keeps.upd ?_; first | assumption)

theorem State.updConv_keeps {z : State} {s : State} {k} {f} (hz : Keeps z s) :
    Keeps z (State.updConv s k f) := by
  unfold State.updConv
  with_reducible repeat' first
    | assumption | apply State.setConv_keeps

theorem State.setIlk_keeps {z : State} {s : State} {k} {v} (hz : Keeps z s) :
    Keeps z (State.setIlk s k v) := by
  unfold State.setIlk
  with_reducible repeat' first
    | assumption | apply ite_keeps | (refine Keeps.upd ?_; first | assumption)

theorem State.setSlot_keeps {z : State} {s : State} {k} {v} (hz : Keeps z s) :
    Keeps z (State.setSlot s k v) := by
  unfold State.setSlot
  with_reducible repeat' first
    | assumption | apply ite_keeps | (refine Keeps.upd ?_; first | assumption)

theorem State.setSyn_keeps {z : State} {s : State} {k} {v} (hz : Keeps z s) :
    Keeps z (State.setSyn s k v) := by
  unfold State.setSyn
  with_reducible repeat' first
    | assumption | apply ite_keeps | (refine Keeps.upd ?_; first | assumption)

theorem State.setTplSlot_keeps {z : State} {s : State} {k} {v} (hz : Keeps z s) :
    Keeps z (State.setTplSlot s k v) := by
  unfold State.setTplSlot
  with_reducible repeat' first
    | assumption | apply ite_keeps | (refine Keeps.upd ?_; first | assumption)

theorem State.updSyn_keeps {z : State} {s : State} {k} {f} (hz : Keeps z s) :
    Keeps z (State.updSyn s k f) := by
  unfold State.updSyn
  with_reducible repeat' first
    | assumption | apply State.setSyn_keeps

theorem State.updTrk_keeps {z : State} {s : State} {k} {f} (hz : Keeps z s) :
    Keeps z (State.updTrk s k f) := by
  unfold State.updTrk
  with_reducible repeat' first
    | assumption | apply State.setTrk_keeps

theorem State.updCounter_keeps {z : State} {s : State} {k} {f} (hz : Keeps z s) :
    Keeps z (State.updCounter s k f) := by
  unfold State.updCounter
  with_reducible repeat' first
    | assumption | apply State.setCounter_keeps

theorem State.updDie_keeps {z : State} {s : State} {k} {f} (hz : Keeps z s) :
    Keeps z (State.updDie s k f) := by
  unfold State.updDie
  with_reducible repeat' first
    | assumption | apply State.setDie_keeps

theorem State.updIlk_keeps {z : State} {s : State} {k} {f} (hz : Keeps z s) :
    Keeps z (State.updIlk s k f) := by
  unfold State.updIlk
  with_reducible repeat' first
    | assumption | apply State.setIlk_keeps

theorem State.updLane_keeps {z : State} {s : State} {k} {f} (hz : Keeps z s) :
    Keeps z (State.updLane s k f) := by
  unfold State.updLane
  with_reducible repeat' first
    | assumption | apply State.setLane_keeps

theorem State.updSlot_keeps {z : State} {s : State} {k} {f} (hz : Keeps z s) :
    Keeps z (State.updSlot s k f) := by
  unfold State.updSlot
  with_reducible repeat' first
    | assumption | apply State.setSlot_keeps

end Sys2Proof.Machine
end

