-- ==== Sys2Proof/Laws/KeepsFlags.lean ====
section
/-! SUPPORT. What every operation of Machine/Flags.lean keeps (Laws/Keeps.lean). -/
-- one script for every shape of goal: what a goal does not need is not reported
set_option linter.all false
namespace Sys2Proof.Machine

theorem State.irq_keeps {z : State} {s : State} {p} {b} (hz : Keeps z s) :
    Keeps z (State.irq s p b) := by
  unfold State.irq
  with_reducible repeat' first
    | assumption | apply ite_keeps | apply State.wrb_keeps
    | (refine Keeps.upd ?_; first | assumption | apply State.wrb_keeps)

theorem State.setFaulted_keeps {z : State} {s : State} {src} (hz : Keeps z s) :
    Keeps z (State.setFaulted s src) := by
  unfold State.setFaulted
  with_reducible repeat' first
    | assumption | apply ite_keeps | apply State.wrb_keeps | apply forL_keeps | apply forL_keeps_fst | intro _ _ _ _
    | intro _ _ _ | intro _ _ | intro _
    | (refine Keeps.upd ?_; first | assumption | apply State.wrb_keeps | apply forL_keeps)

theorem State.showSrc_keeps {z : State} {s : State} {src} (hz : Keeps z s) :
    Keeps z (State.showSrc s src) := by
  unfold State.showSrc
  with_reducible repeat' first
    | assumption | apply State.setFaulted_keeps | apply State.wrf_keeps | apply State.wrb_keeps

theorem State.fltLog_keeps {z : State} {s : State} {src} {kind} (hz : Keeps z s) :
    Keeps z (State.fltLog s src kind) := by
  unfold State.fltLog
  with_reducible repeat' first
    | assumption | apply ite_keeps | apply State.wrf_keeps | apply State.cnt_keeps
    | (refine Keeps.upd ?_; first | assumption | apply State.wrf_keeps | apply State.cnt_keeps)

theorem State.srcEvent_keeps {z : State} {s : State} {src} (hz : Keeps z s) :
    Keeps z (State.srcEvent s src) := by
  unfold State.srcEvent
  with_reducible repeat' first
    | assumption | apply ite_keeps | apply State.showSrc_keeps | apply State.irq_keeps | apply State.setSrc_keeps
    | apply State.fltLog_keeps
    | (refine Keeps.upd ?_; first | assumption | apply State.showSrc_keeps | apply State.irq_keeps | apply State.setSrc_keeps | apply State.fltLog_keeps)

theorem State.sootMark_keeps {z : State} {s : State} {p} {b} (hz : Keeps z s) :
    Keeps z (State.sootMark s p b) := by
  unfold State.sootMark
  with_reducible repeat' first
    | assumption
    | (extract_lets +onlyGivenNames x; refine (fun hx : Keeps z x => ?_) ?_; rotate_left; subst x; rotate_left; try clear_value x)
    | (extract_lets +onlyGivenNames x; refine (fun hx : Keeps z x.1 => ?_) ?_; rotate_left; subst x; rotate_left; try clear_value x)
    | (extract_lets +onlyGivenNames x; refine (fun hx : Keeps z x.2 => ?_) ?_; rotate_left; subst x; rotate_left; try clear_value x)
    | (extract_lets +onlyGivenNames x; refine (fun hf0 : ∀ s, Keeps z s → Keeps z (x s) => ?_) ?_; rotate_left; subst x; rotate_left; try clear_value x)
    | (extract_lets +onlyGivenNames x; refine (fun hf1 : ∀ s a, Keeps z s → Keeps z (x s a) => ?_) ?_; rotate_left; subst x; rotate_left; try clear_value x)
    | (extract_lets +onlyGivenNames x; refine (fun hf2 : ∀ a s, Keeps z s → Keeps z (x a s) => ?_) ?_; rotate_left; subst x; rotate_left; try clear_value x)
    | (extract_lets +onlyGivenNames x; refine (fun hf3 : ∀ s a b, Keeps z s → Keeps z (x s a b) => ?_) ?_; rotate_left; subst x; rotate_left; try clear_value x)
    | (extract_lets +onlyGivenNames x; refine (fun hf4 : ∀ a b s, Keeps z s → Keeps z (x a b s) => ?_) ?_; rotate_left; subst x; rotate_left; try clear_value x)
    | (extract_lets +onlyGivenNames x; refine (fun hf5 : ∀ a s b, Keeps z s → Keeps z (x a s b) => ?_) ?_; rotate_left; subst x; rotate_left; try clear_value x)
    | (extract_lets +onlyGivenNames x; refine (fun hf6 : ∀ a, Keeps z (x a) => ?_) ?_; rotate_left; subst x; rotate_left; try clear_value x)
    | (extract_lets +onlyGivenNames x; clear_value x) | extract_lets | apply ite_keeps | apply State.wr64_keeps
    | apply State.wrb_keeps | apply State.cnt_keeps | apply hf0 | apply hf1 | apply hf2 | apply hf3 | apply hf4
    | apply hf5 | apply hf6
    | (refine Keeps.upd ?_; first | assumption | (refine Keeps.of_fst (by assumption) ?_) | (refine Keeps.of_snd (by assumption) ?_) | apply State.wr64_keeps | apply State.wrb_keeps | apply State.cnt_keeps)
    | split | (refine Keeps.of_fst (by assumption) ?_) | (refine Keeps.of_snd (by assumption) ?_)

theorem State.soot_keeps {z : State} {s : State} {p} {b} (hz : Keeps z s) :
    Keeps z (State.soot s p b) := by
  unfold State.soot
  with_reducible repeat' first
    | assumption
    | (extract_lets +onlyGivenNames x; refine (fun hx : Keeps z x => ?_) ?_; rotate_left; subst x; rotate_left; try clear_value x)
    | (extract_lets +onlyGivenNames x; clear_value x) | extract_lets | apply ite_keeps | apply State.srcEvent_keeps
    | apply State.sootMark_keeps
    | (refine Keeps.upd ?_; first | assumption | apply State.srcEvent_keeps | apply State.sootMark_keeps) | split
    | (refine Keeps.of_fst (by assumption) ?_) | (refine Keeps.of_snd (by assumption) ?_)

theorem State.pinUpdate_keeps {z : State} {s : State} {src} (hz : Keeps z s) :
    Keeps z (State.pinUpdate s src) := by
  unfold State.pinUpdate
  with_reducible repeat' first
    | assumption | apply ite_keeps | apply State.setSrc_keeps | apply State.showSrc_keeps
    | (refine Keeps.upd ?_; first | assumption | apply State.setSrc_keeps | apply State.showSrc_keeps)

theorem State.pinsOf_keeps {z : State} {s : State} {p} (hz : Keeps z s) :
    Keeps z (State.pinsOf s p) := by
  unfold State.pinsOf
  with_reducible repeat' first
    | assumption | apply ite_keeps | apply State.pinUpdate_keeps | apply forL_keeps | apply forL_keeps_fst
    | intro _ _ _ _ | intro _ _ _ | intro _ _ | intro _
    | (refine Keeps.upd ?_; first | assumption | apply State.pinUpdate_keeps | apply forL_keeps)

theorem State.sootOff_keeps {z : State} {s : State} {p} {b} (hz : Keeps z s) :
    Keeps z (State.sootOff s p b) := by
  unfold State.sootOff
  with_reducible repeat' first
    | assumption | apply State.wrb_keeps | apply State.pinsOf_keeps

end Sys2Proof.Machine
end

