-- ==== Sys2Proof/Laws/KeepsOperands.lean ====
section
/-! SUPPORT. What every operation of Machine/Operands.lean keeps (Laws/Keeps.lean). -/
-- one script for every shape of goal: what a goal does not need is not reported
set_option linter.all false
namespace Sys2Proof.Machine

theorem rwl_keeps {z : State} {p} {eff} {s : State} (heff : ∀ u0, Keeps z u0 → Keeps z (eff u0)) (hz : Keeps z s) :
    Keeps z (rwl p eff s) := by
  unfold rwl
  with_reducible repeat' first
    | assumption | apply ite_keeps | apply State.wrb_keeps | apply heff
    | (refine Keeps.upd ?_; first | assumption | apply State.wrb_keeps)

theorem State.acvFill_keeps {z : State} {s : State} {b} {a} {write} (hz : Keeps z s) :
    Keeps z (State.acvFill s b a write) := by
  unfold State.acvFill
  with_reducible repeat' first
    | assumption
    | (extract_lets +onlyGivenNames x; refine (fun hx : Keeps z x => ?_) ?_; rotate_left; subst x; rotate_left; try clear_value x)
    | (extract_lets +onlyGivenNames x; refine (fun hx : Keeps z x.1 => ?_) ?_; rotate_left; subst x; rotate_left; try clear_value x)
    | (extract_lets +onlyGivenNames x; refine (fun hx : Keeps z x.2 => ?_) ?_; rotate_left; subst x; rotate_left; try clear_value x)
    | (extract_lets +onlyGivenNames x; refine (fun hf0 : ∀ s, Keeps z s → Keeps z (x s) => ?_) ?_; rotate_left; subst x; rotate_left; try clear_value x)
    | (extract_lets +onlyGivenNames x; refine (fun hf1 : ∀ s a, Keeps z s → Keeps z (x s a) => ?_) ?_; rotate_left; subst x; rotate_left; try clear_value x)
    | (extract_lets +onlyGivenNames x; refine (fun hf2 : ∀ a s, Keeps z s → Keeps z (x a s) => ?_) ?_; rotate_left; subst x; rotate_left; try clear_value x)
    | (extract_lets +onlyGivenNames x; refine (fun hf3 : ∀ s a b, Keeps z s → Keeps z (x s a b) => ?_) ?_; rotate_left; subst x; rotate_left; try clear_value x)
    | (extract_lets +onlyGivenNames x; refine (fun hf4 : ∀ a b s, Keeps z s → Keeps z (x a b s) => ?_) ?_; rotate_left; subst x; rotate_left; try clear_value x)
    | (extract_lets +onlyGivenNames x; refine (fun hf5 : ∀ a s b, Keeps z s → Keeps z (x a s b) => ?_) ?_; rotate_left; subst x; rotate_left; try clear_value x)
    | (extract_lets +onlyGivenNames x; refine (fun hf6 : ∀ a, Keeps z (x a) => ?_) ?_; rotate_left; subst x; rotate_left; try clear_value x)
    | (extract_lets +onlyGivenNames x; clear_value x) | extract_lets | apply ite_keeps | apply State.wr_keeps
    | apply State.wr64_keeps | apply State.wrb_keeps | apply hf0 | apply hf1 | apply hf2 | apply hf3 | apply hf4
    | apply hf5 | apply hf6
    | (refine Keeps.upd ?_; first | assumption | (refine Keeps.of_fst (by assumption) ?_) | (refine Keeps.of_snd (by assumption) ?_) | apply State.wr_keeps | apply State.wr64_keeps | apply State.wrb_keeps)
    | split | (refine Keeps.of_fst (by assumption) ?_) | (refine Keeps.of_snd (by assumption) ?_)

theorem State.acvRecord_keeps {z : State} {s : State} {b} {a} {write} (hz : Keeps z s) :
    Keeps z (State.acvRecord s b a write) := by
  unfold State.acvRecord
  with_reducible repeat' first
    | assumption
    | (extract_lets +onlyGivenNames x; refine (fun hx : Keeps z x => ?_) ?_; rotate_left; subst x; rotate_left; try clear_value x)
    | (extract_lets +onlyGivenNames x; refine (fun hx : Keeps z x.1 => ?_) ?_; rotate_left; subst x; rotate_left; try clear_value x)
    | (extract_lets +onlyGivenNames x; refine (fun hx : Keeps z x.2 => ?_) ?_; rotate_left; subst x; rotate_left; try clear_value x)
    | (extract_lets +onlyGivenNames x; refine (fun hf0 : ∀ s, Keeps z s → Keeps z (x s) => ?_) ?_; rotate_left; subst x; rotate_left; try clear_value x)
    | (extract_lets +onlyGivenNames x; refine (fun hf1 : ∀ s a, Keeps z s → Keeps z (x s a) => ?_) ?_; rotate_left; subst x; rotate_left; try clear_value x)
    | (extract_lets +onlyGivenNames x; refine (fun hf2 : ∀ a s, Keeps z s → Keeps z (x a s) => ?_) ?_; rotate_left; subst x; rotate_left; try clear_value x)
    | (extract_lets +onlyGivenNames x; refine (fun hf3 : ∀ s a b, Keeps z s → Keeps z (x s a b) => ?_) ?_; rotate_left; subst x; rotate_left; try clear_value x)
    | (extract_lets +onlyGivenNames x; refine (fun hf4 : ∀ a b s, Keeps z s → Keeps z (x a b s) => ?_) ?_; rotate_left; subst x; rotate_left; try clear_value x)
    | (extract_lets +onlyGivenNames x; refine (fun hf5 : ∀ a s b, Keeps z s → Keeps z (x a s b) => ?_) ?_; rotate_left; subst x; rotate_left; try clear_value x)
    | (extract_lets +onlyGivenNames x; refine (fun hf6 : ∀ a, Keeps z (x a) => ?_) ?_; rotate_left; subst x; rotate_left; try clear_value x)
    | (extract_lets +onlyGivenNames x; clear_value x) | extract_lets | apply ite_keeps | apply State.wrf_keeps
    | apply State.acvFill_keeps | apply hf0 | apply hf1 | apply hf2 | apply hf3 | apply hf4 | apply hf5 | apply hf6
    | (refine Keeps.upd ?_; first | assumption | (refine Keeps.of_fst (by assumption) ?_) | (refine Keeps.of_snd (by assumption) ?_) | apply State.wrf_keeps | apply State.acvFill_keeps)
    | split | (refine Keeps.of_fst (by assumption) ?_) | (refine Keeps.of_snd (by assumption) ?_)

theorem State.plainWrite_keeps {z : State} {s : State} {a} {v} (hz : Keeps z s) :
    Keeps z (State.plainWrite s a v) := by
  unfold State.plainWrite
  with_reducible repeat' first
    | assumption | (extract_lets +onlyGivenNames x; clear_value x) | extract_lets | apply ite_keeps
    | apply State.wr_keeps | (refine Keeps.upd ?_; first | assumption | apply State.wr_keeps) | split
    | (refine Keeps.of_fst (by assumption) ?_) | (refine Keeps.of_snd (by assumption) ?_)

theorem State.refuse_keeps {z : State} {s : State} {b} {a} {write} (hz : Keeps z s) :
    Keeps z (State.refuse s b a write) := by
  unfold State.refuse
  with_reducible repeat' first
    | assumption | apply ite_keeps | apply State.respond_keeps | apply State.acvRecord_keeps
    | apply State.srcEvent_keeps
    | (refine Keeps.upd ?_; first | assumption | apply State.respond_keeps | apply State.acvRecord_keeps | apply State.srcEvent_keeps)

theorem State.refuseWrite_keeps {z : State} {s : State} {b} {p} {off} {v} (hz : Keeps z s) :
    Keeps z (State.refuseWrite s b p off v) := by
  unfold State.refuseWrite
  with_reducible repeat' first
    | assumption
    | (extract_lets +onlyGivenNames x; refine (fun hx : Keeps z x => ?_) ?_; rotate_left; subst x; rotate_left; try clear_value x)
    | (extract_lets +onlyGivenNames x; clear_value x) | extract_lets | apply ite_keeps | apply State.wrf_keeps
    | apply State.soot_keeps | apply State.refuse_keeps
    | (refine Keeps.upd ?_; first | assumption | apply State.wrf_keeps | apply State.soot_keeps | apply State.refuse_keeps)
    | split | (refine Keeps.of_fst (by assumption) ?_) | (refine Keeps.of_snd (by assumption) ?_)

theorem busWrite_keeps {z : State} {b} {p} {off} {v} {eff} {s : State} (heff : ∀ u0, Keeps z u0 → Keeps z (eff u0)) (hz : Keeps z s) :
    Keeps z (busWrite b p off v eff s) := by
  unfold busWrite
  with_reducible repeat' first
    | assumption | apply ite_keeps | apply State.refuseWrite_keeps | apply State.respond_keeps | apply heff
    | (refine Keeps.upd ?_; first | assumption | apply State.refuseWrite_keeps | apply State.respond_keeps)

theorem busRead_keeps {z : State} {b} {p} {off} {eff} {s : State} (heff : ∀ u0, Keeps z u0 → Keeps z (eff u0)) (hz : Keeps z s) :
    Keeps z (busRead b p off eff s) := by
  unfold busRead
  with_reducible repeat' first
    | assumption | apply ite_keeps | apply State.refuse_keeps | apply State.respond_keeps | apply heff
    | (refine Keeps.upd ?_; first | assumption | apply State.refuse_keeps | apply State.respond_keeps)

end Sys2Proof.Machine
end

