-- ==== Sys2Proof/Laws/KeepsDomains.lean ====
section
/-! SUPPORT. What every operation of Machine/Domains.lean keeps (Laws/Keeps.lean). -/
-- one script for every shape of goal: what a goal does not need is not reported
set_option linter.all false
namespace Sys2Proof.Machine

theorem State.wearAdd_keeps {z : State} {s : State} {item} {n} (hz : Keeps z s) :
    Keeps z (State.wearAdd s item n) := by
  unfold State.wearAdd
  with_reducible repeat' first
    | assumption | apply ite_keeps | (refine Keeps.upd ?_; first | assumption)

theorem State.dcSync_keeps {z : State} {s : State} (hz : Keeps z s) :
    Keeps z (State.dcSync s) := by
  unfold State.dcSync
  with_reducible repeat' first
    | assumption | apply ite_keeps | (refine Keeps.upd ?_; first | assumption)

theorem State.dramLost_keeps {z : State} {s : State} (hz : Keeps z s) :
    Keeps z (State.dramLost s) := by
  unfold State.dramLost
  with_reducible repeat' first
    | assumption
    | (extract_lets +onlyGivenNames x; refine (fun hx : Keeps z x => ?_) ?_; rotate_left; subst x; rotate_left; try clear_value x)
    | (extract_lets +onlyGivenNames x; refine (fun hx : Keeps z x.1 => ?_) ?_; rotate_left; subst x; rotate_left; try clear_value x)
    | (extract_lets +onlyGivenNames x; refine (fun hx : Keeps z x.2 => ?_) ?_; rotate_left; subst x; rotate_left; try clear_value x)
    | (extract_lets +onlyGivenNames x; refine (fun hf0 : ∀ s, Keeps z s → Keeps z (x s) => ?_) ?_; rotate_left; subst x; rotate_left; try clear_value x)
    | (extract_lets +onlyGivenNames x; refine (fun hf1 : ∀ s a, Keeps z s → Keeps z (x s a) => ?_) ?_; rotate_left; subst x; rotate_left; try clear_value x)
    | (extract_lets +onlyGivenNames x; refine (fun hf2 : ∀ a s, Keeps z s → Keeps z (x a s) => ?_) ?_; rotate_left; subst x; rotate_left; try clear_value x)
    | (extract_lets +onlyGivenNames x; refine (fun hf3 : ∀ s a b, Keeps z s → Keeps z (x s a b) => ?_) ?_; rotate_left; subst x; rotate_left; try clear_value x)
    | (extract_lets +onlyGivenNames x; refine (fun hf4 : ∀ a b s, Keeps z s → Keeps z (x a b s) => ?_) ?_; rotate_left; subst x; rotate_left; try clear_value x)
    | (extract_lets +onlyGivenNames x; refine (fun hf5 : ∀ a s b, Keeps z s → Keeps z (x a s b) => ?_) ?_; rotate_left; subst x; rotate_left; try clear_value x)
    | (extract_lets +onlyGivenNames x; refine (fun hf6 : ∀ a, Keeps z (x a) => ?_) ?_; rotate_left; subst x; rotate_left; try clear_value x)
    | (extract_lets +onlyGivenNames x; clear_value x) | extract_lets | apply ite_keeps | apply State.eraseMem_keeps
    | apply hf0 | apply hf1 | apply hf2 | apply hf3 | apply hf4 | apply hf5 | apply hf6
    | (refine Keeps.upd ?_; first | assumption | (refine Keeps.of_fst (by assumption) ?_) | (refine Keeps.of_snd (by assumption) ?_) | apply State.eraseMem_keeps)
    | split | (refine Keeps.of_fst (by assumption) ?_) | (refine Keeps.of_snd (by assumption) ?_)

theorem State.pwrSoot_keeps {z : State} {s : State} {b} (hz : Keeps z s) :
    Keeps z (State.pwrSoot s b) := by
  unfold State.pwrSoot
  with_reducible repeat' first
    | assumption | apply ite_keeps | apply State.soot_keeps
    | (refine Keeps.upd ?_; first | assumption | apply State.soot_keeps)

theorem State.requestDomOn_keeps {z : State} {s : State} {d} (hz : Keeps z s) :
    Keeps z (State.requestDomOn s d) := by
  unfold State.requestDomOn
  with_reducible repeat' first
    | assumption | apply ite_keeps | apply foldl_keeps_fst | apply foldl_keeps | intro _ _ _ _ | intro _ _ _
    | intro _ _ | intro _ | (refine Keeps.upd ?_; first | assumption)

theorem State.requestDoms_keeps {z : State} {s : State} {l} (hz : Keeps z s) :
    Keeps z (State.requestDoms s l) := by
  unfold State.requestDoms
  with_reducible repeat' first
    | assumption | apply ite_keeps | apply State.requestDomOn_keeps | apply forL_keeps | apply forL_keeps_fst
    | intro _ _ _ _ | intro _ _ _ | intro _ _ | intro _
    | (refine Keeps.upd ?_; first | assumption | apply State.requestDomOn_keeps | apply forL_keeps)

theorem State.startStep3_keeps {z : State} {s : State} (hz : Keeps z s) :
    Keeps z (State.startStep3 s) := by
  unfold State.startStep3
  with_reducible repeat' first
    | assumption | apply ite_keeps | apply State.requestDoms_keeps
    | (refine Keeps.upd ?_; first | assumption | apply State.requestDoms_keeps)

theorem State.channelsOff_keeps {z : State} {s : State} {h} (hz : Keeps z s) :
    Keeps z (State.channelsOff s h) := by
  unfold State.channelsOff
  with_reducible repeat' first
    | assumption | apply ite_keeps | apply State.updQueue_keeps | apply State.setTag_keeps | apply State.setLas_keeps
    | apply State.setRing_keeps | apply State.setChan_keeps | apply State.setSeq_keeps | apply State.setTherm_keeps
    | apply forN_keeps | intro _ _ _ _ | intro _ _ _ | intro _ _ | intro _
    | (refine Keeps.upd ?_; first | assumption | apply State.updQueue_keeps | apply State.setTag_keeps | apply State.setLas_keeps | apply State.setRing_keeps | apply State.setChan_keeps | apply State.setSeq_keeps | apply State.setTherm_keeps | apply forN_keeps)

theorem State.domainUnits_keeps {z : State} {s : State} {d} (hz : Keeps z s) :
    Keeps z (State.domainUnits s d) := by
  unfold State.domainUnits
  with_reducible repeat' first
    | assumption
    | (extract_lets +onlyGivenNames x; refine (fun hx : Keeps z x => ?_) ?_; rotate_left; subst x; rotate_left; try clear_value x)
    | (extract_lets +onlyGivenNames x; clear_value x) | extract_lets | apply ite_keeps | apply State.channelsOff_keeps
    | apply State.setSeq_keeps | apply State.dramLost_keeps | apply State.eraseMem_keeps | apply State.wrf_keeps
    | apply State.updSerial_keeps | apply forN_keeps | intro _ _ _ _ | intro _ _ _ | intro _ _ | intro _
    | (refine Keeps.upd ?_; first | assumption | apply State.channelsOff_keeps | apply State.setSeq_keeps | apply State.dramLost_keeps | apply State.eraseMem_keeps | apply State.wrf_keeps | apply State.updSerial_keeps | apply forN_keeps)
    | split | (refine Keeps.of_fst (by assumption) ?_) | (refine Keeps.of_snd (by assumption) ?_)

theorem State.domainOff_keeps {z : State} {s : State} {d} (hz : Keeps z s) :
    Keeps z (State.domainOff s d) := by
  unfold State.domainOff
  with_reducible repeat' first
    | assumption | apply ite_keeps | apply State.pinsOf_keeps | apply State.wrb_keeps | apply State.resetRegs_keeps
    | apply State.domainUnits_keeps | apply forL_keeps | apply forL_keeps_fst | intro _ _ _ _ | intro _ _ _
    | intro _ _ | intro _
    | (refine Keeps.upd ?_; first | assumption | apply State.pinsOf_keeps | apply State.wrb_keeps | apply State.resetRegs_keeps | apply State.domainUnits_keeps | apply forL_keeps)

theorem State.domainsOff_keeps {z : State} {s : State} {l} (hz : Keeps z s) :
    Keeps z (State.domainsOff s l) := by
  unfold State.domainsOff
  with_reducible repeat' first
    | assumption | apply ite_keeps | apply State.domainOff_keeps | apply forL_keeps | apply forL_keeps_fst
    | intro _ _ _ _ | intro _ _ _ | intro _ _ | intro _
    | (refine Keeps.upd ?_; first | assumption | apply State.domainOff_keeps | apply forL_keeps)

theorem State.blockedOff_keeps {z : State} {s : State} (hz : Keeps z s) :
    Keeps z (State.blockedOff s) := by
  unfold State.blockedOff
  with_reducible repeat' first
    | assumption
    | (extract_lets +onlyGivenNames x; refine (fun hx : Keeps z x => ?_) ?_; rotate_left; subst x; rotate_left; try clear_value x)
    | (extract_lets +onlyGivenNames x; refine (fun hx : Keeps z x.1 => ?_) ?_; rotate_left; subst x; rotate_left; try clear_value x)
    | (extract_lets +onlyGivenNames x; refine (fun hx : Keeps z x.2 => ?_) ?_; rotate_left; subst x; rotate_left; try clear_value x)
    | (extract_lets +onlyGivenNames x; refine (fun hf0 : ∀ s, Keeps z s → Keeps z (x s) => ?_) ?_; rotate_left; subst x; rotate_left; try clear_value x)
    | (extract_lets +onlyGivenNames x; refine (fun hf1 : ∀ s a, Keeps z s → Keeps z (x s a) => ?_) ?_; rotate_left; subst x; rotate_left; try clear_value x)
    | (extract_lets +onlyGivenNames x; refine (fun hf2 : ∀ a s, Keeps z s → Keeps z (x a s) => ?_) ?_; rotate_left; subst x; rotate_left; try clear_value x)
    | (extract_lets +onlyGivenNames x; refine (fun hf3 : ∀ s a b, Keeps z s → Keeps z (x s a b) => ?_) ?_; rotate_left; subst x; rotate_left; try clear_value x)
    | (extract_lets +onlyGivenNames x; refine (fun hf4 : ∀ a b s, Keeps z s → Keeps z (x a b s) => ?_) ?_; rotate_left; subst x; rotate_left; try clear_value x)
    | (extract_lets +onlyGivenNames x; refine (fun hf5 : ∀ a s b, Keeps z s → Keeps z (x a s b) => ?_) ?_; rotate_left; subst x; rotate_left; try clear_value x)
    | (extract_lets +onlyGivenNames x; refine (fun hf6 : ∀ a, Keeps z (x a) => ?_) ?_; rotate_left; subst x; rotate_left; try clear_value x)
    | (extract_lets +onlyGivenNames x; clear_value x) | extract_lets | apply ite_keeps | apply State.domainsOff_keeps
    | apply hf0 | apply hf1 | apply hf2 | apply hf3 | apply hf4 | apply hf5 | apply hf6
    | (refine Keeps.upd ?_; first | assumption | (refine Keeps.of_fst (by assumption) ?_) | (refine Keeps.of_snd (by assumption) ?_) | apply State.domainsOff_keeps)
    | split | (refine Keeps.of_fst (by assumption) ?_) | (refine Keeps.of_snd (by assumption) ?_)

theorem State.blockedUpdate_keeps {z : State} {s : State} (hz : Keeps z s) :
    Keeps z (State.blockedUpdate s) := by
  unfold State.blockedUpdate
  with_reducible repeat' first
    | assumption | apply ite_keeps | apply State.wrb_keeps | apply forN_keeps | intro _ _ _ _ | intro _ _ _
    | intro _ _ | intro _ | (refine Keeps.upd ?_; first | assumption | apply State.wrb_keeps | apply forN_keeps)

theorem State.setBootStep_keeps {z : State} {s : State} {k} (hz : Keeps z s) :
    Keeps z (State.setBootStep s k) := by
  unfold State.setBootStep
  with_reducible repeat' first
    | assumption | apply ite_keeps | (refine Keeps.upd ?_; first | assumption)

theorem State.startStep7_keeps {z : State} {s : State} (hz : Keeps z s) :
    Keeps z (State.startStep7 s) := by
  unfold State.startStep7
  with_reducible repeat' first
    | assumption | apply ite_keeps | apply State.requestDoms_keeps | apply State.setBootStep_keeps
    | (refine Keeps.upd ?_; first | assumption | apply State.requestDoms_keeps | apply State.setBootStep_keeps)

theorem State.logPush_keeps {z : State} {s : State} {kind} {payload} (hz : Keeps z s) :
    Keeps z (State.logPush s kind payload) := by
  unfold State.logPush
  with_reducible repeat' first
    | assumption | apply ite_keeps | (refine Keeps.upd ?_; first | assumption)

theorem State.wearRestore_keeps {z : State} {s : State} (hz : Keeps z s) :
    Keeps z (State.wearRestore s) := by
  unfold State.wearRestore
  with_reducible repeat' first
    | assumption | (extract_lets +onlyGivenNames x; clear_value x) | extract_lets | apply ite_keeps | apply forN_keeps
    | intro _ _ _ _ | intro _ _ _ | intro _ _ | intro _ | (refine Keeps.upd ?_; first | assumption | apply forN_keeps)
    | split | (refine Keeps.of_fst (by assumption) ?_) | (refine Keeps.of_snd (by assumption) ?_)

theorem State.heldCfgApply_keeps {z : State} {s : State} (hz : Keeps z s) :
    Keeps z (State.heldCfgApply s) := by
  unfold State.heldCfgApply
  with_reducible repeat' first
    | assumption | apply ite_keeps | apply State.plainWrite_keeps | apply State.blockedOff_keeps
    | apply State.blockedUpdate_keeps | apply forL_keeps | apply forL_keeps_fst | intro _ _ _ _ | intro _ _ _
    | intro _ _ | intro _
    | (refine Keeps.upd ?_; first | assumption | apply State.plainWrite_keeps | apply State.blockedOff_keeps | apply State.blockedUpdate_keeps | apply forL_keeps)

theorem State.restart_keeps {z : State} {s : State} (hz : Keeps z s) :
    Keeps z (State.restart s) := by
  unfold State.restart
  with_reducible repeat' first
    | assumption
    | (extract_lets +onlyGivenNames x; refine (fun hx : Keeps z x => ?_) ?_; rotate_left; subst x; rotate_left; try clear_value x)
    | (extract_lets +onlyGivenNames x; refine (fun hx : Keeps z x.1 => ?_) ?_; rotate_left; subst x; rotate_left; try clear_value x)
    | (extract_lets +onlyGivenNames x; refine (fun hx : Keeps z x.2 => ?_) ?_; rotate_left; subst x; rotate_left; try clear_value x)
    | (extract_lets +onlyGivenNames x; refine (fun hf0 : ∀ s, Keeps z s → Keeps z (x s) => ?_) ?_; rotate_left; subst x; rotate_left; try clear_value x)
    | (extract_lets +onlyGivenNames x; refine (fun hf1 : ∀ s a, Keeps z s → Keeps z (x s a) => ?_) ?_; rotate_left; subst x; rotate_left; try clear_value x)
    | (extract_lets +onlyGivenNames x; refine (fun hf2 : ∀ a s, Keeps z s → Keeps z (x a s) => ?_) ?_; rotate_left; subst x; rotate_left; try clear_value x)
    | (extract_lets +onlyGivenNames x; refine (fun hf3 : ∀ s a b, Keeps z s → Keeps z (x s a b) => ?_) ?_; rotate_left; subst x; rotate_left; try clear_value x)
    | (extract_lets +onlyGivenNames x; refine (fun hf4 : ∀ a b s, Keeps z s → Keeps z (x a b s) => ?_) ?_; rotate_left; subst x; rotate_left; try clear_value x)
    | (extract_lets +onlyGivenNames x; refine (fun hf5 : ∀ a s b, Keeps z s → Keeps z (x a s b) => ?_) ?_; rotate_left; subst x; rotate_left; try clear_value x)
    | (extract_lets +onlyGivenNames x; refine (fun hf6 : ∀ a, Keeps z (x a) => ?_) ?_; rotate_left; subst x; rotate_left; try clear_value x)
    | (extract_lets +onlyGivenNames x; clear_value x) | extract_lets | apply ite_keeps | apply State.setBootStep_keeps
    | apply State.startStep3_keeps | apply State.domainsOff_keeps | apply hf0 | apply hf1 | apply hf2 | apply hf3
    | apply hf4 | apply hf5 | apply hf6
    | (refine Keeps.upd ?_; first | assumption | (refine Keeps.of_fst (by assumption) ?_) | (refine Keeps.of_snd (by assumption) ?_) | apply State.setBootStep_keeps | apply State.startStep3_keeps | apply State.domainsOff_keeps)
    | split | (refine Keeps.of_fst (by assumption) ?_) | (refine Keeps.of_snd (by assumption) ?_)

theorem State.saveWear_keeps {z : State} {s : State} (hz : Keeps z s) :
    Keeps z (State.saveWear s) := by
  unfold State.saveWear
  with_reducible repeat' first
    | assumption | apply State.logPush_keeps

theorem State.startStep6_keeps {z : State} {s : State} (hz : Keeps z s) :
    Keeps z (State.startStep6 s) := by
  unfold State.startStep6
  with_reducible repeat' first
    | assumption | apply ite_keeps | apply State.requestDomOn_keeps | apply State.setBootStep_keeps
    | (refine Keeps.upd ?_; first | assumption | apply State.requestDomOn_keeps | apply State.setBootStep_keeps)

theorem State.warmReset_keeps {z : State} {s : State} {src} (hz : Keeps z s) :
    Keeps z (State.warmReset s src) := by
  unfold State.warmReset
  with_reducible repeat' first
    | assumption
    | (extract_lets +onlyGivenNames x; refine (fun hx : Keeps z x => ?_) ?_; rotate_left; subst x; rotate_left; try clear_value x)
    | (extract_lets +onlyGivenNames x; clear_value x) | extract_lets | apply ite_keeps | apply State.domainsOff_keeps
    | apply State.setBootStep_keeps | apply State.wrf_keeps | apply State.cnt_keeps
    | (refine Keeps.upd ?_; first | assumption | apply State.domainsOff_keeps | apply State.setBootStep_keeps | apply State.wrf_keeps | apply State.cnt_keeps)
    | split | (refine Keeps.of_fst (by assumption) ?_) | (refine Keeps.of_snd (by assumption) ?_)

end Sys2Proof.Machine
end

