-- ==== Sys2Proof/Laws/KeepsQueues.lean ====
section
/-! SUPPORT. What every operation of Machine/Queues.lean keeps (Laws/Keeps.lean). -/
-- one script for every shape of goal: what a goal does not need is not reported
set_option linter.all false
namespace Sys2Proof.Machine

theorem State.qWatch_keeps {z : State} {s : State} {k} {was} (hz : Keeps z s) :
    Keeps z (State.qWatch s k was) := by
  unfold State.qWatch
  with_reducible repeat' first
    | assumption | apply ite_keeps | apply State.wrb_keeps | apply State.irq_keeps
    | (refine Keeps.upd ?_; first | assumption | apply State.wrb_keeps | apply State.irq_keeps)

theorem State.qAppend_keeps {z : State} {s : State} {k} {bytes} (hz : Keeps z s) :
    Keeps z (State.qAppend s k bytes) := by
  unfold State.qAppend
  with_reducible repeat' first
    | assumption | apply State.updQueue_keeps | apply State.qWatch_keeps | apply State.wrMem_keeps

theorem State.qPush_keeps {z : State} {s : State} {k} {bytes} (hz : Keeps z s) :
    Keeps z (State.qPush s k bytes) := by
  unfold State.qPush
  with_reducible repeat' first
    | assumption | apply ite_keeps | apply State.updQueue_keeps | apply State.qAppend_keeps
    | (refine Keeps.upd ?_; first | assumption | apply State.updQueue_keeps | apply State.qAppend_keeps)

theorem State.qReserve_keeps {z : State} {s : State} {k} (hz : Keeps z s) :
    Keeps z (State.qReserve s k) := by
  unfold State.qReserve
  with_reducible repeat' first
    | assumption | apply State.updQueue_keeps

theorem State.dbRes_keeps {z : State} {s : State} {k} {res} (hz : Keeps z s) :
    Keeps z (State.dbRes s k res) := by
  unfold State.dbRes
  with_reducible repeat' first
    | assumption | apply State.wrf_keeps

theorem State.dbRefused_keeps {z : State} {s : State} {k} (hz : Keeps z s) :
    Keeps z (State.dbRefused s k) := by
  unfold State.dbRefused
  with_reducible repeat' first
    | assumption | apply State.dbRes_keeps | apply State.cnt_keeps

theorem State.doorbell_keeps {z : State} {s : State} {k} {r} {v} (hz : Keeps z s) :
    Keeps z (State.doorbell s k r v) := by
  unfold State.doorbell
  with_reducible repeat' first
    | assumption | (extract_lets +onlyGivenNames x; clear_value x) | extract_lets | apply ite_keeps
    | apply State.updQueue_keeps | apply State.qWatch_keeps | apply State.dbRes_keeps | apply State.dbRefused_keeps
    | (refine Keeps.upd ?_; first | assumption | apply State.updQueue_keeps | apply State.qWatch_keeps | apply State.dbRes_keeps | apply State.dbRefused_keeps)
    | split | (refine Keeps.of_fst (by assumption) ?_) | (refine Keeps.of_snd (by assumption) ?_)

theorem State.qmgStat_keeps {z : State} {s : State} (hz : Keeps z s) :
    Keeps z (State.qmgStat s) := by
  unfold State.qmgStat
  with_reducible repeat' first
    | assumption | apply State.wrb_keeps | apply State.wrf_keeps

theorem State.qCapture_keeps {z : State} {s : State} (hz : Keeps z s) :
    Keeps z (State.qCapture s) := by
  unfold State.qCapture
  with_reducible repeat' first
    | assumption | apply State.wr_keeps

theorem State.qBaseWrite_keeps {z : State} {s : State} {v} (hz : Keeps z s) :
    Keeps z (State.qBaseWrite s v) := by
  unfold State.qBaseWrite
  with_reducible repeat' first
    | assumption | apply ite_keeps | apply State.updQueue_keeps | apply State.qCapture_keeps | apply State.soot_keeps
    | (refine Keeps.upd ?_; first | assumption | apply State.updQueue_keeps | apply State.qCapture_keeps | apply State.soot_keeps)

theorem State.qCfgWrite_keeps {z : State} {s : State} {v} (hz : Keeps z s) :
    Keeps z (State.qCfgWrite s v) := by
  unfold State.qCfgWrite
  with_reducible repeat' first
    | assumption | apply ite_keeps | apply State.updQueue_keeps | apply State.qmgStat_keeps
    | apply State.qCapture_keeps | apply State.soot_keeps
    | (refine Keeps.upd ?_; first | assumption | apply State.updQueue_keeps | apply State.qmgStat_keeps | apply State.qCapture_keeps | apply State.soot_keeps)

theorem State.qDrop_keeps {z : State} {s : State} {k} (hz : Keeps z s) :
    Keeps z (State.qDrop s k) := by
  unfold State.qDrop
  with_reducible repeat' first
    | assumption | apply ite_keeps | apply State.updQueue_keeps | apply State.qWatch_keeps
    | (refine Keeps.upd ?_; first | assumption | apply State.updQueue_keeps | apply State.qWatch_keeps)

theorem State.qPushReserved_keeps {z : State} {s : State} {k} {bytes} (hz : Keeps z s) :
    Keeps z (State.qPushReserved s k bytes) := by
  unfold State.qPushReserved
  with_reducible repeat' first
    | assumption | apply State.updQueue_keeps | apply State.qAppend_keeps

theorem State.qRetire_keeps {z : State} {s : State} {lo} {hi} (hz : Keeps z s) :
    Keeps z (State.qRetire s lo hi) := by
  unfold State.qRetire
  with_reducible repeat' first
    | assumption | apply ite_keeps | apply State.updQueue_keeps | apply State.qmgStat_keeps | apply forN_keeps
    | intro _ _ _ _ | intro _ _ _ | intro _ _ | intro _
    | (refine Keeps.upd ?_; first | assumption | apply State.updQueue_keeps | apply State.qmgStat_keeps | apply forN_keeps)

theorem State.qWmWrite_keeps {z : State} {s : State} {v} (hz : Keeps z s) :
    Keeps z (State.qWmWrite s v) := by
  unfold State.qWmWrite
  with_reducible repeat' first
    | assumption | apply State.updQueue_keeps | apply State.qCapture_keeps

theorem execQueueConfigWrite_keeps {z : State} {b} {v} {s : State} (hz : Keeps z s) :
    KeepsO z (execQueueConfigWrite b v s) := by
  unfold execQueueConfigWrite
  with_reducible repeat' first
    | assumption | apply ite_keeps | apply next_keepsO | apply ite_keepsO | apply refused_keepsO | apply fault_keepsO
    | apply State.qCfgWrite_keeps | apply busWrite_keeps | intro _ _ _ _ | intro _ _ _ | intro _ _ | intro _
    | (refine Keeps.upd ?_; first | assumption | apply State.qCfgWrite_keeps | apply busWrite_keeps)

theorem execQueueSelectCapture_keeps {z : State} {b} {v} {s : State} (hz : Keeps z s) :
    KeepsO z (execQueueSelectCapture b v s) := by
  unfold execQueueSelectCapture
  with_reducible repeat' first
    | assumption | apply ite_keeps | apply next_keepsO | apply ite_keepsO | apply refused_keepsO | apply fault_keepsO
    | apply State.plainWrite_keeps | apply State.qCapture_keeps | apply busWrite_keeps | intro _ _ _ _ | intro _ _ _
    | intro _ _ | intro _
    | (refine Keeps.upd ?_; first | assumption | apply State.plainWrite_keeps | apply State.qCapture_keeps | apply busWrite_keeps)

theorem execQueueMove_keeps {z : State} {k} {s : State} (hz : Keeps z s) :
    KeepsO z (execQueueMove k s) := by
  unfold execQueueMove
  with_reducible repeat' first
    | assumption
    | (extract_lets +onlyGivenNames x; refine (fun hx : Keeps z x => ?_) ?_; rotate_left; subst x; rotate_left; try clear_value x)
    | (extract_lets +onlyGivenNames x; clear_value x) | extract_lets | apply ite_keeps | apply next_keepsO
    | apply ite_keepsO | apply refused_keepsO | apply fault_keepsO | apply State.irq_keeps | apply State.wrMem_keeps
    | apply State.updQueue_keeps | apply State.qmgStat_keeps | apply State.soot_keeps | apply forN_keeps
    | intro _ _ _ _ | intro _ _ _ | intro _ _ | intro _
    | (refine Keeps.upd ?_; first | assumption | apply State.irq_keeps | apply State.wrMem_keeps | apply State.updQueue_keeps | apply State.qmgStat_keeps | apply State.soot_keeps | apply forN_keeps)
    | split | (refine Keeps.of_fst (by assumption) ?_) | (refine Keeps.of_snd (by assumption) ?_)

theorem execQueueConsume_keeps {z : State} {b} {q} {v} {s : State} (hz : Keeps z s) :
    KeepsO z (execQueueConsume b q v s) := by
  unfold execQueueConsume
  with_reducible repeat' first
    | assumption | apply ite_keeps | apply next_keepsO | apply ite_keepsO | apply refused_keepsO | apply fault_keepsO
    | apply State.doorbell_keeps | apply busWrite_keeps | intro _ _ _ _ | intro _ _ _ | intro _ _ | intro _
    | (refine Keeps.upd ?_; first | assumption | apply State.doorbell_keeps | apply busWrite_keeps)

theorem execQueueProduce_keeps {z : State} {b} {q} {v} {s : State} (hz : Keeps z s) :
    KeepsO z (execQueueProduce b q v s) := by
  unfold execQueueProduce
  with_reducible repeat' first
    | assumption | apply ite_keeps | apply next_keepsO | apply ite_keepsO | apply refused_keepsO | apply fault_keepsO
    | apply State.doorbell_keeps | apply busWrite_keeps | intro _ _ _ _ | intro _ _ _ | intro _ _ | intro _
    | (refine Keeps.upd ?_; first | assumption | apply State.doorbell_keeps | apply busWrite_keeps)

end Sys2Proof.Machine
end

