-- ==== Sys2Proof/Laws/KeepsRecords.lean ====
section
/-! SUPPORT. What every operation of Machine/Records.lean keeps (Laws/Keeps.lean). -/
-- one script for every shape of goal: what a goal does not need is not reported
set_option linter.all false
namespace Sys2Proof.Machine

theorem State.unrecorded_keeps {z : State} {s : State} {n} (hz : Keeps z s) :
    Keeps z (State.unrecorded s n) := by
  unfold State.unrecorded
  with_reducible repeat' first
    | assumption | apply State.cnt_keeps

theorem State.recHand_keeps {z : State} {s : State} {n} {e} {late} {date} (hz : Keeps z s) :
    Keeps z (State.recHand s n e late date) := by
  unfold State.recHand
  with_reducible repeat' first
    | assumption | apply ite_keeps | apply State.wrf_keeps
    | (refine Keeps.upd ?_; first | assumption | apply State.wrf_keeps)

end Sys2Proof.Machine
end

