-- ==== Sys2Proof/Laws/KeepsJobCore.lean ====
section
/-! SUPPORT. What every operation of Machine/JobCore.lean keeps (Laws/Keeps.lean). -/
-- one script for every shape of goal: what a goal does not need is not reported
set_option linter.all false
namespace Sys2Proof.Machine

theorem State.lineOff_keeps {z : State} {s : State} {n} (hz : Keeps z s) :
    Keeps z (State.lineOff s n) := by
  unfold State.lineOff
  with_reducible repeat' first
    | assumption | apply ite_keeps | apply State.wrb_keeps
    | (refine Keeps.upd ?_; first | assumption | apply State.wrb_keeps)

theorem State.thermIdle_keeps {z : State} {s : State} {n} (hz : Keeps z s) :
    Keeps z (State.thermIdle s n) := by
  unfold State.thermIdle
  with_reducible repeat' first
    | assumption | apply ite_keeps | apply State.updTherm_keeps | apply State.lineOff_keeps | apply State.wrb_keeps
    | (refine Keeps.upd ?_; first | assumption | apply State.updTherm_keeps | apply State.lineOff_keeps | apply State.wrb_keeps)

theorem State.gateSet_keeps {z : State} {s : State} {n} {on} (hz : Keeps z s) :
    Keeps z (State.gateSet s n on) := by
  unfold State.gateSet
  with_reducible repeat' first
    | assumption | apply ite_keeps | apply State.cntN_keeps | apply State.wearAdd_keeps | apply State.setLas_keeps
    | apply State.wrb_keeps
    | (refine Keeps.upd ?_; first | assumption | apply State.cntN_keeps | apply State.wearAdd_keeps | apply State.setLas_keeps | apply State.wrb_keeps)

theorem State.laserIdle_keeps {z : State} {s : State} {n} (hz : Keeps z s) :
    Keeps z (State.laserIdle s n) := by
  unfold State.laserIdle
  with_reducible repeat' first
    | assumption | apply ite_keeps | apply State.wrb_keeps | apply State.updLas_keeps | apply State.gateSet_keeps
    | apply forL_keeps | apply forL_keeps_fst | intro _ _ _ _ | intro _ _ _ | intro _ _ | intro _
    | (refine Keeps.upd ?_; first | assumption | apply State.wrb_keeps | apply State.updLas_keeps | apply State.gateSet_keeps | apply forL_keeps)

theorem State.engineIdle_keeps {z : State} {s : State} {n} (hz : Keeps z s) :
    Keeps z (State.engineIdle s n) := by
  unfold State.engineIdle
  with_reducible repeat' first
    | assumption | apply ite_keeps | apply State.thermIdle_keeps | apply State.laserIdle_keeps
    | (refine Keeps.upd ?_; first | assumption | apply State.thermIdle_keeps | apply State.laserIdle_keeps)

theorem State.galvoStop_keeps {z : State} {s : State} {n} (hz : Keeps z s) :
    Keeps z (State.galvoStop s n) := by
  unfold State.galvoStop
  with_reducible repeat' first
    | assumption | apply ite_keeps | apply State.wrb_keeps
    | (refine Keeps.upd ?_; first | assumption | apply State.wrb_keeps)

theorem State.portShow_keeps {z : State} {s : State} {n} (hz : Keeps z s) :
    Keeps z (State.portShow s n) := by
  unfold State.portShow
  with_reducible repeat' first
    | assumption | apply State.setStat_keeps | apply State.wrb_keeps

theorem State.usedShow_keeps {z : State} {s : State} {u} {used} (hz : Keeps z s) :
    Keeps z (State.usedShow s u used) := by
  unfold State.usedShow
  with_reducible repeat' first
    | assumption | apply ite_keeps | apply State.irq_keeps | apply State.wrf_keeps | apply State.wrb_keeps
    | apply State.peak_keeps
    | (refine Keeps.upd ?_; first | assumption | apply State.irq_keeps | apply State.wrf_keeps | apply State.wrb_keeps | apply State.peak_keeps)

theorem State.chanShow_keeps {z : State} {s : State} {n} (hz : Keeps z s) :
    Keeps z (State.chanShow s n) := by
  unfold State.chanShow
  with_reducible repeat' first
    | assumption | apply State.portShow_keeps | apply State.setStat_keeps | apply State.usedShow_keeps
    | apply State.wrb_keeps

theorem State.dmkShow_keeps {z : State} {s : State} (hz : Keeps z s) :
    Keeps z (State.dmkShow s) := by
  unfold State.dmkShow
  with_reducible repeat' first
    | assumption | apply ite_keeps | apply State.irq_keeps | apply State.wrf_keeps | apply State.wrb_keeps
    | apply State.peak_keeps | apply foldl_keeps_fst | apply foldl_keeps | intro _ _ _ _ | intro _ _ _ | intro _ _
    | intro _
    | (refine Keeps.upd ?_; first | assumption | apply State.irq_keeps | apply State.wrf_keeps | apply State.wrb_keeps | apply State.peak_keeps)

theorem State.renderLeft_keeps {z : State} {s : State} {u} {j} (hz : Keeps z s) :
    Keeps z (State.renderLeft s u j) := by
  unfold State.renderLeft
  with_reducible repeat' first
    | assumption | apply ite_keeps | apply State.dmkShow_keeps
    | (refine Keeps.upd ?_; first | assumption | apply State.dmkShow_keeps)

theorem State.stnClose_keeps {z : State} {s : State} {k} {sj} (hz : Keeps z s) :
    Keeps z (State.stnClose s k sj) := by
  unfold State.stnClose
  with_reducible repeat' first
    | assumption
    | (extract_lets +onlyGivenNames x; refine (fun hx : Keeps z x => ?_) ?_; rotate_left; subst x; rotate_left; try clear_value x)
    | (extract_lets +onlyGivenNames x; clear_value x) | extract_lets | apply ite_keeps | apply State.usedShow_keeps
    | apply State.renderLeft_keeps | apply State.setStnJob_keeps | apply State.cntW_keeps | apply State.wrf_keeps
    | apply State.qPush_keeps
    | (refine Keeps.upd ?_; first | assumption | apply State.usedShow_keeps | apply State.renderLeft_keeps | apply State.setStnJob_keeps | apply State.cntW_keeps | apply State.wrf_keeps | apply State.qPush_keeps)
    | split | (refine Keeps.of_fst (by assumption) ?_) | (refine Keeps.of_snd (by assumption) ?_)

theorem State.stnCount_keeps {z : State} {s : State} {k} {sj} {v} {exit} (hz : Keeps z s) :
    Keeps z (State.stnCount s k sj v exit) := by
  unfold State.stnCount
  with_reducible repeat' first
    | assumption | apply State.setStnJob_keeps

theorem State.setDamperPause_keeps {z : State} {s : State} {n} {on} (hz : Keeps z s) :
    Keeps z (State.setDamperPause s n on) := by
  unfold State.setDamperPause
  with_reducible repeat' first
    | assumption | apply State.wrb_keeps

theorem State.markPauseStart_keeps {z : State} {s : State} {n} (hz : Keeps z s) :
    Keeps z (State.markPauseStart s n) := by
  unfold State.markPauseStart
  with_reducible repeat' first
    | assumption | apply ite_keeps | apply State.setDamperPause_keeps
    | (refine Keeps.upd ?_; first | assumption | apply State.setDamperPause_keeps)

theorem State.ringRelease_keeps {z : State} {s : State} {n} {tag} (hz : Keeps z s) :
    Keeps z (State.ringRelease s n tag) := by
  unfold State.ringRelease
  with_reducible repeat' first
    | assumption | apply State.updRing_keeps

theorem State.panicUpdate_keeps {z : State} {s : State} (hz : Keeps z s) :
    Keeps z (State.panicUpdate s) := by
  unfold State.panicUpdate
  with_reducible repeat' first
    | assumption | apply ite_keeps | apply State.cnt_keeps | apply State.wrb_keeps | apply foldl_keeps_fst
    | apply foldl_keeps | intro _ _ _ _ | intro _ _ _ | intro _ _ | intro _
    | (refine Keeps.upd ?_; first | assumption | apply State.cnt_keeps | apply State.wrb_keeps)

theorem State.postVerdict_keeps {z : State} {s : State} {n} {e} (hz : Keeps z s) :
    Keeps z (State.postVerdict s n e).1 := by
  unfold State.postVerdict
  with_reducible repeat' first
    | assumption | (extract_lets +onlyGivenNames x; clear_value x) | extract_lets | apply ite_keeps
    | apply State.cnt_keeps | apply State.irq_keeps | apply State.setTrk_keeps
    | (refine Keeps.upd ?_; first | assumption | apply State.cnt_keeps | apply State.irq_keeps | apply State.setTrk_keeps)
    | split | (refine Keeps.of_fst (by assumption) ?_) | (refine Keeps.of_snd (by assumption) ?_)

theorem State.leaveOut_keeps {z : State} {s : State} {n} {e} {reserved} (hz : Keeps z s) :
    Keeps z (State.leaveOut s n e reserved).1 := by
  unfold State.leaveOut
  with_reducible repeat' first
    | assumption
    | (extract_lets +onlyGivenNames x; refine (fun hx : Keeps z x => ?_) ?_; rotate_left; subst x; rotate_left; try clear_value x)
    | (extract_lets +onlyGivenNames x; clear_value x) | extract_lets | apply ite_keeps | apply State.ringRelease_keeps
    | apply State.panicUpdate_keeps | apply State.cntW_keeps | apply State.unrecorded_keeps
    | apply State.qReserve_keeps | apply State.recHand_keeps | apply State.cnt_keeps | apply State.irq_keeps
    | apply State.qPush_keeps | apply State.postVerdict_keeps
    | (refine Keeps.upd ?_; first | assumption | apply State.ringRelease_keeps | apply State.panicUpdate_keeps | apply State.cntW_keeps | apply State.unrecorded_keeps | apply State.qReserve_keeps | apply State.recHand_keeps | apply State.cnt_keeps | apply State.irq_keeps | apply State.qPush_keeps | apply State.postVerdict_keeps)
    | split | (refine Keeps.of_fst (by assumption) ?_) | (refine Keeps.of_snd (by assumption) ?_)

theorem State.leaveJob_keeps {z : State} {s : State} {n} {j} {st} (hz : Keeps z s) :
    Keeps z (State.leaveJob s n j st).1 := by
  unfold State.leaveJob
  with_reducible repeat' first
    | assumption | apply ite_keeps | apply State.chanShow_keeps | apply State.updLas_keeps | apply State.wrb_keeps
    | apply State.markPauseStart_keeps | apply State.updChan_keeps | apply State.engineIdle_keeps
    | apply State.renderLeft_keeps | apply State.setJob_keeps | apply State.leaveOut_keeps
    | (refine Keeps.upd ?_; first | assumption | apply State.chanShow_keeps | apply State.updLas_keeps | apply State.wrb_keeps | apply State.markPauseStart_keeps | apply State.updChan_keeps | apply State.engineIdle_keeps | apply State.renderLeft_keeps | apply State.setJob_keeps | apply State.leaveOut_keeps)

theorem State.addCond_keeps {z : State} {s : State} {n} {j} {c} (hz : Keeps z s) :
    Keeps z (State.addCond s n j c) := by
  unfold State.addCond
  with_reducible repeat' first
    | assumption | apply State.updJob_keeps

theorem State.stnInhibit_keeps {z : State} {a0} {a1} {a2} {a3 : State} (hz : Keeps z a3) :
    Keeps z (State.stnInhibit a0 a1 a2 a3) := by
  induction a0 generalizing a1 a2 a3 with
  | zero =>
    unfold State.stnInhibit
    with_reducible repeat' first
      | assumption | apply ite_keeps | apply State.stnClose_keeps | apply State.stnCount_keeps
      | apply State.leaveJob_keeps | apply State.addCond_keeps | apply forN_keeps | apply forL_keeps
      | apply forL_keeps_fst | intro _ _ _ _ | intro _ _ _ | intro _ _ | intro _
      | (refine Keeps.upd ?_; first | assumption | apply State.stnClose_keeps | apply State.stnCount_keeps | apply State.leaveJob_keeps | apply State.addCond_keeps | apply forN_keeps | apply forL_keeps)
  | succ _ ih =>
    unfold State.stnInhibit
    with_reducible repeat' first
      | assumption | apply ite_keeps | apply State.stnClose_keeps | apply State.stnCount_keeps
      | apply State.leaveJob_keeps | apply State.addCond_keeps | apply forN_keeps | apply forL_keeps
      | apply forL_keeps_fst | apply ih | intro _ _ _ _ | intro _ _ _ | intro _ _ | intro _
      | (refine Keeps.upd ?_; first | assumption | apply State.stnClose_keeps | apply State.stnCount_keeps | apply State.leaveJob_keeps | apply State.addCond_keeps | apply forN_keeps | apply forL_keeps)

theorem State.stnLeft_keeps {z : State} {a0} {a1} {a2} {a3} {a4} {a5 : State} (hz : Keeps z a5) :
    Keeps z (State.stnLeft a0 a1 a2 a3 a4 a5) := by
  induction a0 generalizing a1 a2 a3 a4 a5 with
  | zero =>
    unfold State.stnLeft
    with_reducible repeat' first
      | assumption
      | (extract_lets +onlyGivenNames x; refine (fun hx : Keeps z x => ?_) ?_; rotate_left; subst x; rotate_left; try clear_value x)
      | (extract_lets +onlyGivenNames x; clear_value x) | extract_lets | apply ite_keeps | apply State.stnClose_keeps
      | apply State.stnInhibit_keeps | apply State.stnCount_keeps
      | (refine Keeps.upd ?_; first | assumption | apply State.stnClose_keeps | apply State.stnInhibit_keeps | apply State.stnCount_keeps)
      | split | (refine Keeps.of_fst (by assumption) ?_) | (refine Keeps.of_snd (by assumption) ?_)
  | succ _ ih =>
    unfold State.stnLeft
    with_reducible repeat' first
      | assumption
      | (extract_lets +onlyGivenNames x; refine (fun hx : Keeps z x => ?_) ?_; rotate_left; subst x; rotate_left; try clear_value x)
      | (extract_lets +onlyGivenNames x; clear_value x) | extract_lets | apply ite_keeps | apply State.stnClose_keeps
      | apply State.stnInhibit_keeps | apply State.stnCount_keeps | apply ih
      | (refine Keeps.upd ?_; first | assumption | apply State.stnClose_keeps | apply State.stnInhibit_keeps | apply State.stnCount_keeps)
      | split | (refine Keeps.of_fst (by assumption) ?_) | (refine Keeps.of_snd (by assumption) ?_)

theorem State.jobLeave_keeps {z : State} {s : State} {n} {j} {st} (hz : Keeps z s) :
    Keeps z (State.jobLeave s n j st) := by
  unfold State.jobLeave
  with_reducible repeat' first
    | assumption | (extract_lets +onlyGivenNames x; clear_value x) | extract_lets | apply ite_keeps
    | apply State.stnLeft_keeps | apply State.leaveJob_keeps
    | (refine Keeps.upd ?_; first | assumption | apply State.stnLeft_keeps | apply State.leaveJob_keeps) | split
    | (refine Keeps.of_fst (by assumption) ?_) | (refine Keeps.of_snd (by assumption) ?_)

theorem State.chanEvent_keeps {z : State} {s : State} {n} {kind} {j} {seq} (hz : Keeps z s) :
    Keeps z (State.chanEvent s n kind j seq) := by
  unfold State.chanEvent
  with_reducible repeat' first
    | assumption | apply State.qPush_keeps | apply State.updSeq_keeps

theorem State.condAll_keeps {z : State} {s : State} {c} (hz : Keeps z s) :
    Keeps z (State.condAll s c) := by
  unfold State.condAll
  with_reducible repeat' first
    | assumption | apply ite_keeps | apply State.addCond_keeps | apply forN_keeps | apply forL_keeps
    | apply forL_keeps_fst | intro _ _ _ _ | intro _ _ _ | intro _ _ | intro _
    | (refine Keeps.upd ?_; first | assumption | apply State.addCond_keeps | apply forN_keeps | apply forL_keeps)

theorem State.abortChannelJobs_keeps {z : State} {s : State} {n} {dev} (hz : Keeps z s) :
    Keeps z (State.abortChannelJobs s n dev) := by
  unfold State.abortChannelJobs
  with_reducible repeat' first
    | assumption
    | (extract_lets +onlyGivenNames x; refine (fun hx : Keeps z x => ?_) ?_; rotate_left; subst x; rotate_left; try clear_value x)
    | (extract_lets +onlyGivenNames x; clear_value x) | extract_lets | apply ite_keeps | apply State.engineIdle_keeps
    | apply State.galvoStop_keeps | apply State.chanShow_keeps | apply State.jobLeave_keeps
    | apply State.addCond_keeps | apply State.updSeq_keeps | apply State.chanEvent_keeps | apply State.condAll_keeps
    | apply forL_keeps | apply forL_keeps_fst | intro _ _ _ _ | intro _ _ _ | intro _ _ | intro _
    | (refine Keeps.upd ?_; first | assumption | apply State.engineIdle_keeps | apply State.galvoStop_keeps | apply State.chanShow_keeps | apply State.jobLeave_keeps | apply State.addCond_keeps | apply State.updSeq_keeps | apply State.chanEvent_keeps | apply State.condAll_keeps | apply forL_keeps)
    | split | (refine Keeps.of_fst (by assumption) ?_) | (refine Keeps.of_snd (by assumption) ?_)

theorem State.condMarking_keeps {z : State} {s : State} {n} {c} (hz : Keeps z s) :
    Keeps z (State.condMarking s n c) := by
  unfold State.condMarking
  with_reducible repeat' first
    | assumption | apply ite_keeps | apply State.addCond_keeps | apply forL_keeps | apply forL_keeps_fst
    | intro _ _ _ _ | intro _ _ _ | intro _ _ | intro _
    | (refine Keeps.upd ?_; first | assumption | apply State.addCond_keeps | apply forL_keeps)

theorem State.armUpdate_keeps {z : State} {s : State} {id} (hz : Keeps z s) :
    Keeps z (State.armUpdate s id) := by
  unfold State.armUpdate
  with_reducible repeat' first
    | assumption | apply ite_keeps | apply State.setJob_keeps | apply forN_keeps | apply forL_keeps
    | apply forL_keeps_fst | intro _ _ _ _ | intro _ _ _ | intro _ _ | intro _
    | (refine Keeps.upd ?_; first | assumption | apply State.setJob_keeps | apply forN_keeps | apply forL_keeps)

theorem State.laserPark_keeps {z : State} {s : State} {n} (hz : Keeps z s) :
    Keeps z (State.laserPark s n) := by
  unfold State.laserPark
  with_reducible repeat' first
    | assumption | apply State.setLas_keeps

theorem State.jobLeaveWith_keeps {z : State} {s : State} {n} {j} {c} {st} (hz : Keeps z s) :
    Keeps z (State.jobLeaveWith s n j c st) := by
  unfold State.jobLeaveWith
  with_reducible repeat' first
    | assumption | apply State.addCond_keeps | apply State.jobLeave_keeps

theorem State.chanIdleState_keeps {z : State} {s : State} {n} (hz : Keeps z s) :
    Keeps z (State.chanIdleState s n) := by
  unfold State.chanIdleState
  with_reducible repeat' first
    | assumption | apply State.chanShow_keeps

theorem State.inhibitJobs_keeps {z : State} {s : State} {n} (hz : Keeps z s) :
    Keeps z (State.inhibitJobs s n) := by
  unfold State.inhibitJobs
  with_reducible repeat' first
    | assumption | apply ite_keeps | apply State.jobLeaveWith_keeps | apply forL_keeps | apply forL_keeps_fst
    | intro _ _ _ _ | intro _ _ _ | intro _ _ | intro _
    | (refine Keeps.upd ?_; first | assumption | apply State.jobLeaveWith_keeps | apply forL_keeps)

theorem State.fired_keeps {z : State} {s : State} {n} (hz : Keeps z s) :
    Keeps z (State.fired s n) := by
  unfold State.fired
  with_reducible repeat' first
    | assumption | apply State.updChan_keeps | apply State.wrb_keeps

theorem State.reverseJob_keeps {z : State} {s : State} {n} {j} (hz : Keeps z s) :
    Keeps z (State.reverseJob s n j) := by
  unfold State.reverseJob
  with_reducible repeat' first
    | assumption | apply ite_keeps | apply State.laserPark_keeps | apply State.jobLeaveWith_keeps
    | apply State.addCond_keeps | apply State.updTherm_keeps
    | (refine Keeps.upd ?_; first | assumption | apply State.laserPark_keeps | apply State.jobLeaveWith_keeps | apply State.addCond_keeps | apply State.updTherm_keeps)

theorem State.reverseJobs_keeps {z : State} {s : State} {e} (hz : Keeps z s) :
    Keeps z (State.reverseJobs s e) := by
  unfold State.reverseJobs
  with_reducible repeat' first
    | assumption | apply ite_keeps | apply State.reverseJob_keeps | apply State.updSeq_keeps | apply forN_keeps
    | apply forL_keeps | apply forL_keeps_fst | intro _ _ _ _ | intro _ _ _ | intro _ _ | intro _
    | (refine Keeps.upd ?_; first | assumption | apply State.reverseJob_keeps | apply State.updSeq_keeps | apply forN_keeps | apply forL_keeps)

theorem State.jobEvent_keeps {z : State} {s : State} {n} {kind} {j} (hz : Keeps z s) :
    Keeps z (State.jobEvent s n kind j) := by
  unfold State.jobEvent
  with_reducible repeat' first
    | assumption | apply State.chanEvent_keeps

theorem State.linesOver_keeps {z : State} {s : State} (hz : Keeps z s) :
    Keeps z (State.linesOver s) := by
  unfold State.linesOver
  with_reducible repeat' first
    | assumption | apply ite_keeps | apply State.lineOff_keeps | apply forL_keeps | apply forL_keeps_fst
    | intro _ _ _ _ | intro _ _ _ | intro _ _ | intro _
    | (refine Keeps.upd ?_; first | assumption | apply State.lineOff_keeps | apply forL_keeps)

end Sys2Proof.Machine
end

