-- ==== Sys2Proof/Laws/KeepsCuts.lean ====
section
/-! SUPPORT. What every operation of Machine/Cuts.lean keeps (Laws/Keeps.lean). -/
-- one script for every shape of goal: what a goal does not need is not reported
set_option linter.all false
namespace Sys2Proof.Machine

theorem State.uncut_keeps {z : State} {s : State} {n} (hz : Keeps z s) :
    Keeps z (State.uncut s n) := by
  unfold State.uncut
  with_reducible repeat' first
    | assumption | apply State.wrb_keeps | apply State.wrf_keeps

theorem State.setForces_keeps {z : State} {s : State} {n} {l} (hz : Keeps z s) :
    Keeps z (State.setForces s n l) := by
  unfold State.setForces
  with_reducible repeat' first
    | assumption | apply ite_keeps | (refine Keeps.upd ?_; first | assumption)

theorem State.unforce_keeps {z : State} {s : State} {n} {cause} (hz : Keeps z s) :
    Keeps z (State.unforce s n cause) := by
  unfold State.unforce
  with_reducible repeat' first
    | assumption | apply ite_keeps | apply State.uncut_keeps | apply State.setForces_keeps
    | (refine Keeps.upd ?_; first | assumption | apply State.uncut_keeps | apply State.setForces_keeps)

theorem State.cut_keeps {z : State} {s : State} {n} {cause} (hz : Keeps z s) :
    Keeps z (State.cut s n cause) := by
  unfold State.cut
  with_reducible repeat' first
    | assumption | apply ite_keeps | apply State.irq_keeps | apply State.wrf_keeps | apply State.wrb_keeps
    | apply State.lineOff_keeps | apply State.gateSet_keeps
    | (refine Keeps.upd ?_; first | assumption | apply State.irq_keeps | apply State.wrf_keeps | apply State.wrb_keeps | apply State.lineOff_keeps | apply State.gateSet_keeps)

theorem State.force_keeps {z : State} {s : State} {n} {cause} (hz : Keeps z s) :
    Keeps z (State.force s n cause) := by
  unfold State.force
  with_reducible repeat' first
    | assumption | apply ite_keeps | apply State.setForces_keeps | apply State.cut_keeps
    | (refine Keeps.upd ?_; first | assumption | apply State.setForces_keeps | apply State.cut_keeps)

end Sys2Proof.Machine
end

