-- ==== Sys2Proof/Laws/KeepsThermal.lean ====
section
/-! SUPPORT. What every operation of Machine/Thermal.lean keeps (Laws/Keeps.lean). -/
-- one script for every shape of goal: what a goal does not need is not reported
set_option linter.all false
namespace Sys2Proof.Machine

theorem State.auditCfgWrite_keeps {z : State} {s : State} {n} {v} (hz : Keeps z s) :
    Keeps z (State.auditCfgWrite s n v) := by
  unfold State.auditCfgWrite
  with_reducible repeat' first
    | assumption | apply ite_keeps | apply State.wrf_keeps | apply State.updTherm_keeps | apply State.plainWrite_keeps
    | (refine Keeps.upd ?_; first | assumption | apply State.wrf_keeps | apply State.updTherm_keeps | apply State.plainWrite_keeps)

theorem State.deadShow_keeps {z : State} {s : State} {n} (hz : Keeps z s) :
    Keeps z (State.deadShow s n) := by
  unfold State.deadShow
  with_reducible repeat' first
    | assumption | apply State.wrf_keeps

theorem State.trimSet_keeps {z : State} {s : State} {n} {d} {v} (hz : Keeps z s) :
    Keeps z (State.trimSet s n d v) := by
  unfold State.trimSet
  with_reducible repeat' first
    | assumption | apply State.wrs_keeps | apply State.updTherm_keeps

theorem State.deadList_keeps {z : State} {s : State} {n} {d} (hz : Keeps z s) :
    Keeps z (State.deadList s n d) := by
  unfold State.deadList
  with_reducible repeat' first
    | assumption | (extract_lets +onlyGivenNames x; clear_value x) | extract_lets | apply ite_keeps
    | apply State.wr_keeps | apply State.irq_keeps | apply State.wrb_keeps
    | (refine Keeps.upd ?_; first | assumption | apply State.wr_keeps | apply State.irq_keeps | apply State.wrb_keeps)
    | split | (refine Keeps.of_fst (by assumption) ?_) | (refine Keeps.of_snd (by assumption) ?_)

theorem State.auditPassEnd_keeps {z : State} {s : State} {n} {readings} (hz : Keeps z s) :
    Keeps z (State.auditPassEnd s n readings) := by
  unfold State.auditPassEnd
  with_reducible repeat' first
    | assumption | apply ite_keeps | apply State.deadShow_keeps | apply State.irq_keeps | apply State.cnt_keeps
    | apply State.trimSet_keeps | apply State.wrf_keeps | apply State.deadList_keeps | apply forL_keeps
    | apply forL_keeps_fst | apply foldl_keeps_fst | apply foldl_keeps | intro _ _ _ _ | intro _ _ _ | intro _ _
    | intro _
    | (refine Keeps.upd ?_; first | assumption | apply State.deadShow_keeps | apply State.irq_keeps | apply State.cnt_keeps | apply State.trimSet_keeps | apply State.wrf_keeps | apply State.deadList_keeps | apply forL_keeps)

theorem State.cnsShow_keeps {z : State} {s : State} {n} (hz : Keeps z s) :
    Keeps z (State.cnsShow s n) := by
  unfold State.cnsShow
  with_reducible repeat' first
    | assumption | apply ite_keeps | apply State.soot_keeps | apply State.irq_keeps | apply State.wrb_keeps
    | (refine Keeps.upd ?_; first | assumption | apply State.soot_keeps | apply State.irq_keeps | apply State.wrb_keeps)

theorem State.lineTShow_keeps {z : State} {s : State} {n} (hz : Keeps z s) :
    Keeps z (State.lineTShow s n) := by
  unfold State.lineTShow
  with_reducible repeat' first
    | assumption | apply State.wrf_keeps

theorem State.hpWritten_keeps {z : State} {s : State} {n} (hz : Keeps z s) :
    Keeps z (State.hpWritten s n) := by
  unfold State.hpWritten
  with_reducible repeat' first
    | assumption | apply State.lineTShow_keeps | apply State.deadShow_keeps

theorem State.portConfig_keeps {z : State} {s : State} {n} (hz : Keeps z s) :
    Keeps z (State.portConfig s n) := by
  unfold State.portConfig
  with_reducible repeat' first
    | assumption | apply State.soot_keeps | apply State.irq_keeps

theorem State.thermSafe_keeps {z : State} {s : State} {n} (hz : Keeps z s) :
    Keeps z (State.thermSafe s n) := by
  unfold State.thermSafe
  with_reducible repeat' first
    | assumption | apply State.thermIdle_keeps

theorem State.thermSafeEnd_keeps {z : State} {s : State} {n} (hz : Keeps z s) :
    Keeps z (State.thermSafeEnd s n) := by
  unfold State.thermSafeEnd
  with_reducible repeat' first
    | assumption | apply ite_keeps | apply State.wrb_keeps
    | (refine Keeps.upd ?_; first | assumption | apply State.wrb_keeps)

theorem State.tagWritebackStart_keeps {z : State} {s : State} {n} (hz : Keeps z s) :
    Keeps z (State.tagWritebackStart s n) := by
  unfold State.tagWritebackStart
  with_reducible repeat' first
    | assumption | apply ite_keeps | apply State.setTag_keeps | apply State.cnsShow_keeps
    | (refine Keeps.upd ?_; first | assumption | apply State.setTag_keeps | apply State.cnsShow_keeps)

theorem State.tagAuthStart_keeps {z : State} {s : State} {n} (hz : Keeps z s) :
    Keeps z (State.tagAuthStart s n) := by
  unfold State.tagAuthStart
  with_reducible repeat' first
    | assumption | apply ite_keeps | apply State.wrf_keeps | apply State.cnsShow_keeps | apply State.updTag_keeps
    | apply State.drawBytes_keeps
    | (refine Keeps.upd ?_; first | assumption | apply State.wrf_keeps | apply State.cnsShow_keeps | apply State.updTag_keeps | apply State.drawBytes_keeps)

theorem State.cnsCmdWrite_keeps {z : State} {s : State} {n} {v} (hz : Keeps z s) :
    Keeps z (State.cnsCmdWrite s n v) := by
  unfold State.cnsCmdWrite
  with_reducible repeat' first
    | assumption | apply ite_keeps | apply State.tagWritebackStart_keeps | apply State.tagAuthStart_keeps
    | (refine Keeps.upd ?_; first | assumption | apply State.tagWritebackStart_keeps | apply State.tagAuthStart_keeps)

theorem State.deadDotShift_keeps {z : State} {s : State} {n} {j} (hz : Keeps z s) :
    Keeps z (State.deadDotShift s n j) := by
  unfold State.deadDotShift
  with_reducible repeat' first
    | assumption | apply ite_keeps | apply State.wrs_keeps | apply State.updTherm_keeps | apply State.cnt_keeps
    | apply State.addCond_keeps | apply forL_keeps | apply forL_keeps_fst | intro _ _ _ _ | intro _ _ _ | intro _ _
    | intro _
    | (refine Keeps.upd ?_; first | assumption | apply State.wrs_keeps | apply State.updTherm_keeps | apply State.cnt_keeps | apply State.addCond_keeps | apply forL_keeps)

theorem State.fireLine_keeps {z : State} {s : State} {n} {l} {pinBad} (hz : Keeps z s) :
    Keeps z (State.fireLine s n l pinBad) := by
  unfold State.fireLine
  with_reducible repeat' first
    | assumption | apply ite_keeps | apply State.soot_keeps | apply State.condMarking_keeps | apply State.wrb_keeps
    | apply State.wearAdd_keeps | apply State.cnt_keeps | apply State.cntW_keeps | apply State.fired_keeps
    | apply State.setTherm_keeps | apply foldl_keeps_fst | apply foldl_keeps | intro _ _ _ _ | intro _ _ _ | intro _ _
    | intro _
    | (refine Keeps.upd ?_; first | assumption | apply State.soot_keeps | apply State.condMarking_keeps | apply State.wrb_keeps | apply State.wearAdd_keeps | apply State.cnt_keeps | apply State.cntW_keeps | apply State.fired_keeps | apply State.setTherm_keeps)

theorem State.thermTrigger_keeps {z : State} {s : State} {n} {t} {pinBad} (hz : Keeps z s) :
    Keeps z (State.thermTrigger s n t pinBad) := by
  unfold State.thermTrigger
  with_reducible repeat' first
    | assumption | (extract_lets +onlyGivenNames x; clear_value x) | extract_lets | apply ite_keeps
    | apply State.addCond_keeps | apply State.cnt_keeps | apply State.updTherm_keeps | apply State.fireLine_keeps
    | (refine Keeps.upd ?_; first | assumption | apply State.addCond_keeps | apply State.cnt_keeps | apply State.updTherm_keeps | apply State.fireLine_keeps)
    | split | (refine Keeps.of_fst (by assumption) ?_) | (refine Keeps.of_snd (by assumption) ?_)

theorem State.embCopyBack_keeps {z : State} {s : State} {n} (hz : Keeps z s) :
    Keeps z (State.embCopyBack s n) := by
  unfold State.embCopyBack
  with_reducible repeat' first
    | assumption | apply ite_keeps | apply State.wr_keeps | apply forL_keeps | apply forL_keeps_fst | intro _ _ _ _
    | intro _ _ _ | intro _ _ | intro _
    | (refine Keeps.upd ?_; first | assumption | apply State.wr_keeps | apply forL_keeps)

theorem State.embSwap_keeps {z : State} {s : State} {n} (hz : Keeps z s) :
    Keeps z (State.embSwap s n) := by
  unfold State.embSwap
  with_reducible repeat' first
    | assumption | apply State.wrb_keeps | apply State.cnt_keeps | apply State.updTherm_keeps | apply forL_keeps
    | apply forL_keeps_fst

theorem State.embCmdWrite_keeps {z : State} {s : State} {n} {v} (hz : Keeps z s) :
    Keeps z (State.embCmdWrite s n v) := by
  unfold State.embCmdWrite
  with_reducible repeat' first
    | assumption | apply ite_keeps | apply State.embCopyBack_keeps | apply State.embSwap_keeps | apply State.wrb_keeps
    | (refine Keeps.upd ?_; first | assumption | apply State.embCopyBack_keeps | apply State.embSwap_keeps | apply State.wrb_keeps)

theorem State.sramCe_keeps {z : State} {s : State} (hz : Keeps z s) :
    Keeps z (State.sramCe s) := by
  unfold State.sramCe
  with_reducible repeat' first
    | assumption | apply ite_keeps | apply State.cnt_keeps | apply State.soot_keeps
    | (refine Keeps.upd ?_; first | assumption | apply State.cnt_keeps | apply State.soot_keeps)

theorem State.jobFloor_keeps {z : State} {s : State} {n} {j} (hz : Keeps z s) :
    Keeps z (State.jobFloor s n j) := by
  unfold State.jobFloor
  with_reducible repeat' first
    | assumption | apply State.updTherm_keeps | apply State.wrb_keeps | apply State.addCond_keeps
    | apply State.updJob_keeps

theorem State.embCompute_keeps {z : State} {s : State} {n} {j} {ofs} {table} {ring} (hz : Keeps z s) :
    Keeps z (State.embCompute s n j ofs table ring) := by
  unfold State.embCompute
  with_reducible repeat' first
    | assumption
    | (extract_lets +onlyGivenNames x; refine (fun hx : Keeps z x => ?_) ?_; rotate_left; subst x; rotate_left; try clear_value x)
    | (extract_lets +onlyGivenNames x; clear_value x) | extract_lets | apply ite_keeps | apply State.setTherm_keeps
    | apply State.addCond_keeps | apply State.soot_keeps | apply State.cnt_keeps | apply State.sramCe_keeps
    | apply State.jobFloor_keeps | apply State.deadDotShift_keeps
    | (refine Keeps.upd ?_; first | assumption | apply State.setTherm_keeps | apply State.addCond_keeps | apply State.soot_keeps | apply State.cnt_keeps | apply State.sramCe_keeps | apply State.jobFloor_keeps | apply State.deadDotShift_keeps)
    | split | (refine Keeps.of_fst (by assumption) ?_) | (refine Keeps.of_snd (by assumption) ?_)

theorem State.headLevel_keeps {z : State} {s : State} {n} {k} {th} {temp} {hyst} (hz : Keeps z s) :
    Keeps z (State.headLevel s n k th temp hyst) := by
  unfold State.headLevel
  with_reducible repeat' first
    | assumption | apply ite_keeps | apply State.jobFloor_keeps | apply State.wrb_keeps | apply State.irq_keeps
    | apply State.setTherm_keeps | apply forL_keeps | apply forL_keeps_fst | intro _ _ _ _ | intro _ _ _ | intro _ _
    | intro _
    | (refine Keeps.upd ?_; first | assumption | apply State.jobFloor_keeps | apply State.wrb_keeps | apply State.irq_keeps | apply State.setTherm_keeps | apply forL_keeps)

theorem State.headSoot_keeps {z : State} {s : State} {n} {b} (hz : Keeps z s) :
    Keeps z (State.headSoot s n b) := by
  unfold State.headSoot
  with_reducible repeat' first
    | assumption | apply ite_keeps | apply State.soot_keeps | apply State.updTherm_keeps
    | (refine Keeps.upd ?_; first | assumption | apply State.soot_keeps | apply State.updTherm_keeps)

theorem State.tagWritebackAll_keeps {z : State} {s : State} (hz : Keeps z s) :
    Keeps z (State.tagWritebackAll s) := by
  unfold State.tagWritebackAll
  with_reducible repeat' first
    | assumption | apply ite_keeps | apply State.tagWritebackStart_keeps | apply forN_keeps | intro _ _ _ _
    | intro _ _ _ | intro _ _ | intro _
    | (refine Keeps.upd ?_; first | assumption | apply State.tagWritebackStart_keeps | apply forN_keeps)

theorem State.ribbonCount_keeps {z : State} {s : State} {p} {d} (hz : Keeps z s) :
    Keeps z (State.ribbonCount s p d) := by
  unfold State.ribbonCount
  with_reducible repeat' first
    | assumption | apply ite_keeps | apply State.cnsShow_keeps | apply State.tagWritebackStart_keeps
    | apply State.wr_keeps | apply State.wrf_keeps | apply State.setTag_keeps | apply forN_keeps | intro _ _ _ _
    | intro _ _ _ | intro _ _ | intro _
    | (refine Keeps.upd ?_; first | assumption | apply State.cnsShow_keeps | apply State.tagWritebackStart_keeps | apply State.wr_keeps | apply State.wrf_keeps | apply State.setTag_keeps | apply forN_keeps)

theorem State.tagAccept_keeps {z : State} {s : State} {n} {k} {r} (hz : Keeps z s) :
    Keeps z (State.tagAccept s n k r) := by
  unfold State.tagAccept
  with_reducible repeat' first
    | assumption | apply ite_keeps | apply State.cnt_keeps | apply State.irq_keeps | apply State.cnsShow_keeps
    | apply State.wrb_keeps | apply State.wrf_keeps | apply State.wr_keeps | apply State.updTag_keeps
    | (refine Keeps.upd ?_; first | assumption | apply State.cnt_keeps | apply State.irq_keeps | apply State.cnsShow_keeps | apply State.wrb_keeps | apply State.wrf_keeps | apply State.wr_keeps | apply State.updTag_keeps)

theorem State.tagAuthFail_keeps {z : State} {s : State} {n} {b} (hz : Keeps z s) :
    Keeps z (State.tagAuthFail s n b) := by
  unfold State.tagAuthFail
  with_reducible repeat' first
    | assumption | apply State.cnt_keeps | apply State.soot_keeps | apply State.irq_keeps | apply State.cnsShow_keeps
    | apply State.updTag_keeps | apply State.wrf_keeps

theorem State.thermMarkBegin_keeps {z : State} {s : State} {n} {j} (hz : Keeps z s) :
    Keeps z (State.thermMarkBegin s n j) := by
  unfold State.thermMarkBegin
  with_reducible repeat' first
    | assumption | apply State.updTherm_keeps | apply State.wrb_keeps

theorem execTagWritebackRetry_keeps {z : State} {n} {s : State} (hz : Keeps z s) :
    KeepsO z (execTagWritebackRetry n s) := by
  unfold execTagWritebackRetry
  with_reducible repeat' first
    | assumption | apply ite_keeps | apply next_keepsO | apply ite_keepsO | apply refused_keepsO | apply fault_keepsO
    | apply State.setTag_keeps | apply State.tagWritebackStart_keeps
    | (refine Keeps.upd ?_; first | assumption | apply State.setTag_keeps | apply State.tagWritebackStart_keeps)

theorem execTagWritebackDone_keeps {z : State} {n} {ok} {s : State} (hz : Keeps z s) :
    KeepsO z (execTagWritebackDone n ok s) := by
  unfold execTagWritebackDone
  with_reducible repeat' first
    | assumption
    | (extract_lets +onlyGivenNames x; refine (fun hx : Keeps z x => ?_) ?_; rotate_left; subst x; rotate_left; try clear_value x)
    | (extract_lets +onlyGivenNames x; clear_value x) | extract_lets | apply ite_keeps | apply next_keepsO
    | apply ite_keepsO | apply refused_keepsO | apply fault_keepsO | apply State.soot_keeps
    | apply State.cnsShow_keeps | apply State.tagWritebackStart_keeps | apply State.wr_keeps | apply State.cnt_keeps
    | apply State.setTag_keeps
    | (refine Keeps.upd ?_; first | assumption | apply State.soot_keeps | apply State.cnsShow_keeps | apply State.tagWritebackStart_keeps | apply State.wr_keeps | apply State.cnt_keeps | apply State.setTag_keeps)
    | split | (refine Keeps.of_fst (by assumption) ?_) | (refine Keeps.of_snd (by assumption) ?_)

theorem execTagWriteback_keeps {z : State} {b} {n} {v} {s : State} (hz : Keeps z s) :
    KeepsO z (execTagWriteback b n v s) := by
  unfold execTagWriteback
  with_reducible repeat' first
    | assumption | apply ite_keeps | apply next_keepsO | apply ite_keepsO | apply refused_keepsO | apply fault_keepsO
    | apply State.cnsCmdWrite_keeps | apply busWrite_keeps | intro _ _ _ _ | intro _ _ _ | intro _ _ | intro _
    | (refine Keeps.upd ?_; first | assumption | apply State.cnsCmdWrite_keeps | apply busWrite_keeps)

theorem execTagAuthDone_keeps {z : State} {n} {reply} {s : State} (hz : Keeps z s) :
    KeepsO z (execTagAuthDone n reply s) := by
  unfold execTagAuthDone
  with_reducible repeat' first
    | assumption | (extract_lets +onlyGivenNames x; clear_value x) | extract_lets | apply ite_keeps
    | apply next_keepsO | apply ite_keepsO | apply refused_keepsO | apply fault_keepsO | apply State.tagAccept_keeps
    | apply State.wrb_keeps | apply State.tagAuthFail_keeps
    | (refine Keeps.upd ?_; first | assumption | apply State.tagAccept_keeps | apply State.wrb_keeps | apply State.tagAuthFail_keeps)
    | split | (refine Keeps.of_fst (by assumption) ?_) | (refine Keeps.of_snd (by assumption) ?_)

theorem execTagPresencePoll_keeps {z : State} {n} {uid} {s : State} (hz : Keeps z s) :
    KeepsO z (execTagPresencePoll n uid s) := by
  unfold execTagPresencePoll
  with_reducible repeat' first
    | assumption
    | (extract_lets +onlyGivenNames x; refine (fun hx : Keeps z x => ?_) ?_; rotate_left; subst x; rotate_left; try clear_value x)
    | (extract_lets +onlyGivenNames x; clear_value x) | extract_lets | apply ite_keeps | apply next_keepsO
    | apply ite_keepsO | apply refused_keepsO | apply fault_keepsO | apply State.irq_keeps
    | apply State.tagAuthStart_keeps | apply State.wr64_keeps | apply State.wrf_keeps | apply State.soot_keeps
    | apply State.cnsShow_keeps | apply State.wrb_keeps | apply State.updTag_keeps
    | (refine Keeps.upd ?_; first | assumption | apply State.irq_keeps | apply State.tagAuthStart_keeps | apply State.wr64_keeps | apply State.wrf_keeps | apply State.soot_keeps | apply State.cnsShow_keeps | apply State.wrb_keeps | apply State.updTag_keeps)
    | split | (refine Keeps.of_fst (by assumption) ?_) | (refine Keeps.of_snd (by assumption) ?_)

theorem execTagAuth_keeps {z : State} {b} {n} {v} {s : State} (hz : Keeps z s) :
    KeepsO z (execTagAuth b n v s) := by
  unfold execTagAuth
  with_reducible repeat' first
    | assumption | apply ite_keeps | apply next_keepsO | apply ite_keepsO | apply refused_keepsO | apply fault_keepsO
    | apply State.cnsCmdWrite_keeps | apply busWrite_keeps | intro _ _ _ _ | intro _ _ _ | intro _ _ | intro _
    | (refine Keeps.upd ?_; first | assumption | apply State.cnsCmdWrite_keeps | apply busWrite_keeps)

theorem execAuditRestart_keeps {z : State} {b} {n} {v} {s : State} (hz : Keeps z s) :
    KeepsO z (execAuditRestart b n v s) := by
  unfold execAuditRestart
  with_reducible repeat' first
    | assumption | apply ite_keeps | apply next_keepsO | apply ite_keepsO | apply refused_keepsO | apply fault_keepsO
    | apply State.auditCfgWrite_keeps | apply busWrite_keeps | intro _ _ _ _ | intro _ _ _ | intro _ _ | intro _
    | (refine Keeps.upd ?_; first | assumption | apply State.auditCfgWrite_keeps | apply busWrite_keeps)

theorem execAuditPulse_keeps {z : State} {n} {codes} {s : State} (hz : Keeps z s) :
    KeepsO z (execAuditPulse n codes s) := by
  unfold execAuditPulse
  with_reducible repeat' first
    | assumption | apply ite_keeps | apply next_keepsO | apply ite_keepsO | apply refused_keepsO | apply fault_keepsO
    | apply State.auditPassEnd_keeps | apply State.wrf_keeps | apply State.updTherm_keeps | apply State.setTherm_keeps
    | apply foldl_keeps_fst | apply foldl_keeps | intro _ _ _ _ | intro _ _ _ | intro _ _ | intro _
    | (refine Keeps.upd ?_; first | assumption | apply State.auditPassEnd_keeps | apply State.wrf_keeps | apply State.updTherm_keeps | apply State.setTherm_keeps)

theorem execHeadShutdownSoot_keeps {z : State} {n} {s : State} (hz : Keeps z s) :
    KeepsO z (execHeadShutdownSoot n s) := by
  unfold execHeadShutdownSoot
  with_reducible repeat' first
    | assumption | apply ite_keeps | apply next_keepsO | apply ite_keepsO | apply refused_keepsO | apply fault_keepsO
    | apply State.updTherm_keeps | apply State.soot_keeps | apply forL_keeps | apply forL_keeps_fst | intro _ _ _ _
    | intro _ _ _ | intro _ _ | intro _
    | (refine Keeps.upd ?_; first | assumption | apply State.updTherm_keeps | apply State.soot_keeps | apply forL_keeps)

theorem execHeadTempSample_keeps {z : State} {n} {code} {s : State} (hz : Keeps z s) :
    KeepsO z (execHeadTempSample n code s) := by
  unfold execHeadTempSample
  with_reducible repeat' first
    | assumption | apply ite_keeps | apply next_keepsO | apply ite_keepsO | apply refused_keepsO | apply fault_keepsO
    | apply State.headLevel_keeps | apply State.wrs_keeps | apply State.headSoot_keeps | apply State.wrb_keeps
    | apply State.setTherm_keeps | apply State.wrf_keeps
    | (refine Keeps.upd ?_; first | assumption | apply State.headLevel_keeps | apply State.wrs_keeps | apply State.headSoot_keeps | apply State.wrb_keeps | apply State.setTherm_keeps | apply State.wrf_keeps)

theorem execStrobeTimerExpiry_keeps {z : State} {n} {g} {held} {s : State} (hz : Keeps z s) :
    KeepsO z (execStrobeTimerExpiry n g held s) := by
  unfold execStrobeTimerExpiry
  with_reducible repeat' first
    | assumption | apply ite_keeps | apply next_keepsO | apply ite_keepsO | apply refused_keepsO | apply fault_keepsO
    | apply State.wrb_keeps | apply State.soot_keeps | apply State.condMarking_keeps
    | (refine Keeps.upd ?_; first | assumption | apply State.wrb_keeps | apply State.soot_keeps | apply State.condMarking_keeps)

theorem execEmberCopyBack_keeps {z : State} {b} {n} {v} {s : State} (hz : Keeps z s) :
    KeepsO z (execEmberCopyBack b n v s) := by
  unfold execEmberCopyBack
  with_reducible repeat' first
    | assumption | apply ite_keeps | apply next_keepsO | apply ite_keepsO | apply refused_keepsO | apply fault_keepsO
    | apply State.embCmdWrite_keeps | apply busWrite_keeps | intro _ _ _ _ | intro _ _ _ | intro _ _ | intro _
    | (refine Keeps.upd ?_; first | assumption | apply State.embCmdWrite_keeps | apply busWrite_keeps)

theorem execEmberSwapApply_keeps {z : State} {n} {s : State} (hz : Keeps z s) :
    KeepsO z (execEmberSwapApply n s) := by
  unfold execEmberSwapApply
  with_reducible repeat' first
    | assumption | apply ite_keeps | apply next_keepsO | apply ite_keepsO | apply refused_keepsO | apply fault_keepsO
    | apply State.embSwap_keeps | (refine Keeps.upd ?_; first | assumption | apply State.embSwap_keeps)

theorem execEmberSwap_keeps {z : State} {b} {n} {v} {s : State} (hz : Keeps z s) :
    KeepsO z (execEmberSwap b n v s) := by
  unfold execEmberSwap
  with_reducible repeat' first
    | assumption | apply ite_keeps | apply next_keepsO | apply ite_keepsO | apply refused_keepsO | apply fault_keepsO
    | apply State.embCmdWrite_keeps | apply busWrite_keeps | intro _ _ _ _ | intro _ _ _ | intro _ _ | intro _
    | (refine Keeps.upd ?_; first | assumption | apply State.embCmdWrite_keeps | apply busWrite_keeps)

theorem execReadbackCheck_keeps {z : State} {n} {rx} {s : State} (hz : Keeps z s) :
    KeepsO z (execReadbackCheck n rx s) := by
  unfold execReadbackCheck
  with_reducible repeat' first
    | assumption
    | (extract_lets +onlyGivenNames x; refine (fun hx : Keeps z x => ?_) ?_; rotate_left; subst x; rotate_left; try clear_value x)
    | (extract_lets +onlyGivenNames x; clear_value x) | extract_lets | apply ite_keeps | apply next_keepsO
    | apply ite_keepsO | apply refused_keepsO | apply fault_keepsO | apply State.jobLeaveWith_keeps
    | apply State.condMarking_keeps | apply State.soot_keeps | apply State.cnt_keeps | apply State.irq_keeps
    | apply State.setTherm_keeps
    | (refine Keeps.upd ?_; first | assumption | apply State.jobLeaveWith_keeps | apply State.condMarking_keeps | apply State.soot_keeps | apply State.cnt_keeps | apply State.irq_keeps | apply State.setTherm_keeps)
    | split | (refine Keeps.of_fst (by assumption) ?_) | (refine Keeps.of_snd (by assumption) ?_)

theorem execDummyShiftStart_keeps {z : State} {n} {s : State} (hz : Keeps z s) :
    KeepsO z (execDummyShiftStart n s) := by
  unfold execDummyShiftStart
  with_reducible repeat' first
    | assumption | apply ite_keeps | apply next_keepsO | apply ite_keepsO | apply refused_keepsO | apply fault_keepsO
    | apply State.setTherm_keeps | (refine Keeps.upd ?_; first | assumption | apply State.setTherm_keeps)

theorem execEmberComputeDone_keeps {z : State} {n} {table} {ring} {s : State} (hz : Keeps z s) :
    KeepsO z (execEmberComputeDone n table ring s) := by
  unfold execEmberComputeDone
  with_reducible repeat' first
    | assumption | (extract_lets +onlyGivenNames x; clear_value x) | extract_lets | apply ite_keeps
    | apply next_keepsO | apply ite_keepsO | apply refused_keepsO | apply fault_keepsO | apply State.embCompute_keeps
    | (refine Keeps.upd ?_; first | assumption | apply State.embCompute_keeps) | split
    | (refine Keeps.of_fst (by assumption) ?_) | (refine Keeps.of_snd (by assumption) ?_)

theorem execLineDeferredFire_keeps {z : State} {n} {pinBad} {s : State} (hz : Keeps z s) :
    KeepsO z (execLineDeferredFire n pinBad s) := by
  unfold execLineDeferredFire
  with_reducible repeat' first
    | assumption
    | (extract_lets +onlyGivenNames x; refine (fun hx : Keeps z x => ?_) ?_; rotate_left; subst x; rotate_left; try clear_value x)
    | (extract_lets +onlyGivenNames x; clear_value x) | extract_lets | apply ite_keeps | apply next_keepsO
    | apply ite_keepsO | apply refused_keepsO | apply fault_keepsO | apply State.updTherm_keeps
    | apply State.setTherm_keeps | apply State.fireLine_keeps
    | (refine Keeps.upd ?_; first | assumption | apply State.updTherm_keeps | apply State.setTherm_keeps | apply State.fireLine_keeps)
    | split | (refine Keeps.of_fst (by assumption) ?_) | (refine Keeps.of_snd (by assumption) ?_)

end Sys2Proof.Machine
end

