-- ==== Sys2Proof/Laws/KeepsLaser.lean ====
section
/-! SUPPORT. What every operation of Machine/Laser.lean keeps (Laws/Keeps.lean). -/
-- one script for every shape of goal: what a goal does not need is not reported
set_option linter.all false
namespace Sys2Proof.Machine

theorem State.gateEval_keeps {z : State} {s : State} {n} (hz : Keeps z s) :
    Keeps z (State.gateEval s n) := by
  unfold State.gateEval
  with_reducible repeat' first
    | assumption | apply ite_keeps | apply State.updLas_keeps | apply State.gateSet_keeps
    | (refine Keeps.upd ?_; first | assumption | apply State.updLas_keeps | apply State.gateSet_keeps)

theorem State.syncTake_keeps {z : State} {s : State} {n} {enc} {flags} (hz : Keeps z s) :
    Keeps z (State.syncTake s n enc flags) := by
  unfold State.syncTake
  with_reducible repeat' first
    | assumption | apply State.wrb_keeps | apply State.updLas_keeps

theorem State.delaysTake_keeps {z : State} {s : State} {n} {a} {b} (hz : Keeps z s) :
    Keeps z (State.delaysTake s n a b) := by
  unfold State.delaysTake
  with_reducible repeat' first
    | assumption | apply State.updLas_keeps

theorem State.limitCheck_keeps {z : State} {s : State} {n} (hz : Keeps z s) :
    Keeps z (State.limitCheck s n) := by
  unfold State.limitCheck
  with_reducible repeat' first
    | assumption | apply ite_keeps | apply State.condMarking_keeps | apply State.soot_keeps | apply State.cnt_keeps
    | apply State.irq_keeps | apply State.wrb_keeps
    | (refine Keeps.upd ?_; first | assumption | apply State.condMarking_keeps | apply State.soot_keeps | apply State.cnt_keeps | apply State.irq_keeps | apply State.wrb_keeps)

theorem State.freqTake_keeps {z : State} {s : State} {n} {period} {width} (hz : Keeps z s) :
    Keeps z (State.freqTake s n period width) := by
  unfold State.freqTake
  with_reducible repeat' first
    | assumption | apply State.updLas_keeps | apply State.limitCheck_keeps

theorem State.powerTake_keeps {z : State} {s : State} {n} {v} (hz : Keeps z s) :
    Keeps z (State.powerTake s n v) := by
  unfold State.powerTake
  with_reducible repeat' first
    | assumption | apply State.updLas_keeps | apply State.limitCheck_keeps

theorem State.applyZero_keeps {z : State} {s : State} {n} {enc} {r} (hz : Keeps z s) :
    Keeps z (State.applyZero s n enc r) := by
  unfold State.applyZero
  with_reducible repeat' first
    | assumption | (extract_lets +onlyGivenNames x; clear_value x) | extract_lets | apply ite_keeps
    | apply State.syncTake_keeps | apply State.delaysTake_keeps | apply State.freqTake_keeps
    | apply State.setLas_keeps | apply State.powerTake_keeps
    | (refine Keeps.upd ?_; first | assumption | apply State.syncTake_keeps | apply State.delaysTake_keeps | apply State.freqTake_keeps | apply State.setLas_keeps | apply State.powerTake_keeps)
    | split | (refine Keeps.of_fst (by assumption) ?_) | (refine Keeps.of_snd (by assumption) ?_)

theorem State.gateDown_keeps {z : State} {s : State} {n} (hz : Keeps z s) :
    Keeps z (State.gateDown s n) := by
  unfold State.gateDown
  with_reducible repeat' first
    | assumption | apply State.updLas_keeps | apply State.gateEval_keeps

theorem State.gateUp_keeps {z : State} {s : State} {n} (hz : Keeps z s) :
    Keeps z (State.gateUp s n) := by
  unfold State.gateUp
  with_reducible repeat' first
    | assumption | apply ite_keeps | apply State.limitCheck_keeps | apply State.gateEval_keeps
    | apply State.condMarking_keeps | apply State.setLas_keeps
    | (refine Keeps.upd ?_; first | assumption | apply State.limitCheck_keeps | apply State.gateEval_keeps | apply State.condMarking_keeps | apply State.setLas_keeps)

theorem State.gateDue_keeps {z : State} {s : State} {n} (hz : Keeps z s) :
    Keeps z (State.gateDue s n) := by
  unfold State.gateDue
  with_reducible repeat' first
    | assumption | apply ite_keeps | apply State.gateDown_keeps | apply State.gateUp_keeps
    | (refine Keeps.upd ?_; first | assumption | apply State.gateDown_keeps | apply State.gateUp_keeps)

theorem State.beamsTick_keeps {z : State} {s : State} (hz : Keeps z s) :
    Keeps z (State.beamsTick s) := by
  unfold State.beamsTick
  with_reducible repeat' first
    | assumption | apply ite_keeps | apply State.gateDue_keeps | apply forL_keeps | apply forL_keeps_fst
    | intro _ _ _ _ | intro _ _ _ | intro _ _ | intro _
    | (refine Keeps.upd ?_; first | assumption | apply State.gateDue_keeps | apply forL_keeps)

theorem State.laserShow_keeps {z : State} {s : State} {n} (hz : Keeps z s) :
    Keeps z (State.laserShow s n) := by
  unfold State.laserShow
  with_reducible repeat' first
    | assumption | apply State.wrb_keeps

theorem State.laserEnd_keeps {z : State} {s : State} {n} {ok} (hz : Keeps z s) :
    Keeps z (State.laserEnd s n ok) := by
  unfold State.laserEnd
  with_reducible repeat' first
    | assumption | apply ite_keeps | apply State.laserPark_keeps | apply State.wrb_keeps | apply State.laserShow_keeps
    | apply State.updLas_keeps | apply State.gateDown_keeps | apply State.wrf_keeps | apply State.peak_keeps
    | apply State.irq_keeps | apply State.addCond_keeps
    | (refine Keeps.upd ?_; first | assumption | apply State.laserPark_keeps | apply State.wrb_keeps | apply State.laserShow_keeps | apply State.updLas_keeps | apply State.gateDown_keeps | apply State.wrf_keeps | apply State.peak_keeps | apply State.irq_keeps | apply State.addCond_keeps)

theorem State.blockOver_keeps {z : State} {s : State} {n} {ofs} (hz : Keeps z s) :
    Keeps z (State.blockOver s n ofs) := by
  unfold State.blockOver
  with_reducible repeat' first
    | assumption | apply ite_keeps | apply State.laserShow_keeps | apply State.setLas_keeps
    | apply State.laserEnd_keeps
    | (refine Keeps.upd ?_; first | assumption | apply State.laserShow_keeps | apply State.setLas_keeps | apply State.laserEnd_keeps)

theorem State.lpWritten_keeps {z : State} {s : State} {n} {off} (hz : Keeps z s) :
    Keeps z (State.lpWritten s n off) := by
  unfold State.lpWritten
  with_reducible repeat' first
    | assumption | apply ite_keeps | apply State.updLas_keeps
    | (refine Keeps.upd ?_; first | assumption | apply State.updLas_keeps)

theorem State.laserConfig_keeps {z : State} {s : State} {n} (hz : Keeps z s) :
    Keeps z (State.laserConfig s n) := by
  unfold State.laserConfig
  with_reducible repeat' first
    | assumption | apply State.soot_keeps | apply State.irq_keeps

theorem State.laserSafe_keeps {z : State} {s : State} {n} (hz : Keeps z s) :
    Keeps z (State.laserSafe s n) := by
  unfold State.laserSafe
  with_reducible repeat' first
    | assumption | apply State.laserIdle_keeps

theorem State.laserSafeEnd_keeps {z : State} {s : State} {n} (hz : Keeps z s) :
    Keeps z (State.laserSafeEnd s n) := by
  unfold State.laserSafeEnd
  with_reducible repeat' first
    | assumption | apply ite_keeps | apply State.wrb_keeps | apply State.gateEval_keeps
    | (refine Keeps.upd ?_; first | assumption | apply State.wrb_keeps | apply State.gateEval_keeps)

theorem State.dotHold_keeps {z : State} {s : State} {n} (hz : Keeps z s) :
    Keeps z (State.dotHold s n) := by
  unfold State.dotHold
  with_reducible repeat' first
    | assumption | apply ite_keeps | apply State.limitCheck_keeps | apply State.gateDue_keeps
    | apply State.setLas_keeps | apply State.addCond_keeps
    | (refine Keeps.upd ?_; first | assumption | apply State.limitCheck_keeps | apply State.gateDue_keeps | apply State.setLas_keeps | apply State.addCond_keeps)

theorem State.dwellWatch_keeps {z : State} {s : State} {n} {T} {fx} {fy} (hz : Keeps z s) :
    Keeps z (State.dwellWatch s n T fx fy) := by
  unfold State.dwellWatch
  with_reducible repeat' first
    | assumption | apply State.setLas_keeps

theorem State.earlyRise_keeps {z : State} {s : State} {n} (hz : Keeps z s) :
    Keeps z (State.earlyRise s n) := by
  unfold State.earlyRise
  with_reducible repeat' first
    | assumption | (extract_lets +onlyGivenNames x; clear_value x) | extract_lets | apply ite_keeps
    | apply State.updLas_keeps | (refine Keeps.upd ?_; first | assumption | apply State.updLas_keeps) | split
    | (refine Keeps.of_fst (by assumption) ?_) | (refine Keeps.of_snd (by assumption) ?_)

theorem State.laserStart_keeps {z : State} {s : State} {n} {j} (hz : Keeps z s) :
    Keeps z (State.laserStart s n j) := by
  unfold State.laserStart
  with_reducible repeat' first
    | assumption | apply ite_keeps | apply State.laserShow_keeps | apply State.applyZero_keeps
    | apply State.freqTake_keeps | apply State.wrb_keeps | apply State.updLas_keeps | apply State.delaysTake_keeps
    | apply State.addCond_keeps | apply State.setLas_keeps | apply foldl_keeps_fst | apply foldl_keeps | intro _ _ _ _
    | intro _ _ _ | intro _ _ | intro _
    | (refine Keeps.upd ?_; first | assumption | apply State.laserShow_keeps | apply State.applyZero_keeps | apply State.freqTake_keeps | apply State.wrb_keeps | apply State.updLas_keeps | apply State.delaysTake_keeps | apply State.addCond_keeps | apply State.setLas_keeps)

theorem State.laserTrigger_keeps {z : State} {s : State} {n} {t} (hz : Keeps z s) :
    Keeps z (State.laserTrigger s n t) := by
  unfold State.laserTrigger
  with_reducible repeat' first
    | assumption | (extract_lets +onlyGivenNames x; clear_value x) | extract_lets | apply ite_keeps
    | apply State.updLas_keeps | apply State.laserStart_keeps | apply State.cnt_keeps
    | (refine Keeps.upd ?_; first | assumption | apply State.updLas_keeps | apply State.laserStart_keeps | apply State.cnt_keeps)
    | split | (refine Keeps.of_fst (by assumption) ?_) | (refine Keeps.of_snd (by assumption) ?_)

theorem State.gridTake_keeps {z : State} {s : State} {n} (hz : Keeps z s) :
    Keeps z (State.gridTake s n) := by
  unfold State.gridTake
  with_reducible repeat' first
    | assumption | apply State.updLas_keeps | apply State.wrb_keeps | apply State.irq_keeps

theorem State.gridWrite_keeps {z : State} {s : State} {n} {v} (hz : Keeps z s) :
    Keeps z (State.gridWrite s n v) := by
  unfold State.gridWrite
  with_reducible repeat' first
    | assumption | apply ite_keeps | apply State.wrf_keeps | apply State.updLas_keeps
    | (refine Keeps.upd ?_; first | assumption | apply State.wrf_keeps | apply State.updLas_keeps)

theorem State.skipInvalid_keeps {z : State} {s : State} {n} {ofs} {a0} (hz : Keeps z s) :
    Keeps z (State.skipInvalid s n ofs a0) := by
  induction a0 generalizing s n ofs with
  | zero =>
    unfold State.skipInvalid
    with_reducible repeat' first
      | assumption | apply ite_keeps | apply State.updLas_keeps | apply State.addCond_keeps
      | (refine Keeps.upd ?_; first | assumption | apply State.updLas_keeps | apply State.addCond_keeps)
  | succ _ ih =>
    unfold State.skipInvalid
    with_reducible repeat' first
      | assumption | apply ite_keeps | apply State.updLas_keeps | apply State.addCond_keeps | apply ih
      | (refine Keeps.upd ?_; first | assumption | apply State.updLas_keeps | apply State.addCond_keeps)

theorem State.recNext_keeps {z : State} {s : State} {n} (hz : Keeps z s) :
    Keeps z (State.recNext s n) := by
  unfold State.recNext
  with_reducible repeat' first
    | assumption | (extract_lets +onlyGivenNames x; clear_value x) | extract_lets | apply ite_keeps
    | apply State.updLas_keeps | apply State.skipInvalid_keeps | apply State.blockOver_keeps
    | apply State.laserEnd_keeps
    | (refine Keeps.upd ?_; first | assumption | apply State.updLas_keeps | apply State.skipInvalid_keeps | apply State.blockOver_keeps | apply State.laserEnd_keeps)
    | split | (refine Keeps.of_fst (by assumption) ?_) | (refine Keeps.of_snd (by assumption) ?_)

theorem State.jumpDone_keeps {z : State} {s : State} {n} (hz : Keeps z s) :
    Keeps z (State.jumpDone s n) := by
  unfold State.jumpDone
  with_reducible repeat' first
    | assumption | apply ite_keeps | apply State.recNext_keeps | apply State.dotHold_keeps
    | (refine Keeps.upd ?_; first | assumption | apply State.recNext_keeps | apply State.dotHold_keeps)

theorem State.laserFrame_keeps {z : State} {s : State} {n} {T} {ecc} (hz : Keeps z s) :
    Keeps z (State.laserFrame s n T ecc) := by
  unfold State.laserFrame
  with_reducible repeat' first
    | assumption
    | (extract_lets +onlyGivenNames x; refine (fun hx : Keeps z x => ?_) ?_; rotate_left; subst x; rotate_left; try clear_value x)
    | (extract_lets +onlyGivenNames x; clear_value x) | extract_lets | apply ite_keeps | apply State.limitCheck_keeps
    | apply State.gateEval_keeps | apply State.cnt_keeps | apply State.irq_keeps | apply State.wrb_keeps
    | apply State.gateDue_keeps | apply State.addCond_keeps | apply State.updLas_keeps | apply State.gateDown_keeps
    | apply State.setLas_keeps | apply State.soot_keeps | apply State.sramCe_keeps
    | (refine Keeps.upd ?_; first | assumption | apply State.limitCheck_keeps | apply State.gateEval_keeps | apply State.cnt_keeps | apply State.irq_keeps | apply State.wrb_keeps | apply State.gateDue_keeps | apply State.addCond_keeps | apply State.updLas_keeps | apply State.gateDown_keeps | apply State.setLas_keeps | apply State.soot_keeps | apply State.sramCe_keeps)
    | split | (refine Keeps.of_fst (by assumption) ?_) | (refine Keeps.of_snd (by assumption) ?_)

theorem State.laserMarkBegin_keeps {z : State} {s : State} {n} {j} (hz : Keeps z s) :
    Keeps z (State.laserMarkBegin s n j) := by
  unfold State.laserMarkBegin
  with_reducible repeat' first
    | assumption | apply ite_keeps | apply State.laserStart_keeps | apply State.addCond_keeps
    | (refine Keeps.upd ?_; first | assumption | apply State.laserStart_keeps | apply State.addCond_keeps)

theorem State.lpCmdWrite_keeps {z : State} {s : State} {n} {v} (hz : Keeps z s) :
    Keeps z (State.lpCmdWrite s n v) := by
  unfold State.lpCmdWrite
  with_reducible repeat' first
    | assumption | apply ite_keeps | apply State.laserPark_keeps | apply State.updLas_keeps
    | apply State.gridTake_keeps | apply State.wrb_keeps
    | (refine Keeps.upd ?_; first | assumption | apply State.laserPark_keeps | apply State.updLas_keeps | apply State.gridTake_keeps | apply State.wrb_keeps)

theorem State.motion_keeps {z : State} {s : State} {n} {op} {x} {y} {ticks} {tail} (hz : Keeps z s) :
    Keeps z (State.motion s n op x y ticks tail) := by
  unfold State.motion
  with_reducible repeat' first
    | assumption | apply State.updLas_keeps

theorem State.settleWatch_keeps {z : State} {s : State} {n} {ex} {ey} (hz : Keeps z s) :
    Keeps z (State.settleWatch s n ex ey) := by
  unfold State.settleWatch
  with_reducible repeat' first
    | assumption | apply State.updLas_keeps

theorem State.settled_keeps {z : State} {s : State} {n} (hz : Keeps z s) :
    Keeps z (State.settled s n) := by
  unfold State.settled
  with_reducible repeat' first
    | assumption | apply State.setLas_keeps | apply State.jumpDone_keeps | apply State.wrf_keeps
    | apply State.peak_keeps

theorem State.zeroRow_keeps {z : State} {s : State} {n} {op} (hz : Keeps z s) :
    KeepsO z (State.zeroRow s n op) := by
  unfold State.zeroRow
  with_reducible repeat' first
    | assumption
    | (extract_lets +onlyGivenNames x; refine (fun hx : Keeps z x => ?_) ?_; rotate_left; subst x; rotate_left; try clear_value x)
    | (extract_lets +onlyGivenNames x; clear_value x) | extract_lets | apply ite_keeps | apply next_keepsO
    | apply ite_keepsO | apply refused_keepsO | apply fault_keepsO | apply State.recNext_keeps
    | apply State.applyZero_keeps
    | (refine Keeps.upd ?_; first | assumption | apply State.recNext_keeps | apply State.applyZero_keeps) | split
    | (refine Keeps.of_fst (by assumption) ?_) | (refine Keeps.of_snd (by assumption) ?_)

theorem execBindFePeakClear_keeps {z : State} {b} {n} {v} {s : State} (hz : Keeps z s) :
    KeepsO z (execBindFePeakClear b n v s) := by
  unfold execBindFePeakClear
  with_reducible repeat' first
    | assumption | apply ite_keeps | apply next_keepsO | apply ite_keepsO | apply refused_keepsO | apply fault_keepsO
    | apply State.wrf_keeps | apply State.respond_keeps | apply busWrite_keeps | intro _ _ _ _ | intro _ _ _
    | intro _ _ | intro _
    | (refine Keeps.upd ?_; first | assumption | apply State.wrf_keeps | apply State.respond_keeps | apply busWrite_keeps)

theorem laserPortWrite_keeps {z : State} {b} {n} {off} {v} {eff} {s : State} (heff : ∀ u0, Keeps z u0 → Keeps z (eff u0)) (hz : Keeps z s) :
    KeepsO z (laserPortWrite b n off v eff s) := by
  unfold laserPortWrite
  with_reducible repeat' first
    | assumption | apply ite_keeps | apply next_keepsO | apply ite_keepsO | apply refused_keepsO | apply fault_keepsO
    | apply State.respond_keeps | apply busWrite_keeps | apply heff | intro _ _ _ _ | intro _ _ _ | intro _ _
    | intro _ | (refine Keeps.upd ?_; first | assumption | apply State.respond_keeps | apply busWrite_keeps)

theorem execDurMaxClear_keeps {z : State} {b} {n} {v} {s : State} (hz : Keeps z s) :
    KeepsO z (execDurMaxClear b n v s) := by
  unfold execDurMaxClear
  with_reducible repeat' first
    | assumption | apply ite_keeps | apply next_keepsO | apply ite_keepsO | apply refused_keepsO | apply fault_keepsO
    | apply State.wrf_keeps | apply laserPortWrite_keeps | (refine KeepsO.of_next ?_ (by assumption)) | intro _ _ _ _
    | intro _ _ _ | intro _ _ | intro _ | (refine Keeps.upd ?_; first | assumption | apply State.wrf_keeps)

theorem execGridDataWrite_keeps {z : State} {b} {n} {v} {s : State} (hz : Keeps z s) :
    KeepsO z (execGridDataWrite b n v s) := by
  unfold execGridDataWrite
  with_reducible repeat' first
    | assumption | apply ite_keeps | apply next_keepsO | apply ite_keepsO | apply refused_keepsO | apply fault_keepsO
    | apply State.gridWrite_keeps | apply laserPortWrite_keeps | (refine KeepsO.of_next ?_ (by assumption))
    | intro _ _ _ _ | intro _ _ _ | intro _ _ | intro _
    | (refine Keeps.upd ?_; first | assumption | apply State.gridWrite_keeps)

theorem execModulationPulseBoundary_keeps {z : State} {n} {pinBad} {s : State} (hz : Keeps z s) :
    KeepsO z (execModulationPulseBoundary n pinBad s) := by
  unfold execModulationPulseBoundary
  repeat' (first
    | with_reducible assumption
    | (extract_lets +onlyGivenNames x; refine (fun hx : Keeps z x => ?_) ?_; rotate_left; subst x; rotate_left; try clear_value x)
    | (extract_lets +onlyGivenNames x; refine (fun hx : Keeps z x.1 => ?_) ?_; rotate_left; subst x; rotate_left; try clear_value x)
    | (extract_lets +onlyGivenNames x; refine (fun hx : Keeps z x.2 => ?_) ?_; rotate_left; subst x; rotate_left; try clear_value x)
    | (extract_lets +onlyGivenNames x; refine (fun hf0 : ∀ s, Keeps z s → Keeps z (x s) => ?_) ?_; rotate_left; subst x; rotate_left; try clear_value x)
    | (extract_lets +onlyGivenNames x; refine (fun ho0 : ∀ a, KeepsO z (x a) => ?_) ?_; rotate_left; subst x; rotate_left; try clear_value x)
    | (extract_lets +onlyGivenNames x; refine (fun ho1 : ∀ s, Keeps z s → KeepsO z (x s) => ?_) ?_; rotate_left; subst x; rotate_left; try clear_value x)
    | (extract_lets +onlyGivenNames x; refine (fun ho2 : ∀ s a, Keeps z s → KeepsO z (x s a) => ?_) ?_; rotate_left; subst x; rotate_left; try clear_value x)
    | (extract_lets +onlyGivenNames x; refine (fun hf1 : ∀ s a, Keeps z s → Keeps z (x s a) => ?_) ?_; rotate_left; subst x; rotate_left; try clear_value x)
    | (extract_lets +onlyGivenNames x; refine (fun hf2 : ∀ a s, Keeps z s → Keeps z (x a s) => ?_) ?_; rotate_left; subst x; rotate_left; try clear_value x)
    | (extract_lets +onlyGivenNames x; refine (fun hf3 : ∀ s a b, Keeps z s → Keeps z (x s a b) => ?_) ?_; rotate_left; subst x; rotate_left; try clear_value x)
    | (extract_lets +onlyGivenNames x; refine (fun hf4 : ∀ a b s, Keeps z s → Keeps z (x a b s) => ?_) ?_; rotate_left; subst x; rotate_left; try clear_value x)
    | (extract_lets +onlyGivenNames x; refine (fun hf5 : ∀ a s b, Keeps z s → Keeps z (x a s b) => ?_) ?_; rotate_left; subst x; rotate_left; try clear_value x)
    | (extract_lets +onlyGivenNames x; refine (fun hf6 : ∀ a, Keeps z (x a) => ?_) ?_; rotate_left; subst x; rotate_left; try clear_value x)
    | (extract_lets +onlyGivenNames x; clear_value x)
    | extract_lets
    | with_reducible apply ite_keeps
    | with_reducible apply next_keepsO
    | with_reducible apply ite_keepsO
    | with_reducible apply refused_keepsO
    | with_reducible apply fault_keepsO
    | with_reducible apply State.freqTake_keeps
    | with_reducible apply State.setLas_keeps
    | with_reducible apply State.soot_keeps
    | with_reducible apply State.condMarking_keeps
    | with_reducible apply hf0
    | with_reducible apply hf1
    | with_reducible apply hf2
    | with_reducible apply hf3
    | with_reducible apply hf4
    | with_reducible apply hf5
    | with_reducible apply hf6
    | with_reducible apply ho0
    | with_reducible apply ho1
    | with_reducible apply ho2
    | intro _ _ _ _
    | intro _ _ _
    | intro _ _
    | intro _
    | (with_reducible refine Keeps.upd ?_; first | with_reducible assumption | (with_reducible refine Keeps.of_fst (by with_reducible assumption) ?_) | (with_reducible refine Keeps.of_snd (by with_reducible assumption) ?_) | with_reducible apply State.freqTake_keeps | with_reducible apply State.setLas_keeps | with_reducible apply State.soot_keeps | with_reducible apply State.condMarking_keeps)
    | split
    | (with_reducible refine Keeps.of_fst (by with_reducible assumption) ?_)
    | (with_reducible refine Keeps.of_snd (by with_reducible assumption) ?_)
    | fail)

theorem execLaserAlarmClear_keeps {z : State} {n} {s : State} (hz : Keeps z s) :
    KeepsO z (execLaserAlarmClear n s) := by
  unfold execLaserAlarmClear
  with_reducible repeat' first
    | assumption | apply ite_keeps | apply next_keepsO | apply ite_keepsO | apply refused_keepsO | apply fault_keepsO
    | apply State.updLas_keeps | apply State.wrb_keeps | apply State.gateEval_keeps
    | (refine Keeps.upd ?_; first | assumption | apply State.updLas_keeps | apply State.wrb_keeps | apply State.gateEval_keeps)

theorem execLaserReadyEdge_keeps {z : State} {n} {level} {s : State} (hz : Keeps z s) :
    KeepsO z (execLaserReadyEdge n level s) := by
  unfold execLaserReadyEdge
  with_reducible repeat' first
    | assumption | apply ite_keeps | apply next_keepsO | apply ite_keepsO | apply refused_keepsO | apply fault_keepsO
    | apply State.condMarking_keeps | apply State.setLas_keeps | apply State.wrb_keeps
    | (refine Keeps.upd ?_; first | assumption | apply State.condMarking_keeps | apply State.setLas_keeps | apply State.wrb_keeps)

theorem execDwellCut_keeps {z : State} {n} {s : State} (hz : Keeps z s) :
    KeepsO z (execDwellCut n s) := by
  unfold execDwellCut
  with_reducible repeat' first
    | assumption
    | (extract_lets +onlyGivenNames x; refine (fun hx : Keeps z x => ?_) ?_; rotate_left; subst x; rotate_left; try clear_value x)
    | (extract_lets +onlyGivenNames x; clear_value x) | extract_lets | apply ite_keeps | apply next_keepsO
    | apply ite_keepsO | apply refused_keepsO | apply fault_keepsO | apply State.updLas_keeps | apply State.soot_keeps
    | apply State.condMarking_keeps | apply State.cut_keeps | apply State.wrb_keeps
    | (refine Keeps.upd ?_; first | assumption | apply State.updLas_keeps | apply State.soot_keeps | apply State.condMarking_keeps | apply State.cut_keeps | apply State.wrb_keeps)
    | split | (refine Keeps.of_fst (by assumption) ?_) | (refine Keeps.of_snd (by assumption) ?_)

theorem execLaserAlarm_keeps {z : State} {n} {s : State} (hz : Keeps z s) :
    KeepsO z (execLaserAlarm n s) := by
  unfold execLaserAlarm
  with_reducible repeat' first
    | assumption | apply ite_keeps | apply next_keepsO | apply ite_keepsO | apply refused_keepsO | apply fault_keepsO
    | apply State.condMarking_keeps | apply State.gateEval_keeps | apply State.soot_keeps | apply State.updLas_keeps
    | apply State.wrb_keeps
    | (refine Keeps.upd ?_; first | assumption | apply State.condMarking_keeps | apply State.gateEval_keeps | apply State.soot_keeps | apply State.updLas_keeps | apply State.wrb_keeps)

theorem execLaserReadyTimeout_keeps {z : State} {n} {s : State} (hz : Keeps z s) :
    KeepsO z (execLaserReadyTimeout n s) := by
  unfold execLaserReadyTimeout
  with_reducible repeat' first
    | assumption | (extract_lets +onlyGivenNames x; clear_value x) | extract_lets | apply ite_keeps
    | apply next_keepsO | apply ite_keepsO | apply refused_keepsO | apply fault_keepsO | apply State.setLas_keeps
    | apply State.soot_keeps
    | (refine Keeps.upd ?_; first | assumption | apply State.setLas_keeps | apply State.soot_keeps) | split
    | (refine Keeps.of_fst (by assumption) ?_) | (refine Keeps.of_snd (by assumption) ?_)

theorem execLaserPark_keeps {z : State} {b} {n} {v} {s : State} (hz : Keeps z s) :
    KeepsO z (execLaserPark b n v s) := by
  unfold execLaserPark
  with_reducible repeat' first
    | assumption | apply ite_keeps | apply next_keepsO | apply ite_keepsO | apply refused_keepsO | apply fault_keepsO
    | apply State.lpCmdWrite_keeps | apply laserPortWrite_keeps | (refine KeepsO.of_next ?_ (by assumption))
    | intro _ _ _ _ | intro _ _ _ | intro _ _ | intro _
    | (refine Keeps.upd ?_; first | assumption | apply State.lpCmdWrite_keeps)

theorem execGridCopyBack_keeps {z : State} {b} {n} {v} {s : State} (hz : Keeps z s) :
    KeepsO z (execGridCopyBack b n v s) := by
  unfold execGridCopyBack
  with_reducible repeat' first
    | assumption | apply ite_keeps | apply next_keepsO | apply ite_keepsO | apply refused_keepsO | apply fault_keepsO
    | apply State.lpCmdWrite_keeps | apply laserPortWrite_keeps | (refine KeepsO.of_next ?_ (by assumption))
    | intro _ _ _ _ | intro _ _ _ | intro _ _ | intro _
    | (refine Keeps.upd ?_; first | assumption | apply State.lpCmdWrite_keeps)

theorem execGridSwapApply_keeps {z : State} {n} {s : State} (hz : Keeps z s) :
    KeepsO z (execGridSwapApply n s) := by
  unfold execGridSwapApply
  with_reducible repeat' first
    | assumption | apply ite_keeps | apply next_keepsO | apply ite_keepsO | apply refused_keepsO | apply fault_keepsO
    | apply State.gridTake_keeps | (refine Keeps.upd ?_; first | assumption | apply State.gridTake_keeps)

theorem execGridSwap_keeps {z : State} {b} {n} {v} {s : State} (hz : Keeps z s) :
    KeepsO z (execGridSwap b n v s) := by
  unfold execGridSwap
  with_reducible repeat' first
    | assumption | apply ite_keeps | apply next_keepsO | apply ite_keepsO | apply refused_keepsO | apply fault_keepsO
    | apply State.lpCmdWrite_keeps | apply laserPortWrite_keeps | (refine KeepsO.of_next ?_ (by assumption))
    | intro _ _ _ _ | intro _ _ _ | intro _ _ | intro _
    | (refine Keeps.upd ?_; first | assumption | apply State.lpCmdWrite_keeps)

theorem execSettleTimeout_keeps {z : State} {n} {s : State} (hz : Keeps z s) :
    KeepsO z (execSettleTimeout n s) := by
  unfold execSettleTimeout
  with_reducible repeat' first
    | assumption | apply ite_keeps | apply next_keepsO | apply ite_keepsO | apply refused_keepsO | apply fault_keepsO
    | apply State.setLas_keeps | apply State.settled_keeps | apply State.laserShow_keeps | apply State.addCond_keeps
    | apply State.soot_keeps | apply State.cnt_keeps
    | (refine Keeps.upd ?_; first | assumption | apply State.setLas_keeps | apply State.settled_keeps | apply State.laserShow_keeps | apply State.addCond_keeps | apply State.soot_keeps | apply State.cnt_keeps)

theorem execSettleDone_keeps {z : State} {n} {s : State} (hz : Keeps z s) :
    KeepsO z (execSettleDone n s) := by
  unfold execSettleDone
  with_reducible repeat' first
    | assumption | apply ite_keeps | apply next_keepsO | apply ite_keepsO | apply refused_keepsO | apply fault_keepsO
    | apply State.settled_keeps | apply State.laserShow_keeps
    | (refine Keeps.upd ?_; first | assumption | apply State.settled_keeps | apply State.laserShow_keeps)

theorem execWaitPosRelease_keeps {z : State} {n} {s : State} (hz : Keeps z s) :
    KeepsO z (execWaitPosRelease n s) := by
  unfold execWaitPosRelease
  with_reducible repeat' first
    | assumption | apply ite_keeps | apply next_keepsO | apply ite_keepsO | apply refused_keepsO | apply fault_keepsO
    | apply State.setLas_keeps | apply State.recNext_keeps
    | (refine Keeps.upd ?_; first | assumption | apply State.setLas_keeps | apply State.recNext_keeps)

theorem execVectorRecordComplete_keeps {z : State} {n} {s : State} (hz : Keeps z s) :
    KeepsO z (execVectorRecordComplete n s) := by
  unfold execVectorRecordComplete
  with_reducible repeat' first
    | assumption | apply ite_keeps | apply next_keepsO | apply ite_keepsO | apply refused_keepsO | apply fault_keepsO
    | apply State.recNext_keeps | apply State.jumpDone_keeps | apply State.updLas_keeps | apply State.laserShow_keeps
    | apply State.gateDue_keeps
    | (refine Keeps.upd ?_; first | assumption | apply State.recNext_keeps | apply State.jumpDone_keeps | apply State.updLas_keeps | apply State.laserShow_keeps | apply State.gateDue_keeps)

theorem execEndRecord_keeps {z : State} {n} {s : State} (hz : Keeps z s) :
    KeepsO z (execEndRecord n s) := by
  unfold execEndRecord
  with_reducible repeat' first
    | assumption | (extract_lets +onlyGivenNames x; clear_value x) | extract_lets | apply ite_keeps
    | apply next_keepsO | apply ite_keepsO | apply refused_keepsO | apply fault_keepsO | apply State.laserEnd_keeps
    | (refine Keeps.upd ?_; first | assumption | apply State.laserEnd_keeps) | split
    | (refine Keeps.of_fst (by assumption) ?_) | (refine Keeps.of_snd (by assumption) ?_)

theorem execSyncTrack_keeps {z : State} {n} {s : State} (hz : Keeps z s) :
    KeepsO z (execSyncTrack n s) := by
  unfold execSyncTrack
  with_reducible repeat' first
    | assumption | apply next_keepsO | apply refused_keepsO | apply fault_keepsO | apply State.zeroRow_keeps
    | (refine KeepsO.of_next ?_ (by assumption))

theorem execWaitPos_keeps {z : State} {n} {s : State} (hz : Keeps z s) :
    KeepsO z (execWaitPos n s) := by
  unfold execWaitPos
  with_reducible repeat' first
    | assumption | (extract_lets +onlyGivenNames x; clear_value x) | extract_lets | apply ite_keeps
    | apply next_keepsO | apply ite_keepsO | apply refused_keepsO | apply fault_keepsO | apply State.gateDown_keeps
    | apply State.updLas_keeps | apply State.recNext_keeps
    | (refine Keeps.upd ?_; first | assumption | apply State.gateDown_keeps | apply State.updLas_keeps | apply State.recNext_keeps)
    | split | (refine Keeps.of_fst (by assumption) ?_) | (refine Keeps.of_snd (by assumption) ?_)

theorem execDelays_keeps {z : State} {n} {s : State} (hz : Keeps z s) :
    KeepsO z (execDelays n s) := by
  unfold execDelays
  with_reducible repeat' first
    | assumption | apply next_keepsO | apply refused_keepsO | apply fault_keepsO | apply State.zeroRow_keeps
    | (refine KeepsO.of_next ?_ (by assumption))

theorem execFreq_keeps {z : State} {n} {s : State} (hz : Keeps z s) :
    KeepsO z (execFreq n s) := by
  unfold execFreq
  with_reducible repeat' first
    | assumption | apply next_keepsO | apply refused_keepsO | apply fault_keepsO | apply State.zeroRow_keeps
    | (refine KeepsO.of_next ?_ (by assumption))

theorem execPower_keeps {z : State} {n} {s : State} (hz : Keeps z s) :
    KeepsO z (execPower n s) := by
  unfold execPower
  with_reducible repeat' first
    | assumption | apply next_keepsO | apply refused_keepsO | apply fault_keepsO | apply State.zeroRow_keeps
    | (refine KeepsO.of_next ?_ (by assumption))

theorem execDot_keeps {z : State} {n} {s : State} (hz : Keeps z s) :
    KeepsO z (execDot n s) := by
  unfold execDot
  with_reducible repeat' first
    | assumption | (extract_lets +onlyGivenNames x; clear_value x) | extract_lets | apply ite_keeps
    | apply next_keepsO | apply ite_keepsO | apply refused_keepsO | apply fault_keepsO | apply State.gateDue_keeps
    | apply State.motion_keeps
    | (refine Keeps.upd ?_; first | assumption | apply State.gateDue_keeps | apply State.motion_keeps) | split
    | (refine Keeps.of_fst (by assumption) ?_) | (refine Keeps.of_snd (by assumption) ?_)

theorem execMark_keeps {z : State} {n} {s : State} (hz : Keeps z s) :
    KeepsO z (execMark n s) := by
  unfold execMark
  with_reducible repeat' first
    | assumption
    | (extract_lets +onlyGivenNames x; refine (fun hx : Keeps z x => ?_) ?_; rotate_left; subst x; rotate_left; try clear_value x)
    | (extract_lets +onlyGivenNames x; clear_value x) | extract_lets | apply ite_keeps | apply next_keepsO
    | apply ite_keepsO | apply refused_keepsO | apply fault_keepsO | apply State.limitCheck_keeps
    | apply State.gateDue_keeps | apply State.updLas_keeps | apply State.motion_keeps
    | (refine Keeps.upd ?_; first | assumption | apply State.limitCheck_keeps | apply State.gateDue_keeps | apply State.updLas_keeps | apply State.motion_keeps)
    | split | (refine Keeps.of_fst (by assumption) ?_) | (refine Keeps.of_snd (by assumption) ?_)

theorem execJump_keeps {z : State} {n} {s : State} (hz : Keeps z s) :
    KeepsO z (execJump n s) := by
  unfold execJump
  with_reducible repeat' first
    | assumption
    | (extract_lets +onlyGivenNames x; refine (fun hx : Keeps z x => ?_) ?_; rotate_left; subst x; rotate_left; try clear_value x)
    | (extract_lets +onlyGivenNames x; clear_value x) | extract_lets | apply ite_keeps | apply next_keepsO
    | apply ite_keepsO | apply refused_keepsO | apply fault_keepsO | apply State.earlyRise_keeps
    | apply State.gateDue_keeps | apply State.motion_keeps | apply State.setLas_keeps
    | (refine Keeps.upd ?_; first | assumption | apply State.earlyRise_keeps | apply State.gateDue_keeps | apply State.motion_keeps | apply State.setLas_keeps)
    | split | (refine Keeps.of_fst (by assumption) ?_) | (refine Keeps.of_snd (by assumption) ?_)

theorem execVectorBlockStart_keeps {z : State} {n} {ecc} {pre} {s : State} (hz : Keeps z s) :
    KeepsO z (execVectorBlockStart n ecc pre s) := by
  unfold execVectorBlockStart
  with_reducible repeat' first
    | assumption
    | (extract_lets +onlyGivenNames x; refine (fun hx : Keeps z x => ?_) ?_; rotate_left; subst x; rotate_left; try clear_value x)
    | (extract_lets +onlyGivenNames x; clear_value x) | extract_lets | apply ite_keeps | apply next_keepsO
    | apply ite_keepsO | apply refused_keepsO | apply fault_keepsO | apply State.skipInvalid_keeps
    | apply State.blockOver_keeps | apply State.fired_keeps | apply State.cnt_keeps | apply State.cntW_keeps
    | apply State.wrf_keeps | apply State.laserEnd_keeps | apply State.addCond_keeps | apply State.soot_keeps
    | apply State.updLas_keeps | apply State.sramCe_keeps
    | (refine Keeps.upd ?_; first | assumption | apply State.skipInvalid_keeps | apply State.blockOver_keeps | apply State.fired_keeps | apply State.cnt_keeps | apply State.cntW_keeps | apply State.wrf_keeps | apply State.laserEnd_keeps | apply State.addCond_keeps | apply State.soot_keeps | apply State.updLas_keeps | apply State.sramCe_keeps)
    | split | (refine Keeps.of_fst (by assumption) ?_) | (refine Keeps.of_snd (by assumption) ?_)

end Sys2Proof.Machine
end

