-- ==== Sys2Proof/Laws/KeepsLoops.lean ====
section
/-! SUPPORT. What every operation of Machine/Loops.lean keeps (Laws/Keeps.lean). -/
-- one script for every shape of goal: what a goal does not need is not reported
set_option linter.all false
namespace Sys2Proof.Machine

theorem State.loopResult_keeps {z : State} {s : State} {m} {r} (hz : Keeps z s) :
    Keeps z (State.loopResult s m r) := by
  unfold State.loopResult
  with_reducible repeat' first
    | assumption | apply State.wrf_keeps

theorem State.setLoopSt_keeps {z : State} {s : State} {m} {st} (hz : Keeps z s) :
    Keeps z (State.setLoopSt s m st) := by
  unfold State.setLoopSt
  with_reducible repeat' first
    | assumption | apply ite_keeps | apply State.wrb_keeps | apply State.wrf_keeps
    | (refine Keeps.upd ?_; first | assumption | apply State.wrb_keeps | apply State.wrf_keeps)

theorem State.loopGate_keeps {z : State} {s : State} {m} (hz : Keeps z s) :
    Keeps z (State.loopGate s m) := by
  unfold State.loopGate
  with_reducible repeat' first
    | assumption | apply ite_keeps | apply State.gateEval_keeps | apply forN_keeps | intro _ _ _ _ | intro _ _ _
    | intro _ _ | intro _ | (refine Keeps.upd ?_; first | assumption | apply State.gateEval_keeps | apply forN_keeps)

theorem State.loopToOpen_keeps {z : State} {s : State} {m} {result} (hz : Keeps z s) :
    Keeps z (State.loopToOpen s m result) := by
  unfold State.loopToOpen
  with_reducible repeat' first
    | assumption | apply ite_keeps | apply State.setLoopSt_keeps | apply State.loopGate_keeps
    | apply State.updLoop_keeps | apply State.wrf_keeps | apply State.irq_keeps
    | (refine Keeps.upd ?_; first | assumption | apply State.setLoopSt_keeps | apply State.loopGate_keeps | apply State.updLoop_keeps | apply State.wrf_keeps | apply State.irq_keeps)

theorem State.loopDrop_keeps {z : State} {s : State} {m} {b} (hz : Keeps z s) :
    Keeps z (State.loopDrop s m b) := by
  unfold State.loopDrop
  with_reducible repeat' first
    | assumption | apply ite_keeps | apply State.loopResult_keeps | apply State.soot_keeps | apply State.irq_keeps
    | apply State.loopToOpen_keeps
    | (refine Keeps.upd ?_; first | assumption | apply State.loopResult_keeps | apply State.soot_keeps | apply State.irq_keeps | apply State.loopToOpen_keeps)

theorem State.loopsDropFor_keeps {z : State} {s : State} {tgt} {p} (hz : Keeps z s) :
    Keeps z (State.loopsDropFor s tgt p) := by
  unfold State.loopsDropFor
  with_reducible repeat' first
    | assumption | apply ite_keeps | apply State.loopDrop_keeps | apply forN_keeps | intro _ _ _ _ | intro _ _ _
    | intro _ _ | intro _ | (refine Keeps.upd ?_; first | assumption | apply State.loopDrop_keeps | apply forN_keeps)

theorem State.auxApply_keeps {z : State} {s : State} {d} (hz : Keeps z s) :
    Keeps z (State.auxApply s d) := by
  unfold State.auxApply
  with_reducible repeat' first
    | assumption | apply ite_keeps | apply State.updLoop_keeps | apply forN_keeps | intro _ _ _ _ | intro _ _ _
    | intro _ _ | intro _ | (refine Keeps.upd ?_; first | assumption | apply State.updLoop_keeps | apply forN_keeps)

theorem State.loopsCheck_keeps {z : State} {s : State} (hz : Keeps z s) :
    Keeps z (State.loopsCheck s) := by
  unfold State.loopsCheck
  with_reducible repeat' first
    | assumption | apply ite_keeps | apply State.loopDrop_keeps | apply forN_keeps | intro _ _ _ _ | intro _ _ _
    | intro _ _ | intro _ | (refine Keeps.upd ?_; first | assumption | apply State.loopDrop_keeps | apply forN_keeps)

theorem State.loopRefuse_keeps {z : State} {s : State} {m} (hz : Keeps z s) :
    Keeps z (State.loopRefuse s m) := by
  unfold State.loopRefuse
  with_reducible repeat' first
    | assumption | apply State.soot_keeps | apply State.loopResult_keeps

theorem State.coefPut_keeps {z : State} {s : State} {m} {k} {v} (hz : Keeps z s) :
    Keeps z (State.coefPut s m k v) := by
  unfold State.coefPut
  with_reducible repeat' first
    | assumption | apply State.updLoop_keeps

theorem State.coefWr_keeps {z : State} {s : State} {m} {k} {v} (hz : Keeps z s) :
    Keeps z (State.coefWr s m k v) := by
  unfold State.coefWr
  with_reducible repeat' first
    | assumption | apply ite_keeps | apply State.coefPut_keeps | apply State.loopResult_keeps
    | (refine Keeps.upd ?_; first | assumption | apply State.coefPut_keeps | apply State.loopResult_keeps)

theorem State.loopsShow_keeps {z : State} {s : State} (hz : Keeps z s) :
    Keeps z (State.loopsShow s) := by
  unfold State.loopsShow
  with_reducible repeat' first
    | assumption | apply ite_keeps | apply State.wrb_keeps | apply forN_keeps | intro _ _ _ _ | intro _ _ _
    | intro _ _ | intro _ | (refine Keeps.upd ?_; first | assumption | apply State.wrb_keeps | apply forN_keeps)

theorem State.ldpEnable_keeps {z : State} {s : State} {d} {on} (hz : Keeps z s) :
    Keeps z (State.ldpEnable s d on) := by
  unfold State.ldpEnable
  with_reducible repeat' first
    | assumption | apply ite_keeps | apply State.wr_keeps | apply State.loopsShow_keeps
    | (refine Keeps.upd ?_; first | assumption | apply State.wr_keeps | apply State.loopsShow_keeps)

theorem State.setLinkSt_keeps {z : State} {s : State} {n} {st} (hz : Keeps z s) :
    Keeps z (State.setLinkSt s n st) := by
  unfold State.setLinkSt
  with_reducible repeat' first
    | assumption | apply ite_keeps | apply State.irq_keeps | apply State.wrb_keeps | apply State.wrf_keeps
    | apply State.setStat_keeps
    | (refine Keeps.upd ?_; first | assumption | apply State.irq_keeps | apply State.wrb_keeps | apply State.wrf_keeps | apply State.setStat_keeps)

theorem State.trainStart_keeps {z : State} {s : State} {n} (hz : Keeps z s) :
    Keeps z (State.trainStart s n) := by
  unfold State.trainStart
  with_reducible repeat' first
    | assumption | apply ite_keeps | apply State.cnt_keeps | apply State.setLinkSt_keeps | apply State.updLnk_keeps
    | (refine Keeps.upd ?_; first | assumption | apply State.cnt_keeps | apply State.setLinkSt_keeps | apply State.updLnk_keeps)

theorem State.downlinkFrame_keeps {z : State} {s : State} {n} (hz : Keeps z s) :
    Keeps z (State.downlinkFrame s n) := by
  unfold State.downlinkFrame
  with_reducible repeat' first
    | assumption | apply ite_keeps | apply State.updLnk_keeps | apply State.wrf_keeps | apply State.trainStart_keeps
    | (refine Keeps.upd ?_; first | assumption | apply State.updLnk_keeps | apply State.wrf_keeps | apply State.trainStart_keeps)

theorem State.feWatch_keeps {z : State} {s : State} {n} {axisY} {pos} (hz : Keeps z s) :
    Keeps z (State.feWatch s n axisY pos) := by
  unfold State.feWatch
  with_reducible repeat' first
    | assumption | apply ite_keeps | apply State.cut_keeps | apply State.soot_keeps | apply State.setLoop_keeps
    | apply State.wrb_keeps | apply State.peak_keeps
    | (refine Keeps.upd ?_; first | assumption | apply State.cut_keeps | apply State.soot_keeps | apply State.setLoop_keeps | apply State.wrb_keeps | apply State.peak_keeps)

theorem State.galvoRefs_keeps {z : State} {s : State} {d} (hz : Keeps z s) :
    Keeps z (State.galvoRefs s d) := by
  unfold State.galvoRefs
  with_reducible repeat' first
    | assumption | apply ite_keeps | apply State.updLoop_keeps | apply forN_keeps | intro _ _ _ _ | intro _ _ _
    | intro _ _ | intro _ | (refine Keeps.upd ?_; first | assumption | apply State.updLoop_keeps | apply forN_keeps)

theorem State.laserFrames_keeps {z : State} {s : State} {d} {ecc} (hz : Keeps z s) :
    Keeps z (State.laserFrames s d ecc) := by
  unfold State.laserFrames
  with_reducible repeat' first
    | assumption | apply ite_keeps | apply State.updLoop_keeps | apply State.laserFrame_keeps | apply forN_keeps
    | intro _ _ _ _ | intro _ _ _ | intro _ _ | intro _
    | (refine Keeps.upd ?_; first | assumption | apply State.updLoop_keeps | apply State.laserFrame_keeps | apply forN_keeps)

theorem State.loopCfgWrite_keeps {z : State} {s : State} {m} {v} (hz : Keeps z s) :
    Keeps z (State.loopCfgWrite s m v) := by
  unfold State.loopCfgWrite
  with_reducible repeat' first
    | assumption | apply ite_keeps | apply State.loopRefuse_keeps | apply State.plainWrite_keeps
    | (refine Keeps.upd ?_; first | assumption | apply State.loopRefuse_keeps | apply State.plainWrite_keeps)

theorem State.loopCloseNow_keeps {z : State} {s : State} {m} (hz : Keeps z s) :
    Keeps z (State.loopCloseNow s m) := by
  unfold State.loopCloseNow
  with_reducible repeat' first
    | assumption | apply ite_keeps | apply State.setLoopSt_keeps | apply State.loopGate_keeps
    | apply State.updLoop_keeps | apply State.loopToOpen_keeps | apply State.loopRefuse_keeps
    | apply State.loopResult_keeps
    | (refine Keeps.upd ?_; first | assumption | apply State.setLoopSt_keeps | apply State.loopGate_keeps | apply State.updLoop_keeps | apply State.loopToOpen_keeps | apply State.loopRefuse_keeps | apply State.loopResult_keeps)

theorem State.loopCmdWrite_keeps {z : State} {s : State} {m} {v} (hz : Keeps z s) :
    Keeps z (State.loopCmdWrite s m v) := by
  unfold State.loopCmdWrite
  with_reducible repeat' first
    | assumption | apply ite_keeps | apply State.updLoop_keeps | apply State.wrb_keeps
    | (refine Keeps.upd ?_; first | assumption | apply State.updLoop_keeps | apply State.wrb_keeps)

theorem State.loopSwapNow_keeps {z : State} {s : State} {m} (hz : Keeps z s) :
    Keeps z (State.loopSwapNow s m) := by
  unfold State.loopSwapNow
  with_reducible repeat' first
    | assumption | apply ite_keeps | apply State.wrb_keeps | apply State.loopResult_keeps | apply State.irq_keeps
    | apply State.loopRefuse_keeps
    | (refine Keeps.upd ?_; first | assumption | apply State.wrb_keeps | apply State.loopResult_keeps | apply State.irq_keeps | apply State.loopRefuse_keeps)

theorem State.loopTuneNow_keeps {z : State} {s : State} {m} (hz : Keeps z s) :
    Keeps z (State.loopTuneNow s m) := by
  unfold State.loopTuneNow
  with_reducible repeat' first
    | assumption | apply ite_keeps | apply State.setLoopSt_keeps | apply State.loopResult_keeps
    | apply State.updLoop_keeps | apply State.wr_keeps | apply State.wrf_keeps | apply State.loopRefuse_keeps
    | (refine Keeps.upd ?_; first | assumption | apply State.setLoopSt_keeps | apply State.loopResult_keeps | apply State.updLoop_keeps | apply State.wr_keeps | apply State.wrf_keeps | apply State.loopRefuse_keeps)

theorem State.loopCommands_keeps {z : State} {s : State} {m} (hz : Keeps z s) :
    Keeps z (State.loopCommands s m) := by
  unfold State.loopCommands
  with_reducible repeat' first
    | assumption
    | (extract_lets +onlyGivenNames x; refine (fun hx : Keeps z x => ?_) ?_; rotate_left; subst x; rotate_left; try clear_value x)
    | (extract_lets +onlyGivenNames x; clear_value x) | extract_lets | apply ite_keeps | apply State.irq_keeps
    | apply State.loopSwapNow_keeps | apply State.loopTuneNow_keeps | apply State.loopCloseNow_keeps
    | apply State.loopToOpen_keeps | apply State.loopResult_keeps | apply State.updLoop_keeps | apply State.wrb_keeps
    | (refine Keeps.upd ?_; first | assumption | apply State.irq_keeps | apply State.loopSwapNow_keeps | apply State.loopTuneNow_keeps | apply State.loopCloseNow_keeps | apply State.loopToOpen_keeps | apply State.loopResult_keeps | apply State.updLoop_keeps | apply State.wrb_keeps)
    | split | (refine Keeps.of_fst (by assumption) ?_) | (refine Keeps.of_snd (by assumption) ?_)

theorem State.tuneGains_keeps {z : State} {s : State} {m} {tu} {a} (hz : Keeps z s) :
    Keeps z (State.tuneGains s m tu a) := by
  unfold State.tuneGains
  with_reducible repeat' first
    | assumption | apply State.wr_keeps

theorem State.tuneEnd_keeps {z : State} {s : State} {m} {t} (hz : Keeps z s) :
    Keeps z (State.tuneEnd s m t) := by
  unfold State.tuneEnd
  with_reducible repeat' first
    | assumption | apply ite_keeps | apply State.tuneGains_keeps | apply State.loopResult_keeps
    | apply State.loopToOpen_keeps | apply State.wr_keeps | apply State.wrf_keeps
    | (refine Keeps.upd ?_; first | assumption | apply State.tuneGains_keeps | apply State.loopResult_keeps | apply State.loopToOpen_keeps | apply State.wr_keeps | apply State.wrf_keeps)

theorem State.tuneStep_keeps {z : State} {s : State} {m} {t} {y} {e} (hz : Keeps z s) :
    Keeps z (State.tuneStep s m t y e) := by
  unfold State.tuneStep
  with_reducible repeat' first
    | assumption | apply ite_keeps | apply State.tuneEnd_keeps | apply State.wrf_keeps | apply State.updLoop_keeps
    | apply State.loopToOpen_keeps | apply State.soot_keeps
    | (refine Keeps.upd ?_; first | assumption | apply State.tuneEnd_keeps | apply State.wrf_keeps | apply State.updLoop_keeps | apply State.loopToOpen_keeps | apply State.soot_keeps)

theorem State.loopShow_keeps {z : State} {s : State} {m} {y} {e} (hz : Keeps z s) :
    Keeps z (State.loopShow s m y e) := by
  unfold State.loopShow
  with_reducible repeat' first
    | assumption | apply State.wrs_keeps

theorem State.loopOutput_keeps {z : State} {s : State} {m} {y} (hz : Keeps z s) :
    Keeps z (State.loopOutput s m y) := by
  unfold State.loopOutput
  with_reducible repeat' first
    | assumption | (extract_lets +onlyGivenNames x; clear_value x) | extract_lets | apply ite_keeps
    | apply State.updLoop_keeps | apply State.tuneStep_keeps | apply State.cnt_keeps | apply State.loopShow_keeps
    | apply State.setLoop_keeps | apply State.wrb_keeps
    | (refine Keeps.upd ?_; first | assumption | apply State.updLoop_keeps | apply State.tuneStep_keeps | apply State.cnt_keeps | apply State.loopShow_keeps | apply State.setLoop_keeps | apply State.wrb_keeps)
    | split | (refine Keeps.of_fst (by assumption) ?_) | (refine Keeps.of_snd (by assumption) ?_)

theorem State.loopEval_keeps {z : State} {s : State} {m} (hz : Keeps z s) :
    Keeps z (State.loopEval s m) := by
  unfold State.loopEval
  with_reducible repeat' first
    | assumption
    | (extract_lets +onlyGivenNames x; refine (fun hx : Keeps z x => ?_) ?_; rotate_left; subst x; rotate_left; try clear_value x)
    | (extract_lets +onlyGivenNames x; clear_value x) | extract_lets | apply ite_keeps | apply State.cnt_keeps
    | apply State.wrs_keeps | apply State.loopOutput_keeps | apply State.loopCommands_keeps
    | apply State.updLoop_keeps
    | (refine Keeps.upd ?_; first | assumption | apply State.cnt_keeps | apply State.wrs_keeps | apply State.loopOutput_keeps | apply State.loopCommands_keeps | apply State.updLoop_keeps)
    | split | (refine Keeps.of_fst (by assumption) ?_) | (refine Keeps.of_snd (by assumption) ?_)

theorem execLoopFePeakClear_keeps {z : State} {b} {m} {v} {s : State} (hz : Keeps z s) :
    KeepsO z (execLoopFePeakClear b m v s) := by
  unfold execLoopFePeakClear
  with_reducible repeat' first
    | assumption | apply ite_keeps | apply next_keepsO | apply ite_keepsO | apply refused_keepsO | apply fault_keepsO
    | apply State.wrf_keeps | apply busWrite_keeps | intro _ _ _ _ | intro _ _ _ | intro _ _ | intro _
    | (refine Keeps.upd ?_; first | assumption | apply State.wrf_keeps | apply busWrite_keeps)

theorem execCoefModeWrite_keeps {z : State} {b} {m} {v} {s : State} (hz : Keeps z s) :
    KeepsO z (execCoefModeWrite b m v s) := by
  unfold execCoefModeWrite
  with_reducible repeat' first
    | assumption | apply ite_keeps | apply next_keepsO | apply ite_keepsO | apply refused_keepsO | apply fault_keepsO
    | apply State.loopCfgWrite_keeps | apply busWrite_keeps | intro _ _ _ _ | intro _ _ _ | intro _ _ | intro _
    | (refine Keeps.upd ?_; first | assumption | apply State.loopCfgWrite_keeps | apply busWrite_keeps)

theorem execCoefWrite_keeps {z : State} {b} {m} {k} {v} {s : State} (hz : Keeps z s) :
    KeepsO z (execCoefWrite b m k v s) := by
  unfold execCoefWrite
  with_reducible repeat' first
    | assumption | apply ite_keeps | apply next_keepsO | apply ite_keepsO | apply refused_keepsO | apply fault_keepsO
    | apply State.coefWr_keeps | apply busWrite_keeps | intro _ _ _ _ | intro _ _ _ | intro _ _ | intro _
    | (refine Keeps.upd ?_; first | assumption | apply State.coefWr_keeps | apply busWrite_keeps)

theorem execTuneTimeout_keeps {z : State} {m} {s : State} (hz : Keeps z s) :
    KeepsO z (execTuneTimeout m s) := by
  unfold execTuneTimeout
  with_reducible repeat' first
    | assumption | (extract_lets +onlyGivenNames x; clear_value x) | extract_lets | apply ite_keeps
    | apply next_keepsO | apply ite_keepsO | apply refused_keepsO | apply fault_keepsO | apply State.loopToOpen_keeps
    | (refine Keeps.upd ?_; first | assumption | apply State.loopToOpen_keeps) | split
    | (refine Keeps.of_fst (by assumption) ?_) | (refine Keeps.of_snd (by assumption) ?_)

theorem execHeldLoopCommandApply_keeps {z : State} {m} {s : State} (hz : Keeps z s) :
    KeepsO z (execHeldLoopCommandApply m s) := by
  unfold execHeldLoopCommandApply
  with_reducible repeat' first
    | assumption | apply ite_keeps | apply next_keepsO | apply ite_keepsO | apply refused_keepsO | apply fault_keepsO
    | apply State.loopCommands_keeps | (refine Keeps.upd ?_; first | assumption | apply State.loopCommands_keeps)

theorem loopCmdRow_keeps {z : State} {b} {m} {c} {s : State} (hz : Keeps z s) :
    KeepsO z (loopCmdRow b m c s) := by
  unfold loopCmdRow
  with_reducible repeat' first
    | assumption | apply ite_keeps | apply next_keepsO | apply ite_keepsO | apply refused_keepsO | apply fault_keepsO
    | apply State.loopCmdWrite_keeps | apply busWrite_keeps | intro _ _ _ _ | intro _ _ _ | intro _ _ | intro _
    | (refine Keeps.upd ?_; first | assumption | apply State.loopCmdWrite_keeps | apply busWrite_keeps)

theorem execAbortTune_keeps {z : State} {b} {m} {s : State} (hz : Keeps z s) :
    KeepsO z (execAbortTune b m s) := by
  unfold execAbortTune
  with_reducible repeat' first
    | assumption | apply next_keepsO | apply refused_keepsO | apply fault_keepsO | apply loopCmdRow_keeps
    | (refine KeepsO.of_next ?_ (by assumption))

theorem execLoopSwap_keeps {z : State} {b} {m} {s : State} (hz : Keeps z s) :
    KeepsO z (execLoopSwap b m s) := by
  unfold execLoopSwap
  with_reducible repeat' first
    | assumption | apply next_keepsO | apply refused_keepsO | apply fault_keepsO | apply loopCmdRow_keeps
    | (refine KeepsO.of_next ?_ (by assumption))

theorem execLoopTune_keeps {z : State} {b} {m} {s : State} (hz : Keeps z s) :
    KeepsO z (execLoopTune b m s) := by
  unfold execLoopTune
  with_reducible repeat' first
    | assumption | apply next_keepsO | apply refused_keepsO | apply fault_keepsO | apply loopCmdRow_keeps
    | (refine KeepsO.of_next ?_ (by assumption))

theorem execLoopClose_keeps {z : State} {b} {m} {s : State} (hz : Keeps z s) :
    KeepsO z (execLoopClose b m s) := by
  unfold execLoopClose
  with_reducible repeat' first
    | assumption | apply next_keepsO | apply refused_keepsO | apply fault_keepsO | apply loopCmdRow_keeps
    | (refine KeepsO.of_next ?_ (by assumption))

theorem execLoopOpen_keeps {z : State} {b} {m} {s : State} (hz : Keeps z s) :
    KeepsO z (execLoopOpen b m s) := by
  unfold execLoopOpen
  with_reducible repeat' first
    | assumption | apply next_keepsO | apply refused_keepsO | apply fault_keepsO | apply loopCmdRow_keeps
    | (refine KeepsO.of_next ?_ (by assumption))

theorem execLoopEvaluation_keeps {z : State} {m} {ecc} {s : State} (hz : Keeps z s) :
    KeepsO z (execLoopEvaluation m ecc s) := by
  unfold execLoopEvaluation
  with_reducible repeat' first
    | assumption
    | (extract_lets +onlyGivenNames x; refine (fun hx : Keeps z x => ?_) ?_; rotate_left; subst x; rotate_left; try clear_value x)
    | (extract_lets +onlyGivenNames x; clear_value x) | extract_lets | apply ite_keeps | apply next_keepsO
    | apply ite_keepsO | apply refused_keepsO | apply fault_keepsO | apply State.loopEval_keeps
    | apply State.loopDrop_keeps | apply State.soot_keeps | apply State.sramCe_keeps | apply State.updLoop_keeps
    | (refine Keeps.upd ?_; first | assumption | apply State.loopEval_keeps | apply State.loopDrop_keeps | apply State.soot_keeps | apply State.sramCe_keeps | apply State.updLoop_keeps)
    | split | (refine Keeps.of_fst (by assumption) ?_) | (refine Keeps.of_snd (by assumption) ?_)

theorem execDatapathFrameBoundary_keeps {z : State} {d} {ecc} {s : State} (hz : Keeps z s) :
    KeepsO z (execDatapathFrameBoundary d ecc s) := by
  unfold execDatapathFrameBoundary
  with_reducible repeat' first
    | assumption | apply ite_keeps | apply next_keepsO | apply ite_keepsO | apply refused_keepsO | apply fault_keepsO
    | apply State.laserFrames_keeps | apply State.galvoRefs_keeps | apply State.cntW_keeps
    | apply State.auxApply_keeps | apply State.cnt_keeps | apply State.downlinkFrame_keeps
    | apply State.loopsShow_keeps | apply forN_keeps | intro _ _ _ _ | intro _ _ _ | intro _ _ | intro _
    | (refine Keeps.upd ?_; first | assumption | apply State.laserFrames_keeps | apply State.galvoRefs_keeps | apply State.cntW_keeps | apply State.auxApply_keeps | apply State.cnt_keeps | apply State.downlinkFrame_keeps | apply State.loopsShow_keeps | apply forN_keeps)

end Sys2Proof.Machine
end

