-- ==== Sys2Proof/Laws/KeepsDrives.lean ====
section
/-! SUPPORT. What every operation of Machine/Drives.lean keeps (Laws/Keeps.lean). -/
-- one script for every shape of goal: what a goal does not need is not reported
set_option linter.all false
namespace Sys2Proof.Machine

theorem State.drvEnUpdate_keeps {z : State} {s : State} (hz : Keeps z s) :
    Keeps z (State.drvEnUpdate s) := by
  unfold State.drvEnUpdate
  with_reducible repeat' first
    | assumption | apply ite_keeps | apply forN_keeps | intro _ _ _ _ | intro _ _ _ | intro _ _ | intro _
    | (refine Keeps.upd ?_; first | assumption | apply forN_keeps)

theorem State.blEnter_keeps {z : State} {s : State} {k} {st} (hz : Keeps z s) :
    Keeps z (State.blEnter s k st) := by
  unfold State.blEnter
  with_reducible repeat' first
    | assumption | apply State.updBldc_keeps | apply State.wrf_keeps | apply State.wrb_keeps

theorem State.blGatesOff_keeps {z : State} {s : State} {k} {st} (hz : Keeps z s) :
    Keeps z (State.blGatesOff s k st) := by
  unfold State.blGatesOff
  with_reducible repeat' first
    | assumption | apply State.blEnter_keeps | apply State.wrf_keeps | apply State.wrb_keeps
    | apply State.updBldc_keeps

theorem State.blShort_keeps {z : State} {s : State} {k} (hz : Keeps z s) :
    Keeps z (State.blShort s k) := by
  unfold State.blShort
  with_reducible repeat' first
    | assumption | apply ite_keeps | apply State.blGatesOff_keeps | apply State.updBldc_keeps | apply State.soot_keeps
    | (refine Keeps.upd ?_; first | assumption | apply State.blGatesOff_keeps | apply State.updBldc_keeps | apply State.soot_keeps)

theorem State.stpPageState_keeps {z : State} {s : State} {p} (hz : Keeps z s) :
    Keeps z (State.stpPageState s p) := by
  unfold State.stpPageState
  with_reducible repeat' first
    | assumption | apply State.setStat_keeps

theorem State.stpEnter_keeps {z : State} {s : State} {p} {st} (hz : Keeps z s) :
    Keeps z (State.stpEnter s p st) := by
  unfold State.stpEnter
  with_reducible repeat' first
    | assumption
    | (extract_lets +onlyGivenNames x; refine (fun hx : Keeps z x => ?_) ?_; rotate_left; subst x; rotate_left; try clear_value x)
    | (extract_lets +onlyGivenNames x; clear_value x) | extract_lets | apply ite_keeps | apply State.condMarking_keeps
    | apply State.loopsDropFor_keeps | apply State.irq_keeps | apply State.stpPageState_keeps | apply State.wrb_keeps
    | apply State.wrf_keeps
    | (refine Keeps.upd ?_; first | assumption | apply State.condMarking_keeps | apply State.loopsDropFor_keeps | apply State.irq_keeps | apply State.stpPageState_keeps | apply State.wrb_keeps | apply State.wrf_keeps)
    | split | (refine Keeps.of_fst (by assumption) ?_) | (refine Keeps.of_snd (by assumption) ?_)

theorem State.stpHaltMotion_keeps {z : State} {s : State} {p} (hz : Keeps z s) :
    Keeps z (State.stpHaltMotion s p) := by
  unfold State.stpHaltMotion
  with_reducible repeat' first
    | assumption | apply State.updStep__keeps | apply State.wrf_keeps

theorem State.stpLost_keeps {z : State} {s : State} {p} {b} (hz : Keeps z s) :
    Keeps z (State.stpLost s p b) := by
  unfold State.stpLost
  with_reducible repeat' first
    | assumption | apply State.wrb_keeps

theorem State.stpShort_keeps {z : State} {s : State} {p} (hz : Keeps z s) :
    Keeps z (State.stpShort s p) := by
  unfold State.stpShort
  with_reducible repeat' first
    | assumption | apply ite_keeps | apply State.wrb_keeps | apply State.stpEnter_keeps | apply State.soot_keeps
    | apply State.stpHaltMotion_keeps | apply State.stpLost_keeps | apply State.updStep__keeps
    | (refine Keeps.upd ?_; first | assumption | apply State.wrb_keeps | apply State.stpEnter_keeps | apply State.soot_keeps | apply State.stpHaltMotion_keeps | apply State.stpLost_keeps | apply State.updStep__keeps)

theorem State.busShort_keeps {z : State} {s : State} {u} {all} (hz : Keeps z s) :
    Keeps z (State.busShort s u all) := by
  unfold State.busShort
  with_reducible repeat' first
    | assumption | apply ite_keeps | apply State.wrb_keeps | apply State.drvEnUpdate_keeps | apply State.blShort_keeps
    | apply State.stpShort_keeps | apply forN_keeps | intro _ _ _ _ | intro _ _ _ | intro _ _ | intro _
    | (refine Keeps.upd ?_; first | assumption | apply State.wrb_keeps | apply State.drvEnUpdate_keeps | apply State.blShort_keeps | apply State.stpShort_keeps | apply forN_keeps)

theorem State.busCheck_keeps {z : State} {s : State} {u} (hz : Keeps z s) :
    Keeps z (State.busCheck s u) := by
  unfold State.busCheck
  with_reducible repeat' first
    | assumption | apply ite_keeps | apply State.busShort_keeps
    | (refine Keeps.upd ?_; first | assumption | apply State.busShort_keeps)

theorem State.blShow_keeps {z : State} {s : State} {k} (hz : Keeps z s) :
    Keeps z (State.blShow s k) := by
  unfold State.blShow
  with_reducible repeat' first
    | assumption | apply ite_keeps | apply State.busCheck_keeps | apply State.wrb_keeps | apply State.wrf_keeps
    | (refine Keeps.upd ?_; first | assumption | apply State.busCheck_keeps | apply State.wrb_keeps | apply State.wrf_keeps)

theorem State.blOffNow_keeps {z : State} {s : State} {k} (hz : Keeps z s) :
    Keeps z (State.blOffNow s k) := by
  unfold State.blOffNow
  with_reducible repeat' first
    | assumption | apply ite_keeps | apply State.blGatesOff_keeps | apply State.updBldc_keeps
    | (refine Keeps.upd ?_; first | assumption | apply State.blGatesOff_keeps | apply State.updBldc_keeps)

theorem State.blStart_keeps {z : State} {s : State} {k} (hz : Keeps z s) :
    Keeps z (State.blStart s k) := by
  unfold State.blStart
  with_reducible repeat' first
    | assumption | apply State.updBldc_keeps | apply State.blGatesOff_keeps | apply State.cnt_keeps

theorem State.blOnNow_keeps {z : State} {s : State} {k} (hz : Keeps z s) :
    Keeps z (State.blOnNow s k) := by
  unfold State.blOnNow
  with_reducible repeat' first
    | assumption | apply ite_keeps | apply State.blStart_keeps | apply State.setBldc_keeps
    | (refine Keeps.upd ?_; first | assumption | apply State.blStart_keeps | apply State.setBldc_keeps)

theorem State.bldcCurve_keeps {z : State} {s : State} {k} (hz : Keeps z s) :
    Keeps z (State.bldcCurve s k) := by
  unfold State.bldcCurve
  with_reducible repeat' first
    | assumption | apply ite_keeps | apply State.blShow_keeps | apply State.blOffNow_keeps | apply State.blOnNow_keeps
    | apply State.wrb_keeps | apply State.irq_keeps
    | (refine Keeps.upd ?_; first | assumption | apply State.blShow_keeps | apply State.blOffNow_keeps | apply State.blOnNow_keeps | apply State.wrb_keeps | apply State.irq_keeps)

theorem State.adcConverted_keeps {z : State} {s : State} {i} {code} (hz : Keeps z s) :
    Keeps z (State.adcConverted s i code) := by
  unfold State.adcConverted
  with_reducible repeat' first
    | assumption | apply ite_keeps | apply State.bldcCurve_keeps | apply State.wrb_keeps | apply State.updBldc_keeps
    | apply forN_keeps | intro _ _ _ _ | intro _ _ _ | intro _ _ | intro _
    | (refine Keeps.upd ?_; first | assumption | apply State.bldcCurve_keeps | apply State.wrb_keeps | apply State.updBldc_keeps | apply forN_keeps)

theorem State.blAlign_keeps {z : State} {s : State} {k} (hz : Keeps z s) :
    Keeps z (State.blAlign s k) := by
  unfold State.blAlign
  with_reducible repeat' first
    | assumption | apply State.blEnter_keeps | apply State.wrf_keeps

theorem State.blStopNow_keeps {z : State} {s : State} {k} (hz : Keeps z s) :
    Keeps z (State.blStopNow s k) := by
  unfold State.blStopNow
  with_reducible repeat' first
    | assumption | apply ite_keeps | apply State.blEnter_keeps | apply State.blGatesOff_keeps
    | apply State.updBldc_keeps
    | (refine Keeps.upd ?_; first | assumption | apply State.blEnter_keeps | apply State.blGatesOff_keeps | apply State.updBldc_keeps)

theorem State.blCmdWrite_keeps {z : State} {s : State} {k} {v} (hz : Keeps z s) :
    Keeps z (State.blCmdWrite s k v) := by
  unfold State.blCmdWrite
  with_reducible repeat' first
    | assumption | (extract_lets +onlyGivenNames x; clear_value x) | extract_lets | apply ite_keeps
    | apply State.blStopNow_keeps | apply State.blOffNow_keeps | apply State.blOnNow_keeps
    | (refine Keeps.upd ?_; first | assumption | apply State.blStopNow_keeps | apply State.blOffNow_keeps | apply State.blOnNow_keeps)
    | split | (refine Keeps.of_fst (by assumption) ?_) | (refine Keeps.of_snd (by assumption) ?_)

theorem State.blControl_keeps {z : State} {s : State} {k} (hz : Keeps z s) :
    Keeps z (State.blControl s k) := by
  unfold State.blControl
  with_reducible repeat' first
    | assumption | apply State.wrf_keeps | apply State.setBldc_keeps

theorem State.blDisabled_keeps {z : State} {s : State} {k} (hz : Keeps z s) :
    Keeps z (State.blDisabled s k) := by
  unfold State.blDisabled
  with_reducible repeat' first
    | assumption | apply State.wrb_keeps | apply State.loopsCheck_keeps | apply State.setBldc_keeps
    | apply State.wr_keeps

theorem State.blEnabled_keeps {z : State} {s : State} {k} (hz : Keeps z s) :
    Keeps z (State.blEnabled s k) := by
  unfold State.blEnabled
  with_reducible repeat' first
    | assumption | apply State.blGatesOff_keeps | apply State.wrb_keeps | apply State.bldcCurve_keeps
    | apply State.setBldc_keeps | apply State.wr_keeps

theorem State.blFail_keeps {z : State} {s : State} {k} {b} (hz : Keeps z s) :
    Keeps z (State.blFail s k b) := by
  unfold State.blFail
  with_reducible repeat' first
    | assumption | apply State.soot_keeps | apply State.blGatesOff_keeps | apply State.cnt_keeps
    | apply State.irq_keeps

theorem State.blRun_keeps {z : State} {s : State} {k} {catch_} (hz : Keeps z s) :
    Keeps z (State.blRun s k catch_) := by
  unfold State.blRun
  with_reducible repeat' first
    | assumption | (extract_lets +onlyGivenNames x; clear_value x) | extract_lets | apply ite_keeps
    | apply State.wrf_keeps | apply State.blShow_keeps | apply State.updBldc_keeps | apply State.blEnter_keeps
    | apply State.irq_keeps | apply State.drawNat_keeps
    | (refine Keeps.upd ?_; first | assumption | apply State.wrf_keeps | apply State.blShow_keeps | apply State.updBldc_keeps | apply State.blEnter_keeps | apply State.irq_keeps | apply State.drawNat_keeps)
    | split | (refine Keeps.of_fst (by assumption) ?_) | (refine Keeps.of_snd (by assumption) ?_)

theorem State.brakeGate_keeps {z : State} {s : State} {u} (hz : Keeps z s) :
    Keeps z (State.brakeGate s u) := by
  unfold State.brakeGate
  with_reducible repeat' first
    | assumption | apply ite_keeps | apply State.wr_keeps | apply State.setMbus_keeps | apply State.wrb_keeps
    | (refine Keeps.upd ?_; first | assumption | apply State.wr_keeps | apply State.setMbus_keeps | apply State.wrb_keeps)

theorem State.brakeOver_keeps {z : State} {s : State} {k} (hz : Keeps z s) :
    Keeps z (State.brakeOver s k) := by
  unfold State.brakeOver
  with_reducible repeat' first
    | assumption | apply ite_keeps | apply State.blAlign_keeps | apply State.blGatesOff_keeps
    | (refine Keeps.upd ?_; first | assumption | apply State.blAlign_keeps | apply State.blGatesOff_keeps)

theorem State.busCrossing_keeps {z : State} {s : State} {u} {mv} (hz : Keeps z s) :
    Keeps z (State.busCrossing s u mv).1 := by
  unfold State.busCrossing
  with_reducible repeat' first
    | assumption | apply ite_keeps | apply State.sootOff_keeps | apply State.busCheck_keeps
    | apply State.drvEnUpdate_keeps | apply State.soot_keeps | apply State.cnt_keeps | apply State.irq_keeps
    | apply State.brakeGate_keeps | apply State.updMbus_keeps | apply State.wrb_keeps | apply State.wrf_keeps
    | apply State.peak_keeps
    | (refine Keeps.upd ?_; first | assumption | apply State.sootOff_keeps | apply State.busCheck_keeps | apply State.drvEnUpdate_keeps | apply State.soot_keeps | apply State.cnt_keeps | apply State.irq_keeps | apply State.brakeGate_keeps | apply State.updMbus_keeps | apply State.wrb_keeps | apply State.wrf_keeps | apply State.peak_keeps)

theorem State.drivesChannelSafe_keeps {z : State} {s : State} {n} (hz : Keeps z s) :
    Keeps z (State.drivesChannelSafe s n) := by
  unfold State.drivesChannelSafe
  with_reducible repeat' first
    | assumption | apply ite_keeps | apply State.updStep__keeps | apply forN_keeps | intro _ _ _ _ | intro _ _ _
    | intro _ _ | intro _ | (refine Keeps.upd ?_; first | assumption | apply State.updStep__keeps | apply forN_keeps)

theorem State.chopperFault_keeps {z : State} {s : State} {u} (hz : Keeps z s) :
    Keeps z (State.chopperFault s u) := by
  unfold State.chopperFault
  with_reducible repeat' first
    | assumption | apply ite_keeps | apply State.busCheck_keeps | apply State.soot_keeps | apply State.wrb_keeps
    | apply State.irq_keeps | apply State.brakeGate_keeps
    | (refine Keeps.upd ?_; first | assumption | apply State.busCheck_keeps | apply State.soot_keeps | apply State.wrb_keeps | apply State.irq_keeps | apply State.brakeGate_keeps)

theorem State.drivesSafeLeft_keeps {z : State} {s : State} (hz : Keeps z s) :
    Keeps z (State.drivesSafeLeft s) := by
  unfold State.drivesSafeLeft
  with_reducible repeat' first
    | assumption | apply ite_keeps | apply State.drvEnUpdate_keeps | apply State.blGatesOff_keeps
    | apply State.stpPageState_keeps | apply forN_keeps | intro _ _ _ _ | intro _ _ _ | intro _ _ | intro _
    | (refine Keeps.upd ?_; first | assumption | apply State.drvEnUpdate_keeps | apply State.blGatesOff_keeps | apply State.stpPageState_keeps | apply forN_keeps)

theorem State.drivesDeviceSafe_keeps {z : State} {s : State} (hz : Keeps z s) :
    Keeps z (State.drivesDeviceSafe s) := by
  unfold State.drivesDeviceSafe
  with_reducible repeat' first
    | assumption | apply ite_keeps | apply State.drvEnUpdate_keeps | apply State.loopsCheck_keeps
    | apply State.blGatesOff_keeps | apply State.stpHaltMotion_keeps | apply State.stpLost_keeps
    | apply State.stpEnter_keeps | apply State.stpPageState_keeps | apply State.busShort_keeps | apply forN_keeps
    | intro _ _ _ _ | intro _ _ _ | intro _ _ | intro _
    | (refine Keeps.upd ?_; first | assumption | apply State.drvEnUpdate_keeps | apply State.loopsCheck_keeps | apply State.blGatesOff_keeps | apply State.stpHaltMotion_keeps | apply State.stpLost_keeps | apply State.stpEnter_keeps | apply State.stpPageState_keeps | apply State.busShort_keeps | apply forN_keeps)

theorem State.coilCross_keeps {z : State} {s : State} {p} {b} (hz : Keeps z s) :
    Keeps z (State.coilCross s p b) := by
  unfold State.coilCross
  with_reducible repeat' first
    | assumption | (extract_lets +onlyGivenNames x; clear_value x) | extract_lets | apply ite_keeps
    | apply State.setStep__keeps | (refine Keeps.upd ?_; first | assumption | apply State.setStep__keeps) | split
    | (refine Keeps.of_fst (by assumption) ?_) | (refine Keeps.of_snd (by assumption) ?_)

theorem State.dcDutyWrite_keeps {z : State} {s : State} {p} {v} (hz : Keeps z s) :
    Keeps z (State.dcDutyWrite s p v) := by
  unfold State.dcDutyWrite
  with_reducible repeat' first
    | assumption | apply State.wrf_keeps | apply State.updStep__keeps

theorem State.mbEnabled_keeps {z : State} {s : State} {u} {on} (hz : Keeps z s) :
    Keeps z (State.mbEnabled s u on) := by
  unfold State.mbEnabled
  with_reducible repeat' first
    | assumption | apply State.brakeGate_keeps | apply State.drvEnUpdate_keeps | apply State.wrb_keeps

theorem State.stpDisabled_keeps {z : State} {s : State} {p} (hz : Keeps z s) :
    Keeps z (State.stpDisabled s p) := by
  unfold State.stpDisabled
  with_reducible repeat' first
    | assumption | apply State.loopsCheck_keeps | apply State.wr_keeps | apply State.wrb_keeps
    | apply State.stpLost_keeps | apply State.setStep__keeps

theorem State.drivesTick_keeps {z : State} {s : State} (hz : Keeps z s) :
    Keeps z (State.drivesTick s) := by
  unfold State.drivesTick
  with_reducible repeat' first
    | assumption | apply ite_keeps | apply State.brakeOver_keeps | apply forL_keeps | apply forL_keeps_fst
    | intro _ _ _ _ | intro _ _ _ | intro _ _ | intro _
    | (refine Keeps.upd ?_; first | assumption | apply State.brakeOver_keeps | apply forL_keeps)

theorem State.setINow_keeps {z : State} {s : State} {p} {v} (hz : Keeps z s) :
    Keeps z (State.setINow s p v) := by
  unfold State.setINow
  with_reducible repeat' first
    | assumption | apply State.wrf_keeps

theorem State.stpToIdle_keeps {z : State} {s : State} {p} (hz : Keeps z s) :
    Keeps z (State.stpToIdle s p) := by
  unfold State.stpToIdle
  with_reducible repeat' first
    | assumption | apply State.wrb_keeps | apply State.stpEnter_keeps | apply State.stpHaltMotion_keeps
    | apply State.updStep__keeps

theorem State.stpEnabled_keeps {z : State} {s : State} {p} (hz : Keeps z s) :
    Keeps z (State.stpEnabled s p) := by
  unfold State.stpEnabled
  with_reducible repeat' first
    | assumption | apply State.setINow_keeps | apply State.stpPageState_keeps | apply State.stpToIdle_keeps
    | apply State.wr_keeps | apply State.wrb_keeps | apply State.stpLost_keeps | apply State.setStep__keeps

theorem State.homeStall_keeps {z : State} {s : State} {p} (hz : Keeps z s) :
    Keeps z (State.homeStall s p) := by
  unfold State.homeStall
  with_reducible repeat' first
    | assumption | apply State.setStep__keeps | apply State.stpLost_keeps

theorem State.stall_keeps {z : State} {s : State} {p} (hz : Keeps z s) :
    Keeps z (State.stall s p) := by
  unfold State.stall
  with_reducible repeat' first
    | assumption | apply ite_keeps | apply State.cnt_keeps | apply State.soot_keeps | apply State.wrb_keeps
    | apply State.stpEnter_keeps | apply State.irq_keeps | apply State.setINow_keeps | apply State.stpLost_keeps
    | apply State.stpHaltMotion_keeps | apply State.updStep__keeps | apply State.homeStall_keeps
    | (refine Keeps.upd ?_; first | assumption | apply State.cnt_keeps | apply State.soot_keeps | apply State.wrb_keeps | apply State.stpEnter_keeps | apply State.irq_keeps | apply State.setINow_keeps | apply State.stpLost_keeps | apply State.stpHaltMotion_keeps | apply State.updStep__keeps | apply State.homeStall_keeps)

theorem State.loadStep_keeps {z : State} {s : State} {p} {lag} (hz : Keeps z s) :
    Keeps z (State.loadStep s p lag) := by
  unfold State.loadStep
  with_reducible repeat' first
    | assumption | apply ite_keeps | apply State.stall_keeps | apply State.updStep__keeps | apply State.setINow_keeps
    | apply State.wrf_keeps
    | (refine Keeps.upd ?_; first | assumption | apply State.stall_keeps | apply State.updStep__keeps | apply State.setINow_keeps | apply State.wrf_keeps)

theorem State.mbCmdWrite_keeps {z : State} {s : State} {u} {v} (hz : Keeps z s) :
    Keeps z (State.mbCmdWrite s u v) := by
  unfold State.mbCmdWrite
  with_reducible repeat' first
    | assumption | apply ite_keeps | apply State.wrb_keeps | apply State.brakeGate_keeps
    | (refine Keeps.upd ?_; first | assumption | apply State.wrb_keeps | apply State.brakeGate_keeps)

theorem State.motionEnd_keeps {z : State} {s : State} {p} (hz : Keeps z s) :
    Keeps z (State.motionEnd s p) := by
  unfold State.motionEnd
  with_reducible repeat' first
    | assumption
    | (extract_lets +onlyGivenNames x; refine (fun hx : Keeps z x => ?_) ?_; rotate_left; subst x; rotate_left; try clear_value x)
    | (extract_lets +onlyGivenNames x; clear_value x) | extract_lets | apply ite_keeps | apply State.wr_keeps
    | apply State.irq_keeps | apply State.cnt_keeps | apply State.wrb_keeps | apply State.stpLost_keeps
    | apply State.stpToIdle_keeps | apply State.soot_keeps | apply State.setStep__keeps
    | (refine Keeps.upd ?_; first | assumption | apply State.wr_keeps | apply State.irq_keeps | apply State.cnt_keeps | apply State.wrb_keeps | apply State.stpLost_keeps | apply State.stpToIdle_keeps | apply State.soot_keeps | apply State.setStep__keeps)
    | split | (refine Keeps.of_fst (by assumption) ?_) | (refine Keeps.of_snd (by assumption) ?_)

theorem State.resolution_keeps {z : State} {s : State} {p} (hz : Keeps z s) :
    Keeps z (State.resolution s p) := by
  unfold State.resolution
  with_reducible repeat' first
    | assumption | apply ite_keeps | apply State.wrf_keeps
    | (refine Keeps.upd ?_; first | assumption | apply State.wrf_keeps)

theorem State.stpResumeNow_keeps {z : State} {s : State} {p} (hz : Keeps z s) :
    Keeps z (State.stpResumeNow s p) := by
  unfold State.stpResumeNow
  with_reducible repeat' first
    | assumption | apply ite_keeps | apply State.stpToIdle_keeps
    | (refine Keeps.upd ?_; first | assumption | apply State.stpToIdle_keeps)

theorem State.stpUngearNow_keeps {z : State} {s : State} {p} (hz : Keeps z s) :
    Keeps z (State.stpUngearNow s p) := by
  unfold State.stpUngearNow
  with_reducible repeat' first
    | assumption | apply ite_keeps | apply State.updStep__keeps
    | (refine Keeps.upd ?_; first | assumption | apply State.updStep__keeps)

theorem State.stpGearNow_keeps {z : State} {s : State} {p} (hz : Keeps z s) :
    Keeps z (State.stpGearNow s p) := by
  unfold State.stpGearNow
  with_reducible repeat' first
    | assumption | apply ite_keeps | apply State.updStep__keeps | apply State.wrb_keeps | apply State.stpEnter_keeps
    | (refine Keeps.upd ?_; first | assumption | apply State.updStep__keeps | apply State.wrb_keeps | apply State.stpEnter_keeps)

theorem State.stpSetPosNow_keeps {z : State} {s : State} {p} (hz : Keeps z s) :
    Keeps z (State.stpSetPosNow s p) := by
  unfold State.stpSetPosNow
  with_reducible repeat' first
    | assumption | apply ite_keeps | apply State.stpLost_keeps | apply State.stpToIdle_keeps
    | apply State.updStep__keeps
    | (refine Keeps.upd ?_; first | assumption | apply State.stpLost_keeps | apply State.stpToIdle_keeps | apply State.updStep__keeps)

theorem State.stpHomeNow_keeps {z : State} {s : State} {p} (hz : Keeps z s) :
    Keeps z (State.stpHomeNow s p) := by
  unfold State.stpHomeNow
  with_reducible repeat' first
    | assumption | apply ite_keeps | apply State.setINow_keeps | apply State.stpEnter_keeps | apply State.wrb_keeps
    | apply State.stpLost_keeps | apply State.updStep__keeps
    | (refine Keeps.upd ?_; first | assumption | apply State.setINow_keeps | apply State.stpEnter_keeps | apply State.wrb_keeps | apply State.stpLost_keeps | apply State.updStep__keeps)

theorem State.stpStopNow_keeps {z : State} {s : State} {p} (hz : Keeps z s) :
    Keeps z (State.stpStopNow s p) := by
  unfold State.stpStopNow
  with_reducible repeat' first
    | assumption | apply ite_keeps | apply State.updStep__keeps
    | (refine Keeps.upd ?_; first | assumption | apply State.updStep__keeps)

theorem State.stpDo_keeps {z : State} {s : State} {p} {c} (hz : Keeps z s) :
    Keeps z (State.stpDo s p c) := by
  unfold State.stpDo
  with_reducible repeat' first
    | assumption | (extract_lets +onlyGivenNames x; clear_value x) | extract_lets | apply ite_keeps
    | apply State.stpResumeNow_keeps | apply State.stpUngearNow_keeps | apply State.stpGearNow_keeps
    | apply State.stpSetPosNow_keeps | apply State.stpHomeNow_keeps | apply State.stpStopNow_keeps
    | (refine Keeps.upd ?_; first | assumption | apply State.stpResumeNow_keeps | apply State.stpUngearNow_keeps | apply State.stpGearNow_keeps | apply State.stpSetPosNow_keeps | apply State.stpHomeNow_keeps | apply State.stpStopNow_keeps)
    | split | (refine Keeps.of_fst (by assumption) ?_) | (refine Keeps.of_snd (by assumption) ?_)

theorem State.stpCmdWrite_keeps {z : State} {s : State} {p} {v} (hz : Keeps z s) :
    Keeps z (State.stpCmdWrite s p v) := by
  unfold State.stpCmdWrite
  with_reducible repeat' first
    | assumption | apply ite_keeps | apply State.stpDo_keeps | apply State.updStep__keeps
    | (refine Keeps.upd ?_; first | assumption | apply State.stpDo_keeps | apply State.updStep__keeps)

theorem State.stpTargetWrite_keeps {z : State} {s : State} {p} {v} (hz : Keeps z s) :
    Keeps z (State.stpTargetWrite s p v) := by
  unfold State.stpTargetWrite
  with_reducible repeat' first
    | assumption | apply ite_keeps | apply State.updStep__keeps | apply State.wr_keeps
    | (refine Keeps.upd ?_; first | assumption | apply State.updStep__keeps | apply State.wr_keeps)

theorem State.stpTravel_keeps {z : State} {s : State} {p} {d} (hz : Keeps z s) :
    Keeps z (State.stpTravel s p d) := by
  unfold State.stpTravel
  with_reducible repeat' first
    | assumption | apply ite_keeps | apply State.ribbonCount_keeps | apply State.wr_keeps | apply State.updStep__keeps
    | (refine Keeps.upd ?_; first | assumption | apply State.ribbonCount_keeps | apply State.wr_keeps | apply State.updStep__keeps)

theorem State.targetTake_keeps {z : State} {s : State} {p} (hz : Keeps z s) :
    Keeps z (State.targetTake s p) := by
  unfold State.targetTake
  with_reducible repeat' first
    | assumption
    | (extract_lets +onlyGivenNames x; refine (fun hx : Keeps z x => ?_) ?_; rotate_left; subst x; rotate_left; try clear_value x)
    | (extract_lets +onlyGivenNames x; clear_value x) | extract_lets | apply ite_keeps | apply State.stpEnter_keeps
    | apply State.wrb_keeps | apply State.setStep__keeps
    | (refine Keeps.upd ?_; first | assumption | apply State.stpEnter_keeps | apply State.wrb_keeps | apply State.setStep__keeps)
    | split | (refine Keeps.of_fst (by assumption) ?_) | (refine Keeps.of_snd (by assumption) ?_)

theorem execMbVpeakClear_keeps {z : State} {b} {u} {v} {s : State} (hz : Keeps z s) :
    KeepsO z (execMbVpeakClear b u v s) := by
  unfold execMbVpeakClear
  with_reducible repeat' first
    | assumption | apply ite_keeps | apply next_keepsO | apply ite_keepsO | apply refused_keepsO | apply fault_keepsO
    | apply State.wrf_keeps | apply busWrite_keeps | intro _ _ _ _ | intro _ _ _ | intro _ _ | intro _
    | (refine Keeps.upd ?_; first | assumption | apply State.wrf_keeps | apply busWrite_keeps)

theorem execDcDutyWrite_keeps {z : State} {b} {p} {v} {s : State} (hz : Keeps z s) :
    KeepsO z (execDcDutyWrite b p v s) := by
  unfold execDcDutyWrite
  with_reducible repeat' first
    | assumption | apply ite_keeps | apply next_keepsO | apply ite_keepsO | apply refused_keepsO | apply fault_keepsO
    | apply State.dcDutyWrite_keeps | apply busWrite_keeps | intro _ _ _ _ | intro _ _ _ | intro _ _ | intro _
    | (refine Keeps.upd ?_; first | assumption | apply State.dcDutyWrite_keeps | apply busWrite_keeps)

theorem execProfileParamWrite_keeps {z : State} {b} {p} {k} {v} {s : State} (hz : Keeps z s) :
    KeepsO z (execProfileParamWrite b p k v s) := by
  unfold execProfileParamWrite
  with_reducible repeat' first
    | assumption | apply ite_keeps | apply next_keepsO | apply ite_keepsO | apply refused_keepsO | apply fault_keepsO
    | apply State.wr_keeps | apply busWrite_keeps | intro _ _ _ _ | intro _ _ _ | intro _ _ | intro _
    | (refine Keeps.upd ?_; first | assumption | apply State.wr_keeps | apply busWrite_keeps)

theorem execStepperTargetWrite_keeps {z : State} {b} {p} {v} {s : State} (hz : Keeps z s) :
    KeepsO z (execStepperTargetWrite b p v s) := by
  unfold execStepperTargetWrite
  with_reducible repeat' first
    | assumption | apply ite_keeps | apply next_keepsO | apply ite_keepsO | apply refused_keepsO | apply fault_keepsO
    | apply State.stpTargetWrite_keeps | apply busWrite_keeps | intro _ _ _ _ | intro _ _ _ | intro _ _ | intro _
    | (refine Keeps.upd ?_; first | assumption | apply State.stpTargetWrite_keeps | apply busWrite_keeps)

theorem blCmdRow_keeps {z : State} {b} {k} {c} {s : State} (hz : Keeps z s) :
    KeepsO z (blCmdRow b k c s) := by
  unfold blCmdRow
  with_reducible repeat' first
    | assumption | apply ite_keeps | apply next_keepsO | apply ite_keepsO | apply refused_keepsO | apply fault_keepsO
    | apply State.blCmdWrite_keeps | apply busWrite_keeps | intro _ _ _ _ | intro _ _ _ | intro _ _ | intro _
    | (refine Keeps.upd ?_; first | assumption | apply State.blCmdWrite_keeps | apply busWrite_keeps)

theorem execShortHoldEnd_keeps {z : State} {u} {s : State} (hz : Keeps z s) :
    KeepsO z (execShortHoldEnd u s) := by
  unfold execShortHoldEnd
  with_reducible repeat' first
    | assumption
    | (extract_lets +onlyGivenNames x; refine (fun hx : Keeps z x => ?_) ?_; rotate_left; subst x; rotate_left; try clear_value x)
    | (extract_lets +onlyGivenNames x; clear_value x) | extract_lets | apply ite_keeps | apply next_keepsO
    | apply ite_keepsO | apply refused_keepsO | apply fault_keepsO | apply State.wrb_keeps | apply State.irq_keeps
    | apply State.drvEnUpdate_keeps | apply State.blGatesOff_keeps | apply State.blStart_keeps
    | apply State.setINow_keeps | apply State.stpLost_keeps | apply State.stpEnter_keeps | apply forN_keeps
    | intro _ _ _ _ | intro _ _ _ | intro _ _ | intro _
    | (refine Keeps.upd ?_; first | assumption | apply State.wrb_keeps | apply State.irq_keeps | apply State.drvEnUpdate_keeps | apply State.blGatesOff_keeps | apply State.blStart_keeps | apply State.setINow_keeps | apply State.stpLost_keeps | apply State.stpEnter_keeps | apply forN_keeps)
    | split | (refine Keeps.of_fst (by assumption) ?_) | (refine Keeps.of_snd (by assumption) ?_)

theorem execClearCf_keeps {z : State} {b} {u} {v} {s : State} (hz : Keeps z s) :
    KeepsO z (execClearCf b u v s) := by
  unfold execClearCf
  with_reducible repeat' first
    | assumption | apply ite_keeps | apply next_keepsO | apply ite_keepsO | apply refused_keepsO | apply fault_keepsO
    | apply State.mbCmdWrite_keeps | apply busWrite_keeps | intro _ _ _ _ | intro _ _ _ | intro _ _ | intro _
    | (refine Keeps.upd ?_; first | assumption | apply State.mbCmdWrite_keeps | apply busWrite_keeps)

theorem execBrakeCurrentCheck_keeps {z : State} {u} {code} {s : State} (hz : Keeps z s) :
    KeepsO z (execBrakeCurrentCheck u code s) := by
  unfold execBrakeCurrentCheck
  with_reducible repeat' first
    | assumption
    | (extract_lets +onlyGivenNames x; refine (fun hx : Keeps z x => ?_) ?_; rotate_left; subst x; rotate_left; try clear_value x)
    | (extract_lets +onlyGivenNames x; clear_value x) | extract_lets | apply ite_keeps | apply next_keepsO
    | apply ite_keepsO | apply refused_keepsO | apply fault_keepsO | apply State.chopperFault_keeps
    | apply State.updMbus_keeps
    | (refine Keeps.upd ?_; first | assumption | apply State.chopperFault_keeps | apply State.updMbus_keeps) | split
    | (refine Keeps.of_fst (by assumption) ?_) | (refine Keeps.of_snd (by assumption) ?_)

theorem execBldcLearnUpdate_keeps {z : State} {k} {s : State} (hz : Keeps z s) :
    KeepsO z (execBldcLearnUpdate k s) := by
  unfold execBldcLearnUpdate
  with_reducible repeat' first
    | assumption | apply ite_keeps | apply next_keepsO | apply ite_keepsO | apply refused_keepsO | apply fault_keepsO
    | apply State.wrf_keeps | apply State.setBldc_keeps
    | (refine Keeps.upd ?_; first | assumption | apply State.wrf_keeps | apply State.setBldc_keeps)

theorem execBldcRestart_keeps {z : State} {k} {s : State} (hz : Keeps z s) :
    KeepsO z (execBldcRestart k s) := by
  unfold execBldcRestart
  with_reducible repeat' first
    | assumption | apply ite_keeps | apply next_keepsO | apply ite_keepsO | apply refused_keepsO | apply fault_keepsO
    | apply State.blStart_keeps | (refine Keeps.upd ?_; first | assumption | apply State.blStart_keeps)

theorem execBldcBemfLost_keeps {z : State} {k} {s : State} (hz : Keeps z s) :
    KeepsO z (execBldcBemfLost k s) := by
  unfold execBldcBemfLost
  with_reducible repeat' first
    | assumption | apply ite_keeps | apply next_keepsO | apply ite_keepsO | apply refused_keepsO | apply fault_keepsO
    | apply State.blFail_keeps | (refine Keeps.upd ?_; first | assumption | apply State.blFail_keeps)

theorem execBldcStartFail_keeps {z : State} {k} {s : State} (hz : Keeps z s) :
    KeepsO z (execBldcStartFail k s) := by
  unfold execBldcStartFail
  with_reducible repeat' first
    | assumption | apply ite_keeps | apply next_keepsO | apply ite_keepsO | apply refused_keepsO | apply fault_keepsO
    | apply State.blFail_keeps | (refine Keeps.upd ?_; first | assumption | apply State.blFail_keeps)

theorem execBldcAlignEnd_keeps {z : State} {k} {s : State} (hz : Keeps z s) :
    KeepsO z (execBldcAlignEnd k s) := by
  unfold execBldcAlignEnd
  with_reducible repeat' first
    | assumption | apply ite_keeps | apply next_keepsO | apply ite_keepsO | apply refused_keepsO | apply fault_keepsO
    | apply State.updBldc_keeps | apply State.blEnter_keeps | apply State.wrf_keeps | apply State.drawNat_keeps
    | (refine Keeps.upd ?_; first | assumption | apply State.updBldc_keeps | apply State.blEnter_keeps | apply State.wrf_keeps | apply State.drawNat_keeps)

theorem execBldcCommutation_keeps {z : State} {k} {s : State} (hz : Keeps z s) :
    KeepsO z (execBldcCommutation k s) := by
  unfold execBldcCommutation
  with_reducible repeat' first
    | assumption | apply ite_keeps | apply next_keepsO | apply ite_keepsO | apply refused_keepsO | apply fault_keepsO
    | apply State.setBldc_keeps | (refine Keeps.upd ?_; first | assumption | apply State.setBldc_keeps)

theorem execBldcZeroCrossing_keeps {z : State} {k} {fwd} {s : State} (hz : Keeps z s) :
    KeepsO z (execBldcZeroCrossing k fwd s) := by
  unfold execBldcZeroCrossing
  with_reducible repeat' first
    | assumption
    | (extract_lets +onlyGivenNames x; refine (fun hx : Keeps z x => ?_) ?_; rotate_left; subst x; rotate_left; try clear_value x)
    | (extract_lets +onlyGivenNames x; clear_value x) | extract_lets | apply ite_keeps | apply next_keepsO
    | apply ite_keepsO | apply refused_keepsO | apply fault_keepsO | apply State.brakeOver_keeps
    | apply State.blRun_keeps | apply State.blControl_keeps | apply State.blShow_keeps | apply State.setBldc_keeps
    | (refine Keeps.upd ?_; first | assumption | apply State.brakeOver_keeps | apply State.blRun_keeps | apply State.blControl_keeps | apply State.blShow_keeps | apply State.setBldc_keeps)
    | split | (refine Keeps.of_fst (by assumption) ?_) | (refine Keeps.of_snd (by assumption) ?_)

theorem execBldcSenseEnd_keeps {z : State} {k} {s : State} (hz : Keeps z s) :
    KeepsO z (execBldcSenseEnd k s) := by
  unfold execBldcSenseEnd
  with_reducible repeat' first
    | assumption | apply ite_keeps | apply next_keepsO | apply ite_keepsO | apply refused_keepsO | apply fault_keepsO
    | apply State.blAlign_keeps | apply State.blEnter_keeps | apply State.blRun_keeps
    | (refine Keeps.upd ?_; first | assumption | apply State.blAlign_keeps | apply State.blEnter_keeps | apply State.blRun_keeps)

theorem execBldcStop_keeps {z : State} {b} {k} {s : State} (hz : Keeps z s) :
    KeepsO z (execBldcStop b k s) := by
  unfold execBldcStop
  with_reducible repeat' first
    | assumption | apply next_keepsO | apply refused_keepsO | apply fault_keepsO | apply blCmdRow_keeps
    | (refine KeepsO.of_next ?_ (by assumption))

theorem execBldcOff_keeps {z : State} {b} {k} {s : State} (hz : Keeps z s) :
    KeepsO z (execBldcOff b k s) := by
  unfold execBldcOff
  with_reducible repeat' first
    | assumption | apply next_keepsO | apply refused_keepsO | apply fault_keepsO | apply blCmdRow_keeps
    | (refine KeepsO.of_next ?_ (by assumption))

theorem execBldcOn_keeps {z : State} {b} {k} {s : State} (hz : Keeps z s) :
    KeepsO z (execBldcOn b k s) := by
  unfold execBldcOn
  with_reducible repeat' first
    | assumption | apply next_keepsO | apply refused_keepsO | apply fault_keepsO | apply blCmdRow_keeps
    | (refine KeepsO.of_next ?_ (by assumption))

theorem stpCmdRow_keeps {z : State} {b} {p} {c} {s : State} (hz : Keeps z s) :
    KeepsO z (stpCmdRow b p c s) := by
  unfold stpCmdRow
  with_reducible repeat' first
    | assumption | apply ite_keeps | apply next_keepsO | apply ite_keepsO | apply refused_keepsO | apply fault_keepsO
    | apply State.stpCmdWrite_keeps | apply busWrite_keeps | intro _ _ _ _ | intro _ _ _ | intro _ _ | intro _
    | (refine Keeps.upd ?_; first | assumption | apply State.stpCmdWrite_keeps | apply busWrite_keeps)

theorem execStepperResume_keeps {z : State} {b} {p} {s : State} (hz : Keeps z s) :
    KeepsO z (execStepperResume b p s) := by
  unfold execStepperResume
  with_reducible repeat' first
    | assumption | apply next_keepsO | apply refused_keepsO | apply fault_keepsO | apply stpCmdRow_keeps
    | (refine KeepsO.of_next ?_ (by assumption))

theorem execStepperUngear_keeps {z : State} {b} {p} {s : State} (hz : Keeps z s) :
    KeepsO z (execStepperUngear b p s) := by
  unfold execStepperUngear
  with_reducible repeat' first
    | assumption | apply next_keepsO | apply refused_keepsO | apply fault_keepsO | apply stpCmdRow_keeps
    | (refine KeepsO.of_next ?_ (by assumption))

theorem execStepperGear_keeps {z : State} {b} {p} {s : State} (hz : Keeps z s) :
    KeepsO z (execStepperGear b p s) := by
  unfold execStepperGear
  with_reducible repeat' first
    | assumption | apply next_keepsO | apply refused_keepsO | apply fault_keepsO | apply stpCmdRow_keeps
    | (refine KeepsO.of_next ?_ (by assumption))

theorem execStepperSetPos_keeps {z : State} {b} {p} {s : State} (hz : Keeps z s) :
    KeepsO z (execStepperSetPos b p s) := by
  unfold execStepperSetPos
  with_reducible repeat' first
    | assumption | apply next_keepsO | apply refused_keepsO | apply fault_keepsO | apply stpCmdRow_keeps
    | (refine KeepsO.of_next ?_ (by assumption))

theorem execStepperHome_keeps {z : State} {b} {p} {s : State} (hz : Keeps z s) :
    KeepsO z (execStepperHome b p s) := by
  unfold execStepperHome
  with_reducible repeat' first
    | assumption | apply next_keepsO | apply refused_keepsO | apply fault_keepsO | apply stpCmdRow_keeps
    | (refine KeepsO.of_next ?_ (by assumption))

theorem execStepperStop_keeps {z : State} {b} {p} {s : State} (hz : Keeps z s) :
    KeepsO z (execStepperStop b p s) := by
  unfold execStepperStop
  with_reducible repeat' first
    | assumption | apply next_keepsO | apply refused_keepsO | apply fault_keepsO | apply stpCmdRow_keeps
    | (refine KeepsO.of_next ?_ (by assumption))

theorem execHoldCurrentTimeout_keeps {z : State} {p} {s : State} (hz : Keeps z s) :
    KeepsO z (execHoldCurrentTimeout p s) := by
  unfold execHoldCurrentTimeout
  with_reducible repeat' first
    | assumption | (extract_lets +onlyGivenNames x; clear_value x) | extract_lets | apply ite_keeps
    | apply next_keepsO | apply ite_keepsO | apply refused_keepsO | apply fault_keepsO | apply State.setStep__keeps
    | apply State.setINow_keeps
    | (refine Keeps.upd ?_; first | assumption | apply State.setStep__keeps | apply State.setINow_keeps) | split
    | (refine Keeps.of_fst (by assumption) ?_) | (refine Keeps.of_snd (by assumption) ?_)

theorem execChopperOffEnd_keeps {z : State} {p} {coil} {s : State} (hz : Keeps z s) :
    KeepsO z (execChopperOffEnd p coil s) := by
  unfold execChopperOffEnd
  with_reducible repeat' first
    | assumption | apply ite_keeps | apply next_keepsO | apply ite_keepsO | apply refused_keepsO | apply fault_keepsO
    | apply State.setStep__keeps | (refine Keeps.upd ?_; first | assumption | apply State.setStep__keeps)

theorem execChopperTrip_keeps {z : State} {p} {coil} {s : State} (hz : Keeps z s) :
    KeepsO z (execChopperTrip p coil s) := by
  unfold execChopperTrip
  with_reducible repeat' first
    | assumption
    | (extract_lets +onlyGivenNames x; refine (fun hx : Keeps z x => ?_) ?_; rotate_left; subst x; rotate_left; try clear_value x)
    | (extract_lets +onlyGivenNames x; clear_value x) | extract_lets | apply ite_keeps | apply next_keepsO
    | apply ite_keepsO | apply refused_keepsO | apply fault_keepsO | apply State.loadStep_keeps
    | apply State.setStep__keeps
    | (refine Keeps.upd ?_; first | assumption | apply State.loadStep_keeps | apply State.setStep__keeps) | split
    | (refine Keeps.of_fst (by assumption) ?_) | (refine Keeps.of_snd (by assumption) ?_)

theorem execProfileTick_keeps {z : State} {p} {s : State} (hz : Keeps z s) :
    KeepsO z (execProfileTick p s) := by
  unfold execProfileTick
  with_reducible repeat' first
    | assumption | apply ite_keeps | apply next_keepsO | apply ite_keepsO | apply refused_keepsO | apply fault_keepsO
    | apply State.busCheck_keeps | apply State.resolution_keeps | apply State.coilCross_keeps | apply State.wrf_keeps
    | apply State.setINow_keeps | apply State.stpTravel_keeps | apply State.updStep__keeps
    | apply State.motionEnd_keeps | apply State.wrb_keeps | apply State.targetTake_keeps | apply State.setStep__keeps
    | (refine Keeps.upd ?_; first | assumption | apply State.busCheck_keeps | apply State.resolution_keeps | apply State.coilCross_keeps | apply State.wrf_keeps | apply State.setINow_keeps | apply State.stpTravel_keeps | apply State.updStep__keeps | apply State.motionEnd_keeps | apply State.wrb_keeps | apply State.targetTake_keeps | apply State.setStep__keeps)

end Sys2Proof.Machine
end

