-- ==== Sys2Proof/Laws/KeepsDamask.lean ====
section
/-! SUPPORT. What every operation of Machine/Damask.lean keeps (Laws/Keeps.lean). -/
-- one script for every shape of goal: what a goal does not need is not reported
set_option linter.all false
namespace Sys2Proof.Machine

theorem State.renderRequest_keeps {z : State} {s : State} {u} {j} (hz : Keeps z s) :
    Keeps z (State.renderRequest s u j) := by
  unfold State.renderRequest
  with_reducible repeat' first
    | assumption | apply ite_keeps | apply State.dmkShow_keeps
    | (refine Keeps.upd ?_; first | assumption | apply State.dmkShow_keeps)

theorem State.storePush_keeps {z : State} {s : State} {k} {payload} {slot} (hz : Keeps z s) :
    Keeps z (State.storePush s k payload slot) := by
  unfold State.storePush
  with_reducible repeat' first
    | assumption | apply ite_keeps | (refine Keeps.upd ?_; first | assumption)

theorem State.cacheShow_keeps {z : State} {s : State} (hz : Keeps z s) :
    Keeps z (State.cacheShow s) := by
  unfold State.cacheShow
  with_reducible repeat' first
    | assumption | apply State.wrf_keeps | apply State.dmkShow_keeps

theorem State.dropHolds_keeps {z : State} {s : State} {tag} (hz : Keeps z s) :
    Keeps z (State.dropHolds s tag) := by
  unfold State.dropHolds
  with_reducible repeat' first
    | assumption | apply ite_keeps | (refine Keeps.upd ?_; first | assumption)

theorem State.stgWrite_keeps {z : State} {s : State} {n} {ofs} {l} (hz : Keeps z s) :
    Keeps z (State.stgWrite s n ofs l) := by
  unfold State.stgWrite
  with_reducible repeat' first
    | assumption | apply State.wrMem_keeps

theorem State.commitMember_keeps {z : State} {s : State} {r} {t} {v} {us} {d} {b} (hz : Keeps z s) :
    Keeps z (State.commitMember s r t v us d b) := by
  unfold State.commitMember
  with_reducible repeat' first
    | assumption | apply ite_keeps | apply State.qPush_keeps | apply State.chanShow_keeps | apply State.setJob_keeps
    | apply State.stgWrite_keeps
    | (refine Keeps.upd ?_; first | assumption | apply State.qPush_keeps | apply State.chanShow_keeps | apply State.setJob_keeps | apply State.stgWrite_keeps)

theorem State.commit_keeps {z : State} {s : State} {r} {t} {v} {e} {members} {blocks} (hz : Keeps z s) :
    Keeps z (State.commit s r t v e members blocks) := by
  unfold State.commit
  with_reducible repeat' first
    | assumption | apply ite_keeps | apply State.updEngine_keeps | apply State.dropHolds_keeps
    | apply State.cntW_keeps | apply State.peak_keeps | apply State.setStnJob_keeps | apply State.commitMember_keeps
    | apply forL_keeps | apply forL_keeps_fst | intro _ _ _ _ | intro _ _ _ | intro _ _ | intro _
    | (refine Keeps.upd ?_; first | assumption | apply State.updEngine_keeps | apply State.dropHolds_keeps | apply State.cntW_keeps | apply State.peak_keeps | apply State.setStnJob_keeps | apply State.commitMember_keeps | apply forL_keeps)

theorem State.counterIssue_keeps {z : State} {s : State} {c} {shift} {day} (hz : Keeps z s) :
    Keeps z (State.counterIssue s c shift day).1 := by
  unfold State.counterIssue
  with_reducible repeat' first
    | assumption | apply State.wr_keeps | apply State.setCounter_keeps

theorem State.setEngSt_keeps {z : State} {s : State} {e} {v} (hz : Keeps z s) :
    Keeps z (State.setEngSt s e v) := by
  unfold State.setEngSt
  with_reducible repeat' first
    | assumption | apply State.wrf_keeps

theorem State.updReq_keeps {z : State} {s : State} {u} {j} {f} (hz : Keeps z s) :
    Keeps z (State.updReq s u j f) := by
  unfold State.updReq
  with_reducible repeat' first
    | assumption | apply ite_keeps | (refine Keeps.upd ?_; first | assumption)

theorem State.serialReserve_keeps {z : State} {s : State} {c} (hz : Keeps z s) :
    Keeps z (State.serialReserve s c) := by
  unfold State.serialReserve
  with_reducible repeat' first
    | assumption | apply ite_keeps | apply State.storePush_keeps | apply State.setSerial_keeps
    | (refine Keeps.upd ?_; first | assumption | apply State.storePush_keeps | apply State.setSerial_keeps)

theorem State.serialIssue_keeps {z : State} {s : State} {c} (hz : Keeps z s) :
    Keeps z (State.serialIssue s c).1 := by
  unfold State.serialIssue
  with_reducible repeat' first
    | assumption | (extract_lets +onlyGivenNames x; clear_value x) | extract_lets | apply ite_keeps
    | apply State.soot_keeps | apply State.setSerial_keeps | apply State.serialReserve_keeps
    | (refine Keeps.upd ?_; first | assumption | apply State.soot_keeps | apply State.setSerial_keeps | apply State.serialReserve_keeps)
    | split | (refine Keeps.of_fst (by assumption) ?_) | (refine Keeps.of_snd (by assumption) ?_)

theorem issueAll_keeps {z : State} {α : Type} {f : State → Nat → State × α} {l : List Nat} {s : State}
    (hf : ∀ s c, Keeps z s → Keeps z (f s c).1) (hz : Keeps z s) : Keeps z (issueAll f l s).1 := by
  induction l generalizing s with
  | nil => exact hz
  | cons c l ih => exact ih (hf _ _ hz)

theorem State.sample_keeps {z : State} {s : State} {t} {slot} (hz : Keeps z s) :
    Keeps z (State.sample s t slot).1 := by
  unfold State.sample
  with_reducible repeat' first
    | assumption | apply ite_keeps | apply State.counterIssue_keeps | apply State.serialIssue_keeps
    | apply issueAll_keeps | intro _ _ _ _ | intro _ _ _ | intro _ _ | intro _
    | (refine Keeps.upd ?_; first | assumption | apply State.counterIssue_keeps | apply State.serialIssue_keeps | apply issueAll_keeps)

theorem State.dispatch_keeps {z : State} {s : State} {r} {e} (hz : Keeps z s) :
    Keeps z (State.dispatch s r e) := by
  unfold State.dispatch
  with_reducible repeat' first
    | assumption
    | (extract_lets +onlyGivenNames x; refine (fun hx : Keeps z x => ?_) ?_; rotate_left; subst x; rotate_left; try clear_value x)
    | (extract_lets +onlyGivenNames x; refine (fun hx : Keeps z x.1 => ?_) ?_; rotate_left; subst x; rotate_left; try clear_value x)
    | (extract_lets +onlyGivenNames x; refine (fun hx : Keeps z x.2 => ?_) ?_; rotate_left; subst x; rotate_left; try clear_value x)
    | (extract_lets +onlyGivenNames x; clear_value x) | extract_lets | apply ite_keeps | apply State.updEngine_keeps
    | apply State.setEngSt_keeps | apply State.dmkShow_keeps | apply State.updReq_keeps | apply State.sample_keeps
    | apply forL_keeps | apply forL_keeps_fst | intro _ _ _ _ | intro _ _ _ | intro _ _ | intro _
    | (refine Keeps.upd ?_; first | assumption | (refine Keeps.of_fst (by assumption) ?_) | (refine Keeps.of_snd (by assumption) ?_) | apply State.updEngine_keeps | apply State.setEngSt_keeps | apply State.dmkShow_keeps | apply State.updReq_keeps | apply State.sample_keeps | apply forL_keeps)
    | split | (refine Keeps.of_fst (by assumption) ?_) | (refine Keeps.of_snd (by assumption) ?_)

theorem State.dmkOwnerReset_keeps {z : State} {s : State} (hz : Keeps z s) :
    Keeps z (State.dmkOwnerReset s) := by
  unfold State.dmkOwnerReset
  with_reducible repeat' first
    | assumption | apply ite_keeps | apply State.cacheShow_keeps | apply State.wr_keeps | apply State.updSerial_keeps
    | apply forN_keeps | intro _ _ _ _ | intro _ _ _ | intro _ _ | intro _
    | (refine Keeps.upd ?_; first | assumption | apply State.cacheShow_keeps | apply State.wr_keeps | apply State.updSerial_keeps | apply forN_keeps)

theorem State.serCapture_keeps {z : State} {s : State} {c} (hz : Keeps z s) :
    Keeps z (State.serCapture s c) := by
  unfold State.serCapture
  with_reducible repeat' first
    | assumption | apply State.wr64_keeps

theorem State.serialRestore_keeps {z : State} {s : State} (hz : Keeps z s) :
    Keeps z (State.serialRestore s) := by
  unfold State.serialRestore
  with_reducible repeat' first
    | assumption | apply State.serCapture_keeps | apply State.dmkShow_keeps

theorem State.dropReq_keeps {z : State} {s : State} {r} (hz : Keeps z s) :
    Keeps z (State.dropReq s r) := by
  unfold State.dropReq
  with_reducible repeat' first
    | assumption | apply ite_keeps | (refine Keeps.upd ?_; first | assumption)

theorem State.renderFail_keeps {z : State} {s : State} {r} {cause} {field} (hz : Keeps z s) :
    Keeps z (State.renderFail s r cause field) := by
  unfold State.renderFail
  with_reducible repeat' first
    | assumption | apply State.soot_keeps | apply State.irq_keeps | apply State.cntW_keeps | apply State.wr_keeps

theorem State.engineFault_keeps {z : State} {s : State} {e} (hz : Keeps z s) :
    Keeps z (State.engineFault s e) := by
  unfold State.engineFault
  with_reducible repeat' first
    | assumption
    | (extract_lets +onlyGivenNames x; refine (fun hx : Keeps z x => ?_) ?_; rotate_left; subst x; rotate_left; try clear_value x)
    | (extract_lets +onlyGivenNames x; clear_value x) | extract_lets | apply ite_keeps | apply State.updReq_keeps
    | apply State.renderFail_keeps | apply State.dropReq_keeps | apply State.dropHolds_keeps
    | apply State.dmkShow_keeps | apply State.setEngSt_keeps | apply State.cnt_keeps | apply State.soot_keeps
    | (refine Keeps.upd ?_; first | assumption | apply State.updReq_keeps | apply State.renderFail_keeps | apply State.dropReq_keeps | apply State.dropHolds_keeps | apply State.dmkShow_keeps | apply State.setEngSt_keeps | apply State.cnt_keeps | apply State.soot_keeps)
    | split | (refine Keeps.of_fst (by assumption) ?_) | (refine Keeps.of_snd (by assumption) ?_)

theorem State.lotSelect_keeps {z : State} {s : State} {v} (hz : Keeps z s) :
    Keeps z (State.lotSelect s v) := by
  unfold State.lotSelect
  with_reducible repeat' first
    | assumption | apply ite_keeps | apply State.wr_keeps | apply State.wrf_keeps | apply State.plainWrite_keeps
    | apply forN_keeps | intro _ _ _ _ | intro _ _ _ | intro _ _ | intro _
    | (refine Keeps.upd ?_; first | assumption | apply State.wr_keeps | apply State.wrf_keeps | apply State.plainWrite_keeps | apply forN_keeps)

theorem State.markDamped_keeps {z : State} {s : State} {r} (hz : Keeps z s) :
    Keeps z (State.markDamped s r) := by
  unfold State.markDamped
  with_reducible repeat' first
    | assumption | apply ite_keeps | apply State.setStnJob_keeps | apply State.updJob_keeps | apply forL_keeps
    | apply forL_keeps_fst | intro _ _ _ _ | intro _ _ _ | intro _ _ | intro _
    | (refine Keeps.upd ?_; first | assumption | apply State.setStnJob_keeps | apply State.updJob_keeps | apply forL_keeps)

theorem State.serRes_keeps {z : State} {s : State} {v} (hz : Keeps z s) :
    Keeps z (State.serRes s v) := by
  unfold State.serRes
  with_reducible repeat' first
    | assumption | apply State.wrf_keeps | apply State.irq_keeps

theorem State.serCmd_keeps {z : State} {s : State} {v} (hz : Keeps z s) :
    Keeps z (State.serCmd s v) := by
  unfold State.serCmd
  with_reducible repeat' first
    | assumption | apply ite_keeps | apply State.storePush_keeps | apply State.updSerial_keeps | apply State.wrf_keeps
    | apply State.serRes_keeps
    | (refine Keeps.upd ?_; first | assumption | apply State.storePush_keeps | apply State.updSerial_keeps | apply State.wrf_keeps | apply State.serRes_keeps)

theorem State.serialConfirmed_keeps {z : State} {s : State} {c} {payload} (hz : Keeps z s) :
    Keeps z (State.serialConfirmed s c payload) := by
  unfold State.serialConfirmed
  with_reducible repeat' first
    | assumption | (extract_lets +onlyGivenNames x; clear_value x) | extract_lets | apply ite_keeps
    | apply State.serialReserve_keeps | apply State.setSerial_keeps | apply State.serRes_keeps
    | (refine Keeps.upd ?_; first | assumption | apply State.serialReserve_keeps | apply State.setSerial_keeps | apply State.serRes_keeps)
    | split | (refine Keeps.of_fst (by assumption) ?_) | (refine Keeps.of_snd (by assumption) ?_)

theorem State.serialFailed_keeps {z : State} {s : State} (hz : Keeps z s) :
    Keeps z (State.serialFailed s) := by
  unfold State.serialFailed
  with_reducible repeat' first
    | assumption | apply State.soot_keeps

theorem State.serialLost_keeps {z : State} {s : State} (hz : Keeps z s) :
    Keeps z (State.serialLost s) := by
  unfold State.serialLost
  with_reducible repeat' first
    | assumption | apply ite_keeps | apply State.updSerial_keeps | apply State.serialReserve_keeps | apply forN_keeps
    | intro _ _ _ _ | intro _ _ _ | intro _ _ | intro _
    | (refine Keeps.upd ?_; first | assumption | apply State.updSerial_keeps | apply State.serialReserve_keeps | apply forN_keeps)

theorem State.tplEmpty_keeps {z : State} {s : State} {k} (hz : Keeps z s) :
    Keeps z (State.tplEmpty s k) := by
  unfold State.tplEmpty
  with_reducible repeat' first
    | assumption | apply ite_keeps | apply State.cacheShow_keeps | apply State.setTplSlot_keeps
    | (refine Keeps.upd ?_; first | assumption | apply State.cacheShow_keeps | apply State.setTplSlot_keeps)

theorem State.tplResult_keeps {z : State} {s : State} {slot} {res} (hz : Keeps z s) :
    Keeps z (State.tplResult s slot res) := by
  unfold State.tplResult
  with_reducible repeat' first
    | assumption | apply ite_keeps | apply State.soot_keeps | apply State.wr_keeps | apply State.irq_keeps
    | (refine Keeps.upd ?_; first | assumption | apply State.soot_keeps | apply State.wr_keeps | apply State.irq_keeps)

theorem State.tplCmd_keeps {z : State} {s : State} {v} (hz : Keeps z s) :
    Keeps z (State.tplCmd s v) := by
  unfold State.tplCmd
  with_reducible repeat' first
    | assumption | apply ite_keeps | apply State.tplEmpty_keeps | apply State.wr_keeps | apply State.tplResult_keeps
    | apply State.soot_keeps
    | (refine Keeps.upd ?_; first | assumption | apply State.tplEmpty_keeps | apply State.wr_keeps | apply State.tplResult_keeps | apply State.soot_keeps)

theorem execTemplateSelect_keeps {z : State} {b} {u} {v} {s : State} (hz : Keeps z s) :
    KeepsO z (execTemplateSelect b u v s) := by
  unfold execTemplateSelect
  with_reducible repeat' first
    | assumption | apply ite_keeps | apply next_keepsO | apply ite_keepsO | apply refused_keepsO | apply fault_keepsO
    | apply State.plainWrite_keeps | apply State.soot_keeps | apply busWrite_keeps | intro _ _ _ _ | intro _ _ _
    | intro _ _ | intro _
    | (refine Keeps.upd ?_; first | assumption | apply State.plainWrite_keeps | apply State.soot_keeps | apply busWrite_keeps)

theorem execSerialCapture_keeps {z : State} {b} {v} {s : State} (hz : Keeps z s) :
    KeepsO z (execSerialCapture b v s) := by
  unfold execSerialCapture
  with_reducible repeat' first
    | assumption | apply ite_keeps | apply next_keepsO | apply ite_keepsO | apply refused_keepsO | apply fault_keepsO
    | apply State.plainWrite_keeps | apply State.serCapture_keeps | apply busWrite_keeps | intro _ _ _ _ | intro _ _ _
    | intro _ _ | intro _
    | (refine Keeps.upd ?_; first | assumption | apply State.plainWrite_keeps | apply State.serCapture_keeps | apply busWrite_keeps)

theorem execOperatorEntryCommit_keeps {z : State} {b} {v} {s : State} (hz : Keeps z s) :
    KeepsO z (execOperatorEntryCommit b v s) := by
  unfold execOperatorEntryCommit
  with_reducible repeat' first
    | assumption | apply ite_keeps | apply next_keepsO | apply ite_keepsO | apply refused_keepsO | apply fault_keepsO
    | apply State.wrf_keeps | apply State.irq_keeps | apply busWrite_keeps | intro _ _ _ _ | intro _ _ _ | intro _ _
    | intro _
    | (refine Keeps.upd ?_; first | assumption | apply State.wrf_keeps | apply State.irq_keeps | apply busWrite_keeps)

theorem execLotCommit_keeps {z : State} {b} {v} {s : State} (hz : Keeps z s) :
    KeepsO z (execLotCommit b v s) := by
  unfold execLotCommit
  with_reducible repeat' first
    | assumption | apply ite_keeps | apply next_keepsO | apply ite_keepsO | apply refused_keepsO | apply fault_keepsO
    | apply State.wrf_keeps | apply State.irq_keeps | apply busWrite_keeps | intro _ _ _ _ | intro _ _ _ | intro _ _
    | intro _
    | (refine Keeps.upd ?_; first | assumption | apply State.wrf_keeps | apply State.irq_keeps | apply busWrite_keeps)

theorem execRenderMaxClear_keeps {z : State} {b} {v} {s : State} (hz : Keeps z s) :
    KeepsO z (execRenderMaxClear b v s) := by
  unfold execRenderMaxClear
  with_reducible repeat' first
    | assumption | apply ite_keeps | apply next_keepsO | apply ite_keepsO | apply refused_keepsO | apply fault_keepsO
    | apply State.wrf_keeps | apply busWrite_keeps | intro _ _ _ _ | intro _ _ _ | intro _ _ | intro _
    | (refine Keeps.upd ?_; first | assumption | apply State.wrf_keeps | apply busWrite_keeps)

theorem execTplInfoCapture_keeps {z : State} {b} {v} {s : State} (hz : Keeps z s) :
    KeepsO z (execTplInfoCapture b v s) := by
  unfold execTplInfoCapture
  with_reducible repeat' first
    | assumption
    | (extract_lets +onlyGivenNames x; refine (fun hx : Keeps z x => ?_) ?_; rotate_left; subst x; rotate_left; try clear_value x)
    | (extract_lets +onlyGivenNames x; clear_value x) | extract_lets | apply ite_keeps | apply next_keepsO
    | apply ite_keepsO | apply refused_keepsO | apply fault_keepsO | apply State.wr_keeps
    | apply State.plainWrite_keeps | apply busWrite_keeps | intro _ _ _ _ | intro _ _ _ | intro _ _ | intro _
    | (refine Keeps.upd ?_; first | assumption | apply State.wr_keeps | apply State.plainWrite_keeps | apply busWrite_keeps)
    | split | (refine Keeps.of_fst (by assumption) ?_) | (refine Keeps.of_snd (by assumption) ?_)

theorem execDmkPeakClear_keeps {z : State} {b} {v} {s : State} (hz : Keeps z s) :
    KeepsO z (execDmkPeakClear b v s) := by
  unfold execDmkPeakClear
  with_reducible repeat' first
    | assumption | apply ite_keeps | apply next_keepsO | apply ite_keepsO | apply refused_keepsO | apply fault_keepsO
    | apply State.wrf_keeps | apply busWrite_keeps | intro _ _ _ _ | intro _ _ _ | intro _ _ | intro _
    | (refine Keeps.upd ?_; first | assumption | apply State.wrf_keeps | apply busWrite_keeps)

theorem execSerialSetLimit_keeps {z : State} {b} {v} {s : State} (hz : Keeps z s) :
    KeepsO z (execSerialSetLimit b v s) := by
  unfold execSerialSetLimit
  with_reducible repeat' first
    | assumption | apply ite_keeps | apply next_keepsO | apply ite_keepsO | apply refused_keepsO | apply fault_keepsO
    | apply State.serCmd_keeps | apply busWrite_keeps | intro _ _ _ _ | intro _ _ _ | intro _ _ | intro _
    | (refine Keeps.upd ?_; first | assumption | apply State.serCmd_keeps | apply busWrite_keeps)

theorem execSerialSetNext_keeps {z : State} {b} {v} {s : State} (hz : Keeps z s) :
    KeepsO z (execSerialSetNext b v s) := by
  unfold execSerialSetNext
  with_reducible repeat' first
    | assumption | apply ite_keeps | apply next_keepsO | apply ite_keepsO | apply refused_keepsO | apply fault_keepsO
    | apply State.serCmd_keeps | apply busWrite_keeps | intro _ _ _ _ | intro _ _ _ | intro _ _ | intro _
    | (refine Keeps.upd ?_; first | assumption | apply State.serCmd_keeps | apply busWrite_keeps)

theorem execTemplateUnload_keeps {z : State} {b} {v} {s : State} (hz : Keeps z s) :
    KeepsO z (execTemplateUnload b v s) := by
  unfold execTemplateUnload
  with_reducible repeat' first
    | assumption | apply ite_keeps | apply next_keepsO | apply ite_keepsO | apply refused_keepsO | apply fault_keepsO
    | apply State.tplCmd_keeps | apply busWrite_keeps | intro _ _ _ _ | intro _ _ _ | intro _ _ | intro _
    | (refine Keeps.upd ?_; first | assumption | apply State.tplCmd_keeps | apply busWrite_keeps)

theorem execTemplateLoadDone_keeps {z : State} {s : State} (hz : Keeps z s) :
    KeepsO z (execTemplateLoadDone s) := by
  unfold execTemplateLoadDone
  with_reducible repeat' first
    | assumption
    | (extract_lets +onlyGivenNames x; refine (fun hx : Keeps z x => ?_) ?_; rotate_left; subst x; rotate_left; try clear_value x)
    | (extract_lets +onlyGivenNames x; clear_value x) | extract_lets | apply ite_keeps | apply next_keepsO
    | apply ite_keepsO | apply refused_keepsO | apply fault_keepsO | apply State.setTplSlot_keeps
    | apply State.cacheShow_keeps | apply State.tplResult_keeps
    | (refine Keeps.upd ?_; first | assumption | apply State.setTplSlot_keeps | apply State.cacheShow_keeps | apply State.tplResult_keeps)
    | split | (refine Keeps.of_fst (by assumption) ?_) | (refine Keeps.of_snd (by assumption) ?_)

theorem execTemplateLoad_keeps {z : State} {b} {v} {s : State} (hz : Keeps z s) :
    KeepsO z (execTemplateLoad b v s) := by
  unfold execTemplateLoad
  with_reducible repeat' first
    | assumption | apply ite_keeps | apply next_keepsO | apply ite_keepsO | apply refused_keepsO | apply fault_keepsO
    | apply State.tplCmd_keeps | apply busWrite_keeps | intro _ _ _ _ | intro _ _ _ | intro _ _ | intro _
    | (refine Keeps.upd ?_; first | assumption | apply State.tplCmd_keeps | apply busWrite_keeps)

theorem execRenderPauseEnd_keeps {z : State} {e} {s : State} (hz : Keeps z s) :
    KeepsO z (execRenderPauseEnd e s) := by
  unfold execRenderPauseEnd
  with_reducible repeat' first
    | assumption
    | (extract_lets +onlyGivenNames x; refine (fun hx : Keeps z x => ?_) ?_; rotate_left; subst x; rotate_left; try clear_value x)
    | (extract_lets +onlyGivenNames x; clear_value x) | extract_lets | apply ite_keeps | apply next_keepsO
    | apply ite_keepsO | apply refused_keepsO | apply fault_keepsO | apply State.updEngine_keeps
    | apply State.markDamped_keeps
    | (refine Keeps.upd ?_; first | assumption | apply State.updEngine_keeps | apply State.markDamped_keeps) | split
    | (refine Keeps.of_fst (by assumption) ?_) | (refine Keeps.of_snd (by assumption) ?_)

theorem execEngineSelftestDone_keeps {z : State} {e} {pass} {s : State} (hz : Keeps z s) :
    KeepsO z (execEngineSelftestDone e pass s) := by
  unfold execEngineSelftestDone
  with_reducible repeat' first
    | assumption | apply ite_keeps | apply next_keepsO | apply ite_keepsO | apply refused_keepsO | apply fault_keepsO
    | apply State.setEngSt_keeps | (refine Keeps.upd ?_; first | assumption | apply State.setEngSt_keeps)

theorem execEngineEccFault_keeps {z : State} {e} {s : State} (hz : Keeps z s) :
    KeepsO z (execEngineEccFault e s) := by
  unfold execEngineEccFault
  with_reducible repeat' first
    | assumption | (extract_lets +onlyGivenNames x; clear_value x) | extract_lets | apply ite_keeps
    | apply next_keepsO | apply ite_keepsO | apply refused_keepsO | apply fault_keepsO | apply State.engineFault_keeps
    | apply State.cnt_keeps | apply State.soot_keeps | apply State.setEngSt_keeps
    | (refine Keeps.upd ?_; first | assumption | apply State.engineFault_keeps | apply State.cnt_keeps | apply State.soot_keeps | apply State.setEngSt_keeps)
    | split | (refine Keeps.of_fst (by assumption) ?_) | (refine Keeps.of_snd (by assumption) ?_)

theorem execRenderStallTimeout_keeps {z : State} {e} {s : State} (hz : Keeps z s) :
    KeepsO z (execRenderStallTimeout e s) := by
  unfold execRenderStallTimeout
  with_reducible repeat' first
    | assumption | (extract_lets +onlyGivenNames x; clear_value x) | extract_lets | apply ite_keeps
    | apply next_keepsO | apply ite_keepsO | apply refused_keepsO | apply fault_keepsO | apply State.engineFault_keeps
    | (refine Keeps.upd ?_; first | assumption | apply State.engineFault_keeps) | split
    | (refine Keeps.of_fst (by assumption) ?_) | (refine Keeps.of_snd (by assumption) ?_)

theorem execRenderCommit_keeps {z : State} {e} {verify} {s : State} (hz : Keeps z s) :
    KeepsO z (execRenderCommit e verify s) := by
  unfold execRenderCommit
  with_reducible repeat' first
    | assumption
    | (extract_lets +onlyGivenNames x; refine (fun hx : Keeps z x => ?_) ?_; rotate_left; subst x; rotate_left; try clear_value x)
    | (extract_lets +onlyGivenNames x; clear_value x) | extract_lets | apply ite_keeps | apply next_keepsO
    | apply ite_keepsO | apply refused_keepsO | apply fault_keepsO | apply State.commit_keeps
    | apply State.dropHolds_keeps | apply State.renderFail_keeps | apply State.dmkShow_keeps
    | apply State.dropReq_keeps | apply State.setEngSt_keeps
    | (refine Keeps.upd ?_; first | assumption | apply State.commit_keeps | apply State.dropHolds_keeps | apply State.renderFail_keeps | apply State.dmkShow_keeps | apply State.dropReq_keeps | apply State.setEngSt_keeps)
    | split | (refine Keeps.of_fst (by assumption) ?_) | (refine Keeps.of_snd (by assumption) ?_)

theorem execRenderDispatch_keeps {z : State} {s : State} (hz : Keeps z s) :
    KeepsO z (execRenderDispatch s) := by
  unfold execRenderDispatch
  with_reducible repeat' first
    | assumption
    | (extract_lets +onlyGivenNames x; refine (fun hx : Keeps z x => ?_) ?_; rotate_left; subst x; rotate_left; try clear_value x)
    | (extract_lets +onlyGivenNames x; clear_value x) | extract_lets | apply ite_keeps | apply next_keepsO
    | apply ite_keepsO | apply refused_keepsO | apply fault_keepsO | apply State.dmkShow_keeps
    | apply State.dispatch_keeps | apply State.markDamped_keeps | apply forL_keeps | apply forL_keeps_fst
    | intro _ _ _ _ | intro _ _ _ | intro _ _ | intro _
    | (refine Keeps.upd ?_; first | assumption | apply State.dmkShow_keeps | apply State.dispatch_keeps | apply State.markDamped_keeps | apply forL_keeps)
    | split | (refine Keeps.of_fst (by assumption) ?_) | (refine Keeps.of_snd (by assumption) ?_)

theorem execRenderQueueEnter_keeps {z : State} {s : State} (hz : Keeps z s) :
    KeepsO z (execRenderQueueEnter s) := by
  unfold execRenderQueueEnter
  with_reducible repeat' first
    | assumption | (extract_lets +onlyGivenNames x; clear_value x) | extract_lets | apply ite_keeps
    | apply next_keepsO | apply ite_keepsO | apply refused_keepsO | apply fault_keepsO | apply State.updReq_keeps
    | apply State.dmkShow_keeps
    | (refine Keeps.upd ?_; first | assumption | apply State.updReq_keeps | apply State.dmkShow_keeps) | split
    | (refine Keeps.of_fst (by assumption) ?_) | (refine Keeps.of_snd (by assumption) ?_)

end Sys2Proof.Machine
end

