-- ==== Sys2Proof/Laws/KeepsDram.lean ====
section
/-! SUPPORT. What every operation of Machine/Dram.lean keeps (Laws/Keeps.lean). -/
-- one script for every shape of goal: what a goal does not need is not reported
set_option linter.all false
namespace Sys2Proof.Machine

theorem State.srmShow_keeps {z : State} {s : State} (hz : Keeps z s) :
    Keeps z (State.srmShow s) := by
  unfold State.srmShow
  with_reducible repeat' first
    | assumption | apply ite_keeps | apply State.wr_keeps
    | (refine Keeps.upd ?_; first | assumption | apply State.wr_keeps)

theorem State.repairAdd_keeps {z : State} {s : State} {e} (hz : Keeps z s) :
    Keeps z (State.repairAdd s e) := by
  unfold State.repairAdd
  with_reducible repeat' first
    | assumption | apply ite_keeps | apply State.srmShow_keeps
    | (refine Keeps.upd ?_; first | assumption | apply State.srmShow_keeps)

theorem State.repairRestore_keeps {z : State} {s : State} {d} (hz : Keeps z s) :
    Keeps z (State.repairRestore s d) := by
  unfold State.repairRestore
  with_reducible repeat' first
    | assumption | (extract_lets +onlyGivenNames x; clear_value x) | extract_lets | apply ite_keeps
    | apply State.repairAdd_keeps | apply State.soot_keeps | apply forN_keeps | intro _ _ _ _ | intro _ _ _
    | intro _ _ | intro _
    | (refine Keeps.upd ?_; first | assumption | apply State.repairAdd_keeps | apply State.soot_keeps | apply forN_keeps)
    | split | (refine Keeps.of_fst (by assumption) ?_) | (refine Keeps.of_snd (by assumption) ?_)

theorem State.bootStep7_keeps {z : State} {s : State} (hz : Keeps z s) :
    Keeps z (State.bootStep7 s) := by
  unfold State.bootStep7
  with_reducible repeat' first
    | assumption | apply ite_keeps | apply State.wrb_keeps | apply State.startStep7_keeps
    | apply State.repairRestore_keeps | apply forN_keeps | intro _ _ _ _ | intro _ _ _ | intro _ _ | intro _
    | (refine Keeps.upd ?_; first | assumption | apply State.wrb_keeps | apply State.startStep7_keeps | apply State.repairRestore_keeps | apply forN_keeps)

theorem State.repairLog_keeps {z : State} {s : State} (hz : Keeps z s) :
    Keeps z (State.repairLog s) := by
  unfold State.repairLog
  with_reducible repeat' first
    | assumption | apply State.logPush_keeps

theorem State.colRepair_keeps {z : State} {s : State} {m} {pos} (hz : Keeps z s) :
    Keeps z (State.colRepair s m pos) := by
  unfold State.colRepair
  with_reducible repeat' first
    | assumption | apply ite_keeps | apply State.repairAdd_keeps | apply State.soot_keeps | apply State.irq_keeps
    | apply State.repairLog_keeps
    | (refine Keeps.upd ?_; first | assumption | apply State.repairAdd_keeps | apply State.soot_keeps | apply State.irq_keeps | apply State.repairLog_keeps)

theorem State.ddrRes_keeps {z : State} {s : State} {res} {cmd} (hz : Keeps z s) :
    Keeps z (State.ddrRes s res cmd) := by
  unfold State.ddrRes
  with_reducible repeat' first
    | assumption | apply State.wr_keeps

theorem State.ddrDone_keeps {z : State} {s : State} {res} {cmd} (hz : Keeps z s) :
    Keeps z (State.ddrDone s res cmd) := by
  unfold State.ddrDone
  with_reducible repeat' first
    | assumption | apply State.ddrRes_keeps | apply State.irq_keeps

theorem State.copyStart_keeps {z : State} {s : State} (hz : Keeps z s) :
    Keeps z (State.copyStart s) := by
  unfold State.copyStart
  with_reducible repeat' first
    | assumption
    | (extract_lets +onlyGivenNames x; refine (fun hx : Keeps z x => ?_) ?_; rotate_left; subst x; rotate_left; try clear_value x)
    | (extract_lets +onlyGivenNames x; clear_value x) | extract_lets | apply ite_keeps | apply State.ddrDone_keeps
    | apply State.soot_keeps
    | (refine Keeps.upd ?_; first | assumption | apply State.ddrDone_keeps | apply State.soot_keeps) | split
    | (refine Keeps.of_fst (by assumption) ?_) | (refine Keeps.of_snd (by assumption) ?_)

theorem State.setDdrSt_keeps {z : State} {s : State} {st} (hz : Keeps z s) :
    Keeps z (State.setDdrSt s st) := by
  unfold State.setDdrSt
  with_reducible repeat' first
    | assumption | apply State.wrf_keeps | apply State.setStat_keeps | apply State.wrb_keeps

theorem State.remapAsk_keeps {z : State} {s : State} {r} {cmd} (hz : Keeps z s) :
    Keeps z (State.remapAsk s r cmd) := by
  unfold State.remapAsk
  with_reducible repeat' first
    | assumption
    | (extract_lets +onlyGivenNames x; refine (fun hx : Keeps z x => ?_) ?_; rotate_left; subst x; rotate_left; try clear_value x)
    | (extract_lets +onlyGivenNames x; clear_value x) | extract_lets | apply ite_keeps | apply State.copyStart_keeps
    | apply State.ddrRes_keeps | apply State.ddrDone_keeps
    | (refine Keeps.upd ?_; first | assumption | apply State.copyStart_keeps | apply State.ddrRes_keeps | apply State.ddrDone_keeps)
    | split | (refine Keeps.of_fst (by assumption) ?_) | (refine Keeps.of_snd (by assumption) ?_)

theorem State.retrain_keeps {z : State} {s : State} (hz : Keeps z s) :
    Keeps z (State.retrain s) := by
  unfold State.retrain
  with_reducible repeat' first
    | assumption | apply ite_keeps | apply State.setDdrSt_keeps
    | (refine Keeps.upd ?_; first | assumption | apply State.setDdrSt_keeps)

theorem State.ddrCmdWrite_keeps {z : State} {s : State} {v} (hz : Keeps z s) :
    Keeps z (State.ddrCmdWrite s v) := by
  unfold State.ddrCmdWrite
  with_reducible repeat' first
    | assumption
    | (extract_lets +onlyGivenNames x; refine (fun hx : Keeps z x => ?_) ?_; rotate_left; subst x; rotate_left; try clear_value x)
    | (extract_lets +onlyGivenNames x; clear_value x) | extract_lets | apply ite_keeps | apply State.setDdrSt_keeps
    | apply State.remapAsk_keeps | apply State.wr_keeps | apply State.ddrDone_keeps | apply State.ddrRes_keeps
    | apply State.retrain_keeps | apply State.irq_keeps
    | (refine Keeps.upd ?_; first | assumption | apply State.setDdrSt_keeps | apply State.remapAsk_keeps | apply State.wr_keeps | apply State.ddrDone_keeps | apply State.ddrRes_keeps | apply State.retrain_keeps | apply State.irq_keeps)
    | split | (refine Keeps.of_fst (by assumption) ?_) | (refine Keeps.of_snd (by assumption) ?_)

theorem State.ddrDisable_keeps {z : State} {s : State} (hz : Keeps z s) :
    Keeps z (State.ddrDisable s) := by
  unfold State.ddrDisable
  with_reducible repeat' first
    | assumption | apply State.setDdrSt_keeps

theorem State.ddrTrain_keeps {z : State} {s : State} (hz : Keeps z s) :
    Keeps z (State.ddrTrain s) := by
  unfold State.ddrTrain
  with_reducible repeat' first
    | assumption | apply ite_keeps | apply State.wr64_keeps | apply State.setDdrSt_keeps
    | (refine Keeps.upd ?_; first | assumption | apply State.wr64_keeps | apply State.setDdrSt_keeps)

theorem State.remapShow_keeps {z : State} {s : State} (hz : Keeps z s) :
    Keeps z (State.remapShow s) := by
  unfold State.remapShow
  with_reducible repeat' first
    | assumption | apply State.wr_keeps

theorem State.setRemap_keeps {z : State} {s : State} {k} {r} (hz : Keeps z s) :
    Keeps z (State.setRemap s k r) := by
  unfold State.setRemap
  with_reducible repeat' first
    | assumption | apply ite_keeps | apply State.remapShow_keeps
    | (refine Keeps.upd ?_; first | assumption | apply State.remapShow_keeps)

theorem State.remapRestore_keeps {z : State} {s : State} (hz : Keeps z s) :
    Keeps z (State.remapRestore s) := by
  unfold State.remapRestore
  with_reducible repeat' first
    | assumption | (extract_lets +onlyGivenNames x; clear_value x) | extract_lets | apply ite_keeps
    | apply State.soot_keeps | apply State.setRemap_keeps | apply forN_keeps | intro _ _ _ _ | intro _ _ _ | intro _ _
    | intro _
    | (refine Keeps.upd ?_; first | assumption | apply State.soot_keeps | apply State.setRemap_keeps | apply forN_keeps)
    | split | (refine Keeps.of_fst (by assumption) ?_) | (refine Keeps.of_snd (by assumption) ?_)

theorem State.ddrPowerUp_keeps {z : State} {s : State} (hz : Keeps z s) :
    Keeps z (State.ddrPowerUp s) := by
  unfold State.ddrPowerUp
  with_reducible repeat' first
    | assumption | apply ite_keeps | apply State.ddrTrain_keeps | apply State.bootStep7_keeps
    | apply State.remapRestore_keeps | apply State.retrain_keeps | apply State.wr64_keeps | apply State.setDdrSt_keeps
    | apply State.wrb_keeps
    | (refine Keeps.upd ?_; first | assumption | apply State.ddrTrain_keeps | apply State.bootStep7_keeps | apply State.remapRestore_keeps | apply State.retrain_keeps | apply State.wr64_keeps | apply State.setDdrSt_keeps | apply State.wrb_keeps)

theorem State.ddrTempCheck_keeps {z : State} {s : State} (hz : Keeps z s) :
    Keeps z (State.ddrTempCheck s) := by
  unfold State.ddrTempCheck
  with_reducible repeat' first
    | assumption | apply ite_keeps | apply State.retrain_keeps
    | (refine Keeps.upd ?_; first | assumption | apply State.retrain_keeps)

theorem State.dramCe_keeps {z : State} {s : State} {a} (hz : Keeps z s) :
    Keeps z (State.dramCe s a) := by
  unfold State.dramCe
  with_reducible repeat' first
    | assumption | apply ite_keeps | apply State.remapAsk_keeps | apply State.cnt_keeps | apply State.soot_keeps
    | (refine Keeps.upd ?_; first | assumption | apply State.remapAsk_keeps | apply State.cnt_keeps | apply State.soot_keeps)

theorem State.elogAdd_keeps {z : State} {s : State} {e} (hz : Keeps z s) :
    Keeps z (State.elogAdd s e) := by
  unfold State.elogAdd
  with_reducible repeat' first
    | assumption | apply ite_keeps | apply State.cnt_keeps | apply State.wrf_keeps
    | (refine Keeps.upd ?_; first | assumption | apply State.cnt_keeps | apply State.wrf_keeps)

theorem State.dramUe_keeps {z : State} {s : State} {a} {port} {part} {syn} (hz : Keeps z s) :
    Keeps z (State.dramUe s a port part syn) := by
  unfold State.dramUe
  with_reducible repeat' first
    | assumption | apply State.cnt_keeps | apply State.irq_keeps | apply State.soot_keeps | apply State.elogAdd_keeps

theorem State.dramIssue_keeps {z : State} {s : State} {q} {ecc} (hz : Keeps z s) :
    Keeps z (State.dramIssue s q ecc) := by
  unfold State.dramIssue
  repeat' (first
    | with_reducible assumption
    | (extract_lets +onlyGivenNames x; refine (fun hx : Keeps z x => ?_) ?_; rotate_left; subst x; rotate_left; try clear_value x)
    | (extract_lets +onlyGivenNames x; refine (fun hx : Keeps z x.1 => ?_) ?_; rotate_left; subst x; rotate_left; try clear_value x)
    | (extract_lets +onlyGivenNames x; refine (fun hx : Keeps z x.2 => ?_) ?_; rotate_left; subst x; rotate_left; try clear_value x)
    | (extract_lets +onlyGivenNames x; refine (fun hf0 : ∀ s, Keeps z s → Keeps z (x s) => ?_) ?_; rotate_left; subst x; rotate_left; try clear_value x)
    | (extract_lets +onlyGivenNames x; refine (fun hf1 : ∀ s a, Keeps z s → Keeps z (x s a) => ?_) ?_; rotate_left; subst x; rotate_left; try clear_value x)
    | (extract_lets +onlyGivenNames x; refine (fun hf2 : ∀ a s, Keeps z s → Keeps z (x a s) => ?_) ?_; rotate_left; subst x; rotate_left; try clear_value x)
    | (extract_lets +onlyGivenNames x; refine (fun hf3 : ∀ s a b, Keeps z s → Keeps z (x s a b) => ?_) ?_; rotate_left; subst x; rotate_left; try clear_value x)
    | (extract_lets +onlyGivenNames x; refine (fun hf4 : ∀ a b s, Keeps z s → Keeps z (x a b s) => ?_) ?_; rotate_left; subst x; rotate_left; try clear_value x)
    | (extract_lets +onlyGivenNames x; refine (fun hf5 : ∀ a s b, Keeps z s → Keeps z (x a s b) => ?_) ?_; rotate_left; subst x; rotate_left; try clear_value x)
    | (extract_lets +onlyGivenNames x; refine (fun hf6 : ∀ a, Keeps z (x a) => ?_) ?_; rotate_left; subst x; rotate_left; try clear_value x)
    | (extract_lets +onlyGivenNames x; clear_value x)
    | extract_lets
    | with_reducible apply ite_keeps
    | with_reducible apply State.wrMem_keeps
    | with_reducible apply State.dramUe_keeps
    | with_reducible apply State.dramCe_keeps
    | with_reducible apply State.cnt_keeps
    | with_reducible apply State.respond_keeps
    | with_reducible apply hf0
    | with_reducible apply hf1
    | with_reducible apply hf2
    | with_reducible apply hf3
    | with_reducible apply hf4
    | with_reducible apply hf5
    | with_reducible apply hf6
    | intro _ _ _ _
    | intro _ _ _
    | intro _ _
    | intro _
    | (with_reducible refine Keeps.upd ?_; first | with_reducible assumption | (with_reducible refine Keeps.of_fst (by with_reducible assumption) ?_) | (with_reducible refine Keeps.of_snd (by with_reducible assumption) ?_) | with_reducible apply State.wrMem_keeps | with_reducible apply State.dramUe_keeps | with_reducible apply State.dramCe_keeps | with_reducible apply State.cnt_keeps | with_reducible apply State.respond_keeps)
    | split
    | (with_reducible refine Keeps.of_fst (by with_reducible assumption) ?_)
    | (with_reducible refine Keeps.of_snd (by with_reducible assumption) ?_)
    | fail)

theorem State.dramSelfRefresh_keeps {z : State} {s : State} (hz : Keeps z s) :
    Keeps z (State.dramSelfRefresh s) := by
  unfold State.dramSelfRefresh
  with_reducible repeat' first
    | assumption | apply ite_keeps | apply State.setDdrSt_keeps
    | (refine Keeps.upd ?_; first | assumption | apply State.setDdrSt_keeps)

theorem State.outstanding_keeps {z : State} {s : State} {ready} (hz : Keeps z s) :
    Keeps z (State.outstanding s ready) := by
  unfold State.outstanding
  with_reducible repeat' first
    | assumption | apply ite_keeps | apply State.wrf_keeps | apply forN_keeps | intro _ _ _ _ | intro _ _ _
    | intro _ _ | intro _ | (refine Keeps.upd ?_; first | assumption | apply State.wrf_keeps | apply forN_keeps)

theorem State.queuesOnRow_keeps {z : State} {s : State} {m} {row} (hz : Keeps z s) :
    Keeps z (State.queuesOnRow s m row) := by
  unfold State.queuesOnRow
  with_reducible repeat' first
    | assumption | apply ite_keeps | apply State.qRetire_keeps
    | (refine Keeps.upd ?_; first | assumption | apply State.qRetire_keeps)

theorem State.repairLoad_keeps {z : State} {s : State} {v} (hz : Keeps z s) :
    Keeps z (State.repairLoad s v) := by
  unfold State.repairLoad
  with_reducible repeat' first
    | assumption | apply ite_keeps | apply State.repairAdd_keeps
    | (refine Keeps.upd ?_; first | assumption | apply State.repairAdd_keeps)

theorem State.rowRepair_keeps {z : State} {s : State} {m} {row} (hz : Keeps z s) :
    Keeps z (State.rowRepair s m row) := by
  unfold State.rowRepair
  with_reducible repeat' first
    | assumption | apply ite_keeps | apply State.queuesOnRow_keeps | apply State.repairAdd_keeps
    | apply State.soot_keeps | apply State.irq_keeps | apply State.repairLog_keeps
    | (refine Keeps.upd ?_; first | assumption | apply State.queuesOnRow_keeps | apply State.repairAdd_keeps | apply State.soot_keeps | apply State.irq_keeps | apply State.repairLog_keeps)

theorem State.sramUe_keeps {z : State} {s : State} {m} {row} {master} (hz : Keeps z s) :
    Keeps z (State.sramUe s m row master) := by
  unfold State.sramUe
  with_reducible repeat' first
    | assumption
    | (extract_lets +onlyGivenNames x; refine (fun hx : Keeps z x => ?_) ?_; rotate_left; subst x; rotate_left; try clear_value x)
    | (extract_lets +onlyGivenNames x; clear_value x) | extract_lets | apply ite_keeps | apply State.srcEvent_keeps
    | apply State.soot_keeps | apply State.wr64_keeps | apply State.irq_keeps | apply State.cnt_keeps
    | apply State.wr_keeps
    | (refine Keeps.upd ?_; first | assumption | apply State.srcEvent_keeps | apply State.soot_keeps | apply State.wr64_keeps | apply State.irq_keeps | apply State.cnt_keeps | apply State.wr_keeps)
    | split | (refine Keeps.of_fst (by assumption) ?_) | (refine Keeps.of_snd (by assumption) ?_)

theorem State.sramCorrected_keeps {z : State} {s : State} {m} {row} {pos} (hz : Keeps z s) :
    Keeps z (State.sramCorrected s m row pos) := by
  unfold State.sramCorrected
  with_reducible repeat' first
    | assumption | apply ite_keeps | apply State.rowRepair_keeps | apply State.colRepair_keeps
    | apply State.sramCe_keeps
    | (refine Keeps.upd ?_; first | assumption | apply State.rowRepair_keeps | apply State.colRepair_keeps | apply State.sramCe_keeps)

theorem State.syn2Back_keeps {z : State} {s : State} (hz : Keeps z s) :
    Keeps z (State.syn2Back s) := by
  unfold State.syn2Back
  with_reducible repeat' first
    | assumption | apply ite_keeps | apply State.setDdrSt_keeps | apply State.retrain_keeps
    | (refine Keeps.upd ?_; first | assumption | apply State.setDdrSt_keeps | apply State.retrain_keeps)

theorem State.syn2Lost_keeps {z : State} {s : State} (hz : Keeps z s) :
    Keeps z (State.syn2Lost s) := by
  unfold State.syn2Lost
  with_reducible repeat' first
    | assumption | apply ite_keeps | apply State.setDdrSt_keeps
    | (refine Keeps.upd ?_; first | assumption | apply State.setDdrSt_keeps)

theorem execSrmRepairLoad_keeps {z : State} {b} {v} {s : State} (hz : Keeps z s) :
    KeepsO z (execSrmRepairLoad b v s) := by
  unfold execSrmRepairLoad
  with_reducible repeat' first
    | assumption | apply ite_keeps | apply next_keepsO | apply ite_keepsO | apply refused_keepsO | apply fault_keepsO
    | apply State.repairLoad_keeps | apply rwl_keeps | apply busWrite_keeps | intro _ _ _ _ | intro _ _ _ | intro _ _
    | intro _
    | (refine Keeps.upd ?_; first | assumption | apply State.repairLoad_keeps | apply rwl_keeps | apply busWrite_keeps)

theorem execSrmRepairCapture_keeps {z : State} {b} {v} {s : State} (hz : Keeps z s) :
    KeepsO z (execSrmRepairCapture b v s) := by
  unfold execSrmRepairCapture
  with_reducible repeat' first
    | assumption | apply ite_keeps | apply next_keepsO | apply ite_keepsO | apply refused_keepsO | apply fault_keepsO
    | apply State.plainWrite_keeps | apply State.wr_keeps | apply busWrite_keeps | intro _ _ _ _ | intro _ _ _
    | intro _ _ | intro _
    | (refine Keeps.upd ?_; first | assumption | apply State.plainWrite_keeps | apply State.wr_keeps | apply busWrite_keeps)

theorem execSrmCeCntClear_keeps {z : State} {b} {v} {s : State} (hz : Keeps z s) :
    KeepsO z (execSrmCeCntClear b v s) := by
  unfold execSrmCeCntClear
  with_reducible repeat' first
    | assumption | apply ite_keeps | apply next_keepsO | apply ite_keepsO | apply refused_keepsO | apply fault_keepsO
    | apply State.wrf_keeps | apply busWrite_keeps | intro _ _ _ _ | intro _ _ _ | intro _ _ | intro _
    | (refine Keeps.upd ?_; first | assumption | apply State.wrf_keeps | apply busWrite_keeps)

theorem execRemapEntryCapture_keeps {z : State} {b} {v} {s : State} (hz : Keeps z s) :
    KeepsO z (execRemapEntryCapture b v s) := by
  unfold execRemapEntryCapture
  with_reducible repeat' first
    | assumption | apply ite_keeps | apply next_keepsO | apply ite_keepsO | apply refused_keepsO | apply fault_keepsO
    | apply State.plainWrite_keeps | apply State.wr_keeps | apply busWrite_keeps | intro _ _ _ _ | intro _ _ _
    | intro _ _ | intro _
    | (refine Keeps.upd ?_; first | assumption | apply State.plainWrite_keeps | apply State.wr_keeps | apply busWrite_keeps)

theorem execElogCapture_keeps {z : State} {b} {v} {s : State} (hz : Keeps z s) :
    KeepsO z (execElogCapture b v s) := by
  unfold execElogCapture
  with_reducible repeat' first
    | assumption
    | (extract_lets +onlyGivenNames x; refine (fun hx : Keeps z x => ?_) ?_; rotate_left; subst x; rotate_left; try clear_value x)
    | (extract_lets +onlyGivenNames x; clear_value x) | extract_lets | apply ite_keeps | apply next_keepsO
    | apply ite_keepsO | apply refused_keepsO | apply fault_keepsO | apply State.wr64_keeps | apply State.wr_keeps
    | apply State.plainWrite_keeps | apply busWrite_keeps | intro _ _ _ _ | intro _ _ _ | intro _ _ | intro _
    | (refine Keeps.upd ?_; first | assumption | apply State.wr64_keeps | apply State.wr_keeps | apply State.plainWrite_keeps | apply busWrite_keeps)
    | split | (refine Keeps.of_fst (by assumption) ?_) | (refine Keeps.of_snd (by assumption) ?_)

theorem execDdrCeCntClear_keeps {z : State} {b} {v} {s : State} (hz : Keeps z s) :
    KeepsO z (execDdrCeCntClear b v s) := by
  unfold execDdrCeCntClear
  with_reducible repeat' first
    | assumption | apply ite_keeps | apply next_keepsO | apply ite_keepsO | apply refused_keepsO | apply fault_keepsO
    | apply State.wrf_keeps | apply busWrite_keeps | intro _ _ _ _ | intro _ _ _ | intro _ _ | intro _
    | (refine Keeps.upd ?_; first | assumption | apply State.wrf_keeps | apply busWrite_keeps)

theorem ddrCmdRow_keeps {z : State} {b} {v} {i} {s : State} (hz : Keeps z s) :
    KeepsO z (ddrCmdRow b v i s) := by
  unfold ddrCmdRow
  with_reducible repeat' first
    | assumption | apply ite_keeps | apply next_keepsO | apply ite_keepsO | apply refused_keepsO | apply fault_keepsO
    | apply State.ddrCmdWrite_keeps | apply busWrite_keeps | intro _ _ _ _ | intro _ _ _ | intro _ _ | intro _
    | (refine Keeps.upd ?_; first | assumption | apply State.ddrCmdWrite_keeps | apply busWrite_keeps)

theorem execDramScrubRead_keeps {z : State} {ecc} {s : State} (hz : Keeps z s) :
    KeepsO z (execDramScrubRead ecc s) := by
  unfold execDramScrubRead
  with_reducible repeat' first
    | assumption
    | (extract_lets +onlyGivenNames x; refine (fun hx : Keeps z x => ?_) ?_; rotate_left; subst x; rotate_left; try clear_value x)
    | (extract_lets +onlyGivenNames x; clear_value x) | extract_lets | apply ite_keeps | apply next_keepsO
    | apply ite_keepsO | apply refused_keepsO | apply fault_keepsO | apply State.wr_keeps | apply State.cntW_keeps
    | apply State.dramUe_keeps | apply State.dramCe_keeps
    | (refine Keeps.upd ?_; first | assumption | apply State.wr_keeps | apply State.cntW_keeps | apply State.dramUe_keeps | apply State.dramCe_keeps)
    | split | (refine Keeps.of_fst (by assumption) ?_) | (refine Keeps.of_snd (by assumption) ?_)

theorem execElogClear_keeps {z : State} {b} {v} {s : State} (hz : Keeps z s) :
    KeepsO z (execElogClear b v s) := by
  unfold execElogClear
  with_reducible repeat' first
    | assumption | apply next_keepsO | apply refused_keepsO | apply fault_keepsO | apply ddrCmdRow_keeps
    | (refine KeepsO.of_next ?_ (by assumption))

theorem execPprDone_keeps {z : State} {ok} {s : State} (hz : Keeps z s) :
    KeepsO z (execPprDone ok s) := by
  unfold execPprDone
  with_reducible repeat' first
    | assumption
    | (extract_lets +onlyGivenNames x; refine (fun hx : Keeps z x => ?_) ?_; rotate_left; subst x; rotate_left; try clear_value x)
    | (extract_lets +onlyGivenNames x; clear_value x) | extract_lets | apply ite_keeps | apply next_keepsO
    | apply ite_keepsO | apply refused_keepsO | apply fault_keepsO | apply State.logPush_keeps
    | apply State.setRemap_keeps | apply State.wrb_keeps | apply State.ddrDone_keeps | apply State.setDdrSt_keeps
    | (refine Keeps.upd ?_; first | assumption | apply State.logPush_keeps | apply State.setRemap_keeps | apply State.wrb_keeps | apply State.ddrDone_keeps | apply State.setDdrSt_keeps)
    | split | (refine Keeps.of_fst (by assumption) ?_) | (refine Keeps.of_snd (by assumption) ?_)

theorem execDdrPpr_keeps {z : State} {b} {v} {s : State} (hz : Keeps z s) :
    KeepsO z (execDdrPpr b v s) := by
  unfold execDdrPpr
  with_reducible repeat' first
    | assumption | apply next_keepsO | apply refused_keepsO | apply fault_keepsO | apply ddrCmdRow_keeps
    | (refine KeepsO.of_next ?_ (by assumption))

theorem execRemapCopyDone_keeps {z : State} {s : State} (hz : Keeps z s) :
    KeepsO z (execRemapCopyDone s) := by
  unfold execRemapCopyDone
  with_reducible repeat' first
    | assumption
    | (extract_lets +onlyGivenNames x; refine (fun hx : Keeps z x => ?_) ?_; rotate_left; subst x; rotate_left; try clear_value x)
    | (extract_lets +onlyGivenNames x; clear_value x) | extract_lets | apply ite_keeps | apply next_keepsO
    | apply ite_keepsO | apply refused_keepsO | apply fault_keepsO | apply State.ddrDone_keeps
    | apply State.logPush_keeps | apply State.setRemap_keeps | apply State.irq_keeps | apply State.copyStart_keeps
    | (refine Keeps.upd ?_; first | assumption | apply State.ddrDone_keeps | apply State.logPush_keeps | apply State.setRemap_keeps | apply State.irq_keeps | apply State.copyStart_keeps)
    | split | (refine Keeps.of_fst (by assumption) ?_) | (refine Keeps.of_snd (by assumption) ?_)

theorem execDdrRowRemap_keeps {z : State} {b} {v} {s : State} (hz : Keeps z s) :
    KeepsO z (execDdrRowRemap b v s) := by
  unfold execDdrRowRemap
  with_reducible repeat' first
    | assumption | apply next_keepsO | apply refused_keepsO | apply fault_keepsO | apply ddrCmdRow_keeps
    | (refine KeepsO.of_next ?_ (by assumption))

theorem execRetrainSlice_keeps {z : State} {c} {found} {s : State} (hz : Keeps z s) :
    KeepsO z (execRetrainSlice c found s) := by
  unfold execRetrainSlice
  with_reducible repeat' first
    | assumption
    | (extract_lets +onlyGivenNames x; refine (fun hx : Keeps z x => ?_) ?_; rotate_left; subst x; rotate_left; try clear_value x)
    | (extract_lets +onlyGivenNames x; clear_value x) | extract_lets | apply ite_keeps | apply next_keepsO
    | apply ite_keepsO | apply refused_keepsO | apply fault_keepsO | apply State.soot_keeps | apply State.irq_keeps
    | apply State.cnt_keeps | apply State.setDdrSt_keeps | apply State.wrb_keeps | apply State.wrf_keeps
    | (refine Keeps.upd ?_; first | assumption | apply State.soot_keeps | apply State.irq_keeps | apply State.cnt_keeps | apply State.setDdrSt_keeps | apply State.wrb_keeps | apply State.wrf_keeps)
    | split | (refine Keeps.of_fst (by assumption) ?_) | (refine Keeps.of_snd (by assumption) ?_)

theorem execDdrRetrain_keeps {z : State} {b} {v} {s : State} (hz : Keeps z s) :
    KeepsO z (execDdrRetrain b v s) := by
  unfold execDdrRetrain
  with_reducible repeat' first
    | assumption | apply next_keepsO | apply refused_keepsO | apply fault_keepsO | apply ddrCmdRow_keeps
    | (refine KeepsO.of_next ?_ (by assumption))

theorem execDqsDriftPoll_keeps {z : State} {taps} {s : State} (hz : Keeps z s) :
    KeepsO z (execDqsDriftPoll taps s) := by
  unfold execDqsDriftPoll
  with_reducible repeat' first
    | assumption | apply ite_keeps | apply next_keepsO | apply ite_keepsO | apply refused_keepsO | apply fault_keepsO
    | apply State.retrain_keeps | (refine Keeps.upd ?_; first | assumption | apply State.retrain_keeps)

theorem execRetrainIntervalExpiry_keeps {z : State} {s : State} (hz : Keeps z s) :
    KeepsO z (execRetrainIntervalExpiry s) := by
  unfold execRetrainIntervalExpiry
  with_reducible repeat' first
    | assumption | apply ite_keeps | apply next_keepsO | apply ite_keepsO | apply refused_keepsO | apply fault_keepsO
    | apply State.retrain_keeps | (refine Keeps.upd ?_; first | assumption | apply State.retrain_keeps)

theorem execDdrTrainingRetry_keeps {z : State} {s : State} (hz : Keeps z s) :
    KeepsO z (execDdrTrainingRetry s) := by
  unfold execDdrTrainingRetry
  with_reducible repeat' first
    | assumption | (extract_lets +onlyGivenNames x; clear_value x) | extract_lets | apply ite_keeps
    | apply next_keepsO | apply ite_keepsO | apply refused_keepsO | apply fault_keepsO | apply State.ddrTrain_keeps
    | (refine Keeps.upd ?_; first | assumption | apply State.ddrTrain_keeps) | split
    | (refine Keeps.of_fst (by assumption) ?_) | (refine Keeps.of_snd (by assumption) ?_)

theorem execDdrTrainingDone_keeps {z : State} {ok} {s : State} (hz : Keeps z s) :
    KeepsO z (execDdrTrainingDone ok s) := by
  unfold execDdrTrainingDone
  with_reducible repeat' first
    | assumption | apply ite_keeps | apply next_keepsO | apply ite_keepsO | apply refused_keepsO | apply fault_keepsO
    | apply State.bootStep7_keeps | apply State.wr_keeps | apply State.drawWord_keeps | apply State.remapRestore_keeps
    | apply State.wrf_keeps | apply State.setDdrSt_keeps | apply State.soot_keeps
    | (refine Keeps.upd ?_; first | assumption | apply State.bootStep7_keeps | apply State.wr_keeps | apply State.drawWord_keeps | apply State.remapRestore_keeps | apply State.wrf_keeps | apply State.setDdrSt_keeps | apply State.soot_keeps)

theorem execMr4Poll_keeps {z : State} {rates} {s : State} (hz : Keeps z s) :
    KeepsO z (execMr4Poll rates s) := by
  unfold execMr4Poll
  with_reducible repeat' first
    | assumption | apply ite_keeps | apply next_keepsO | apply ite_keepsO | apply refused_keepsO | apply fault_keepsO
    | apply State.soot_keeps | apply State.wrf_keeps
    | (refine Keeps.upd ?_; first | assumption | apply State.soot_keeps | apply State.wrf_keeps)

theorem execDramRefresh_keeps {z : State} {c} {s : State} (hz : Keeps z s) :
    KeepsO z (execDramRefresh c s) := by
  unfold execDramRefresh
  with_reducible repeat' first
    | assumption | apply ite_keeps | apply next_keepsO | apply ite_keepsO | apply refused_keepsO | apply fault_keepsO
    | (refine Keeps.upd ?_; first | assumption)

theorem execCorrectedWriteback_keeps {z : State} {s : State} (hz : Keeps z s) :
    KeepsO z (execCorrectedWriteback s) := by
  unfold execCorrectedWriteback
  with_reducible repeat' first
    | assumption | (extract_lets +onlyGivenNames x; clear_value x) | extract_lets | apply ite_keeps
    | apply next_keepsO | apply ite_keepsO | apply refused_keepsO | apply fault_keepsO
    | (refine Keeps.upd ?_; first | assumption) | split | (refine Keeps.of_fst (by assumption) ?_)
    | (refine Keeps.of_snd (by assumption) ?_)

theorem execDramTransaction_keeps {z : State} {ready} {ecc} {s : State} (hz : Keeps z s) :
    KeepsO z (execDramTransaction ready ecc s) := by
  unfold execDramTransaction
  with_reducible repeat' first
    | assumption
    | (extract_lets +onlyGivenNames x; refine (fun hx : Keeps z x => ?_) ?_; rotate_left; subst x; rotate_left; try clear_value x)
    | (extract_lets +onlyGivenNames x; clear_value x) | extract_lets | apply ite_keeps | apply next_keepsO
    | apply ite_keepsO | apply refused_keepsO | apply fault_keepsO | apply State.dramIssue_keeps
    | apply State.outstanding_keeps
    | (refine Keeps.upd ?_; first | assumption | apply State.dramIssue_keeps | apply State.outstanding_keeps) | split
    | (refine Keeps.of_fst (by assumption) ?_) | (refine Keeps.of_snd (by assumption) ?_)

end Sys2Proof.Machine
end

