-- ==== Sys2Proof/Laws/KeepsEnclave.lean ====
section
/-! SUPPORT. What every operation of Machine/Enclave.lean keeps (Laws/Keeps.lean). -/
-- one script for every shape of goal: what a goal does not need is not reported
set_option linter.all false
namespace Sys2Proof.Machine

theorem State.attemptFailed_keeps {z : State} {s : State} {slot} {cause} (hz : Keeps z s) :
    Keeps z (State.attemptFailed s slot cause) := by
  unfold State.attemptFailed
  with_reducible repeat' first
    | assumption | apply ite_keeps | apply State.soot_keeps | apply State.wrf_keeps | apply State.irq_keeps
    | apply State.cnt_keeps
    | (refine Keeps.upd ?_; first | assumption | apply State.soot_keeps | apply State.wrf_keeps | apply State.irq_keeps | apply State.cnt_keeps)

theorem State.newChains_keeps {z : State} {s : State} (hz : Keeps z s) :
    Keeps z (State.newChains s) := by
  unfold State.newChains
  with_reducible repeat' first
    | assumption
    | (extract_lets +onlyGivenNames x; refine (fun hx : Keeps z x => ?_) ?_; rotate_left; subst x; rotate_left; try clear_value x)
    | (extract_lets +onlyGivenNames x; clear_value x) | extract_lets | apply ite_keeps | apply State.drawWord_keeps
    | apply State.storePush_keeps | apply forN_keeps | intro _ _ _ _ | intro _ _ _ | intro _ _ | intro _
    | (refine Keeps.upd ?_; first | assumption | apply State.drawWord_keeps | apply State.storePush_keeps | apply forN_keeps)
    | split | (refine Keeps.of_fst (by assumption) ?_) | (refine Keeps.of_snd (by assumption) ?_)

theorem State.secShow_keeps {z : State} {s : State} (hz : Keeps z s) :
    Keeps z (State.secShow s) := by
  unfold State.secShow
  with_reducible repeat' first
    | assumption | apply ite_keeps | apply State.soot_keeps | apply State.irq_keeps | apply State.wrf_keeps
    | apply State.wr_keeps | apply foldl_keeps_fst | apply foldl_keeps | intro _ _ _ _ | intro _ _ _ | intro _ _
    | intro _
    | (refine Keeps.upd ?_; first | assumption | apply State.soot_keeps | apply State.irq_keeps | apply State.wrf_keeps | apply State.wr_keeps)

theorem State.bootCause_keeps {z : State} {s : State} {cause} (hz : Keeps z s) :
    Keeps z (State.bootCause s cause) := by
  unfold State.bootCause
  with_reducible repeat' first
    | assumption | apply State.attemptFailed_keeps

theorem State.handOverWith_keeps {z : State} {s : State} {h} {slot} {sram} (hz : Keeps z s) :
    Keeps z (State.handOverWith s h slot sram) := by
  unfold State.handOverWith
  with_reducible repeat' first
    | assumption
    | (extract_lets +onlyGivenNames x; refine (fun hx : Keeps z x => ?_) ?_; rotate_left; subst x; rotate_left; try clear_value x)
    | (extract_lets +onlyGivenNames x; clear_value x) | extract_lets | apply ite_keeps | apply State.wr_keeps
    | apply State.wrb_keeps | (refine Keeps.upd ?_; first | assumption | apply State.wr_keeps | apply State.wrb_keeps)
    | split | (refine Keeps.of_fst (by assumption) ?_) | (refine Keeps.of_snd (by assumption) ?_)

theorem State.keysFromStore_keeps {z : State} {s : State} (hz : Keeps z s) :
    Keeps z (State.keysFromStore s) := by
  unfold State.keysFromStore
  with_reducible repeat' first
    | assumption | apply ite_keeps | apply foldl_keeps_fst | apply foldl_keeps | intro _ _ _ _ | intro _ _ _
    | intro _ _ | intro _ | (refine Keeps.upd ?_; first | assumption)

theorem State.otpShow_keeps {z : State} {s : State} (hz : Keeps z s) :
    Keeps z (State.otpShow s) := by
  unfold State.otpShow
  with_reducible repeat' first
    | assumption | apply ite_keeps | apply State.wr_keeps | apply forN_keeps | intro _ _ _ _ | intro _ _ _ | intro _ _
    | intro _ | (refine Keeps.upd ?_; first | assumption | apply State.wr_keeps | apply forN_keeps)

theorem State.secPowerUp_keeps {z : State} {s : State} (hz : Keeps z s) :
    Keeps z (State.secPowerUp s) := by
  unfold State.secPowerUp
  with_reducible repeat' first
    | assumption
    | (extract_lets +onlyGivenNames x; refine (fun hx : Keeps z x => ?_) ?_; rotate_left; subst x; rotate_left; try clear_value x)
    | (extract_lets +onlyGivenNames x; clear_value x) | extract_lets | apply ite_keeps | apply State.secShow_keeps
    | apply State.newChains_keeps | apply State.keysFromStore_keeps | apply State.otpShow_keeps
    | (refine Keeps.upd ?_; first | assumption | apply State.secShow_keeps | apply State.newChains_keeps | apply State.keysFromStore_keeps | apply State.otpShow_keeps)
    | split | (refine Keeps.of_fst (by assumption) ?_) | (refine Keeps.of_snd (by assumption) ?_)

theorem State.handOver_keeps {z : State} {s : State} (hz : Keeps z s) :
    Keeps z (State.handOver s) := by
  unfold State.handOver
  with_reducible repeat' first
    | assumption | apply State.handOverWith_keeps | apply State.cnt_keeps

theorem State.otpOr_keeps {z : State} {s : State} {a} {l} (hz : Keeps z s) :
    Keeps z (State.otpOr s a l) := by
  unfold State.otpOr
  with_reducible repeat' first
    | assumption | apply ite_keeps | apply foldl_keeps_fst | apply foldl_keeps | intro _ _ _ _ | intro _ _ _
    | intro _ _ | intro _ | (refine Keeps.upd ?_; first | assumption)

theorem State.recKeyGo_keeps {z : State} {s : State} (hz : Keeps z s) :
    Keeps z (State.recKeyGo s) := by
  unfold State.recKeyGo
  with_reducible repeat' first
    | assumption | (extract_lets +onlyGivenNames x; clear_value x) | extract_lets | apply ite_keeps
    | apply State.storePush_keeps | (refine Keeps.upd ?_; first | assumption | apply State.storePush_keeps) | split
    | (refine Keeps.of_fst (by assumption) ?_) | (refine Keeps.of_snd (by assumption) ?_)

theorem State.regionBaseWrite_keeps {z : State} {s : State} {r} {role} {v} (hz : Keeps z s) :
    Keeps z (State.regionBaseWrite s r role v) := by
  unfold State.regionBaseWrite
  with_reducible repeat' first
    | assumption | apply ite_keeps | apply State.wrf_keeps | apply State.plainWrite_keeps | apply State.soot_keeps
    | (refine Keeps.upd ?_; first | assumption | apply State.wrf_keeps | apply State.plainWrite_keeps | apply State.soot_keeps)

theorem State.reqStat_keeps {z : State} {s : State} {k} {op} {res} {out} (hz : Keeps z s) :
    Keeps z (State.reqStat s k op res out) := by
  unfold State.reqStat
  with_reducible repeat' first
    | assumption | apply ite_keeps | apply State.soot_keeps | apply State.cnt_keeps | apply State.wr_keeps
    | (refine Keeps.upd ?_; first | assumption | apply State.soot_keeps | apply State.cnt_keeps | apply State.wr_keeps)

theorem State.reqDone_keeps {z : State} {s : State} {k} {op} {res} {out} (hz : Keeps z s) :
    Keeps z (State.reqDone s k op res out) := by
  unfold State.reqDone
  with_reducible repeat' first
    | assumption | apply State.reqStat_keeps | apply State.irq_keeps

theorem State.storeDrop_keeps {z : State} {s : State} {p} (hz : Keeps z s) :
    Keeps z (State.storeDrop s p) := by
  unfold State.storeDrop
  with_reducible repeat' first
    | assumption | apply ite_keeps | (refine Keeps.upd ?_; first | assumption)

theorem State.storeApply_keeps {z : State} {s : State} {k} {payload} (hz : Keeps z s) :
    Keeps z (State.storeApply s k payload) := by
  unfold State.storeApply
  repeat' (first
    | with_reducible assumption
    | (extract_lets +onlyGivenNames x; refine (fun hx : Keeps z x => ?_) ?_; rotate_left; subst x; rotate_left; try clear_value x)
    | (extract_lets +onlyGivenNames x; refine (fun hx : Keeps z x.1 => ?_) ?_; rotate_left; subst x; rotate_left; try clear_value x)
    | (extract_lets +onlyGivenNames x; refine (fun hx : Keeps z x.2 => ?_) ?_; rotate_left; subst x; rotate_left; try clear_value x)
    | (extract_lets +onlyGivenNames x; refine (fun hf0 : ∀ s, Keeps z s → Keeps z (x s) => ?_) ?_; rotate_left; subst x; rotate_left; try clear_value x)
    | (extract_lets +onlyGivenNames x; refine (fun hf1 : ∀ s a, Keeps z s → Keeps z (x s a) => ?_) ?_; rotate_left; subst x; rotate_left; try clear_value x)
    | (extract_lets +onlyGivenNames x; refine (fun hf2 : ∀ a s, Keeps z s → Keeps z (x a s) => ?_) ?_; rotate_left; subst x; rotate_left; try clear_value x)
    | (extract_lets +onlyGivenNames x; refine (fun hf3 : ∀ s a b, Keeps z s → Keeps z (x s a b) => ?_) ?_; rotate_left; subst x; rotate_left; try clear_value x)
    | (extract_lets +onlyGivenNames x; refine (fun hf4 : ∀ a b s, Keeps z s → Keeps z (x a b s) => ?_) ?_; rotate_left; subst x; rotate_left; try clear_value x)
    | (extract_lets +onlyGivenNames x; refine (fun hf5 : ∀ a s b, Keeps z s → Keeps z (x a s b) => ?_) ?_; rotate_left; subst x; rotate_left; try clear_value x)
    | (extract_lets +onlyGivenNames x; refine (fun hf6 : ∀ a, Keeps z (x a) => ?_) ?_; rotate_left; subst x; rotate_left; try clear_value x)
    | (extract_lets +onlyGivenNames x; clear_value x)
    | extract_lets
    | with_reducible apply ite_keeps
    | with_reducible apply State.newChains_keeps
    | with_reducible apply State.keysFromStore_keeps
    | with_reducible apply State.serialConfirmed_keeps
    | with_reducible apply State.storeDrop_keeps
    | with_reducible apply hf0
    | with_reducible apply hf1
    | with_reducible apply hf2
    | with_reducible apply hf3
    | with_reducible apply hf4
    | with_reducible apply hf5
    | with_reducible apply hf6
    | intro _ _ _ _
    | intro _ _ _
    | intro _ _
    | intro _
    | (with_reducible refine Keeps.upd ?_; first | with_reducible assumption | (with_reducible refine Keeps.of_fst (by with_reducible assumption) ?_) | (with_reducible refine Keeps.of_snd (by with_reducible assumption) ?_) | with_reducible apply State.newChains_keeps | with_reducible apply State.keysFromStore_keeps | with_reducible apply State.serialConfirmed_keeps | with_reducible apply State.storeDrop_keeps)
    | split
    | (with_reducible refine Keeps.of_fst (by with_reducible assumption) ?_)
    | (with_reducible refine Keeps.of_snd (by with_reducible assumption) ?_)
    | fail)

theorem State.takeNonce_keeps {z : State} {s : State} {k} (hz : Keeps z s) :
    Keeps z (State.takeNonce s k).2 := by
  unfold State.takeNonce
  with_reducible repeat' first
    | assumption
    | (extract_lets +onlyGivenNames x; refine (fun hx : Keeps z x => ?_) ?_; rotate_left; subst x; rotate_left; try clear_value x)
    | (extract_lets +onlyGivenNames x; clear_value x) | extract_lets | apply ite_keeps
    | (refine Keeps.upd ?_; first | assumption) | split | (refine Keeps.of_fst (by assumption) ?_)
    | (refine Keeps.of_snd (by assumption) ?_)

theorem State.tokenOk_keeps {z : State} {s : State} {k} {tag} {rest} {sig} {key} (hz : Keeps z s) :
    Keeps z (State.tokenOk s k tag rest sig key).2 := by
  unfold State.tokenOk
  with_reducible repeat' first
    | assumption | (extract_lets +onlyGivenNames x; clear_value x) | extract_lets | apply ite_keeps
    | apply State.takeNonce_keeps | (refine Keeps.upd ?_; first | assumption | apply State.takeNonce_keeps) | split
    | (refine Keeps.of_fst (by assumption) ?_) | (refine Keeps.of_snd (by assumption) ?_)

theorem execRegionWrite_keeps {z : State} {b} {r} {v} {s : State} (hz : Keeps z s) :
    KeepsO z (execRegionWrite b r v s) := by
  unfold execRegionWrite
  with_reducible repeat' first
    | assumption | apply ite_keeps | apply next_keepsO | apply ite_keepsO | apply refused_keepsO | apply fault_keepsO
    | apply State.regionBaseWrite_keeps | apply busWrite_keeps | intro _ _ _ _ | intro _ _ _ | intro _ _ | intro _
    | (refine Keeps.upd ?_; first | assumption | apply State.regionBaseWrite_keeps | apply busWrite_keeps)

theorem request_keeps {z : State} {c} {k} {op} {port} {f} {s : State} (hf : ∀ u0 u1 u2, Keeps z u2 → Keeps z (f u0 u1 u2).2) (hz : Keeps z s) :
    KeepsO z (request c k op port f s) := by
  unfold request
  repeat' (first
    | with_reducible assumption
    | (extract_lets +onlyGivenNames x; refine (fun hx : Keeps z x => ?_) ?_; rotate_left; subst x; rotate_left; try clear_value x)
    | (extract_lets +onlyGivenNames x; refine (fun hx : Keeps z x.1 => ?_) ?_; rotate_left; subst x; rotate_left; try clear_value x)
    | (extract_lets +onlyGivenNames x; refine (fun hx : Keeps z x.2 => ?_) ?_; rotate_left; subst x; rotate_left; try clear_value x)
    | (extract_lets +onlyGivenNames x; refine (fun hf0 : ∀ s, Keeps z s → Keeps z (x s) => ?_) ?_; rotate_left; subst x; rotate_left; try clear_value x)
    | (extract_lets +onlyGivenNames x; refine (fun ho0 : ∀ a, KeepsO z (x a) => ?_) ?_; rotate_left; subst x; rotate_left; try clear_value x)
    | (extract_lets +onlyGivenNames x; refine (fun ho1 : ∀ s, Keeps z s → KeepsO z (x s) => ?_) ?_; rotate_left; subst x; rotate_left; try clear_value x)
    | (extract_lets +onlyGivenNames x; refine (fun ho2 : ∀ s a, Keeps z s → KeepsO z (x s a) => ?_) ?_; rotate_left; subst x; rotate_left; try clear_value x)
    | (extract_lets +onlyGivenNames x; refine (fun hf1 : ∀ s a, Keeps z s → Keeps z (x s a) => ?_) ?_; rotate_left; subst x; rotate_left; try clear_value x)
    | (extract_lets +onlyGivenNames x; refine (fun hf2 : ∀ a s, Keeps z s → Keeps z (x a s) => ?_) ?_; rotate_left; subst x; rotate_left; try clear_value x)
    | (extract_lets +onlyGivenNames x; refine (fun hf3 : ∀ s a b, Keeps z s → Keeps z (x s a b) => ?_) ?_; rotate_left; subst x; rotate_left; try clear_value x)
    | (extract_lets +onlyGivenNames x; refine (fun hf4 : ∀ a b s, Keeps z s → Keeps z (x a b s) => ?_) ?_; rotate_left; subst x; rotate_left; try clear_value x)
    | (extract_lets +onlyGivenNames x; refine (fun hf5 : ∀ a s b, Keeps z s → Keeps z (x a s b) => ?_) ?_; rotate_left; subst x; rotate_left; try clear_value x)
    | (extract_lets +onlyGivenNames x; refine (fun hf6 : ∀ a, Keeps z (x a) => ?_) ?_; rotate_left; subst x; rotate_left; try clear_value x)
    | (extract_lets +onlyGivenNames x; clear_value x)
    | extract_lets
    | with_reducible apply ite_keeps
    | with_reducible apply next_keepsO
    | with_reducible apply ite_keepsO
    | with_reducible apply refused_keepsO
    | with_reducible apply fault_keepsO
    | with_reducible apply State.wrMem_keeps
    | with_reducible apply State.secShow_keeps
    | with_reducible apply State.reqDone_keeps
    | with_reducible apply State.reqStat_keeps
    | with_reducible apply busWrite_keeps
    | apply hf
    | with_reducible apply hf0
    | with_reducible apply hf1
    | with_reducible apply hf2
    | with_reducible apply hf3
    | with_reducible apply hf4
    | with_reducible apply hf5
    | with_reducible apply hf6
    | with_reducible apply ho0
    | with_reducible apply ho1
    | with_reducible apply ho2
    | intro _ _ _ _
    | intro _ _ _
    | intro _ _
    | intro _
    | (with_reducible refine Keeps.upd ?_; first | with_reducible assumption | (with_reducible refine Keeps.of_fst (by with_reducible assumption) ?_) | (with_reducible refine Keeps.of_snd (by with_reducible assumption) ?_) | with_reducible apply State.wrMem_keeps | with_reducible apply State.secShow_keeps | with_reducible apply State.reqDone_keeps | with_reducible apply State.reqStat_keeps | with_reducible apply busWrite_keeps)
    | split
    | (with_reducible refine Keeps.of_fst (by with_reducible assumption) ?_)
    | (with_reducible refine Keeps.of_snd (by with_reducible assumption) ?_)
    | fail)

theorem asked_keeps {z : State} {mask} {n} {r} {args} {s : State} {f} (hz : Keeps z s) (hf : ∀ u0, Keeps z u0 → Keeps z (f u0).2) :
    Keeps z (asked mask n r args s f).2 := by
  unfold asked
  repeat' (first
    | with_reducible assumption
    | (extract_lets +onlyGivenNames x; refine (fun hx : Keeps z x => ?_) ?_; rotate_left; subst x; rotate_left; try clear_value x)
    | (extract_lets +onlyGivenNames x; refine (fun hx : Keeps z x.1 => ?_) ?_; rotate_left; subst x; rotate_left; try clear_value x)
    | (extract_lets +onlyGivenNames x; refine (fun hx : Keeps z x.2 => ?_) ?_; rotate_left; subst x; rotate_left; try clear_value x)
    | (extract_lets +onlyGivenNames x; refine (fun hf0 : ∀ s, Keeps z s → Keeps z (x s) => ?_) ?_; rotate_left; subst x; rotate_left; try clear_value x)
    | (extract_lets +onlyGivenNames x; refine (fun hf1 : ∀ s a, Keeps z s → Keeps z (x s a) => ?_) ?_; rotate_left; subst x; rotate_left; try clear_value x)
    | (extract_lets +onlyGivenNames x; refine (fun hf2 : ∀ a s, Keeps z s → Keeps z (x a s) => ?_) ?_; rotate_left; subst x; rotate_left; try clear_value x)
    | (extract_lets +onlyGivenNames x; refine (fun hf3 : ∀ s a b, Keeps z s → Keeps z (x s a b) => ?_) ?_; rotate_left; subst x; rotate_left; try clear_value x)
    | (extract_lets +onlyGivenNames x; refine (fun hf4 : ∀ a b s, Keeps z s → Keeps z (x a b s) => ?_) ?_; rotate_left; subst x; rotate_left; try clear_value x)
    | (extract_lets +onlyGivenNames x; refine (fun hf5 : ∀ a s b, Keeps z s → Keeps z (x a s b) => ?_) ?_; rotate_left; subst x; rotate_left; try clear_value x)
    | (extract_lets +onlyGivenNames x; refine (fun hf6 : ∀ a, Keeps z (x a) => ?_) ?_; rotate_left; subst x; rotate_left; try clear_value x)
    | (extract_lets +onlyGivenNames x; clear_value x)
    | extract_lets
    | with_reducible apply ite_keeps
    | apply hf
    | with_reducible apply hf0
    | with_reducible apply hf1
    | with_reducible apply hf2
    | with_reducible apply hf3
    | with_reducible apply hf4
    | with_reducible apply hf5
    | with_reducible apply hf6
    | intro _ _ _ _
    | intro _ _ _
    | intro _ _
    | intro _
    | (with_reducible refine Keeps.upd ?_; first | with_reducible assumption | (with_reducible refine Keeps.of_fst (by with_reducible assumption) ?_) | (with_reducible refine Keeps.of_snd (by with_reducible assumption) ?_))
    | split
    | (with_reducible refine Keeps.of_fst (by with_reducible assumption) ?_)
    | (with_reducible refine Keeps.of_snd (by with_reducible assumption) ?_)
    | fail)

theorem execRandom_keeps {z : State} {c} {k} {s : State} (hz : Keeps z s) :
    KeepsO z (execRandom c k s) := by
  unfold execRandom
  with_reducible repeat' first
    | assumption | (extract_lets +onlyGivenNames x; clear_value x) | extract_lets | apply ite_keeps
    | apply next_keepsO | apply ite_keepsO | apply refused_keepsO | apply fault_keepsO | apply State.drawBytes_keeps
    | apply asked_keeps | apply request_keeps | (refine KeepsO.of_next ?_ (by assumption)) | intro _ _ _ _
    | intro _ _ _ | intro _ _ | intro _
    | (refine Keeps.upd ?_; first | assumption | apply State.drawBytes_keeps | apply asked_keeps) | split
    | (refine Keeps.of_fst (by assumption) ?_) | (refine Keeps.of_snd (by assumption) ?_)

theorem execRmaUnlock_keeps {z : State} {c} {k} {s : State} (hz : Keeps z s) :
    KeepsO z (execRmaUnlock c k s) := by
  unfold execRmaUnlock
  with_reducible repeat' first
    | assumption
    | (extract_lets +onlyGivenNames x; refine (fun hx : Keeps z x => ?_) ?_; rotate_left; subst x; rotate_left; try clear_value x)
    | (extract_lets +onlyGivenNames x; clear_value x) | extract_lets | apply ite_keeps | apply next_keepsO
    | apply ite_keepsO | apply refused_keepsO | apply fault_keepsO | apply State.keysFromStore_keeps
    | apply State.wrf_keeps | apply State.otpShow_keeps | apply State.otpOr_keeps | apply State.tokenOk_keeps
    | apply asked_keeps | apply request_keeps | (refine KeepsO.of_next ?_ (by assumption)) | intro _ _ _ _
    | intro _ _ _ | intro _ _ | intro _
    | (refine Keeps.upd ?_; first | assumption | apply State.keysFromStore_keeps | apply State.wrf_keeps | apply State.otpShow_keeps | apply State.otpOr_keeps | apply State.tokenOk_keeps | apply asked_keeps)
    | split | (refine Keeps.of_fst (by assumption) ?_) | (refine Keeps.of_snd (by assumption) ?_)

theorem execDebugUnlock_keeps {z : State} {c} {k} {s : State} (hz : Keeps z s) :
    KeepsO z (execDebugUnlock c k s) := by
  unfold execDebugUnlock
  with_reducible repeat' first
    | assumption | (extract_lets +onlyGivenNames x; clear_value x) | extract_lets | apply ite_keeps
    | apply next_keepsO | apply ite_keepsO | apply refused_keepsO | apply fault_keepsO | apply State.wrf_keeps
    | apply State.tokenOk_keeps | apply asked_keeps | apply request_keeps | (refine KeepsO.of_next ?_ (by assumption))
    | intro _ _ _ _ | intro _ _ _ | intro _ _ | intro _
    | (refine Keeps.upd ?_; first | assumption | apply State.wrf_keeps | apply State.tokenOk_keeps | apply asked_keeps)
    | split | (refine Keeps.of_fst (by assumption) ?_) | (refine Keeps.of_snd (by assumption) ?_)

theorem execSetBootSlot_keeps {z : State} {c} {k} {s : State} (hz : Keeps z s) :
    KeepsO z (execSetBootSlot c k s) := by
  unfold execSetBootSlot
  with_reducible repeat' first
    | assumption | (extract_lets +onlyGivenNames x; clear_value x) | extract_lets | apply ite_keeps
    | apply next_keepsO | apply ite_keepsO | apply refused_keepsO | apply fault_keepsO | apply asked_keeps
    | apply request_keeps | (refine KeepsO.of_next ?_ (by assumption)) | intro _ _ _ _ | intro _ _ _ | intro _ _
    | intro _ | (refine Keeps.upd ?_; first | assumption | apply asked_keeps) | split
    | (refine Keeps.of_fst (by assumption) ?_) | (refine Keeps.of_snd (by assumption) ?_)

theorem execRollbackCommit_keeps {z : State} {c} {k} {s : State} (hz : Keeps z s) :
    KeepsO z (execRollbackCommit c k s) := by
  unfold execRollbackCommit
  with_reducible repeat' first
    | assumption | apply ite_keeps | apply next_keepsO | apply ite_keepsO | apply refused_keepsO | apply fault_keepsO
    | apply State.otpOr_keeps | apply State.otpShow_keeps | apply asked_keeps | apply request_keeps
    | (refine KeepsO.of_next ?_ (by assumption)) | intro _ _ _ _ | intro _ _ _ | intro _ _ | intro _
    | (refine Keeps.upd ?_; first | assumption | apply State.otpOr_keeps | apply State.otpShow_keeps | apply asked_keeps)

theorem execRevokeBootKey_keeps {z : State} {c} {k} {s : State} (hz : Keeps z s) :
    KeepsO z (execRevokeBootKey c k s) := by
  unfold execRevokeBootKey
  with_reducible repeat' first
    | assumption | (extract_lets +onlyGivenNames x; clear_value x) | extract_lets | apply ite_keeps
    | apply next_keepsO | apply ite_keepsO | apply refused_keepsO | apply fault_keepsO | apply State.otpOr_keeps
    | apply State.otpShow_keeps | apply State.tokenOk_keeps | apply asked_keeps | apply request_keeps
    | (refine KeepsO.of_next ?_ (by assumption)) | intro _ _ _ _ | intro _ _ _ | intro _ _ | intro _
    | (refine Keeps.upd ?_; first | assumption | apply State.otpOr_keeps | apply State.otpShow_keeps | apply State.tokenOk_keeps | apply asked_keeps)
    | split | (refine Keeps.of_fst (by assumption) ?_) | (refine Keeps.of_snd (by assumption) ?_)

theorem execSecure_keeps {z : State} {c} {k} {s : State} (hz : Keeps z s) :
    KeepsO z (execSecure c k s) := by
  unfold execSecure
  with_reducible repeat' first
    | assumption | (extract_lets +onlyGivenNames x; clear_value x) | extract_lets | apply ite_keeps
    | apply next_keepsO | apply ite_keepsO | apply refused_keepsO | apply fault_keepsO | apply State.otpOr_keeps
    | apply asked_keeps | apply request_keeps | (refine KeepsO.of_next ?_ (by assumption)) | intro _ _ _ _
    | intro _ _ _ | intro _ _ | intro _
    | (refine Keeps.upd ?_; first | assumption | apply State.otpOr_keeps | apply asked_keeps) | split
    | (refine Keeps.of_fst (by assumption) ?_) | (refine Keeps.of_snd (by assumption) ?_)

theorem execProvision_keeps {z : State} {c} {k} {s : State} (hz : Keeps z s) :
    KeepsO z (execProvision c k s) := by
  unfold execProvision
  with_reducible repeat' first
    | assumption | (extract_lets +onlyGivenNames x; clear_value x) | extract_lets | apply ite_keeps
    | apply next_keepsO | apply ite_keepsO | apply refused_keepsO | apply fault_keepsO | apply State.otpOr_keeps
    | apply State.otpShow_keeps | apply asked_keeps | apply request_keeps | (refine KeepsO.of_next ?_ (by assumption))
    | intro _ _ _ _ | intro _ _ _ | intro _ _ | intro _
    | (refine Keeps.upd ?_; first | assumption | apply State.otpOr_keeps | apply State.otpShow_keeps | apply asked_keeps)
    | split | (refine Keeps.of_fst (by assumption) ?_) | (refine Keeps.of_snd (by assumption) ?_)

theorem execProgKeySet_keeps {z : State} {c} {k} {s : State} (hz : Keeps z s) :
    KeepsO z (execProgKeySet c k s) := by
  unfold execProgKeySet
  with_reducible repeat' first
    | assumption | (extract_lets +onlyGivenNames x; clear_value x) | extract_lets | apply ite_keeps
    | apply next_keepsO | apply ite_keepsO | apply refused_keepsO | apply fault_keepsO | apply State.storePush_keeps
    | apply asked_keeps | apply request_keeps | (refine KeepsO.of_next ?_ (by assumption)) | intro _ _ _ _
    | intro _ _ _ | intro _ _ | intro _
    | (refine Keeps.upd ?_; first | assumption | apply State.storePush_keeps | apply asked_keeps) | split
    | (refine Keeps.of_fst (by assumption) ?_) | (refine Keeps.of_snd (by assumption) ?_)

theorem execRecKeyGen_keeps {z : State} {c} {k} {s : State} (hz : Keeps z s) :
    KeepsO z (execRecKeyGen c k s) := by
  unfold execRecKeyGen
  with_reducible repeat' first
    | assumption | (extract_lets +onlyGivenNames x; clear_value x) | extract_lets | apply ite_keeps
    | apply next_keepsO | apply ite_keepsO | apply refused_keepsO | apply fault_keepsO | apply State.recKeyGo_keeps
    | apply State.drawBytes_keeps | apply asked_keeps | apply request_keeps
    | (refine KeepsO.of_next ?_ (by assumption)) | intro _ _ _ _ | intro _ _ _ | intro _ _ | intro _
    | (refine Keeps.upd ?_; first | assumption | apply State.recKeyGo_keeps | apply State.drawBytes_keeps | apply asked_keeps)
    | split | (refine Keeps.of_fst (by assumption) ?_) | (refine Keeps.of_snd (by assumption) ?_)

theorem execTplKeySet_keeps {z : State} {c} {k} {s : State} (hz : Keeps z s) :
    KeepsO z (execTplKeySet c k s) := by
  unfold execTplKeySet
  with_reducible repeat' first
    | assumption | (extract_lets +onlyGivenNames x; clear_value x) | extract_lets | apply ite_keeps
    | apply next_keepsO | apply ite_keepsO | apply refused_keepsO | apply fault_keepsO | apply State.storePush_keeps
    | apply asked_keeps | apply request_keeps | (refine KeepsO.of_next ?_ (by assumption)) | intro _ _ _ _
    | intro _ _ _ | intro _ _ | intro _
    | (refine Keeps.upd ?_; first | assumption | apply State.storePush_keeps | apply asked_keeps) | split
    | (refine Keeps.of_fst (by assumption) ?_) | (refine Keeps.of_snd (by assumption) ?_)

theorem execOwnerReset_keeps {z : State} {c} {k} {s : State} (hz : Keeps z s) :
    KeepsO z (execOwnerReset c k s) := by
  unfold execOwnerReset
  with_reducible repeat' first
    | assumption
    | (extract_lets +onlyGivenNames x; refine (fun hx : Keeps z x => ?_) ?_; rotate_left; subst x; rotate_left; try clear_value x)
    | (extract_lets +onlyGivenNames x; clear_value x) | extract_lets | apply ite_keeps | apply next_keepsO
    | apply ite_keepsO | apply refused_keepsO | apply fault_keepsO | apply State.storePush_keeps
    | apply State.wr_keeps | apply State.dmkOwnerReset_keeps | apply State.tokenOk_keeps | apply asked_keeps
    | apply request_keeps | (refine KeepsO.of_next ?_ (by assumption)) | intro _ _ _ _ | intro _ _ _ | intro _ _
    | intro _
    | (refine Keeps.upd ?_; first | assumption | apply State.storePush_keeps | apply State.wr_keeps | apply State.dmkOwnerReset_keeps | apply State.tokenOk_keeps | apply asked_keeps)
    | split | (refine Keeps.of_fst (by assumption) ?_) | (refine Keeps.of_snd (by assumption) ?_)

theorem execTransferOwnership_keeps {z : State} {c} {k} {s : State} (hz : Keeps z s) :
    KeepsO z (execTransferOwnership c k s) := by
  unfold execTransferOwnership
  with_reducible repeat' first
    | assumption | (extract_lets +onlyGivenNames x; clear_value x) | extract_lets | apply ite_keeps
    | apply next_keepsO | apply ite_keepsO | apply refused_keepsO | apply fault_keepsO | apply State.storePush_keeps
    | apply State.takeNonce_keeps | apply State.tokenOk_keeps | apply asked_keeps | apply request_keeps
    | (refine KeepsO.of_next ?_ (by assumption)) | intro _ _ _ _ | intro _ _ _ | intro _ _ | intro _
    | (refine Keeps.upd ?_; first | assumption | apply State.storePush_keeps | apply State.takeNonce_keeps | apply State.tokenOk_keeps | apply asked_keeps)
    | split | (refine Keeps.of_fst (by assumption) ?_) | (refine Keeps.of_snd (by assumption) ?_)

theorem execTakeOwnership_keeps {z : State} {c} {k} {s : State} (hz : Keeps z s) :
    KeepsO z (execTakeOwnership c k s) := by
  unfold execTakeOwnership
  with_reducible repeat' first
    | assumption | (extract_lets +onlyGivenNames x; clear_value x) | extract_lets | apply ite_keeps
    | apply next_keepsO | apply ite_keepsO | apply refused_keepsO | apply fault_keepsO | apply State.storePush_keeps
    | apply asked_keeps | apply request_keeps | (refine KeepsO.of_next ?_ (by assumption)) | intro _ _ _ _
    | intro _ _ _ | intro _ _ | intro _
    | (refine Keeps.upd ?_; first | assumption | apply State.storePush_keeps | apply asked_keeps) | split
    | (refine Keeps.of_fst (by assumption) ?_) | (refine Keeps.of_snd (by assumption) ?_)

theorem execCredClear_keeps {z : State} {c} {k} {s : State} (hz : Keeps z s) :
    KeepsO z (execCredClear c k s) := by
  unfold execCredClear
  with_reducible repeat' first
    | assumption | (extract_lets +onlyGivenNames x; clear_value x) | extract_lets | apply ite_keeps
    | apply next_keepsO | apply ite_keepsO | apply refused_keepsO | apply fault_keepsO | apply State.storePush_keeps
    | apply asked_keeps | apply request_keeps | (refine KeepsO.of_next ?_ (by assumption)) | intro _ _ _ _
    | intro _ _ _ | intro _ _ | intro _
    | (refine Keeps.upd ?_; first | assumption | apply State.storePush_keeps | apply asked_keeps) | split
    | (refine Keeps.of_fst (by assumption) ?_) | (refine Keeps.of_snd (by assumption) ?_)

theorem execCredSet_keeps {z : State} {c} {k} {s : State} (hz : Keeps z s) :
    KeepsO z (execCredSet c k s) := by
  unfold execCredSet
  with_reducible repeat' first
    | assumption | (extract_lets +onlyGivenNames x; clear_value x) | extract_lets | apply ite_keeps
    | apply next_keepsO | apply ite_keepsO | apply refused_keepsO | apply fault_keepsO | apply State.storePush_keeps
    | apply asked_keeps | apply request_keeps | (refine KeepsO.of_next ?_ (by assumption)) | intro _ _ _ _
    | intro _ _ _ | intro _ _ | intro _
    | (refine Keeps.upd ?_; first | assumption | apply State.storePush_keeps | apply asked_keeps) | split
    | (refine Keeps.of_fst (by assumption) ?_) | (refine Keeps.of_snd (by assumption) ?_)

theorem execDropRole_keeps {z : State} {c} {k} {s : State} (hz : Keeps z s) :
    KeepsO z (execDropRole c k s) := by
  unfold execDropRole
  with_reducible repeat' first
    | assumption | (extract_lets +onlyGivenNames x; clear_value x) | extract_lets | apply ite_keeps
    | apply next_keepsO | apply ite_keepsO | apply refused_keepsO | apply fault_keepsO | apply State.wrf_keeps
    | apply asked_keeps | apply request_keeps | (refine KeepsO.of_next ?_ (by assumption)) | intro _ _ _ _
    | intro _ _ _ | intro _ _ | intro _
    | (refine Keeps.upd ?_; first | assumption | apply State.wrf_keeps | apply asked_keeps) | split
    | (refine Keeps.of_fst (by assumption) ?_) | (refine Keeps.of_snd (by assumption) ?_)

theorem execSetRole_keeps {z : State} {c} {k} {s : State} (hz : Keeps z s) :
    KeepsO z (execSetRole c k s) := by
  unfold execSetRole
  with_reducible repeat' first
    | assumption | (extract_lets +onlyGivenNames x; clear_value x) | extract_lets | apply ite_keeps
    | apply next_keepsO | apply ite_keepsO | apply refused_keepsO | apply fault_keepsO | apply State.wrf_keeps
    | apply State.tokenOk_keeps | apply asked_keeps | apply request_keeps | (refine KeepsO.of_next ?_ (by assumption))
    | intro _ _ _ _ | intro _ _ _ | intro _ _ | intro _
    | (refine Keeps.upd ?_; first | assumption | apply State.wrf_keeps | apply State.tokenOk_keeps | apply asked_keeps)
    | split | (refine Keeps.of_fst (by assumption) ?_) | (refine Keeps.of_snd (by assumption) ?_)

theorem execGetChallenge_keeps {z : State} {c} {k} {s : State} (hz : Keeps z s) :
    KeepsO z (execGetChallenge c k s) := by
  unfold execGetChallenge
  with_reducible repeat' first
    | assumption | (extract_lets +onlyGivenNames x; clear_value x) | extract_lets | apply ite_keeps
    | apply next_keepsO | apply ite_keepsO | apply refused_keepsO | apply fault_keepsO | apply State.drawBytes_keeps
    | apply request_keeps | (refine KeepsO.of_next ?_ (by assumption)) | intro _ _ _ _ | intro _ _ _ | intro _ _
    | intro _ | (refine Keeps.upd ?_; first | assumption | apply State.drawBytes_keeps) | split
    | (refine Keeps.of_fst (by assumption) ?_) | (refine Keeps.of_snd (by assumption) ?_)

theorem execChainCapture_keeps {z : State} {b} {v} {s : State} (hz : Keeps z s) :
    KeepsO z (execChainCapture b v s) := by
  unfold execChainCapture
  with_reducible repeat' first
    | assumption | apply ite_keeps | apply next_keepsO | apply ite_keepsO | apply refused_keepsO | apply fault_keepsO
    | apply State.wr_keeps | apply State.plainWrite_keeps | apply busWrite_keeps | apply forN_keeps | intro _ _ _ _
    | intro _ _ _ | intro _ _ | intro _
    | (refine Keeps.upd ?_; first | assumption | apply State.wr_keeps | apply State.plainWrite_keeps | apply busWrite_keeps | apply forN_keeps)

theorem execEntropyRecovery_keeps {z : State} {s : State} (hz : Keeps z s) :
    KeepsO z (execEntropyRecovery s) := by
  unfold execEntropyRecovery
  with_reducible repeat' first
    | assumption | apply ite_keeps | apply next_keepsO | apply ite_keepsO | apply refused_keepsO | apply fault_keepsO
    | apply State.secShow_keeps | (refine Keeps.upd ?_; first | assumption | apply State.secShow_keeps)

theorem execEnclaveFault_keeps {z : State} {s : State} (hz : Keeps z s) :
    KeepsO z (execEnclaveFault s) := by
  unfold execEnclaveFault
  with_reducible repeat' first
    | assumption | apply ite_keeps | apply next_keepsO | apply ite_keepsO | apply refused_keepsO | apply fault_keepsO
    | apply State.soot_keeps | apply State.secShow_keeps | apply State.reqDone_keeps | apply forN_keeps
    | intro _ _ _ _ | intro _ _ _ | intro _ _ | intro _
    | (refine Keeps.upd ?_; first | assumption | apply State.soot_keeps | apply State.secShow_keeps | apply State.reqDone_keeps | apply forN_keeps)

theorem execStoreWriteRetry_keeps {z : State} {s : State} (hz : Keeps z s) :
    KeepsO z (execStoreWriteRetry s) := by
  unfold execStoreWriteRetry
  with_reducible repeat' first
    | assumption | apply ite_keeps | apply next_keepsO | apply ite_keepsO | apply refused_keepsO | apply fault_keepsO
    | apply State.soot_keeps | (refine Keeps.upd ?_; first | assumption | apply State.soot_keeps)

theorem execStoreWriteConfirm_keeps {z : State} {ok} {s : State} (hz : Keeps z s) :
    KeepsO z (execStoreWriteConfirm ok s) := by
  unfold execStoreWriteConfirm
  with_reducible repeat' first
    | assumption
    | (extract_lets +onlyGivenNames x; refine (fun hx : Keeps z x => ?_) ?_; rotate_left; subst x; rotate_left; try clear_value x)
    | (extract_lets +onlyGivenNames x; clear_value x) | extract_lets | apply ite_keeps | apply next_keepsO
    | apply ite_keepsO | apply refused_keepsO | apply fault_keepsO | apply State.soot_keeps
    | apply State.serialFailed_keeps | apply State.secShow_keeps | apply State.reqDone_keeps
    | apply State.storeApply_keeps
    | (refine Keeps.upd ?_; first | assumption | apply State.soot_keeps | apply State.serialFailed_keeps | apply State.secShow_keeps | apply State.reqDone_keeps | apply State.storeApply_keeps)
    | split | (refine Keeps.of_fst (by assumption) ?_) | (refine Keeps.of_snd (by assumption) ?_)

theorem execRecordSign_keeps {z : State} {s : State} (hz : Keeps z s) :
    KeepsO z (execRecordSign s) := by
  unfold execRecordSign
  with_reducible repeat' first
    | assumption
    | (extract_lets +onlyGivenNames x; refine (fun hx : Keeps z x => ?_) ?_; rotate_left; subst x; rotate_left; try clear_value x)
    | (extract_lets +onlyGivenNames x; clear_value x) | extract_lets | apply ite_keeps | apply next_keepsO
    | apply ite_keepsO | apply refused_keepsO | apply fault_keepsO | apply State.wr_keeps | apply State.recKeyGo_keeps
    | apply State.secShow_keeps | apply State.irq_keeps | apply State.setChain_keeps | apply State.qAppend_keeps
    | apply State.qPushReserved_keeps
    | (refine Keeps.upd ?_; first | assumption | apply State.wr_keeps | apply State.recKeyGo_keeps | apply State.secShow_keeps | apply State.irq_keeps | apply State.setChain_keeps | apply State.qAppend_keeps | apply State.qPushReserved_keeps)
    | split | (refine Keeps.of_fst (by assumption) ?_) | (refine Keeps.of_snd (by assumption) ?_)

theorem execEntropyFailure_keeps {z : State} {s : State} (hz : Keeps z s) :
    KeepsO z (execEntropyFailure s) := by
  unfold execEntropyFailure
  with_reducible repeat' first
    | assumption | apply ite_keeps | apply next_keepsO | apply ite_keepsO | apply refused_keepsO | apply fault_keepsO
    | apply State.soot_keeps | apply State.secShow_keeps
    | (refine Keeps.upd ?_; first | assumption | apply State.soot_keeps | apply State.secShow_keeps)

theorem execNonceExpiry_keeps {z : State} {k} {s : State} (hz : Keeps z s) :
    KeepsO z (execNonceExpiry k s) := by
  unfold execNonceExpiry
  with_reducible repeat' first
    | assumption | (extract_lets +onlyGivenNames x; clear_value x) | extract_lets | apply ite_keeps
    | apply next_keepsO | apply ite_keepsO | apply refused_keepsO | apply fault_keepsO
    | (refine Keeps.upd ?_; first | assumption) | split | (refine Keeps.of_fst (by assumption) ?_)
    | (refine Keeps.of_snd (by assumption) ?_)

end Sys2Proof.Machine
end

