-- ==== Sys2Proof/Laws/KeepsWarp.lean ====
section
/-! SUPPORT. What every operation of Machine/Warp.lean keeps (Laws/Keeps.lean). -/
-- one script for every shape of goal: what a goal does not need is not reported
set_option linter.all false
namespace Sys2Proof.Machine

theorem State.highWater_keeps {z : State} {s : State} {e} (hz : Keeps z s) :
    Keeps z (State.highWater s e).1 := by
  unfold State.highWater
  with_reducible repeat' first
    | assumption | (extract_lets +onlyGivenNames x; clear_value x) | extract_lets | apply ite_keeps
    | apply State.irq_keeps | apply State.wr64_keeps | apply State.wrb_keeps
    | (refine Keeps.upd ?_; first | assumption | apply State.irq_keeps | apply State.wr64_keeps | apply State.wrb_keeps)
    | split | (refine Keeps.of_fst (by assumption) ?_) | (refine Keeps.of_snd (by assumption) ?_)

theorem State.entryAbort_keeps {z : State} {s : State} (hz : Keeps z s) :
    Keeps z (State.entryAbort s) := by
  unfold State.entryAbort
  with_reducible repeat' first
    | assumption | apply ite_keeps | apply State.wrf_keeps | apply State.cnt_keeps | apply State.irq_keeps
    | (refine Keeps.upd ?_; first | assumption | apply State.wrf_keeps | apply State.cnt_keeps | apply State.irq_keeps)

theorem State.encMove_keeps {z : State} {s : State} {e} {down} {phase} {at_} (hz : Keeps z s) :
    Keeps z (State.encMove s e down phase at_).1 := by
  unfold State.encMove
  with_reducible repeat' first
    | assumption | apply ite_keeps | apply State.highWater_keeps | apply State.entryAbort_keeps
    | apply State.wrb_keeps | apply State.setEnc_keeps
    | (refine Keeps.upd ?_; first | assumption | apply State.highWater_keeps | apply State.entryAbort_keeps | apply State.wrb_keeps | apply State.setEnc_keeps)

theorem State.encAB_keeps {z : State} {s : State} {e} {a} {b} {at_} (hz : Keeps z s) :
    Keeps z (State.encAB s e a b at_).1 := by
  unfold State.encAB
  with_reducible repeat' first
    | assumption
    | (extract_lets +onlyGivenNames x; refine (fun hx : Keeps z x => ?_) ?_; rotate_left; subst x; rotate_left; try clear_value x)
    | (extract_lets +onlyGivenNames x; clear_value x) | extract_lets | apply ite_keeps | apply State.soot_keeps
    | apply State.encMove_keeps | apply State.wrb_keeps | apply State.cnt_keeps | apply State.updEnc_keeps
    | (refine Keeps.upd ?_; first | assumption | apply State.soot_keeps | apply State.encMove_keeps | apply State.wrb_keeps | apply State.cnt_keeps | apply State.updEnc_keeps)
    | split | (refine Keeps.of_fst (by assumption) ?_) | (refine Keeps.of_snd (by assumption) ?_)

theorem State.encZ_keeps {z : State} {s : State} {e} {zz} (hz : Keeps z s) :
    Keeps z (State.encZ s e zz) := by
  unfold State.encZ
  with_reducible repeat' first
    | assumption | apply ite_keeps | apply State.wrb_keeps | apply State.soot_keeps | apply State.wr64_keeps
    | apply State.updEnc_keeps
    | (refine Keeps.upd ?_; first | assumption | apply State.wrb_keeps | apply State.soot_keeps | apply State.wr64_keeps | apply State.updEnc_keeps)

theorem State.encOff_keeps {z : State} {s : State} {e} (hz : Keeps z s) :
    Keeps z (State.encOff s e) := by
  unfold State.encOff
  with_reducible repeat' first
    | assumption | apply State.updEnc_keeps | apply State.wrb_keeps

theorem State.encStop_keeps {z : State} {s : State} {e} (hz : Keeps z s) :
    Keeps z (State.encStop s e) := by
  unfold State.encStop
  with_reducible repeat' first
    | assumption | apply State.updEnc_keeps | apply State.wrb_keeps

theorem State.vencSync_keeps {z : State} {s : State} {v} (hz : Keeps z s) :
    Keeps z (State.vencSync s v) := by
  unfold State.vencSync
  with_reducible repeat' first
    | assumption | apply State.updVenc_keeps

theorem State.showPos_keeps {z : State} {s : State} {frac} {lo} {hi} {p} (hz : Keeps z s) :
    Keeps z (State.showPos s frac lo hi p) := by
  unfold State.showPos
  with_reducible repeat' first
    | assumption | apply State.wr_keeps

theorem execVencPosCapture_keeps {z : State} {b} {v} {s : State} (hz : Keeps z s) :
    KeepsO z (execVencPosCapture b v s) := by
  unfold execVencPosCapture
  with_reducible repeat' first
    | assumption | apply ite_keeps | apply next_keepsO | apply ite_keepsO | apply refused_keepsO | apply fault_keepsO
    | apply State.showPos_keeps | apply busRead_keeps | intro _ _ _ _ | intro _ _ _ | intro _ _ | intro _
    | (refine Keeps.upd ?_; first | assumption | apply State.showPos_keeps | apply busRead_keeps)

theorem execEncPosCapture_keeps {z : State} {b} {e} {s : State} (hz : Keeps z s) :
    KeepsO z (execEncPosCapture b e s) := by
  unfold execEncPosCapture
  with_reducible repeat' first
    | assumption | apply ite_keeps | apply next_keepsO | apply ite_keepsO | apply refused_keepsO | apply fault_keepsO
    | apply State.wr64_keeps | apply State.wr_keeps | apply State.showPos_keeps | apply busRead_keeps | intro _ _ _ _
    | intro _ _ _ | intro _ _ | intro _
    | (refine Keeps.upd ?_; first | assumption | apply State.wr64_keeps | apply State.wr_keeps | apply State.showPos_keeps | apply busRead_keeps)

end Sys2Proof.Machine
end

