-- ==== Sys2Proof/Laws/KeepsLine.lean ====
section
/-! SUPPORT. What every operation of Machine/Line.lean keeps (Laws/Keeps.lean). -/
-- one script for every shape of goal: what a goal does not need is not reported
set_option linter.all false
namespace Sys2Proof.Machine

theorem State.admitPush_keeps {z : State} {s : State} {n} {r} (hz : Keeps z s) :
    Keeps z (State.admitPush s n r) := by
  unfold State.admitPush
  with_reducible repeat' first
    | assumption | apply ite_keeps | apply State.updChan_keeps | apply State.qPush_keeps | apply State.drawBytes_keeps
    | (refine Keeps.upd ?_; first | assumption | apply State.updChan_keeps | apply State.qPush_keeps | apply State.drawBytes_keeps)

theorem State.admitStn_keeps {z : State} {s : State} {k} {r} (hz : Keeps z s) :
    Keeps z (State.admitStn s k r) := by
  unfold State.admitStn
  with_reducible repeat' first
    | assumption | apply State.updStn_keeps

theorem State.cfgWhileOn_keeps {z : State} {s : State} {a} {v} {after} (hz : Keeps z s) (hafter : ∀ u0, Keeps z u0 → Keeps z (after u0)) :
    Keeps z (State.cfgWhileOn s a v after) := by
  unfold State.cfgWhileOn
  with_reducible repeat' first
    | assumption | apply ite_keeps | apply State.wrb_keeps | apply State.plainWrite_keeps | apply State.soot_keeps
    | apply hafter
    | (refine Keeps.upd ?_; first | assumption | apply State.wrb_keeps | apply State.plainWrite_keeps | apply State.soot_keeps)

theorem State.lsrUpdate_keeps {z : State} {s : State} (hz : Keeps z s) :
    Keeps z (State.lsrUpdate s) := by
  unfold State.lsrUpdate
  with_reducible repeat' first
    | assumption | apply ite_keeps | (refine Keeps.upd ?_; first | assumption)

theorem State.rejUpdate_keeps {z : State} {s : State} {j} (hz : Keeps z s) :
    Keeps z (State.rejUpdate s j) := by
  unfold State.rejUpdate
  with_reducible repeat' first
    | assumption | apply ite_keeps | apply State.wrf_keeps | apply State.wrb_keeps | apply State.setRej_keeps
    | apply foldl_keeps_fst | apply foldl_keeps | intro _ _ _ _ | intro _ _ _ | intro _ _ | intro _
    | (refine Keeps.upd ?_; first | assumption | apply State.wrf_keeps | apply State.wrb_keeps | apply State.setRej_keeps)

theorem State.rejectsSafeEnd_keeps {z : State} {s : State} (hz : Keeps z s) :
    Keeps z (State.rejectsSafeEnd s) := by
  unfold State.rejectsSafeEnd
  with_reducible repeat' first
    | assumption | apply ite_keeps | apply State.rejUpdate_keeps | apply forN_keeps | intro _ _ _ _ | intro _ _ _
    | intro _ _ | intro _ | (refine Keeps.upd ?_; first | assumption | apply State.rejUpdate_keeps | apply forN_keeps)

theorem State.rejectsSafe_keeps {z : State} {s : State} (hz : Keeps z s) :
    Keeps z (State.rejectsSafe s) := by
  unfold State.rejectsSafe
  with_reducible repeat' first
    | assumption | apply ite_keeps | apply State.updRej_keeps | apply State.rejUpdate_keeps | apply forN_keeps
    | intro _ _ _ _ | intro _ _ _ | intro _ _ | intro _
    | (refine Keeps.upd ?_; first | assumption | apply State.updRej_keeps | apply State.rejUpdate_keeps | apply forN_keeps)

theorem State.cmpPosWrite_keeps {z : State} {s : State} {j} {v} (hz : Keeps z s) :
    Keeps z (State.cmpPosWrite s j v) := by
  unfold State.cmpPosWrite
  with_reducible repeat' first
    | assumption | apply State.updRej_keeps | apply State.wr_keeps

theorem State.cmpWatch_keeps {z : State} {s : State} {id} (hz : Keeps z s) :
    Keeps z (State.cmpWatch s id) := by
  unfold State.cmpWatch
  with_reducible repeat' first
    | assumption | apply ite_keeps | apply State.updRej_keeps | apply forN_keeps | intro _ _ _ _ | intro _ _ _
    | intro _ _ | intro _ | (refine Keeps.upd ?_; first | assumption | apply State.updRej_keeps | apply forN_keeps)

theorem State.encAccept_keeps {z : State} {s : State} {e} {a} {b} {zz} {at_} (hz : Keeps z s) :
    Keeps z (State.encAccept s e a b zz at_) := by
  unfold State.encAccept
  with_reducible repeat' first
    | assumption | apply ite_keeps | apply State.encZ_keeps | apply State.armUpdate_keeps | apply State.cmpWatch_keeps
    | apply State.reverseJobs_keeps | apply State.encAB_keeps
    | (refine Keeps.upd ?_; first | assumption | apply State.encZ_keeps | apply State.armUpdate_keeps | apply State.cmpWatch_keeps | apply State.reverseJobs_keeps | apply State.encAB_keeps)

theorem State.encCfgWrite_keeps {z : State} {s : State} {e} {v} {a} {b} {zz} (hz : Keeps z s) :
    Keeps z (State.encCfgWrite s e v a b zz) := by
  unfold State.encCfgWrite
  with_reducible repeat' first
    | assumption | apply ite_keeps | apply State.updEnc_keeps | apply State.plainWrite_keeps
    | apply State.encOff_keeps | apply State.cfgWhileOn_keeps | intro _ _ _ _ | intro _ _ _ | intro _ _ | intro _
    | (refine Keeps.upd ?_; first | assumption | apply State.updEnc_keeps | apply State.plainWrite_keeps | apply State.encOff_keeps | apply State.cfgWhileOn_keeps)

theorem State.rejOpen_keeps {z : State} {s : State} {j} {w} (hz : Keeps z s) :
    Keeps z (State.rejOpen s j w) := by
  unfold State.rejOpen
  with_reducible repeat' first
    | assumption | apply State.updRej_keeps | apply State.rejUpdate_keeps

theorem State.forceProduct_keeps {z : State} {s : State} {pid} (hz : Keeps z s) :
    Keeps z (State.forceProduct s pid) := by
  unfold State.forceProduct
  with_reducible repeat' first
    | assumption
    | (extract_lets +onlyGivenNames x; refine (fun hx : Keeps z x => ?_) ?_; rotate_left; subst x; rotate_left; try clear_value x)
    | (extract_lets +onlyGivenNames x; clear_value x) | extract_lets | apply ite_keeps | apply State.rejOpen_keeps
    | apply State.setTrk_keeps | apply State.wrf_keeps
    | (refine Keeps.upd ?_; first | assumption | apply State.rejOpen_keeps | apply State.setTrk_keeps | apply State.wrf_keeps)
    | split | (refine Keeps.of_fst (by assumption) ?_) | (refine Keeps.of_snd (by assumption) ?_)

theorem State.holdEngage_keeps {z : State} {s : State} {j} {e} {start} (hz : Keeps z s) :
    Keeps z (State.holdEngage s j e start) := by
  unfold State.holdEngage
  with_reducible repeat' first
    | assumption | apply State.wrf_keeps | apply State.rejUpdate_keeps | apply State.wr_keeps
    | apply State.updRej_keeps

theorem State.lsrEvent_keeps {z : State} {s : State} {b} (hz : Keeps z s) :
    Keeps z (State.lsrEvent s b) := by
  unfold State.lsrEvent
  with_reducible repeat' first
    | assumption | apply ite_keeps | apply State.lsrUpdate_keeps
    | (refine Keeps.upd ?_; first | assumption | apply State.lsrUpdate_keeps)

theorem State.trkShow_keeps {z : State} {s : State} (hz : Keeps z s) :
    Keeps z (State.trkShow s) := by
  unfold State.trkShow
  with_reducible repeat' first
    | assumption | apply ite_keeps | apply State.irq_keeps | apply State.wrf_keeps | apply State.wrb_keeps
    | apply State.peak_keeps
    | (refine Keeps.upd ?_; first | assumption | apply State.irq_keeps | apply State.wrf_keeps | apply State.wrb_keeps | apply State.peak_keeps)

theorem State.trkTake_keeps {z s : State} {t : Nat} {u : State} (hz : Keeps z s) (e : s.trkTake = some (t, u)) :
    Keeps z u := by
  unfold State.trkTake at e
  split at e
  · injection e with e; injection e with _ e; subst e; exact Keeps.upd hz
  · split at e
    · injection e with e; injection e with _ e; subst e; exact Keeps.upd hz
    · cases e

theorem State.vencProduct_keeps {z : State} {s : State} {i} {stamp} (hz : Keeps z s) :
    Keeps z (State.vencProduct s i stamp) := by
  unfold State.vencProduct
  with_reducible repeat' first
    | assumption | apply ite_keeps | apply State.wr_keeps | apply State.updVenc_keeps | apply State.vencSync_keeps
    | apply forN_keeps | intro _ _ _ _ | intro _ _ _ | intro _ _ | intro _
    | (refine Keeps.upd ?_; first | assumption | apply State.wr_keeps | apply State.updVenc_keeps | apply State.vencSync_keeps | apply forN_keeps)

theorem State.qualify_keeps {z : State} {s : State} {i} {edge} (hz : Keeps z s) :
    Keeps z (State.qualify s i edge) := by
  unfold State.qualify
  with_reducible repeat' first
    | assumption
    | (extract_lets +onlyGivenNames x; refine (fun hx : Keeps z x => ?_) ?_; rotate_left; subst x; rotate_left; try clear_value x)
    | (extract_lets +onlyGivenNames x; clear_value x) | extract_lets | apply ite_keeps | apply State.admitStn_keeps
    | apply State.admitPush_keeps | apply State.trkShow_keeps | apply State.setTrk_keeps | apply State.wr_keeps
    | apply State.holdEngage_keeps | apply State.lsrEvent_keeps | apply State.cnt_keeps | apply State.soot_keeps
    | apply State.irq_keeps | apply State.vencProduct_keeps | apply State.cntW_keeps | apply State.entryAbort_keeps
    | apply State.updPd_keeps | (refine State.trkTake_keeps ?_ (by assumption)) | apply forL_keeps
    | apply forL_keeps_fst | intro _ _ _ _ | intro _ _ _ | intro _ _ | intro _
    | (refine Keeps.upd ?_; first | assumption | apply State.admitStn_keeps | apply State.admitPush_keeps | apply State.trkShow_keeps | apply State.setTrk_keeps | apply State.wr_keeps | apply State.holdEngage_keeps | apply State.lsrEvent_keeps | apply State.cnt_keeps | apply State.soot_keeps | apply State.irq_keeps | apply State.vencProduct_keeps | apply State.cntW_keeps | apply State.entryAbort_keeps | apply State.updPd_keeps | apply forL_keeps)
    | split | (refine Keeps.of_fst (by assumption) ?_) | (refine Keeps.of_snd (by assumption) ?_)

theorem State.pdTrail_keeps {z : State} {s : State} {i} (hz : Keeps z s) :
    Keeps z (State.pdTrail s i) := by
  unfold State.pdTrail
  with_reducible repeat' first
    | assumption
    | (extract_lets +onlyGivenNames x; refine (fun hx : Keeps z x => ?_) ?_; rotate_left; subst x; rotate_left; try clear_value x)
    | (extract_lets +onlyGivenNames x; clear_value x) | extract_lets | apply ite_keeps | apply State.wrb_keeps
    | apply State.lsrUpdate_keeps | apply State.updPd_keeps | apply State.cnt_keeps | apply State.qualify_keeps
    | (refine Keeps.upd ?_; first | assumption | apply State.wrb_keeps | apply State.lsrUpdate_keeps | apply State.updPd_keeps | apply State.cnt_keeps | apply State.qualify_keeps)
    | split | (refine Keeps.of_fst (by assumption) ?_) | (refine Keeps.of_snd (by assumption) ?_)

theorem State.pdLead_keeps {z : State} {s : State} {i} {at_} (hz : Keeps z s) :
    Keeps z (State.pdLead s i at_) := by
  unfold State.pdLead
  with_reducible repeat' first
    | assumption | apply ite_keeps | apply State.updPd_keeps | apply State.cnt_keeps | apply State.setPd_keeps
    | (refine Keeps.upd ?_; first | assumption | apply State.updPd_keeps | apply State.cnt_keeps | apply State.setPd_keeps)

theorem State.pdAccept_keeps {z : State} {s : State} {i} {level} {at_} (hz : Keeps z s) :
    Keeps z (State.pdAccept s i level at_) := by
  unfold State.pdAccept
  with_reducible repeat' first
    | assumption | apply ite_keeps | apply State.pdTrail_keeps | apply State.pdLead_keeps | apply State.updPd_keeps
    | (refine Keeps.upd ?_; first | assumption | apply State.pdTrail_keeps | apply State.pdLead_keeps | apply State.updPd_keeps)

theorem State.pdCfgWrite_keeps {z : State} {s : State} {i} {v} (hz : Keeps z s) :
    Keeps z (State.pdCfgWrite s i v) := by
  unfold State.pdCfgWrite
  with_reducible repeat' first
    | assumption | apply ite_keeps | apply State.plainWrite_keeps | apply State.soot_keeps | apply State.updPd_keeps
    | apply State.cfgWhileOn_keeps | intro _ _ _ _ | intro _ _ _ | intro _ _ | intro _
    | (refine Keeps.upd ?_; first | assumption | apply State.plainWrite_keeps | apply State.soot_keeps | apply State.updPd_keeps | apply State.cfgWhileOn_keeps)

theorem State.rejCfgWrite_keeps {z : State} {s : State} {j} {v} (hz : Keeps z s) :
    Keeps z (State.rejCfgWrite s j v) := by
  unfold State.rejCfgWrite
  with_reducible repeat' first
    | assumption | apply ite_keeps | apply State.plainWrite_keeps | apply State.soot_keeps | apply State.updRej_keeps
    | apply State.rejUpdate_keeps | apply State.cfgWhileOn_keeps | intro _ _ _ _ | intro _ _ _ | intro _ _ | intro _
    | (refine Keeps.upd ?_; first | assumption | apply State.plainWrite_keeps | apply State.soot_keeps | apply State.updRej_keeps | apply State.rejUpdate_keeps | apply State.cfgWhileOn_keeps)

theorem State.trkFree_keeps {z : State} {s : State} {t} (hz : Keeps z s) :
    Keeps z (State.trkFree s t) := by
  unfold State.trkFree
  with_reducible repeat' first
    | assumption | apply ite_keeps | apply State.trkShow_keeps | apply State.updTrk_keeps
    | (refine Keeps.upd ?_; first | assumption | apply State.trkShow_keeps | apply State.updTrk_keeps)

theorem State.vencCfgWrite_keeps {z : State} {s : State} {n} {v} (hz : Keeps z s) :
    Keeps z (State.vencCfgWrite s n v) := by
  unfold State.vencCfgWrite
  with_reducible repeat' first
    | assumption | apply ite_keeps | apply State.wr_keeps | apply State.plainWrite_keeps | apply State.updVenc_keeps
    | apply State.cfgWhileOn_keeps | apply State.vencSync_keeps | intro _ _ _ _ | intro _ _ _ | intro _ _ | intro _
    | (refine Keeps.upd ?_; first | assumption | apply State.wr_keeps | apply State.plainWrite_keeps | apply State.updVenc_keeps | apply State.cfgWhileOn_keeps | apply State.vencSync_keeps)

theorem State.vencRateWrite_keeps {z : State} {s : State} {n} {v} (hz : Keeps z s) :
    Keeps z (State.vencRateWrite s n v) := by
  unfold State.vencRateWrite
  with_reducible repeat' first
    | assumption | apply ite_keeps | apply State.vencSync_keeps | apply State.wr_keeps
    | (refine Keeps.upd ?_; first | assumption | apply State.vencSync_keeps | apply State.wr_keeps)

theorem State.wrWords_keeps {z : State} {s : State} {reg} {a0} {a1} (hz : Keeps z s) :
    Keeps z (State.wrWords s reg a0 a1) := by
  induction a1 generalizing s reg a0 with
  | nil =>
    unfold State.wrWords
    with_reducible repeat' first
      | assumption | apply State.wr_keeps
  | cons _ _ ih =>
    unfold State.wrWords
    with_reducible repeat' first
      | assumption | apply State.wr_keeps | apply ih

theorem execLinCfgDisable_keeps {z : State} {b} {r} {v} {s : State} (hz : Keeps z s) :
    KeepsO z (execLinCfgDisable b r v s) := by
  unfold execLinCfgDisable
  with_reducible repeat' first
    | assumption | (extract_lets +onlyGivenNames x; clear_value x) | extract_lets | apply ite_keeps
    | apply next_keepsO | apply ite_keepsO | apply refused_keepsO | apply fault_keepsO | apply State.rejCfgWrite_keeps
    | apply State.pdCfgWrite_keeps | apply State.vencCfgWrite_keeps | apply State.encCfgWrite_keeps | apply rwl_keeps
    | apply busWrite_keeps | intro _ _ _ _ | intro _ _ _ | intro _ _ | intro _
    | (refine Keeps.upd ?_; first | assumption | apply State.rejCfgWrite_keeps | apply State.pdCfgWrite_keeps | apply State.vencCfgWrite_keeps | apply State.encCfgWrite_keeps | apply rwl_keeps | apply busWrite_keeps)
    | split | (refine Keeps.of_fst (by assumption) ?_) | (refine Keeps.of_snd (by assumption) ?_)

theorem execMapWrite_keeps {z : State} {b} {m} {v} {s : State} (hz : Keeps z s) :
    KeepsO z (execMapWrite b m v s) := by
  unfold execMapWrite
  with_reducible repeat' first
    | assumption | apply ite_keeps | apply next_keepsO | apply ite_keepsO | apply refused_keepsO | apply fault_keepsO
    | apply State.soot_keeps | apply State.plainWrite_keeps | apply rwl_keeps | apply busWrite_keeps | intro _ _ _ _
    | intro _ _ _ | intro _ _ | intro _
    | (refine Keeps.upd ?_; first | assumption | apply State.soot_keeps | apply State.plainWrite_keeps | apply rwl_keeps | apply busWrite_keeps)

theorem execTrkSelCapture_keeps {z : State} {b} {v} {s : State} (hz : Keeps z s) :
    KeepsO z (execTrkSelCapture b v s) := by
  unfold execTrkSelCapture
  with_reducible repeat' first
    | assumption | apply ite_keeps | apply next_keepsO | apply ite_keepsO | apply refused_keepsO | apply fault_keepsO
    | apply State.plainWrite_keeps | apply State.wrWords_keeps | apply busWrite_keeps | intro _ _ _ _ | intro _ _ _
    | intro _ _ | intro _
    | (refine Keeps.upd ?_; first | assumption | apply State.plainWrite_keeps | apply State.wrWords_keeps | apply busWrite_keeps)

theorem execForcePid_keeps {z : State} {b} {v} {s : State} (hz : Keeps z s) :
    KeepsO z (execForcePid b v s) := by
  unfold execForcePid
  with_reducible repeat' first
    | assumption | apply ite_keeps | apply next_keepsO | apply ite_keepsO | apply refused_keepsO | apply fault_keepsO
    | apply State.forceProduct_keeps | apply busWrite_keeps | intro _ _ _ _ | intro _ _ _ | intro _ _ | intro _
    | (refine Keeps.upd ?_; first | assumption | apply State.forceProduct_keeps | apply busWrite_keeps)

theorem execLsrCtrlWrite_keeps {z : State} {b} {v} {s : State} (hz : Keeps z s) :
    KeepsO z (execLsrCtrlWrite b v s) := by
  unfold execLsrCtrlWrite
  with_reducible repeat' first
    | assumption | apply ite_keeps | apply next_keepsO | apply ite_keepsO | apply refused_keepsO | apply fault_keepsO
    | apply State.plainWrite_keeps | apply State.lsrUpdate_keeps | apply busWrite_keeps | intro _ _ _ _ | intro _ _ _
    | intro _ _ | intro _
    | (refine Keeps.upd ?_; first | assumption | apply State.plainWrite_keeps | apply State.lsrUpdate_keeps | apply busWrite_keeps)

theorem execPolicyWrite_keeps {z : State} {b} {v} {s : State} (hz : Keeps z s) :
    KeepsO z (execPolicyWrite b v s) := by
  unfold execPolicyWrite
  with_reducible repeat' first
    | assumption | apply ite_keeps | apply next_keepsO | apply ite_keepsO | apply refused_keepsO | apply fault_keepsO
    | apply State.wr_keeps | apply busWrite_keeps | intro _ _ _ _ | intro _ _ _ | intro _ _ | intro _
    | (refine Keeps.upd ?_; first | assumption | apply State.wr_keeps | apply busWrite_keeps)

theorem execPidNextWrite_keeps {z : State} {b} {v} {s : State} (hz : Keeps z s) :
    KeepsO z (execPidNextWrite b v s) := by
  unfold execPidNextWrite
  with_reducible repeat' first
    | assumption | apply ite_keeps | apply next_keepsO | apply ite_keepsO | apply refused_keepsO | apply fault_keepsO
    | apply State.wr_keeps | apply State.soot_keeps | apply rwl_keeps | apply busWrite_keeps | intro _ _ _ _
    | intro _ _ _ | intro _ _ | intro _
    | (refine Keeps.upd ?_; first | assumption | apply State.wr_keeps | apply State.soot_keeps | apply rwl_keeps | apply busWrite_keeps)

theorem execTrkPeakClear_keeps {z : State} {b} {v} {s : State} (hz : Keeps z s) :
    KeepsO z (execTrkPeakClear b v s) := by
  unfold execTrkPeakClear
  with_reducible repeat' first
    | assumption | apply ite_keeps | apply next_keepsO | apply ite_keepsO | apply refused_keepsO | apply fault_keepsO
    | apply State.wrf_keeps | apply busWrite_keeps | intro _ _ _ _ | intro _ _ _ | intro _ _ | intro _
    | (refine Keeps.upd ?_; first | assumption | apply State.wrf_keeps | apply busWrite_keeps)

theorem execLineStopHoldEnd_keeps {z : State} {s : State} (hz : Keeps z s) :
    KeepsO z (execLineStopHoldEnd s) := by
  unfold execLineStopHoldEnd
  with_reducible repeat' first
    | assumption | apply ite_keeps | apply next_keepsO | apply ite_keepsO | apply refused_keepsO | apply fault_keepsO
    | apply State.lsrUpdate_keeps | (refine Keeps.upd ?_; first | assumption | apply State.lsrUpdate_keeps)

theorem execRejectOutputConfig_keeps {z : State} {b} {j} {v} {s : State} (hz : Keeps z s) :
    KeepsO z (execRejectOutputConfig b j v s) := by
  unfold execRejectOutputConfig
  with_reducible repeat' first
    | assumption | apply ite_keeps | apply next_keepsO | apply ite_keepsO | apply refused_keepsO | apply fault_keepsO
    | apply State.rejCfgWrite_keeps | apply rwl_keeps | apply busWrite_keeps | intro _ _ _ _ | intro _ _ _ | intro _ _
    | intro _
    | (refine Keeps.upd ?_; first | assumption | apply State.rejCfgWrite_keeps | apply rwl_keeps | apply busWrite_keeps)

theorem execComparePulse_keeps {z : State} {j} {s : State} (hz : Keeps z s) :
    KeepsO z (execComparePulse j s) := by
  unfold execComparePulse
  with_reducible repeat' first
    | assumption | apply ite_keeps | apply next_keepsO | apply ite_keepsO | apply refused_keepsO | apply fault_keepsO
    | apply State.rejOpen_keeps | apply State.updRej_keeps
    | (refine Keeps.upd ?_; first | assumption | apply State.rejOpen_keeps | apply State.updRej_keeps)

theorem execRejectMismatch_keeps {z : State} {j} {pin} {s : State} (hz : Keeps z s) :
    KeepsO z (execRejectMismatch j pin s) := by
  unfold execRejectMismatch
  with_reducible repeat' first
    | assumption | apply ite_keeps | apply next_keepsO | apply ite_keepsO | apply refused_keepsO | apply fault_keepsO
    | apply State.soot_keeps | apply State.irq_keeps | apply State.lsrEvent_keeps | apply State.wrb_keeps
    | (refine Keeps.upd ?_; first | assumption | apply State.soot_keeps | apply State.irq_keeps | apply State.lsrEvent_keeps | apply State.wrb_keeps)

theorem execTrackingEntryFree_keeps {z : State} {t} {s : State} (hz : Keeps z s) :
    KeepsO z (execTrackingEntryFree t s) := by
  unfold execTrackingEntryFree
  with_reducible repeat' first
    | assumption | apply ite_keeps | apply next_keepsO | apply ite_keepsO | apply refused_keepsO | apply fault_keepsO
    | apply State.trkFree_keeps | (refine Keeps.upd ?_; first | assumption | apply State.trkFree_keeps)

theorem execRejectWindowEnd_keeps {z : State} {j} {s : State} (hz : Keeps z s) :
    KeepsO z (execRejectWindowEnd j s) := by
  unfold execRejectWindowEnd
  with_reducible repeat' first
    | assumption | apply ite_keeps | apply next_keepsO | apply ite_keepsO | apply refused_keepsO | apply fault_keepsO
    | apply State.updRej_keeps | apply State.rejUpdate_keeps
    | (refine Keeps.upd ?_; first | assumption | apply State.updRej_keeps | apply State.rejUpdate_keeps)

theorem execRejectDecision_keeps {z : State} {t} {s : State} (hz : Keeps z s) :
    KeepsO z (execRejectDecision t s) := by
  unfold execRejectDecision
  with_reducible repeat' first
    | assumption | apply ite_keeps | apply next_keepsO | apply ite_keepsO | apply refused_keepsO | apply fault_keepsO
    | apply State.rejOpen_keeps | apply State.cnt_keeps | apply State.trkFree_keeps | apply State.lsrEvent_keeps
    | apply State.soot_keeps | apply State.setTrk_keeps | apply forN_keeps | intro _ _ _ _ | intro _ _ _ | intro _ _
    | intro _
    | (refine Keeps.upd ?_; first | assumption | apply State.rejOpen_keeps | apply State.cnt_keeps | apply State.trkFree_keeps | apply State.lsrEvent_keeps | apply State.soot_keeps | apply State.setTrk_keeps | apply forN_keeps)

theorem execRejectHoldEnd_keeps {z : State} {j} {e} {s : State} (hz : Keeps z s) :
    KeepsO z (execRejectHoldEnd j e s) := by
  unfold execRejectHoldEnd
  with_reducible repeat' first
    | assumption | apply ite_keeps | apply next_keepsO | apply ite_keepsO | apply refused_keepsO | apply fault_keepsO
    | apply State.updRej_keeps | apply State.rejUpdate_keeps
    | (refine Keeps.upd ?_; first | assumption | apply State.updRej_keeps | apply State.rejUpdate_keeps)

theorem execRejectHoldStart_keeps {z : State} {j} {e} {s : State} (hz : Keeps z s) :
    KeepsO z (execRejectHoldStart j e s) := by
  unfold execRejectHoldStart
  with_reducible repeat' first
    | assumption | apply ite_keeps | apply next_keepsO | apply ite_keepsO | apply refused_keepsO | apply fault_keepsO
    | apply State.updRej_keeps | apply State.rejUpdate_keeps
    | (refine Keeps.upd ?_; first | assumption | apply State.updRej_keeps | apply State.rejUpdate_keeps)

theorem execPdEnable_keeps {z : State} {b} {i} {v} {s : State} (hz : Keeps z s) :
    KeepsO z (execPdEnable b i v s) := by
  unfold execPdEnable
  with_reducible repeat' first
    | assumption | apply ite_keeps | apply next_keepsO | apply ite_keepsO | apply refused_keepsO | apply fault_keepsO
    | apply State.pdCfgWrite_keeps | apply rwl_keeps | apply busWrite_keeps | intro _ _ _ _ | intro _ _ _ | intro _ _
    | intro _
    | (refine Keeps.upd ?_; first | assumption | apply State.pdCfgWrite_keeps | apply rwl_keeps | apply busWrite_keeps)

theorem execPdStuck_keeps {z : State} {i} {s : State} (hz : Keeps z s) :
    KeepsO z (execPdStuck i s) := by
  unfold execPdStuck
  with_reducible repeat' first
    | assumption | apply ite_keeps | apply next_keepsO | apply ite_keepsO | apply refused_keepsO | apply fault_keepsO
    | apply State.soot_keeps | apply State.irq_keeps | apply State.lsrUpdate_keeps | apply State.wrb_keeps
    | apply State.updPd_keeps
    | (refine Keeps.upd ?_; first | assumption | apply State.soot_keeps | apply State.irq_keeps | apply State.lsrUpdate_keeps | apply State.wrb_keeps | apply State.updPd_keeps)

theorem execProductQualify_keeps {z : State} {i} {s : State} (hz : Keeps z s) :
    KeepsO z (execProductQualify i s) := by
  unfold execProductQualify
  with_reducible repeat' first
    | assumption | (extract_lets +onlyGivenNames x; clear_value x) | extract_lets | apply ite_keeps
    | apply next_keepsO | apply ite_keepsO | apply refused_keepsO | apply fault_keepsO | apply State.qualify_keeps
    | (refine Keeps.upd ?_; first | assumption | apply State.qualify_keeps) | split
    | (refine Keeps.of_fst (by assumption) ?_) | (refine Keeps.of_snd (by assumption) ?_)

theorem execEncoderStopTimeout_keeps {z : State} {e} {s : State} (hz : Keeps z s) :
    KeepsO z (execEncoderStopTimeout e s) := by
  unfold execEncoderStopTimeout
  with_reducible repeat' first
    | assumption | apply ite_keeps | apply next_keepsO | apply ite_keepsO | apply refused_keepsO | apply fault_keepsO
    | apply State.encStop_keeps | (refine Keeps.upd ?_; first | assumption | apply State.encStop_keeps)

theorem execEncoderEnable_keeps {z : State} {b} {e} {v} {a} {lvlB} {zz} {s : State} (hz : Keeps z s) :
    KeepsO z (execEncoderEnable b e v a lvlB zz s) := by
  unfold execEncoderEnable
  with_reducible repeat' first
    | assumption | apply ite_keeps | apply next_keepsO | apply ite_keepsO | apply refused_keepsO | apply fault_keepsO
    | apply State.encCfgWrite_keeps | apply rwl_keeps | apply busWrite_keeps | intro _ _ _ _ | intro _ _ _ | intro _ _
    | intro _
    | (refine Keeps.upd ?_; first | assumption | apply State.encCfgWrite_keeps | apply rwl_keeps | apply busWrite_keeps)

theorem execInputFilterAccept_keeps {z : State} {i} {held} {s : State} (hz : Keeps z s) :
    KeepsO z (execInputFilterAccept i held s) := by
  unfold execInputFilterAccept
  with_reducible repeat' first
    | assumption | (extract_lets +onlyGivenNames x; clear_value x) | extract_lets | apply ite_keeps
    | apply next_keepsO | apply ite_keepsO | apply refused_keepsO | apply fault_keepsO | apply State.pdAccept_keeps
    | apply State.encAccept_keeps | apply forN_keeps | intro _ _ _ _ | intro _ _ _ | intro _ _ | intro _
    | (refine Keeps.upd ?_; first | assumption | apply State.pdAccept_keeps | apply State.encAccept_keeps | apply forN_keeps)
    | split | (refine Keeps.of_fst (by assumption) ?_) | (refine Keeps.of_snd (by assumption) ?_)

end Sys2Proof.Machine
end

