-- ==== Sys2Proof/Laws/KeepsSynthBase.lean ====
section
/-! SUPPORT. What every operation of Machine/SynthBase.lean keeps (Laws/Keeps.lean). -/
-- one script for every shape of goal: what a goal does not need is not reported
set_option linter.all false
namespace Sys2Proof.Machine

theorem State.phErr_keeps {z : State} {s : State} {y} {err} (hz : Keeps z s) :
    Keeps z (State.phErr s y err) := by
  unfold State.phErr
  with_reducible repeat' first
    | assumption | apply State.wrf_keeps

theorem State.synAttempt_keeps {z : State} {s : State} {y} (hz : Keeps z s) :
    Keeps z (State.synAttempt s y) := by
  unfold State.synAttempt
  with_reducible repeat' first
    | assumption | apply ite_keeps | apply State.updSyn_keeps | apply State.wrb_keeps | apply State.wrf_keeps
    | (refine Keeps.upd ?_; first | assumption | apply State.updSyn_keeps | apply State.wrb_keeps | apply State.wrf_keeps)

theorem State.startSynths_keeps {z : State} {s : State} (hz : Keeps z s) :
    Keeps z (State.startSynths s) := by
  unfold State.startSynths
  with_reducible repeat' first
    | assumption | apply ite_keeps | apply State.setBootStep_keeps | apply State.wrb_keeps | apply State.updSyn_keeps
    | apply State.synAttempt_keeps | apply forN_keeps | intro _ _ _ _ | intro _ _ _ | intro _ _ | intro _
    | (refine Keeps.upd ?_; first | assumption | apply State.setBootStep_keeps | apply State.wrb_keeps | apply State.updSyn_keeps | apply State.synAttempt_keeps | apply forN_keeps)

end Sys2Proof.Machine
end

