-- ==== Sys2Proof/Laws/KeepsFireguard.lean ====
section
/-! SUPPORT. What every operation of Machine/Fireguard.lean keeps (Laws/Keeps.lean). -/
-- one script for every shape of goal: what a goal does not need is not reported
set_option linter.all false
namespace Sys2Proof.Machine

theorem State.enableCheck_keeps {z : State} {s : State} (hz : Keeps z s) :
    Keeps z (State.enableCheck s) := by
  unfold State.enableCheck
  with_reducible repeat' first
    | assumption | apply ite_keeps | apply State.wrb_keeps | apply forN_keeps | intro _ _ _ _ | intro _ _ _
    | intro _ _ | intro _ | (refine Keeps.upd ?_; first | assumption | apply State.wrb_keeps | apply forN_keeps)

theorem State.laserPaths_keeps {z : State} {s : State} {n} (hz : Keeps z s) :
    Keeps z (State.laserPaths s n) := by
  unfold State.laserPaths
  with_reducible repeat' first
    | assumption
    | (extract_lets +onlyGivenNames x; refine (fun hx : Keeps z x => ?_) ?_; rotate_left; subst x; rotate_left; try clear_value x)
    | (extract_lets +onlyGivenNames x; refine (fun hx : Keeps z x.1 => ?_) ?_; rotate_left; subst x; rotate_left; try clear_value x)
    | (extract_lets +onlyGivenNames x; refine (fun hx : Keeps z x.2 => ?_) ?_; rotate_left; subst x; rotate_left; try clear_value x)
    | (extract_lets +onlyGivenNames x; refine (fun hf0 : ∀ s, Keeps z s → Keeps z (x s) => ?_) ?_; rotate_left; subst x; rotate_left; try clear_value x)
    | (extract_lets +onlyGivenNames x; refine (fun hf1 : ∀ s a, Keeps z s → Keeps z (x s a) => ?_) ?_; rotate_left; subst x; rotate_left; try clear_value x)
    | (extract_lets +onlyGivenNames x; refine (fun hf2 : ∀ a s, Keeps z s → Keeps z (x a s) => ?_) ?_; rotate_left; subst x; rotate_left; try clear_value x)
    | (extract_lets +onlyGivenNames x; refine (fun hf3 : ∀ s a b, Keeps z s → Keeps z (x s a b) => ?_) ?_; rotate_left; subst x; rotate_left; try clear_value x)
    | (extract_lets +onlyGivenNames x; refine (fun hf4 : ∀ a b s, Keeps z s → Keeps z (x a b s) => ?_) ?_; rotate_left; subst x; rotate_left; try clear_value x)
    | (extract_lets +onlyGivenNames x; refine (fun hf5 : ∀ a s b, Keeps z s → Keeps z (x a s b) => ?_) ?_; rotate_left; subst x; rotate_left; try clear_value x)
    | (extract_lets +onlyGivenNames x; refine (fun hf6 : ∀ a, Keeps z (x a) => ?_) ?_; rotate_left; subst x; rotate_left; try clear_value x)
    | (extract_lets +onlyGivenNames x; clear_value x) | extract_lets | apply ite_keeps | apply State.unforce_keeps
    | apply State.force_keeps | apply hf0 | apply hf1 | apply hf2 | apply hf3 | apply hf4 | apply hf5 | apply hf6
    | (refine Keeps.upd ?_; first | assumption | (refine Keeps.of_fst (by assumption) ?_) | (refine Keeps.of_snd (by assumption) ?_) | apply State.unforce_keeps | apply State.force_keeps)
    | split | (refine Keeps.of_fst (by assumption) ?_) | (refine Keeps.of_snd (by assumption) ?_)

theorem State.livePaths_keeps {z : State} {s : State} (hz : Keeps z s) :
    Keeps z (State.livePaths s) := by
  unfold State.livePaths
  with_reducible repeat' first
    | assumption
    | (extract_lets +onlyGivenNames x; refine (fun hx : Keeps z x => ?_) ?_; rotate_left; subst x; rotate_left; try clear_value x)
    | (extract_lets +onlyGivenNames x; refine (fun hx : Keeps z x.1 => ?_) ?_; rotate_left; subst x; rotate_left; try clear_value x)
    | (extract_lets +onlyGivenNames x; refine (fun hx : Keeps z x.2 => ?_) ?_; rotate_left; subst x; rotate_left; try clear_value x)
    | (extract_lets +onlyGivenNames x; refine (fun hf0 : ∀ s, Keeps z s → Keeps z (x s) => ?_) ?_; rotate_left; subst x; rotate_left; try clear_value x)
    | (extract_lets +onlyGivenNames x; refine (fun hf1 : ∀ s a, Keeps z s → Keeps z (x s a) => ?_) ?_; rotate_left; subst x; rotate_left; try clear_value x)
    | (extract_lets +onlyGivenNames x; refine (fun hf2 : ∀ a s, Keeps z s → Keeps z (x a s) => ?_) ?_; rotate_left; subst x; rotate_left; try clear_value x)
    | (extract_lets +onlyGivenNames x; refine (fun hf3 : ∀ s a b, Keeps z s → Keeps z (x s a b) => ?_) ?_; rotate_left; subst x; rotate_left; try clear_value x)
    | (extract_lets +onlyGivenNames x; refine (fun hf4 : ∀ a b s, Keeps z s → Keeps z (x a b s) => ?_) ?_; rotate_left; subst x; rotate_left; try clear_value x)
    | (extract_lets +onlyGivenNames x; refine (fun hf5 : ∀ a s b, Keeps z s → Keeps z (x a s b) => ?_) ?_; rotate_left; subst x; rotate_left; try clear_value x)
    | (extract_lets +onlyGivenNames x; refine (fun hf6 : ∀ a, Keeps z (x a) => ?_) ?_; rotate_left; subst x; rotate_left; try clear_value x)
    | (extract_lets +onlyGivenNames x; clear_value x) | extract_lets | apply ite_keeps | apply State.force_keeps
    | apply State.soot_keeps | apply State.wrb_keeps | apply forN_keeps | apply forL_keeps | apply forL_keeps_fst
    | apply hf0 | apply hf1 | apply hf2 | apply hf3 | apply hf4 | apply hf5 | apply hf6 | intro _ _ _ _ | intro _ _ _
    | intro _ _ | intro _
    | (refine Keeps.upd ?_; first | assumption | (refine Keeps.of_fst (by assumption) ?_) | (refine Keeps.of_snd (by assumption) ?_) | apply State.force_keeps | apply State.soot_keeps | apply State.wrb_keeps | apply forN_keeps | apply forL_keeps)
    | split | (refine Keeps.of_fst (by assumption) ?_) | (refine Keeps.of_snd (by assumption) ?_)

theorem State.safeOutUpdate_keeps {z : State} {s : State} (hz : Keeps z s) :
    Keeps z (State.safeOutUpdate s) := by
  unfold State.safeOutUpdate
  with_reducible repeat' first
    | assumption | apply ite_keeps | apply State.wrb_keeps
    | (refine Keeps.upd ?_; first | assumption | apply State.wrb_keeps)

theorem State.fgWrite_keeps {z : State} {s : State} {w} (hz : Keeps z s) :
    Keeps z (State.fgWrite s w) := by
  unfold State.fgWrite
  with_reducible repeat' first
    | assumption | apply ite_keeps | apply State.plainWrite_keeps | apply forL_keeps | apply forL_keeps_fst
    | intro _ _ _ _ | intro _ _ _ | intro _ _ | intro _
    | (refine Keeps.upd ?_; first | assumption | apply State.plainWrite_keeps | apply forL_keeps)

theorem State.fgLoad_keeps {z : State} {s : State} {img} (hz : Keeps z s) :
    Keeps z (State.fgLoad s img).1 := by
  unfold State.fgLoad
  with_reducible repeat' first
    | assumption
    | (extract_lets +onlyGivenNames x; refine (fun hx : Keeps z x => ?_) ?_; rotate_left; subst x; rotate_left; try clear_value x)
    | (extract_lets +onlyGivenNames x; clear_value x) | extract_lets | apply ite_keeps | apply State.livePaths_keeps
    | apply State.safeOutUpdate_keeps | apply State.wrf_keeps | apply State.wr_keeps | apply State.wrb_keeps
    | apply State.updSrc_keeps | apply State.fgWrite_keeps | apply forL_keeps | apply forL_keeps_fst | intro _ _ _ _
    | intro _ _ _ | intro _ _ | intro _
    | (refine Keeps.upd ?_; first | assumption | apply State.livePaths_keeps | apply State.safeOutUpdate_keeps | apply State.wrf_keeps | apply State.wr_keeps | apply State.wrb_keeps | apply State.updSrc_keeps | apply State.fgWrite_keeps | apply forL_keeps)
    | split | (refine Keeps.of_fst (by assumption) ?_) | (refine Keeps.of_snd (by assumption) ?_)

theorem State.channelSafeEnter_keeps {z : State} {s : State} {n} (hz : Keeps z s) :
    Keeps z (State.channelSafeEnter s n) := by
  unfold State.channelSafeEnter
  with_reducible repeat' first
    | assumption | apply ite_keeps | apply State.enableCheck_keeps | apply State.setStat_keeps
    | apply State.drivesChannelSafe_keeps | apply State.thermSafe_keeps | apply State.laserSafe_keeps
    | apply State.cut_keeps | apply State.abortChannelJobs_keeps | apply State.cnt_keeps | apply State.wrb_keeps
    | (refine Keeps.upd ?_; first | assumption | apply State.enableCheck_keeps | apply State.setStat_keeps | apply State.drivesChannelSafe_keeps | apply State.thermSafe_keeps | apply State.laserSafe_keeps | apply State.cut_keeps | apply State.abortChannelJobs_keeps | apply State.cnt_keeps | apply State.wrb_keeps)

theorem State.channelUnsafe_keeps {z : State} {s : State} {n} (hz : Keeps z s) :
    Keeps z (State.channelUnsafe s n) := by
  unfold State.channelUnsafe
  with_reducible repeat' first
    | assumption | apply ite_keeps | apply State.chanIdleState_keeps | apply State.thermSafeEnd_keeps
    | apply State.laserSafeEnd_keeps | apply State.uncut_keeps
    | (refine Keeps.upd ?_; first | assumption | apply State.chanIdleState_keeps | apply State.thermSafeEnd_keeps | apply State.laserSafeEnd_keeps | apply State.uncut_keeps)

theorem State.channelSafeLeave_keeps {z : State} {s : State} {n} (hz : Keeps z s) :
    Keeps z (State.channelSafeLeave s n) := by
  unfold State.channelSafeLeave
  with_reducible repeat' first
    | assumption | apply ite_keeps | apply State.channelUnsafe_keeps | apply State.wrb_keeps
    | (refine Keeps.upd ?_; first | assumption | apply State.channelUnsafe_keeps | apply State.wrb_keeps)

theorem State.deviceSafeLeave_keeps {z : State} {s : State} (hz : Keeps z s) :
    Keeps z (State.deviceSafeLeave s) := by
  unfold State.deviceSafeLeave
  with_reducible repeat' first
    | assumption | apply ite_keeps | apply State.lsrUpdate_keeps | apply State.channelUnsafe_keeps
    | apply State.safeOutUpdate_keeps | apply State.drivesSafeLeft_keeps | apply State.rejectsSafeEnd_keeps
    | apply State.irq_keeps | apply State.wrb_keeps | apply forN_keeps | intro _ _ _ _ | intro _ _ _ | intro _ _
    | intro _
    | (refine Keeps.upd ?_; first | assumption | apply State.lsrUpdate_keeps | apply State.channelUnsafe_keeps | apply State.safeOutUpdate_keeps | apply State.drivesSafeLeft_keeps | apply State.rejectsSafeEnd_keeps | apply State.irq_keeps | apply State.wrb_keeps | apply forN_keeps)

theorem State.deviceSafeEnter_keeps {z : State} {s : State} (hz : Keeps z s) :
    Keeps z (State.deviceSafeEnter s) := by
  unfold State.deviceSafeEnter
  with_reducible repeat' first
    | assumption | apply ite_keeps | apply State.enableCheck_keeps | apply State.lsrUpdate_keeps
    | apply State.rejectsSafe_keeps | apply State.drivesDeviceSafe_keeps | apply State.safeOutUpdate_keeps
    | apply State.setStat_keeps | apply State.thermSafe_keeps | apply State.laserSafe_keeps
    | apply State.abortChannelJobs_keeps | apply State.cut_keeps | apply State.irq_keeps | apply State.cnt_keeps
    | apply State.wrb_keeps | apply forN_keeps | intro _ _ _ _ | intro _ _ _ | intro _ _ | intro _
    | (refine Keeps.upd ?_; first | assumption | apply State.enableCheck_keeps | apply State.lsrUpdate_keeps | apply State.rejectsSafe_keeps | apply State.drivesDeviceSafe_keeps | apply State.safeOutUpdate_keeps | apply State.setStat_keeps | apply State.thermSafe_keeps | apply State.laserSafe_keeps | apply State.abortChannelJobs_keeps | apply State.cut_keeps | apply State.irq_keeps | apply State.cnt_keeps | apply State.wrb_keeps | apply forN_keeps)

theorem State.safeUpdate_keeps {z : State} {s : State} (hz : Keeps z s) :
    Keeps z (State.safeUpdate s) := by
  unfold State.safeUpdate
  with_reducible repeat' first
    | assumption | apply ite_keeps | apply State.deviceSafeLeave_keeps | apply State.channelSafeLeave_keeps
    | apply State.channelSafeEnter_keeps | apply State.deviceSafeEnter_keeps | apply State.wrb_keeps
    | apply forN_keeps | intro _ _ _ _ | intro _ _ _ | intro _ _ | intro _
    | (refine Keeps.upd ?_; first | assumption | apply State.deviceSafeLeave_keeps | apply State.channelSafeLeave_keeps | apply State.channelSafeEnter_keeps | apply State.deviceSafeEnter_keeps | apply State.wrb_keeps | apply forN_keeps)

theorem State.clockForces_keeps {z : State} {s : State} {clock} {bypass} (hz : Keeps z s) :
    Keeps z (State.clockForces s clock bypass) := by
  unfold State.clockForces
  with_reducible repeat' first
    | assumption | apply ite_keeps | apply State.unforce_keeps | apply State.safeUpdate_keeps
    | apply State.force_keeps | apply State.wrb_keeps | apply forN_keeps | intro _ _ _ _ | intro _ _ _ | intro _ _
    | intro _
    | (refine Keeps.upd ?_; first | assumption | apply State.unforce_keeps | apply State.safeUpdate_keeps | apply State.force_keeps | apply State.wrb_keeps | apply forN_keeps)

theorem State.holdDevice_keeps {z : State} {s : State} {h} (hz : Keeps z s) :
    Keeps z (State.holdDevice s h) := by
  unfold State.holdDevice
  with_reducible repeat' first
    | assumption | apply ite_keeps | apply State.safeUpdate_keeps
    | (refine Keeps.upd ?_; first | assumption | apply State.safeUpdate_keeps)

theorem State.dropHold_keeps {z : State} {s : State} {h} (hz : Keeps z s) :
    Keeps z (State.dropHold s h) := by
  unfold State.dropHold
  with_reducible repeat' first
    | assumption | apply ite_keeps | apply State.safeUpdate_keeps
    | (refine Keeps.upd ?_; first | assumption | apply State.safeUpdate_keeps)

theorem State.fgCoreReset_keeps {z : State} {s : State} (hz : Keeps z s) :
    Keeps z (State.fgCoreReset s) := by
  unfold State.fgCoreReset
  with_reducible repeat' first
    | assumption | apply State.safeOutUpdate_keeps | apply State.enableCheck_keeps | apply State.wrb_keeps

theorem State.setLen_keeps {z : State} {s : State} {k} {on} (hz : Keeps z s) :
    Keeps z (State.setLen s k on) := by
  unfold State.setLen
  with_reducible repeat' first
    | assumption
    | (extract_lets +onlyGivenNames x; refine (fun hx : Keeps z x => ?_) ?_; rotate_left; subst x; rotate_left; try clear_value x)
    | (extract_lets +onlyGivenNames x; clear_value x) | extract_lets | apply ite_keeps | apply State.irq_keeps
    | apply State.wrb_keeps | apply State.wrf_keeps
    | (refine Keeps.upd ?_; first | assumption | apply State.irq_keeps | apply State.wrb_keeps | apply State.wrf_keeps)
    | split | (refine Keeps.of_fst (by assumption) ?_) | (refine Keeps.of_snd (by assumption) ?_)

theorem State.lenDrop_keeps {z : State} {s : State} (hz : Keeps z s) :
    Keeps z (State.lenDrop s) := by
  unfold State.lenDrop
  with_reducible repeat' first
    | assumption | apply State.setLen_keeps

theorem State.raiseFgSrc_keeps {z : State} {s : State} {src} (hz : Keeps z s) :
    Keeps z (State.raiseFgSrc s src) := by
  unfold State.raiseFgSrc
  with_reducible repeat' first
    | assumption | apply ite_keeps | apply State.srcEvent_keeps | apply State.soot_keeps
    | (refine Keeps.upd ?_; first | assumption | apply State.srcEvent_keeps | apply State.soot_keeps)

theorem State.recover_keeps {z : State} {s : State} {src} {kind} (hz : Keeps z s) :
    Keeps z (State.recover s src kind) := by
  unfold State.recover
  with_reducible repeat' first
    | assumption | apply State.fltLog_keeps | apply State.irq_keeps | apply State.showSrc_keeps
    | apply State.setSrc_keeps

theorem State.releaseRes_keeps {z : State} {s : State} {released} {res} (hz : Keeps z s) :
    Keeps z (State.releaseRes s released res) := by
  unfold State.releaseRes
  with_reducible repeat' first
    | assumption | apply State.wrf_keeps

theorem State.releaseAll_keeps {z : State} {s : State} (hz : Keeps z s) :
    Keeps z (State.releaseAll s) := by
  unfold State.releaseAll
  with_reducible repeat' first
    | assumption | apply ite_keeps | apply State.releaseRes_keeps | apply State.safeUpdate_keeps
    | apply State.recover_keeps | apply forL_keeps | apply forL_keeps_fst | intro _ _ _ _ | intro _ _ _ | intro _ _
    | intro _
    | (refine Keeps.upd ?_; first | assumption | apply State.releaseRes_keeps | apply State.safeUpdate_keeps | apply State.recover_keeps | apply forL_keeps)

theorem State.selftestBegin_keeps {z : State} {s : State} (hz : Keeps z s) :
    Keeps z (State.selftestBegin s) := by
  unfold State.selftestBegin
  with_reducible repeat' first
    | assumption | apply ite_keeps | apply State.wrb_keeps | apply State.cnt_keeps | apply State.wrf_keeps
    | (refine Keeps.upd ?_; first | assumption | apply State.wrb_keeps | apply State.cnt_keeps | apply State.wrf_keeps)

theorem execFltLogCapture_keeps {z : State} {b} {v} {s : State} (hz : Keeps z s) :
    KeepsO z (execFltLogCapture b v s) := by
  unfold execFltLogCapture
  with_reducible repeat' first
    | assumption
    | (extract_lets +onlyGivenNames x; refine (fun hx : Keeps z x => ?_) ?_; rotate_left; subst x; rotate_left; try clear_value x)
    | (extract_lets +onlyGivenNames x; clear_value x) | extract_lets | apply ite_keeps | apply next_keepsO
    | apply ite_keepsO | apply refused_keepsO | apply fault_keepsO | apply State.wr64_keeps | apply State.wr_keeps
    | apply State.wrf_keeps | apply busWrite_keeps | intro _ _ _ _ | intro _ _ _ | intro _ _ | intro _
    | (refine Keeps.upd ?_; first | assumption | apply State.wr64_keeps | apply State.wr_keeps | apply State.wrf_keeps | apply busWrite_keeps)
    | split | (refine Keeps.of_fst (by assumption) ?_) | (refine Keeps.of_snd (by assumption) ?_)

theorem execFltRelease_keeps {z : State} {b} {v} {s : State} (hz : Keeps z s) :
    KeepsO z (execFltRelease b v s) := by
  unfold execFltRelease
  with_reducible repeat' first
    | assumption | apply ite_keeps | apply next_keepsO | apply ite_keepsO | apply refused_keepsO | apply fault_keepsO
    | apply State.recover_keeps | apply State.releaseRes_keeps | apply State.safeUpdate_keeps
    | apply State.releaseAll_keeps | apply busWrite_keeps | intro _ _ _ _ | intro _ _ _ | intro _ _ | intro _
    | (refine Keeps.upd ?_; first | assumption | apply State.recover_keeps | apply State.releaseRes_keeps | apply State.safeUpdate_keeps | apply State.releaseAll_keeps | apply busWrite_keeps)

theorem execFltAck_keeps {z : State} {b} {v} {s : State} (hz : Keeps z s) :
    KeepsO z (execFltAck b v s) := by
  unfold execFltAck
  with_reducible repeat' first
    | assumption | apply ite_keeps | apply next_keepsO | apply ite_keepsO | apply refused_keepsO | apply fault_keepsO
    | apply State.setSrc_keeps | apply State.fltLog_keeps | apply State.wrf_keeps | apply busWrite_keeps
    | intro _ _ _ _ | intro _ _ _ | intro _ _ | intro _
    | (refine Keeps.upd ?_; first | assumption | apply State.setSrc_keeps | apply State.fltLog_keeps | apply State.wrf_keeps | apply busWrite_keeps)

theorem execFltSelectCapture_keeps {z : State} {b} {v} {s : State} (hz : Keeps z s) :
    KeepsO z (execFltSelectCapture b v s) := by
  unfold execFltSelectCapture
  with_reducible repeat' first
    | assumption | apply ite_keeps | apply next_keepsO | apply ite_keepsO | apply refused_keepsO | apply fault_keepsO
    | apply State.wr64_keeps | apply State.wr_keeps | apply State.wrf_keeps | apply busWrite_keeps | intro _ _ _ _
    | intro _ _ _ | intro _ _ | intro _
    | (refine Keeps.upd ?_; first | assumption | apply State.wr64_keeps | apply State.wr_keeps | apply State.wrf_keeps | apply busWrite_keeps)

theorem execIntegrityMismatch_keeps {z : State} {s : State} (hz : Keeps z s) :
    KeepsO z (execIntegrityMismatch s) := by
  unfold execIntegrityMismatch
  with_reducible repeat' first
    | assumption | apply ite_keeps | apply next_keepsO | apply ite_keepsO | apply refused_keepsO | apply fault_keepsO
    | apply State.wrb_keeps | apply State.safeUpdate_keeps | apply State.fltLog_keeps | apply State.irq_keeps
    | apply State.updSrc_keeps | apply State.srcEvent_keeps | apply State.showSrc_keeps | apply State.setSrc_keeps
    | apply State.soot_keeps | apply forN_keeps | apply forL_keeps | apply forL_keeps_fst | intro _ _ _ _
    | intro _ _ _ | intro _ _ | intro _
    | (refine Keeps.upd ?_; first | assumption | apply State.wrb_keeps | apply State.safeUpdate_keeps | apply State.fltLog_keeps | apply State.irq_keeps | apply State.updSrc_keeps | apply State.srcEvent_keeps | apply State.showSrc_keeps | apply State.setSrc_keeps | apply State.soot_keeps | apply forN_keeps | apply forL_keeps)

theorem execQuietExpiry_keeps {z : State} {src} {s : State} (hz : Keeps z s) :
    KeepsO z (execQuietExpiry src s) := by
  unfold execQuietExpiry
  with_reducible repeat' first
    | assumption | apply ite_keeps | apply next_keepsO | apply ite_keepsO | apply refused_keepsO | apply fault_keepsO
    | apply State.recover_keeps | apply State.safeUpdate_keeps | apply State.setSrc_keeps
    | (refine Keeps.upd ?_; first | assumption | apply State.recover_keeps | apply State.safeUpdate_keeps | apply State.setSrc_keeps)

theorem execReleasePulse_keeps {z : State} {held} {s : State} (hz : Keeps z s) :
    KeepsO z (execReleasePulse held s) := by
  unfold execReleasePulse
  with_reducible repeat' first
    | assumption | apply ite_keeps | apply next_keepsO | apply ite_keepsO | apply refused_keepsO | apply fault_keepsO
    | apply State.releaseAll_keeps | (refine Keeps.upd ?_; first | assumption | apply State.releaseAll_keeps)

theorem execGraceExpiry_keeps {z : State} {src} {s : State} (hz : Keeps z s) :
    KeepsO z (execGraceExpiry src s) := by
  unfold execGraceExpiry
  with_reducible repeat' first
    | assumption | apply ite_keeps | apply next_keepsO | apply ite_keepsO | apply refused_keepsO | apply fault_keepsO
    | apply State.safeUpdate_keeps | apply State.warmReset_keeps | apply State.fltLog_keeps | apply State.irq_keeps
    | apply State.setSrc_keeps
    | (refine Keeps.upd ?_; first | assumption | apply State.safeUpdate_keeps | apply State.warmReset_keeps | apply State.fltLog_keeps | apply State.irq_keeps | apply State.setSrc_keeps)

theorem execConfigCrcPass_keeps {z : State} {s : State} (hz : Keeps z s) :
    KeepsO z (execConfigCrcPass s) := by
  unfold execConfigCrcPass
  with_reducible repeat' first
    | assumption | apply ite_keeps | apply next_keepsO | apply ite_keepsO | apply refused_keepsO | apply fault_keepsO
    | apply State.soot_keeps | apply State.sootOff_keeps | apply State.wrf_keeps
    | (refine Keeps.upd ?_; first | assumption | apply State.soot_keeps | apply State.sootOff_keeps | apply State.wrf_keeps)

theorem execFgDomainReapply_keeps {z : State} {d} {s : State} (hz : Keeps z s) :
    KeepsO z (execFgDomainReapply d s) := by
  unfold execFgDomainReapply
  with_reducible repeat' first
    | assumption | apply ite_keeps | apply next_keepsO | apply ite_keepsO | apply refused_keepsO | apply fault_keepsO
    | apply State.fgWrite_keeps | apply forL_keeps | apply forL_keeps_fst | intro _ _ _ _ | intro _ _ _ | intro _ _
    | intro _ | (refine Keeps.upd ?_; first | assumption | apply State.fgWrite_keeps | apply forL_keeps)

theorem execFgConfigLoad_keeps {z : State} {s : State} (hz : Keeps z s) :
    KeepsO z (execFgConfigLoad s) := by
  unfold execFgConfigLoad
  with_reducible repeat' first
    | assumption | (extract_lets +onlyGivenNames x; clear_value x) | extract_lets | apply ite_keeps
    | apply next_keepsO | apply ite_keepsO | apply refused_keepsO | apply fault_keepsO | apply State.wrb_keeps
    | apply State.fgLoad_keeps | apply State.bootCause_keeps
    | (refine Keeps.upd ?_; first | assumption | apply State.wrb_keeps | apply State.fgLoad_keeps | apply State.bootCause_keeps)
    | split | (refine Keeps.of_fst (by assumption) ?_) | (refine Keeps.of_snd (by assumption) ?_)

theorem execFgPeriodicTest_keeps {z : State} {r} {s : State} (hz : Keeps z s) :
    KeepsO z (execFgPeriodicTest r s) := by
  unfold execFgPeriodicTest
  with_reducible repeat' first
    | assumption | (extract_lets +onlyGivenNames x; clear_value x) | extract_lets | apply ite_keeps
    | apply next_keepsO | apply ite_keepsO | apply refused_keepsO | apply fault_keepsO | apply State.wrf_keeps
    | apply State.raiseFgSrc_keeps | apply State.wrb_keeps | apply State.sootOff_keeps
    | (refine Keeps.upd ?_; first | assumption | apply State.wrf_keeps | apply State.raiseFgSrc_keeps | apply State.wrb_keeps | apply State.sootOff_keeps)
    | split | (refine Keeps.of_fst (by assumption) ?_) | (refine Keeps.of_snd (by assumption) ?_)

theorem execFgSelftestRetry_keeps {z : State} {s : State} (hz : Keeps z s) :
    KeepsO z (execFgSelftestRetry s) := by
  unfold execFgSelftestRetry
  with_reducible repeat' first
    | assumption | apply ite_keeps | apply next_keepsO | apply ite_keepsO | apply refused_keepsO | apply fault_keepsO
    | apply State.selftestBegin_keeps | (refine Keeps.upd ?_; first | assumption | apply State.selftestBegin_keeps)

theorem execFgSelftestDone_keeps {z : State} {r} {s : State} (hz : Keeps z s) :
    KeepsO z (execFgSelftestDone r s) := by
  unfold execFgSelftestDone
  with_reducible repeat' first
    | assumption
    | (extract_lets +onlyGivenNames x; refine (fun hx : Keeps z x => ?_) ?_; rotate_left; subst x; rotate_left; try clear_value x)
    | (extract_lets +onlyGivenNames x; clear_value x) | extract_lets | apply ite_keeps | apply next_keepsO
    | apply ite_keepsO | apply refused_keepsO | apply fault_keepsO | apply State.raiseFgSrc_keeps
    | apply State.holdDevice_keeps | apply State.startSynths_keeps | apply State.irq_keeps
    | apply State.dropHold_keeps | apply State.safeOutUpdate_keeps | apply State.sootOff_keeps | apply State.wrb_keeps
    | apply State.wrf_keeps
    | (refine Keeps.upd ?_; first | assumption | apply State.raiseFgSrc_keeps | apply State.holdDevice_keeps | apply State.startSynths_keeps | apply State.irq_keeps | apply State.dropHold_keeps | apply State.safeOutUpdate_keeps | apply State.sootOff_keeps | apply State.wrb_keeps | apply State.wrf_keeps)
    | split | (refine Keeps.of_fst (by assumption) ?_) | (refine Keeps.of_snd (by assumption) ?_)

theorem execFgSelftestStart_keeps {z : State} {s : State} (hz : Keeps z s) :
    KeepsO z (execFgSelftestStart s) := by
  unfold execFgSelftestStart
  with_reducible repeat' first
    | assumption | apply ite_keeps | apply next_keepsO | apply ite_keepsO | apply refused_keepsO | apply fault_keepsO
    | apply State.selftestBegin_keeps | (refine Keeps.upd ?_; first | assumption | apply State.selftestBegin_keeps)

theorem execSupplyWindowFault_keeps {z : State} {s : State} (hz : Keeps z s) :
    KeepsO z (execSupplyWindowFault s) := by
  unfold execSupplyWindowFault
  with_reducible repeat' first
    | assumption | apply ite_keeps | apply next_keepsO | apply ite_keepsO | apply refused_keepsO | apply fault_keepsO
    | apply State.wrb_keeps | apply State.soot_keeps
    | (refine Keeps.upd ?_; first | assumption | apply State.wrb_keeps | apply State.soot_keeps)

theorem execFgWatchdogExpiry_keeps {z : State} {s : State} (hz : Keeps z s) :
    KeepsO z (execFgWatchdogExpiry s) := by
  unfold execFgWatchdogExpiry
  with_reducible repeat' first
    | assumption | apply ite_keeps | apply next_keepsO | apply ite_keepsO | apply refused_keepsO | apply fault_keepsO
    | apply State.cnt_keeps | apply State.soot_keeps | apply State.fgCoreReset_keeps
    | (refine Keeps.upd ?_; first | assumption | apply State.cnt_keeps | apply State.soot_keeps | apply State.fgCoreReset_keeps)

theorem execLockstepMismatch_keeps {z : State} {s : State} (hz : Keeps z s) :
    KeepsO z (execLockstepMismatch s) := by
  unfold execLockstepMismatch
  with_reducible repeat' first
    | assumption | apply ite_keeps | apply next_keepsO | apply ite_keepsO | apply refused_keepsO | apply fault_keepsO
    | apply State.cnt_keeps | apply State.soot_keeps | apply State.fgCoreReset_keeps
    | (refine Keeps.upd ?_; first | assumption | apply State.cnt_keeps | apply State.soot_keeps | apply State.fgCoreReset_keeps)

theorem execFgOscDeviation_keeps {z : State} {freq} {s : State} (hz : Keeps z s) :
    KeepsO z (execFgOscDeviation freq s) := by
  unfold execFgOscDeviation
  with_reducible repeat' first
    | assumption | apply ite_keeps | apply next_keepsO | apply ite_keepsO | apply refused_keepsO | apply fault_keepsO
    | apply State.soot_keeps | apply State.wrf_keeps
    | (refine Keeps.upd ?_; first | assumption | apply State.soot_keeps | apply State.wrf_keeps)

theorem execClockMonitorWindow_keeps {z : State} {refEdges} {fabEdges} {s : State} (hz : Keeps z s) :
    KeepsO z (execClockMonitorWindow refEdges fabEdges s) := by
  unfold execClockMonitorWindow
  with_reducible repeat' first
    | assumption | apply ite_keeps | apply next_keepsO | apply ite_keepsO | apply refused_keepsO | apply fault_keepsO
    | apply State.sootOff_keeps | apply State.soot_keeps | apply State.clockForces_keeps
    | (refine Keeps.upd ?_; first | assumption | apply State.sootOff_keeps | apply State.soot_keeps | apply State.clockForces_keeps)

theorem execDutyWindowCheck_keeps {z : State} {n} {duty} {s : State} (hz : Keeps z s) :
    KeepsO z (execDutyWindowCheck n duty s) := by
  unfold execDutyWindowCheck
  with_reducible repeat' first
    | assumption | (extract_lets +onlyGivenNames x; clear_value x) | extract_lets | apply ite_keeps
    | apply next_keepsO | apply ite_keepsO | apply refused_keepsO | apply fault_keepsO | apply State.cut_keeps
    | apply State.srcEvent_keeps
    | (refine Keeps.upd ?_; first | assumption | apply State.cut_keeps | apply State.srcEvent_keeps) | split
    | (refine Keeps.of_fst (by assumption) ?_) | (refine Keeps.of_snd (by assumption) ?_)

theorem execReadbackMismatch_keeps {z : State} {p} {s : State} (hz : Keeps z s) :
    KeepsO z (execReadbackMismatch p s) := by
  unfold execReadbackMismatch
  with_reducible repeat' first
    | assumption
    | (extract_lets +onlyGivenNames x; refine (fun hx : Keeps z x => ?_) ?_; rotate_left; subst x; rotate_left; try clear_value x)
    | (extract_lets +onlyGivenNames x; clear_value x) | extract_lets | apply ite_keeps | apply next_keepsO
    | apply ite_keepsO | apply refused_keepsO | apply fault_keepsO | apply State.srcEvent_keeps
    | apply State.cut_keeps | apply State.soot_keeps | apply State.lenDrop_keeps | apply State.wrb_keeps
    | (refine Keeps.upd ?_; first | assumption | apply State.srcEvent_keeps | apply State.cut_keeps | apply State.soot_keeps | apply State.lenDrop_keeps | apply State.wrb_keeps)
    | split | (refine Keeps.of_fst (by assumption) ?_) | (refine Keeps.of_snd (by assumption) ?_)

theorem execEnableReadbackMismatch_keeps {z : State} {o} {s : State} (hz : Keeps z s) :
    KeepsO z (execEnableReadbackMismatch o s) := by
  unfold execEnableReadbackMismatch
  with_reducible repeat' first
    | assumption
    | (extract_lets +onlyGivenNames x; refine (fun hx : Keeps z x => ?_) ?_; rotate_left; subst x; rotate_left; try clear_value x)
    | (extract_lets +onlyGivenNames x; clear_value x) | extract_lets | apply ite_keeps | apply next_keepsO
    | apply ite_keepsO | apply refused_keepsO | apply fault_keepsO | apply State.soot_keeps
    | apply State.lenDrop_keeps | apply State.wrb_keeps
    | (refine Keeps.upd ?_; first | assumption | apply State.soot_keeps | apply State.lenDrop_keeps | apply State.wrb_keeps)
    | split | (refine Keeps.of_fst (by assumption) ?_) | (refine Keeps.of_snd (by assumption) ?_)

theorem execEnableOffDelayEnd_keeps {z : State} {k} {s : State} (hz : Keeps z s) :
    KeepsO z (execEnableOffDelayEnd k s) := by
  unfold execEnableOffDelayEnd
  with_reducible repeat' first
    | assumption | apply ite_keeps | apply next_keepsO | apply ite_keepsO | apply refused_keepsO | apply fault_keepsO
    | apply State.setLen_keeps | (refine Keeps.upd ?_; first | assumption | apply State.setLen_keeps)

theorem execEnableAssert_keeps {z : State} {k} {s : State} (hz : Keeps z s) :
    KeepsO z (execEnableAssert k s) := by
  unfold execEnableAssert
  with_reducible repeat' first
    | assumption | apply ite_keeps | apply next_keepsO | apply ite_keepsO | apply refused_keepsO | apply fault_keepsO
    | apply State.setLen_keeps | (refine Keeps.upd ?_; first | assumption | apply State.setLen_keeps)

theorem execKeySwitchChange_keeps {z : State} {high} {s : State} (hz : Keeps z s) :
    KeepsO z (execKeySwitchChange high s) := by
  unfold execKeySwitchChange
  with_reducible repeat' first
    | assumption | apply ite_keeps | apply next_keepsO | apply ite_keepsO | apply refused_keepsO | apply fault_keepsO
    | apply State.enableCheck_keeps | apply State.force_keeps | apply State.unforce_keeps | apply State.wrb_keeps
    | apply forL_keeps | apply forL_keeps_fst | intro _ _ _ _ | intro _ _ _ | intro _ _ | intro _
    | (refine Keeps.upd ?_; first | assumption | apply State.enableCheck_keeps | apply State.force_keeps | apply State.unforce_keeps | apply State.wrb_keeps | apply forL_keeps)

theorem execInterlockDiscrepancy_keeps {z : State} {x} {s : State} (hz : Keeps z s) :
    KeepsO z (execInterlockDiscrepancy x s) := by
  unfold execInterlockDiscrepancy
  with_reducible repeat' first
    | assumption
    | (extract_lets +onlyGivenNames x; refine (fun hx : Keeps z x => ?_) ?_; rotate_left; subst x; rotate_left; try clear_value x)
    | (extract_lets +onlyGivenNames x; clear_value x) | extract_lets | apply ite_keeps | apply next_keepsO
    | apply ite_keepsO | apply refused_keepsO | apply fault_keepsO | apply State.irq_keeps
    | apply State.enableCheck_keeps | apply State.updIlk_keeps | apply State.wrb_keeps
    | (refine Keeps.upd ?_; first | assumption | apply State.irq_keeps | apply State.enableCheck_keeps | apply State.updIlk_keeps | apply State.wrb_keeps)
    | split | (refine Keeps.of_fst (by assumption) ?_) | (refine Keeps.of_snd (by assumption) ?_)

theorem execInterlockClose_keeps {z : State} {x} {l1} {l2} {s : State} (hz : Keeps z s) :
    KeepsO z (execInterlockClose x l1 l2 s) := by
  unfold execInterlockClose
  with_reducible repeat' first
    | assumption | apply ite_keeps | apply next_keepsO | apply ite_keepsO | apply refused_keepsO | apply fault_keepsO
    | apply State.irq_keeps | apply State.sootOff_keeps | apply State.unforce_keeps | apply State.wrb_keeps
    | apply State.setIlk_keeps | apply forL_keeps | apply forL_keeps_fst | intro _ _ _ _ | intro _ _ _ | intro _ _
    | intro _
    | (refine Keeps.upd ?_; first | assumption | apply State.irq_keeps | apply State.sootOff_keeps | apply State.unforce_keeps | apply State.wrb_keeps | apply State.setIlk_keeps | apply forL_keeps)

theorem execInterlockOpen_keeps {z : State} {x} {l1} {l2} {s : State} (hz : Keeps z s) :
    KeepsO z (execInterlockOpen x l1 l2 s) := by
  unfold execInterlockOpen
  with_reducible repeat' first
    | assumption | apply ite_keeps | apply next_keepsO | apply ite_keepsO | apply refused_keepsO | apply fault_keepsO
    | apply State.enableCheck_keeps | apply State.irq_keeps | apply State.soot_keeps | apply State.force_keeps
    | apply State.wrb_keeps | apply State.setIlk_keeps | apply forL_keeps | apply forL_keeps_fst | intro _ _ _ _
    | intro _ _ _ | intro _ _ | intro _
    | (refine Keeps.upd ?_; first | assumption | apply State.enableCheck_keeps | apply State.irq_keeps | apply State.soot_keeps | apply State.force_keeps | apply State.wrb_keeps | apply State.setIlk_keeps | apply forL_keeps)

end Sys2Proof.Machine
end

