-- ==== Sys2Proof/Laws/KeepsLink.lean ====
section
/-! SUPPORT. What every operation of Machine/Link.lean keeps (Laws/Keeps.lean). -/
-- one script for every shape of goal: what a goal does not need is not reported
set_option linter.all false
namespace Sys2Proof.Machine

theorem State.linkEnable_keeps {z : State} {s : State} {n} {on} (hz : Keeps z s) :
    Keeps z (State.linkEnable s n on) := by
  unfold State.linkEnable
  with_reducible repeat' first
    | assumption | apply ite_keeps | apply State.trainStart_keeps | apply State.setLinkSt_keeps | apply State.wr_keeps
    | apply State.loopsCheck_keeps | apply State.setLnk_keeps
    | (refine Keeps.upd ?_; first | assumption | apply State.trainStart_keeps | apply State.setLinkSt_keeps | apply State.wr_keeps | apply State.loopsCheck_keeps | apply State.setLnk_keeps)

theorem State.driftFrame_keeps {z : State} {s : State} {n} {ex} {ey} (hz : Keeps z s) :
    Keeps z (State.driftFrame s n ex ey) := by
  unfold State.driftFrame
  with_reducible repeat' first
    | assumption | (extract_lets +onlyGivenNames x; clear_value x) | extract_lets | apply ite_keeps
    | (refine Keeps.upd ?_; first | assumption) | split | (refine Keeps.of_fst (by assumption) ?_)
    | (refine Keeps.of_snd (by assumption) ?_)

theorem State.linkFault_keeps {z : State} {s : State} {n} (hz : Keeps z s) :
    Keeps z (State.linkFault s n) := by
  unfold State.linkFault
  with_reducible repeat' first
    | assumption | apply State.soot_keeps | apply State.loopsCheck_keeps | apply State.trainStart_keeps
    | apply State.cut_keeps | apply State.cnt_keeps

theorem State.retrainNow_keeps {z : State} {s : State} {n} (hz : Keeps z s) :
    Keeps z (State.retrainNow s n) := by
  unfold State.retrainNow
  with_reducible repeat' first
    | assumption | apply State.wrb_keeps | apply State.trainStart_keeps | apply State.loopsCheck_keeps

theorem State.lkCmdWrite_keeps {z : State} {s : State} {n} {v} (hz : Keeps z s) :
    Keeps z (State.lkCmdWrite s n v) := by
  unfold State.lkCmdWrite
  with_reducible repeat' first
    | assumption | apply ite_keeps | apply State.wr_keeps | apply State.wrf_keeps | apply State.retrainNow_keeps
    | apply State.wrb_keeps
    | (refine Keeps.upd ?_; first | assumption | apply State.wr_keeps | apply State.wrf_keeps | apply State.retrainNow_keeps | apply State.wrb_keeps)

theorem State.syn3Back_keeps {z : State} {s : State} (hz : Keeps z s) :
    Keeps z (State.syn3Back s) := by
  unfold State.syn3Back
  with_reducible repeat' first
    | assumption | apply ite_keeps | apply State.updLnk_keeps | apply forN_keeps | intro _ _ _ _ | intro _ _ _
    | intro _ _ | intro _ | (refine Keeps.upd ?_; first | assumption | apply State.updLnk_keeps | apply forN_keeps)

theorem State.syn3Lost_keeps {z : State} {s : State} (hz : Keeps z s) :
    Keeps z (State.syn3Lost s) := by
  unfold State.syn3Lost
  with_reducible repeat' first
    | assumption | apply ite_keeps | apply State.updLnk_keeps | apply State.setLinkSt_keeps | apply forN_keeps
    | intro _ _ _ _ | intro _ _ _ | intro _ _ | intro _
    | (refine Keeps.upd ?_; first | assumption | apply State.updLnk_keeps | apply State.setLinkSt_keeps | apply forN_keeps)

theorem State.tapFrame_keeps {z : State} {s : State} {n} {good} (hz : Keeps z s) :
    Keeps z (State.tapFrame s n good) := by
  unfold State.tapFrame
  with_reducible repeat' first
    | assumption | apply ite_keeps | apply State.setLnk_keeps
    | (refine Keeps.upd ?_; first | assumption | apply State.setLnk_keeps)

theorem State.upBad_keeps {z : State} {s : State} {n} {missing} (hz : Keeps z s) :
    Keeps z (State.upBad s n missing) := by
  unfold State.upBad
  with_reducible repeat' first
    | assumption | apply ite_keeps | apply State.condMarking_keeps | apply State.soot_keeps | apply State.cnt_keeps
    | apply State.updLnk_keeps | apply State.linkFault_keeps | apply State.feWatch_keeps | apply State.updLas_keeps
    | (refine Keeps.upd ?_; first | assumption | apply State.condMarking_keeps | apply State.soot_keeps | apply State.cnt_keeps | apply State.updLnk_keeps | apply State.linkFault_keeps | apply State.feWatch_keeps | apply State.updLas_keeps)

theorem State.upGood_keeps {z : State} {s : State} {n} {u} (hz : Keeps z s) :
    Keeps z (State.upGood s n u) := by
  unfold State.upGood
  with_reducible repeat' first
    | assumption | apply ite_keeps | apply State.loopsCheck_keeps | apply State.dwellWatch_keeps
    | apply State.driftFrame_keeps | apply State.settleWatch_keeps | apply State.feWatch_keeps
    | apply State.condMarking_keeps | apply State.updLoop_keeps | apply State.updLnk_keeps
    | (refine Keeps.upd ?_; first | assumption | apply State.loopsCheck_keeps | apply State.dwellWatch_keeps | apply State.driftFrame_keeps | apply State.settleWatch_keeps | apply State.feWatch_keeps | apply State.condMarking_keeps | apply State.updLoop_keeps | apply State.updLnk_keeps)

theorem State.upReport_keeps {z : State} {s : State} {n} {u} (hz : Keeps z s) :
    Keeps z (State.upReport s n u) := by
  unfold State.upReport
  with_reducible repeat' first
    | assumption | apply ite_keeps | apply State.updLas_keeps | apply State.soot_keeps | apply State.irq_keeps
    | apply State.wrb_keeps | apply State.wr_keeps
    | (refine Keeps.upd ?_; first | assumption | apply State.updLas_keeps | apply State.soot_keeps | apply State.irq_keeps | apply State.wrb_keeps | apply State.wr_keeps)

theorem execLinkClear_keeps {z : State} {b} {n} {v} {s : State} (hz : Keeps z s) :
    KeepsO z (execLinkClear b n v s) := by
  unfold execLinkClear
  with_reducible repeat' first
    | assumption | apply ite_keeps | apply next_keepsO | apply ite_keepsO | apply refused_keepsO | apply fault_keepsO
    | apply State.lkCmdWrite_keeps | apply busWrite_keeps | intro _ _ _ _ | intro _ _ _ | intro _ _ | intro _
    | (refine Keeps.upd ?_; first | assumption | apply State.lkCmdWrite_keeps | apply busWrite_keeps)

theorem execHeldRetrainApply_keeps {z : State} {n} {s : State} (hz : Keeps z s) :
    KeepsO z (execHeldRetrainApply n s) := by
  unfold execHeldRetrainApply
  with_reducible repeat' first
    | assumption | apply ite_keeps | apply next_keepsO | apply ite_keepsO | apply refused_keepsO | apply fault_keepsO
    | apply State.retrainNow_keeps | (refine Keeps.upd ?_; first | assumption | apply State.retrainNow_keeps)

theorem execLinkRetrain_keeps {z : State} {b} {n} {v} {s : State} (hz : Keeps z s) :
    KeepsO z (execLinkRetrain b n v s) := by
  unfold execLinkRetrain
  with_reducible repeat' first
    | assumption | apply ite_keeps | apply next_keepsO | apply ite_keepsO | apply refused_keepsO | apply fault_keepsO
    | apply State.lkCmdWrite_keeps | apply busWrite_keeps | intro _ _ _ _ | intro _ _ _ | intro _ _ | intro _
    | (refine Keeps.upd ?_; first | assumption | apply State.lkCmdWrite_keeps | apply busWrite_keeps)

theorem execTrainingRetry_keeps {z : State} {n} {s : State} (hz : Keeps z s) :
    KeepsO z (execTrainingRetry n s) := by
  unfold execTrainingRetry
  with_reducible repeat' first
    | assumption | apply ite_keeps | apply next_keepsO | apply ite_keepsO | apply refused_keepsO | apply fault_keepsO
    | apply State.trainStart_keeps | (refine Keeps.upd ?_; first | assumption | apply State.trainStart_keeps)

theorem execTrainingComplete_keeps {z : State} {n} {s : State} (hz : Keeps z s) :
    KeepsO z (execTrainingComplete n s) := by
  unfold execTrainingComplete
  with_reducible repeat' first
    | assumption | apply ite_keeps | apply next_keepsO | apply ite_keepsO | apply refused_keepsO | apply fault_keepsO
    | apply State.irq_keeps | apply State.soot_keeps | apply State.cnt_keeps | apply State.setLinkSt_keeps
    | apply State.wrf_keeps | apply State.updLnk_keeps | apply State.setLnk_keeps | apply State.wr_keeps
    | (refine Keeps.upd ?_; first | assumption | apply State.irq_keeps | apply State.soot_keeps | apply State.cnt_keeps | apply State.setLinkSt_keeps | apply State.wrf_keeps | apply State.updLnk_keeps | apply State.setLnk_keeps | apply State.wr_keeps)

theorem execTrainingWaitEnd_keeps {z : State} {n} {s : State} (hz : Keeps z s) :
    KeepsO z (execTrainingWaitEnd n s) := by
  unfold execTrainingWaitEnd
  with_reducible repeat' first
    | assumption | apply ite_keeps | apply next_keepsO | apply ite_keepsO | apply refused_keepsO | apply fault_keepsO
    | apply State.updLnk_keeps | (refine Keeps.upd ?_; first | assumption | apply State.updLnk_keeps)

theorem execUclkLoss_keeps {z : State} {n} {s : State} (hz : Keeps z s) :
    KeepsO z (execUclkLoss n s) := by
  unfold execUclkLoss
  with_reducible repeat' first
    | assumption | apply ite_keeps | apply next_keepsO | apply ite_keepsO | apply refused_keepsO | apply fault_keepsO
    | apply State.linkFault_keeps | apply State.wrb_keeps
    | (refine Keeps.upd ?_; first | assumption | apply State.linkFault_keeps | apply State.wrb_keeps)

theorem execUplinkMissing_keeps {z : State} {n} {s : State} (hz : Keeps z s) :
    KeepsO z (execUplinkMissing n s) := by
  unfold execUplinkMissing
  with_reducible repeat' first
    | assumption
    | (extract_lets +onlyGivenNames x; refine (fun hx : Keeps z x => ?_) ?_; rotate_left; subst x; rotate_left; try clear_value x)
    | (extract_lets +onlyGivenNames x; clear_value x) | extract_lets | apply ite_keeps | apply next_keepsO
    | apply ite_keepsO | apply refused_keepsO | apply fault_keepsO | apply State.upBad_keeps
    | apply State.tapFrame_keeps | apply State.updLnk_keeps
    | (refine Keeps.upd ?_; first | assumption | apply State.upBad_keeps | apply State.tapFrame_keeps | apply State.updLnk_keeps)
    | split | (refine Keeps.of_fst (by assumption) ?_) | (refine Keeps.of_snd (by assumption) ?_)

theorem execUplinkFrame_keeps {z : State} {n} {bits} {rtt} {s : State} (hz : Keeps z s) :
    KeepsO z (execUplinkFrame n bits rtt s) := by
  unfold execUplinkFrame
  with_reducible repeat' first
    | assumption
    | (extract_lets +onlyGivenNames x; refine (fun hx : Keeps z x => ?_) ?_; rotate_left; subst x; rotate_left; try clear_value x)
    | (extract_lets +onlyGivenNames x; clear_value x) | extract_lets | apply ite_keeps | apply next_keepsO
    | apply ite_keepsO | apply refused_keepsO | apply fault_keepsO | apply State.upBad_keeps
    | apply State.upGood_keeps | apply State.tapFrame_keeps | apply State.upReport_keeps | apply State.wrf_keeps
    | apply State.peak_keeps | apply State.updLnk_keeps
    | (refine Keeps.upd ?_; first | assumption | apply State.upBad_keeps | apply State.upGood_keeps | apply State.tapFrame_keeps | apply State.upReport_keeps | apply State.wrf_keeps | apply State.peak_keeps | apply State.updLnk_keeps)
    | split | (refine Keeps.of_fst (by assumption) ?_) | (refine Keeps.of_snd (by assumption) ?_)

end Sys2Proof.Machine
end

