-- ==== Sys2Proof/Laws/KeepsSynth.lean ====
section
/-! SUPPORT. What every operation of Machine/Synth.lean keeps (Laws/Keeps.lean). -/
-- one script for every shape of goal: what a goal does not need is not reported
set_option linter.all false
namespace Sys2Proof.Machine

theorem State.applyBand_keeps {z : State} {s : State} {y} {band} (hz : Keeps z s) :
    Keeps z (State.applyBand s y band) := by
  unfold State.applyBand
  with_reducible repeat' first
    | assumption | apply State.wrf_keeps

theorem State.netClock_keeps {z : State} {s : State} {p} (hz : Keeps z s) :
    Keeps z (State.netClock s p) := by
  unfold State.netClock
  with_reducible repeat' first
    | assumption
    | (extract_lets +onlyGivenNames x; refine (fun hx : Keeps z x => ?_) ?_; rotate_left; subst x; rotate_left; try clear_value x)
    | (extract_lets +onlyGivenNames x; refine (fun hx : Keeps z x.1 => ?_) ?_; rotate_left; subst x; rotate_left; try clear_value x)
    | (extract_lets +onlyGivenNames x; refine (fun hx : Keeps z x.2 => ?_) ?_; rotate_left; subst x; rotate_left; try clear_value x)
    | (extract_lets +onlyGivenNames x; refine (fun hf0 : ∀ s, Keeps z s → Keeps z (x s) => ?_) ?_; rotate_left; subst x; rotate_left; try clear_value x)
    | (extract_lets +onlyGivenNames x; refine (fun hf1 : ∀ s a, Keeps z s → Keeps z (x s a) => ?_) ?_; rotate_left; subst x; rotate_left; try clear_value x)
    | (extract_lets +onlyGivenNames x; refine (fun hf2 : ∀ a s, Keeps z s → Keeps z (x a s) => ?_) ?_; rotate_left; subst x; rotate_left; try clear_value x)
    | (extract_lets +onlyGivenNames x; refine (fun hf3 : ∀ s a b, Keeps z s → Keeps z (x s a b) => ?_) ?_; rotate_left; subst x; rotate_left; try clear_value x)
    | (extract_lets +onlyGivenNames x; refine (fun hf4 : ∀ a b s, Keeps z s → Keeps z (x a b s) => ?_) ?_; rotate_left; subst x; rotate_left; try clear_value x)
    | (extract_lets +onlyGivenNames x; refine (fun hf5 : ∀ a s b, Keeps z s → Keeps z (x a s b) => ?_) ?_; rotate_left; subst x; rotate_left; try clear_value x)
    | (extract_lets +onlyGivenNames x; refine (fun hf6 : ∀ a, Keeps z (x a) => ?_) ?_; rotate_left; subst x; rotate_left; try clear_value x)
    | (extract_lets +onlyGivenNames x; clear_value x) | extract_lets | apply ite_keeps | apply State.wrf_keeps
    | apply hf0 | apply hf1 | apply hf2 | apply hf3 | apply hf4 | apply hf5 | apply hf6
    | (refine Keeps.upd ?_; first | assumption | (refine Keeps.of_fst (by assumption) ?_) | (refine Keeps.of_snd (by assumption) ?_) | apply State.wrf_keeps)
    | split | (refine Keeps.of_fst (by assumption) ?_) | (refine Keeps.of_snd (by assumption) ?_)

theorem State.ddrClock_keeps {z : State} {s : State} (hz : Keeps z s) :
    Keeps z (State.ddrClock s) := by
  unfold State.ddrClock
  with_reducible repeat' first
    | assumption
    | (extract_lets +onlyGivenNames x; refine (fun hx : Keeps z x => ?_) ?_; rotate_left; subst x; rotate_left; try clear_value x)
    | (extract_lets +onlyGivenNames x; refine (fun hx : Keeps z x.1 => ?_) ?_; rotate_left; subst x; rotate_left; try clear_value x)
    | (extract_lets +onlyGivenNames x; refine (fun hx : Keeps z x.2 => ?_) ?_; rotate_left; subst x; rotate_left; try clear_value x)
    | (extract_lets +onlyGivenNames x; refine (fun hf0 : ∀ s, Keeps z s → Keeps z (x s) => ?_) ?_; rotate_left; subst x; rotate_left; try clear_value x)
    | (extract_lets +onlyGivenNames x; refine (fun hf1 : ∀ s a, Keeps z s → Keeps z (x s a) => ?_) ?_; rotate_left; subst x; rotate_left; try clear_value x)
    | (extract_lets +onlyGivenNames x; refine (fun hf2 : ∀ a s, Keeps z s → Keeps z (x a s) => ?_) ?_; rotate_left; subst x; rotate_left; try clear_value x)
    | (extract_lets +onlyGivenNames x; refine (fun hf3 : ∀ s a b, Keeps z s → Keeps z (x s a b) => ?_) ?_; rotate_left; subst x; rotate_left; try clear_value x)
    | (extract_lets +onlyGivenNames x; refine (fun hf4 : ∀ a b s, Keeps z s → Keeps z (x a b s) => ?_) ?_; rotate_left; subst x; rotate_left; try clear_value x)
    | (extract_lets +onlyGivenNames x; refine (fun hf5 : ∀ a s b, Keeps z s → Keeps z (x a s b) => ?_) ?_; rotate_left; subst x; rotate_left; try clear_value x)
    | (extract_lets +onlyGivenNames x; refine (fun hf6 : ∀ a, Keeps z (x a) => ?_) ?_; rotate_left; subst x; rotate_left; try clear_value x)
    | (extract_lets +onlyGivenNames x; clear_value x) | extract_lets | apply ite_keeps | apply State.wrf_keeps
    | apply hf0 | apply hf1 | apply hf2 | apply hf3 | apply hf4 | apply hf5 | apply hf6
    | (refine Keeps.upd ?_; first | assumption | (refine Keeps.of_fst (by assumption) ?_) | (refine Keeps.of_snd (by assumption) ?_) | apply State.wrf_keeps)
    | split | (refine Keeps.of_fst (by assumption) ?_) | (refine Keeps.of_snd (by assumption) ?_)

theorem State.synToBypass_keeps {z : State} {s : State} {y} (hz : Keeps z s) :
    Keeps z (State.synToBypass s y) := by
  unfold State.synToBypass
  with_reducible repeat' first
    | assumption | apply ite_keeps | apply State.syn3Lost_keeps | apply State.syn2Lost_keeps
    | apply State.clockForces_keeps | apply State.updSyn_keeps | apply State.wrf_keeps | apply State.wrb_keeps
    | (refine Keeps.upd ?_; first | assumption | apply State.syn3Lost_keeps | apply State.syn2Lost_keeps | apply State.clockForces_keeps | apply State.updSyn_keeps | apply State.wrf_keeps | apply State.wrb_keeps)

theorem execClockOutputWrite_keeps {z : State} {b} {y} {o} {v} {s : State} (hz : Keeps z s) :
    KeepsO z (execClockOutputWrite b y o v s) := by
  unfold execClockOutputWrite
  with_reducible repeat' first
    | assumption | apply ite_keeps | apply next_keepsO | apply ite_keepsO | apply refused_keepsO | apply fault_keepsO
    | apply State.plainWrite_keeps | apply State.soot_keeps | apply busWrite_keeps | intro _ _ _ _ | intro _ _ _
    | intro _ _ | intro _
    | (refine Keeps.upd ?_; first | assumption | apply State.plainWrite_keeps | apply State.soot_keeps | apply busWrite_keeps)

theorem execPherrClear_keeps {z : State} {b} {y} {v} {s : State} (hz : Keeps z s) :
    KeepsO z (execPherrClear b y v s) := by
  unfold execPherrClear
  with_reducible repeat' first
    | assumption | apply ite_keeps | apply next_keepsO | apply ite_keepsO | apply refused_keepsO | apply fault_keepsO
    | apply State.wrf_keeps | apply busWrite_keeps | intro _ _ _ _ | intro _ _ _ | intro _ _ | intro _
    | (refine Keeps.upd ?_; first | assumption | apply State.wrf_keeps | apply busWrite_keeps)

theorem execSynRun_keeps {z : State} {b} {y} {v} {s : State} (hz : Keeps z s) :
    KeepsO z (execSynRun b y v s) := by
  unfold execSynRun
  with_reducible repeat' first
    | assumption | apply ite_keeps | apply next_keepsO | apply ite_keepsO | apply refused_keepsO | apply fault_keepsO
    | apply State.synToBypass_keeps | apply State.updSyn_keeps | apply State.synAttempt_keeps
    | apply State.plainWrite_keeps | apply State.soot_keeps | apply busWrite_keeps | intro _ _ _ _ | intro _ _ _
    | intro _ _ | intro _
    | (refine Keeps.upd ?_; first | assumption | apply State.synToBypass_keeps | apply State.updSyn_keeps | apply State.synAttempt_keeps | apply State.plainWrite_keeps | apply State.soot_keeps | apply busWrite_keeps)

theorem execBackupMeasure_keeps {z : State} {kHz} {ratio} {s : State} (hz : Keeps z s) :
    KeepsO z (execBackupMeasure kHz ratio s) := by
  unfold execBackupMeasure
  with_reducible repeat' first
    | assumption | apply ite_keeps | apply next_keepsO | apply ite_keepsO | apply refused_keepsO | apply fault_keepsO
    | apply State.soot_keeps | apply State.wrb_keeps | apply State.wr_keeps | apply State.wrf_keeps
    | (refine Keeps.upd ?_; first | assumption | apply State.soot_keeps | apply State.wrb_keeps | apply State.wr_keeps | apply State.wrf_keeps)

theorem execRefGood_keeps {z : State} {s : State} (hz : Keeps z s) :
    KeepsO z (execRefGood s) := by
  unfold execRefGood
  with_reducible repeat' first
    | assumption | apply ite_keeps | apply next_keepsO | apply ite_keepsO | apply refused_keepsO | apply fault_keepsO
    | apply State.setSyn_keeps | apply State.irq_keeps | apply State.wrb_keeps | apply forN_keeps | intro _ _ _ _
    | intro _ _ _ | intro _ _ | intro _
    | (refine Keeps.upd ?_; first | assumption | apply State.setSyn_keeps | apply State.irq_keeps | apply State.wrb_keeps | apply forN_keeps)

theorem execRefLoss_keeps {z : State} {s : State} (hz : Keeps z s) :
    KeepsO z (execRefLoss s) := by
  unfold execRefLoss
  with_reducible repeat' first
    | assumption | apply ite_keeps | apply next_keepsO | apply ite_keepsO | apply refused_keepsO | apply fault_keepsO
    | apply State.wrf_keeps | apply State.updSyn_keeps | apply State.cnt_keeps | apply State.synToBypass_keeps
    | apply State.soot_keeps | apply State.irq_keeps | apply State.wrb_keeps | apply forN_keeps | intro _ _ _ _
    | intro _ _ _ | intro _ _ | intro _
    | (refine Keeps.upd ?_; first | assumption | apply State.wrf_keeps | apply State.updSyn_keeps | apply State.cnt_keeps | apply State.synToBypass_keeps | apply State.soot_keeps | apply State.irq_keeps | apply State.wrb_keeps | apply forN_keeps)

theorem execBandRecentre_keeps {z : State} {y} {fine} {s : State} (hz : Keeps z s) :
    KeepsO z (execBandRecentre y fine s) := by
  unfold execBandRecentre
  with_reducible repeat' first
    | assumption | apply ite_keeps | apply next_keepsO | apply ite_keepsO | apply refused_keepsO | apply fault_keepsO
    | apply State.irq_keeps | apply State.applyBand_keeps | apply State.wrb_keeps | apply State.wrf_keeps
    | (refine Keeps.upd ?_; first | assumption | apply State.irq_keeps | apply State.applyBand_keeps | apply State.wrb_keeps | apply State.wrf_keeps)

theorem execRelockAttemptTimeout_keeps {z : State} {y} {s : State} (hz : Keeps z s) :
    KeepsO z (execRelockAttemptTimeout y s) := by
  unfold execRelockAttemptTimeout
  with_reducible repeat' first
    | assumption
    | (extract_lets +onlyGivenNames x; refine (fun hx : Keeps z x => ?_) ?_; rotate_left; subst x; rotate_left; try clear_value x)
    | (extract_lets +onlyGivenNames x; clear_value x) | extract_lets | apply ite_keeps | apply next_keepsO
    | apply ite_keepsO | apply refused_keepsO | apply fault_keepsO | apply State.setSyn_keeps | apply State.wrf_keeps
    | apply State.wrb_keeps
    | (refine Keeps.upd ?_; first | assumption | apply State.setSyn_keeps | apply State.wrf_keeps | apply State.wrb_keeps)
    | split | (refine Keeps.of_fst (by assumption) ?_) | (refine Keeps.of_snd (by assumption) ?_)

theorem execRelockAttempt_keeps {z : State} {y} {s : State} (hz : Keeps z s) :
    KeepsO z (execRelockAttempt y s) := by
  unfold execRelockAttempt
  with_reducible repeat' first
    | assumption | apply ite_keeps | apply next_keepsO | apply ite_keepsO | apply refused_keepsO | apply fault_keepsO
    | apply State.cnt_keeps | apply State.synAttempt_keeps
    | (refine Keeps.upd ?_; first | assumption | apply State.cnt_keeps | apply State.synAttempt_keeps)

theorem execSynLossOfLock_keeps {z : State} {y} {err} {s : State} (hz : Keeps z s) :
    KeepsO z (execSynLossOfLock y err s) := by
  unfold execSynLossOfLock
  with_reducible repeat' first
    | assumption | apply ite_keeps | apply next_keepsO | apply ite_keepsO | apply refused_keepsO | apply fault_keepsO
    | apply State.setSyn_keeps | apply State.synToBypass_keeps | apply State.soot_keeps | apply State.irq_keeps
    | apply State.cnt_keeps | apply State.phErr_keeps
    | (refine Keeps.upd ?_; first | assumption | apply State.setSyn_keeps | apply State.synToBypass_keeps | apply State.soot_keeps | apply State.irq_keeps | apply State.cnt_keeps | apply State.phErr_keeps)

theorem execSynLock_keeps {z : State} {y} {err} {s : State} (hz : Keeps z s) :
    KeepsO z (execSynLock y err s) := by
  unfold execSynLock
  with_reducible repeat' first
    | assumption | apply ite_keeps | apply next_keepsO | apply ite_keepsO | apply refused_keepsO | apply fault_keepsO
    | apply State.syn3Back_keeps | apply State.syn2Back_keeps | apply State.clockForces_keeps
    | apply State.startStep6_keeps | apply State.irq_keeps | apply State.setSyn_keeps | apply State.phErr_keeps
    | apply State.wrf_keeps | apply State.wrb_keeps
    | (refine Keeps.upd ?_; first | assumption | apply State.syn3Back_keeps | apply State.syn2Back_keeps | apply State.clockForces_keeps | apply State.startStep6_keeps | apply State.irq_keeps | apply State.setSyn_keeps | apply State.phErr_keeps | apply State.wrf_keeps | apply State.wrb_keeps)

end Sys2Proof.Machine
end

