-- ==== Sys2Proof/Laws/KeepsTime.lean ====
section
/-! SUPPORT. What every operation of Machine/Time.lean keeps (Laws/Keeps.lean). -/
-- one script for every shape of goal: what a goal does not need is not reported
set_option linter.all false
namespace Sys2Proof.Machine

theorem State.acceptCmd_keeps {z : State} {s : State} (hz : Keeps z s) :
    Keeps z (State.acceptCmd s) := by
  unfold State.acceptCmd
  with_reducible repeat' first
    | assumption | apply ite_keeps | apply State.soot_keeps
    | (refine Keeps.upd ?_; first | assumption | apply State.soot_keeps)

theorem State.offsetUpdate_keeps {z : State} {s : State} (hz : Keeps z s) :
    Keeps z (State.offsetUpdate s) := by
  unfold State.offsetUpdate
  with_reducible repeat' first
    | assumption | apply ite_keeps | (refine Keeps.upd ?_; first | assumption)

theorem State.holdUpdate_keeps {z : State} {s : State} (hz : Keeps z s) :
    Keeps z (State.holdUpdate s) := by
  unfold State.holdUpdate
  with_reducible repeat' first
    | assumption | apply ite_keeps | apply State.wrs_keeps | apply State.irq_keeps | apply State.dcSync_keeps
    | apply State.wrb_keeps
    | (refine Keeps.upd ?_; first | assumption | apply State.wrs_keeps | apply State.irq_keeps | apply State.dcSync_keeps | apply State.wrb_keeps)

theorem State.applyAccept_keeps {z : State} {s : State} (hz : Keeps z s) :
    Keeps z (State.applyAccept s) := by
  unfold State.applyAccept
  with_reducible repeat' first
    | assumption | apply ite_keeps | apply State.irq_keeps | apply State.offsetUpdate_keeps
    | apply State.holdUpdate_keeps | apply State.wrb_keeps | apply State.dcSync_keeps
    | (refine Keeps.upd ?_; first | assumption | apply State.irq_keeps | apply State.offsetUpdate_keeps | apply State.holdUpdate_keeps | apply State.wrb_keeps | apply State.dcSync_keeps)

theorem State.stepRefused_keeps {z : State} {s : State} (hz : Keeps z s) :
    Keeps z (State.stepRefused s) := by
  unfold State.stepRefused
  with_reducible repeat' first
    | assumption | apply State.wrb_keeps | apply State.soot_keeps | apply State.irq_keeps

theorem State.setDate_keeps {z : State} {s : State} {v} (hz : Keeps z s) :
    Keeps z (State.setDate s v) := by
  unfold State.setDate
  with_reducible repeat' first
    | assumption | apply ite_keeps | apply State.offsetUpdate_keeps | apply State.holdUpdate_keeps
    | apply State.stepRefused_keeps | apply State.wrb_keeps
    | (refine Keeps.upd ?_; first | assumption | apply State.offsetUpdate_keeps | apply State.holdUpdate_keeps | apply State.stepRefused_keeps | apply State.wrb_keeps)

theorem State.waitsMove_keeps {z : State} {s : State} {d} (hz : Keeps z s) :
    Keeps z (State.waitsMove s d) := by
  unfold State.waitsMove
  with_reducible repeat' first
    | assumption
    | (extract_lets +onlyGivenNames x; refine (fun hx : Keeps z x => ?_) ?_; rotate_left; subst x; rotate_left; try clear_value x)
    | (extract_lets +onlyGivenNames x; refine (fun hx : Keeps z x.1 => ?_) ?_; rotate_left; subst x; rotate_left; try clear_value x)
    | (extract_lets +onlyGivenNames x; refine (fun hx : Keeps z x.2 => ?_) ?_; rotate_left; subst x; rotate_left; try clear_value x)
    | (extract_lets +onlyGivenNames x; refine (fun hf0 : ∀ s, Keeps z s → Keeps z (x s) => ?_) ?_; rotate_left; subst x; rotate_left; try clear_value x)
    | (extract_lets +onlyGivenNames x; refine (fun hf1 : ∀ s a, Keeps z s → Keeps z (x s a) => ?_) ?_; rotate_left; subst x; rotate_left; try clear_value x)
    | (extract_lets +onlyGivenNames x; refine (fun hf2 : ∀ a s, Keeps z s → Keeps z (x a s) => ?_) ?_; rotate_left; subst x; rotate_left; try clear_value x)
    | (extract_lets +onlyGivenNames x; refine (fun hf3 : ∀ s a b, Keeps z s → Keeps z (x s a b) => ?_) ?_; rotate_left; subst x; rotate_left; try clear_value x)
    | (extract_lets +onlyGivenNames x; refine (fun hf4 : ∀ a b s, Keeps z s → Keeps z (x a b s) => ?_) ?_; rotate_left; subst x; rotate_left; try clear_value x)
    | (extract_lets +onlyGivenNames x; refine (fun hf5 : ∀ a s b, Keeps z s → Keeps z (x a s b) => ?_) ?_; rotate_left; subst x; rotate_left; try clear_value x)
    | (extract_lets +onlyGivenNames x; refine (fun hf6 : ∀ a, Keeps z (x a) => ?_) ?_; rotate_left; subst x; rotate_left; try clear_value x)
    | (extract_lets +onlyGivenNames x; clear_value x) | extract_lets | apply ite_keeps | apply hf0 | apply hf1
    | apply hf2 | apply hf3 | apply hf4 | apply hf5 | apply hf6
    | (refine Keeps.upd ?_; first | assumption | (refine Keeps.of_fst (by assumption) ?_) | (refine Keeps.of_snd (by assumption) ?_))
    | split | (refine Keeps.of_fst (by assumption) ?_) | (refine Keeps.of_snd (by assumption) ?_)

theorem State.tscResume_keeps {z : State} {s : State} (hz : Keeps z s) :
    Keeps z (State.tscResume s) := by
  unfold State.tscResume
  with_reducible repeat' first
    | assumption | apply ite_keeps | apply State.setDate_keeps | apply State.waitsMove_keeps | apply State.wrb_keeps
    | (refine Keeps.upd ?_; first | assumption | apply State.setDate_keeps | apply State.waitsMove_keeps | apply State.wrb_keeps)

theorem State.holdTemp_keeps {z : State} {s : State} (hz : Keeps z s) :
    Keeps z (State.holdTemp s).2 := by
  unfold State.holdTemp
  with_reducible repeat' first
    | assumption | (extract_lets +onlyGivenNames x; clear_value x) | extract_lets | apply ite_keeps
    | apply State.drawNat_keeps | (refine Keeps.upd ?_; first | assumption | apply State.drawNat_keeps) | split
    | (refine Keeps.of_fst (by assumption) ?_) | (refine Keeps.of_snd (by assumption) ?_)

theorem State.initialCmd_keeps {z : State} {s : State} (hz : Keeps z s) :
    Keeps z (State.initialCmd s) := by
  unfold State.initialCmd
  with_reducible repeat' first
    | assumption | apply ite_keeps | apply State.setDate_keeps | apply State.soot_keeps
    | (refine Keeps.upd ?_; first | assumption | apply State.setDate_keeps | apply State.soot_keeps)

theorem State.lockKick_keeps {z : State} {s : State} (hz : Keeps z s) :
    Keeps z (State.lockKick s) := by
  unfold State.lockKick
  with_reducible repeat' first
    | assumption
    | (extract_lets +onlyGivenNames x; refine (fun hx : Keeps z x => ?_) ?_; rotate_left; subst x; rotate_left; try clear_value x)
    | (extract_lets +onlyGivenNames x; clear_value x) | extract_lets | apply ite_keeps | apply State.setDate_keeps
    | apply State.holdUpdate_keeps | apply State.wrb_keeps | apply State.irq_keeps
    | (refine Keeps.upd ?_; first | assumption | apply State.setDate_keeps | apply State.holdUpdate_keeps | apply State.wrb_keeps | apply State.irq_keeps)
    | split | (refine Keeps.of_fst (by assumption) ?_) | (refine Keeps.of_snd (by assumption) ?_)

theorem State.stepJudge_keeps {z : State} {s : State} {e} (hz : Keeps z s) :
    Keeps z (State.stepJudge s e) := by
  unfold State.stepJudge
  with_reducible repeat' first
    | assumption | apply ite_keeps | apply State.wrb_keeps | apply State.irq_keeps | apply State.stepRefused_keeps
    | apply State.holdUpdate_keeps
    | (refine Keeps.upd ?_; first | assumption | apply State.wrb_keeps | apply State.irq_keeps | apply State.stepRefused_keeps | apply State.holdUpdate_keeps)

theorem State.stepPtp_keeps {z : State} {s : State} (hz : Keeps z s) :
    Keeps z (State.stepPtp s) := by
  unfold State.stepPtp
  with_reducible repeat' first
    | assumption | apply ite_keeps | apply State.dcSync_keeps
    | (refine Keeps.upd ?_; first | assumption | apply State.dcSync_keeps)

theorem State.unlockPtp_keeps {z : State} {s : State} (hz : Keeps z s) :
    Keeps z (State.unlockPtp s) := by
  unfold State.unlockPtp
  with_reducible repeat' first
    | assumption | apply ite_keeps | apply State.wrb_keeps | apply State.irq_keeps | apply State.soot_keeps
    | apply State.holdUpdate_keeps
    | (refine Keeps.upd ?_; first | assumption | apply State.wrb_keeps | apply State.irq_keeps | apply State.soot_keeps | apply State.holdUpdate_keeps)

theorem State.timCmd_keeps {z : State} {s : State} {v} (hz : Keeps z s) :
    Keeps z (State.timCmd s v) := by
  unfold State.timCmd
  with_reducible repeat' first
    | assumption | apply ite_keeps | apply State.initialCmd_keeps | apply State.acceptCmd_keeps
    | apply State.unlockPtp_keeps | apply State.lockKick_keeps | apply State.stepPtp_keeps
    | (refine Keeps.upd ?_; first | assumption | apply State.initialCmd_keeps | apply State.acceptCmd_keeps | apply State.unlockPtp_keeps | apply State.lockKick_keeps | apply State.stepPtp_keeps)

theorem execTzWrite_keeps {z : State} {b} {k} {ofs} {v} {s : State} (hz : Keeps z s) :
    KeepsO z (execTzWrite b k ofs v s) := by
  unfold execTzWrite
  with_reducible repeat' first
    | assumption | apply ite_keeps | apply next_keepsO | apply ite_keepsO | apply refused_keepsO | apply fault_keepsO
    | apply State.offsetUpdate_keeps | apply State.soot_keeps | apply State.plainWrite_keeps | apply busWrite_keeps
    | intro _ _ _ _ | intro _ _ _ | intro _ _ | intro _
    | (refine Keeps.upd ?_; first | assumption | apply State.offsetUpdate_keeps | apply State.soot_keeps | apply State.plainWrite_keeps | apply busWrite_keeps)

theorem execTzStdWrite_keeps {z : State} {b} {v} {s : State} (hz : Keeps z s) :
    KeepsO z (execTzStdWrite b v s) := by
  unfold execTzStdWrite
  with_reducible repeat' first
    | assumption | apply ite_keeps | apply next_keepsO | apply ite_keepsO | apply refused_keepsO | apply fault_keepsO
    | apply State.plainWrite_keeps | apply State.offsetUpdate_keeps | apply State.soot_keeps | apply busWrite_keeps
    | intro _ _ _ _ | intro _ _ _ | intro _ _ | intro _
    | (refine Keeps.upd ?_; first | assumption | apply State.plainWrite_keeps | apply State.offsetUpdate_keeps | apply State.soot_keeps | apply busWrite_keeps)

theorem execUtcOffsetWrite_keeps {z : State} {b} {v} {s : State} (hz : Keeps z s) :
    KeepsO z (execUtcOffsetWrite b v s) := by
  unfold execUtcOffsetWrite
  with_reducible repeat' first
    | assumption | apply ite_keeps | apply next_keepsO | apply ite_keepsO | apply refused_keepsO | apply fault_keepsO
    | apply State.plainWrite_keeps | apply State.dcSync_keeps | apply State.soot_keeps | apply busWrite_keeps
    | intro _ _ _ _ | intro _ _ _ | intro _ _ | intro _
    | (refine Keeps.upd ?_; first | assumption | apply State.plainWrite_keeps | apply State.dcSync_keeps | apply State.soot_keeps | apply busWrite_keeps)

theorem execTimRateWrite_keeps {z : State} {b} {v} {s : State} (hz : Keeps z s) :
    KeepsO z (execTimRateWrite b v s) := by
  unfold execTimRateWrite
  with_reducible repeat' first
    | assumption | apply ite_keeps | apply next_keepsO | apply ite_keepsO | apply refused_keepsO | apply fault_keepsO
    | apply State.wr_keeps | apply State.soot_keeps | apply busWrite_keeps | intro _ _ _ _ | intro _ _ _ | intro _ _
    | intro _
    | (refine Keeps.upd ?_; first | assumption | apply State.wr_keeps | apply State.soot_keeps | apply busWrite_keeps)

theorem execDateClockCapture_keeps {z : State} {b} {s : State} (hz : Keeps z s) :
    KeepsO z (execDateClockCapture b s) := by
  unfold execDateClockCapture
  with_reducible repeat' first
    | assumption | apply ite_keeps | apply next_keepsO | apply ite_keepsO | apply refused_keepsO | apply fault_keepsO
    | apply State.wr64_keeps | apply busRead_keeps | intro _ _ _ _ | intro _ _ _ | intro _ _ | intro _
    | (refine Keeps.upd ?_; first | assumption | apply State.wr64_keeps | apply busRead_keeps)

theorem execTscCapture_keeps {z : State} {b} {s : State} (hz : Keeps z s) :
    KeepsO z (execTscCapture b s) := by
  unfold execTscCapture
  with_reducible repeat' first
    | assumption | apply ite_keeps | apply next_keepsO | apply ite_keepsO | apply refused_keepsO | apply fault_keepsO
    | apply State.wr_keeps | apply State.wr64_keeps | apply busRead_keeps | intro _ _ _ _ | intro _ _ _ | intro _ _
    | intro _
    | (refine Keeps.upd ?_; first | assumption | apply State.wr_keeps | apply State.wr64_keeps | apply busRead_keeps)

theorem execRtcEdgeLatch_keeps {z : State} {s : State} (hz : Keeps z s) :
    KeepsO z (execRtcEdgeLatch s) := by
  unfold execRtcEdgeLatch
  with_reducible repeat' first
    | assumption | apply ite_keeps | apply next_keepsO | apply ite_keepsO | apply refused_keepsO | apply fault_keepsO
    | apply State.wr64_keeps | (refine Keeps.upd ?_; first | assumption | apply State.wr64_keeps)

theorem execFloorUpdate_keeps {z : State} {s : State} (hz : Keeps z s) :
    KeepsO z (execFloorUpdate s) := by
  unfold execFloorUpdate
  with_reducible repeat' first
    | assumption | apply ite_keeps | apply next_keepsO | apply ite_keepsO | apply refused_keepsO | apply fault_keepsO
    | apply State.wr64_keeps | apply State.wrb_keeps
    | (refine Keeps.upd ?_; first | assumption | apply State.wr64_keeps | apply State.wrb_keeps)

theorem execDateClockUpdate_keeps {z : State} {s : State} (hz : Keeps z s) :
    KeepsO z (execDateClockUpdate s) := by
  unfold execDateClockUpdate
  with_reducible repeat' first
    | assumption
    | (extract_lets +onlyGivenNames x; refine (fun hx : Keeps z x => ?_) ?_; rotate_left; subst x; rotate_left; try clear_value x)
    | (extract_lets +onlyGivenNames x; clear_value x) | extract_lets | apply ite_keeps | apply next_keepsO
    | apply ite_keepsO | apply refused_keepsO | apply fault_keepsO | apply State.offsetUpdate_keeps
    | apply State.wrs_keeps | apply State.stepJudge_keeps | apply State.wr_keeps | apply State.wrb_keeps
    | apply State.dcSync_keeps
    | (refine Keeps.upd ?_; first | assumption | apply State.offsetUpdate_keeps | apply State.wrs_keeps | apply State.stepJudge_keeps | apply State.wr_keeps | apply State.wrb_keeps | apply State.dcSync_keeps)
    | split | (refine Keeps.of_fst (by assumption) ?_) | (refine Keeps.of_snd (by assumption) ?_)

theorem execHoldoverRateUpdate_keeps {z : State} {s : State} (hz : Keeps z s) :
    KeepsO z (execHoldoverRateUpdate s) := by
  unfold execHoldoverRateUpdate
  with_reducible repeat' first
    | assumption | apply ite_keeps | apply next_keepsO | apply ite_keepsO | apply refused_keepsO | apply fault_keepsO
    | apply State.holdTemp_keeps | apply State.wr_keeps | apply foldl_keeps_fst | apply foldl_keeps | intro _ _ _ _
    | intro _ _ _ | intro _ _ | intro _
    | (refine Keeps.upd ?_; first | assumption | apply State.holdTemp_keeps | apply State.wr_keeps)

theorem execPtpLockTimeout_keeps {z : State} {s : State} (hz : Keeps z s) :
    KeepsO z (execPtpLockTimeout s) := by
  unfold execPtpLockTimeout
  with_reducible repeat' first
    | assumption | apply ite_keeps | apply next_keepsO | apply ite_keepsO | apply refused_keepsO | apply fault_keepsO
    | apply State.unlockPtp_keeps | (refine Keeps.upd ?_; first | assumption | apply State.unlockPtp_keeps)

theorem execSetInitial_keeps {z : State} {b} {v} {s : State} (hz : Keeps z s) :
    KeepsO z (execSetInitial b v s) := by
  unfold execSetInitial
  with_reducible repeat' first
    | assumption | apply ite_keeps | apply next_keepsO | apply ite_keepsO | apply refused_keepsO | apply fault_keepsO
    | apply State.timCmd_keeps | apply busWrite_keeps | intro _ _ _ _ | intro _ _ _ | intro _ _ | intro _
    | (refine Keeps.upd ?_; first | assumption | apply State.timCmd_keeps | apply busWrite_keeps)

theorem execAcceptStep_keeps {z : State} {b} {v} {s : State} (hz : Keeps z s) :
    KeepsO z (execAcceptStep b v s) := by
  unfold execAcceptStep
  with_reducible repeat' first
    | assumption | apply ite_keeps | apply next_keepsO | apply ite_keepsO | apply refused_keepsO | apply fault_keepsO
    | apply State.timCmd_keeps | apply busWrite_keeps | intro _ _ _ _ | intro _ _ _ | intro _ _ | intro _
    | (refine Keeps.upd ?_; first | assumption | apply State.timCmd_keeps | apply busWrite_keeps)

theorem execUnlock_keeps {z : State} {b} {v} {s : State} (hz : Keeps z s) :
    KeepsO z (execUnlock b v s) := by
  unfold execUnlock
  with_reducible repeat' first
    | assumption | apply ite_keeps | apply next_keepsO | apply ite_keepsO | apply refused_keepsO | apply fault_keepsO
    | apply State.timCmd_keeps | apply busWrite_keeps | intro _ _ _ _ | intro _ _ _ | intro _ _ | intro _
    | (refine Keeps.upd ?_; first | assumption | apply State.timCmd_keeps | apply busWrite_keeps)

theorem execLockKick_keeps {z : State} {b} {v} {s : State} (hz : Keeps z s) :
    KeepsO z (execLockKick b v s) := by
  unfold execLockKick
  with_reducible repeat' first
    | assumption | apply ite_keeps | apply next_keepsO | apply ite_keepsO | apply refused_keepsO | apply fault_keepsO
    | apply State.timCmd_keeps | apply busWrite_keeps | intro _ _ _ _ | intro _ _ _ | intro _ _ | intro _
    | (refine Keeps.upd ?_; first | assumption | apply State.timCmd_keeps | apply busWrite_keeps)

theorem execStepPtp_keeps {z : State} {b} {v} {s : State} (hz : Keeps z s) :
    KeepsO z (execStepPtp b v s) := by
  unfold execStepPtp
  with_reducible repeat' first
    | assumption | apply ite_keeps | apply next_keepsO | apply ite_keepsO | apply refused_keepsO | apply fault_keepsO
    | apply State.timCmd_keeps | apply busWrite_keeps | intro _ _ _ _ | intro _ _ _ | intro _ _ | intro _
    | (refine Keeps.upd ?_; first | assumption | apply State.timCmd_keeps | apply busWrite_keeps)

theorem execTimRateApply_keeps {z : State} {s : State} (hz : Keeps z s) :
    KeepsO z (execTimRateApply s) := by
  unfold execTimRateApply
  with_reducible repeat' first
    | assumption | (extract_lets +onlyGivenNames x; clear_value x) | extract_lets | apply ite_keeps
    | apply next_keepsO | apply ite_keepsO | apply refused_keepsO | apply fault_keepsO
    | (refine Keeps.upd ?_; first | assumption) | split | (refine Keeps.of_fst (by assumption) ?_)
    | (refine Keeps.of_snd (by assumption) ?_)

theorem execTscCopyCheck_keeps {z : State} {a0} {copy} {s : State} (hz : Keeps z s) :
    KeepsO z (execTscCopyCheck a0 copy s) := by
  unfold execTscCopyCheck
  with_reducible repeat' first
    | assumption | apply ite_keeps | apply next_keepsO | apply ite_keepsO | apply refused_keepsO | apply fault_keepsO
    | apply State.soot_keeps | (refine Keeps.upd ?_; first | assumption | apply State.soot_keeps)

end Sys2Proof.Machine
end

