-- ==== Sys2Proof/Laws/KeepsPower.lean ====
section
/-! SUPPORT. What every operation of Machine/Power.lean keeps (Laws/Keeps.lean). -/
-- one script for every shape of goal: what a goal does not need is not reported
set_option linter.all false
namespace Sys2Proof.Machine

theorem State.bankLost_keeps {z : State} {s : State} {b} (hz : Keeps z s) :
    Keeps z (State.bankLost s b) := by
  unfold State.bankLost
  with_reducible repeat' first
    | assumption
    | (extract_lets +onlyGivenNames x; refine (fun hx : Keeps z x => ?_) ?_; rotate_left; subst x; rotate_left; try clear_value x)
    | (extract_lets +onlyGivenNames x; clear_value x) | extract_lets | apply ite_keeps | apply State.updSerial_keeps
    | apply State.updChain_keeps | apply State.newChains_keeps | apply State.secShow_keeps | apply State.wrf_keeps
    | apply State.wrb_keeps | apply State.eraseMem_keeps | apply forN_keeps | intro _ _ _ _ | intro _ _ _ | intro _ _
    | intro _
    | (refine Keeps.upd ?_; first | assumption | apply State.updSerial_keeps | apply State.updChain_keeps | apply State.newChains_keeps | apply State.secShow_keeps | apply State.wrf_keeps | apply State.wrb_keeps | apply State.eraseMem_keeps | apply forN_keeps)
    | split | (refine Keeps.of_fst (by assumption) ?_) | (refine Keeps.of_snd (by assumption) ?_)

theorem State.dramCheck_keeps {z : State} {s : State} (hz : Keeps z s) :
    Keeps z (State.dramCheck s) := by
  unfold State.dramCheck
  with_reducible repeat' first
    | assumption
    | (extract_lets +onlyGivenNames x; refine (fun hx : Keeps z x => ?_) ?_; rotate_left; subst x; rotate_left; try clear_value x)
    | (extract_lets +onlyGivenNames x; refine (fun hx : Keeps z x.1 => ?_) ?_; rotate_left; subst x; rotate_left; try clear_value x)
    | (extract_lets +onlyGivenNames x; refine (fun hx : Keeps z x.2 => ?_) ?_; rotate_left; subst x; rotate_left; try clear_value x)
    | (extract_lets +onlyGivenNames x; refine (fun hf0 : ∀ s, Keeps z s → Keeps z (x s) => ?_) ?_; rotate_left; subst x; rotate_left; try clear_value x)
    | (extract_lets +onlyGivenNames x; refine (fun hf1 : ∀ s a, Keeps z s → Keeps z (x s a) => ?_) ?_; rotate_left; subst x; rotate_left; try clear_value x)
    | (extract_lets +onlyGivenNames x; refine (fun hf2 : ∀ a s, Keeps z s → Keeps z (x a s) => ?_) ?_; rotate_left; subst x; rotate_left; try clear_value x)
    | (extract_lets +onlyGivenNames x; refine (fun hf3 : ∀ s a b, Keeps z s → Keeps z (x s a b) => ?_) ?_; rotate_left; subst x; rotate_left; try clear_value x)
    | (extract_lets +onlyGivenNames x; refine (fun hf4 : ∀ a b s, Keeps z s → Keeps z (x a b s) => ?_) ?_; rotate_left; subst x; rotate_left; try clear_value x)
    | (extract_lets +onlyGivenNames x; refine (fun hf5 : ∀ a s b, Keeps z s → Keeps z (x a s b) => ?_) ?_; rotate_left; subst x; rotate_left; try clear_value x)
    | (extract_lets +onlyGivenNames x; refine (fun hf6 : ∀ a, Keeps z (x a) => ?_) ?_; rotate_left; subst x; rotate_left; try clear_value x)
    | (extract_lets +onlyGivenNames x; clear_value x) | extract_lets | apply ite_keeps | apply State.dramLost_keeps
    | apply State.drawBool_keeps | apply hf0 | apply hf1 | apply hf2 | apply hf3 | apply hf4 | apply hf5 | apply hf6
    | (refine Keeps.upd ?_; first | assumption | (refine Keeps.of_fst (by assumption) ?_) | (refine Keeps.of_snd (by assumption) ?_) | apply State.dramLost_keeps | apply State.drawBool_keeps)
    | split | (refine Keeps.of_fst (by assumption) ?_) | (refine Keeps.of_snd (by assumption) ?_)

theorem State.retentionCheck_keeps {z : State} {s : State} (hz : Keeps z s) :
    Keeps z (State.retentionCheck s) := by
  unfold State.retentionCheck
  with_reducible repeat' first
    | assumption | apply ite_keeps | apply State.wrb_keeps | apply State.pwrSoot_keeps | apply State.bankLost_keeps
    | apply State.drawBool_keeps | apply State.wr_keeps | apply forN_keeps | intro _ _ _ _ | intro _ _ _ | intro _ _
    | intro _
    | (refine Keeps.upd ?_; first | assumption | apply State.wrb_keeps | apply State.pwrSoot_keeps | apply State.bankLost_keeps | apply State.drawBool_keeps | apply State.wr_keeps | apply forN_keeps)

theorem State.beginWake_keeps {z : State} {s : State} {bits} (hz : Keeps z s) :
    Keeps z (State.beginWake s bits) := by
  unfold State.beginWake
  with_reducible repeat' first
    | assumption | apply ite_keeps | apply State.dramCheck_keeps | apply State.retentionCheck_keeps
    | apply State.wr_keeps | apply State.wrf_keeps
    | (refine Keeps.upd ?_; first | assumption | apply State.dramCheck_keeps | apply State.retentionCheck_keeps | apply State.wr_keeps | apply State.wrf_keeps)

theorem State.railsChanged_keeps {z : State} {s : State} (hz : Keeps z s) :
    Keeps z (State.railsChanged s) := by
  unfold State.railsChanged
  with_reducible repeat' first
    | assumption | apply ite_keeps | apply State.drvEnUpdate_keeps | apply State.enableCheck_keeps
    | apply State.blockedOff_keeps | apply State.blockedUpdate_keeps
    | (refine Keeps.upd ?_; first | assumption | apply State.drvEnUpdate_keeps | apply State.enableCheck_keeps | apply State.blockedOff_keeps | apply State.blockedUpdate_keeps)

theorem State.railsUnblock_keeps {z : State} {s : State} (hz : Keeps z s) :
    Keeps z (State.railsUnblock s) := by
  unfold State.railsUnblock
  with_reducible repeat' first
    | assumption | apply ite_keeps | apply State.requestDoms_keeps | apply State.requestDomOn_keeps
    | apply State.startStep3_keeps | apply State.railsChanged_keeps
    | (refine Keeps.upd ?_; first | assumption | apply State.requestDoms_keeps | apply State.requestDomOn_keeps | apply State.startStep3_keeps | apply State.railsChanged_keeps)

theorem State.slotsWritten_keeps {z : State} {s : State} (hz : Keeps z s) :
    Keeps z (State.slotsWritten s) := by
  unfold State.slotsWritten
  with_reducible repeat' first
    | assumption
    | (extract_lets +onlyGivenNames x; refine (fun hx : Keeps z x => ?_) ?_; rotate_left; subst x; rotate_left; try clear_value x)
    | (extract_lets +onlyGivenNames x; refine (fun hx : Keeps z x.1 => ?_) ?_; rotate_left; subst x; rotate_left; try clear_value x)
    | (extract_lets +onlyGivenNames x; refine (fun hx : Keeps z x.2 => ?_) ?_; rotate_left; subst x; rotate_left; try clear_value x)
    | (extract_lets +onlyGivenNames x; refine (fun hf0 : ∀ s, Keeps z s → Keeps z (x s) => ?_) ?_; rotate_left; subst x; rotate_left; try clear_value x)
    | (extract_lets +onlyGivenNames x; refine (fun hf1 : ∀ s a, Keeps z s → Keeps z (x s a) => ?_) ?_; rotate_left; subst x; rotate_left; try clear_value x)
    | (extract_lets +onlyGivenNames x; refine (fun hf2 : ∀ a s, Keeps z s → Keeps z (x a s) => ?_) ?_; rotate_left; subst x; rotate_left; try clear_value x)
    | (extract_lets +onlyGivenNames x; refine (fun hf3 : ∀ s a b, Keeps z s → Keeps z (x s a b) => ?_) ?_; rotate_left; subst x; rotate_left; try clear_value x)
    | (extract_lets +onlyGivenNames x; refine (fun hf4 : ∀ a b s, Keeps z s → Keeps z (x a b s) => ?_) ?_; rotate_left; subst x; rotate_left; try clear_value x)
    | (extract_lets +onlyGivenNames x; refine (fun hf5 : ∀ a s b, Keeps z s → Keeps z (x a s b) => ?_) ?_; rotate_left; subst x; rotate_left; try clear_value x)
    | (extract_lets +onlyGivenNames x; refine (fun hf6 : ∀ a, Keeps z (x a) => ?_) ?_; rotate_left; subst x; rotate_left; try clear_value x)
    | (extract_lets +onlyGivenNames x; clear_value x) | extract_lets | apply ite_keeps
    | apply State.railsUnblock_keeps | apply hf0 | apply hf1 | apply hf2 | apply hf3 | apply hf4 | apply hf5
    | apply hf6
    | (refine Keeps.upd ?_; first | assumption | (refine Keeps.of_fst (by assumption) ?_) | (refine Keeps.of_snd (by assumption) ?_) | apply State.railsUnblock_keeps)
    | split | (refine Keeps.of_fst (by assumption) ?_) | (refine Keeps.of_snd (by assumption) ?_)

theorem State.spareTakes_keeps {z : State} {s : State} {c} (hz : Keeps z s) :
    Keeps z (State.spareTakes s c) := by
  unfold State.spareTakes
  with_reducible repeat' first
    | assumption | apply State.setStat_keeps | apply State.wrb_keeps | apply State.wrf_keeps

theorem State.convRestore_keeps {z : State} {s : State} (hz : Keeps z s) :
    Keeps z (State.convRestore s) := by
  unfold State.convRestore
  with_reducible repeat' first
    | assumption | (extract_lets +onlyGivenNames x; clear_value x) | extract_lets | apply ite_keeps
    | apply State.soot_keeps | apply State.spareTakes_keeps
    | (refine Keeps.upd ?_; first | assumption | apply State.soot_keeps | apply State.spareTakes_keeps) | split
    | (refine Keeps.of_fst (by assumption) ?_) | (refine Keeps.of_snd (by assumption) ?_)

theorem State.discardHeld_keeps {z : State} {s : State} (hz : Keeps z s) :
    Keeps z (State.discardHeld s) := by
  unfold State.discardHeld
  with_reducible repeat' first
    | assumption | apply ite_keeps | apply State.wrb_keeps
    | (refine Keeps.upd ?_; first | assumption | apply State.wrb_keeps)

theorem State.domCtrlBit_keeps {z : State} {s : State} {pd3} {d} {on} (hz : Keeps z s) :
    Keeps z (State.domCtrlBit s pd3 d on) := by
  unfold State.domCtrlBit
  with_reducible repeat' first
    | assumption | apply ite_keeps | apply State.domainOff_keeps | apply State.requestDomOn_keeps
    | apply State.pwrSoot_keeps | apply State.wrb_keeps
    | (refine Keeps.upd ?_; first | assumption | apply State.domainOff_keeps | apply State.requestDomOn_keeps | apply State.pwrSoot_keeps | apply State.wrb_keeps)

theorem State.logStat_keeps {z : State} {s : State} (hz : Keeps z s) :
    Keeps z (State.logStat s) := by
  unfold State.logStat
  with_reducible repeat' first
    | assumption | apply State.wrf_keeps

theorem State.logRestore_keeps {z : State} {s : State} (hz : Keeps z s) :
    Keeps z (State.logRestore s) := by
  unfold State.logRestore
  with_reducible repeat' first
    | assumption
    | (extract_lets +onlyGivenNames x; refine (fun hx : Keeps z x => ?_) ?_; rotate_left; subst x; rotate_left; try clear_value x)
    | (extract_lets +onlyGivenNames x; refine (fun hx : Keeps z x.1 => ?_) ?_; rotate_left; subst x; rotate_left; try clear_value x)
    | (extract_lets +onlyGivenNames x; refine (fun hx : Keeps z x.2 => ?_) ?_; rotate_left; subst x; rotate_left; try clear_value x)
    | (extract_lets +onlyGivenNames x; refine (fun hf0 : ∀ s, Keeps z s → Keeps z (x s) => ?_) ?_; rotate_left; subst x; rotate_left; try clear_value x)
    | (extract_lets +onlyGivenNames x; refine (fun hf1 : ∀ s a, Keeps z s → Keeps z (x s a) => ?_) ?_; rotate_left; subst x; rotate_left; try clear_value x)
    | (extract_lets +onlyGivenNames x; refine (fun hf2 : ∀ a s, Keeps z s → Keeps z (x a s) => ?_) ?_; rotate_left; subst x; rotate_left; try clear_value x)
    | (extract_lets +onlyGivenNames x; refine (fun hf3 : ∀ s a b, Keeps z s → Keeps z (x s a b) => ?_) ?_; rotate_left; subst x; rotate_left; try clear_value x)
    | (extract_lets +onlyGivenNames x; refine (fun hf4 : ∀ a b s, Keeps z s → Keeps z (x a b s) => ?_) ?_; rotate_left; subst x; rotate_left; try clear_value x)
    | (extract_lets +onlyGivenNames x; refine (fun hf5 : ∀ a s b, Keeps z s → Keeps z (x a s b) => ?_) ?_; rotate_left; subst x; rotate_left; try clear_value x)
    | (extract_lets +onlyGivenNames x; refine (fun hf6 : ∀ a, Keeps z (x a) => ?_) ?_; rotate_left; subst x; rotate_left; try clear_value x)
    | (extract_lets +onlyGivenNames x; clear_value x) | extract_lets | apply ite_keeps | apply State.logStat_keeps
    | apply hf0 | apply hf1 | apply hf2 | apply hf3 | apply hf4 | apply hf5 | apply hf6
    | (refine Keeps.upd ?_; first | assumption | (refine Keeps.of_fst (by assumption) ?_) | (refine Keeps.of_snd (by assumption) ?_) | apply State.logStat_keeps)
    | split | (refine Keeps.of_fst (by assumption) ?_) | (refine Keeps.of_snd (by assumption) ?_)

theorem State.domainUp_keeps {z : State} {s : State} {d} (hz : Keeps z s) :
    Keeps z (State.domainUp s d) := by
  unfold State.domainUp
  with_reducible repeat' first
    | assumption
    | (extract_lets +onlyGivenNames x; refine (fun hx : Keeps z x => ?_) ?_; rotate_left; subst x; rotate_left; try clear_value x)
    | (extract_lets +onlyGivenNames x; clear_value x) | extract_lets | apply ite_keeps | apply State.netClock_keeps
    | apply State.convRestore_keeps | apply State.serialRestore_keeps | apply State.ddrClock_keeps
    | apply State.ddrPowerUp_keeps | apply State.tscResume_keeps | apply State.wearRestore_keeps
    | apply State.logRestore_keeps | apply State.secPowerUp_keeps | apply State.safeUpdate_keeps
    | apply State.holdDevice_keeps | apply State.clockForces_keeps | apply State.wrb_keeps | apply forN_keeps
    | intro _ _ _ _ | intro _ _ _ | intro _ _ | intro _
    | (refine Keeps.upd ?_; first | assumption | apply State.netClock_keeps | apply State.convRestore_keeps | apply State.serialRestore_keeps | apply State.ddrClock_keeps | apply State.ddrPowerUp_keeps | apply State.tscResume_keeps | apply State.wearRestore_keeps | apply State.logRestore_keeps | apply State.secPowerUp_keeps | apply State.safeUpdate_keeps | apply State.holdDevice_keeps | apply State.clockForces_keeps | apply State.wrb_keeps | apply forN_keeps)
    | split | (refine Keeps.of_fst (by assumption) ?_) | (refine Keeps.of_snd (by assumption) ?_)

theorem State.entryDram_keeps {z : State} {s : State} {target} (hz : Keeps z s) :
    Keeps z (State.entryDram s target) := by
  unfold State.entryDram
  with_reducible repeat' first
    | assumption
    | (extract_lets +onlyGivenNames x; refine (fun hx : Keeps z x => ?_) ?_; rotate_left; subst x; rotate_left; try clear_value x)
    | (extract_lets +onlyGivenNames x; refine (fun hx : Keeps z x.1 => ?_) ?_; rotate_left; subst x; rotate_left; try clear_value x)
    | (extract_lets +onlyGivenNames x; refine (fun hx : Keeps z x.2 => ?_) ?_; rotate_left; subst x; rotate_left; try clear_value x)
    | (extract_lets +onlyGivenNames x; refine (fun hf0 : ∀ s, Keeps z s → Keeps z (x s) => ?_) ?_; rotate_left; subst x; rotate_left; try clear_value x)
    | (extract_lets +onlyGivenNames x; refine (fun hf1 : ∀ s a, Keeps z s → Keeps z (x s a) => ?_) ?_; rotate_left; subst x; rotate_left; try clear_value x)
    | (extract_lets +onlyGivenNames x; refine (fun hf2 : ∀ a s, Keeps z s → Keeps z (x a s) => ?_) ?_; rotate_left; subst x; rotate_left; try clear_value x)
    | (extract_lets +onlyGivenNames x; refine (fun hf3 : ∀ s a b, Keeps z s → Keeps z (x s a b) => ?_) ?_; rotate_left; subst x; rotate_left; try clear_value x)
    | (extract_lets +onlyGivenNames x; refine (fun hf4 : ∀ a b s, Keeps z s → Keeps z (x a b s) => ?_) ?_; rotate_left; subst x; rotate_left; try clear_value x)
    | (extract_lets +onlyGivenNames x; refine (fun hf5 : ∀ a s b, Keeps z s → Keeps z (x a s b) => ?_) ?_; rotate_left; subst x; rotate_left; try clear_value x)
    | (extract_lets +onlyGivenNames x; refine (fun hf6 : ∀ a, Keeps z (x a) => ?_) ?_; rotate_left; subst x; rotate_left; try clear_value x)
    | (extract_lets +onlyGivenNames x; clear_value x) | extract_lets | apply ite_keeps
    | apply State.dramSelfRefresh_keeps | apply State.dramLost_keeps | apply hf0 | apply hf1 | apply hf2 | apply hf3
    | apply hf4 | apply hf5 | apply hf6
    | (refine Keeps.upd ?_; first | assumption | (refine Keeps.of_fst (by assumption) ?_) | (refine Keeps.of_snd (by assumption) ?_) | apply State.dramSelfRefresh_keeps | apply State.dramLost_keeps)
    | split | (refine Keeps.of_fst (by assumption) ?_) | (refine Keeps.of_snd (by assumption) ?_)

theorem State.seal_keeps {z : State} {s : State} (hz : Keeps z s) :
    Keeps z (State.seal s) := by
  unfold State.seal
  with_reducible repeat' first
    | assumption | apply ite_keeps | apply State.wr_keeps | apply forN_keeps | intro _ _ _ _ | intro _ _ _ | intro _ _
    | intro _ | (refine Keeps.upd ?_; first | assumption | apply State.wr_keeps | apply forN_keeps)

theorem State.entryRun_keeps {z s : State} (hz : Keeps z s) : Keeps z s.entryRun := by
  unfold State.entryRun
  extract_lets target v s1 s2 s3 v2
  have h1 : Keeps z s1 := Keeps.upd hz
  exact Keeps.upd (State.seal_keeps (State.domainsOff_keeps (State.entryDram_keeps (State.domainsOff_keeps h1))))

theorem State.setPwr_keeps {z : State} {s : State} {st} {ph} (hz : Keeps z s) :
    Keeps z (State.setPwr s st ph) := by
  unfold State.setPwr
  with_reducible repeat' first
    | assumption | apply State.wrf_keeps

theorem State.powerRequest_keeps {z : State} {s : State} {target} (hz : Keeps z s) :
    Keeps z (State.powerRequest s target) := by
  unfold State.powerRequest
  with_reducible repeat' first
    | assumption | apply ite_keeps | apply State.wrf_keeps | apply State.irq_keeps | apply State.setPwr_keeps
    | apply State.tagWritebackAll_keeps
    | (refine Keeps.upd ?_; first | assumption | apply State.wrf_keeps | apply State.irq_keeps | apply State.setPwr_keeps | apply State.tagWritebackAll_keeps)

theorem State.heldTake_keeps {z : State} {s : State} (hz : Keeps z s) :
    Keeps z (State.heldTake s) := by
  unfold State.heldTake
  with_reducible repeat' first
    | assumption
    | (extract_lets +onlyGivenNames x; refine (fun hx : Keeps z x => ?_) ?_; rotate_left; subst x; rotate_left; try clear_value x)
    | (extract_lets +onlyGivenNames x; refine (fun hx : Keeps z x.1 => ?_) ?_; rotate_left; subst x; rotate_left; try clear_value x)
    | (extract_lets +onlyGivenNames x; refine (fun hx : Keeps z x.2 => ?_) ?_; rotate_left; subst x; rotate_left; try clear_value x)
    | (extract_lets +onlyGivenNames x; refine (fun hf0 : ∀ s, Keeps z s → Keeps z (x s) => ?_) ?_; rotate_left; subst x; rotate_left; try clear_value x)
    | (extract_lets +onlyGivenNames x; refine (fun hf1 : ∀ s a, Keeps z s → Keeps z (x s a) => ?_) ?_; rotate_left; subst x; rotate_left; try clear_value x)
    | (extract_lets +onlyGivenNames x; refine (fun hf2 : ∀ a s, Keeps z s → Keeps z (x a s) => ?_) ?_; rotate_left; subst x; rotate_left; try clear_value x)
    | (extract_lets +onlyGivenNames x; refine (fun hf3 : ∀ s a b, Keeps z s → Keeps z (x s a b) => ?_) ?_; rotate_left; subst x; rotate_left; try clear_value x)
    | (extract_lets +onlyGivenNames x; refine (fun hf4 : ∀ a b s, Keeps z s → Keeps z (x a b s) => ?_) ?_; rotate_left; subst x; rotate_left; try clear_value x)
    | (extract_lets +onlyGivenNames x; refine (fun hf5 : ∀ a s b, Keeps z s → Keeps z (x a s b) => ?_) ?_; rotate_left; subst x; rotate_left; try clear_value x)
    | (extract_lets +onlyGivenNames x; refine (fun hf6 : ∀ a, Keeps z (x a) => ?_) ?_; rotate_left; subst x; rotate_left; try clear_value x)
    | (extract_lets +onlyGivenNames x; clear_value x) | extract_lets | apply ite_keeps | apply State.wrb_keeps
    | apply State.powerRequest_keeps | apply hf0 | apply hf1 | apply hf2 | apply hf3 | apply hf4 | apply hf5
    | apply hf6
    | (refine Keeps.upd ?_; first | assumption | (refine Keeps.of_fst (by assumption) ?_) | (refine Keeps.of_snd (by assumption) ?_) | apply State.wrb_keeps | apply State.powerRequest_keeps)
    | split | (refine Keeps.of_fst (by assumption) ?_) | (refine Keeps.of_snd (by assumption) ?_)

theorem State.pwrCancel_keeps {z : State} {s : State} (hz : Keeps z s) :
    Keeps z (State.pwrCancel s) := by
  unfold State.pwrCancel
  with_reducible repeat' first
    | assumption
    | (extract_lets +onlyGivenNames x; refine (fun hx : Keeps z x => ?_) ?_; rotate_left; subst x; rotate_left; try clear_value x)
    | (extract_lets +onlyGivenNames x; refine (fun hx : Keeps z x.1 => ?_) ?_; rotate_left; subst x; rotate_left; try clear_value x)
    | (extract_lets +onlyGivenNames x; refine (fun hx : Keeps z x.2 => ?_) ?_; rotate_left; subst x; rotate_left; try clear_value x)
    | (extract_lets +onlyGivenNames x; refine (fun hf0 : ∀ s, Keeps z s → Keeps z (x s) => ?_) ?_; rotate_left; subst x; rotate_left; try clear_value x)
    | (extract_lets +onlyGivenNames x; refine (fun hf1 : ∀ s a, Keeps z s → Keeps z (x s a) => ?_) ?_; rotate_left; subst x; rotate_left; try clear_value x)
    | (extract_lets +onlyGivenNames x; refine (fun hf2 : ∀ a s, Keeps z s → Keeps z (x a s) => ?_) ?_; rotate_left; subst x; rotate_left; try clear_value x)
    | (extract_lets +onlyGivenNames x; refine (fun hf3 : ∀ s a b, Keeps z s → Keeps z (x s a b) => ?_) ?_; rotate_left; subst x; rotate_left; try clear_value x)
    | (extract_lets +onlyGivenNames x; refine (fun hf4 : ∀ a b s, Keeps z s → Keeps z (x a b s) => ?_) ?_; rotate_left; subst x; rotate_left; try clear_value x)
    | (extract_lets +onlyGivenNames x; refine (fun hf5 : ∀ a s b, Keeps z s → Keeps z (x a s b) => ?_) ?_; rotate_left; subst x; rotate_left; try clear_value x)
    | (extract_lets +onlyGivenNames x; refine (fun hf6 : ∀ a, Keeps z (x a) => ?_) ?_; rotate_left; subst x; rotate_left; try clear_value x)
    | (extract_lets +onlyGivenNames x; clear_value x) | extract_lets | apply ite_keeps | apply State.wrf_keeps
    | apply State.heldCfgApply_keeps | apply hf0 | apply hf1 | apply hf2 | apply hf3 | apply hf4 | apply hf5
    | apply hf6
    | (refine Keeps.upd ?_; first | assumption | (refine Keeps.of_fst (by assumption) ?_) | (refine Keeps.of_snd (by assumption) ?_) | apply State.wrf_keeps | apply State.heldCfgApply_keeps)
    | split | (refine Keeps.of_fst (by assumption) ?_) | (refine Keeps.of_snd (by assumption) ?_)

theorem State.pwrProceed_keeps {z : State} {s : State} (hz : Keeps z s) :
    Keeps z (State.pwrProceed s) := by
  unfold State.pwrProceed
  with_reducible repeat' first
    | assumption
    | (extract_lets +onlyGivenNames x; refine (fun hx : Keeps z x => ?_) ?_; rotate_left; subst x; rotate_left; try clear_value x)
    | (extract_lets +onlyGivenNames x; refine (fun hx : Keeps z x.1 => ?_) ?_; rotate_left; subst x; rotate_left; try clear_value x)
    | (extract_lets +onlyGivenNames x; refine (fun hx : Keeps z x.2 => ?_) ?_; rotate_left; subst x; rotate_left; try clear_value x)
    | (extract_lets +onlyGivenNames x; refine (fun hf0 : ∀ s, Keeps z s → Keeps z (x s) => ?_) ?_; rotate_left; subst x; rotate_left; try clear_value x)
    | (extract_lets +onlyGivenNames x; refine (fun hf1 : ∀ s a, Keeps z s → Keeps z (x s a) => ?_) ?_; rotate_left; subst x; rotate_left; try clear_value x)
    | (extract_lets +onlyGivenNames x; refine (fun hf2 : ∀ a s, Keeps z s → Keeps z (x a s) => ?_) ?_; rotate_left; subst x; rotate_left; try clear_value x)
    | (extract_lets +onlyGivenNames x; refine (fun hf3 : ∀ s a b, Keeps z s → Keeps z (x s a b) => ?_) ?_; rotate_left; subst x; rotate_left; try clear_value x)
    | (extract_lets +onlyGivenNames x; refine (fun hf4 : ∀ a b s, Keeps z s → Keeps z (x a b s) => ?_) ?_; rotate_left; subst x; rotate_left; try clear_value x)
    | (extract_lets +onlyGivenNames x; refine (fun hf5 : ∀ a s b, Keeps z s → Keeps z (x a s b) => ?_) ?_; rotate_left; subst x; rotate_left; try clear_value x)
    | (extract_lets +onlyGivenNames x; refine (fun hf6 : ∀ a, Keeps z (x a) => ?_) ?_; rotate_left; subst x; rotate_left; try clear_value x)
    | (extract_lets +onlyGivenNames x; clear_value x) | extract_lets | apply ite_keeps | apply State.entryRun_keeps
    | apply hf0 | apply hf1 | apply hf2 | apply hf3 | apply hf4 | apply hf5 | apply hf6
    | (refine Keeps.upd ?_; first | assumption | (refine Keeps.of_fst (by assumption) ?_) | (refine Keeps.of_snd (by assumption) ?_) | apply State.entryRun_keeps)
    | split | (refine Keeps.of_fst (by assumption) ?_) | (refine Keeps.of_snd (by assumption) ?_)

theorem State.setSlotSt_keeps {z : State} {s : State} {k} {st} (hz : Keeps z s) :
    Keeps z (State.setSlotSt s k st) := by
  unfold State.setSlotSt
  with_reducible repeat' first
    | assumption | apply State.wrf_keeps | apply State.irq_keeps

theorem State.railLost_keeps {z : State} {s : State} {k} (hz : Keeps z s) :
    Keeps z (State.railLost s k) := by
  unfold State.railLost
  with_reducible repeat' first
    | assumption | apply ite_keeps | apply State.railsChanged_keeps | apply State.setLen_keeps
    | apply State.setSlotSt_keeps | apply State.pwrSoot_keeps | apply State.cnt_keeps
    | (refine Keeps.upd ?_; first | assumption | apply State.railsChanged_keeps | apply State.setLen_keeps | apply State.setSlotSt_keeps | apply State.pwrSoot_keeps | apply State.cnt_keeps)

theorem State.slotDisable_keeps {z : State} {s : State} {k} (hz : Keeps z s) :
    Keeps z (State.slotDisable s k) := by
  unfold State.slotDisable
  with_reducible repeat' first
    | assumption | apply State.setSlot_keeps | apply State.setSlotSt_keeps | apply State.wrb_keeps

theorem State.slotEnable_keeps {z : State} {s : State} {k} (hz : Keeps z s) :
    Keeps z (State.slotEnable s k) := by
  unfold State.slotEnable
  with_reducible repeat' first
    | assumption | apply State.setSlot_keeps | apply State.setSlotSt_keeps | apply State.wrb_keeps

theorem State.wakeBy_keeps {z : State} {s : State} {bits} {arg} (hz : Keeps z s) :
    Keeps z (State.wakeBy s bits arg) := by
  unfold State.wakeBy
  with_reducible repeat' first
    | assumption | apply ite_keeps | apply State.beginWake_keeps | apply State.wr_keeps
    | apply State.discardHeld_keeps
    | (refine Keeps.upd ?_; first | assumption | apply State.beginWake_keeps | apply State.wr_keeps | apply State.discardHeld_keeps)

theorem State.watchSlot_keeps {z : State} {s : State} {k} {codes} (hz : Keeps z s) :
    Keeps z (State.watchSlot s k codes).1 := by
  unfold State.watchSlot
  with_reducible repeat' first
    | assumption | apply ite_keeps | apply State.wrs_keeps | apply foldl_keeps_fst | apply foldl_keeps | intro _ _ _ _
    | intro _ _ _ | intro _ _ | intro _ | (refine Keeps.upd ?_; first | assumption | apply State.wrs_keeps)

theorem execDomainControlWrite_keeps {z : State} {b} {v} {s : State} (hz : Keeps z s) :
    KeepsO z (execDomainControlWrite b v s) := by
  unfold execDomainControlWrite
  with_reducible repeat' first
    | assumption | apply ite_keeps | apply next_keepsO | apply ite_keepsO | apply refused_keepsO | apply fault_keepsO
    | apply State.domCtrlBit_keeps | apply busWrite_keeps | apply forL_keeps | apply forL_keeps_fst | intro _ _ _ _
    | intro _ _ _ | intro _ _ | intro _
    | (refine Keeps.upd ?_; first | assumption | apply State.domCtrlBit_keeps | apply busWrite_keeps | apply forL_keeps)

theorem execPowerStateRequest_keeps {z : State} {b} {v} {s : State} (hz : Keeps z s) :
    KeepsO z (execPowerStateRequest b v s) := by
  unfold execPowerStateRequest
  with_reducible repeat' first
    | assumption | apply ite_keeps | apply next_keepsO | apply ite_keepsO | apply refused_keepsO | apply fault_keepsO
    | apply State.powerRequest_keeps | apply State.wrf_keeps | apply State.wrb_keeps | apply State.pwrSoot_keeps
    | apply State.irq_keeps | apply busWrite_keeps | intro _ _ _ _ | intro _ _ _ | intro _ _ | intro _
    | (refine Keeps.upd ?_; first | assumption | apply State.powerRequest_keeps | apply State.wrf_keeps | apply State.wrb_keeps | apply State.pwrSoot_keeps | apply State.irq_keeps | apply busWrite_keeps)

theorem execWakeComplete_keeps {z : State} {s : State} (hz : Keeps z s) :
    KeepsO z (execWakeComplete s) := by
  unfold execWakeComplete
  with_reducible repeat' first
    | assumption | apply ite_keeps | apply next_keepsO | apply ite_keepsO | apply refused_keepsO | apply fault_keepsO
    | apply State.heldCfgApply_keeps | apply State.irq_keeps | apply State.heldTake_keeps | apply State.setPwr_keeps
    | apply State.setBootStep_keeps | apply State.handOver_keeps
    | (refine Keeps.upd ?_; first | assumption | apply State.heldCfgApply_keeps | apply State.irq_keeps | apply State.heldTake_keeps | apply State.setPwr_keeps | apply State.setBootStep_keeps | apply State.handOver_keeps)

theorem execResetPin_keeps {z : State} {held} {s : State} (hz : Keeps z s) :
    KeepsO z (execResetPin held s) := by
  unfold execResetPin
  with_reducible repeat' first
    | assumption | apply ite_keeps | apply next_keepsO | apply ite_keepsO | apply refused_keepsO | apply fault_keepsO
    | apply State.setBootStep_keeps | apply State.heldCfgApply_keeps | apply State.startStep3_keeps
    | apply State.domainsOff_keeps | apply State.wr_keeps | apply State.wakeBy_keeps
    | (refine Keeps.upd ?_; first | assumption | apply State.setBootStep_keeps | apply State.heldCfgApply_keeps | apply State.startStep3_keeps | apply State.domainsOff_keeps | apply State.wr_keeps | apply State.wakeBy_keeps)

theorem execRtcAlarmWake_keeps {z : State} {s : State} (hz : Keeps z s) :
    KeepsO z (execRtcAlarmWake s) := by
  unfold execRtcAlarmWake
  with_reducible repeat' first
    | assumption | apply ite_keeps | apply next_keepsO | apply ite_keepsO | apply refused_keepsO | apply fault_keepsO
    | apply State.wakeBy_keeps | (refine Keeps.upd ?_; first | assumption | apply State.wakeBy_keeps)

theorem execWchWake_keeps {z : State} {j} {falling} {s : State} (hz : Keeps z s) :
    KeepsO z (execWchWake j falling s) := by
  unfold execWchWake
  with_reducible repeat' first
    | assumption | apply ite_keeps | apply next_keepsO | apply ite_keepsO | apply refused_keepsO | apply fault_keepsO
    | apply State.wakeBy_keeps | (refine Keeps.upd ?_; first | assumption | apply State.wakeBy_keeps)

theorem execWatchSample_keeps {z : State} {codes} {s : State} (hz : Keeps z s) :
    KeepsO z (execWatchSample codes s) := by
  unfold execWatchSample
  with_reducible repeat' first
    | assumption
    | (extract_lets +onlyGivenNames x; refine (fun hx : Keeps z x => ?_) ?_; rotate_left; subst x; rotate_left; try clear_value x)
    | (extract_lets +onlyGivenNames x; clear_value x) | extract_lets | apply ite_keeps | apply next_keepsO
    | apply ite_keepsO | apply refused_keepsO | apply fault_keepsO | apply State.wakeBy_keeps | apply State.wrb_keeps
    | apply State.watchSlot_keeps | apply State.wrf_keeps | apply foldl_keeps_fst | apply foldl_keeps | intro _ _ _ _
    | intro _ _ _ | intro _ _ | intro _
    | (refine Keeps.upd ?_; first | assumption | apply State.wakeBy_keeps | apply State.wrb_keeps | apply State.watchSlot_keeps | apply State.wrf_keeps)
    | split | (refine Keeps.of_fst (by assumption) ?_) | (refine Keeps.of_snd (by assumption) ?_)

theorem execTwoWireWake_keeps {z : State} {addr} {arg} {s : State} (hz : Keeps z s) :
    KeepsO z (execTwoWireWake addr arg s) := by
  unfold execTwoWireWake
  with_reducible repeat' first
    | assumption | apply ite_keeps | apply next_keepsO | apply ite_keepsO | apply refused_keepsO | apply fault_keepsO
    | apply State.wakeBy_keeps | (refine Keeps.upd ?_; first | assumption | apply State.wakeBy_keeps)

theorem execPowerCancel_keeps {z : State} {b} {s : State} (hz : Keeps z s) :
    KeepsO z (execPowerCancel b s) := by
  unfold execPowerCancel
  with_reducible repeat' first
    | assumption | apply ite_keeps | apply next_keepsO | apply ite_keepsO | apply refused_keepsO | apply fault_keepsO
    | apply State.pwrCancel_keeps | apply busWrite_keeps | intro _ _ _ _ | intro _ _ _ | intro _ _ | intro _
    | (refine Keeps.upd ?_; first | assumption | apply State.pwrCancel_keeps | apply busWrite_keeps)

theorem execFwTimeout_keeps {z : State} {s : State} (hz : Keeps z s) :
    KeepsO z (execFwTimeout s) := by
  unfold execFwTimeout
  with_reducible repeat' first
    | assumption | apply ite_keeps | apply next_keepsO | apply ite_keepsO | apply refused_keepsO | apply fault_keepsO
    | apply State.entryRun_keeps | (refine Keeps.upd ?_; first | assumption | apply State.entryRun_keeps)

theorem execPowerProceed_keeps {z : State} {b} {s : State} (hz : Keeps z s) :
    KeepsO z (execPowerProceed b s) := by
  unfold execPowerProceed
  with_reducible repeat' first
    | assumption | apply ite_keeps | apply next_keepsO | apply ite_keepsO | apply refused_keepsO | apply fault_keepsO
    | apply State.pwrProceed_keeps | apply busWrite_keeps | intro _ _ _ _ | intro _ _ _ | intro _ _ | intro _
    | (refine Keeps.upd ?_; first | assumption | apply State.pwrProceed_keeps | apply busWrite_keeps)

theorem execPowerEntryStart_keeps {z : State} {s : State} (hz : Keeps z s) :
    KeepsO z (execPowerEntryStart s) := by
  unfold execPowerEntryStart
  with_reducible repeat' first
    | assumption | apply ite_keeps | apply next_keepsO | apply ite_keepsO | apply refused_keepsO | apply fault_keepsO
    | apply State.saveWear_keeps | apply State.setPwr_keeps | apply State.cnt_keeps | apply State.irq_keeps
    | apply State.wrf_keeps | apply State.heldCfgApply_keeps
    | (refine Keeps.upd ?_; first | assumption | apply State.saveWear_keeps | apply State.setPwr_keeps | apply State.cnt_keeps | apply State.irq_keeps | apply State.wrf_keeps | apply State.heldCfgApply_keeps)

theorem execHeldDomainOff_keeps {z : State} {d} {s : State} (hz : Keeps z s) :
    KeepsO z (execHeldDomainOff d s) := by
  unfold execHeldDomainOff
  with_reducible repeat' first
    | assumption | apply ite_keeps | apply next_keepsO | apply ite_keepsO | apply refused_keepsO | apply fault_keepsO
    | apply State.domainOff_keeps | (refine Keeps.upd ?_; first | assumption | apply State.domainOff_keeps)

theorem execDomainSwitchFail_keeps {z : State} {d} {s : State} (hz : Keeps z s) :
    KeepsO z (execDomainSwitchFail d s) := by
  unfold execDomainSwitchFail
  with_reducible repeat' first
    | assumption | (extract_lets +onlyGivenNames x; clear_value x) | extract_lets | apply ite_keeps
    | apply next_keepsO | apply ite_keepsO | apply refused_keepsO | apply fault_keepsO | apply State.domainOff_keeps
    | apply State.pwrSoot_keeps
    | (refine Keeps.upd ?_; first | assumption | apply State.domainOff_keeps | apply State.pwrSoot_keeps) | split
    | (refine Keeps.of_fst (by assumption) ?_) | (refine Keeps.of_snd (by assumption) ?_)

theorem execDomainSwitchOn_keeps {z : State} {d} {s : State} (hz : Keeps z s) :
    KeepsO z (execDomainSwitchOn d s) := by
  unfold execDomainSwitchOn
  with_reducible repeat' first
    | assumption
    | (extract_lets +onlyGivenNames x; refine (fun hx : Keeps z x => ?_) ?_; rotate_left; subst x; rotate_left; try clear_value x)
    | (extract_lets +onlyGivenNames x; clear_value x) | extract_lets | apply ite_keeps | apply next_keepsO
    | apply ite_keepsO | apply refused_keepsO | apply fault_keepsO | apply State.setBootStep_keeps
    | apply State.soot_keeps | apply State.repairRestore_keeps | apply State.domainUp_keeps | apply State.wrb_keeps
    | apply forL_keeps | apply forL_keeps_fst | intro _ _ _ _ | intro _ _ _ | intro _ _ | intro _
    | (refine Keeps.upd ?_; first | assumption | apply State.setBootStep_keeps | apply State.soot_keeps | apply State.repairRestore_keeps | apply State.domainUp_keeps | apply State.wrb_keeps | apply forL_keeps)
    | split | (refine Keeps.of_fst (by assumption) ?_) | (refine Keeps.of_snd (by assumption) ?_)

theorem execVinRestore_keeps {z : State} {s : State} (hz : Keeps z s) :
    KeepsO z (execVinRestore s) := by
  unfold execVinRestore
  with_reducible repeat' first
    | assumption | apply ite_keeps | apply next_keepsO | apply ite_keepsO | apply refused_keepsO | apply fault_keepsO
    | apply State.retentionCheck_keeps | apply State.wr_keeps | apply State.wrb_keeps
    | (refine Keeps.upd ?_; first | assumption | apply State.retentionCheck_keeps | apply State.wr_keeps | apply State.wrb_keeps)

theorem execVinWarning_keeps {z : State} {s : State} (hz : Keeps z s) :
    KeepsO z (execVinWarning s) := by
  unfold execVinWarning
  with_reducible repeat' first
    | assumption
    | (extract_lets +onlyGivenNames x; refine (fun hx : Keeps z x => ?_) ?_; rotate_left; subst x; rotate_left; try clear_value x)
    | (extract_lets +onlyGivenNames x; clear_value x) | extract_lets | apply ite_keeps | apply next_keepsO
    | apply ite_keepsO | apply refused_keepsO | apply fault_keepsO | apply State.heldCfgApply_keeps
    | apply State.pwrSoot_keeps | apply State.wr_keeps | apply State.wrf_keeps | apply State.wrb_keeps
    | apply State.setSlotSt_keeps | apply State.setSlot_keeps | apply State.dramLost_keeps
    | apply State.domainsOff_keeps | apply State.seal_keeps | apply forN_keeps | intro _ _ _ _ | intro _ _ _
    | intro _ _ | intro _
    | (refine Keeps.upd ?_; first | assumption | apply State.heldCfgApply_keeps | apply State.pwrSoot_keeps | apply State.wr_keeps | apply State.wrf_keeps | apply State.wrb_keeps | apply State.setSlotSt_keeps | apply State.setSlot_keeps | apply State.dramLost_keeps | apply State.domainsOff_keeps | apply State.seal_keeps | apply forN_keeps)
    | split | (refine Keeps.of_fst (by assumption) ?_) | (refine Keeps.of_snd (by assumption) ?_)

theorem execPowerDownGroup_keeps {z : State} {s : State} (hz : Keeps z s) :
    KeepsO z (execPowerDownGroup s) := by
  unfold execPowerDownGroup
  with_reducible repeat' first
    | assumption
    | (extract_lets +onlyGivenNames x; refine (fun hx : Keeps z x => ?_) ?_; rotate_left; subst x; rotate_left; try clear_value x)
    | (extract_lets +onlyGivenNames x; clear_value x) | extract_lets | apply ite_keeps | apply next_keepsO
    | apply ite_keepsO | apply refused_keepsO | apply fault_keepsO | apply State.heldTake_keeps
    | apply State.beginWake_keeps | apply State.setPwr_keeps | apply State.wrf_keeps | apply State.heldCfgApply_keeps
    | apply State.slotDisable_keeps | apply forL_keeps | apply forL_keeps_fst | intro _ _ _ _ | intro _ _ _
    | intro _ _ | intro _
    | (refine Keeps.upd ?_; first | assumption | apply State.heldTake_keeps | apply State.beginWake_keeps | apply State.setPwr_keeps | apply State.wrf_keeps | apply State.heldCfgApply_keeps | apply State.slotDisable_keeps | apply forL_keeps)
    | split | (refine Keeps.of_fst (by assumption) ?_) | (refine Keeps.of_snd (by assumption) ?_)

theorem execRailTimeout_keeps {z : State} {k} {s : State} (hz : Keeps z s) :
    KeepsO z (execRailTimeout k s) := by
  unfold execRailTimeout
  with_reducible repeat' first
    | assumption | apply ite_keeps | apply next_keepsO | apply ite_keepsO | apply refused_keepsO | apply fault_keepsO
    | apply State.setSlotSt_keeps | apply State.pwrSoot_keeps | apply State.railsChanged_keeps | apply State.wrb_keeps
    | apply State.updSlot_keeps
    | (refine Keeps.upd ?_; first | assumption | apply State.setSlotSt_keeps | apply State.pwrSoot_keeps | apply State.railsChanged_keeps | apply State.wrb_keeps | apply State.updSlot_keeps)

theorem execRailQualified_keeps {z : State} {k} {s : State} (hz : Keeps z s) :
    KeepsO z (execRailQualified k s) := by
  unfold execRailQualified
  with_reducible repeat' first
    | assumption | apply ite_keeps | apply next_keepsO | apply ite_keepsO | apply refused_keepsO | apply fault_keepsO
    | apply State.railsUnblock_keeps | apply State.setSlotSt_keeps | apply State.setSlot_keeps
    | (refine Keeps.upd ?_; first | assumption | apply State.railsUnblock_keeps | apply State.setSlotSt_keeps | apply State.setSlot_keeps)

theorem execPgEdge_keeps {z : State} {k} {level} {s : State} (hz : Keeps z s) :
    KeepsO z (execPgEdge k level s) := by
  unfold execPgEdge
  with_reducible repeat' first
    | assumption | apply ite_keeps | apply next_keepsO | apply ite_keepsO | apply refused_keepsO | apply fault_keepsO
    | apply State.cnt_keeps | apply State.pwrSoot_keeps | apply State.railLost_keeps | apply State.updSlot_keeps
    | apply State.wrb_keeps
    | (refine Keeps.upd ?_; first | assumption | apply State.cnt_keeps | apply State.pwrSoot_keeps | apply State.railLost_keeps | apply State.updSlot_keeps | apply State.wrb_keeps)

theorem execRailGroupEnable_keeps {z : State} {s : State} (hz : Keeps z s) :
    KeepsO z (execRailGroupEnable s) := by
  unfold execRailGroupEnable
  with_reducible repeat' first
    | assumption
    | (extract_lets +onlyGivenNames x; refine (fun hx : Keeps z x => ?_) ?_; rotate_left; subst x; rotate_left; try clear_value x)
    | (extract_lets +onlyGivenNames x; clear_value x) | extract_lets | apply ite_keeps | apply next_keepsO
    | apply ite_keepsO | apply refused_keepsO | apply fault_keepsO | apply State.heldCfgApply_keeps
    | apply State.railsUnblock_keeps | apply State.slotEnable_keeps | apply forL_keeps | apply forL_keeps_fst
    | intro _ _ _ _ | intro _ _ _ | intro _ _ | intro _
    | (refine Keeps.upd ?_; first | assumption | apply State.heldCfgApply_keeps | apply State.railsUnblock_keeps | apply State.slotEnable_keeps | apply forL_keeps)
    | split | (refine Keeps.of_fst (by assumption) ?_) | (refine Keeps.of_snd (by assumption) ?_)

theorem execAlwaysOnPowerUp_keeps {z : State} {testMode : Bool} {s : State} (hz : Keeps z s) :
    KeepsO z (execAlwaysOnPowerUp testMode s) := by
  unfold execAlwaysOnPowerUp
  extract_lets r v bkg v2 v3 v4 u a t
  have hu : Keeps z u := ⟨hz.1, hz.2, hz.3, fun _ => rfl, fun _ => rfl⟩
  clear_value u
  exact next_keepsO (State.serialLost_keeps (State.wrb_keeps (State.wrf_keeps hu)))

theorem execWarmResetRelease_keeps {z : State} {s : State} (hz : Keeps z s) :
    KeepsO z (execWarmResetRelease s) := by
  unfold execWarmResetRelease
  with_reducible repeat' first
    | assumption | apply ite_keeps | apply next_keepsO | apply ite_keepsO | apply refused_keepsO | apply fault_keepsO
    | apply State.setBootStep_keeps | apply State.heldCfgApply_keeps | apply State.startStep3_keeps
    | apply State.wr_keeps | apply State.wearAdd_keeps
    | (refine Keeps.upd ?_; first | assumption | apply State.setBootStep_keeps | apply State.heldCfgApply_keeps | apply State.startStep3_keeps | apply State.wr_keeps | apply State.wearAdd_keeps)

end Sys2Proof.Machine
end

