-- ==== Sys2Proof/Laws/KeepsBanking.lean ====
section
/-! SUPPORT. What every operation of Machine/Banking.lean keeps (Laws/Keeps.lean). -/
-- one script for every shape of goal: what a goal does not need is not reported
set_option linter.all false
namespace Sys2Proof.Machine

theorem State.adcTerms_keeps {z : State} {s : State} (hz : Keeps z s) :
    Keeps z (State.adcTerms s) := by
  unfold State.adcTerms
  with_reducible repeat' first
    | assumption | apply ite_keeps | (refine Keeps.upd ?_; first | assumption)

theorem State.logAdvance_keeps {z : State} {s : State} (hz : Keeps z s) :
    Keeps z (State.logAdvance s) := by
  unfold State.logAdvance
  with_reducible repeat' first
    | assumption | apply ite_keeps | apply State.wearAdd_keeps | apply foldl_keeps_fst | apply foldl_keeps
    | intro _ _ _ _ | intro _ _ _ | intro _ _ | intro _
    | (refine Keeps.upd ?_; first | assumption | apply State.wearAdd_keeps)

theorem State.logBegin_keeps {z : State} {s : State} (hz : Keeps z s) :
    Keeps z (State.logBegin s) := by
  unfold State.logBegin
  with_reducible repeat' first
    | assumption
    | (extract_lets +onlyGivenNames x; refine (fun hx : Keeps z x => ?_) ?_; rotate_left; subst x; rotate_left; try clear_value x)
    | (extract_lets +onlyGivenNames x; clear_value x) | extract_lets | apply ite_keeps | apply State.logAdvance_keeps
    | (refine Keeps.upd ?_; first | assumption | apply State.logAdvance_keeps) | split
    | (refine Keeps.of_fst (by assumption) ?_) | (refine Keeps.of_snd (by assumption) ?_)

theorem State.logConfirmed_keeps {z : State} {s : State} {w} {rest} (hz : Keeps z s) :
    Keeps z (State.logConfirmed s w rest) := by
  unfold State.logConfirmed
  with_reducible repeat' first
    | assumption | apply ite_keeps | apply State.irq_keeps
    | (refine Keeps.upd ?_; first | assumption | apply State.irq_keeps)

theorem State.logFailed_keeps {z : State} {s : State} {w} {rest} (hz : Keeps z s) :
    Keeps z (State.logFailed s w rest) := by
  unfold State.logFailed
  with_reducible repeat' first
    | assumption | apply ite_keeps | apply State.cnt_keeps | apply State.logStat_keeps | apply State.irq_keeps
    | apply State.soot_keeps
    | (refine Keeps.upd ?_; first | assumption | apply State.cnt_keeps | apply State.logStat_keeps | apply State.irq_keeps | apply State.soot_keeps)

theorem execWearSaveNow_keeps {z : State} {b} {v} {s : State} (hz : Keeps z s) :
    KeepsO z (execWearSaveNow b v s) := by
  unfold execWearSaveNow
  with_reducible repeat' first
    | assumption | apply ite_keeps | apply next_keepsO | apply ite_keepsO | apply refused_keepsO | apply fault_keepsO
    | apply State.saveWear_keeps | apply busWrite_keeps | intro _ _ _ _ | intro _ _ _ | intro _ _ | intro _
    | (refine Keeps.upd ?_; first | assumption | apply State.saveWear_keeps | apply busWrite_keeps)

theorem execWearCapture_keeps {z : State} {b} {v} {s : State} (hz : Keeps z s) :
    KeepsO z (execWearCapture b v s) := by
  unfold execWearCapture
  with_reducible repeat' first
    | assumption | apply ite_keeps | apply next_keepsO | apply ite_keepsO | apply refused_keepsO | apply fault_keepsO
    | apply State.plainWrite_keeps | apply State.wr64_keeps | apply busWrite_keeps | intro _ _ _ _ | intro _ _ _
    | intro _ _ | intro _
    | (refine Keeps.upd ?_; first | assumption | apply State.plainWrite_keeps | apply State.wr64_keeps | apply busWrite_keeps)

theorem execLogWriteVerify_keeps {z : State} {ok} {s : State} (hz : Keeps z s) :
    KeepsO z (execLogWriteVerify ok s) := by
  unfold execLogWriteVerify
  with_reducible repeat' first
    | assumption | (extract_lets +onlyGivenNames x; clear_value x) | extract_lets | apply ite_keeps
    | apply next_keepsO | apply ite_keepsO | apply refused_keepsO | apply fault_keepsO | apply State.logFailed_keeps
    | apply State.logConfirmed_keeps
    | (refine Keeps.upd ?_; first | assumption | apply State.logFailed_keeps | apply State.logConfirmed_keeps) | split
    | (refine Keeps.of_fst (by assumption) ?_) | (refine Keeps.of_snd (by assumption) ?_)

theorem execAdcCalibrationEnd_keeps {z : State} {c} {ofs} {gain} {s : State} (hz : Keeps z s) :
    KeepsO z (execAdcCalibrationEnd c ofs gain s) := by
  unfold execAdcCalibrationEnd
  with_reducible repeat' first
    | assumption | apply ite_keeps | apply next_keepsO | apply ite_keepsO | apply refused_keepsO | apply fault_keepsO
    | apply State.spareTakes_keeps | apply State.logPush_keeps | apply State.soot_keeps | apply State.wr_keeps
    | apply State.setConv_keeps | apply State.cnt_keeps | apply State.wrb_keeps
    | (refine Keeps.upd ?_; first | assumption | apply State.spareTakes_keeps | apply State.logPush_keeps | apply State.soot_keeps | apply State.wr_keeps | apply State.setConv_keeps | apply State.cnt_keeps | apply State.wrb_keeps)

theorem execAdcCalibrationStart_keeps {z : State} {c} {s : State} (hz : Keeps z s) :
    KeepsO z (execAdcCalibrationStart c s) := by
  unfold execAdcCalibrationStart
  with_reducible repeat' first
    | assumption | apply ite_keeps | apply next_keepsO | apply ite_keepsO | apply refused_keepsO | apply fault_keepsO
    | apply State.wrb_keeps | apply State.updConv_keeps
    | (refine Keeps.upd ?_; first | assumption | apply State.wrb_keeps | apply State.updConv_keeps)

theorem execAdcConversion_keeps {z : State} {c} {req} {raw} {s : State} (hz : Keeps z s) :
    KeepsO z (execAdcConversion c req raw s) := by
  unfold execAdcConversion
  with_reducible repeat' first
    | assumption
    | (extract_lets +onlyGivenNames x; refine (fun hx : Keeps z x => ?_) ?_; rotate_left; subst x; rotate_left; try clear_value x)
    | (extract_lets +onlyGivenNames x; clear_value x) | extract_lets | apply ite_keeps | apply next_keepsO
    | apply ite_keepsO | apply refused_keepsO | apply fault_keepsO | apply State.adcConverted_keeps
    | apply State.wr_keeps | apply State.adcTerms_keeps | apply State.updConv_keeps
    | (refine Keeps.upd ?_; first | assumption | apply State.adcConverted_keeps | apply State.wr_keeps | apply State.adcTerms_keeps | apply State.updConv_keeps)
    | split | (refine Keeps.of_fst (by assumption) ?_) | (refine Keeps.of_snd (by assumption) ?_)

theorem execLogWriteRetry_keeps {z : State} {s : State} (hz : Keeps z s) :
    KeepsO z (execLogWriteRetry s) := by
  unfold execLogWriteRetry
  with_reducible repeat' first
    | assumption | (extract_lets +onlyGivenNames x; clear_value x) | extract_lets | apply ite_keeps
    | apply next_keepsO | apply ite_keepsO | apply refused_keepsO | apply fault_keepsO | apply State.logBegin_keeps
    | (refine Keeps.upd ?_; first | assumption | apply State.logBegin_keeps) | split
    | (refine Keeps.of_fst (by assumption) ?_) | (refine Keeps.of_snd (by assumption) ?_)

theorem execLogStoreWrite_keeps {z : State} {s : State} (hz : Keeps z s) :
    KeepsO z (execLogStoreWrite s) := by
  unfold execLogStoreWrite
  with_reducible repeat' first
    | assumption | (extract_lets +onlyGivenNames x; clear_value x) | extract_lets | apply ite_keeps
    | apply next_keepsO | apply ite_keepsO | apply refused_keepsO | apply fault_keepsO | apply State.logBegin_keeps
    | (refine Keeps.upd ?_; first | assumption | apply State.logBegin_keeps) | split
    | (refine Keeps.of_fst (by assumption) ?_) | (refine Keeps.of_snd (by assumption) ?_)

theorem execWearSave_keeps {z : State} {s : State} (hz : Keeps z s) :
    KeepsO z (execWearSave s) := by
  unfold execWearSave
  with_reducible repeat' first
    | assumption | apply ite_keeps | apply next_keepsO | apply ite_keepsO | apply refused_keepsO | apply fault_keepsO
    | apply State.saveWear_keeps | (refine Keeps.upd ?_; first | assumption | apply State.saveWear_keeps)

theorem execTelemetrySnapshot_keeps {z : State} {writeOk} {s : State} (hz : Keeps z s) :
    KeepsO z (execTelemetrySnapshot writeOk s) := by
  unfold execTelemetrySnapshot
  with_reducible repeat' first
    | assumption
    | (extract_lets +onlyGivenNames x; refine (fun hx : Keeps z x => ?_) ?_; rotate_left; subst x; rotate_left; try clear_value x)
    | (extract_lets +onlyGivenNames x; clear_value x) | extract_lets | apply ite_keeps | apply next_keepsO
    | apply ite_keepsO | apply refused_keepsO | apply fault_keepsO | apply State.cnt_keeps | apply State.wr_keeps
    | apply State.irq_keeps | apply State.wrMem_keeps
    | (refine Keeps.upd ?_; first | assumption | apply State.cnt_keeps | apply State.wr_keeps | apply State.irq_keeps | apply State.wrMem_keeps)
    | split | (refine Keeps.of_fst (by assumption) ?_) | (refine Keeps.of_snd (by assumption) ?_)

theorem execGalvoDriftDone_keeps {z : State} {n} {s : State} (hz : Keeps z s) :
    KeepsO z (execGalvoDriftDone n s) := by
  unfold execGalvoDriftDone
  with_reducible repeat' first
    | assumption
    | (extract_lets +onlyGivenNames x; refine (fun hx : Keeps z x => ?_) ?_; rotate_left; subst x; rotate_left; try clear_value x)
    | (extract_lets +onlyGivenNames x; clear_value x) | extract_lets | apply ite_keeps | apply next_keepsO
    | apply ite_keepsO | apply refused_keepsO | apply fault_keepsO | apply State.galvoStop_keeps
    | apply State.wr_keeps
    | (refine Keeps.upd ?_; first | assumption | apply State.galvoStop_keeps | apply State.wr_keeps) | split
    | (refine Keeps.of_fst (by assumption) ?_) | (refine Keeps.of_snd (by assumption) ?_)

theorem execGalvoDriftCheck_keeps {z : State} {n} {s : State} (hz : Keeps z s) :
    KeepsO z (execGalvoDriftCheck n s) := by
  unfold execGalvoDriftCheck
  with_reducible repeat' first
    | assumption
    | (extract_lets +onlyGivenNames x; refine (fun hx : Keeps z x => ?_) ?_; rotate_left; subst x; rotate_left; try clear_value x)
    | (extract_lets +onlyGivenNames x; clear_value x) | extract_lets | apply ite_keeps | apply next_keepsO
    | apply ite_keepsO | apply refused_keepsO | apply fault_keepsO | apply State.laserPark_keeps
    | apply State.wrb_keeps | apply State.cnt_keeps
    | (refine Keeps.upd ?_; first | assumption | apply State.laserPark_keeps | apply State.wrb_keeps | apply State.cnt_keeps)
    | split | (refine Keeps.of_fst (by assumption) ?_) | (refine Keeps.of_snd (by assumption) ?_)

end Sys2Proof.Machine
end

