-- ==== Sys2Proof/Laws/KeepsBoot.lean ====
section
/-! SUPPORT. What every operation of Machine/Boot.lean keeps (Laws/Keeps.lean). -/
-- one script for every shape of goal: what a goal does not need is not reported
set_option linter.all false
namespace Sys2Proof.Machine

theorem State.bootPass_keeps {z : State} {s : State} {h} {slot} {sram} (hz : Keeps z s) :
    Keeps z (State.bootPass s h slot sram) := by
  unfold State.bootPass
  with_reducible repeat' first
    | assumption | apply ite_keeps | apply State.setBootStep_keeps | apply State.handOverWith_keeps
    | apply State.cnt_keeps
    | (refine Keeps.upd ?_; first | assumption | apply State.setBootStep_keeps | apply State.handOverWith_keeps | apply State.cnt_keeps)

theorem State.fgdCheck_keeps {z : State} {s : State} (hz : Keeps z s) :
    Keeps z (State.fgdCheck s).2 := by
  unfold State.fgdCheck
  with_reducible repeat' first
    | assumption | (extract_lets +onlyGivenNames x; clear_value x) | extract_lets | apply ite_keeps
    | apply State.fgLoad_keeps | (refine Keeps.upd ?_; first | assumption | apply State.fgLoad_keeps) | split
    | (refine Keeps.of_fst (by assumption) ?_) | (refine Keeps.of_snd (by assumption) ?_)

theorem State.bootImage_keeps {z : State} {s : State} {slot} {h} {sram} (hz : Keeps z s) :
    Keeps z (State.bootImage s slot h sram) := by
  unfold State.bootImage
  with_reducible repeat' first
    | assumption | (extract_lets +onlyGivenNames x; clear_value x) | extract_lets | apply ite_keeps
    | apply State.wrMem_keeps | apply State.bootPass_keeps | apply State.attemptFailed_keeps
    | apply State.fgdCheck_keeps
    | (refine Keeps.upd ?_; first | assumption | apply State.wrMem_keeps | apply State.bootPass_keeps | apply State.attemptFailed_keeps | apply State.fgdCheck_keeps)
    | split | (refine Keeps.of_fst (by assumption) ?_) | (refine Keeps.of_snd (by assumption) ?_)

theorem State.recoveryAnswer_keeps {z : State} {s : State} {typ} {res} {more} (hz : Keeps z s) :
    Keeps z (State.recoveryAnswer s typ res more) := by
  unfold State.recoveryAnswer
  with_reducible repeat' first
    | assumption | apply ite_keeps | (refine Keeps.upd ?_; first | assumption)

theorem recovery_keeps {z : State} {typ} {frame} {f} {s : State} (hf : ∀ u0 u1, Keeps z u1 → Keeps z (f u0 u1)) (hz : Keeps z s) :
    KeepsO z (recovery typ frame f s) := by
  unfold recovery
  repeat' (first
    | with_reducible assumption
    | (extract_lets +onlyGivenNames x; refine (fun hx : Keeps z x => ?_) ?_; rotate_left; subst x; rotate_left; try clear_value x)
    | (extract_lets +onlyGivenNames x; refine (fun hx : Keeps z x.1 => ?_) ?_; rotate_left; subst x; rotate_left; try clear_value x)
    | (extract_lets +onlyGivenNames x; refine (fun hx : Keeps z x.2 => ?_) ?_; rotate_left; subst x; rotate_left; try clear_value x)
    | (extract_lets +onlyGivenNames x; refine (fun hf0 : ∀ s, Keeps z s → Keeps z (x s) => ?_) ?_; rotate_left; subst x; rotate_left; try clear_value x)
    | (extract_lets +onlyGivenNames x; refine (fun ho0 : ∀ a, KeepsO z (x a) => ?_) ?_; rotate_left; subst x; rotate_left; try clear_value x)
    | (extract_lets +onlyGivenNames x; refine (fun ho1 : ∀ s, Keeps z s → KeepsO z (x s) => ?_) ?_; rotate_left; subst x; rotate_left; try clear_value x)
    | (extract_lets +onlyGivenNames x; refine (fun ho2 : ∀ s a, Keeps z s → KeepsO z (x s a) => ?_) ?_; rotate_left; subst x; rotate_left; try clear_value x)
    | (extract_lets +onlyGivenNames x; refine (fun hf1 : ∀ s a, Keeps z s → Keeps z (x s a) => ?_) ?_; rotate_left; subst x; rotate_left; try clear_value x)
    | (extract_lets +onlyGivenNames x; refine (fun hf2 : ∀ a s, Keeps z s → Keeps z (x a s) => ?_) ?_; rotate_left; subst x; rotate_left; try clear_value x)
    | (extract_lets +onlyGivenNames x; refine (fun hf3 : ∀ s a b, Keeps z s → Keeps z (x s a b) => ?_) ?_; rotate_left; subst x; rotate_left; try clear_value x)
    | (extract_lets +onlyGivenNames x; refine (fun hf4 : ∀ a b s, Keeps z s → Keeps z (x a b s) => ?_) ?_; rotate_left; subst x; rotate_left; try clear_value x)
    | (extract_lets +onlyGivenNames x; refine (fun hf5 : ∀ a s b, Keeps z s → Keeps z (x a s b) => ?_) ?_; rotate_left; subst x; rotate_left; try clear_value x)
    | (extract_lets +onlyGivenNames x; refine (fun hf6 : ∀ a, Keeps z (x a) => ?_) ?_; rotate_left; subst x; rotate_left; try clear_value x)
    | (extract_lets +onlyGivenNames x; clear_value x)
    | extract_lets
    | with_reducible apply ite_keeps
    | with_reducible apply next_keepsO
    | with_reducible apply ite_keepsO
    | with_reducible apply refused_keepsO
    | with_reducible apply fault_keepsO
    | with_reducible apply State.recoveryAnswer_keeps
    | apply hf
    | with_reducible apply hf0
    | with_reducible apply hf1
    | with_reducible apply hf2
    | with_reducible apply hf3
    | with_reducible apply hf4
    | with_reducible apply hf5
    | with_reducible apply hf6
    | with_reducible apply ho0
    | with_reducible apply ho1
    | with_reducible apply ho2
    | intro _ _ _ _
    | intro _ _ _
    | intro _ _
    | intro _
    | (with_reducible refine Keeps.upd ?_; first | with_reducible assumption | (with_reducible refine Keeps.of_fst (by with_reducible assumption) ?_) | (with_reducible refine Keeps.of_snd (by with_reducible assumption) ?_) | with_reducible apply State.recoveryAnswer_keeps)
    | split
    | (with_reducible refine Keeps.of_fst (by with_reducible assumption) ?_)
    | (with_reducible refine Keeps.of_snd (by with_reducible assumption) ?_)
    | fail)

theorem execRecoveryRun_keeps {z : State} {frame} {s : State} (hz : Keeps z s) :
    KeepsO z (execRecoveryRun frame s) := by
  unfold execRecoveryRun
  with_reducible repeat' first
    | assumption | apply ite_keeps | apply next_keepsO | apply ite_keepsO | apply refused_keepsO | apply fault_keepsO
    | apply State.handOverWith_keeps | apply State.recoveryAnswer_keeps | apply recovery_keeps
    | (refine KeepsO.of_next ?_ (by assumption)) | intro _ _ _ _ | intro _ _ _ | intro _ _ | intro _
    | (refine Keeps.upd ?_; first | assumption | apply State.handOverWith_keeps | apply State.recoveryAnswer_keeps)

theorem execRecoveryData_keeps {z : State} {frame} {s : State} (hz : Keeps z s) :
    KeepsO z (execRecoveryData frame s) := by
  unfold execRecoveryData
  with_reducible repeat' first
    | assumption | apply ite_keeps | apply next_keepsO | apply ite_keepsO | apply refused_keepsO | apply fault_keepsO
    | apply State.wrMem_keeps | apply State.recoveryAnswer_keeps | apply recovery_keeps
    | (refine KeepsO.of_next ?_ (by assumption)) | intro _ _ _ _ | intro _ _ _ | intro _ _ | intro _
    | (refine Keeps.upd ?_; first | assumption | apply State.wrMem_keeps | apply State.recoveryAnswer_keeps)

theorem execRecoveryHeader_keeps {z : State} {frame} {s : State} (hz : Keeps z s) :
    KeepsO z (execRecoveryHeader frame s) := by
  unfold execRecoveryHeader
  with_reducible repeat' first
    | assumption | apply ite_keeps | apply next_keepsO | apply ite_keepsO | apply refused_keepsO | apply fault_keepsO
    | apply State.recoveryAnswer_keeps | apply recovery_keeps | (refine KeepsO.of_next ?_ (by assumption))
    | intro _ _ _ _ | intro _ _ _ | intro _ _ | intro _
    | (refine Keeps.upd ?_; first | assumption | apply State.recoveryAnswer_keeps)

theorem execRecoveryHello_keeps {z : State} {frame} {s : State} (hz : Keeps z s) :
    KeepsO z (execRecoveryHello frame s) := by
  unfold execRecoveryHello
  with_reducible repeat' first
    | assumption | apply ite_keeps | apply next_keepsO | apply ite_keepsO | apply refused_keepsO | apply fault_keepsO
    | apply State.recoveryAnswer_keeps | apply recovery_keeps | (refine KeepsO.of_next ?_ (by assumption))
    | intro _ _ _ _ | intro _ _ _ | intro _ _ | intro _
    | (refine Keeps.upd ?_; first | assumption | apply State.recoveryAnswer_keeps)

theorem execBootRetryWaitEnd_keeps {z : State} {s : State} (hz : Keeps z s) :
    KeepsO z (execBootRetryWaitEnd s) := by
  unfold execBootRetryWaitEnd
  with_reducible repeat' first
    | assumption | apply ite_keeps | apply next_keepsO | apply ite_keepsO | apply refused_keepsO | apply fault_keepsO
    | (refine Keeps.upd ?_; first | assumption)

theorem execBootAttempt_keeps {z : State} {slot} {r} {s : State} (hz : Keeps z s) :
    KeepsO z (execBootAttempt slot r s) := by
  unfold execBootAttempt
  with_reducible repeat' first
    | assumption | (extract_lets +onlyGivenNames x; clear_value x) | extract_lets | apply ite_keeps
    | apply next_keepsO | apply ite_keepsO | apply refused_keepsO | apply fault_keepsO | apply State.bootImage_keeps
    | apply State.attemptFailed_keeps | apply State.restart_keeps
    | (refine Keeps.upd ?_; first | assumption | apply State.bootImage_keeps | apply State.attemptFailed_keeps | apply State.restart_keeps)
    | split | (refine Keeps.of_fst (by assumption) ?_) | (refine Keeps.of_snd (by assumption) ?_)

end Sys2Proof.Machine
end

