-- ==== Sys2Proof/Laws/KeepsBusLevels.lean ====
section
/-! SUPPORT. What every operation of Machine/BusLevels.lean keeps (Laws/Keeps.lean). -/
-- one script for every shape of goal: what a goal does not need is not reported
set_option linter.all false
namespace Sys2Proof.Machine

theorem State.ov3Step_keeps {z : State} {s : State} (hz : Keeps z s) :
    Keeps z (State.ov3Step s) := by
  unfold State.ov3Step
  with_reducible repeat' first
    | assumption | apply ite_keeps | apply State.irq_keeps | apply State.fltLog_keeps | apply State.showSrc_keeps
    | apply State.safeUpdate_keeps | apply State.setSrc_keeps
    | (refine Keeps.upd ?_; first | assumption | apply State.irq_keeps | apply State.fltLog_keeps | apply State.showSrc_keeps | apply State.safeUpdate_keeps | apply State.setSrc_keeps)

theorem execTapInstructionLoad_keeps {z : State} {i} {s : State} (hz : Keeps z s) :
    KeepsO z (execTapInstructionLoad i s) := by
  unfold execTapInstructionLoad
  with_reducible repeat' first
    | assumption | (extract_lets +onlyGivenNames x; clear_value x) | extract_lets | apply ite_keeps
    | apply next_keepsO | apply ite_keepsO | apply refused_keepsO | apply fault_keepsO | apply State.holdDevice_keeps
    | apply State.dropHold_keeps
    | (refine Keeps.upd ?_; first | assumption | apply State.holdDevice_keeps | apply State.dropHold_keeps) | split
    | (refine Keeps.of_fst (by assumption) ?_) | (refine Keeps.of_snd (by assumption) ?_)

theorem execBusLevelCrossing_keeps {z : State} {u} {mv} {s : State} (hz : Keeps z s) :
    KeepsO z (execBusLevelCrossing u mv s) := by
  unfold execBusLevelCrossing
  with_reducible repeat' first
    | assumption | apply ite_keeps | apply next_keepsO | apply ite_keepsO | apply refused_keepsO | apply fault_keepsO
    | apply State.ov3Step_keeps | apply State.busCrossing_keeps
    | (refine Keeps.upd ?_; first | assumption | apply State.ov3Step_keeps | apply State.busCrossing_keeps)

end Sys2Proof.Machine
end

