-- ==== Sys2Proof/Laws/KeepsClock.lean ====
section
/-! SUPPORT. What every operation of Machine/Clock.lean keeps (Laws/Keeps.lean). -/
-- one script for every shape of goal: what a goal does not need is not reported
set_option linter.all false
namespace Sys2Proof.Machine

theorem State.refTick_keeps {z : State} {s : State} (hz : Keeps z s) :
    Keeps z (State.refTick s) := by
  unfold State.refTick
  with_reducible repeat' first
    | assumption | apply ite_keeps | apply State.wr_keeps
    | (refine Keeps.upd ?_; first | assumption | apply State.wr_keeps)

theorem State.teleSecond_keeps {z : State} {s : State} (hz : Keeps z s) :
    Keeps z (State.teleSecond s) := by
  unfold State.teleSecond
  with_reducible repeat' first
    | assumption
    | (extract_lets +onlyGivenNames x; refine (fun hx : Keeps z x => ?_) ?_; rotate_left; subst x; rotate_left; try clear_value x)
    | (extract_lets +onlyGivenNames x; refine (fun hx : Keeps z x.1 => ?_) ?_; rotate_left; subst x; rotate_left; try clear_value x)
    | (extract_lets +onlyGivenNames x; refine (fun hx : Keeps z x.2 => ?_) ?_; rotate_left; subst x; rotate_left; try clear_value x)
    | (extract_lets +onlyGivenNames x; refine (fun hf0 : ∀ s, Keeps z s → Keeps z (x s) => ?_) ?_; rotate_left; subst x; rotate_left; try clear_value x)
    | (extract_lets +onlyGivenNames x; refine (fun hf1 : ∀ s a, Keeps z s → Keeps z (x s a) => ?_) ?_; rotate_left; subst x; rotate_left; try clear_value x)
    | (extract_lets +onlyGivenNames x; refine (fun hf2 : ∀ a s, Keeps z s → Keeps z (x a s) => ?_) ?_; rotate_left; subst x; rotate_left; try clear_value x)
    | (extract_lets +onlyGivenNames x; refine (fun hf3 : ∀ s a b, Keeps z s → Keeps z (x s a b) => ?_) ?_; rotate_left; subst x; rotate_left; try clear_value x)
    | (extract_lets +onlyGivenNames x; refine (fun hf4 : ∀ a b s, Keeps z s → Keeps z (x a b s) => ?_) ?_; rotate_left; subst x; rotate_left; try clear_value x)
    | (extract_lets +onlyGivenNames x; refine (fun hf5 : ∀ a s b, Keeps z s → Keeps z (x a s b) => ?_) ?_; rotate_left; subst x; rotate_left; try clear_value x)
    | (extract_lets +onlyGivenNames x; refine (fun hf6 : ∀ a, Keeps z (x a) => ?_) ?_; rotate_left; subst x; rotate_left; try clear_value x)
    | (extract_lets +onlyGivenNames x; clear_value x) | extract_lets | apply ite_keeps | apply hf0 | apply hf1
    | apply hf2 | apply hf3 | apply hf4 | apply hf5 | apply hf6
    | (refine Keeps.upd ?_; first | assumption | (refine Keeps.of_fst (by assumption) ?_) | (refine Keeps.of_snd (by assumption) ?_))
    | split | (refine Keeps.of_fst (by assumption) ?_) | (refine Keeps.of_snd (by assumption) ?_)

theorem State.wearSecond_keeps {z : State} {s : State} (hz : Keeps z s) :
    Keeps z (State.wearSecond s) := by
  unfold State.wearSecond
  with_reducible repeat' first
    | assumption | apply ite_keeps | apply State.wearAdd_keeps | apply forN_keeps | intro _ _ _ _ | intro _ _ _
    | intro _ _ | intro _ | (refine Keeps.upd ?_; first | assumption | apply State.wearAdd_keeps | apply forN_keeps)

theorem State.tick_keeps {z s : State} (hz : Keeps z s) : Keeps z s.tick := by
  unfold State.tick
  extract_lets base adv t second v u
  have hu : Keeps z u :=
    State.drivesTick_keeps (State.beamsTick_keeps (State.linesOver_keeps (State.applyAccept_keeps
      (State.refTick_keeps (Keeps.upd hz)))))
  exact ite_keeps (State.teleSecond_keeps (State.wearSecond_keeps hu)) hu

end Sys2Proof.Machine
end

