-- ==== Sys2Proof/Laws/KeepsDieTemp.lean ====
section
/-! SUPPORT. What every operation of Machine/DieTemp.lean keeps (Laws/Keeps.lean). -/
-- one script for every shape of goal: what a goal does not need is not reported
set_option linter.all false
namespace Sys2Proof.Machine

theorem State.binUpdate_keeps {z : State} {s : State} {y} (hz : Keeps z s) :
    Keeps z (State.binUpdate s y) := by
  unfold State.binUpdate
  with_reducible repeat' first
    | assumption
    | (extract_lets +onlyGivenNames x; refine (fun hx : Keeps z x => ?_) ?_; rotate_left; subst x; rotate_left; try clear_value x)
    | (extract_lets +onlyGivenNames x; clear_value x) | extract_lets | apply ite_keeps | apply State.applyBand_keeps
    | apply State.wrf_keeps
    | (refine Keeps.upd ?_; first | assumption | apply State.applyBand_keeps | apply State.wrf_keeps) | split
    | (refine Keeps.of_fst (by assumption) ?_) | (refine Keeps.of_snd (by assumption) ?_)

theorem State.damperUpdate_keeps {z : State} {s : State} (hz : Keeps z s) :
    Keeps z (State.damperUpdate s) := by
  unfold State.damperUpdate
  with_reducible repeat' first
    | assumption | apply ite_keeps | apply State.soot_keeps | apply State.wrf_keeps | apply State.irq_keeps
    | (refine Keeps.upd ?_; first | assumption | apply State.soot_keeps | apply State.wrf_keeps | apply State.irq_keeps)

theorem State.thmWritten_keeps {z : State} {s : State} {off} (hz : Keeps z s) :
    Keeps z (State.thmWritten s off) := by
  unfold State.thmWritten
  with_reducible repeat' first
    | assumption | apply ite_keeps | apply State.damperUpdate_keeps
    | (refine Keeps.upd ?_; first | assumption | apply State.damperUpdate_keeps)

theorem State.extPoint_keeps {z : State} {s : State} {x} {code} (hz : Keeps z s) :
    Keeps z (State.extPoint s x code) := by
  unfold State.extPoint
  with_reducible repeat' first
    | assumption | apply ite_keeps | apply State.soot_keeps | apply State.irq_keeps | apply State.wrs_keeps
    | (refine Keeps.upd ?_; first | assumption | apply State.soot_keeps | apply State.irq_keeps | apply State.wrs_keeps)

theorem State.judgeDie_keeps {z : State} {s : State} {old : State} {k} {t} (hz : Keeps z s) (hz1 : Keeps z old) :
    Keeps z (State.judgeDie s old k t) := by
  unfold State.judgeDie
  with_reducible repeat' first
    | assumption | apply ite_keeps | apply State.irq_keeps | apply State.soot_keeps | apply State.wrb_keeps
    | apply State.wr_keeps | apply State.setDie_keeps
    | (refine Keeps.upd ?_; first | assumption | apply State.irq_keeps | apply State.soot_keeps | apply State.wrb_keeps | apply State.wr_keeps | apply State.setDie_keeps)

theorem State.judgeThreshold_keeps {z : State} {s : State} {hot} {k} (hz : Keeps z s) :
    Keeps z (State.judgeThreshold s hot k).1 := by
  unfold State.judgeThreshold
  with_reducible repeat' first
    | assumption
    | (extract_lets +onlyGivenNames x; refine (fun hx : Keeps z x => ?_) ?_; rotate_left; subst x; rotate_left; try clear_value x)
    | (extract_lets +onlyGivenNames x; clear_value x) | extract_lets | apply ite_keeps
    | (refine Keeps.upd ?_; first | assumption) | split | (refine Keeps.of_fst (by assumption) ?_)
    | (refine Keeps.of_snd (by assumption) ?_)

theorem State.thermalShutdown_keeps {z : State} {s : State} (hz : Keeps z s) :
    Keeps z (State.thermalShutdown s) := by
  unfold State.thermalShutdown
  with_reducible repeat' first
    | assumption | apply ite_keeps | apply State.holdDevice_keeps | apply State.wrb_keeps | apply State.soot_keeps
    | (refine Keeps.upd ?_; first | assumption | apply State.holdDevice_keeps | apply State.wrb_keeps | apply State.soot_keeps)

theorem State.thresholdEvent_keeps {z : State} {s : State} {k} {on} (hz : Keeps z s) :
    Keeps z (State.thresholdEvent s k on) := by
  unfold State.thresholdEvent
  with_reducible repeat' first
    | assumption
    | (extract_lets +onlyGivenNames x; refine (fun hx : Keeps z x => ?_) ?_; rotate_left; subst x; rotate_left; try clear_value x)
    | (extract_lets +onlyGivenNames x; clear_value x) | extract_lets | apply ite_keeps
    | apply State.thermalShutdown_keeps | apply State.wrf_keeps | apply State.soot_keeps | apply State.wrb_keeps
    | apply State.irq_keeps
    | (refine Keeps.upd ?_; first | assumption | apply State.thermalShutdown_keeps | apply State.wrf_keeps | apply State.soot_keeps | apply State.wrb_keeps | apply State.irq_keeps)
    | split | (refine Keeps.of_fst (by assumption) ?_) | (refine Keeps.of_snd (by assumption) ?_)

theorem execThmPeakClear_keeps {z : State} {b} {v} {s : State} (hz : Keeps z s) :
    KeepsO z (execThmPeakClear b v s) := by
  unfold execThmPeakClear
  with_reducible repeat' first
    | assumption | apply ite_keeps | apply next_keepsO | apply ite_keepsO | apply refused_keepsO | apply fault_keepsO
    | apply State.wrf_keeps | apply busWrite_keeps | intro _ _ _ _ | intro _ _ _ | intro _ _ | intro _
    | (refine Keeps.upd ?_; first | assumption | apply State.wrf_keeps | apply busWrite_keeps)

theorem execMarkPauseEnd_keeps {z : State} {n} {s : State} (hz : Keeps z s) :
    KeepsO z (execMarkPauseEnd n s) := by
  unfold execMarkPauseEnd
  with_reducible repeat' first
    | assumption | apply ite_keeps | apply next_keepsO | apply ite_keepsO | apply refused_keepsO | apply fault_keepsO
    | apply State.setDamperPause_keeps | (refine Keeps.upd ?_; first | assumption | apply State.setDamperPause_keeps)

theorem execDamperStep_keeps {z : State} {s : State} (hz : Keeps z s) :
    KeepsO z (execDamperStep s) := by
  unfold execDamperStep
  with_reducible repeat' first
    | assumption | apply ite_keeps | apply next_keepsO | apply ite_keepsO | apply refused_keepsO | apply fault_keepsO
    | apply State.damperUpdate_keeps | apply State.wrf_keeps
    | (refine Keeps.upd ?_; first | assumption | apply State.damperUpdate_keeps | apply State.wrf_keeps)

theorem execShutdownPowerOff_keeps {z : State} {s : State} (hz : Keeps z s) :
    KeepsO z (execShutdownPowerOff s) := by
  unfold execShutdownPowerOff
  with_reducible repeat' first
    | assumption | apply ite_keeps | apply next_keepsO | apply ite_keepsO | apply refused_keepsO | apply fault_keepsO
    | apply State.domainOff_keeps | apply forL_keeps | apply forL_keeps_fst | intro _ _ _ _ | intro _ _ _ | intro _ _
    | intro _ | (refine Keeps.upd ?_; first | assumption | apply State.domainOff_keeps | apply forL_keeps)

theorem execDieSensorRound_keeps {z : State} {temps} {ext} {s : State} (hz : Keeps z s) :
    KeepsO z (execDieSensorRound temps ext s) := by
  unfold execDieSensorRound
  with_reducible repeat' first
    | assumption
    | (extract_lets +onlyGivenNames x; refine (fun hx : Keeps z x => ?_) ?_; rotate_left; subst x; rotate_left; try clear_value x)
    | (extract_lets +onlyGivenNames x; clear_value x) | extract_lets | apply ite_keeps | apply next_keepsO
    | apply ite_keepsO | apply refused_keepsO | apply fault_keepsO | apply State.bldcCurve_keeps
    | apply State.ddrTempCheck_keeps | apply State.binUpdate_keeps | apply State.extPoint_keeps
    | apply State.thermalShutdown_keeps | apply State.damperUpdate_keeps | apply State.thresholdEvent_keeps
    | apply State.judgeThreshold_keeps | apply State.soot_keeps | apply State.wrb_keeps | apply State.wrs_keeps
    | apply State.wrf_keeps | apply State.judgeDie_keeps | apply forN_keeps | intro _ _ _ _ | intro _ _ _ | intro _ _
    | intro _
    | (refine Keeps.upd ?_; first | assumption | apply State.bldcCurve_keeps | apply State.ddrTempCheck_keeps | apply State.binUpdate_keeps | apply State.extPoint_keeps | apply State.thermalShutdown_keeps | apply State.damperUpdate_keeps | apply State.thresholdEvent_keeps | apply State.judgeThreshold_keeps | apply State.soot_keeps | apply State.wrb_keeps | apply State.wrs_keeps | apply State.wrf_keeps | apply State.judgeDie_keeps | apply forN_keeps)
    | split | (refine Keeps.of_fst (by assumption) ?_) | (refine Keeps.of_snd (by assumption) ?_)

end Sys2Proof.Machine
end

