-- ==== Sys2Proof/Laws/KeepsDma.lean ====
section
/-! SUPPORT. What every operation of Machine/Dma.lean keeps (Laws/Keeps.lean). -/
-- one script for every shape of goal: what a goal does not need is not reported
set_option linter.all false
namespace Sys2Proof.Machine

theorem State.laneSet_keeps {z : State} {s : State} {l} {u} (hz : Keeps z s) :
    Keeps z (State.laneSet s l u) := by
  unfold State.laneSet
  with_reducible repeat' first
    | assumption | apply State.setLane_keeps | apply State.wrf_keeps

theorem State.boltFailed_keeps {z : State} {s : State} {l} {res} {chan} {addr} (hz : Keeps z s) :
    Keeps z (State.boltFailed s l res chan addr) := by
  unfold State.boltFailed
  with_reducible repeat' first
    | assumption | apply ite_keeps | apply State.irq_keeps | apply State.soot_keeps | apply State.laneSet_keeps
    | apply State.wr_keeps | apply State.cnt_keeps
    | (refine Keeps.upd ?_; first | assumption | apply State.irq_keeps | apply State.soot_keeps | apply State.laneSet_keeps | apply State.wr_keeps | apply State.cnt_keeps)

theorem State.boltShow_keeps {z : State} {s : State} {k} {res} {bytes} (hz : Keeps z s) :
    Keeps z (State.boltShow s k res bytes) := by
  unfold State.boltShow
  with_reducible repeat' first
    | assumption | apply State.wr_keeps

theorem State.setDmaSt_keeps {z : State} {s : State} {k} {st} (hz : Keeps z s) :
    Keeps z (State.setDmaSt s k st) := by
  unfold State.setDmaSt
  with_reducible repeat' first
    | assumption | apply State.wrf_keeps | apply State.wrb_keeps

theorem State.dmaIdle_keeps {z : State} {s : State} {k} (hz : Keeps z s) :
    Keeps z (State.dmaIdle s k) := by
  unfold State.dmaIdle
  with_reducible repeat' first
    | assumption | apply State.updDch_keeps | apply State.setDmaSt_keeps

theorem State.dmaCtrlWrite_keeps {z : State} {s : State} {k} {r} {on} (hz : Keeps z s) :
    Keeps z (State.dmaCtrlWrite s k r on) := by
  unfold State.dmaCtrlWrite
  with_reducible repeat' first
    | assumption | apply ite_keeps | apply State.setDmaSt_keeps | apply State.wrf_keeps | apply State.dmaIdle_keeps
    | apply State.updDch_keeps | apply State.wrb_keeps | apply State.soot_keeps
    | (refine Keeps.upd ?_; first | assumption | apply State.setDmaSt_keeps | apply State.wrf_keeps | apply State.dmaIdle_keeps | apply State.updDch_keeps | apply State.wrb_keeps | apply State.soot_keeps)

theorem State.dmaErr_keeps {z : State} {s : State} {k} {code} {addr} (hz : Keeps z s) :
    Keeps z (State.dmaErr s k code addr) := by
  unfold State.dmaErr
  with_reducible repeat' first
    | assumption | apply ite_keeps | apply State.wr_keeps | apply State.wrf_keeps
    | (refine Keeps.upd ?_; first | assumption | apply State.wr_keeps | apply State.wrf_keeps)

theorem State.genFail_keeps {z : State} {s : State} {k} {code} {addr} (hz : Keeps z s) :
    Keeps z (State.genFail s k code addr) := by
  unfold State.genFail
  with_reducible repeat' first
    | assumption
    | (extract_lets +onlyGivenNames x; refine (fun hx : Keeps z x => ?_) ?_; rotate_left; subst x; rotate_left; try clear_value x)
    | (extract_lets +onlyGivenNames x; clear_value x) | extract_lets | apply ite_keeps | apply State.soot_keeps
    | apply State.irq_keeps | apply State.dmaErr_keeps | apply State.setDmaSt_keeps | apply State.updDch_keeps
    | apply State.setLane_keeps | apply State.wrf_keeps
    | (refine Keeps.upd ?_; first | assumption | apply State.soot_keeps | apply State.irq_keeps | apply State.dmaErr_keeps | apply State.setDmaSt_keeps | apply State.updDch_keeps | apply State.setLane_keeps | apply State.wrf_keeps)
    | split | (refine Keeps.of_fst (by assumption) ?_) | (refine Keeps.of_snd (by assumption) ?_)

theorem State.genStart_keeps {z : State} {s : State} {k} {d} (hz : Keeps z s) :
    Keeps z (State.genStart s k d) := by
  unfold State.genStart
  with_reducible repeat' first
    | assumption
    | (extract_lets +onlyGivenNames x; refine (fun hx : Keeps z x => ?_) ?_; rotate_left; subst x; rotate_left; try clear_value x)
    | (extract_lets +onlyGivenNames x; clear_value x) | extract_lets | apply ite_keeps | apply State.setDmaSt_keeps
    | apply State.wrb_keeps | apply State.wr_keeps | apply State.genFail_keeps | apply State.updDch_keeps
    | (refine Keeps.upd ?_; first | assumption | apply State.setDmaSt_keeps | apply State.wrb_keeps | apply State.wr_keeps | apply State.genFail_keeps | apply State.updDch_keeps)
    | split | (refine Keeps.of_fst (by assumption) ?_) | (refine Keeps.of_snd (by assumption) ?_)

theorem State.laneDone_keeps {z : State} {s : State} {l} {k} {res} {out} (hz : Keeps z s) :
    Keeps z (State.laneDone s l k res out) := by
  unfold State.laneDone
  with_reducible repeat' first
    | assumption | apply State.boltShow_keeps | apply State.laneSet_keeps | apply State.updDch_keeps

theorem State.memRefused_keeps {z : State} {s : State} {r} {write} {k} {a} (hz : Keeps z s) :
    Keeps z (State.memRefused s r write k a) := by
  unfold State.memRefused
  with_reducible repeat' first
    | assumption | apply ite_keeps | apply State.cnt_keeps | apply State.refuse_keeps
    | (refine Keeps.upd ?_; first | assumption | apply State.cnt_keeps | apply State.refuse_keeps)

theorem State.ringWrite_keeps {z : State} {s : State} {n} {l} (hz : Keeps z s) :
    Keeps z (State.ringWrite s n l) := by
  unfold State.ringWrite
  with_reducible repeat' first
    | assumption | apply State.wrMem_keeps

theorem State.seqPulse_keeps {z : State} {s : State} {n} (hz : Keeps z s) :
    Keeps z (State.seqPulse s n) := by
  unfold State.seqPulse
  with_reducible repeat' first
    | assumption | apply State.updSeq_keeps

theorem State.stgRelease_keeps {z : State} {s : State} {n} {tag} (hz : Keeps z s) :
    Keeps z (State.stgRelease s n tag) := by
  unfold State.stgRelease
  with_reducible repeat' first
    | assumption | apply ite_keeps | apply State.dmkShow_keeps
    | (refine Keeps.upd ?_; first | assumption | apply State.dmkShow_keeps)

theorem State.weftContentError_keeps {z : State} {s : State} {n} {tag} (hz : Keeps z s) :
    Keeps z (State.weftContentError s n tag) := by
  unfold State.weftContentError
  with_reducible repeat' first
    | assumption | apply ite_keeps | apply State.soot_keeps | apply State.addCond_keeps | apply forL_keeps
    | apply forL_keeps_fst | intro _ _ _ _ | intro _ _ _ | intro _ _ | intro _
    | (refine Keeps.upd ?_; first | assumption | apply State.soot_keeps | apply State.addCond_keeps | apply forL_keeps)

theorem State.weftArrive_keeps {z : State} {s : State} {n} {d} {l} (hz : Keeps z s) :
    Keeps z (State.weftArrive s n d l) := by
  unfold State.weftArrive
  repeat' (first
    | with_reducible assumption
    | (extract_lets +onlyGivenNames x; refine (fun hx : Keeps z x => ?_) ?_; rotate_left; subst x; rotate_left; try clear_value x)
    | (extract_lets +onlyGivenNames x; refine (fun hx : Keeps z x.1 => ?_) ?_; rotate_left; subst x; rotate_left; try clear_value x)
    | (extract_lets +onlyGivenNames x; refine (fun hx : Keeps z x.2 => ?_) ?_; rotate_left; subst x; rotate_left; try clear_value x)
    | (extract_lets +onlyGivenNames x; refine (fun hf0 : ∀ s, Keeps z s → Keeps z (x s) => ?_) ?_; rotate_left; subst x; rotate_left; try clear_value x)
    | (extract_lets +onlyGivenNames x; refine (fun hf1 : ∀ s a, Keeps z s → Keeps z (x s a) => ?_) ?_; rotate_left; subst x; rotate_left; try clear_value x)
    | (extract_lets +onlyGivenNames x; refine (fun hf2 : ∀ a s, Keeps z s → Keeps z (x a s) => ?_) ?_; rotate_left; subst x; rotate_left; try clear_value x)
    | (extract_lets +onlyGivenNames x; refine (fun hf3 : ∀ s a b, Keeps z s → Keeps z (x s a b) => ?_) ?_; rotate_left; subst x; rotate_left; try clear_value x)
    | (extract_lets +onlyGivenNames x; refine (fun hf4 : ∀ a b s, Keeps z s → Keeps z (x a b s) => ?_) ?_; rotate_left; subst x; rotate_left; try clear_value x)
    | (extract_lets +onlyGivenNames x; refine (fun hf5 : ∀ a s b, Keeps z s → Keeps z (x a s b) => ?_) ?_; rotate_left; subst x; rotate_left; try clear_value x)
    | (extract_lets +onlyGivenNames x; refine (fun hf6 : ∀ a, Keeps z (x a) => ?_) ?_; rotate_left; subst x; rotate_left; try clear_value x)
    | (extract_lets +onlyGivenNames x; clear_value x)
    | extract_lets
    | with_reducible apply ite_keeps
    | with_reducible apply State.weftContentError_keeps
    | with_reducible apply State.updJob_keeps
    | with_reducible apply State.updRing_keeps
    | with_reducible apply State.ringWrite_keeps
    | with_reducible apply hf0
    | with_reducible apply hf1
    | with_reducible apply hf2
    | with_reducible apply hf3
    | with_reducible apply hf4
    | with_reducible apply hf5
    | with_reducible apply hf6
    | intro _ _ _ _
    | intro _ _ _
    | intro _ _
    | intro _
    | (with_reducible refine Keeps.upd ?_; first | with_reducible assumption | (with_reducible refine Keeps.of_fst (by with_reducible assumption) ?_) | (with_reducible refine Keeps.of_snd (by with_reducible assumption) ?_) | with_reducible apply State.weftContentError_keeps | with_reducible apply State.updJob_keeps | with_reducible apply State.updRing_keeps | with_reducible apply State.ringWrite_keeps)
    | split
    | (with_reducible refine Keeps.of_fst (by with_reducible assumption) ?_)
    | (with_reducible refine Keeps.of_snd (by with_reducible assumption) ?_)
    | fail)

theorem State.weftFail_keeps {z : State} {s : State} {n} {code} {addr} {d} (hz : Keeps z s) :
    Keeps z (State.weftFail s n code addr d) := by
  unfold State.weftFail
  with_reducible repeat' first
    | assumption | apply State.soot_keeps | apply State.irq_keeps | apply State.dmaIdle_keeps
    | apply State.panicUpdate_keeps | apply State.wrb_keeps | apply State.cnt_keeps
    | apply State.weftContentError_keeps | apply State.dmaErr_keeps | apply State.stgRelease_keeps

theorem execBoltLaneSelftestDone_keeps {z : State} {l} {pass} {s : State} (hz : Keeps z s) :
    KeepsO z (execBoltLaneSelftestDone l pass s) := by
  unfold execBoltLaneSelftestDone
  with_reducible repeat' first
    | assumption | apply ite_keeps | apply next_keepsO | apply ite_keepsO | apply refused_keepsO | apply fault_keepsO
    | apply State.soot_keeps | apply State.irq_keeps | apply State.laneSet_keeps
    | (refine Keeps.upd ?_; first | assumption | apply State.soot_keeps | apply State.irq_keeps | apply State.laneSet_keeps)

theorem execBoltDone_keeps {z : State} {l} {ecc} {s : State} (hz : Keeps z s) :
    KeepsO z (execBoltDone l ecc s) := by
  unfold execBoltDone
  repeat' (first
    | with_reducible assumption
    | (extract_lets +onlyGivenNames x; refine (fun hx : Keeps z x => ?_) ?_; rotate_left; subst x; rotate_left; try clear_value x)
    | (extract_lets +onlyGivenNames x; refine (fun hx : Keeps z x.1 => ?_) ?_; rotate_left; subst x; rotate_left; try clear_value x)
    | (extract_lets +onlyGivenNames x; refine (fun hx : Keeps z x.2 => ?_) ?_; rotate_left; subst x; rotate_left; try clear_value x)
    | (extract_lets +onlyGivenNames x; refine (fun hf0 : ∀ s, Keeps z s → Keeps z (x s) => ?_) ?_; rotate_left; subst x; rotate_left; try clear_value x)
    | (extract_lets +onlyGivenNames x; refine (fun ho0 : ∀ a, KeepsO z (x a) => ?_) ?_; rotate_left; subst x; rotate_left; try clear_value x)
    | (extract_lets +onlyGivenNames x; refine (fun ho1 : ∀ s, Keeps z s → KeepsO z (x s) => ?_) ?_; rotate_left; subst x; rotate_left; try clear_value x)
    | (extract_lets +onlyGivenNames x; refine (fun ho2 : ∀ s a, Keeps z s → KeepsO z (x s a) => ?_) ?_; rotate_left; subst x; rotate_left; try clear_value x)
    | (extract_lets +onlyGivenNames x; refine (fun hf1 : ∀ s a, Keeps z s → Keeps z (x s a) => ?_) ?_; rotate_left; subst x; rotate_left; try clear_value x)
    | (extract_lets +onlyGivenNames x; refine (fun hf2 : ∀ a s, Keeps z s → Keeps z (x a s) => ?_) ?_; rotate_left; subst x; rotate_left; try clear_value x)
    | (extract_lets +onlyGivenNames x; refine (fun hf3 : ∀ s a b, Keeps z s → Keeps z (x s a b) => ?_) ?_; rotate_left; subst x; rotate_left; try clear_value x)
    | (extract_lets +onlyGivenNames x; refine (fun hf4 : ∀ a b s, Keeps z s → Keeps z (x a b s) => ?_) ?_; rotate_left; subst x; rotate_left; try clear_value x)
    | (extract_lets +onlyGivenNames x; refine (fun hf5 : ∀ a s b, Keeps z s → Keeps z (x a s b) => ?_) ?_; rotate_left; subst x; rotate_left; try clear_value x)
    | (extract_lets +onlyGivenNames x; refine (fun hf6 : ∀ a, Keeps z (x a) => ?_) ?_; rotate_left; subst x; rotate_left; try clear_value x)
    | (extract_lets +onlyGivenNames x; clear_value x)
    | extract_lets
    | with_reducible apply ite_keeps
    | with_reducible apply next_keepsO
    | with_reducible apply ite_keepsO
    | with_reducible apply refused_keepsO
    | with_reducible apply fault_keepsO
    | with_reducible apply State.laneDone_keeps
    | with_reducible apply State.memRefused_keeps
    | with_reducible apply State.updDch_keeps
    | with_reducible apply State.boltShow_keeps
    | with_reducible apply State.genFail_keeps
    | with_reducible apply State.cntW_keeps
    | with_reducible apply State.boltFailed_keeps
    | with_reducible apply State.laneSet_keeps
    | with_reducible apply hf0
    | with_reducible apply hf1
    | with_reducible apply hf2
    | with_reducible apply hf3
    | with_reducible apply hf4
    | with_reducible apply hf5
    | with_reducible apply hf6
    | with_reducible apply ho0
    | with_reducible apply ho1
    | with_reducible apply ho2
    | intro _ _ _ _
    | intro _ _ _
    | intro _ _
    | intro _
    | (with_reducible refine Keeps.upd ?_; first | with_reducible assumption | (with_reducible refine Keeps.of_fst (by with_reducible assumption) ?_) | (with_reducible refine Keeps.of_snd (by with_reducible assumption) ?_) | with_reducible apply State.laneDone_keeps | with_reducible apply State.memRefused_keeps | with_reducible apply State.updDch_keeps | with_reducible apply State.boltShow_keeps | with_reducible apply State.genFail_keeps | with_reducible apply State.cntW_keeps | with_reducible apply State.boltFailed_keeps | with_reducible apply State.laneSet_keeps)
    | split
    | (with_reducible refine Keeps.of_fst (by with_reducible assumption) ?_)
    | (with_reducible refine Keeps.of_snd (by with_reducible assumption) ?_)
    | fail)

theorem execBoltLaneAcquire_keeps {z : State} {l} {s : State} (hz : Keeps z s) :
    KeepsO z (execBoltLaneAcquire l s) := by
  unfold execBoltLaneAcquire
  with_reducible repeat' first
    | assumption | (extract_lets +onlyGivenNames x; clear_value x) | extract_lets | apply ite_keeps
    | apply next_keepsO | apply ite_keepsO | apply refused_keepsO | apply fault_keepsO | apply State.updDch_keeps
    | apply State.setDmaSt_keeps | apply State.laneSet_keeps
    | (refine Keeps.upd ?_; first | assumption | apply State.updDch_keeps | apply State.setDmaSt_keeps | apply State.laneSet_keeps)
    | split | (refine Keeps.of_fst (by assumption) ?_) | (refine Keeps.of_snd (by assumption) ?_)

theorem execDmaDisable_keeps {z : State} {b} {k} {s : State} (hz : Keeps z s) :
    KeepsO z (execDmaDisable b k s) := by
  unfold execDmaDisable
  with_reducible repeat' first
    | assumption | apply ite_keeps | apply next_keepsO | apply ite_keepsO | apply refused_keepsO | apply fault_keepsO
    | apply State.dmaCtrlWrite_keeps | apply busWrite_keeps | intro _ _ _ _ | intro _ _ _ | intro _ _ | intro _
    | (refine Keeps.upd ?_; first | assumption | apply State.dmaCtrlWrite_keeps | apply busWrite_keeps)

theorem execDmaEnable_keeps {z : State} {b} {k} {s : State} (hz : Keeps z s) :
    KeepsO z (execDmaEnable b k s) := by
  unfold execDmaEnable
  with_reducible repeat' first
    | assumption | apply ite_keeps | apply next_keepsO | apply ite_keepsO | apply refused_keepsO | apply fault_keepsO
    | apply State.dmaCtrlWrite_keeps | apply busWrite_keeps | intro _ _ _ _ | intro _ _ _ | intro _ _ | intro _
    | (refine Keeps.upd ?_; first | assumption | apply State.dmaCtrlWrite_keeps | apply busWrite_keeps)

theorem execGenDescriptorTake_keeps {z : State} {k} {chainOk} {s : State} (hz : Keeps z s) :
    KeepsO z (execGenDescriptorTake k chainOk s) := by
  unfold execGenDescriptorTake
  with_reducible repeat' first
    | assumption | (extract_lets +onlyGivenNames x; clear_value x) | extract_lets | apply ite_keeps
    | apply next_keepsO | apply ite_keepsO | apply refused_keepsO | apply fault_keepsO | apply State.qDrop_keeps
    | apply State.updDch_keeps | apply State.genStart_keeps | apply State.memRefused_keeps | apply State.genFail_keeps
    | (refine Keeps.upd ?_; first | assumption | apply State.qDrop_keeps | apply State.updDch_keeps | apply State.genStart_keeps | apply State.memRefused_keeps | apply State.genFail_keeps)
    | split | (refine Keeps.of_fst (by assumption) ?_) | (refine Keeps.of_snd (by assumption) ?_)

theorem execWeftTransferComplete_keeps {z : State} {n} {r} {s : State} (hz : Keeps z s) :
    KeepsO z (execWeftTransferComplete n r s) := by
  unfold execWeftTransferComplete
  with_reducible repeat' first
    | assumption
    | (extract_lets +onlyGivenNames x; refine (fun hx : Keeps z x => ?_) ?_; rotate_left; subst x; rotate_left; try clear_value x)
    | (extract_lets +onlyGivenNames x; clear_value x) | extract_lets | apply ite_keeps | apply next_keepsO
    | apply ite_keepsO | apply refused_keepsO | apply fault_keepsO | apply State.dmaIdle_keeps
    | apply State.panicUpdate_keeps | apply State.cntW_keeps | apply State.wr_keeps | apply State.weftArrive_keeps
    | apply State.stgRelease_keeps | apply State.seqPulse_keeps | apply State.memRefused_keeps
    | apply State.weftFail_keeps
    | (refine Keeps.upd ?_; first | assumption | apply State.dmaIdle_keeps | apply State.panicUpdate_keeps | apply State.cntW_keeps | apply State.wr_keeps | apply State.weftArrive_keeps | apply State.stgRelease_keeps | apply State.seqPulse_keeps | apply State.memRefused_keeps | apply State.weftFail_keeps)
    | split | (refine Keeps.of_fst (by assumption) ?_) | (refine Keeps.of_snd (by assumption) ?_)

theorem execWeftTransferStart_keeps {z : State} {n} {s : State} (hz : Keeps z s) :
    KeepsO z (execWeftTransferStart n s) := by
  unfold execWeftTransferStart
  with_reducible repeat' first
    | assumption | (extract_lets +onlyGivenNames x; clear_value x) | extract_lets | apply ite_keeps
    | apply next_keepsO | apply ite_keepsO | apply refused_keepsO | apply fault_keepsO | apply State.updDch_keeps
    | apply State.setDmaSt_keeps
    | (refine Keeps.upd ?_; first | assumption | apply State.updDch_keeps | apply State.setDmaSt_keeps) | split
    | (refine Keeps.of_fst (by assumption) ?_) | (refine Keeps.of_snd (by assumption) ?_)

theorem execWeftDescriptorTake_keeps {z : State} {n} {s : State} (hz : Keeps z s) :
    KeepsO z (execWeftDescriptorTake n s) := by
  unfold execWeftDescriptorTake
  with_reducible repeat' first
    | assumption
    | (extract_lets +onlyGivenNames x; refine (fun hx : Keeps z x => ?_) ?_; rotate_left; subst x; rotate_left; try clear_value x)
    | (extract_lets +onlyGivenNames x; clear_value x) | extract_lets | apply ite_keeps | apply next_keepsO
    | apply ite_keepsO | apply refused_keepsO | apply fault_keepsO | apply State.setDmaSt_keeps
    | apply State.panicUpdate_keeps | apply State.wr_keeps | apply State.updDch_keeps | apply State.weftFail_keeps
    | apply State.qDrop_keeps
    | (refine Keeps.upd ?_; first | assumption | apply State.setDmaSt_keeps | apply State.panicUpdate_keeps | apply State.wr_keeps | apply State.updDch_keeps | apply State.weftFail_keeps | apply State.qDrop_keeps)
    | split | (refine Keeps.of_fst (by assumption) ?_) | (refine Keeps.of_snd (by assumption) ?_)

end Sys2Proof.Machine
end

