-- ==== Sys2Proof/Laws/KeepsJobs.lean ====
section
/-! SUPPORT. What every operation of Machine/Jobs.lean keeps (Laws/Keeps.lean). -/
-- one script for every shape of goal: what a goal does not need is not reported
set_option linter.all false
namespace Sys2Proof.Machine

theorem State.admitMark_keeps {z : State} {s : State} {n} {r} {trig} {m} (hz : Keeps z s) :
    Keeps z (State.admitMark s n r trig m).1 := by
  unfold State.admitMark
  with_reducible repeat' first
    | assumption
    | (extract_lets +onlyGivenNames x; refine (fun hx : Keeps z x => ?_) ?_; rotate_left; subst x; rotate_left; try clear_value x)
    | (extract_lets +onlyGivenNames x; clear_value x) | extract_lets | apply ite_keeps
    | apply State.renderRequest_keeps | apply State.cntW_keeps | apply State.chanShow_keeps
    | apply State.updChan_keeps | apply State.setJob_keeps | apply State.leaveOut_keeps | apply State.wr_keeps
    | (refine Keeps.upd ?_; first | assumption | apply State.renderRequest_keeps | apply State.cntW_keeps | apply State.chanShow_keeps | apply State.updChan_keeps | apply State.setJob_keeps | apply State.leaveOut_keeps | apply State.wr_keeps)
    | split | (refine Keeps.of_fst (by assumption) ?_) | (refine Keeps.of_snd (by assumption) ?_)

theorem State.memberAdmit_keeps {z : State}
    {nested : Nat → Word → Nat → Option (Nat × Nat) → BitVec 4 → State → State × BitVec 4 × JobSt × Nat}
    {k : Nat} {r : AdmitReq} {trig : Word} {own : Option (Nat × Nat)} {refuse : BitVec 4} {s : State} {out : Bool}
    {im : Nat × Nat} (hn : ∀ k t p o v s, Keeps z s → Keeps z (nested k t p o v s).1) (hz : Keeps z s) :
    Keeps z (State.memberAdmit nested k r trig own refuse s out im).1 := by
  unfold State.memberAdmit
  extract_lets ofs p
  have hq : ∀ q : State × BitVec 4 × JobSt, Keeps z q.1 → Keeps z (match q with
      | (s, v, exit) => match own with
        | none => (s, out || v != 0)
        | some (_, sj) => if v = 0 then (s, out) else
            (s.stnCount k sj v exit, out || exit == JobSt.refused || exit == JobSt.missed)).1 := by
    rintro ⟨u, v, e⟩ hu
    dsimp only
    split
    · exact hu
    · exact ite_keeps_fst hu (State.stnCount_keeps hu)
  apply hq
  refine ite_keeps_fst ?_ ?_
  · have h3 : ∀ q : State × BitVec 4 × Nat, Keeps z q.1 →
        Keeps z (match q with | (s, v, _) => (s, v, JobSt.refused)).1 := by
      rintro ⟨u, v, j⟩ hu
      exact hu
    exact h3 _ (State.admitMark_keeps hz)
  · have h4 : ∀ q : State × BitVec 4 × JobSt × Nat, Keeps z q.1 →
        Keeps z (match q with | (s, v, exit, _) => (s, v, exit)).1 := by
      rintro ⟨u, v, e, j⟩ hu
      exact hu
    exact h4 _ (hn _ _ _ _ _ _ hz)

theorem State.stationAdmit_keeps {z : State}
    {nested : Nat → Word → Nat → Option (Nat × Nat) → BitVec 4 → State → State × BitVec 4 × JobSt × Nat}
    {k : Nat} {r : AdmitReq} {trig : Word} {part : Nat} {parent : Option (Nat × Nat)} {refuse : BitVec 4} {s : State}
    (hn : ∀ k t p o v s, Keeps z s → Keeps z (nested k t p o v s).1) (hz : Keeps z s) :
    Keeps z (State.stationAdmit nested k r trig part parent refuse s).1 := by
  unfold State.stationAdmit
  extract_lets full refuse members seq s1 sj sel e0 e own s2 s3
  have h1 : Keeps z s1 := State.wr_keeps hz
  have h3 : Keeps z s3 := State.usedShow_keeps (ite_keeps h1 (State.setStnJob_keeps h1))
  clear_value s3
  have hf : Keeps z (members.foldl (fun a im => State.memberAdmit nested k r trig own refuse a.1 a.2 im) (s3, false)).1 :=
    foldl_keeps_fst (fun _ _ h => State.memberAdmit_keeps hn h) h3
  generalize members.foldl _ _ = q at hf
  obtain ⟨u, out⟩ := q
  have hf : Keeps z u := hf
  dsimp only
  refine ite_keeps_fst hf ?_
  have hu : Keeps z (if (out && u.rdb (Reg.stnCfg k) 1) = true then u.stnInhibit 4 k sj else u) :=
    ite_keeps (State.stnInhibit_keeps hf) hf
  generalize (if (out && u.rdb (Reg.stnCfg k) 1) = true then u.stnInhibit 4 k sj else u) = w at hu
  exact ite_keeps_fst (State.stnClose_keeps hu) (State.renderRequest_keeps (State.cntW_keeps hu))

theorem State.admitStation_keeps {z : State} {fuel k : Nat} {r : AdmitReq} {trig : Word} {part : Nat}
    {parent : Option (Nat × Nat)} {refuse : BitVec 4} {s : State} (hz : Keeps z s) :
    Keeps z (State.admitStation fuel k r trig part parent refuse s).1 := by
  induction fuel generalizing k trig part parent refuse s with
  | zero => exact hz
  | succ fuel ih => exact State.stationAdmit_keeps (fun _ _ _ _ _ _ h => ih h) hz

theorem State.admitManual_keeps {z : State} {s : State} {u} {r} {pos} (hz : Keeps z s) :
    Keeps z (State.admitManual s u r pos).1 := by
  unfold State.admitManual
  with_reducible repeat' first
    | assumption
    | (extract_lets +onlyGivenNames x; refine (fun hx : Keeps z x => ?_) ?_; rotate_left; subst x; rotate_left; try clear_value x)
    | (extract_lets +onlyGivenNames x; refine (fun hx : Keeps z x.1 => ?_) ?_; rotate_left; subst x; rotate_left; try clear_value x)
    | (extract_lets +onlyGivenNames x; refine (fun hx : Keeps z x.2 => ?_) ?_; rotate_left; subst x; rotate_left; try clear_value x)
    | (extract_lets +onlyGivenNames x; refine (fun hf0 : ∀ s, Keeps z s → Keeps z (x s) => ?_) ?_; rotate_left; subst x; rotate_left; try clear_value x)
    | (extract_lets +onlyGivenNames x; refine (fun hf1 : ∀ s a, Keeps z s → Keeps z (x s a) => ?_) ?_; rotate_left; subst x; rotate_left; try clear_value x)
    | (extract_lets +onlyGivenNames x; refine (fun hf2 : ∀ a s, Keeps z s → Keeps z (x a s) => ?_) ?_; rotate_left; subst x; rotate_left; try clear_value x)
    | (extract_lets +onlyGivenNames x; refine (fun hf3 : ∀ s a b, Keeps z s → Keeps z (x s a b) => ?_) ?_; rotate_left; subst x; rotate_left; try clear_value x)
    | (extract_lets +onlyGivenNames x; refine (fun hf4 : ∀ a b s, Keeps z s → Keeps z (x a b s) => ?_) ?_; rotate_left; subst x; rotate_left; try clear_value x)
    | (extract_lets +onlyGivenNames x; refine (fun hf5 : ∀ a s b, Keeps z s → Keeps z (x a s b) => ?_) ?_; rotate_left; subst x; rotate_left; try clear_value x)
    | (extract_lets +onlyGivenNames x; refine (fun hf6 : ∀ a, Keeps z (x a) => ?_) ?_; rotate_left; subst x; rotate_left; try clear_value x)
    | (extract_lets +onlyGivenNames x; clear_value x) | extract_lets | apply ite_keeps
    | apply State.admitStation_keeps | apply State.admitMark_keeps | apply hf0 | apply hf1 | apply hf2 | apply hf3
    | apply hf4 | apply hf5 | apply hf6
    | (refine Keeps.upd ?_; first | assumption | (refine Keeps.of_fst (by assumption) ?_) | (refine Keeps.of_snd (by assumption) ?_) | apply State.admitStation_keeps | apply State.admitMark_keeps)
    | split | (refine Keeps.of_fst (by assumption) ?_) | (refine Keeps.of_snd (by assumption) ?_)

theorem State.badPost_keeps {z : State} {s : State} {n} (hz : Keeps z s) :
    Keeps z (State.badPost s n) := by
  unfold State.badPost
  with_reducible repeat' first
    | assumption | apply State.cnt_keeps

theorem State.stnShowMembers_keeps {z : State} {s : State} {k} (hz : Keeps z s) :
    Keeps z (State.stnShowMembers s k) := by
  unfold State.stnShowMembers
  with_reducible repeat' first
    | assumption | apply State.wrb_keeps | apply State.wr_keeps | apply foldl_keeps_fst | apply foldl_keeps

theorem State.cancelJob_keeps {z : State} {s : State} {u} {j} (hz : Keeps z s) :
    Keeps z (State.cancelJob s u j).1 := by
  unfold State.cancelJob
  with_reducible repeat' first
    | assumption
    | (extract_lets +onlyGivenNames x; refine (fun hx : Keeps z x => ?_) ?_; rotate_left; subst x; rotate_left; try clear_value x)
    | (extract_lets +onlyGivenNames x; clear_value x) | extract_lets | apply ite_keeps | apply State.stnLeft_keeps
    | apply State.stnClose_keeps | apply State.stnInhibit_keeps | apply State.jobLeaveWith_keeps
    | (refine Keeps.upd ?_; first | assumption | apply State.stnLeft_keeps | apply State.stnClose_keeps | apply State.stnInhibit_keeps | apply State.jobLeaveWith_keeps)
    | split | (refine Keeps.of_fst (by assumption) ?_) | (refine Keeps.of_snd (by assumption) ?_)

theorem State.stnEmptyClose_keeps {z : State} {s : State} {k} {sj} {x} (hz : Keeps z s) :
    Keeps z (State.stnEmptyClose s k sj x) := by
  unfold State.stnEmptyClose
  with_reducible repeat' first
    | assumption | (extract_lets +onlyGivenNames x; clear_value x) | extract_lets | apply ite_keeps
    | apply State.stnClose_keeps | apply State.stnLeft_keeps
    | (refine Keeps.upd ?_; first | assumption | apply State.stnClose_keeps | apply State.stnLeft_keeps) | split
    | (refine Keeps.of_fst (by assumption) ?_) | (refine Keeps.of_snd (by assumption) ?_)

theorem State.stnInhibitJob_keeps {z : State} {s : State} {k} {sj} (hz : Keeps z s) :
    Keeps z (State.stnInhibitJob s k sj) := by
  unfold State.stnInhibitJob
  with_reducible repeat' first
    | assumption | apply State.stnEmptyClose_keeps | apply State.stnInhibit_keeps

theorem State.stnShow_keeps {z : State} {s : State} {k} (hz : Keeps z s) :
    Keeps z (State.stnShow s k) := by
  unfold State.stnShow
  with_reducible repeat' first
    | assumption | apply State.setStat_keeps | apply State.wrb_keeps

theorem State.stnInhibitAll_keeps {z : State} {s : State} {k} (hz : Keeps z s) :
    Keeps z (State.stnInhibitAll s k) := by
  unfold State.stnInhibitAll
  with_reducible repeat' first
    | assumption | apply ite_keeps | apply State.stnInhibitJob_keeps | apply State.stnShow_keeps | apply forL_keeps
    | apply forL_keeps_fst | intro _ _ _ _ | intro _ _ _ | intro _ _ | intro _
    | (refine Keeps.upd ?_; first | assumption | apply State.stnInhibitJob_keeps | apply State.stnShow_keeps | apply forL_keeps)

theorem State.edgeApply_keeps {z : State} {s : State} {n} {e} {pinBad} (hz : Keeps z s) :
    Keeps z (State.edgeApply s n e pinBad) := by
  unfold State.edgeApply
  with_reducible repeat' first
    | assumption | apply ite_keeps | apply State.thermTrigger_keeps | apply State.laserTrigger_keeps
    | apply State.updChan_keeps
    | (refine Keeps.upd ?_; first | assumption | apply State.thermTrigger_keeps | apply State.laserTrigger_keeps | apply State.updChan_keeps)

theorem State.edgeLate_keeps {z : State} {s : State} {n} {e} (hz : Keeps z s) :
    Keeps z (State.edgeLate s n e) := by
  unfold State.edgeLate
  with_reducible repeat' first
    | assumption | apply State.condMarking_keeps | apply State.chanEvent_keeps | apply State.soot_keeps
    | apply State.updSeq_keeps | apply State.cnt_keeps | apply State.edgeApply_keeps

theorem State.edgeInsert_keeps {z : State} {s : State} {n} {e} (hz : Keeps z s) :
    Keeps z (State.edgeInsert s n e) := by
  unfold State.edgeInsert
  with_reducible repeat' first
    | assumption | apply ite_keeps | apply State.updSeq_keeps | apply State.edgeLate_keeps
    | (refine Keeps.upd ?_; first | assumption | apply State.updSeq_keeps | apply State.edgeLate_keeps)

theorem State.port_keeps {z : State} {s : State} {n} {eff} (hz : Keeps z s) (heff : ∀ u0, Keeps z u0 → Keeps z (eff u0)) :
    KeepsO z (State.port s n eff) := by
  unfold State.port
  with_reducible repeat' first
    | assumption | apply ite_keeps | apply next_keepsO | apply ite_keepsO | apply refused_keepsO | apply fault_keepsO
    | apply heff | (refine Keeps.upd ?_; first | assumption)

theorem State.progStore_keeps {z : State} {s : State} {n} {img} (hz : Keeps z s) :
    Keeps z (State.progStore s n img) := by
  unfold State.progStore
  with_reducible repeat' first
    | assumption | apply State.updSeq_keeps

theorem State.readyReturn_keeps {z : State} {s : State} (hz : Keeps z s) :
    Keeps z (State.readyReturn s) := by
  unfold State.readyReturn
  with_reducible repeat' first
    | assumption | apply ite_keeps | apply State.irq_keeps | apply State.wrf_keeps
    | (refine Keeps.upd ?_; first | assumption | apply State.irq_keeps | apply State.wrf_keeps)

theorem State.selftestStop_keeps {z : State} {s : State} {n} (hz : Keeps z s) :
    Keeps z (State.selftestStop s n) := by
  unfold State.selftestStop
  with_reducible repeat' first
    | assumption
    | (extract_lets +onlyGivenNames x; refine (fun hx : Keeps z x => ?_) ?_; rotate_left; subst x; rotate_left; try clear_value x)
    | (extract_lets +onlyGivenNames x; refine (fun hx : Keeps z x.1 => ?_) ?_; rotate_left; subst x; rotate_left; try clear_value x)
    | (extract_lets +onlyGivenNames x; refine (fun hx : Keeps z x.2 => ?_) ?_; rotate_left; subst x; rotate_left; try clear_value x)
    | (extract_lets +onlyGivenNames x; refine (fun hf0 : ∀ s, Keeps z s → Keeps z (x s) => ?_) ?_; rotate_left; subst x; rotate_left; try clear_value x)
    | (extract_lets +onlyGivenNames x; refine (fun hf1 : ∀ s a, Keeps z s → Keeps z (x s a) => ?_) ?_; rotate_left; subst x; rotate_left; try clear_value x)
    | (extract_lets +onlyGivenNames x; refine (fun hf2 : ∀ a s, Keeps z s → Keeps z (x a s) => ?_) ?_; rotate_left; subst x; rotate_left; try clear_value x)
    | (extract_lets +onlyGivenNames x; refine (fun hf3 : ∀ s a b, Keeps z s → Keeps z (x s a b) => ?_) ?_; rotate_left; subst x; rotate_left; try clear_value x)
    | (extract_lets +onlyGivenNames x; refine (fun hf4 : ∀ a b s, Keeps z s → Keeps z (x a b s) => ?_) ?_; rotate_left; subst x; rotate_left; try clear_value x)
    | (extract_lets +onlyGivenNames x; refine (fun hf5 : ∀ a s b, Keeps z s → Keeps z (x a s b) => ?_) ?_; rotate_left; subst x; rotate_left; try clear_value x)
    | (extract_lets +onlyGivenNames x; refine (fun hf6 : ∀ a, Keeps z (x a) => ?_) ?_; rotate_left; subst x; rotate_left; try clear_value x)
    | (extract_lets +onlyGivenNames x; clear_value x) | extract_lets | apply ite_keeps | apply State.wrb_keeps
    | apply State.updSeq_keeps | apply hf0 | apply hf1 | apply hf2 | apply hf3 | apply hf4 | apply hf5 | apply hf6
    | (refine Keeps.upd ?_; first | assumption | (refine Keeps.of_fst (by assumption) ?_) | (refine Keeps.of_snd (by assumption) ?_) | apply State.wrb_keeps | apply State.updSeq_keeps)
    | split | (refine Keeps.of_fst (by assumption) ?_) | (refine Keeps.of_snd (by assumption) ?_)

theorem State.seqFail_keeps {z : State} {s : State} {n} {cause} (hz : Keeps z s) :
    Keeps z (State.seqFail s n cause) := by
  unfold State.seqFail
  with_reducible repeat' first
    | assumption | apply ite_keeps | apply State.abortChannelJobs_keeps | apply State.soot_keeps
    | apply State.selftestStop_keeps | apply State.updSeq_keeps | apply State.wrb_keeps | apply State.wrf_keeps
    | (refine Keeps.upd ?_; first | assumption | apply State.abortChannelJobs_keeps | apply State.soot_keeps | apply State.selftestStop_keeps | apply State.updSeq_keeps | apply State.wrb_keeps | apply State.wrf_keeps)

theorem State.seqCtrlWrite_keeps {z : State} {s : State} {n} {v} (hz : Keeps z s) :
    Keeps z (State.seqCtrlWrite s n v) := by
  unfold State.seqCtrlWrite
  with_reducible repeat' first
    | assumption | apply ite_keeps | apply State.updSeq_keeps | apply State.wrb_keeps | apply State.wrf_keeps
    | apply State.wr_keeps
    | (refine Keeps.upd ?_; first | assumption | apply State.updSeq_keeps | apply State.wrb_keeps | apply State.wrf_keeps | apply State.wr_keeps)

theorem State.stnCfgWrite_keeps {z : State} {s : State} {k} {off} {v} (hz : Keeps z s) :
    Keeps z (State.stnCfgWrite s k off v) := by
  unfold State.stnCfgWrite
  with_reducible repeat' first
    | assumption | apply ite_keeps | apply State.soot_keeps | apply State.stnShowMembers_keeps
    | apply State.plainWrite_keeps
    | (refine Keeps.upd ?_; first | assumption | apply State.soot_keeps | apply State.stnShowMembers_keeps | apply State.plainWrite_keeps)

theorem State.swapFail_keeps {z : State} {s : State} {n} (hz : Keeps z s) :
    Keeps z (State.swapFail s n) := by
  unfold State.swapFail
  with_reducible repeat' first
    | assumption | apply State.showSrc_keeps | apply State.safeUpdate_keeps | apply State.updSrc_keeps
    | apply State.chanEvent_keeps | apply State.wrf_keeps | apply State.soot_keeps

theorem State.unitStart_keeps {z : State} {s : State} {u} (hz : Keeps z s) :
    Keeps z (State.unitStart s u) := by
  unfold State.unitStart
  with_reducible repeat' first
    | assumption
    | (extract_lets +onlyGivenNames x; refine (fun hx : Keeps z x => ?_) ?_; rotate_left; subst x; rotate_left; try clear_value x)
    | (extract_lets +onlyGivenNames x; clear_value x) | extract_lets | apply ite_keeps | apply State.stnShow_keeps
    | apply State.soot_keeps | apply State.tagAuthStart_keeps | apply State.wrb_keeps | apply State.chanShow_keeps
    | apply State.readyReturn_keeps
    | (refine Keeps.upd ?_; first | assumption | apply State.stnShow_keeps | apply State.soot_keeps | apply State.tagAuthStart_keeps | apply State.wrb_keeps | apply State.chanShow_keeps | apply State.readyReturn_keeps)
    | split | (refine Keeps.of_fst (by assumption) ?_) | (refine Keeps.of_snd (by assumption) ?_)

theorem State.unitStop_keeps {z : State} {s : State} {u} (hz : Keeps z s) :
    Keeps z (State.unitStop s u) := by
  unfold State.unitStop
  with_reducible repeat' first
    | assumption
    | (extract_lets +onlyGivenNames x; refine (fun hx : Keeps z x => ?_) ?_; rotate_left; subst x; rotate_left; try clear_value x)
    | (extract_lets +onlyGivenNames x; clear_value x) | extract_lets | apply ite_keeps
    | apply State.stnInhibitAll_keeps | apply State.chanShow_keeps | apply State.enableCheck_keeps
    | apply State.tagWritebackStart_keeps | apply State.wrb_keeps | apply State.inhibitJobs_keeps
    | (refine Keeps.upd ?_; first | assumption | apply State.stnInhibitAll_keeps | apply State.chanShow_keeps | apply State.enableCheck_keeps | apply State.tagWritebackStart_keeps | apply State.wrb_keeps | apply State.inhibitJobs_keeps)
    | split | (refine Keeps.of_fst (by assumption) ?_) | (refine Keeps.of_snd (by assumption) ?_)

theorem execStationConfigWrite_keeps {z : State} {b} {k} {off} {v} {s : State} (hz : Keeps z s) :
    KeepsO z (execStationConfigWrite b k off v s) := by
  unfold execStationConfigWrite
  with_reducible repeat' first
    | assumption | apply ite_keeps | apply next_keepsO | apply ite_keepsO | apply refused_keepsO | apply fault_keepsO
    | apply State.stnCfgWrite_keeps | apply rwl_keeps | apply busWrite_keeps | intro _ _ _ _ | intro _ _ _ | intro _ _
    | intro _
    | (refine Keeps.upd ?_; first | assumption | apply State.stnCfgWrite_keeps | apply rwl_keeps | apply busWrite_keeps)

theorem execJobEntryCapture_keeps {z : State} {b} {u} {v} {s : State} (hz : Keeps z s) :
    KeepsO z (execJobEntryCapture b u v s) := by
  unfold execJobEntryCapture
  with_reducible repeat' first
    | assumption | apply ite_keeps | apply next_keepsO | apply ite_keepsO | apply refused_keepsO | apply fault_keepsO
    | apply State.plainWrite_keeps | apply State.wrWords_keeps | apply busWrite_keeps | intro _ _ _ _ | intro _ _ _
    | intro _ _ | intro _
    | (refine Keeps.upd ?_; first | assumption | apply State.plainWrite_keeps | apply State.wrWords_keeps | apply busWrite_keeps)

theorem execJobCancel_keeps {z : State} {b} {u} {v} {s : State} (hz : Keeps z s) :
    KeepsO z (execJobCancel b u v s) := by
  unfold execJobCancel
  with_reducible repeat' first
    | assumption | apply ite_keeps | apply next_keepsO | apply ite_keepsO | apply refused_keepsO | apply fault_keepsO
    | apply State.wrf_keeps | apply State.cancelJob_keeps | apply busWrite_keeps | intro _ _ _ _ | intro _ _ _
    | intro _ _ | intro _
    | (refine Keeps.upd ?_; first | assumption | apply State.wrf_keeps | apply State.cancelJob_keeps | apply busWrite_keeps)

theorem execManualAdmit_keeps {z : State} {b} {u} {v} {s : State} (hz : Keeps z s) :
    KeepsO z (execManualAdmit b u v s) := by
  unfold execManualAdmit
  with_reducible repeat' first
    | assumption | (extract_lets +onlyGivenNames x; clear_value x) | extract_lets | apply ite_keeps
    | apply next_keepsO | apply ite_keepsO | apply refused_keepsO | apply fault_keepsO | apply State.wr_keeps
    | apply State.admitManual_keeps | apply busWrite_keeps | intro _ _ _ _ | intro _ _ _ | intro _ _ | intro _
    | (refine Keeps.upd ?_; first | assumption | apply State.wr_keeps | apply State.admitManual_keeps | apply busWrite_keeps)
    | split | (refine Keeps.of_fst (by assumption) ?_) | (refine Keeps.of_snd (by assumption) ?_)

theorem execChjPeakClear_keeps {z : State} {b} {u} {v} {s : State} (hz : Keeps z s) :
    KeepsO z (execChjPeakClear b u v s) := by
  unfold execChjPeakClear
  with_reducible repeat' first
    | assumption | apply ite_keeps | apply next_keepsO | apply ite_keepsO | apply refused_keepsO | apply fault_keepsO
    | apply State.wrf_keeps | apply busWrite_keeps | intro _ _ _ _ | intro _ _ _ | intro _ _ | intro _
    | (refine Keeps.upd ?_; first | assumption | apply State.wrf_keeps | apply busWrite_keeps)

theorem seqCtrlBus_keeps {z : State} {b} {n} {v} {s : State} (hz : Keeps z s) :
    KeepsO z (seqCtrlBus b n v s) := by
  unfold seqCtrlBus
  with_reducible repeat' first
    | assumption | apply ite_keeps | apply next_keepsO | apply ite_keepsO | apply refused_keepsO | apply fault_keepsO
    | apply State.seqCtrlWrite_keeps | apply busWrite_keeps | intro _ _ _ _ | intro _ _ _ | intro _ _ | intro _
    | (refine Keeps.upd ?_; first | assumption | apply State.seqCtrlWrite_keeps | apply busWrite_keeps)

theorem execSeqEccUncorrectable_keeps {z : State} {n} {s : State} (hz : Keeps z s) :
    KeepsO z (execSeqEccUncorrectable n s) := by
  unfold execSeqEccUncorrectable
  with_reducible repeat' first
    | assumption | apply ite_keeps | apply next_keepsO | apply ite_keepsO | apply refused_keepsO | apply fault_keepsO
    | apply State.seqFail_keeps | (refine Keeps.upd ?_; first | assumption | apply State.seqFail_keeps)

theorem execSwapComplete_keeps {z : State} {n} {pass} {s : State} (hz : Keeps z s) :
    KeepsO z (execSwapComplete n pass s) := by
  unfold execSwapComplete
  with_reducible repeat' first
    | assumption | apply ite_keeps | apply next_keepsO | apply ite_keepsO | apply refused_keepsO | apply fault_keepsO
    | apply State.chanEvent_keeps | apply State.chanShow_keeps | apply State.setStat_keeps | apply State.wrf_keeps
    | apply State.wrb_keeps | apply State.wr_keeps | apply State.setSeq_keeps | apply State.swapFail_keeps
    | apply forL_keeps | apply forL_keeps_fst | intro _ _ _ _ | intro _ _ _ | intro _ _ | intro _
    | (refine Keeps.upd ?_; first | assumption | apply State.chanEvent_keeps | apply State.chanShow_keeps | apply State.setStat_keeps | apply State.wrf_keeps | apply State.wrb_keeps | apply State.wr_keeps | apply State.setSeq_keeps | apply State.swapFail_keeps | apply forL_keeps)

theorem execSwapStart_keeps {z : State} {n} {s : State} (hz : Keeps z s) :
    KeepsO z (execSwapStart n s) := by
  unfold execSwapStart
  with_reducible repeat' first
    | assumption | apply ite_keeps | apply next_keepsO | apply ite_keepsO | apply refused_keepsO | apply fault_keepsO
    | apply State.progStore_keeps | apply State.wr_keeps | apply State.wrf_keeps | apply State.swapFail_keeps
    | apply State.chanEvent_keeps
    | (refine Keeps.upd ?_; first | assumption | apply State.progStore_keeps | apply State.wr_keeps | apply State.wrf_keeps | apply State.swapFail_keeps | apply State.chanEvent_keeps)

theorem execSeqHalt_keeps {z : State} {b} {n} {v} {s : State} (hz : Keeps z s) :
    KeepsO z (execSeqHalt b n v s) := by
  unfold execSeqHalt
  with_reducible repeat' first
    | assumption | apply next_keepsO | apply refused_keepsO | apply fault_keepsO | apply seqCtrlBus_keeps
    | (refine KeepsO.of_next ?_ (by assumption))

theorem execSeqRun_keeps {z : State} {b} {n} {v} {s : State} (hz : Keeps z s) :
    KeepsO z (execSeqRun b n v s) := by
  unfold execSeqRun
  with_reducible repeat' first
    | assumption | apply next_keepsO | apply refused_keepsO | apply fault_keepsO | apply seqCtrlBus_keeps
    | (refine KeepsO.of_next ?_ (by assumption))

theorem execProgramLoadDone_keeps {z : State} {n} {s : State} (hz : Keeps z s) :
    KeepsO z (execProgramLoadDone n s) := by
  unfold execProgramLoadDone
  with_reducible repeat' first
    | assumption | apply ite_keeps | apply next_keepsO | apply ite_keepsO | apply refused_keepsO | apply fault_keepsO
    | apply State.wr_keeps | apply State.wrWords_keeps | apply State.progStore_keeps | apply State.soot_keeps
    | apply State.wrf_keeps | apply State.updSeq_keeps
    | (refine Keeps.upd ?_; first | assumption | apply State.wr_keeps | apply State.wrWords_keeps | apply State.progStore_keeps | apply State.soot_keeps | apply State.wrf_keeps | apply State.updSeq_keeps)

theorem execProgramLoad_keeps {z : State} {b} {n} {v} {s : State} (hz : Keeps z s) :
    KeepsO z (execProgramLoad b n v s) := by
  unfold execProgramLoad
  with_reducible repeat' first
    | assumption | apply next_keepsO | apply refused_keepsO | apply fault_keepsO | apply seqCtrlBus_keeps
    | (refine KeepsO.of_next ?_ (by assumption))

theorem execSeqSelftestDone_keeps {z : State} {n} {pass} {s : State} (hz : Keeps z s) :
    KeepsO z (execSeqSelftestDone n pass s) := by
  unfold execSeqSelftestDone
  with_reducible repeat' first
    | assumption | apply ite_keeps | apply next_keepsO | apply ite_keepsO | apply refused_keepsO | apply fault_keepsO
    | apply State.seqFail_keeps | apply State.selftestStop_keeps
    | (refine Keeps.upd ?_; first | assumption | apply State.seqFail_keeps | apply State.selftestStop_keeps)

theorem execSeqSelftestStart_keeps {z : State} {n} {s : State} (hz : Keeps z s) :
    KeepsO z (execSeqSelftestStart n s) := by
  unfold execSeqSelftestStart
  with_reducible repeat' first
    | assumption | apply ite_keeps | apply next_keepsO | apply ite_keepsO | apply refused_keepsO | apply fault_keepsO
    | apply State.updSeq_keeps | apply State.wrb_keeps | apply State.cnt_keeps
    | (refine Keeps.upd ?_; first | assumption | apply State.updSeq_keeps | apply State.wrb_keeps | apply State.cnt_keeps)

theorem execSeqAccessFault_keeps {z : State} {n} {s : State} (hz : Keeps z s) :
    KeepsO z (execSeqAccessFault n s) := by
  unfold execSeqAccessFault
  with_reducible repeat' first
    | assumption | apply ite_keeps | apply next_keepsO | apply ite_keepsO | apply refused_keepsO | apply fault_keepsO
    | apply State.seqFail_keeps | (refine Keeps.upd ?_; first | assumption | apply State.seqFail_keeps)

theorem execSeqWatchdogExpiry_keeps {z : State} {n} {s : State} (hz : Keeps z s) :
    KeepsO z (execSeqWatchdogExpiry n s) := by
  unfold execSeqWatchdogExpiry
  with_reducible repeat' first
    | assumption | apply ite_keeps | apply next_keepsO | apply ite_keepsO | apply refused_keepsO | apply fault_keepsO
    | apply State.seqFail_keeps | (refine Keeps.upd ?_; first | assumption | apply State.seqFail_keeps)

theorem execTpKick_keeps {z : State} {n} {s : State} (hz : Keeps z s) :
    KeepsO z (execTpKick n s) := by
  unfold execTpKick
  with_reducible repeat' first
    | assumption | apply ite_keeps | apply next_keepsO | apply ite_keepsO | apply refused_keepsO | apply fault_keepsO
    | apply State.updSeq_keeps | apply State.port_keeps | (refine KeepsO.of_next ?_ (by assumption)) | intro _ _ _ _
    | intro _ _ _ | intro _ _ | intro _ | (refine Keeps.upd ?_; first | assumption | apply State.updSeq_keeps)

theorem execTpEventPop_keeps {z : State} {n} {s : State} (hz : Keeps z s) :
    KeepsO z (execTpEventPop n s) := by
  unfold execTpEventPop
  with_reducible repeat' first
    | assumption | (extract_lets +onlyGivenNames x; clear_value x) | extract_lets | apply ite_keeps
    | apply next_keepsO | apply ite_keepsO | apply refused_keepsO | apply fault_keepsO | apply State.updSeq_keeps
    | apply State.respond_keeps | apply State.port_keeps | (refine KeepsO.of_next ?_ (by assumption)) | intro _ _ _ _
    | intro _ _ _ | intro _ _ | intro _
    | (refine Keeps.upd ?_; first | assumption | apply State.updSeq_keeps | apply State.respond_keeps) | split
    | (refine Keeps.of_fst (by assumption) ?_) | (refine Keeps.of_snd (by assumption) ?_)

theorem execTpJobPop_keeps {z : State} {n} {s : State} (hz : Keeps z s) :
    KeepsO z (execTpJobPop n s) := by
  unfold execTpJobPop
  with_reducible repeat' first
    | assumption | (extract_lets +onlyGivenNames x; clear_value x) | extract_lets | apply ite_keeps
    | apply next_keepsO | apply ite_keepsO | apply refused_keepsO | apply fault_keepsO | apply State.setJob_keeps
    | apply State.respond_keeps | apply State.port_keeps | apply foldl_keeps_fst | apply foldl_keeps
    | (refine KeepsO.of_next ?_ (by assumption)) | intro _ _ _ _ | intro _ _ _ | intro _ _ | intro _
    | (refine Keeps.upd ?_; first | assumption | apply State.setJob_keeps | apply State.respond_keeps) | split
    | (refine Keeps.of_fst (by assumption) ?_) | (refine Keeps.of_snd (by assumption) ?_)

theorem execTpEdgeStatRead_keeps {z : State} {n} {s : State} (hz : Keeps z s) :
    KeepsO z (execTpEdgeStatRead n s) := by
  unfold execTpEdgeStatRead
  with_reducible repeat' first
    | assumption | apply ite_keeps | apply next_keepsO | apply ite_keepsO | apply refused_keepsO | apply fault_keepsO
    | apply State.setSeq_keeps | apply State.respond_keeps | apply State.port_keeps
    | (refine KeepsO.of_next ?_ (by assumption)) | intro _ _ _ _ | intro _ _ _ | intro _ _ | intro _
    | (refine Keeps.upd ?_; first | assumption | apply State.setSeq_keeps | apply State.respond_keeps)

theorem execEdgeQueueResume_keeps {z : State} {n} {s : State} (hz : Keeps z s) :
    KeepsO z (execEdgeQueueResume n s) := by
  unfold execEdgeQueueResume
  with_reducible repeat' first
    | assumption | (extract_lets +onlyGivenNames x; clear_value x) | extract_lets | apply ite_keeps
    | apply next_keepsO | apply ite_keepsO | apply refused_keepsO | apply fault_keepsO | apply State.setSeq_keeps
    | apply State.edgeInsert_keeps
    | (refine Keeps.upd ?_; first | assumption | apply State.setSeq_keeps | apply State.edgeInsert_keeps) | split
    | (refine Keeps.of_fst (by assumption) ?_) | (refine Keeps.of_snd (by assumption) ?_)

theorem execTpEdgeCmd_keeps {z : State} {n} {v} {s : State} (hz : Keeps z s) :
    KeepsO z (execTpEdgeCmd n v s) := by
  unfold execTpEdgeCmd
  with_reducible repeat' first
    | assumption | apply ite_keeps | apply next_keepsO | apply ite_keepsO | apply refused_keepsO | apply fault_keepsO
    | apply State.edgeInsert_keeps | apply State.setSeq_keeps | apply State.port_keeps
    | (refine KeepsO.of_next ?_ (by assumption)) | intro _ _ _ _ | intro _ _ _ | intro _ _ | intro _
    | (refine Keeps.upd ?_; first | assumption | apply State.edgeInsert_keeps | apply State.setSeq_keeps)

theorem execPredictionDone_keeps {z : State} {n} {s : State} (hz : Keeps z s) :
    KeepsO z (execPredictionDone n s) := by
  unfold execPredictionDone
  with_reducible repeat' first
    | assumption | (extract_lets +onlyGivenNames x; clear_value x) | extract_lets | apply ite_keeps
    | apply next_keepsO | apply ite_keepsO | apply refused_keepsO | apply fault_keepsO | apply State.setSeq_keeps
    | (refine Keeps.upd ?_; first | assumption | apply State.setSeq_keeps) | split
    | (refine Keeps.of_fst (by assumption) ?_) | (refine Keeps.of_snd (by assumption) ?_)

theorem execTpPredPos_keeps {z : State} {n} {v} {s : State} (hz : Keeps z s) :
    KeepsO z (execTpPredPos n v s) := by
  unfold execTpPredPos
  with_reducible repeat' first
    | assumption | apply ite_keeps | apply next_keepsO | apply ite_keepsO | apply refused_keepsO | apply fault_keepsO
    | apply State.updSeq_keeps | apply State.port_keeps | (refine KeepsO.of_next ?_ (by assumption)) | intro _ _ _ _
    | intro _ _ _ | intro _ _ | intro _ | (refine Keeps.upd ?_; first | assumption | apply State.updSeq_keeps)

theorem execWaitWake_keeps {z : State} {n} {s : State} (hz : Keeps z s) :
    KeepsO z (execWaitWake n s) := by
  unfold execWaitWake
  with_reducible repeat' first
    | assumption | apply ite_keeps | apply next_keepsO | apply ite_keepsO | apply refused_keepsO | apply fault_keepsO
    | apply State.setSeq_keeps | (refine Keeps.upd ?_; first | assumption | apply State.setSeq_keeps)

theorem execTpWaitTick_keeps {z : State} {n} {v} {s : State} (hz : Keeps z s) :
    KeepsO z (execTpWaitTick n v s) := by
  unfold execTpWaitTick
  with_reducible repeat' first
    | assumption | apply ite_keeps | apply next_keepsO | apply ite_keepsO | apply refused_keepsO | apply fault_keepsO
    | apply State.updSeq_keeps | apply State.port_keeps | (refine KeepsO.of_next ?_ (by assumption)) | intro _ _ _ _
    | intro _ _ _ | intro _ _ | intro _ | (refine Keeps.upd ?_; first | assumption | apply State.updSeq_keeps)

theorem execTpWaitPos_keeps {z : State} {n} {v} {s : State} (hz : Keeps z s) :
    KeepsO z (execTpWaitPos n v s) := by
  unfold execTpWaitPos
  with_reducible repeat' first
    | assumption | apply ite_keeps | apply next_keepsO | apply ite_keepsO | apply refused_keepsO | apply fault_keepsO
    | apply State.updSeq_keeps | apply State.port_keeps | (refine KeepsO.of_next ?_ (by assumption)) | intro _ _ _ _
    | intro _ _ _ | intro _ _ | intro _ | (refine Keeps.upd ?_; first | assumption | apply State.updSeq_keeps)

theorem execTpPosCapture_keeps {z : State} {n} {s : State} (hz : Keeps z s) :
    KeepsO z (execTpPosCapture n s) := by
  unfold execTpPosCapture
  with_reducible repeat' first
    | assumption | apply ite_keeps | apply next_keepsO | apply ite_keepsO | apply refused_keepsO | apply fault_keepsO
    | apply State.updSeq_keeps | apply State.respond_keeps | apply State.port_keeps
    | (refine KeepsO.of_next ?_ (by assumption)) | intro _ _ _ _ | intro _ _ _ | intro _ _ | intro _
    | (refine Keeps.upd ?_; first | assumption | apply State.updSeq_keeps | apply State.respond_keeps)

theorem execTpTscCapture_keeps {z : State} {n} {s : State} (hz : Keeps z s) :
    KeepsO z (execTpTscCapture n s) := by
  unfold execTpTscCapture
  with_reducible repeat' first
    | assumption | apply ite_keeps | apply next_keepsO | apply ite_keepsO | apply refused_keepsO | apply fault_keepsO
    | apply State.updSeq_keeps | apply State.respond_keeps | apply State.port_keeps
    | (refine KeepsO.of_next ?_ (by assumption)) | intro _ _ _ _ | intro _ _ _ | intro _ _ | intro _
    | (refine Keeps.upd ?_; first | assumption | apply State.updSeq_keeps | apply State.respond_keeps)

theorem execChannelStop_keeps {z : State} {b} {u} {s : State} (hz : Keeps z s) :
    KeepsO z (execChannelStop b u s) := by
  unfold execChannelStop
  with_reducible repeat' first
    | assumption | apply ite_keeps | apply next_keepsO | apply ite_keepsO | apply refused_keepsO | apply fault_keepsO
    | apply State.unitStop_keeps | apply busWrite_keeps | intro _ _ _ _ | intro _ _ _ | intro _ _ | intro _
    | (refine Keeps.upd ?_; first | assumption | apply State.unitStop_keeps | apply busWrite_keeps)

theorem execChannelStart_keeps {z : State} {b} {u} {s : State} (hz : Keeps z s) :
    KeepsO z (execChannelStart b u s) := by
  unfold execChannelStart
  with_reducible repeat' first
    | assumption | apply ite_keeps | apply next_keepsO | apply ite_keepsO | apply refused_keepsO | apply fault_keepsO
    | apply State.unitStart_keeps | apply busWrite_keeps | intro _ _ _ _ | intro _ _ _ | intro _ _ | intro _
    | (refine Keeps.upd ?_; first | assumption | apply State.unitStart_keeps | apply busWrite_keeps)

theorem execMarkStall_keeps {z : State} {n} {s : State} (hz : Keeps z s) :
    KeepsO z (execMarkStall n s) := by
  unfold execMarkStall
  with_reducible repeat' first
    | assumption | (extract_lets +onlyGivenNames x; clear_value x) | extract_lets | apply ite_keeps
    | apply next_keepsO | apply ite_keepsO | apply refused_keepsO | apply fault_keepsO | apply State.wrb_keeps
    | apply State.jobEvent_keeps | apply State.irq_keeps
    | (refine Keeps.upd ?_; first | assumption | apply State.wrb_keeps | apply State.jobEvent_keeps | apply State.irq_keeps)
    | split | (refine Keeps.of_fst (by assumption) ?_) | (refine Keeps.of_snd (by assumption) ?_)

theorem execTpCond_keeps {z : State} {n} {v} {s : State} (hz : Keeps z s) :
    KeepsO z (execTpCond n v s) := by
  unfold execTpCond
  with_reducible repeat' first
    | assumption | (extract_lets +onlyGivenNames x; clear_value x) | extract_lets | apply ite_keeps
    | apply next_keepsO | apply ite_keepsO | apply refused_keepsO | apply fault_keepsO | apply State.badPost_keeps
    | apply State.addCond_keeps
    | (refine Keeps.upd ?_; first | assumption | apply State.badPost_keeps | apply State.addCond_keeps) | split
    | (refine Keeps.of_fst (by assumption) ?_) | (refine Keeps.of_snd (by assumption) ?_)

theorem execJobEndDeferredApply_keeps {z : State} {n} {s : State} (hz : Keeps z s) :
    KeepsO z (execJobEndDeferredApply n s) := by
  unfold execJobEndDeferredApply
  with_reducible repeat' first
    | assumption
    | (extract_lets +onlyGivenNames x; refine (fun hx : Keeps z x => ?_) ?_; rotate_left; subst x; rotate_left; try clear_value x)
    | (extract_lets +onlyGivenNames x; clear_value x) | extract_lets | apply ite_keeps | apply next_keepsO
    | apply ite_keepsO | apply refused_keepsO | apply fault_keepsO | apply State.jobLeave_keeps
    | apply State.updChan_keeps
    | (refine Keeps.upd ?_; first | assumption | apply State.jobLeave_keeps | apply State.updChan_keeps) | split
    | (refine Keeps.of_fst (by assumption) ?_) | (refine Keeps.of_snd (by assumption) ?_)

theorem execTpJobEnd_keeps {z : State} {n} {v} {s : State} (hz : Keeps z s) :
    KeepsO z (execTpJobEnd n v s) := by
  unfold execTpJobEnd
  with_reducible repeat' first
    | assumption | apply ite_keeps | apply next_keepsO | apply ite_keepsO | apply refused_keepsO | apply fault_keepsO
    | apply State.updChan_keeps | apply State.jobLeave_keeps | apply State.addCond_keeps | apply State.badPost_keeps
    | (refine Keeps.upd ?_; first | assumption | apply State.updChan_keeps | apply State.jobLeave_keeps | apply State.addCond_keeps | apply State.badPost_keeps)

theorem execMarkingStart_keeps {z : State} {n} {j} {s : State} (hz : Keeps z s) :
    KeepsO z (execMarkingStart n j s) := by
  unfold execMarkingStart
  with_reducible repeat' first
    | assumption | apply ite_keeps | apply next_keepsO | apply ite_keepsO | apply refused_keepsO | apply fault_keepsO
    | apply State.thermMarkBegin_keeps | apply State.laserMarkBegin_keeps | apply State.chanShow_keeps
    | apply State.updChan_keeps | apply State.jobEvent_keeps | apply State.galvoStop_keeps | apply State.setJob_keeps
    | (refine Keeps.upd ?_; first | assumption | apply State.thermMarkBegin_keeps | apply State.laserMarkBegin_keeps | apply State.chanShow_keeps | apply State.updChan_keeps | apply State.jobEvent_keeps | apply State.galvoStop_keeps | apply State.setJob_keeps)

theorem execArmCheck_keeps {z : State} {n} {j} {s : State} (hz : Keeps z s) :
    KeepsO z (execArmCheck n j s) := by
  unfold execArmCheck
  with_reducible repeat' first
    | assumption | apply ite_keeps | apply next_keepsO | apply ite_keepsO | apply refused_keepsO | apply fault_keepsO
    | apply State.jobLeave_keeps | apply State.cnt_keeps | apply State.addCond_keeps | apply State.selftestStop_keeps
    | apply State.chanShow_keeps | apply State.galvoStop_keeps | apply State.jobEvent_keeps
    | apply State.qReserve_keeps | apply State.setJob_keeps | apply State.soot_keeps
    | (refine Keeps.upd ?_; first | assumption | apply State.jobLeave_keeps | apply State.cnt_keeps | apply State.addCond_keeps | apply State.selftestStop_keeps | apply State.chanShow_keeps | apply State.galvoStop_keeps | apply State.jobEvent_keeps | apply State.qReserve_keeps | apply State.setJob_keeps | apply State.soot_keeps)

theorem execStationAdmission_keeps {z : State} {k} {s : State} (hz : Keeps z s) :
    KeepsO z (execStationAdmission k s) := by
  unfold execStationAdmission
  with_reducible repeat' first
    | assumption
    | (extract_lets +onlyGivenNames x; refine (fun hx : Keeps z x => ?_) ?_; rotate_left; subst x; rotate_left; try clear_value x)
    | (extract_lets +onlyGivenNames x; clear_value x) | extract_lets | apply ite_keeps | apply next_keepsO
    | apply ite_keepsO | apply refused_keepsO | apply fault_keepsO | apply State.admitStation_keeps
    | apply State.updStn_keeps
    | (refine Keeps.upd ?_; first | assumption | apply State.admitStation_keeps | apply State.updStn_keeps) | split
    | (refine Keeps.of_fst (by assumption) ?_) | (refine Keeps.of_snd (by assumption) ?_)

theorem execJobAdmission_keeps {z : State} {n} {s : State} (hz : Keeps z s) :
    KeepsO z (execJobAdmission n s) := by
  unfold execJobAdmission
  with_reducible repeat' first
    | assumption
    | (extract_lets +onlyGivenNames x; refine (fun hx : Keeps z x => ?_) ?_; rotate_left; subst x; rotate_left; try clear_value x)
    | (extract_lets +onlyGivenNames x; clear_value x) | extract_lets | apply ite_keeps | apply next_keepsO
    | apply ite_keepsO | apply refused_keepsO | apply fault_keepsO | apply State.admitMark_keeps
    | apply State.updChan_keeps | apply State.qDrop_keeps
    | (refine Keeps.upd ?_; first | assumption | apply State.admitMark_keeps | apply State.updChan_keeps | apply State.qDrop_keeps)
    | split | (refine Keeps.of_fst (by assumption) ?_) | (refine Keeps.of_snd (by assumption) ?_)

theorem execScheduledEdgeRelease_keeps {z : State} {n} {pinBad} {s : State} (hz : Keeps z s) :
    KeepsO z (execScheduledEdgeRelease n pinBad s) := by
  unfold execScheduledEdgeRelease
  with_reducible repeat' first
    | assumption | (extract_lets +onlyGivenNames x; clear_value x) | extract_lets | apply ite_keeps
    | apply next_keepsO | apply ite_keepsO | apply refused_keepsO | apply fault_keepsO | apply State.setSeq_keeps
    | apply State.edgeApply_keeps
    | (refine Keeps.upd ?_; first | assumption | apply State.setSeq_keeps | apply State.edgeApply_keeps) | split
    | (refine Keeps.of_fst (by assumption) ?_) | (refine Keeps.of_snd (by assumption) ?_)

end Sys2Proof.Machine
end

