-- ==== Sys2Proof/Laws/KeepsNet.lean ====
section
/-! SUPPORT. What every operation of Machine/Net.lean keeps (Laws/Keeps.lean). -/
-- one script for every shape of goal: what a goal does not need is not reported
set_option linter.all false
namespace Sys2Proof.Machine

theorem State.macLearn_keeps {z : State} {s : State} {m} {p} (hz : Keeps z s) :
    Keeps z (State.macLearn s m p) := by
  unfold State.macLearn
  with_reducible repeat' first
    | assumption | apply ite_keeps | (refine Keeps.upd ?_; first | assumption)

theorem State.mdioWrite_keeps {z : State} {s : State} {v} (hz : Keeps z s) :
    Keeps z (State.mdioWrite s v) := by
  unfold State.mdioWrite
  with_reducible repeat' first
    | assumption | apply ite_keeps | apply State.wrb_keeps | apply State.plainWrite_keeps | apply State.soot_keeps
    | (refine Keeps.upd ?_; first | assumption | apply State.wrb_keeps | apply State.plainWrite_keeps | apply State.soot_keeps)

theorem State.netDeliver_keeps {z : State} {s : State} {p} {l} {stamp} (hz : Keeps z s) :
    Keeps z (State.netDeliver s p l stamp) := by
  unfold State.netDeliver
  with_reducible repeat' first
    | assumption | apply ite_keeps | apply State.wrMem_keeps | apply State.cnt_keeps | apply State.qPush_keeps
    | apply State.irq_keeps
    | (refine Keeps.upd ?_; first | assumption | apply State.wrMem_keeps | apply State.cnt_keeps | apply State.qPush_keeps | apply State.irq_keeps)

theorem State.setEgress_keeps {z : State} {s : State} {k} {l} (hz : Keeps z s) :
    Keeps z (State.setEgress s k l) := by
  unfold State.setEgress
  with_reducible repeat' first
    | assumption | apply ite_keeps | (refine Keeps.upd ?_; first | assumption)

theorem State.netEnqueue_keeps {z : State} {s : State} {p} {f} (hz : Keeps z s) :
    Keeps z (State.netEnqueue s p f).1 := by
  unfold State.netEnqueue
  with_reducible repeat' first
    | assumption | (extract_lets +onlyGivenNames x; clear_value x) | extract_lets | apply ite_keeps
    | apply State.setEgress_keeps | apply State.cnt_keeps
    | (refine Keeps.upd ?_; first | assumption | apply State.setEgress_keeps | apply State.cnt_keeps) | split
    | (refine Keeps.of_fst (by assumption) ?_) | (refine Keeps.of_snd (by assumption) ?_)

theorem State.txStatus_keeps {z : State} {s : State} {k} {c} {st} {stamp} (hz : Keeps z s) :
    Keeps z (State.txStatus s k c st stamp) := by
  unfold State.txStatus
  with_reducible repeat' first
    | assumption | apply State.wrMem_keeps | apply State.qDrop_keeps

theorem execMdioGo_keeps {z : State} {b} {v} {s : State} (hz : Keeps z s) :
    KeepsO z (execMdioGo b v s) := by
  unfold execMdioGo
  with_reducible repeat' first
    | assumption | apply ite_keeps | apply next_keepsO | apply ite_keepsO | apply refused_keepsO | apply fault_keepsO
    | apply State.mdioWrite_keeps | apply busWrite_keeps | intro _ _ _ _ | intro _ _ _ | intro _ _ | intro _
    | (refine Keeps.upd ?_; first | assumption | apply State.mdioWrite_keeps | apply busWrite_keeps)

theorem execMdioDone_keeps {z : State} {data} {s : State} (hz : Keeps z s) :
    KeepsO z (execMdioDone data s) := by
  unfold execMdioDone
  with_reducible repeat' first
    | assumption | apply ite_keeps | apply next_keepsO | apply ite_keepsO | apply refused_keepsO | apply fault_keepsO
    | apply State.irq_keeps | apply State.wrf_keeps | apply State.wrb_keeps
    | (refine Keeps.upd ?_; first | assumption | apply State.irq_keeps | apply State.wrf_keeps | apply State.wrb_keeps)

theorem execMacEntryAge_keeps {z : State} {mac} {s : State} (hz : Keeps z s) :
    KeepsO z (execMacEntryAge mac s) := by
  unfold execMacEntryAge
  with_reducible repeat' first
    | assumption | (extract_lets +onlyGivenNames x; clear_value x) | extract_lets | apply ite_keeps
    | apply next_keepsO | apply ite_keepsO | apply refused_keepsO | apply fault_keepsO
    | (refine Keeps.upd ?_; first | assumption) | split | (refine Keeps.of_fst (by assumption) ?_)
    | (refine Keeps.of_snd (by assumption) ?_)

theorem execEthFrameTransmit_keeps {z : State} {p} {ecc} {s : State} (hz : Keeps z s) :
    KeepsO z (execEthFrameTransmit p ecc s) := by
  unfold execEthFrameTransmit
  with_reducible repeat' first
    | assumption
    | (extract_lets +onlyGivenNames x; refine (fun hx : Keeps z x => ?_) ?_; rotate_left; subst x; rotate_left; try clear_value x)
    | (extract_lets +onlyGivenNames x; clear_value x) | extract_lets | apply ite_keeps | apply next_keepsO
    | apply ite_keepsO | apply refused_keepsO | apply fault_keepsO | apply State.txStatus_keeps
    | apply State.cntW_keeps | apply State.cnt_keeps | apply State.soot_keeps | apply State.irq_keeps
    | apply State.setEgress_keeps
    | (refine Keeps.upd ?_; first | assumption | apply State.txStatus_keeps | apply State.cntW_keeps | apply State.cnt_keeps | apply State.soot_keeps | apply State.irq_keeps | apply State.setEgress_keeps)
    | split | (refine Keeps.of_fst (by assumption) ?_) | (refine Keeps.of_snd (by assumption) ?_)

theorem execNetTxDescriptor_keeps {z : State} {q} {s : State} (hz : Keeps z s) :
    KeepsO z (execNetTxDescriptor q s) := by
  unfold execNetTxDescriptor
  with_reducible repeat' first
    | assumption
    | (extract_lets +onlyGivenNames x; refine (fun hx : Keeps z x => ?_) ?_; rotate_left; subst x; rotate_left; try clear_value x)
    | (extract_lets +onlyGivenNames x; clear_value x) | extract_lets | apply ite_keeps | apply next_keepsO
    | apply ite_keepsO | apply refused_keepsO | apply fault_keepsO | apply State.netEnqueue_keeps
    | apply State.macLearn_keeps | apply State.txStatus_keeps | apply foldl_keeps_fst | apply foldl_keeps
    | intro _ _ _ _ | intro _ _ _ | intro _ _ | intro _
    | (refine Keeps.upd ?_; first | assumption | apply State.netEnqueue_keeps | apply State.macLearn_keeps | apply State.txStatus_keeps)
    | split | (refine Keeps.of_fst (by assumption) ?_) | (refine Keeps.of_snd (by assumption) ?_)

theorem execEthFrameReceive_keeps {z : State} {p} {frame} {fcsOk} {stamp} {s : State} (hz : Keeps z s) :
    KeepsO z (execEthFrameReceive p frame fcsOk stamp s) := by
  unfold execEthFrameReceive
  with_reducible repeat' first
    | assumption | apply ite_keeps | apply next_keepsO | apply ite_keepsO | apply refused_keepsO | apply fault_keepsO
    | apply State.netDeliver_keeps | apply State.netEnqueue_keeps | apply State.macLearn_keeps
    | apply State.cntW_keeps | apply State.cnt_keeps | apply State.soot_keeps
    | (refine Keeps.upd ?_; first | assumption | apply State.netDeliver_keeps | apply State.netEnqueue_keeps | apply State.macLearn_keeps | apply State.cntW_keeps | apply State.cnt_keeps | apply State.soot_keeps)

end Sys2Proof.Machine
end

