-- ==== Sys2Proof/Laws/KeepsPageCtl.lean ====
section
/-! SUPPORT. What every operation of Machine/PageCtl.lean keeps (Laws/Keeps.lean). -/
-- one script for every shape of goal: what a goal does not need is not reported
set_option linter.all false
namespace Sys2Proof.Machine

theorem State.aclWrite_keeps {z : State} {s : State} {p} {v} (hz : Keeps z s) :
    Keeps z (State.aclWrite s p v) := by
  unfold State.aclWrite
  with_reducible repeat' first
    | assumption | apply ite_keeps | apply State.wrf_keeps | apply rwl_keeps | intro _ _ _ _ | intro _ _ _ | intro _ _
    | intro _ | (refine Keeps.upd ?_; first | assumption | apply State.wrf_keeps | apply rwl_keeps)

theorem State.acvClear_keeps {z : State} {s : State} (hz : Keeps z s) :
    Keeps z (State.acvClear s) := by
  unfold State.acvClear
  with_reducible repeat' first
    | assumption | apply ite_keeps | apply State.wr_keeps | apply forL_keeps | apply forL_keeps_fst | intro _ _ _ _
    | intro _ _ _ | intro _ _ | intro _
    | (refine Keeps.upd ?_; first | assumption | apply State.wr_keeps | apply forL_keeps)

theorem State.clearCounters_keeps {z : State} {s : State} {p} (hz : Keeps z s) :
    Keeps z (State.clearCounters s p) := by
  unfold State.clearCounters
  with_reducible repeat' first
    | assumption | apply ite_keeps | apply State.wrf_keeps | apply State.wr_keeps | apply forN_keeps
    | apply forL_keeps | apply forL_keeps_fst | intro _ _ _ _ | intro _ _ _ | intro _ _ | intro _
    | (refine Keeps.upd ?_; first | assumption | apply State.wrf_keeps | apply State.wr_keeps | apply forN_keeps | apply forL_keeps)

theorem State.headerOff_keeps {z : State} {s : State} {n} (hz : Keeps z s) :
    Keeps z (State.headerOff s n) := by
  unfold State.headerOff
  with_reducible repeat' first
    | assumption | apply ite_keeps | apply State.chanShow_keeps | apply State.enableCheck_keeps
    | apply State.tagWritebackStart_keeps | apply State.inhibitJobs_keeps
    | (refine Keeps.upd ?_; first | assumption | apply State.chanShow_keeps | apply State.enableCheck_keeps | apply State.tagWritebackStart_keeps | apply State.inhibitJobs_keeps)

theorem State.unitOff_keeps {z : State} {s : State} {p} (hz : Keeps z s) :
    Keeps z (State.unitOff s p) := by
  unfold State.unitOff
  with_reducible repeat' first
    | assumption
    | (extract_lets +onlyGivenNames x; refine (fun hx : Keeps z x => ?_) ?_; rotate_left; subst x; rotate_left; try clear_value x)
    | (extract_lets +onlyGivenNames x; clear_value x) | extract_lets | apply ite_keeps | apply State.ddrDisable_keeps
    | apply State.mbEnabled_keeps | apply State.blDisabled_keeps | apply State.stpDisabled_keeps
    | apply State.ldpEnable_keeps | apply State.stnInhibitAll_keeps | apply State.cnsShow_keeps
    | apply State.linkEnable_keeps | apply State.gateEval_keeps | apply State.engineIdle_keeps
    | apply State.chanShow_keeps | apply State.headerOff_keeps | apply State.setStat_keeps | apply State.wrb_keeps
    | (refine Keeps.upd ?_; first | assumption | apply State.ddrDisable_keeps | apply State.mbEnabled_keeps | apply State.blDisabled_keeps | apply State.stpDisabled_keeps | apply State.ldpEnable_keeps | apply State.stnInhibitAll_keeps | apply State.cnsShow_keeps | apply State.linkEnable_keeps | apply State.gateEval_keeps | apply State.engineIdle_keeps | apply State.chanShow_keeps | apply State.headerOff_keeps | apply State.setStat_keeps | apply State.wrb_keeps)
    | split | (refine Keeps.of_fst (by assumption) ?_) | (refine Keeps.of_snd (by assumption) ?_)

theorem State.disableNow_keeps {z : State} {s : State} {p} (hz : Keeps z s) :
    Keeps z (State.disableNow s p) := by
  unfold State.disableNow
  with_reducible repeat' first
    | assumption | apply State.wrb_keeps | apply State.unitOff_keeps

theorem State.enableRefused_keeps {z : State} {s : State} {p} (hz : Keeps z s) :
    Keeps z (State.enableRefused s p) := by
  unfold State.enableRefused
  with_reducible repeat' first
    | assumption | (extract_lets +onlyGivenNames x; clear_value x) | extract_lets | apply ite_keeps
    | apply State.soot_keeps | apply State.portConfig_keeps | apply State.laserConfig_keeps
    | (refine Keeps.upd ?_; first | assumption | apply State.soot_keeps | apply State.portConfig_keeps | apply State.laserConfig_keeps)
    | split | (refine Keeps.of_fst (by assumption) ?_) | (refine Keeps.of_snd (by assumption) ?_)

theorem State.holdCtrl_keeps {z : State} {s : State} {p} {reset} (hz : Keeps z s) :
    Keeps z (State.holdCtrl s p reset) := by
  unfold State.holdCtrl
  with_reducible repeat' first
    | assumption
    | (extract_lets +onlyGivenNames x; refine (fun hx : Keeps z x => ?_) ?_; rotate_left; subst x; rotate_left; try clear_value x)
    | (extract_lets +onlyGivenNames x; clear_value x) | extract_lets | apply ite_keeps | apply State.updStep__keeps
    | apply State.headerOff_keeps | apply State.updChan_keeps | apply State.setStat_keeps | apply State.chanShow_keeps
    | (refine Keeps.upd ?_; first | assumption | apply State.updStep__keeps | apply State.headerOff_keeps | apply State.updChan_keeps | apply State.setStat_keeps | apply State.chanShow_keeps)
    | split | (refine Keeps.of_fst (by assumption) ?_) | (refine Keeps.of_snd (by assumption) ?_)

theorem State.unitOn_keeps {z : State} {s : State} {p} (hz : Keeps z s) :
    Keeps z (State.unitOn s p) := by
  unfold State.unitOn
  repeat' (first
    | with_reducible assumption
    | (extract_lets +onlyGivenNames x; refine (fun hx : Keeps z x => ?_) ?_; rotate_left; subst x; rotate_left; try clear_value x)
    | (extract_lets +onlyGivenNames x; refine (fun hx : Keeps z x.1 => ?_) ?_; rotate_left; subst x; rotate_left; try clear_value x)
    | (extract_lets +onlyGivenNames x; refine (fun hx : Keeps z x.2 => ?_) ?_; rotate_left; subst x; rotate_left; try clear_value x)
    | (extract_lets +onlyGivenNames x; refine (fun hf0 : ∀ s, Keeps z s → Keeps z (x s) => ?_) ?_; rotate_left; subst x; rotate_left; try clear_value x)
    | (extract_lets +onlyGivenNames x; refine (fun hf1 : ∀ s a, Keeps z s → Keeps z (x s a) => ?_) ?_; rotate_left; subst x; rotate_left; try clear_value x)
    | (extract_lets +onlyGivenNames x; refine (fun hf2 : ∀ a s, Keeps z s → Keeps z (x a s) => ?_) ?_; rotate_left; subst x; rotate_left; try clear_value x)
    | (extract_lets +onlyGivenNames x; refine (fun hf3 : ∀ s a b, Keeps z s → Keeps z (x s a b) => ?_) ?_; rotate_left; subst x; rotate_left; try clear_value x)
    | (extract_lets +onlyGivenNames x; refine (fun hf4 : ∀ a b s, Keeps z s → Keeps z (x a b s) => ?_) ?_; rotate_left; subst x; rotate_left; try clear_value x)
    | (extract_lets +onlyGivenNames x; refine (fun hf5 : ∀ a s b, Keeps z s → Keeps z (x a s b) => ?_) ?_; rotate_left; subst x; rotate_left; try clear_value x)
    | (extract_lets +onlyGivenNames x; refine (fun hf6 : ∀ a, Keeps z (x a) => ?_) ?_; rotate_left; subst x; rotate_left; try clear_value x)
    | (extract_lets +onlyGivenNames x; clear_value x)
    | extract_lets
    | with_reducible apply ite_keeps
    | with_reducible apply State.ddrTrain_keeps
    | with_reducible apply State.mbEnabled_keeps
    | with_reducible apply State.blEnabled_keeps
    | with_reducible apply State.stpEnabled_keeps
    | with_reducible apply State.ldpEnable_keeps
    | with_reducible apply State.stnShow_keeps
    | with_reducible apply State.cnsShow_keeps
    | with_reducible apply State.linkEnable_keeps
    | with_reducible apply State.hpWritten_keeps
    | with_reducible apply State.gateEval_keeps
    | with_reducible apply State.chanShow_keeps
    | with_reducible apply State.setStat_keeps
    | with_reducible apply State.wrb_keeps
    | with_reducible apply hf0
    | with_reducible apply hf1
    | with_reducible apply hf2
    | with_reducible apply hf3
    | with_reducible apply hf4
    | with_reducible apply hf5
    | with_reducible apply hf6
    | intro _ _ _ _
    | intro _ _ _
    | intro _ _
    | intro _
    | (with_reducible refine Keeps.upd ?_; first | with_reducible assumption | (with_reducible refine Keeps.of_fst (by with_reducible assumption) ?_) | (with_reducible refine Keeps.of_snd (by with_reducible assumption) ?_) | with_reducible apply State.ddrTrain_keeps | with_reducible apply State.mbEnabled_keeps | with_reducible apply State.blEnabled_keeps | with_reducible apply State.stpEnabled_keeps | with_reducible apply State.ldpEnable_keeps | with_reducible apply State.stnShow_keeps | with_reducible apply State.cnsShow_keeps | with_reducible apply State.linkEnable_keeps | with_reducible apply State.hpWritten_keeps | with_reducible apply State.gateEval_keeps | with_reducible apply State.chanShow_keeps | with_reducible apply State.setStat_keeps | with_reducible apply State.wrb_keeps)
    | split
    | (with_reducible refine Keeps.of_fst (by with_reducible assumption) ?_)
    | (with_reducible refine Keeps.of_snd (by with_reducible assumption) ?_)
    | fail)

theorem State.unholdDisable_keeps {z : State} {s : State} {p} (hz : Keeps z s) :
    Keeps z (State.unholdDisable s p) := by
  unfold State.unholdDisable
  with_reducible repeat' first
    | assumption | (extract_lets +onlyGivenNames x; clear_value x) | extract_lets | apply ite_keeps
    | apply State.updStep__keeps | apply State.updChan_keeps | apply State.setStat_keeps | apply State.chanShow_keeps
    | (refine Keeps.upd ?_; first | assumption | apply State.updStep__keeps | apply State.updChan_keeps | apply State.setStat_keeps | apply State.chanShow_keeps)
    | split | (refine Keeps.of_fst (by assumption) ?_) | (refine Keeps.of_snd (by assumption) ?_)

theorem State.enableWrite_keeps {z : State} {s : State} {p} {on} (hz : Keeps z s) :
    Keeps z (State.enableWrite s p on) := by
  unfold State.enableWrite
  with_reducible repeat' first
    | assumption | apply ite_keeps | apply State.disableNow_keeps | apply State.holdCtrl_keeps
    | apply State.enableRefused_keeps | apply State.wrb_keeps | apply State.unitOn_keeps
    | apply State.unholdDisable_keeps
    | (refine Keeps.upd ?_; first | assumption | apply State.disableNow_keeps | apply State.holdCtrl_keeps | apply State.enableRefused_keeps | apply State.wrb_keeps | apply State.unitOn_keeps | apply State.unholdDisable_keeps)

theorem State.lockWrite_keeps {z : State} {s : State} {p} {v} (hz : Keeps z s) :
    Keeps z (State.lockWrite s p v) := by
  unfold State.lockWrite
  with_reducible repeat' first
    | assumption | apply ite_keeps | apply State.wrb_keeps
    | (refine Keeps.upd ?_; first | assumption | apply State.wrb_keeps)

theorem State.seqReset_keeps {z : State} {s : State} {n} (hz : Keeps z s) :
    Keeps z (State.seqReset s n) := by
  unfold State.seqReset
  with_reducible repeat' first
    | assumption | apply ite_keeps | apply State.wr_keeps | apply State.setSeq_keeps
    | (refine Keeps.upd ?_; first | assumption | apply State.wr_keeps | apply State.setSeq_keeps)

theorem State.unitReset_keeps {z : State} {s : State} {p} (hz : Keeps z s) :
    Keeps z (State.unitReset s p) := by
  unfold State.unitReset
  with_reducible repeat' first
    | assumption
    | (extract_lets +onlyGivenNames x; refine (fun hx : Keeps z x => ?_) ?_; rotate_left; subst x; rotate_left; try clear_value x)
    | (extract_lets +onlyGivenNames x; clear_value x) | extract_lets | apply ite_keeps | apply State.updConv_keeps
    | apply State.galvoStop_keeps | apply State.updQueue_keeps | apply State.qmgStat_keeps | apply State.updDch_keeps
    | apply State.dmaIdle_keeps | apply State.ddrTrain_keeps | apply State.setMbus_keeps | apply State.mbEnabled_keeps
    | apply State.blDisabled_keeps | apply State.blEnabled_keeps | apply State.stpDisabled_keeps
    | apply State.stpEnabled_keeps | apply State.loopToOpen_keeps | apply State.dmkShow_keeps
    | apply State.updVenc_keeps | apply State.updPd_keeps | apply State.stnInhibitAll_keeps | apply State.updTag_keeps
    | apply State.cnsShow_keeps | apply State.setRing_keeps | apply State.linkEnable_keeps | apply State.wrb_keeps
    | apply State.wrf_keeps | apply State.thermSafeEnd_keeps | apply State.hpWritten_keeps
    | apply State.updTherm_keeps | apply State.updLas_keeps | apply State.gateEval_keeps
    | apply State.engineIdle_keeps | apply State.seqReset_keeps | apply State.headerOff_keeps | apply forN_keeps
    | intro _ _ _ _ | intro _ _ _ | intro _ _ | intro _
    | (refine Keeps.upd ?_; first | assumption | apply State.updConv_keeps | apply State.galvoStop_keeps | apply State.updQueue_keeps | apply State.qmgStat_keeps | apply State.updDch_keeps | apply State.dmaIdle_keeps | apply State.ddrTrain_keeps | apply State.setMbus_keeps | apply State.mbEnabled_keeps | apply State.blDisabled_keeps | apply State.blEnabled_keeps | apply State.stpDisabled_keeps | apply State.stpEnabled_keeps | apply State.loopToOpen_keeps | apply State.dmkShow_keeps | apply State.updVenc_keeps | apply State.updPd_keeps | apply State.stnInhibitAll_keeps | apply State.updTag_keeps | apply State.cnsShow_keeps | apply State.setRing_keeps | apply State.linkEnable_keeps | apply State.wrb_keeps | apply State.wrf_keeps | apply State.thermSafeEnd_keeps | apply State.hpWritten_keeps | apply State.updTherm_keeps | apply State.updLas_keeps | apply State.gateEval_keeps | apply State.engineIdle_keeps | apply State.seqReset_keeps | apply State.headerOff_keeps | apply forN_keeps)
    | split | (refine Keeps.of_fst (by assumption) ?_) | (refine Keeps.of_snd (by assumption) ?_)

theorem State.softReset_keeps {z : State} {s : State} {p} (hz : Keeps z s) :
    Keeps z (State.softReset s p) := by
  unfold State.softReset
  with_reducible repeat' first
    | assumption | apply State.clearCounters_keeps | apply State.unitReset_keeps

theorem State.pgCtrlWrite_keeps {z : State} {s : State} {p} {v} (hz : Keeps z s) :
    Keeps z (State.pgCtrlWrite s p v) := by
  unfold State.pgCtrlWrite
  with_reducible repeat' first
    | assumption | apply ite_keeps | apply State.enableWrite_keeps | apply State.softReset_keeps
    | apply State.holdCtrl_keeps | apply State.wrb_keeps
    | (refine Keeps.upd ?_; first | assumption | apply State.enableWrite_keeps | apply State.softReset_keeps | apply State.holdCtrl_keeps | apply State.wrb_keeps)

theorem State.sootMaskWrite_keeps {z : State} {s : State} {p} {v} (hz : Keeps z s) :
    Keeps z (State.sootMaskWrite s p v) := by
  unfold State.sootMaskWrite
  with_reducible repeat' first
    | assumption | apply ite_keeps | apply State.wr_keeps | apply State.pinsOf_keeps | apply rwl_keeps
    | apply foldl_keeps_fst | apply foldl_keeps | intro _ _ _ _ | intro _ _ _ | intro _ _ | intro _
    | (refine Keeps.upd ?_; first | assumption | apply State.wr_keeps | apply State.pinsOf_keeps | apply rwl_keeps)

theorem State.sootWrite_keeps {z : State} {s : State} {p} {v} {persist} (hz : Keeps z s) :
    Keeps z (State.sootWrite s p v persist) := by
  unfold State.sootWrite
  with_reducible repeat' first
    | assumption | apply ite_keeps | apply State.soot_keeps | apply State.wr_keeps | apply State.pinsOf_keeps
    | apply forL_keeps | apply forL_keeps_fst | intro _ _ _ _ | intro _ _ _ | intro _ _ | intro _
    | (refine Keeps.upd ?_; first | assumption | apply State.soot_keeps | apply State.wr_keeps | apply State.pinsOf_keeps | apply forL_keeps)

theorem execSwiClr_keeps {z : State} {b} {v} {s : State} (hz : Keeps z s) :
    KeepsO z (execSwiClr b v s) := by
  unfold execSwiClr
  with_reducible repeat' first
    | assumption | apply ite_keeps | apply next_keepsO | apply ite_keepsO | apply refused_keepsO | apply fault_keepsO
    | apply State.wr_keeps | apply busWrite_keeps | intro _ _ _ _ | intro _ _ _ | intro _ _ | intro _
    | (refine Keeps.upd ?_; first | assumption | apply State.wr_keeps | apply busWrite_keeps)

theorem execSwiSet_keeps {z : State} {b} {v} {s : State} (hz : Keeps z s) :
    KeepsO z (execSwiSet b v s) := by
  unfold execSwiSet
  with_reducible repeat' first
    | assumption | apply ite_keeps | apply next_keepsO | apply ite_keepsO | apply refused_keepsO | apply fault_keepsO
    | apply State.wrf_keeps | apply busWrite_keeps | intro _ _ _ _ | intro _ _ _ | intro _ _ | intro _
    | (refine Keeps.upd ?_; first | assumption | apply State.wrf_keeps | apply busWrite_keeps)

theorem execHeldStepperCommandApply_keeps {z : State} {p} {s : State} (hz : Keeps z s) :
    KeepsO z (execHeldStepperCommandApply p s) := by
  unfold execHeldStepperCommandApply
  with_reducible repeat' first
    | assumption | apply ite_keeps | apply next_keepsO | apply ite_keepsO | apply refused_keepsO | apply fault_keepsO
    | apply State.stpDo_keeps | apply State.softReset_keeps | apply State.disableNow_keeps
    | apply State.updStep__keeps | apply forL_keeps | apply forL_keeps_fst | intro _ _ _ _ | intro _ _ _ | intro _ _
    | intro _
    | (refine Keeps.upd ?_; first | assumption | apply State.stpDo_keeps | apply State.softReset_keeps | apply State.disableNow_keeps | apply State.updStep__keeps | apply forL_keeps)

theorem execAcvLogClear_keeps {z : State} {b} {s : State} (hz : Keeps z s) :
    KeepsO z (execAcvLogClear b s) := by
  unfold execAcvLogClear
  with_reducible repeat' first
    | assumption | apply next_keepsO | apply refused_keepsO | apply fault_keepsO | apply State.acvClear_keeps
    | apply busWrite_keeps

theorem execSootClear_keeps {z : State} {b} {p} {v} {persist} {s : State} (hz : Keeps z s) :
    KeepsO z (execSootClear b p v persist s) := by
  unfold execSootClear
  with_reducible repeat' first
    | assumption | apply ite_keeps | apply next_keepsO | apply ite_keepsO | apply refused_keepsO | apply fault_keepsO
    | apply State.sootWrite_keeps | apply busWrite_keeps | intro _ _ _ _ | intro _ _ _ | intro _ _ | intro _
    | (refine Keeps.upd ?_; first | assumption | apply State.sootWrite_keeps | apply busWrite_keeps)

theorem execPageLock_keeps {z : State} {b} {p} {v} {s : State} (hz : Keeps z s) :
    KeepsO z (execPageLock b p v s) := by
  unfold execPageLock
  with_reducible repeat' first
    | assumption | apply ite_keeps | apply next_keepsO | apply ite_keepsO | apply refused_keepsO | apply fault_keepsO
    | apply State.lockWrite_keeps | apply busWrite_keeps | intro _ _ _ _ | intro _ _ _ | intro _ _ | intro _
    | (refine Keeps.upd ?_; first | assumption | apply State.lockWrite_keeps | apply busWrite_keeps)

theorem execErrcntClear_keeps {z : State} {b} {p} {s : State} (hz : Keeps z s) :
    KeepsO z (execErrcntClear b p s) := by
  unfold execErrcntClear
  with_reducible repeat' first
    | assumption | apply ite_keeps | apply next_keepsO | apply ite_keepsO | apply refused_keepsO | apply fault_keepsO
    | apply State.wrf_keeps | apply busWrite_keeps | intro _ _ _ _ | intro _ _ _ | intro _ _ | intro _
    | (refine Keeps.upd ?_; first | assumption | apply State.wrf_keeps | apply busWrite_keeps)

theorem execHeldControlApply_keeps {z : State} {n} {s : State} (hz : Keeps z s) :
    KeepsO z (execHeldControlApply n s) := by
  unfold execHeldControlApply
  with_reducible repeat' first
    | assumption | apply ite_keeps | apply next_keepsO | apply ite_keepsO | apply refused_keepsO | apply fault_keepsO
    | apply State.disableNow_keeps | apply State.chanShow_keeps | apply State.softReset_keeps
    | apply State.updChan_keeps | apply forL_keeps | apply forL_keeps_fst | intro _ _ _ _ | intro _ _ _ | intro _ _
    | intro _
    | (refine Keeps.upd ?_; first | assumption | apply State.disableNow_keeps | apply State.chanShow_keeps | apply State.softReset_keeps | apply State.updChan_keeps | apply forL_keeps)

theorem execUnitEnable_keeps {z : State} {b} {p} {v} {s : State} (hz : Keeps z s) :
    KeepsO z (execUnitEnable b p v s) := by
  unfold execUnitEnable
  with_reducible repeat' first
    | assumption | apply ite_keeps | apply next_keepsO | apply ite_keepsO | apply refused_keepsO | apply fault_keepsO
    | apply State.pgCtrlWrite_keeps | apply busWrite_keeps | intro _ _ _ _ | intro _ _ _ | intro _ _ | intro _
    | (refine Keeps.upd ?_; first | assumption | apply State.pgCtrlWrite_keeps | apply busWrite_keeps)

theorem execSoftReset_keeps {z : State} {b} {p} {v} {s : State} (hz : Keeps z s) :
    KeepsO z (execSoftReset b p v s) := by
  unfold execSoftReset
  with_reducible repeat' first
    | assumption | apply ite_keeps | apply next_keepsO | apply ite_keepsO | apply refused_keepsO | apply fault_keepsO
    | apply State.pgCtrlWrite_keeps | apply busWrite_keeps | intro _ _ _ _ | intro _ _ _ | intro _ _ | intro _
    | (refine Keeps.upd ?_; first | assumption | apply State.pgCtrlWrite_keeps | apply busWrite_keeps)

theorem execAclWrite_keeps {z : State} {b} {p} {v} {s : State} (hz : Keeps z s) :
    KeepsO z (execAclWrite b p v s) := by
  unfold execAclWrite
  with_reducible repeat' first
    | assumption | apply ite_keeps | apply next_keepsO | apply ite_keepsO | apply refused_keepsO | apply fault_keepsO
    | apply State.aclWrite_keeps | apply busWrite_keeps | intro _ _ _ _ | intro _ _ _ | intro _ _ | intro _
    | (refine Keeps.upd ?_; first | assumption | apply State.aclWrite_keeps | apply busWrite_keeps)

end Sys2Proof.Machine
end

