-- ==== Sys2Proof/Laws/KeepsRegWrite.lean ====
section
/-! SUPPORT. What every operation of Machine/RegWrite.lean keeps (Laws/Keeps.lean). -/
-- one script for every shape of goal: what a goal does not need is not reported
set_option linter.all false
namespace Sys2Proof.Machine

theorem State.modeWritten_keeps {z : State} {s : State} {n} (hz : Keeps z s) :
    Keeps z (State.modeWritten s n) := by
  unfold State.modeWritten
  with_reducible repeat' first
    | assumption | apply ite_keeps | apply State.stnShowMembers_keeps | apply State.cnsShow_keeps
    | apply State.laserPaths_keeps | apply State.pinUpdate_keeps | apply forN_keeps | apply forL_keeps
    | apply forL_keeps_fst | intro _ _ _ _ | intro _ _ _ | intro _ _ | intro _
    | (refine Keeps.upd ?_; first | assumption | apply State.stnShowMembers_keeps | apply State.cnsShow_keeps | apply State.laserPaths_keeps | apply State.pinUpdate_keeps | apply forN_keeps | apply forL_keeps)

theorem State.written_keeps {z : State} {s : State} {p} {off} (hz : Keeps z s) :
    Keeps z (State.written s p off) := by
  unfold State.written
  with_reducible repeat' first
    | assumption | (extract_lets +onlyGivenNames x; clear_value x) | extract_lets | apply ite_keeps
    | apply State.updSrc_keeps | apply State.netClock_keeps | apply State.ddrClock_keeps
    | apply State.slotsWritten_keeps | apply State.thmWritten_keeps | apply State.bldcCurve_keeps
    | apply State.cnsShow_keeps | apply State.hpWritten_keeps | apply State.lpWritten_keeps
    | apply State.modeWritten_keeps
    | (refine Keeps.upd ?_; first | assumption | apply State.updSrc_keeps | apply State.netClock_keeps | apply State.ddrClock_keeps | apply State.slotsWritten_keeps | apply State.thmWritten_keeps | apply State.bldcCurve_keeps | apply State.cnsShow_keeps | apply State.hpWritten_keeps | apply State.lpWritten_keeps | apply State.modeWritten_keeps)
    | split | (refine Keeps.of_fst (by assumption) ?_) | (refine Keeps.of_snd (by assumption) ?_)

theorem State.writeRefused_keeps {z : State} {s : State} {p} {off} (hz : Keeps z s) :
    Keeps z (State.writeRefused s p off) := by
  unfold State.writeRefused
  with_reducible repeat' first
    | assumption | (extract_lets +onlyGivenNames x; clear_value x) | extract_lets | apply ite_keeps
    | apply State.pwrSoot_keeps | apply State.loopRefuse_keeps | apply State.soot_keeps | apply State.portConfig_keeps
    | apply State.laserConfig_keeps
    | (refine Keeps.upd ?_; first | assumption | apply State.pwrSoot_keeps | apply State.loopRefuse_keeps | apply State.soot_keeps | apply State.portConfig_keeps | apply State.laserConfig_keeps)
    | split | (refine Keeps.of_fst (by assumption) ?_) | (refine Keeps.of_snd (by assumption) ?_)

theorem State.blockPlain_keeps {z : State} {s : State} {p} {off} {v} (hz : Keeps z s) :
    Keeps z (State.blockPlain s p off v) := by
  unfold State.blockPlain
  with_reducible repeat' first
    | assumption | apply ite_keeps | apply rwl_keeps | apply State.plainWrite_keeps | apply State.written_keeps
    | apply State.writeRefused_keeps | intro _ _ _ _ | intro _ _ _ | intro _ _ | intro _
    | (refine Keeps.upd ?_; first | assumption | apply rwl_keeps | apply State.plainWrite_keeps | apply State.written_keeps | apply State.writeRefused_keeps)

theorem State.plicWr_keeps {z : State} {s : State} {o} {v} (hz : Keeps z s) :
    Keeps z (State.plicWr s o v) := by
  unfold State.plicWr
  with_reducible repeat' first
    | assumption | apply ite_keeps | (refine Keeps.upd ?_; first | assumption)

theorem State.plicWrite_keeps {z : State} {s : State} {o} {v} (hz : Keeps z s) :
    Keeps z (State.plicWrite s o v) := by
  unfold State.plicWrite
  with_reducible repeat' first
    | assumption | apply ite_keeps | apply State.plicWr_keeps
    | (refine Keeps.upd ?_; first | assumption | apply State.plicWr_keeps)

theorem pwrCmdWrite_keeps {z : State} {b} {v} {s : State} (hz : Keeps z s) :
    KeepsO z (pwrCmdWrite b v s) := by
  unfold pwrCmdWrite
  with_reducible repeat' first
    | assumption
    | (extract_lets +onlyGivenNames x; refine (fun hx : Keeps z x => ?_) ?_; rotate_left; subst x; rotate_left; try clear_value x)
    | (extract_lets +onlyGivenNames x; clear_value x) | extract_lets | apply ite_keeps | apply next_keepsO
    | apply ite_keepsO | apply refused_keepsO | apply fault_keepsO | apply State.pwrCancel_keeps
    | apply State.pwrProceed_keeps | apply busWrite_keeps | intro _ _ _ _ | intro _ _ _ | intro _ _ | intro _
    | (refine Keeps.upd ?_; first | assumption | apply State.pwrCancel_keeps | apply State.pwrProceed_keeps | apply busWrite_keeps)
    | split | (refine Keeps.of_fst (by assumption) ?_) | (refine Keeps.of_snd (by assumption) ?_)

theorem secCmdWrite_keeps {z : State} {b} {k} {v} {s : State} (hz : Keeps z s) :
    KeepsO z (secCmdWrite b k v s) := by
  unfold secCmdWrite
  with_reducible repeat' first
    | assumption | (extract_lets +onlyGivenNames x; clear_value x) | extract_lets | apply ite_keeps
    | apply next_keepsO | apply ite_keepsO | apply refused_keepsO | apply fault_keepsO | apply request_keeps
    | apply execRandom_keeps | apply execRmaUnlock_keeps | apply execDebugUnlock_keeps | apply execSetBootSlot_keeps
    | apply execRollbackCommit_keeps | apply execRevokeBootKey_keeps | apply execSecure_keeps
    | apply execProvision_keeps | apply execProgKeySet_keeps | apply execRecKeyGen_keeps | apply execTplKeySet_keeps
    | apply execOwnerReset_keeps | apply execTransferOwnership_keeps | apply execTakeOwnership_keeps
    | apply execCredClear_keeps | apply execCredSet_keeps | apply execDropRole_keeps | apply execSetRole_keeps
    | apply execGetChallenge_keeps | (refine KeepsO.of_next ?_ (by assumption)) | intro _ _ _ _ | intro _ _ _
    | intro _ _ | intro _ | (refine Keeps.upd ?_; first | assumption) | split
    | (refine Keeps.of_fst (by assumption) ?_) | (refine Keeps.of_snd (by assumption) ?_)

theorem centralRow_keeps {z : State} {b} {p} {off} {v} {s : State} (hz : Keeps z s) :
    KeepsP z (centralRow b p off v s) := by
  unfold centralRow
  with_reducible repeat' first
    | assumption | (extract_lets +onlyGivenNames x; clear_value x) | extract_lets | apply ite_keeps
    | apply next_keepsO | apply ite_keepsO | apply refused_keepsO | apply fault_keepsO | apply execWearSaveNow_keeps
    | apply execWearCapture_keeps | apply execDomainControlWrite_keeps | apply pwrCmdWrite_keeps
    | apply execPowerStateRequest_keeps | apply execThmPeakClear_keeps | apply execClockOutputWrite_keeps
    | apply execPherrClear_keeps | apply execSynRun_keeps | apply execFltLogCapture_keeps | apply execFltRelease_keeps
    | apply execFltAck_keeps | apply execFltSelectCapture_keeps | apply execRegionWrite_keeps
    | apply secCmdWrite_keeps | apply execChainCapture_keeps | apply execMdioGo_keeps | apply execTzWrite_keeps
    | apply execTzStdWrite_keeps | apply execUtcOffsetWrite_keeps | apply State.timCmd_keeps
    | apply execTimRateWrite_keeps | apply execSwiClr_keeps | apply execSwiSet_keeps | apply State.acvClear_keeps
    | apply busWrite_keeps | apply none_keepsP | apply ite_keepsP | apply some_keepsP
    | (refine KeepsO.of_next ?_ (by assumption)) | intro _ _ _ _ | intro _ _ _ | intro _ _ | intro _
    | (refine Keeps.upd ?_; first | assumption | apply State.timCmd_keeps | apply State.acvClear_keeps | apply busWrite_keeps)
    | split | (refine Keeps.of_fst (by assumption) ?_) | (refine Keeps.of_snd (by assumption) ?_)

theorem memRow_keeps {z : State} {b} {p} {off} {v} {s : State} (hz : Keeps z s) :
    KeepsP z (memRow b p off v s) := by
  unfold memRow
  with_reducible repeat' first
    | assumption | (extract_lets +onlyGivenNames x; clear_value x) | extract_lets | apply ite_keeps
    | apply next_keepsO | apply ite_keepsO | apply refused_keepsO | apply fault_keepsO | apply State.doorbell_keeps
    | apply State.qWmWrite_keeps | apply State.qBaseWrite_keeps | apply execQueueConfigWrite_keeps
    | apply execQueueSelectCapture_keeps | apply State.dmaCtrlWrite_keeps | apply execSrmRepairLoad_keeps
    | apply execSrmRepairCapture_keeps | apply execSrmCeCntClear_keeps | apply execRemapEntryCapture_keeps
    | apply State.ddrCmdWrite_keeps | apply busWrite_keeps | apply execElogCapture_keeps
    | apply execDdrCeCntClear_keeps | apply none_keepsP | apply ite_keepsP | apply some_keepsP
    | (refine KeepsO.of_next ?_ (by assumption)) | intro _ _ _ _ | intro _ _ _ | intro _ _ | intro _
    | (refine Keeps.upd ?_; first | assumption | apply State.doorbell_keeps | apply State.qWmWrite_keeps | apply State.qBaseWrite_keeps | apply State.dmaCtrlWrite_keeps | apply State.ddrCmdWrite_keeps | apply busWrite_keeps)
    | split | (refine Keeps.of_fst (by assumption) ?_) | (refine Keeps.of_snd (by assumption) ?_)

theorem mbRow_keeps {z : State} {b} {u} {off} {v} {s : State} (hz : Keeps z s) :
    KeepsP z (mbRow b u off v s) := by
  unfold mbRow
  with_reducible repeat' first
    | assumption | (extract_lets +onlyGivenNames x; clear_value x) | extract_lets | apply ite_keeps
    | apply next_keepsO | apply ite_keepsO | apply refused_keepsO | apply fault_keepsO | apply execMbVpeakClear_keeps
    | apply State.mbCmdWrite_keeps | apply busWrite_keeps | apply none_keepsP | apply ite_keepsP | apply some_keepsP
    | (refine KeepsO.of_next ?_ (by assumption)) | intro _ _ _ _ | intro _ _ _ | intro _ _ | intro _
    | (refine Keeps.upd ?_; first | assumption | apply State.mbCmdWrite_keeps | apply busWrite_keeps) | split
    | (refine Keeps.of_fst (by assumption) ?_) | (refine Keeps.of_snd (by assumption) ?_)

theorem bldcRow_keeps {z : State} {b} {k} {off} {v} {s : State} (hz : Keeps z s) :
    KeepsP z (bldcRow b k off v s) := by
  unfold bldcRow
  with_reducible repeat' first
    | assumption | apply ite_keeps | apply next_keepsO | apply ite_keepsO | apply refused_keepsO | apply fault_keepsO
    | apply State.blCmdWrite_keeps | apply busWrite_keeps | apply none_keepsP | apply ite_keepsP | apply some_keepsP
    | intro _ _ _ _ | intro _ _ _ | intro _ _ | intro _
    | (refine Keeps.upd ?_; first | assumption | apply State.blCmdWrite_keeps | apply busWrite_keeps)

theorem stpRow_keeps {z : State} {b} {p} {off} {v} {s : State} (hz : Keeps z s) :
    KeepsP z (stpRow b p off v s) := by
  unfold stpRow
  with_reducible repeat' first
    | assumption | (extract_lets +onlyGivenNames x; clear_value x) | extract_lets | apply ite_keeps
    | apply next_keepsO | apply ite_keepsO | apply refused_keepsO | apply fault_keepsO | apply execDcDutyWrite_keeps
    | apply State.stpCmdWrite_keeps | apply busWrite_keeps | apply execProfileParamWrite_keeps
    | apply execStepperTargetWrite_keeps | apply none_keepsP | apply ite_keepsP | apply some_keepsP
    | (refine KeepsO.of_next ?_ (by assumption)) | intro _ _ _ _ | intro _ _ _ | intro _ _ | intro _
    | (refine Keeps.upd ?_; first | assumption | apply State.stpCmdWrite_keeps | apply busWrite_keeps) | split
    | (refine Keeps.of_fst (by assumption) ?_) | (refine Keeps.of_snd (by assumption) ?_)

theorem ldpRow_keeps {z : State} {b} {d} {off} {v} {s : State} (hz : Keeps z s) :
    KeepsP z (ldpRow b d off v s) := by
  unfold ldpRow
  with_reducible repeat' first
    | assumption
    | (extract_lets +onlyGivenNames x; refine (fun hx : Keeps z x => ?_) ?_; rotate_left; subst x; rotate_left; try clear_value x)
    | (extract_lets +onlyGivenNames x; refine (fun hx : Keeps z x.1 => ?_) ?_; rotate_left; subst x; rotate_left; try clear_value x)
    | (extract_lets +onlyGivenNames x; refine (fun hx : Keeps z x.2 => ?_) ?_; rotate_left; subst x; rotate_left; try clear_value x)
    | (extract_lets +onlyGivenNames x; refine (fun hp : ∀ f, (∀ s, Keeps z s → Keeps z (f s)) → KeepsP z (x f) => ?_) ?_; rotate_left; subst x; rotate_left; try clear_value x)
    | (extract_lets +onlyGivenNames x; refine (fun hf0 : ∀ s, Keeps z s → Keeps z (x s) => ?_) ?_; rotate_left; subst x; rotate_left; try clear_value x)
    | (extract_lets +onlyGivenNames x; refine (fun hf1 : ∀ s a, Keeps z s → Keeps z (x s a) => ?_) ?_; rotate_left; subst x; rotate_left; try clear_value x)
    | (extract_lets +onlyGivenNames x; refine (fun hf2 : ∀ a s, Keeps z s → Keeps z (x a s) => ?_) ?_; rotate_left; subst x; rotate_left; try clear_value x)
    | (extract_lets +onlyGivenNames x; refine (fun hf3 : ∀ s a b, Keeps z s → Keeps z (x s a b) => ?_) ?_; rotate_left; subst x; rotate_left; try clear_value x)
    | (extract_lets +onlyGivenNames x; refine (fun hf4 : ∀ a b s, Keeps z s → Keeps z (x a b s) => ?_) ?_; rotate_left; subst x; rotate_left; try clear_value x)
    | (extract_lets +onlyGivenNames x; refine (fun hf5 : ∀ a s b, Keeps z s → Keeps z (x a s b) => ?_) ?_; rotate_left; subst x; rotate_left; try clear_value x)
    | (extract_lets +onlyGivenNames x; refine (fun hf6 : ∀ a, Keeps z (x a) => ?_) ?_; rotate_left; subst x; rotate_left; try clear_value x)
    | (extract_lets +onlyGivenNames x; clear_value x) | extract_lets | apply ite_keeps | apply next_keepsO
    | apply ite_keepsO | apply refused_keepsO | apply fault_keepsO | apply State.coefWr_keeps
    | apply execLoopFePeakClear_keeps | apply State.loopCmdWrite_keeps | apply State.loopCfgWrite_keeps
    | apply busWrite_keeps | apply none_keepsP | apply ite_keepsP | apply some_keepsP
    | (refine KeepsO.of_next ?_ (by assumption)) | apply hp | apply hf0 | apply hf1 | apply hf2 | apply hf3
    | apply hf4 | apply hf5 | apply hf6 | intro _ _ _ _ | intro _ _ _ | intro _ _ | intro _
    | (refine Keeps.upd ?_; first | assumption | (refine Keeps.of_fst (by assumption) ?_) | (refine Keeps.of_snd (by assumption) ?_) | apply State.coefWr_keeps | apply State.loopCmdWrite_keeps | apply State.loopCfgWrite_keeps | apply busWrite_keeps)
    | split | (refine Keeps.of_fst (by assumption) ?_) | (refine Keeps.of_snd (by assumption) ?_)

theorem dmkRow_keeps {z : State} {b} {off} {v} {s : State} (hz : Keeps z s) :
    KeepsP z (dmkRow b off v s) := by
  unfold dmkRow
  with_reducible repeat' first
    | assumption | (extract_lets +onlyGivenNames x; clear_value x) | extract_lets | apply ite_keeps
    | apply next_keepsO | apply ite_keepsO | apply refused_keepsO | apply fault_keepsO
    | apply execTemplateSelect_keeps | apply State.serCmd_keeps | apply execSerialCapture_keeps
    | apply execOperatorEntryCommit_keeps | apply execLotCommit_keeps | apply State.lotSelect_keeps
    | apply execRenderMaxClear_keeps | apply execTplInfoCapture_keeps | apply State.tplCmd_keeps
    | apply busWrite_keeps | apply execDmkPeakClear_keeps | apply none_keepsP | apply ite_keepsP | apply some_keepsP
    | (refine KeepsO.of_next ?_ (by assumption)) | intro _ _ _ _ | intro _ _ _ | intro _ _ | intro _
    | (refine Keeps.upd ?_; first | assumption | apply State.serCmd_keeps | apply State.lotSelect_keeps | apply State.tplCmd_keeps | apply busWrite_keeps)
    | split | (refine Keeps.of_fst (by assumption) ?_) | (refine Keeps.of_snd (by assumption) ?_)

theorem linRow_keeps {z : State} {b} {off} {v} {s : State} (hz : Keeps z s) :
    KeepsP z (linRow b off v s) := by
  unfold linRow
  with_reducible repeat' first
    | assumption | (extract_lets +onlyGivenNames x; clear_value x) | extract_lets | apply ite_keeps
    | apply next_keepsO | apply ite_keepsO | apply refused_keepsO | apply fault_keepsO | apply State.cmpPosWrite_keeps
    | apply State.vencRateWrite_keeps | apply busWrite_keeps | apply execLinCfgDisable_keeps
    | apply execMapWrite_keeps | apply execTrkSelCapture_keeps | apply execForcePid_keeps
    | apply execLsrCtrlWrite_keeps | apply execPolicyWrite_keeps | apply execPidNextWrite_keeps
    | apply execTrkPeakClear_keeps | apply none_keepsP | apply ite_keepsP | apply some_keepsP
    | (refine KeepsO.of_next ?_ (by assumption)) | intro _ _ _ _ | intro _ _ _ | intro _ _ | intro _
    | (refine Keeps.upd ?_; first | assumption | apply State.cmpPosWrite_keeps | apply State.vencRateWrite_keeps | apply busWrite_keeps)
    | split | (refine Keeps.of_fst (by assumption) ?_) | (refine Keeps.of_snd (by assumption) ?_)

theorem unitJobWrite_keeps {z : State} {b} {u} {o} {v} {s : State} (hz : Keeps z s) :
    KeepsP z (unitJobWrite b u o v s) := by
  unfold unitJobWrite
  with_reducible repeat' first
    | assumption | (extract_lets +onlyGivenNames x; clear_value x) | extract_lets | apply ite_keeps
    | apply next_keepsO | apply ite_keepsO | apply refused_keepsO | apply fault_keepsO
    | apply execJobEntryCapture_keeps | apply execJobCancel_keeps | apply execManualAdmit_keeps
    | apply execChjPeakClear_keeps | apply none_keepsP | apply ite_keepsP | apply some_keepsP
    | (refine KeepsO.of_next ?_ (by assumption)) | (refine Keeps.upd ?_; first | assumption) | split
    | (refine Keeps.of_fst (by assumption) ?_) | (refine Keeps.of_snd (by assumption) ?_)

theorem unitCtrlWrite_keeps {z : State} {b} {u} {v} {s : State} (hz : Keeps z s) :
    KeepsO z (unitCtrlWrite b u v s) := by
  unfold unitCtrlWrite
  with_reducible repeat' first
    | assumption | apply ite_keeps | apply next_keepsO | apply ite_keepsO | apply refused_keepsO | apply fault_keepsO
    | apply State.unitStop_keeps | apply State.unitStart_keeps | apply busWrite_keeps | intro _ _ _ _ | intro _ _ _
    | intro _ _ | intro _
    | (refine Keeps.upd ?_; first | assumption | apply State.unitStop_keeps | apply State.unitStart_keeps | apply busWrite_keeps)

theorem chanRow_keeps {z : State} {b} {n} {k} {off} {v} {s : State} (hz : Keeps z s) :
    KeepsP z (chanRow b n k off v s) := by
  unfold chanRow
  with_reducible repeat' first
    | assumption
    | (extract_lets +onlyGivenNames x; refine (fun hx : Keeps z x => ?_) ?_; rotate_left; subst x; rotate_left; try clear_value x)
    | (extract_lets +onlyGivenNames x; refine (fun hx : Keeps z x.1 => ?_) ?_; rotate_left; subst x; rotate_left; try clear_value x)
    | (extract_lets +onlyGivenNames x; refine (fun hx : Keeps z x.2 => ?_) ?_; rotate_left; subst x; rotate_left; try clear_value x)
    | (extract_lets +onlyGivenNames x; refine (fun hp : ∀ f, (∀ s, Keeps z s → Keeps z (f s)) → KeepsP z (x f) => ?_) ?_; rotate_left; subst x; rotate_left; try clear_value x)
    | (extract_lets +onlyGivenNames x; refine (fun hf0 : ∀ s, Keeps z s → Keeps z (x s) => ?_) ?_; rotate_left; subst x; rotate_left; try clear_value x)
    | (extract_lets +onlyGivenNames x; refine (fun hf1 : ∀ s a, Keeps z s → Keeps z (x s a) => ?_) ?_; rotate_left; subst x; rotate_left; try clear_value x)
    | (extract_lets +onlyGivenNames x; refine (fun hf2 : ∀ a s, Keeps z s → Keeps z (x a s) => ?_) ?_; rotate_left; subst x; rotate_left; try clear_value x)
    | (extract_lets +onlyGivenNames x; refine (fun hf3 : ∀ s a b, Keeps z s → Keeps z (x s a b) => ?_) ?_; rotate_left; subst x; rotate_left; try clear_value x)
    | (extract_lets +onlyGivenNames x; refine (fun hf4 : ∀ a b s, Keeps z s → Keeps z (x a b s) => ?_) ?_; rotate_left; subst x; rotate_left; try clear_value x)
    | (extract_lets +onlyGivenNames x; refine (fun hf5 : ∀ a s b, Keeps z s → Keeps z (x a s b) => ?_) ?_; rotate_left; subst x; rotate_left; try clear_value x)
    | (extract_lets +onlyGivenNames x; refine (fun hf6 : ∀ a, Keeps z (x a) => ?_) ?_; rotate_left; subst x; rotate_left; try clear_value x)
    | (extract_lets +onlyGivenNames x; clear_value x) | extract_lets | apply ite_keeps | apply next_keepsO
    | apply ite_keepsO | apply refused_keepsO | apply fault_keepsO | apply State.cnsCmdWrite_keeps
    | apply State.lkCmdWrite_keeps | apply State.embCmdWrite_keeps | apply execBindFePeakClear_keeps
    | apply State.portConfig_keeps | apply State.auditCfgWrite_keeps | apply execDurMaxClear_keeps
    | apply State.lpCmdWrite_keeps | apply execGridDataWrite_keeps | apply unitJobWrite_keeps | apply seqCtrlBus_keeps
    | apply unitCtrlWrite_keeps | apply busWrite_keeps | apply none_keepsP | apply ite_keepsP | apply some_keepsP
    | (refine KeepsP.of_some ?_ (by assumption)) | (refine KeepsO.of_next ?_ (by assumption)) | apply hp | apply hf0
    | apply hf1 | apply hf2 | apply hf3 | apply hf4 | apply hf5 | apply hf6 | intro _ _ _ _ | intro _ _ _ | intro _ _
    | intro _
    | (refine Keeps.upd ?_; first | assumption | (refine Keeps.of_fst (by assumption) ?_) | (refine Keeps.of_snd (by assumption) ?_) | apply State.cnsCmdWrite_keeps | apply State.lkCmdWrite_keeps | apply State.embCmdWrite_keeps | apply State.portConfig_keeps | apply State.auditCfgWrite_keeps | apply State.lpCmdWrite_keeps | apply busWrite_keeps)
    | split | (refine Keeps.of_fst (by assumption) ?_) | (refine Keeps.of_snd (by assumption) ?_)

theorem blockRow_keeps {z : State} {b} {p} {off} {v} {s : State} (hz : Keeps z s) :
    KeepsP z (blockRow b p off v s) := by
  unfold blockRow
  with_reducible repeat' first
    | assumption | (extract_lets +onlyGivenNames x; clear_value x) | extract_lets | apply ite_keeps
    | apply next_keepsO | apply ite_keepsO | apply refused_keepsO | apply fault_keepsO | apply centralRow_keeps
    | apply memRow_keeps | apply mbRow_keeps | apply bldcRow_keeps | apply stpRow_keeps | apply ldpRow_keeps
    | apply dmkRow_keeps | apply linRow_keeps | apply execStationConfigWrite_keeps | apply unitJobWrite_keeps
    | apply unitCtrlWrite_keeps | apply seqCtrlBus_keeps | apply chanRow_keeps | apply none_keepsP | apply ite_keepsP
    | apply some_keepsP | (refine KeepsP.of_some ?_ (by assumption)) | (refine KeepsO.of_next ?_ (by assumption))
    | (refine Keeps.upd ?_; first | assumption) | split | (refine Keeps.of_fst (by assumption) ?_)
    | (refine Keeps.of_snd (by assumption) ?_)

theorem headerWrite_keeps {z : State} {b} {p} {off} {v} {s : State} (hz : Keeps z s) :
    Keeps z (headerWrite b p off v s) := by
  unfold headerWrite
  with_reducible repeat' first
    | assumption | (extract_lets +onlyGivenNames x; clear_value x) | extract_lets | apply ite_keeps
    | apply State.lockWrite_keeps | apply State.wrf_keeps | apply State.wr_keeps | apply State.sootMaskWrite_keeps
    | apply State.sootWrite_keeps | apply State.drawWord_keeps | apply State.pgCtrlWrite_keeps
    | apply State.aclWrite_keeps | apply busWrite_keeps | intro _ _ _ _ | intro _ _ _ | intro _ _ | intro _
    | (refine Keeps.upd ?_; first | assumption | apply State.lockWrite_keeps | apply State.wrf_keeps | apply State.wr_keeps | apply State.sootMaskWrite_keeps | apply State.sootWrite_keeps | apply State.drawWord_keeps | apply State.pgCtrlWrite_keeps | apply State.aclWrite_keeps | apply busWrite_keeps)
    | split | (refine Keeps.of_fst (by assumption) ?_) | (refine Keeps.of_snd (by assumption) ?_)

theorem regWrite_keeps {z : State} {b} {a} {v} {s : State} (hz : Keeps z s) :
    KeepsO z (regWrite b a v s) := by
  unfold regWrite
  with_reducible repeat' first
    | assumption | (extract_lets +onlyGivenNames x; clear_value x) | extract_lets | apply ite_keeps
    | apply next_keepsO | apply ite_keepsO | apply refused_keepsO | apply fault_keepsO | apply State.blockPlain_keeps
    | apply blockRow_keeps | apply headerWrite_keeps | apply State.respond_keeps | apply busWrite_keeps
    | (refine KeepsP.of_some ?_ (by assumption)) | (unfold id; assumption) | intro _ _ _ _ | intro _ _ _ | intro _ _
    | intro _
    | (refine Keeps.upd ?_; first | assumption | apply State.blockPlain_keeps | apply headerWrite_keeps | apply State.respond_keeps | apply busWrite_keeps)
    | split | (refine Keeps.of_fst (by assumption) ?_) | (refine Keeps.of_snd (by assumption) ?_)

theorem memBusWrite_keeps {z : State} {b} {a} {size} {v} {s : State} (hz : Keeps z s) :
    Keeps z (memBusWrite b a size v s) := by
  unfold memBusWrite
  with_reducible repeat' first
    | assumption | (extract_lets +onlyGivenNames x; clear_value x) | extract_lets | apply ite_keeps
    | apply State.wrMem_keeps | apply State.refuse_keeps | apply State.cnt_keeps | apply State.respond_keeps
    | (refine Keeps.upd ?_; first | assumption | apply State.wrMem_keeps | apply State.refuse_keeps | apply State.cnt_keeps | apply State.respond_keeps)
    | split | (refine Keeps.of_fst (by assumption) ?_) | (refine Keeps.of_snd (by assumption) ?_)

theorem anyWrite_keeps {z : State} {b} {a} {size} {v} {s : State} (hz : Keeps z s) :
    KeepsO z (anyWrite b a size v s) := by
  unfold anyWrite
  with_reducible repeat' first
    | assumption | apply ite_keeps | apply next_keepsO | apply ite_keepsO | apply refused_keepsO | apply fault_keepsO
    | apply regWrite_keeps | apply State.plicWrite_keeps | apply State.refuse_keeps | apply State.respond_keeps
    | apply memBusWrite_keeps | (refine KeepsO.of_next ?_ (by assumption))
    | (refine Keeps.upd ?_; first | assumption | apply State.plicWrite_keeps | apply State.refuse_keeps | apply State.respond_keeps | apply memBusWrite_keeps)

theorem outState_keeps {z : State} {o : Out} {s : State} (ho : KeepsO z o) (hz : Keeps z s) : Keeps z (outState o s) := by
  unfold outState
  split
  · exact ho.next _ rfl
  · exact hz

theorem portWrite_keeps {z : State} {n} {off} {v} {s : State} (hz : Keeps z s) :
    KeepsO z (portWrite n off v s) := by
  unfold portWrite
  with_reducible repeat' first
    | assumption
    | (extract_lets +onlyGivenNames x; refine (fun hx : Keeps z x => ?_) ?_; rotate_left; subst x; rotate_left; try clear_value x)
    | (extract_lets +onlyGivenNames x; refine (fun hx : Keeps z x.1 => ?_) ?_; rotate_left; subst x; rotate_left; try clear_value x)
    | (extract_lets +onlyGivenNames x; refine (fun hx : Keeps z x.2 => ?_) ?_; rotate_left; subst x; rotate_left; try clear_value x)
    | (extract_lets +onlyGivenNames x; refine (fun ho0 : ∀ a, KeepsO z (x a) => ?_) ?_; rotate_left; subst x; rotate_left; try clear_value x)
    | (extract_lets +onlyGivenNames x; refine (fun ho1 : ∀ s, Keeps z s → KeepsO z (x s) => ?_) ?_; rotate_left; subst x; rotate_left; try clear_value x)
    | (extract_lets +onlyGivenNames x; refine (fun ho2 : ∀ s a, Keeps z s → KeepsO z (x s a) => ?_) ?_; rotate_left; subst x; rotate_left; try clear_value x)
    | (extract_lets +onlyGivenNames x; refine (fun hf0 : ∀ s, Keeps z s → Keeps z (x s) => ?_) ?_; rotate_left; subst x; rotate_left; try clear_value x)
    | (extract_lets +onlyGivenNames x; refine (fun hf1 : ∀ s a, Keeps z s → Keeps z (x s a) => ?_) ?_; rotate_left; subst x; rotate_left; try clear_value x)
    | (extract_lets +onlyGivenNames x; refine (fun hf2 : ∀ a s, Keeps z s → Keeps z (x a s) => ?_) ?_; rotate_left; subst x; rotate_left; try clear_value x)
    | (extract_lets +onlyGivenNames x; refine (fun hf3 : ∀ s a b, Keeps z s → Keeps z (x s a b) => ?_) ?_; rotate_left; subst x; rotate_left; try clear_value x)
    | (extract_lets +onlyGivenNames x; refine (fun hf4 : ∀ a b s, Keeps z s → Keeps z (x a b s) => ?_) ?_; rotate_left; subst x; rotate_left; try clear_value x)
    | (extract_lets +onlyGivenNames x; refine (fun hf5 : ∀ a s b, Keeps z s → Keeps z (x a s b) => ?_) ?_; rotate_left; subst x; rotate_left; try clear_value x)
    | (extract_lets +onlyGivenNames x; refine (fun hf6 : ∀ a, Keeps z (x a) => ?_) ?_; rotate_left; subst x; rotate_left; try clear_value x)
    | (extract_lets +onlyGivenNames x; clear_value x) | extract_lets | apply ite_keeps | apply next_keepsO
    | apply ite_keepsO | apply refused_keepsO | apply fault_keepsO | apply execTpKick_keeps | apply execTpCond_keeps
    | apply execTpJobEnd_keeps | apply execTpEdgeCmd_keeps | apply execTpPredPos_keeps | apply execTpWaitTick_keeps
    | apply execTpWaitPos_keeps | apply State.updSeq_keeps | apply State.port_keeps
    | (refine KeepsO.of_next ?_ (by assumption)) | apply hf0 | apply hf1 | apply hf2 | apply hf3 | apply hf4
    | apply hf5 | apply hf6 | apply ho0 | apply ho1 | apply ho2 | intro _ _ _ _ | intro _ _ _ | intro _ _ | intro _
    | (refine Keeps.upd ?_; first | assumption | (refine Keeps.of_fst (by assumption) ?_) | (refine Keeps.of_snd (by assumption) ?_) | apply State.updSeq_keeps)
    | split | (refine Keeps.of_fst (by assumption) ?_) | (refine Keeps.of_snd (by assumption) ?_)

theorem execRegisterWrite_keeps {z : State} {b} {t} {size} {v} {s : State} (hz : Keeps z s) :
    KeepsO z (execRegisterWrite b t size v s) := by
  unfold execRegisterWrite
  with_reducible repeat' first
    | assumption | (extract_lets +onlyGivenNames x; clear_value x) | extract_lets | apply ite_keeps
    | apply next_keepsO | apply ite_keepsO | apply refused_keepsO | apply fault_keepsO | apply portWrite_keeps
    | apply anyWrite_keeps | (refine KeepsO.of_next ?_ (by assumption)) | (refine Keeps.upd ?_; first | assumption)
    | split | (refine Keeps.of_fst (by assumption) ?_) | (refine Keeps.of_snd (by assumption) ?_)

end Sys2Proof.Machine
end

