-- ==== Sys2Proof/Laws/KeepsGenDma.lean ====
section
/-! SUPPORT. What every operation of Machine/GenDma.lean keeps (Laws/Keeps.lean). -/
-- one script for every shape of goal: what a goal does not need is not reported
set_option linter.all false
namespace Sys2Proof.Machine

theorem State.copyPut_keeps {z : State} {s : State} {d} {down} {l} {done} (hz : Keeps z s) :
    Keeps z (State.copyPut s d down l done) := by
  unfold State.copyPut
  with_reducible repeat' first
    | assumption | apply ite_keeps | apply State.wrMem_keeps
    | (refine Keeps.upd ?_; first | assumption | apply State.wrMem_keeps)

theorem State.genDone_keeps {z : State} {s : State} {k} {d} (hz : Keeps z s) :
    Keeps z (State.genDone s k d) := by
  unfold State.genDone
  with_reducible repeat' first
    | assumption | apply ite_keeps | apply State.irq_keeps | apply State.dmaIdle_keeps | apply State.cntW_keeps
    | apply State.wr_keeps
    | (refine Keeps.upd ?_; first | assumption | apply State.irq_keeps | apply State.dmaIdle_keeps | apply State.cntW_keeps | apply State.wr_keeps)

theorem State.genEnd_keeps {z s : State} {k : Nat} {d : Desc} {e : CopyEnd} (hz : Keeps z e.st) :
    Keeps z (s.genEnd k d e) := by
  unfold State.genEnd
  extract_lets v t
  have ht : Keeps z t := Keeps.upd hz
  clear_value t
  split
  · exact State.genDone_keeps ht
  · exact State.genFail_keeps (State.wr_keeps ht)

theorem State.stpCapture_keeps {z : State} {s : State} {p} (hz : Keeps z s) :
    Keeps z (State.stpCapture s p) := by
  unfold State.stpCapture
  with_reducible repeat' first
    | assumption | apply State.wr_keeps | apply State.wrf_keeps

theorem copyMem_keeps {z : State} {role : Role} {d : Desc} {k : Nat} {down : Bool} {r : XferResult} {s : State} (hz : Keeps z s) :
    Keeps z (copyMem role d k down r s).st := by
  unfold copyMem
  extract_lets
  split
  · exact State.copyPut_keeps hz
  · exact ite_keeps (State.memRefused_keeps (State.copyPut_keeps hz)) (State.copyPut_keeps hz)

theorem regRead_keeps {z : State} {b} {a} {s : State} (hz : Keeps z s) :
    KeepsR z (regRead b a s) := by
  unfold regRead
  with_reducible repeat' first
    | assumption
    | (extract_lets +onlyGivenNames x; refine (fun hx : Keeps z x => ?_) ?_; rotate_left; subst x; rotate_left; try clear_value x)
    | (extract_lets +onlyGivenNames x; refine (fun hx : Keeps z x.1 => ?_) ?_; rotate_left; subst x; rotate_left; try clear_value x)
    | (extract_lets +onlyGivenNames x; refine (fun hx : Keeps z x.2 => ?_) ?_; rotate_left; subst x; rotate_left; try clear_value x)
    | (extract_lets +onlyGivenNames x; refine (fun hp : ∀ p f, KeepsR z (x p f) => ?_) ?_; rotate_left; subst x; rotate_left; try clear_value x)
    | (extract_lets +onlyGivenNames x; refine (fun hf0 : ∀ s, Keeps z s → Keeps z (x s) => ?_) ?_; rotate_left; subst x; rotate_left; try clear_value x)
    | (extract_lets +onlyGivenNames x; refine (fun hf1 : ∀ s a, Keeps z s → Keeps z (x s a) => ?_) ?_; rotate_left; subst x; rotate_left; try clear_value x)
    | (extract_lets +onlyGivenNames x; refine (fun hf2 : ∀ a s, Keeps z s → Keeps z (x a s) => ?_) ?_; rotate_left; subst x; rotate_left; try clear_value x)
    | (extract_lets +onlyGivenNames x; refine (fun hf3 : ∀ s a b, Keeps z s → Keeps z (x s a b) => ?_) ?_; rotate_left; subst x; rotate_left; try clear_value x)
    | (extract_lets +onlyGivenNames x; refine (fun hf4 : ∀ a b s, Keeps z s → Keeps z (x a b s) => ?_) ?_; rotate_left; subst x; rotate_left; try clear_value x)
    | (extract_lets +onlyGivenNames x; refine (fun hf5 : ∀ a s b, Keeps z s → Keeps z (x a s b) => ?_) ?_; rotate_left; subst x; rotate_left; try clear_value x)
    | (extract_lets +onlyGivenNames x; refine (fun hf6 : ∀ a, Keeps z (x a) => ?_) ?_; rotate_left; subst x; rotate_left; try clear_value x)
    | (extract_lets +onlyGivenNames x; clear_value x) | extract_lets | apply ite_keeps | apply next_keepsO
    | apply ite_keepsO | apply refused_keepsO | apply fault_keepsO | apply State.stpCapture_keeps
    | apply busRead_keeps | apply execVencPosCapture_keeps | apply execEncPosCapture_keeps
    | apply execDateClockCapture_keeps | apply execTscCapture_keeps | apply outState_keeps | apply State.plicWr_keeps
    | apply State.refuse_keeps | apply State.respond_keeps | apply foldl_keeps_fst | apply foldl_keeps
    | apply none_keepsR | apply ite_keepsR | apply some_keepsR | (refine KeepsO.of_next ?_ (by assumption)) | apply hp
    | apply hf0 | apply hf1 | apply hf2 | apply hf3 | apply hf4 | apply hf5 | apply hf6 | intro _ _ _ _ | intro _ _ _
    | intro _ _ | intro _
    | (refine Keeps.upd ?_; first | assumption | (refine Keeps.of_fst (by assumption) ?_) | (refine Keeps.of_snd (by assumption) ?_) | apply State.stpCapture_keeps | apply busRead_keeps | apply outState_keeps | apply State.plicWr_keeps | apply State.refuse_keeps | apply State.respond_keeps)
    | split | (refine Keeps.of_fst (by assumption) ?_) | (refine Keeps.of_snd (by assumption) ?_)

theorem copyRead_keeps {z : State} {b : Bus} {d : Desc} {k i : Nat} {s t : State} {o : Option (List Byte)} (hz : Keeps z s)
    (e : copyRead b d k i s = some (t, o)) : Keeps z t := by
  simp only [copyRead] at e
  split at e
  · obtain ⟨u, hu, e⟩ := Option.map_eq_some_iff.1 e
    injection e with e
    exact e ▸ (regRead_keeps hz).of _ hu
  · split at e
    · injection e with e; injection e with e; exact e ▸ State.memRefused_keeps hz
    · injection e with e; injection e with e; exact e ▸ hz

theorem copyWrite_keeps {z : State} {b : Bus} {d : Desc} {k i : Nat} {l : List Byte} {s t : State} {ok : Bool} (hz : Keeps z s)
    (e : copyWrite b d k i l s = .next (t, ok)) : Keeps z t := by
  simp only [copyWrite] at e
  split at e
  · split at e
    · next u hu => injection e with e; injection e with e; exact e ▸ (anyWrite_keeps hz).next _ hu
    · cases e
    · cases e
  · split at e
    · injection e with e; injection e with e; exact e ▸ State.memRefused_keeps hz
    · injection e with e; injection e with e
      exact e ▸ forL_keeps (fun _ _ h => State.wrByte_keeps h) hz

theorem copyWords_keeps {z : State} {b : Bus} {d : Desc} {k : Nat} {r : XferResult} {l : List Nat} {n : Nat} {s : State}
    {e : CopyEnd} (hz : Keeps z s) (h : copyWords b d k r l n s = .next e) : Keeps z e.st := by
  induction l generalizing n s with
  | nil =>
    injection h with h
    exact h ▸ hz
  | cons i l ih =>
    unfold copyWords at h
    extract_lets sa da at h
    clear_value sa da
    split at h
    · injection h with h; exact h ▸ hz
    · split at h
      · split at h
        · cases h
        · injection h with h; exact h ▸ hz
      · next u hu => injection h with h; subst h; exact copyRead_keeps hz hu
      · next u l' hu =>
        have hk := copyRead_keeps hz hu
        split at h
        · injection h with h; exact h ▸ hk
        · split at h
          · next v hv => exact ih (copyWrite_keeps hk hv) h
          · next v hv => injection h with h; subst h; exact copyWrite_keeps hk hv
          · cases h
          · cases h

theorem execDmaAbortDone_keeps {z : State} {k : Fin 16} {s : State} (hz : Keeps z s) : KeepsO z (execDmaAbortDone k s) := by
  unfold execDmaAbortDone
  extract_lets k c
  split
  · exact next_keepsO hz
  · next d hd =>
    split
    · exact next_keepsO hz
    · split
      · have hs : Keeps z s.drawNat.2 := State.drawNat_keeps hz
        generalize s.drawNat = p at hs
        obtain ⟨n, u⟩ := p
        have hs : Keeps z u := hs
        dsimp -zeta only
        extract_lets done stop order
        have hstop : ∀ v done, Keeps z v → Keeps z (stop v done) := fun v done hv =>
          State.genFail_keeps (State.wr_keeps hv)
        clear_value stop
        split
        · split
          · next e he =>
            have hk := copyWords_keeps hs he
            refine next_keepsO ?_
            split
            · exact hstop _ _ (Keeps.upd hk)
            · exact State.genEnd_keeps hk
          · exact fault_keepsO
          · exact refused_keepsO
        · split
          · exact ite_keepsO (next_keepsO (State.genEnd_keeps (copyMem_keeps hs)))
              (next_keepsO (hstop _ _ (State.copyPut_keeps hs)))
          · exact next_keepsO (hstop _ _ (State.copyPut_keeps hs))
      · exact next_keepsO (State.genFail_keeps (State.wr_keeps hz))

theorem genTransfer_keeps {z : State} {k : Nat} {d : Desc} {r : XferResult} {s : State} (hz : Keeps z s) :
    KeepsO z (genTransfer k d r s) := by
  unfold genTransfer
  extract_lets c b
  split
  · split
    · split
      · next e he => exact next_keepsO (State.genEnd_keeps (copyWords_keeps hz he))
      · exact fault_keepsO
      · exact refused_keepsO
    · exact next_keepsO (State.genEnd_keeps (copyMem_keeps hz))
  · split
    · exact next_keepsO hz
    · extract_lets w
      split
      · exact next_keepsO (State.genFail_keeps hz)
      · rename_i fault _
        clear_value fault
        split
        · exact next_keepsO (State.genDone_keeps (State.copyPut_keeps hz))
        · exact next_keepsO (State.genFail_keeps (State.memRefused_keeps (State.copyPut_keeps hz)))

theorem execGenDescriptorComplete_keeps {z : State} {k} {r} {s : State} (hz : Keeps z s) :
    KeepsO z (execGenDescriptorComplete k r s) := by
  unfold execGenDescriptorComplete
  with_reducible repeat' first
    | assumption | (extract_lets +onlyGivenNames x; clear_value x) | extract_lets | apply ite_keeps
    | apply next_keepsO | apply ite_keepsO | apply refused_keepsO | apply fault_keepsO | apply genTransfer_keeps
    | (refine KeepsO.of_next ?_ (by assumption)) | (refine Keeps.upd ?_; first | assumption) | split
    | (refine Keeps.of_fst (by assumption) ?_) | (refine Keeps.of_snd (by assumption) ?_)

end Sys2Proof.Machine
end

