-- ==== Sys2Proof/Laws/KeepsScrub.lean ====
section
/-! SUPPORT. What every operation of Machine/Scrub.lean keeps (Laws/Keeps.lean). -/
-- one script for every shape of goal: what a goal does not need is not reported
set_option linter.all false
namespace Sys2Proof.Machine

theorem State.jobEntryLost_keeps {z : State} {s : State} {n} {j} (hz : Keeps z s) :
    Keeps z (State.jobEntryLost s n j) := by
  unfold State.jobEntryLost
  with_reducible repeat' first
    | assumption | apply ite_keeps | apply State.jobLeaveWith_keeps | apply State.updJob_keeps
    | apply State.drawNat_keeps
    | (refine Keeps.upd ?_; first | assumption | apply State.jobLeaveWith_keeps | apply State.updJob_keeps | apply State.drawNat_keeps)

theorem State.scrubUe_keeps {z : State} {s : State} {m} {row} (hz : Keeps z s) :
    Keeps z (State.scrubUe s m row) := by
  unfold State.scrubUe
  with_reducible repeat' first
    | assumption
    | (extract_lets +onlyGivenNames x; refine (fun hx : Keeps z x => ?_) ?_; rotate_left; subst x; rotate_left; try clear_value x)
    | (extract_lets +onlyGivenNames x; clear_value x) | extract_lets | apply ite_keeps | apply State.seqFail_keeps
    | apply State.jobEntryLost_keeps | apply State.sramUe_keeps
    | (refine Keeps.upd ?_; first | assumption | apply State.seqFail_keeps | apply State.jobEntryLost_keeps | apply State.sramUe_keeps)
    | split | (refine Keeps.of_fst (by assumption) ?_) | (refine Keeps.of_snd (by assumption) ?_)

theorem execSramScrubRead_keeps {z : State} {m} {row} {ecc} {s : State} (hz : Keeps z s) :
    KeepsO z (execSramScrubRead m row ecc s) := by
  unfold execSramScrubRead
  with_reducible repeat' first
    | assumption | (extract_lets +onlyGivenNames x; clear_value x) | extract_lets | apply ite_keeps
    | apply next_keepsO | apply ite_keepsO | apply refused_keepsO | apply fault_keepsO | apply State.scrubUe_keeps
    | apply State.sramCorrected_keeps
    | (refine Keeps.upd ?_; first | assumption | apply State.scrubUe_keeps | apply State.sramCorrected_keeps) | split
    | (refine Keeps.of_fst (by assumption) ?_) | (refine Keeps.of_snd (by assumption) ?_)

end Sys2Proof.Machine
end

