-- ==== Sys2Proof/Laws/Operands.lean ====
section
/-! SUPPORT. What a bus write and a bus read can do, and what a locked page does to a write (Machine/Operands.lean). -/
namespace Sys2Proof.Machine

/-- A write the page takes has its effect on the state with a normal response. -/
theorem busWrite_takes {s : State} {b : Bus} {p : Page} {off : Nat} {v : Word} (eff : State → State)
    (h : s.takes b p off v) : busWrite b p off v eff s = eff s.ok := by
  simp [busWrite, h.1, h.2, State.ok]

/-- A write to a page whose domain is off. -/
theorem busWrite_off {s : State} {b : Bus} {p : Page} {off : Nat} {v : Word} (eff : State → State)
    (h : s.powered p = false) : busWrite b p off v eff s = s.respond true 0 := by
  simp [busWrite, h]

/-- A write refused for its role. -/
theorem busWrite_refused {s : State} {b : Bus} {p : Page} {off : Nat} {v : Word} (eff : State → State)
    (h : s.powered p = true) (hr : s.mayWrite b.role p off v = false) :
    busWrite b p off v eff s = s.refuseWrite b p off v := by
  simp [busWrite, h, hr]

/-- Everything a bus write can do. -/
theorem busWrite_cases (b : Bus) (p : Page) (off : Nat) (v : Word) (eff : State → State) (s : State) :
    (s.powered p = false ∧ busWrite b p off v eff s = s.respond true 0) ∨
    (s.powered p = true ∧ s.mayWrite b.role p off v = false ∧ busWrite b p off v eff s = s.refuseWrite b p off v) ∨
    (s.takes b p off v ∧ busWrite b p off v eff s = eff s.ok) := by
  cases hp : s.powered p
  · exact .inl ⟨rfl, busWrite_off eff hp⟩
  · cases hm : s.mayWrite b.role p off v
    · exact .inr (.inl ⟨rfl, rfl, busWrite_refused eff hp hm⟩)
    · exact .inr (.inr ⟨⟨hp, hm⟩, busWrite_takes eff ⟨hp, hm⟩⟩)

/-- A read of a page that is on, from a role that may read it: the effect, then the data it leaves. -/
theorem busRead_takes {s : State} {b : Bus} {p : Page} {off : Nat} (eff : State → State) (hp : s.powered p = true)
    (hr : inMask (s.rdf (Reg.pgAcl p) 15 8) b.role = true) :
    busRead b p off eff s = (eff s).respond false ((eff s).rd (pageBase p + off)) := by
  simp [busRead, hp, hr]

/-- A page that is not locked takes the write of an RWL field. -/
theorem rwl_unlocked {s : State} {p : Page} (eff : State → State) (h : s.unlocked p) : rwl p eff s = eff s := by
  unfold State.unlocked at h
  simp [rwl, h]

/-- A locked page only notes the write. -/
theorem rwl_locked {s : State} {p : Page} (eff : State → State) (h : s.rdb (Reg.pgLock p) 0 = true) :
    rwl p eff s = s.wrb (Reg.pgLock p) 8 true := by
  simp [rwl, h]

theorem rwl_ok_unlocked {s : State} {p : Page} (eff : State → State) (h : s.unlocked p) : rwl p eff s.ok = eff s.ok :=
  rwl_unlocked eff h

theorem rwl_ok_locked {s : State} {p : Page} (eff : State → State) (h : s.rdb (Reg.pgLock p) 0 = true) :
    rwl p eff s.ok = s.ok.wrb (Reg.pgLock p) 8 true :=
  rwl_locked eff h

/-! ### A plain write -/

/-- What a plain write leaves in its register. -/
theorem State.rd_plainWrite {s : State} {a : Nat} {r : RegRow} (v : Word) (h : rowOf a = some r) :
    (s.plainWrite a v).rd a = (s.rd a &&& ~~~(BitVec.ofNat 32 r.wr ||| BitVec.ofNat 32 r.w1c)) ||| (v &&& BitVec.ofNat 32 r.wr) |||
      (s.rd a &&& BitVec.ofNat 32 r.w1c &&& ~~~v) := by
  simp only [State.plainWrite, h, State.rd_wr_same]

/-- A plain write leaves every other register. -/
theorem State.rd_plainWrite_other {s : State} {a c : Nat} (v : Word) (h : c ≠ a) : (s.plainWrite a v).rd c = s.rd c := by
  unfold State.plainWrite
  split
  · rfl
  · exact State.rd_wr_other _ _ h

/-- A plain write is a write of its register, or nothing. -/
theorem State.plainWrite_cases (s : State) (a : Nat) (v : Word) : s.plainWrite a v = s ∨ ∃ w, s.plainWrite a v = s.wr a w := by
  unfold State.plainWrite
  split
  · exact .inl rfl
  · exact .inr ⟨_, rfl⟩

@[simp] theorem State.plainWrite_mem (s : State) (a : Nat) (v : Word) : (s.plainWrite a v).mem = s.mem := by
  obtain h | ⟨w, h⟩ := s.plainWrite_cases a v <;> simp [h]
@[simp] theorem State.plainWrite_flash (s : State) (a : Nat) (v : Word) : (s.plainWrite a v).flash = s.flash := by
  obtain h | ⟨w, h⟩ := s.plainWrite_cases a v <;> simp [h]
@[simp] theorem State.plainWrite_lin (s : State) (a : Nat) (v : Word) : (s.plainWrite a v).lin = s.lin := by
  obtain h | ⟨w, h⟩ := s.plainWrite_cases a v <;> simp [h]
@[simp] theorem State.plainWrite_jobs (s : State) (a : Nat) (v : Word) : (s.plainWrite a v).jobs = s.jobs := by
  obtain h | ⟨w, h⟩ := s.plainWrite_cases a v <;> simp [h]
@[simp] theorem State.plainWrite_dmk (s : State) (a : Nat) (v : Word) : (s.plainWrite a v).dmk = s.dmk := by
  obtain h | ⟨w, h⟩ := s.plainWrite_cases a v <;> simp [h]
@[simp] theorem State.plainWrite_thermal (s : State) (a : Nat) (v : Word) : (s.plainWrite a v).thermal = s.thermal := by
  obtain h | ⟨w, h⟩ := s.plainWrite_cases a v <;> simp [h]
@[simp] theorem State.plainWrite_laser (s : State) (a : Nat) (v : Word) : (s.plainWrite a v).laser = s.laser := by
  obtain h | ⟨w, h⟩ := s.plainWrite_cases a v <;> simp [h]
@[simp] theorem State.plainWrite_loops (s : State) (a : Nat) (v : Word) : (s.plainWrite a v).loops = s.loops := by
  obtain h | ⟨w, h⟩ := s.plainWrite_cases a v <;> simp [h]
@[simp] theorem State.plainWrite_drives (s : State) (a : Nat) (v : Word) : (s.plainWrite a v).drives = s.drives := by
  obtain h | ⟨w, h⟩ := s.plainWrite_cases a v <;> simp [h]
@[simp] theorem State.plainWrite_link (s : State) (a : Nat) (v : Word) : (s.plainWrite a v).link = s.link := by
  obtain h | ⟨w, h⟩ := s.plainWrite_cases a v <;> simp [h]
@[simp] theorem State.plainWrite_ddr (s : State) (a : Nat) (v : Word) : (s.plainWrite a v).ddr = s.ddr := by
  obtain h | ⟨w, h⟩ := s.plainWrite_cases a v <;> simp [h]
@[simp] theorem State.plainWrite_srm (s : State) (a : Nat) (v : Word) : (s.plainWrite a v).srm = s.srm := by
  obtain h | ⟨w, h⟩ := s.plainWrite_cases a v <;> simp [h]
@[simp] theorem State.plainWrite_dma (s : State) (a : Nat) (v : Word) : (s.plainWrite a v).dma = s.dma := by
  obtain h | ⟨w, h⟩ := s.plainWrite_cases a v <;> simp [h]
@[simp] theorem State.plainWrite_tim (s : State) (a : Nat) (v : Word) : (s.plainWrite a v).tim = s.tim := by
  obtain h | ⟨w, h⟩ := s.plainWrite_cases a v <;> simp [h]
@[simp] theorem State.plainWrite_net (s : State) (a : Nat) (v : Word) : (s.plainWrite a v).net = s.net := by
  obtain h | ⟨w, h⟩ := s.plainWrite_cases a v <;> simp [h]
@[simp] theorem State.plainWrite_sec (s : State) (a : Nat) (v : Word) : (s.plainWrite a v).sec = s.sec := by
  obtain h | ⟨w, h⟩ := s.plainWrite_cases a v <;> simp [h]
@[simp] theorem State.plainWrite_fgd (s : State) (a : Nat) (v : Word) : (s.plainWrite a v).fgd = s.fgd := by
  obtain h | ⟨w, h⟩ := s.plainWrite_cases a v <;> simp [h]
@[simp] theorem State.plainWrite_flt (s : State) (a : Nat) (v : Word) : (s.plainWrite a v).flt = s.flt := by
  obtain h | ⟨w, h⟩ := s.plainWrite_cases a v <;> simp [h]
@[simp] theorem State.plainWrite_clk (s : State) (a : Nat) (v : Word) : (s.plainWrite a v).clk = s.clk := by
  obtain h | ⟨w, h⟩ := s.plainWrite_cases a v <;> simp [h]
@[simp] theorem State.plainWrite_thm (s : State) (a : Nat) (v : Word) : (s.plainWrite a v).thm = s.thm := by
  obtain h | ⟨w, h⟩ := s.plainWrite_cases a v <;> simp [h]
@[simp] theorem State.plainWrite_pwr (s : State) (a : Nat) (v : Word) : (s.plainWrite a v).pwr = s.pwr := by
  obtain h | ⟨w, h⟩ := s.plainWrite_cases a v <;> simp [h]
@[simp] theorem State.plainWrite_bkg (s : State) (a : Nat) (v : Word) : (s.plainWrite a v).bkg = s.bkg := by
  obtain h | ⟨w, h⟩ := s.plainWrite_cases a v <;> simp [h]
@[simp] theorem State.plainWrite_pins (s : State) (a : Nat) (v : Word) : (s.plainWrite a v).pins = s.pins := by
  obtain h | ⟨w, h⟩ := s.plainWrite_cases a v <;> simp [h]
@[simp] theorem State.plainWrite_plic (s : State) (a : Nat) (v : Word) : (s.plainWrite a v).plic = s.plic := by
  obtain h | ⟨w, h⟩ := s.plainWrite_cases a v <;> simp [h]
@[simp] theorem State.plainWrite_testMode (s : State) (a : Nat) (v : Word) : (s.plainWrite a v).testMode = s.testMode := by
  obtain h | ⟨w, h⟩ := s.plainWrite_cases a v <;> simp [h]
@[simp] theorem State.plainWrite_free (s : State) (a : Nat) (v : Word) : (s.plainWrite a v).free = s.free := by
  obtain h | ⟨w, h⟩ := s.plainWrite_cases a v <;> simp [h]
@[simp] theorem State.plainWrite_pending (s : State) (a : Nat) (v : Word) : (s.plainWrite a v).pending = s.pending := by
  obtain h | ⟨w, h⟩ := s.plainWrite_cases a v <;> simp [h]
@[simp] theorem State.plainWrite_resp (s : State) (a : Nat) (v : Word) : (s.plainWrite a v).resp = s.resp := by
  obtain h | ⟨w, h⟩ := s.plainWrite_cases a v <;> simp [h]
@[simp] theorem State.plainWrite_rdByte (s : State) (a : Nat) (v : Word) (c : Nat) : (s.plainWrite a v).rdByte c = s.rdByte c := by
  simp only [State.rdByte, State.plainWrite_mem]

/-! ### The state with a normal response -/

@[simp] theorem State.ok_rd (s : State) (a : Nat) : s.ok.rd a = s.rd a := rfl
@[simp] theorem State.ok_rdf (s : State) (a i j : Nat) : s.ok.rdf a i j = s.rdf a i j := rfl
@[simp] theorem State.ok_rdb (s : State) (a i : Nat) : s.ok.rdb a i = s.rdb a i := rfl
@[simp] theorem State.ok_rdByte (s : State) (a : Nat) : s.ok.rdByte a = s.rdByte a := rfl
@[simp] theorem State.ok_powered (s : State) (p : Page) : s.ok.powered p = s.powered p := rfl
@[simp] theorem State.ok_unlocked (s : State) (p : Page) : s.ok.unlocked p ↔ s.unlocked p := Iff.rfl
@[simp] theorem State.ok_now (s : State) : s.ok.now = s.now := rfl
@[simp] theorem State.ok_mem (s : State) : s.ok.mem = s.mem := rfl
@[simp] theorem State.ok_flash (s : State) : s.ok.flash = s.flash := rfl
@[simp] theorem State.ok_lin (s : State) : s.ok.lin = s.lin := rfl
@[simp] theorem State.ok_jobs (s : State) : s.ok.jobs = s.jobs := rfl
@[simp] theorem State.ok_dmk (s : State) : s.ok.dmk = s.dmk := rfl
@[simp] theorem State.ok_thermal (s : State) : s.ok.thermal = s.thermal := rfl
@[simp] theorem State.ok_laser (s : State) : s.ok.laser = s.laser := rfl
@[simp] theorem State.ok_loops (s : State) : s.ok.loops = s.loops := rfl
@[simp] theorem State.ok_drives (s : State) : s.ok.drives = s.drives := rfl
@[simp] theorem State.ok_link (s : State) : s.ok.link = s.link := rfl
@[simp] theorem State.ok_ddr (s : State) : s.ok.ddr = s.ddr := rfl
@[simp] theorem State.ok_srm (s : State) : s.ok.srm = s.srm := rfl
@[simp] theorem State.ok_dma (s : State) : s.ok.dma = s.dma := rfl
@[simp] theorem State.ok_tim (s : State) : s.ok.tim = s.tim := rfl
@[simp] theorem State.ok_net (s : State) : s.ok.net = s.net := rfl
@[simp] theorem State.ok_sec (s : State) : s.ok.sec = s.sec := rfl
@[simp] theorem State.ok_fgd (s : State) : s.ok.fgd = s.fgd := rfl
@[simp] theorem State.ok_flt (s : State) : s.ok.flt = s.flt := rfl
@[simp] theorem State.ok_clk (s : State) : s.ok.clk = s.clk := rfl
@[simp] theorem State.ok_thm (s : State) : s.ok.thm = s.thm := rfl
@[simp] theorem State.ok_pwr (s : State) : s.ok.pwr = s.pwr := rfl
@[simp] theorem State.ok_bkg (s : State) : s.ok.bkg = s.bkg := rfl
@[simp] theorem State.ok_pins (s : State) : s.ok.pins = s.pins := rfl
@[simp] theorem State.ok_plic (s : State) : s.ok.plic = s.plic := rfl
@[simp] theorem State.ok_testMode (s : State) : s.ok.testMode = s.testMode := rfl
@[simp] theorem State.ok_free (s : State) : s.ok.free = s.free := rfl
@[simp] theorem State.ok_resp (s : State) : s.ok.resp = ⟨false, 0⟩ := rfl
@[simp] theorem State.ok_pending (s : State) : s.ok.pending = s.pending := rfl

end Sys2Proof.Machine
end

