-- ==== Sys2Proof/Laws/Refuse.lean ====
section
/-! SUPPORT. What the record of a refused access can change, and where the pages stand. -/
namespace Sys2Proof.Machine

theorem pagePfn_ge (p : Page) : 0x40000 ≤ pagePfn p := by
  cases p <;> simp only [pagePfn] <;> omega

theorem pageAt_ge {f : Nat} {p : Page} (h : pageAt f = some p) : 0x40000 ≤ f := by
  unfold pageAt at h
  repeat' split at h
  all_goals try omega
  have := List.find?_some h
  simp only [beq_iff_eq] at this
  exact this ▸ pagePfn_ge p

theorem roleBit_lt (r : Role) : roleBit r < 8 := by cases r <;> decide

theorem b2n_le (b : Bool) : b2n b ≤ 1 := by cases b <;> decide

/-- The registers of ROOT's log of refused accesses. -/
def acvRegs (r : Nat) : Prop := r = Reg.rootAcvCount ∨ r = Reg.rootAcvAddrLo ∨ r = Reg.rootAcvInfo ∨
      r = Reg.rootAcvStampLo ∨ r = Reg.rootAcvStampHi

theorem acvFill_leaves (s : State) (b : Bus) (a : Nat) (w : Bool) : Leaves acvRegs s (s.acvFill b a w) :=
  ((((((Leaves.refl s).wr _ (.inr (.inl rfl))).wr _ (.inr (.inr (.inl rfl)))).wr _ (.inr (.inr (.inr (.inl rfl))))).wr _ (.inr (.inr (.inr (.inr rfl))))).wrb _ _ (.inl rfl))

theorem acvRecord_leaves (s : State) (b : Bus) (a : Nat) (w : Bool) : Leaves acvRegs s (s.acvRecord b a w) := by
  unfold State.acvRecord
  exact Leaves.wrf (Leaves.ite (.refl s) (acvFill_leaves ..)) _ _ _ (.inl rfl)

theorem refuse_mem (s : State) (b : Bus) (a : Nat) (w : Bool) : (s.refuse b a w).mem = s.mem := by
  unfold State.refuse
  rw [((Leaves.refl _).srcEvent (by decide)).mem, (acvRecord_leaves ..).mem]
  rfl

theorem refuseWrite_mem (s : State) (b : Bus) (p : Page) (off : Nat) (v : Word) : (s.refuseWrite b p off v).mem = s.mem := by
  unfold State.refuseWrite
  extract_lets l u1 u2
  have h1 : u1.mem = s.mem := refuse_mem ..
  have h2 : u2.mem = s.mem := by
    have : u2 = match refusedSoot l p with | some k => u1.soot p k | none => u1 := rfl
    rw [this, ← h1]
    split
    · exact ((Leaves.refl u1).soot _).mem
    · rfl
  clear_value u1 u2 l
  split
  · exact h1
  · split
    · rw [State.wrf, State.wr_mem]; exact h2
    · exact h2

end Sys2Proof.Machine
end

