-- ==== Sys2Proof/Laws/RegWrite.lean ====
section
/-! SUPPORT. Every block row of REGISTER_WRITE is a bus write at its own page and offset (Machine/RegWrite.lean). -/
namespace Sys2Proof.Machine

/-- An outcome that answers an access as its page does: an error response while the page is off, the record of a refusal
for its role. -/
structure AtPage (b : Bus) (p : Page) (off : Nat) (v : Word) (s : State) (o : Out) : Prop where
  off_ : s.powered p = false → o = .next (s.respond true 0)
  refused : s.powered p = true → s.mayWrite b.role p off v = false → o = .next (s.refuseWrite b p off v)

def AtPageP (b : Bus) (p : Page) (off : Nat) (v : Word) (s : State) (q : Option Out) : Prop :=
  ∀ o, q = some o → AtPage b p off v s o

variable {b : Bus} {p : Page} {off : Nat} {v : Word} {s : State}

theorem none_atPage : AtPageP b p off v s none := fun _ h => absurd h (Option.some_ne_none _).symm

theorem some_atPage {o : Out} (h : AtPage b p off v s o) : AtPageP b p off v s (some o) :=
  fun _ e => Option.some.inj e ▸ h

theorem ite_atPage {c : Prop} [Decidable c] {x y : Option Out} (hx : c → AtPageP b p off v s x)
    (hy : ¬c → AtPageP b p off v s y) : AtPageP b p off v s (if c then x else y) := by
  split
  · next h => exact hx h
  · next h => exact hy h

theorem busWrite_atPage (eff : State → State) : AtPage b p off v s (.next (busWrite b p off v eff s)) :=
  ⟨fun h => by rw [busWrite_off _ h], fun h hr => by rw [busWrite_refused _ h hr]⟩

/-- A bus write with another value that the role rules treat alike. -/
theorem busWrite_atPage' (eff : State → State) {w : Word} (h : ∀ l, roleRule l p off w = roleRule l p off v) :
    AtPage b p off v s (.next (busWrite b p off w eff s)) := by
  have hm : s.mayWrite b.role p off w = s.mayWrite b.role p off v := by simp only [State.mayWrite, h]
  have hr : s.refuseWrite b p off w = s.refuseWrite b p off v := by simp only [State.refuseWrite, h]
  exact ⟨fun h => by rw [busWrite_off _ h], fun h g => by rw [busWrite_refused _ h (hm.trans g), hr]⟩

theorem chPage_eq (n : Fin 16) (k : Fin 8) : chPage n.val k.val = .ch n k := by
  simp [chPage]

theorem mkFin8 {k : Nat} (h : k < 8) : (⟨k, h⟩ : Fin 8) = Fin.ofNat 8 k := Fin.ext (Nat.mod_eq_of_lt h).symm

theorem unitJobWrite_atPage (u : MarkUnit) {o : Nat} (h : off = unitJobOff u o) (hp : p = unitJobPage u) :
    AtPageP b p off v s (unitJobWrite b u o v s) := by
  subst h hp
  unfold unitJobWrite
  split
  · exact some_atPage (busWrite_atPage _)
  · exact some_atPage (busWrite_atPage _)
  · exact some_atPage (busWrite_atPage _)
  · exact some_atPage (busWrite_atPage _)
  · exact none_atPage

theorem chanRow_atPage {n : Fin 16} {k : Fin 8} : AtPageP b (.ch n k) off v s (chanRow b n k off v s) := by
  unfold chanRow
  extract_lets p row
  have hr : ∀ e, AtPageP b (.ch n k) off v s (row e) := fun e => some_atPage (busWrite_atPage _)
  clear_value row
  have hk : ∀ j : Fin 8, k.val = j.val → (.ch n k : Page) = .ch n j := fun j h => by rw [Fin.ext h]
  split
  · next h =>
    refine ite_atPage (fun ho => ?_) fun _ => none_atPage
    rw [ho, hk 0 h]
    exact some_atPage (busWrite_atPage _)
  · next h =>
    refine ite_atPage (fun ho => ?_) fun _ => none_atPage
    rw [ho, hk 1 h, show (.ch n 1 : Page) = seqPage n.val from by simp [seqPage, chPage, Nat.ne_of_lt n.isLt] <;> rfl]
    exact some_atPage (busWrite_atPage _)
  · next h => exact unitJobWrite_atPage _ rfl (hk 2 h)
  · next h =>
    split
    · split
      · rw [hk 3 h, ← chPage_eq]
        exact some_atPage (busWrite_atPage _)
      · exact hr _
      · rw [hk 3 h, ← chPage_eq]
        exact some_atPage (busWrite_atPage _)
      · exact none_atPage
    · exact ite_atPage (fun _ => hr _) fun _ => none_atPage
  · next h =>
    split
    · refine ite_atPage (fun ho => ?_) fun _ => none_atPage
      rw [ho, hk 4 h, ← chPage_eq]
      exact some_atPage (busWrite_atPage _)
    · exact ite_atPage (fun _ => hr _) fun _ => none_atPage
  · exact ite_atPage (fun _ => hr _) fun _ => none_atPage
  · exact ite_atPage (fun _ => hr _) fun _ => none_atPage
  · exact none_atPage

theorem busWrite_atPage_at (eff : State → State) {o : Nat} {q : Page} (hq : q = p) (h : o = off) :
    AtPage b p off v s (.next (busWrite b q o v eff s)) := by
  subst h hq
  exact busWrite_atPage eff

theorem ofNat_val {m k : Nat} [NeZero m] (h : k < m) : (Fin.ofNat m k).val = k := Nat.mod_eq_of_lt h

theorem linRow_atPage : AtPageP b .lin off v s (linRow b off v s) := by
  unfold linRow
  split
  all_goals try exact some_atPage (busWrite_atPage _)
  refine ite_atPage (fun h => some_atPage (busWrite_atPage_at _ rfl ?_)) fun _ =>
    ite_atPage (fun h => some_atPage (busWrite_atPage_at _ rfl ?_)) fun _ =>
    ite_atPage (fun h => some_atPage (busWrite_atPage _)) fun _ =>
    ite_atPage (fun h => some_atPage (busWrite_atPage_at _ rfl ?_)) fun _ =>
    ite_atPage (fun h => some_atPage (busWrite_atPage_at _ rfl ?_)) fun _ =>
    ite_atPage (fun h => some_atPage (busWrite_atPage _)) fun _ => none_atPage
  all_goals
    rw [ofNat_val (by omega)]
    omega

theorem dmkRow_atPage : AtPageP b .dmk off v s (dmkRow b off v s) := by
  unfold dmkRow
  split
  all_goals try exact some_atPage (busWrite_atPage _)
  refine ite_atPage (fun h => some_atPage (busWrite_atPage_at _ rfl ?_)) fun _ => none_atPage
  rw [ofNat_val (by omega)]
  omega

theorem loopAt_page (d : Fin 4) {i : Nat} (h : i < 12) : loopPage (loopAt d.val i) = .ldp d ∧ loopIx (loopAt d.val i) % 12 = i ∧
    loopAt d.val i < 48 := by
  obtain ⟨d, hd⟩ := d
  have : ∀ d' : Fin 4, ∀ i' : Fin 12, loopPage (loopAt d'.val i'.val) = .ldp d' ∧ loopIx (loopAt d'.val i'.val) % 12 = i'.val ∧
    loopAt d'.val i'.val < 48 := by decide
  exact this ⟨d, hd⟩ ⟨i, h⟩

theorem ldpRow_atPage {d : Fin 4} : AtPageP b (.ldp d) off v s (ldpRow b d off v s) := by
  unfold ldpRow
  refine ite_atPage (fun _ => none_atPage) fun h => ?_
  extract_lets m o row
  have hr : ∀ e, AtPageP b (.ldp d) off v s (row e) := fun e => some_atPage (busWrite_atPage _)
  clear_value row
  have em : m = loopAt d.val ((off - 0x100) / 0x100) := rfl
  have eo : o = off % 0x100 := rfl
  clear_value m o
  obtain ⟨h1, h2, h3⟩ := loopAt_page d (i := (off - 0x100) / 0x100) (by omega)
  split
  · exact hr _
  · exact hr _
  · next ho =>
    subst em
    refine some_atPage (busWrite_atPage_at _ ?_ ?_)
    · rw [ofNat_val h3]; exact h1
    · rw [ofNat_val h3]
      show 0x134 + 0x100 * (loopIx (loopAt d.val ((off - 0x100) / 0x100)) % 12) = off
      rw [h2]
      omega
  · exact ite_atPage (fun _ => hr _) fun _ => none_atPage

theorem stpPage_eq (q : Fin 16) : stpPage q.val = .stp q := by simp [stpPage]

theorem stpRow_atPage {q : Fin 16} : AtPageP b (.stp q) off v s (stpRow b q off v s) := by
  unfold stpRow
  split
  all_goals first
    | exact none_atPage
    | (rw [show (.stp q : Page) = stpPage q.val from (stpPage_eq q).symm]; exact some_atPage (busWrite_atPage _))
    | exact some_atPage (busWrite_atPage _)

theorem bldcRow_atPage {k : Fin 4} : AtPageP b (.bldc k) off v s (bldcRow b k off v s) := by
  unfold bldcRow
  refine ite_atPage (fun h => ?_) fun _ => none_atPage
  rw [h]
  exact some_atPage (busWrite_atPage _)

theorem mbRow_atPage {u : Fin 2} : AtPageP b (.mb u) off v s (mbRow b u off v s) := by
  unfold mbRow
  split
  all_goals first
    | exact none_atPage
    | (rw [show (.mb u : Page) = mbPage u.val by simp [mbPage]]; exact some_atPage (busWrite_atPage _))
    | exact some_atPage (busWrite_atPage _)

theorem memRow_atPage : AtPageP b p off v s (memRow b p off v s) := by
  unfold memRow
  split
  · split
    all_goals first | exact none_atPage | exact some_atPage (busWrite_atPage _)
  · split
    all_goals first | exact none_atPage | exact some_atPage (busWrite_atPage _)
  · exact ite_atPage (fun _ => some_atPage (busWrite_atPage _)) fun _ => none_atPage
  · split
    all_goals first
      | exact none_atPage
      | exact some_atPage (busWrite_atPage _)
      | exact ite_atPage (fun _ => some_atPage (busWrite_atPage _)) fun _ => none_atPage
  · exact none_atPage

theorem secCmdWrite_atPage {k : Fin 4} (h : off = 0x108 + 0x10 * k.val) : AtPage b .sec off v s (secCmdWrite b k v s) := by
  subst h
  unfold secCmdWrite
  extract_lets c
  split
  all_goals exact busWrite_atPage' _ fun _ => rfl

theorem pwrCmdWrite_atPage : AtPage b .pwr 0x48 v s (pwrCmdWrite b v s) := busWrite_atPage _

theorem centralRow_atPage : AtPageP b p off v s (centralRow b p off v s) := by
  unfold centralRow
  split
  · split
    all_goals first | exact none_atPage | exact some_atPage (busWrite_atPage _)
  · split
    all_goals first
      | exact none_atPage
      | exact some_atPage (busWrite_atPage _)
      | skip
    refine ite_atPage (fun h => some_atPage (busWrite_atPage_at _ rfl ?_)) fun _ => none_atPage
    rw [ofNat_val (by omega)]
    by_cases h4 : off % 8 = 4
    · simp [h4]; omega
    · simp [h4]; omega
  · refine ite_atPage (fun h => ?_) fun _ => none_atPage
    rw [h]
    exact some_atPage (busWrite_atPage _)
  · refine ite_atPage (fun h => ?_) fun _ => ite_atPage (fun h => ?_) fun _ => ite_atPage (fun h => ?_) fun _ => none_atPage
    · rw [h]; exact some_atPage (busWrite_atPage _)
    · refine some_atPage (secCmdWrite_atPage ?_)
      rw [ofNat_val (by omega)]
      omega
    · refine some_atPage (busWrite_atPage_at _ rfl ?_)
      rw [ofNat_val (by omega)]
      omega
  · split
    all_goals first | exact none_atPage | exact some_atPage (busWrite_atPage _)
  · refine ite_atPage (fun _ => none_atPage) fun h => ?_
    extract_lets y
    have hy : y.val = (off - 0x100) / 0x80 := ofNat_val (by omega)
    have hc : ∀ x, off % 0x80 = x → off = 0x100 + 0x80 * y.val + x := fun x h => by omega
    split
    all_goals first
      | exact none_atPage
      | (next h => exact some_atPage (busWrite_atPage_at _ rfl (hc _ h).symm))
      | skip
    · next h => exact some_atPage (busWrite_atPage_at _ rfl (by have := hc _ h; omega))
    all_goals
      next h =>
        refine some_atPage (busWrite_atPage_at _ rfl ?_)
        have := hc _ h
        show 0x110 + 0x80 * y.val + 4 * _ = off
        omega
  · refine ite_atPage (fun h => ?_) fun _ => none_atPage
    rw [h]
    exact some_atPage (busWrite_atPage _)
  · split
    all_goals first | exact none_atPage | exact some_atPage (busWrite_atPage _) | exact some_atPage pwrCmdWrite_atPage
  · split
    all_goals first | exact none_atPage | exact some_atPage (busWrite_atPage _)
  · exact none_atPage

theorem blockRow_atPage (hoff : off < 4096) : AtPageP b p off v s (blockRow b p off v s) := by
  unfold blockRow
  split
  · exact chanRow_atPage
  · refine ite_atPage (fun h => ?_) fun _ => none_atPage
    rw [h]
    exact some_atPage (busWrite_atPage _)
  · next k =>
    refine ite_atPage (fun h => ?_) fun _ => ite_atPage (fun h => ?_) fun _ => ite_atPage (fun h => ?_) fun _ => none_atPage
    · rw [h, show (.stn k : Page) = unitPage (.stn k) from rfl]
      exact some_atPage (busWrite_atPage _)
    · exact unitJobWrite_atPage _ (by simp only [unitJobOff]; omega) rfl
    · exact some_atPage (busWrite_atPage_at _ rfl (by simp; omega))
  · exact linRow_atPage
  · exact dmkRow_atPage
  · exact ldpRow_atPage
  · exact stpRow_atPage
  · exact bldcRow_atPage
  · exact mbRow_atPage
  · exact memRow_atPage
  · exact memRow_atPage
  · exact memRow_atPage
  · exact memRow_atPage
  · exact centralRow_atPage

/-- A write of register space outside the interrupt controller and the lifetime page's first half: an error response while
the page is off, the record of a refusal for the role. -/
theorem regWrite_atPage {a : Nat} (hp : pageAt (a / 4096) = some p) (hr : ¬ (0x40001000 ≤ a ∧ a < 0x40001800)) :
    (s.powered p = false → regWrite b a v s = .next (s.respond true 0)) ∧
    (s.powered p = true → s.mayWrite b.role p (a % 4096) v = false → regWrite b a v s = .next (s.refuseWrite b p (a % 4096) v)) := by
  unfold regWrite
  rw [if_neg hr, hp]
  dsimp only
  refine ⟨fun h => ?_, fun h g => ?_⟩
  · split
    · rw [headerWrite, busWrite_off _ h]
    · split
      · rw [if_neg (by simp [h]), busWrite_off _ h]
      · split
        · next o ho => exact (blockRow_atPage (Nat.mod_lt _ (by decide)) o ho).off_ h
        · rw [busWrite_off _ h]
  · split
    · rw [headerWrite, busWrite_refused _ h g]
    · split
      · rw [if_neg (by simp [g]), busWrite_refused _ h g]
      · split
        · next o ho => exact (blockRow_atPage (Nat.mod_lt _ (by decide)) o ho).refused h g
        · rw [busWrite_refused _ h g]

end Sys2Proof.Machine
end

