-- ==== Sys2Proof/Tests/Slice0.lean ====
section
/-! SUPPORT. The model's own tests: for each statement states and operands that meet its hypotheses, the spec's worked
examples, ill-formed terms refused. -/
namespace Sys2Proof.Tests
open Sys2Proof Sys2Proof.Machine
set_option Elab.async false

/-- A block whose domains are all on, started up, with nothing configured. -/
def on : State := { State.reset with regs := [(Reg.pwrDomStat, 0x1FFE)], pwr := { PwrState.reset with aon := true, bootStep := 8 } }

/-- A master with a role. -/
def bus (r : Role) : Bus := ⟨r, 1⟩

/-! ### The block as a whole, register pages, roles and locks -/

/-- An address of register space. -/
def at_ (p : Page) (off : Nat) : BitVec 40 := BitVec.ofNat 40 (pagePfn p * 4096 + off)

theorem witness_steps : State.reset.pending = [] ∧ State.reset.wf = true ∧ ∃ t, step State.reset = .next t :=
  ⟨rfl, by decide +kernel, _, rfl⟩

theorem witness_misaligned : inMemMap (at_ .lin 0x4E).toNat = false ∧ (at_ .lin 0x4E).toNat % 4 ≠ 0 ∧
    inMemMap (at_ .lin 0x48).toNat = false ∧ (8 : Nat) ≠ 4 := by decide +kernel

theorem witness_poweredOff : inMemMap (at_ .lin 0x4C).toNat = false ∧ (at_ .lin 0x4C).toNat % 4 = 0 ∧
    pageAt ((at_ .lin 0x4C).toNat / 4096) = some .lin ∧ State.reset.powered .lin = false := by decide +kernel

theorem witness_roleRefusal : inMemMap (at_ .lin 0x4C).toNat = false ∧ (at_ .lin 0x4C).toNat % 4 = 0 ∧
    ¬ (0x40001000 ≤ (at_ .lin 0x4C).toNat ∧ (at_ .lin 0x4C).toNat < 0x40001800) ∧
    ¬ (0x0C000000 ≤ (at_ .lin 0x4C).toNat ∧ (at_ .lin 0x4C).toNat < 0x10000000) ∧
    pageAt ((at_ .lin 0x4C).toNat / 4096) = some .lin ∧ on.powered .lin = true ∧
    on.mayWrite (bus .line).role .lin ((at_ .lin 0x4C).toNat % 4096) 5 = false := by decide +kernel

theorem witness_refusalRecord : on.rdb Reg.rootAcvCount 31 = false ∧ (on.wrb Reg.rootAcvCount 31 true).rdb Reg.rootAcvCount 31 = true := by
  decide +kernel

theorem witness_soot : State.reset.powered .lin = false ∧ on.powered .lin = true ∧ on.rdb (Reg.pgCtrl .lin) 2 = false ∧
    (on.wrb (Reg.pgSootMask .lin) 31 false).rdb (Reg.pgSootMask .lin) 31 = false := by decide +kernel

theorem witness_header : on.takes (bus .oem) .lin 0x0C 0 ∧ on.unlocked .lin ∧
    (on.wrb (Reg.pgLock .lin) 0 true).takes (bus .oem) .lin 0x0C 0 ∧
    (on.wrb (Reg.pgLock .lin) 0 true).rdb (Reg.pgLock .lin) 0 = true ∧ on.takes (bus .oem) .lin 0x28 0x80000000 ∧
    on.takes (bus .oem) .lin 0x30 1 ∧ on.takes (bus .oem) .lin 0x30 0x100 ∧ on.takes (bus .oem) .lin 0x18 0xFFFFFFFF := by
  unfold State.takes State.unlocked; decide +kernel

theorem witness_unitControls : on.takes (bus .oem) .lin 0x10 1 ∧ on.enabled .lin = false ∧
    (((on.ok.wrb (Reg.pgCtrl .lin) 2 false).wrb (Reg.pgCtrl .lin) 3 false).enabled .lin = false) ∧
    (((on.ok.wrb (Reg.pgCtrl .lin) 2 false).wrb (Reg.pgCtrl .lin) 3 false).pageEnableOk .lin = true) ∧
    (on.wrb (Reg.pgCtrl .lin) 0 true).takes (bus .oem) .lin 0x10 0 ∧ on.takes (bus .oem) .lin 0x10 2 ∧
    ((((on.wrb (Reg.pgCtrl .lin) 0 true).ok.wrb (Reg.pgCtrl .lin) 2 false).wrb (Reg.pgCtrl .lin) 3 false).enabled .lin = true) ∧
    on.marking 15 = false := by
  unfold State.takes; decide +kernel

theorem witness_root : on.takes (bus .line) .root 0x60 0xFFFF ∧ on.takes (bus .line) .root 0x64 0xFFFF ∧ on.domOn 4 = true ∧
    (bus .line).role ≠ .debug ∧ (bus .debug).role = .debug ∧ on.takes (bus .owner) .root 0x58 0x80000000 := by
  unfold State.takes; decide +kernel

theorem witness_plainWrites : inMemMap (at_ .lin 0x24).toNat = false ∧ (at_ .lin 0x24).toNat % 4 = 0 ∧
    pageAt ((at_ .lin 0x24).toNat / 4096) = some .lin ∧ on.takes (bus .oem) .lin 0x24 0xFFFFFFFF ∧
    on.takes (bus .oem) .lin 0x20 0xFFFFFFFF ∧ on.takes (bus .oem) .lin 0x3C 0 ∧ on.takes (bus .oem) .lin 0x14 0 := by
  unfold State.takes; decide +kernel

theorem witness_stations : on.takes (bus .oem) (.stn 7) 0x44 0 ∧ on.unlocked (.stn 7) ∧ on.powered .tim = true ∧
    (5 : BitVec 64) ≠ on.stamp ∧ (0 : BitVec 64) = on.stamp := by
  unfold State.takes State.unlocked; decide +kernel

theorem witness_memoryWrite : (8 : Nat) ∈ accessSizes ∧ inMemMap (0x103FFFF8 : BitVec 40).toNat = true ∧
    ¬ dramBase ≤ (0x103FFFF8 : BitVec 40).toNat ∧ on.memFault (bus .oem).role true (0x103FFFF8 : BitVec 40).toNat 8 = none := by
  decide +kernel

/-! ### The line interface -/

theorem witness_rejectPolicy : on.takes (bus .owner) .lin 0x4C 0 ∧ on.powered .lin = true ∧
    on.rdf (Reg.pgAcl .lin) 7 0 = (pageAcl .lin).2.1 ∧ (bus .oem).role ≠ .owner ∧
    ({ TrkEntry.reset with bind := BitVec.ofNat 16 (2 ^ 15) }).force = false := by
  unfold State.takes; decide +kernel

theorem witness_lineRegisters : on.takes (bus .oem) .lin 0x48 0 ∧ on.unlocked .lin ∧ on.takes (bus .oem) .lin 0x44 0x80000000 ∧
    on.takes (bus .oem) .lin 0x50 0x00010100 ∧ on.domOn 4 = true ∧ bit 0x00010100 8 = true ∧
    on.takes (bus .oem) .lin (mapReg .enc % 4096) 0x76543201 ∧ (∀ k, k < 8 → on.rdb (mapUnit .enc k) 0 = false) ∧
    on.takes (bus .oem) .lin 0x64 0xFFF := by
  unfold State.takes State.unlocked; decide +kernel

/-- Encoder 7 and output 15 enabled. -/
def lineOn : State := (on.wrb (Reg.linEncCfg 7) 0 true).wrb (Reg.linRejCfg 15) 0 true

theorem witness_lineConfiguration : on.unlocked .lin ∧ on.takes (bus .oem) .lin (0x100 + 0x40 * 7) 1 ∧ on.encOn 7 = false ∧
    on.takes (bus .oem) .lin (0x400 + 0x20 * 15) 1 ∧ on.rdb (Reg.linPdCfg 15) 0 = false ∧ on.encIdOff (fld 1 13 10) = true ∧
    lineOn.encIdOff (fld 0x1C01 13 10) = false ∧ lineOn.takes (bus .oem) .lin (0x400 + 0x20 * 15) 0x1C01 ∧
    lineOn.rdb (Reg.linPdCfg 15) 0 = false ∧ lineOn.rdf (Reg.linPdBind 15) 23 0 = 0 ∧
    on.takes (bus .oem) .lin (0x600 + 0x20 * 15) 0xD ∧ on.rejOn 15 = false ∧ fld 0xD 3 2 = 3 ∧ fld 9 3 2 ≠ 3 ∧
    on.takes (bus .oem) .lin (0x600 + 0x20 * 15) 9 ∧ lineOn.unlocked .lin ∧ lineOn.encOn 7 = true ∧
    lineOn.takes (bus .oem) .lin (0x100 + 0x40 * 7) 1 ∧
    lineOn.takes (bus .oem) .lin (0x100 + 0x40 * 7) (setBit (lineOn.rd (Reg.linEncCfg 7)) 0 false) ∧
    fld (setBit (lineOn.rd (Reg.linEncCfg 7)) 0 false) 11 4 ≠ 0 ∧
    on.takes (bus .operator) .lin 0x54 7 ∧ (∀ e ∈ on.lin.trk, ¬ (e.2.valid = true ∧ e.2.productId = 7)) ∧
    (on.setTrk 4095 { TrkEntry.reset with valid := true, productId := 7 }).takes (bus .operator) .lin 0x54 7 ∧
    (on.setTrk 4095 { TrkEntry.reset with valid := true, productId := 7 }).lin.trk.find?
      (fun e => e.2.valid && e.2.productId == 7) = some (4095, { TrkEntry.reset with valid := true, productId := 7 }) := by
  unfold State.takes State.unlocked; decide +kernel

theorem witness_encoders : on.powered .lin = true ∧
    ((lineOn.wrb (Reg.linEncStat 7) 0 true).wrf (Reg.linEncCfg 7) 31 20 0).encOn 7 = true ∧
    ((lineOn.wrb (Reg.linEncStat 7) 0 true).wrf (Reg.linEncCfg 7) 31 20 0).powered .lin = true ∧
    ((lineOn.wrb (Reg.linEncStat 7) 0 true).wrf (Reg.linEncCfg 7) 31 20 0).rdb (Reg.linEncStat 7) 0 = true ∧
    ((lineOn.wrb (Reg.linEncStat 7) 0 true).wrf (Reg.linEncCfg 7) 31 20 0).rdf (Reg.linEncCfg 7) 31 20 * 100 * usT ≤
      ((lineOn.wrb (Reg.linEncStat 7) 0 true).wrf (Reg.linEncCfg 7) 31 20 0).now -
        (((lineOn.wrb (Reg.linEncStat 7) 0 true).wrf (Reg.linEncCfg 7) 31 20 0).enc 7).tEdge ∧
    inMask (on.rdf (Reg.pgAcl .lin) 15 8) (bus .line).role = true := by decide +kernel

/-- Input 15 enabled and active since an edge at the present position, with MIN_LEN 0 and MAX_LEN 1. -/
def pdOn : State := (((on.wrb (Reg.linPdCfg 15) 0 true).wrf (Reg.linPdMinLen 15) 23 0 0).wrf (Reg.linPdMaxLen 15) 23 0 1).updPd 15
  (fun x => { x with active := true, edge := some ⟨0, 0⟩, activePos := 0 })

theorem witness_products : (pdOn.pd 15).edge = some ⟨0, 0⟩ ∧ pdOn.powered .lin = true ∧ pdOn.rdb (Reg.linPdCfg 15) 0 = true ∧
    (pdOn.pd 15).active = true ∧ pdOn.rdb (Reg.linPdMaxLen 15) 31 = false ∧
    (pdOn.rdf (Reg.linPdMinLen 15) 23 0 : Int) ≤ pdOn.sinceEdge 15 0 ∧ pdOn.rdf (Reg.linPdMaxLen 15) 23 0 ≠ 0 ∧
    on.trkTake.isSome = true ∧ ({ on with lin := { on.lin with fresh := 4096, freed := [] } }).trkTake = none ∧
    ({ on with lin := { on.lin with fresh := 4096, freed := [] } }).frozen Reg.linCntUnrec = false ∧
    ({ on with lin := { on.lin with fresh := 4096, freed := [4095] } }).trkTake.isSome = true ∧ on.lin.fresh < 4096 ∧
    (pdOn.rdf (Reg.linPdMaxLen 15) 23 0 : Int) < (pdOn.updPd 15 (fun x => { x with activePos := -2 })).sinceEdge 15 (-2) := by
  decide +kernel

/-- A product at its gate: undecided, and with its decision made. -/
def gate (decided : Bool) : State := on.setTrk 4095 { TrkEntry.reset with valid := true, rejUse := true, decided := decided, rejectPos := 0xFFFFFFFF }

theorem witness_rejectGate : ((gate false).trk 4095).valid = true ∧ ((gate false).trk 4095).decided = false ∧
    (gate false).warpAt ((gate false).trk 4095).enc.toNat ((gate false).trk 4095).rejectPos = true ∧
    (gate false).reversing ((gate false).trk 4095).enc.toNat = false ∧ ((gate false).trkDecide ((gate false).trk 4095)).2 = 0 ∧
    ((gate false).trk 4095).rejUse = true ∧ ((gate true).trk 4095).decided = true ∧ ((gate true).trk 4095).rejUse = true ∧
    (gate true).windowPast ((gate true).trk 4095) = true := by decide +kernel

theorem witness_rejectHolds :
    (tabGet RejHold.reset ((on.updRej 15 (fun x => { x with holds := [(15, ⟨0, 1, .waiting⟩)] })).rej 15).holds 15).phase = .waiting ∧
    (on.updRej 15 (fun x => { x with holds := [(15, ⟨0, 1, .waiting⟩)] })).warpAt 15 0 = true ∧
    (tabGet RejHold.reset ((on.updRej 15 (fun x => { x with holds := [(15, ⟨0, 0, .asserting⟩)] })).rej 15).holds 15).phase ≠ .idle ∧
    (on.updRej 15 (fun x => { x with holds := [(15, ⟨0, 0, .asserting⟩)] })).warpAt 15 0 = true := by decide +kernel

/-- Output 15 in COMPARE mode on encoder 0, its position reached. -/
def compareOn : State := (lineOn.wrf (Reg.linRejCfg 15) 3 2 1).updRej 15 (fun x => { x with cmpArmed := true })

theorem witness_compare : compareOn.rejOn 15 = true ∧ compareOn.rejMode 15 = 1 ∧ (compareOn.rej 15).cmpArmed = true ∧
    compareOn.warpAt (compareOn.rdf (Reg.linRejCfg 15) 11 8) (compareOn.rd (Reg.linRejCmpPos 15)) = true ∧
    on.rejLevel 15 ≠ true ∧ ({ on with lin := { on.lin with lsrUntil := some 0 } }).lin.lsrUntil = some 0 ∧ on.rejOn 0 = false := by
  decide +kernel

/-! ### Mark jobs, stations and sequencers -/

/-- A job in entry 255 of channel 15. -/
def jobAt (e : JobEntry) : State := on.setJob 15 255 e
def job0 (st : JobSt) : JobEntry := { JobEntry.reset with st := st }

theorem witness_verdicts : ([0x9, 0x8, 0xA, 0x7, 0xC, 0xB, 0x6, 0xE, 0xF, 0x2, 0x3, 0x4, 0x5, 0xD, 0x1] : List (BitVec 4))[0]? = some 9 ∧
    ([0x9, 0x8, 0xA, 0x7, 0xC, 0xB, 0x6, 0xE, 0xF, 0x2, 0x3, 0x4, 0x5, 0xD, 0x1] : List (BitVec 4))[14]? = some 1 ∧ 0 ≤ 14 ∧
    ((jobAt (job0 .marking)).job 15 255).st = .marking ∧ ((jobAt (job0 .marking)).job 15 255).cond = 0 := by decide +kernel

theorem witness_jobExit : (254 : Nat) ≠ 255 ∧ (14 : Nat) ≠ 15 ∧ ((jobAt (job0 .armed)).job 15 255).st = .armed ∧
    ((jobAt (job0 .admitted)).job 15 255).st ≠ .armed ∧ ((jobAt (job0 .admitted)).job 15 255).st ≠ .marking ∧
    (jobAt (job0 .admitted)).recFree 15 ≠ true := by decide +kernel

def req0 : AdmitReq := ⟨0, 0, 0, 0, true⟩

/-- Channel 15 enabled and running. -/
def chanOn : State := (on.wrb (Reg.pgCtrl (chPage 15 0)) 0 true).wrb (Reg.chCtrl 15) 0 true

theorem witness_admission : ((on.updChan 15 (fun c => { c with reqs := [req0] })).chan 15).reqs = req0 :: [] ∧
    ((on.updStn 7 (fun x => { x with reqs := [req0] })).stn 7).reqs = req0 :: [] ∧
    on.takes (bus .oem) (.ch 15 2) 0x4C 0x80000000 ∧ bit 0x80000000 31 = true ∧ on.takes (bus .oem) (.stn 7) 0x44C 0x80000000 ∧
    on.admitCond 15 (on.newJob 15 req0 0 ⟨0, 0, none, 0⟩) ⟨0, 0, none, 0⟩ ≠ 0 ∧
    chanOn.admitCond 15 (chanOn.newJob 15 req0 0 ⟨0, 0, none, 0⟩) ⟨0, 0, none, 0⟩ = 0 ∧ chanOn.isLaser 15 = false ∧
    on.rdb (Reg.chCtrl 15) 0 = false ∧
    256 ≤ ((on.updChan 15 (fun c => { c with jobs := (List.range 256).map (fun j => (j, job0 .admitted)) })).chan 15).jobs.length := by
  unfold State.takes; decide +kernel

/-- Records can be signed, and the record queue of channel 15 has room. -/
def recOn : State := { on with sec := { on.sec with enclaveOk := true, epochOk := true, recKey := some [] } }.updQueue 62
  (fun q => { q with en := true, log2 := 4 })
def armAt (s : State) (st : JobSt) (ring : Bool) : State := s.setJob 15 255 { job0 st with inRing := ring }

theorem witness_arm : ((armAt recOn .composed true).job 15 255).st = .composed ∧
    (armAt recOn .composed true).warpAt 0 0 = true ∧
    (armAt recOn .composed true).past ((armAt recOn .composed true).job 15 255) 0 = false ∧
    (armAt recOn .composed true).recFree 15 = true ∧ (armAt recOn .composed true).isLaser 15 = false ∧
    (armAt recOn .composed true).thermSpeedOk ((armAt recOn .composed true).job 15 255) = true ∧
    ((armAt recOn .composed true).job 15 255).inRing = true ∧ (armAt recOn .composed true).rdb (Reg.chStat 15) 4 = false ∧
    (armAt recOn .composed true).rdb (Reg.hpStat 15) 1 = false ∧
    (armAt recOn .admitted false).recFree 15 = true ∧ ((armAt recOn .admitted false).job 15 255).cond = 0 ∧
    (armAt recOn .admitted false).thermSpeedOk ((armAt recOn .admitted false).job 15 255) = true ∧
    ((armAt recOn .admitted false).job 15 255).damped = false ∧ (armAt on .admitted false).recFree 15 = false ∧
    ((armAt on .armed true).job 15 255).st = .armed ∧ (armAt on .armed true).warpAt 0 0 = true ∧
    on.warpVelI (job0 .admitted).enc.toNat = 0 := by decide +kernel

/-- A job that has marked for CH_STALL_T. -/
def stalling : State := (jobAt (job0 .marking)).wrf (Reg.chStallT 15) 15 0 0

theorem witness_stall : stalling.markJob 15 = some 255 ∧ stalling.rdb (Reg.chStat 15) 3 = false ∧
    stalling.rdf (Reg.chStallT 15) 15 0 * msT ≤ stalling.now - (stalling.chan 15).lastFire := by decide +kernel

/-- A laser channel whose executor is ready for its job's first block, which lies at the ring's start. -/
def blockDue : State := ((on.wrb (Reg.chCfg 15) 0 true).wrb (Reg.pgCtrl (chPage 15 3)) 0 true).updLas 15
  (fun l => { l with job := 255, phase := .ready, blockLoaded := false })

theorem witness_blockStart : blockDue.laserOn 15 = true ∧ (blockDue.las 15).job ≠ 256 ∧ (blockDue.las 15).phase = .ready ∧
    (blockDue.las 15).blockLoaded = false ∧ (blockDue.setJob 15 255 { job0 .marking with units := 1, ringLen := 8 }).vblockAt 15
      ((blockDue.setJob 15 255 { job0 .marking with units := 1, ringLen := 8 }).job 15 255) (blockDue.las 15).block = some 48 := by decide +kernel

/-- A sequencer that executes. -/
def runs (s : State) : State := s.wrb (Reg.seqStat 15) 8 true

theorem witness_jobEnds : (runs (jobAt (job0 .marking))).seqRuns 15 = true ∧
    ((runs (jobAt (job0 .marking))).job 15 (postJob 0xFF)).st = .marking ∧
    ((runs (jobAt (job0 .armed))).job 15 (postJob 0xFF)).st ≠ .marking ∧ (runs (jobAt (job0 .armed))).seqRuns 15 = true ∧
    (((jobAt (job0 .marking)).updChan 15 (fun c => { c with heldEnd := some (255, 0) })).chan 15).heldEnd = some (255, 0) ∧
    ((jobAt (job0 .marking)).updChan 15 (fun c => { c with heldEnd := some (255, 0) })).endReady 15 = true ∧
    (((jobAt (job0 .marking)).updChan 15 (fun c => { c with heldEnd := some (255, 0) })).job 15 255).st = .marking ∧
    on.takes (bus .oem) (.ch 15 2) 0x54 0xFF ∧ on.takes (bus .oem) (.stn 7) 0x454 0xFF := by
  unfold State.takes; decide +kernel

theorem witness_unitRegisters : on.takes (bus .oem) (.ch 15 0) 0x44 1 ∧ on.takes (bus .oem) (.stn 7) 0x44 1 ∧
    on.takes (bus .oem) (.ch 15 0) 0x44 0 ∧ on.takes (bus .oem) (.stn 7) 0x44 0 ∧ on.takes (bus .oem) (.ch 15 2) 0x5C 0xFF ∧
    on.takes (bus .oem) (.stn 7) 0x45C 0xFF ∧ on.takes (bus .oem) (.ch 15 2) 0x44 0x80000000 ∧
    on.takes (bus .oem) (.stn 7) 0x444 0x80000000 := by
  unfold State.takes; decide +kernel

theorem witness_timing : (runs on).seqRuns 15 = true ∧
    (∀ e ∈ ((runs on).chan 15).jobs, e.2.st ≠ .armed ∨ e.2.popped = true) ∧ (runs (jobAt (job0 .armed))).seqRuns 15 = true ∧
    ((runs (jobAt (job0 .armed))).chan 15).jobs.filter (fun x => x.2.st == .armed && ! x.2.popped) = [(255, job0 .armed)] ∧
    ((on.updSeq 15 (fun q => { q with wait := .pos 0 0, wakeReversal := true })).seq 15).wait ≠ .none ∧
    ((on.updSeq 15 (fun q => { q with wait := .pos 0 0, wakeReversal := true })).seq 15).wakeReversal = true ∧
    ((on.updSeq 15 (fun q => { q with wait := .pos 0 0 })).seq 15).wakeReversal = false ∧
    (on.updSeq 15 (fun q => { q with wait := .pos 0 0 })).warpAt 0 0 = true ∧
    ((on.updSeq 15 (fun q => { q with wait := .tick 0 })).seq 15).wait = .tick 0 ∧ 0 ≤ sdiff (loW on.now) 0 ∧
    ((on.updSeq 15 (fun q => { q with predPos := some (0, 0) })).seq 15).predPos = some (0, 0) ∧ on.warpVelI 0 = 0 ∧
    ((on.updSeq 15 (fun q => { q with stalledEdge := some ⟨0, 0, true⟩ })).seq 15).stalledEdge = some ⟨0, 0, true⟩ ∧
    (on.seq 15).edges.length < 32 ∧ sdiff (loW on.now) 0 ≤ 0 ∧
    firstEdge (loW on.now) ((on.updSeq 15 (fun q => { q with edges := [⟨0, 0, true⟩] })).seq 15).edges = some ⟨0, 0, true⟩ := by
  decide +kernel

theorem witness_sequencers : on.powered (seqPage 16) = true ∧ (on.wrb (Reg.seqStat 16) 8 true).rdb (Reg.seqStat 16) 8 = true ∧
    ((on.wrb (Reg.seqStat 16) 8 true).seq 16).wdtAt ≤ (on.wrb (Reg.seqStat 16) 8 true).now ∧
    ((on.wrb (Reg.pgCtrl .bkg) 0 true).wrb Reg.bkgEn 2 true).banking 2 = true ∧
    ((on.wrb (Reg.pgCtrl .bkg) 0 true).wrb Reg.bkgEn 2 true).rdb (Reg.seqStat 16) 9 = false ∧ (on.seq 16).testing = false ∧
    ((on.updSeq 16 (fun q => { q with testing := true })).seq 16).testing = true ∧
    on.takes (bus .oem) (.ch 15 1) 0x40 (setBit 0 1 true) ∧ bit 0 0 = false ∧ bit 0 2 = false ∧ (on.seq 15).loading = false ∧
    on.enabled (.ch 15 0) = false ∧ (on.chan 15).jobs = [] ∧ chanOn.enabled (.ch 15 0) = true ∧
    chanOn.takes (bus .oem) (.ch 15 1) 0x40 (setBit 0 1 true) ∧ on.takes (bus .oem) (seqPage 16) 0x40 (setBit 0 0 true) ∧
    ((on.updSeq 16 (fun q => { q with loaded := true })).seq 16).loaded = true ∧
    on.takes (bus .oem) (seqPage 16) 0x40 (setBit 0 2 true) := by
  unfold State.takes; decide +kernel

/-- A mark program of no code for either mode, signed with the OEM program key below. -/
def progImg : List Byte := beBytes 128 0x53510102000000000000000000000000000000000100000000000000000000000000000000000000000000000000000000000000000000000000000000000000549a4075f0657b53e7bb10093cf21e2866d3667e7ab7919c3644243db83667461c336ad1facc7e714d3e5aadbefb5f62ccf1222a28e7db341216b6bf3d6777c2
def progKey : List Byte := beBytes 64 0x2e897305b7ac0c3996032c67ad6d99f67478f95dbe281fa5560afb45a5cfcfbc821fdecf224389a6d7cc99e1c4126bf9976084fb09ae2d99a084c48c49b9a156

/-- That image at 0x1000_0000, a load of it in progress. -/
def progLoading : State := { (((on.wr (Reg.seqLoadAddrLo 16) 0x10000000).wr (Reg.seqLoadLen 16) 128).wrMem 0x10000000 progImg).updSeq 16
    (fun q => { q with loading := true }) with sec := { on.sec with enclaveOk := true, progKey := some progKey } }

theorem witness_programLoad : (progLoading.seq 16).loading = true ∧ (progLoading.progImage 16).length = progLoading.rdn (Reg.seqLoadLen 16) ∧
    progFormatOk (progLoading.progImage 16) 2 = true ∧
    progLoading.progSigOk (leAt (progLoading.progImage 16) 0x14 1) (sha256 ((progLoading.progImage 16).take 64))
      ((progLoading.progImage 16).drop 64) = true ∧
    ((on.updSeq 16 (fun q => { q with loading := true })).seq 16).loading = true ∧
    progFormatOk ((on.updSeq 16 (fun q => { q with loading := true })).progImage 16) 2 = false := by decide +kernel

/-- Channel 15's sequencer has failed and its channel stands still for 50 µs. -/
def failed : State := { on with tim := { on.tim with tscAcc := 20000 * 2 ^ 32 } }.wrf (Reg.seqSwapStat 15) 2 0 1

theorem witness_swap : failed.rdf (Reg.seqSwapStat 15) 2 0 = 1 ∧ failed.marking 15 = false ∧
    (failed.chan 15).lastMarkEnd + 20000 ≤ failed.now ∧
    ({ failed with jobs := { failed.jobs with spareServes := some 0 } }.chanEvent 15 5 0 0).jobs.spareServes.isSome = true ∧
    (failed.chanEvent 15 5 0 0).jobs.spareServes = none ∧ (failed.chanEvent 15 5 0 0).rdb (Reg.seqStat 16) 9 = false ∧
    (failed.wrf (Reg.seqSwapStat 15) 2 0 3).rdf (Reg.seqSwapStat 15) 2 0 = 3 := by decide +kernel

/-- The hash of no image, where channel 15's registers give no image. -/
def failedHash : State := failed.wrWords (Reg.seqProgHash 15) 0 ((List.range 8).map (fun i => leAt (sha256 []) (4 * i) 4))

theorem witness_swapHash : (List.range 8).map (fun i => leAt (sha256 ((failedHash.chanEvent 15 5 0 0).progImage 15)) (4 * i) 4) =
    (List.range 8).map (fun i => (failedHash.chanEvent 15 5 0 0).rdn (Reg.seqProgHash 15 i)) := by decide +kernel

/-! ### Damask -/

/-- A render request of channel 15's job 255. -/
def rreq (ph : RenderPhase) : RenderReq :=
  { unit := 15, job := 255, stamp := 0, tplSlot := some 31, phase := ph, reentered := false, tag := 1, startTick := 0, pause := 0, vals := none }
def withReq (r : RenderReq) : State := { jobAt (job0 .admitted) with dmk := { on.dmk with reqs := [r] } }

theorem witness_renderQueue : (withReq (rreq .waiting)).pendingRenders < 64 ∧
    firstReq ((withReq (rreq .waiting)).dmk.reqs.filter (fun r => r.phase == RenderPhase.waiting)) = some (rreq .waiting) ∧
    64 ≤ ({ on with dmk := { on.dmk with reqs := List.replicate 64 (rreq .pending) } }).pendingRenders ∧
    ({ on with dmk := { on.dmk with reqs := List.replicate 64 (rreq .pending) } }).pendingRenders ≤ 64 := by decide +kernel

/-- Damask enabled with engine 1 in service and one render pending. -/
def dmkOn : State := ((withReq (rreq .pending)).wrb (Reg.pgCtrl .dmk) 0 true).wrf Reg.dmkCfg 1 0 2

theorem witness_dispatch : dmkOn.domOn 6 = true ∧ dmkOn.enabled .dmk = true ∧ dmkOn.readyEngines = [1] ∧ dmkOn.freeEngines = [1] ∧
    sortReqs (dmkOn.dmk.reqs.filter (fun r => r.phase == RenderPhase.pending && ! dmkOn.reqNoSpace r)) = [rreq .pending] ∧
    ((on.updEngine 1 (fun x => { x with pausedUntil := some 0 })).engine 1).pausedUntil.isSome = true ∧
    (on.updEngine 1 (fun x => { x with pausedUntil := some 0 })).due
      ((on.updEngine 1 (fun x => { x with pausedUntil := some 0 })).engine 1).pausedUntil = true := by decide +kernel

/-- Counter 31 in the flash store, with 1,024 values reserved and one to issue. -/
def serialOn : State := { on with sec := { on.sec with store := [⟨.serial 31, 1, leBytes 8 1024⟩] } }.updSerial 31
  (fun x => { x with next := 1023, resv := 1024, limit := 1024 })

theorem witness_serial : serialOn.serialValid 31 = true ∧ (serialOn.serial 31).next.toNat < (serialOn.serial 31).resv.toNat ∧
    (serialOn.serial 31).next.toNat < (serialOn.serial 31).limit.toNat ∧ on.serialValid 31 = false ∧
    (serialOn.updSerial 31 (fun x => { x with next := 1024 })).serialValid 31 = true ∧
    ((serialOn.updSerial 31 (fun x => { x with next := 1024 })).serial 31).resv.toNat ≤
      ((serialOn.updSerial 31 (fun x => { x with next := 1024 })).serial 31).next.toNat ∧
    (serialOn.wrf Reg.dmkSerSel 4 0 31).takes (bus .owner) .dmk 0x1E4 1 ∧ bit 1 0 = true ∧ bit 1 1 = false ∧
    (serialOn.wrf Reg.dmkSerSel 4 0 31).rd64 Reg.dmkSerSetLo Reg.dmkSerSetHi <
      ((serialOn.wrf Reg.dmkSerSel 4 0 31).serial ((serialOn.wrf Reg.dmkSerSel 4 0 31).rdf Reg.dmkSerSel 4 0)).resv.toNat ∧
    on.takes (bus .owner) .dmk 0x1E4 1 ∧ (on.serial (on.rdf Reg.dmkSerSel 4 0)).resv.toNat ≤ on.rd64 Reg.dmkSerSetLo Reg.dmkSerSetHi ∧
    on.takes (bus .owner) .dmk 0x1E4 2 ∧ bit 2 0 = false ∧ bit 2 1 = true := by
  unfold State.takes; decide +kernel

/-- A template of one blank line, for slot 31. -/
def tpl0 : Template :=
  { mode := 0, form := 0, tplId := 1, revision := 0, partCount := 1, markX := 1, markY := 8, pitch := 0, maxLen := 4, months := [],
    fields := [], objs := [], res := [], storeBytes := 0, cacheBytes := 0 }
def tplOn (x : Template) : State := on.setTplSlot 31 (some x)

theorem witness_templates : on.takes (bus .owner) .dmk 0x64 0x11F ∧ on.rdf Reg.dmkTplRes 2 0 ≠ 1 ∧ bit 0x11F 8 = true ∧
    on.tplSlot (fld 0x11F 4 0) = none ∧ (tplOn tpl0).takes (bus .owner) .dmk 0x64 0x11F ∧ (tplOn tpl0).rdf Reg.dmkTplRes 2 0 ≠ 1 ∧
    ((tplOn tpl0).tplSlot (fld 0x11F 4 0)).isSome = true ∧ bit 0x21F 8 = false ∧ bit 0x21F 9 = true ∧
    on.takes (bus .owner) .dmk 0x64 0x21F ∧ on.tplSlot (fld 0x21F 4 0) = none ∧ (tplOn tpl0).takes (bus .owner) .dmk 0x64 0x21F ∧
    (tplOn tpl0).slotInUse (fld 0x21F 4 0) = false ∧ ((tplOn tpl0).tplSlot (fld 0x21F 4 0)).isSome = true ∧
    ((tplOn tpl0).wr (Reg.dmkSel 23) 0x11F).slotInUse (fld 0x21F 4 0) = true ∧
    (((tplOn tpl0).wr (Reg.dmkSel 23) 0x11F).tplSlot (fld 0x21F 4 0)).isSome = true ∧
    (on.wrf Reg.dmkTplRes 2 0 1).takes (bus .owner) .dmk 0x64 0x11F ∧ (on.wrf Reg.dmkTplRes 2 0 1).rdf Reg.dmkTplRes 2 0 = 1 ∧
    ({ on with dmk := { on.dmk with loading := some (31, 0x10000000, 0) } }).tplImage = some (31, 0x10000000, []) ∧
    (({ on with dmk := { on.dmk with loading := some (31, 0x10000000, 0) } }).tplBolts []).length ≤ on.dmk.boltsDone ∧
    on.dmk.boltFault = false ∧ tplStart [] = false ∧
    tplStart (leBytes 4 0x014D44 ++ leBytes 4 0 ++ leBytes 4 128 ++ List.replicate 116 0) = true ∧
    (tplOn tpl0).takes (bus .operator) .dmk (0xC0 + 4 * 15) 0x11F ∧ (tplOn tpl0).tplSlot (fld 0x11F 4 0) = some tpl0 ∧
    ((tplOn tpl0).wrf (Reg.hpCfg 15) 11 0 8).selFits 15 tpl0 = true ∧
    ((tplOn tpl0).wrf (Reg.hpCfg 15) 11 0 8).takes (bus .operator) .dmk (0xC0 + 4 * 15) 0x11F ∧
    ((tplOn tpl0).wrf (Reg.hpCfg 15) 11 0 8).tplSlot (fld 0x11F 4 0) = some tpl0 := by
  unfold State.takes; decide +kernel

/-- A template with one operator-entered digit field of at most 2 characters. -/
def tplOpe (op : Bool) : Template := { tpl0 with fields := [⟨3, 0, op, 2, 0, [], 0, 0⟩] }
def opeOn (op : Bool) (len : Nat) : State := (((tplOn (tplOpe op)).wrf Reg.dmkOpeTarget 4 0 31).wrf Reg.dmkOpeLen 5 0 len).wr
  (Reg.dmkOpeData 0) 0x3130

theorem witness_damask : on.takes (bus .owner) .dmk 0x148 1 ∧ on.rdf Reg.dmkLotLen 5 0 ≤ 32 ∧
    (on.wrf Reg.dmkLotLen 5 0 33).takes (bus .owner) .dmk 0x148 1 ∧ 32 < (on.wrf Reg.dmkLotLen 5 0 33).rdf Reg.dmkLotLen 5 0 ∧
    (opeOn true 2).takes (bus .operator) .dmk 0x178 1 ∧
    (opeOn true 2).tplSlot ((opeOn true 2).rdf Reg.dmkOpeTarget 4 0) = some (tplOpe true) ∧
    (tplOpe true).fields[(opeOn true 2).rdf Reg.dmkOpeTarget 12 8]? = some ⟨3, 0, true, 2, 0, [], 0, 0⟩ ∧
    (∀ c ∈ (opeOn true 2).regBytes Reg.dmkOpeData 2, inCharset 0 c.toNat = true) ∧
    (opeOn false 2).tplSlot ((opeOn false 2).rdf Reg.dmkOpeTarget 4 0) = some (tplOpe false) ∧
    2 < (opeOn true 3).rdf Reg.dmkOpeLen 5 0 ∧ (opeOn true 3).takes (bus .operator) .dmk 0x178 1 ∧
    (∃ c ∈ ((opeOn true 2).wr (Reg.dmkOpeData 0) 0x1F30).regBytes Reg.dmkOpeData 2, inCharset 0 c.toNat = false) ∧
    ((opeOn true 2).wr (Reg.dmkOpeData 0) 0x1F30).rdf Reg.dmkOpeLen 5 0 = 2 ∧
    on.takes (bus .operator) .dmk 0x1C0 31 ∧ (tplOn tpl0).takes (bus .operator) .dmk 0x6C 31 ∧ (tplOn tpl0).tplSlot (fld 31 4 0) = some tpl0 ∧
    on.takes (bus .operator) .dmk 0x44 0x80000000 ∧ on.takes (bus .operator) .dmk 0x8C 0x80000000 := by
  unfold State.takes; decide +kernel

def vals0 : RenderVals :=
  { date := 0, days := 0, minute := 0, second := 0, dateValid := true, rollover := 0, serials := [], counters := [], lots := [],
    entries := [], shift := none }
/-- Engine 1 renders the job of channel 15 with a template of slot 31. -/
def rendering (x : Template) : State := { withReq { rreq (.engine 1) with vals := some vals0 } with
  dmk := { (tplOn x).dmk with reqs := [{ rreq (.engine 1) with vals := some vals0 }] } }.updQueue 79 (fun q => { q with en := true })

theorem witness_renderEnds : (rendering tpl0).engineReq 1 = some { rreq (.engine 1) with vals := some vals0 } ∧
    (rendering tpl0).reqJobs { rreq (.engine 1) with vals := some vals0 } = [(15, 255)] ∧ ((rendering tpl0).job 15 255).st = .admitted ∧
    (rendering tpl0).reqTpl { rreq (.engine 1) with vals := some vals0 } = some tpl0 ∧ ((rendering tpl0).queue 79).en = true ∧
    (match renderAll tpl0 vals0 true 1 [⟨0, 0, 0, (rendering tpl0).regionOf (rreq (.engine 1)) 15⟩] with
      | .ok l => l.length == 1
      | .error _ => false) = true ∧
    (match renderAll { tpl0 with maxLen := 3 } vals0 true 1 [⟨0, 0, 0, (rendering tpl0).regionOf (rreq (.engine 1)) 15⟩] with
      | .ok _ => false
      | .error _ => true) = true ∧
    ({ rendering tpl0 with tim := { on.tim with tscAcc := 40000 * 2 ^ 32 } }).now = 40000 ∧ (rreq (.engine 1)).startTick + 40000 ≤ 40000 ∧
    on.engSt 1 < 2 ∧ (on.setEngSt 1 2).engSt 1 = 2 ∧
    (withReq { rreq (.engine 1) with reentered := true }).engineReq 1 = some { rreq (.engine 1) with reentered := true } := by
  decide +kernel

/-! ### Thermal heads, Ember and the ribbon tag -/

/-- The port of thermal channel 15 enabled. -/
def portOn (s : State) : State := s.wrb (Reg.pgCtrl (chPage 15 3)) 0 true

theorem witness_ember : (on.embMasks 15 false [true, false] [])[1]? = some 0 ∧
    ((on.embMasks 15 false [true, false] [])[0]?).isSome = true ∧ on.embWidths 15 ≠ [] ∧
    (∀ w ∈ on.embWidths 15, w ≤ on.rdf (Reg.hpSpwCap 15) 19 0) ∧ (on.embWidths 15).length = on.subPulses 15 := by decide +kernel

theorem witness_emberSets : on.takes (bus .oem) (chPage 15 4) 0x44 (setBit 0 0 true) ∧ bit 0 1 = false ∧
    on.armedOrMarking 15 = false ∧ (jobAt (job0 .armed)).takes (bus .oem) (chPage 15 4) 0x44 (setBit 0 0 true) ∧
    (jobAt (job0 .armed)).armedOrMarking 15 = true ∧ (on.wrb (Reg.embStat 15) 0 true).powered (chPage 15 4) = true ∧
    (on.wrb (Reg.embStat 15) 0 true).rdb (Reg.embStat 15) 0 = true ∧ embOffs ≠ [] ∧
    on.takes (bus .oem) (chPage 15 4) 0x44 (setBit 0 1 true) ∧ bit 0 0 = false := by
  unfold State.takes; decide +kernel

def line0 (last : Bool) : ThermLine :=
  { jobSeq := 0, line := 0, blank := false, first := 0, dots := 1, crc := 0, hdr := [], pattern := [true], masks := [1], widths := [1],
    last := last }
/-- A mark in progress on channel 15, with its port's state. -/
def printing (f : ThermState → ThermState) : State :=
  (portOn (jobAt { job0 .marking with inRing := true, ringLen := 8 })).updTherm 15 f

theorem witness_lines : (printing id).thermOn 15 = true ∧ ((printing id).therm 15).computed = none ∧
    ((printing id).therm 15).lastFired = false ∧ ((printing id).therm 15).ending = false ∧ ((printing id).therm 15).dummy = false ∧
    (printing id).embJob 15 = some 255 ∧ ((printing id).job 15 255).inRing = true ∧
    (printing id).weftAt 15 ((printing id).job 15 255) ((printing id).therm 15).nextLine = some 48 ∧
    (printing id).markJob 15 = some 255 ∧ (7 : Nat) ≠ 0 ∧
    ((printing (fun t => { t with computed := some (line0 true), waiting := [0] })).therm 15).computed = some (line0 true) ∧
    ((printing (fun t => { t with computed := some (line0 true), waiting := [0] })).therm 15).waiting = 0 :: [] ∧
    (printing (fun t => { t with computed := some (line0 true), waiting := [0] })).lineReady 15
      ((printing (fun t => { t with computed := some (line0 true), waiting := [0] })).job 15 255) = true ∧
    (printing (fun t => { t with computed := some (line0 true), waiting := [0] })).thermOn 15 = true ∧
    ((printing id).wrb (Reg.hpStat 15) 5 true).rdb (Reg.hpStat 15) 5 = true ∧
    ((printing (fun t => { t with unread := some (line0 true), lastFired := true })).therm 15).unread.isSome = true ∧
    ((printing (fun t => { t with unread := some (line0 true), lastFired := true })).therm 15).lineEnd ≤ (printing id).now ∧
    ((printing (fun t => { t with unread := some (line0 true), dummy := true })).therm 15).unread = some (line0 true) ∧
    ((printing (fun t => { t with unread := some (line0 true), dummy := true })).therm 15).dummy = true ∧
    ((printing (fun t => { t with unread := some (line0 true), dummy := true })).therm 15).shiftedAt ≤ (printing id).now ∧
    ({ line0 true with blank := true }).blank = true ∧ (∃ b ∈ [true].take 1, b = true) := by decide +kernel

/-- Channel 15's port with a temperature window of 1 to 4094, and one with the sensor open. -/
def tempOn : State := ((portOn on).wrf (Reg.hpThCfg 15) 19 8 0xFFE).wrf (Reg.hpThCfg 15) 31 20 0

theorem witness_heads : on.isLaser 15 = false ∧ on.powered (chPage 15 3) = true ∧ (0 : Nat) < on.headGroups 15 ∧
    on.rdf (Reg.hpStbMax 15) 12 0 * usT ≤ 4000000 ∧ tempOn.thermOn 15 = true ∧
    (1 : BitVec 12).toNat < tempOn.rdf (Reg.hpThCfg 15) 19 8 ∧ tempOn.rdf (Reg.hpThCfg 15) 31 20 < (1 : BitVec 12).toNat ∧
    tempOn.rdf (Reg.hpThCfg 15) 19 8 ≤ (0xFFE : BitVec 12).toNat ∧
    3 ≤ ((tempOn.updTherm 15 (fun t => { t with openCnt := 3 })).therm 15).openCnt ∧
    (tempOn.updTherm 15 (fun t => { t with openCnt := 3 })).lineActive 15 = false ∧
    ((on.updTherm 15 (fun t => { t with heldSoot := [4] })).therm 15).heldSoot ≠ [] ∧
    (on.updTherm 15 (fun t => { t with heldSoot := [4] })).lineActive 15 = false ∧
    ((((portOn on).wrb (Reg.hpAuditCfg 15) 0 true).wrb (Reg.pgCtrl .bkg) 0 true).wrb Reg.bkgEn 3 true).auditRuns 15 = true ∧
    (on.therm 15).auditPulses % 64 = 0 ∧ on.takes (bus .oem) (chPage 15 3) 0x100 (setBit 0 2 true) := by
  unfold State.takes; decide +kernel

/-- A tag that answers the nonce of 16 zero bytes under the consumable key 0 of a blank OTP: its two check values written out. -/
def tagRecord : List Byte := List.replicate 24 0 ++ beBytes 16 0xf52a28cf964b30fcc02dffd66178cf21
def tagReply : TagReply := ⟨tagRecord, beBytes 16 0x8aa845131135c9d439493ec91cb40cf7⟩
def tagOn (f : TagState → TagState) : State := (on.wrb (Reg.cnsCfg 15) 0 true).updTag 15 f

theorem witness_tag : on.takes (bus .oem) (chPage 15 7) 0x4C (setBit 0 0 true) ∧ bit 0 1 = false ∧ (tagOn id).cnsOn 15 = true ∧
    (tagOn id).rdb (Reg.cnsStat 15) 0 = false ∧
    ((tagOn (fun t => { t with nonce := some (List.replicate 16 0) })).tag 15).nonce = some (List.replicate 16 0) ∧
    [0, 1].find? (fun k => (tagOn (fun t => { t with nonce := some (List.replicate 16 0) })).tagKeyOk k (List.replicate 16 0) tagReply)
      = some 0 ∧
    leAt tagReply.record 0x10 4 ≤ (tabGet 0xFFFFFFFF (tagOn id).sec.tagLeft (leAt tagReply.record 0 8)).toNat ∧
    (∀ k ∈ [0, 1], (tagOn (fun t => { t with nonce := some (List.replicate 16 0) })).tagKeyOk k (List.replicate 16 0) ⟨[], []⟩ = false) ∧
    on.takes (bus .oem) (chPage 15 7) 0x4C (setBit 0 1 true) ∧ bit 0 0 = false ∧
    (tagOn (fun t => { t with trusted := true, record := tagRecord })).cnsOn 15 = true ∧
    ((tagOn (fun t => { t with trusted := true, record := tagRecord })).tag 15).trusted = true ∧
    ((tagOn (fun t => { t with trusted := true, record := tagRecord })).tag 15).writing = none ∧
    ((tagOn (fun t => { t with trusted := true, record := tagRecord })).tag 15).record.length = 40 ∧
    ((tagOn (fun t => { t with writing := some tagRecord })).tag 15).writing = some tagRecord ∧
    ((tagOn (fun t => { t with writing := some tagRecord })).tag 15).wbWanted = false ∧
    ((tagOn (fun t => { t with retryAt := some 0 })).tag 15).retryAt = some 0 ∧ 0 ≤ (tagOn id).now := by
  refine ⟨?_, ?_, ?_, ?_, ?_, ?_, ?_, ?_, ?_, ?_, ?_, ?_, ?_, ?_, ?_, ?_, ?_, ?_⟩ <;> first | (unfold State.takes; decide +kernel) | decide +kernel

/-! ### Laser channels -/

/-- The executor of channel 15 ready for a block, with a record of an opcode in the ring, the block loaded or not. -/
def lasRec (op : Byte) (f : LaserState → LaserState) : State :=
  (((blockDue.setJob 15 255 { job0 .marking with units := 1, ringLen := 8 }).wrMem (0x300F0000 + 64) [op]).updLas 15
    (fun l => { l with blockLoaded := true })).updLas 15 f

theorem witness_vectors : (lasRec 1 (fun l => { l with blockLoaded := false })).laserOn 15 = true ∧
    ((lasRec 1 (fun l => { l with blockLoaded := false })).las 15).blockLoaded = false ∧
    ((lasRec 1 id).las 15).job ≠ 256 ∧ ((lasRec 1 id).las 15).phase = .ready ∧
    (lasRec 1 id).vblockAt 15 ((lasRec 1 id).job 15 255) ((lasRec 1 id).las 15).block = some 48 ∧
    ((lasRec 1 id).laserRec 15).map (fun r => r.op) = some 1 ∧ ((lasRec 2 id).laserRec 15).map (fun r => r.op) = some 2 ∧
    ((lasRec 2 id).las 15).fires = true ∧ ((lasRec 2 (fun l => { l with blankJob := true })).las 15).fires = false ∧
    ((lasRec 2 (fun l => { l with blankJob := true })).laserRec 15).map (fun r => r.op) = some 2 ∧
    ((lasRec 3 id).laserRec 15).map (fun r => r.op) = some 3 ∧ ((lasRec 4 id).laserRec 15).map (fun r => r.op) = some 4 ∧
    ((lasRec 5 id).laserRec 15).map (fun r => r.op) = some 5 ∧ ((lasRec 6 id).laserRec 15).map (fun r => r.op) = some 6 ∧
    ((lasRec 7 id).laserRec 15).map (fun r => r.op) = some 7 ∧ ((lasRec 8 id).laserRec 15).map (fun r => r.op) = some 8 ∧
    ((lasRec 15 id).laserRec 15).map (fun r => r.op) = some 0xF ∧ (33554431 : Int).natAbs < 2 ^ 25 ∧
    ((lasRec 7 (fun l => { l with phase := .waiting })).las 15).phase = .waiting ∧
    (lasRec 7 (fun l => { l with phase := .waiting })).warpAt 0 ((lasRec 7 id).las 15).waitPos = true ∧
    ((lasRec 1 (fun l => { l with phase := .moving })).las 15).phase = .moving ∧
    ((lasRec 1 (fun l => { l with phase := .moving })).las 15).recEnd ≤ (lasRec 1 id).now ∧
    ((lasRec 1 (fun l => { l with phase := .settling, settledFrames := 2 })).las 15).phase = .settling ∧
    2 ≤ ((lasRec 1 (fun l => { l with phase := .settling, settledFrames := 2 })).las 15).settledFrames ∧
    ((lasRec 1 (fun l => { l with phase := .settling, settledFrames := 1 })).las 15).settledFrames < 2 ∧
    ((lasRec 1 id).wrf (Reg.lpSettle 15) 31 16 0).rdf (Reg.lpSettle 15) 31 16 * usT ≤ (lasRec 1 id).now := by decide +kernel

/-- Pulse modulation, with a limit entry of any period. -/
def pulsing : State := ((lasRec 2 (fun l => { l with gate := true, gateCmd := true })).wrf (Reg.lpCfg 15) 2 1 1).wr (Reg.lpLimPer 15 7) 0x80000000

theorem witness_beam : pulsing.modMode 15 = 1 ∧ pulsing.laserOn 15 = true ∧ (pulsing.las 15).job ≠ 256 ∧ (pulsing.las 15).gate = true ∧
    (pulsing.las 15).pulseAt + ((pulsing.updLas 15 (fun l => { l with period := 0 })).las 15).period ≤ pulsing.now ∧
    pulsing.isLaser 15 = true ∧ pulsing.powered (chPage 15 3) = true ∧
    (true != pulsing.rdb (Reg.lpCfg 15) 5) = ! ((pulsing.updLas 15 (fun l => { l with readyActive := pulsing.rdb (Reg.lpCfg 15) 5 })).las 15).readyActive ∧
    ((pulsing.updLas 15 (fun l => { l with readyLostAt := some 0, readyActive := false })).las 15).readyLostAt = some 0 ∧
    (pulsing.updLas 15 (fun l => { l with readyLostAt := some 0, readyActive := false })).laserOn 15 = true ∧
    (pulsing.wrb (Reg.chCtrl 15) 0 true).rdb (Reg.chCtrl 15) 0 = true ∧
    0 + (pulsing.wrf (Reg.lpReadyT 15) 15 0 0).rdf (Reg.lpReadyT 15) 15 0 * msT ≤ pulsing.now ∧
    (pulsing.las 15).alarmActive = false ∧ ((pulsing.updLas 15 (fun l => { l with alarmActive := true })).las 15).alarmActive = true ∧
    ((pulsing.updLas 15 (fun l => { l with dwellSince := some 0 })).las 15).dwellSince = some 0 ∧ pulsing.domOn 1 = true ∧
    (pulsing.las 15).dotDwell = none ∧ ((pulsing.wrf (Reg.lpDwellTime 15) 11 0 0).rdf (Reg.lpDwellTime 15) 11 0) * usT <
      ({ pulsing with tim := { pulsing.tim with tscAcc := 2 ^ 32 } }).now - 0 ∧
    (pulsing.lpLimit 15).isSome = true ∧ on.lpLimit 15 = none ∧ on.axesClosed 15 = false ∧
    on.rds (Reg.lpWinXmin 15) 23 0 ≤ on.rds (Reg.lpWinXmax 15) 23 0 := by decide +kernel

/-- Channel 15 in laser mode, its port disabled and enabled. -/
def lasOff : State := on.wrb (Reg.chCfg 15) 0 true
def lasOn : State := lasOff.wrb (Reg.pgCtrl (chPage 15 3)) 0 true

theorem witness_laserCommands : lasOff.takes (bus .oem) (chPage 15 3) 0x9C (setBit 0 0 true) ∧ lasOff.isLaser 15 = true ∧
    lasOff.takes (bus .oem) (chPage 15 3) 0x9C (setBit 0 1 true) ∧ lasOff.takes (bus .oem) (chPage 15 3) 0x9C (setBit 0 2 true) ∧
    bit 0 0 = false ∧ bit 0 1 = false ∧ bit 0 2 = false ∧ (lasOff.wrb (Reg.lpStat 15) 10 true).rdb (Reg.lpStat 15) 10 = true ∧
    lasOff.marking 15 = false ∧ lasOff.powered (chPage 15 3) = true ∧ lasOff.takes (bus .oem) (chPage 15 3) 0x98 0 ∧
    (lasOff.wrf (Reg.lpGridSel 15) 12 0 4224).rdf (Reg.lpGridSel 15) 12 0 ≤ 4224 ∧
    lasOff.takes (bus .oem) (chPage 15 3) 0xF8 0x80000000 ∧ lasOff.takes (bus .oem) (chPage 15 4) 0x48 0x80000000 ∧
    lasOn.laserOn 15 = true ∧ (lasOn.las 15).job = 256 ∧ lasOn.markJob 15 = none ∧ lasOn.jobsIn 15 .armed = [] ∧
    (lasOn.setJob 15 255 (job0 .armed)).jobsIn 15 .armed ≠ [] ∧ (lasOn.setJob 15 255 (job0 .marking)).markJob 15 = some 255 ∧
    ((lasOn.updLas 15 (fun l => { l with job := 255 })).las 15).job ≠ 256 ∧
    ((lasOn.updLas 15 (fun l => { l with job := 255 })).las 15).phase ≠ .ended ∧
    (lasOn.wrf (Reg.lpPreCount 15) 6 0 0).rdf (Reg.lpPreCount 15) 6 0 = 0 := by
  unfold State.takes; decide +kernel

/-! ### Servo and tension loops -/

/-- Loop 47, an auxiliary one, with its datapath enabled, its frame open and its evaluation due; OUT_MAX 4 and ILIM 4. -/
def loopDue : State := { on with loops := { on.loops with frames := [(3, 1)] }, tim := { on.tim with tscAcc := (on.slotAt 47) * 2 ^ 32 } }.wrb
  (Reg.pgCtrl (.ldp 3)) 0 true |>.wrf (Reg.clkSynStat 0) 2 0 2
def bank4 : Tab Word := [(5, 4), (7, 4)]

theorem witness_loops : on.takes (bus .oem) (loopPage 47) (0x104 + 0x100 * (loopIx 47 % 12)) (BitVec.ofNat 32 1) ∧
    on.takes (bus .oem) (loopPage 47) (0x104 + 0x100 * (loopIx 47 % 12)) (BitVec.ofNat 32 5) ∧
    on.takes (bus .oem) (loopPage 47) (0x104 + 0x100 * (loopIx 47 % 12)) 4 ∧
    (loopDue.wrf (Reg.loopStat (loopIx 47)) 10 8 4).evalDue 47 = true ∧ loopDue.loopHeld 47 = false ∧
    (loopDue.wrf (Reg.loopStat (loopIx 47)) 10 8 4).rdf (Reg.loopStat (loopIx 47)) 10 8 = 4 ∧
    on.openLoopMode 47 = false ∧ bankOk (on.loopBank 47 true) = true ∧
    bankOk ((on.updLoop 47 (fun l => { l with bank0 := [(6, 1)], bank1 := [(6, 1)] })).loopBank 47 true) = false ∧
    on.loopSt 47 = 0 ∧ on.loopSt 47 ≠ 1 ∧
    (on.updLoop 47 (fun l => { l with bank0 := [(6, 1)] })).closeRefused 47 = true ∧
    on.takes (bus .oem) (loopPage 47) (0x140 + 0x100 * (loopIx 47 % 12) + 4 * 17) 7 ∧
    on.takes (bus .oem) (loopPage 47) (0x100 + 0x100 * (loopIx 47 % 12)) 1 ∧
    on.takes (bus .oem) (loopPage 47) (0x134 + 0x100 * (loopIx 47 % 12)) 0x80000000 := by
  unfold State.takes; decide +kernel

/-- Loop 31 bound to a laser channel that marks. -/
def loopBusy : State := (((lasOn.wrf (Reg.lpBindCfg 15) 4 0 31).setJob 15 255 (job0 .marking))).updLoop 31 (fun l => { l with cmd := 1 })

theorem witness_loopHeld : loopBusy.loopHeld 31 = true ∧ (loopBusy.loop 31).cmd = 1 := by decide +kernel

theorem witness_close : on.closeRefused 47 = false ∧ on.loopSt 47 = 0 := by decide +kernel

def tuning : State := ((on.wrf (Reg.loopStat (loopIx 47)) 1 0 2).wrf (Reg.loopTuneCfg (loopIx 47)) 31 16 0).updLoop 47
  (fun l => { l with tune := some ⟨false, 0, 0, 0, 0, 0, 0, 0⟩ })

theorem witness_tune : (tuning.loop 47).tune.isSome = true ∧ tuning.loopSt 47 = 2 ∧
    0 + tuning.rdf (Reg.loopTuneCfg (loopIx 47)) 31 16 * msT ≤ tuning.now := by decide +kernel

theorem witness_law : (on.wrb (Reg.pgCtrl (.ldp 3)) 0 true).frameDue 3 = true ∧ loopDue.evalDue 47 = true ∧ bankOk bank4 = true ∧
    bankMin bank4 ≤ 4 ∧ (4 : Int) ≤ bankMax bank4 ∧ ((4 : Int) * 65536).natAbs ≤ (bankLim bank4 * 65536).natAbs ∧
    (31 : Nat) < 32 ∧ (on.loop 31).meas = none ∧ (on.loop 31).cmd = 0 ∧ (on.loop 31).swap = false ∧
    (on.wrf (Reg.loopStat (loopIx 31)) 1 0 1).loopSt 31 ≠ 0 := by decide +kernel

/-- Channel 15 with its gate on, its X loop's window 0, and the error count needed 1 and 2. -/
def feOn (k : Nat) : State := (((lasOn.updLas 15 (fun l => { l with gate := true, gateCmd := true })).wrf
  (Reg.loopFeWin (loopIx 0)) 23 0 0).wrf (Reg.loopFeCfg (loopIx 0)) 2 0 k).wrf (Reg.lpBindCfg 15) 4 0 0

theorem witness_fe : (feOn 1).loopX 15 = 0 ∧ ((feOn 1).las 15).gate = true ∧ (feOn 1).rdf (Reg.loopFeWin (loopIx 0)) 23 0 <
      ((((feOn 1).loop 0).ref - 1).natAbs) ∧ (feOn 1).rdf (Reg.loopFeCfg (loopIx 0)) 2 0 ≤ ((feOn 1).loop 0).feCount + 1 ∧
    (feOn 1).isLaser 15 = true ∧ ((feOn 2).loop 0).feCount + 1 < (feOn 2).rdf (Reg.loopFeCfg (loopIx 0)) 2 0 ∧
    ((((feOn 1).loop 0).ref - 0).natAbs) ≤ (feOn 1).rdf (Reg.loopFeWin (loopIx 0)) 23 0 := by decide +kernel

/-! ### Drives -/

/-- Stepper port 15 enabled in a state. -/
def stpIn (k : Nat) : State := (on.wrb (Reg.pgCtrl (stpPage 15)) 0 true).wrf (Reg.stpStat 15) 3 0 k

theorem witness_profile : (3 : Nat) ≤ 5 ∧ (stpIn stpMoving).stpOn 15 = true ∧ (stpIn stpMoving).stpDc 15 = false ∧
    (stpIn stpMoving).stpSt 15 ≠ 0 ∧ ((stpIn stpMoving).step_ 15).tickAt ≠ (stpIn stpMoving).now / usT + 1 ∧
    (stpIn stpMoving).now % usT < 2 ∧
    (trapPlan 3 20 1 2 5 4 false).snap = false ∧ (trapPlan 3 20 1 2 5 4 false).pass = false ∧ (trapPlan 9 10 1 2 5 4 false).pass = true ∧
    (stpIn stpIdle).stpSt 15 ≠ stpShorted ∧ ((stpIn stpIdle).step_ 15).chopB.driving = false ∧
    ((stpIn stpIdle).step_ 15).chopB.until_ ≤ (stpIn stpIdle).now := by decide +kernel

/-- Coil A of port 15 driving in DC mode with a current set, its blanking over. -/
def chopping (d : Bool) : State := (((stpIn stpMoving).wrb (Reg.stpCfg 15) 0 true).wrf (Reg.stpChop 15) 18 11 0).wrf
  (Reg.stpCurrent 15) 15 8 255 |>.updStep_ 15 (fun t => { t with chopA := { t.chopA with driving := d } })

theorem witness_chopper : ((chopping true).step_ 15).chopA.driving = true ∧
    ((chopping true).step_ 15).chopA.onAt + (chopping true).driveTime ((chopping true).rdf (Reg.stpChop 15) 18 11 * 4) ≤ (chopping true).now ∧
    (chopping true).stpOn 15 = true ∧ (chopping true).stpSt 15 ≠ stpShorted ∧ ((chopping false).step_ 15).chopA.driving = false ∧
    ((chopping false).step_ 15).chopA.until_ ≤ (chopping false).now ∧ (chopping false).coilCode 15 false ≠ 0 := by decide +kernel

theorem witness_stepper : (((stpIn stpIdle).updStep_ 15 (fun t => { t with restAt := some 0 })).step_ 15).restAt = some 0 ∧
    ((stpIn stpIdle).step_ 15).vel = 0 ∧ 0 + ((stpIn stpIdle).wrf (Reg.stpAdapt 15) 31 24 0).rdf (Reg.stpAdapt 15) 31 24 * 10 * msT ≤
      (stpIn stpIdle).now ∧ on.takes (bus .oem) (stpPage 15) 0x84 0x80000000 ∧ (stpIn stpStalled).stpSt 15 = stpStalled ∧
    (stpIn stpIdle).stpSt 15 ≠ stpStalled ∧ (stpIn stpIdle).stpSt 15 ≠ 0 ∧ on.takes (bus .oem) (stpPage 15) 0x8C 0 ∧
    on.takes (bus .oem) (stpPage 15) 0x90 0 ∧ on.takes (bus .oem) (stpPage 15) 0x98 0 ∧
    (stpIn stpIdle).takes (bus .oem) (stpPage 15) 0x9C (BitVec.ofNat 32 1) ∧
    (stpIn stpIdle).takes (bus .oem) (stpPage 15) 0x9C (BitVec.ofNat 32 6) ∧ (stpIn stpIdle).stpOn 15 = true ∧
    (stpIn stpIdle).stpMarking 15 = false ∧ (((stpIn stpIdle).updStep_ 15 (fun t => { t with held := [6] })).step_ 15).held = [6] ∧
    [1, 2, 3, 5, 7].contains ((stpIn stpHalted).stpSt 15) = true ∧ (stpIn stpHalted).deviceSafe = false ∧
    (stpIn stpHalted).stpSt 15 = stpHalted ∧ (stpIn stpMoving).stpSt 15 ≠ stpHoming ∧ (stpIn stpMoving).powered (stpPage 15) = true ∧
    on.takes (bus .oem) (stpPage 15) 0xD4 0xFFFFFF := by
  unfold State.takes; decide +kernel

/-- BLDC port 3 enabled in a state. -/
def blIn (k : Nat) (f : BldcState → BldcState) : State := ((on.wrb (Reg.pgCtrl (blPage 3)) 0 true).wrf (Reg.blStat 3) 3 0 k).updBldc 3 f
def at1s (s : State) : State := { s with tim := { s.tim with tscAcc := secT * 2 ^ 32 } }

theorem witness_bldc : on.takes (bus .oem) (blPage 3) 0x60 1 ∧ on.takes (bus .oem) (blPage 3) 0x60 2 ∧
    on.takes (bus .oem) (blPage 3) 0x60 3 ∧ (blIn 0 id).blOn 3 = true ∧ (blIn 0 id).deviceSafe = false ∧ (blIn 0 id).blSt 3 = 0 ∧
    (blIn 5 id).blSt 3 ≠ 6 ∧ (blIn 5 id).blSt 3 = 5 ∧ (blIn 1 id).blSt 3 = 1 ∧ ((blIn 1 id).bldc 3).since + 10 * msT ≤ (at1s (blIn 1 id)).now ∧
    ((blIn 1 id).wrf (Reg.blSpeeds 3) 15 0 0).rdf (Reg.blSpeeds 3) 15 0 < erpmOf (meanOf [4000]) ∧
    ((blIn 1 (fun b => { b with times := [4000], fwd := true })).bldc 3).fwd = true ∧
    ((blIn 1 (fun b => { b with times := [4000], fwd := true })).bldc 3).times = [4000] ∧
    ((blIn 5 (fun b => { b with lastCross := some 0, commAt := some 0 })).bldc 3).lastCross = some 0 ∧
    ((blIn 5 (fun b => { b with lastCross := some 0, commAt := some 0 })).bldc 3).commAt = some 0 ∧ (blIn 3 id).blSt 3 = 3 ∧
    ((blIn 3 id).bldc 3).since + (at1s (blIn 3 id)).rdf (Reg.blStart 3) 15 8 * msT ≤ (at1s (blIn 3 id)).now ∧ (blIn 4 id).blSt 3 = 4 ∧
    ((blIn 4 id).bldc 3).since + (at1s ((blIn 4 id).wrf (Reg.blStart 3) 23 16 0)).rdf (Reg.blStart 3) 23 16 * 10 * msT + 100 * msT ≤
      (at1s (blIn 4 id)).now ∧
    Nat.max ((blIn 5 id).bldc 3).since (((blIn 5 id).bldc 3).lastCross.getD 0) + 2 * meanOf ((blIn 5 id).bldc 3).times ≤ (blIn 5 id).now ∧
    (blIn 7 id).powered (blPage 3) = true ∧ (blIn 7 id).blSt 3 = 7 ∧ ((blIn 7 (fun b => { b with on := true })).bldc 3).on = true ∧
    ((blIn 7 id).bldc 3).since + secT ≤ (at1s (blIn 7 id)).now ∧ ((blIn 5 (fun b => { b with learnN := 1 })).bldc 3).learnN ≠ 0 ∧
    ((blIn 5 (fun b => { b with learnN := 1 })).bldc 3).learnAt + 100 * msT ≤ (at1s (blIn 5 id)).now := by
  unfold State.takes; decide +kernel

theorem witness_curve : ((on.wrf (Reg.blCfg 3) 4 3 2).wrf (Reg.blCfg 3) 11 5 12).curveX 3 = none ∧ on.curveX 3 = some 0 ∧
    (0 : Int) < ((on.wrf (Reg.blCurve 3 0) 15 0 1).curvePt 3 0).1 ∧ (on.wrf (Reg.blCurve 3 0) 15 0 1).curveX 3 = some 0 ∧
    (∀ i, i < 16 → (on.curvePt 3 i).1 ≤ 0) := by decide +kernel

/-- Motor bus 1 enabled, with a stepper port and a BLDC port of it shorted. -/
def busIn : State := (((((on.wrb (Reg.pgCtrl (mbPage 1)) 0 true).wrb (Reg.pgCtrl (stpPage 15)) 0 true).wrb (Reg.stpCfg 15) 2 true).wrf
  (Reg.stpStat 15) 3 0 stpShorted).wrf (Reg.mbHold 1) 15 0 0).updMbus 1 (fun b => { b with lowSince := some 0, edgeAt := some 0 })

theorem witness_bus : busIn.mbOn 1 = true ∧ busIn.rdf (Reg.mbOv2 1) 15 0 ≤ (0xFFFF : BitVec 16).toNat ∧ busIn.stpBus 15 = 1 ∧
    busIn.stpOn 15 = true ∧ busIn.rdf (Reg.mbOv3 1) 15 0 ≤ (0xFFFF : BitVec 16).toNat ∧ (busIn.mbus 1).edgeAt = some 0 ∧
    0 + 5 * usT ≤ (at1s busIn).now ∧ on.takes (bus .oem) (mbPage 1) 0x5C (setBit 0 0 true) ∧ (busIn.mbus 1).lowSince = some 0 ∧
    busIn.busShorted 1 = true ∧ 0 + busIn.rdf (Reg.mbHold 1) 15 0 * msT ≤ busIn.now ∧ busIn.stpSt 15 = stpShorted ∧
    on.takes (bus .oem) (mbPage 1) 0x64 0x80000000 := by
  unfold State.takes; decide +kernel

/-! ### Agjor Link -/

/-- The link of laser channel 15 enabled in a state, its bound datapath's frame open. -/
def lnkIn (k : Nat) (f : LinkState → LinkState) : State :=
  ({ lasOff with loops := { lasOff.loops with frames := [(0, 1), (1, 1), (2, 1), (3, 1)] } }.wrb (Reg.pgCtrl (chPage 15 5)) 0 true).wrf
    (Reg.lkStat 15) 1 0 k |>.updLnk 15 f
def sixUs (s : State) : State := { s with tim := { s.tim with tscAcc := 2400 * 2 ^ 32 } }

theorem witness_link : (lnkIn 2 id).linkOn 15 = true ∧ ((lnkIn 2 id).lnk 15).startDue = false ∧
    ((lnkIn 1 (fun l => { l with train := true })).lnk 15).train = true ∧ (lnkIn 2 id).lenServes 15 = false ∧
    upField (BitVec.ofNat 160 (0xD42B * 2 ^ 144)) 0 16 = 0xD42B ∧ (lnkIn 2 id).uplinkDue 15 = true ∧
    (lnkIn 2 id).frameOpen 15 = some 0 ∧ 0 + 600 ≤ (sixUs (lnkIn 2 id)).now ∧ (sixUs (lnkIn 2 id)).uplinkDue 15 = true ∧
    (lnkIn 1 id).rdf (Reg.lkStat 15) 1 0 = 1 ∧ (lnkIn 2 id).rdf (Reg.lkStat 15) 1 0 = 2 ∧ ((lnkIn 2 id).lnk 15).lastBad = false ∧
    ((lnkIn 2 (fun l => { l with lastBad := true })).lnk 15).lastBad = true ∧
    ((lnkIn 2 (fun l => { l with gateNow := true })).lnk 15).gateNow = true ∧
    ((lnkIn 1 (fun l => { l with waitTo := some 0 })).lnk 15).waitTo = some 0 ∧
    ((lnkIn 1 (fun l => { l with searching := true, tap := 64 })).lnk 15).searching = true ∧
    64 ≤ ((lnkIn 1 (fun l => { l with searching := true, tap := 64 })).lnk 15).tap ∧
    ((lnkIn 3 id).wrf (Reg.clkSynStat 3) 2 0 2).rdf (Reg.clkSynStat 3) 2 0 = 2 ∧
    ((lnkIn 3 id).wrf (Reg.clkSynStat 3) 2 0 2).rdf (Reg.lkStat 15) 1 0 = 3 ∧
    ((lnkIn 3 id).lnk 15).attemptAt + 100 * msT ≤ (at1s (lnkIn 3 id)).now ∧
    (lnkIn 2 id).takes (bus .oem) (chPage 15 5) 0x44 (setBit 0 0 true) ∧ bit 0 1 = false ∧
    ((lnkIn 2 id).wrb (Reg.lkStat 15) 4 true).rdb (Reg.lkStat 15) 4 = true ∧ (lnkIn 2 id).marking 15 = false ∧
    on.takes (bus .oem) (chPage 15 5) 0x44 (setBit 0 1 true) ∧ bit 0 0 = false := by
  unfold State.takes; decide +kernel

/-! ### Memory -/

/-- The DRAM controller in a state; a doubleword written at its first address, and one past its end. -/
def ddrIn (k : Nat) (f : DdrState → DdrState) : State := ({ on with ddr := f on.ddr }.wrf Reg.ddrStat 2 0 k)
def dreq (a : Nat) : DramReq := ⟨6, BitVec.ofNat 40 a, 8, List.replicate 8 1⟩
def bkgOn (s : State) (a : Nat) : State := (s.wrb (Reg.pgCtrl .bkg) 0 true).wrb Reg.bkgEn a true
def lastLine : Nat := dramBase + on.dramSize - 8

theorem witness_dram : on.inDram (dramBase + on.dramSize - 1) 1 = true ∧ on.domOn 5 = true ∧ [2, 3, 5].contains (ddrIn 2 id).ddrSt = true ∧
    (ddrIn 2 id).ddr.hold = false ∧ (ddrIn 2 id).reqFree (dreq lastLine) = true ∧ (dreq lastLine).data ≠ [] ∧
    on.inDram lastLine 8 = true ∧ lastLine % 8 = 0 ∧ on.inDram (lastLine + 1) 8 = false ∧ on.inDram (lastLine - 1) 8 = true ∧
    (lastLine - 1) % 8 ≠ 0 ∧ (ddrIn 2 (fun d => { d with writebacks := [⟨0, false⟩] })).ddr.writebacks = ⟨0, false⟩ :: [] ∧
    tabGet 0 on.ddr.refAt 1 + (on.wrf Reg.ddrRefCfg 15 0 0).rdf Reg.ddrRefCfg 15 0 * on.ddr.mult / 10 ≤ on.now + 1 ∧
    on.ddr.mr4At + (on.wrf Reg.ddrRefCfg 23 16 0).rdf Reg.ddrRefCfg 23 16 * msT ≤ on.now ∧ [2, 3].contains (ddrIn 3 id).ddrSt = true ∧
    ((Vector.replicate 2 7 : Vector (BitVec 3) 2).getD 0 0).toNat = 7 ∧ on.powered .ddr = true ∧ (ddrIn 1 id).ddrSt = 1 ∧
    (ddrIn 1 id).bootAt 6 = false ∧ (ddrIn 6 (fun d => { d with failAt := some 0 })).ddr.failAt = some 0 ∧ (ddrIn 6 id).ddrSt = 6 ∧
    0 + 5 * secT ≤ ({ on with tim := { on.tim with tscAcc := 5 * secT * 2 ^ 32 } }).now := by decide +kernel

theorem witness_retrain : (bkgOn (ddrIn 2 id) 7).banking 7 = true ∧ (bkgOn (ddrIn 2 id) 7).ddrSt = 2 ∧
    (bkgOn (ddrIn 2 id) 7).ddr.trainedAt + ((ddrIn 2 id).wrf Reg.ddrRetrainCfg 15 0 0).rdf Reg.ddrRetrainCfg 15 0 * secT ≤ on.now ∧
    on.ddr.driftAt + (on.wrf Reg.ddrDriftCfg 15 0 0).rdf Reg.ddrDriftCfg 15 0 * msT ≤ on.now ∧
    (on.wrf Reg.ddrRetrainCfg 31 24 254).rdf Reg.ddrRetrainCfg 31 24 < ((Vector.replicate 2 255 : Vector (BitVec 8) 2).getD 0 0).toNat ∧
    ((Vector.replicate 2 254 : Vector (BitVec 8) 2).getD 1 0).toNat ≤ (on.wrf Reg.ddrRetrainCfg 31 24 254).rdf Reg.ddrRetrainCfg 31 24 ∧
    on.takes (bus .oem) .ddr 0x90 (setBit 0 0 true) ∧ bit 0 0 = false ∧ bit 0 1 = false ∧ bit 0 2 = false ∧ bit 0 3 = false ∧
    (ddrIn 3 (fun d => { d with slices := 2 })).ddrSt = 3 ∧ 0 < (ddrIn 3 (fun d => { d with slices := 2 })).ddr.slices ∧
    (ddrIn 3 (fun d => { d with slices := 1, retrainOk := [true, true] })).ddr.retrainOk = [true, true] ∧ on.ddr.panic = 0 ∧
    on.ddr.sliceAt + 10 * usT ≤ (at1s on).now := by
  unfold State.takes; decide +kernel

/-- Remap entry 63 serves the row of the target address. -/
def remapped : State := (ddrIn 2 (fun d => { d with remap := [(63, some (on.dramRow 0x800000000))] })).wrf Reg.ddrTgtAddrHi 7 0 8 |>.wrb
  Reg.ddrPprAvail 0 true

theorem witness_remap : on.takes (bus .oem) .ddr 0x90 (setBit 0 2 true) ∧
    (ddrIn 2 (fun d => { d with copying := some (63, on.dramRow 0x800000000, true) })).ddr.copying = some (63, on.dramRow 0x800000000, true) ∧
    on.spareOf 1 = some 32 ∧ remapped.takes (bus .owner) .ddr 0x90 (setBit 0 3 true) ∧ remapped.ddrSt = 2 ∧
    remapped.inDram remapped.ddrTgt 1 = true ∧ remapped.remapOf (remapped.dramRow remapped.ddrTgt) = some 63 ∧
    remapped.pprOk 63 (remapped.dramRow remapped.ddrTgt) = true ∧ (ddrIn 5 (fun d => { d with ppr := some 63 })).ddr.ppr = some 63 ∧
    on.takes (bus .oem) .ddr 0x90 (setBit 0 1 true) ∧ (List.replicate 16 (⟨0, 0, false, 0, 0⟩ : ElogEntry)).length ≤ 16 := by
  unfold State.takes; decide +kernel

theorem witness_ddrRegisters : on.takes (bus .oem) .ddr 0x78 15 ∧
    ({ on with ddr := { on.ddr with elog := [⟨0, 0, false, 0, 0⟩] } }.wrf Reg.ddrElogStat 3 0 15).ddr.elog.getLast? = some ⟨0, 0, false, 0, 0⟩ ∧
    fld 15 3 0 = ({ on with ddr := { on.ddr with elog := [⟨0, 0, false, 0, 0⟩] } }.wrf Reg.ddrElogStat 3 0 15).rdf Reg.ddrElogStat 3 0 ∧
    on.takes (bus .oem) .ddr 0xC8 63 ∧ on.takes (bus .oem) .ddr 0x70 0x80000000 ∧
    (bkgOn ((ddrIn 2 id).wr Reg.ddrScrubPos 1) 0).banking 0 = true ∧
    (((ddrIn 2 id).wr Reg.ddrScrubPos 1).wrb Reg.ddrScrubCfg 8 true).rdb Reg.ddrScrubCfg 8 = true ∧
    0 < ((ddrIn 2 id).wr Reg.ddrScrubPos 1).rdn Reg.ddrScrubPos ∧ (bkgOn on 1).banking 1 = true ∧
    (on.wrb Reg.srmScrubCfg 16 true).rdb Reg.srmScrubCfg 16 = true ∧ (1023 : BitVec 10).toNat < macroRows (0 : BitVec 8).toNat ∧
    on.domOn (macroDomain 0) = true ∧ on.takes (bus .oem) .srm 0x5C 0 ∧ on.unlocked .srm ∧ on.takes (bus .oem) .srm 0x50 0x1FF ∧
    on.takes (bus .oem) .srm 0x44 0x80000000 := by
  unfold State.takes State.unlocked; decide +kernel

/-! ### DMA, queues and bolts -/

/-- A descriptor's eight words. -/
def descBytes (src dst len ctl next tag : Nat) : List Byte :=
  leBytes 4 src ++ leBytes 4 0 ++ leBytes 4 dst ++ leBytes 4 len ++ leBytes 4 ctl ++ leBytes 4 next ++ leBytes 4 0 ++ leBytes 4 tag

/-- Channel `k` enabled; queue `q` with one entry. -/
def dmaEn (k : Nat) : State := on.wrb (Reg.dmaChCtrl k) 0 true
def entryIn (q : Nat) (l : List Byte) (s : State) : State :=
  (s.updQueue q (fun x => { x with en := true, base := 0x10000 })).qPush q l
def weftD : List Byte := descBytes 0x10000000 0 65536 0x400 0 1
def weftBad : List Byte := descBytes 0x10000000 0 65536 0x3C0 0 1

theorem witness_weftTake : (dmaEn 15).dmaOn 15 = true ∧ ((entryIn 79 weftD (dmaEn 15)).dch 15).desc = none ∧
    (entryIn 79 weftD (dmaEn 15)).qFront 79 = some weftD ∧ weftCheck 15 (descOf weftD) = none ∧
    (entryIn 79 weftBad (dmaEn 15)).qFront 79 = some weftBad ∧ weftCheck 15 (descOf weftBad) = some (1, 0) := by decide +kernel

/-- Channel `k` with a descriptor. -/
def dmaWith (k : Nat) (d : Desc) (started : Bool) : State := (dmaEn k).updDch k (fun c => { c with desc := some d, started := started })

theorem witness_weftTransfer : ((dmaWith 15 (descOf weftD) false).dch 15).desc = some (descOf weftD) ∧
    ((dmaWith 15 (descOf weftD) false).dch 15).started = false ∧ on.powered .dma = true ∧
    (dmaWith 15 (descOf weftD) false).ringRoom 15 (descOf weftD).len = true ∧
    ((dmaWith 15 (descOf weftD) true).dch 15).started = true ∧
    (dmaWith 15 (descOf weftD) true).memFault ((dmaWith 15 (descOf weftD) true).dch 15).role false (descOf weftD).src 65536 = none ∧
    (dmaWith 15 (descOf weftD) true).memFault ((dmaWith 15 (descOf weftD) true).dch 15).role false (descOf weftD).ringBase 0 = none ∧
    Nat.min (descOf weftD).len ((descOf weftD).ringBase + 2 ^ (descOf weftD).wrap - (descOf weftD).src) = 65536 := by decide +kernel

/-- A job in entry 255 whose block is about to arrive. -/
def awaited : State := on.setJob 15 255 { JobEntry.reset with st := .composed, jobSeq := 1, contentCrc := crc32c [1, 2] }

theorem witness_weftArrive : ((awaited.chan 15).jobs.find? (fun e => e.2.jobSeq == (descOf weftD).tag)).map (fun e => e.1) = some 255 ∧
    crc32c [1, 2] = (awaited.job 15 255).contentCrc := by decide +kernel

def genD : List Byte := descBytes 0x10000000 0x10000008 16 0 0 1
def genBad : List Byte := descBytes 0x10000000 0x10000008 0 0 0 1

theorem witness_genTake : (dmaEn 31).dmaOn 31 = true ∧ ((entryIn 95 genD (dmaEn 31)).dch 31).desc = none ∧
    (entryIn 95 genD (dmaEn 31)).dmaSt 31 ≠ 4 ∧ ((entryIn 95 genD (dmaEn 31)).dch 31).next = 0 ∧
    (entryIn 95 genD (dmaEn 31)).qFront 95 = some genD ∧
    (((dmaEn 31).updDch 31 (fun c => { c with next := 0x10000000 })).dch 31).next ≠ 0 ∧
    ((dmaEn 31).updDch 31 (fun c => { c with next := 0x10000000 })).memFault
      (((dmaEn 31).updDch 31 (fun c => { c with next := 0x10000000 })).dch 31).role false
      (((dmaEn 31).updDch 31 (fun c => { c with next := 0x10000000 })).dch 31).next 32 = none ∧
    genCheck (descOf genD) = none ∧ genCheck (descOf genBad) = some (1, 0) ∧ 1 < 16 := by decide +kernel

theorem witness_genCopy : ((dmaWith 31 (descOf genD) true).dch 31).desc = some (descOf genD) ∧
    ((dmaWith 31 (descOf genD) true).dch 31).aborting = false ∧ (dmaWith 31 (descOf genD) true).dmaSt 31 ≠ 4 ∧
    ((dmaWith 31 (descOf genD) true).dch 31).started = true ∧ (descOf genD).op = 0 ∧ (descOf genD).regSide = false ∧
    (descOf genD).srcFix = false ∧ (descOf genD).dstFix = false ∧
    (dmaWith 31 (descOf genD) true).copyFault .oem (descOf genD) (descOf genD).down .ok = none ∧
    (descOf genD).down = true ∧ 15 < 16 := by decide +kernel

theorem witness_dmaControl : on.takes (bus .oem) .dma (0x100 + 0x20 * 31) 1 ∧ on.takes (bus .oem) .dma (0x100 + 0x20 * 31) 0 ∧
    (on.wrb (Reg.pgCtrl (chPage 15 0)) 0 true).enabled (chPage 15 0) = true ∧ (on.setDmaSt 31 4).dmaSt 31 = 4 ∧
    (dmaWith 31 (descOf genD) true).dmaSt 31 ≠ 4 ∧ ((dmaWith 31 (descOf genD) true).dch 31).desc.isSome = true ∧
    (((dmaWith 31 (descOf genD) false).updDch 31 (fun c => { c with aborting := true })).dch 31).aborting = true ∧
    (((dmaWith 31 (descOf genD) false).updDch 31 (fun c => { c with aborting := true })).dch 31).started = false := by
  unfold State.takes; decide +kernel

/-- Lane 3 is in service. -/
def laneOn : State := on.wrb Reg.bltCfg 3 true
def inflateD : Desc := descOf (descBytes 0x10000000 0x10001000 21 1 0 1)
/-- Channel 31 waits for a decompression lane. -/
def laneAsk : State := (laneOn.updDch 31 (fun c => { c with desc := some inflateD })).setDmaSt 31 3
/-- A stored bolt of one byte. -/
def boltOne : List Byte := leBytes 4 0x01014C42 ++ leBytes 4 1 ++ leBytes 4 1 ++ leBytes 4 0 ++ [0x5A] ++ leBytes 4 (crc32c [0x5A]).toNat
/-- A template of one bolt being loaded. -/
def inflating : State := ((laneOn.updDch 31 (fun c => { c with desc := some inflateD, started := true, lane := some 3 })).laneSet 3
  (LaneUse.dma 31)).wrMem 0x10000000 boltOne

theorem witness_lanes : laneOn.powered .blt = true ∧ laneOn.lane 3 = .idle ∧ laneOn.rdb Reg.bltCfg 3 = true ∧
    laneAsk.damaskBolt = none ∧ laneAsk.laneWaits 3 = 31 :: [] ∧ inflating.lane 3 = LaneUse.dma 31 ∧
    (inflating.dch 31).desc = some inflateD ∧ inflateD.op = 1 ∧
    inflating.memFault (inflating.dch 31).entryRole false inflateD.src inflateD.len = none ∧
    (boltOpen (inflating.rdMem inflateD.src inflateD.len)).toOption = some [0x5A] ∧ (laneOn.laneSet 3 .testing).lane 3 = .testing := by
  decide +kernel

/-- A doorbell's words: produce or consume one. -/
def dbIn : Word := 0x40000001
def dbOut : Word := 0x80000001
/-- Queue 104 takes entries from software, queue 119 gives them. -/
def q104 : State := on.updQueue 104 (fun x => { x with en := true })
def q119 : State := entryIn 119 [] on

theorem witness_doorbells : on.takes (bus .oem) .qmg (0x400 + 4 * 127) 0x40000001 ∧ fld dbIn 31 30 = 1 ∧ 0 < fld dbIn 12 0 ∧
    (q104.queue 104).en = true ∧ qSoftProducer 104 = true ∧ (q104.queue 104).used + (q104.queue 104).resv + 1 ≤ (q104.queue 104).size ∧
    fld dbOut 31 30 = 2 ∧ qSoftConsumer 119 = true ∧ 1 ≤ (q119.queue 119).used ∧
    fld (0 : Word) 12 0 = 0 ∧ fld (0xC0000001 : Word) 31 30 = 3 ∧ qSoftProducer 127 = false ∧
    (on.queue 104).size < (on.queue 104).used + (on.queue 104).resv + fld (0x40001FFF : Word) 12 0 ∧ qSoftConsumer 127 = false ∧
    (on.queue 119).used < fld dbOut 12 0 ∧ (126 : Nat) ≠ 127 := by
  unfold State.takes; decide +kernel

theorem witness_queues : (q104.queue 104).canPush = true ∧ (q104.queue 104).log2 ≤ 12 ∧ (q104.queue 104).used = 0 ∧
    (on.queue 104).canPush = false ∧ on.takes (bus .oem) .qmg 0x48 0 ∧ fld (6 : Word) 4 1 < 4 ∧ 12 < fld (0x1A : Word) 4 1 ∧
    fld (0x68 : Word) 6 5 = 3 ∧ bit (0x8 : Word) 0 = false ∧ ((entryIn 0 [] on).queue ((entryIn 0 [] on).rdf Reg.qmgSel 6 0)).en = true ∧
    ((entryIn 0 [] on).queue ((entryIn 0 [] on).rdf Reg.qmgSel 6 0)).used ≠ 0 ∧ on.takes (bus .oem) .qmg 0x44 0x7F := by
  unfold State.takes; decide +kernel

/-- Queue 119 with a move pending, and spare 127 for it. -/
def moving : State := q119.updQueue 119 (fun x => { x with movePending := true })
def movingTo : State := moving.updQueue 127 (fun x => { x with en := true, base := 0x8000, esize := (moving.queue 119).esize })

theorem witness_queueMove : moving.powered .qmg = true ∧ (moving.queue 119).movePending = true ∧ (moving.queue 119).used ≤ 16 ∧
    moving.qSpareFor 119 = none ∧ (movingTo.queue 119).movePending = true ∧ (movingTo.queue 119).used ≤ 16 ∧
    movingTo.qSpareFor 119 = some 127 ∧ (movingTo.queue 119).used ≤ (movingTo.queue 119).size := by decide +kernel

/-- A template image of one field, one object and one resource, a stored bolt, signed with the owner's template key below. -/
def tplImg : List Byte := beBytes 233 0x444d010001000000e90000000101010140000000600000008000000000000000000000000000000000000000000000000300ffff0000000000000000000000000000010000000000000000000000000000000000000000000000000000000000020000000000000000000000000000000000000000000000000000000000000002000000900000001900000005000000424c010105000000050000000000000008000100a5604eeeb2e6ab85a6bbcc03c5b66de935ba7649d589b910d99c33e30557d819a250d610cbe6ab85a6bbcc03c5b66de935ba7649d589b910d99c33e30557d819a250d610cb
def tplSigner : List Byte := beBytes 64 0xe8973dfb7c70714eb54add9a48889b25ac0c8ca31e8173ca96246a53d34f85f128528c55b61b1604dea49912175aae16f3ccdc751e0afaa39f2533f5e5013911

/-- That image at 0x1000_0000, lane 3 in service, its bolt to be opened. -/
def tplLoading : State := { laneOn.wrMem 0x10000000 tplImg with
  dmk := { on.dmk with loading := some (31, 0x10000000, 233) }
  sec := { on.sec with enclaveOk := true, tplKeys := [(0, some tplSigner)] } }

theorem witness_damaskLane : tplLoading.powered .blt = true ∧ tplLoading.lane 3 = .idle ∧ tplLoading.rdb Reg.bltCfg 3 = true ∧
    tplLoading.damaskBolt.isSome = true ∧ tplLoading.lane 2 ≠ .damask ∧ tplLoading.lane 3 ≠ .damask ∧
    (tplLoad tplImg (tplLoading.tplSigOk tplImg) true 131072 524288).toOption.isSome = true := by
  refine ⟨?_, ?_, ?_, ?_, ?_, ?_, ?_⟩ <;> decide +kernel

/-! ### Time, dates and the network -/

/-- TIM_DC_STAT with the bits named; the date clock 1 ms behind, at, or 10 s beside its target. -/
def dc (bits : Nat) : State := on.wr Reg.timDcStat (BitVec.ofNat 32 bits)
def dcBeside (bits : Nat) (e : Int) : State :=
  { dc bits with tim := { on.tim with dcVal := (dc bits).dcTarget - e, dcAcc := on.tim.tscAcc } }

theorem witness_timRate : on.takes (bus .oem) .tim 0x54 2147484 ∧ (sword 2147484).natAbs ≤ 2147484 ∧
    on.takes (bus .oem) .tim 0x54 2147485 ∧ 2147484 < (sword 2147485).natAbs ∧
    ({ on with tim := { on.tim with ratePending := some 0 } }).tim.ratePending = some 0 ∧ on.takes (bus .oem) .tim 0x64 1 ∧
    (dc 0).dcHeld = false := by
  unfold State.takes; decide +kernel

theorem witness_lock : on.takes (bus .oem) .tim 0x64 2 ∧ (dc 1).dcValid = true ∧ (dc 1).locked = false ∧ (dc 1).dcPending = false ∧
    (dc 0).locked = false ∧ (dc 0).dcValid = false ∧ (dc 0).dcHeld = false ∧ on.takes (bus .oem) .tim 0x64 4 ∧
    (dc 0x21).powered .tim = true ∧ (dc 0x21).locked = true ∧
    ((dc 0x21).wrf Reg.timPtpCfg 15 0 0).rdf Reg.timPtpCfg 15 0 * msT ≤ ((dc 0x21).wrf Reg.timPtpCfg 15 0 0).now -
      ((dc 0x21).wrf Reg.timPtpCfg 15 0 0).tim.kickAt ∧ ((dc 0x21).wrf Reg.timPtpCfg 15 0 0).locked = true := by
  unfold State.takes; decide +kernel

/-- A step accepted and not yet applied, forward and backward. -/
def accepting (e : Int) : State := { dcBeside 5 e with tim := { (dcBeside 5 e).tim with acceptPending := true } }

theorem witness_acceptStep : on.takes (bus .owner) .tim 0x64 8 ∧ (accepting 0).tim.acceptPending = true ∧
    (accepting 0).dcPending = true ∧ (accepting 0).dcNow ≤ (accepting 0).dcTarget ∧ (accepting (-1)).tim.acceptPending = true ∧
    (accepting (-1)).dcPending = true ∧ (accepting (-1)).dcTarget < (accepting (-1)).dcNow := by
  unfold State.takes; decide +kernel

/-- A floor of 1 s. -/
def floored : State := (dc 0).wr64 Reg.timFloorLo Reg.timFloorHi (1 + 2 ^ 53)

theorem witness_setInitial : (dc 1).takes (bus .owner) .tim 0x64 16 ∧ (dc 1).dcValid = true ∧ (dc 0).takes (bus .owner) .tim 0x64 16 ∧
    (dc 0).dcValid = false ∧ floored.dcHeld = false ∧ floored.floorValid = true ∧ ptpSec - 1 < floored.floorVal ∧
    floored.floorVal ≤ ptpSec ∧ (dc 0).floorValid = false := by
  unfold State.takes; decide +kernel

/-- One good die sensor at 25 °C. -/
def dieOn : State := ((dc 0x21).wr (Reg.thmDie 11) (0x10000 + 250)).wrf Reg.timHoCfg 9 8 1

theorem witness_holdover : (dc 0x21).powered .tim = true ∧ (dc 0x21).locked = true ∧
    ((dc 0x21).wrf Reg.timHoCfg 9 8 0).rdf Reg.timHoCfg 9 8 = 0 ∧ dieOn.locked = true ∧ dieOn.rdf Reg.timHoCfg 9 8 = 1 ∧
    dieOn.rdf Reg.timHoCfg 9 8 ≠ 2 ∧ dieOn.dieMean = some 250 := by decide +kernel

theorem witness_dateClock : (dcBeside 0x21 0).powered .tim = true ∧ (dcBeside 0x21 0).dcValid = true ∧
    (dcBeside 0x21 (10 * ptpSec)).dcHeld = false ∧ (dcBeside 0x21 (10 * ptpSec)).locked = true ∧
    (dcBeside 0x21 (10 * ptpSec)).dcPending = false ∧
    (dcBeside 0x21 (10 * ptpSec)).jumpMax ≤ ((dcBeside 0x21 (10 * ptpSec)).dcTarget - (dcBeside 0x21 (10 * ptpSec)).dcNow).natAbs ∧
    (((dcBeside 0x21 0).dcTarget - (dcBeside 0x21 0).dcNow).natAbs : Int) < (dcBeside 0x21 0).jumpMax ∧
    (dcBeside 0x21 0).dcHoldover = false ∧ (dcBeside 0x25 0).dcPending = true ∧ (dcBeside 0x25 0).locked = true ∧
    (dcBeside 0x29 0).dcHeld = true ∧ (dcBeside 0x29 0).dcValid = true ∧ (dcBeside 0x25 0).dcValid = true := by decide +kernel

theorem witness_floor : ({ (floored.wr Reg.timDcStat 1) with tim := { on.tim with dcVal := ptpSec + 1 } }).floorVal <
      ({ (floored.wr Reg.timDcStat 1) with tim := { on.tim with dcVal := ptpSec + 1 } }).dcNow ∧
    ({ (floored.wr Reg.timDcStat 1) with tim := { on.tim with dcVal := ptpSec } }).dcNow ≤
      ({ (floored.wr Reg.timDcStat 1) with tim := { on.tim with dcVal := ptpSec } }).floorVal ∧
    (floored.wr Reg.timDcStat 1).floorValid = true ∧ (floored.wr Reg.timDcStat 1).dcValid = true ∧
    on.takes (bus .oem) .tim 0x6C (BitVec.ofNat 32 (on.rdf Reg.timUtcOfs 15 0 + 1)) ∧
    on.takes (bus .oem) .tim 0x6C (BitVec.ofNat 32 (on.rdf Reg.timUtcOfs 15 0 + 2)) ∧
    ((fld (BitVec.ofNat 32 (on.rdf Reg.timUtcOfs 15 0 + 1)) 15 0 : Int) - (on.rdf Reg.timUtcOfs 15 0 : Nat)).natAbs ≤ 1 ∧
    1 < ((fld (BitVec.ofNat 32 (on.rdf Reg.timUtcOfs 15 0 + 2)) 15 0 : Int) - (on.rdf Reg.timUtcOfs 15 0 : Nat)).natAbs := by
  unfold State.takes; decide +kernel

/-- Entry 7 of the time-zone table, in force from second 0. -/
def tzOn : State := (dc 0).wr (Reg.timTzOfs 7) 0x8000003C

/-- Entry 7 is to come into force half a minute after midnight; and then with an offset of -1024 minutes. -/
def tzSoon : State := (dc 0).wr (Reg.timTzAt 7) 30
def tzNext : State := tzSoon.ok.plainWrite (pageBase .tim + (0x100 + 8 * 7 + 4)) 0x80000400

theorem witness_timeZones : (7 : Nat) < 8 ∧ tzOn.rdb (Reg.timTzOfs 7) 31 = true ∧ (tzOn.rdn (Reg.timTzAt 7) : Int) ≤ tzOn.dcSecs ∧
    (∀ j, j < 8 → j ≠ 7 → tzOn.rdb (Reg.timTzOfs j) 31 = true → (tzOn.rdn (Reg.timTzAt j) : Int) ≤ tzOn.dcSecs →
      tzOn.rdn (Reg.timTzAt j) < tzOn.rdn (Reg.timTzAt 7)) ∧
    (∀ j, j < 8 → on.rdb (Reg.timTzOfs j) 31 = true → on.dcSecs < (on.rdn (Reg.timTzAt j) : Int)) ∧
    (dc 1).takes (bus .owner) .tim (0x100 + 8 * 7 + 0) 0 ∧ (dc 1).dcValid = true ∧
    (((dc 1).ok.plainWrite (pageBase .tim + (0x100 + 8 * 7 + 0)) 0).rdn (Reg.timTzAt 7) : Int) * ptpSec < (dc 1).dcNow + ptpSec ∧
    on.takes (bus .owner) .tim (0x100 + 8 * 7 + 4) 0x80000000 ∧ tzSoon.takes (bus .owner) .tim (0x100 + 8 * 7 + 4) 0x80000400 ∧
    tzNext.rdb (Reg.timTzOfs 7) 31 = true ∧
    tzNext.tzBackward (tzNext.rdn (Reg.timTzAt 7)) (tzNext.tzAt (tzNext.rdn (Reg.timTzAt 7) - 1) 7) (tzNext.rds (Reg.timTzOfs 7) 10 0) false = true ∧
    on.dcValid = false := by
  unfold State.takes; decide +kernel

theorem witness_tzBackward : (86430 : Int) + 60 * (-1) < 86400 * 1 ∧ 86400 * 1 < (86430 : Int) + 60 * 0 ∧
    (86430 : Int) + 60 * (-1) < 86400 * 1 + 60 * (on.rdf Reg.timRollover 10 0 : Nat) ∧
    86400 * 1 + 60 * (on.rdf Reg.timRollover 10 0 : Nat) < (86430 : Int) + 60 * 0 ∧ (0 : Int) ≤ 0 ∧
    (dc 1).takes (bus .owner) .tim 0x90 0x400 ∧
    (List.range 8).any (fun k => (dc 1).rdb (Reg.timTzOfs k) 31 && decide (((dc 1).rdn (Reg.timTzAt k) : Int) ≤ (dc 1).dcSecs)) = false ∧
    (dc 1).tzBackward (dc 1).dcSecs ((dc 1).rds Reg.timTzStd 10 0) (sfld (0x400 : Word) 10 0) true = true ∧
    on.takes (bus .owner) .tim 0x90 0 ∧ on.dcValid = false ∧
    on.powered .tim = true ∧ inMask (on.rdf (Reg.pgAcl .tim) 15 8) Role.oem = true ∧
    Instr.floorUpdate ∈ [Instr.timRateApply, .ptpLockTimeout, .holdoverRateUpdate, .dateClockUpdate, .floorUpdate] := by
  unfold State.takes; decide +kernel

/-- Both ports of the switch in service. -/
def netUp : State := ((on.wrb (Reg.pgCtrl .net) 0 true).wrf Reg.netCfg 1 0 3).wrb Reg.clkStat 3 true

/-- A frame to an address, of an Ethertype, `n` bytes long. -/
def frameTo (dst : Nat) (ty n : Nat) : List Byte := beBytes 6 dst ++ beBytes 6 0x020000000001 ++ beBytes 2 ty ++ List.replicate (n - 14) 0
def pauseFrame : List Byte := beBytes 6 0x0180C2000001 ++ beBytes 6 0x020000000001 ++ [0x88, 0x08, 0, 1] ++ List.replicate 44 0
def flow : NetFrame := ⟨frameTo 0x010000000000 0x0800 60, 0, 0, none, none, none⟩

theorem witness_receive : netUp.netPort 1 = true ∧ (frameTo 0 0x0800 59).length < 60 ∧ 1518 < (frameTo 0 0x0800 1519).length ∧
    60 ≤ pauseFrame.length ∧ pauseFrame.length ≤ 1518 ∧
    isPause pauseFrame = true ∧ isPause (frameTo 0xFFFFFFFFFFFF 0x0800 60) = false ∧
    ptpV6 (frameTo 0xFFFFFFFFFFFF 0x0800 60) = false ∧ (frameTo 0xFFFFFFFFFFFF 0x0800 1518).length ≤ 1518 := by decide +kernel

/-- Addresses learned behind port 0 and behind the host. -/
def learned : State := (((netUp.wrb Reg.netCfg 3 true).cntW (Reg.netPRx 1)).macLearn 0x020000000009 0).macLearn 0x02000000000A 2
theorem witness_forward :
    ((learned.macLearn (macAt (frameTo 0x020000000009 0x0800 60) 6) 1).forwardTo (frameTo 0x020000000009 0x0800 60) 1 = [1 - 1]) ∧
    ((learned.macLearn (macAt (frameTo 0x02000000000A 0x0800 60) 6) 1).forwardTo (frameTo 0x02000000000A 0x0800 60) 1 = [2]) ∧
    ((learned.macLearn (macAt (frameTo 0xFFFFFFFFFFFF 0x0800 60) 6) 1).forwardTo (frameTo 0xFFFFFFFFFFFF 0x0800 60) 1 = [1 - 1, 2]) ∧
    groupMac (frameTo 0xFFFFFFFFFFFF 0x0800 60) 6 = false ∧ (∀ e ∈ learned.net.macs, e.port < 3) ∧
    groupMac (frameTo 0xFFFFFFFFFFFF 0x0800 60) 0 = true ∧ netUp.macPort (macAt (frameTo 0x020000000009 0x0800 60) 0) = none ∧
    learned.rdb Reg.netCfg 3 = true ∧ (learned.macPort 0x020000000009).isSome = true ∧ learned.net.macs.length < 1024 ∧
    (0x02000000000A : BitVec 48) ≠ 0x020000000009 := by decide +kernel

/-- An event message of gPTP. -/
def eventFrame : List Byte := beBytes 6 0x0180C200000E ++ beBytes 6 0x020000000001 ++ beBytes 2 0x88F7 ++ [0, 2] ++ List.replicate 44 0

theorem witness_egress : 1024 * (netUp.wrf Reg.netQlim 6 0 0).rdf Reg.netQlim 6 0 <
      bytesIn ((netUp.wrf Reg.netQlim 6 0 0).egress (1 * 4 + (netUp.wrf Reg.netQlim 6 0 0).egressQ flow.bytes)) + flow.bytes.length ∧
    bytesIn ((netUp.wrf Reg.netQlim 6 0 1).egress (1 * 4 + (netUp.wrf Reg.netQlim 6 0 1).egressQ flow.bytes)) + flow.bytes.length ≤
      1024 * (netUp.wrf Reg.netQlim 6 0 1).rdf Reg.netQlim 6 0 ∧
    (netUp.wrf Reg.netQlim 6 0 1).bufferUsed + flow.bytes.length ≤ 131072 ∧ (netUp.wrb Reg.netCfg 4 true).rdb Reg.netCfg 4 = true ∧
    (ptpEvent eventFrame).isSome = true ∧ (netUp.wrb Reg.netCfg 4 false).rdb Reg.netCfg 4 = false ∧ isTag flow.bytes 12 = false ∧
    (netUp.queue (116 + netUp.egressQ flow.bytes)).canPush = false ∧ (7 : Nat) ≠ 1 * 4 + netUp.egressQ flow.bytes := by decide +kernel

/-- A transmit descriptor in queue 115: 60 bytes at 0x1000_0000, the frame's source a group address, to port 0. -/
def txD (len ports : Nat) : List Byte := leBytes 4 0x10000000 ++ leBytes 4 (len * 65536) ++ leBytes 4 ports ++ leBytes 4 0 ++ List.replicate 16 0
def txOn (len : Nat) : State := (entryIn 115 (txD len 1) netUp).wrMem 0x10000000
  (beBytes 6 0x010000000000 ++ beBytes 6 0x010000000001 ++ List.replicate 48 0)

theorem witness_transmit : (txOn 59).netOn = true ∧
    (txOn 59).txCopies (112 + 3, ((txOn 59).queue (112 + 3)).head.toNat) = false ∧ (txOn 59).qFront (112 + 3) = some (txD 59 1) ∧
    leAt (txD 59 1) 4 4 / 65536 % 2048 < 60 ∧ 1518 < leAt (txD 1519 1) 4 4 / 65536 % 2048 ∧
    (txOn 60).qFront (112 + 3) = some (txD 60 1) ∧ leAt (txD 60 1) 4 4 / 256 % 256 = 0 ∧ leAt (txD 60 1) 4 4 / 2 ^ 27 = 0 ∧
    leAt (txD 60 1) 8 4 / 16 = 0 ∧ leAt (txD 60 1) 12 4 / 16 = 0 ∧
    rangeAll (fun x => inMemMap x && ! inRingWin x && (txOn 60).memThere x) 0x10000000 60 = true ∧
    groupMac ((txOn 60).rdMem 0x10000000 60) 6 = true ∧ leAt (txD 60 1) 8 4 % 4 = 1 ∧ (txOn 60).netPort 0 = true := by decide +kernel

theorem witness_sending : (netUp.setEgress 7 [flow]).netPort 1 = true ∧ (netUp.setEgress 7 [flow]).egress (1 * 4 + 3) = flow :: [] ∧
    (∀ j, j < 4 → 3 < j → (netUp.setEgress 7 [flow]).egress (1 * 4 + j) = []) ∧ flow.desc = none ∧
    ({ flow with corrAt := some 22 } : NetFrame).corrAt = some 22 ∧ 22 + 8 ≤ flow.bytes.length ∧ flow.rxRaw ≤ 0 ∧
    ({ flow with corrAt := some 22, udpAt := some 20 } : NetFrame).udpAt = some 20 ∧ 20 + 2 ≤ 22 := by decide +kernel

theorem witness_ageing : (learned.net.macs.find? (fun e => e.mac == 0x020000000009)).isSome = true ∧ learned.netOn = true ∧
    (∀ e ∈ learned.net.macs, (learned.wrf Reg.netAge 15 0 0).rdf Reg.netAge 15 0 * secT ≤ learned.now - e.seenAt) ∧
    (∀ e ∈ learned.net.macs, learned.now - e.seenAt < (learned.wrf Reg.netAge 15 0 1).rdf Reg.netAge 15 0 * secT) := by decide +kernel

theorem witness_mdio : on.takes (bus .oem) .net 0x50 0x80000000 ∧ on.net.mdioBusy = false ∧ bit (0x80000000 : Word) 31 = true ∧
    ({ on with net := { on.net with mdioBusy := true } }).takes (bus .oem) .net 0x50 0x80000000 ∧
    ({ on with net := { on.net with mdioBusy := true } }).net.mdioBusy = true ∧
    ({ on with net := { on.net with mdioBusy := true } }).powered .net = true ∧
    Instr.mdioDone 0 ∈ [Instr.ethFrameReceive 0 [] false none, .ethFrameTransmit 0 .clean, .netTxDescriptor 0, .macEntryAge 0, .mdioDone 0] := by
  unfold State.takes; decide +kernel

/-! ### Roles, keys, records and boot -/

/-- A role request for context 3 and OPERATOR: the key. -/
def rlKey : List Byte := beBytes 64 0x690524dde6eaae66ef8a1aba7f95f8b889798c962bb4bf8de7d172fb52283b59481f3857451efb6618a5950eca19aabfda8f48712b9a1d8bfceb4bc2f65a45ed
/-- The signature. -/
def rlSig : List Byte := beBytes 64 0xe9f7dcb6801ba5ab006dd89950390f6ba869750fea91db4dcd6aee883dc5fb1674fbee5b400dd2d58036ec4ca81c87b5d434ba87f548eda6e6b577441ee2fd8b
/-- A public key: the base point. -/
def pointG : List Byte := beBytes 64 0x6b17d1f2e12c4247f8bce6e563a440f277037d812deb33a0f4a13945d898c2964fe342e2fe1a7f9b8ee7eb4a7c0f9e162bce33576b315ececbb6406837bf51f5
/-- A transfer of ownership to that key: the key. -/
def otKey : List Byte := beBytes 64 0x8ad6582fd1cbc654504be7daa0c0615aacbeff3f0ab35cbafb85787ee804e9a46ceee47e82b3b517b255a0a4d457f63b5c707798df2e3f286f3fed036e641b32
/-- The signature. -/
def otSig : List Byte := beBytes 64 0xf429b8e593ba2a65989b7947f70576ecce8b81b99029533523fc28aa5e2053e3fa14dc7249dd15334c4dbca3fb82bb7645b93e339ba078dd0bdaf9b6ad41bc9a
/-- An owner reset: the key. -/
def orKey : List Byte := beBytes 64 0xcd4fd2c692b336ce3f71d1495c0ae6f09db36641613cb1f7a8fe3307f72b13ccdf4101d1a128b1e5fee94c4108cddef723e087a6d55a2bdc66cc02d01f87d6b3
/-- The signature. -/
def orSig : List Byte := beBytes 64 0x6c043642bea9876101ceb0f20debf064f4791f1e2a2ef2603889a08d79f33d716c043642bea9876101ceb0f20debf064f4791f1e2a2ef2603889a08d79f33d71
/-- The hash of its key. -/
def orHash : List Byte := beBytes 32 0x9d9777768fb1dca1d62e43c69e163b7df3f1d37f146c0220819e11077261d563
/-- A revocation of boot key 3: the key. -/
def brKey : List Byte := beBytes 64 0x89ee2f4c7c84fd4f94e759e932ee66877bd3ca9b3a376417866fe44ddefe1a512953508299c2c02b02c38c9fa85519dfa8c0a546e365e49b53a0d5f4a009b606
/-- The signature. -/
def brSig : List Byte := beBytes 64 0x10b367357f7f2bdeb0356703ac827dc4ed3efd3cb96cdb7042ecfa8fe6d7e15910b367357f7f2bdeb0356703ac827dc4ed3efd3cb96cdb7042ecfa8fe6d7e159
/-- The hash of its key. -/
def brHash : List Byte := beBytes 32 0x83d6bafd850299123d25aa9d1817754915c8853b61e42606cc64177021474329
/-- A debug unlock to level 1: the key. -/
def dbKey : List Byte := beBytes 64 0x4ac8bc3bf486e78d5adbf6769699fb543e7c25cb5df2ec9c00dfe6ef30a5efd813346cca203194bc95a4e8b6535306dcdcb890c97610d8a950e1cedef81a6f7a
/-- The signature. -/
def dbSig : List Byte := beBytes 64 0x9b2b11a6f4def350a9045e0cf97bb2c86c2c78f4d80e185eb5f71f446893979a9b2b11a6f4def350a9045e0cf97bb2c86c2c78f4d80e185eb5f71f446893979a
/-- The hash of its key. -/
def dbHash : List Byte := beBytes 32 0x4ef1f09b1ddeabc340b6f486e45b353e853e3a219b440706426c8e65685aa754
/-- An RMA unlock: the key. -/
def rmKey : List Byte := beBytes 64 0x1a1dbb98ccdf436a12f6bf921dbf4fdd47c9b643b89d7de24f916d2e208ea675b412085f6c793a5a28c8f702677f3f76c257eb9f213e9c586e1aafe6b8609d84
/-- The signature. -/
def rmSig : List Byte := beBytes 64 0xd0487537bb39876bf00bbd18453a79ff4ee6cf7af460f18623e8814b8b1c0cfc68243a9bdd9cc3b5f805de8c229d3cffa77367bd7a3078c311f440a5c58e067e
/-- The hash of its key. -/
def rmHash : List Byte := beBytes 32 0x4762e9a1acf9dec5064054555e963a53d477996cef320a0068f513d60507328b
/-- The hash of the base point. -/
def gHash : List Byte := beBytes 32 0xd875db7def232236aec738c6b0bb3e80142f5d0fd8f4df24fed6eef5cbb50d9f
/-- A boot header of slot B, SRAM-capable, with its key and signature: image of 16 bytes, configuration of 4,288 -/
def bootHdr : List Byte := beBytes 256 0x444b010100000000c01180001000000000000000080000000000000008000000c01180001000000000018000c0100000be45cb2605bf36bebde684841a28f0fd43c69850a3dce5fedba69928ee3a8991be45cb2605bf36bebde684841a28f0fd43c69850a3dce5fedba69928ee3a89910000000000000000000000000000000051590b7a515140d2d784c85608668fdfef8c82fd1f5be52421554a0dc3d033ede0c17da8904a727d8ae1bf36bf8a79260d012f00d4d80888d1d0bb44fda16da453c5a47b0f3273d7333320d3dc363b241a99928781b9d8827d9660a01dcdf9e9905c24bc47d30272b9a8cdeb0a83a50e2f945abadcc444f7f7a8f250df30f00b
/-- Its image. -/
def bootImg : List Byte := beBytes 16 0x000102030405060708090a0b0c0d0e0f
/-- Its Fireguard configuration: the header; the key and signature after its 256 source entries. -/
def fgHead : List Byte := beBytes 64 0x4746010001000000c0100000000000004000000040000000d0d35d22000000000000000000000000000000000000000000000000000000000000000000000000
/-- The key and signature. -/
def fgKeySig : List Byte := beBytes 128 0x51590b7a515140d2d784c85608668fdfef8c82fd1f5be52421554a0dc3d033ede0c17da8904a727d8ae1bf36bf8a79260d012f00d4d80888d1d0bb44fda16da4ef7f589da0be7e2e4b709a87993ff307c7a09911e5ae93f416a4bc6e971b6d470088027d7539d8ba2dd732189c9795d146e823a905581d64c67d2689ed5f7151
/-- The hash of that key. -/
def kHash : List Byte := beBytes 32 0x2db9dde21110dc9f1c8aee68e7adb48907460072e13742a05a2d71340958f1dc
/-- Its source entries: INFO, but the sources R437 fixes. -/
def fgEntry (i : Nat) : List Byte :=
  let fixed := i ≤ 8 ∨ i = 10 ∨ i = 11 ∨ i = 12
  let manual := (2 ≤ i ∧ i ≤ 5) ∨ i = 10
  leBytes 4 (0x100 + (if fixed then 3 + (if manual then 4 else 0) + (if i = 8 then 0 else 0x50) else 0)) ++ leBytes 4 0x10001 ++ leBytes 8 0
def fgImg : List Byte := fgHead ++ (List.range 256).flatMap fgEntry ++ fgKeySig

/-- What stands in such an image. -/
theorem flat_drop (f : Nat → List Byte) (h : ∀ i, (f i).length = 16) : ∀ (i : Nat) (l : List Nat),
    (l.flatMap f).drop (16 * i) = (l.drop i).flatMap f
  | 0, l => by simp
  | i + 1, [] => by simp
  | i + 1, a :: l => by
    rw [List.flatMap_cons, List.drop_succ_cons, ← flat_drop f h i l, show 16 * (i + 1) = (f a).length + 16 * i by rw [h]; omega,
      List.drop_append]
    simp

theorem flat_slice (f : Nat → List Byte) (h : ∀ i, (f i).length = 16) (i k n : Nat) (t : List Byte) (hi : i < n) (hk : k + 4 ≤ 16) :
    slice ((List.range n).flatMap f ++ t) (16 * i + k) 4 = slice (f i) k 4 := by
  have hl : ((List.range n).drop i) = i :: (List.range n).drop (i + 1) := by
    rw [List.drop_eq_getElem_cons (by simpa using hi)]; simp
  have hlen : ((List.range n).flatMap f).length = 16 * n := by
    rw [List.length_flatMap, show (fun a => (f a).length) = fun _ => 16 from funext h, List.map_const', List.sum_replicate_nat]; simp; omega
  unfold slice
  rw [← List.drop_drop, List.drop_append_of_le_length (by omega), flat_drop f h, hl, List.flatMap_cons, List.append_assoc,
    List.drop_append_of_le_length (by rw [h]; omega), List.take_append_of_le_length (by rw [List.length_drop, h]; omega)]

theorem fgImg_entry (i k : Nat) (hi : i < 256) (hk : k + 4 ≤ 16) : leAt fgImg (64 + 16 * i + k) 4 = leAt (fgEntry i) k 4 := by
  have h : fgHead.length = 64 := by decide +kernel
  unfold leAt
  rw [← flat_slice fgEntry (fun _ => by simp [fgEntry]; rfl) i k 256 fgKeySig hi hk]
  unfold slice fgImg
  rw [Nat.add_assoc, ← List.drop_drop, List.append_assoc, ← h, List.drop_left]

def fgCfgOf (i : Nat) : SrcCfg :=
  ⟨BitVec.ofNat 32 (leAt (fgEntry i) 0 4), BitVec.ofNat 32 (leAt (fgEntry i) 4 4), BitVec.ofNat 32 (leAt (fgEntry i) 8 4)⟩

theorem fgImg_head : fgImg.length = 4288 ∧ leAt fgImg 0 2 = 0x4647 ∧ leAt fgImg 2 1 = 1 ∧ leAt fgImg 3 1 = 0 ∧ leAt fgImg 8 4 = 4288 ∧
    leAt fgImg 0x0C 2 = 0 ∧ leAt fgImg 0x0E 2 = 0 ∧ leAt fgImg 0x1C 0x24 = 0 ∧ leAt fgImg 0x10 4 = 64 ∧ leAt fgImg 0x14 4 = 64 ∧
    leAt fgImg 0x18 4 = 0x225dd3d0 := by decide +kernel

theorem fgImg_sources : fgSources fgImg = (List.range 256).map fgCfgOf := by
  unfold fgSources
  apply List.map_congr_left
  intro i hi
  have hi := List.mem_range.mp hi
  simp only [fgImg_head, fgCfgOf]
  rw [show 64 + 16 * i = 64 + 16 * i + 0 from rfl, fgImg_entry i 0 hi (by decide), Nat.add_zero, fgImg_entry i 4 hi (by decide),
    fgImg_entry i 8 hi (by decide)]

theorem fgImg_format : fgFormatOk fgImg = true := by
  have h : ∀ i, i < 256 → fgSourceOk i (fgCfgOf i) (leAt (fgEntry i) 12 4) = true := by decide +kernel
  simp only [fgFormatOk, fgWrites, fgImg_head, fgImg_sources, Bool.and_eq_true, List.all_eq_true, List.mem_range]
  refine ⟨by simp, fun i hi => ?_⟩
  rw [fgImg_entry i 12 hi (by decide)]
  simpa [hi] using h i hi

/-! The hash and the check value of that image, block by block. -/

theorem shaBlocks_add (b a : Nat) (l : List Byte) (x : ShaW) :
    shaBlocks (a + b) l x = shaBlocks b (l.drop (64 * a)) (shaBlocks a l x) := by
  simp only [shaBlocks, List.range_add, List.foldl_append, List.foldl_map, slice, List.drop_drop, Nat.mul_add]

def shaPad (n : Nat) (l : List Byte) : List Byte :=
  l ++ [0x80] ++ List.replicate ((n + 9 + 63) / 64 * 64 - n - 9) 0 ++ beBytes 8 (8 * n)

theorem sha256_of {l : List Byte} {n : Nat} {x : ShaW} (hn : l.length = n)
    (h : shaBlocks ((n + 9 + 63) / 64) (shaPad n l) shaInit = x) :
    sha256 l = [x.a, x.b, x.c, x.d, x.e, x.f, x.g, x.h].flatMap (fun w => beBytes 4 w.toNat) := by
  subst hn; subst h; rfl

def fgPad : List Byte := shaPad 4224 (fgImg.take 4224)
def fgSha1 : ShaW := ⟨0xdfc30340, 0x8f342db0, 0x97f8fbea, 0xa5c0f69c, 0x35e310f, 0x1f11eac5, 0x54c4d980, 0x318f882a⟩
def fgSha2 : ShaW := ⟨0x8056df0a, 0x3c9548f5, 0xd113e6aa, 0xd9bbf311, 0x1cbdf252, 0x5084cee6, 0xfd90f609, 0xeb70f69f⟩
def fgSha3 : ShaW := ⟨0x1dfc8063, 0x4261bc7b, 0xf1a4e944, 0x4d473574, 0xbbe3f960, 0x69da872e, 0x7f3bdd91, 0x979f95ee⟩
def fgSha4 : ShaW := ⟨0x8ba9a6c3, 0x9f9c30a7, 0x3903ab30, 0x132de67c, 0xc30fbf6a, 0x34233551, 0x80324217, 0x77b341fa⟩
def fgSha5 : ShaW := ⟨0xc1c02c76, 0x650c3c09, 0xd015edcd, 0x414c3fe3, 0x9118e3ab, 0x8981a31a, 0x5be7fc47, 0xd5b0ef01⟩
def fgSha6 : ShaW := ⟨0x3fc1a288, 0xddc90beb, 0x154b07fe, 0x4ac6c788, 0xf8b481b, 0x56ce284b, 0x99dfc9be, 0x311e2e43⟩
def fgSha7 : ShaW := ⟨0x4f21f1d9, 0x3254c586, 0xf112cc79, 0x5ddc3f67, 0x945e4899, 0x707ce6ad, 0xf72d0d1c, 0xe7ee4364⟩

theorem fgSha_0 : shaBlocks 11 (fgPad.drop 0) shaInit = fgSha1 := by decide +kernel

theorem fgSha_1 : shaBlocks 11 (fgPad.drop 704) fgSha1 = fgSha2 := by decide +kernel

theorem fgSha_2 : shaBlocks 11 (fgPad.drop 1408) fgSha2 = fgSha3 := by decide +kernel

theorem fgSha_3 : shaBlocks 11 (fgPad.drop 2112) fgSha3 = fgSha4 := by decide +kernel

theorem fgSha_4 : shaBlocks 11 (fgPad.drop 2816) fgSha4 = fgSha5 := by decide +kernel

theorem fgSha_5 : shaBlocks 11 (fgPad.drop 3520) fgSha5 = fgSha6 := by decide +kernel

theorem fgSha_6 : shaBlocks 1 (fgPad.drop 4224) fgSha6 = fgSha7 := by decide +kernel

theorem fgSha : shaBlocks 67 fgPad shaInit = fgSha7 := by
  have e (a b n : Nat) (x : ShaW) : shaBlocks (a + b) (fgPad.drop n) x = shaBlocks b (fgPad.drop (n + 64 * a)) (shaBlocks a (fgPad.drop n) x) := by
    rw [shaBlocks_add, List.drop_drop]
  rw [show shaBlocks 67 fgPad shaInit = shaBlocks (11 + (11 + (11 + (11 + (11 + (11 + 1)))))) (fgPad.drop 0) shaInit from rfl]
  rw [e, fgSha_0, e, fgSha_1, e, fgSha_2, e, fgSha_3, e, fgSha_4, e, fgSha_5]
  exact fgSha_6

def crcStep (c : Word) (b : Byte) : Word := iter 8 crc32cBit (c ^^^ b.setWidth 32)
def fgCrcEntry (i : Nat) : List Byte :=
  leBytes 4 (fgCfgOf i).w0.toNat ++ leBytes 4 (fgCfgOf i).w1.toNat ++ leBytes 4 (fgCfgOf i).w2.toNat ++ leBytes 4 0

theorem crc_part (f : Nat → List Byte) (n m : Nat) (c d : Word) (h : ((List.range n).flatMap f).foldl crcStep 0xFFFFFFFF = c)
    (g : ((List.range m).flatMap (fun i => f (n + i))).foldl crcStep c = d) :
    ((List.range (n + m)).flatMap f).foldl crcStep 0xFFFFFFFF = d := by
  rw [List.range_add, List.flatMap_append, List.foldl_append, h, List.flatMap_map]
  exact g

set_option maxRecDepth 100000

theorem fgCrc_0 : ((List.range 32).flatMap (fun i => fgCrcEntry (0 + i))).foldl crcStep 0xffffffff = 0xf308abba := by decide +kernel

theorem fgCrc_1 : ((List.range 32).flatMap (fun i => fgCrcEntry (32 + i))).foldl crcStep 0xf308abba = 0x3f38e4c6 := by decide +kernel

theorem fgCrc_2 : ((List.range 32).flatMap (fun i => fgCrcEntry (64 + i))).foldl crcStep 0x3f38e4c6 = 0x750e5203 := by decide +kernel

theorem fgCrc_3 : ((List.range 32).flatMap (fun i => fgCrcEntry (96 + i))).foldl crcStep 0x750e5203 = 0x4cb89f90 := by decide +kernel

theorem fgCrc_4 : ((List.range 32).flatMap (fun i => fgCrcEntry (128 + i))).foldl crcStep 0x4cb89f90 = 0xd1c63248 := by decide +kernel

theorem fgCrc_5 : ((List.range 32).flatMap (fun i => fgCrcEntry (160 + i))).foldl crcStep 0xd1c63248 = 0x516368a8 := by decide +kernel

theorem fgCrc_6 : ((List.range 32).flatMap (fun i => fgCrcEntry (192 + i))).foldl crcStep 0x516368a8 = 0xef7fa6e3 := by decide +kernel

theorem fgCrc_7 : ((List.range 32).flatMap (fun i => fgCrcEntry (224 + i))).foldl crcStep 0xef7fa6e3 = 0xdda22c2f := by decide +kernel

theorem fgImg_crc : crc32c (fgCrcBytes [] ((List.range 256).map fgCfgOf)) = 0x225dd3d0 := by
  have h := crc_part fgCrcEntry (32 * 7) 32 _ _ (crc_part fgCrcEntry (32 * 6) 32 _ _ (crc_part fgCrcEntry (32 * 5) 32 _ _
    (crc_part fgCrcEntry (32 * 4) 32 _ _ (crc_part fgCrcEntry (32 * 3) 32 _ _ (crc_part fgCrcEntry (32 * 2) 32 _ _
    (crc_part fgCrcEntry 32 32 _ _ (crc_part fgCrcEntry 0 32 _ _ rfl fgCrc_0) fgCrc_1) fgCrc_2) fgCrc_3) fgCrc_4) fgCrc_5) fgCrc_6) fgCrc_7
  unfold crc32c fgCrcBytes
  rw [List.flatMap_nil, List.nil_append, List.flatMap_map]
  exact (congrArg (· ^^^ (0xFFFFFFFF : Word)) h).trans (by decide)

theorem fgImg_loads {s : State} (h : s.domOn 1 = true) : (s.fgLoad fgImg).2 = true := by
  simp [State.fgLoad, h, fgImg_format, fgWrites, fgImg_head, fgImg_sources, forL, fgImg_crc]

/-- A master asks for request slot 3's block at 0x1000_0000, with a nonce of 32 zero bytes. -/
def sec0 (s : State) (args : List Byte) : State :=
  { ((s.wr (Reg.secReqAddrLo 3) 0x10000000).wrMem 0x10000000 (leBytes 4 (4 + args.length) ++ args)) with
    sec := { s.sec with nonces := [(3, some ⟨List.replicate 32 0, 0⟩)] } }
def asking (args : List Byte) : State := sec0 on args

/-- A state as `asks` wants it, by evaluation. -/
theorem asks_of {s : State} {b : Bus} {op : Nat} {args : List Byte} (h : s.powered .sec = true ∧
    s.mayWrite b.role .sec (0x108 + 0x10 * 3) (BitVec.ofNat 32 op) = true ∧ s.reqBusy 3 = false ∧ s.sec.enclaveOk = true ∧
    s.reqBlock 3 b.role = some (0x10000000, args)) : s.asks b 3 op 0x10000000 args := ⟨⟨h.1, h.2.1⟩, h.2.2.1, h.2.2.2.1, h.2.2.2.2⟩

/-- A token over that nonce, by evaluation. -/
theorem signed_of {s : State} {tag rest sig key : List Byte} (h : tabGet none s.sec.nonces 3 = some ⟨List.replicate 32 0, 0⟩ ∧ s.now - 0 < 60 * secT ∧
    ecdsaOk key (sha256 (tag ++ s.otpBytes 0 16 ++ List.replicate 32 0 ++ rest)) sig = true) : s.signed 3 tag rest sig key := ⟨_, h⟩

theorem witness_challenge : (asking []).asks (bus .oem) 3 0x01 0x10000000 [] ∧ (asking []).sec.entropyOk = true :=
  ⟨asks_of (by decide +kernel), by decide +kernel⟩

/-- SET_ROLE's inputs; the key as OPERATOR's credential 3. -/
def rlArgs (role : Byte) : List Byte := 3 :: role :: (rlKey ++ rlSig)
def rlState : State := { asking (rlArgs 6) with sec := { (asking (rlArgs 6)).sec with creds := [(27, some rlKey)] } }

theorem witness_setRole : rlState.asks (bus .oem) 3 0x02 0x10000000 (rlArgs 6) ∧ (rlArgs 6).length = 130 ∧
    (byteAt (rlArgs 6) 0).toNat < 4 ∧ 1 ≤ (byteAt (rlArgs 6) 1).toNat ∧ (byteAt (rlArgs 6) 1).toNat ≤ 6 ∧
    rlState.signed 3 tagRL ((rlArgs 6).take 2) (slice (rlArgs 6) 66 64) (slice (rlArgs 6) 2 64) ∧
    rlState.credentialOf 6 (slice (rlArgs 6) 2 64) = true :=
  ⟨asks_of (by decide +kernel), by decide +kernel, by decide +kernel, by decide +kernel, by decide +kernel, signed_of (by decide +kernel),
    by decide +kernel⟩

theorem witness_setRoleRefused : (asking (rlArgs 7)).asks (bus .oem) 3 0x02 0x10000000 (rlArgs 7) ∧ (byteAt (rlArgs 7) 1).toNat = 7 ∧
    (asking (rlArgs 6)).asks (bus .oem) 3 0x02 0x10000000 (rlArgs 6) ∧
    ¬ ((asking (rlArgs 6)).signed 3 tagRL ((rlArgs 6).take 2) (slice (rlArgs 6) 66 64) (slice (rlArgs 6) 2 64) ∧
      (asking (rlArgs 6)).credentialOf 6 (slice (rlArgs 6) 2 64) = true) :=
  ⟨asks_of (by decide +kernel), by decide +kernel, asks_of (by decide +kernel), fun h => absurd h.2 (by decide +kernel)⟩

theorem witness_roles : (asking [3, 6]).asks (bus .oem) 3 0x03 0x10000000 [3, 6] ∧ (3 : Byte).toNat < 4 ∧ 2 ≤ (6 : Byte).toNat ∧
    (6 : Byte).toNat ≤ 6 ∧ (asking (6 :: 3 :: pointG)).asks (bus .owner) 3 0x10 0x10000000 (6 :: 3 :: pointG) ∧
    inMask (credCaller 6) (bus .owner).role = true ∧ pointG.length = 64 ∧ (ecPoint pointG).isSome = true ∧
    (asking [6, 3]).asks (bus .owner) 3 0x11 0x10000000 [6, 3] :=
  ⟨asks_of (by decide +kernel), by decide, by decide, by decide, asks_of (by decide +kernel), by decide, by decide +kernel, by decide +kernel,
    asks_of (by decide +kernel)⟩

/-- A part that has an owner. -/
def owned (s : State) : State := { s with sec := { s.sec with store := [⟨.owned, 0, pointG⟩] } }

theorem witness_takeOwnership : (asking pointG).asks (bus .oem) 3 0x20 0x10000000 pointG ∧ (bus .oem).role = .oem ∧
    (asking pointG).owned = false ∧ (asking pointG).partIdle = true ∧
    (owned (asking pointG)).asks (bus .oem) 3 0x20 0x10000000 pointG ∧ (owned (asking pointG)).owned = true :=
  ⟨asks_of (by decide +kernel), rfl, by decide +kernel, by decide +kernel, asks_of (by decide +kernel), by decide +kernel⟩

def otState : State := { owned (asking (pointG ++ otSig)) with
  sec := { (owned (asking (pointG ++ otSig))).sec with creds := [(15, some otKey)] } }

theorem witness_transferOwnership : otState.asks (bus .owner) 3 0x21 0x10000000 (pointG ++ otSig) ∧ (bus .owner).role = .owner ∧
    pointG.length = 64 ∧ otSig.length = 64 ∧ otState.owned = true ∧ otState.partIdle = true ∧ otState.debugLevel = 0 ∧
    otState.credKey (12 + 3) = some otKey ∧ otState.signed 3 tagOT (sha256 pointG) otSig otKey :=
  ⟨asks_of (by decide +kernel), rfl, by decide +kernel, by decide +kernel, by decide +kernel, by decide +kernel, by decide +kernel,
    by decide +kernel, signed_of (by decide +kernel)⟩

def orState : State := (asking (orKey ++ orSig)).otpOr 0x100 orHash

theorem witness_ownerReset : orState.asks (bus .oem) 3 0x22 0x10000000 (orKey ++ orSig) ∧ orKey.length = 64 ∧ orSig.length = 64 ∧
    orState.partIdle = true ∧ orState.signed 3 tagOR [] orSig orKey ∧ orState.otpHashIs 0x100 orKey = true :=
  ⟨asks_of (by decide +kernel), by decide +kernel, by decide +kernel, by decide +kernel, signed_of (by decide +kernel), by decide +kernel⟩

theorem witness_keys : (asking (3 :: pointG)).asks (bus .owner) 3 0x30 0x10000000 (3 :: pointG) ∧ (3 : Byte).toNat < 4 ∧
    (asking pointG).asks (bus .owner) 3 0x31 0x10000000 pointG ∧ (asking pointG).sec.entropyOk = true ∧
    (asking pointG).sec.newRecKey = none ∧ ecPoint pointG = some ((ecPoint pointG).getD (0, 0)) ∧
    ((asking pointG).otpOr 0xE0 gHash).asks (bus .oem) 3 0x32 0x10000000 pointG ∧
    ((asking pointG).otpOr 0xE0 gHash).otpHashIs 0xE0 pointG = true ∧ (asking pointG).asks (bus .oem) 3 0x32 0x10000000 pointG ∧
    (asking pointG).otpHashIs 0xE0 pointG = false :=
  ⟨asks_of (by decide +kernel), by decide, asks_of (by decide +kernel), by decide +kernel, by decide +kernel, by decide +kernel,
    asks_of (by decide +kernel), by decide +kernel, asks_of (by decide +kernel), by decide +kernel⟩

theorem witness_provision : (asking (leBytes 2 0x184 ++ [1, 2, 3, 4])).asks (bus .oem) 3 0x40 0x10000000 (leBytes 2 0x184 ++ [1, 2, 3, 4]) ∧
    (0x184, 4) ∈ oemField ∧ ([1, 2, 3, 4] : List Byte).length = 4 ∧ (asking (leBytes 2 0x184 ++ [1, 2, 3, 4])).lifecycle = 1 ∧
    (asking (leBytes 2 0x184 ++ [1, 2, 3, 4])).otpBlank 0x184 4 = true ∧
    ((asking (leBytes 2 0x184 ++ [1, 2, 3, 4])).otpOr 0x184 [1]).asks (bus .oem) 3 0x40 0x10000000 (leBytes 2 0x184 ++ [1, 2, 3, 4]) ∧
    ((asking (leBytes 2 0x184 ++ [1, 2, 3, 4])).otpOr 0x184 [1]).otpBlank 0x184 4 = false :=
  ⟨asks_of (by decide +kernel), by decide +kernel, by decide, by decide +kernel, by decide +kernel, asks_of (by decide +kernel), by decide +kernel⟩

/-- Every field SECURE asks for is written. -/
def secured : State := ((((asking []).otpOr 0x60 [1]).otpOr 0x100 [1]).otpOr 0x140 [1]).otpOr 0x160 [1]

theorem witness_secure : secured.asks (bus .oem) 3 0x41 0x10000000 [] ∧ secured.lifecycle = 1 ∧ secured.otpBlank 0x60 32 = false ∧
    secured.otpBlank 0x100 32 = false ∧ secured.otpBlank 0x140 32 = false ∧ secured.otpBlank 0x160 16 = false ∧
    (asking []).asks (bus .oem) 3 0x41 0x10000000 [] ∧ (asking []).otpBlank 0x160 16 = true :=
  ⟨asks_of (by decide +kernel), by decide +kernel, by decide +kernel, by decide +kernel, by decide +kernel, by decide +kernel,
    asks_of (by decide +kernel), by decide +kernel⟩

def brState : State := (asking (3 :: (brKey ++ brSig))).otpOr 0x100 brHash

theorem witness_bootKeys : brState.asks (bus .oem) 3 0x42 0x10000000 (3 :: (brKey ++ brSig)) ∧ brKey.length = 64 ∧ brSig.length = 64 ∧
    brState.signed 3 tagBR [3] brSig brKey ∧ brState.otpHashIs 0x100 brKey = true ∧ (asking []).asks (bus .oem) 3 0x43 0x10000000 [] ∧
    256 ≤ 256 ∧ on.otpBytes 0x190 32 = thermo 32 on.rollback ∧ on.rollback ≤ 256 ∧
    (asking [1]).asks (bus .oem) 3 0x44 0x10000000 [1] ∧ (1 : Byte).toNat < 2 :=
  ⟨asks_of (by decide +kernel), by decide +kernel, by decide +kernel, signed_of (by decide +kernel), by decide +kernel, asks_of (by decide +kernel),
    by decide, by decide +kernel, by decide +kernel, asks_of (by decide +kernel), by decide⟩

def dbState : State := (asking (1 :: (dbKey ++ dbSig))).otpOr 0x120 dbHash
def rmState : State := (asking (rmKey ++ rmSig)).otpOr 0x40 rmHash

theorem witness_unlock : dbState.asks (bus .oem) 3 0x50 0x10000000 (1 :: (dbKey ++ dbSig)) ∧ dbKey.length = 64 ∧ dbSig.length = 64 ∧
    dbState.partIdle = true ∧ dbState.signed 3 tagDB [1] dbSig dbKey ∧ dbState.otpHashIs 0x120 dbKey = true ∧
    rmState.asks (bus .vendor) 3 0x51 0x10000000 (rmKey ++ rmSig) ∧ rmKey.length = 64 ∧ rmSig.length = 64 ∧ rmState.partIdle = true ∧
    rmState.signed 3 tagRM [] rmSig rmKey ∧ rmState.otpHashIs 0x40 rmKey = true :=
  ⟨asks_of (by decide +kernel), by decide +kernel, by decide +kernel, by decide +kernel, signed_of (by decide +kernel), by decide +kernel,
    asks_of (by decide +kernel), by decide +kernel, by decide +kernel, by decide +kernel, signed_of (by decide +kernel), by decide +kernel⟩

theorem witness_random : (asking (leBytes 2 256)).asks (bus .oem) 3 0x60 0x10000000 (leBytes 2 256) ∧ 1 ≤ 256 ∧
    (asking (leBytes 2 256)).sec.entropyOk = true := ⟨asks_of (by decide +kernel), by decide, by decide +kernel⟩

/-- Slot 3 waits for its store write. -/
def slotBusy : State := { on with sec := { on.sec with writes := [⟨.recKey, [], some 3, none⟩] } }

theorem witness_requests : slotBusy.takes (bus .oem) .sec (0x108 + 0x10 * 3) 0x60 ∧ slotBusy.reqBusy 3 = true ∧ on.domOn 2 = true ∧
    ((0x60 : Nat) ≠ 0x01 ∧ (0x60 : Nat) ≠ 0x50 ∧ (0x60 : Nat) ≠ 0x51) ∧ (on.otpByte 0x188).getLsbD 0 = true ∧
    tabGet none (asking []).sec.nonces 3 = some ⟨List.replicate 32 0, 0⟩ ∧
    60 * secT ≤ ({ asking [] with tim := { on.tim with tscAcc := 60 * secT * 2 ^ 32 } }).now - 0 ∧ (asking []).now - 0 < 60 * secT ∧
    (on.wrb Reg.secStat 6 true).rdb Reg.secStat 6 = true ∧ (3 : Nat) < 4 ∧
    (on.wrf (Reg.secReqStat 3) 3 0 1).rdf (Reg.secReqStat 3) 3 0 = 1 := by
  unfold State.takes; decide +kernel

/-- A region OEM has set; its page's registers as written. -/
def rgn : State := (on.wrb (Reg.secRgnBaseLo 15) 6 true).wrf (Reg.secRgnAcl 15) 23 16 4

theorem witness_regions : on.takes (bus .oem) .sec (0x200 + 0x10 * 15) 0 ∧ rgn.rdb (Reg.secRgnBaseLo 15) 6 = true ∧
    rgn.rdf (Reg.secRgnAcl 15) 23 16 ≠ 2 ^ roleBit .owner ∧ rgn.rdf (Reg.secRgnAcl 15) 23 16 = 2 ^ roleBit .oem ∧
    bit (0x4B : Word) 6 = true ∧ fld (0x4B : Word) 5 0 < 12 ∧ 40 < fld (0x69 : Word) 5 0 ∧ bit (0x69 : Word) 6 = true ∧
    ((on.rdf (Reg.secRgnBaseHi 15) 7 0) * 2 ^ 32 + fld (0x104D : Word) 31 12 * 4096) % 2 ^ fld (0x104D : Word) 5 0 ≠ 0 ∧
    bit (0x104D : Word) 6 = true ∧ on.rdb (Reg.secRgnBaseLo 15) 6 = false ∧ bit (0x68 : Word) 6 = true ∧ 12 ≤ fld (0x68 : Word) 5 0 ∧
    fld (0x68 : Word) 5 0 ≤ 40 ∧ (on.rdf (Reg.secRgnBaseHi 15) 7 0 * 2 ^ 32 + fld (0x68 : Word) 31 12 * 4096) % 2 ^ fld (0x68 : Word) 5 0 = 0 ∧
    bit (0 : Word) 6 = false := by
  unfold State.takes; decide +kernel

/-- A record of channel 15 that waits to be signed. -/
def rec0 : PendRec := ⟨15, 0, 0, 0, 0, false, false, 0, 0, 0, 0, 0, 0, 0, 0⟩
def recDue : State := { recOn.updQueue 62 (fun q => { q with resv := 1 }) with sec := { recOn.sec with pending := [rec0] } }

theorem witness_records : recDue.sec.pending = rec0 :: [] ∧ recDue.signKey = some [] ∧ recDue.recReady = true ∧ recDue.domOn 4 = true ∧
    (recDue.queue (4 * rec0.chan + 2)).resv ≠ 0 ∧ rec0.chan < 16 ∧ on.sec.pending = [] ∧ on.takes (bus .oem) .sec 0x90 15 := by
  unfold State.takes; decide +kernel

theorem witness_store : on.domOn 2 = true ∧ nextWrite slotBusy.sec.writes = some (⟨.recKey, [], some 3, none⟩, []) ∧
    ((slotBusy.wrf (Reg.secReqStat 3) 3 0 1).rdf (Reg.secReqStat 3) 3 0 = 1) ∧ StoreKind.epoch ≠ .owned ∧ StoreKind.recKey ≠ .epoch ∧
    (owned on).owned = true ∧ pointG ≠ [] ∧ 3 < 4 ∧ 1 ≤ 3 ∧ 15 < 16 ∧
    ({ on with sec := { on.sec with writes := [⟨.recKey, [], some 3, some 0⟩] } }).sec.writes.any (fun w => w.retryAt.isSome &&
      ({ on with sec := { on.sec with writes := [⟨.recKey, [], some 3, some 0⟩] } }).due w.retryAt) = true := by decide +kernel

/-- The boot flash with that header in slot B; the start-up stands where an attempt reads the image. -/
def flashOf (a : Nat) (l : List Byte) : List Host.Cell := (List.range l.length).map (fun i => (a + i, byteAt l i))
def boots : State := { (((on.wrb Reg.fgdStat 0 true).otpOr 0x140 kHash).wrf Reg.ddrStat 2 0 5) with
  flash := flashOf 0x800000 (bootHdr ++ fgImg ++ bootImg), pwr := { on.pwr with bootStep := 7 } }
def bootsB (s : State) : State := { s with sec := { s.sec with boot := { s.sec.boot with named := some 1 } } }
theorem bootsB_flash (s : State) : (bootsB s).flash = s.flash := rfl

/-! The two signatures of that flash. -/

/-- The upper bits of a scalar, then the lower ones. -/
theorem ecMulGo_add (p : Option (Nat × Nat)) (i k n : Nat) (acc : Option (Nat × Nat)) :
    ecMulGo k p (i + n) acc = ecMulGo k p i (ecMulGo (k / 2 ^ i) p n acc) := by
  induction n generalizing acc with
  | zero => rfl
  | succ n h =>
    rw [← Nat.add_assoc, ecMulGo, h, ecMulGo, Nat.testBit_div_two_pow, Nat.add_comm n i]

theorem ecMul_of {k h : Nat} {p q r : Option (Nat × Nat)} (hk : k / 2 ^ 128 = h) (hq : ecMulGo h p 128 none = q)
    (hr : ecMulGo k p 128 q = r) : ecMul k p = r := by
  subst hk hq hr; exact ecMulGo_add p 128 k 128 none

/-- A signature verifies when the two products are these points. -/
theorem ecdsaOk_of {key hash sig : List Byte} {q a b : Nat × Nat} {u v : Nat}
    (h : sig.length = 64 ∧ ofBe (sig.take 32) ≠ 0 ∧ ofBe (sig.take 32) < p256n ∧ ofBe (slice sig 32 32) ≠ 0 ∧ ofBe (slice sig 32 32) < p256n ∧
      ecPoint key = some q ∧ ofBe hash * invMod p256n (ofBe (slice sig 32 32)) % p256n = u ∧
      ofBe (sig.take 32) * invMod p256n (ofBe (slice sig 32 32)) % p256n = v)
    (hu : ecMul u (some p256g) = some a) (hv : ecMul v (some q) = some b)
    (hr : ∃ x y, ecAdd (some a) (some b) = some (x, y) ∧ x % p256n = ofBe (sig.take 32)) : ecdsaOk key hash sig = true := by
  obtain ⟨h1, h2, h3, h4, h5, h6, rfl, rfl⟩ := h
  obtain ⟨x, y, h7, h8⟩ := hr
  have h0 : ¬ (sig.length ≠ 64 ∨ ofBe (sig.take 32) = 0 ∨ p256n ≤ ofBe (sig.take 32) ∨ ofBe (slice sig 32 32) = 0 ∨
      p256n ≤ ofBe (slice sig 32 32)) := by omega
  simp only [ecdsaOk, if_neg h0, h6, hu, hv, h7, h8, beq_self_eq_true]

def bootHdrQ : Nat × Nat := (0x51590b7a515140d2d784c85608668fdfef8c82fd1f5be52421554a0dc3d033ed, 0xe0c17da8904a727d8ae1bf36bf8a79260d012f00d4d80888d1d0bb44fda16da4)
def bootHdrA : Nat × Nat := (0xdfcc0793cbbe0b9c2e67550779a5a81e553f1c3d3a007f6b4c501beae3c9415e, 0x65d98889b87ac3e4cab5295ce5356c62f34b6e5053542586dd68a1d2f6d92f33)
def bootHdrB : Nat × Nat := (0xecb6a1f83e673ab13f989d5bf174a8bcda8cb6e8d8b2d2d324fd02119b145644, 0x3a69ade0a41388de50c5dd0813f9071d19a8d1cb85844bc056216475a168f504)
def bootHdrR : Nat × Nat := (0x53c5a47b0f3273d7333320d3dc363b241a99928781b9d8827d9660a01dcdf9e9, 0x8024c87efd5c1388f0a6c3d274467f4824d89218ce12550c298f6a9b393efe20)

theorem bootHdr_a1 : ecMulGo 0x81ae8dba5ac91f2deeb5b5cb92e95740 (some p256g) 128 none = some (0xd2dda90ae956704ea063ec234920b2d62d2974a9dec0b3d9d776ee5b45524231, 0xe3e6804d8c80eb20abb5abace6de7d93ab22aa5f5cb42044d18368aa90b9e545) := by decide +kernel

theorem bootHdr_a2 : ecMulGo 0x81ae8dba5ac91f2deeb5b5cb92e957406aa9f18b232ea0e3e082fe9f7fe53069 (some p256g) 128 (some (0xd2dda90ae956704ea063ec234920b2d62d2974a9dec0b3d9d776ee5b45524231, 0xe3e6804d8c80eb20abb5abace6de7d93ab22aa5f5cb42044d18368aa90b9e545)) = some bootHdrA := by decide +kernel

theorem bootHdr_b1 : ecMulGo 0x19437d40edd7c6909d0edba415d154f3 (some bootHdrQ) 128 none = some (0x538f576cc8fd292f4462a8a4bc30f3ce39d78e5da121b35ca8b997307ca5f0be, 0xed85fba3e51e9c1f9434885563daa7fcd0f1e767e43703b134a521bea536e6ae) := by decide +kernel

theorem bootHdr_b2 : ecMulGo 0x19437d40edd7c6909d0edba415d154f310729b6d4d94ff86a0a0eb2900c70b35 (some bootHdrQ) 128 (some (0x538f576cc8fd292f4462a8a4bc30f3ce39d78e5da121b35ca8b997307ca5f0be, 0xed85fba3e51e9c1f9434885563daa7fcd0f1e767e43703b134a521bea536e6ae)) = some bootHdrB := by decide +kernel

theorem bootHdr_signed : ecdsaOk (slice bootHdr 0x80 64) (sha256 (bootHdr.take 0xC0)) (slice bootHdr 0xC0 64) = true := by
  exact ecdsaOk_of (by decide +kernel) (ecMul_of (by decide +kernel) bootHdr_a1 bootHdr_a2) (ecMul_of (by decide +kernel) bootHdr_b1 bootHdr_b2) ⟨bootHdrR.1, bootHdrR.2, by decide +kernel, by decide +kernel⟩

def fgImgQ : Nat × Nat := (0x51590b7a515140d2d784c85608668fdfef8c82fd1f5be52421554a0dc3d033ed, 0xe0c17da8904a727d8ae1bf36bf8a79260d012f00d4d80888d1d0bb44fda16da4)
def fgImgA : Nat × Nat := (0x904c49c5f77d213571c5829a8a03f29dcd19ddee8a15896b9c5653da657cbca2, 0x298ec63e7d79b5b5c8fe6b37214c389df58820a5579ea110e042dba2c511ab2d)
def fgImgB : Nat × Nat := (0x732069431712b82fec29daf8af43a2a3813e542a1de4d546757f9a07b976709d, 0x17acbed5dc3f680fe785e79a4d12af15d1a46fa8cdc8b194e6197df1dde1dee0)
def fgImgR : Nat × Nat := (0xef7f589da0be7e2e4b709a87993ff307c7a09911e5ae93f416a4bc6e971b6d47, 0xefb6063a45538a2e1e95af70ddf12a67af556a44d80baa00f47da2cee3d83c71)

theorem fgImg_a1 : ecMulGo 0xd020b62dac224251618335267cff912a (some p256g) 128 none = some (0x7fdc51c6b83c82562f75a3d60a22b04a4fd6a54fbb7f1fa87a0708a8142a2575, 0x574a1d37b1f7a108c5ee7267b124b2072923199a2246e505d7a52b2807f4534f) := by decide +kernel

theorem fgImg_a2 : ecMulGo 0xd020b62dac224251618335267cff912a6e9c181041d3e28d3effa935ffb35b46 (some p256g) 128 (some (0x7fdc51c6b83c82562f75a3d60a22b04a4fd6a54fbb7f1fa87a0708a8142a2575, 0x574a1d37b1f7a108c5ee7267b124b2072923199a2246e505d7a52b2807f4534f)) = some fgImgA := by decide +kernel

theorem fgImg_b1 : ecMulGo 0x3cc641f6772c592352e5c22b8099afc4 (some fgImgQ) 128 none = some (0x7a79fe0d7af27207d7d72cae6d720b9376ffcb3579a2cc5a4c6e243c799b122, 0x4b0abc43119c7c79426fa2f8dc20c770cce84c56ced9422066b0328e76f2a167) := by decide +kernel

theorem fgImg_b2 : ecMulGo 0x3cc641f6772c592352e5c22b8099afc435705f7568df1218f25be80965784ba2 (some fgImgQ) 128 (some (0x7a79fe0d7af27207d7d72cae6d720b9376ffcb3579a2cc5a4c6e243c799b122, 0x4b0abc43119c7c79426fa2f8dc20c770cce84c56ced9422066b0328e76f2a167)) = some fgImgB := by decide +kernel

theorem fgImg_signed : ecdsaOk (fgKeySig.take 64) (sha256 (fgImg.take 4224)) (fgKeySig.drop 64) = true := by
  rw [sha256_of (n := 4224) (by decide +kernel) fgSha]
  exact ecdsaOk_of (by decide +kernel) (ecMul_of (by decide +kernel) fgImg_a1 fgImg_a2) (ecMul_of (by decide +kernel) fgImg_b1 fgImg_b2) ⟨fgImgR.1, fgImgR.2, by decide +kernel, by decide +kernel⟩

/-- Reading back what `flashOf` lays down. -/
theorem flashOf_get (a i : Nat) (f : Nat → Byte) : ∀ L : List Nat, i ∈ L → tabGet flashBlank (L.map (fun j => (a + j, f j))) (a + i) = f i
  | [], h => by simp at h
  | j :: L, h => by
    by_cases hj : j = i
    · simp [tabGet, hj]
    · have : a + j ≠ a + i := by omega
      simp only [List.map_cons, tabGet, if_neg this]
      exact flashOf_get a i f L (by simpa [Ne.symm hj] using h)

theorem flashRd_of (s : State) (a : Nat) (l m r : List Byte) (h : s.flash = flashOf a (l ++ m ++ r)) :
    s.flashRd (a + l.length) m.length = m := by
  apply List.ext_getElem
  · simp [State.flashRd]
  · intro i h1 h2
    have h3 : i < m.length := by simpa [State.flashRd] using h1
    simp only [State.flashRd, List.getElem_map, List.getElem_range, h, flashOf]
    rw [show a + l.length + i = a + (l.length + i) by omega, flashOf_get _ _ _ _ (by simp; omega)]
    simp [byteAt, List.getElem?_append, h3, show ¬ l.length + i < l.length by omega]

theorem headerFault_bootHdr {s : State} (h : s.bootKeyOk (slice bootHdr 0x80 64) = true ∧ s.rollback = 0) : s.headerFault bootHdr = none := by
  have h1 : headerOk bootHdr = true := by decide +kernel
  simp [State.headerFault, h1, h.1, h.2, bootHdr_signed]

theorem witness_bootAttempt : on.domOn 2 = true ∧ (bootsB on).sec.enclaveOk = true ∧ (bootsB on).sec.boot.core0 = none ∧
    (bootsB on).sec.boot.waitTo = none ∧ (bootsB on).bootSlot = 1 ∧ 3 ≤ (bootsB on).pwr.bootStep ∧
    (bootsB on).sec.boot.resetFirst = false ∧ (bootsB on).railBlocks 20 = false ∧
    (bootsB on).headerFault ((bootsB on).bootHeader 1) = some 2 ∧ (bootsB boots).bootSlot = 1 ∧ (bootsB boots).railBlocks 20 = false ∧
    7 ≤ (bootsB boots).pwr.bootStep ∧ (bootsB boots).domOn 5 = true ∧ (bootsB boots).pwrPhase ≠ 3 ∧
    (bootsB boots).cfgOk = true ∧
    (bootsB boots).inDram (leAt bootHdr 0x10 5) (leAt bootHdr 0xC 4) = true := by decide +kernel

theorem boots_header {s : State} (h : s.flash = boots.flash) (hs : s.otpByte 0x182 = 0) : s.bootHeader 1 = bootHdr := by
  have := flashRd_of s 0x800000 [] bootHdr (fgImg ++ bootImg) (by rw [h]; simp [boots])
  have hl : bootHdr.length = 256 := by decide +kernel
  simpa [State.bootHeader, State.bootOfs, hs, hl] using this

theorem boots_config {s : State} (h : s.flash = boots.flash) (hs : s.otpByte 0x182 = 0 ∧ s.domOn 2 = true ∧ s.bootSlot = 1) :
    s.fgImage = some fgImg := by
  have h1 : headerOk bootHdr = true ∧ leAt bootHdr 0x2C 4 = 4288 ∧ leAt bootHdr 0x28 4 = 0x800100 ∧ bootHdr.length = 256 ∧ fgImg.length = 4288 := by
    decide +kernel
  have := flashRd_of s 0x800000 bootHdr fgImg bootImg (by rw [h]; simp only [boots])
  rw [h1.2.2.2.1, h1.2.2.2.2] at this
  simp only [State.fgImage, hs.2.2, boots_header h hs.1, hs.2.1, h1.1, h1.2.1, h1.2.2.1]
  simpa using this

theorem fgImg_verifies {s : State} (h : s.otpHashIs 0x140 (fgKeySig.take 64) = true) : s.verifySafety fgImg = true := by
  have h0 : fgImg.length - 64 = 4224 := by decide +kernel
  have h1 : (fgImg.take 4224).drop ((fgImg.take 4224).length - 64) = fgKeySig.take 64 := by decide +kernel
  have h2 : fgImg.drop 4224 = fgKeySig.drop 64 := by decide +kernel
  have h3 : 128 ≤ fgImg.length := by decide +kernel
  simp only [State.verifySafety, h0, h1, h2, h3, h, fgImg_signed]; rfl

theorem witness_bootImage : sha256 ((bootsB boots).flashRd (leAt bootHdr 8 4) (leAt bootHdr 0xC 4)) = slice bootHdr 0x30 32 := by
  have h1 : leAt bootHdr 8 4 = 0x800000 + (bootHdr ++ fgImg).length ∧ leAt bootHdr 0xC 4 = bootImg.length ∧
    sha256 bootImg = slice bootHdr 0x30 32 := by decide +kernel
  rw [h1.1, h1.2.1, flashRd_of (bootsB boots) 0x800000 (bootHdr ++ fgImg) bootImg [] (by simp only [bootsB, boots, List.append_nil])]
  exact h1.2.2

theorem witness_bootHeader : (bootsB boots).headerFault ((bootsB boots).bootHeader 1) = none := by
  rw [boots_header (s := bootsB boots) (bootsB_flash boots) (by decide +kernel)]; exact headerFault_bootHdr (by decide +kernel)

theorem witness_bootConfig : (bootsB boots).fgImage = some fgImg ∧ (bootsB boots).verifySafety fgImg = true :=
  ⟨boots_config (s := bootsB boots) (bootsB_flash boots) (by decide +kernel), fgImg_verifies (by decide +kernel)⟩

/-- Kindling waits, and listens on its two-wire interface. -/
def listens : State := { on.otpOr 0x180 [3] with sec := { (on.otpOr 0x180 [3]).sec with boot := { on.sec.boot with waitTo := some 1 } } }
def listensTo (h : List Byte) : State := { listens with sec := { listens.sec with boot := { listens.sec.boot with recHeader := h } } }

theorem witness_recoveryHeader : recoveryPayload 2 (recoveryFrame 2 bootHdr) = some bootHdr := by
  set_option maxRecDepth 100000 in decide +kernel

theorem witness_recovery : (∃ w, ({ on with sec := { on.sec with boot := { on.sec.boot with waitTo := some 0 } } } : State).sec.boot.waitTo =
      some w ∧ w ≤ on.now) ∧ listens.recoveryOn = true ∧ recoveryPayload 1 (recoveryFrame 1 []) = some [] ∧
    bootHdr.length = 256 ∧ listens.headerFault bootHdr = none ∧
    hdrSram bootHdr = true ∧ recoveryPayload 3 (recoveryFrame 3 (leBytes 4 0 ++ bootImg)) = some (leBytes 4 0 ++ bootImg) ∧
    5 ≤ (leBytes 4 0 ++ bootImg).length ∧ (leBytes 4 0 ++ bootImg).length ≤ 1028 ∧ (listensTo bootHdr).sec.boot.recHeader ≠ [] ∧
    (listensTo bootHdr).recoveryOn = true ∧ (listensTo bootHdr).domOn 4 = true ∧
    leAt (leBytes 4 0 ++ bootImg) 0 4 + ((leBytes 4 0 ++ bootImg).length - 4) ≤ leAt (listensTo bootHdr).sec.boot.recHeader 0x24 4 ∧
    recoveryPayload 4 (recoveryFrame 4 []) = some [] ∧
    sha256 (((listensTo bootHdr).wrMem 0x10000000 bootImg).rdMem 0x10000000 (leAt bootHdr 0x24 4)) = slice bootHdr 0x50 32 ∧
    recoveryPayload 4 [] = none ∧ bootImg.length < 65536 :=
  ⟨⟨0, by decide +kernel⟩, by decide +kernel, by decide +kernel, by decide +kernel, headerFault_bootHdr (by decide +kernel),
    by decide +kernel⟩

theorem witness_attemptFailed : on.sec.boot.failed = 0 ∧
    ({ on with sec := { on.sec with boot := { on.sec.boot with failed := 1 } } } : State).sec.boot.failed ≠ 0 ∧
    Instr.recordSign ∈ [Instr.recordSign, .nonceExpiry 3, .entropyFailure, .entropyRecovery, .storeWriteRetry, .bootRetryWaitEnd] := by
  decide +kernel

/-! ### Fireguard and the fault collector -/

/-- Interlock 3 in use, closed when line 1 is high. -/
def ilk3 : State := on.wr Reg.fgdIlkCfg 0x01000000

theorem witness_interlocks : ilkClosed (ilk3.ilkAnti 3) false true = false ∧ ilkClosed (ilk3.ilkAnti 3) true true = true ∧
    ilk3.domOn 1 = true ∧ ilk3.ilkEn 3 = true ∧ (∀ n, n < 16 → ilk3.pins.gate.getLsbD n = (ilk3.las n).gate) ∧
    (ilk3.wrb Reg.fgdStat (8 + 3) true).rdb Reg.fgdStat (8 + 3) = true ∧ ((ilk3.wrb Reg.fgdStat (8 + 3) true).ilk 3).openShown = false ∧
    ilk3.rdb Reg.fgdStat (8 + 3) = false ∧ ilkClosed ((ilk3.wrb Reg.fgdStat (8 + 3) true).ilkAnti 3) true true = true ∧
    (ilk3.wrb Reg.fgdStat (8 + 3) true).domOn 1 = true ∧ (ilk3.wrb Reg.fgdStat (8 + 3) true).ilkEn 3 = true ∧
    ((ilk3.updIlk 3 (fun x => { x with disagreeAt := some 0 })).ilk 3).disagreeAt = some 0 ∧
    0 + ((at1s ilk3).updIlk 3 (fun x => { x with disagreeAt := some 0 })).ilkDiscT 3 <
      ((at1s ilk3).updIlk 3 (fun x => { x with disagreeAt := some 0 })).now ∧
    (ilk3.updIlk 3 (fun x => { x with disagreeAt := some 0 })).now ≤ 0 + ilk3.ilkDiscT 3 := by decide +kernel

/-- Channel 15, a laser, runs in group 1; every condition of enable 1 is met. -/
def lenReady : State := ((((on.wr Reg.fgdStat 0xFB).wr Reg.fgdLenCfg 0x28000).wrb (Reg.chCfg 15) 0 true).wrb (Reg.chCtrl 15) 0 true)

theorem witness_enables : lenReady.enableOk 1 = true ∧ lenReady.lenOn 1 = false ∧ lenReady.domOn 1 = true ∧ on.enableOk 1 = false ∧
    on.lenOn 1 ≠ true ∧ (on.setLen 1 true).lenOn 1 ≠ false ∧
    ({ on with fgd := { on.fgd with offAt := [(1, some 0)] } }).due
      (tabGet none ({ on with fgd := { on.fgd with offAt := [(1, some 0)] } }).fgd.offAt 1) = true ∧
    ¬ (true = on.lenOn 1 ∧ true = ! on.lenOn 1) := by decide +kernel

/-- A laser channel with one power limit. -/
def limited : State := (on.wrb (Reg.chCfg 15) 0 true).wr (Reg.lpLimPer 15 7) 0x80000000

theorem witness_readbacks : on.domOn 1 = true ∧ true ≠ on.pins.gate.getLsbD 15 ∧ true ≠ on.pins.strobe.getLsbD 15 ∧
    true ≠ on.pins.rej.getLsbD 15 ∧ limited.isLaser 15 = true ∧
    limited.lpLimit 15 = some ((limited.lpLimit 15).getD (0, 0)) ∧ ((limited.lpLimit 15).getD (0, 0)).1 < (0xFFFF : BitVec 16).toNat ∧
    (0 : BitVec 16).toNat ≤ ((limited.lpLimit 15).getD (0, 0)).1 := by decide +kernel

theorem witness_clocks : 2 * 12 < 25 ∧ 25 ≤ 2 * 13 ∧ on.syn0Bypass = true ∧
    ((on.wrf (Reg.clkSynStat 0) 2 0 2).syn0Bypass = false ∧ 2 * 12 < 25) ∧
    ({ on with flt := { on.flt with clockForce := true } }).flt.clockForce = true ∧ (on.wrb Reg.clkStat 8 true).rdb Reg.clkStat 8 = true := by
  decide +kernel

/-- Fireguard's self-test: not run, running, its retry due, passed. -/
def selftest (k : Nat) : State := on.wrf Reg.fgdSelftest 1 0 k
def selftestDue : State := { on with fgd := { on.fgd with retryAt := some 0 } }

theorem witness_selftest : on.rdb Reg.fgdStat 1 = false ∧ on.rdf Reg.fgdSelftest 1 0 ≠ 1 ∧ on.fgd.retryAt = none ∧
    selftestDue.domOn 1 = true ∧ selftestDue.due selftestDue.fgd.retryAt = true ∧ (selftest 1).rdf Reg.fgdSelftest 1 0 = 1 ∧
    (on.wrb Reg.fgdStat 1 true).rdb Reg.fgdStat 1 = true ∧ (on.wrb Reg.fgdStat 1 true).domOn 1 = true := by decide +kernel

/-- The boot flash's configuration while none is in force. -/
def cfgDue (s : State) : State := { (s.wrb Reg.fgdStat 0 false) with pwr := { s.pwr with bootStep := 6 } }

theorem cfgDue_flash (s : State) : (cfgDue (bootsB s)).flash = s.flash := rfl
theorem otpOr_flash (s : State) (a : Nat) (l : List Byte) : (s.otpOr a l).flash = s.flash := rfl
theorem fgImg_loadsTo {s : State} (h : s.domOn 1 = true) : s.fgLoad fgImg = ((s.fgLoad fgImg).1, true) := by
  have h2 := fgImg_loads h
  generalize s.fgLoad fgImg = p at h2 ⊢
  rw [← h2]

theorem witness_config : (cfgDue (bootsB boots)).domOn 1 = true ∧ (cfgDue (bootsB boots)).domOn 2 = true ∧
    (cfgDue (bootsB boots)).cfgOk = false ∧ 6 ≤ (cfgDue (bootsB boots)).pwr.bootStep ∧ (cfgDue (bootsB boots)).sec.boot.core0 = none ∧
    (cfgDue (bootsB boots)).sec.boot.waitTo = none ∧ (cfgDue (bootsB boots)).sec.boot.resetFirst = false := by decide +kernel

theorem witness_configLoad : (cfgDue (bootsB boots)).fgImage = some fgImg ∧ (cfgDue (bootsB boots)).verifySafety fgImg = true ∧
    (cfgDue (bootsB boots)).fgLoad fgImg = (((cfgDue (bootsB boots)).fgLoad fgImg).1, true) :=
  ⟨boots_config (s := cfgDue (bootsB boots)) (cfgDue_flash boots) (by decide +kernel), fgImg_verifies (by decide +kernel),
    fgImg_loadsTo (by decide +kernel)⟩

theorem fgImg_fails {s : State} (h : s.otpHashIs 0x140 (fgKeySig.take 64) = false) : s.verifySafety fgImg = false := by
  have h0 : fgImg.length - 64 = 4224 := by decide +kernel
  have h1 : (fgImg.take 4224).drop ((fgImg.take 4224).length - 64) = fgKeySig.take 64 := by decide +kernel
  have h3 : 128 ≤ fgImg.length := by decide +kernel
  simp only [State.verifySafety, h0, h1, h3, h]; rfl

/-- The same with the OTP's hash of another key. -/
def badKey : State := cfgDue (bootsB (boots.otpOr 0x140 [0xFF]))
theorem badKey_flash : badKey.flash = boots.flash := (cfgDue_flash _).trans (otpOr_flash _ _ _)

theorem witness_configBad : badKey.fgImage = some fgImg ∧ badKey.verifySafety fgImg = false ∧ badKey.domOn 1 = true ∧
    badKey.cfgOk = false ∧ 6 ≤ badKey.pwr.bootStep ∧ (on.fgLoad []).2 = false := by
  refine ⟨boots_config badKey_flash (by decide +kernel), fgImg_fails (by decide +kernel), ?_, ?_, ?_, ?_⟩ <;> decide +kernel

/-- The domain 12 waits for its part of the configuration. -/
def reapply : State := { on.wrb Reg.fgdStat 0 true with fgd := { on.fgd with applyPending := [12] } }

theorem witness_configCopies : reapply.domOn 1 = true ∧ reapply.cfgOk = true ∧ reapply.domOn 12 = true ∧
    reapply.fgd.applyPending.contains 12 = true ∧ (11 : Nat) ≠ 12 ∧
    reapply.rdb (Reg.pgSoot .fgd) 12 = false := by decide +kernel

/-- A source's entry of a class, in force for source 255. -/
def clsCfg (cls : Nat) : SrcCfg := ⟨BitVec.ofNat 32 (0x100 + cls + 0x50), 0x10001, 0⟩
def classed (cls : Nat) : State := (on.wrb Reg.fgdStat 0 true).updSrc 255 (fun x => { x with cfg := some (clsCfg cls) })

theorem witness_events : 255 < 256 ∧ (254 : Nat) ≠ 255 ∧ ((classed 0).src 255).events ≠ 0xFFFF ∧ ((classed 0).srcCfg 255).cls = clsInfo ∧
    ((classed 0).src 255).promoted = false ∧ ((classed 1).srcCfg 255).cls = clsMinor ∧
    ((classed 1).srcCfg 255).promoteN ≤ (((classed 1).src 255).window.filter (fun a => decide ((classed 1).now - a < ((classed 1).srcCfg 255).window))).length + 1 ∧
    ((classed 1).src 255).graceAt = none ∧ ((classed 1).src 255).belowLast ((classed 1).srcCfg 255) = true ∧
    ((classed 2).srcCfg 255).cls = clsSevere ∧ ((classed 3).srcCfg 255).cls = clsCritical ∧
    ((classed 3).src 255).belowLast ((classed 3).srcCfg 255) = true ∧ ((classed 2).src 255).belowLast ((classed 2).srcCfg 255) = true ∧
    ((on.wrb Reg.fgdStat 0 true).updSrc 255 (fun x => { x with cfg := some ⟨0x201, 0x10001, 0⟩ })).domOn 1 = true ∧
    ((((on.wrb Reg.fgdStat 0 true).updSrc 255 (fun x => { x with cfg := some ⟨0x201, 0x10001, 0⟩ })).src 255).window.filter
      (fun a => decide (on.now - a < 0))).length + 1 <
      (((on.wrb Reg.fgdStat 0 true).updSrc 255 (fun x => { x with cfg := some ⟨0x201, 0x10001, 0⟩ })).srcCfg 255).promoteN ∧
    ((classed 2).updSrc 255 (fun x => { x with graceAt := some 0 })).domOn 1 = true ∧
    (((classed 2).updSrc 255 (fun x => { x with graceAt := some 0 })).src 255).graceAt ≠ none := by decide +kernel

/-- Source 255's grace is over: with FIRST a step of `f`. -/
def graced (f : Nat) : State := (on.wrb Reg.fgdStat 0 true).updSrc 255 (fun x => { x with graceAt := some 0, cfg := some ⟨BitVec.ofNat 32 (0x102 + 8 * f + 32 * 3), 0x10001, 0⟩ })

theorem witness_grace : (graced 0).due ((graced 0).src (255 : BitVec 8).toNat).graceAt = true ∧ (graced 0).domOn 1 = true ∧
    ((graced 0).src 255).taken = false ∧ ((graced 0).srcCfg 255).first = 0 ∧ ((graced 1).srcCfg 255).first = 1 ∧
    ((graced 2).srcCfg 255).first = 2 ∧ ((graced 3).srcCfg 255).first = 3 ∧ ((graced 3).src 255).taken = false ∧
    (graced 3).due ((graced 3).src (255 : BitVec 8).toNat).graceAt = true := by decide +kernel

/-- The TAP holds DEVICE_SAFE, not yet in place. -/
def held : State := { on with flt := { on.flt with holds := [.tap] } }

theorem witness_safeStates : held.deviceHeld = true ∧ held.deviceSafe = false ∧ held.domOn 1 = true ∧
    (∀ n, n < 16 → held.pins.gate.getLsbD n = (held.las n).gate) ∧ on.deviceHeld = false ∧
    ({ on with flt := { on.flt with inReset := true } }).flt.inReset = true ∧ on.pwr.heldCfg = [] ∧ on.railBlocks 1 = false ∧
    on.railBlocks 2 = false ∧ on.railBlocks 4 = false := by decide +kernel

theorem witness_release : (classed 2).takes (bus .oem) .flt 0x70 0xFF ∧
    ((classed 2).updSrc 255 (fun x => { x with graceAt := some 0 })).takes (bus .oem) .flt 0x70 0xFF ∧
    (((classed 2).updSrc 255 (fun x => { x with graceAt := some 0 })).src (fld 0xFF 7 0)).graceAt.isSome = true ∧
    ((classed 2).src (fld 0xFF 7 0)).graceAt = none ∧ on.takes (bus .operator) .flt 0x78 0x80000000 ∧ on.takes (bus .operator) .flt 0x78 0xFF ∧
    (on.updSrc 255 (fun x => { x with releasable := true })).takes (bus .operator) .flt 0x78 0xFF ∧
    ((on.updSrc 255 (fun x => { x with releasable := true })).src (fld 0xFF 7 0)).releasable = true ∧
    (on.src (fld 0xFF 7 0)).releasable = false ∧ ((on.src 255).recov ≠ 0xFFFF) ∧
    on.rdf Reg.fgdReleaseCfg 7 0 * 10 * msT ≤ on.rdf Reg.fgdReleaseCfg 15 8 * 10 * msT ∧
    on.rdf Reg.fgdReleaseCfg 15 8 * 10 * msT < on.rdf Reg.fgdReleaseCfg 15 8 * 10 * msT + 1 ∧
    (0 < on.rdf Reg.fgdReleaseCfg 7 0 * 10 * msT) := by
  unfold State.takes; decide +kernel

/-- Source 255 latched and quiet, of a class released by hand or not. -/
def quietSrc (manual : Bool) : State := (on.wrb Reg.fgdStat 0 true).updSrc 255 (fun x => { x with
  latched := true, pin := false, quietAt := some 0, cfg := some ⟨if manual then 0x104 else 0x100, 0x10001, 0⟩ })

theorem witness_quiet : ((quietSrc true).src 255).latched = true ∧ ((quietSrc true).src 255).pin = false ∧
    (quietSrc true).due ((quietSrc true).src 255).quietAt = true ∧ ((quietSrc true).srcCfg 255).manual = true ∧
    ((quietSrc false).srcCfg 255).manual = false ∧ (quietSrc false).due ((quietSrc false).src 255).quietAt = true ∧
    (reapply.cfgOk = true) ∧ on.takes (bus .oem) .flt 0x48 0xFF ∧ on.takes (bus .oem) .flt 0xC0 31 ∧ on.flt.log.length < 32 ∧
    ({ on with flt := { on.flt with log := List.replicate 31 ⟨255, 15, 0⟩ } }).flt.log[fld (30 : Word) 4 0]? = some ⟨255, 15, 0⟩ ∧
    ({ on with flt := { on.flt with log := List.replicate 31 ⟨255, 15, 0⟩ } }).flt.log.length < 32 ∧
    on.flt.log[fld (31 : Word) 4 0]? = none ∧ ({ on with flt := { on.flt with log := List.replicate 32 ⟨255, 15, 0⟩ } }).flt.log.length ≤ 32 ∧
    Instr.fgSelftestRetry ∈ [Instr.interlockOpen 3 true true, .interlockClose 3 true true, .interlockDiscrepancy 3, .keySwitchChange true,
      .enableAssert 1, .enableOffDelayEnd 1, .fgOscDeviation 0, .fgSelftestStart, .fgSelftestRetry] := by
  unfold State.takes; decide +kernel

/-! ### Clock synthesis and die temperature -/

/-- Synthesiser 3 in a state, set to run or not; the reference good or lost. -/
def synIn (st : Nat) (run ref : Bool) : State :=
  ((on.wrf (Reg.clkSynStat 3) 2 0 st).wrb (Reg.clkSynCfg 3) 8 run).wrb Reg.clkStat 8 ref

theorem witness_synths : on.takes (bus .oem) .clk (0x100 + 0x80 * 3) 0x10B ∧ fld (0x10B : Word) 3 0 ≤ 11 ∧ bit (0x10B : Word) 8 = true ∧
    (synIn 0 false true).synRunning 3 = false ∧ (synIn 2 true true).takes (bus .oem) .clk (0x100 + 0x80 * 3) 0xB ∧
    (synIn 2 true true).synRunning 3 = true ∧ bit (0xB : Word) 8 = false ∧ (synIn 2 true true).domOn 4 = true ∧
    (synIn synAcquire true true).synSt 3 = synAcquire ∧ (synIn synAcquire true true).refOk = true ∧
    (-150 : BitVec 16).toInt.natAbs ≤ 10 * ((synIn synAcquire true true).wrf Reg.clkLockCfg 4 0 15).rdf Reg.clkLockCfg 4 0 ∧
    (synIn synLocked true true).synSt 3 = synLocked ∧
    10 * ((synIn synLocked true true).wrf Reg.clkLockCfg 4 0 15).rdf Reg.clkLockCfg 4 0 < (-151 : BitVec 16).toInt.natAbs ∧
    on.synSt 3 ≠ synLocked ∧ ((synIn synWait true true).updSyn 3 (fun x => { x with waitAt := some 0 })).due
      (((synIn synWait true true).updSyn 3 (fun x => { x with waitAt := some 0 })).syn 3).waitAt = true ∧
    (synIn synWait true false).refOk = false ∧
    ((at1s (synIn synAcquire true true)).updSyn 3 (fun x => { x with attemptAt := some 0 })).synSt 3 = synAcquire ∧
    0 + 100 * usT ≤ ((at1s (synIn synAcquire true true)).updSyn 3 (fun x => { x with attemptAt := some 0 })).now := by
  unfold State.takes; decide +kernel

def tracked : State := (((synIn synLocked true true).wrb (Reg.clkSynCfg 3) 4 true).wrb (Reg.pgCtrl .bkg) 0 true).wrb Reg.bkgEn 6 true

theorem witness_reference : tracked.rdb (Reg.clkSynCfg 3) 4 = true ∧ tracked.synSt 3 = synLocked ∧ tracked.banking 6 = true ∧
    ((31 : BitVec 8).toNat < 32) ∧ (223 < (224 : BitVec 8).toNat) ∧ (32 ≤ (223 : BitVec 8).toNat) ∧
    (synIn synLocked true true).refOk = true ∧ (synIn synLocked true false).refOk = false ∧
    (synIn synLocked true false).synRunning 3 = true ∧ ((synIn synLocked true true).wrb Reg.clkStat 10 true).rdb Reg.clkStat 10 = true ∧
    (22499 : BitVec 16).toNat < 22500 := by decide +kernel

def outputOn : State := on.wrb (Reg.clkSynOut 3 3) 16 true

theorem witness_outputs : on.takes (bus .oem) .clk (0x110 + 0x80 * 3 + 4 * 3) 0x10001 ∧ (on.wrb (Reg.clkSynOut 3 3) 16 false).rdb (Reg.clkSynOut 3 3) 16 = false ∧
    outputOn.takes (bus .oem) .clk (0x110 + 0x80 * 3 + 4 * 3) 0 ∧ outputOn.rdb (Reg.clkSynOut 3 3) 16 = true ∧
    (outputDomains 3 3).any outputOn.domOn = true ∧ bit (0 : Word) 16 = false ∧
    on.takes (bus .oem) .clk (0x108 + 0x80 * 3) 0x80000000 := by
  unfold State.takes; decide +kernel

def roundNext (t : BitVec 16) (s : State) : State :=
  match execDieSensorRound (Vector.replicate 12 t) (Vector.replicate 2 0) s with
  | .next u => u
  | _ => s
def hotOnce : State := { on with thm := { on.thm with above := [(0, 1), (1, 1), (2, 1)] } }
def judged (good : Bool) : State := (on.updDie 11 (fun _ => ⟨3, true⟩)).wrb (Reg.thmDie 11) 16 good

set_option maxRecDepth 100000 in
theorem witness_dieRound : (roundNext 1500 hotOnce).hottest = some (0, 1500) ∧ hotOnce.thrT 0 ≤ 1500 ∧ hotOnce.thrT 1 ≤ 1500 ∧
    hotOnce.thrT 2 ≤ 1500 ∧ 1 ≤ tabGet 0 hotOnce.thm.above 2 ∧ hotOnce.rdb Reg.thmStat 13 ≠ true ∧ hotOnce.thm.shutReached = false ∧
    hotOnce.thm.shutAt = none ∧ (roundNext 250 on).hottest = some (0, 250) ∧ on.rdb Reg.thmStat 14 = false ∧ 250 < on.thrT 2 ∧
    (1500 < (1501 : BitVec 16).toInt) ∧ ((-551 : BitVec 16).toInt < -550) ∧ (judged false).dieGood 11 = false ∧
    ((judged false).die 11).judged = true ∧ ((judged false).die 11).clear < 9 ∧ (judged true).dieGood 11 = true ∧
    ((dieNeighbours 11).filter (judged true).dieGood).length < 2 ∧ -550 ≤ (-550 : BitVec 16).toInt := by
  refine ⟨?_, ?_, ?_, ?_, ?_, ?_, ?_, ?_, ?_, ?_, ?_, ?_, ?_, ?_, ?_, ?_, ?_, ?_, ?_⟩ <;> decide +kernel

def shutting : State := { on.wrb Reg.thmStat 14 true with thm := { on.thm with shutAt := some 0, stepAt := some 0 } }

theorem witness_damper : shutting.rdb Reg.thmStat 14 = true ∧ shutting.due shutting.thm.shutAt = true ∧ shutting.domOn 4 = true ∧
    shutting.due shutting.thm.stepAt = true ∧ shutting.hottest = none ∧ (shutting.wrb Reg.thmStat 13 true).rdb Reg.thmStat 13 = true ∧
    (shutting.wrb Reg.thmStat 13 false).rdb Reg.thmStat 13 = false ∧ shutting.dmpLevel = 0 ∧
    ((shutting.wr (Reg.thmDie 11) (0x10000 + 900)).wr Reg.thmTThrot (0x320000 + 930)).hottest = some (11, 900) ∧
    ((shutting.wr (Reg.thmDie 11) (0x10000 + 900)).wr Reg.thmTThrot (0x320000 + 930)).thrT 1 -
      ((shutting.wr (Reg.thmDie 11) (0x10000 + 900)).wr Reg.thmTThrot (0x320000 + 930)).thrH 1 ≤ 900 ∧
    ({ on with thm := { on.thm with pauseAt := [(15, some 0)] } }).due
      (tabGet none ({ on with thm := { on.thm with pauseAt := [(15, some 0)] } }).thm.pauseAt 15) = true ∧ (14 : Nat) ≠ 15 ∧
    on.takes (bus .oem) .thm 0x90 0x80000000 ∧ on.thrWriteOk 1 (BitVec.ofNat 32 (on.rd Reg.thmTThrot).toNat) = true ∧ 0 < 1 ∧
    Instr.damperStep ∈ [Instr.relockAttempt 3, .relockAttemptTimeout 3, .bandRecentre 3 0, .refGood, .backupMeasure 0 0, .damperStep] := by
  unfold State.takes; decide +kernel

/-! ### Rails, start-up and power states -/

/-- Every slot's status from `f`, and the sequencer's state. -/
def rails (f : Nat → Word) (g : PwrState → PwrState) : State :=
  let s := forN 12 (fun k s => s.wr (Reg.psqSlotStat k) (f k)) on
  { s with pwr := g s.pwr }
def nextOf (o : Out) : State := match o with | .next t => t | _ => State.reset

/-- The groups up to ORDER 10 up; all up. -/
def lastGroup : State := (rails (fun k => if k < 11 then 14 else 0) (fun p => { p with bootStep := 2, phase := .up 10 })).updSlot 10
  (fun x => { x with resolved := true })
def allUp : State := (rails (fun _ => 14) (fun p => { p with bootStep := 2 })).wr Reg.pwrDomStat 0

theorem witness_railGroups : on.pwr.aon = true ∧ lastGroup.pwr.aon = true ∧ lastGroup.pwr.emergency = false ∧ lastGroup.pwr.bootStep = 2 ∧
    lastGroup.groupResolved = true ∧ (∃ k ∈ lastGroup.groupOf 11, lastGroup.slotDriven k = false) ∧ 11 < 16 ∧
    (∀ p, p < 11 → ∀ k ∈ lastGroup.groupOf p, lastGroup.slotDriven k = true) ∧ (11 ∈ lastGroup.groupOf 11 ∧ lastGroup.slotDriven 11 = false) ∧
    (10 < 12 ∧ 10 ∉ lastGroup.groupOf 11) := by decide +kernel

theorem witness_railPhase : ∃ q, lastGroup.pwr.phase = .up q ∧ q < 11 := ⟨10, by decide +kernel⟩

theorem witness_railsUp : allUp.groupResolved = true ∧ allUp.railsUp = true ∧ allUp.pwr.phase = .idle ∧ allUp.pwr.heldCfg = [] ∧
    allUp.domOn 1 = false ∧ allUp.domOn 2 = false ∧ allUp.domOn 4 = false ∧ allUp.pwr.switching = [] ∧ allUp.testMode = false ∧
    allUp.railBlocks 1 = false ∧ allUp.railBlocks 2 = false ∧ allUp.railBlocks 4 = false ∧
    ((allUp.wrb (Reg.psqSlotDep 11) 4 true).wrf (Reg.psqSlotStat 11) 1 0 3).railBlocks 4 = true := by decide +kernel

/-- Slot 11 with a status. -/
def slot11 (w : Word) : State := on.wr (Reg.psqSlotStat 11) w
def needed : State := (slot11 0xE).wr (Reg.psqSlotDep 11) 0xFFFFFFFF

theorem witness_pgEdge : on.slotPg 11 = false ∧ on.frozen (Reg.psqSlotStat 11) = false ∧ (slot11 9).slotPg 11 ≠ true ∧
    (slot11 9).slotDriven 11 = true ∧ (slot11 9).slotSt 11 = 1 ∧ (slot11 0xD).slotPg 11 ≠ false ∧ (slot11 0xD).slotSt 11 ≠ 2 ∧
    ((((slot11 0xD).updSlot 11 (fun x => { x with qualAt := some 0 })).slot 11).qualAt.isSome = true) ∧
    needed.slotDriven 11 = true ∧ needed.slotPg 11 ≠ false ∧ needed.slotSt 11 = 2 ∧ needed.rdb (Reg.psqSlotDep 11) 12 = true ∧
    needed.rdb (Reg.psqSlotDep 11) (18 + 1) = true ∧ needed.rdb (Reg.psqSlotDep 11) (16 + 1) = true ∧ needed.domOn 1 = true ∧
    (((needed.wr Reg.pwrDomStat 0).domOn 1 && (needed.wr Reg.pwrDomStat 0).domOn 4) = false) ∧
    (slot11 4).slotDriven 11 = false ∧ (slot11 4).slotPg 11 ≠ false := by decide +kernel

def qualDue : State := (((slot11 0xD).wrb Reg.pwrDomCtrl 12 true).wrb Reg.pwrDomStat 12 false).updSlot 11
  (fun x => { x with qualAt := some 0, timeoutAt := some 0 })

theorem witness_qualified : qualDue.slotDriven 11 = true ∧ qualDue.slotPg 11 = true ∧ qualDue.due (qualDue.slot 11).qualAt = true ∧
    (∀ j, j < 12 → j ≠ 11 → qualDue.slotDriven j = true → qualDue.rdb (Reg.psqSlotDep j) 12 = true → qualDue.slotSt j = 2) ∧
    qualDue.pwr.bootStep = 8 ∧ qualDue.testMode = false ∧ qualDue.rdb Reg.thmStat 14 = false ∧ qualDue.rdb Reg.pwrDomCtrl 12 = true ∧
    qualDue.domOn 12 = false ∧ (nextOf (exec (.railQualified 11) qualDue)).railBlocks 12 = false := by decide +kernel

def timedOut (w : Word) : State := (slot11 w).updSlot 11 (fun x => { x with timeoutAt := some 0 })

theorem witness_timeout : qualDue.due (qualDue.slot 11).timeoutAt = true ∧ qualDue.slotSt 11 = 1 ∧
    (qualDue.wrb (Reg.psqSlotDep 11) 20 true).rdb (Reg.psqSlotDep 11) 20 = true ∧ (timedOut 0xE).due ((timedOut 0xE).slot 11).timeoutAt = true ∧
    (timedOut 0xE).slotDriven 11 = true ∧ (timedOut 0xE).slotSt 11 ≠ 1 ∧ (timedOut 4).slotDriven 11 = false ∧
    (timedOut 4).due ((timedOut 4).slot 11).timeoutAt = true := by decide +kernel

/-- An entry to a state whose rails are going down. -/
def downTo (f : Nat → Word) (target : Nat) : State := (rails f (fun p => { p with phase := .down 16 })).wr Reg.pwrStat (BitVec.ofNat 32 (0x10 + 64 * target))
def downLast (target : Nat) : State := downTo (fun _ => 0) target

theorem witness_powerDown : (downTo (fun _ => 14) 4).pwr.phase = .down 16 ∧ (downTo (fun _ => 14) 4).groupResolved = true ∧ 11 < 16 ∧
    (∃ k ∈ (downTo (fun _ => 14) 4).groupOf 11, (downTo (fun _ => 14) 4).slotDriven k = true ∧
      (downTo (fun _ => 14) 4).slotKept k (downTo (fun _ => 14) 4).pwrTarget = false) ∧
    (∀ p, p < 16 → 11 < p → ∀ k ∈ (downTo (fun _ => 14) 4).groupOf p, (downTo (fun _ => 14) 4).slotDriven k = true →
      (downTo (fun _ => 14) 4).slotKept k (downTo (fun _ => 14) 4).pwrTarget = true) ∧
    (10 < 12 ∧ 10 ∉ (downTo (fun _ => 14) 4).groupOf 11) := by decide +kernel

theorem witness_powerDownEnd : (downLast 4).pwr.phase = .down 16 ∧ (downLast 4).groupResolved = true ∧ (downLast 4).pwr.heldCfg = [] ∧
    2 ≤ (downLast 4).pwrTarget ∧ (∀ p, p < 16 → ∀ k ∈ (downLast 4).groupOf p, (downLast 4).slotDriven k = true →
      (downLast 4).slotKept k (downLast 4).pwrTarget = true) ∧ (downLast 4).pwr.wake = none ∧ (downLast 4).rdb Reg.pwrStat 12 = false ∧
    ({ downLast 2 with pwr := { (downLast 2).pwr with wake := some 4 } }).pwr.wake.isSome = true ∧ (downLast 2).pwrTarget = 2 := by decide +kernel

theorem witness_emergency : on.pwr.emergency = false ∧ on.pwr.heldCfg = [] ∧
    ({ on with pwr := { on.pwr with emergency := true } }).pwr.emergency = true ∧ on.rdf Reg.srmRetMap (4 * 7 + 3) (4 * 7) < 9 ∧
    (on.wrf Reg.pwrRetFails (2 * 7 + 1) (2 * 7) 1).rdf Reg.pwrRetFails (2 * 7 + 1) (2 * 7) = 1 ∧
    (∀ c, c < 8 → (on.wrf Reg.pwrRetFails (2 * 7 + 1) (2 * 7) 1).rdf Reg.srmRetMap (4 * c + 3) (4 * c) ≠ 8) ∧
    (on.wrf Reg.pwrRetFails (2 * 7 + 1) (2 * 7) 1).rdf Reg.srmRetMap (4 * 7 + 3) (4 * 7) = 7 := by decide +kernel

def halfBusy : State := (on.wrb Reg.pwrDomStat 12 false).setJob 15 255 (job0 .marking)

theorem witness_domainControl : on.takes (bus .oem) .pwr 0xD0 0 ∧ on.domOn 1 = true ∧ bit (0 : Word) 12 = false ∧ on.domOn 3 = true ∧
    on.domOn 5 = true ∧ (on.wrb Reg.pwrDomStat 3 false).domOn 3 = false ∧ (on.wrb Reg.pwrDomStat 3 false).takes (bus .oem) .pwr 0xD0 0 ∧
    halfBusy.takes (bus .oem) .pwr 0xD0 0x1EFF ∧ halfBusy.domOn 8 = true ∧ halfBusy.halfMarking 8 = true ∧ on.halfMarking 8 = false ∧
    bit (0x1EFF : Word) 12 = true ∧ bit (0x1EFF : Word) 8 = false ∧ halfBusy.domOn 12 = false ∧ halfBusy.railBlocks 12 = false ∧
    halfBusy.testMode = false ∧ (needed.wrf (Reg.psqSlotStat 11) 1 0 3 |>.wrb Reg.pwrDomStat 12 false).railBlocks 12 = true ∧
    (needed.wrf (Reg.psqSlotStat 11) 1 0 3 |>.wrb Reg.pwrDomStat 12 false).domOn 12 = false ∧
    (needed.wrf (Reg.psqSlotStat 11) 1 0 3 |>.wrb Reg.pwrDomStat 12 false).takes (bus .oem) .pwr 0xD0 0x1FFE := by
  unfold State.takes; decide +kernel

def switching12 (s : State) : State := { s.wrb Reg.pwrDomStat 12 false with pwr := { s.pwr with switching := [(12, 0)], heldOff := [7] } }

theorem witness_domainSwitch : (12 : Fin 13) ≠ 0 ∧ (switching12 on).pwr.switching = ((12 : Fin 13).val, 0) :: [] ∧
    (switching12 on).railBlocks 12 = false ∧ (switching12 (needed.wrf (Reg.psqSlotStat 11) 1 0 3)).railBlocks 12 = true ∧ (12 : Fin 13) ≠ 4 ∧
    (12 : Fin 13) ≠ 5 ∧ on.domOn 12 = true ∧ (switching12 on).domOn 12 = false ∧ 0 ≤ (switching12 on).now ∧
    7 ∈ (switching12 on).pwr.heldOff ∧ (switching12 on).halfMarking 7 = false ∧ regDomain Reg.netCfg = some 12 ∧
    aonReg Reg.netCfg = false ∧ Reg.netCfg % 4096 ≠ 0x14 ∧ Reg.netCfg ≠ Reg.thmStat ∧ (11 : Nat) ≠ 12 := by decide +kernel

/-- PWR_STAT holds a word. -/
def pwr (w : Word) : State := on.wr Reg.pwrStat w

theorem witness_powerRequest : on.takes (bus .oem) .pwr 0x40 5 ∧ 5 ≤ fld (5 : Word) 2 0 ∧ on.takes (bus .oem) .pwr 0x40 4 ∧
    ¬ (5 ≤ fld (4 : Word) 2 0 ∨ (on.rdb Reg.thmStat 14 = true ∧ fld (4 : Word) 2 0 ≠ 4)) ∧ (pwr 0x10).pwrPhase = 2 ∧
    (pwr 0x10).takes (bus .oem) .pwr 0x40 4 ∧ (pwr 0x10).rdb Reg.thmStat 14 ≠ true ∧ on.pwrPhase < 2 ∧ 1 ≤ fld (4 : Word) 2 0 ∧
    fld (4 : Word) 2 0 ≠ on.pwrState ∧ on.takes (bus .oem) .pwr 0x40 0 ∧ fld (0 : Word) 2 0 = on.pwrState := by
  unfold State.takes; decide +kernel

theorem witness_powerEntry : (pwr 0x108).pwr.aon = true ∧ (pwr 0x108).pwrPhase = 1 ∧ (pwr 0x108).pwr.heldCfg = [] ∧
    (pwr 0x108).powerWaits (pwr 0x108).pwrTarget = 0 ∧ (pwr 0x108).pwrTarget ≠ 1 ∧ (pwr 0x48).pwrTarget = 1 ∧ (pwr 0x48).pwrPhase = 1 ∧
    (pwr 0x48).powerWaits (pwr 0x48).pwrTarget = 0 ∧ (pwr 0x48).frozen Reg.pwrCnt = false ∧ (pwr 0x108).domOn 4 = true ∧
    ((pwr 0x108).setJob 15 255 (job0 .marking)).powerWaits ((pwr 0x108).setJob 15 255 (job0 .marking)).pwrTarget ≠ 0 ∧
    on.takes (bus .oem) .pwr 0x48 1 ∧ on.takes (bus .oem) .pwr 0x48 2 ∧ (pwr 0x108).takes (bus .oem) .pwr 0x48 2 ∧ on.pwrPhase ≠ 1 ∧
    ({ pwr 0x110 with pwr := { on.pwr with fwAt := some 0 } }).pwrPhase = 2 ∧
    ({ pwr 0x110 with pwr := { on.pwr with fwAt := some 0 } }).due ({ pwr 0x110 with pwr := { on.pwr with fwAt := some 0 } }).pwr.fwAt = true ∧
    (0x20000000 ≤ 0x2003FFFF ∧ 0x2003FFFF < 0x20040000) ∧ (0x800000000 ≤ 0x9FFFFFFFF ∧ 0x9FFFFFFFF < 0xA00000000) ∧ on.domOn 5 = true := by
  unfold State.takes; decide +kernel

/-- In WATCH; watch slot 7 samples input 0 above 15. -/
def watching : State := ((((pwr 3).wrb Reg.pwrWatchCfg 23 true).wr (Reg.pwrWatchSlotCfg 7) 0x000F0000).wr Reg.pwrWakeEn 0xFFF).wr Reg.pwrWchCfg 0x80

theorem witness_wakes : watching.pwr.aon = true ∧ watching.pwr.emergency = false ∧ watching.rdb Reg.pwrWakeEn 0 = true ∧
    2 ≤ watching.pwrState ∧ watching.pwrPhase = 0 ∧ watching.pwrState = 3 ∧ watching.pwrPhase ≠ 2 ∧ watching.rdb Reg.pwrWatchCfg (16 + 7) = true ∧
    watching.rdf (Reg.pwrWatchSlotCfg 7) 3 0 < 8 ∧
    (watching.watchSlot 7 ((Vector.replicate 8 (Vector.replicate 4 (16 : BitVec 16))).get 7).toList).2 = true ∧
    watching.rdb Reg.pwrWakeEn 1 = true ∧ watching.rdb Reg.pwrWchCfg 7 = true ∧ watching.rdb Reg.pwrWakeEn (4 + 7) = true ∧
    watching.rdb Reg.pwrWakeEn 2 = true ∧ ((watching.wr Reg.pwrAlarmLo 0).wr Reg.pwrAlarmHi 0).rd64 Reg.pwrAlarmLo Reg.pwrAlarmHi ≤ watching.tim.rtc.toNat ∧
    watching.tim.rtc.toNat < (watching.wr Reg.pwrAlarmLo 1).rd64 Reg.pwrAlarmLo Reg.pwrAlarmHi ∧ 65535 < 65536 ∧
    (watching.wr (Reg.pwrWatchSlotCfg 7) 7).rdf (Reg.pwrWatchSlotCfg 7) 3 0 < 8 := by decide +kernel

theorem witness_resetPin : usT - 1 < usT ∧ usT ≤ usT ∧ 2 ≤ watching.pwrState ∧ on.pwrPhase < 2 ∧ on.pwrState < 2 ∧ on.pwr.bootStep ≠ 2 ∧
    on.pwr.heldCfg = [] ∧ on.railBlocks 1 = false ∧ on.railBlocks 2 = false ∧ on.railBlocks 4 = false := by decide +kernel

def waking : State := pwr 0x18

theorem witness_wakeComplete : waking.pwrPhase = 3 ∧ 7 ≤ waking.pwr.bootStep ∧ waking.pwr.switching = [] ∧ waking.pwr.heldCfg = [] ∧
    waking.sec.boot.core0 = none ∧ (waking.wrf Reg.pwrWakeCause 14 12 4).rdf Reg.pwrWakeCause 14 12 = 4 ∧
    ({ waking with sec := { waking.sec with boot := { waking.sec.boot with core0 := some 0 } } }).sec.boot.core0.isSome = true ∧
    waking.rdb Reg.pwrStat 12 = false ∧ (pwr 0x1818).rdb Reg.pwrStat 12 = true ∧ 1 ≤ (pwr 0x1818).rdf Reg.pwrStat 11 9 ∧
    (pwr 0x1818).pwrPhase = 3 := by decide +kernel

theorem witness_rtc : on.domOn 4 = true ∧ (on.wrb Reg.pwrDomStat 4 false).domOn 4 = false ∧ on.tim.offTsc = none ∧
    ({ on with tim := { on.tim with offTsc := some 0 } }).tim.offTsc = some 0 ∧ on.rd Reg.timRtcTrim = 0 ∧ (0 : Nat) ≠ (11 : Fin 12).val ∧
    Instr.railTimeout 11 ∈ [Instr.pgEdge 11 true, .railQualified 11, .railTimeout 11] ∧
    Instr.rtcEdgeLatch ∈ [Instr.powerEntryStart, .powerCancel (bus .oem), .powerStateRequest (bus .oem) 0, .rtcEdgeLatch] := by decide +kernel

/-! ### Background work, wear and spares -/

/-- Banking runs activity `a`. -/
def banks (a : Nat) (s : State) : State := (s.wrb (Reg.pgCtrl .bkg) 0 true).wrb Reg.bkgEn a true
def driftDue : State := banks 4 (((lasOff.wrf (Reg.bkgGalvoT) 15 0 0).wrf (Reg.loopStat (loopIx (lasOff.loopX 15))) 1 0 1).wrf
  (Reg.loopStat (loopIx (lasOff.loopY 15))) 1 0 1)
def drifting (n : Nat) (t : Nat) : State := { on with bkg := { on.bkg with galvo := [(15, some ⟨t, n, -1, 1⟩)] } }

theorem witness_drift : driftDue.banking 4 = true ∧ driftDue.isLaser 15 = true ∧ tabGet none driftDue.bkg.galvo 15 = none ∧
    tabGet 0 driftDue.bkg.galvoAt 15 + driftDue.rdf Reg.bkgGalvoT 15 0 * secT ≤ driftDue.now ∧ driftDue.auditIdle 15 = true ∧
    (driftDue.galvoLoops 15).all driftDue.loopClosed = true ∧ (driftDue.wrf Reg.thmDmpStat 2 0 1).auditIdle 15 = false ∧
    driftDue.frozen Reg.bkgLate = false ∧ tabGet none (at1s (drifting 0 0)).bkg.galvo 15 = some ⟨0, 0, -1, 1⟩ ∧ 0 + msT ≤ (at1s (drifting 0 0)).now ∧
    (drifting 0 0).now < 0 + msT ∧ 256 ≤ 256 ∧ tabGet none (drifting 256 0).bkg.galvo 15 = some ⟨0, 256, -1, 1⟩ := by decide +kernel

def telling : State := banks 8 (at1s (on.wrb Reg.bkgTeleCfg 4 true))

theorem witness_telemetry : telling.banking 8 = true ∧ telling.rdb Reg.bkgTeleCfg 4 = true ∧ telling.bkg.teleSec < telling.now / secT ∧
    telling.frozen Reg.bkgLate = false ∧ telling.regionOk .oem true (telling.rdn Reg.bkgTeleBaseLo + telling.rdf Reg.bkgTeleBaseHi 7 0 * 2 ^ 32 +
      64 * (telling.rdn Reg.bkgTeleIdx % 2 ^ telling.rdf Reg.bkgTeleCfg 3 0)) 64 = true ∧
    ((telling.wr (Reg.secRgnBaseLo 15) 0x48).wr (Reg.secRgnAcl 15) 0).regionOk .oem true 0 64 = false ∧ telling.now < 2 ^ 64 := by
  decide +kernel

def hourOn : State := banks 9 { on with tim := { on.tim with tscAcc := 3600 * secT * 2 ^ 32 } }
def wearEntry : LogEntry := ⟨4, 7, List.replicate 568 1, 126⟩
def logged (used : Nat) (busy : Bool) (retry : Option Nat) : State := { banks 9 on with bkg := { on.bkg with
  log := [⟨1, 3, [1], 0⟩, wearEntry], logSeq := 8, used := used, sector := 125, writes := [⟨2, [5], busy, retry⟩], retired := [3, 4, 5, 6, 7, 8, 9] } }

theorem witness_wear : hourOn.banking 9 = true ∧ hourOn.bkg.wearAt + 3600 * secT ≤ hourOn.now ∧ (banks 9 on).banking 9 = true ∧
    (banks 9 on).now < (banks 9 on).bkg.wearAt + 3600 * secT ∧ on.takes (bus .oem) .bkg 0x6C 1 ∧ on.takes (bus .oem) .bkg 0x60 70 ∧
    (logged 0 false none).logInForce 4 = some wearEntry ∧ 70 < 71 := by unfold State.takes; decide +kernel

theorem witness_log : (logged 4079 false none).bkg.writes = ⟨2, [5], false, none⟩ :: [] ∧ (logged 4079 false none).logIdle = true ∧
    (logged 4079 false (some 0)).due (some 0) = true ∧ (logged 4079 false (some 0)).bkg.writes = ⟨2, [5], false, some 0⟩ :: [] ∧
    on.logIdle = false ∧ (∀ e ∈ (logged 4079 false none).bkg.log, e.seq < (logged 4079 false none).bkg.logSeq) ∧
    (logged 4079 false none).bkg.used + logSize [5] ≤ 4096 ∧ 4096 < (logged 4080 false none).bkg.used + logSize [5] ∧
    (logged 4080 false none).logNext 125 = 126 ∧ (logged 4079 true none).domOn 4 = true ∧
    (logged 4079 true none).bkg.writes = ⟨2, [5], true, none⟩ :: [] ∧ (logged 4079 true none).frozen Reg.bkgLogStat = false ∧
    (logged 4079 true none).bkg.retired.length = 7 ∧ (1 ≤ 2 ∧ 2 ≤ 3 ∧ 2 ≤ 4) ∧ (logged 0 false none).bkg.retired = [3, 4, 5, 6, 7, 8, 9] ∧
    [3, 4, 5, 6, 7, 8, 9].Nodup ∧ (∀ k ∈ [3, 4, 5, 6, 7, 8, 9], k < 128) ∧ [3, 4, 5, 6, 7, 8, 9].length ≤ 8 ∧
    8 < [3, 4, 5, 6, 7, 8, 9, 10, 127].length := by decide +kernel

theorem witness_logDistinct : (logged 4079 false none).bkg.log.Pairwise (fun x y => x.seq ≠ y.seq) := by decide +kernel

def cvOn (c : Fin 6) (s : State) : State := s.wrb (Reg.pgCtrl (.cv c)) 0 true
def calibrating (c : Nat) : State := cvOn (Fin.ofNat 6 c) { on with bkg := { on.bkg with convs := [(c, ⟨0, true, 1⟩)], standIn := some c } }
def spareFor (k : Nat) : State := on.wrf Reg.adcStat 2 0 k

theorem witness_converters : (on.conv 4).calibrating = false ∧ on.spareBank ≠ 4 ∧ ((calibrating 4).conv 4).calibrating = true ∧
    (spareFor 4).spareBank = 4 ∧ (spareFor 4).spareBank < 5 ∧ 5 ≤ on.spareBank ∧ ((calibrating 5).conv 5).calibrating = true ∧
    (cvOn 4 on).domOn 11 = true ∧ (cvOn 4 on).enabled (.cv 4) = true ∧ (spareFor 4).bankServed 4 = none ∧
    (cvOn 4 on).bankServed 4 = some 4 ∧ ((cvOn 4 on).wr (Reg.adcCvScanEn 4) 0x8000).scanNext 4 0 = some 15 ∧
    (on.wr (Reg.adcCvScanEn 4) 0).scanNext 4 0 = none ∧ on.rd (Reg.adcCvCal 4) = 0x80000000 ∧ on.bkg.terms = 0 ∧ on.dieGood 9 = false ∧
    (on.wr (Reg.thmDie 9) 0x10000).dieGood 9 = true := by decide +kernel

def calDue (c : Fin 6) : State := banks 5 (cvOn c { on with tim := { on.tim with tscAcc := c.val * secT * 2 ^ 32 } })

theorem witness_calibration : (calDue 4).banking 5 = true ∧ (calDue 4).domOn 11 = true ∧ (calDue 4).enabled (.cv 4) = true ∧
    ((calDue 4).conv 4).calibrating = false ∧ (calDue 4).now / secT % 10 = 4 ∧ (calDue 4).spareBank ≠ 4 ∧
    tabGet 0 (calDue 4).bkg.calSec 4 ≠ (calDue 4).now / secT + 1 ∧ (calDue 4).spareBank = 7 ∧ (calDue 4).bkg.standIn = none ∧
    (calDue 4).rdb Reg.adcStat 3 = false ∧ ((calDue 4).conv 5).calibrating = false ∧ (calDue 5).now / secT % 10 = 5 ∧
    (calibrating 4).frozen (Reg.adcCvCalCnt 4) = false ∧ (calibrating 4).rdf Reg.adcCalLim 15 0 < (0x8000 : BitVec 16).toInt.natAbs ∧
    ¬ ((calibrating 4).rdf Reg.adcCalLim 15 0 < (0 : BitVec 16).toInt.natAbs ∨
      (calibrating 4).rdf Reg.adcCalLim 31 16 * 32768 < (((0x8000 : BitVec 16).toNat : Int) - 32768).natAbs * 10000) ∧
    1 ≤ ((calibrating 4).conv 4).fails ∧ (calibrating 4).spareBank = 7 ∧ (calibrating 4).rdb Reg.adcStat 3 = false ∧
    ((calibrating 4).wrf Reg.adcStat 2 0 3).spareBank ≠ 7 ∧ 1 ≤ ((calibrating 5).conv 5).fails ∧
    (((calibrating 4).updConv 4 (fun x => { x with fails := 0 })).conv 4).fails = 0 ∧
    Instr.wearSave ∈ [Instr.adcCalibrationStart 4, .adcCalibrationEnd 4 0 0, .logStoreWrite, .logWriteRetry, .logWriteVerify true, .wearSave] := by
  decide +kernel

/-! ### The spec's worked examples -/

/-- Chapter 4, R110: 400 counts at 80,000 counts/s, at a steady speed and with 10,000 counts/s² (1,999,375 ticks). -/
theorem test_predict : predict (400 * 65536) 858993 0 = (0, 2000001) ∧ (predict (400 * 65536) 858993 4504).1 = 0 ∧
    1999370 ≤ (predict (400 * 65536) 858993 4504).2 ∧ (predict (400 * 65536) 858993 4504).2 ≤ 1999380 := by decide +kernel

/-- Chapter 6: the history index of dot 700 in lines 120 to 123. -/
theorem test_emberIndex : (histIndex 3 [true, true, false] [[false, false, false]]).getD 1 0 = 0x10 ∧
    (histIndex 3 [true, true, true] [[true, true, false]]).getD 1 0 = 0x71 ∧
    (histIndex 3 [true, true, true] [[true, true, true], [true, true, false]]).getD 1 0 = 0xF3 ∧
    (histIndex 3 [false, true, true] [[true, true, true], [true, true, true], [true, true, false]]).getD 1 0 = 0xE7 := by decide +kernel

/-- Chapter 5: "271031A421700512830" takes 10 data codewords, so the symbol is 16 × 16 with 12 and 12. -/
theorem test_dataMatrix : (dmxWords false [50, 55, 49, 48, 51, 49, 65, 52, 50, 49, 55, 48, 48, 53, 49, 50, 56, 51, 48]).length = 10 ∧
    (dmxFit 10 0 255).map (fun z => (z.size, z.data, z.ecc)) = some (16, 12, 12) := by decide +kernel

/-- Chapter 7: the correction at tx = -2,936,013 between nodes of 410 and 430 with CORR_SHIFT 4 gives gx = -2,929,197. -/
theorem test_gridCorrection : -2936013 + ((on.wr (Reg.lpGridCfg 0) 0x104).updLas 0 (fun l => { l with grid := [(2100, 410), (2101, 430)] })).gridCorr
    0 (-2936013) 0 false = -2929197 := by decide +kernel

/-- Chapter 8: the suggested gains of a tune with d = 200,000, h = 2,000, a = 52,000, Tu = 256,000 ticks at 400 kHz; the example
rounds its square root before it goes on, so its figures stand a few units of the last place higher. -/
def tuned : State := (((on.wrf (Reg.loopTuneAmp (loopIx 2)) 23 0 200000).wrf (Reg.loopTuneHyst (loopIx 2)) 23 0 2000).wrf
  (Reg.ldpCfg 0) 1 0 2).tuneGains 2 256000 52000
theorem test_tuneGains : (tuned.rdn (Reg.loopTuneKu (loopIx 2)) : Int) - 321173 ∈ [-1, 0, 1] ∧
    (tuned.rdn (Reg.loopTuneKp (loopIx 2)) : Int) - 192704 ∈ [-1, 0, 1] ∧ tuned.rdn (Reg.loopTuneKi (loopIx 2)) = 1505 ∧
    ((tuned.rdn (Reg.loopTuneKd (loopIx 2)) : Int) - 6166525).natAbs ≤ 16 := by decide +kernel

/-- Chapter 11: two ranks of 16 Gb dies; address 0x0123_4567 under MAP1 and MAP2. -/
def twoRanks : State := on.wr Reg.ddrCfg 0x15
theorem test_dram : twoRanks.dramSize = 0x1BFFE4000 ∧ dramBase + twoRanks.dramSize - 1 = 0x9BFFE3FFF ∧
    twoRanks.dramRow 0x801234567 = ⟨1, 0, 2, 665⟩ ∧ ((on.wr Reg.ddrCfg 0x16).dramRow 0x801234567).bank = 0 := by
  decide +kernel

/-- Chapter 12: the weft descriptor of channel 1's block, and where its last byte is read. -/
def blockDesc : Desc := ⟨0x84001F800, 0, 4656, 0, false, false, 0, 16, 0, 0, true⟩
theorem test_weft : weftCheck 1 blockDesc = none ∧ blockDesc.ringAddr 2047 = 0x84001FFFF ∧ blockDesc.ringAddr 2048 = 0x840010000 ∧
    blockDesc.ringAddr 4655 = 0x840010A2F := by decide +kernel

/-- Chapter 13: a residence of 986 ns adds 0x03DA_0000 to the correctionField. -/
theorem test_residence : slice (((on.wrf (Reg.netPLat 0) 15 0 186).wrf (Reg.netPLat 1) 31 16 95).tcCorrect 1
    ⟨List.replicate 64 0, 0, 1000000, some 8, none, none⟩ 1000282) 8 8 = beBytes 8 0x03DA0000 := by decide +kernel

/-- Chapter 2: channel 3's link page. -/
theorem test_linkPage : pageBase (.ch 3 5) = 0x40235000 ∧ pageDomain (.ch 3 5) = 9 ∧ pageParent (.ch 3 5) = some (.ch 3 0) := by decide +kernel

/-! ### Ill-formed commands -/

theorem test_illFormed : (Instr.registerWrite (bus .oem) (.addr 0) 3 0).wf = false ∧ (Instr.registerWrite (bus .oem) (.addr 0) 4 0).wf = true ∧
    (Instr.readbackCheck 0 (List.replicate 3073 true)).wf = false ∧ (Instr.readbackCheck 0 (List.replicate 3072 true)).wf = true ∧
    (Instr.dramTransaction [dreq 0x7FFFFFFFF] .clean).wf = false ∧ (Instr.dramTransaction [dreq 0x800000000] .clean).wf = true ∧
    (Instr.ethFrameReceive 0 [] true none).wf = false ∧ (Instr.ethFrameReceive 0 [0] true none).wf = true ∧
    (Instr.recoveryHello (List.replicate 4097 0)).wf = false ∧ (Instr.recoveryHeader (List.replicate 4097 0)).wf = false ∧
    (Instr.recoveryData (List.replicate 4097 0)).wf = false ∧ (Instr.recoveryRun (List.replicate 4097 0)).wf = false ∧
    (Instr.domainSwitchOn 0).wf = false ∧ (Instr.domainSwitchFail 0).wf = false ∧ (Instr.heldDomainOff 0).wf = false ∧
    (Instr.fgDomainReapply 0).wf = false ∧ (Instr.domainSwitchOn 12).wf = true := by decide +kernel

end Sys2Proof.Tests
end

section
/-! PROOFS. The precedence of verdicts (spec/01, R19, R20) and the verdict a job leaves with (spec/01, R20; spec/04, R106). -/
namespace Sys2Proof.Machine

/-! ### The order of R20 -/

/-- The codes in the order of R20, highest first, and after them 0, which stands for no condition. -/
def codesByRank : List (BitVec 4) :=
  [0x9, 0x8, 0xA, 0x7, 0xC, 0xB, 0x6, 0xE, 0xF, 0x2, 0x3, 0x4, 0x5, 0xD, 0x1] ++ [0x0]

/-- A code's rank is its place in the order of R20, counted from 1. -/
theorem codesByRank_getElem?_eq_some_iff {i : Nat} {a : BitVec 4} :
    codesByRank[i]? = some a ↔ condRank a.toNat = i + 1 := by
  constructor
  · intro h
    have rank_of_place : ∀ k : Fin codesByRank.length, condRank codesByRank[k].toNat = k + 1 := by decide
    obtain ⟨hi, rfl⟩ := List.getElem?_eq_some_iff.mp h
    exact rank_of_place ⟨i, hi⟩
  · intro h
    have place_of_rank : ∀ c : BitVec 4, codesByRank[condRank c.toNat - 1]? = some c := by decide
    simpa [h] using place_of_rank a

/-- Ranks start at 1, so each names a place in the order. -/
theorem condRank_pos (c : Nat) : 0 < condRank c := by
  unfold condRank
  split <;> decide

/-- No two codes share a rank. -/
theorem condRank_inj {a b : BitVec 4} (h : condRank a.toNat = condRank b.toNat) : a = b := by
  obtain ⟨i, hi⟩ : ∃ i, condRank b.toNat = i + 1 := Nat.exists_eq_add_one.mpr (condRank_pos _)
  have ha := codesByRank_getElem?_eq_some_iff.mpr (h.trans hi)
  have hb := codesByRank_getElem?_eq_some_iff.mpr hi
  exact Option.some.inj (ha.symm.trans hb)

/-! ### The condition that is kept -/

theorem condMax_eq_left {a b : BitVec 4} (h : condRank a.toNat ≤ condRank b.toNat) : condMax a b = a :=
  if_neg (Nat.not_lt.mpr h)

theorem condMax_eq_right_of_lt {a b : BitVec 4} (h : condRank b.toNat < condRank a.toNat) : condMax a b = b :=
  if_pos h

/-- The kept condition has the higher rank of the two, the smaller number. -/
theorem condRank_condMax (a b : BitVec 4) :
    condRank (condMax a b).toNat = min (condRank a.toNat) (condRank b.toNat) := by
  rcases Nat.lt_or_ge (condRank b.toNat) (condRank a.toNat) with h | h
  · rw [condMax_eq_right_of_lt h, Nat.min_eq_right (Nat.le_of_lt h)]
  · rw [condMax_eq_left h, Nat.min_eq_left h]

theorem condMax_comm (a b : BitVec 4) : condMax a b = condMax b a :=
  condRank_inj (by rw [condRank_condMax, condRank_condMax, Nat.min_comm])

theorem condMax_assoc (a b c : BitVec 4) : condMax (condMax a b) c = condMax a (condMax b c) :=
  condRank_inj (by simp only [condRank_condMax, Nat.min_assoc])

/-- The code that stands first in the order of R20 is kept, whichever came first. -/
theorem condMax_of_place_le {i k : Nat} {a b : BitVec 4} (ha : codesByRank[i]? = some a)
    (hb : codesByRank[k]? = some b) (hik : i ≤ k) : condMax a b = a ∧ condMax b a = a := by
  have hra := codesByRank_getElem?_eq_some_iff.mp ha
  have hrb := codesByRank_getElem?_eq_some_iff.mp hb
  have h : condMax a b = a := condMax_eq_left (by omega)
  exact ⟨h, (condMax_comm b a).trans h⟩

/-! ### A job's entry -/

@[simp] theorem State.setJob_job_same (s : State) (n j : Nat) (v : JobEntry) : (s.setJob n j v).job n j = v := by
  simp [State.setJob, State.updChan, State.job, tabGet_put_same]

theorem State.addCond_job_same (s : State) (n j : Nat) (c : BitVec 4) :
    (s.addCond n j c).job n j = { s.job n j with cond := condMax (s.job n j).cond c } :=
  State.setJob_job_same ..

/-- The condition a job leaves with: RECORD_FULL joins what it met when it has no record slot and finds none free (R106). -/
def State.exitCond (s : State) (n : Nat) (e : JobEntry) (reserved : Bool) : BitVec 4 :=
  if reserved || s.recFree n then e.cond else condMax e.cond 0xE

theorem State.exitCond_reserved (s : State) (n : Nat) (e : JobEntry) : s.exitCond n e true = e.cond := rfl

/-- An exit changes nothing of the job's entry but its condition and its verdict. -/
theorem State.leaveOut_entry (s : State) (n : Nat) (e : JobEntry) (reserved : Bool) :
    (s.leaveOut n e reserved).2 = { e with
      verdict := if e.st = .done ∧ s.exitCond n e reserved = 0 then 1 else s.exitCond n e reserved
      cond := s.exitCond n e reserved } := rfl

/-- The entry a job leaves with is the one its exit's effects leave; the cleanup of the table is after it. -/
theorem State.leaveJob_entry (s : State) (n j : Nat) (st : JobSt) :
    (s.leaveJob n j st).2 =
      (s.leaveOut n { s.job n j with st := st } ((s.job n j).st == .armed || (s.job n j).st == .marking)).2 := rfl

/-- A MARKING job holds its record slot, so the condition it met decides its verdict alone; MARKED_OK for a DONE job
that met none. -/
theorem State.leaveJob_verdict_of_marking {s : State} {n j : Nat} (st : JobSt) (hst : (s.job n j).st = .marking) :
    (s.leaveJob n j st).2.verdict = if st = .done ∧ (s.job n j).cond = 0 then 1 else (s.job n j).cond := by
  have held : ((s.job n j).st == .armed || (s.job n j).st == .marking) = true := by simp [hst]
  rw [State.leaveJob_entry, held, State.leaveOut_entry, State.exitCond_reserved]

/-! ### The statement -/

/-- Settles O24: a code's rank is its place in R20's list, and the kept condition is the one of least rank. -/
theorem verdictPrecedence : Obligations.VerdictPrecedence := by
  unfold Obligations.VerdictPrecedence
  intro list
  have place {i : Nat} {a : BitVec 4} (h : list[i]? = some a) : codesByRank[i]? = some a := by
    obtain ⟨hi, -⟩ := List.getElem?_eq_some_iff.mp h
    exact (List.getElem?_append_left hi).trans h
  refine ⟨fun i k a b ha hb hik => condMax_of_place_le (place ha) (place hb) hik, ?_, condMax_assoc,
    State.addCond_job_same, ?_⟩
  · intro a ha
    obtain ⟨i, hia⟩ := List.mem_iff_getElem?.mp ha
    obtain ⟨hi, -⟩ := List.getElem?_eq_some_iff.mp hia
    exact (condMax_of_place_le (place hia) (k := 15) rfl (Nat.le_of_lt hi)).symm
  · intro s n j hst hcond
    rw [State.leaveJob_verdict_of_marking .done hst, if_pos ⟨rfl, hcond⟩]

end Sys2Proof.Machine
end

section
/-! PROOFS. The reject policy (spec/03, R75): who writes LIN_POLICY, what a write stores, and what its bits decide (R76). -/
namespace Sys2Proof.Machine

/-! ### Who writes LIN_POLICY -/

theorem inMask_mOwner (r : Role) : inMask mOwner r = decide (r = .owner) := by
  cases r <;> decide

theorem roleRule_linPolicy (laser : Bool) (v : Word) : roleRule laser .lin 0x4C v = mOwner := rfl

/-- A write of LIN_POLICY is OWNER's alone, and needs OWNER in the page's WRITE_MASK. -/
theorem State.mayWrite_linPolicy (s : State) (r : Role) (v : Word) :
    s.mayWrite r .lin 0x4C v = (decide (r = .owner) && inMask (s.rdf (Reg.pgAcl .lin) 7 0) .owner) := by
  by_cases hr : r = .owner
  · subst hr
    simp [State.mayWrite, roleRule_linPolicy, inMask_mOwner]
  · simp [State.mayWrite, roleRule_linPolicy, inMask_mOwner, hr]

/-- The line page's WRITE_MASK lets OWNER write by default. -/
theorem owner_inMask_lin : inMask (pageAcl .lin).2.1 .owner = true := by decide

theorem State.takes_linPolicy_iff {s : State} (b : Bus) (v : Word) (hp : s.powered .lin = true)
    (hacl : s.rdf (Reg.pgAcl .lin) 7 0 = (pageAcl .lin).2.1) : s.takes b .lin 0x4C v ↔ b.role = .owner := by
  rw [State.takes, State.mayWrite_linPolicy, hacl, owner_inMask_lin, Bool.and_true, decide_eq_true_iff]
  exact and_iff_right hp

/-! ### What POLICY_WRITE does -/

theorem exec_policyWrite (b : Bus) (v : Word) (s : State) : exec (.policyWrite b v) s =
    .next (busWrite b .lin 0x4C v (fun s => s.wr Reg.linPolicy (v ||| 0xFFFF0001)) s) := rfl

theorem exec_policyWrite_takes {b : Bus} {v : Word} {s : State} (h : s.takes b .lin 0x4C v) :
    exec (.policyWrite b v) s = .next (s.ok.wr Reg.linPolicy (v ||| 0xFFFF0001)) := by
  rw [exec_policyWrite, busWrite_takes _ h]

theorem exec_policyWrite_refused {b : Bus} {v : Word} {s : State} (hp : s.powered .lin = true) (hr : b.role ≠ .owner) :
    exec (.policyWrite b v) s = .next (s.refuseWrite b .lin 0x4C v) := by
  have hm : s.mayWrite b.role .lin 0x4C v = false := by simp [State.mayWrite_linPolicy, hr]
  rw [exec_policyWrite, busWrite_refused _ hp hm]

theorem bit_or (v w : Word) (i : Nat) : bit (v ||| w) i = (bit v i || bit w i) := by
  simp [bit]

/-! ### What a policy bit decides -/

/-- The verdict that channel `c` gave a product. -/
def TrkEntry.verdictOf (x : TrkEntry) (c : Nat) : Nat := x.verdict.toNat / 2 ^ (4 * c) % 16

/-- Channel `c` is bound to the product, and the policy rejects its verdict (R75, R76). -/
def State.channelRejects (s : State) (x : TrkEntry) (c : Nat) : Bool :=
  x.bind.toNat.testBit c && s.rdb Reg.linPolicy (x.verdictOf c)

/-- A fold that turns a flag on at the elements of a kind has it on if it was on or an element is of that kind. -/
theorem foldl_flag_fst {α β : Type} (p : α → Bool) (g : β → α → β) (l : List α) (r : Bool × β) :
    (l.foldl (fun r c => if p c then (true, g r.2 c) else r) r).1 = (r.1 || l.any p) := by
  induction l generalizing r with
  | nil => simp
  | cons c l ih =>
    rw [List.foldl_cons, ih, List.any_cons]
    cases p c <;> simp

/-- The decision of R76: a product is rejected if it is forced or one of its channels rejects it. -/
theorem State.trkDecide_fst (s : State) (x : TrkEntry) :
    (s.trkDecide x).1 = (x.force || (List.range 16).any (s.channelRejects x)) :=
  foldl_flag_fst (s.channelRejects x) (fun k c => k + if x.verdictOf c = 0 then 1 else 0) (List.range 16) (x.force, 0)

theorem testBit_bindOne (n : Fin 16) (c : Nat) :
    (BitVec.ofNat 16 (2 ^ n.val)).toNat.testBit c = decide (c = n.val) := by
  have hlt : 2 ^ n.val < 2 ^ 16 := Nat.pow_lt_pow_right (by decide) n.isLt
  rw [BitVec.toNat_ofNat, Nat.mod_eq_of_lt hlt, Nat.testBit_two_pow]
  exact decide_eq_decide.mpr eq_comm

/-- Of the channels, only the one bound can reject. -/
theorem State.channelRejects_bindOne {s : State} {x : TrkEntry} {n : Fin 16}
    (hbind : x.bind = BitVec.ofNat 16 (2 ^ n.val)) (c : Nat) :
    s.channelRejects x c = (decide (c = n.val) && s.rdb Reg.linPolicy (x.verdictOf n.val)) := by
  rw [State.channelRejects, hbind, testBit_bindOne]
  by_cases hc : c = n.val
  · rw [hc]
  · simp [hc]

theorem State.trkDecide_bindOne {s : State} {x : TrkEntry} {n : Fin 16}
    (hbind : x.bind = BitVec.ofNat 16 (2 ^ n.val)) (hforce : x.force = false) :
    (s.trkDecide x).1 = s.rdb Reg.linPolicy (x.verdictOf n.val) := by
  rw [State.trkDecide_fst, hforce, Bool.false_or, Bool.eq_iff_iff, List.any_eq_true]
  simp only [State.channelRejects_bindOne hbind, Bool.and_eq_true, decide_eq_true_iff]
  constructor
  · rintro ⟨c, -, -, hreject⟩
    exact hreject
  · intro hreject
    exact ⟨n.val, List.mem_range.mpr n.isLt, rfl, hreject⟩

/-! ### The statement -/

/-- Settles O18: the role rule of LIN_POLICY is OWNER's alone, and a product's decision asks the policy of each bound
channel's verdict. -/
theorem rejectPolicy : Obligations.RejectPolicy := by
  unfold Obligations.RejectPolicy
  refine ⟨?reset, fun b v s h => exec_policyWrite_takes h, fun b v s hp hacl => State.takes_linPolicy_iff b v hp hacl,
    fun b v s hp hr => exec_policyWrite_refused hp hr, ?pendingRejects,
    fun s x n hbind hforce => State.trkDecide_bindOne hbind hforce⟩
  case reset => decide +kernel
  case pendingRejects =>
    intro v s
    have hone : bit 0xFFFF0001 0 = true := by decide
    rw [State.rdb_wr_same, bit_or, hone, Bool.or_true]

end Sys2Proof.Machine
end

section
/-! PROOFS. The arm check, the start of a mark and a stalled mark (spec/04, R101 to R104). -/
namespace Sys2Proof.Machine

/-! ### What leaves CH_CFG and CH_STAT as they are

CH_CFG and CH_STAT of a channel or station stand at offsets 0x40 and 0x48 of its page; the registers that fire a line or a
block, end a job in the executor or tell an event stand at other offsets, but for CHJ_STAT on the page of the job queue. -/

@[simp] theorem chCfg_mod (n : Nat) : Reg.chCfg n % 4096 = 0x40 := by
  simp only [Reg.chCfg, unitBase, chBase]
  split <;> omega

@[simp] theorem chStat_mod (n : Nat) : Reg.chStat n % 4096 = 0x48 := by
  simp only [Reg.chStat, unitBase, chBase]
  split <;> omega

/-- The units' pages stand behind those of the central units. -/
theorem chCfg_ge (n : Nat) : 0x40200000 ≤ Reg.chCfg n := by
  simp only [Reg.chCfg, unitBase, chBase]
  split <;> omega

theorem chStat_ge (n : Nat) : 0x40200000 ≤ Reg.chStat n := by
  simp only [Reg.chStat, unitBase, chBase]
  split <;> omega

theorem chCfg_ne_chjStat (n : Nat) : Reg.chCfg n ≠ Reg.chjStat n := by
  simp only [Reg.chCfg, Reg.chjStat, unitBase, chjBase, chBase]
  split <;> omega

theorem chjPeak_mod_ne (n : Nat) : Reg.chjPeak n % 4096 ≠ 0x40 := by
  simp only [Reg.chjPeak, chjBase, chBase]
  split <;> omega

@[simp] theorem pgStat_mod (p : Page) : Reg.pgStat p % 4096 = 0x14 := by
  simp only [Reg.pgStat, pageBase]
  omega

@[simp] theorem pgIrqStat_mod (p : Page) : Reg.pgIrqStat p % 4096 = 0x20 := by
  simp only [Reg.pgIrqStat, pageBase]
  omega

@[simp] theorem hpStat_mod (n : Nat) : Reg.hpStat n % 4096 = 0x60 := by
  simp only [Reg.hpStat]
  omega

@[simp] theorem hpCntBlank_mod (n : Nat) : Reg.hpCntBlank n % 4096 = 0xDC := by
  simp only [Reg.hpCntBlank]
  omega

@[simp] theorem lpStat_mod (n : Nat) : Reg.lpStat n % 4096 = 0xE0 := by
  simp only [Reg.lpStat, laserKey]
  omega

@[simp] theorem lpDurLast_mod (n : Nat) : Reg.lpDurLast n % 4096 = 0xF4 := by
  simp only [Reg.lpDurLast, laserKey]
  omega

@[simp] theorem lpDurMax_mod (n : Nat) : Reg.lpDurMax n % 4096 = 0xF8 := by
  simp only [Reg.lpDurMax, laserKey]
  omega

@[simp] theorem lpOnTime_mod (n : Nat) : Reg.lpOnTime n % 4096 = 0x140 := by
  simp only [Reg.lpOnTime, laserKey]
  omega

/-- A bit reads as its register does. -/
theorem rdb_of_rd {s t : State} {a : Nat} (h : t.rd a = s.rd a) (i : Nat) : t.rdb a i = s.rdb a i := by
  rw [State.rdb, State.rdb, h]

/-- Registers at different offsets of their pages are different. -/
theorem ne_of_offset {a c : Nat} (h : c % 4096 ≠ a % 4096) : c ≠ a := fun e => h (e ▸ rfl)

section
variable (s : State) {a c : Nat}

@[simp] theorem State.wrf_rd_of_offset (hi lo v : Nat) (h : c % 4096 ≠ a % 4096) : (s.wrf a hi lo v).rd c = s.rd c :=
  s.rd_wrf_other _ _ _ (ne_of_offset h)

@[simp] theorem State.wrb_rd_of_offset (i : Nat) (b : Bool) (h : c % 4096 ≠ a % 4096) : (s.wrb a i b).rd c = s.rd c :=
  s.rd_wrb_other _ _ (ne_of_offset h)

@[simp] theorem State.cntN_rd_of_offset (hi lo k : Nat) (h : c % 4096 ≠ a % 4096) : (s.cntN a hi lo k).rd c = s.rd c := by
  unfold State.cntN
  split
  · rfl
  · exact s.wrf_rd_of_offset _ _ _ h

@[simp] theorem State.cnt_rd_of_offset (hi lo : Nat) (h : c % 4096 ≠ a % 4096) : (s.cnt a hi lo).rd c = s.rd c :=
  s.cntN_rd_of_offset _ _ _ h

@[simp] theorem State.peak_rd_of_offset (hi lo k : Nat) (h : c % 4096 ≠ a % 4096) : (s.peak a hi lo k).rd c = s.rd c := by
  unfold State.peak
  split
  · exact s.wrf_rd_of_offset _ _ _ h
  · rfl

@[simp] theorem State.irq_rd_of_offset (p : Page) (b : Nat) (h : c % 4096 ≠ 0x20) : (s.irq p b).rd c = s.rd c := by
  unfold State.irq
  split
  · exact s.wrb_rd_of_offset _ _ (by rwa [pgIrqStat_mod])
  · rfl

@[simp] theorem State.wearAdd_rd (item k : Nat) : (s.wearAdd item k).rd c = s.rd c := rfl

@[simp] theorem State.addCond_rd (m j : Nat) (k : BitVec 4) : (s.addCond m j k).rd c = s.rd c := rfl

end

/-- A soot bit writes headers and the fault collector's page. -/
@[simp] theorem State.soot_rd_chStat (s : State) (p : Page) (b n : Nat) : (s.soot p b).rd (Reg.chStat n) = s.rd (Reg.chStat n) := by
  refine ((Leaves.refl s).soot (p := p) b).rd _ fun h => ?_
  have hoff := chStat_mod n
  have hpage := chStat_ge n
  simp only [sootRegs, evRegs] at h
  omega

theorem forL_rd {α : Type} {f : α → State → State} {c : Nat} (hf : ∀ x s, (f x s).rd c = s.rd c) (l : List α) (s : State) :
    (forL l f s).rd c = s.rd c := by
  induction l generalizing s with
  | nil => rfl
  | cons x xs ih => exact (ih _).trans (hf x s)

@[simp] theorem State.condMarking_rd (s : State) (n c : Nat) (k : BitVec 4) : (s.condMarking n k).rd c = s.rd c :=
  forL_rd (fun j s => s.addCond_rd n j k) _ _

/-! ### What leaves the jobs as they are -/

theorem State.job_of_jobs {s t : State} (h : t.jobs = s.jobs) (n j : Nat) : t.job n j = s.job n j := by
  simp only [State.job, State.chan, h]

theorem State.seq_of_jobs {s t : State} (h : t.jobs = s.jobs) (n : Nat) : t.seq n = s.seq n := by
  simp only [State.seq, h]

theorem State.irq_jobs (s : State) (p : Page) (b : Nat) : (s.irq p b).jobs = s.jobs := by
  unfold State.irq
  split
  · exact State.wr_jobs ..
  · rfl

theorem Leaves.jobs {R : Nat → Prop} {s t : State} (h : Leaves R s t) : t.jobs = s.jobs := by
  have e := congrArg State.jobs h.rest
  exact e

theorem State.soot_mem (s : State) (p : Page) (b : Nat) : (s.soot p b).mem = s.mem := ((Leaves.refl s).soot b).mem
theorem State.soot_jobs (s : State) (p : Page) (b : Nat) : (s.soot p b).jobs = s.jobs := ((Leaves.refl s).soot b).jobs

/-! ### A line or a block that fires -/

theorem State.fired_rdb (s : State) (n : Nat) : (s.fired n).rdb (Reg.chStat n) 3 = false :=
  State.rdb_wrb_same _ (by decide)

/-- After a line has cleared STALLED, its firing writes CH_STAT no more (R104, R165, R175). -/
theorem State.fireLine_stalled (s : State) (n : Nat) (l : ThermLine) (pin : Bool) :
    (s.fireLine n l pin).rdb (Reg.chStat n) 3 = false := by
  unfold State.fireLine
  extract_lets t ends lineEnd shiftAt trip s1 s2 s3 pulses s4 s5 pins s6
  have h2 : s2.rdb (Reg.chStat n) 3 = false := State.fired_rdb ..
  have h3 : s3.rd (Reg.chStat n) = s2.rd (Reg.chStat n) := by
    simp only [s3]
    split <;> simp
  have h5 : s5.rd (Reg.chStat n) = s3.rd (Reg.chStat n) := by simp [s5, s4]
  have h6 : s6.rd (Reg.chStat n) = s5.rd (Reg.chStat n) := by
    simp only [s6]
    split <;> rfl
  have hlast : (if pin = true then (s6.soot (chPage n 3) 1).condMarking n 7 else s6).rd (Reg.chStat n) =
      s6.rd (Reg.chStat n) := by
    split <;> simp
  exact (rdb_of_rd (hlast.trans (h6.trans (h5.trans h3))) 3).trans h2

section
variable (s : State) (n : Nat)

@[simp] theorem State.gateSet_rd_chStat (on : Bool) (m : Nat) : (s.gateSet n on).rd (Reg.chStat m) = s.rd (Reg.chStat m) := by
  unfold State.gateSet
  extract_lets l mask pins pins' s1 ticks ms s2
  have h1 : s1.rd (Reg.chStat m) = s.rd (Reg.chStat m) := by
    simp only [s1]
    exact State.wrb_rd_of_offset _ _ _ (by simp)
  split
  · rfl
  · split <;> simp [s2, h1]

@[simp] theorem State.gateEval_rd_chStat (m : Nat) : (s.gateEval n).rd (Reg.chStat m) = s.rd (Reg.chStat m) := by
  unfold State.gateEval
  extract_lets l on s1
  split
  · rfl
  · exact s.gateSet_rd_chStat n on m

@[simp] theorem State.gateDown_rd_chStat (m : Nat) : (s.gateDown n).rd (Reg.chStat m) = s.rd (Reg.chStat m) :=
  State.gateEval_rd_chStat ..

@[simp] theorem State.laserShow_rd_chStat (m : Nat) : (s.laserShow n).rd (Reg.chStat m) = s.rd (Reg.chStat m) := by
  simp [State.laserShow]

@[simp] theorem State.laserPark_rd (c : Nat) : (s.laserPark n).rd c = s.rd c := rfl

@[simp] theorem State.laserEnd_rd_chStat (ok : Bool) (m : Nat) :
    (s.laserEnd n ok).rd (Reg.chStat m) = s.rd (Reg.chStat m) := by
  unfold State.laserEnd
  extract_lets l s1 us s2 s3 s4 s5
  have h1 : s1.rd (Reg.chStat m) = s.rd (Reg.chStat m) := by
    simp only [s1]
    split <;> rfl
  have h5 : s5.rd (Reg.chStat m) = s1.rd (Reg.chStat m) := by simp [s5, s4, s3, s2, State.updLas]
  split
  · exact (s5.laserPark_rd n _).trans (h5.trans h1)
  · exact h5.trans h1

/-- Passing over invalid records writes no register. -/
@[simp] theorem State.skipInvalid_rd (ofs fuel c : Nat) : (s.skipInvalid n ofs fuel).rd c = s.rd c := by
  induction fuel generalizing s with
  | zero => rfl
  | succ fuel ih =>
    unfold State.skipInvalid
    extract_lets l s1
    split
    · rfl
    · rw [ih]
      simp only [s1]
      split <;> rfl

@[simp] theorem State.blockOver_rd_chStat (ofs m : Nat) :
    (s.blockOver n ofs).rd (Reg.chStat m) = s.rd (Reg.chStat m) := by
  unfold State.blockOver
  extract_lets l s1
  have h1 : s1.rd (Reg.chStat m) = s.rd (Reg.chStat m) := by
    simp only [s1]
    split
    · rfl
    · split
      · exact s.laserEnd_rd_chStat n false m
      · rfl
  exact (s1.laserShow_rd_chStat n m).trans h1

end

/-! ### The ring block of a job -/

/-- Memory, and where the block of job `j` of channel `n` stands in the ring, are as they were. -/
structure SameBlock (n j : Nat) (s t : State) : Prop where
  mem : t.mem = s.mem
  ofs : (t.job n j).ringOfs = (s.job n j).ringOfs
  len : (t.job n j).ringLen = (s.job n j).ringLen

theorem SameBlock.refl {n j : Nat} (s : State) : SameBlock n j s s := ⟨rfl, rfl, rfl⟩

theorem SameBlock.trans {n j : Nat} {s t u : State} (h : SameBlock n j s t) (g : SameBlock n j t u) : SameBlock n j s u :=
  ⟨g.mem.trans h.mem, g.ofs.trans h.ofs, g.len.trans h.len⟩

theorem SameBlock.of_eq {n j : Nat} {s t : State} (hmem : t.mem = s.mem) (hjobs : t.jobs = s.jobs) : SameBlock n j s t := by
  have hjob : t.job n j = s.job n j := State.job_of_jobs hjobs n j
  exact ⟨hmem, congrArg JobEntry.ringOfs hjob, congrArg JobEntry.ringLen hjob⟩

theorem SameBlock.soot {n j : Nat} (s : State) (p : Page) (b : Nat) : SameBlock n j s (s.soot p b) :=
  .of_eq (s.soot_mem p b) (s.soot_jobs p b)

theorem SameBlock.sramCe {n j : Nat} (s : State) : SameBlock n j s s.sramCe := by
  unfold State.sramCe
  split
  · exact .refl s
  · exact .trans (.of_eq (by simp) (by simp)) (.soot ..)

theorem SameBlock.addCond {n j : Nat} (s : State) (c : BitVec 4) : SameBlock n j s (s.addCond n j c) := by
  refine ⟨rfl, ?_, ?_⟩ <;> rw [State.addCond_job_same]

/-- The ring is searched for a job's block through memory and the entry's OFS and LEN alone (R153, R327). -/
theorem SameBlock.vblockAt {n j : Nat} {s t : State} (h : SameBlock n j s t) (k : Nat) :
    t.vblockAt n (t.job n j) k = s.vblockAt n (s.job n j) k := by
  have hbytes (ofs len : Nat) : t.ringBytes n ofs len = s.ringBytes n ofs len := by
    simp only [State.ringBytes, State.rdByte, h.mem]
  have hgo (k pos : Nat) : t.ringUnitGo n vblockSize 8 (t.job n j) k pos = s.ringUnitGo n vblockSize 8 (s.job n j) k pos := by
    induction k generalizing pos with
    | zero => simp only [State.ringUnitGo, h.ofs, h.len]
    | succ k ih => simp only [State.ringUnitGo, h.ofs, h.len, hbytes, ih]
  exact hgo k 48

/-- A vector block found in the ring fires, whatever its read and the preamble's find, and clears STALLED (R104, R203). -/
theorem exec_vectorBlockStart_stalled {n : Fin 16} (ecc pre : Ecc) {o : Nat} {s : State} (hon : s.laserOn n.val = true)
    (hjob : (s.las n.val).job ≠ 256) (hready : (s.las n.val).phase = .ready) (hfree : (s.las n.val).blockLoaded = false)
    (hat : s.vblockAt n.val (s.job n.val (s.las n.val).job) (s.las n.val).block = some o) :
    ∃ t, exec (.vectorBlockStart n ecc pre) s = .next t ∧ t.rdb (Reg.chStat n.val) 3 = false := by
  show ∃ t, execVectorBlockStart n ecc pre s = .next t ∧ _
  unfold execVectorBlockStart
  rw [if_neg (by simp [hon, hjob, hready, hfree])]
  extract_lets s1 s2 s3
  have h1 : SameBlock n.val (s.las n.val).job s s1 := by
    simp only [s1]
    split
    · cases pre with
      | clean => exact .refl s
      | corrected => exact .sramCe s
      | uncorrectable => exact .trans (.addCond s 7) (.trans (.soot ..) (.of_eq rfl rfl))
    · exact .refl s
  have h2 : SameBlock n.val (s.las n.val).job s1 s2 := by
    cases ecc with
    | clean => exact .refl s1
    | corrected => exact .sramCe s1
    | uncorrectable => exact .soot ..
  have hfound : s2.vblockAt n.val (s2.job n.val (s.las n.val).job) (s.las n.val).block = some o :=
    ((h1.trans h2).vblockAt _).trans hat
  rw [hfound]
  refine ⟨_, rfl, ?_⟩
  rw [rdb_of_rd (State.blockOver_rd_chStat ..), rdb_of_rd (State.skipInvalid_rd ..)]
  exact State.fired_rdb ..

/-! ### A stalled mark -/

/-- Writing bytes of memory changes memory alone. -/
theorem State.wrMem_eq (s : State) (a : Nat) (l : List Byte) : s.wrMem a l = { s with mem := (s.wrMem a l).mem } := by
  induction l generalizing s a with
  | nil => rfl
  | cons b t ih => exact ih (s.wrByte a b) (a + 1)

/-- The registers of the queue manager's page. -/
def qmgRegs (a : Nat) : Prop := a / 4096 = 0x400D0

theorem qmgRegs_irq : qmgRegs (Reg.pgIrqStat .qmg) := by
  unfold qmgRegs
  decide

section
variable {s t : State} {k : Nat} (hk : k < 128)
include hk

/-- A watermark raises at most its bit and its interrupt (R339). -/
theorem Leaves.qWatch (h : Leaves qmgRegs s t) (was : Nat) : Leaves qmgRegs s (t.qWatch k was) := by
  have hhi : qmgRegs (Reg.qmgWmHi (k / 32)) := by
    simp only [qmgRegs, Reg.qmgWmHi]
    omega
  have hlo : qmgRegs (Reg.qmgWmLo (k / 32)) := by
    simp only [qmgRegs, Reg.qmgWmLo]
    omega
  unfold State.qWatch
  have h1 := Leaves.ite (c := (t.queue k).hi != 0 && decide (was < (t.queue k).hi) && decide ((t.queue k).hi ≤ (t.queue k).used))
    ((h.wrb (k % 32) true hhi).irq 0 qmgRegs_irq) h
  exact Leaves.ite ((h1.wrb _ _ hlo).irq _ qmgRegs_irq) h1

/-- A push changes memory, its queue and the queue manager's page alone (R338, R339). -/
theorem State.qPush_leaves (s : State) (bytes : List Byte) :
    ∃ mem dma, Leaves qmgRegs { s with mem := mem, dma := dma } (s.qPush k bytes) := by
  unfold State.qPush
  split
  · unfold State.qAppend
    extract_lets q s1
    have hdma (dma : DmaState) : ({ s1 with dma := dma } : State) = { s with mem := s1.mem, dma := dma } :=
      congrArg (fun x : State => { x with dma := dma }) (s.wrMem_eq ..)
    refine ⟨s1.mem, (s1.updQueue k fun q => { q with tail := q.tail + 1 }).dma, Leaves.qWatch hk ?_ _⟩
    rw [← hdma]
    exact .refl _
  · exact ⟨s.mem, _, .refl _⟩

theorem State.qPush_jobs (s : State) (bytes : List Byte) : (s.qPush k bytes).jobs = s.jobs := by
  obtain ⟨mem, dma, h⟩ := s.qPush_leaves hk bytes
  exact h.jobs

theorem State.qPush_tim (s : State) (bytes : List Byte) : (s.qPush k bytes).tim = s.tim := by
  obtain ⟨mem, dma, h⟩ := s.qPush_leaves hk bytes
  exact h.tim

theorem State.qPush_rd (s : State) (bytes : List Byte) {c : Nat} (hc : ¬ qmgRegs c) : (s.qPush k bytes).rd c = s.rd c := by
  obtain ⟨mem, dma, h⟩ := s.qPush_leaves hk bytes
  exact h.rd c hc

end

theorem chStat_not_qmg (n : Nat) : ¬ qmgRegs (Reg.chStat n) := by
  have := chStat_ge n
  unfold qmgRegs
  omega

theorem chCfg_not_qmg (n : Nat) : ¬ qmgRegs (Reg.chCfg n) := by
  have := chCfg_ge n
  unfold qmgRegs
  omega

section
variable (s : State) (n : Fin 16) (kind j : Nat)

theorem eventQueue_lt (n : Fin 16) : 4 * n.val + 3 < 128 := by omega

/-- An event of a channel stands last in the list that TP_EVENT pops (R106). -/
theorem State.jobEvent_events : ((s.jobEvent n.val kind j).seq n.val).events =
    (s.seq n.val).events ++ [⟨BitVec.ofNat 8 kind, BitVec.ofNat 8 j⟩] := by
  unfold State.jobEvent State.chanEvent State.updSeq
  rw [State.setSeq_same, State.seq_of_jobs (State.qPush_jobs (eventQueue_lt n) ..)]

theorem State.jobEvent_job (m k : Nat) : (s.jobEvent n.val kind j).job m k = s.job m k :=
  (State.job_of_jobs (State.qPush_jobs (eventQueue_lt n) s _) m k :)

@[simp] theorem State.jobEvent_now : (s.jobEvent n.val kind j).now = s.now :=
  congrArg (·.tscAcc / 2 ^ 32) (State.qPush_tim (eventQueue_lt n) s _)

theorem State.jobEvent_rd {c : Nat} (hc : ¬ qmgRegs c) : (s.jobEvent n.val kind j).rd c = s.rd c :=
  State.qPush_rd (eventQueue_lt n) s _ hc

end

theorem exec_markStall {n : Fin 16} {j : Nat} {s : State} (hmark : s.markJob n.val = some j)
    (hclear : s.rdb (Reg.chStat n.val) 3 = false)
    (hlong : s.rdf (Reg.chStallT n.val) 15 0 * msT ≤ s.now - (s.chan n.val).lastFire) :
    exec (.markStall n) s = .next (((s.wrb (Reg.chStat n.val) 3 true).jobEvent n.val 3 j).irq (chPage n.val 2) 2) := by
  have hlate : decide (s.now - (s.chan n.val).lastFire < s.rdf (Reg.chStallT n.val) 15 0 * msT) = false :=
    decide_eq_false (Nat.not_lt.mpr hlong)
  show execMarkStall n s = _
  unfold execMarkStall
  dsimp only
  rw [hmark]
  dsimp only
  rw [hclear, hlate]
  rfl

/-- A stalled mark is told and its job goes on: no entry of any channel's table changes (R104). -/
theorem exec_markStall_stalled {n : Fin 16} {j : Nat} {s : State} (hmark : s.markJob n.val = some j)
    (hclear : s.rdb (Reg.chStat n.val) 3 = false)
    (hlong : s.rdf (Reg.chStallT n.val) 15 0 * msT ≤ s.now - (s.chan n.val).lastFire) :
    ∃ t, exec (.markStall n) s = .next t ∧ t.rdb (Reg.chStat n.val) 3 = true ∧
      (t.seq n.val).events = (s.seq n.val).events ++ [⟨3, BitVec.ofNat 8 j⟩] ∧ (∀ m k, t.job m k = s.job m k) := by
  refine ⟨_, exec_markStall hmark hclear hlong, ?stalled, ?told, fun m k => ?jobs⟩
  case stalled =>
    rw [rdb_of_rd (State.irq_rd_of_offset _ _ _ (by simp)), rdb_of_rd (State.jobEvent_rd _ _ _ _ (chStat_not_qmg _))]
    exact State.rdb_wrb_same _ (by decide)
  case told =>
    rw [State.seq_of_jobs (State.irq_jobs ..), State.jobEvent_events, State.seq_of_jobs (State.wrb_jobs ..)]
    rfl
  case jobs =>
    rw [State.job_of_jobs (State.irq_jobs ..), State.jobEvent_job, State.job_of_jobs (State.wrb_jobs ..)]

/-! ### The arm check -/

/-- The speed check of a job of channel `n` (R102, R210). -/
def State.speedOk (s : State) (n : Nat) (e : JobEntry) : Bool :=
  if s.isLaser n then s.laserSpeedOk n e else s.thermSpeedOk e

/-- The content of a job is composed and in the ring, and the warp is not past TRIG_POS - SELV_PRE (R101). -/
def State.contentOk (s : State) (e : JobEntry) : Bool :=
  e.st == .composed && e.inRing && ! s.past e (e.trigPos - e.selvPre)

/-- A between-mark pause of the Damper, or of a thermal channel's head, holds channel `n` (R101). -/
def State.paused (s : State) (n : Nat) : Bool :=
  s.rdb (Reg.chStat n) 4 || (! s.isLaser n && s.rdb (Reg.hpStat n) 1)

/-- The condition that a job's arm check keeps (R101). -/
def State.armCond (s : State) (n : Nat) (e : JobEntry) : BitVec 4 :=
  condMax (condMax (condMax (condMax e.cond (if s.recFree n then 0 else 0xE)) (if s.speedOk n e then 0 else 4))
    (if s.contentOk e then 0 else if e.damped then 0xD else 5)) (if s.paused n then 0xD else 0)

/-- A job's arm check is due, and the warp is not past its trigger. -/
structure ArmDue (s : State) (e : JobEntry) : Prop where
  st : e.st = .admitted ∨ e.st = .composed
  reached : s.warpAt e.enc.toNat e.armPos = true
  inTime : s.past e e.trigPos = false

section
variable {n : Fin 16} {j : BitVec 8} {s : State} {e : JobEntry} (hjob : s.job n.val j.toNat = e) (h : ArmDue s e)
include hjob h

/-- What an arm check in time does: ARMED with a record slot, or out with the condition kept (R101). -/
theorem exec_armCheck_due : exec (.armCheck n j) s =
    if s.recFree n.val && s.speedOk n.val e && s.contentOk e && ! s.paused n.val then
      .next ((((((s.qReserve (4 * n.val + 2)).setJob n.val j.toNat { e with st := .armed }).jobEvent n.val 1 j.toNat).galvoStop
        n.val).selftestStop n.val).chanShow n.val)
    else
      let c := s.armCond n.val e
      let s := s.addCond n.val j.toNat c
      let s := if c = 0xD ∧ (s.rdb (Reg.chStat n.val) 4 ∨ e.damped) then s.cnt Reg.thmDmpStat 31 16 else s
      .next (s.jobLeave n.val j.toNat (if c = 0xE ∨ c = 4 then .refused else .missed)) := by
  subst hjob
  have hdue : ¬ (! ((s.job n.val j.toNat).st == .admitted || (s.job n.val j.toNat).st == .composed) ||
      ! s.warpAt (s.job n.val j.toNat).enc.toNat (s.job n.val j.toNat).armPos) = true := by
    rcases h.st with hst | hst <;> simp [hst, h.reached]
  show execArmCheck n j s = _
  unfold execArmCheck
  dsimp only
  rw [if_neg hdue, h.inTime]
  rfl

/-- A job that passes every check. -/
theorem exec_armCheck_armed (hslot : s.recFree n.val = true) (hspeed : s.speedOk n.val e = true)
    (hcontent : s.contentOk e = true) (hpause : s.paused n.val = false) : exec (.armCheck n j) s =
      .next ((((((s.qReserve (4 * n.val + 2)).setJob n.val j.toNat { e with st := .armed }).jobEvent n.val 1 j.toNat).galvoStop
        n.val).selftestStop n.val).chanShow n.val) := by
  rw [exec_armCheck_due hjob h, hslot, hspeed, hcontent, hpause]
  rfl

/-- A job without a slot or its content leaves by the exit of the condition kept; the Damper counts nothing unless that is
THROTTLED. -/
theorem exec_armCheck_out (hfail : s.recFree n.val = false ∨ s.contentOk e = false) {c : BitVec 4}
    (hc : s.armCond n.val e = c) (hne : c ≠ 0xD) : exec (.armCheck n j) s =
      .next ((s.addCond n.val j.toNat c).jobLeave n.val j.toNat (if c = 0xE ∨ c = 4 then .refused else .missed)) := by
  rw [exec_armCheck_due hjob h, if_neg (by rcases hfail with hf | hf <;> simp [hf])]
  dsimp only
  rw [hc, if_neg fun hd => hne hd.1]

end

/-- MISSED is kept by a job that only lacks its content. -/
theorem State.armCond_missed {s : State} {n : Nat} {e : JobEntry} (hcond : e.cond = 0) (hslot : s.recFree n = true)
    (hspeed : s.speedOk n e = true) (hcontent : s.contentOk e = false) (hdamped : e.damped = false)
    (hpause : s.paused n = false) : s.armCond n e = 5 := by
  simp only [State.armCond, hcond, hslot, hspeed, hcontent, hdamped, hpause]
  rfl

/-- RECORD_FULL ranks above every other condition of the arm check (R20), so it is kept whatever else fails. -/
theorem State.armCond_recordFull {s : State} {n : Nat} {e : JobEntry} (hcond : e.cond = 0) (hslot : s.recFree n = false) :
    s.armCond n e = 0xE := by
  have hkeep {p : Prop} [Decidable p] {x y : BitVec 4} (hx : condMax 0xE x = 0xE) (hy : condMax 0xE y = 0xE) :
      condMax 0xE (if p then x else y) = 0xE := by
    split <;> assumption
  have hfirst : condMax 0 (if s.recFree n = true then 0 else 0xE) = 0xE := by
    rw [hslot]
    rfl
  rw [State.armCond, hcond, hfirst, hkeep rfl rfl, hkeep rfl (hkeep rfl rfl), hkeep rfl rfl]

/-! ### The start of a mark, and the speed check at a standstill -/

section
variable (s : State) (n : Nat)

@[simp] theorem State.galvoStop_now : (s.galvoStop n).now = s.now := by
  unfold State.galvoStop
  extract_lets bkg s1
  split
  · exact congrArg (·.tscAcc / 2 ^ 32) (State.wrb_tim ..)
  · rfl

theorem State.galvoStop_isLaser (m : Nat) : (s.galvoStop n).isLaser m = s.isLaser m := by
  unfold State.galvoStop
  extract_lets bkg s1
  split
  · exact rdb_of_rd (s1.wrb_rd_of_offset _ _ (by rw [chCfg_mod]; decide)) 0
  · rfl

/-- The job-table occupancy is shown on the page of the job queue. -/
@[simp] theorem State.usedShow_rd_chCfg (used : Nat) : (s.usedShow n used).rd (Reg.chCfg n) = s.rd (Reg.chCfg n) := by
  unfold State.usedShow
  extract_lets full was s1
  have h1 : s1.rd (Reg.chCfg n) = s.rd (Reg.chCfg n) := by
    have hpeak : Reg.chCfg n % 4096 ≠ Reg.chjPeak n % 4096 := by
      rw [chCfg_mod]
      exact (chjPeak_mod_ne n).symm
    simp only [s1]
    rw [State.peak_rd_of_offset _ _ _ _ hpeak, State.rd_wrb_other _ _ _ (chCfg_ne_chjStat n),
      State.rd_wrf_other _ _ _ _ (chCfg_ne_chjStat n)]
  split
  · rw [State.irq_rd_of_offset _ _ _ (by simp), h1]
  · exact h1

theorem State.chanShow_isLaser : (s.chanShow n).isLaser n = s.isLaser n := by
  refine rdb_of_rd ?_ 0
  simp [State.chanShow, State.portShow, State.setStat]

end

theorem State.jobEvent_isLaser (s : State) (n : Fin 16) (kind j m : Nat) :
    (s.jobEvent n.val kind j).isLaser m = s.isLaser m := rdb_of_rd (s.jobEvent_rd n kind j (chCfg_not_qmg m)) 0

theorem State.updChan_isLaser (s : State) (k m : Nat) (f : ChanState → ChanState) :
    (s.updChan k f).isLaser m = s.isLaser m := rfl

theorem State.setJob_isLaser (s : State) (n j m : Nat) (e : JobEntry) : (s.setJob n j e).isLaser m = s.isLaser m := rfl

theorem State.setJob_now (s : State) (n j : Nat) (e : JobEntry) : (s.setJob n j e).now = s.now := rfl

/-- The warp has reached an ARMED job's trigger: MARKING, with its stamp, and the port's engine begins (R103). -/
theorem exec_markingStart {n : Fin 16} {j : BitVec 8} {s : State} {e : JobEntry} (hjob : s.job n.val j.toNat = e)
    (hst : e.st = .armed) (hdue : s.warpAt e.enc.toNat e.trigPos = true) :
    let u := ((((s.setJob n.val j.toNat { e with st := .marking, startStamp := s.stamp }).jobEvent n.val 2 j.toNat).galvoStop
      n.val).updChan n.val (fun c => { c with lastFire := s.now, heldEnd := none })).chanShow n.val
    exec (.markingStart n j) s = .next (if s.isLaser n.val then u.laserMarkBegin n.val j.toNat
      else u.thermMarkBegin n.val j.toNat) := by
  subst hjob
  show execMarkingStart n j s = _
  unfold execMarkingStart
  dsimp only
  rw [if_neg (by simp [hst, hdue])]
  rw [State.chanShow_isLaser, State.updChan_isLaser, State.galvoStop_isLaser, State.jobEvent_isLaser, State.setJob_isLaser,
    State.galvoStop_now, State.jobEvent_now, State.setJob_now]

/-- At a standstill the predicted speed is 0 (R102). -/
theorem State.predSpeed_of_still {s : State} {e : JobEntry} (h : s.warpVelI e.enc.toNat = 0) : s.predSpeed e = 0 :=
  if_pos h

theorem State.thermSpeedOk_of_still {s : State} {e : JobEntry} (h : s.warpVelI e.enc.toNat = 0) : s.thermSpeedOk e = true := by
  simp [State.thermSpeedOk, State.predSpeed_of_still h]

/-! ### The statement -/

/-- Settles O27: the arm check's exits by the condition it keeps, the start of a mark, and what a stall, a line and a block
do to STALLED. -/
theorem armAndMark : Obligations.ArmAndMark := by
  unfold Obligations.ArmAndMark
  refine ⟨?armed, ?missed, ?refused, fun n j s => exec_markingStart rfl,
    fun n j s => exec_markStall_stalled, fun n l pin s => s.fireLine_stalled n.val l pin,
    fun n ecc pre o s => exec_vectorBlockStart_stalled ecc pre, fun e s => State.thermSpeedOk_of_still⟩
  case armed =>
    intro n j s e hst hdue htime hslot hspeed hcomposed hring hselv hdamper hhead
    have hcontent : s.contentOk e = true := by simp [State.contentOk, hcomposed, hring, hselv]
    have hpause : s.paused n.val = false := by
      rcases hhead with h | h <;> simp [State.paused, hdamper, h]
    exact exec_armCheck_armed rfl ⟨hst, hdue, htime⟩ hslot hspeed hcontent hpause
  case missed =>
    intro n j s e hst hdue htime hslot hspeed hcond hlacks hdamper hhead hdamped
    have hcontent : s.contentOk e = false := by
      rcases hlacks with h | h | h <;> simp [State.contentOk, h]
    have hpause : s.paused n.val = false := by simp [State.paused, hdamper, hhead]
    exact exec_armCheck_out rfl ⟨hst, hdue, htime⟩ (.inr hcontent)
      (State.armCond_missed hcond hslot hspeed hcontent hdamped hpause) (by decide)
  case refused =>
    intro n j s e hst hdue htime hslot hcond
    exact exec_armCheck_out rfl ⟨hst, hdue, htime⟩ (.inl hslot) (State.armCond_recordFull hcond hslot) (by decide)

end Sys2Proof.Machine
end
